-- ==== Sys2Proof/Word.lean ====
section
/-!
DEFINITION. The word types of the block: a byte and a 64-bit register word (R6, R543).
-/
namespace Sys2Proof

/-- One byte. -/
abbrev Byte := BitVec 8

/-- One 64-bit register word (R543). -/
abbrev Word := BitVec 64

/-- A byte from a number, keeping its low eight bits. -/
abbrev Byte.ofNat (n : Nat) : Byte := BitVec.ofNat 8 n

/-- A register word from a number, keeping its low 64 bits. -/
abbrev Word.ofNat (n : Nat) : Word := BitVec.ofNat 64 n

end Sys2Proof
end

