-- ==== Sys2Proof/Messages.lean ====
section
/-!
DEFINITION. Enkuor Link messages and flits as data (R367, R369): what link commands carry as operands and ports hold.
-/
namespace Sys2Proof

/-- A message: the header fields of R369, the virtual channel and buffer class it travels on, and its data units. -/
structure Msg where
  mtype : Nat
  vc : Nat := 0
  cls : Nat := 0
  admin : Bool := false
  space : Nat := 0
  dst : Nat := 0
  src : Nat := 0
  coach : Nat := 0
  tagw : Nat := 0
  addr : Nat := 0
  arg : Nat := 0
  data : List Byte := []
deriving DecidableEq, Repr

/-- A DATA flit as the sender keeps it in its replay buffer (R375): SEQ, channel, class, FIRST, payload, times sent. -/
structure TxFlit where
  seq : Nat
  vc : Nat
  cls : Nat
  first : Nat
  payload : List Byte
  sends : Nat
deriving DecidableEq, Repr

/-- The fields of a received flit header (R367). -/
structure FlitHdr where
  typ : Nat
  vc : Nat
  cls : Nat
  nak : Bool
  seq : Nat
  ack : Nat
  crsel : Nat
  crcum : Nat
  first : Nat
deriving DecidableEq, Repr

end Sys2Proof
end

