-- ==== Sys2Proof/Syntax.lean ====
section
/-!
DEFINITION. The commands of the block: one constructor per row of the table of operations and events. A row's operands name
the part it concerns, carry what arrives from outside, and carry the physical findings and the free choices of the device
that the source leaves open (log entries 5 and 6).
-/
namespace Sys2Proof

/-- What a controller finds when it serves a request (R309, R312-R314): the ECC result of the primary copy of one line (0 clean,
1 corrected, 2 uncorrectable), that line's offset in the request, the row of the pseudo-channel that backs it (the firmware's
choice of slots is invisible), whether the mirror copy of the line is found bad, whether the line has been copied while its
region is SYNCING, and the nanoseconds a regulator held the request. -/
structure MemFind where
  ecc : Nat := 0
  off : Nat := 0
  row : Nat := 0
  mirrorBad : Bool := false
  copied : Bool := false
  held : Nat := 0
deriving DecidableEq, Repr

/-- A fine access (R303): address, QoS class or 16 for device-internal traffic, and the 32 bytes of a write. -/
structure FineReq where
  addr : Nat
  cls : Nat
  write : Option (List Byte)
deriving DecidableEq, Repr

/-- A memory-side addition (R305). -/
structure AddReq where
  addr : Nat
  cls : Nat
  ty : Nat
  mask : Nat
  ret : Bool
  data : List Byte
deriving DecidableEq, Repr

/-- What FEC finds in the codewords that a flit overlaps (R368, R400): symbols corrected, and codewords not corrected. -/
structure FecFind where
  corr : Nat := 0
  uncorr : Nat := 0
deriving DecidableEq, Repr

/-- What an engine meets while it runs a work item: an upset of its arithmetic that a residue check finds, with the row and
column (R83, R90, R196), a scheduled port's conflict or hazard (R281, R282) with the bank, row and word, an error in a word of
the SPM (R287) or in lines of memory (R309), and the cycles spent. -/
structure EngFind where
  /-- The cause that the check hardware reports where it meets the upset; 0 for none. -/
  cause : Nat := 0
  row : Nat := 0
  col : Nat := 0
  /-- 1: this port lost a bank conflict at `spm`; 2: a row hazard there. -/
  port : Nat := 0
  spm : Nat := 0
  /-- An error in the word of the SPM at `eccAt`: 1 double-bit, 2 single-bit (R287). -/
  ecc : Nat := 0
  eccAt : Nat := 0
  /-- Cycles that yielding ports of the SPM waited meanwhile (R280). -/
  yield : Nat := 0
  /-- What controllers find in lines of memory (line number) that the work reads (R309). -/
  mem : List (Nat × MemFind) := []
  /-- Cycles the engine waited: for operands or pages, for its tile, for a free set, for carts or credits of its chain, for
  staged delta carts. -/
  waited : Nat := 0
  tileWait : Nat := 0
  setWait : Nat := 0
  barWait : Nat := 0
  cartWait : Nat := 0
deriving DecidableEq, Repr

/-- A part of the device by its number, and what its port at the scratchpad is found to do while it works. -/
structure UnitAt where
  no : Nat
  found : EngFind := {}
deriving DecidableEq, Repr

/-- What the sensors read beside the junction (R465, R474): the hottest stack in degrees, and VIN's 100 µs average in mV. -/
structure Sensors where
  thbm : Nat
  vin : Nat
deriving DecidableEq, Repr

/-- A ledger term found to differ at an evaluation (R503): class, owning coach or none, instance, observed, expected. -/
structure LedgerFind where
  cls : Nat
  coach : Option Nat
  inst : Nat
  observed : Nat
  expected : Nat
deriving DecidableEq, Repr

/-- Where the starting firmware places its own areas in region 0 (R298): first frame and frames of region 0 and of its mirror,
the sequence table, the OVE table, the graph store and its size, the translation tables. -/
structure Placement where
  fbase : Nat
  fcount : Nat
  mbase : Nat
  seqBase : Nat
  ovlBase : Nat
  gsStore : Nat
  storeMib : Nat
  ttStore : Nat
deriving DecidableEq, Repr

/-- The commands of the block, one constructor per row of the table. -/
inductive Instr where
  /-- GET_INFO (R431). Mailbox command that returns the interface version, stepping, CORE_CONFIG, firmware version, node id, MP load and role. -/
  | getInfo (box : Nat)
  /-- SET_ROLE (R431). Admin command that sets the device role MIXED, PREFILL or DECODE, with effect at the next step boundary. -/
  | setRole (box : Nat)
  /-- SET_CORE_CONFIG (R431). Admin or sideband command that records 112 or 128 logical cores for the next cold reset. -/
  | setCoreConfig (box : Nat)
  /-- TOPO_SET (R379). Admin command that loads the topology map, which gives the node id, the group count and the expected port partners. -/
  | topoSet (box : Nat)
  /-- DRAIN (R397). Admin or sideband command that begins or ends the admin drain source, setting or clearing DRAIN in the device's marks. -/
  | drain (box : Nat)
  /-- STAND_ENTER (R467). Command that starts entry into STAND once every coach is VACANT or HALTED and no blocking activity is in progress. -/
  | standEnter (box : Nat)
  /-- SHUTDOWN (R482). Command that drains the device, runs the shut-down self-test and then turns off the main rails. -/
  | shutdown (box : Nat)
  /-- CHIP_RESET (R480). Command that writes its response and then triggers a chip warm reset. -/
  | chipReset (box : Nat)
  /-- FW_HANDOVER (R434). Admin command that stops taking commands, finishes or checkpoints the ones in progress, and starts a live firmware replacement. -/
  | fwHandover (box : Nat)
  /-- CORE_WITHDRAW (R405). Admin command that withdraws an ACTIVE physical core and maps a spare behind its logical core, or is refused when no spare is left. -/
  | coreWithdraw (box : Nat)
  /-- CORE_TEST (R410). Admin command that runs an in-field test on an ACTIVE or SPARE core. -/
  | coreTest (box : Nat)
  /-- LOG_READ (R520). Mailbox command that returns up to 7 event-log records from a given record number, filtered for coach mailboxes. -/
  | logRead (box : Nat)
  /-- ID_GET (R449). Mailbox command that returns identity, the device key modulus, the measurements or the coach measurement, by selector. -/
  | idGet (box : Nat)
  /-- ATTEST_QUOTE (R450). Mailbox command that queues a quote over the selected measurement registers and a nonce, to be signed with the device key. -/
  | attestQuote (box : Nat)
  /-- COACH_CREATE (R330). Admin command that takes a translation table, writes the reset values of the coach registers and makes the coach HALTED. -/
  | coachCreate (box : Nat)
  /-- COACH_DESTROY (R331). Admin command that removes the mappings of a HALTED coach with no objects, returns its tables and starts clearing its SPM rows. -/
  | coachDestroy (box : Nat)
  /-- COACH_START (R329). Command that makes a HALTED coach RUNNING. -/
  | coachStart (box : Nat)
  /-- COACH_HALT (R327). Command that makes a RUNNING coach DRAINING and answers when the coach reaches HALTED. -/
  | coachHalt (box : Nat)
  /-- COACH_RESET (R345). Command that cancels the coach's mailbox command, masks its rows, ends its carriages and frees its names, imports, exports and paused sequences before making it HALTED. -/
  | coachReset (box : Nat)
  /-- COACH_MAP (R335). Admin command that maps a 64 KiB-aligned coach address range to device physical memory inside one region. -/
  | coachMap (box : Nat)
  /-- COACH_UNMAP (R336). Admin command that removes page mappings at once and answers once the caches are dropped and earlier carriages have completed. -/
  | coachUnmap (box : Nat)
  /-- LAUNCH_AT (R360). Admin command that schedules a HALTED coach to start at a GCOUNT value T, optionally in lockstep with period P. -/
  | launchAt (box : Nat)
  /-- REGION_SET (R297). Admin command that creates a HASHED or NEAR region, assigns backing slots and starts any mirror. -/
  | regionSet (box : Nat) (pick : Nat)
  /-- REGION_CLEAR (R297). Admin command that removes a region that nothing references. -/
  | regionClear (box : Nat)
  /-- MEM_MARGIN (R318). Admin command that sweeps the read and write eyes of every pseudo-channel of the named stacks. -/
  | memMargin (box : Nat)
  /-- KV_POOL_SET (R206). Admin command that sets the KV pool, scale and cold areas while no pages are used or reserved. -/
  | kvPoolSet (box : Nat)
  /-- GRAPH_REGISTER (R248). Command that reserves a graph id, validates a graph image and copies it into the graph store in one commit. -/
  | graphRegister (box : Nat)
  /-- GRAPH_UPDATE (R252). Command that validates a new layer descriptor and stages it for the next step boundary. -/
  | graphUpdate (box : Nat)
  /-- GRAPH_UNREGISTER (R250). Command that removes a registered graph that no sequence, OVE or armed step uses. -/
  | graphUnregister (box : Nat)
  /-- GRAPH_SHARE (R431). Admin command that shares a graph with another coach, or withdraws the share. -/
  | graphShare (box : Nat)
  /-- TABLE_LOAD (R103). Admin command that validates a decode-table image and puts a slot into LOADING to copy it to every XE. -/
  | tableLoad (box : Nat)
  /-- TABLE_RETIRE (R104). Admin command that moves a LIVE decode-table slot to RETIRING, or to FREE when its COUNT is zero. -/
  | tableRetire (box : Nat)
  /-- OVERLAY_LOAD (R146). Command that validates an overlay descriptor, makes a FREE OVE LIVE and current for the name, and retires the previous version. -/
  | overlayLoad (box : Nat) (pick : Nat)
  /-- OVERLAY_DROP (R147). Command that empties an overlay name and moves its current OVE on. -/
  | overlayDrop (box : Nat)
  /-- OVERLAY_READ (R431). Command that returns the REFS, coach and state of up to 60 OVEs. -/
  | overlayRead (box : Nat)
  /-- SEQ_OPEN (R223). Command that takes a FREE sequence entry, zeroes it, sets OWNER and makes it IDLE. -/
  | seqOpen (box : Nat) (pick : Nat)
  /-- SEQ_CANCEL (R237). Command that registers a cancellation of a sequence, as a write of CANCEL does. -/
  | seqCancel (box : Nat)
  /-- KV_PAUSE (R210). Command that schedules the move of a HOT sequence's pages to cold HBM or host memory at the next step boundary. -/
  | kvPause (box : Nat)
  /-- KV_RESUME (R214). Command that starts bringing a COLD sequence's pages back into the hot pool as A4. -/
  | kvResume (box : Nat)
  /-- KV_IMPORT_OPEN (R216). Command that reserves pages for an incoming shipment and returns a ticket and the node id. -/
  | kvImportOpen (box : Nat) (pick : Nat)
  /-- KV_IMPORT_CLOSE (R216). Command that closes an import that has not committed, freeing its landed pages and its reservation. -/
  | kvImportClose (box : Nat)
  /-- KV_SHIP (R217). Command that starts the export of a HOT sequence to a new destination and ticket. -/
  | kvShip (box : Nat)
  /-- COLL_OPEN (R389). Command that opens a collective context with a member list, an operation, a type and areas. -/
  | collOpen (box : Nat) (pick : Nat)
  /-- COLL_RUN (R390). Command that runs one instance of a collective over the tree of members. -/
  | collRun (box : Nat)
  /-- COLL_CLOSE (R431). Command that closes a collective context that has no run in progress. -/
  | collClose (box : Nat)
  /-- TABLE_LOAD_DONE (R103). Every XE has acknowledged its copy of the image, so GEN advances, the slot becomes LIVE and TABLE_LOAD answers. -/
  | tableLoadDone (slot : Nat)
  /-- QUOTE_SIGNED (R450). The trust block finishes signing a queued quote, reading the registers at signing time, and the response is written. -/
  | quoteSigned
  /-- MARGIN_DONE (R318). The margining sweep ends, the trained settings return, the patrol resumes and MGN_RES holds the results. -/
  | marginDone (eyes : List (Nat × Nat))
  /-- COACH_DESTROY_DONE (R331). The clearing of the coach's SPM rows completes, the coach becomes VACANT and COACH_DESTROY answers. -/
  | coachDestroyDone (coach : Nat)
  /-- MIRROR_SYNC_DONE (R313). Every line of a region has been copied, so the mirror state moves from SYNCING to ACTIVE. -/
  | mirrorSyncDone (region : Nat)
  /-- MIRROR_REBUILD (R314). A queued rebuild rewrites a bad copy of a mirrored line from the good copy. -/
  | mirrorRebuild
  /-- KV_MOVE_DONE (R209). A pause or resume move finishes its last page, so the tier becomes COLD or HOT, the old pages are freed and the command answers. -/
  | kvMoveDone (slot : Nat) (pages : List Nat) (lost : Bool)
  /-- HANDOVER_CHECKPOINT_DONE (R434). The MP has finished short commands and checkpointed its tables, and it takes an MP-only reset to load the new image. -/
  | handoverCheckpointDone
  /-- FIRMWARE_RESTORE_DONE (R434). The started firmware has restored its tables and audited the ledgers, so it clears MP_DOWN, answers waiting commands and resumes service. -/
  | firmwareRestoreDone (ok : Bool)
  /-- STAND_DRAINED (R467). During STAND entry the drain completes, patrol stops, queues empty and the MP writes its response. -/
  | standDrained
  /-- STAND_ACK_WAIT_END (R467). The completion acknowledgement arrives or 1 ms passes, so ports are disabled, stacks enter self-refresh, state is retained and the main rails turn off. -/
  | standAckWaitEnd
  /-- SELFTEST_DONE (R482). The shut-down self-test items finish or stop, host ports retrain, the response is written and the main rails turn off. -/
  | selftestDone (results : List Byte)
  /-- EKL_WRITE (R370). An inbound WRITE message is applied to device memory, the control window or the sequence aperture after translation and access checks, and it is acknowledged. -/
  | eklWrite (port : Nat) (m : Msg)
  /-- EKL_WRITE_ACK (R370). A WRITE_ACK arrives for a write that the device sent, completing it, including interrupt frames and pushed outputs. -/
  | eklWriteAck (port : Nat) (m : Msg)
  /-- EKL_READ (R370). An inbound READ message reads device memory or the control window and answers with READ_DATA. -/
  | eklRead (port : Nat) (m : Msg)
  /-- EKL_READ_DATA (R370). A READ_DATA response arrives for a read that the device issued, such as a boot image read. -/
  | eklReadData (port : Nat) (m : Msg)
  /-- EKL_ADD (R305). An inbound ADD message performs a memory-side addition on a 32-byte granule and answers with ADD_ACK. -/
  | eklAdd (port : Nat) (m : Msg)
  /-- EKL_ADD_ACK (R370). An ADD_ACK arrives for an ADD that the device issued. -/
  | eklAddAck (port : Nat) (m : Msg)
  /-- DRAWBAR (R265). A remote drawbar cart arrives on VC6 and, after its PASS is compared, waits, is discarded as stale, or goes to the TE. -/
  | drawbar (port : Nat) (m : Msg)
  /-- CHAIN_DONE (R266). CHAIN_DONE arrives for a chain and PASS, letting the local members of the chain complete. -/
  | chainDone (port : Nat) (m : Msg)
  /-- REPLAY (R266). REPLAY arrives for a chain and PASS, so local members are discarded and dispatched again with ATTEMPT raised. -/
  | replay (port : Nat) (m : Msg)
  /-- BAR_CREDIT (R370). BAR_CREDIT returns drawbar credits of a remote chain link to the sender. -/
  | barCredit (port : Nat) (m : Msg)
  /-- SHIP_HEADER (R220). A shipment header arrives and is checked against an open import and its geometry, and is answered with ACCEPT or NAK. -/
  | shipHeader (port : Nat) (m : Msg)
  /-- SHIP_PAGE_RECORD (R220). A shipment page record arrives and is checked for CRC and order. -/
  | shipPageRecord (port : Nat) (m : Msg)
  /-- SHIP_PAGE_DATA (R220). A page's 18 data carts arrive, are checked against the record's CRCs and are written into a reserved page and its entries. -/
  | shipPageData (port : Nat) (m : Msg) (page : Nat)
  /-- SHIP_TRAILER (R220). A shipment trailer arrives, and a matching digest commits the import, sets the sequence HOT and sends COMMIT. -/
  | shipTrailer (port : Nat) (m : Msg)
  /-- SHIP_ACCEPT (R220). The sender receives ACCEPT for its header and sends the pages. -/
  | shipAccept (port : Nat) (m : Msg)
  /-- SHIP_NAK (R221). The sender receives a NAK, and it resends the page once or aborts with the status given. -/
  | shipNak (port : Nat) (m : Msg)
  /-- SHIP_COMMIT (R220). The sender receives COMMIT, so it frees its pages at the next step boundary, advances SHIP_OUT and completes the sequence OK. -/
  | shipCommit (port : Nat) (m : Msg)
  /-- SHIP_ABORT (R221). The sender receives ABORT, keeps the sequence marked not admitted and completes it with SHIP_FAILED. -/
  | shipAbort (port : Nat) (m : Msg)
  /-- SHIP_ANSWER_TIMEOUT (R221). No answer comes within 10 ms of the last cart sent, so the sender restarts the shipment with ATTEMPT + 1, or aborts on the third loss. -/
  | shipAnswerTimeout (slot : Nat)
  /-- COLL_UP (R392). A COLL_UP segment arrives from a child, its digest is checked, and it is summed and sent on to the parent. -/
  | collUp (port : Nat) (m : Msg)
  /-- COLL_DOWN (R392). A COLL_DOWN segment arrives, is checked, written and forwarded to the children, ending the run when complete. -/
  | collDown (port : Nat) (m : Msg)
  /-- COLL_ABORT (R393). COLL_ABORT arrives, is forwarded to parent and children, and the run completes with its status and no result. -/
  | collAbort (port : Nat) (m : Msg)
  /-- COLL_TIMEOUT (R393). A collective run waits past its time limit for a segment, completes with TIMEOUT and sends COLL_ABORT. -/
  | collTimeout (ctx : Nat)
  /-- MGMT (R370). A management message arrives on VC7 for the firmware. -/
  | mgmt (port : Nat) (m : Msg)
  /-- BOOT_GRANT (R441). The host adapter's BOOT_GRANT arrives in REQUEST, naming the image and the hand-back block. -/
  | bootGrant (port : Nat) (m : Msg)
  /-- MESSAGE_FORWARD (R386). A whole message addressed to another node is forwarded by the port switch on its route entry's port. -/
  | messageForward (port : Nat) (m : Msg)
  /-- DATA_FLIT (R375). A DATA flit arrives, and it is accepted in SEQ order or discarded, with its ACK, NAK and credit fields taken. -/
  | dataFlit (port : Nat) (flit : List Byte) (fec : FecFind)
  /-- IDLE_FLIT (R373). An IDLE flit arrives, carrying ACK, NAK and one credit counter. -/
  | idleFlit (port : Nat) (flit : List Byte) (fec : FecFind)
  /-- MARK_FLIT (R377). A start-of-frame mark arrives and serves training, partner checks, credits, drain notice and GCOUNT synchronisation. -/
  | markFlit (port : Nat) (flit : List Byte) (fec : FecFind)
  /-- REPLAY_TIMEOUT (R375). 4 µs pass with flits unacknowledged and ACK unchanged, so the sender replays them, or enters RETRAIN at the replay limit. -/
  | replayTimeout (port : Nat)
  /-- FRAME_START (R365). A 1.024 µs frame begins at a GCOUNT multiple of 1,024, and each port sends its start-of-frame mark in slot 0. -/
  | frameStart
  /-- SYNC_MARK_LOSS (R359). No mark arrives on the source port for 16 frames, so a LOCKED follower moves to HOLDOVER. -/
  | syncMarkLoss
  /-- SYNC_HOLDOVER_EXPIRY (R359). 10 ms pass in HOLDOVER without marks, so the follower falls to FREE. -/
  | syncHoldoverExpiry
  /-- LIGHT_DETECT (R378). Light is seen on all lanes of a DOWN port, and the port enters TRAINING. -/
  | lightDetect (port : Nat)
  /-- TRAINING_RETRY (R378). The 100 ms attempt interval of a DOWN port expires, and training is attempted again. -/
  | trainingRetry (port : Nat) (light : Bool)
  /-- TRAINING_TIMEOUT (R378). No lock is reached within 10 ms of training, so the port returns to DOWN. -/
  | trainingTimeout (port : Nat)
  /-- FEC_LOCK_LOSS (R378). An UP port loses FEC lock on a lane and enters RETRAIN, keeping its replay buffer. -/
  | fecLockLoss (port : Nat) (lane : Nat)
  /-- RETRAIN_RELOCK (R378). A RETRAIN port relocks within 1 ms and returns to UP, replaying from the partner's ACK. -/
  | retrainRelock (port : Nat) (ack : Nat)
  /-- RETRAIN_TIMEOUT (R378). A RETRAIN port fails to relock for 1 ms, goes DOWN with cause 0x72 and loses its messages. -/
  | retrainTimeout (port : Nat)
  /-- LOSS_OF_SIGNAL (R378). A lane loses signal for 10 µs, so the port goes DOWN, its messages are lost and routes move to the alternate. -/
  | lossOfSignal (port : Nat) (lane : Nat)
  /-- ROUTE_UPDATE (R385). The firmware writes new route entries after a link state change and advances TABLE_UPDATES. -/
  | routeUpdate
  /-- PRESENCE_CHANGE (R395). A connector's debounced presence ends or begins. Removal turns off the connector's lasers in hardware, drops its ports to DOWN and notifies the hosts. -/
  | presenceChange (oc : Nat) (present : Bool)
  /-- PRESENCE_STEADY (R395). Presence has been steady for 100 ms, so the connector's lasers turn on and its ports train. -/
  | presenceSteady (oc : Nat)
  /-- DRAIN_COMPLETE (R397). 100 µs pass with no transit and empty replay buffers, so DRAINED reads 1 and waiting drain commands answer. -/
  | drainComplete
  /-- HOST_WRITE_GIVEUP (R394). No route to the host returns within 1 s, so the device's kept VC1 writes to that host are discarded. -/
  | hostWriteGiveup (port : Nat)
  /-- INTERRUPT_FRAME_RESEND (R394). An interrupt frame has had no WRITE_ACK for 1 ms and is sent again. -/
  | interruptFrameResend (tag : Nat)
  /-- SEQ_INPUT_WRITE (R226). A host write to a sequence's INPUT word is snooped, and a new GEN moves the sequence to READY and sets its ready bit. -/
  | seqInputWrite (coach : Nat) (slot : Nat) (word : Nat)
  /-- SEQ_CANCEL_BIT (R237). A host write sets CANCEL in a sequence's CTRL word, and the SB registers the cancellation and masks any running row. -/
  | seqCancelBit (coach : Nat) (slot : Nat)
  /-- SEQ_CLOSE_BIT (R237). A host write sets CLOSE in a sequence's CTRL word, and the SB registers a normal end. -/
  | seqCloseBit (coach : Nat) (slot : Nat)
  /-- SEQ_ENTRY_STAGED (R236). The SB's fine reads of a sequence entry complete, and the copy is kept in its staging buffer. -/
  | seqEntryStaged (slot : Nat)
  /-- DEADLINE_CHECK (R238). The periodic comparison of DEADLINE with GCOUNT falls due for RUNNING sequences, every 1 µs. -/
  | deadlineCheck
  /-- DEADLINE_EXPIRY (R239). A sequence's deadline is found past, so its row is masked and it is freed at the next boundary with DEADLINE. -/
  | deadlineExpiry (slot : Nat)
  /-- SB_IDLE_TIMER (R213). The 1 ms check runs while no step runs, covering expiries, deadlines and the freeing of ending sequences. -/
  | sbIdleTimer
  /-- KV_TTL_EXPIRY (R213). A COLD sequence's time to live passes, so its cold pages, entry and overlay reference are freed and it completes with TIMEOUT. -/
  | kvTtlExpiry (slot : Nat)
  /-- IMPORT_TTL_EXPIRY (R216). An uncommitted import's time to live passes, and it closes, freeing landed pages and its reservation. -/
  | importTtlExpiry (idx : Nat)
  /-- MANIFEST_READY (R236). The SB finishes reading, checking and opening pages for the cut's candidates and posts the step manifest. -/
  | manifestReady (pages : List Nat) (waitNs : Nat)
  /-- LEDGER_AUDIT_TIMER (R500). 1 ms of GCOUNT passes since the last snapshot, and a ledger audit is started or merged. -/
  | ledgerAuditTimer
  /-- LEDGER_EVAL_DONE (R503). A ledger evaluation ends, and any violation faults the owning coach or enters the safe state. -/
  | ledgerEvalDone (found : List LedgerFind)
  /-- GS_DISPATCH_UNIT (R259). The GS sends the members of the lowest ready dispatch unit to their cores under dispatch credits, or completes the unit as void. -/
  | gsDispatchUnit (waitNs : Nat)
  /-- QUANTUM_START (R354). In STRICT_TIME a 64 ns dispatch quantum begins, and the units ready at that instant become dispatchable. -/
  | quantumStart
  /-- THROTTLE_WINDOW (R466). A 64 µs throttle window begins or its hold of D µs ends, holding back or releasing dispatch. -/
  | throttleWindow
  /-- TD_DISPATCH_RX (R261). A TD accepts a dispatch cart, reads the layer descriptor and checks the logical core. -/
  | tdDispatchRx (core : Nat) (poisoned : Bool)
  /-- CARRIAGE_ISSUE (R261). The TD issues a carriage's work to its engines or DMA, applying the row mask, and the engines run the work. -/
  | carriageIssue (core : Nat) (idx : Nat) (found : EngFind)
  /-- CARRIAGE_COMPLETE (R262). A carriage's last engine has finished and every write is acknowledged, so the TD sends its completion record. -/
  | carriageComplete (core : Nat) (idx : Nat)
  /-- CARRIAGE_COMPLETION_RX (R258). The GS takes a completion record, and it replays, ends or completes the unit, then satisfies its out-couplings. -/
  | carriageCompletionRx
  /-- CARRIAGE_END_RX (R84). A TD receives the GS's order to end a carriage, so its engines stop and their sets become FREE. -/
  | carriageEndRx (core : Nat)
  /-- CARRIAGE_WATCHDOG (R269). 50 ms pass without a completion, so the TD ends the carriage with cause 0x41, and the unit and its consumers end. -/
  | carriageWatchdog (core : Nat) (idx : Nat)
  /-- TILE_SWAP (R70). The shadow set is complete and the last plane has issued, so the TE swaps the tile in and returns the hand-over credit. -/
  | tileSwap (core : Nat) (te : Nat)
  /-- TE_FORMAT_BARRIER_END (R136). Every set holding sums of another format has become FREE, so the TE issues the first plane of a carriage of the new format. -/
  | teFormatBarrierEnd (core : Nat) (te : Nat)
  /-- SET_READY (R72). Two cycles after the last plane of a group's last row against the last tile, the accumulator set becomes READY. -/
  | setReady (core : Nat) (te : Nat)
  /-- SET_DRAIN_START (R76). The drain port is free and takes the oldest READY set, sending or converting its rows in order. -/
  | setDrainStart (core : Nat) (te : Nat) (found : EngFind)
  /-- SET_DRAIN_DONE (R72). The last cart of a set's last row has been sent or written, so the set becomes FREE. -/
  | setDrainDone (core : Nat) (te : Nat)
  /-- DRAWBAR_CART_RX (R78). An on-chip drawbar cart is checked and added into the receiving engine's row as it drains, and its credit is returned. -/
  | drawbarCartRx (core : Nat) (te : Nat) (found : EngFind)
  /-- XE_TILE_START (R71). The shadow set is free and the carriage may proceed, so the XE begins expanding a tile. -/
  | xeTileStart (core : Nat) (te : UnitAt) (idx : Nat)
  /-- XE_BLOCK_DONE (R111). The XE finishes a block and checks its CRC, bytes and lanes, then passes it or refetches it once, or ends the carriage. -/
  | xeBlockDone (core : Nat) (te : UnitAt) (stall : Nat)
  /-- GE_CART_READ (R157). The GE reads a staged delta cart, checks its CRC and its order, and emits slices or refetches or ends the carriage. -/
  | geCartRead (core : UnitAt) (idx : Nat) (ove : Nat) (tile : Nat)
  /-- PARTIAL_CART_RX (R183). A split-attention partial cart lands at the merge core and is checked against the merge carriage. -/
  | partialCartRx (core : Nat) (found : EngFind)
  /-- MERGE_FOLD (R184). The merge unit folds a waiting partial into the running sum, and after the last partial it divides and writes the output. -/
  | mergeFold (core : Nat) (idx : Nat) (pick : Nat)
  /-- DMA_DESCRIPTOR_ISSUE (R284). The head DMA descriptor takes tags and issues its chunk requests, translating coach addresses. -/
  | dmaDescriptorIssue (core : UnitAt) (waitTag : Nat) (waitCred : Nat)
  /-- DMA_CHUNK_DONE (R284). A read chunk's last cart lands, or a write chunk is acknowledged, and the tag is released. -/
  | dmaChunkDone (core : Nat) (tag : Nat)
  /-- XLATE_WALK_DONE (R336). A translation cache miss's three-level walk completes, filling the cache or refusing the access. -/
  | xlateWalkDone (block : Nat) (coach : Nat) (addr : Nat) (write : Bool) (poisoned : Bool)
  /-- NBR_WRITE_RX (R278). A neighbour SPM write cart arrives and is written as a yielding writer, returning its credit. -/
  | nbrWriteRx (core : Nat)
  /-- SCRUB_ROW (R288). A bank's scrubber reads its next row in a free read cycle, correcting single errors and poisoning double errors. -/
  | scrubRow (core : Nat) (bank : Nat) (errs : List (Nat × Nat))
  /-- SCRUB_FORCE (R288). A bank has given the scrubber no free read cycle for 65,536 cycles, so the scrubber takes the next cycle. -/
  | scrubForce (core : Nat) (bank : Nat) (errs : List (Nat × Nat))
  /-- SPM_CLEAR_DONE (R289). Every bank has written zero rows with no owner, and the core accepts dispatch again. -/
  | spmClearDone (core : Nat)
  /-- MC_BULK_REQUEST (R303). A memory controller accepts a bulk request cart, maps it, regulates it and serves it with ECC, poison and mirror handling. -/
  | mcBulkRequest (core : Nat) (tag : Nat) (found : MemFind)
  /-- MC_FINE_REQUEST (R303). A memory controller serves a 32-byte fine access in its fine queue. -/
  | mcFineRequest (req : FineReq) (found : MemFind)
  /-- MC_ADD_REQUEST (R305). A memory controller performs an ADD on a granule, or refuses a float ADD in strict mode. -/
  | mcAddRequest (req : AddReq) (found : MemFind)
  /-- PATROL_LINE (R311). A pseudo-channel's patrol reads its next line every 64 µs and handles its errors. -/
  | patrolLine (mc : Nat) (pc : Nat) (addr : Nat) (found : MemFind)
  /-- PM_INTERVAL_END (R316). A pin-monitor interval ends, so every XE is latched and PM_PAYLOAD, PM_TRITS, PM_NS and PM_EFF are written. -/
  | pmIntervalEnd
  /-- INTERRUPT_COAL_TIMEOUT (R343). COAL_NS passes after the first pending event, so an interrupt frame is sent unless it is masked. -/
  | interruptCoalTimeout (vec : Nat)
  /-- LAUNCH_TIME (R360). GCOUNT reaches a pending launch's T, and the coach becomes RUNNING. -/
  | launchTime (coach : Nat)
  /-- LAUNCH_WINDOW (R361). A lockstep window W_k arrives, and the SB snapshots the coach's candidates or skips the window. -/
  | launchWindow (coach : Nat)
  /-- FT_DUE (R408). A core's in-field test falls due one period after its last test. -/
  | ftDue (core : Nat)
  /-- FT_TEST_START (R410). A due core is idle, or a deferred core's queued carriages have completed, and its 1.5 ms test begins. -/
  | ftTestStart (core : Nat)
  /-- FT_DEFER (R410). 100 ms pass after a core's due time without an idle instant, so the core is deferred and dispatch to it stops. -/
  | ftDefer (core : Nat)
  /-- FT_TEST_DONE (R411). An in-field test ends, and the core passes, or is withdrawn when it fails. -/
  | ftTestDone (core : Nat) (passed : Bool)
  /-- RECOVERY_DONE (R415). A recovery completes, and the sequencer takes the next queued error by severity and order of detection. -/
  | recoveryDone
  /-- MP_WATCHDOG (R437). The MP's own watchdog fires, and an MP-only reset reloads the kept image while steps continue. -/
  | mpWatchdog
  /-- MP_ABSENT_LIMIT (R435). The MP has not returned within 250 ms of an MP-only reset, so a chip warm reset is taken. -/
  | mpAbsentLimit
  /-- GS_SB_PARITY_FAIL (R475). Internal parity in the GS or SB fails, triggering a chip warm reset. -/
  | gsSbParityFail
  /-- WARM_RESET_QUIESCED (R480). Outstanding tags and writes of a warm reset complete, the MP is reset and the clears of R479 are made. -/
  | warmResetQuiesced
  /-- BOOT_POR_DONE (R440). The trust block's self-check and the key unwrap finish, and the boot ROM moves to TRAIN or to FAILED. -/
  | bootPorDone (ok : Bool)
  /-- HBM_TRAIN_DONE (R440). The eight stacks finish training, so frame 0 is mapped and the ROM enters LINK, or enters FAILED on a failure. -/
  | hbmTrainDone (failed : Nat)
  /-- BOOT_REQ_TIMER (R441). In REQUEST the ROM sends BOOT_REQ again on every host port that is UP, every 100 ms. -/
  | bootReqTimer
  /-- HANDBACK_DONE (R488). The hand-back block has been read and checked, analogue retests and the repair pass finish, and the ROM moves to LOAD or SAFE. -/
  | handbackDone (retest : List (Nat × Nat))
  /-- BOOT_READ_TIMEOUT (R442). An image read is unanswered for 10 ms and is issued again, and the third failure returns the ROM to REQUEST. -/
  | bootReadTimeout (off : Nat)
  /-- IMAGE_LOAD_DONE (R442). Every byte of the image has arrived in the staging slot, and VERIFY begins. -/
  | imageLoadDone
  /-- IMAGE_VERIFY_DONE (R445). Image verification ends, starting the firmware with M1 extended and SVN burned, or failing with a REASON. -/
  | imageVerifyDone (place : Placement) (burnOk : Bool)
  /-- PWRGD_RISE (R476). PWRGD rises, and the bootstrap regulator starts the power manager and ramps the always-on rails. -/
  | pwrgdRise
  /-- PWRGD_FALL (R476). PWRGD falls, and the device acts as for a supply below 10.8 V. -/
  | pwrgdFall
  /-- PORESET (R476). PORESET# is asserted for at least 10 µs, or released, causing a cold reset or, on release, sampling the straps. -/
  | poreset (asserted : Bool) (straps : Nat) (testen : Bool)
  /-- WARMRESET (R480). WARMRESET# is held low for at least 1 µs, triggering a chip warm reset, or a wake from STAND. -/
  | warmreset
  /-- REGULATOR_GOOD (R463). A rail reports good, letting the ramp and the clock state machine proceed. -/
  | regulatorGood (rail : Nat)
  /-- REGULATOR_TIMEOUT (R463). A regulator fails to report good within 1 ms, so start-up stops and REGFAIL is reported. -/
  | regulatorTimeout (rail : Nat)
  /-- XTAL_DELAY_END (R456). The crystal start-up delay ends, and the crystal check and PLL start begin. -/
  | xtalDelayEnd
  /-- PLL_LOCK_DONE (R456). The crystal check and PLL lock succeed or fail, moving to RUN, to a retry or to FAIL. -/
  | pllLockDone (xtalOk : Bool) (locked : Bool)
  /-- PLL_LOCK_LOSS (R457). In RUN the PLL loses lock, or the crystal leaves ±5 % for 2 µs, so the clock state enters FAIL and the lasers turn off. -/
  | pllLockLoss
  /-- IOSC_TRIM_MEASURE (R458). Once a second IOSC is measured against REFCLK or host marks, and CODE moves towards zero error. -/
  | ioscTrimMeasure (ppm : Int)
  /-- VIN_UNDERVOLT (R461). VIN stays below 11.4 V for 100 µs, so ALERT# is asserted and an undervoltage record is written. -/
  | vinUndervolt (mv : Nat)
  /-- VIN_BROWNOUT (R461). VIN stays below 10.8 V for 10 µs, or for 1 ms in STAND, so the rails turn off or retained state is lost. -/
  | vinBrownout (mv : Nat)
  /-- THERM_SAMPLE (R465). Every 100 µs the sensors are read into THERM, and an upward TWARN crossing writes a record and asserts ALERT#. -/
  | thermSample (tj : Nat) (more : Sensors)
  /-- THERMAL_TRIP (R465). The junction reaches 110 °C, so THERMTRIP# is asserted and every rail except VAON turns off. -/
  | thermalTrip
  /-- THROTTLE_EVAL (R466). Every 1 ms the throttle hold D is raised or lowered by 4 from temperature and power. -/
  | throttleEval (tj : Nat) (watts : Nat)
  /-- STAND_ADDRESS_MATCH (R468). The STAND matcher acknowledges the device's sideband address and starts the wake. -/
  | standAddressMatch
  /-- LB_EKL_WRITE (R491). A DEPTH write to an EKL port's loop-back control starts or ends a loop-back, or is refused. -/
  | lbEklWrite (port : Nat) (depth : Nat)
  /-- LB_HBM_WRITE (R492). A DEPTH write to a stack's loop-back control starts a 1 ms loop-back, or is refused. -/
  | lbHbmWrite (stack : Nat) (depth : Nat)
  /-- LB_HBM_END (R492). A stack loop-back's 1 ms ends, DEPTH reads 0 and patrol and requests resume. -/
  | lbHbmEnd (stack : Nat) (errs : Nat) (bits : Nat)
  /-- TAP_RESET (R494). TRST# or PORESET# resets the JTAG TAP, and IDCODE is selected. -/
  | tapReset
  /-- JTAG_IDCODE (R494). The IDCODE instruction reads 0x3964_054F. -/
  | jtagIdcode
  /-- JTAG_BYPASS (R494). The BYPASS instruction, or any unknown code, selects the bypass register. -/
  | jtagBypass
  /-- JTAG_SAMPLE_PRELOAD (R494). SAMPLE/PRELOAD samples the boundary chain or preloads it. -/
  | jtagSamplePreload (pins : List Bool)
  /-- JTAG_EXTEST (R495). EXTEST drives the board pins from the boundary chain while PORESET# is low, and otherwise acts as SAMPLE/PRELOAD. -/
  | jtagExtest (pins : List Bool)
  /-- JTAG_HIGHZ (R495). HIGHZ floats the board pins while PORESET# is low, and otherwise acts as SAMPLE/PRELOAD. -/
  | jtagHighz (pins : List Bool)
  /-- JTAG_CLAMP (R495). CLAMP holds the board pins from the boundary chain while PORESET# is low, and otherwise acts as SAMPLE/PRELOAD. -/
  | jtagClamp (pins : List Bool)
  /-- SCAN_REQ (R451). SCAN_REQ is ignored when SCAN_LOCK is burned, and otherwise starts the clear of keys, measurements and tenant state. -/
  | scanReq
  /-- SCAN_CLEAR_DONE (R451). The clear before scan ends, the stacks are in self-refresh and the internal chains connect. -/
  | scanClearDone
  /-- FUSE_PROG (R489). A JTAG instruction that burns repair fuses while SCAN_CTRL reads READY, and otherwise acts as BYPASS. -/
  | fuseProg (kind : Nat) (a : Nat) (b : Nat) (c : Nat)
  /-- SB_QUICK_COMMAND (R530). An SMBus Quick Command to the device, which wakes it from STAND and otherwise has no effect. -/
  | sbQuickCommand
  /-- SB_STATUS_READ (R533). Sideband Block Read of code 0x10 returns the status block and clears the latched alert causes. -/
  | sbStatusRead
  /-- SB_REGISTER_READ (R531). Sideband process call of code 0x20 reads one 64-bit word in the allowed ranges and returns a status. -/
  | sbRegisterRead (addr : Nat)
  /-- SB_MAILBOX_WRITE (R531). Sideband Block Write of code 0x30 writes the sideband mailbox command area, with byte 3 applied last. -/
  | sbMailboxWrite (off : Nat) (data : List Byte) (pecOk : Bool)
  /-- SB_ALERT_RESPONSE (R533). A read of the Alert Response Address is answered with the device's address while ALERT# is asserted. -/
  | sbAlertResponse
  /-- SB_CLOCK_TIMEOUT (R529). The sideband clock is held low past 35 ms, and the transaction is abandoned. -/
  | sbClockTimeout
  /-- SVC_BUTTON_PRESS (R537). The debounced fall of SVC_REQ# starts timing a press. -/
  | svcButtonPress
  /-- SVC_BUTTON_RELEASE (R537). SVC_REQ# is released, toggling locate for a short press, or doing nothing for other lengths. -/
  | svcButtonRelease
  /-- SVC_HOLD (R537). The button has been held for 3 s, so the service drain source toggles while it is still held. -/
  | svcHold
  /-- CHIP_MODE_WRITE (R348). An admin write to CHIP_MODE is held pending and applied at the next step boundary, or at once when no graph is armed. -/
  | chipModeWrite (value : Nat)
  /-- COACH_RWH_WRITE (R333). A write to a coach RWH register is applied while the coach is HALTED, and otherwise refused with NOT_HALTED or NO_RESOURCE. -/
  | coachRwhWrite (coach : Nat) (off : Nat) (value : Nat)
  /-- VCFG_WRITE (R343). A write to a vector's VCFG changes masking and coalescing, and clearing MASK with events pending sends a frame at once. -/
  | vcfgWrite (vec : Nat) (value : Nat)
  /-- PORT_DISABLE_WRITE (R378). A write to PORT_CTRL.DISABLE holds the port DISABLED with its lasers off, or releases it to DOWN. -/
  | portDisableWrite (port : Nat) (value : Nat)
  /-- SVC_LOCATE_WRITE (R542). A write to SVC_CTRL.LOCATE sets the locate blink and sends a SERVICE message with source 3. -/
  | svcLocateWrite (value : Nat)
  /-- GC_SYNC_WRITE (R363). A write to GC_SYNC sets the GCOUNT role and ports, and a ROLE of 0 or 1 makes the synchronisation state FREE. -/
  | gcSyncWrite (value : Nat)
  /-- COUNTER_READ_CLEAR (R545). A read that covers RC fields returns them and clears them in the same access. -/
  | counterReadClear (addr : Nat)
  /-- REGISTER_WRITE (R546). A write to registers without a row of their own is applied word by word under the access codes, and forbidden words are discarded. -/
  | registerWrite (admin : Bool) (coach : Nat) (addr : Nat) (words : List Word)
  /-- STACK_TRAINING_LOSS (R418). An HBM4 stack or its controller fails in service: MC_STATUS.TRAINED falls to 0, the controller answers POISON, and a severity-2 POISON record reports a failed stack. -/
  | stackTrainingLoss (stack : Nat)
  /-- PORT_SWITCH_PARITY_FAILURE (R418). Internal parity in the port switch fails, taking down the whole device including transit, so that its neighbours reroute within 11 µs. -/
  | portSwitchParityFailure
  /-- REFCLK_PRESENCE_CHANGE (R454). The optional 100 MHz REFCLK starts or stops, so REFCLK_PRESENT changes and the IOSC trim source changes with it. -/
  | refclkPresenceChange (present : Bool)
  /-- TRANSLATION_CACHES_DROPPED (R336). When no step runs, every translation cache has dropped the unmapped entries and earlier carriages have completed, so COACH_UNMAP answers within 1 ms. -/
  | translationCachesDropped
deriving DecidableEq, Repr

end Sys2Proof
end

