-- ==== Sys2Proof/Config.lean ====
section
/-!
DEFINITION. What an implementation of the part fixes and the source does not: the free values.
Each is an opaque constant; nothing can be proved about the value it has.
-/
namespace Sys2Proof.Config

/-- The management processor's estimate of when a place frees, written to RETRY of a BUSY answer (R430).
DESIGN CHOICE: the source gives only its lower bound. -/
opaque retryEstimate : Nat → BitVec 32

/-- The check word of an import ticket (R216): 32 bits that the source does not say how to form.
DESIGN CHOICE: a free value. -/
opaque ticketCheck : Nat → BitVec 32

/-- The CAUSE of a record that R513 names and for which no fault table and no row of R515 gives a code: 0 a failed stack,
1 a reroute, 2 an MP-only reset by the watchdog, 3 the chip warm reset of R435, 4 others, 5 an OVE freed (R150). DESIGN CHOICE: a free value. -/
opaque uncodedCause : Nat → BitVec 8

/-- What a loop-back, or another measurement whose result the source does not give, finds (R490-R493): counts and lane marks.
DESIGN CHOICE: a free value. -/
opaque measured : Nat → BitVec 64

/-- Where a step's manifest stands in memory (R260). DESIGN CHOICE: a free value; the source gives no place for it. -/
opaque manifestAt : Nat → BitVec 48

/-- The part of a millisecond that the management processor spends on commands and audits (R438). DESIGN CHOICE: a free value. -/
opaque mpLoad : Nat → BitVec 7

/-- The version octet of the boot ROM (R441, R448). DESIGN CHOICE: a free value. -/
opaque romVersion : BitVec 8

/-- The REASON of a failure for which R440 names no code (a stack that does not train). DESIGN CHOICE: a free value. -/
opaque uncodedReason : Nat → BitVec 4

/-- The code that a value of a block takes in re-quantisation where its scale is no valid scale (R49, R54): a function of the
scale and the code. DESIGN CHOICE: a free value. -/
opaque openCode : Nat → BitVec 4

end Sys2Proof.Config
end

