-- ==== Sys2Proof/Machine/Bits.lean ====
section
/-!
DEFINITION. Bit fields, little-endian byte lists (R6) and the sparse map that registers and memories are kept in:
keys strictly rising, no entry equal to what an unlisted key reads as.
-/
namespace Sys2Proof.Machine

/-- Bits `lo + w - 1 … lo` of `n`. -/
def bits (n lo w : Nat) : Nat := n / 2 ^ lo % 2 ^ w

/-- One bit of `n`. -/
def bit (n i : Nat) : Bool := n / 2 ^ i % 2 == 1

/-- `n` with bits `lo + w - 1 … lo` replaced by `v`. -/
def setBits (n lo w v : Nat) : Nat := n - bits n lo w * 2 ^ lo + v % 2 ^ w * 2 ^ lo

/-- A truth value as a bit. -/
def b2n (b : Bool) : Nat := if b then 1 else 0

/-- The signed value of a `w`-bit number. -/
def signed (w n : Nat) : Int := if n % 2 ^ w < 2 ^ (w - 1) then (n % 2 ^ w : Nat) else (n % 2 ^ w : Nat) - (2 ^ w : Nat)

/-- The `w`-bit two's-complement code of an integer. -/
def unsigned (w : Nat) (i : Int) : Nat := (i % (2 ^ w : Nat)).toNat

/-- The little-endian value of a list of bytes (R6). -/
def leNat : List Byte → Nat
  | [] => 0
  | b :: r => b.toNat + 256 * leNat r

/-- The `n` little-endian bytes of a value (R6). -/
def leBytes : Nat → Nat → List Byte
  | 0, _ => []
  | n + 1, v => Byte.ofNat v :: leBytes n (v / 256)

/-- Little-endian field of `n` bytes at offset `o` of a byte list; bytes past the end read 0. -/
def fieldLE (l : List Byte) (o n : Nat) : Nat := leNat ((l.drop o).take n)

/-- `l` with the bytes `b` written at offset `o` (within the list). -/
def overlay (l : List Byte) (o : Nat) (b : List Byte) : List Byte :=
  l.take o ++ b.take (l.length - o) ++ l.drop (o + b.length)

/-- `l` padded with zero bytes, or cut, to `n` bytes. -/
def padTo (n : Nat) (l : List Byte) : List Byte := (l ++ List.replicate (n - l.length) 0).take n

/-- The field of `w` bits at bit `b` of a byte list. -/
def fieldBits (l : List Byte) (b w : Nat) : Nat := bits (fieldLE l (b / 8) ((b % 8 + w + 7) / 8)) (b % 8) w

/-- A byte list built from (offset, length, value) fields over `n` zero bytes. -/
def packFields (n : Nat) (fs : List (Nat × Nat × Nat)) : List Byte :=
  fs.foldl (fun l f => overlay l f.1 (leBytes f.2.1 f.2.2)) (List.replicate n 0)

/-- A sparse map: keys strictly rising. -/
abbrev SMap (α : Type) := List (Nat × α)

/-- The entry at a key; `d` where none is listed. -/
def SMap.look {α : Type} (d : α) : SMap α → Nat → α
  | [], _ => d
  | (k', v) :: r, k => if k < k' then d else if k = k' then v else SMap.look d r k

/-- The map with key `k` holding `v`; the entry is removed where `v` is what an unlisted key reads as. -/
def SMap.put {α : Type} [DecidableEq α] (d : α) : SMap α → Nat → α → SMap α
  | [], k, v => if v = d then [] else [(k, v)]
  | (k', w) :: r, k, v =>
    if k < k' then (if v = d then (k', w) :: r else (k, v) :: (k', w) :: r)
    else if k = k' then (if v = d then r else (k, v) :: r)
    else (k', w) :: SMap.put d r k v

/-- Every key of the map lies above `k`. -/
def SMap.above {α : Type} (k : Nat) : SMap α → Bool
  | [] => true
  | (k', _) :: _ => decide (k < k')

/-- The canonical form: keys strictly rising and no entry equal to `d`. -/
def SMap.wf {α : Type} [DecidableEq α] (d : α) : SMap α → Bool
  | [] => true
  | (k, v) :: r => SMap.above k r && decide (v ≠ d) && SMap.wf d r

/-- The map with the entry at `k` changed by `f`. -/
def SMap.modify {α : Type} [DecidableEq α] (d : α) (m : SMap α) (k : Nat) (f : α → α) : SMap α :=
  SMap.put d m k (f (SMap.look d m k))

/-- The map without the keys `a ≤ k < b`. -/
def SMap.dropRange {α : Type} (m : SMap α) (a b : Nat) : SMap α :=
  m.filter (fun e => e.1 < a || b ≤ e.1)

/-- The entries with `a ≤ k < b`. -/
def SMap.range {α : Type} (m : SMap α) (a b : Nat) : SMap α :=
  m.filter (fun e => a ≤ e.1 && e.1 < b)

/-- Byte memory: an unlisted byte reads 0 (DESIGN CHOICE, log entry 4). -/
abbrev Memory := SMap Byte

/-- One byte of a memory. -/
def Memory.byte (m : Memory) (a : Nat) : Byte := SMap.look 0 m a

/-- `n` bytes of a memory from `a` up. -/
def Memory.read (m : Memory) (a : Nat) : Nat → List Byte
  | 0 => []
  | n + 1 => Memory.byte m a :: Memory.read m (a + 1) n

/-- The memory with the bytes `l` written from `a` up. -/
def Memory.write (m : Memory) (a : Nat) : List Byte → Memory
  | [] => m
  | b :: r => Memory.write (SMap.put 0 m a b) (a + 1) r

/-- The canonical form of a byte memory. -/
def Memory.wf (m : Memory) : Bool := SMap.wf 0 m

/-- Put an element in front of the first one that it does not exceed. -/
def insertBy {α : Type} (le : α → α → Bool) (x : α) : List α → List α
  | [] => [x]
  | y :: r => if le x y then x :: y :: r else y :: insertBy le x r

/-- The list in order; elements of equal rank keep theirs. -/
def sortBy {α : Type} (le : α → α → Bool) : List α → List α
  | [] => []
  | x :: r => insertBy le x (sortBy le r)

/-- Insert a number in a rising list without repeats. -/
def insertNat (k : Nat) : List Nat → List Nat
  | [] => [k]
  | x :: r => if k < x then k :: x :: r else if k = x then x :: r else x :: insertNat k r

/-- The list with the element at position `i` changed by `f`. -/
def modifyAt {α : Type} (l : List α) (i : Nat) (f : α → α) : List α :=
  match l, i with
  | [], _ => []
  | a :: r, 0 => f a :: r
  | a :: r, i + 1 => a :: modifyAt r i f

/-- The list without its element at position `i`. -/
def dropAt {α : Type} : List α → Nat → List α
  | [], _ => []
  | _ :: r, 0 => r
  | a :: r, i + 1 => a :: dropAt r i

/-- The numbers from `a` up, `n` of them. -/
def upFrom (a n : Nat) : List Nat := (List.range n).map (a + ·)

/-- The first of the numbers below `n` that passes `p`. -/
def firstBelow (n : Nat) (p : Nat → Bool) : Option Nat := (List.range n).find? p

end Sys2Proof.Machine
end

