-- ==== Sys2Proof/Machine/Crypto.lean ====
section
/-!
DEFINITION. The check codes, the counter-based generator and the cryptographic functions the source names: CRC-32C (R110),
CRC-64/XZ (R368), Philox4x32-10 (R51), SHA-256 and RSASSA-PKCS1-v1_5 (R444-R450).
-/
namespace Sys2Proof.Machine

/-- One byte into a reflected CRC register: `k` bits left. -/
def crcBits (poly : Nat) : Nat → Nat → Nat
  | 0, c => c
  | k + 1, c => crcBits poly k (if c % 2 = 1 then (c / 2) ^^^ poly else c / 2)

/-- A reflected CRC over bytes. -/
def crcOver (poly : Nat) (c : Nat) (l : List Byte) : Nat :=
  l.foldl (fun c b => crcBits poly 8 (c ^^^ b.toNat)) c

/-- CRC-32C (R110). -/
def crc32c (l : List Byte) : Nat := crcOver 0x82F63B78 0xFFFFFFFF l ^^^ 0xFFFFFFFF

/-- CRC-64/XZ (R368). -/
def crc64 (l : List Byte) : Nat := crcOver 0xC96C5795D7870F42 0xFFFFFFFFFFFFFFFF l ^^^ 0xFFFFFFFFFFFFFFFF

/-- The rounds of Philox4x32 that are left. -/
def philoxFrom : Nat → Nat × Nat → Nat × Nat × Nat × Nat → Nat × Nat × Nat × Nat
  | 0, _, c => c
  | r + 1, (k0, k1), (c0, c1, c2, c3) =>
    let p0 := 0xD2511F53 * c0
    let p1 := 0xCD9E8D57 * c2
    philoxFrom r ((k0 + 0x9E3779B9) % 2 ^ 32, (k1 + 0xBB67AE85) % 2 ^ 32)
      (p1 / 2 ^ 32 ^^^ c1 ^^^ k0, p1 % 2 ^ 32, p0 / 2 ^ 32 ^^^ c3 ^^^ k1, p0 % 2 ^ 32)

/-- The draw of R51 for seed `K`, stream `S` and element index `i`. -/
def philoxDraw (K S i : Nat) : Nat :=
  let c := philoxFrom 10 (K % 2 ^ 32, K / 2 ^ 32 % 2 ^ 32) (i / 8 % 2 ^ 32, i / 8 / 2 ^ 32 % 2 ^ 32, S % 2 ^ 32, 0)
  let w := match i % 8 / 2 with
    | 0 => c.1
    | 1 => c.2.1
    | 2 => c.2.2.1
    | _ => c.2.2.2
  if i % 2 = 0 then w % 65536 else w / 65536

/-- The 32-bit words of a number of `n` of them, most significant first. -/
def wordsBE (n v : Nat) : List Nat := (List.range n).map fun i => bits v (32 * (n - 1 - i)) 32

/-- The round constants of SHA-256, sixteen to a number. -/
def sha256K : List Nat :=
  wordsBE 16 0x428a2f9871374491b5c0fbcfe9b5dba53956c25b59f111f1923f82a4ab1c5ed5d807aa9812835b01243185be550c7dc372be5d7480deb1fe9bdc06a7c19bf174 ++
  wordsBE 16 0xe49b69c1efbe47860fc19dc6240ca1cc2de92c6f4a7484aa5cb0a9dc76f988da983e5152a831c66db00327c8bf597fc7c6e00bf3d5a7914706ca635114292967 ++
  wordsBE 16 0x27b70a852e1b21384d2c6dfc53380d13650a7354766a0abb81c2c92e92722c85a2bfe8a1a81a664bc24b8b70c76c51a3d192e819d6990624f40e3585106aa070 ++
  wordsBE 16 0x19a4c1161e376c082748774c34b0bcb5391c0cb34ed8aa4a5b9cca4f682e6ff3748f82ee78a5636f84c878148cc7020890befffaa4506cebbef9a3f7c67178f2

/-- The initial hash value of SHA-256. -/
def sha256Init : List Nat := wordsBE 8 0x6a09e667bb67ae853c6ef372a54ff53a510e527f9b05688c1f83d9ab5be0cd19

/-- Rotation right of a 32-bit word. -/
def rotr (x n : Nat) : Nat := x / 2 ^ n + x % 2 ^ n * 2 ^ (32 - n)

/-- The message schedule of SHA-256, most recent word first. -/
def shaSchedule : Nat → List Nat → List Nat
  | 0, w => w
  | k + 1, w =>
    let a := w.getD 14 0
    let b := w.getD 1 0
    let s0 := rotr a 7 ^^^ rotr a 18 ^^^ a / 8
    let s1 := rotr b 17 ^^^ rotr b 19 ^^^ b / 1024
    shaSchedule k ((w.getD 15 0 + s0 + w.getD 6 0 + s1) % 2 ^ 32 :: w)

/-- The rounds of SHA-256 over (constant, schedule) pairs. -/
def shaRounds : List (Nat × Nat) → List Nat → List Nat
  | (k, w) :: r, [a, b, c, d, e, f, g, h] =>
    let s1 := rotr e 6 ^^^ rotr e 11 ^^^ rotr e 25
    let ch := e &&& f ^^^ (0xFFFFFFFF - e) &&& g
    let t1 := (h + s1 + ch + k + w) % 2 ^ 32
    let s0 := rotr a 2 ^^^ rotr a 13 ^^^ rotr a 22
    let mj := a &&& b ^^^ a &&& c ^^^ b &&& c
    shaRounds r [(t1 + s0 + mj) % 2 ^ 32, a, b, c, (d + t1) % 2 ^ 32, e, f, g]
  | _, s => s

/-- Big-endian value of bytes. -/
def beNat (l : List Byte) : Nat := l.foldl (fun a b => a * 256 + b.toNat) 0

/-- `n` big-endian bytes of a value. -/
def beBytes (n v : Nat) : List Byte := (leBytes n v).reverse

/-- The first `n` chunks of `k` elements of a list. -/
def chunks {α : Type} (k : Nat) : Nat → List α → List (List α)
  | 0, _ => []
  | n + 1, l => l.take k :: chunks k n (l.drop k)

/-- One 64-byte block into a SHA-256 state. -/
def shaBlock (s : List Nat) (b : List Byte) : List Nat :=
  let w0 := ((chunks 4 16 b).map beNat).reverse
  let w := (shaSchedule 48 w0).reverse
  List.zipWith (fun x y => (x + y) % 2 ^ 32) s (shaRounds (sha256K.zip w) s)

/-- SHA-256. -/
def sha256 (l : List Byte) : List Byte :=
  let n := l.length
  let z := (119 - n % 64) % 64
  let m := l ++ [0x80] ++ List.replicate z 0 ++ beBytes 8 (8 * n)
  ((chunks 64 (m.length / 64) m).foldl shaBlock sha256Init).flatMap (beBytes 4)

/-- `b^e mod n`, over the bits of `e` (`fuel` of them), from the low end. -/
def powModFrom : Nat → Nat → Nat → Nat → Nat → Nat
  | 0, _, _, _, acc => acc
  | k + 1, b, e, n, acc => powModFrom k (b * b % n) (e / 2) n (if e % 2 = 1 then acc * b % n else acc)

/-- `b^e mod n`. -/
def powMod (b e n : Nat) : Nat := if e = 0 then 1 % n else powModFrom (Nat.log2 e + 1) (b % n) e n (1 % n)

/-- The encoded message of RSASSA-PKCS1-v1_5 with SHA-256 for a 384-byte modulus. -/
def pkcs1Encode (m : List Byte) : List Byte :=
  let di : List Byte := [0x30, 0x31, 0x30, 0x0d, 0x06, 0x09, 0x60, 0x86, 0x48, 0x01, 0x65, 0x03, 0x04, 0x02, 0x01, 0x05, 0x00, 0x04, 0x20]
  let t := di ++ sha256 m
  [0x00, 0x01] ++ List.replicate (381 - t.length) 0xFF ++ [0x00] ++ t

/-- Verification of an RSA-3072 signature with exponent 65,537 (R445). -/
def rsaVerify (modulus : Nat) (m sig : List Byte) : Bool :=
  let s := beNat sig
  decide (s < modulus) && beBytes 384 (powMod s 65537 modulus) == pkcs1Encode m

/-- An RSA-3072 signature with private exponent `d` (R450). -/
def rsaSign (modulus d : Nat) (m : List Byte) : List Byte :=
  beBytes 384 (powMod (beNat (pkcs1Encode m)) d modulus)

end Sys2Proof.Machine
end

