-- ==== Sys2Proof/Machine/Num.lean ====
section
/-!
DEFINITION. Number formats and rounding (02_number_formats, and the vector functions of R187-R189). A binary32 value is
decoded to an exact integer times a power of two, computed on exactly, and rounded once.
-/
namespace Sys2Proof.Machine

/-- A binary32 code. -/
abbrev F32 := BitVec 32
/-- A BF16 code (R59). -/
abbrev BF := BitVec 16

/-- What a code stands for: `(-1)^neg * m * 2^e`, an infinity or a NaN. -/
inductive Fp where
  | fin (neg : Bool) (m : Nat) (e : Int)
  | inf (neg : Bool)
  | nan
deriving DecidableEq, Repr

/-- The value of a binary32 code, subnormals read as zero (R60). -/
def F32.val (x : F32) : Fp :=
  let n := x.toNat
  let s := bit n 31
  let ex := bits n 23 8
  let fr := bits n 0 23
  if ex = 255 then (if fr = 0 then .inf s else .nan)
  else if ex = 0 then .fin s 0 0
  else .fin s (2 ^ 23 + fr) ((ex : Int) - 150)

/-- The way a result is rounded: to nearest even, or towards plus infinity (R50, R54). -/
inductive Rnd where
  | near | up
deriving DecidableEq, Repr

/-- `m * 2^e` (plus something below one unit of `m` where `sticky`) cut to `prec` significant bits: the rounded significand
and its exponent. -/
def roundSig (prec : Nat) (md : Rnd) (neg : Bool) (m : Nat) (e : Int) (sticky : Bool) : Nat × Int :=
  let len := Nat.log2 m + 1
  if len ≤ prec then (m * 2 ^ (prec - len), e - ((prec - len : Nat) : Int))
  else
    let sh := len - prec
    let q := m / 2 ^ sh
    let r := m % 2 ^ sh
    let h := 2 ^ (sh - 1)
    let up := match md with
      | .near => decide (h < r) || (r == h && (sticky || q % 2 == 1))
      | .up => !neg && (r != 0 || sticky)
    let q' := if up then q + 1 else q
    if q' = 2 ^ prec then (q' / 2, e + (sh : Int) + 1) else (q', e + (sh : Int))

/-- A rounded value as a code with `frac` fraction bits and an 8-bit exponent: results that round below 2^-126 become zero
of the same sign, results beyond the greatest finite value an infinity (R60, R61). -/
def encodeFp (frac : Nat) (md : Rnd) (neg : Bool) (m : Nat) (e : Int) (sticky : Bool) : Nat :=
  let s := b2n neg * 2 ^ (frac + 8)
  if m = 0 then s
  else
    let (q, e') := roundSig (frac + 1) md neg m e sticky
    let ex := e' + (frac : Int)
    if ex < -126 then s
    else if 127 < ex then (if md = .up ∧ neg then s + 254 * 2 ^ frac + (2 ^ frac - 1) else s + 255 * 2 ^ frac)
    else s + (ex + 127).toNat * 2 ^ frac + (q - 2 ^ frac)

/-- The NaN that the device writes in FP32 (R60). -/
def f32Nan : F32 := 0x7FC00000
/-- Binary32 plus zero. -/
def f32Zero : F32 := 0
/-- Binary32 one. -/
def f32One : F32 := 0x3F800000

/-- `±m * 2^e` as binary32, to nearest even. -/
def f32Of (neg : Bool) (m : Nat) (e : Int) (sticky : Bool := false) : F32 :=
  BitVec.ofNat 32 (encodeFp 23 .near neg m e sticky)

/-- A value as binary32 under a rounding mode. -/
def F32.ofFp (md : Rnd) : Fp → F32
  | .fin s m e => BitVec.ofNat 32 (encodeFp 23 md s m e false)
  | .inf s => if s then 0xFF800000 else 0x7F800000
  | .nan => f32Nan

/-- A signed integer times `2^e`, as binary32. -/
def f32OfInt (i : Int) (e : Int := 0) : F32 := f32Of (decide (i < 0)) i.natAbs e

/-- Negation of a code. -/
def f32Neg (x : F32) : F32 := if x.val = .nan then f32Nan else x ^^^ 0x80000000

/-- Whether a code is an infinity or a NaN. -/
def F32.bad (x : F32) : Bool := decide (bits x.toNat 23 8 = 255)

/-- Whether a code reads as zero (subnormals included). -/
def F32.isZero (x : F32) : Bool := decide (bits x.toNat 23 8 = 0)

/-- The magnitude of a code. -/
def f32Abs (x : F32) : F32 := x &&& 0x7FFFFFFF

/-- The signed exact value of a finite code as an integer in units of `2^u`; `u` at or below its exponent. -/
def scaledInt (s : Bool) (m : Nat) (e u : Int) : Int :=
  let k := (m : Int) * (2 ^ (e - u).toNat : Nat)
  if s then -k else k

/-- IEEE 754 addition under R60. -/
def f32Add (x y : F32) : F32 :=
  match x.val, y.val with
  | .nan, _ => f32Nan
  | _, .nan => f32Nan
  | .inf a, .inf b => if a = b then F32.ofFp .near (.inf a) else f32Nan
  | .inf a, _ => F32.ofFp .near (.inf a)
  | _, .inf b => F32.ofFp .near (.inf b)
  | .fin a m e, .fin b n f =>
    let u := min e f
    let r := scaledInt a m e u + scaledInt b n f u
    if r = 0 then (if m = 0 ∧ n = 0 ∧ a = true ∧ b = true then 0x80000000 else f32Zero)
    else f32Of (decide (r < 0)) r.natAbs u

/-- IEEE 754 subtraction under R60. -/
def f32Sub (x y : F32) : F32 := f32Add x (f32Neg y)

/-- IEEE 754 multiplication under R60. -/
def f32Mul (x y : F32) : F32 :=
  match x.val, y.val with
  | .nan, _ => f32Nan
  | _, .nan => f32Nan
  | .inf a, .inf b => F32.ofFp .near (.inf (a != b))
  | .inf a, .fin b n _ => if n = 0 then f32Nan else F32.ofFp .near (.inf (a != b))
  | .fin a m _, .inf b => if m = 0 then f32Nan else F32.ofFp .near (.inf (a != b))
  | .fin a m e, .fin b n f => f32Of (a != b) (m * n) (e + f)

/-- Correctly rounded division, under a rounding mode (R187; towards plus infinity for R50, R54). -/
def f32DivR (md : Rnd) (x y : F32) : F32 :=
  match x.val, y.val with
  | .nan, _ => f32Nan
  | _, .nan => f32Nan
  | .inf _, .inf _ => f32Nan
  | .inf a, .fin b _ _ => F32.ofFp .near (.inf (a != b))
  | .fin a _ _, .inf b => F32.ofFp .near (.fin (a != b) 0 0)
  | .fin a m e, .fin b n f =>
    if n = 0 then (if m = 0 then f32Nan else F32.ofFp .near (.inf (a != b)))
    else
      let k := m * 2 ^ 64
      BitVec.ofNat 32 (encodeFp 23 md (a != b) (k / n) (e - f - 64) (decide (k % n ≠ 0)))

/-- Correctly rounded division to nearest even. -/
def f32Div (x y : F32) : F32 := f32DivR .near x y

/-- The integer square root, bit by bit: `fuel` bits of the root, from the root so far. -/
def isqrtFrom : Nat → Nat → Nat → Nat
  | 0, _, r => r
  | k + 1, n, r => let t := r + 2 ^ k
    if t * t ≤ n then isqrtFrom k n t else isqrtFrom k n r

/-- The integer square root. -/
def isqrt (n : Nat) : Nat := isqrtFrom (Nat.log2 n / 2 + 1) n 0

/-- Correctly rounded square root (R187). -/
def f32Sqrt (x : F32) : F32 :=
  match x.val with
  | .nan => f32Nan
  | .inf s => if s then f32Nan else 0x7F800000
  | .fin s m e =>
    if m = 0 then (if s then 0x80000000 else 0)
    else if s then f32Nan
    else
      let od := e % 2
      let m' := m * 2 ^ (64 + od.toNat)
      let r := isqrt m'
      f32Of false r ((e - od - 64) / 2) (decide (r * r ≠ m'))

/-- Correctly rounded reciprocal square root (R187). -/
def f32Rsqrt (x : F32) : F32 :=
  match x.val with
  | .nan => f32Nan
  | .inf s => if s then f32Nan else 0
  | .fin s m e =>
    if m = 0 then (if s then 0xFF800000 else 0x7F800000)
    else if s then f32Nan
    else
      let od := e % 2
      let m' := m * 2 ^ od.toNat
      let q := 2 ^ 192 / m'
      let r := isqrt q
      f32Of false r (-(e - od) / 2 - 96) (decide (r * r * m' ≠ 2 ^ 192))

/-- IEEE 754-2019 minimum (R187). -/
def f32Min (x y : F32) : F32 :=
  match x.val, y.val with
  | .nan, _ => f32Nan
  | _, .nan => f32Nan
  | _, _ =>
    let key (z : F32) : Int := if z.isZero then (if bit z.toNat 31 then -1 else 0)
      else if bit z.toNat 31 then -((f32Abs z).toNat : Int) else ((f32Abs z).toNat : Int)
    let r := if key x ≤ key y then x else y
    if r.isZero then r &&& 0x80000000 else r

/-- IEEE 754-2019 maximum (R187). -/
def f32Max (x y : F32) : F32 := f32Neg (f32Min (f32Neg x) (f32Neg y))

/-- `x * 2^k`, rounded (R48, R184). -/
def f32Scale (x : F32) (k : Int) : F32 :=
  match x.val with
  | .fin s m e => f32Of s m (e + k)
  | v => F32.ofFp .near v

/-- BF16 to binary32, subnormals read as zero (R59). -/
def BF.toF32 (b : BF) : F32 :=
  let w : F32 := BitVec.ofNat 32 (b.toNat * 65536)
  if bits b.toNat 7 8 = 0 then w &&& 0x80000000 else w

/-- Binary32 to BF16 under a rounding mode (R61; towards plus infinity for R50, R54). -/
def f32ToBfR (md : Rnd) (x : F32) : BF :=
  match x.val with
  | .nan => 0x7FC0
  | .inf s => if s then 0xFF80 else 0x7F80
  | .fin s m e => BitVec.ofNat 16 (encodeFp 7 md s m e false)

/-- Binary32 to BF16, to nearest even (R61). -/
def f32ToBf (x : F32) : BF := f32ToBfR .near x

/-- The integer nearest to `±m * 2^e`, ties to even (R39). -/
def rneInt (s : Bool) (m : Nat) (e : Int) : Int :=
  let k : Nat :=
    if 0 ≤ e then m * 2 ^ e.toNat
    else
      let sh := (-e).toNat
      let q := m / 2 ^ sh
      let r := m % 2 ^ sh
      if 2 ^ (sh - 1) < r ∨ (r = 2 ^ (sh - 1) ∧ q % 2 = 1) then q + 1 else q
  if s then -(k : Int) else k

/-- The integer nearest to a finite binary32 value times `2^k`. -/
def f32Round (x : F32) (k : Int) : Int :=
  match x.val with
  | .fin s m e => rneInt s m (e + k)
  | _ => 0

/-- The floor of a finite value times `2^k`. -/
def f32Floor (x : F32) (k : Int) : Int :=
  match x.val with
  | .fin s m e => scaledInt s m (e + k) (min (e + k) 0) / ((2 ^ (-(min (e + k) 0)).toNat : Nat) : Int)
  | _ => 0

/-- `⌊log2⌋` of the magnitude of a finite non-zero value. -/
def f32Exp (x : F32) : Int := (bits x.toNat 23 8 : Int) - 127

/-! ### Correctly rounded elementary functions (R187), on fixed point with 640 fraction bits -/

/-- Fraction bits of the fixed-point work. -/
def fxP : Nat := 640
/-- π, floor of 2^640 π. -/
def fxPi : Nat := 0x3243f6a8885a308d313198a2e03707344a4093822299f31d0082efa98ec4e6c89452821e638d01377be5466cf34e90c6cc0ac29b7c97c50dd3f84d5b5b54709179216d5d98979fb1bd1310ba698dfb5ac
/-- ln 2, floor of 2^640 ln 2. -/
def fxLn2 : Nat := 0xb17217f7d1cf79abc9e3b39803f2f6af40f343267298b62d8a0d175b8baafa2be7b876206debac98559552fb4afa1b10ed2eae35c138214427573b291169b8253e96ca16224ae8c51acbda11317c387e
/-- 1/√(2π), floor of 2^640 times it. -/
def fxIs2Pi : Nat := 0x662114cf50d942343f2cf1402eae38bfd3829f30512706d8c0471b4802639d2e9df8ac55447d3db723f5d3abb374e88deb14277970be1513278e993445f08cff98282e1fd947ce4b4ecdbd6e65c23395

/-- Sum of the Taylor series of e^y for fixed-point `0 ≤ y < 1`: `n` is the index of the term held. -/
def fxExpFrom : Nat → Nat → Nat → Nat → Nat → Nat
  | 0, _, _, _, acc => acc
  | k + 1, y, n, t, acc => let t' := t * y / 2 ^ fxP / (n + 1)
    fxExpFrom k y (n + 1) t' (acc + t')

/-- e^x for a fixed-point x: a fixed-point significand and a power of two. -/
def fxExp (x : Int) : Nat × Int :=
  let k := x / (fxLn2 : Int)
  let r := (x % (fxLn2 : Int)).toNat
  (fxExpFrom 130 r 0 (2 ^ fxP) (2 ^ fxP), k - (fxP : Int))

/-- A finite value as fixed point. -/
def fxOf (s : Bool) (m : Nat) (e : Int) : Int := scaledInt s m (e + fxP) 0

/-- Whether a finite magnitude is at least `2^k`. -/
def atLeastPow (m : Nat) (e k : Int) : Bool := m != 0 && decide (k ≤ (Nat.log2 m : Int) + e)

/-- Correctly rounded e^x. -/
def f32ExpF (x : F32) : F32 :=
  match x.val with
  | .nan => f32Nan
  | .inf s => if s then 0 else 0x7F800000
  | .fin s m e =>
    if m = 0 then f32One
    else if atLeastPow m e 7 then (if s then 0 else 0x7F800000)
    else let (q, k) := fxExp (fxOf s m e)
      f32Of false q k true

/-- Correctly rounded 1/(1 + e^-x). -/
def f32Sigmoid (x : F32) : F32 :=
  match x.val with
  | .nan => f32Nan
  | .inf s => if s then 0 else f32One
  | .fin s m e =>
    if m = 0 then 0x3F000000
    else if atLeastPow m e 7 then (if s then 0 else f32One)
    else
      let (q, k) := fxExp (fxOf true m e)
      let t := q / 2 ^ (-(k + (fxP : Int))).toNat
      if s then f32Of false (q * 2 ^ fxP / (2 ^ fxP + t)) k true
      else f32Of false (2 ^ (2 * fxP) / (2 ^ fxP + t)) (-(fxP : Int)) true

/-- Sum of the series of the normal distribution function: term `n` is (-1)^n y^(2n+1) / (2^n n!). -/
def fxPhiFrom : Nat → Int → Nat → Int → Int → Int
  | 0, _, _, _, acc => acc
  | k + 1, y2, n, t, acc =>
    let t' := -(t * y2 / (2 ^ fxP : Nat) / (2 * ((n : Int) + 1)))
    fxPhiFrom k y2 (n + 1) t' (acc + t' / (2 * ((n : Int) + 1) + 1))

/-- Correctly rounded normal distribution function. -/
def f32Phi (x : F32) : F32 :=
  match x.val with
  | .nan => f32Nan
  | .inf s => if s then 0 else f32One
  | .fin s m e =>
    if m = 0 then 0x3F000000
    else if atLeastPow m e 4 then (if s then 0 else f32One)
    else
      let y := fxOf s m e
      let sum := fxPhiFrom 900 (y * y / (2 ^ fxP : Nat)) 0 y y
      let r := (2 ^ (fxP - 1) : Nat) + sum * (fxIs2Pi : Int) / (2 ^ fxP : Nat)
      f32Of (decide (r < 0)) r.natAbs (-(fxP : Int)) true

/-- Sine and cosine series for fixed-point `0 ≤ r ≤ π/2`; `n` is the exponent of the term held. -/
def fxTrigFrom : Nat → Int → Nat → Int → Int → Int
  | 0, _, _, _, acc => acc
  | k + 1, r2, n, t, acc =>
    let t' := -(t * r2 / (2 ^ fxP : Nat) / (((n : Int) + 1) * ((n : Int) + 2)))
    fxTrigFrom k r2 (n + 2) t' (acc + t')

/-- Sine (`co = 0`) or cosine (`co = 1`) of a finite value, correctly rounded with exact argument reduction. -/
def trigOf (co : Nat) (s : Bool) (m : Nat) (e : Int) : F32 :=
  let x2 := 2 * (fxOf false m e).toNat
  let q := (x2 / fxPi + co) % 4
  let r : Int := ((x2 % fxPi / 2 : Nat) : Int)
  let r2 := r * r / (2 ^ fxP : Nat)
  let v := if q % 2 = 0 then fxTrigFrom 90 r2 1 r r else fxTrigFrom 90 r2 0 (2 ^ fxP : Nat) (2 ^ fxP : Nat)
  let v := if 2 ≤ q then -v else v
  let v := if s && co == 0 then -v else v
  f32Of (decide (v < 0)) v.natAbs (-(fxP : Int)) true

/-- Correctly rounded sine. -/
def f32Sin (x : F32) : F32 :=
  match x.val with
  | .fin s m e => if m = 0 then x &&& 0x80000000 else trigOf 0 s m e
  | _ => f32Nan

/-- Correctly rounded cosine. -/
def f32Cos (x : F32) : F32 :=
  match x.val with
  | .fin s m e => if m = 0 then f32One else trigOf 1 s m e
  | _ => f32Nan

/-- SiLU, step by step (R187). -/
def f32Silu (x : F32) : F32 := f32Mul x (f32Sigmoid x)
/-- GELU, step by step (R187). -/
def f32Gelu (x : F32) : F32 := f32Mul x (f32Phi x)

/-- One level of a tree sum: pairs (2k, 2k+1), an odd last element paired with plus zero (R188). -/
def treePairs : List F32 → List F32
  | a :: b :: r => f32Add a b :: treePairs r
  | [a] => [f32Add a f32Zero]
  | [] => []

/-- The tree sum of R188; `fuel` levels, padding with zeros to a power of two. -/
def treeSumFrom : Nat → List F32 → F32
  | 0, l => l.headD f32Zero
  | k + 1, l => match l with
    | [] => f32Zero
    | [a] => a
    | l => treeSumFrom k (treePairs l)

/-- The tree sum of a list (R188). -/
def treeSum (l : List F32) : F32 := treeSumFrom 40 l

/-- RMSNorm's factor: ρ = rsqrt(fp32(m + ε)) with m the mean of the squares (R188). -/
def rmsRho (l : List F32) (eps : F32) : F32 :=
  f32Rsqrt (f32Add (f32Div (treeSum (l.map fun x => f32Mul x x)) (f32OfInt l.length)) eps)

/-- RMSNorm over a list with BF16 gains (R188). -/
def rmsNorm (l : List F32) (eps : F32) (g : List BF) : List F32 :=
  let rho := rmsRho l eps
  List.zipWith (fun x w => f32Mul (f32Mul x rho) (BF.toF32 w)) l g

/-- LayerNorm over a list with BF16 gains and biases (R188). -/
def layerNorm (l : List F32) (eps : F32) (g b : List BF) : List F32 :=
  let mu := f32Div (treeSum l) (f32OfInt l.length)
  let d := l.map fun x => f32Sub x mu
  List.zipWith (fun y w => f32Add y (BF.toF32 w)) (rmsNorm d eps g) b

/-- Rotation of a 128-value vector at a position with 64 frequencies (R189). -/
def ropeVec (pos : Nat) (freq : List F32) (v : List F32) : List F32 :=
  let cs := freq.map fun f => let a := f32Mul (f32OfInt pos) f
    (f32Cos a, f32Sin a)
  let x := v.take 64
  let y := v.drop 64
  let z := (x.zip y).zip cs
  (z.map fun ((x, y), (c, s)) => f32Sub (f32Mul x c) (f32Mul y s)) ++
    (z.map fun ((x, y), (c, s)) => f32Add (f32Mul x s) (f32Mul y c))

/-! ### Trits, L8 and linear sums -/

/-- The five trits of a byte below 243 (R33): digit minus one. -/
def tritsOfByte (b : Nat) : List Int :=
  (List.range 5).map fun k => ((b / 3 ^ k % 3 : Nat) : Int) - 1

/-- The trits of a list of bytes. -/
def tritsOf (l : List Byte) : List Int := l.flatMap fun b => tritsOfByte b.toNat

/-- `round(16 log2 v)` for `v = m * 2^e`, `m ≠ 0` (R56-R58): no tie occurs. -/
def log16 (m : Nat) (e : Int) : Int := ((Nat.log2 (m ^ 32) : Int) + 32 * e + 1) / 2

/-- An L8 operand: sign and magnitude code, 0 for zero (R55). -/
structure L8 where
  neg : Bool
  mag : Nat
deriving DecidableEq, Repr

/-- A KV code to L8 (R56). -/
def l8OfCode (q : Int) : L8 := if q = 0 then ⟨false, 0⟩ else ⟨decide (q < 0), (1 + log16 q.natAbs 0).toNat⟩

/-- The group exponent of finite values: `e_max - 6` (R57). -/
def l8Group (l : List F32) : Int :=
  (l.foldl (fun a x => if x.isZero then a else max a (f32Exp x)) (-127)) - 6

/-- One value of a group to L8 with group exponent `g` (R57). -/
def l8OfF32 (g : Int) (x : F32) : L8 :=
  match x.val with
  | .fin s m e => if m = 0 then ⟨false, 0⟩ else
    let k := 1 + log16 m (e - g)
    if k < 1 then ⟨false, 0⟩ else ⟨s, k.toNat⟩
  | _ => ⟨false, 0⟩

/-- The scale code of a BF16 scale (R58). -/
def scaleCode (s : BF) : Int :=
  match (BF.toF32 s).val with
  | .fin _ m e => if m = 0 then 0 else log16 m e
  | _ => 0

/-- A BF16 KV scale that R49 admits: zero, or positive, normal and finite. -/
def scaleOk (s : BF) : Bool :=
  s.toNat == 0 || (!bit s.toNat 15 && bits s.toNat 7 8 != 0 && bits s.toNat 7 8 != 255)

/-- The fraction-correction table (R175). -/
def fct : List Nat :=
  [1024, 1069, 1117, 1166, 1218, 1272, 1328, 1387, 1448, 1512, 1579, 1649, 1722, 1798, 1878, 1961]

/-- The linear sum of R176 over products (sign, exponent code) that share the group exponent `g`. -/
def lsum (ps : List (Bool × Int)) (g : Int) : F32 :=
  match ps with
  | [] => f32Zero
  | p :: r =>
    let ir := r.foldl (fun a q => max a (q.2 / 16)) (p.2 / 16)
    let term (q : Bool × Int) : Int :=
      let i := q.2 / 16
      let f := (q.2 - 16 * i).toNat
      let sh := 24 + i - ir
      let t : Nat := if 0 ≤ sh then fct.getD f 0 * 2 ^ sh.toNat else fct.getD f 0 / 2 ^ (-sh).toNat
      if q.1 then -(t : Int) else t
    f32OfInt ((p :: r).foldl (fun a q => a + term q) 0) (ir - 34 + g)

/-- Saturation to 32 bits: the value and whether it saturated (R46). -/
def sat32 (w : Int) : Int × Bool :=
  if w < -2147483648 then (-2147483648, true) else if 2147483647 < w then (2147483647, true) else (w, false)

/-- A value modulo 3, 0 to 2 (R47). -/
def res3 (w : Int) : Nat := (w % 3).toNat

/-- The residue of 2^n (R47). -/
def res3pow (n : Nat) : Nat := if n % 2 = 0 then 1 else 2

/-- Residues added and multiplied; the code 3 is no residue, and nothing formed from it is one (R47). -/
def resAdd (a b : Nat) : Nat := if a = 3 ∨ b = 3 then 3 else (a + b) % 3
def resMul (a b : Nat) : Nat := if a = 3 ∨ b = 3 then 3 else a * b % 3

/-- What the check of a carried residue against the residue of its value finds: the code 3 (cause 0x04), a mismatch (the cause
given), or nothing (R83, R90). -/
def resCheck (carried value mismatch : Nat) : Nat := if carried = 3 then 4 else if carried = value then 0 else mismatch

end Sys2Proof.Machine
end

