-- ==== Sys2Proof/Machine/RegMap.lean ====
section
/-!
DEFINITION. The register fields of the control window, one constant per row of the source's register tables, and the
reset word of every address (R550-R553). A field is named by its unit and the source's field name.
-/
namespace Sys2Proof.Machine

/-- The access codes of R8. -/
inductive Acc where
  | ro | rw | rwh | w1c | wo | rc
deriving DecidableEq, Repr

/-- A field of a register word: the word's offset in its block, its lowest bit, its width and its access code. -/
structure Fld where
  off : Nat
  lo : Nat
  w : Nat
  acc : Acc
  rst : Nat := 0
deriving DecidableEq, Repr

/-- Base of the core windows in the model's own address space: one window per PHYSICAL core, since a logical window shows
the physical core that the core map places behind it (R544). -/
def coreKey : Nat := 0x100000000
/-- The window of physical core `p`. -/
def coreB (p : Nat) : Nat := coreKey + 0x1000 * p
def teB (p e : Nat) : Nat := coreB p + 0x400 + 0x80 * e
def xeB (p e : Nat) : Nat := coreB p + 0x600 + 0x80 * e
def qB (p : Nat) : Nat := coreB p + 0x800
def geB (p : Nat) : Nat := coreB p + 0x900
def leB (p : Nat) : Nat := coreB p + 0xA00
def tdB (p : Nat) : Nat := coreB p + 0xB00
def spmB (p : Nat) : Nat := coreB p + 0xC00
def dmaB (p : Nat) : Nat := coreB p + 0xD00
/-- The chip registers, and the log registers, by their whole address. -/
def chipB : Nat := 0
def tblB (n : Nat) : Nat := 0x2000 + 8 * n
def mgnB (m c : Nat) : Nat := 0x2010000 + 8 * (64 * m + c)
def regionB (r : Nat) : Nat := 0x2800 + 8 * r
def mcB (m : Nat) : Nat := 0x200000 + 0x10000 * m
def mcregB (m k : Nat) : Nat := mcB m + 0x100 + 8 * k
def mcbytesB (m k : Nat) : Nat := mcB m + 0x180 + 8 * k
def coachB (c : Nat) : Nat := 0x1000000 + 0x1000 * c
def cvecB (c v : Nat) : Nat := coachB c + 0x450 + 0x10 * v
def admVecB (k : Nat) : Nat := 0x3140 + 0x10 * k
def routeB (n : Nat) : Nat := 0x4000 + 8 * n
def sliceB (c : Nat) : Nat := 0x8000 + 8 * c
def portB (p : Nat) : Nat := 0x300000 + 0x4000 * p
def pcoreB (p : Nat) : Nat := 0x2C00 + 8 * p
def lbEklB (p : Nat) : Nat := 0x2020000 + 0x20 * p
def lbHbmB (m : Nat) : Nat := 0x2020200 + 0x20 * m
def coremapB (l : Nat) : Nat := 0x1000 + 8 * l

/-- R87 TE_STATUS.SET_A. -/
def F.teSetA : Fld := ⟨0x0, 0, 2, .ro, 0⟩
/-- R87 TE_STATUS.SET_B. -/
def F.teSetB : Fld := ⟨0x0, 2, 2, .ro, 0⟩
/-- R87 TE_STATUS.ACTIVE_VALID. -/
def F.teActiveValid : Fld := ⟨0x0, 4, 1, .ro, 0⟩
/-- R87 TE_STATUS.SHADOW_VALID. -/
def F.teShadowValid : Fld := ⟨0x0, 5, 1, .ro, 0⟩
/-- R87 TE_STATUS.COMPACT. -/
def F.teCompact : Fld := ⟨0x0, 6, 1, .ro, 0⟩
/-- R87 TE_STATUS.SKIP_EN. -/
def F.teSkipEn : Fld := ⟨0x0, 7, 1, .ro, 1⟩
/-- R87 TE_STATUS.FMT_A. -/
def F.teFmtA : Fld := ⟨0x0, 8, 2, .ro, 0⟩
/-- R87 TE_STATUS.FMT_B. -/
def F.teFmtB : Fld := ⟨0x0, 10, 2, .ro, 0⟩
/-- R87 TE_STATUS.DRAIN_BUSY. -/
def F.teDrainBusy : Fld := ⟨0x0, 12, 1, .ro, 0⟩
/-- R88 TE_ERR.VALID. -/
def F.teErrValid : Fld := ⟨0x8, 0, 1, .w1c, 0⟩
/-- R88 TE_ERR.OVERRUN. -/
def F.teErrOverrun : Fld := ⟨0x8, 1, 1, .w1c, 0⟩
/-- R88 TE_ERR.CAUSE. -/
def F.teErrCause : Fld := ⟨0x8, 8, 8, .ro, 0⟩
/-- R88 TE_ERR.SET. -/
def F.teErrSet : Fld := ⟨0x8, 16, 1, .ro, 0⟩
/-- R88 TE_ERR.ROW. -/
def F.teErrRow : Fld := ⟨0x8, 17, 6, .ro, 0⟩
/-- R88 TE_ERR.COLUMN. -/
def F.teErrColumn : Fld := ⟨0x8, 23, 8, .ro, 0⟩
/-- R88 TE_ERR.CHAIN. -/
def F.teErrChain : Fld := ⟨0x8, 32, 16, .ro, 0⟩
/-- R88 TE_ERR.RESMIS. -/
def F.teErrResmis : Fld := ⟨0x8, 48, 16, .rc, 0⟩
/-- R89 CYC_PLANE. -/
def F.teCycPlane : Fld := ⟨0x10, 0, 64, .ro, 0⟩
/-- R89 CYC_WSTALL. -/
def F.teCycWstall : Fld := ⟨0x18, 0, 64, .ro, 0⟩
/-- R89 CYC_ASTALL. -/
def F.teCycAstall : Fld := ⟨0x20, 0, 64, .ro, 0⟩
/-- R89 CYC_DSTALL. -/
def F.teCycDstall : Fld := ⟨0x28, 0, 64, .ro, 0⟩
/-- R89 CYC_BSTALL. -/
def F.teCycBstall : Fld := ⟨0x30, 0, 64, .ro, 0⟩
/-- R89 PLANES_SKIPPED. -/
def F.tePlanesSkipped : Fld := ⟨0x38, 0, 64, .ro, 0⟩
/-- R89 ZERO_BLOCKS. -/
def F.teZeroBlocks : Fld := ⟨0x40, 0, 64, .ro, 0⟩
/-- R89 PROMOTIONS. -/
def F.tePromotions : Fld := ⟨0x48, 0, 64, .ro, 0⟩
/-- R89 SAT_OUT. -/
def F.teSatOut : Fld := ⟨0x50, 0, 64, .ro, 0⟩
/-- R89 OUTLIER_TERMS. -/
def F.teOutlierTerms : Fld := ⟨0x58, 0, 64, .ro, 0⟩
/-- R89 BAR_IN. -/
def F.teBarIn : Fld := ⟨0x60, 0, 64, .ro, 0⟩
/-- R89 BAR_OUT. -/
def F.teBarOut : Fld := ⟨0x68, 0, 64, .ro, 0⟩
/-- R89 TILES. -/
def F.teTiles : Fld := ⟨0x70, 0, 64, .ro, 0⟩
/-- R89 COMPACT_SLICES. -/
def F.teCompactSlices : Fld := ⟨0x78, 0, 64, .ro, 0⟩
/-- R107 TBL_DIR.STATE. -/
def F.tblState : Fld := ⟨0x0, 0, 2, .ro, 0⟩
/-- R107 TBL_DIR.GEN. -/
def F.tblGen : Fld := ⟨0x0, 16, 16, .ro, 0⟩
/-- R107 TBL_DIR.COUNT. -/
def F.tblCount : Fld := ⟨0x0, 32, 32, .ro, 0⟩
/-- R117 XE_STATUS.STATE. -/
def F.xeState : Fld := ⟨0x0, 0, 2, .ro, 0⟩
/-- R117 XE_STATUS.BLOCK. -/
def F.xeBlock : Fld := ⟨0x0, 2, 3, .ro, 0⟩
/-- R117 XE_STATUS.MODE. -/
def F.xeMode : Fld := ⟨0x0, 5, 1, .ro, 0⟩
/-- R117 XE_STATUS.SLOT. -/
def F.xeSlot : Fld := ⟨0x0, 6, 4, .ro, 0⟩
/-- R118 XE_ERR.VALID. -/
def F.xeErrValid : Fld := ⟨0x8, 0, 1, .w1c, 0⟩
/-- R118 XE_ERR.OVERRUN. -/
def F.xeErrOverrun : Fld := ⟨0x8, 1, 1, .w1c, 0⟩
/-- R118 XE_ERR.CAUSE. -/
def F.xeErrCause : Fld := ⟨0x8, 8, 8, .ro, 0⟩
/-- R118 XE_ERR.BLOCK. -/
def F.xeErrBlock : Fld := ⟨0x8, 16, 3, .ro, 0⟩
/-- R118 XE_ERR.LANE. -/
def F.xeErrLane : Fld := ⟨0x8, 19, 4, .ro, 0⟩
/-- R118 XE_ERR.ATTEMPT. -/
def F.xeErrAttempt : Fld := ⟨0x8, 23, 1, .ro, 0⟩
/-- R118 XE_ERR.CHAIN. -/
def F.xeErrChain : Fld := ⟨0x8, 32, 16, .ro, 0⟩
/-- R118 XE_ERR.TILE. -/
def F.xeErrTile : Fld := ⟨0x8, 48, 10, .ro, 0⟩
/-- R119 BLOCKS_RAW. -/
def F.xeBlocksRaw : Fld := ⟨0x10, 0, 64, .ro, 0⟩
/-- R119 BLOCKS_CODED. -/
def F.xeBlocksCoded : Fld := ⟨0x18, 0, 64, .ro, 0⟩
/-- R119 PAYLOAD_BYTES. -/
def F.xePayloadBytes : Fld := ⟨0x20, 0, 64, .ro, 0⟩
/-- R119 TRITS_OUT. -/
def F.xeTritsOut : Fld := ⟨0x28, 0, 64, .ro, 0⟩
/-- R119 CYC_XSTALL. -/
def F.xeCycXstall : Fld := ⟨0x30, 0, 64, .ro, 0⟩
/-- R119 CYC_XSLOW. -/
def F.xeCycXslow : Fld := ⟨0x38, 0, 64, .ro, 0⟩
/-- R119 REFETCHES. -/
def F.xeRefetches : Fld := ⟨0x40, 0, 64, .ro, 0⟩
/-- R141 Q_PIN.VALID. -/
def F.qPinValid : Fld := ⟨0x0, 0, 1, .w1c, 0⟩
/-- R141 Q_PIN.OVERRUN. -/
def F.qPinOverrun : Fld := ⟨0x0, 1, 1, .w1c, 0⟩
/-- R141 Q_PIN.KIND. -/
def F.qPinKind : Fld := ⟨0x0, 2, 2, .ro, 0⟩
/-- R141 Q_PIN.COACH. -/
def F.qPinCoach : Fld := ⟨0x0, 4, 12, .ro, 0⟩
/-- R141 Q_PIN.CHANNEL. -/
def F.qPinChannel : Fld := ⟨0x0, 16, 26, .ro, 0⟩
/-- R141 Q_PIN.LAYER. -/
def F.qPinLayer : Fld := ⟨0x0, 42, 16, .ro, 0⟩
/-- R142 QBLOCKS. -/
def F.qQblocks : Fld := ⟨0x8, 0, 64, .ro, 0⟩
/-- R142 QREPLAYS. -/
def F.qQreplays : Fld := ⟨0x10, 0, 64, .ro, 0⟩
/-- R142 CYC_QREPLAY. -/
def F.qCycQreplay : Fld := ⟨0x18, 0, 64, .ro, 0⟩
/-- R142 ESCALATIONS. -/
def F.qEscalations : Fld := ⟨0x20, 0, 64, .ro, 0⟩
/-- R142 OUTLIER_SPILL. -/
def F.qOutlierSpill : Fld := ⟨0x28, 0, 64, .ro, 0⟩
/-- R142 ESC_CEIL. -/
def F.qEscCeil : Fld := ⟨0x30, 0, 64, .ro, 0⟩
/-- R142 ZERO_BLOCKS. -/
def F.qZeroBlocks : Fld := ⟨0x38, 0, 64, .ro, 0⟩
/-- R142 PIN_BREACH. -/
def F.qPinBreach : Fld := ⟨0x40, 0, 64, .ro, 0⟩
/-- R142 OUTLIERS. -/
def F.qOutliers : Fld := ⟨0x48, 0, 64, .ro, 0⟩
/-- R142 FMT_BARRIERS. -/
def F.qFmtBarriers : Fld := ⟨0x50, 0, 64, .ro, 0⟩
/-- R142 KV_BLOCKS. -/
def F.qKvBlocks : Fld := ⟨0x58, 0, 64, .ro, 0⟩
/-- R142 KV_ZBREACH. -/
def F.qKvZbreach : Fld := ⟨0x60, 0, 64, .ro, 0⟩
/-- R169 GE_STATUS.STATE. -/
def F.geState : Fld := ⟨0x0, 0, 2, .ro, 0⟩
/-- R169 GE_STATUS.OVE. -/
def F.geOve : Fld := ⟨0x0, 2, 14, .ro, 0⟩
/-- R169 GE_STATUS.COLUMN. -/
def F.geColumn : Fld := ⟨0x0, 16, 8, .ro, 0⟩
/-- R170 GE_ERR.VALID. -/
def F.geErrValid : Fld := ⟨0x8, 0, 1, .w1c, 0⟩
/-- R170 GE_ERR.OVERRUN. -/
def F.geErrOverrun : Fld := ⟨0x8, 1, 1, .w1c, 0⟩
/-- R170 GE_ERR.CAUSE. -/
def F.geErrCause : Fld := ⟨0x8, 8, 8, .ro, 0⟩
/-- R170 GE_ERR.OVE. -/
def F.geErrOve : Fld := ⟨0x8, 16, 14, .ro, 0⟩
/-- R170 GE_ERR.CHAIN. -/
def F.geErrChain : Fld := ⟨0x8, 32, 16, .ro, 0⟩
/-- R170 GE_ERR.INDEX. -/
def F.geErrIndex : Fld := ⟨0x8, 48, 16, .ro, 0⟩
/-- R171 CARTS_IN. -/
def F.geCartsIn : Fld := ⟨0x10, 0, 64, .ro, 0⟩
/-- R171 SLICES_OUT. -/
def F.geSlicesOut : Fld := ⟨0x18, 0, 64, .ro, 0⟩
/-- R171 ENTRIES_OUT. -/
def F.geEntriesOut : Fld := ⟨0x20, 0, 64, .ro, 0⟩
/-- R171 DENSE_PAIRS. -/
def F.geDensePairs : Fld := ⟨0x28, 0, 64, .ro, 0⟩
/-- R171 ADAPTER_ROWS. -/
def F.geAdapterRows : Fld := ⟨0x30, 0, 64, .ro, 0⟩
/-- R171 CYC_GSTALL. -/
def F.geCycGstall : Fld := ⟨0x38, 0, 64, .ro, 0⟩
/-- R171 REFETCHES. -/
def F.geRefetches : Fld := ⟨0x40, 0, 64, .ro, 0⟩
/-- R171 CART_BYTES. -/
def F.geCartBytes : Fld := ⟨0x48, 0, 64, .ro, 0⟩
/-- R172 OVL_BASE. -/
def F.ovlBase : Fld := ⟨0x2100, 0, 48, .ro, 0⟩
/-- R172 LIVE. -/
def F.ovlLive : Fld := ⟨0x2108, 0, 15, .ro, 0⟩
/-- R172 RETIRING. -/
def F.ovlRetiring : Fld := ⟨0x2108, 16, 15, .ro, 0⟩
/-- R172 REFS. -/
def F.ovlRefs : Fld := ⟨0x2108, 32, 32, .ro, 0⟩
/-- R193 LE_STATUS.PHASE. -/
def F.lePhase : Fld := ⟨0x0, 0, 2, .ro, 0⟩
/-- R193 LE_STATUS.APPEND. -/
def F.leAppend : Fld := ⟨0x0, 2, 1, .ro, 0⟩
/-- R193 LE_STATUS.MERGE_STRICT. -/
def F.leMergeStrict : Fld := ⟨0x0, 3, 1, .ro, 0⟩
/-- R193 LE_STATUS.CHUNK. -/
def F.leChunk : Fld := ⟨0x0, 4, 12, .ro, 0⟩
/-- R193 LE_STATUS.COACH. -/
def F.leCoach : Fld := ⟨0x0, 16, 12, .ro, 0⟩
/-- R194 LE_ERR.VALID. -/
def F.leErrValid : Fld := ⟨0x8, 0, 1, .w1c, 0⟩
/-- R194 LE_ERR.OVERRUN. -/
def F.leErrOverrun : Fld := ⟨0x8, 1, 1, .w1c, 0⟩
/-- R194 LE_ERR.CAUSE. -/
def F.leErrCause : Fld := ⟨0x8, 8, 8, .ro, 0⟩
/-- R194 LE_ERR.ROW. -/
def F.leErrRow : Fld := ⟨0x8, 16, 11, .ro, 0⟩
/-- R194 LE_ERR.QH. -/
def F.leErrQh : Fld := ⟨0x8, 27, 3, .ro, 0⟩
/-- R194 LE_ERR.MID. -/
def F.leErrMid : Fld := ⟨0x8, 32, 16, .ro, 0⟩
/-- R194 LE_ERR.CHUNK. -/
def F.leErrChunk : Fld := ⟨0x8, 48, 12, .ro, 0⟩
/-- R195 LOG_PRODUCTS. -/
def F.leLogProducts : Fld := ⟨0x10, 0, 64, .ro, 0⟩
/-- R195 CYC_QK. -/
def F.leCycQk : Fld := ⟨0x18, 0, 64, .ro, 0⟩
/-- R195 CYC_PV. -/
def F.leCycPv : Fld := ⟨0x20, 0, 64, .ro, 0⟩
/-- R195 CYC_KVSTALL. -/
def F.leCycKvstall : Fld := ⟨0x28, 0, 64, .ro, 0⟩
/-- R195 CYC_MERGE. -/
def F.leCycMerge : Fld := ⟨0x30, 0, 64, .ro, 0⟩
/-- R195 PAGES_READ. -/
def F.lePagesRead : Fld := ⟨0x38, 0, 64, .ro, 0⟩
/-- R195 PARTIALS_OUT. -/
def F.lePartialsOut : Fld := ⟨0x40, 0, 64, .ro, 0⟩
/-- R195 PARTIALS_IN. -/
def F.lePartialsIn : Fld := ⟨0x48, 0, 64, .ro, 0⟩
/-- R195 P_DROPPED. -/
def F.lePDropped : Fld := ⟨0x50, 0, 64, .ro, 0⟩
/-- R195 KV_APPENDS. -/
def F.leKvAppends : Fld := ⟨0x58, 0, 64, .ro, 0⟩
/-- R208 KV_POOL_BASE. -/
def F.kvPoolBase : Fld := ⟨0x2200, 0, 48, .ro, 0⟩
/-- R208 KV_SCL_BASE. -/
def F.kvSclBase : Fld := ⟨0x2208, 0, 48, .ro, 0⟩
/-- R208 N_PAGES. -/
def F.nPages : Fld := ⟨0x2210, 0, 32, .ro, 0⟩
/-- R208 N_COLD. -/
def F.nCold : Fld := ⟨0x2210, 32, 32, .ro, 0⟩
/-- R208 KV_COLD_BASE. -/
def F.kvColdBase : Fld := ⟨0x2218, 0, 48, .ro, 0⟩
/-- R208 FREE. -/
def F.kvFree : Fld := ⟨0x2220, 0, 32, .ro, 0⟩
/-- R208 USED. -/
def F.kvUsed : Fld := ⟨0x2220, 32, 32, .ro, 0⟩
/-- R208 RESERVED. -/
def F.reserved : Fld := ⟨0x2228, 0, 32, .ro, 0⟩
/-- R208 LOWMARK. -/
def F.lowmark : Fld := ⟨0x2228, 32, 32, .rw, 0⟩
/-- R208 COLD_FREE. -/
def F.coldFree : Fld := ⟨0x2230, 0, 32, .ro, 0⟩
/-- R208 COLD_USED. -/
def F.coldUsed : Fld := ⟨0x2230, 32, 32, .ro, 0⟩
/-- R208 KV_DEFER. -/
def F.kvDefer : Fld := ⟨0x2238, 0, 64, .ro, 0⟩
/-- R208 SHIP_OUT. -/
def F.shipOut : Fld := ⟨0x2240, 0, 64, .ro, 0⟩
/-- R208 SHIP_IN. -/
def F.shipIn : Fld := ⟨0x2248, 0, 64, .ro, 0⟩
/-- R208 SHIP_FAIL. -/
def F.shipFail : Fld := ⟨0x2250, 0, 64, .ro, 0⟩
/-- R208 TTL_EXPIRED. -/
def F.ttlExpired : Fld := ⟨0x2258, 0, 64, .ro, 0⟩
/-- R247 SEQ_BASE. -/
def F.seqBase : Fld := ⟨0x2300, 0, 48, .ro, 0⟩
/-- R247 DECODE_CAP. -/
def F.decodeCap : Fld := ⟨0x2308, 0, 12, .rw, 1536⟩
/-- R247 ROLE. -/
def F.sbRole : Fld := ⟨0x2308, 32, 2, .ro, 0⟩
/-- R247 PRED_AUDIT_INT. -/
def F.predAuditInt : Fld := ⟨0x2308, 48, 8, .rw, 64⟩
/-- R247 LIVE. -/
def F.sbLive : Fld := ⟨0x2310, 0, 14, .ro, 0⟩
/-- R247 READY. -/
def F.sbReady : Fld := ⟨0x2310, 32, 14, .ro, 0⟩
/-- R247 STEPS. -/
def F.steps : Fld := ⟨0x2318, 0, 64, .ro, 0⟩
/-- R247 ROWS_DECODE. -/
def F.rowsDecode : Fld := ⟨0x2320, 0, 64, .ro, 0⟩
/-- R247 ROWS_PREFILL. -/
def F.rowsPrefill : Fld := ⟨0x2328, 0, 64, .ro, 0⟩
/-- R247 SEQ_CANCELLED. -/
def F.seqCancelled : Fld := ⟨0x2330, 0, 64, .ro, 0⟩
/-- R247 SEQ_DEADLINE. -/
def F.seqDeadline : Fld := ⟨0x2338, 0, 64, .ro, 0⟩
/-- R247 MASK_LATE. -/
def F.maskLate : Fld := ⟨0x2340, 0, 64, .ro, 0⟩
/-- R247 GEN_BAD. -/
def F.genBad : Fld := ⟨0x2348, 0, 64, .ro, 0⟩
/-- R247 SEQ_WDENY. -/
def F.seqWdeny : Fld := ⟨0x2350, 0, 64, .ro, 0⟩
/-- R247 HOST_TRIPS. -/
def F.hostTrips : Fld := ⟨0x2358, 0, 64, .ro, 0⟩
/-- R247 MANIFEST_WAIT. -/
def F.manifestWait : Fld := ⟨0x2360, 0, 64, .ro, 0⟩
/-- R247 PRED_SKIPPED. -/
def F.predSkipped : Fld := ⟨0x2368, 0, 64, .ro, 0⟩
/-- R247 PRED_AUDITED. -/
def F.predAudited : Fld := ⟨0x2370, 0, 64, .ro, 0⟩
/-- R247 PRED_MISS. -/
def F.predMiss : Fld := ⟨0x2378, 0, 64, .ro, 0⟩
/-- R247 PRED_BREACH. -/
def F.predBreach : Fld := ⟨0x2380, 0, 64, .ro, 0⟩
/-- R272 GS_STORE. -/
def F.gsStore : Fld := ⟨0x2400, 0, 48, .ro, 0⟩
/-- R272 STORE_MIB. -/
def F.storeMib : Fld := ⟨0x2400, 48, 16, .ro, 0⟩
/-- R272 ARMED. -/
def F.armed : Fld := ⟨0x2408, 0, 6, .ro, 0⟩
/-- R272 INFLIGHT. -/
def F.inflight : Fld := ⟨0x2408, 16, 16, .ro, 0⟩
/-- R272 REGISTERED. -/
def F.registered : Fld := ⟨0x2410, 0, 13, .ro, 0⟩
/-- R272 DISPATCHED. -/
def F.dispatched : Fld := ⟨0x2418, 0, 64, .ro, 0⟩
/-- R272 VOIDED. -/
def F.voided : Fld := ⟨0x2420, 0, 64, .ro, 0⟩
/-- R272 UNIT_REPLAYS. -/
def F.unitReplays : Fld := ⟨0x2428, 0, 64, .ro, 0⟩
/-- R272 UNIT_ENDED. -/
def F.unitEnded : Fld := ⟨0x2430, 0, 64, .ro, 0⟩
/-- R272 WATCHDOG. -/
def F.watchdog : Fld := ⟨0x2438, 0, 64, .ro, 0⟩
/-- R272 CYC_NOCREDIT. -/
def F.cycNocredit : Fld := ⟨0x2440, 0, 64, .ro, 0⟩
/-- R272 STALE_CARTS. -/
def F.staleCarts : Fld := ⟨0x2448, 0, 64, .ro, 0⟩
/-- R273 TD_STATUS.QUEUED. -/
def F.tdQueued : Fld := ⟨0x0, 0, 6, .ro, 0⟩
/-- R273 TD_ERR.VALID. -/
def F.tdErrValid : Fld := ⟨0x8, 0, 1, .w1c, 0⟩
/-- R273 TD_ERR.OVERRUN. -/
def F.tdErrOverrun : Fld := ⟨0x8, 1, 1, .w1c, 0⟩
/-- R273 TD_ERR.CAUSE. -/
def F.tdErrCause : Fld := ⟨0x8, 8, 8, .ro, 0⟩
/-- R273 TD_ERR.INDEX. -/
def F.tdErrIndex : Fld := ⟨0x8, 16, 16, .ro, 0⟩
/-- R273 TD_ERR.GRAPH. -/
def F.tdErrGraph : Fld := ⟨0x8, 32, 16, .ro, 0⟩
/-- R273 CARRIAGES. -/
def F.tdCarriages : Fld := ⟨0x10, 0, 64, .ro, 0⟩
/-- R273 WD_FIRED. -/
def F.tdWdFired : Fld := ⟨0x18, 0, 64, .ro, 0⟩
/-- R273 CYC_IDLE. -/
def F.tdCycIdle : Fld := ⟨0x20, 0, 64, .ro, 0⟩
/-- R293 SPM_SIZE.BYTES. -/
def F.spmBytes : Fld := ⟨0x0, 0, 24, .ro, 3145728⟩
/-- R293 SPM_SIZE.BANKS. -/
def F.spmBanks : Fld := ⟨0x0, 24, 8, .ro, 32⟩
/-- R293 SPM_SIZE.ROWS. -/
def F.spmRows : Fld := ⟨0x0, 32, 16, .ro, 384⟩
/-- R293 SPM_NBR.NBR_N. -/
def F.spmNbrN : Fld := ⟨0x8, 0, 8, .ro, 0⟩
/-- R293 SPM_NBR.NBR_E. -/
def F.spmNbrE : Fld := ⟨0x8, 8, 8, .ro, 0⟩
/-- R293 SPM_NBR.NBR_S. -/
def F.spmNbrS : Fld := ⟨0x8, 16, 8, .ro, 0⟩
/-- R293 SPM_NBR.NBR_W. -/
def F.spmNbrW : Fld := ⟨0x8, 24, 8, .ro, 0⟩
/-- R293 SPM_ERR.VALID. -/
def F.spmErrValid : Fld := ⟨0x10, 0, 1, .w1c, 0⟩
/-- R293 SPM_ERR.OVERRUN. -/
def F.spmErrOverrun : Fld := ⟨0x10, 1, 1, .w1c, 0⟩
/-- R293 SPM_ERR.CAUSE. -/
def F.spmErrCause : Fld := ⟨0x10, 8, 8, .ro, 0⟩
/-- R293 SPM_ERR.BANK. -/
def F.spmErrBank : Fld := ⟨0x10, 16, 5, .ro, 0⟩
/-- R293 SPM_ERR.ROW. -/
def F.spmErrRow : Fld := ⟨0x10, 21, 9, .ro, 0⟩
/-- R293 SPM_ERR.WORD. -/
def F.spmErrWord : Fld := ⟨0x10, 30, 5, .ro, 0⟩
/-- R293 SPM_ERR.COACH. -/
def F.spmErrCoach : Fld := ⟨0x10, 36, 12, .ro, 0⟩
/-- R293 SPM_ERR.GRAPH. -/
def F.spmErrGraph : Fld := ⟨0x10, 48, 16, .ro, 0⟩
/-- R293 ECC_CORR. -/
def F.spmEccCorr : Fld := ⟨0x18, 0, 64, .ro, 0⟩
/-- R293 ECC_UNCORR. -/
def F.spmEccUncorr : Fld := ⟨0x20, 0, 64, .ro, 0⟩
/-- R293 SCRUB_ROWS. -/
def F.spmScrubRows : Fld := ⟨0x28, 0, 64, .ro, 0⟩
/-- R293 SCRUB_SWEEPS. -/
def F.spmScrubSweeps : Fld := ⟨0x30, 0, 64, .ro, 0⟩
/-- R293 CONFLICTS. -/
def F.spmConflicts : Fld := ⟨0x38, 0, 64, .ro, 0⟩
/-- R293 HAZARDS. -/
def F.spmHazards : Fld := ⟨0x40, 0, 64, .ro, 0⟩
/-- R293 OWNER_DENY. -/
def F.spmOwnerDeny : Fld := ⟨0x48, 0, 64, .ro, 0⟩
/-- R293 OWNER_CHANGES. -/
def F.spmOwnerChanges : Fld := ⟨0x50, 0, 64, .ro, 0⟩
/-- R293 CYC_YIELD. -/
def F.spmCycYield : Fld := ⟨0x58, 0, 64, .ro, 0⟩
/-- R293 CYC_SCRUBFORCE. -/
def F.spmCycScrubforce : Fld := ⟨0x60, 0, 64, .ro, 0⟩
/-- R294 DMA_STATUS.TAGS_BUSY. -/
def F.dmaTagsBusy : Fld := ⟨0x0, 0, 7, .ro, 0⟩
/-- R294 DMA_STATUS.QUEUED. -/
def F.dmaQueued : Fld := ⟨0x0, 8, 6, .ro, 0⟩
/-- R294 DMA_STATUS.FINE_BUSY. -/
def F.dmaFineBusy : Fld := ⟨0x0, 16, 7, .ro, 0⟩
/-- R294 DMA_ERR.VALID. -/
def F.dmaErrValid : Fld := ⟨0x8, 0, 1, .w1c, 0⟩
/-- R294 DMA_ERR.OVERRUN. -/
def F.dmaErrOverrun : Fld := ⟨0x8, 1, 1, .w1c, 0⟩
/-- R294 DMA_ERR.CAUSE. -/
def F.dmaErrCause : Fld := ⟨0x8, 8, 8, .ro, 0⟩
/-- R294 DMA_ERR.INDEX. -/
def F.dmaErrIndex : Fld := ⟨0x8, 16, 16, .ro, 0⟩
/-- R294 DMA_ERR.GRAPH. -/
def F.dmaErrGraph : Fld := ⟨0x8, 32, 16, .ro, 0⟩
/-- R294 DMA_ERR.OP. -/
def F.dmaErrOp : Fld := ⟨0x8, 48, 3, .ro, 0⟩
/-- R294 DESCRIPTORS. -/
def F.dmaDescriptors : Fld := ⟨0x10, 0, 64, .ro, 0⟩
/-- R294 BYTES_IN. -/
def F.dmaBytesIn : Fld := ⟨0x18, 0, 64, .ro, 0⟩
/-- R294 BYTES_OUT. -/
def F.dmaBytesOut : Fld := ⟨0x20, 0, 64, .ro, 0⟩
/-- R294 FINE_ACCESSES. -/
def F.dmaFineAccesses : Fld := ⟨0x28, 0, 64, .ro, 0⟩
/-- R294 CYC_NOTAG. -/
def F.dmaCycNotag : Fld := ⟨0x30, 0, 64, .ro, 0⟩
/-- R294 CYC_NOCRED. -/
def F.dmaCycNocred : Fld := ⟨0x38, 0, 64, .ro, 0⟩
/-- R294 NBR_OUT. -/
def F.dmaNbrOut : Fld := ⟨0x40, 0, 64, .ro, 0⟩
/-- R294 NBR_IN. -/
def F.dmaNbrIn : Fld := ⟨0x48, 0, 64, .ro, 0⟩
/-- R319 MGN_RES.RD_T. -/
def F.mgnRdT : Fld := ⟨0x0, 0, 8, .ro, 0⟩
/-- R319 MGN_RES.RD_V. -/
def F.mgnRdV : Fld := ⟨0x0, 8, 8, .ro, 0⟩
/-- R319 MGN_RES.WR_T. -/
def F.mgnWrT : Fld := ⟨0x0, 16, 8, .ro, 0⟩
/-- R319 MGN_RES.WR_V. -/
def F.mgnWrV : Fld := ⟨0x0, 24, 8, .ro, 0⟩
/-- R319 MGN_RES.DONE. -/
def F.mgnDone : Fld := ⟨0x0, 32, 1, .ro, 0⟩
/-- R319 MGN_RES.PASS. -/
def F.mgnPass : Fld := ⟨0x0, 33, 1, .ro, 0⟩
/-- R322 REGION.VALID. -/
def F.regionValid : Fld := ⟨0x0, 0, 1, .ro, 0⟩
/-- R322 REGION.FORM. -/
def F.regionForm : Fld := ⟨0x0, 1, 2, .ro, 0⟩
/-- R322 REGION.QUAD. -/
def F.regionQuad : Fld := ⟨0x0, 3, 2, .ro, 0⟩
/-- R322 REGION.SHARED. -/
def F.regionShared : Fld := ⟨0x0, 5, 1, .ro, 0⟩
/-- R322 REGION.MSTATE. -/
def F.regionMstate : Fld := ⟨0x0, 6, 2, .ro, 0⟩
/-- R322 REGION.FBASE. -/
def F.regionFbase : Fld := ⟨0x0, 8, 10, .ro, 0⟩
/-- R322 REGION.FCOUNT. -/
def F.regionFcount : Fld := ⟨0x0, 18, 10, .ro, 0⟩
/-- R322 REGION.MBASE. -/
def F.regionMbase : Fld := ⟨0x0, 28, 10, .ro, 0⟩
/-- R322 REGION.REBUILDS. -/
def F.regionRebuilds : Fld := ⟨0x0, 38, 26, .ro, 0⟩
/-- R323 PM_INTERVAL. -/
def F.pmInterval : Fld := ⟨0x2500, 0, 32, .rw, 0⟩
/-- R323 PM_PAYLOAD. -/
def F.pmPayload : Fld := ⟨0x2508, 0, 64, .ro, 0⟩
/-- R323 PM_TRITS. -/
def F.pmTrits : Fld := ⟨0x2510, 0, 64, .ro, 0⟩
/-- R323 PM_NS. -/
def F.pmNs : Fld := ⟨0x2518, 0, 64, .ro, 0⟩
/-- R323 PM_EFF. -/
def F.pmEff : Fld := ⟨0x2520, 0, 17, .ro, 0⟩
/-- R323 PM_END. -/
def F.pmEnd : Fld := ⟨0x2528, 0, 64, .ro, 0⟩
/-- R324 MC_STATUS.TRAINED. -/
def F.mcTrained : Fld := ⟨0x0, 0, 1, .ro, 0⟩
/-- R324 MC_STATUS.SELFREF. -/
def F.mcSelfref : Fld := ⟨0x0, 1, 1, .ro, 0⟩
/-- R324 MC_STATUS.SPARES_LEFT. -/
def F.mcSparesLeft : Fld := ⟨0x0, 8, 8, .ro, 16⟩
/-- R324 MC_ERR.VALID. -/
def F.mcErrValid : Fld := ⟨0x8, 0, 1, .w1c, 0⟩
/-- R324 MC_ERR.OVERRUN. -/
def F.mcErrOverrun : Fld := ⟨0x8, 1, 1, .w1c, 0⟩
/-- R324 MC_ERR.CAUSE. -/
def F.mcErrCause : Fld := ⟨0x8, 8, 8, .ro, 0⟩
/-- R324 MC_ERR.PC. -/
def F.mcErrPc : Fld := ⟨0x8, 16, 6, .ro, 0⟩
/-- R324 MC_ERR.ADDR. -/
def F.mcErrAddr : Fld := ⟨0x8, 24, 40, .ro, 0⟩
/-- R324 REG.RATE. -/
def F.mcregRate : Fld := ⟨0x0, 0, 16, .rw, 0⟩
/-- R324 REG.BURST. -/
def F.mcregBurst : Fld := ⟨0x0, 16, 16, .rw, 0⟩
/-- R324 REG.EN. -/
def F.mcregEn : Fld := ⟨0x0, 32, 1, .rw, 0⟩
/-- R324 REG.SHARE. -/
def F.mcregShare : Fld := ⟨0x0, 33, 1, .rw, 0⟩
/-- R324 CLASS_BYTES. -/
def F.mcbytesClassBytes : Fld := ⟨0x0, 0, 64, .ro, 0⟩
/-- R325 BYTES_RD. -/
def F.mcBytesRd : Fld := ⟨0x10, 0, 64, .ro, 0⟩
/-- R325 BYTES_WR. -/
def F.mcBytesWr : Fld := ⟨0x18, 0, 64, .ro, 0⟩
/-- R325 FINE_OPS. -/
def F.mcFineOps : Fld := ⟨0x20, 0, 64, .ro, 0⟩
/-- R325 ADDS. -/
def F.mcAdds : Fld := ⟨0x28, 0, 64, .ro, 0⟩
/-- R325 ECC_CORR. -/
def F.mcEccCorr : Fld := ⟨0x30, 0, 64, .ro, 0⟩
/-- R325 ECC_UNCORR. -/
def F.mcEccUncorr : Fld := ⟨0x38, 0, 64, .ro, 0⟩
/-- R325 POISON_RESP. -/
def F.mcPoisonResp : Fld := ⟨0x40, 0, 64, .ro, 0⟩
/-- R325 MIRROR_FIXES. -/
def F.mcMirrorFixes : Fld := ⟨0x48, 0, 64, .ro, 0⟩
/-- R325 ROWS_RETIRED. -/
def F.mcRowsRetired : Fld := ⟨0x50, 0, 64, .ro, 0⟩
/-- R325 SCRUB_LINES. -/
def F.mcScrubLines : Fld := ⟨0x58, 0, 64, .ro, 0⟩
/-- R325 CYC_REGHOLD. -/
def F.mcCycReghold : Fld := ⟨0x60, 0, 64, .ro, 0⟩
/-- R325 UNMAPPED. -/
def F.mcUnmapped : Fld := ⟨0x68, 0, 64, .ro, 0⟩
/-- R325 CYC_FINEPRI. -/
def F.mcCycFinepri : Fld := ⟨0x70, 0, 64, .ro, 0⟩
/-- R341 COACH_STATUS.STATE. -/
def F.coachState : Fld := ⟨0x400, 0, 3, .ro, 0⟩
/-- R341 COACH_STATUS.REFUSED. -/
def F.coachRefused : Fld := ⟨0x400, 3, 1, .w1c, 0⟩
/-- R341 COACH_STATUS.REFUSE. -/
def F.coachRefuse : Fld := ⟨0x400, 4, 8, .ro, 0⟩
/-- R341 COACH_STATUS.RESET_PEND. -/
def F.coachResetPend : Fld := ⟨0x400, 12, 1, .ro, 0⟩
/-- R341 COACH_STATUS.FSTATUS. -/
def F.coachFstatus : Fld := ⟨0x400, 16, 8, .ro, 0⟩
/-- R341 COACH_QOS.QOS. -/
def F.coachQos : Fld := ⟨0x408, 0, 4, .rw, 0⟩
/-- R341 COACH_QOS.ROWS_MAX. -/
def F.coachRowsMax : Fld := ⟨0x408, 16, 12, .rw, 2048⟩
/-- R341 COACH_QOS.DISP_CAP. -/
def F.coachDispCap : Fld := ⟨0x408, 32, 6, .rw, 16⟩
/-- R341 COACH_QUOTA.SEQ_QUOTA. -/
def F.coachSeqQuota : Fld := ⟨0x410, 0, 14, .rw, 8192⟩
/-- R341 COACH_QUOTA.OVE_QUOTA. -/
def F.coachOveQuota : Fld := ⟨0x410, 16, 15, .rw, 16384⟩
/-- R341 COACH_QUOTA.KV_QUOTA. -/
def F.coachKvQuota : Fld := ⟨0x410, 32, 32, .rw, 4294967295⟩
/-- R341 COACH_RES.RES_SEQ. -/
def F.coachResSeq : Fld := ⟨0x418, 0, 14, .rwh, 0⟩
/-- R341 COACH_RES.RES_OVE. -/
def F.coachResOve : Fld := ⟨0x418, 16, 14, .rwh, 0⟩
/-- R341 COACH_RES.RES_DISP. -/
def F.coachResDisp : Fld := ⟨0x418, 32, 5, .rwh, 0⟩
/-- R341 COACH_RES.RES_ROWS. -/
def F.coachResRows : Fld := ⟨0x418, 48, 11, .rwh, 0⟩
/-- R341 COACH_RESPG.RES_PAGES. -/
def F.coachResPages : Fld := ⟨0x420, 0, 32, .rwh, 0⟩
/-- R341 COACH_SEED.SEED. -/
def F.coachSeed : Fld := ⟨0x428, 0, 64, .rwh, 0⟩
/-- R341 COACH_HOST.HPORT. -/
def F.coachHport : Fld := ⟨0x430, 0, 1, .rwh, 0⟩
/-- R341 COACH_GRANT.GRANT. -/
def F.coachGrant : Fld := ⟨0x438, 0, 64, .rw, 0⟩
/-- R341 TT_BASE. -/
def F.coachTtBase : Fld := ⟨0x440, 0, 40, .ro, 0⟩
/-- R341 VADDR. -/
def F.cvecVaddr : Fld := ⟨0x0, 0, 64, .rw, 0⟩
/-- R341 VCFG.MASK. -/
def F.cvecMask : Fld := ⟨0x8, 0, 1, .rw, 1⟩
/-- R341 VCFG.PENDING. -/
def F.cvecPending : Fld := ⟨0x8, 1, 1, .ro, 0⟩
/-- R341 VCFG.COAL_CNT. -/
def F.cvecCoalCnt : Fld := ⟨0x8, 8, 8, .rw, 0⟩
/-- R341 VCFG.COAL_NS. -/
def F.cvecCoalNs : Fld := ⟨0x8, 16, 24, .rw, 0⟩
/-- R341 INT_FRAMES. -/
def F.coachIntFrames : Fld := ⟨0x490, 0, 64, .rc, 0⟩
/-- R341 INT_EVENTS. -/
def F.coachIntEvents : Fld := ⟨0x498, 0, 64, .rc, 0⟩
/-- R341 XLATE_MISS. -/
def F.coachXlateMiss : Fld := ⟨0x4a0, 0, 64, .rc, 0⟩
/-- R341 XLATE_DENY. -/
def F.coachXlateDeny : Fld := ⟨0x4a8, 0, 64, .rc, 0⟩
/-- R341 WR_REFUSED. -/
def F.coachWrRefused : Fld := ⟨0x4b0, 0, 64, .rc, 0⟩
/-- R341 COACH_RESETS. -/
def F.coachCoachResets : Fld := ⟨0x4b8, 0, 64, .rc, 0⟩
/-- R341 WR_DISCARD. -/
def F.coachWrDiscard : Fld := ⟨0x4c0, 0, 64, .rc, 0⟩
/-- R348 CHIP_MODE.STRICT. -/
def F.chipModeStrict : Fld := ⟨0x2600, 0, 1, .rw, 0⟩
/-- R348 CHIP_MODE.STRICT_TIME. -/
def F.strictTime : Fld := ⟨0x2600, 1, 1, .rw, 0⟩
/-- R348 CHIP_MODE.EFF_STRICT. -/
def F.effStrict : Fld := ⟨0x2600, 8, 1, .ro, 0⟩
/-- R348 CHIP_MODE.EFF_STRICT_TIME. -/
def F.effStrictTime : Fld := ⟨0x2600, 9, 1, .ro, 0⟩
/-- R348 CHIP_MODE.PENDING. -/
def F.chipModePending : Fld := ⟨0x2600, 10, 1, .ro, 0⟩
/-- R363 GCOUNT. -/
def F.gcount : Fld := ⟨0x2608, 0, 64, .ro, 0⟩
/-- R363 GC_SYNC.ROLE. -/
def F.gcSyncRole : Fld := ⟨0x2610, 0, 2, .rw, 0⟩
/-- R363 GC_SYNC.SRC. -/
def F.gcSyncSrc : Fld := ⟨0x2610, 8, 4, .rw, 0⟩
/-- R363 GC_SYNC.ALT. -/
def F.gcSyncAlt : Fld := ⟨0x2610, 12, 4, .rw, 0⟩
/-- R363 GC_SYNC.ALT_EN. -/
def F.altEn : Fld := ⟨0x2610, 16, 1, .rw, 0⟩
/-- R363 GC_STATUS.STATE. -/
def F.gcStatusState : Fld := ⟨0x2618, 0, 2, .ro, 0⟩
/-- R363 GC_STATUS.ON_ALT. -/
def F.onAlt : Fld := ⟨0x2618, 2, 1, .ro, 0⟩
/-- R363 GC_STATUS.HOPS. -/
def F.gcStatusHops : Fld := ⟨0x2618, 8, 8, .ro, 0⟩
/-- R363 GC_STATUS.MASTER. -/
def F.gcStatusMaster : Fld := ⟨0x2618, 16, 16, .ro, 0⟩
/-- R363 GC_STATUS.OFFSET. -/
def F.gcStatusOffset : Fld := ⟨0x2618, 32, 16, .ro, 0⟩
/-- R363 GC_STATUS.BOUND. -/
def F.gcStatusBound : Fld := ⟨0x2618, 48, 16, .ro, 0⟩
/-- R363 GC_FOREIGN. -/
def F.gcForeign : Fld := ⟨0x2620, 0, 64, .ro, 0⟩
/-- R363 LAUNCHES. -/
def F.launches : Fld := ⟨0x2628, 0, 7, .ro, 0⟩
/-- R363 LAUNCH_SKIP. -/
def F.launchSkip : Fld := ⟨0x2630, 0, 64, .ro, 0⟩
/-- R363 LAUNCH_MISS. -/
def F.launchMiss : Fld := ⟨0x2638, 0, 64, .ro, 0⟩
/-- R363 QUANTUM_WAIT. -/
def F.quantumWait : Fld := ⟨0x2640, 0, 64, .ro, 0⟩
/-- R399 EKL_NODE.NODE. -/
def F.eklNodeNode : Fld := ⟨0x2700, 0, 16, .ro, 0⟩
/-- R399 EKL_NODE.GROUP. -/
def F.group : Fld := ⟨0x2700, 16, 7, .ro, 0⟩
/-- R399 EKL_NODE.X. -/
def F.eklNodeX : Fld := ⟨0x2700, 23, 2, .ro, 0⟩
/-- R399 EKL_NODE.Y. -/
def F.eklNodeY : Fld := ⟨0x2700, 25, 2, .ro, 0⟩
/-- R399 EKL_NODE.NGROUPS. -/
def F.ngroups : Fld := ⟨0x2700, 32, 7, .ro, 0⟩
/-- R399 EKL_NODE.MAP_VALID. -/
def F.mapValid : Fld := ⟨0x2700, 39, 1, .ro, 0⟩
/-- R399 EKL_OPTIC.PRESENT. -/
def F.eklOpticPresent : Fld := ⟨0x2708, 0, 4, .ro, 0⟩
/-- R399 EKL_OPTIC.LASER_ON. -/
def F.laserOn : Fld := ⟨0x2708, 4, 4, .ro, 0⟩
/-- R399 EKL_OPTIC.DRAINING. -/
def F.draining : Fld := ⟨0x2708, 8, 1, .ro, 0⟩
/-- R399 EKL_OPTIC.DRAINED. -/
def F.drained : Fld := ⟨0x2708, 9, 1, .ro, 0⟩
/-- R399 DIGEST_NODE. -/
def F.digestNode : Fld := ⟨0x2710, 0, 16, .ro, 0⟩
/-- R399 FLAGGED. -/
def F.flagged : Fld := ⟨0x2710, 16, 1, .w1c, 0⟩
/-- R399 DIGEST_FAIL. -/
def F.digestFail : Fld := ⟨0x2718, 0, 64, .ro, 0⟩
/-- R399 COLL_DONE. -/
def F.collDone : Fld := ⟨0x2720, 0, 64, .ro, 0⟩
/-- R399 COLL_FAILED. -/
def F.collFailed : Fld := ⟨0x2728, 0, 64, .ro, 0⟩
/-- R399 REROUTES. -/
def F.reroutes : Fld := ⟨0x2730, 0, 64, .ro, 0⟩
/-- R399 TABLE_UPDATES. -/
def F.tableUpdates : Fld := ⟨0x2738, 0, 64, .ro, 0⟩
/-- R399 NO_ROUTE. -/
def F.noRoute : Fld := ⟨0x2740, 0, 64, .ro, 0⟩
/-- R399 PRESENCE_EVENTS. -/
def F.presenceEvents : Fld := ⟨0x2748, 0, 64, .ro, 0⟩
/-- R399 PRI. -/
def F.routePri : Fld := ⟨0x0, 0, 4, .ro, 0⟩
/-- R399 PV. -/
def F.routePv : Fld := ⟨0x0, 4, 1, .ro, 0⟩
/-- R399 ALT. -/
def F.routeAlt : Fld := ⟨0x0, 8, 4, .ro, 0⟩
/-- R399 AV. -/
def F.routeAv : Fld := ⟨0x0, 12, 1, .ro, 0⟩
/-- R399 DETOUR. -/
def F.routeDetour : Fld := ⟨0x0, 13, 1, .ro, 0⟩
/-- R399 X0. -/
def F.sliceX0 : Fld := ⟨0x0, 0, 2, .rw, 0⟩
/-- R399 Y0. -/
def F.sliceY0 : Fld := ⟨0x0, 2, 2, .rw, 0⟩
/-- R399 W. -/
def F.sliceW : Fld := ⟨0x0, 4, 3, .rw, 0⟩
/-- R399 H. -/
def F.sliceH : Fld := ⟨0x0, 7, 3, .rw, 0⟩
/-- R399 VALID. -/
def F.sliceValid : Fld := ⟨0x0, 10, 1, .rw, 0⟩
/-- R400 PORT_STATUS.STATE. -/
def F.portState : Fld := ⟨0x0, 0, 3, .ro, 0⟩
/-- R400 PORT_STATUS.PRESENT. -/
def F.portPresent : Fld := ⟨0x0, 3, 1, .ro, 0⟩
/-- R400 PORT_STATUS.LASER. -/
def F.portLaser : Fld := ⟨0x0, 4, 1, .ro, 0⟩
/-- R400 PORT_STATUS.DRAIN_RX. -/
def F.portDrainRx : Fld := ⟨0x0, 5, 1, .ro, 0⟩
/-- R400 PORT_STATUS.LANE_LOCK. -/
def F.portLaneLock : Fld := ⟨0x0, 8, 8, .ro, 0⟩
/-- R400 PORT_STATUS.PARTNER. -/
def F.portPartner : Fld := ⟨0x0, 16, 16, .ro, 0⟩
/-- R400 PORT_STATUS.PARTNER_PORT. -/
def F.portPartnerPort : Fld := ⟨0x0, 32, 4, .ro, 0⟩
/-- R400 PORT_ERR.VALID. -/
def F.portErrValid : Fld := ⟨0x8, 0, 1, .w1c, 0⟩
/-- R400 PORT_ERR.OVERRUN. -/
def F.portErrOverrun : Fld := ⟨0x8, 1, 1, .w1c, 0⟩
/-- R400 PORT_ERR.CAUSE. -/
def F.portErrCause : Fld := ⟨0x8, 8, 8, .ro, 0⟩
/-- R400 PORT_ERR.VC. -/
def F.portErrVc : Fld := ⟨0x8, 16, 3, .ro, 0⟩
/-- R400 PORT_ERR.MTYPE. -/
def F.portErrMtype : Fld := ⟨0x8, 24, 8, .ro, 0⟩
/-- R400 PORT_ERR.NODE. -/
def F.portErrNode : Fld := ⟨0x8, 32, 16, .ro, 0⟩
/-- R400 PORT_CTRL.DISABLE. -/
def F.portDisable : Fld := ⟨0x10, 0, 1, .rw, 0⟩
/-- R400 FLITS_TX. -/
def F.portFlitsTx : Fld := ⟨0x18, 0, 64, .ro, 0⟩
/-- R400 FLITS_RX. -/
def F.portFlitsRx : Fld := ⟨0x20, 0, 64, .ro, 0⟩
/-- R400 TRANSIT. -/
def F.portTransit : Fld := ⟨0x28, 0, 64, .ro, 0⟩
/-- R400 CRC_ERR. -/
def F.portCrcErr : Fld := ⟨0x30, 0, 64, .ro, 0⟩
/-- R400 FEC_CORR. -/
def F.portFecCorr : Fld := ⟨0x38, 0, 64, .ro, 0⟩
/-- R400 FEC_UNCORR. -/
def F.portFecUncorr : Fld := ⟨0x40, 0, 64, .ro, 0⟩
/-- R400 REPLAYS. -/
def F.portReplays : Fld := ⟨0x48, 0, 64, .ro, 0⟩
/-- R400 RETRAINS. -/
def F.portRetrains : Fld := ⟨0x50, 0, 64, .ro, 0⟩
/-- R400 LINK_DOWNS. -/
def F.portLinkDowns : Fld := ⟨0x58, 0, 64, .ro, 0⟩
/-- R400 LOST_MSGS. -/
def F.portLostMsgs : Fld := ⟨0x60, 0, 64, .ro, 0⟩
/-- R400 BAD_MSG. -/
def F.portBadMsg : Fld := ⟨0x68, 0, 64, .ro, 0⟩
/-- R400 CYC_NOCREDIT. -/
def F.portCycNocredit : Fld := ⟨0x70, 0, 64, .ro, 0⟩
/-- R400 MARKS_RX. -/
def F.portMarksRx : Fld := ⟨0x78, 0, 64, .ro, 0⟩
/-- R400 PAYLOAD_TX. -/
def F.portPayloadTx : Fld := ⟨0x80, 0, 64, .ro, 0⟩
/-- R419 FT_CTRL.PERIOD. -/
def F.ftCtrlPeriod : Fld := ⟨0x2a00, 0, 16, .rw, 600⟩
/-- R419 FT_CTRL.EN. -/
def F.ftCtrlEn : Fld := ⟨0x2a00, 16, 1, .rw, 1⟩
/-- R419 FT_STATUS.TESTING. -/
def F.ftStatusTesting : Fld := ⟨0x2a08, 0, 8, .ro, 255⟩
/-- R419 FT_STATUS.SAFE. -/
def F.ftStatusSafe : Fld := ⟨0x2a08, 8, 1, .ro, 0⟩
/-- R419 FT_STATUS.SPARES. -/
def F.ftStatusSpares : Fld := ⟨0x2a08, 16, 6, .ro, 0⟩
/-- R419 FT_PASS. -/
def F.ftPass : Fld := ⟨0x2a10, 0, 64, .ro, 0⟩
/-- R419 FT_FAIL. -/
def F.ftFail : Fld := ⟨0x2a18, 0, 64, .ro, 0⟩
/-- R419 FT_FORCED. -/
def F.ftForced : Fld := ⟨0x2a20, 0, 64, .ro, 0⟩
/-- R419 WITHDRAWALS. -/
def F.withdrawals : Fld := ⟨0x2a28, 0, 64, .ro, 0⟩
/-- R419 RES_UNCHARGED. -/
def F.resUncharged : Fld := ⟨0x2a30, 0, 64, .ro, 0⟩
/-- R419 UNIT_GIVEUP. -/
def F.unitGiveup : Fld := ⟨0x2a38, 0, 64, .ro, 0⟩
/-- R419 NEST_PREEMPT. -/
def F.nestPreempt : Fld := ⟨0x2a40, 0, 64, .ro, 0⟩
/-- R419 NEST_OVF.SEV0. -/
def F.nestOvfSev0 : Fld := ⟨0x2a48, 0, 16, .rc, 0⟩
/-- R419 NEST_OVF.SEV1. -/
def F.nestOvfSev1 : Fld := ⟨0x2a48, 16, 16, .rc, 0⟩
/-- R419 NEST_OVF.SEV2. -/
def F.nestOvfSev2 : Fld := ⟨0x2a48, 32, 16, .rc, 0⟩
/-- R420 PCORE.STATE. -/
def F.pcoreState : Fld := ⟨0x0, 0, 3, .ro, 0⟩
/-- R420 PCORE.DEFERRED. -/
def F.pcoreDeferred : Fld := ⟨0x0, 3, 1, .ro, 0⟩
/-- R420 PCORE.LOGICAL. -/
def F.pcoreLogical : Fld := ⟨0x0, 4, 7, .ro, 0⟩
/-- R420 PCORE.CAUSE. -/
def F.pcoreCause : Fld := ⟨0x0, 12, 3, .ro, 0⟩
/-- R420 PCORE.RES_TOTAL. -/
def F.pcoreResTotal : Fld := ⟨0x0, 16, 16, .ro, 0⟩
/-- R420 PCORE.LAST_TEST. -/
def F.pcoreLastTest : Fld := ⟨0x0, 32, 32, .ro, 0⟩
/-- R438 MB_STATUS.ADM_PEND. -/
def F.admPend : Fld := ⟨0x3100, 0, 8, .ro, 0⟩
/-- R438 MB_STATUS.SB_PEND. -/
def F.sbPend : Fld := ⟨0x3100, 8, 1, .ro, 0⟩
/-- R438 MB_STATUS.COACH_PEND. -/
def F.coachPend : Fld := ⟨0x3100, 16, 13, .ro, 0⟩
/-- R438 MB_STATUS.INPROG. -/
def F.inprog : Fld := ⟨0x3100, 32, 9, .ro, 0⟩
/-- R438 MB_STATUS.MP_LOAD. -/
def F.mpLoad : Fld := ⟨0x3100, 48, 7, .ro, 0⟩
/-- R438 MB_STATUS.HANDOVER. -/
def F.handover : Fld := ⟨0x3100, 55, 1, .ro, 0⟩
/-- R438 MB_STATUS.MP_DOWN. -/
def F.mpDown : Fld := ⟨0x3100, 56, 1, .ro, 0⟩
/-- R438 MP_INFO.IF_MINOR. -/
def F.ifMinor : Fld := ⟨0x3108, 0, 8, .ro, 0⟩
/-- R438 MP_INFO.IF_MAJOR. -/
def F.ifMajor : Fld := ⟨0x3108, 8, 8, .ro, 0⟩
/-- R438 MP_INFO.FW_VERSION. -/
def F.fwVersion : Fld := ⟨0x3108, 16, 32, .ro, 0⟩
/-- R438 MB_CMDS. -/
def F.mbCmds : Fld := ⟨0x3110, 0, 64, .ro, 0⟩
/-- R438 MB_BUSY. -/
def F.mbBusy : Fld := ⟨0x3118, 0, 64, .ro, 0⟩
/-- R438 MB_WDISCARD. -/
def F.mbWdiscard : Fld := ⟨0x3120, 0, 64, .ro, 0⟩
/-- R438 HANDOVERS. -/
def F.handovers : Fld := ⟨0x3128, 0, 64, .ro, 0⟩
/-- R438 HANDOVER_FAIL. -/
def F.handoverFail : Fld := ⟨0x3130, 0, 64, .ro, 0⟩
/-- R438 MB_TIMEOUT. -/
def F.mbTimeout : Fld := ⟨0x3138, 0, 64, .ro, 0⟩
/-- R453 BOOT_STATUS.STATE. -/
def F.bootStatusState : Fld := ⟨0x3200, 0, 4, .ro, 0⟩
/-- R453 BOOT_STATUS.PORT. -/
def F.bootStatusPort : Fld := ⟨0x3200, 4, 1, .ro, 0⟩
/-- R453 BOOT_STATUS.SLOT. -/
def F.bootStatusSlot : Fld := ⟨0x3200, 5, 1, .ro, 0⟩
/-- R453 BOOT_STATUS.KEYSLOT. -/
def F.keyslot : Fld := ⟨0x3200, 6, 2, .ro, 0⟩
/-- R453 BOOT_STATUS.ATTEMPTS. -/
def F.attempts : Fld := ⟨0x3200, 8, 8, .ro, 0⟩
/-- R453 BOOT_STATUS.LAST_STATUS. -/
def F.lastStatus : Fld := ⟨0x3200, 16, 8, .ro, 0⟩
/-- R453 BOOT_STATUS.REASON. -/
def F.bootStatusReason : Fld := ⟨0x3200, 24, 4, .ro, 0⟩
/-- R453 BOOT_STATUS.SVN. -/
def F.bootStatusSvn : Fld := ⟨0x3200, 32, 7, .ro, 0⟩
/-- R453 SEC_FUSE.SVN_MIN. -/
def F.svnMin : Fld := ⟨0x3208, 0, 7, .ro, 0⟩
/-- R453 SEC_FUSE.KEY_REVOKE. -/
def F.keyRevoke : Fld := ⟨0x3208, 8, 4, .ro, 0⟩
/-- R453 SEC_FUSE.SCAN_LOCK. -/
def F.scanLock : Fld := ⟨0x3208, 12, 1, .ro, 0⟩
/-- R453 DEV_SERIAL.SERIAL. -/
def F.devSerialSerial : Fld := ⟨0x3210, 0, 64, .ro, 0⟩
/-- R453 SCAN_CTRL.STATE. -/
def F.scanCtrlState : Fld := ⟨0x3218, 0, 2, .ro, 0⟩
/-- R474 CLK_STATUS.SRC. -/
def F.clkStatusSrc : Fld := ⟨0x3300, 0, 3, .ro, 3⟩
/-- R474 CLK_STATUS.XTAL_OK. -/
def F.xtalOk : Fld := ⟨0x3300, 3, 1, .ro, 1⟩
/-- R474 CLK_STATUS.PLL_LOCK. -/
def F.pllLock : Fld := ⟨0x3300, 4, 1, .ro, 1⟩
/-- R474 CLK_STATUS.REFCLK_PRESENT. -/
def F.refclkPresent : Fld := ⟨0x3300, 5, 1, .ro, 0⟩
/-- R474 CLK_STATUS.TRIM_SRC. -/
def F.trimSrc : Fld := ⟨0x3300, 6, 2, .ro, 0⟩
/-- R474 CLK_STATUS.OSC_DLY. -/
def F.oscDly : Fld := ⟨0x3300, 8, 3, .ro, 0⟩
/-- R474 CLK_STATUS.PLL_RETRIES. -/
def F.pllRetries : Fld := ⟨0x3300, 16, 8, .ro, 0⟩
/-- R474 IOSC_TRIM.CODE. -/
def F.ioscTrimCode : Fld := ⟨0x3308, 0, 8, .ro, 0⟩
/-- R474 IOSC_TRIM.AUTO. -/
def F.ioscTrimAuto : Fld := ⟨0x3308, 8, 1, .rw, 1⟩
/-- R474 IOSC_TRIM.ERR. -/
def F.ioscTrimErr : Fld := ⟨0x3308, 16, 16, .ro, 0⟩
/-- R474 PWR_STATUS.STATE. -/
def F.pwrStatusState : Fld := ⟨0x3310, 0, 2, .ro, 0⟩
/-- R474 PWR_STATUS.RET_OK. -/
def F.retOk : Fld := ⟨0x3310, 2, 1, .ro, 1⟩
/-- R474 PWR_STATUS.WAKE_WARM. -/
def F.wakeWarm : Fld := ⟨0x3310, 3, 1, .ro, 0⟩
/-- R474 PWR_STATUS.VIN_MV. -/
def F.vinMv : Fld := ⟨0x3310, 16, 16, .ro, 0⟩
/-- R474 PWR_STATUS.PIN_W. -/
def F.pinW : Fld := ⟨0x3310, 32, 16, .ro, 0⟩
/-- R474 PWR_CTRL.PCAP. -/
def F.pcap : Fld := ⟨0x3318, 0, 16, .rw, 1200⟩
/-- R474 PWR_CTRL.TWARN. -/
def F.twarn : Fld := ⟨0x3318, 16, 8, .rw, 95⟩
/-- R474 PWR_CTRL.TTHROT. -/
def F.tthrot : Fld := ⟨0x3318, 24, 8, .rw, 100⟩
/-- R474 TJ_MAX. -/
def F.tjMax : Fld := ⟨0x3320, 0, 8, .ro, 0⟩
/-- R474 THBM_MAX. -/
def F.thbmMax : Fld := ⟨0x3320, 8, 8, .ro, 0⟩
/-- R474 DUTY. -/
def F.duty : Fld := ⟨0x3320, 16, 6, .ro, 0⟩
/-- R474 ENERGY. -/
def F.energy : Fld := ⟨0x3328, 0, 64, .ro, 0⟩
/-- R474 THROTTLE_NS. -/
def F.throttleNs : Fld := ⟨0x3330, 0, 64, .ro, 0⟩
/-- R474 STAND_ENTRIES. -/
def F.standEntries : Fld := ⟨0x3338, 0, 64, .ro, 0⟩
/-- R474 WAKE_US. -/
def F.wakeUs : Fld := ⟨0x3340, 0, 32, .ro, 0⟩
/-- R493 LB_CTRL.DEPTH. -/
def F.lbDepth : Fld := ⟨0x0, 0, 3, .rw, 0⟩
/-- R493 LB_STAT.ACTIVE. -/
def F.lbActive : Fld := ⟨0x8, 0, 1, .ro, 0⟩
/-- R493 LB_STAT.REFUSED. -/
def F.lbRefused : Fld := ⟨0x8, 1, 1, .w1c, 0⟩
/-- R493 LB_STAT.LOCK. -/
def F.lbLock : Fld := ⟨0x8, 2, 1, .ro, 0⟩
/-- R493 LB_STAT.LANE_ERR. -/
def F.lbLaneErr : Fld := ⟨0x8, 8, 8, .ro, 0⟩
/-- R493 LB_ERRS. -/
def F.lbLbErrs : Fld := ⟨0x10, 0, 64, .rc, 0⟩
/-- R493 LB_BITS. -/
def F.lbLbBits : Fld := ⟨0x18, 0, 64, .rc, 0⟩
/-- R497 HB_STATUS.PRESENT. -/
def F.hbStatusPresent : Fld := ⟨0x3220, 0, 1, .ro, 0⟩
/-- R497 HB_STATUS.VALID. -/
def F.hbStatusValid : Fld := ⟨0x3220, 1, 1, .ro, 0⟩
/-- R497 HB_STATUS.IGNORE. -/
def F.hbStatusIgnore : Fld := ⟨0x3220, 4, 4, .ro, 0⟩
/-- R497 HB_STATUS.ST_USED. -/
def F.stUsed : Fld := ⟨0x3220, 8, 1, .ro, 0⟩
/-- R497 HB_STATUS.RETESTED. -/
def F.retested : Fld := ⟨0x3220, 9, 1, .ro, 0⟩
/-- R497 HB_STATUS.CORE_ENTRIES. -/
def F.coreEntries : Fld := ⟨0x3220, 16, 8, .ro, 0⟩
/-- R497 HB_STATUS.ROW_ENTRIES. -/
def F.rowEntries : Fld := ⟨0x3220, 24, 10, .ro, 0⟩
/-- R497 HB_STATUS.ROW_OVF. -/
def F.rowOvf : Fld := ⟨0x3220, 34, 1, .ro, 0⟩
/-- R497 HB_STATUS.CFG. -/
def F.hbStatusCfg : Fld := ⟨0x3220, 36, 8, .ro, 128⟩
/-- R497 WARM_RESETS. -/
def F.warmResets : Fld := ⟨0x3228, 0, 64, .ro, 0⟩
/-- R508 LEDGER_STATUS.VOID. -/
def F.ledgerStatusVoid : Fld := ⟨0x3400, 0, 7, .ro, 0⟩
/-- R508 LEDGER_STATUS.BUSY. -/
def F.ledgerStatusBusy : Fld := ⟨0x3400, 8, 1, .ro, 0⟩
/-- R508 LEDGER_ERR.VALID. -/
def F.ledgerErrValid : Fld := ⟨0x3408, 0, 1, .w1c, 0⟩
/-- R508 LEDGER_ERR.OVERRUN. -/
def F.ledgerErrOverrun : Fld := ⟨0x3408, 1, 1, .w1c, 0⟩
/-- R508 LEDGER_ERR.CLASS. -/
def F.ledgerErrClass : Fld := ⟨0x3408, 4, 4, .ro, 0⟩
/-- R508 LEDGER_ERR.SCOPE. -/
def F.ledgerErrScope : Fld := ⟨0x3408, 8, 1, .ro, 0⟩
/-- R508 LEDGER_ERR.COACH. -/
def F.ledgerErrCoach : Fld := ⟨0x3408, 12, 12, .ro, 0⟩
/-- R508 LEDGER_ERR.INDEX. -/
def F.ledgerErrIndex : Fld := ⟨0x3408, 24, 24, .ro, 0⟩
/-- R508 LEDGER_ERR.DIFF. -/
def F.ledgerErrDiff : Fld := ⟨0x3408, 48, 16, .ro, 0⟩
/-- R508 AUDITS. -/
def F.audits : Fld := ⟨0x3410, 0, 64, .ro, 0⟩
/-- R508 AUDIT_LAST. -/
def F.auditLast : Fld := ⟨0x3418, 0, 64, .ro, 0⟩
/-- R508 AUDIT_MERGED. -/
def F.auditMerged : Fld := ⟨0x3420, 0, 64, .ro, 0⟩
/-- R508 MISMATCHES. -/
def F.mismatches : Fld := ⟨0x3428, 0, 64, .ro, 0⟩
/-- R508 REC_RAISED. -/
def F.recRaised : Fld := ⟨0x3430, 0, 64, .ro, 0⟩
/-- R508 REC_WRITTEN. -/
def F.recWritten : Fld := ⟨0x3438, 0, 64, .ro, 0⟩
/-- R508 REC_DROPPED. -/
def F.recDropped : Fld := ⟨0x3440, 0, 64, .ro, 0⟩
/-- R523 LOG_STATE.HEAD. -/
def F.logStateHead : Fld := ⟨0x2000000, 0, 32, .ro, 0⟩
/-- R523 LOG_STATE.TAIL. -/
def F.logStateTail : Fld := ⟨0x2000000, 32, 32, .ro, 0⟩
/-- R523 LOG_OVERWRITTEN. -/
def F.logOverwritten : Fld := ⟨0x2000008, 0, 64, .ro, 0⟩
/-- R523 LOG_QUEUE.SEV0. -/
def F.logQueueSev0 : Fld := ⟨0x2000010, 0, 7, .ro, 0⟩
/-- R523 LOG_QUEUE.SEV1. -/
def F.logQueueSev1 : Fld := ⟨0x2000010, 8, 7, .ro, 0⟩
/-- R523 LOG_QUEUE.SEV2. -/
def F.logQueueSev2 : Fld := ⟨0x2000010, 16, 7, .ro, 0⟩
/-- R523 LOG_QUEUE.HOLD. -/
def F.logQueueHold : Fld := ⟨0x2000010, 24, 1, .ro, 0⟩
/-- R523 LOG_SEV0. -/
def F.logSev0 : Fld := ⟨0x2000018, 0, 64, .ro, 0⟩
/-- R523 LOG_SEV1. -/
def F.logSev1 : Fld := ⟨0x2000020, 0, 64, .ro, 0⟩
/-- R523 LOG_SEV2. -/
def F.logSev2 : Fld := ⟨0x2000028, 0, 64, .ro, 0⟩
/-- R523 LOG_SEV3. -/
def F.logSev3 : Fld := ⟨0x2000030, 0, 64, .ro, 0⟩
/-- R542 SVC_STATUS.LOCATE. -/
def F.svcStatusLocate : Fld := ⟨0x3500, 0, 1, .ro, 0⟩
/-- R542 SVC_STATUS.SVC_DRAIN. -/
def F.svcDrain : Fld := ⟨0x3500, 1, 1, .ro, 0⟩
/-- R542 SVC_STATUS.ADM_DRAIN. -/
def F.admDrain : Fld := ⟨0x3500, 2, 1, .ro, 0⟩
/-- R542 SVC_STATUS.BUTTON. -/
def F.svcStatusButton : Fld := ⟨0x3500, 3, 1, .ro, 0⟩
/-- R542 SVC_CTRL.LOCATE. -/
def F.svcCtrlLocate : Fld := ⟨0x3508, 0, 1, .rw, 0⟩
/-- R542 SVC_CTRL.BTN_EN. -/
def F.btnEn : Fld := ⟨0x3508, 1, 1, .rw, 1⟩
/-- R542 SVC_PRESSES. -/
def F.svcPresses : Fld := ⟨0x3510, 0, 64, .ro, 0⟩
/-- R542 SVC_HOLDS. -/
def F.svcHolds : Fld := ⟨0x3518, 0, 64, .ro, 0⟩
/-- R542 SVC_IGNORED. -/
def F.svcIgnored : Fld := ⟨0x3520, 0, 64, .ro, 0⟩
/-- R542 SB_PECERR. -/
def F.sbPecerr : Fld := ⟨0x3528, 0, 64, .ro, 0⟩
/-- R542 SB_DISCARD. -/
def F.sbDiscard : Fld := ⟨0x3530, 0, 64, .ro, 0⟩
/-- R548 CHIP_ID.DEVICE. -/
def F.chipIdDevice : Fld := ⟨0x0, 0, 16, .ro, 38464⟩
/-- R548 CHIP_ID.STEPPING. -/
def F.stepping : Fld := ⟨0x0, 16, 8, .ro, 177⟩
/-- R548 CHIP_ID.WINDOW_MIB. -/
def F.windowMib : Fld := ⟨0x0, 32, 16, .ro, 64⟩
/-- R549 CHIP_CFG.CORE_CONFIG. -/
def F.coreConfig : Fld := ⟨0x8, 0, 8, .ro, 128⟩
/-- R549 CHIP_CFG.PHYSICAL. -/
def F.physical : Fld := ⟨0x8, 8, 8, .ro, 144⟩
/-- R550 CORE_MAP.PHYS. -/
def F.coremapPhys : Fld := ⟨0x0, 0, 8, .ro, 0⟩
/-- R550 CORE_MAP.ROW. -/
def F.coremapRow : Fld := ⟨0x0, 8, 4, .ro, 0⟩
/-- R550 CORE_MAP.COL. -/
def F.coremapCol : Fld := ⟨0x0, 12, 4, .ro, 0⟩
/-- R550 CORE_MAP.QUAD. -/
def F.coremapQuad : Fld := ⟨0x0, 16, 2, .ro, 0⟩
/-- R550 CORE_MAP.VALID. -/
def F.coremapValid : Fld := ⟨0x0, 18, 1, .ro, 0⟩
/-- R550 CORE_MAP.FOREIGN. -/
def F.coremapForeign : Fld := ⟨0x0, 19, 1, .ro, 0⟩

/-- The fields of block `te`. -/
def fields.te : List Fld := [F.teSetA, F.teSetB, F.teActiveValid, F.teShadowValid, F.teCompact, F.teSkipEn, F.teFmtA, F.teFmtB, F.teDrainBusy, F.teErrValid, F.teErrOverrun, F.teErrCause, F.teErrSet, F.teErrRow, F.teErrColumn, F.teErrChain, F.teErrResmis, F.teCycPlane, F.teCycWstall, F.teCycAstall, F.teCycDstall, F.teCycBstall, F.tePlanesSkipped, F.teZeroBlocks, F.tePromotions, F.teSatOut, F.teOutlierTerms, F.teBarIn, F.teBarOut, F.teTiles, F.teCompactSlices]
/-- The fields of block `tbl`. -/
def fields.tbl : List Fld := [F.tblState, F.tblGen, F.tblCount]
/-- The fields of block `xe`. -/
def fields.xe : List Fld := [F.xeState, F.xeBlock, F.xeMode, F.xeSlot, F.xeErrValid, F.xeErrOverrun, F.xeErrCause, F.xeErrBlock, F.xeErrLane, F.xeErrAttempt, F.xeErrChain, F.xeErrTile, F.xeBlocksRaw, F.xeBlocksCoded, F.xePayloadBytes, F.xeTritsOut, F.xeCycXstall, F.xeCycXslow, F.xeRefetches]
/-- The fields of block `q`. -/
def fields.q : List Fld := [F.qPinValid, F.qPinOverrun, F.qPinKind, F.qPinCoach, F.qPinChannel, F.qPinLayer, F.qQblocks, F.qQreplays, F.qCycQreplay, F.qEscalations, F.qOutlierSpill, F.qEscCeil, F.qZeroBlocks, F.qPinBreach, F.qOutliers, F.qFmtBarriers, F.qKvBlocks, F.qKvZbreach]
/-- The fields of block `ge`. -/
def fields.ge : List Fld := [F.geState, F.geOve, F.geColumn, F.geErrValid, F.geErrOverrun, F.geErrCause, F.geErrOve, F.geErrChain, F.geErrIndex, F.geCartsIn, F.geSlicesOut, F.geEntriesOut, F.geDensePairs, F.geAdapterRows, F.geCycGstall, F.geRefetches, F.geCartBytes]
/-- The fields of block `chip`. -/
def fields.chip0 : List Fld := [F.ovlBase, F.ovlLive, F.ovlRetiring, F.ovlRefs, F.kvPoolBase, F.kvSclBase, F.nPages, F.nCold, F.kvColdBase, F.kvFree, F.kvUsed, F.reserved, F.lowmark, F.coldFree, F.coldUsed, F.kvDefer, F.shipOut, F.shipIn, F.shipFail, F.ttlExpired, F.seqBase, F.decodeCap, F.sbRole, F.predAuditInt, F.sbLive, F.sbReady, F.steps, F.rowsDecode, F.rowsPrefill, F.seqCancelled, F.seqDeadline, F.maskLate, F.genBad, F.seqWdeny, F.hostTrips, F.manifestWait, F.predSkipped, F.predAudited, F.predMiss, F.predBreach]
/-- The fields of block `chip`. -/
def fields.chip1 : List Fld := [F.gsStore, F.storeMib, F.armed, F.inflight, F.registered, F.dispatched, F.voided, F.unitReplays, F.unitEnded, F.watchdog, F.cycNocredit, F.staleCarts, F.pmInterval, F.pmPayload, F.pmTrits, F.pmNs, F.pmEff, F.pmEnd, F.chipModeStrict, F.strictTime, F.effStrict, F.effStrictTime, F.chipModePending, F.gcount, F.gcSyncRole, F.gcSyncSrc, F.gcSyncAlt, F.altEn, F.gcStatusState, F.onAlt, F.gcStatusHops, F.gcStatusMaster, F.gcStatusOffset, F.gcStatusBound, F.gcForeign, F.launches, F.launchSkip, F.launchMiss, F.quantumWait, F.eklNodeNode]
/-- The fields of block `chip`. -/
def fields.chip2 : List Fld := [F.group, F.eklNodeX, F.eklNodeY, F.ngroups, F.mapValid, F.eklOpticPresent, F.laserOn, F.draining, F.drained, F.digestNode, F.flagged, F.digestFail, F.collDone, F.collFailed, F.reroutes, F.tableUpdates, F.noRoute, F.presenceEvents, F.ftCtrlPeriod, F.ftCtrlEn, F.ftStatusTesting, F.ftStatusSafe, F.ftStatusSpares, F.ftPass, F.ftFail, F.ftForced, F.withdrawals, F.resUncharged, F.unitGiveup, F.nestPreempt, F.nestOvfSev0, F.nestOvfSev1, F.nestOvfSev2, F.admPend, F.sbPend, F.coachPend, F.inprog, F.mpLoad, F.handover, F.mpDown]
/-- The fields of block `chip`. -/
def fields.chip3 : List Fld := [F.ifMinor, F.ifMajor, F.fwVersion, F.mbCmds, F.mbBusy, F.mbWdiscard, F.handovers, F.handoverFail, F.mbTimeout, F.bootStatusState, F.bootStatusPort, F.bootStatusSlot, F.keyslot, F.attempts, F.lastStatus, F.bootStatusReason, F.bootStatusSvn, F.svnMin, F.keyRevoke, F.scanLock, F.devSerialSerial, F.scanCtrlState, F.clkStatusSrc, F.xtalOk, F.pllLock, F.refclkPresent, F.trimSrc, F.oscDly, F.pllRetries, F.ioscTrimCode, F.ioscTrimAuto, F.ioscTrimErr, F.pwrStatusState, F.retOk, F.wakeWarm, F.vinMv, F.pinW, F.pcap, F.twarn, F.tthrot]
/-- The fields of block `chip`. -/
def fields.chip4 : List Fld := [F.tjMax, F.thbmMax, F.duty, F.energy, F.throttleNs, F.standEntries, F.wakeUs, F.hbStatusPresent, F.hbStatusValid, F.hbStatusIgnore, F.stUsed, F.retested, F.coreEntries, F.rowEntries, F.rowOvf, F.hbStatusCfg, F.warmResets, F.ledgerStatusVoid, F.ledgerStatusBusy, F.ledgerErrValid, F.ledgerErrOverrun, F.ledgerErrClass, F.ledgerErrScope, F.ledgerErrCoach, F.ledgerErrIndex, F.ledgerErrDiff, F.audits, F.auditLast, F.auditMerged, F.mismatches, F.recRaised, F.recWritten, F.recDropped, F.logStateHead, F.logStateTail, F.logOverwritten, F.logQueueSev0, F.logQueueSev1, F.logQueueSev2, F.logQueueHold]
/-- The fields of block `chip`. -/
def fields.chip5 : List Fld := [F.logSev0, F.logSev1, F.logSev2, F.logSev3, F.svcStatusLocate, F.svcDrain, F.admDrain, F.svcStatusButton, F.svcCtrlLocate, F.btnEn, F.svcPresses, F.svcHolds, F.svcIgnored, F.sbPecerr, F.sbDiscard, F.chipIdDevice, F.stepping, F.windowMib, F.coreConfig, F.physical]
/-- The fields of block `chip`. -/
def fields.chip : List Fld := fields.chip0 ++ fields.chip1 ++ fields.chip2 ++ fields.chip3 ++ fields.chip4 ++ fields.chip5
/-- The fields of block `le`. -/
def fields.le : List Fld := [F.lePhase, F.leAppend, F.leMergeStrict, F.leChunk, F.leCoach, F.leErrValid, F.leErrOverrun, F.leErrCause, F.leErrRow, F.leErrQh, F.leErrMid, F.leErrChunk, F.leLogProducts, F.leCycQk, F.leCycPv, F.leCycKvstall, F.leCycMerge, F.lePagesRead, F.lePartialsOut, F.lePartialsIn, F.lePDropped, F.leKvAppends]
/-- The fields of block `td`. -/
def fields.td : List Fld := [F.tdQueued, F.tdErrValid, F.tdErrOverrun, F.tdErrCause, F.tdErrIndex, F.tdErrGraph, F.tdCarriages, F.tdWdFired, F.tdCycIdle]
/-- The fields of block `spm`. -/
def fields.spm : List Fld := [F.spmBytes, F.spmBanks, F.spmRows, F.spmNbrN, F.spmNbrE, F.spmNbrS, F.spmNbrW, F.spmErrValid, F.spmErrOverrun, F.spmErrCause, F.spmErrBank, F.spmErrRow, F.spmErrWord, F.spmErrCoach, F.spmErrGraph, F.spmEccCorr, F.spmEccUncorr, F.spmScrubRows, F.spmScrubSweeps, F.spmConflicts, F.spmHazards, F.spmOwnerDeny, F.spmOwnerChanges, F.spmCycYield, F.spmCycScrubforce]
/-- The fields of block `dma`. -/
def fields.dma : List Fld := [F.dmaTagsBusy, F.dmaQueued, F.dmaFineBusy, F.dmaErrValid, F.dmaErrOverrun, F.dmaErrCause, F.dmaErrIndex, F.dmaErrGraph, F.dmaErrOp, F.dmaDescriptors, F.dmaBytesIn, F.dmaBytesOut, F.dmaFineAccesses, F.dmaCycNotag, F.dmaCycNocred, F.dmaNbrOut, F.dmaNbrIn]
/-- The fields of block `mgn`. -/
def fields.mgn : List Fld := [F.mgnRdT, F.mgnRdV, F.mgnWrT, F.mgnWrV, F.mgnDone, F.mgnPass]
/-- The fields of block `region`. -/
def fields.region : List Fld := [F.regionValid, F.regionForm, F.regionQuad, F.regionShared, F.regionMstate, F.regionFbase, F.regionFcount, F.regionMbase, F.regionRebuilds]
/-- The fields of block `mc`. -/
def fields.mc : List Fld := [F.mcTrained, F.mcSelfref, F.mcSparesLeft, F.mcErrValid, F.mcErrOverrun, F.mcErrCause, F.mcErrPc, F.mcErrAddr, F.mcBytesRd, F.mcBytesWr, F.mcFineOps, F.mcAdds, F.mcEccCorr, F.mcEccUncorr, F.mcPoisonResp, F.mcMirrorFixes, F.mcRowsRetired, F.mcScrubLines, F.mcCycReghold, F.mcUnmapped, F.mcCycFinepri]
/-- The fields of block `mcreg`. -/
def fields.mcreg : List Fld := [F.mcregRate, F.mcregBurst, F.mcregEn, F.mcregShare]
/-- The fields of block `mcbytes`. -/
def fields.mcbytes : List Fld := [F.mcbytesClassBytes]
/-- The fields of block `coach`. -/
def fields.coach : List Fld := [F.coachState, F.coachRefused, F.coachRefuse, F.coachResetPend, F.coachFstatus, F.coachQos, F.coachRowsMax, F.coachDispCap, F.coachSeqQuota, F.coachOveQuota, F.coachKvQuota, F.coachResSeq, F.coachResOve, F.coachResDisp, F.coachResRows, F.coachResPages, F.coachSeed, F.coachHport, F.coachGrant, F.coachTtBase, F.coachIntFrames, F.coachIntEvents, F.coachXlateMiss, F.coachXlateDeny, F.coachWrRefused, F.coachCoachResets, F.coachWrDiscard]
/-- The fields of block `cvec`. -/
def fields.cvec : List Fld := [F.cvecVaddr, F.cvecMask, F.cvecPending, F.cvecCoalCnt, F.cvecCoalNs]
/-- The fields of block `route`. -/
def fields.route : List Fld := [F.routePri, F.routePv, F.routeAlt, F.routeAv, F.routeDetour]
/-- The fields of block `slice`. -/
def fields.slice : List Fld := [F.sliceX0, F.sliceY0, F.sliceW, F.sliceH, F.sliceValid]
/-- The fields of block `port`. -/
def fields.port : List Fld := [F.portState, F.portPresent, F.portLaser, F.portDrainRx, F.portLaneLock, F.portPartner, F.portPartnerPort, F.portErrValid, F.portErrOverrun, F.portErrCause, F.portErrVc, F.portErrMtype, F.portErrNode, F.portDisable, F.portFlitsTx, F.portFlitsRx, F.portTransit, F.portCrcErr, F.portFecCorr, F.portFecUncorr, F.portReplays, F.portRetrains, F.portLinkDowns, F.portLostMsgs, F.portBadMsg, F.portCycNocredit, F.portMarksRx, F.portPayloadTx]
/-- The fields of block `pcore`. -/
def fields.pcore : List Fld := [F.pcoreState, F.pcoreDeferred, F.pcoreLogical, F.pcoreCause, F.pcoreResTotal, F.pcoreLastTest]
/-- The fields of block `lb`. -/
def fields.lb : List Fld := [F.lbDepth, F.lbActive, F.lbRefused, F.lbLock, F.lbLaneErr, F.lbLbErrs, F.lbLbBits]
/-- The fields of block `coremap`. -/
def fields.coremap : List Fld := [F.coremapPhys, F.coremapRow, F.coremapCol, F.coremapQuad, F.coremapValid, F.coremapForeign]

/-- The part of a block's reset word that its field resets give. -/
def resetOf (fs : List Fld) (off : Nat) : Nat :=
  fs.foldl (fun a f => if f.off = off then a + f.rst * 2 ^ f.lo else a) 0

/-- The reset word at an address of the control window (with the core windows by physical core): R550-R553. -/
def resetNat (a : Nat) : Nat :=
  if a < 0x1000 then resetOf fields.chip a
  else if a < 0x1400 then 0
  else if 0x2000 ≤ a ∧ a < 0x4000 then
    (if 0x3140 ≤ a ∧ a < 0x31C0 then (if a % 16 = 8 then 1 else 0) else resetOf fields.chip a)
  else if 0x200000 ≤ a ∧ a < 0x280000 then (if a % 0x10000 = 0 then 0x1000 else 0)
  else if 0x1000000 ≤ a ∧ a < 0x2000000 then
    (let o := a % 0x1000
     if 0x450 ≤ o ∧ o < 0x490 then (if o % 16 = 8 then 1 else 0) else resetOf fields.coach o)
  else if coreKey ≤ a then
    (let o := a % 0x1000
     if 0x400 ≤ o ∧ o < 0x600 then (if o % 0x80 = 0 then 0x80 else 0)
     else if o = 0xC00 then 0x018020300000 else 0)
  else 0

/-- The reset word as a word. -/
def resetWord (a : Nat) : Word := Word.ofNat (resetNat a)

/-- The register words that differ from their reset: keys rising, no entry equal to its reset word. -/
abbrev Regs := List (Nat × Word)

/-- The register word at an address. -/
def Regs.look : Regs → Nat → Word
  | [], a => resetWord a
  | (k, v) :: r, a => if a < k then resetWord a else if a = k then v else Regs.look r a

/-- The registers with the word at `a` set. -/
def Regs.put : Regs → Nat → Word → Regs
  | [], a, v => if v = resetWord a then [] else [(a, v)]
  | (k, w) :: r, a, v =>
    if a < k then (if v = resetWord a then (k, w) :: r else (a, v) :: (k, w) :: r)
    else if a = k then (if v = resetWord a then r else (a, v) :: r)
    else (k, w) :: Regs.put r a v

/-- The canonical form of the registers. -/
def Regs.wf : Regs → Bool
  | [] => true
  | (k, v) :: r => SMap.above k r && decide (v ≠ resetWord k) && Regs.wf r

/-- A field of the registers, as a number. -/
def Regs.get (r : Regs) (b : Nat) (f : Fld) : Nat := bits (r.look (b + f.off)).toNat f.lo f.w

/-- The registers with a field set (the value is cut to the field's width). -/
def Regs.set (r : Regs) (b : Nat) (f : Fld) (v : Nat) : Regs :=
  r.put (b + f.off) (Word.ofNat (setBits (r.look (b + f.off)).toNat f.lo f.w v))

/-- The registers with a counter advanced by `n`, wrapping at its width. -/
def Regs.bump (r : Regs) (b : Nat) (f : Fld) (n : Nat := 1) : Regs := r.set b f (r.get b f + n)

/-- The registers with a counter advanced by `n`, stopping at its greatest value. -/
def Regs.bumpSat (r : Regs) (b : Nat) (f : Fld) (n : Nat := 1) : Regs :=
  r.set b f (min (r.get b f + n) (2 ^ f.w - 1))

end Sys2Proof.Machine
end

