-- ==== Sys2Proof/Machine/Wire.lean ====
section
/-!
DEFINITION. Messages and flit headers as bytes on the line (R367, R369).
-/
namespace Sys2Proof

/-- Data units of a message: its LEN field. -/
def Msg.len (m : Msg) : Nat := (m.data.length + 15) / 16

/-- The 32-byte header and the data of a message, as units on the line (R369). -/
def Msg.wire (m : Msg) : List Byte :=
  Machine.packFields 32
    [(0, 1, m.mtype), (1, 1, Machine.b2n m.admin + 2 * (m.space % 4)), (2, 2, m.dst), (4, 2, m.src), (6, 2, m.coach % 4096),
     (8, 2, m.len % 512), (12, 4, m.tagw), (16, 8, m.addr), (24, 8, m.arg)]
  ++ Machine.padTo (16 * m.len) m.data

/-- The message that a 32-byte header announces, without its data, on a virtual channel and class. -/
def Msg.ofHeader (vc cls : Nat) (h : List Byte) : Msg :=
  { mtype := Machine.fieldLE h 0 1, vc := vc, cls := cls, admin := Machine.bit (Machine.fieldLE h 1 1) 0
    space := Machine.bits (Machine.fieldLE h 1 1) 1 2, dst := Machine.fieldLE h 2 2, src := Machine.fieldLE h 4 2
    coach := Machine.bits (Machine.fieldLE h 6 2) 0 12, tagw := Machine.fieldLE h 12 4
    addr := Machine.fieldLE h 16 8, arg := Machine.fieldLE h 24 8, data := [] }

/-- The header of a flit's 256 bytes. -/
def FlitHdr.of (f : List Byte) : FlitHdr :=
  let w := Machine.fieldLE f 0 8
  { typ := Machine.bits w 0 2, vc := Machine.bits w 2 3, cls := Machine.bits w 5 1, nak := Machine.bit w 6
    seq := Machine.bits w 8 12, ack := Machine.bits w 20 12, crsel := Machine.bits w 32 4
    crcum := Machine.bits w 36 12, first := Machine.bits w 48 4 }

end Sys2Proof
end

