-- ==== Sys2Proof/Machine/Types.lean ====
section
/-!
DEFINITION. The pieces the state is made of, one structure per unit of the source. Every field has its reset value as its
default.
-/
namespace Sys2Proof.Machine

/-! ### Event log (22) -/

/-- A log record before it is written (R512), without SEQNO, CRC and QUEUED. -/
structure LogRec where
  cls : Nat
  sev : Nat
  cause : Nat
  unit : Nat := 0
  sub : Nat := 0
  inst : Nat := 255
  fw : Bool := false
  all : Bool := false
  time : Nat := 0
  coach : Option Nat := none
  graph : Nat := 65535
  index : Nat := 65535
  attempt : Nat := 0
  lcore : Option Nat := none
  capture : Nat := 0
  detail : List Byte := []
deriving DecidableEq, Repr

/-- The log writer and the recovery sequencer's queues (R415-R417, R509-R517). -/
structure Log where
  /-- The ring: the 64 bytes of each written slot. -/
  ring : SMap (List Byte) := []
  /-- Per written slot, the coaches that a record with ALL names: those not VACANT when it was written (R516). -/
  named : SMap (List Nat) := []
  /-- Recoveries in progress, the running one first, pre-empted ones after it. -/
  cur : List LogRec := []
  q0 : List LogRec := []
  q1 : List LogRec := []
  q2 : List LogRec := []
  /-- Severity-3 records held by a hold of R517. -/
  q3 : List LogRec := []
  /-- A chip warm reset holds the writer (R517). -/
  hold : Bool := false
  /-- The triggers of warm resets whose WARM_RESET record step 8 of R480 still owes. -/
  noteTrigger : Nat := 0
  /-- GCOUNT of the last logged cause, per rate-limited source (R339, R371). -/
  last : SMap Nat := []
deriving DecidableEq, Repr

/-! ### Mailboxes and commands in progress (17) -/

/-- A command in progress (R428): its mailbox (0-7 admin, 8 sideband, 16 + c coach), opcode, target coach and what it keeps. -/
structure InProg where
  box : Nat
  op : Nat
  coach : Nat
  par : List Nat := []
  /-- The event it waits for has arrived while the MP was away (R428, R435): it is answered with this status and result. -/
  due : Bool := false
  status : Nat := 0
  result : List Byte := []
deriving DecidableEq, Repr

/-! ### Coaches (13, 14) -/

/-- One interrupt vector (R343). -/
structure Vec where
  pend : Nat := 0
  first : Nat := 0
  /-- Tag of the frame in flight. -/
  flight : Option Nat := none
  /-- Tags of writes that the pending events announce and that are not yet acknowledged (R344). -/
  waits : List Nat := []
deriving DecidableEq, Repr

/-- A scheduled launch (R360, R361). -/
structure Launch where
  t : Nat
  p : Nat
  /-- The next window W_k is the k-th; 0 while the launch is pending. -/
  k : Nat := 0
  /-- The snapshot taken at the last window, and not yet used by a cut (R361). -/
  snap : List Nat := []
  started : Bool := false
deriving DecidableEq, Repr

/-- What a coach holds besides its registers. -/
structure Coach where
  launch : Option Launch := none
  /-- Coach measurement CM[c] (R448). -/
  cm : List Byte := List.replicate 32 0
  /-- Extensions of CM[c] since its clearing. -/
  cmCount : Nat := 0
  /-- Physical table slot of the level-1 table, plus one; 0 for none (R330). -/
  table : Nat := 0
  /-- A deferred row was told of the crossing (R204). -/
  told : Bool := false
  /-- Slots of its rows deferred at the last cut (R204). -/
  deferred : List Nat := []
  /-- The steps of R345 that are left in a pending reset: the reset waits for the boundary. -/
  resetting : Bool := false
  /-- Hot pages held (R342). -/
  pages : Nat := 0
deriving DecidableEq, Repr

/-! ### Device memory (12) -/

/-- The memory system besides its registers. A pseudo-channel is 64 * stack + number. -/
structure Hbm where
  bytes : Memory := []
  /-- Bad lines: line number (address / 64) to 1 primary bad, 2 mirror bad, 3 both (R309-R314). -/
  bad : SMap Nat := []
  /-- Errors that stand in lines of memory and that no read or write has met yet (R309). -/
  latent : SMap MemFind := []
  /-- Fine accesses in the fine queues of the pseudo-channels, oldest first, each with its pseudo-channel, and the bulk burst
  slots that a pseudo-channel has given since its last fine access (R303). -/
  fineQ : List (Nat × FineReq × MemFind) := []
  slots : SMap Nat := []
  /-- Lines queued for rebuild, oldest first, with their region (R314). -/
  rebuild : List (Nat × Nat) := []
  /-- Spare rows used per pseudo-channel 64 m + c (R312). -/
  spares : SMap Nat := []
  /-- Corrected errors of a row within one patrol, by 2^24 * pseudo-channel + row (R312). -/
  corrected : SMap Nat := []
  /-- Lines read by the patrol of each pseudo-channel since its patrol began (R311). -/
  patrol : SMap Nat := []
  /-- Token buckets by 16 m + class, in 1/327,680 bytes (R307). -/
  bucket : SMap Int := []
  /-- GCOUNT at which the bucket of 16 m + class was last filled (R307). -/
  bucketAt : SMap Nat := []
  /-- Stacks being margined (R318). -/
  margin : Nat := 0
  /-- A stack loop-back runs until this GCOUNT, by stack (R492). -/
  lbEnd : SMap Nat := []
  /-- Pin monitor: GCOUNT at which the interval began, and the sums latched there (R316). -/
  pmStart : Nat := 0
  pmPayload0 : Nat := 0
  pmTrits0 : Nat := 0
deriving DecidableEq, Repr

/-! ### Translation (13) -/

/-- The translation tables and caches (R334, R336). -/
structure Xlate where
  /-- Mapped pages, as the firmware and the walks know them: coach * 2^32 + page to 1 + 2 * write + 4 * physical page. The entries
  themselves stand in the table store. -/
  map : SMap Nat := []
  /-- Tables of the lower levels in use: the key of a level-2 or level-3 table to its number plus one. -/
  tables : SMap Nat := []
  /-- Caches of 64 entries by block, most recent first: (coach * 2^32 + page, entry). -/
  caches : SMap (List (Nat × Nat)) := []
deriving DecidableEq, Repr

/-! ### Decode tables (04) -/

/-- One decode-table slot besides TBL_DIR: its image, and the digest that M5 takes when its load commits (R448). -/
structure TblSlot where
  image : List Byte := []
  digest : List Byte := []
deriving DecidableEq, Repr

/-! ### Graphs (10) -/

/-- A registered graph: the parsed store copy. Layers and carriages keep their 128 bytes. -/
structure Graph where
  coach : Nat := 0
  pbase : Nat := 0
  pcount : Nat := 0
  linked : Bool := false
  dModel : Nat := 0
  layers : List (List Byte) := []
  carrs : List (List Byte) := []
  /-- Consumers of each carriage (R257). -/
  outs : List (List Nat) := []
  /-- Staged layer descriptors (R252). -/
  staged : SMap (List Byte) := []
  /-- The pin lists that the GS has read, by layer: those of the active descriptors and of the staged ones (R122). -/
  pins : SMap (List Nat) := []
  stagedPins : SMap (List Nat) := []
  /-- Coaches the graph is shared with (GRAPH_SHARE). -/
  shared : List Nat := []
  /-- Steps in which it has been armed since registration (R265). -/
  armedSteps : Nat := 0
  /-- Bytes of the store it uses, where its store copy begins (R248), and LDOFS (R249). -/
  size : Nat := 0
  base : Nat := 0
  ldofs : Nat := 0
deriving DecidableEq, Repr

/-! ### Steps (09, 10) -/

/-- A manifest row (R233) with what the step gathers about it. -/
structure Row where
  slot : Nat
  graph : Nat
  coach : Nat
  pos : Nat
  gen : Nat
  /-- Index in its chunk and the chunk's length. -/
  idx : Nat
  ntok : Nat
  last : Bool
  decode : Bool
  /-- RESUME: layers 0 … resume are masked (R234); 0 for none. -/
  resume : Nat := 0
  ove : Option Nat := none
  inAddr : Nat := 0
  kvdir : Nat := 0
  listlen : Nat := 0
  /-- Bit in the chip's row mask (R239). -/
  masked : Bool := false
  /-- Status the row ends with where it does not end OK; 0 for none. -/
  status : Nat := 0
  /-- SAT, PIN, ESC step flags (R263) in bits 0, 1, 2. -/
  flags : Nat := 0
  /-- A completion for the step has been written. -/
  done : Bool := false
  /-- A host-layer trip at this layer (R234). -/
  trip : Option Nat := none
  /-- Its mask took effect late, and that has been counted (R239). -/
  late : Bool := false
deriving DecidableEq, Repr

/-- A dispatch unit of the step (R258). -/
structure UnitSt where
  graph : Nat
  members : List Nat
  /-- 0 waiting, 1 being dispatched or dispatched, 2 complete. -/
  st : Nat := 0
  /-- Members dispatched and not yet completed in this attempt. -/
  out : List Nat := []
  /-- Members of a unit whose dispatch has begun that still wait for their credit (R259). -/
  unsent : List Nat := []
  attempt : Nat := 0
  /-- A residue fault was reported in this attempt. -/
  faulted : Bool := false
  /-- Ended without recovery, with this status; 0 for none. -/
  status : Nat := 0
  /-- Cores charged in the previous attempt and in this one (R404). -/
  charged0 : List Nat := []
  charged1 : List Nat := []
  /-- The last position of its chain is on another device, and CHAIN_DONE has come (R266). -/
  chainDone : Bool := false
  /-- Flags of completed members of this attempt (R263). -/
  flags : Nat := 0
  /-- Discarded attempts await redispatch after a withdrawal or replay. -/
  redo : Bool := false
  /-- GCOUNT plus one at which it became ready; 0 before (R354). -/
  readyAt : Nat := 0
deriving DecidableEq, Repr

/-- A completion record on its way to the GS (R262). -/
structure Compl where
  graph : Nat
  index : Nat
  step : Nat
  status : Nat
  flags : Nat
  cause : Nat
  attempt : Nat
  start : Nat
  fin : Nat
  core : Nat
deriving DecidableEq, Repr

/-- The graph scheduler. -/
structure Gs where
  /-- Step number of the step in progress, counting from reset. -/
  step : Nat := 0
  /-- A step is armed. -/
  active : Bool := false
  rows : List Row := []
  /-- The manifest posted for the next step (R236). -/
  posted : Option (List Row) := none
  /-- The cut for the next step: the candidates copied from the ready vector (R232). -/
  cut : Option (List Nat) := none
  /-- What the SB reads at the cut: the entries of its candidates, QOS, ROWS_MAX and KV_QUOTA of their coaches, and DECODE_CAP
  plus one (R25, R236, R247, R341). -/
  cutSeq : SMap (List Byte) := []
  cutCap : SMap (List Nat) := []
  cutDecode : Nat := 0
  /-- The cut for the next step has been taken in this step (R25). -/
  cutDone : Bool := false
  units : List UnitSt := []
  /-- The unit whose dispatch the GS has begun or that it waits for a credit for: its place plus one (R259). -/
  cur : Nat := 0
  /-- REPLAY that came for a coach's chain and PASS before its unit was armed (R266): (coach, chain, PASS). -/
  replays : List (Nat × Nat × Nat) := []
  /-- Couplings satisfied, by 65,536 * graph + carriage (R257). -/
  sat : SMap Nat := []
  /-- Dispatch credits held, by 4,096 * logical core + coach (R21, R342). -/
  credits : SMap Nat := []
  complQ : List Compl := []
  /-- Carriages the GS orders to end: (physical core, graph, index, status) (R84, R114). -/
  endQ : List (Nat × Nat × Nat × Nat) := []
  /-- GCOUNT at which the step boundary was (R354), and of the current quantum. -/
  boundary : Nat := 0
  quantum : Nat := 0
  /-- Units that may be dispatched in the quantum (R354): their lowest member keys. -/
  quantumSet : List Nat := []
  /-- Charges to each physical core within the last 60 s (R404). -/
  charges : SMap (List Nat) := []
  /-- Cores waiting to be withdrawn, lower number first (R417): (core, cause). -/
  withdrawQ : List (Nat × Nat) := []
  /-- CHAIN_DONE that came for a coach's chain and PASS before the unit had it (R266): (coach, chain, PASS). -/
  chainDone : List (Nat × Nat × Nat) := []
  /-- Dispatch is held by the throttle (R466), by a warm reset (R480) or by margining. -/
  held : Bool := false
  /-- The value of CHIP_MODE that waits for the boundary (R348). -/
  modeNext : Option Nat := none
  /-- The device role that waits for the boundary (SET_ROLE). -/
  roleNext : Option Nat := none
  /-- Predictor audit counts of the step by graph * 65,536 + layer: misses and pairs (R244). -/
  predMiss : SMap Nat := []
  predPairs : SMap Nat := []
  /-- Column blocks predicted active, by (row * 256 + block) within graph * 65,536 + layer (R242). -/
  predActive : SMap (List (Nat × Nat)) := []
deriving DecidableEq, Repr

/-- An overlay version entry (R144, R145). -/
structure Ove where
  st : Nat := 0
  refs : Nat := 0
  coach : Nat := 0
  name : Nat := 0
  desc : Nat := 0
  graph : Nat := 0
deriving DecidableEq, Repr

/-- An overlay name (R144). -/
structure OvName where
  cur : Option Nat := none
  owner : Option Nat := none
  loads : Nat := 0
deriving DecidableEq, Repr

/-- An import slot (R216). -/
structure Imp where
  /-- 0 free, 1 open, 2 committed. -/
  st : Nat := 0
  gen : Nat := 0
  check : Nat := 0
  coach : Nat := 0
  slot : Nat := 0
  /-- Pages reserved and not yet landed. -/
  left : Nat := 0
  expiry : Nat := 0
  /-- The shipment in progress: its header has been accepted; sender node, ATTEMPT, page count, tokens, list length. -/
  begun : Bool := false
  node : Nat := 0
  attempt : Nat := 0
  npages : Nat := 0
  ntok : Nat := 0
  listlen : Nat := 0
  /-- Index of the next page record, and the record whose data is awaited. -/
  next : Nat := 0
  record : Option (List Byte) := none
  /-- Running digest (R219) over the pages in order, and pages that failed once. -/
  digest : Nat := 0
  failed : List Nat := []
  /-- Landed pages: (page, list entry address). -/
  landed : List (Nat × Nat) := []
  /-- Pages to be sent again. -/
  redo : List Nat := []
deriving DecidableEq, Repr

/-- An export in progress (R217-R221). -/
structure Exp where
  dest : Nat
  ticket : Nat
  attempt : Nat := 0
  /-- 0 waits for the boundary, 1 header sent, 2 pages and trailer sent. -/
  st : Nat := 0
  losses : Nat := 0
  sentAt : Nat := 0
  /-- Pages sent a second time. -/
  resent : List Nat := []
deriving DecidableEq, Repr

/-- A pause or resume in progress (R209-R215). -/
structure Move where
  /-- Accepted, waits for the boundary. -/
  waiting : Bool := true
  host : Bool := false
  buf : Nat := 0
  ttl : Nat := 0
  /-- A cancellation or deadline waits for the end of the move: its status. -/
  cancelled : Nat := 0
  /-- Bytes read back from host memory, by offset in the buffer, and the status of a read that failed. -/
  data : Memory := []
  bad : Nat := 0
deriving DecidableEq, Repr

/-- The step batcher besides the sequence entries, which lie in device memory. -/
structure Sb where
  /-- Ready bits (R226), by slot. -/
  ready : List Nat := []
  /-- Staged copies: slot to the 256 bytes (R236). -/
  staged : SMap (List Byte) := []
  /-- Requests registered and not yet carried out: slot to 1 CANCEL, 2 DEADLINE, 4 CLOSE (bits), and when. -/
  reg : SMap Nat := []
  regAt : SMap Nat := []
  /-- Status with which an ENDING sequence completes, plus one: by slot. -/
  ending : SMap Nat := []
  /-- The coach visited first in each class at the last cut (R232), plus one. -/
  rr : SMap Nat := []
  /-- Consecutive cuts at which a prefill chunk was skipped (R232). -/
  skips : SMap Nat := []
  names : SMap OvName := []
  oves : SMap Ove := []
  imports : SMap Imp := []
  exports : SMap Exp := []
  moves : SMap Move := []
  /-- Hot page to owning slot + 1; cold page likewise. -/
  pageOf : SMap Nat := []
  coldOf : SMap Nat := []
  /-- Cold pages of a COLD sequence in the order of R211; for host memory the buffer address first. -/
  coldList : SMap (List Nat) := []
  /-- 0 cold HBM, 1 host memory, by slot while COLD. -/
  coldHost : SMap Nat := []
  /-- A pool-low crossing is in progress (R204). -/
  crossing : Bool := false
  /-- Completions owed at the next step boundary without an end of the sequence: slot and status (R200). -/
  late : List (Nat × Nat) := []
deriving DecidableEq, Repr

/-! ### Enkuor Link (15) -/

/-- One EKL port (R364-R378). Counter i = 2 * VC + class. -/
structure Port where
  /-- Messages of the device and transit messages that wait to be sent, per counter. -/
  own : SMap (List Msg) := []
  transit : SMap (List Msg) := []
  /-- The side served last alternates per VC (R374): VCs whose own message went last. -/
  lastOwn : List Nat := []
  /-- Units of a message begun and not yet all sent, per counter. -/
  part : SMap (List Byte) := []
  rr : Nat := 0
  /-- Flits sent and not acknowledged, oldest first (R375). -/
  replay : List TxFlit := []
  nextSeq : Nat := 0
  /-- Flits sent per counter, mod 4,096. -/
  sent : SMap Nat := []
  /-- The partner's cumulative credits and initial credits per counter (R373, R377). -/
  cum : SMap Nat := []
  init : SMap Nat := []
  lastAck : Nat := 4095
  ackAt : Nat := 0
  /-- Flits accepted per counter, mod 4,096 (R373, R499). -/
  accepted : SMap Nat := []
  /-- Receiver: SEQ accepted last, NAK wanted, credits freed, flits of each counter in the buffer. -/
  rxSeq : Nat := 4095
  nak : Bool := false
  /-- The last flit received asked for replay (R375). -/
  nakSeen : Bool := false
  freed : SMap Nat := []
  rxFlits : SMap Nat := []
  /-- Units received of a message not yet whole, per counter. -/
  asm : SMap (List Byte) := []
  /-- Whole messages received, oldest first, each with the flits that leave the buffer with it (R373). -/
  rx : List (Nat × Msg) := []
  /-- The message being sent per counter, and messages sent whole whose last flit (by SEQ) is not acknowledged (R394). -/
  cur : SMap (List Msg) := []
  unacked : List (Nat × Msg) := []
  /-- Flits put on the line since the frame began, MARK first. -/
  line : List (List Byte) := []
  flitNo : Nat := 0
  /-- Marks passed in this training; the partner's mark seen last: its TXG and the receive GCOUNT. -/
  marks : Nat := 0
  markTx : Nat := 0
  markRx : Nat := 0
  /-- The partner is a host adapter (R377). -/
  partnerHost : Bool := false
  /-- GCOUNT at which the present link state was entered. -/
  since : Nat := 0
deriving DecidableEq, Repr

/-- A write or read that the device sent and that awaits its response (R370, R394). -/
inductive Awaits where
  /-- An interrupt frame of a coach's vector. -/
  | frame (coach vec : Nat)
  /-- A completion frame of an admin mailbox. -/
  | admFrame (k : Nat)
  /-- Outputs or completion records pushed to a host. -/
  | push (slot : Nat)
  /-- A DMA write chunk to a host address: physical core and tag. -/
  | dma (core tag : Nat)
  /-- A boot image or hand-back read at this offset. -/
  | boot (off len : Nat)
  /-- A cold page written to host memory. -/
  | cold (slot : Nat)
  /-- Bytes of a cold page read from host memory, at this offset of the buffer. -/
  | coldRead (slot off : Nat)
  /-- A DMA read chunk from a host address. -/
  | dmaRead (core tag : Nat)
  /-- Anything of the firmware. -/
  | firmware
deriving DecidableEq, Repr

/-- An outstanding request of the device. -/
structure OutReq where
  tag : Nat
  port : Nat
  msg : Msg
  why : Awaits
  at_ : Nat := 0
  /-- The message was lost with its port (R394). -/
  lost : Bool := false
deriving DecidableEq, Repr

/-- A collective context (R389). -/
structure Coll where
  opened : Bool := false
  id : Nat := 0
  coach : Nat := 0
  /-- Node ids by rank. -/
  members : List Nat := []
  rank : Nat := 0
  root : Nat := 0
  /-- 0 REDUCE_ALL, 1 BROADCAST, 2 GATHER_ALL. -/
  op : Nat := 0
  /-- 0 INT32, 1 INT64, 2 FP32. -/
  ety : Nat := 0
  vc : Nat := 3
  count : Nat := 0
  src : Nat := 0
  dst : Nat := 0
  /-- Scratch area; the source states no layout for it. -/
  scratch : Nat := 0
  seed : Nat := 0
  /-- Time limit in microseconds. -/
  limit : Nat := 0
  /-- The instance that runs, and GCOUNT at which it last moved. -/
  run : Option Nat := none
  movedAt : Nat := 0
  /-- The instance that ended last, plus one. -/
  ended : Nat := 0
  /-- What the children sent for each segment, in order of arrival: relabelled rank, values, digest. -/
  heard : SMap (List (Nat × List Int × Nat)) := []
  /-- Segments of the result that are complete here. -/
  result : SMap (List Int) := []
  /-- Segments of instances not yet run here, which wait in the scratch area (R389): (slot of 4 KiB there, port, instance, message). -/
  early : List (Nat × Nat × Nat × Msg) := []
deriving DecidableEq, Repr

/-- The link as a whole. -/
structure Link where
  ports : SMap Port := []
  out : List OutReq := []
  nextTag : Nat := 1
  colls : SMap Coll := []
  /-- Expected partner of each port plus one: node * 16 + port + 1 (R379). -/
  expect : SMap Nat := []
  /-- Consecutive frames with the offset within 2 ns (R359), GCOUNT of the last source mark, and the first-step mark. -/
  lockFrames : Nat := 0
  lastMark : Nat := 0
  stepped : Bool := false
  /-- The presence of each connector changed at this GCOUNT (R395). -/
  presentAt : SMap Nat := []
  /-- GCOUNT at which the last transit flit crossed (R397). -/
  transitAt : Nat := 0
  /-- Route to a host lost at this GCOUNT, by port (R394). -/
  hostLost : SMap Nat := []
  /-- Remote drawbar carts that wait for their PASS (R265): the messages, oldest first. -/
  carts : List Msg := []
  /-- Nodes that carts of a remote chain came from, by graph * 65,536 + chain (R266). -/
  barFrom : SMap (List Nat) := []
  /-- Directions whose traffic the switch has moved to the alternates, by their first port, until the firmware writes new
  entries (R385, R398). -/
  rerouted : List Nat := []
  /-- Credits of remote chain links: carts sent and not returned, by graph * 65,536 + chain (R370). -/
  barOut : SMap Nat := []
deriving DecidableEq, Repr

/-! ### Boot, security (18) -/

/-- A quote waiting to be signed (R450). -/
structure Quote where
  box : Nat
  coach : Nat
  sel : Nat
  nonce : List Byte
deriving DecidableEq, Repr

/-- The boot ROM and the trust block. -/
structure Boot where
  /-- Measurements M0-M7 (R448), 32 bytes each. -/
  m : List (List Byte) := List.replicate 8 (List.replicate 32 0)
  /-- The grant, or the hand-over: host port, host address of the image, its length, and the hand-back block's address and length. -/
  port : Nat := 0
  img : Nat := 0
  len : Nat := 0
  hb : Nat := 0
  hbLen : Nat := 0
  /-- The hand-back block as read. -/
  buf : Memory := []
  /-- Offsets read of the block or the image in progress, those outstanding with (failures, GCOUNT of issue), and the next. -/
  got : List Nat := []
  reads : SMap (Nat × Nat) := []
  nextOff : Nat := 0
  /-- GCOUNT of the last BOOT_REQ, and the attempt it carries (R441). -/
  lastReq : Nat := 0
  /-- An MP-only reset: 0 none, 1 its image is read, 2 it is verified, 3 the firmware restores its tables (R434-R437). -/
  phase : Nat := 0
  /-- The image being verified or started is the kept one (R436). -/
  kept : Bool := false
  /-- The boot in progress follows a chip warm reset (R480, R481). -/
  warm : Bool := false
  /-- The status that the hand-over in progress is answered with. -/
  handStatus : Nat := 0
  mpDownAt : Nat := 0
  /-- Commands that an MP-only reset without hand-over leaves to be answered TIMEOUT (R437). -/
  timeouts : List InProg := []
  quotes : List Quote := []
  /-- The device key: modulus and private exponent, unwrapped in POR (R447). -/
  dkN : Nat := 0
  dkD : Nat := 0
  /-- The trust block has been cleared for scan (R451). -/
  cleared : Bool := false
  /-- The last accepted SET_CORE_CONFIG, 0 for none (R485). -/
  nextCfg : Nat := 0
  /-- FWVER, KEYSLOT, SVN of the image being started are read from it; what the firmware still has to log: rows over their
  spares (R488), a failed SVN burn (R446). -/
  rowOvf : List (Nat × Nat × Nat) := []
  burnFail : Option (Nat × Nat) := none
  /-- Healthy cores found by the last repair pass (R532). -/
  healthy : Nat := 0
  /-- Where the firmware keeps the translation tables (R298). -/
  ttStore : Nat := 0
  /-- Ports that failed their retest and stay DISABLED (R487). -/
  badPorts : List Nat := []
deriving DecidableEq, Repr

/-- The fuses. -/
structure Fuses where
  keyHash : List (List Byte) := List.replicate 4 (List.replicate 32 0)
  /-- Cores disabled by fuse. -/
  cores : List Nat := []
  /-- Rows repaired by fuse: (stack, PC, row). -/
  rows : List (Nat × Nat × Nat) := []
  /-- The device key that POR unwraps: modulus and private exponent (R447). -/
  dkN : Nat := 0
  dkD : Nat := 0
  /-- Burned SVN fuses, revoked key slots, SCAN_LOCK, the serial, the factory trim code of IOSC. -/
  svn : Nat := 0
  revoke : Nat := 0
  scanLock : Nat := 0
  serial : Nat := 0
  iosc : Nat := 0
deriving DecidableEq, Repr

/-! ### Power, pins, service (19, 20, 23) -/

/-- The power manager, the clocks and the pins. -/
structure Pwr where
  /-- Pins: PWRGD, PORESET# asserted, TESTEN as sampled, THERMTRIP# asserted. -/
  pwrgd : Bool := true
  poreset : Bool := false
  testen : Bool := false
  thermtrip : Bool := false
  /-- Rails that report good, and that failed to, by bit in the order of R462: VCORE, VSRAM, VRET, VAON, VPHY, VOPT, VIO,
  HBM4 supplies. -/
  railsGood : Nat := 0xDF
  railsFailed : Nat := 0
  /-- The power stage holds every rail off until PORESET# (R461, R465). -/
  off : Bool := false
  /-- The main rails are off after SHUTDOWN (R482). -/
  shut : Bool := false
  /-- Straps sampled at PORESET# (R528): OSC_DLY + 8 * SMB_ADDR. -/
  straps : Nat := 0
  /-- The start-up delay of the crystal has ended (R455). -/
  delayDone : Bool := false
  /-- Retries of the present start (R456), and the check that caused FAIL (R532). -/
  retries : Nat := 0
  clkchk : Nat := 0
  /-- Throttle: dispatch is held in the present 64 µs window, and the GCOUNT at which it began (R466). -/
  holding : Bool := false
  windowAt : Nat := 0
  /-- PCAP, TWARN and TTHROT in force: PWR_CTRL as the last 1 ms evaluation found it (R474). -/
  pcap : Nat := 0x4B0
  twarn : Nat := 0x5F
  tthrot : Nat := 0x64
  /-- STAND entry: 0 none, 1 draining, 2 the response is written (R467). -/
  entry : Nat := 0
  /-- Retained state is intact, and its check word (R472). -/
  retained : Bool := true
  retCheck : Nat := 0
  /-- A wake is pending until the rails are off (R468), the wake's notice is owed (R469), a warm reset follows the wake. -/
  wakePending : Bool := false
  wakeNote : Bool := false
  warmAfter : Bool := false
deriving DecidableEq, Repr

/-- The service button and the sideband controller. -/
structure Svc where
  /-- GCOUNT of the debounced fall of the button, and whether its hold has acted. -/
  pressedAt : Option Nat := none
  holdTaken : Bool := false
  /-- Alert causes latched (R532, R533): ALERT# is asserted while any is set. -/
  causes : Nat := 0
  /-- The sideband mailbox holds a response not yet read (R532). -/
  mbDone : Bool := false
  /-- The last answer of the sideband. -/
  reply : List Byte := []
  /-- Messages to the host adapters that wait for the MP (R539): subtype and ARG. -/
  notes : List (Nat × Nat) := []
deriving DecidableEq, Repr

/-- The JTAG TAP (R494-R496). -/
structure Jtag where
  /-- Selected: 0 IDCODE, 1 BYPASS, 2 SAMPLE/PRELOAD, 3 EXTEST, 4 HIGHZ, 5 CLAMP, 6 SCAN_REQ, 7 FUSE_PROG. -/
  ir : Nat := 0
  /-- The data register: IDCODE after TAP reset. -/
  dr : Nat := 0x3964054F
  chain : List Bool := []
  /-- Board pins: 0 driven by the core, 1 by the chain, 2 floating. -/
  drive : Nat := 0
deriving DecidableEq, Repr

/-! ### The on-chip network (01) -/

/-- A cart in the mesh (R15, R16): its channel N0-N7, the router and port it leaves by (4 the router's core, 5 its auxiliary
port), and the credit queue that it belongs to. Its cargo stands in the state of its producer or consumer. -/
structure NocCart where
  chan : Nat
  router : Nat
  port : Nat
  queue : Nat
deriving DecidableEq, Repr

/-- The credits of one queue (R18, R19, R21, R23): those that the sender does not hold, and where they are: carts in flight,
carts in the receiver's buffer, credits being returned. -/
structure Cq where
  spent : Nat := 0
  flight : Nat := 0
  buffer : Nat := 0
  back : Nat := 0
deriving DecidableEq, Repr

/-- The mesh (R13-R16, R31) and the credit queues of R21. A buffer is keyed by 48 * router + 8 * port + channel: ports 0 north,
1 east, 2 south, 3 west, 4 the core, 5 the auxiliary port. -/
structure Noc where
  /-- Carts at a router interface that wait for a credit of the router's input buffer, oldest first. -/
  waiting : SMap (List NocCart) := []
  /-- Input buffers, oldest cart first. -/
  bufs : SMap (List NocCart) := []
  /-- The channel that an output (6 * router + port) served last, plus one. -/
  served : SMap Nat := []
  /-- The credits of the input buffers, by buffer. -/
  mesh : SMap Cq := []
  /-- The credits of the step path's queues, by queue. -/
  queues : SMap Cq := []
deriving DecidableEq, Repr

/-! ### Ledgers (21) -/

/-- The ledger unit's marks. -/
structure Ledger where
  /-- An evaluation runs on this snapshot; a trigger waits to be merged. -/
  running : Bool := false
  again : Bool := false
  lastAt : Nat := 0
  /-- Snapshot terms: (class, scope coach + 1 or 0, instance, observed, expected). -/
  snap : List (Nat × Nat × Nat × Nat × Nat) := []
deriving DecidableEq, Repr

end Sys2Proof.Machine
end

