-- ==== Sys2Proof/Machine/EngineTypes.lean ====
section
/-!
DEFINITION. What a core holds besides its registers (03, 04, 06, 07, 10, 11).
-/
namespace Sys2Proof.Machine

/-- A DMA descriptor (R283) with what its chunks belong to. -/
structure Desc where
  /-- 0 BULK_RD, 1 BULK_WR, 2 FINE_RD, 3 FINE_WR, 4 BLOCK. -/
  op : Nat
  /-- 0 coach address, 1 device physical, 2 host. -/
  aspace : Nat
  coach : Nat
  len : Nat
  spm : Nat
  mem : Nat
  graph : Nat
  index : Nat
  /-- The dispatch it serves: STEP and ATTEMPT. -/
  step : Nat := 0
  attempt : Nat := 0
  /-- Number of the descriptor in its core. -/
  id : Nat := 0
  /-- BLOCK: the address of the block's slot (R91), the engine whose XE takes it or 4 for a staged block (R254), the block of
  the tile, and whether it is a refetch (R111). -/
  slot : Nat := 0
  te : Nat := 4
  blk : Nat := 0
  refetch : Bool := false
  /-- COACH_GRANT of its carriage (R341). -/
  grant : Nat := 0
  /-- BLOCK: the block's index entry, where an access for another descriptor has read it (R94). -/
  entry : List Byte := []
  /-- The overlay whose delta carts it fetches (R158). -/
  ove : Option Nat := none
  /-- The BF16 output that it writes to the host (R230, R285). -/
  data : List Byte := []
  /-- Bytes whose chunks have been issued. -/
  done : Nat := 0
deriving DecidableEq, Repr

/-- A tag in use (R284): its descriptor, the chunk's offset in the transfer, and its length. -/
structure Tag where
  desc : Desc
  off : Nat
  len : Nat
  /-- The bytes answered by memory or host, and the status of the answer; none while it is awaited. -/
  answer : Option (Nat × List Byte) := none
  /-- Where the chunk lies in device physical memory: address and length of each piece. -/
  pieces : List (Nat × Nat) := []
  /-- Data of a write chunk, and the offsets of its words that are marked poisoned; for a read chunk the offsets of the lines
  that were answered with POISON. -/
  data : List Byte := []
  bad : List Nat := []
deriving DecidableEq, Repr

/-- A block reference's payload on its way into an expander (04): index entry fields and bytes. -/
structure XBlock where
  /-- 1 fetching, 2 arrived, 3 passed. -/
  st : Nat := 1
  entry : List Byte := []
  payload : List Byte := []
  /-- It is fetched a second time (R111). -/
  attempt : Nat := 0
  /-- It holds a slot reference (R102). -/
  ref : Bool := false
  /-- The 4,096 raw bytes it expanded to. -/
  raw : List Byte := []
deriving DecidableEq, Repr

/-- An expander: the tile being filled. -/
structure Xe where
  /-- Key of the carriage (65,536 * graph + index) plus one, and which of its loads the tile is; 0 for an idle expander. -/
  carr : Nat := 0
  load : Nat := 0
  blocks : List XBlock := []
  /-- Cycles by which the fill exceeds its nominal length: the wait for carts, and the lengths of lanes (R109). -/
  stall : Nat := 0
  slow : Nat := 0
deriving DecidableEq, Repr

/-- One accumulator of a set (R62): wide value, sticky saturation and the narrow value in front of it, and the residues that
the engine carries beside the wide and the narrow value (R82); a residue of 3 is no residue (R47). -/
structure Accum where
  w : Int := 0
  sat : Bool := false
  nar : Int := 0
  rw : Nat := 0
  rn : Nat := 0
deriving DecidableEq, Repr

/-- The accumulators of one row: OFS and K-steps of what the narrow values hold (R45), and the columns that are not zero. -/
structure RowAcc where
  ofs : Nat := 0
  steps : Nat := 0
  cols : SMap Accum := []
deriving DecidableEq, Repr

/-- An accumulator set (R62, R72). -/
structure AccSet where
  /-- 0 FREE, 1 FILL, 2 READY, 3 DRAIN. -/
  st : Nat := 0
  fmt : Nat := 0
  /-- The E_L that its sums are in (R36, R62). -/
  el : Int := 0
  /-- Key of its carriage plus one. -/
  carr : Nat := 0
  group : Nat := 0
  /-- What its drain does with the sums: 0 the chain's own, 2 adapter down, 3 adapter up, 4 predictor down, 5 predictor up. -/
  stage : Nat := 0
  /-- The overlay of an adapter's rows, and the output panel of an adapter's up tile. -/
  ove : Nat := 0
  panel : Nat := 0
  /-- The rows of the set, by their place in the carriage's window. -/
  rows : List Nat := []
  acc : SMap RowAcc := []
  /-- The last plane of its last row has been issued. -/
  full : Bool := false
  /-- Order in which it became READY. -/
  readyNo : Nat := 0
  /-- Carts of the set sent or converted so far, four per row. -/
  sent : Nat := 0
deriving DecidableEq, Repr

/-- A tile in a weight set: its carriage's key plus one, which load of it, and its eight blocks of 4,096 raw bytes. -/
structure Tile where
  carr : Nat
  load : Nat
  blocks : List (List Byte)
deriving DecidableEq, Repr

/-- A drawbar cart (R77): the 16-byte tag's fields, 64 wide values and their sticky bits. -/
structure Cart where
  chain : Nat
  group : Nat
  row : Nat
  qtr : Nat
  hop : Nat
  coach : Nat
  res : Nat
  sat : List Bool
  vals : List Int
  pass : Nat := 0
  /-- Graph of the chain. -/
  graph : Nat := 0
  /-- The node that it came from, where its link is remote. -/
  node : Nat := 0
  /-- The link it came on: 4 * physical core + engine, plus one; 0 for a remote link. -/
  src : Nat := 0
deriving DecidableEq, Repr

/-- A ternary engine (R62). -/
structure Te where
  active : Option Tile := none
  shadow : Option Tile := none
  setA : AccSet := {}
  setB : AccSet := {}
  /-- The activation buffer: the images of the two blocks read last, the current row's first (R62). -/
  abuf : List (List Byte) := []
  /-- The drain shadow register: the accumulators, by column, of the row read out of a set last (R62, R76). -/
  dsr : SMap Accum := []
  /-- The operand last in use was a compacted slice (R87). -/
  compact : Bool := false
  /-- Carts in the receive buffers of the engine's links (R78). -/
  link : List Cart := []
  readyCount : Nat := 0
  /-- The format the engine is set for (R136); 0 before the first carriage. -/
  fmt : Nat := 0
deriving DecidableEq, Repr

/-- A tile that a carriage loads: tile number in its block area, the address space of the area (0 coach, 1 physical), the
bases of blocks and index (R91), the SPM offset where it is staged (R254), its K-step, and the overlay it belongs to. -/
structure Load where
  tile : Nat
  aspace : Nat
  wblk : Nat
  widx : Nat
  staged : Option Nat := none
  kstep : Nat := 0
  ove : Option Nat := none
  /-- The coach whose address space the areas lie in. -/
  coach : Nat := 0
deriving DecidableEq, Repr

/-- One work item of a carriage at its engine: a pass of some rows against a loaded tile into a set (R69, R162). -/
structure Pass where
  /-- Which load it runs against; none for a group that no pair concerns (R162), and for vector work. -/
  load : Option Nat
  /-- Row group, the set (0 A, 1 B), the rows of the set and those that the pass runs, by their place in the window. -/
  group : Nat := 0
  set : Nat := 0
  rows : List Nat := []
  run : List Nat := []
  /-- The place of its tile in its segment (R69, R70). -/
  tile : Nat := 0
  /-- It is the last pass of its set. -/
  fin : Bool := false
  /-- As AccSet.stage; 1 the quantisation of an adapter's input (R165). -/
  stage : Nat := 0
  ove : Nat := 0
  panel : Nat := 0
deriving DecidableEq, Repr

/-- A partial of split attention (R179, R182): the row in the manifest, the query head, the chunk. -/
structure Partial where
  row : Nat
  head : Nat
  chunk : Nat
  e : Int
  l : BitVec 32
  o : List (BitVec 32)
deriving DecidableEq, Repr

/-- A half partial as a cart on N5 (R182), with the dispatch it belongs to and its head among all query heads. -/
structure PCart where
  graph : Nat
  step : Nat
  attempt : Nat
  mid : Nat
  coach : Nat
  half : Nat
  part : Partial
deriving DecidableEq, Repr

/-- What a core folds for one merge id (R184). -/
structure Merge where
  graph : Nat
  mid : Nat
  /-- The carts that have arrived: row, head, chunk and half (R183). -/
  seen : List (Nat × Nat × Nat × Nat) := []
  /-- Whole partials that wait, in order of arrival: their tags; the values lie in the landing area. -/
  parts : List Partial := []
  /-- Running sums, each with the partials folded so far. -/
  sums : List (Partial × Nat) := []
  /-- Rows and heads whose output is written. -/
  out : List (Nat × Nat) := []
deriving DecidableEq, Repr

/-- A work unit of split attention (R181): its rows (manifest numbers), its chunk, and the chunks of its set. -/
structure WUnit where
  rows : List Nat
  chunk : Nat
  chunks : Nat
deriving DecidableEq, Repr

/-- A carriage held by a TD. -/
structure TdItem where
  step : Nat
  graph : Nat
  index : Nat
  coach : Nat
  row0 : Nat
  nrow : Nat
  pbase : Nat
  attempt : Nat
  pass : Nat
  carr : List Byte
  layer : List Byte
  /-- The pin list of its layer (R122). -/
  pins : List Nat := []
  /-- The header's LDESC and MANIFEST (R260). -/
  ldesc : Nat := 0
  maddr : Nat := 0
  /-- COACH_GRANT as it stood at its dispatch (R333, R341). -/
  grant : Nat := 0
  /-- GCOUNT of first issue to an engine, plus one; 0 before. -/
  start : Nat := 0
  /-- Tiles it loads, in order, and how many of them the XE has begun. -/
  loads : List Load := []
  begun : Nat := 0
  /-- Work items left, in order. -/
  todo : List Pass := []
  /-- Attention work units left (R181). -/
  units : List WUnit := []
  /-- Descriptors that its transfers still have to write (R283). -/
  descs : List Desc := []
  /-- Vector work is left for when the transfers have landed (EMBED), or is all that is left (VU, PUSH). -/
  vector : Bool := false
  /-- SAT, PIN, ESC. -/
  flags : Nat := 0
  /-- Manifest rows that are masked at its end (R133). -/
  bad : List Nat := []
  /-- First spill of the carriage logged (R132). -/
  spilled : Bool := false
  /-- Tags of the writes to a host that are not acknowledged (R262). -/
  waits : List Nat := []
  /-- Adapter descriptors by overlay (R164). -/
  adapters : SMap (List Byte) := []
deriving DecidableEq, Repr

/-- The delta carts that the GE has read of one tile of one overlay for a carriage (R157, R158). -/
structure GeList where
  carr : Nat
  ove : Nat
  tile : Nat
  /-- NCART and NNZ of the directory entry, and its PTR. -/
  ncart : Nat
  nnz : Nat
  ptr : Nat
  /-- The place of the tile in its segment, and the carts of the tile in the lists before this one. -/
  tileNo : Nat := 0
  pre : Nat := 0
  /-- Carts whose fetch into the staging area has been asked for (R158). -/
  asked : Nat := 0
  carts : List (List Byte) := []
  /-- The next cart has failed its CRC once (R167). -/
  again : Bool := false
deriving DecidableEq, Repr

/-- A write to a neighbour's SPM on its way (R278): offset, bytes, coach, and the core and carriage that sent it. -/
structure NbrCart where
  off : Nat
  data : List Byte
  coach : Nat
  src : Nat
  carr : Nat
deriving DecidableEq, Repr

/-- What a physical core holds besides its registers. -/
structure Core where
  /-- Dispatch carts on their way to the TD, oldest first (R260). -/
  disp : List TdItem := []
  td : List TdItem := []
  dmaQ : List Desc := []
  nextDesc : Nat := 0
  tags : SMap Tag := []
  te : List Te := [{}, {}, {}, {}]
  xe : List Xe := [{}, {}, {}, {}]
  ge : List GeList := []
  /-- OVE and column of the slice that the GE gathered last (R169). -/
  gather : Nat × Nat := (0, 0)
  merges : List Merge := []
  /-- Every bank of the SPM has been cleared since the last reset or isolation (R289). -/
  cleared : Bool := false
  /-- GCOUNT at which the TD's queue last became empty (R273). -/
  emptyAt : Nat := 0
  /-- GCOUNT since which the core has been due for its test, and since which it has been tested (R408-R411). -/
  due : Option Nat := none
  testAt : Option Nat := none
  /-- GCOUNT at the start of its last test (R408). -/
  lastTest : Nat := 0
  /-- Partial carts on their way to this core (R182). -/
  pcarts : List PCart := []
  /-- Neighbour writes on their way to this core, and those of this core that wait for a credit, with their target (R278). -/
  nbr : List NbrCart := []
  nbrWait : List (Nat × NbrCart) := []
  /-- Completion records that wait for a credit, each with the key of its dispatch credit (R21). -/
  complWait : List (Compl × Nat) := []
  /-- Forced scrubs whose cycle no scheduled port has counted yet (R288). -/
  forced : Nat := 0
  /-- Next scrub row of each bank, and sweeps of each bank in the present sweep of all (R288). -/
  scrub : SMap Nat := []
  swept : List Nat := []
deriving DecidableEq, Repr

/-- The scratchpads: bytes, row owners (coach + 1) by row, poisoned words (R275-R288). Bytes and poisoned words are keyed by
2^22 * core + offset, rows by 2^22 * core + offset / 256. -/
structure Spm where
  bytes : Memory := []
  owner : SMap Nat := []
  poison : List Nat := []
deriving DecidableEq, Repr

end Sys2Proof.Machine
end

