-- ==== Sys2Proof/Machine/State.lean ====
section
/-!
DEFINITION. The state of the block: everything the source gives it, and the queue of commands that wait.
-/
namespace Sys2Proof.Machine

/-- Reasons the block stops with a fault. None is raised: every error of the source leads to a next state. -/
inductive Fault where
  /-- Raised by nothing: the source gives the block no stop of its own (safe). -/
  | stopped
deriving DecidableEq, Repr

/-- Reasons a command has no meaning. -/
inductive Refusal where
  /-- A command whose meaning has not been written, by its mnemonic; raised by Machine/Dispatch.lean only (safe). -/
  | notModelled (mnemonic : String)
deriving DecidableEq, Repr

/-- The block. -/
structure State where
  /-- Commands that wait, first in, first out. -/
  pending : List Instr := []
  /-- The model's own counter that free values are drawn with (DESIGN CHOICE, log entry 3). -/
  free : Nat := 0
  /-- GCOUNT (R357). -/
  gcount : Nat := 0
  /-- Every register word of the control window that differs from its reset. -/
  regs : Regs := []
  hbm : Hbm := {}
  spm : Spm := {}
  /-- By physical core. -/
  cores : SMap Core := []
  coaches : SMap Coach := []
  /-- Interrupt vectors: 4 * coach + vector, admin mailbox k at 16,384 + k (R343, R426). -/
  vecs : SMap Vec := []
  /-- Mailbox bytes, by control-window address (R421). -/
  mbox : Memory := []
  inprog : List InProg := []
  /-- The coach mailbox taken last (R428). -/
  lastCoach : Nat := 4095
  xlate : Xlate := {}
  tables : SMap TblSlot := []
  graphs : SMap (Option Graph) := []
  gs : Gs := {}
  sb : Sb := {}
  link : Link := {}
  boot : Boot := {}
  fuses : Fuses := {}
  pwr : Pwr := {}
  svc : Svc := {}
  jtag : Jtag := {}
  log : Log := {}
  ledger : Ledger := {}
  noc : Noc := {}
deriving DecidableEq, Repr

/-- The machine at the end of cold reset (R357, R475): GCOUNT 0, every register at its reset word, the boot ROM in POR,
nothing waiting. -/
def State.reset : State := {}

end Sys2Proof.Machine
end

