-- ==== Sys2Proof/Machine/Flags.lean ====
section
/-!
DEFINITION. Register access, status codes (R9), fault capture, and the names of codes that many units share.
-/
namespace Sys2Proof.Machine

/-- The outcome of a command. -/
abbrev Res := Host.Outcome State Fault Refusal

/-! ### Status codes (R9) -/

def Sc.ok : Nat := 0
def Sc.busy : Nat := 1
def Sc.badArg : Nat := 2
def Sc.notHalted : Nat := 3
def Sc.noResource : Nat := 4
def Sc.denied : Nat := 5
def Sc.poison : Nat := 6
def Sc.deadline : Nat := 7
def Sc.cancelled : Nat := 8
def Sc.integrity : Nat := 9
def Sc.ledger : Nat := 10
def Sc.timeout : Nat := 11
def Sc.inUse : Nat := 12
def Sc.badSignature : Nat := 13
def Sc.unsupported : Nat := 14

/-- The status that another device names, in a completion or a response here: the firmware returns no code above 0x0E, and one that
R9 does not name is INTEGRITY (R9; DESIGN CHOICE, log entry 102). -/
def Sc.named (st : Nat) : Nat := if st ≤ 14 then st else Sc.integrity

/-! ### Register fields of the state -/

/-- A register field, as a number. -/
def State.get (s : State) (b : Nat) (f : Fld) : Nat := s.regs.get b f

/-- The state with a register field set. -/
def State.set (s : State) (b : Nat) (f : Fld) (v : Nat) : State := { s with regs := s.regs.set b f v }

/-- The state with a counter advanced, wrapping at its width. -/
def State.bump (s : State) (b : Nat) (f : Fld) (n : Nat := 1) : State := { s with regs := s.regs.bump b f n }

/-- The state with a counter advanced, stopping at its greatest value. -/
def State.bumpSat (s : State) (b : Nat) (f : Fld) (n : Nat := 1) : State := { s with regs := s.regs.bumpSat b f n }

/-- The state with a counter taken back by one; a counter at zero stays. -/
def State.drop (s : State) (b : Nat) (f : Fld) (n : Nat := 1) : State := s.set b f (s.get b f - n)

/-- A chip register field. -/
def State.chip (s : State) (f : Fld) : Nat := s.get chipB f

/-- The state with a chip register field set. -/
def State.setChip (s : State) (f : Fld) (v : Nat) : State := s.set chipB f v

/-- The state with a chip counter advanced. -/
def State.count (s : State) (f : Fld) (n : Nat := 1) : State := s.bump chipB f n

/-- The whole word at a register address. -/
def State.word (s : State) (a : Nat) : Nat := (s.regs.look a).toNat

/-- The state with a whole register word set. -/
def State.setWord (s : State) (a v : Nat) : State := { s with regs := s.regs.put a (Word.ofNat v) }

/-! ### Fault capture (R88, R118, R141, R170, R194, R273, R293, R294, R324, R400, R508) -/

/-- The fields of a capture register as one word: VALID set, the cause, and (position, width, value) details. -/
def captureWord (cause : Nat) (fs : List (Fld × Nat)) : Nat :=
  fs.foldl (fun w f => setBits w f.1.lo f.1.w f.2) (1 + cause % 256 * 256)

/-- Capture a fault: the first fault fills the register, a later one while VALID is 1 sets OVERRUN only. OVERRUN stands until
it is written 1 (R8). `keep` is a mask width: bits at and above it are kept. -/
def State.capture (s : State) (a : Nat) (w : Nat) (keep : Nat := 64) : State :=
  let old := s.word a
  if bit old 0 then s.setWord a (setBits old 1 1 1)
  else s.setWord a (bits old keep (64 - keep) * 2 ^ keep + setBits (w % 2 ^ keep) 1 1 (b2n (bit old 1)))

/-! ### Boot, modes -/

/-- Boot ROM states (R440). -/
def Rom.por : Nat := 0
def Rom.train : Nat := 1
def Rom.linkUp : Nat := 2
def Rom.request : Nat := 3
def Rom.handback : Nat := 4
def Rom.load : Nat := 5
def Rom.verify : Nat := 6
def Rom.start : Nat := 7
def Rom.running : Nat := 8
def Rom.failed : Nat := 9
def Rom.safe : Nat := 10

/-- The boot ROM state. -/
def State.rom (s : State) : Nat := s.chip F.bootStatusState

/-- The root clocks run and the device has not lost its retained state or its main rails (R457, R472, R482). -/
def State.clocked (s : State) : Bool := s.chip F.clkStatusSrc == 3 && s.chip F.retOk == 1 && !s.pwr.off && !s.pwr.shut

/-- A clear before scan has begun (R451). -/
def State.scanned (s : State) : Bool := s.chip F.scanCtrlState == 1 || s.chip F.scanCtrlState == 2

/-- The firmware runs and the MP is there: mailboxes are served (R421, R434, R435, R440). -/
def State.mpUp (s : State) : Bool :=
  s.rom == Rom.running && s.chip F.mpDown == 0 && s.clocked && !s.scanned && !s.log.hold

/-- The device is in the safe state (R406). -/
def State.safe (s : State) : Bool := s.chip F.ftStatusSafe == 1

/-- STRICT and STRICT_TIME in force for the current step (R348). -/
def State.strict (s : State) : Bool := s.chip F.effStrict == 1
def State.strictTime (s : State) : Bool := s.chip F.effStrictTime == 1

/-- Logical cores in force (R549). -/
def State.nCores (s : State) : Nat := s.chip F.coreConfig

/-- The physical core behind a logical core (R550); none where the entry names no core. -/
def State.phys (s : State) (l : Nat) : Option Nat :=
  if s.get (coremapB l) F.coremapValid = 1 then some (s.get (coremapB l) F.coremapPhys) else none

/-- The quadrant of a physical core (R12): 0 NW, 1 NE, 2 SE, 3 SW. -/
def quadOf (p : Nat) : Nat :=
  if p / 12 < 6 then (if p % 12 < 6 then 0 else 1) else (if p % 12 < 6 then 3 else 2)

/-- The home quadrant of a logical core under a core configuration (R14). -/
def homeQuad (cfg l : Nat) : Nat := l / (cfg / 4)

/-- The two near stacks of a quadrant, lower-numbered first (R13). -/
def nearStacks (q : Nat) : Nat × Nat :=
  match q with
  | 0 => (0, 7)
  | 1 => (1, 2)
  | 2 => (3, 4)
  | _ => (5, 6)

/-- A CORE_MAP entry for logical core `l` on physical core `p` (R550). -/
def coremapWord (cfg l p : Nat) : Nat :=
  p + p / 12 * 256 + p % 12 * 4096 + quadOf p * 65536 + 2 ^ 18 + b2n (quadOf p != homeQuad cfg l) * 2 ^ 19

/-! ### Coach state -/

def Cs.vacant : Nat := 0
def Cs.halted : Nat := 1
def Cs.running : Nat := 2
def Cs.draining : Nat := 3
def Cs.faulted : Nat := 4

/-- The state of a coach (R326). -/
def State.coachState (s : State) (c : Nat) : Nat := s.get (coachB c) F.coachState

/-- The coaches that are not VACANT, ascending. -/
def State.liveCoaches (s : State) : List Nat :=
  (s.regs.filter fun e => 0x1000000 ≤ e.1 && e.1 < 0x2000000 && e.1 % 0x1000 == 0x400).filterMap fun e =>
    let c := (e.1 - 0x1000000) / 0x1000
    if s.coachState c = Cs.vacant then none else some c

/-- What a coach holds besides its registers. -/
def State.coach (s : State) (c : Nat) : Coach := SMap.look {} s.coaches c

/-- The state with a coach's extra state changed. -/
def State.modCoach (s : State) (c : Nat) (f : Coach → Coach) : State :=
  { s with coaches := SMap.modify {} s.coaches c f }

/-- A physical core's state. -/
def State.core (s : State) (p : Nat) : Core := SMap.look {} s.cores p

/-- The state with a core changed. -/
def State.modCore (s : State) (p : Nat) (f : Core → Core) : State :=
  { s with cores := SMap.modify {} s.cores p f }

/-- A port's state. -/
def State.port (s : State) (p : Nat) : Port := SMap.look {} s.link.ports p

/-- The state with a port changed. -/
def State.modPort (s : State) (p : Nat) (f : Port → Port) : State :=
  { s with link := { s.link with ports := SMap.modify {} s.link.ports p f } }

/-- A registered graph. -/
def State.graph (s : State) (g : Nat) : Option Graph := SMap.look none s.graphs g

/-- Link states (R378). -/
def Ls.down : Nat := 0
def Ls.training : Nat := 1
def Ls.up : Nat := 2
def Ls.retrain : Nat := 3
def Ls.miswired : Nat := 4
def Ls.disabled : Nat := 5

/-- The link state of a port. -/
def State.linkState (s : State) (p : Nat) : Nat := s.get (portB p) F.portState

/-- A free number: the counter advances and the free values of Config are applied to it. -/
def State.draw (s : State) : State := { s with free := s.free + 1 }

end Sys2Proof.Machine
end

