-- ==== Sys2Proof/Machine/Noc.lean ====
section
/-!
DEFINITION. The on-chip network (01): routers and their ports (R13), dimension-ordered routes (R15), the channels N0-N7 (R16)
with their input buffers and the arbitration of a link (R31), and the credits of every queue of the step path (R18-R21, R23).
-/
namespace Sys2Proof.Machine

/-! ### Channels (R16) and endpoints (R13) -/

/-- The channel of each traffic class (R16). -/
def Ch.dispatch : Nat := 0
def Ch.bulkReq : Nat := 1
def Ch.bulkResp : Nat := 2
def Ch.fineReq : Nat := 3
def Ch.fineResp : Nat := 4
def Ch.chain : Nat := 5
def Ch.outbound : Nat := 6
def Ch.mgmt : Nat := 7

/-- What an auxiliary port connects to (R13). -/
inductive Aux where
  | mc (m : Nat)
  | gs
  | sb
  | mp
  | fine
  | switch
deriving DecidableEq, Repr

/-- The controller on whose half-edge a router sits; a corner router has the first of its two in clockwise order (R13). -/
def edgeMc (r : Nat) : Option Nat :=
  let row := r / 12
  let col := r % 12
  if row = 0 ∧ col ≤ 5 then some 0
  else if row = 0 then some 1
  else if col = 11 ∧ row ≤ 5 then some 2
  else if col = 11 then some 3
  else if row = 11 ∧ 6 ≤ col then some 4
  else if row = 11 then some 5
  else if col = 0 ∧ 6 ≤ row then some 6
  else if col = 0 then some 7
  else none

/-- The auxiliary port of a router (R13). -/
def auxOf (r : Nat) : Option Aux :=
  match edgeMc r with
  | some m => some (.mc m)
  | none =>
    match r with
    | 65 => some .gs
    | 66 => some .sb
    | 77 => some .mp
    | 78 => some .fine
    | 26 | 52 | 33 | 55 | 91 | 117 | 88 | 110 => some .switch
    | _ => none

/-- An end of the mesh: a router and one of its ports. -/
abbrev End := Nat × Nat

/-- The ends of a core, of the GS and of the SB. -/
def End.core (p : Nat) : End := (p, 4)
def End.gs : End := (65, 5)
def End.sb : End := (66, 5)

/-- Carts on the way between two routers along the mesh. -/
def hops (r d : Nat) : Nat := (r % 12 - d % 12) + (d % 12 - r % 12) + (r / 12 - d / 12) + (d / 12 - r / 12)

/-- The end of a kind of auxiliary port that is nearest to a router, the lowest number among equals (DESIGN CHOICE, log
entry 93). -/
def End.near (r : Nat) (a : Aux) : End :=
  let rs := (List.range 144).filter fun d => auxOf d == some a
  (rs.foldl (fun b d => if hops r d < hops r b then d else b) (rs.headD 0), 5)

/-! ### Credits (R18-R21, R23) -/

/-- The queues of R21 by kind, each numbered by two of its ends. -/
def Qk.dispatch (core : Nat) : Nat := 2 ^ 24 + core
def Qk.completion (core : Nat) : Nat := 2 * 2 ^ 24 + core
def Qk.bulk (core mc : Nat) : Nat := 3 * 2 ^ 24 + 8 * core + mc
def Qk.fine (requester mc : Nat) : Nat := 4 * 2 ^ 24 + 8 * requester + mc
def Qk.weight (core te : Nat) : Nat := 5 * 2 ^ 24 + 4 * core + te
def Qk.tile (core te : Nat) : Nat := 6 * 2 ^ 24 + 4 * core + te
def Qk.drawbar (src dst : Nat) : Nat := 7 * 2 ^ 24 + 1024 * src + dst
def Qk.neighbour (core dst : Nat) : Nat := 8 * 2 ^ 24 + 144 * core + dst
def Qk.mesh (buf : Nat) : Nat := 9 * 2 ^ 24 + buf
def Qk.response (core : Nat) : Nat := 10 * 2 ^ 24 + core
def Qk.outbound (core : Nat) : Nat := 12 * 2 ^ 24 + core
def Qk.partials (core : Nat) : Nat := 11 * 2 ^ 24 + core

/-- The pool of a queue (R21); bulk responses and partials have their landing space reserved, outbound writes their tags, and no
pool of their own. -/
def Qk.pool (k : Nat) : Option Nat :=
  match k / 2 ^ 24 with
  | 1 => some 32
  | 3 => some 16
  | 5 => some 16
  | 6 => some 1
  | 2 | 4 | 7 | 8 | 9 => some 8
  | _ => none

/-- A cart is sent on a credit, enters the receiver's buffer, leaves it and its credit is on the way back; the credits on the
way back reach the sender (R18, R19, R23). -/
def Cq.send (c : Cq) (n : Nat := 1) : Cq := { c with spent := c.spent + n, flight := c.flight + n }
def Cq.arrive (c : Cq) (n : Nat := 1) : Cq := { c with flight := c.flight - n, buffer := c.buffer + n }
def Cq.leave (c : Cq) (n : Nat := 1) : Cq := { c with buffer := c.buffer - n, back := c.back + n }
def Cq.collect (c : Cq) : Cq := { c with spent := c.spent - c.back, back := 0 }

/-- A queue's credits balance (R499): those the sender does not hold are in flight, in the buffer or on the way back, and the
sender holds no more than the pool. -/
def Cq.ok (c : Cq) (k : Nat) : Bool :=
  c.spent == c.flight + c.buffer + c.back && (Qk.pool k).all fun n => decide (c.spent ≤ n)

/-- A queue's credits, and their change. -/
def Noc.q (n : Noc) (k : Nat) : Cq := SMap.look {} n.queues k
def Noc.modQ (n : Noc) (k : Nat) (f : Cq → Cq) : Noc := { n with queues := SMap.modify {} n.queues k f }

/-- An input buffer's credits, and their change. -/
def Noc.buf (n : Noc) (b : Nat) : Cq := SMap.look {} n.mesh b
def Noc.modBuf (n : Noc) (b : Nat) (f : Cq → Cq) : Noc := { n with mesh := SMap.modify {} n.mesh b f }

/-- Credits that the sender of a queue holds once those on the way have reached it. -/
def Noc.room (n : Noc) (k : Nat) : Nat := (Qk.pool k).getD 0 - (n.q k).collect.spent

/-! ### Routes and links (R15, R31) -/

/-- The port by which a cart leaves a router: along its row to the column, then along the column, then by its own port. -/
def NocCart.out (c : NocCart) (r : Nat) : Nat :=
  if r % 12 < c.router % 12 then 1
  else if c.router % 12 < r % 12 then 3
  else if r / 12 < c.router / 12 then 2
  else if c.router / 12 < r / 12 then 0
  else c.port

/-- The input buffer that a link's channel feeds: the router it leads to, by the port that faces back. -/
def linkBuf (r o chan : Nat) : Nat :=
  let d := match o with
    | 0 => r - 12
    | 1 => r + 1
    | 2 => r + 12
    | _ => r - 1
  48 * d + 8 * ((o + 2) % 4) + chan

/-- The cart at the head of a buffer, behind `k` that leave in the same cycle. -/
def Noc.head (n : Noc) (buf k : Nat) : Option NocCart := (SMap.look [] n.bufs buf)[k]?

/-- The choice of an output (R31): from channel `first` in turn, the first channel that has a cart for it and holds a credit;
among the input ports of one channel the lowest. `taken` are the buffers that it has taken carts from in this cycle. -/
def Noc.choose (n : Noc) (r o first : Nat) (taken : List Nat) : Option (Nat × Nat) :=
  (List.range 8).findSome? fun i =>
    let c := (first + i) % 8
    let credit := 4 ≤ o || decide ((n.buf (linkBuf r o c)).spent + (taken.filter fun b => b % 8 == c).length < 8)
    if credit then
      ((List.range 6).find? fun p =>
        let b := 48 * r + 8 * p + c
        (n.head b (taken.filter (· == b)).length).any fun x => x.out r == o).map fun p => (48 * r + 8 * p + c, c)
    else none

/-- The buffers that an output takes carts from in one cycle: two carts a cycle (R15). -/
def Noc.takes (n : Noc) (r o : Nat) : List Nat :=
  match n.choose r o (SMap.look 0 n.served (6 * r + o)) [] with
  | none => []
  | some (b, c) => b :: ((n.choose r o (c + 1) [b]).map (·.1)).toList

/-- The cart at the head of a buffer leaves by an output: into the next router's buffer on a credit of it, or out of the mesh. -/
def Noc.move (n : Noc) (r o b : Nat) : Noc :=
  match SMap.look [] n.bufs b with
  | [] => n
  | x :: rest =>
    let d := linkBuf r o (b % 8)
    if o < 4 ∧ 8 ≤ (n.buf d).spent then n
    else
      let n := { n with bufs := SMap.put [] n.bufs b rest, served := SMap.put 0 n.served (6 * r + o) (b % 8 + 1) }
      let n := n.modBuf b fun c => c.leave
      if o < 4 then Noc.modBuf { n with bufs := SMap.modify [] n.bufs d (· ++ [x]) } d fun c => c.send.arrive
      else n.modQ x.queue fun c => c.arrive

/-- A cart that waits at a router interface enters the router's buffer where a credit is held. -/
def Noc.enter (n : Noc) (b : Nat) : Noc :=
  match SMap.look [] n.waiting b with
  | [] => n
  | x :: rest =>
    if 8 ≤ (n.buf b).spent then n
    else Noc.modBuf { n with waiting := SMap.put [] n.waiting b rest, bufs := SMap.modify [] n.bufs b (· ++ [x]) } b
      fun c => c.send.arrive

/-- Credits on the way back reach their senders (R23). -/
def collectAll (m : SMap Cq) : SMap Cq := m.filterMap fun e => if e.2.collect = {} then none else some (e.1, e.2.collect)
def Noc.collect (n : Noc) : Noc := { n with mesh := collectAll n.mesh, queues := collectAll n.queues }

/-- One CLK_F cycle of the mesh: every output of every router chooses from the buffers as they stood, and then the carts move. -/
def Noc.cycle (n : Noc) : Noc :=
  let n := n.collect
  let n := n.waiting.foldl (fun n e => (n.enter e.1).enter e.1) n
  let rs := (n.bufs.map fun e => e.1 / 48).eraseDups
  let ms := rs.flatMap fun r => (List.range 6).flatMap fun o => (n.takes r o).map fun b => (r, o, b)
  ms.foldl (fun n m => n.move m.1 m.2.1 m.2.2) n

/-- Cycles pass until fewer than `k` carts of a queue are in flight; `fuel` bounds them. -/
def Noc.await (q k : Nat) : Nat → Noc → Noc
  | 0, n => n
  | f + 1, n => if (n.q q).flight < k ∨ (n.q q).flight = 0 then n else Noc.await q k f n.cycle

/-- Carts of 256 bytes that `n` bytes take (R15). -/
def cartsOf (n : Nat) : Nat := (n + 255) / 256

/-! ### The state's queues -/

/-- A queue's sender holds a credit (R18). -/
def State.qRoom (s : State) (k : Nat) : Bool := decide (0 < s.noc.room k)

/-- Send a cart of a queue over the mesh from one end to another. -/
def State.qSend (s : State) (k chan : Nat) (src dst : End) : State :=
  let n := s.noc.modQ k fun c => c.collect.send
  let b := 48 * src.1 + 8 * src.2 + chan
  let x : NocCart := { chan := chan, router := dst.1, port := dst.2, queue := k }
  { s with noc := { n with waiting := SMap.modify [] n.waiting b (· ++ [x]) } }

/-- Send `n` carts of a queue that does not cross the mesh: they stand in the receiver's buffer. -/
def State.qPut (s : State) (k : Nat) (n : Nat := 1) : State := { s with noc := s.noc.modQ k fun c => (c.collect.send n).arrive n }

/-- Of the `cargo` carts of a queue that have been sent and not yet been taken, the first has arrived. -/
def State.qAwait (s : State) (k cargo : Nat) : State := { s with noc := Noc.await k cargo 256 s.noc }

/-- Carts leave the receiver's buffer, and their credits are on the way back (R19); those still in flight arrive first. -/
def State.qLeave (s : State) (k : Nat) (n : Nat := 1) : State :=
  let m := if (s.noc.q k).buffer < n then Noc.await k 1 256 s.noc else s.noc
  { s with noc := m.modQ k fun c => c.leave (min n c.buffer) }

end Sys2Proof.Machine
end

