-- ==== Sys2Proof/Machine/Ops.lean ====
section
/-!
DEFINITION. The operations that many commands share: messages of the device and their routes (R383-R388), interrupt vectors
(R343, R344), the event log and the recovery sequencer (R415-R417, R512-R517), coach states, the safe state (R406),
mailboxes (R421-R433), address translation (R334-R336) and device memory.
-/
namespace Sys2Proof.Machine

/-! ### Sending -/

/-- The node id of the device (R380). -/
def State.node (s : State) : Nat := s.chip F.eklNodeNode

/-- The node id of the host adapter on port `p` (R380). -/
def State.hostNode (s : State) (p : Nat) : Nat := 0x8000 + s.node * 2 + p % 2

/-- The other port of a torus pair (R381); a global or host port has none. -/
def pairPort (p : Nat) : Nat := if 2 ≤ p ∧ p < 6 then p + 4 else if 6 ≤ p ∧ p < 10 then p - 4 else p

/-- A direction of the torus by its first port, or a global port by itself (R381, R382). -/
def directionOf (p : Nat) : Nat := min p (pairPort p)

/-- The port of a pair that a message takes (R383): by bit 0 of SRC XOR DST, or the other where that one is not UP. -/
def State.pickPort (s : State) (p src dst : Nat) : Option Nat :=
  let a := min p (pairPort p)
  let b := max p (pairPort p)
  let x := if (src ^^^ dst) % 2 = 0 then a else b
  if s.linkState x = Ls.up then some x
  else if s.linkState (pairPort x) = Ls.up then some (pairPort x) else none

/-- Whether a position lies in a slice (R388). -/
def inSlice (x0 y0 w h x y : Nat) : Bool := (x + 4 - x0) % 4 < w && (y + 4 - y0) % 4 < h

/-- The direction from `a` to `b` on one axis of the ring: inside a slice of extent `w` from `o`, or the shorter way, the
+ direction at a distance of 2. True for +. -/
def ringPlus (o w a b : Nat) : Bool :=
  if w = 4 then (b + 4 - a) % 4 ≤ 2 else (a + 4 - o) % 4 < (b + 4 - o) % 4

/-- The first port of the direction that a coach's slice prescribes between two positions of it in one group (R388). -/
def State.slicePort (s : State) (coach dst : Nat) : Option Nat :=
  let b := sliceB coach
  let x0 := s.get b F.sliceX0
  let y0 := s.get b F.sliceY0
  let w := s.get b F.sliceW
  let h := s.get b F.sliceH
  let n := s.node
  if s.get b F.sliceValid = 1 && n / 16 == dst / 16 && inSlice x0 y0 w h (n % 4) (n / 4 % 4)
      && inSlice x0 y0 w h (dst % 4) (dst / 4 % 4) then
    if n % 4 ≠ dst % 4 then some (if ringPlus x0 w (n % 4) (dst % 4) then 2 else 3)
    else if n / 4 % 4 ≠ dst / 4 % 4 then some (if ringPlus y0 h (n / 4 % 4) (dst / 4 % 4) then 4 else 5)
    else none
  else none

/-- A port whose partner drains is left to messages for that partner (R397). -/
def State.drained (s : State) (p dst : Nat) : Bool :=
  s.get (portB p) F.portDrainRx == 1 && s.get (portB p) F.portPartner != dst

/-- The output port of a message, and whether it is the alternate (R383-R388). -/
def State.route (s : State) (src dst coach : Nat) : Option (Nat × Bool) :=
  let dev := if 0x8000 ≤ dst then dst % 0x8000 / 2 else dst
  if dev = s.node then (if 0x8000 ≤ dst then some (dst % 2, false) else none)
  else
    let b := routeB (dev % 2048)
    let ok (q : Nat) : Bool := !s.drained q dev
    let pri := (s.slicePort coach dev).orElse fun _ =>
      if s.get b F.routePv = 1 then some (s.get b F.routePri) else none
    match ((pri.filter fun p => !s.link.rerouted.contains (directionOf p)).bind fun p => s.pickPort p src dst).filter ok with
    | some p => some (p, false)
    | none =>
      if s.get b F.routeAv = 1 then
        ((s.pickPort (s.get b F.routeAlt) src dst).filter ok).map fun p => (p, true)
      else none

/-- A port leads over a wrap link from the device's position (R381). -/
def wrapLink (node p : Nat) : Bool :=
  let x := node % 4
  let y := node / 4 % 4
  ((p == 2 || p == 6) && x == 3) || ((p == 3 || p == 7) && x == 0) ||
  ((p == 4 || p == 8) && y == 3) || ((p == 5 || p == 9) && y == 0)

/-- The buffer class a message leaves with (R384). -/
def State.clsOut (s : State) (m : Msg) (p : Nat) (alt : Bool) : Nat :=
  if 10 ≤ p then 0
  else if p < 2 then m.cls
  else
    let g := s.node / 16
    let gd := (if 0x8000 ≤ m.dst then m.dst % 0x8000 / 2 else m.dst) / 16
    let gs := (if 0x8000 ≤ m.src then m.src % 0x8000 / 2 else m.src) / 16
    if alt || wrapLink s.node p || (g != gd && g != gs) then 1 else m.cls

/-- Messages that still leave during a chip warm reset (R480, R481): the answers to requests, since a register read returns the
value held, and what the boot ROM sends once it has entered its own states (DEDUCED, log entry 41). -/
def State.leavesInReset (s : State) (m : Msg) : Bool :=
  m.mtype == 2 || m.mtype == 4 || m.mtype == 6 || s.rom != Rom.running

/-- A message put in a port's queue of the device's own messages; from the trigger of a chip warm reset the device hands over no
new message but those of `leavesInReset` (R480). -/
def State.enqueue (s : State) (p : Nat) (m : Msg) : State :=
  if s.log.hold && !s.leavesInReset m then s else s.modPort p fun q => { q with own := SMap.modify [] q.own (2 * m.vc + m.cls) (· ++ [m]) }

/-- A message sent by the device: it stands in the queue of its route's port; one without a route is discarded and counted
(R371). -/
def State.send (s : State) (m : Msg) : State :=
  let m := { m with src := s.node }
  match s.route m.src m.dst m.coach with
  | some (p, alt) => s.enqueue p { m with cls := s.clsOut m p alt }
  | none => s.count F.noRoute

/-- A request sent by the device to a host port, remembered until its response comes (R370). -/
def State.request (s : State) (p : Nat) (m : Msg) (why : Awaits) : State :=
  let t := s.link.nextTag
  let m := { m with tagw := t, src := s.node }
  let s := { s with link := { s.link with
    nextTag := (t + 1) % 2 ^ 32
    out := s.link.out ++ [({ tag := t, port := p, msg := m, why := why, at_ := s.gcount } : OutReq)] } }
  s.enqueue p m

/-- The response to a request that came on `port`, on the same VC (R370). -/
def State.reply (s : State) (port : Nat) (m : Msg) (mtype arg : Nat) (data : List Byte) : State :=
  let r : Msg := { mtype := mtype, vc := m.vc, admin := m.admin, space := m.space, dst := m.src, src := s.node
                   coach := m.coach, tagw := m.tagw, addr := m.addr, arg := arg, data := data }
  match s.route r.src r.dst r.coach with
  | some (p, alt) => s.enqueue p { r with cls := s.clsOut r p alt }
  | none => if 0x8000 ≤ m.src then s.enqueue port r else s.count F.noRoute

/-! ### Interrupt vectors (R343, R344, R426) -/

/-- The registers of a vector: 4 * coach + v, or an admin mailbox's at 16,384 + k. -/
def vecB (i : Nat) : Nat := if i < 16384 then cvecB (i / 4) (i % 4) else admVecB (i - 16384)

/-- A vector's state. -/
def State.vec (s : State) (i : Nat) : Vec := SMap.look {} s.vecs i

/-- The state with a vector changed; VCFG.PENDING follows the pending count (R341). -/
def State.setVec (s : State) (i : Nat) (v : Vec) : State :=
  ({ s with vecs := SMap.put {} s.vecs i v }).set (vecB i) F.cvecPending (b2n (v.pend != 0))

/-- The 16 bytes of an interrupt frame (R344). -/
def frameBytes (i events time : Nat) : List Byte :=
  if i < 16384 then packFields 16 [(0, 2, i / 4), (2, 1, i % 4), (4, 4, events), (8, 8, time)]
  else packFields 16 [(0, 2, i - 16384), (2, 1, 1), (3, 1, 1), (4, 4, events), (8, 8, time)]

/-- The host port of a vector's frames: the coach's HPORT; an admin frame leaves on the port of the boot grant
(DESIGN CHOICE, log entry 9). -/
def State.vecPort (s : State) (i : Nat) : Nat :=
  if i < 16384 then s.get (coachB (i / 4)) F.coachHport else s.chip F.bootStatusPort

/-- Send the pending frame of a vector (R344). -/
def State.sendFrame (s : State) (i : Nat) : State :=
  let v := s.vec i
  let p := s.vecPort i
  let c := if i < 16384 then i / 4 else 0
  let why := if i < 16384 then Awaits.frame (i / 4) (i % 4) else Awaits.admFrame (i - 16384)
  let t := s.link.nextTag
  let s := s.request p { mtype := 1, vc := 0, space := 3, dst := s.hostNode p, coach := c
                         addr := s.get (vecB i) F.cvecVaddr / 16 * 16
                         data := frameBytes i v.pend s.gcount } why
  let s := s.setVec i { v with pend := 0, flight := some t }
  if i < 16384 then s.bump (coachB (i / 4)) F.coachIntFrames else s

/-- Send the pending frame where nothing holds it: MASK is 0, no frame is in flight, every announced write is acknowledged,
and COAL_CNT is reached or the hold time has passed (`due` forces the hold time) (R343, R344). -/
def State.trySend (s : State) (i : Nat) (due : Bool) : State :=
  let v := s.vec i
  let ns := s.get (vecB i) F.cvecCoalNs
  if v.pend ≠ 0 ∧ s.get (vecB i) F.cvecMask = 0 ∧ v.flight = none ∧ v.waits = []
      ∧ (due = true ∨ ns = 0 ∨ max 1 (s.get (vecB i) F.cvecCoalCnt) ≤ v.pend ∨ v.first + ns ≤ s.gcount) then
    s.sendFrame i
  else s

/-- One event on a vector (R343); `waits` are the tags of the writes it announces. -/
def State.raiseVec (s : State) (i : Nat) (waits : List Nat := []) : State :=
  let v := s.vec i
  let s := s.setVec i { v with pend := v.pend + 1, first := if v.pend = 0 then s.gcount else v.first
                               waits := v.waits ++ waits }
  let s := if i < 16384 then s.bump (coachB (i / 4)) F.coachIntEvents else s
  s.trySend i false

/-- One event on vector `v` of coach `c`. -/
def State.event (s : State) (c v : Nat) (waits : List Nat := []) : State := s.raiseVec (4 * c + v) waits

/-! ### Alert causes of the sideband (R533) -/

/-- Latch an alert cause and assert ALERT#. -/
def State.alertCause (s : State) (bitNo : Nat) : State :=
  { s with svc := { s.svc with causes := if bit s.svc.causes bitNo then s.svc.causes else s.svc.causes + 2 ^ bitNo } }

/-! ### Event log (R509-R517) -/

/-- The 64 bytes of a record (R512). -/
def recBytes (seq : Nat) (queued : Bool) (r : LogRec) : List Byte :=
  let b := packFields 60
    [(0, 4, seq), (4, 1, r.cls % 16 + r.sev % 4 * 16 + b2n r.fw * 64 + b2n queued * 128), (5, 1, r.cause),
     (6, 1, r.unit % 16 + r.sub % 4 * 16 + b2n r.all * 64), (7, 1, r.inst), (8, 8, r.time),
     (16, 2, match r.coach with | some c => c % 4096 + 32768 | none => 0), (18, 2, r.graph), (20, 2, r.index),
     (22, 1, r.attempt), (23, 1, match r.lcore with | some l => l % 128 + 128 | none => 0), (24, 8, r.capture)]
  let b := overlay b 32 (r.detail.take 24)
  b ++ leBytes 4 (crc32c b)

/-- Write a record into the ring under the next SEQNO, with its counters and the events of R516. -/
def State.logWrite (s : State) (r : LogRec) (queued : Bool) : State :=
  let head := s.chip F.logStateHead
  let full := decide (8192 ≤ s.chip F.recWritten)
  let s := { s with log := { s.log with
    ring := SMap.put [] s.log.ring (head % 8192) (recBytes head queued r)
    named := SMap.put [] s.log.named (head % 8192) (if r.all then s.liveCoaches else []) } }
  let s := s.setChip F.logStateHead (head + 1)
  let s := if full then (s.setChip F.logStateTail (s.chip F.logStateTail + 1)).count F.logOverwritten else s
  let s := s.count F.recWritten
  let s := s.count (match r.sev with | 0 => F.logSev0 | 1 => F.logSev1 | 2 => F.logSev2 | _ => F.logSev3)
  match r.coach with
  | some c => s.event c 3
  | none => if r.all then s.liveCoaches.foldl (fun s c => s.event c 3) s else s

/-- Records stay in their queues while the MP is away or a warm reset holds the writer (R517). -/
def State.logHeld (s : State) : Bool := s.log.hold || s.chip F.mpDown == 1

/-- The severity-1 queue has no place for a further error (R416). -/
def State.sev1Full (s : State) : Bool := decide (64 ≤ s.log.q1.length) && (s.logHeld || !s.log.cur.isEmpty)

/-- The port marks carry DRAIN: a drain is in progress (R397, R406, R538). -/
def State.setDraining (s : State) : State := s.setChip F.draining 1

/-- Coach `c` enters a state: one event on its vector 3 (R343). -/
def State.enterCoach (s : State) (c st : Nat) : State :=
  if s.coachState c = st then s else (s.set (coachB c) F.coachState st).event c 3

/-- The carriages of a unit that are dispatched and not complete are ordered to end with a status (R114). -/
def State.orderEnd (s : State) (u : UnitSt) (status : Nat) : State :=
  let ends := u.out.filterMap fun i =>
    match s.graph u.graph with
    | none => none
    | some g => (s.phys (g.pbase + bits (fieldLE (g.carrs.getD i []) 4 1) 0 7)).map fun p => (p, u.graph, i, status)
  { s with gs := { s.gs with endQ := s.gs.endQ ++ ends } }

/-- Mask a row for the rest of the step with an ending status (R239, R270): the first status stands. -/
def Row.mask (r : Row) (status : Nat) : Row :=
  { r with masked := true, status := if r.status = 0 then status else r.status }

/-- The safe state (R406) once its records are written: dispatch stops, every row of the step is masked with INTEGRITY, every
dispatched carriage is ended, RUNNING coaches drain, and every mark carries DRAIN. -/
def State.safeMarks (s : State) : State :=
  let s := (s.setChip F.ftStatusSafe 1).alertCause 4
  let s := s.setDraining
  let s := s.gs.units.foldl (fun (s : State) (u : UnitSt) => if u.st = 1 then s.orderEnd u Sc.integrity else s) s
  let s := { s with gs := { s.gs with
    rows := s.gs.rows.map fun (r : Row) => if r.done then r else r.mask Sc.integrity
    units := s.gs.units.map fun (u : UnitSt) => if u.st = 0 then { u with st := 2, status := Sc.integrity } else { u with status := Sc.integrity } } }
  s.liveCoaches.foldl (fun s c => if s.coachState c = Cs.running then s.enterCoach c Cs.draining else s) s

/-- Enter the safe state: the causing record at severity 3, then SAFE_STATE naming its SEQNO, both written at once, unless a
hold of R517 keeps them (R406). In the safe state already, the error's own record alone is written so (R416). -/
def State.enterSafe (s : State) (r : LogRec) : State :=
  if s.safe then
    (if s.logHeld then { s with log := { s.log with q3 := s.log.q3 ++ [r] } } else s.logWrite r false)
  else
  let r := { r with sev := 3, time := s.gcount }
  let mk (n : Nat) : LogRec := { cls := r.cls, sev := 3, cause := 0x8F, all := true, time := s.gcount, detail := leBytes 4 n }
  let s := s.count F.recRaised
  let s := if s.logHeld then { s with log := { s.log with q3 := s.log.q3 ++ [r, mk 0] } }
    else let n := s.chip F.logStateHead
      (s.logWrite r false).logWrite (mk n) false
  let s := { s with log := { s.log with cur := [r] } }
  s.safeMarks

/-- Raise an error or event: the sequencer takes it, pre-empts with it, queues it or drops it (R415-R417, R506). -/
def State.raise (s : State) (r : LogRec) : State :=
  let r := { r with time := s.gcount }
  let s := s.count F.recRaised
  let queue (s : State) : State :=
    if r.sev = 0 then
      if s.log.q0.length < 64 then { s with log := { s.log with q0 := s.log.q0 ++ [r] } }
      else (s.bumpSat chipB F.nestOvfSev0).count F.recDropped
    else if r.sev = 1 then
      if s.log.q1.length < 64 then { s with log := { s.log with q1 := s.log.q1 ++ [r] } }
      else (s.bumpSat chipB F.nestOvfSev1).count F.recDropped
    else if s.log.q2.length < 64 then { s with log := { s.log with q2 := s.log.q2 ++ [r] } }
    else (s.bumpSat chipB F.nestOvfSev2).enterSafe r
  if 3 ≤ r.sev then
    if s.logHeld then { s with log := { s.log with q3 := s.log.q3 ++ [r] } }
    else let s := s.logWrite r false
      { s with log := { s.log with cur := [r] } }
  else if s.logHeld then queue s
  else match s.log.cur with
    | [] =>
      let s := s.logWrite r false
      if r.sev = 0 then s else { s with log := { s.log with cur := [r] } }
    | c :: rest =>
      if c.sev < r.sev then
        let s := (s.logWrite r false).count F.nestPreempt
        { s with log := { s.log with cur := r :: c :: rest } }
      else queue s

/-- An error that brings the device into the safe state (R406); in the safe state it is only logged. -/
def State.raiseSafe (s : State) (r : LogRec) : State :=
  if s.safe then s.raise r else (s.count F.recRaised).enterSafe r

/-- Log at most once per millisecond and source (R339, R371). -/
def State.raiseOnce (s : State) (src : Nat) (r : LogRec) : State :=
  let t := SMap.look 0 s.log.last src
  if t = 0 ∨ t + 1000000 ≤ s.gcount + 1 then
    ({ s with log := { s.log with last := SMap.put 0 s.log.last src (s.gcount + 1) } }).raise r
  else s

/-- Rows of the step, and of the manifest that waits to be armed, are masked with a status (R239). -/
def State.maskWhere (s : State) (f : Row → Bool) (status : Nat) : State :=
  let m (r : Row) : Row := if f r then r.mask status else r
  { s with gs := { s.gs with rows := s.gs.rows.map m, posted := s.gs.posted.map fun l => l.map m } }

/-- Every row of a coach in the step is masked and its dispatched carriages are ordered to end (R332, R345). -/
def State.endCoachWork (s : State) (c status : Nat) : State :=
  let s := s.gs.units.foldl (fun (s : State) (u : UnitSt) =>
    if u.st = 1 ∧ (s.graph u.graph).any (fun g => g.coach == c) then s.orderEnd u status else s) s
  let s := s.maskWhere (fun r => r.coach == c && !r.done) status
  { s with gs := { s.gs with
    units := s.gs.units.map fun (u : UnitSt) =>
      if u.st = 1 ∧ (s.graph u.graph).any (fun g => g.coach == c) ∧ u.status = 0 then { u with status := status } else u } }

/-- A coach-fatal error (R332). -/
def State.coachFatal (s : State) (c status : Nat) : State :=
  let s := s.enterCoach c Cs.faulted
  let s := s.set (coachB c) F.coachFstatus status
  s.endCoachWork c status

/-! ### Mailboxes (R421-R433) -/

/-- The base of a mailbox: 0-7 admin, 8 sideband, 16 + c coach (R421). -/
def boxB (box : Nat) : Nat :=
  if box < 8 then 0x400000 + 0x400 * box else if box = 8 then 0x402000 else coachB (box - 16)

/-- The mailbox holds OWN = 1. -/
def State.owned (s : State) (box : Nat) : Bool := bit (Memory.byte s.mbox (boxB box + 3)).toNat 0

/-- The coach mailboxes that hold OWN = 1, ascending. -/
def State.ownedCoaches (s : State) : List Nat :=
  (s.mbox.filter fun e => 0x1000000 ≤ e.1 && e.1 < 0x2000000 && e.1 % 0x1000 == 3 && bit e.2.toNat 0).map
    fun e => (e.1 - 0x1000000) / 0x1000

/-- The mailbox carries a command in progress. -/
def State.inProgress (s : State) (box : Nat) : Bool := s.inprog.any fun p => p.box == box

/-- The mailbox the MP takes a command from next (R428). -/
def State.nextBox (s : State) : Option Nat :=
  let wait (b : Nat) : Bool := s.owned b && !s.inProgress b
  match (List.range 8).find? wait with
  | some k => some k
  | none =>
    if wait 8 then some 8
    else
      let cs := s.ownedCoaches.filter fun c => !s.inProgress (16 + c)
      match cs.find? (fun c => s.lastCoach < c) with
      | some c => some (16 + c)
      | none => cs.head?.map (16 + ·)

/-- A command as it stands in its mailbox (R422). -/
structure Cmd where
  box : Nat
  op : Nat
  ifv : Nat
  tag : Nat
  arglen : Nat
  coach : Nat
  args : List Byte
  rsv : Bool
deriving DecidableEq, Repr

/-- The command of a mailbox. -/
def State.cmd (s : State) (box : Nat) : Cmd :=
  let a := Memory.read s.mbox (boxB box) 512
  { box := box, op := fieldLE a 0 2, ifv := fieldLE a 2 1, tag := fieldLE a 4 4, arglen := bits (fieldLE a 8 2) 0 9
    coach := if 16 ≤ box then box - 16 else bits (fieldLE a 10 2) 0 12
    args := a.drop 16
    rsv := bits (fieldLE a 3 1) 1 7 == 0 && bits (fieldLE a 8 2) 9 7 == 0 && fieldLE a 12 4 == 0
           && (16 ≤ box || bits (fieldLE a 10 2) 12 4 == 0) }

/-- Little-endian argument of `n` bytes at offset `o`. -/
def Cmd.arg (c : Cmd) (o n : Nat) : Nat := fieldLE c.args o n

/-- The caller is an admin mailbox or the sideband. -/
def Cmd.isAdmin (c : Cmd) : Bool := decide (c.box < 16)

/-- A row of the command table of R431: argument bytes, From (A, S, C), and group. -/
structure CmdRow where
  len : Nat
  a : Bool
  s : Bool
  c : Bool
  grp : Nat
deriving DecidableEq, Repr

/-- Groups of R432: 0 N, 1 K+, 2 K, 3 W, 4 Q, 5 L. -/
def Grp.n : Nat := 0
def Grp.kPlus : Nat := 1
def Grp.k : Nat := 2
def Grp.w : Nat := 3
def Grp.q : Nat := 4
def Grp.l : Nat := 5

/-- The command table (R431); none for an opcode outside it. COACH_MAP goes by the states of
R329, which takes it in FAULTED, and not by its group in R432, which does not (DESIGN CHOICE, log entry 103). -/
def cmdRow (op : Nat) : Option CmdRow :=
  match op with
  | 0x0001 => some ⟨0, true, true, true, 0⟩
  | 0x0002 => some ⟨1, true, false, false, 0⟩
  | 0x0003 => some ⟨1, true, true, false, 0⟩
  | 0x0004 => some ⟨4, true, false, false, 4⟩
  | 0x0005 => some ⟨1, true, true, false, 0⟩
  | 0x0006 => some ⟨0, true, true, false, 4⟩
  | 0x0007 => some ⟨0, true, true, false, 4⟩
  | 0x0008 => some ⟨0, true, true, false, 0⟩
  | 0x0009 => some ⟨13, true, false, false, 0⟩
  | 0x000A => some ⟨1, true, false, false, 0⟩
  | 0x000B => some ⟨1, true, false, false, 0⟩
  | 0x000C => some ⟨5, true, true, true, 0⟩
  | 0x000D => some ⟨1, true, true, true, 0⟩
  | 0x000E => some ⟨36, true, false, true, 0⟩
  | 0x0101 => some ⟨1, true, false, false, 5⟩
  | 0x0102 => some ⟨0, true, false, false, 5⟩
  | 0x0103 => some ⟨0, true, false, true, 5⟩
  | 0x0104 => some ⟨0, true, false, true, 5⟩
  | 0x0105 => some ⟨0, true, false, true, 5⟩
  | 0x0106 => some ⟨25, true, false, false, 2⟩
  | 0x0107 => some ⟨16, true, false, false, 2⟩
  | 0x0108 => some ⟨16, true, false, false, 5⟩
  | 0x0201 => some ⟨7, true, false, false, 0⟩
  | 0x0202 => some ⟨1, true, false, false, 0⟩
  | 0x0203 => some ⟨1, true, false, false, 4⟩
  | 0x0204 => some ⟨32, true, false, false, 0⟩
  | 0x0301 => some ⟨12, true, false, true, 1⟩
  | 0x0302 => some ⟨144, true, false, true, 2⟩
  | 0x0303 => some ⟨2, true, false, true, 2⟩
  | 0x0304 => some ⟨3, true, false, false, 1⟩
  | 0x0305 => some ⟨20, true, false, false, 0⟩
  | 0x0306 => some ⟨1, true, false, false, 0⟩
  | 0x0307 => some ⟨16, true, false, true, 1⟩
  | 0x0308 => some ⟨2, true, false, true, 2⟩
  | 0x0309 => some ⟨3, true, false, true, 2⟩
  | 0x0401 => some ⟨0, true, false, true, 1⟩
  | 0x0402 => some ⟨2, true, false, true, 2⟩
  | 0x0403 => some ⟨16, true, false, true, 3⟩
  | 0x0404 => some ⟨2, true, false, true, 3⟩
  | 0x0405 => some ⟨12, true, false, true, 1⟩
  | 0x0406 => some ⟨8, true, false, true, 2⟩
  | 0x0407 => some ⟨16, true, false, true, 3⟩
  | 0x0501 => some ⟨68, true, false, true, 1⟩
  | 0x0502 => some ⟨8, true, false, true, 3⟩
  | 0x0503 => some ⟨1, true, false, true, 2⟩
  | _ => none

/-- The status of R432 for a group and a coach state; none where the command is accepted. -/
def grpStatus (grp st : Nat) : Option Nat :=
  match grp with
  | 1 => if st = Cs.vacant ∨ st = Cs.faulted then some Sc.badArg else none
  | 2 => if st = Cs.vacant then some Sc.badArg else none
  | 3 => if st = Cs.running then none else some Sc.badArg
  | _ => none

/-- Every coach is VACANT or HALTED (group Q, R432). -/
def State.allQuiet (s : State) : Bool := s.liveCoaches.all fun c => s.coachState c == Cs.halted

/-- A command asks for an interface that the device does not have (R427). -/
def Cmd.badIfv (c : Cmd) : Bool := c.ifv / 16 != 1 || decide (4 < c.ifv % 16)

/-- The checks of R427 before a command's own checks: the failing status, or none. -/
def State.cmdCheck (s : State) (c : Cmd) : Option Nat :=
  if c.badIfv then some Sc.unsupported
  else match cmdRow c.op with
  | none => some Sc.unsupported
  | some r =>
    if (if c.box < 8 then r.a else if c.box = 8 then r.s else r.c) = false then some Sc.denied
    else if c.arglen < r.len ∨ c.rsv = false then some Sc.badArg
    else if r.grp = Grp.q then (if s.allQuiet then none else some Sc.notHalted)
    else grpStatus r.grp (s.coachState c.coach)

/-- Write the response area, clear OWN and signal the completion (R423, R426). -/
def State.respondAs (s : State) (box coach status applied retry : Nat) (result : List Byte) : State :=
  let b := boxB box
  let a := Memory.read s.mbox b 8
  let r := packFields 16 [(0, 2, fieldLE a 0 2), (2, 1, status), (3, 1, applied), (4, 4, fieldLE a 4 4),
                          (8, 2, result.length % 512), (10, 2, coach % 4096), (12, 4, retry)]
  let m := Memory.write s.mbox (b + 0x200) (padTo 512 (r ++ result))
  let m := SMap.put 0 m (b + 3) (Memory.byte m (b + 3) &&& 0xFE)
  let s := { s with mbox := m, inprog := s.inprog.filter fun p => p.box != box }
  let s := s.count F.mbCmds
  if box < 8 then s.raiseVec (16384 + box)
  else if box = 8 then State.alertCause { s with svc := { s.svc with mbDone := true } } 0 else s.event (box - 16) 1

/-- The response of a command: APPLIED is 1 with OK and 0 with any other status (R433). -/
def State.respond (s : State) (box coach status : Nat) (result : List Byte := []) : State :=
  s.respondAs box coach status (b2n (status == Sc.ok)) 0 result

/-- The wait that RETRY of a BUSY answer carries (R423, R430): the MP's estimate, from 10 to 100,000 µs. -/
def State.retryHint (s : State) : Nat := max 10 (min 100000 (Config.retryEstimate s.free).toNat)

/-- A BUSY answer (R429, R430). -/
def State.respondBusy (s : State) (box coach : Nat) : State :=
  let h := s.retryHint
  ((s.draw).count F.mbBusy).respondAs box coach Sc.busy 0 h []

/-- MP_LOAD: the percent of the last 1 ms that the MP spent on commands and audits (R438). The time that the firmware takes is
no value of the spec: a free value for each millisecond (log entry 105). -/
def State.mpLoad (s : State) : Nat := (Config.mpLoad (s.gcount / 1000000)).toNat % 101

/-- No place is left for a command of this mailbox's kind, or a coach command meets a loaded MP (R429). -/
def State.noPlace (s : State) (box : Nat) : Bool :=
  if box < 16 then decide (32 ≤ (s.inprog.filter fun p => p.box < 16).length)
  else decide (224 ≤ (s.inprog.filter fun p => 16 ≤ p.box).length)
       || ((List.range 9).any (fun b => s.owned b && !s.inProgress b) && decide (90 ≤ s.mpLoad))

/-- Taking a mailbox command with opcode `op` from mailbox `box` (R424-R429): the MP serves mailboxes, the mailbox is the one
it picks next, and the command that stands there has this opcode (or an opcode outside R431, which is answered the same
whichever row takes it: log entry 7). The checks of R427 come before the command's own meaning. -/
def takeCommand (op box : Nat) (own : Cmd → State → State) (s : State) : State :=
  let c := s.cmd box
  if s.mpUp = true ∧ s.chip F.handover = 0 ∧ s.nextBox = some box ∧ (c.op = op ∨ cmdRow c.op = none) then
    let s := if 16 ≤ box then { s with lastCoach := box - 16 } else s
    if s.noPlace box ∨ (1 ≤ s.chip F.pwrStatusState ∧ s.chip F.pwrStatusState ≤ 2 ∧ op ≠ 0x0001 ∧ op ≠ 0x000C) then
      s.respondBusy box c.coach
    else match s.cmdCheck c with
      | some st => s.respond box c.coach st (if c.badIfv then [0x14] else [])
      | none => own c s
  else s

/-- A command that waits for an event stays in progress (R428). -/
def State.inProg (s : State) (c : Cmd) (par : List Nat := []) : State :=
  { s with inprog := s.inprog ++ [{ box := c.box, op := c.op, coach := c.coach, par := par }] }

/-- The oldest command in progress with this opcode that passes a test. -/
def State.findProg (s : State) (op : Nat) (p : InProg → Bool) : Option InProg :=
  s.inprog.find? fun q => q.op == op && !q.due && p q

/-- Answer a command in progress; while the MP is away the answer waits for its return (R434, R435). -/
def State.answer (s : State) (q : InProg) (status : Nat) (result : List Byte := []) : State :=
  if s.chip F.mpDown = 1 then
    { s with inprog := s.inprog.map fun (x : InProg) =>
        if x = q ∧ x.due = false then { x with due := true, status := status, result := result } else x }
  else s.respond q.box q.coach status result

/-- Answer every command in progress with this opcode that passes a test. -/
def State.answerAll (s : State) (op : Nat) (p : InProg → Bool) (status : Nat) (result : List Byte := []) : State :=
  (s.inprog.filter fun q => q.op == op && p q).foldl (fun s q => s.answer q status result) s

/-- Extend measurement register M`k` with a 32-byte digest (R448). -/
def State.extendM (s : State) (k : Nat) (d : List Byte) : State :=
  { s with boot := { s.boot with m := modifyAt s.boot.m k fun m => sha256 (m ++ d) } }

/-- Extend the measurement of a coach (R448). -/
def State.extendCm (s : State) (c : Nat) (d : List Byte) : State :=
  s.modCoach c fun x => { x with cm := sha256 (x.cm ++ d), cmCount := x.cmCount + 1 }

/-- The digest of a command's argument block (R448): the ARGLEN bytes that the caller gave (DEDUCED, log entry 14). -/
def Cmd.digest (c : Cmd) : List Byte := sha256 (c.args.take c.arglen)

/-! ### Translation (R334-R340) -/

/-- Key of a coach page in the tables and caches. -/
def pageKey (coach page : Nat) : Nat := coach * 2 ^ 32 + page

/-- Blocks that translate (R336): the cache of physical core p's DMA is at p and its TD's at 256 + p, the SB's at 200, the port
switch's at 201; the MP's walks go as 202. -/
def Blk.td (p : Nat) : Nat := 256 + p
def Blk.sb : Nat := 200
def Blk.switch : Nat := 201
def Blk.mp : Nat := 202

/-- First page of the sequence aperture (R340). -/
def aperturePage : Nat := 0xFFFFFFE0

/-- Translate one page for a block: from its cache, else from the tables; none where it is refused (R336, R340). -/
def State.xlatePage (s : State) (block coach page : Nat) (write : Bool) : Option Nat :=
  let k := pageKey coach page
  if aperturePage ≤ page then none
  else
    let e := match (SMap.look [] s.xlate.caches block).find? (fun e => e.1 == k) with
      | some e => e.2
      | none => SMap.look 0 s.xlate.map k
    if e % 2 = 1 ∧ (write = true → e / 2 % 2 = 1) then some (e / 4) else none

/-- Translate a coach address to a device physical address. -/
def State.xlateAddr (s : State) (block coach a : Nat) (write : Bool) : Option Nat :=
  (s.xlatePage block coach (a % 2 ^ 48 / 65536) write).map fun p => p * 65536 + a % 65536

/-- The pages that `n` bytes from `a` touch. -/
def pagesOf (a n : Nat) : List Nat := if n = 0 then [] else upFrom (a / 65536) ((a + n - 1) / 65536 - a / 65536 + 1)

/-- Every page of `n` bytes from `a` translates. -/
def State.xlateOk (s : State) (block coach a n : Nat) (write : Bool) : Bool :=
  decide (a + n ≤ 2 ^ 48) && (pagesOf a n).all fun p => (s.xlatePage block coach p write).isSome

/-! ### Device memory (R295-R314) -/

/-- The regions whose frames hold a frame; region entries are the REGION registers (R322). -/
def State.regionOf (s : State) (frame : Nat) : Option Nat :=
  firstBelow 64 fun r => s.get (regionB r) F.regionValid == 1 && s.get (regionB r) F.regionFbase ≤ frame
    && frame < s.get (regionB r) F.regionFbase + s.get (regionB r) F.regionFcount

/-- A frame serves as a mirror. -/
def State.isMirror (s : State) (frame : Nat) : Bool :=
  (List.range 64).any fun r => s.get (regionB r) F.regionValid == 1 && s.get (regionB r) F.regionMstate != 0
    && s.get (regionB r) F.regionMbase ≤ frame
    && frame < s.get (regionB r) F.regionMbase + s.get (regionB r) F.regionFcount

/-- The region of a device physical address. -/
def State.regionAt (s : State) (a : Nat) : Option Nat := if a < 640 * 2 ^ 30 then s.regionOf (a / 2 ^ 30) else none

/-- `n` bytes from `a` lie wholly in one valid region; which. -/
def State.oneRegion (s : State) (a n : Nat) : Option Nat :=
  match s.regionAt a with
  | none => none
  | some r => if n = 0 ∨ s.regionAt (a + n - 1) = some r then some r else none

/-- The stack and pseudo-channel of an address (R299, R300), by its region's form; unmapped addresses go as HASHED (R301). -/
def State.place (s : State) (a : Nat) : Nat × Nat :=
  let g := a / 256 % 2 ^ 22
  let near := match s.regionAt a with
    | some r => if s.get (regionB r) F.regionForm = 1 then some (s.get (regionB r) F.regionQuad) else none
    | none => none
  match near with
  | none =>
    let p := bits g 0 9 ^^^ bits g 9 9 ^^^ bits g 18 4
    (p % 8, p / 8)
  | some q =>
    let x := bits g 0 7 ^^^ bits g 7 7 ^^^ bits g 14 7 ^^^ bits g 21 1
    let (lo, hi) := nearStacks q
    (if x % 2 = 0 then lo else hi, x / 2)

/-! ### The translation tables in the store (R334, R336) -/

/-- Device address of a table of the lower levels; those of level 1 stand before them in the store. -/
def State.tableAt (s : State) (n : Nat) : Nat := s.boot.ttStore + 32768 * (4096 + n)

/-- Keys of the level-2 and the level-3 table that translate a page. -/
def table2 (k : Nat) : Nat := 2 * (k / 2 ^ 24)
def table3 (k : Nat) : Nat := 2 * (k / 2 ^ 12) + 1

/-- Device addresses of the entries that translate a page, level by level, as far as tables stand. -/
def State.tableEntries (s : State) (coach page : Nat) : List Nat :=
  let k := pageKey coach page
  let l1 := s.get (coachB coach) F.coachTtBase + 8 * (page / 2 ^ 24)
  match SMap.look 0 s.xlate.tables (table2 k) with
  | 0 => [l1]
  | n + 1 =>
    let l2 := s.tableAt n + 8 * (page / 2 ^ 12 % 4096)
    match SMap.look 0 s.xlate.tables (table3 k) with
    | 0 => [l1, l2]
    | n + 1 => [l1, l2, s.tableAt n + 8 * (page % 4096)]

/-- The fine access of a walk to one entry counts at its controller (R336, R325). -/
def State.tableAccess (s : State) (a : Nat) : State :=
  let b := mcB (s.place a).1
  (s.bump b F.mcFineOps).bump b F.mcBytesRd 32

/-- The walk that a miss costs: XLATE_MISS advances, the levels are read in turn, and a valid entry fills the block's cache of 64
entries; the MP keeps none (R336). -/
def State.walk (s : State) (block coach page : Nat) : State :=
  let k := pageKey coach page
  let c := SMap.look [] s.xlate.caches block
  if c.any (fun e => e.1 == k) || aperturePage ≤ page then s
  else
    let e := SMap.look 0 s.xlate.map k
    let s := (s.tableEntries coach page).foldl (fun s a => s.tableAccess a) (s.bump (coachB coach) F.coachXlateMiss)
    if e % 2 = 1 ∧ block ≠ Blk.mp then
      { s with xlate := { s.xlate with caches := SMap.put [] s.xlate.caches block (((k, e) :: c).take 64) } }
    else s

/-- The walks of an access over `n` bytes; a refusal advances XLATE_DENY once. -/
def State.walkRange (s : State) (block coach a n : Nat) (write : Bool) : State :=
  let s := (pagesOf a n).foldl (fun s p => s.walk block coach p) s
  if (pagesOf a n).all (fun p => (s.xlatePage block coach p write).isSome) then s
  else s.bump (coachB coach) F.coachXlateDeny

/-- The primary copy of a line is bad; the mirror copy is bad (R309, R314). -/
def State.lineBad (s : State) (line : Nat) : Nat := SMap.look 0 s.hbm.bad line

/-- A region keeps a complete mirror (R313). -/
def State.mirrored (s : State) (r : Nat) : Bool := decide (2 ≤ s.get (regionB r) F.regionMstate)

/-- The stack is in service: one that has failed, or is not trained, answers POISON (R418). -/
def State.trained (s : State) (m : Nat) : Bool := s.get (mcB m) F.mcTrained == 1

/-- The stack that holds the mirror copy of an address (R313). -/
def State.mirrorStack (s : State) (a : Nat) : Nat :=
  let m := (s.place a).1
  match s.regionAt a with
  | none => m
  | some r =>
    if s.get (regionB r) F.regionForm = 0 then m ^^^ 4
    else
      let (lo, hi) := nearStacks (s.get (regionB r) F.regionQuad)
      if m = lo then hi else lo

/-- The primary copy of a line cannot be read: it is bad, or its stack is out of service. -/
def State.primaryGone (s : State) (line : Nat) : Bool :=
  bit (s.lineBad line) 0 || !s.trained (s.place (64 * line)).1

/-- The mirror copy of a line cannot be read. -/
def State.mirrorGone (s : State) (line : Nat) : Bool :=
  bit (s.lineBad line) 1 || !s.trained (s.mirrorStack (64 * line))

/-- A read of a line by a device block answers POISON: its primary copy cannot be read and no good copy stands beside it
(R310, R314, R418). -/
def State.linePoisoned (s : State) (line : Nat) : Bool :=
  match s.regionAt (64 * line) with
  | none => true
  | some r => s.primaryGone line && !(s.mirrored r && !s.mirrorGone line)

/-- Some line of `n` bytes from `a` answers POISON. -/
def State.poisoned (s : State) (a n : Nat) : Bool :=
  n != 0 && (upFrom (a / 64) ((a + n - 1) / 64 - a / 64 + 1)).any s.linePoisoned

/-- Bytes of device memory. -/
def State.memRead (s : State) (a n : Nat) : List Byte := Memory.read s.hbm.bytes a n

/-- Little-endian value of device memory. -/
def State.memNat (s : State) (a n : Nat) : Nat := leNat (s.memRead a n)

/-- Store bytes to device memory. A write of a whole 64-byte line clears its poison (R310). -/
def State.memWrite (s : State) (a : Nat) (l : List Byte) : State :=
  let n := l.length
  let whole := (upFrom ((a + 63) / 64) ((a + n) / 64 - (a + 63) / 64)).filter fun k => a ≤ 64 * k && 64 * k + 64 ≤ a + n
  { s with hbm := { s.hbm with bytes := Memory.write s.hbm.bytes a l
                               bad := whole.foldl (fun b k => SMap.put 0 b k 0) s.hbm.bad } }

/-- Bytes of a coach's memory as a block reads them, page by page: none where the address is refused. -/
def State.coachRead (s : State) (block coach a n : Nat) : Option (List Byte) :=
  if s.xlateOk block coach a n false then
    some ((pagesOf a n).flatMap fun p =>
      let lo := max a (p * 65536)
      let hi := min (a + n) ((p + 1) * 65536)
      match s.xlatePage block coach p false with
      | some q => s.memRead (q * 65536 + lo % 65536) (hi - lo)
      | none => [])
  else none

/-- Some line of a coach range answers POISON. -/
def State.coachPoisoned (s : State) (block coach a n : Nat) : Bool :=
  (pagesOf a n).any fun p =>
    let lo := max a (p * 65536)
    let hi := min (a + n) ((p + 1) * 65536)
    match s.xlatePage block coach p false with
    | some q => s.poisoned (q * 65536 + lo % 65536) (hi - lo)
    | none => false

/-- Little-endian value of coach memory; 0 where it is refused. -/
def State.coachNat (s : State) (block coach a n : Nat) : Nat :=
  match s.coachRead block coach a n with
  | some l => leNat l
  | none => 0

/-- Store bytes to coach memory, page by page; refused bytes are not written. -/
def State.coachWrite (s : State) (block coach a : Nat) (l : List Byte) : State :=
  (pagesOf a l.length).foldl (fun s p =>
    let lo := max a (p * 65536)
    let hi := min (a + l.length) ((p + 1) * 65536)
    match s.xlatePage block coach p true with
    | some q => s.memWrite (q * 65536 + lo % 65536) ((l.drop (lo - a)).take (hi - lo))
    | none => s) s

end Sys2Proof.Machine
end

