-- ==== Sys2Proof/Machine/Controllers.lean ====
section
/-!
DEFINITION. The memory controllers: unmapped requests (R301), regulators (R307), ECC, poison and mirrors (R309-R314), row
retirement (R312), bulk and fine service (R303, R304) and memory-side additions (R305, R306).
-/
namespace Sys2Proof.Machine

/-- MC_ERR takes a cause and the event log a record of it (R321, R324). -/
def State.mcErr (s : State) (m c a cause cls sev : Nat) : State :=
  let w := captureWord cause [(F.mcErrPc, c), (F.mcErrAddr, a / 64 * 64)]
  (s.capture (mcB m + 8) w).raise { cls := cls, sev := sev, cause := cause, unit := 8, inst := m, capture := w
                                    detail := leBytes 8 (a / 64 * 64) }

/-- The address lies in a region that keeps, or is making, a mirror copy (R313). -/
def State.hasMirror (s : State) (a : Nat) : Bool :=
  match s.regionAt a with
  | none => false
  | some r => s.get (regionB r) F.regionMstate != 0

/-- The lines of 64 bytes that `n` bytes from `a` touch. -/
def linesOf (a n : Nat) : List Nat := if n = 0 then [] else upFrom (a / 64) ((a + n - 1) / 64 - a / 64 + 1)

/-- A request that names an unmapped or a mirror frame: nothing is performed (R301). Its first such address. -/
def State.unmapped (s : State) (a n : Nat) : Option Nat :=
  if (s.regionAt a).isNone then some a
  else if (s.regionAt (a + n - 1)).isNone then some (a + n - 1) else none

/-- The UNMAPPED answer (R301): the controller of the HASHED mapping counts and captures it. -/
def State.answerUnmapped (s : State) (a : Nat) : State :=
  let g := a / 256 % 2 ^ 22
  let p := bits g 0 9 ^^^ bits g 9 9 ^^^ bits g 18 4
  (s.bump (mcB (p % 8)) F.mcUnmapped).mcErr (p % 8) (p / 8) a 0x64 7 1

/-! ### Regulators (R307, R308) -/

/-- Tokens of class `k` at controller `m` now, in 1/327,680 bytes: RATE × 12,288 more each cycle, up to BURST KiB. -/
def State.tokens (s : State) (m k : Nat) : Int :=
  let b := mcregB m k
  let t := SMap.look 0 s.hbm.bucket (16 * m + k)
  let dt := s.gcount - SMap.look 0 s.hbm.bucketAt (16 * m + k)
  min (t + (12288 * s.get b F.mcregRate * dt : Nat)) ((1024 * 327680 * s.get b F.mcregBurst : Nat) : Int)

/-- A bulk request of class `k` may start at controller `m`: the class is unregulated, may use idle slots, or holds tokens. -/
def State.mayStart (s : State) (m k : Nat) : Bool :=
  decide (16 ≤ k) || s.get (mcregB m k) F.mcregEn == 0 || s.get (mcregB m k) F.mcregShare == 1 || decide (0 < s.tokens m k)

/-- The bucket of class `k` at controller `m` holds `t` tokens now. -/
def State.setBucket (s : State) (m k : Nat) (t : Int) : State :=
  { s with hbm := { s.hbm with bucket := SMap.put 0 s.hbm.bucket (16 * m + k) t
                               bucketAt := SMap.put 0 s.hbm.bucketAt (16 * m + k) s.gcount } }

/-- The tokens gained so far are booked at the settings in force, before a new RATE or BURST acts (R308). -/
def State.settleBucket (s : State) (m k : Nat) : State := s.setBucket m k (s.tokens m k)

/-- `n` bytes of class `k` move at controller `m`: CLASS_BYTES, and tokens where the class is regulated; a bulk request takes
the bucket no lower than -4,096 bytes, and one that is lower stands. -/
def State.charged (s : State) (m k n : Nat) (fine : Bool) : State :=
  if 16 ≤ k then s
  else
    let s := s.bump (mcbytesB m k) F.mcbytesClassBytes n
    if s.get (mcregB m k) F.mcregEn = 0 then s
    else
      let t := s.tokens m k
      let u := t - (327680 * n : Nat)
      s.setBucket m k (if fine then u else max u (min t (-(4096 * 327680 : Int))))

/-- The bytes of a request by granule: address and length of each piece. -/
def piecesOf (a n : Nat) : List (Nat × Nat) :=
  if n = 0 then []
  else (upFrom (a / 256) ((a + n - 1) / 256 - a / 256 + 1)).map fun g =>
    let lo := max a (256 * g)
    (lo, min (a + n) (256 * g + 256) - lo)

/-- Every controller that a bulk request reaches may start it. -/
def State.mayStartAll (s : State) (a n k : Nat) : Bool := (piecesOf a n).all fun p => s.mayStart (s.place p.1).1 k

/-- Bytes read are counted at each controller, and charged to the class. -/
def State.countRead (s : State) (a n k : Nat) (fine : Bool) : State :=
  (piecesOf a n).foldl (fun s p =>
    let m := (s.place p.1).1
    (s.bump (mcB m) F.mcBytesRd p.2).charged m k p.2 fine) s

/-- Bytes written are counted at each controller, mirror copies included, and charged to the class. -/
def State.countWrite (s : State) (a n k : Nat) (fine : Bool) : State :=
  (piecesOf a n).foldl (fun s p =>
    let m := (s.place p.1).1
    let s := (s.bump (mcB m) F.mcBytesWr p.2).charged m k p.2 fine
    if s.hasMirror p.1 then s.bump (mcB (s.mirrorStack p.1)) F.mcBytesWr p.2 else s) s

/-! ### Credits of bulk requests (R20, R21) -/

/-- The carts that carry a chunk's requests, by controller: one with the read requests for its granules, at most 8, or one for
each 256 bytes of write data (log entry 93). -/
def State.bulkCarts (s : State) (ps : List (Nat × Nat)) (write : Bool) : List (Nat × Nat) :=
  let ms := (ps.flatMap fun x => piecesOf x.1 x.2).map fun p => (s.place p.1).1
  ms.eraseDups.map fun m => let k := (ms.filter (· == m)).length
    (m, if write then k else (k + 7) / 8)

/-- A core holds the credits that a chunk's requests need. -/
def State.bulkRoom (s : State) (core : Nat) (ps : List (Nat × Nat)) (write : Bool) : Bool :=
  (s.bulkCarts ps write).all fun x => decide (x.2 ≤ s.noc.room (Qk.bulk core x.1))

/-- The carts of a chunk's requests leave for their controllers. -/
def State.bulkSend (s : State) (core : Nat) (ps : List (Nat × Nat)) (write : Bool) : State :=
  (s.bulkCarts ps write).foldl (fun s x => (List.range x.2).foldl (fun s _ =>
    s.qSend (Qk.bulk core x.1) Ch.bulkReq (End.core core) (End.near core (.mc x.1))) s) s

/-- The controllers move the carts of a chunk's requests into their schedulers (R21). -/
def State.bulkAccepted (s : State) (core : Nat) (ps : List (Nat × Nat)) (write : Bool) : State :=
  (s.bulkCarts ps write).foldl (fun s x => s.qLeave (Qk.bulk core x.1) x.2) s

/-! ### The queues of a pseudo-channel (R303) -/

/-- A bulk request waits at a pseudo-channel: a tag whose chunk reaches it has not been answered. -/
def State.bulkWaits (s : State) (m c : Nat) : Bool :=
  s.cores.any fun e => e.2.tags.any fun t => t.2.answer.isNone && t.2.desc.aspace != 2
    && t.2.pieces.any fun x => (piecesOf x.1 x.2).any fun p => s.place p.1 == (m, c)

/-- Fine accesses of `n` bytes from `a` are served: FINE_OPS, and the burst slots that they take from waiting bulk work. -/
def State.countFine (s : State) (a n : Nat) : State :=
  (piecesOf a n).foldl (fun s p =>
    let x := s.place p.1
    let k := (p.2 + 31) / 32
    let s := s.bump (mcB x.1) F.mcFineOps k
    if s.bulkWaits x.1 x.2 then s.bump (mcB x.1) F.mcCycFinepri k else s) s

/-- A stack takes no request now: it is margined (R318), or a loop-back runs on it (R492). -/
def State.stackHeld (s : State) (m : Nat) : Bool := bit s.hbm.margin m || s.get (lbHbmB m) F.lbActive == 1

/-- Some stack that a request reaches takes no request now: the request waits. -/
def State.rangeHeld (s : State) (a n : Nat) : Bool := (piecesOf a n).any fun p => s.stackHeld (s.place p.1).1

/-! ### Row retirement (R312) -/

/-- The lines of the 1 KiB row that holds an address: four granule slots of its frame on its pseudo-channel (R299, R300). -/
def State.rowLines (s : State) (a : Nat) : List Nat :=
  let here := s.place a
  let g := a / 256 % 2 ^ 22
  let near := match s.regionAt a with
    | some r => s.get (regionB r) F.regionForm == 1
    | none => false
  let w := if near then 7 else 9
  let hi := g / 2 ^ (w + 2) * 2 ^ (w + 2)
  let base := a / 2 ^ 30 * 2 ^ 22
  ((List.range (2 ^ (w + 2))).filter fun x => s.place (256 * (base + hi + x)) == here).flatMap fun x =>
    upFrom (4 * (base + hi + x)) 4

/-- The key of a row of a pseudo-channel. -/
def rowKey (m c row : Nat) : Nat := 2 ^ 24 * (64 * m + c) + row

/-- Retire a row of stack `m` into a spare (R312): it holds copies of `lines`, their primary copies (`copy` 1) or their mirror
copies (2). A bad copy comes from the other copy where that one is good and its stack in service; others stay poisoned. With no
spare left the row stays in service. -/
def State.retireRow (s : State) (m c row a copy : Nat) (lines : List Nat) : State :=
  let used := SMap.look 0 s.hbm.spares (64 * m + c)
  let s := { s with hbm := { s.hbm with corrected := SMap.put 0 s.hbm.corrected (rowKey m c row) 0 } }
  if 16 ≤ used then s.mcErr m c a 0x66 0 0
  else
    let other (l : Nat) : Nat := if copy = 1 then s.mirrorStack (64 * l) else (s.place (64 * l)).1
    let bad := lines.foldl (fun b l =>
      match s.regionAt (64 * l) with
      | some r => if SMap.look 0 b l = copy ∧ s.mirrored r = true ∧ s.trained (other l) = true then SMap.put 0 b l 0 else b
      | none => b) s.hbm.bad
    let s := { s with hbm := { s.hbm with bad := bad, spares := SMap.put 0 s.hbm.spares (64 * m + c) (used + 1) } }
    let most := (List.range 64).foldl (fun x d => max x (SMap.look 0 s.hbm.spares (64 * m + d))) 0
    let s := (s.set (mcB m) F.mcSparesLeft (16 - most)).bump (mcB m) F.mcRowsRetired
    s.raise { cls := 7, sev := 2, cause := 0x81, unit := 8, inst := m
              detail := [Byte.ofNat m, Byte.ofNat c, 0, 0] ++ leBytes 4 row }

/-! ### ECC, poison and mirrors (R309, R310, R313, R314) -/

/-- Mark copies of a line bad: 1 primary, 2 mirror. -/
def State.markBad (s : State) (l k : Nat) : State :=
  { s with hbm := { s.hbm with bad := SMap.modify 0 s.hbm.bad l (· ||| k) } }

/-- Queue the rebuild of a bad copy of a line: its region is DEGRADED while rebuilds are pending (R313, R314). -/
def State.queueRebuild (s : State) (l : Nat) : State :=
  match s.regionAt (64 * l) with
  | none => s
  | some r =>
    if s.hbm.rebuild.any (·.1 == l) then s
    else
      let s := { s with hbm := { s.hbm with rebuild := s.hbm.rebuild ++ [(l, r)] } }
      let s := s.bump (regionB r) F.regionRebuilds
      if s.get (regionB r) F.regionMstate = 2 then s.set (regionB r) F.regionMstate 3 else s

/-- Mark copies of a line bad where they are not yet: an uncorrectable error has been found in copy `k` at stack `m`. -/
def State.foundBad (s : State) (m l k : Nat) : State := (s.markBad l k).bump (mcB m) F.mcEccUncorr

/-- A corrected error of a row: the fourth of one patrol retires it (R309, R312). -/
def State.corrected (s : State) (m c row a copy : Nat) (lines : List Nat) : State :=
  let n := SMap.look 0 s.hbm.corrected (rowKey m c row) + 1
  let s := ({ s with hbm := { s.hbm with corrected := SMap.put 0 s.hbm.corrected (rowKey m c row) n } } : State).bump
    (mcB m) F.mcEccCorr
  if 4 ≤ n then s.retireRow m c row a copy lines else s

/-- The mirror copy of a line is met with an uncorrectable error (R309, R314): it is counted and recorded where it lies. -/
def State.mirrorFound (s : State) (l : Nat) : State :=
  let m := s.mirrorStack (64 * l)
  if bit (s.lineBad l) 1 then s else (s.foundBad m l 2).mcErr m (s.place (64 * l)).2 (64 * l) 0x61 7 0

/-- The error that stands in a line is met, and goes with the read that meets it. -/
def State.takeLatent (s : State) (l : Nat) : State := { s with hbm := { s.hbm with latent := SMap.put {} s.hbm.latent l {} } }

/-- A controller reads one line (R309, R314): the state after it, and whether it answers POISON. What the read finds is given
with it, or stands in the line. -/
def State.readLine (s : State) (l : Nat) (f : MemFind) : State × Bool :=
  let a := 64 * l
  let m := (s.place a).1
  let c := (s.place a).2
  let f := if f.ecc = 0 ∧ f.mirrorBad = false then SMap.look f s.hbm.latent l else f
  let s := s.takeLatent l
  let old := s.lineBad l
  let mir := s.hasMirror a
  let s := if f.mirrorBad ∧ mir = true then s.mirrorFound l else s
  let fresh := f.ecc == 2 && !bit old 0
  let s := if f.ecc = 1 ∧ bit old 0 = false then s.corrected m c f.row a 1 (s.rowLines a) else s
  let s := if fresh then s.foundBad m l 1 else s
  let cause := if fresh then 0x61 else 0x62
  let done : Bool := match s.regionAt a with
    | some r => s.mirrored r || (s.get (regionB r) F.regionMstate == 1 && f.copied)
    | none => false
  let r : State × Bool :=
    if s.primaryGone l = false then (s, false)
    else if done ∧ s.mirrorGone l = false then
      let s := if s.trained m then s.queueRebuild l else s
      ((s.bump (mcB m) F.mcMirrorFixes).mcErr m c a cause 7 0, false)
    else if s.trained m = false then (s.bump (mcB m) F.mcPoisonResp, true)
    else if done then
      let s := if fresh then s.mcErr m c a 0x61 7 1 else s
      ((s.mcErr m c a 0x63 7 1).bump (mcB m) F.mcPoisonResp, true)
    else ((s.mcErr m c a cause 7 1).bump (mcB m) F.mcPoisonResp, true)
  if fresh then (r.1.retireRow m c f.row a 1 (r.1.rowLines a), r.2) else r

/-- A controller reads `n` bytes from `a`; the offsets of the lines that answer POISON. -/
def State.readLines (s : State) (a n : Nat) (f : MemFind) : State × List Nat :=
  (linesOf a n).foldl (fun (r : State × List Nat) l =>
    let hit := (a + f.off) / 64 == l
    let q := r.1.readLine l (if hit then f else {})
    (q.1, if q.2 then r.2 ++ [64 * l - a / 64 * 64] else r.2)) (s, [])

/-- A line has been written: its error and its poison are gone, and a rebuild that waits for it is dropped (R310, R320). -/
def State.cureLine (s : State) (l : Nat) : State :=
  let s := s.takeLatent l
  let s := { s with hbm := { s.hbm with bad := SMap.put 0 s.hbm.bad l 0 } }
  match s.hbm.rebuild.find? fun x => x.1 == l with
  | none => s
  | some x =>
    let s := { s with hbm := { s.hbm with rebuild := s.hbm.rebuild.filter fun y => y.1 != l } }
    let s := s.drop (regionB x.2) F.regionRebuilds
    if s.get (regionB x.2) F.regionMstate = 3 ∧ s.get (regionB x.2) F.regionRebuilds = 0 then
      s.set (regionB x.2) F.regionMstate 2 else s

/-- A controller writes one line's share of a request (R304, R310): a whole line clears poison; part of a line reads the line
first, and is not performed where that answers POISON. `poison` marks words of the source poisoned: the line takes the poison
pattern. True where it answers POISON. -/
def State.writeLine (s : State) (l a : Nat) (data : List Byte) (poison : Bool) : State × Bool :=
  let lo := max a (64 * l)
  let hi := min (a + data.length) (64 * l + 64)
  let (m, _) := s.place (64 * l)
  if s.trained m = false ∧ (s.hasMirror (64 * l) = false ∨ s.trained (s.mirrorStack (64 * l)) = false) then
    (s.bump (mcB m) F.mcPoisonResp, true)
  else if poison then (s.markBad l (if s.hasMirror (64 * l) then 3 else 1), false)
  else
    let r := if hi - lo < 64 then s.readLine l {} else (s, false)
    if r.2 then r else ((r.1.memWrite lo ((data.drop (lo - a)).take (hi - lo))).cureLine l, false)

/-- A controller writes `data` from `a`; whether some line answers POISON. -/
def State.writeLines (s : State) (a : Nat) (data : List Byte) (bad : List Nat) : State × Bool :=
  (linesOf a data.length).foldl (fun (r : State × Bool) l =>
    let p := bad.any fun o => (a + o) / 64 == l
    let q := r.1.writeLine l a data p
    (q.1, r.2 || q.2)) (s, false)

/-! ### Requests -/

/-- The offsets, among `n` bytes from `a`, of the words of a line that starts at `a / 64 * 64 + o` (R310). -/
def lineWords (a n o : Nat) : List Nat :=
  (upFrom ((a / 64 * 64 + o) / 8) 8).filterMap fun w => if a ≤ 8 * w ∧ 8 * w < a + n then some (8 * w - a) else none

/-- A read served by the controllers: status, the bytes, and the offsets of poisoned lines. -/
def State.mcRead (s : State) (a n k : Nat) (fine : Bool) (f : MemFind) : State × Nat × List Byte × List Nat :=
  match s.unmapped a n with
  | some u => (s.answerUnmapped u, Sc.denied, [], [])
  | none =>
    let s := s.countRead a n k fine
    let s := if fine then s.countFine a n else s
    let r := s.readLines a n f
    (r.1, if r.2 = [] then Sc.ok else Sc.poison, r.1.memRead a n, r.2)

/-- A write served by the controllers: its status. -/
def State.mcWrite (s : State) (a k : Nat) (fine : Bool) (data : List Byte) (bad : List Nat) : State × Nat :=
  match s.unmapped a data.length with
  | some u => (s.answerUnmapped u, Sc.denied)
  | none =>
    let s := s.countWrite a data.length k fine
    let s := if fine then s.countFine a data.length else s
    let r := s.writeLines a data bad
    (r.1, if r.2 then Sc.poison else Sc.ok)

/-- Held nanoseconds are counted at the controller of the request's first byte (R307). -/
def State.countHeld (s : State) (a n : Nat) : State :=
  if n = 0 then s else s.bump (mcB (s.place a).1) F.mcCycReghold n

/-! ### Memory-side adders (R305, R306) -/

/-- The bytes of an element of each ADD type. -/
def addWidth (ty : Nat) : Nat := match ty with | 0 => 4 | 1 => 8 | 2 => 4 | _ => 2

/-- The sum of two elements (R305). -/
def addElement (ty x y : Nat) : Nat :=
  match ty with
  | 0 => (x + y) % 2 ^ 32
  | 1 => (x + y) % 2 ^ 64
  | 2 => (f32Add (BitVec.ofNat 32 x) (BitVec.ofNat 32 y)).toNat
  | _ => (f32ToBf (f32Add (BF.toF32 (BitVec.ofNat 16 x)) (BF.toF32 (BitVec.ofNat 16 y)))).toNat

/-- The granule after an ADD: enabled elements are added, the others stand (R305). -/
def addGranule (ty mask : Nat) (old add : List Byte) : List Byte :=
  let w := addWidth ty
  (List.range (32 / w)).flatMap fun i =>
    let x := fieldLE old (w * i) w
    leBytes w (if bit mask i then addElement ty x (fieldLE add (w * i) w) else x)

/-- An ADD at a controller (R305, R306, R310): the state, the status, and the old granule. -/
def State.mcAdd (s : State) (r : AddReq) (f : MemFind) : State × Nat × List Byte :=
  let a := r.addr / 32 * 32
  match s.unmapped a 32 with
  | some u => (s.answerUnmapped u, Sc.denied, [])
  | none =>
    let (m, c) := s.place a
    if 2 ≤ r.ty ∧ s.strict = true then (s.mcErr m c a 0x65 0 0, Sc.unsupported, [])
    else
      let s := (s.countRead a 32 r.cls true).countFine a 32
      let q := s.readLine (a / 64) f
      if q.2 then (q.1, Sc.poison, [])
      else
        let old := q.1.memRead a 32
        let s := (q.1.memWrite a (addGranule r.ty r.mask old (padTo 32 r.data))).bump (mcB m) F.mcAdds
        let s := s.bump (mcB m) F.mcBytesWr 32
        let s := if s.hasMirror a then s.bump (mcB (s.mirrorStack a)) F.mcBytesWr 32 else s
        (s.cureLine (a / 64), Sc.ok, old)

end Sys2Proof.Machine
end

