-- ==== Sys2Proof/Machine/Operands.lean ====
section
/-!
DEFINITION. The fields of the structures in memory: carriages (R253), layer descriptors (R251) with their precision,
attention and predictor fields (R121, R177, R241), and sequence entries (R224, R225).
-/
namespace Sys2Proof.Machine

/-! ### Carriages (R253) -/

def Ca.kind (c : List Byte) : Nat := fieldLE c 0 1
def Ca.te (c : List Byte) : Nat := bits (fieldLE c 1 1) 0 2
def Ca.mrows (c : List Byte) : Bool := bit (fieldLE c 1 1) 2
def Ca.append (c : List Byte) : Bool := bit (fieldLE c 1 1) 3
def Ca.layer (c : List Byte) : Nat := fieldLE c 2 2
def Ca.lcore (c : List Byte) : Nat := bits (fieldLE c 4 1) 0 7
def Ca.chain (c : List Byte) : Nat := fieldLE c 6 2
def Ca.pos (c : List Byte) : Nat := fieldLE c 8 1
def Ca.lenm1 (c : List Byte) : Nat := fieldLE c 9 1
def Ca.nextCore (c : List Byte) : Nat := bits (fieldLE c 10 2) 0 7
def Ca.nextTe (c : List Byte) : Nat := bits (fieldLE c 10 2) 7 2
def Ca.remote (c : List Byte) : Bool := bit (fieldLE c 10 2) 9
def Ca.node (c : List Byte) : Nat := fieldLE c 12 2
def Ca.tile0 (c : List Byte) : Nat := fieldLE c 16 4
def Ca.ntile (c : List Byte) : Nat := bits (fieldLE c 20 2) 0 11
def Ca.gfirst (c : List Byte) : Nat := bits (fieldLE c 22 1) 0 5
def Ca.ngroup (c : List Byte) : Nat := bits (fieldLE c 23 1) 0 6
/-- The SPM addresses A0 to A3. -/
def Ca.a (c : List Byte) (i : Nat) : Nat := fieldLE c (24 + 4 * i) 4
def Ca.aux (c : List Byte) : Nat := bits (fieldLE c 40 8) 0 48
def Ca.nin (c : List Byte) : Nat := fieldLE c 56 2
def Ca.nout (c : List Byte) : Nat := fieldLE c 58 2
def Ca.outofs (c : List Byte) : Nat := fieldLE c 60 4
def Ca.param (c : List Byte) : Nat := fieldLE c 64 8
/-- No SPM address. -/
def Ca.noAddr : Nat := 0xFFFFFFFF

/-- Carriage kinds (R254). -/
def Kd.dense : Nat := 0x01
def Kd.delta : Nat := 0x02
def Kd.adapter : Nat := 0x03
def Kd.pred : Nat := 0x04
def Kd.vu : Nat := 0x10
def Kd.attn : Nat := 0x20
def Kd.merge : Nat := 0x21
def Kd.copy : Nat := 0x30
def Kd.wstage : Nat := 0x31
def Kd.embed : Nat := 0x32
def Kd.push : Nat := 0x33
def Kd.nop : Nat := 0x3F

/-- A kind that runs on a ternary engine. -/
def Ca.isTe (c : List Byte) : Bool := decide (1 ≤ Ca.kind c ∧ Ca.kind c ≤ 4)

/-- A kind that runs on the log engine. -/
def Ca.isLe (c : List Byte) : Bool := decide (Ca.kind c = Kd.attn ∨ Ca.kind c = Kd.merge)

/-- A carriage that is part of a drawbar chain (R161, R258): base and delta carriages. -/
def Ca.inChain (c : List Byte) : Bool := decide (Ca.kind c = Kd.dense ∨ Ca.kind c = Kd.delta)

/-! ### Layer descriptors (R251) -/

def Ld.host (l : List Byte) : Bool := bit (fieldLE l 0 1) 0
def Ld.ovlEn (l : List Byte) : Bool := bit (fieldLE l 0 1) 1
def Ld.attn (l : List Byte) : Bool := bit (fieldLE l 0 1) 2
def Ld.pred (l : List Byte) : Bool := bit (fieldLE l 0 1) 3
def Ld.eps (l : List Byte) : BitVec 32 := BitVec.ofNat 32 (fieldLE l 4 4)
def Ld.wblk (l : List Byte) : Nat := bits (fieldLE l 8 8) 0 48
def Ld.widx (l : List Byte) : Nat := bits (fieldLE l 16 8) 0 48
def Ld.cscale (l : List Byte) : Nat := bits (fieldLE l 24 8) 0 48
def Ld.prec (l : List Byte) : List Byte := (l.drop 32).take 16
def Ld.gamma (l : List Byte) : Nat := bits (fieldLE l 80 8) 0 48
def Ld.beta (l : List Byte) : Nat := bits (fieldLE l 88 8) 0 48
def Ld.astride (l : List Byte) : Nat := fieldLE l 96 2
def Ld.nkstep (l : List Byte) : Nat := fieldLE l 98 2

/-- The attention field (R177). -/
def At.nkv (l : List Byte) : Nat := bits (fieldLE l 48 2) 0 9
def At.gqc (l : List Byte) : Nat := bits (fieldLE l 50 1) 0 2
/-- Query heads per KV head. -/
def At.g (l : List Byte) : Nat := 2 ^ At.gqc l
def At.chunk64 (l : List Byte) : Nat := bits (fieldLE l 51 1) 0 7
/-- Tokens of a chunk. -/
def At.chunkLen (l : List Byte) : Nat := 64 * (if At.chunk64 l = 0 then 16 else At.chunk64 l)
def At.sigma (l : List Byte) : Int := signed 12 (bits (fieldLE l 52 2) 0 12)
def At.apart (l : List Byte) : Nat := fieldLE l 54 1
def At.rope (l : List Byte) : Bool := bit (fieldLE l 55 1) 0
def At.freqPtr (l : List Byte) : Nat := bits (fieldLE l 56 8) 0 48
def At.kstream (l : List Byte) : Nat := fieldLE l 64 4
def At.vstream (l : List Byte) : Nat := fieldLE l 68 4

/-- The predictor field (R241). -/
def Pd.en (l : List Byte) : Bool := bit (fieldLE l 48 1) 0
def Pd.nblk (l : List Byte) : Nat := fieldLE l 49 1
def Pd.thr (l : List Byte) : Int := signed 16 (fieldLE l 50 2)
def Pd.missEps (l : List Byte) : Nat := fieldLE l 52 2
def Pd.missThr (l : List Byte) : Nat := fieldLE l 54 2
def Pd.pblk (l : List Byte) : Nat := bits (fieldLE l 56 8) 0 48
def Pd.pidx (l : List Byte) : Nat := bits (fieldLE l 64 8) 0 48

/-! ### Sequence entries (R224, R225) -/

/-- A field of a sequence entry: its bytes, its lowest bit in them, its width. -/
structure EntF where
  off : Nat
  len : Nat
  lo : Nat
  w : Nat
deriving DecidableEq, Repr

def Se.graph : EntF := ⟨0, 2, 0, 16⟩
def Se.ovname : EntF := ⟨2, 2, 0, 14⟩
def Se.ovl : EntF := ⟨2, 2, 15, 1⟩
def Se.kvfmt : EntF := ⟨4, 1, 0, 2⟩
def Se.exportBit : EntF := ⟨4, 1, 2, 1⟩
def Se.listlen : EntF := ⟨8, 4, 0, 32⟩
def Se.kvdir : EntF := ⟨16, 8, 0, 48⟩
def Se.inAddr : EntF := ⟨24, 8, 0, 48⟩
def Se.gen : EntF := ⟨32, 4, 0, 32⟩
def Se.ntok : EntF := ⟨36, 2, 0, 10⟩
def Se.lastTok : EntF := ⟨36, 2, 10, 1⟩
def Se.resume : EntF := ⟨38, 2, 0, 16⟩
def Se.outAddr : EntF := ⟨40, 8, 0, 64⟩
def Se.cplAddr : EntF := ⟨48, 8, 0, 64⟩
def Se.deadline : EntF := ⟨56, 8, 0, 64⟩
def Se.cancel : EntF := ⟨64, 4, 0, 1⟩
def Se.close : EntF := ⟨64, 4, 1, 1⟩
def Se.dest : EntF := ⟨68, 2, 0, 16⟩
def Se.ticket : EntF := ⟨72, 8, 0, 64⟩
def Se.state : EntF := ⟨128, 1, 0, 3⟩
def Se.tier : EntF := ⟨128, 1, 3, 2⟩
def Se.promptDone : EntF := ⟨128, 1, 5, 1⟩
def Se.exporting : EntF := ⟨128, 1, 6, 1⟩
def Se.bound : EntF := ⟨128, 1, 7, 1⟩
def Se.owner : EntF := ⟨130, 2, 0, 12⟩
def Se.genDone : EntF := ⟨132, 4, 0, 32⟩
def Se.ntokens : EntF := ⟨136, 4, 0, 32⟩
def Se.ove : EntF := ⟨140, 2, 0, 14⟩
def Se.oveValid : EntF := ⟨140, 2, 15, 1⟩
def Se.hlayer : EntF := ⟨142, 2, 0, 16⟩
def Se.expiry : EntF := ⟨144, 8, 0, 64⟩
def Se.steps : EntF := ⟨152, 8, 0, 64⟩
def Se.cseq : EntF := ⟨160, 4, 0, 32⟩

/-- Sequence states (R226). -/
def Ss.free : Nat := 0
def Ss.idle : Nat := 1
def Ss.ready : Nat := 2
def Ss.running : Nat := 3
def Ss.ending : Nat := 4
def Ss.importing : Nat := 5

/-- Tier states (R209). -/
def Tr.hot : Nat := 0
def Tr.toCold : Nat := 1
def Tr.cold : Nat := 2
def Tr.toHot : Nat := 3

/-- The device physical address of entry `n` (R222). -/
def State.seqB (s : State) (n : Nat) : Nat := s.chip F.seqBase + 256 * n

/-- A field of the 256 bytes of an entry. -/
def EntF.of (f : EntF) (l : List Byte) : Nat := bits (fieldLE l f.off f.len) f.lo f.w

/-- A field of a sequence entry. -/
def State.seq (s : State) (n : Nat) (f : EntF) : Nat := bits (s.memNat (s.seqB n + f.off) f.len) f.lo f.w

/-- The state with a field of a sequence entry set. -/
def State.setSeq (s : State) (n : Nat) (f : EntF) (v : Nat) : State :=
  s.memWrite (s.seqB n + f.off) (leBytes f.len (setBits (s.memNat (s.seqB n + f.off) f.len) f.lo f.w v))

/-- A configuration field: from CFG once BOUND is set, else as the host part holds it (R224). -/
def State.cfg (s : State) (n : Nat) (f : EntF) : Nat :=
  if s.seq n Se.bound = 1 then s.seq n { f with off := f.off + 192 } else s.seq n f

/-- The slots whose entry is not FREE, ascending. -/
def State.liveSlots (s : State) : List Nat :=
  let b := s.chip F.seqBase
  (s.hbm.bytes.filter fun e => b ≤ e.1 && e.1 < b + 256 * 8192 && (e.1 - b) % 256 == 128 && e.2.toNat % 8 != 0).map
    fun e => (e.1 - b) / 256

/-- The slots of a coach that are not FREE. -/
def State.slotsOf (s : State) (c : Nat) : List Nat := s.liveSlots.filter fun n => s.seq n Se.owner == c

/-- The sequence table is in place: the firmware has placed it at boot (R222). -/
def State.seqTable (s : State) : Bool := s.chip F.seqBase != 0

/-- The layer descriptors of a graph with its staged copies in place (R252). -/
def Graph.comingLayers (g : Graph) : List (List Byte) :=
  g.layers.zipIdx.map fun l => match SMap.look [] g.staged l.2 with | [] => l.1 | d => d

/-- The attention layers of a graph, in graph order. -/
def Graph.attnLayers (g : Graph) : List (List Byte) := g.layers.filter Ld.attn

/-- The rows of a graph in the step, in manifest order (R256). -/
def State.graphRows (s : State) (g : Nat) : List Row := s.gs.rows.filter fun r => r.graph == g

/-- Manifest number of the first row of a graph (R260). -/
def State.row0 (s : State) (g : Nat) : Nat := (s.gs.rows.takeWhile fun r => r.graph != g).length

/-- Rows of a carriage's window (R256): first row within the graph and their number. -/
def window (c : List Byte) (nrow : Nat) : Nat × Nat :=
  (64 * Ca.gfirst c, min nrow (64 * (Ca.gfirst c + Ca.ngroup c)) - 64 * Ca.gfirst c)

/-- Change the rows of the step by their manifest number. -/
def State.mapRows (s : State) (f : Nat → Row → Row) : State :=
  { s with gs := { s.gs with rows := s.gs.rows.zipIdx.map fun e => f e.2 e.1 } }

end Sys2Proof.Machine
end

