-- ==== Sys2Proof/Machine/Sequences.lean ====
section
/-!
DEFINITION. The operations of the step batcher that many commands share: the overlay directory (R144-R149), the KV pool
and the page lists (R198-R207), completion records (R230, R231), and the ends of sequences (R237-R240).
-/
namespace Sys2Proof.Machine

/-! ### The overlay directory (R144-R149) -/

def Os.free : Nat := 0
def Os.live : Nat := 1
def Os.retiring : Nat := 2

/-- An overlay version entry. -/
def State.ove (s : State) (i : Nat) : Ove := SMap.look {} s.sb.oves i

/-- The state with an overlay version entry set. -/
def State.setOve (s : State) (i : Nat) (o : Ove) : State :=
  { s with sb := { s.sb with oves := SMap.put {} s.sb.oves i o } }

/-- An overlay name. -/
def State.ovName (s : State) (n : Nat) : OvName := SMap.look {} s.sb.names n

/-- The state with an overlay name set. -/
def State.setName (s : State) (n : Nat) (v : OvName) : State :=
  { s with sb := { s.sb with names := SMap.put {} s.sb.names n v } }

/-- The OVEs of a name that are not FREE. -/
def State.ovesOfName (s : State) (n : Nat) : List Nat :=
  (s.sb.oves.filter fun e => e.2.st != Os.free && e.2.name == n).map (·.1)

/-- OVE `i` becomes FREE, with its event in the log (R150; R515 gives the event no code, log entry 3); its name loses its owner
when no OVE of the name is left and it is empty (R147). -/
def State.freeOve (s : State) (i : Nat) : State :=
  let n := (s.ove i).name
  let s := s.raise { cls := 0, sev := 0, cause := (Config.uncodedCause 5).toNat, coach := some (s.ove i).coach }
  let s := s.setOve i {}
  if s.ovesOfName n = [] ∧ (s.ovName n).cur = none then s.setName n { s.ovName n with owner := none } else s

/-- A version that stops being current moves on: to RETIRING while it is referenced, else to FREE (R144). -/
def State.moveOn (s : State) (i : Nat) : State :=
  let o := s.ove i
  if o.st ≠ Os.live then s
  else if 0 < o.refs then s.setOve i { o with st := Os.retiring } else s.freeOve i

/-- One reference on an OVE is released; a RETIRING version with none left becomes FREE (R144, R149). -/
def State.releaseOve (s : State) (i : Nat) : State :=
  let o := s.ove i
  let s := s.setOve i { o with refs := o.refs - 1 }
  if o.st = Os.retiring ∧ o.refs ≤ 1 then s.freeOve i else s

/-- One reference on an OVE is taken (R148). -/
def State.bindOve (s : State) (i : Nat) : State := s.setOve i { s.ove i with refs := (s.ove i).refs + 1 }

/-- A name is emptied and its current version moves on (R147). -/
def State.dropName (s : State) (n : Nat) : State :=
  match (s.ovName n).cur with
  | none => s
  | some i => (s.setName n { s.ovName n with cur := none }).moveOn i

/-- Every name a coach owns is dropped (R151). -/
def State.dropNames (s : State) (c : Nat) : State :=
  (s.sb.names.filter fun e => e.2.owner == some c).foldl (fun s e => s.dropName e.1) s

/-! ### The KV pool (R198, R204-R207) -/

/-- A hot page is free: it exists and belongs to no sequence. -/
def State.pageFree (s : State) (p : Nat) : Bool := decide (p < s.chip F.nPages) && SMap.look 0 s.sb.pageOf p == 0

/-- The page that the pool hands out (R198): the one that `pick` names where it is free, else the lowest free one. -/
def State.pickPage (s : State) (pick : Nat) : Nat :=
  if s.pageFree pick then pick else (firstBelow (s.chip F.nPages) s.pageFree).getD 0xFFFFFFFF

/-- The pool-low mark after FREE has changed (R204): a crossing begins below LOWMARK and tells every coach with a deferred
row; it ends at or above LOWMARK. -/
def State.poolMark (s : State) : State :=
  let low := decide (s.chip F.kvFree < s.chip F.lowmark)
  if low = s.sb.crossing then s
  else
    let s := { s with sb := { s.sb with crossing := low } }
    s.coaches.foldl (fun s e =>
      if low ∧ e.2.deferred ≠ [] then (s.modCoach e.1 fun c => { c with told := true }).event e.1 2
      else s.modCoach e.1 fun c => { c with told := false }) s

/-- Coach pages held, by one more or one less. -/
def State.holdPages (s : State) (c : Nat) (up : Bool) (n : Nat := 1) : State :=
  s.modCoach c fun x => { x with pages := if up then x.pages + n else x.pages - n }

/-- A hot page is taken by a sequence: from FREE, or from the reservation of an import (R207). -/
def State.takeHot (s : State) (slot coach p : Nat) (reserved : Bool := false) : State :=
  let s := { s with sb := { s.sb with pageOf := SMap.put 0 s.sb.pageOf p (slot + 1) } }
  let s := if reserved then s.drop chipB F.reserved else s.drop chipB F.kvFree
  let s := (s.bump chipB F.kvUsed).holdPages coach true
  s.poolMark

/-- A hot page of a sequence returns to the pool. -/
def State.freeHot (s : State) (coach p : Nat) : State :=
  let s := { s with sb := { s.sb with pageOf := SMap.put 0 s.sb.pageOf p 0 } }
  ((s.drop chipB F.kvUsed).bump chipB F.kvFree).holdPages coach false |>.poolMark

/-- A cold page is taken by a sequence. -/
def State.takeCold (s : State) (slot p : Nat) : State :=
  ({ s with sb := { s.sb with coldOf := SMap.put 0 s.sb.coldOf p (slot + 1) } }).drop chipB F.coldFree
    |>.bump chipB F.coldUsed

/-- A cold page returns. -/
def State.freeCold (s : State) (p : Nat) : State :=
  ({ s with sb := { s.sb with coldOf := SMap.put 0 s.sb.coldOf p 0 } }).drop chipB F.coldUsed
    |>.bump chipB F.coldFree

/-- Unused page reservations of the coaches other than `c` (R342). -/
def State.othersReserve (s : State) (c : Nat) : Nat :=
  (s.liveCoaches.filter (· != c)).foldl (fun a d => a + (s.get (coachB d) F.coachResPages - (s.coach d).pages)) 0

/-- QOS, ROWS_MAX and KV_QUOTA of a coach: for a cut as they stood when it was taken, else as they stand (R341). -/
def State.capAt (s : State) (c i : Nat) : Nat :=
  match SMap.look [] s.gs.cutCap c with
  | [] => s.get (coachB c) (match i with | 0 => F.coachQos | 1 => F.coachRowsMax | _ => F.coachKvQuota)
  | l => l.getD i 0

/-- Whether `n` pages may be taken for a coach (R204): 0 yes, 1 the pool lacks them, 2 the quota or the reservations of
others refuse. -/
def State.kvRefuse (s : State) (c n : Nat) : Nat :=
  let free := s.chip F.kvFree
  let q := s.capAt c 2
  if n = 0 then 0
  else if q ≠ 0xFFFFFFFF ∧ s.get (coachB c) F.coachResPages + q < (s.coach c).pages + n then 2
  else if s.othersReserve c ≠ 0 ∧ free < n + s.othersReserve c then 2
  else if free ≤ n then 1
  else 0

/-- A row is deferred (R204): KV_DEFER, the pool-low event of a crossing, and the event of a refusal. -/
def State.deferRow (s : State) (slot c kind : Nat) : State :=
  let s := s.count F.kvDefer
  let tell := s.sb.crossing && !(s.coach c).told
  let s := s.modCoach c fun x => { x with deferred := insertNat slot x.deferred, told := x.told || tell }
  let s := if tell then s.event c 2 else s
  if kind = 2 then s.event c 2 else s

/-! ### Page lists (R200-R205) -/

/-- A read by the SB of a coach's memory: the walks it costs, and the bytes where every page translates and no line of them
answers POISON. -/
def State.sbRead (s : State) (c a n : Nat) : State × Option (List Byte) :=
  let s := s.walkRange Blk.sb c a n false
  (s, if s.coachPoisoned Blk.sb c a n then none else s.coachRead Blk.sb c a n)

/-- A write by the SB of a coach's memory; refused where a page does not translate for writing. -/
def State.sbWrite (s : State) (c a : Nat) (l : List Byte) : State :=
  let s := s.walkRange Blk.sb c a l.length true
  if s.xlateOk Blk.sb c a l.length true then s.coachWrite Blk.sb c a l else s

/-- One stream of a sequence (R200, R211): the coach address of its list and the stream id it is written under. -/
structure Stream where
  layer : Nat
  kind : Nat
  head : Nat
  list : Option Nat
  sid : Nat
deriving DecidableEq, Repr

/-- The streams of a sequence in the order of R211: attention layers, then keys before values, then heads. A stream whose
directory entry cannot be read has no list. `coming` takes the descriptors in force for the step that a cut builds (R203,
R252). -/
def State.streams (s : State) (slot : Nat) (coming : Bool := false) : List Stream :=
  match s.graph (s.cfg slot Se.graph) with
  | none => []
  | some g =>
    let c := s.seq slot Se.owner
    let len := s.cfg slot Se.listlen
    ((if coming then g.comingLayers.filter Ld.attn else g.attnLayers).zipIdx).flatMap fun e =>
      let base := if s.coachPoisoned Blk.sb c (s.cfg slot Se.kvdir + 8 * e.2) 8 then none
        else (s.coachRead Blk.sb c (s.cfg slot Se.kvdir + 8 * e.2) 8).map fun l => leNat l % 2 ^ 48
      [0, 1].flatMap fun k => (List.range (At.nkv e.1)).map fun h =>
        { layer := e.2, kind := k, head := h, list := base.map fun b => b + 16 * len * (2 * h + k)
          sid := if k = 0 then At.kstream e.1 else At.vstream e.1 }

/-- Fields of a page-table entry (R201). -/
def Pe.page (e : List Byte) : Nat := fieldLE e 0 4
def Pe.fmt (e : List Byte) : Nat := bits (fieldLE e 4 1) 0 2
def Pe.half (e : List Byte) : Nat := bits (fieldLE e 4 1) 2 1
def Pe.tier (e : List Byte) : Nat := bits (fieldLE e 4 1) 3 2
def Pe.rq (e : List Byte) : Nat := bits (fieldLE e 4 1) 5 1
def Pe.stream (e : List Byte) : Nat := fieldLE e 8 4
def Pe.crc (e : List Byte) : Nat := fieldLE e 12 4

/-- A page-table entry. -/
def Pe.mk (page fmt half tier rq stream crc : Nat) : List Byte :=
  packFields 16 [(0, 4, page), (4, 1, fmt + 4 * half + 8 * tier + 32 * rq), (8, 4, stream), (12, 4, crc)]

/-- No page. -/
def noPage : Nat := 0xFFFFFFFF

/-- Free the page that one list entry names, and leave the entry with no page: PAGE all ones, and bytes 4 to 7 zero (R7; DEDUCED, log entry
43). The entry's format, where it could be read (R205). -/
def State.freeEntry (s : State) (slot c a : Nat) : State × Option Nat :=
  let (s, r) := s.sbRead c a 16
  match r with
  | none => (s, none)
  | some e =>
    if Pe.fmt e = 0 then (s, some 0)
    else
      let s := if Pe.tier e = 0 ∧ SMap.look 0 s.sb.pageOf (Pe.page e) = slot + 1 then s.freeHot c (Pe.page e) else s
      (s.sbWrite c a (overlay e 0 (leBytes 4 noPage ++ [0, 0, 0, 0])), some (Pe.fmt e))

/-- Free the pages that the entries of one pair of spans name; the entries that could not be read, and whether a page may be withheld
by it (R205): an A4 page is known from either entry of its pair (R202). -/
def State.freePair (s : State) (slot c a : Nat) : State × Nat × Bool :=
  let (s, x) := s.freeEntry slot c a
  let (s, y) := s.freeEntry slot c (a + 16)
  (s, b2n x.isNone + b2n y.isNone, match x, y with
    | some _, some _ => false
    | none, some f | some f, none => f != 1
    | none, none => true)

/-- Free the pages that the pairs of spans from `lo` name in every list of a sequence: the entries that could not be read, and
whether a page may be withheld. -/
def State.freePairs (s : State) (slot lo : Nat) : State × Nat × Bool :=
  let c := s.seq slot Se.owner
  let len := s.cfg slot Se.listlen
  (s.streams slot).foldl (fun (r : State × Nat × Bool) t =>
    match t.list with
    | none => (r.1, r.2.1 + (len - 2 * lo), true)
    | some b => (upFrom lo (len / 2 - lo)).foldl (fun (r : State × Nat × Bool) i =>
        let q := r.1.freePair slot c (b + 32 * i)
        (q.1, r.2.1 + q.2.1, r.2.2 || q.2.2)) r) (s, 0, false)

/-- Free the hot pages of a sequence by reading its lists; pages that cannot be learned are withheld (R205). -/
def State.freeHotPages (s : State) (slot : Nat) : State :=
  let r := s.freePairs slot 0
  let s := { r.1 with sb := { r.1.sb with pageOf := r.1.sb.pageOf.map fun e => if e.2 = slot + 1 then (e.1, 65536) else e } }
  if r.2.2 then
    s.raise { cls := 0, sev := 0, cause := 0x92, coach := some (s.seq slot Se.owner), detail := leBytes 4 slot ++ leBytes 4 r.2.1 }
  else s

/-- Free the cold pages of a sequence, in cold HBM (R213, R215). -/
def State.freeColdPages (s : State) (slot : Nat) : State :=
  let s := if SMap.look 0 s.sb.coldHost slot = 0 then (SMap.look [] s.sb.coldList slot).foldl (fun s p => s.freeCold p) s else s
  { s with sb := { s.sb with coldList := SMap.put [] s.sb.coldList slot [], coldHost := SMap.put 0 s.sb.coldHost slot 0 } }

/-! ### Completions (R230, R231) -/

/-- A write pushed to host memory for a sequence, on the coach's host port and VC1 (R230); its tag. -/
def State.pushHost (s : State) (slot c addr : Nat) (data : List Byte) : State × Nat :=
  let p := s.get (coachB c) F.coachHport
  let t := s.link.nextTag
  (s.request p { mtype := 1, vc := 1, space := 3, dst := s.hostNode p, coach := c, addr := addr, data := data } (.push slot), t)

/-- Flags of a completion record, by bit (R231). -/
def Cf.imported : Nat := 8
def Cf.shipFailed : Nat := 16
def Cf.hostLayer : Nat := 32
def Cf.closed : Nat := 64
def Cf.predMiss : Nat := 128

/-- A host layer is pending: HLAYER names a layer. A fresh entry holds 0, and layer 0 is never a host layer (R223, R234). -/
def State.hostPending (s : State) (slot : Nat) : Bool :=
  s.seq slot Se.hlayer != 0 && s.seq slot Se.hlayer != 0xFFFF

/-- Write a completion record and raise the event that announces it, with the outputs written before it (R27, R230). -/
def State.complete (s : State) (slot status flags outlen gen : Nat) (hl : Nat := 0xFFFF) (outs : List Nat := []) : State :=
  let c := s.seq slot Se.owner
  let n := (s.seq slot Se.cseq + 1) % 2 ^ 32
  let s := s.setSeq slot Se.cseq n
  let rec32 := packFields 32 [(0, 1, status), (1, 1, flags), (2, 2, if status = Sc.ok then outlen else 0), (4, 4, gen),
    (8, 4, s.seq slot Se.ntokens), (12, 2, hl), (14, 2, slot), (16, 8, s.gcount), (24, 4, n)]
  let (s, t) := s.pushHost slot c (s.seq slot Se.cplAddr) rec32
  let s := if status = Sc.cancelled then s.count F.seqCancelled else if status = Sc.deadline then s.count F.seqDeadline else s
  s.event c 0 (outs ++ [t])

/-! ### Ends (R205, R237-R240) -/

/-- What a sequence is ending with, plus one: its status, + 256 where it ends under CLOSE, + 512 where its completion has
been written already (R229), + 1,024 where an export of it has failed by that end (R221). -/
def State.endCode (s : State) (slot : Nat) : Nat := SMap.look 0 s.sb.ending slot

/-- The sequence goes to ENDING with a status (R226); the first end stands, but CLOSE gives way to any other. -/
def State.setEnding (s : State) (slot status : Nat) (closed : Bool := false) : State :=
  let old := s.endCode slot
  let s := if old = 0 ∨ (257 ≤ old ∧ old ≤ 512 ∧ closed = false) then
      { s with sb := { s.sb with ending := SMap.put 0 s.sb.ending slot (status + 1 + 256 * b2n closed) } } else s
  s.setSeq slot Se.state Ss.ending

/-- The completion of an ending sequence will carry SHIP_FAILED (R221). -/
def State.endShipFailed (s : State) (slot : Nat) : State :=
  let e := s.endCode slot - 1
  { s with sb := { s.sb with ending := SMap.put 0 s.sb.ending slot (e % 1024 + 1025) } }

/-- Forget what the SB keeps of a slot besides its entry. -/
def State.forgetSlot (s : State) (slot : Nat) : State :=
  { s with sb := { s.sb with
    ready := s.sb.ready.filter (· != slot), staged := SMap.put [] s.sb.staged slot []
    reg := SMap.put 0 s.sb.reg slot 0, regAt := SMap.put 0 s.sb.regAt slot 0, ending := SMap.put 0 s.sb.ending slot 0
    skips := SMap.put 0 s.sb.skips slot 0, exports := s.sb.exports.filter (·.1 != slot), moves := s.sb.moves.filter (·.1 != slot)
    coldList := SMap.put [] s.sb.coldList slot [], coldHost := SMap.put 0 s.sb.coldHost slot 0 } }

/-- Free a sequence's pages, its overlay reference and its entry (R205, R149), without a completion. In the cold tier its lists name
no hot page, but for those that the pause could not learn. -/
def State.freeSlot (s : State) (slot : Nat) : State :=
  let s := if s.seq slot Se.tier = Tr.cold ∧ (s.sb.pageOf.any fun e => e.2 == slot + 1) = false then s else s.freeHotPages slot
  let s := s.freeColdPages slot
  let s := if s.seq slot Se.oveValid = 1 then (s.releaseOve (s.seq slot Se.ove)).setSeq slot Se.oveValid 0 else s
  (s.setSeq slot Se.state Ss.free).forgetSlot slot

/-- Free a sequence and write its final completion: OUTLEN 0, GEN = GEN_DONE (R239). -/
def State.endSeq (s : State) (slot status flags : Nat) : State :=
  let s := s.freeSlot slot
  s.complete slot status flags 0 (s.seq slot Se.genDone)

/-- Free every ENDING sequence that no move or export holds and that has no rows in the posted manifest, in ascending slot
(R205, R239). -/
def State.freeEnding (s : State) : State :=
  let coming (n : Nat) : Bool := s.gs.posted.any fun l => l.any fun r => r.slot == n
  (s.liveSlots.filter fun n => s.seq n Se.state == Ss.ending && !coming n).foldl (fun s n =>
    let t := s.seq n Se.tier
    if t = Tr.toCold ∨ t = Tr.toHot then s
    else
      let e := s.endCode n - 1
      if bit e 9 then s.freeSlot n
      else s.endSeq n (e % 256) ((if bit e 8 then Cf.closed else 0) + if bit e 10 then Cf.shipFailed else 0)) s

/-- Completions owed at the boundary to sequences that do not end (R200). -/
def State.flushLate (s : State) : State :=
  s.sb.late.foldl (fun s e =>
    if s.seq e.1 Se.state = Ss.free then s else s.complete e.1 e.2 0 0 (s.seq e.1 Se.genDone))
    { s with sb := { s.sb with late := [] } }

/-- The key in `exports` or `moves`. -/
def State.exportOf (s : State) (slot : Nat) : Option Exp := (s.sb.exports.find? (·.1 == slot)).map (·.2)
def State.moveOf (s : State) (slot : Nat) : Option Move := (s.sb.moves.find? (·.1 == slot)).map (·.2)

/-- The import open on a slot. -/
def State.importOf (s : State) (slot : Nat) : Option (Nat × Imp) := s.sb.imports.find? fun e => e.2.st == 1 && e.2.slot == slot

/-- A page of a sequence whose entries are known returns to the pool, and its entries are emptied. -/
def State.freeLanded (s : State) (slot c : Nat) (e : Nat × Nat) : State :=
  let s := if SMap.look 0 s.sb.pageOf e.1 = slot + 1 then s.freeHot c e.1 else s
  match (s.sbRead c e.2 16).2 with
  | none => s
  | some b =>
    let s := s.sbWrite c e.2 (overlay b 0 (leBytes 4 noPage ++ [0]))
    if Pe.fmt b = 1 then
      match (s.sbRead c (e.2 + 16) 16).2 with
      | none => s
      | some d => s.sbWrite c (e.2 + 16) (overlay d 0 (leBytes 4 noPage ++ [0]))
    else s

/-- Close an import that has not committed (R216): landed pages are freed, the reservation is released, and the slot goes
back to IDLE. -/
def State.closeImport (s : State) (i : Nat) : State :=
  let m := SMap.look {} s.sb.imports i
  if m.st ≠ 1 then s
  else
    let s := m.landed.foldl (fun s e => s.freeLanded m.slot m.coach e) s
    let s := (s.drop chipB F.reserved m.left).bump chipB F.kvFree m.left
    let left : Imp := { gen := m.gen, coach := m.coach, slot := m.slot }
    let s := { s with sb := { s.sb with imports := SMap.put {} s.sb.imports i left } }
    let s := if s.seq m.slot Se.state = Ss.importing then s.setSeq m.slot Se.state Ss.idle else s
    s.poolMark

/-- Message of the sending side of a shipment (R218). -/
def State.shipSend (s : State) (dest ticket coach : Nat) (data : List Byte) : State :=
  s.send { mtype := 0x30, vc := 2, dst := dest, coach := coach, arg := ticket, data := data }

/-- Answer of a shipment (R220): 1 ACCEPT, 2 NAK, 3 COMMIT, 4 ABORT, with a status and a page index. -/
def State.shipReply (s : State) (coach dest ticket kind status page : Nat) : State :=
  s.send { mtype := 0x31, vc := 2, dst := dest, coach := coach, addr := ticket, arg := kind + 256 * status + 2 ^ 32 * page }

/-- The sender aborts an export (R221): the sequence is completed with the status and SHIP_FAILED, and stays not admitted
until KV_SHIP or an end. -/
def State.abortExport (s : State) (slot status : Nat) (tell : Bool) : State :=
  match s.exportOf slot with
  | none => s
  | some e =>
    let s := if tell ∧ e.st ≠ 0 then s.shipReply (s.seq slot Se.owner) e.dest e.ticket 4 status 0 else s
    let s := { s with sb := { s.sb with exports := s.sb.exports.filter (·.1 != slot) } }
    s.count F.shipFail

/-- The rows of a slot in the step are masked within the step with a status (R239). -/
def State.maskSlot (s : State) (slot status : Nat) : State :=
  s.maskWhere (fun r => r.slot == slot) status

/-- The step's completion for a slot has been written. -/
def State.rowDone (s : State) (slot : Nat) : Bool := s.gs.rows.any fun r => r.slot == slot && r.done

/-- A sequence in the cold tier is freed at once (R213, R215). -/
def State.freeColdNow (s : State) (slot status : Nat) : State := s.endSeq slot status 0

/-- A pause that waits for the boundary gives way to the end of its sequence: KV_PAUSE fails with BAD_ARG (R215). -/
def State.refusePause (s : State) (slot : Nat) : State :=
  if (s.moveOf slot).any (·.waiting) then
    State.answerAll { s with sb := { s.sb with moves := s.sb.moves.filter (·.1 != slot) } } 0x0403
      (fun q => q.par.head? == some slot) Sc.badArg
  else s

/-- Register the end of a sequence (R237-R240, R213, R215, R221): status CANCELLED, DEADLINE, or OK for CLOSE. -/
def State.registerEnd (s : State) (slot status : Nat) : State :=
  let closed := status == Sc.ok
  let b := if status = Sc.cancelled then 1 else if status = Sc.deadline then 2 else 4
  let old := SMap.look 0 s.sb.reg slot
  let st := s.seq slot Se.state
  if st = Ss.free ∨ old / b % 2 = 1 then s
  else
    let same := old / 2 % 2 = 1 ∧ b = 1 ∧ SMap.look 0 s.sb.regAt slot = s.gcount + 1
    let late := (old / 2 % 2 = 1 ∧ b = 1 ∧ ¬same) ∨ (old % 2 = 1) ∨ (old / 2 % 2 = 1 ∧ b = 4)
    let s := { s with sb := { s.sb with reg := SMap.put 0 s.sb.reg slot (old + b), regAt := if old % 4 = 0 then SMap.put 0 s.sb.regAt slot (s.gcount + 1) else s.sb.regAt } }
    if late then s
    else
      let s := if same then { s with sb := { s.sb with ending := SMap.put 0 s.sb.ending slot 0 } } else s
      let s := s.refusePause slot
      let tier := s.seq slot Se.tier
      if st = Ss.running then
        if closed then
          (if s.rowDone slot then s.setEnding slot status true else s)
        else if s.rowDone slot then s.setEnding slot status
        else (s.setEnding slot status).maskSlot slot status
      else if st = Ss.importing then
        let s := match s.importOf slot with | some m => s.closeImport m.1 | none => s
        s.setEnding slot status closed
      else if closed then
        s.setEnding slot status true
      else if tier = Tr.cold then
        (if status = Sc.deadline then s.setEnding slot status else s.freeColdNow slot status)
      else if tier = Tr.toCold ∨ tier = Tr.toHot then
        let mv := s.sb.moves.map fun (e : Nat × Move) => if e.1 = slot then (e.1, { e.2 with cancelled := status }) else e
        State.setEnding { s with sb := { s.sb with moves := mv } } slot status
      else
        let u := (s.abortExport slot status true).setEnding slot status
        if (s.exportOf slot).isSome then u.endShipFailed slot else u

/-- Compare DEADLINE with GCOUNT for one slot and register the expiry (R238). -/
def State.checkDeadline (s : State) (slot : Nat) : State :=
  let d := s.seq slot Se.deadline
  if d ≠ 0 ∧ d ≤ s.gcount then s.registerEnd slot Sc.deadline else s

/-- Compare the time to live of a COLD sequence with GCOUNT (R213). -/
def State.checkTtl (s : State) (slot : Nat) : State :=
  if s.seq slot Se.tier = Tr.cold ∧ s.seq slot Se.state ≠ Ss.free ∧ s.seq slot Se.expiry ≠ 2 ^ 64 - 1
      ∧ s.seq slot Se.expiry ≤ s.gcount then (s.count F.ttlExpired).endSeq slot Sc.timeout 0 else s

end Sys2Proof.Machine
end

