-- ==== Sys2Proof/Machine/MemoryCommands.lean ====
section
/-!
DEFINITION. The memory system's commands and events: regions (R297, R313), the KV pool (R206), margining (R318, R319), mirrors
(R313, R314), requests (R303-R306), the patrol (R311), the pin monitor (R316) and a stack that fails (R418).
-/
namespace Sys2Proof.Machine

/-! ### Regions (R296, R297, R313) -/

/-- Frames that belong to a region or a mirror. -/
def State.frameTaken (s : State) (f : Nat) : Bool := (s.regionOf f).isSome || s.isMirror f

/-- Backing slots that `n` frames of a form take on stack `m` (R296). -/
def slotsNeeded (form quad n m : Nat) : Nat :=
  if form = 0 then n else if (nearStacks quad).1 = m ∨ (nearStacks quad).2 = m then 4 * n else 0

/-- Backing slots in use on stack `m`. -/
def State.slotsUsed (s : State) (m : Nat) : Nat :=
  (List.range 64).foldl (fun a r =>
    let b := regionB r
    if s.get b F.regionValid = 0 then a
    else a + slotsNeeded (s.get b F.regionForm) (s.get b F.regionQuad)
      (s.get b F.regionFcount * (if s.get b F.regionMstate = 0 then 1 else 2)) m) 0

/-- The lowest-numbered run of `n` frames of no region and no mirror, the region itself set aside (R313). -/
def State.mirrorRun (s : State) (first n : Nat) : Option Nat :=
  (List.range (641 - n)).find? fun b => (upFrom b n).all fun f => !s.frameTaken f && !(first ≤ f && f < first + n)

/-- The free region entry: the one picked where it is free, else the lowest. -/
def State.freeRegion (s : State) (pick : Nat) : Option Nat :=
  let free (r : Nat) : Bool := r < 64 && s.get (regionB r) F.regionValid == 0
  if free pick then some pick else firstBelow 64 free

/-- Fill a region entry (R322). -/
def State.fillRegion (s : State) (r form quad shared mstate fbase fcount mbase : Nat) : State :=
  s.setWord (regionB r) (1 + form * 2 + quad * 8 + shared * 32 + mstate * 64 + fbase * 2 ^ 8 + fcount * 2 ^ 18 + mbase * 2 ^ 28)

/-- REGION_SET (R297, R313, R448). -/
def execRegionSet (box pick : Nat) (s : State) : Res :=
  .next (takeCommand 0x0201 box (fun c s =>
    let first := c.arg 0 2
    let n := c.arg 2 2
    let form := c.arg 4 1
    let quad := if form = 0 then 0 else c.arg 5 1
    let opt := c.arg 6 1
    let shared := opt % 2
    let mir : Bool := if shared = 1 then !bit opt 1 else bit opt 2
    if 1 < form ∨ (form = 1 ∧ 3 < c.arg 5 1) ∨ n = 0 ∨ 640 < first + n ∨ (bit opt 1 = true ∧ bit opt 2 = true)
        ∨ ((upFrom first n).any s.frameTaken) = true then s.respond box c.coach Sc.badArg
    else match s.freeRegion pick with
      | none => s.respond box c.coach Sc.noResource
      | some r =>
        if (List.range 8).any fun m => 640 < s.slotsUsed m + slotsNeeded form quad (n * (if mir then 2 else 1)) m then
          s.respond box c.coach Sc.noResource
        else
          let mb := if mir then s.mirrorRun first n else some 0
          match mb with
          | none => s.respond box c.coach Sc.noResource
          | some b =>
            ((s.fillRegion r form quad shared (b2n mir) first n b).extendM 4 c.digest).respond box c.coach Sc.ok [Byte.ofNat r]) s)

/-- Something points into a region (R297): a translation, the pool setting, the firmware's own tables (region 0), or a request
in flight (R320). -/
def State.regionInUse (s : State) (r : Nat) : Bool :=
  let inside (a : Nat) : Bool := s.regionAt a == some r
  r == 0 || (s.xlate.map.any fun e => inside (e.2 / 4 * 65536))
    || (s.chip F.nPages != 0 && (inside (s.chip F.kvPoolBase) || inside (s.chip F.kvSclBase)))
    || (s.chip F.nCold != 0 && inside (s.chip F.kvColdBase))
    || (s.cores.any fun c => c.2.tags.any fun t => t.2.answer.isNone && t.2.desc.aspace != 2
      && t.2.pieces.any fun x => inside x.1 || inside (x.1 + x.2 - 1))

/-- REGION_CLEAR (R297, R448). -/
def execRegionClear (box : Nat) (s : State) : Res :=
  .next (takeCommand 0x0202 box (fun c s =>
    let r := c.arg 0 1
    if 63 < r ∨ s.get (regionB r) F.regionValid = 0 then s.respond box c.coach Sc.badArg
    else if s.regionInUse r then s.respond box c.coach Sc.inUse
    else
      let s := s.setWord (regionB r) 0
      let s := { s with hbm := { s.hbm with rebuild := s.hbm.rebuild.filter (·.2 != r) } }
      (s.extendM 4 c.digest).respond box c.coach Sc.ok) s)

/-- The copies of a region's lines carry poison across: a line whose primary was poisoned before the copy reached it (R320). -/
def State.carryPoison (s : State) (r : Nat) : State :=
  let reached (l : Nat) : Bool := s.regionAt (64 * l) != some r || s.hbm.rebuild.any fun x => x.1 == l
  { s with hbm := { s.hbm with bad := s.hbm.bad.map fun e => if e.2 = 1 ∧ reached e.1 = false then (e.1, 3) else e } }

/-- MIRROR_SYNC_DONE (R313, R320): every line of a region has been copied. -/
def State.syncDone (s : State) (r : Nat) : State :=
  if r < 64 ∧ s.get (regionB r) F.regionMstate = 1 then
    let s := s.carryPoison r
    s.set (regionB r) F.regionMstate (if s.get (regionB r) F.regionRebuilds = 0 then 2 else 3)
  else s

/-- MIRROR_REBUILD (R314, R320): the oldest queued rebuild rewrites the bad copy from the good one; a line written meanwhile
stands, and a line whose copies are both bad stays poisoned. -/
def execMirrorRebuild (s : State) : Res :=
  .next (match s.hbm.rebuild with
    | [] => s
    | (l, r) :: rest =>
      let both := decide (s.lineBad l = 3)
      let s := { s with hbm := { s.hbm with rebuild := rest, bad := if both then s.hbm.bad else SMap.put 0 s.hbm.bad l 0 } }
      let s := s.drop (regionB r) F.regionRebuilds
      if s.get (regionB r) F.regionMstate = 3 ∧ s.get (regionB r) F.regionRebuilds = 0 then s.set (regionB r) F.regionMstate 2
      else s)

/-! ### The KV pool (R206) -/

/-- An area of the pool (base, bytes) is well placed: 4 KiB aligned, wholly inside one valid region other than region 0. -/
def State.areaOk (s : State) (a n : Nat) : Bool :=
  n == 0 || (a % 4096 == 0 && match s.oneRegion a n with | none => false | some r => r != 0)

/-- Two areas share a byte. -/
def areasMeet (a n b m : Nat) : Bool := n != 0 && m != 0 && decide (a < b + m) && decide (b < a + n)

/-- KV_POOL_SET (R206, R448). -/
def execKvPoolSet (box : Nat) (s : State) : Res :=
  .next (takeCommand 0x0204 box (fun c s =>
    let a := c.arg 0 8
    let b := c.arg 8 8
    let n := c.arg 16 4
    let d := c.arg 20 8
    let m := c.arg 28 4
    if s.chip F.kvUsed ≠ 0 ∨ s.chip F.reserved ≠ 0 ∨ s.chip F.coldUsed ≠ 0 then s.respond box c.coach Sc.inUse
    else if 119304647 < n ∨ s.areaOk a (4096 * n) = false ∨ s.areaOk b (512 * n) = false ∨ s.areaOk d (4608 * m) = false
        ∨ areasMeet a (4096 * n) b (512 * n) = true ∨ areasMeet a (4096 * n) d (4608 * m) = true
        ∨ areasMeet b (512 * n) d (4608 * m) = true then s.respond box c.coach Sc.badArg
    else
      let s := (s.setChip F.kvPoolBase a).setChip F.kvSclBase b
      let s := (s.setChip F.nPages n).setChip F.nCold m
      let s := ((s.setChip F.kvColdBase d).setChip F.kvFree n).setChip F.coldFree m
      ((s.poolMark).extendM 4 c.digest).respond box c.coach Sc.ok) s)

/-! ### Margining (R318, R319) -/

/-- MEM_MARGIN (R318, R319): the stacks named are margined: their patrols halt, and no MGN_RES is DONE any more. A command
that comes while stacks are margined joins their sweep (DESIGN CHOICE, log entry 94). Groups Q admits it only while every
coach is VACANT or HALTED. -/
def execMemMargin (box : Nat) (s : State) : Res :=
  .next (takeCommand 0x0203 box (fun c s =>
    let mask := c.arg 0 1
    let s := ((List.range 8).filter (bit mask)).foldl (fun s m => s.set (mcB m) F.mcSelfref 1) s
    let s := (List.range 512).foldl (fun s p => s.set (mgnB (p / 64) (p % 64)) F.mgnDone 0) s
    State.inProg { s with hbm := { s.hbm with margin := s.hbm.margin ||| mask } } c) s)

/-- MARGIN_DONE (R318, R319): the sweep ends. `eyes` gives, for each pseudo-channel of the margined stacks in ascending order,
the read eye (width + 256 × height) and the write eye that were measured. -/
def execMarginDone (eyes : List (Nat × Nat)) (s : State) : Res :=
  .next (if s.hbm.margin = 0 ∧ (s.findProg 0x0203 (fun _ => true)).isNone = true then s
    else
      let ms := (List.range 8).filter (bit s.hbm.margin)
      let pcs := ms.flatMap fun m => (List.range 64).map fun p => (m, p)
      let s := (pcs.zipIdx).foldl (fun (s : State) (e : (Nat × Nat) × Nat) =>
        let eye := eyes.getD e.2 (0, 0)
        let ok := 20 ≤ eye.1 % 256 && 16 ≤ eye.1 / 256 % 256 && 20 ≤ eye.2 % 256 && 16 ≤ eye.2 / 256 % 256
        s.setWord (mgnB e.1.1 e.1.2) (eye.1 % 65536 + eye.2 % 65536 * 65536 + 2 ^ 32 + b2n ok * 2 ^ 33)) s
      let s := ms.foldl (fun s m => s.set (mcB m) F.mcSelfref 0) s
      State.answerAll { s with hbm := { s.hbm with margin := 0 } } 0x0203 (fun _ => true) Sc.ok)

/-! ### Requests (R303-R306) -/

/-- The class of a bulk request: the coach's QoS class, or none for a request of no coach. -/
def State.qosOf (s : State) (c : Nat) : Nat := s.get (coachB c) F.coachQos

/-- The queue of a device block's fine accesses at a controller (R21). -/
def fineQueue (m : Nat) : Nat := Qk.fine 144 m

/-- A pseudo-channel serves the oldest access of its fine queue, and its credit returns (R21, R304). -/
def State.fineServe (s : State) (m c : Nat) : State :=
  let k := 64 * m + c
  match s.hbm.fineQ.find? fun e => e.1 == k with
  | none => s
  | some (_, r, f) =>
    let s := { s with hbm := { s.hbm with fineQ := s.hbm.fineQ.eraseP fun e => e.1 == k
                                          slots := SMap.modify 0 s.hbm.slots k (· - 3) } }
    let s := s.qLeave (fineQueue m)
    let a := r.addr / 32 * 32
    match r.write with
    | none => (s.mcRead a 32 r.cls true f).1
    | some d => (s.mcWrite a r.cls true (padTo 32 d) []).1

/-- A pseudo-channel serves its fine queue: all of it where no bulk work waits, else at most one access in every four burst
slots (R303); `fuel` bounds the accesses. -/
def State.finePump (s : State) (m c : Nat) : Nat → State
  | 0 => s
  | n + 1 =>
    if (s.hbm.fineQ.any fun e => e.1 == 64 * m + c) = false ∨ (s.bulkWaits m c = true ∧ SMap.look 0 s.hbm.slots (64 * m + c) < 3) then s
    else (s.fineServe m c).finePump m c n

/-- Bulk bursts of 32 bytes have taken their slots at the pseudo-channels of a request, and fine accesses follow them. -/
def State.bulkSlots (s : State) (a n : Nat) : State :=
  (piecesOf a n).foldl (fun s p =>
    let x := s.place p.1
    let k := 64 * x.1 + x.2
    let v := if s.bulkWaits x.1 x.2 then SMap.look 0 s.hbm.slots k + (p.2 + 31) / 32 else 0
    let s := ({ s with hbm := { s.hbm with slots := SMap.put 0 s.hbm.slots k v } } : State).finePump x.1 x.2 8
    { s with hbm := { s.hbm with slots := SMap.modify 0 s.hbm.slots k (min 3) } }) s

/-- The controllers write the pieces of a chunk: the state and the status. `bad` are offsets of words marked poisoned. -/
def State.writePieces (s : State) (k : Nat) (data : List Byte) (bad : List Nat) (ps : List (Nat × Nat)) : State × Nat :=
  (ps.foldl (fun (r : (State × Nat) × Nat) x =>
    let mine := (bad.filter fun o => r.2 ≤ o && o < r.2 + x.2).map (· - r.2)
    let q := r.1.1.mcWrite x.1 k false ((data.drop r.2).take x.2) mine
    ((q.1, if r.1.2 = Sc.ok then q.2 else r.1.2), r.2 + x.2)) ((s, Sc.ok), 0)).1

/-- What the controllers have read of a chunk. -/
structure Fetched where
  status : Nat := 0
  data : List Byte := []
  /-- Offsets of the words that come poisoned. -/
  bad : List Nat := []
deriving DecidableEq, Repr

/-- The controllers read the pieces of a chunk; `f` is what the first finds. -/
def State.readPieces (s : State) (k : Nat) (f : MemFind) (ps : List (Nat × Nat)) : State × Fetched :=
  ps.foldl (fun r x =>
    let n := r.2.data.length
    let q := r.1.mcRead x.1 x.2 k false (if n = 0 then f else {})
    (q.1, { status := if r.2.status = Sc.ok then q.2.1 else r.2.status, data := r.2.data ++ q.2.2.1
            bad := r.2.bad ++ (q.2.2.2.flatMap fun o => lineWords x.1 x.2 o).map (n + ·) })) (s, {})

/-- MC_BULK_REQUEST (R303): the controllers serve the bulk request of a core's tag once its class may start. Its carts leave the
request queues, and the data of a read leave on N2 for the landing space that the tag has reserved (R20, R21). -/
def execMcBulkRequest (core tag : Nat) (found : MemFind) (s : State) : Res :=
  .next (match (s.core core).tags.find? (·.1 == tag) with
    | none => s
    | some e =>
      let t := e.2
      let k := s.qosOf t.desc.coach
      let a := (t.pieces.headD (0, 0)).1
      if t.answer.isSome ∨ t.desc.aspace = 2 ∨ (t.pieces.any fun x => s.rangeHeld x.1 x.2) = true then s
      else if (t.pieces.any fun x => (s.unmapped x.1 x.2).isNone && !s.mayStartAll x.1 x.2 k) = true then
        s.countHeld a found.held
      else
        let s := s.countHeld a found.held
        let put (s : State) (t : Tag) : State := s.modCore core fun x =>
          { x with tags := x.tags.map fun (y : Nat × Tag) => if y.1 = tag then (tag, t) else y }
        let write := t.desc.op == 1
        let s := s.bulkAccepted core t.pieces write
        let s := if write then
            let r := s.writePieces k t.data t.bad t.pieces
            put r.1 { t with answer := some (r.2, []) }
          else
            let r := s.readPieces k found t.pieces
            let s := put r.1 { t with answer := some (r.2.status, r.2.data), bad := r.2.bad }
            (List.range (cartsOf r.2.data.length)).foldl (fun s _ =>
              s.qSend (Qk.response core) Ch.bulkResp (End.near core (.mc (s.place a).1)) (End.core core)) s
        t.pieces.foldl (fun s x => s.bulkSlots x.1 x.2) s)

/-- MC_FINE_REQUEST (R303, R304): a fine access of 32 bytes, which no regulator holds, enters the fine queue of its
pseudo-channel under a credit, and is served in its turn. -/
def execMcFineRequest (req : FineReq) (found : MemFind) (s : State) : Res :=
  .next (let x := s.place (req.addr / 32 * 32)
    let k := 64 * x.1 + x.2
    if s.rangeHeld req.addr 1 = true ∨ 8 ≤ (s.hbm.fineQ.countP fun e => e.1 == k) ∨ s.qRoom (fineQueue x.1) = false then s
    else
      let s : State := { s with hbm := { s.hbm with fineQ := s.hbm.fineQ ++ [(k, req, found)] } }
      (s.qPut (fineQueue x.1)).finePump x.1 x.2 8)

/-- MC_ADD_REQUEST (R305, R306). -/
def execMcAddRequest (req : AddReq) (found : MemFind) (s : State) : Res :=
  .next (if s.rangeHeld req.addr 1 then s else (s.mcAdd req found).1)

/-- The patrol meets the mirror copy of a line, or a line that backs no region, on pseudo-channel `c` of controller `m` (R309,
R311, R312): an error is corrected, or counted and recorded, and the row is retired where that is due. -/
def State.patrolOther (s : State) (m c l : Nat) (mirror : Bool) (f : MemFind) : State :=
  let lines := if mirror then s.rowLines (64 * l) else []
  let bad := if mirror then f.ecc = 2 ∧ bit (s.lineBad l) 1 = false else f.ecc = 2
  if bad then
    let s := if mirror then s.mirrorFound l else (s.bump (mcB m) F.mcEccUncorr).mcErr m c (64 * l) 0x61 7 0
    s.retireRow m c f.row (64 * l) 2 lines
  else if f.ecc = 1 then s.corrected m c f.row (64 * l) 2 lines
  else s

/-- PATROL_LINE (R311): pseudo-channel `pc` of controller `mc` reads the next line of its patrol: the one that its invisible
backing holds of address `addr`, or the mirror copy that it holds of it, or a line of no region. The patrol stops in STAND and
while its stack is margined. -/
def execPatrolLine (mc pc addr : Nat) (found : MemFind) (s : State) : Res :=
  .next (if 8 ≤ mc ∨ 64 ≤ pc ∨ s.trained mc = false ∨ s.get (mcB mc) F.mcSelfref = 1 ∨ s.stackHeld mc = true then s
    else
      let k := 64 * mc + pc
      let n := SMap.look 0 s.hbm.patrol k + 1
      let wrap := decide (20971520 ≤ n)
      let s := s.bump (mcB mc) F.mcScrubLines
      let hbm := { s.hbm with patrol := SMap.put 0 s.hbm.patrol k (if wrap then 0 else n)
                              corrected := if wrap then SMap.dropRange s.hbm.corrected (rowKey mc pc 0) (rowKey mc (pc + 1) 0)
                                           else s.hbm.corrected }
      let s : State := { s with hbm := hbm }
      let l := addr / 64
      let primary := (s.regionAt (64 * l)).isSome && s.place (64 * l) == (mc, pc)
      let copy := s.hasMirror (64 * l) && (s.mirrorStack (64 * l), (s.place (64 * l)).2) == (mc, pc)
      let s := if primary then (s.readLine l found).1 else s.patrolOther mc pc l copy found
      if (primary || copy) = true ∧ s.hasMirror (64 * l) = true ∧ s.lineBad l = 2 ∧ s.trained (s.mirrorStack (64 * l)) = true then
        s.queueRebuild l else s)

/-! ### The pin monitor (R316) -/

/-- Sum of a counter over every expander. -/
def State.xeSum (s : State) (f : Fld) : Nat :=
  (List.range 144).foldl (fun a p => (List.range 4).foldl (fun a e => a + s.get (xeB p e) f) a) 0

/-- PM_INTERVAL_END (R316): the increases of PAYLOAD_BYTES and TRITS_OUT over the interval are written, with PM_EFF. -/
def execPmIntervalEnd (s : State) : Res :=
  .next (let n := s.chip F.pmInterval
    if n = 0 ∨ s.gcount < s.hbm.pmStart + n then s
    else
      let p := s.xeSum F.xePayloadBytes
      let t := s.xeSum F.xeTritsOut
      let dp := (p + 2 ^ 64 - s.hbm.pmPayload0) % 2 ^ 64
      let dt := (t + 2 ^ 64 - s.hbm.pmTrits0) % 2 ^ 64
      let s := ((s.setChip F.pmPayload dp).setChip F.pmTrits dt).setChip F.pmNs n
      let s := (s.setChip F.pmEff (dp * 65536 * 10 / (196608 * n))).setChip F.pmEnd (s.hbm.pmStart + n)
      { s with hbm := { s.hbm with pmStart := s.hbm.pmStart + n, pmPayload0 := p, pmTrits0 := t } })

/-- STACK_TRAINING_LOSS (R418): a stack or its controller fails in service; its controller answers POISON from now on. -/
def execStackTrainingLoss (stack : Nat) (s : State) : Res :=
  .next (if 8 ≤ stack ∨ s.trained stack = false then s
    else (s.set (mcB stack) F.mcTrained 0).raise
      { cls := 7, sev := 2, cause := (Config.uncodedCause 0).toNat, unit := 8, inst := stack })

end Sys2Proof.Machine
end

