-- ==== Sys2Proof/Machine/Cut.lean ====
section
/-!
DEFINITION. Building a step: the cut (R232), the checks of its candidates (R228, R229, R148, R200), the opening of pages
(R203, R204), and the manifest (R233).
-/
namespace Sys2Proof.Machine

/-- The coach runs in lockstep (R361). -/
def State.lockstep (s : State) (c : Nat) : Bool := (s.coach c).launch.any fun l => l.started && l.p != 0

/-- A sequence may join a cut (R226, R326): READY, HOT, not exporting, its coach RUNNING. -/
def State.candidate (s : State) (slot : Nat) : Bool :=
  s.seq slot Se.state == Ss.ready && s.seq slot Se.tier == Tr.hot && s.seq slot Se.exporting == 0
    && (s.exportOf slot).isNone && s.coachState (s.seq slot Se.owner) == Cs.running

/-- A sequence of a cut may still be placed: a halt after the cut keeps its coach's rows (R327). -/
def State.stillCandidate (s : State) (slot : Nat) : Bool :=
  s.seq slot Se.state == Ss.ready && s.seq slot Se.tier == Tr.hot && s.seq slot Se.exporting == 0
    && (s.exportOf slot).isNone
    && (s.coachState (s.seq slot Se.owner) == Cs.running
        || (s.coachState (s.seq slot Se.owner) == Cs.draining && !(s.coach (s.seq slot Se.owner)).resetting))

/-- The candidates of a cut taken now: the ready sequences, and for a coach in lockstep exactly its snapshot (R232, R361). -/
def State.candidates (s : State) : List Nat :=
  s.liveSlots.filter fun n =>
    let c := s.seq n Se.owner
    s.candidate n && (!s.lockstep c || (s.coach c).launch.any fun l => l.snap.contains n)

/-- What the SB reads when it takes a cut: the entries of the candidates (R236), the settings of their coaches that apply from
the next cut (R341), and DECODE_CAP (R247). Writes that come later do not reach this cut (R25). -/
def State.readCut (s : State) (cs : List Nat) : State :=
  let owners := (cs.map fun n => s.seq n Se.owner).eraseDups
  { s with gs := { s.gs with
      cutSeq := cs.foldl (fun m n => SMap.put [] m n (s.memRead (s.seqB n) 256)) []
      cutCap := owners.foldl (fun m c => SMap.put [] m c
        [s.get (coachB c) F.coachQos, s.get (coachB c) F.coachRowsMax, s.get (coachB c) F.coachKvQuota]) []
      cutDecode := s.chip F.decodeCap + 1 } }

/-- A field of a candidate's entry as the cut read it; outside a cut, as it stands. -/
def State.cutOf (s : State) (slot : Nat) (f : EntF) : Nat :=
  match SMap.look [] s.gs.cutSeq slot with
  | [] => s.seq slot f
  | l => f.of l

/-- A configuration field of a candidate: from CFG once BOUND is set, else as the cut read the host part (R224, R236). -/
def State.cutCfg (s : State) (slot : Nat) (f : EntF) : Nat :=
  if s.seq slot Se.bound = 1 then s.cfg slot f else s.cutOf slot f

/-- The cut is used up. -/
def Gs.cutOver (g : Gs) : Gs := { g with cut := none, cutSeq := [], cutCap := [], cutDecode := 0 }

/-- Take the cut for the next step (R25, R232): DEADLINE is compared (R238), the ready vector is copied and cleared, the entries
are read, and the snapshots of lockstep coaches are used. -/
def State.takeCut (s : State) : State :=
  let s := s.liveSlots.foldl (fun s n => s.checkDeadline n) s
  let cs := s.candidates
  let s := s.readCut cs
  let s := { s with gs := { s.gs with cut := some cs, cutDone := true }
                    sb := { s.sb with ready := [] } }
  (s.coaches.filter fun e => s.lockstep e.1).foldl (fun s e =>
    s.modCoach e.1 fun c => { c with launch := c.launch.map fun l => { l with snap := [] } }) s

/-! ### Checks at the cut (R228, R229) -/

/-- The tokens of a candidate's rows. -/
def State.rowsOf (s : State) (slot : Nat) : Nat := if s.seq slot Se.promptDone = 1 then 1 else s.cutOf slot Se.ntok

/-- The INPUT word breaks R228. -/
def State.genBadInput (s : State) (slot : Nat) : Bool :=
  let ntok := s.cutOf slot Se.ntok
  let resume := s.cutOf slot Se.resume
  s.cutOf slot Se.gen != (s.seq slot Se.genDone + 1) % 2 ^ 32
    || ntok == 0 || decide (512 < ntok)
    || (s.seq slot Se.promptDone == 1 && ntok != 1)
    || (resume != 0 && !(s.hostPending slot && resume == s.seq slot Se.hlayer))
    || (resume == 0 && s.hostPending slot)

/-- A graph may be used by a coach: its own, or shared with it by an admin (R229). -/
def State.graphFor (s : State) (g c : Nat) : Bool :=
  (s.graph g).any fun x => x.coach == c || x.shared.contains c

/-- The page-list checks of R200. -/
def State.listBad (s : State) (slot : Nat) : Bool :=
  let c := s.seq slot Se.owner
  let len := s.cutCfg slot Se.listlen
  let dir := s.cutCfg slot Se.kvdir
  len % 2 == 1 || decide (len < 2) || decide (131072 < len) || dir % 8 != 0
    || (match s.graph (s.cutCfg slot Se.graph) with
        | none => false
        | some g => (List.range (g.comingLayers.filter Ld.attn).length).any fun a => s.coachNat Blk.sb c (dir + 8 * a) 8 % 16 != 0)

/-- The configuration checks at the first admission (R229, R148, R200): the failing status, or none. -/
def State.configBad (s : State) (slot : Nat) : Option Nat :=
  let g := s.cutCfg slot Se.graph
  let c := s.seq slot Se.owner
  let f := s.cutCfg slot Se.kvfmt
  if (s.graph g).isNone ∨ f = 0 ∨ f = 3 then some Sc.badArg
  else if s.graphFor g c = false then some Sc.denied
  else
    let ov := if s.cutCfg slot Se.ovl = 1 then
        (match (s.ovName (s.cutCfg slot Se.ovname)).cur with
         | none => some Sc.badArg
         | some i =>
           if (s.ovName (s.cutCfg slot Se.ovname)).owner ≠ some c then some Sc.denied
           else if (s.ove i).graph ≠ g then some Sc.badArg else none)
      else none
    match ov with
    | some st => some st
    | none => if s.listBad slot then some Sc.badArg else none

/-- The role of the device refuses the sequence (R229). -/
def State.roleBad (s : State) (slot : Nat) : Bool :=
  (s.chip F.sbRole == 2 && s.seq slot Se.promptDone == 0) || (s.chip F.sbRole == 1 && s.seq slot Se.promptDone == 1)

/-- A candidate that fails R228: GEN_DONE takes GEN, it goes IDLE and completes with BAD_ARG. -/
def State.refuseInput (s : State) (slot : Nat) : State :=
  let s := (s.setSeq slot Se.genDone (s.cutOf slot Se.gen)).setSeq slot Se.state Ss.idle
  (s.count F.genBad).complete slot Sc.badArg 0 0 (s.cutOf slot Se.gen)

/-- A candidate that fails R229: it completes with the status and goes to ENDING. -/
def State.refuseConfig (s : State) (slot status : Nat) : State :=
  let s := s.setSeq slot Se.genDone (s.cutOf slot Se.gen)
  let s := s.complete slot status 0 0 (s.cutOf slot Se.gen)
  ({ s with sb := { s.sb with ending := SMap.put 0 s.sb.ending slot (status + 1 + 512) } }).setSeq slot Se.state Ss.ending

/-- A candidate whose rows would pass the end of its page lists (R200): no row of it runs, and it completes with NO_RESOURCE
at the step boundary. It keeps its entry, and its input is consumed (DEDUCED, log entry 13). -/
def State.refuseLength (s : State) (slot : Nat) : State :=
  let s := (s.setSeq slot Se.genDone (s.cutOf slot Se.gen)).setSeq slot Se.state Ss.idle
  { s with sb := { s.sb with late := s.sb.late ++ [(slot, Sc.noResource)] } }

/-- The sequence has never held rows: its admission is the first (R229). -/
def State.firstAdmission (s : State) (slot : Nat) : Bool := s.seq slot Se.steps == 0

/-- Check the candidates of a cut in ascending slot; those that may be placed remain. -/
def State.checkCut (s : State) (cs : List Nat) : State × List Nat :=
  cs.foldl (fun (r : State × List Nat) n =>
    let s := r.1
    if s.stillCandidate n = false then (s, r.2)
    else if s.genBadInput n then (s.refuseInput n, r.2)
    else
      let bad := if s.firstAdmission n then s.configBad n else none
      match bad with
      | some st => (s.refuseConfig n st, r.2)
      | none =>
        if s.roleBad n then (s.refuseConfig n Sc.unsupported, r.2)
        else if 32 * s.cutCfg n Se.listlen < s.seq n Se.ntokens + s.rowsOf n then (s.refuseLength n, r.2)
        else (s, r.2 ++ [n])) (s, [])

/-! ### Opening pages (R203) -/

/-- The state, the pages wanted so far, and the picks left. -/
structure OpenAcc where
  s : State
  need : Nat := 0
  picks : List Nat := []
deriving DecidableEq, Repr

/-- A page for a span: its id, and the state with it taken. Where the pool has no page left only the need is counted. -/
def OpenAcc.take (r : OpenAcc) (slot c : Nat) : OpenAcc × Nat :=
  let p := r.s.pickPage (r.picks.headD noPage)
  if r.s.pageFree p then ({ s := r.s.takeHot slot c p, need := r.need + 1, picks := r.picks.tail }, p)
  else ({ r with need := r.need + 1, picks := r.picks.tail }, noPage)

/-- Open one span of a stream (R203). An entry that cannot be read or written is left as it is: its read faults in the
carriage (R202). -/
def OpenAcc.span (r : OpenAcc) (slot c fmt : Nat) (t : Stream) (i : Nat) : OpenAcc :=
  match t.list with
  | none => r
  | some b =>
    let a := b + 16 * i
    match (r.s.sbRead c a 16).2 with
    | none => { r with s := (r.s.sbRead c a 16).1 }
    | some e =>
      let r := { r with s := (r.s.sbRead c a 16).1 }
      if Pe.fmt e ≠ 0 ∨ r.s.xlateOk Blk.sb c a 16 true = false then r
      else
        let partner := if i % 2 = 1 then (r.s.coachRead Blk.sb c (a - 16) 16).getD [] else []
        if i % 2 = 1 ∧ Pe.fmt partner = 1 then
          { r with s := r.s.sbWrite c a (Pe.mk (Pe.page partner) 1 1 0 0 t.sid 0) }
        else if fmt = 2 ∨ (i % 2 = 1 ∧ Pe.fmt partner = 2) then
          let (r, p) := r.take slot c
          { r with s := r.s.sbWrite c a (Pe.mk p 2 0 0 0 t.sid 0) }
        else
          let (r, p) := r.take slot c
          let e := a - 16 * (i % 2)
          { r with s := (r.s.sbWrite c e (Pe.mk p 1 0 0 0 t.sid 0)).sbWrite c (e + 16) (Pe.mk p 1 1 0 0 t.sid 0) }

/-- Open every page that the appends of positions `first … last` need. -/
def State.openPages (s : State) (slot first last : Nat) (picks : List Nat) : OpenAcc :=
  let c := s.seq slot Se.owner
  let f := s.cutCfg slot Se.kvfmt
  (s.streams slot true).foldl (fun r t =>
    (upFrom (first / 32) (last / 32 - first / 32 + 1)).foldl (fun (r : OpenAcc) i => r.span slot c f t i) r)
    { s := s, picks := picks }

/-! ### Selection (R232) -/

/-- The cut as it fills. -/
structure CutAcc where
  s : State
  placed : List Nat := []
  gone : List Nat := []
  tot : Nat := 0
  dec : Nat := 0
  pre : Nat := 0
  graphs : List Nat := []
  used : SMap Nat := []
  common : Nat := 0
  picks : List Nat := []
  /-- Candidates deferred (R204), each with its coach and the kind of the refusal. -/
  defers : List (Nat × Nat × Nat) := []
deriving DecidableEq, Repr

/-- Rows that a coach's candidates want. -/
def State.wanted (s : State) (cs : List Nat) (c : Nat) : Nat :=
  (cs.filter fun n => s.seq n Se.owner == c).foldl (fun a n => a + s.rowsOf n) 0

/-- Rows set aside for a coach at this cut (R342). -/
def State.aside (s : State) (cs : List Nat) (c : Nat) : Nat := min (s.get (coachB c) F.coachResRows) (s.wanted cs c)

/-- Rows of the common part at this cut. -/
def State.room (s : State) (cs : List Nat) : Nat :=
  2048 - ((cs.map fun n => s.seq n Se.owner).eraseDups).foldl (fun a c => a + s.aside cs c) 0

/-- Admit a sequence whose rows fit and whose pages are open: the first admission copies the configuration, where an import
has not, and binds the overlay (R229, R148); STATE becomes RUNNING and GEN_DONE takes GEN (R226). -/
def State.admission (s : State) (slot : Nat) : State :=
  let cfg := match SMap.look [] s.gs.cutSeq slot with
    | [] => s.memRead (s.seqB slot) 24
    | l => l.take 24
  let s := if s.seq slot Se.bound = 1 then s else (s.memWrite (s.seqB slot + 192) cfg).setSeq slot Se.bound 1
  let s := if s.cfg slot Se.ovl = 1 ∧ s.seq slot Se.oveValid = 0 then
      match (s.ovName (s.cfg slot Se.ovname)).cur with
      | none => s
      | some i => ((s.bindOve i).setSeq slot Se.ove i).setSeq slot Se.oveValid 1
    else s
  let s := if s.cutOf slot Se.resume = 0 then s else s.setSeq slot Se.hlayer 0xFFFF
  let s := (s.setSeq slot Se.state Ss.running).setSeq slot Se.genDone (s.cutOf slot Se.gen)
  s.count (if s.seq slot Se.promptDone = 1 then F.rowsDecode else F.rowsPrefill) (s.rowsOf slot)

/-- Try to place one candidate (R232, R342, R204). -/
def CutAcc.place (r : CutAcc) (cs : List Nat) (dcap slot : Nat) : CutAcc :=
  let s := r.s
  let c := s.seq slot Se.owner
  let n := s.rowsOf slot
  let dec := s.seq slot Se.promptDone = 1
  let g := s.cutCfg slot Se.graph
  let a := s.aside cs c
  let u := SMap.look 0 r.used c
  let pagesOver := u + n - a
  let extra := pagesOver - (u - a)
  let rmax := min 2048 (s.capAt c 1)
  if (if dec then dcap < r.dec + n else 2048 < r.pre + n) ∨ 2048 < r.tot + n ∨ rmax = 0 ∨ rmax < pagesOver
      ∨ s.room cs < r.common + extra ∨ (r.graphs.contains g = false ∧ 32 ≤ r.graphs.length) then
    { r with gone := slot :: r.gone }
  else
    let first := s.seq slot Se.ntokens
    let o := s.openPages slot first (first + n - 1) r.picks
    let refuse := s.kvRefuse c o.need
    if refuse ≠ 0 then
      { r with s := s.deferRow slot c refuse, gone := slot :: r.gone, defers := r.defers ++ [(slot, c, refuse)] }
    else
      { r with s := o.s.admission slot, picks := o.picks, placed := r.placed ++ [slot], tot := r.tot + n
               dec := if dec then r.dec + n else r.dec, pre := if dec then r.pre else r.pre + n
               graphs := insertNat g r.graphs, used := SMap.put 0 r.used c (u + n), common := r.common + extra }

/-- One visit of a coach: its lowest-numbered unplaced candidate that fits. -/
def CutAcc.visit (r : CutAcc) (all cs : List Nat) (dcap c : Nat) : CutAcc :=
  cs.foldl (fun (r : CutAcc × Bool) n =>
    if r.2 ∨ r.1.s.seq n Se.owner ≠ c ∨ r.1.placed.contains n ∨ r.1.gone.contains n then r
    else
      let q := r.1.place all dcap n
      (q, q.placed.contains n)) (r, false) |>.1

/-- Rounds of visits until no coach has a candidate that fits. -/
def CutAcc.rounds (all cs : List Nat) (dcap : Nat) (order : List Nat) : Nat → CutAcc → CutAcc
  | 0, r => r
  | k + 1, r =>
    let q := order.foldl (fun (r : CutAcc) c => r.visit all cs dcap c) r
    if q.placed.length = r.placed.length then q else CutAcc.rounds all cs dcap order k q

/-- One pass over the QoS classes (R232). `pass` is 1 for decode and 2 for prefill candidates. -/
def CutAcc.pass (r : CutAcc) (all cs : List Nat) (dcap pass : Nat) : CutAcc :=
  (List.range 16).foldl (fun (r : CutAcc) q =>
    let owners := (cs.map fun n => r.s.seq n Se.owner).eraseDups.filter fun c => r.s.capAt c 0 == q
    let coaches := sortBy (fun a b => decide (a ≤ b)) owners
    match coaches with
    | [] => r
    | _ =>
      let k := 16 * pass + q
      let prev := SMap.look 0 r.s.sb.rr k
      let order := coaches.filter (fun c => prev ≤ c) ++ coaches.filter (fun c => c < prev)
      let s := { r.s with sb := { r.s.sb with rr := SMap.put 0 r.s.sb.rr k (order.headD 0 + 1) } }
      CutAcc.rounds all cs dcap order (cs.length + 1) { r with s := s }) r

/-- Place the snapshot of a lockstep coach ahead of every other candidate: all of it or none (R361). A row of it that is deferred
counts as any other (R204). -/
def CutAcc.snapshot (r : CutAcc) (all cs : List Nat) (dcap c : Nat) : CutAcc :=
  let mine := cs.filter fun n => r.s.seq n Se.owner == c
  let q := mine.foldl (fun (r : CutAcc) n => r.place all dcap n) r
  if mine.all fun n => q.placed.contains n then q
  else
    let s := (q.defers.drop r.defers.length).foldl (fun (s : State) d => s.deferRow d.1 d.2.1 d.2.2) r.s
    let s := (s.count F.launchMiss).event c 3
    let s := s.modCoach c fun x => { x with launch := none }
    { r with s := s.enterCoach c Cs.draining, gone := mine ++ r.gone, defers := q.defers }

/-- Select the rows of a step from checked candidates. -/
def State.selectRows (s : State) (cs picks : List Nat) : CutAcc :=
  let dec := cs.filter fun n => s.seq n Se.promptDone == 1
  let pre := cs.filter fun n => s.seq n Se.promptDone == 0
  let dcap := if pre = [] then 2048 else min 2048 (if s.gs.cutDecode = 0 then s.chip F.decodeCap else s.gs.cutDecode - 1)
  let lock := sortBy (fun a b => decide (a ≤ b)) ((cs.map fun n => s.seq n Se.owner).eraseDups.filter s.lockstep)
  let free (l : List Nat) : List Nat := l.filter fun n => !s.lockstep (s.seq n Se.owner)
  let r : CutAcc := { s := s, picks := picks }
  let r := lock.foldl (fun (r : CutAcc) c => r.snapshot cs cs dcap c) r
  let r := r.pass cs (free dec) dcap 1
  let older (a b : Nat) : Bool := decide (SMap.look 0 s.sb.skips b < SMap.look 0 s.sb.skips a)
    || (SMap.look 0 s.sb.skips b == SMap.look 0 s.sb.skips a && decide (a ≤ b))
  let aged := sortBy older ((free pre).filter fun n => 8 ≤ SMap.look 0 s.sb.skips n)
  let r := aged.foldl (fun (r : CutAcc) n => r.place cs dcap n) r
  let r := r.pass cs (free pre) dcap 2
  let skips := (free pre).foldl (fun m n =>
    SMap.put 0 m n (if r.placed.contains n then 0 else SMap.look 0 m n + 1)) r.s.sb.skips
  { r with s := { r.s with sb := { r.s.sb with skips := skips } } }

/-- The rows of a placed sequence (R233). -/
def State.rowsFor (s : State) (slot : Nat) : List Row :=
  let n := s.rowsOf slot
  (List.range n).map fun i =>
    { slot := slot, graph := s.cfg slot Se.graph, coach := s.seq slot Se.owner, pos := s.seq slot Se.ntokens + i
      gen := s.cutOf slot Se.gen, idx := i, ntok := n
      last := s.seq slot Se.promptDone == 0 && s.cutOf slot Se.lastTok == 1
      decode := s.seq slot Se.promptDone == 1, resume := s.cutOf slot Se.resume
      ove := if s.seq slot Se.oveValid = 1 then some (s.seq slot Se.ove) else none
      inAddr := s.cutOf slot Se.inAddr, kvdir := s.cfg slot Se.kvdir, listlen := s.cfg slot Se.listlen }

/-- The manifest of the placed sequences, in the order of R233. -/
def State.manifest (s : State) (placed : List Nat) : List Row :=
  let key (n : Nat) : Nat := s.cfg n Se.graph * 32768 + (1 - s.seq n Se.promptDone) * 16384 + n
  (sortBy (fun a b => decide (key a ≤ key b)) placed).flatMap s.rowsFor

/-- Build the manifest of a cut (R236): the candidates are checked, pages are opened, and the rows stand in order. -/
def State.buildManifest (s : State) (cs picks : List Nat) : State × List Row :=
  let s := s.coaches.foldl (fun s e => s.modCoach e.1 fun c => { c with deferred := [] }) s
  let q := s.checkCut cs
  let r := q.1.selectRows q.2 picks
  (r.s, r.s.manifest r.placed)

end Sys2Proof.Machine
end

