-- ==== Sys2Proof/Machine/Pages.lean ====
section
/-!
DEFINITION. KV pages: their layout (R197, R198), the quantisation of KV blocks (R50-R52), re-quantisation to A4 (R54), the cold
pages of a paused sequence (R211) and their way back (R214).
-/
namespace Sys2Proof.Machine

/-! ### Codes and scales (R49, R197) -/

/-- Greatest code of a page format: 7 for A4, 127 for A8 (R50). -/
def kvMax (fmt : Nat) : Nat := if fmt = 1 then 7 else 127

/-- The code of token slot `sl` and dimension `d` in a page of format `fmt` (R197). -/
def kvCode (fmt : Nat) (codes : List Byte) (sl d : Nat) : Int :=
  if fmt = 1 then signed 4 (bits (fieldLE codes (64 * sl + d / 2) 1) (4 * (d % 2)) 4)
  else signed 8 (fieldLE codes (128 * sl + d) 1)

/-- The scale of block `b` of token slot `sl` (R197). -/
def kvScale (scl : List Byte) (sl b : Nat) : BF := BitVec.ofNat 16 (fieldLE scl (2 * (4 * sl + b)) 2)

/-- The bytes of one token's 128 codes in a page of format `fmt` (R197). -/
def packCodes (fmt : Nat) (qs : List Int) : List Byte :=
  if fmt = 1 then
    (List.range (qs.length / 2)).map fun i =>
      Byte.ofNat (unsigned 4 (qs.getD (2 * i) 0) + 16 * unsigned 4 (qs.getD (2 * i + 1) 0))
  else qs.map fun q => Byte.ofNat (unsigned 8 q)

/-- The element index of value `e` of a token's vector (R52). -/
def kvIndex (slot pos e : Nat) : Nat := slot % 8192 * 2 ^ 48 + pos % 2 ^ 32 * 2 ^ 16 + e % 2 ^ 16

/-- Stochastic rounding of one value by a 16-bit draw (R50). -/
def roundDraw (r : F32) (u : Nat) : Int :=
  let fl := f32Floor r 0
  if (u : Int) < f32Floor r 16 - 65536 * fl then fl + 1 else fl

/-- The largest magnitude of finite values. -/
def maxAbs (xs : List F32) : F32 := xs.foldl (fun a x => f32Max a (f32Abs x)) f32Zero

/-- A quantised KV block: its scale, its codes, and whether it is a zero block. -/
structure KvBlock where
  scale : BF
  codes : List Int
  zero : Bool
  bad : Bool := false
deriving DecidableEq, Repr

/-- Quantise a KV block (R50): `draw` gives the 16-bit draw of each value. -/
def kvQuant (fmt : Nat) (draw : Nat → Nat) (xs : List F32) : KvBlock :=
  let none_ : List Int := xs.map fun _ => 0
  if xs.any F32.bad then { scale := 0, codes := none_, zero := false, bad := true }
  else
    let m := maxAbs xs
    let t := f32DivR .up m (f32OfInt (kvMax fmt))
    if t.isZero then { scale := 0, codes := none_, zero := true }
    else
      let s := f32ToBfR .up t
      { scale := s, codes := xs.zipIdx.map fun e => roundDraw (f32Div e.1 (BF.toF32 s)) (draw e.2), zero := false }

/-- Re-quantise the A8 codes of one block to A4 (R54). A block whose new scale would be zero is a zero block (DEDUCED, log entry
29); one whose scale is no valid scale takes open codes. -/
def kvRequant (draw : Nat → Nat) (s8 : BF) (qs : List Int) : KvBlock :=
  let none_ : List Int := qs.map fun _ => 0
  if s8 = 0 then { scale := 0, codes := none_, zero := true }
  else if scaleOk s8 = false then
    { scale := s8, codes := qs.map fun q => signed 4 (Config.openCode (256 * s8.toNat + unsigned 8 q)).toNat, zero := false }
  else
    let m := qs.foldl (fun a q => max a q.natAbs) 0
    let t := f32Mul (BF.toF32 s8) (f32OfInt m)
    let s4 := f32ToBfR .up (f32DivR .up t (f32OfInt 7))
    if (BF.toF32 s4).isZero then { scale := 0, codes := none_, zero := true }
    else
      { scale := s4, zero := false
        codes := qs.zipIdx.map fun e => roundDraw (f32Div (f32Mul (f32OfInt e.1) (BF.toF32 s8)) (BF.toF32 s4)) (draw e.2) }

/-! ### Pages in memory (R198) -/

/-- Device addresses of a hot page's codes and scale slot. -/
def State.pageCodes (s : State) (p : Nat) : Nat := s.chip F.kvPoolBase + 4096 * p
def State.pageScales (s : State) (p : Nat) : Nat := s.chip F.kvSclBase + 512 * p

/-- The 4,608 bytes of a hot page: codes, then its scale slot. -/
def State.pageBytes (s : State) (p : Nat) : List Byte := s.memRead (s.pageCodes p) 4096 ++ s.memRead (s.pageScales p) 512

/-- Some line of a hot page answers POISON. -/
def State.pagePoisoned (s : State) (p : Nat) : Bool := s.poisoned (s.pageCodes p) 4096 || s.poisoned (s.pageScales p) 512

/-- Write the 4,608 bytes of a hot page. -/
def State.writePage (s : State) (p : Nat) (l : List Byte) : State :=
  (s.memWrite (s.pageCodes p) (l.take 4096)).memWrite (s.pageScales p) ((l.drop 4096).take 512)

/-- Device address of a cold page (R206). -/
def State.coldAddr (s : State) (c : Nat) : Nat := s.chip F.kvColdBase + 4608 * c

/-! ### Pausing: span pairs become cold A4 pages (R211) -/

/-- One token of an A8 page re-quantised: its 64 code bytes and its 8 scale bytes. -/
def requantToken (K sid slot pos head : Nat) (codes scl : List Byte) (sl : Nat) : List Byte × List Byte :=
  let bs := (List.range 4).map fun b =>
    kvRequant (fun k => philoxDraw K sid (kvIndex slot pos (128 * head + 32 * b + k))) (kvScale scl sl b)
      ((List.range 32).map fun k => kvCode 2 codes sl (32 * b + k))
  (packCodes 1 (bs.flatMap (·.codes)), bs.flatMap fun b => leBytes 2 b.scale.toNat)

/-- The 32 tokens of one span in a cold A4 page: code bytes and scale bytes. A span with no page, and tokens at or beyond
`n`, are zero. -/
def State.coldSpan (s : State) (slot K head n span : Nat) (e : List Byte) : List Byte × List Byte :=
  let codes := s.memRead (s.pageCodes (Pe.page e)) 4096
  let scl := s.memRead (s.pageScales (Pe.page e)) 512
  let ts := (List.range 32).map fun j =>
    if Pe.fmt e ≠ 2 ∨ n ≤ 32 * span + j then (List.replicate 64 (0 : Byte), List.replicate 8 (0 : Byte))
    else requantToken K (Pe.stream e % 2 ^ 31 + 2 ^ 31) slot (32 * span + j) head codes scl j
  (ts.flatMap (·.1), ts.flatMap (·.2))

/-- One pair of spans of a stream on its way to the cold tier: the list entry's address, the hot pages it holds, the cold
page's 4,608 bytes, and the two entries' STREAM and RQ. -/
structure ColdPair where
  at_ : Nat
  hot : List Nat
  bytes : List Byte
  stream0 : Nat
  stream1 : Nat
  rq : Nat
  /-- KV blocks re-quantised for it (R139). -/
  blocks : Nat := 0
deriving DecidableEq, Repr

/-- The cold page of one pair (R211). -/
def State.coldPair (s : State) (slot K n : Nat) (t : Stream) (a j : Nat) (e0 e1 : List Byte) : ColdPair :=
  if Pe.fmt e0 = 1 ∨ Pe.fmt e1 = 1 then
    let e := if Pe.fmt e0 = 1 then e0 else e1
    { at_ := a, hot := [Pe.page e], bytes := s.pageBytes (Pe.page e), stream0 := Pe.stream e0, stream1 := Pe.stream e1
      rq := Pe.rq e }
  else
    let x := s.coldSpan slot K t.head n (2 * j) e0
    let y := s.coldSpan slot K t.head n (2 * j + 1) e1
    let hot := ([e0, e1].filter fun e => Pe.fmt e == 2).map Pe.page
    { at_ := a, hot := hot, bytes := x.1 ++ y.1 ++ x.2 ++ y.2, stream0 := Pe.stream e0 % 2 ^ 31 + 2 ^ 31
      stream1 := Pe.stream e1 % 2 ^ 31 + 2 ^ 31, rq := 1
      blocks := 4 * ((if Pe.fmt e0 = 2 then min 32 (n - 64 * j) else 0) + if Pe.fmt e1 = 2 then min 32 (n - 64 * j - 32) else 0) }

/-- The pairs of a sequence in the order of R211; the status of the move where a list or a page cannot be read or a list cannot be
written (DEDUCED, log entry 30). -/
def State.coldPairs (s : State) (slot : Nat) : Except Nat (List ColdPair) :=
  let c := s.seq slot Se.owner
  let n := s.seq slot Se.ntokens
  let K := s.get (coachB c) F.coachSeed
  (s.streams slot).foldlM (fun acc t =>
    match t.list with
    | none => .error Sc.badArg
    | some b => (List.range ((n + 63) / 64)).foldlM (fun acc j =>
        let a := b + 32 * j
        if s.xlateOk Blk.sb c a 32 true = false then .error Sc.badArg
        else if s.coachPoisoned Blk.sb c a 32 then .error Sc.poison
        else match s.coachRead Blk.sb c a 32 with
          | none => .error Sc.badArg
          | some l =>
            let p := s.coldPair slot K n t a j (l.take 16) (l.drop 16)
            if p.hot.any s.pagePoisoned then .error Sc.poison else .ok (acc ++ [p])) acc) []

/-- Rewrite the two entries of a pair for a cold page `k` in tier 1 (cold HBM) or 2 (host memory), and free its hot pages. -/
def State.toCold (s : State) (slot tier k : Nat) (p : ColdPair) : State :=
  let c := s.seq slot Se.owner
  let crc := crc32c p.bytes
  let s := s.sbWrite c p.at_ (Pe.mk k 1 0 tier p.rq p.stream0 crc ++ Pe.mk k 1 1 tier p.rq p.stream1 crc)
  p.hot.foldl (fun s h => if SMap.look 0 s.sb.pageOf h = slot + 1 then s.freeHot c h else s) s

/-! ### Resuming (R214) -/

/-- A cold page on its way back: the entry's address, the page or host index, the entries, and its bytes. -/
structure WarmPair where
  at_ : Nat
  page : Nat
  e0 : List Byte
  e1 : List Byte
  bytes : List Byte
deriving DecidableEq, Repr

/-- The cold pages of a paused sequence in order, checked against their CRCs; `data` holds those read from host memory. -/
def State.warmPairs (s : State) (slot : Nat) (host : Bool) (data : Memory) : Except Nat (List WarmPair) :=
  let c := s.seq slot Se.owner
  let n := s.seq slot Se.ntokens
  (s.streams slot).foldlM (fun acc t =>
    match t.list with
    | none => .error Sc.integrity
    | some b => (List.range ((n + 63) / 64)).foldlM (fun acc j =>
        let a := b + 32 * j
        if s.coachPoisoned Blk.sb c a 32 then .error Sc.poison
        else match s.coachRead Blk.sb c a 32 with
          | none => .error Sc.integrity
          | some l =>
            let k := Pe.page l
            if !host && s.poisoned (s.coldAddr k) 4608 then .error Sc.poison
            else
              let bytes := if host then Memory.read data (4608 * k) 4608 else s.memRead (s.coldAddr k) 4608
              if crc32c bytes = Pe.crc l then .ok (acc ++ [({ at_ := a, page := k, e0 := l.take 16, e1 := l.drop 16, bytes := bytes } : WarmPair)])
              else .error Sc.integrity) acc) []

/-- A cold page comes back into hot page `p` as A4, RQ and STREAM kept (R214). -/
def State.toHot (s : State) (slot p : Nat) (w : WarmPair) : State :=
  let c := s.seq slot Se.owner
  let s := s.writePage p w.bytes
  let s := { s with sb := { s.sb with pageOf := SMap.put 0 s.sb.pageOf p (slot + 1) } }
  s.sbWrite c w.at_ (Pe.mk p 1 0 0 (Pe.rq w.e0) (Pe.stream w.e0) 0 ++ Pe.mk p 1 1 0 (Pe.rq w.e1) (Pe.stream w.e1) 0)

/-! ### Shipment digests (R219) -/

/-- The modulus of digests. -/
def digestP : Nat := 2 ^ 61 - 1

/-- Coefficient c_i of a stream of coefficients: key, and the third counter word (R219, R391). -/
def digestCoefOf (key third i : Nat) : Nat :=
  let m := i / 2
  let c := philoxFrom 10 (key % 2 ^ 32, key / 2 ^ 32 % 2 ^ 32) (m % 2 ^ 32, m / 2 ^ 32 % 2 ^ 32, third, 0)
  (if i % 2 = 0 then c.2.1 * 2 ^ 32 + c.1 else c.2.2.2 * 2 ^ 32 + c.2.2.1) % digestP

/-- What page number `k` of a shipment adds to its digest. -/
def pageDigest (ticket k : Nat) (data : List Byte) : Nat :=
  (List.range (data.length / 8)).foldl (fun a j =>
    (a + digestCoefOf ticket 0xFFFFFF01 (k * 576 + j) * (fieldLE data (8 * j) 8 % digestP)) % digestP) 0

end Sys2Proof.Machine
end

