-- ==== Sys2Proof/Machine/Gs.lean ====
section
/-!
DEFINITION. The graph scheduler: dispatch units (R258), arming (R259), completion, replay and ends of units (R84, R270,
R403), charging and withdrawal of cores (R402-R406), ledger snapshots (R500) and the step boundary.
-/
namespace Sys2Proof.Machine

/-! ### Ledger snapshots (R499, R500) -/

/-- Credit queues whose credits do not add up to the pool (R499, R501), and EKL counters whose credits are out of range or whose
buffer does not hold what was accepted and not freed. -/
def State.creditTerms (s : State) : List (Nat × Nat × Nat × Nat × Nat) :=
  let q := (s.noc.queues ++ s.noc.mesh.map fun e => (Qk.mesh e.1, e.2)).filterMap fun e =>
    let pool := (Qk.pool e.1).getD e.2.spent
    if e.2.ok e.1 then none else some (0, 0, e.1, pool - e.2.spent + e.2.flight + e.2.buffer + e.2.back, pool)
  let ekl := s.link.ports.flatMap fun e => (List.range 16).filterMap fun k =>
    let held := (SMap.look 0 e.2.init k + SMap.look 0 e.2.cum k + 4096 - SMap.look 0 e.2.sent k % 4096) % 4096
    let inBuf := (SMap.look 0 e.2.accepted k + 4096 - SMap.look 0 e.2.freed k % 4096) % 4096
    if SMap.look 0 e.2.init k < held then some (1, 0, 16 * e.1 + k, held, SMap.look 0 e.2.init k)
    else if SMap.look 0 e.2.rxFlits k ≠ inBuf then some (1, 0, 16 * e.1 + k, SMap.look 0 e.2.rxFlits k, inBuf)
    else none
  q ++ ekl

/-- Terms that differ in the state now (R499): class, coach + 1 or 0, instance, observed, expected. -/
def State.ledgerTerms (s : State) : List (Nat × Nat × Nat × Nat × Nat) :=
  let void := s.chip F.ledgerStatusVoid
  let tag := (List.range 144).filterMap fun p =>
    let bound := (s.core p).tags.length
    if bound ≤ 64 then none else some (2, 0, p, bound, 64)
  let tbl := (List.range 16).filterMap fun n =>
    let held := (List.range 144).foldl (fun a p => a + ((s.core p).xe.foldl (fun a x =>
      a + (x.blocks.filter fun b => b.ref && bits (fieldLE b.entry 2 1) 0 4 == n).length) 0)) 0
    if s.get (tblB n) F.tblCount = held then none else some (3, 0, n, s.get (tblB n) F.tblCount, held)
  let ove := s.sb.oves.filterMap fun e =>
    let held := (s.liveSlots.filter fun n => s.seq n Se.oveValid == 1 && s.seq n Se.ove == e.1).length
    if e.2.st = 0 ∨ e.2.refs = held then none else some (4, e.2.coach + 1, e.1, e.2.refs, held)
  let kv := (if s.chip F.kvFree + s.chip F.kvUsed + s.chip F.reserved = s.chip F.nPages then []
      else [(5, 0, 0, s.chip F.kvFree + s.chip F.kvUsed + s.chip F.reserved, s.chip F.nPages)])
    ++ (if s.chip F.coldFree + s.chip F.coldUsed = s.chip F.nCold then []
      else [(5, 0, 1, s.chip F.coldFree + s.chip F.coldUsed, s.chip F.nCold)])
    ++ (let held := s.coaches.foldl (fun a e => a + e.2.pages) 0
      if held = s.chip F.kvUsed then [] else [(5, 0, 2, held, s.chip F.kvUsed)])
  let queued := s.log.q0.length + s.log.q1.length + s.log.q2.length + s.log.q3.length
  let rec6 := if s.chip F.recRaised = s.chip F.recWritten + queued + s.chip F.recDropped then []
    else [(6, 0, 0, s.chip F.recRaised, s.chip F.recWritten + queued + s.chip F.recDropped)]
  (s.creditTerms ++ tag ++ tbl ++ ove ++ kv ++ rec6).filter fun t => !bit void t.1

/-- A ledger trigger (R500, R502): a snapshot is taken, or the trigger merges into the next audit while one is evaluated.
None is taken while MP_DOWN reads 1, in STAND or during a chip warm reset. -/
def State.ledgerTrigger (s : State) : State :=
  if s.chip F.mpDown = 1 ∨ s.log.hold = true ∨ s.chip F.clkStatusSrc = 4 then s
  else if s.ledger.running then
    ({ s with ledger := { s.ledger with again := true } }).count F.auditMerged
  else
    let snap := s.ledgerTerms
    (({ s with ledger := { s.ledger with running := true, again := false, lastAt := s.gcount, snap := snap } }).setChip
      F.ledgerStatusBusy 1).setChip F.auditLast s.gcount

/-! ### Units (R256-R258) -/

/-- The key of the unit a carriage belongs to: chains and merges by their ids, others alone. -/
def unitKey (c : List Byte) (i : Nat) : Nat :=
  if Ca.inChain c then 2 ^ 20 + Ca.chain c else if Ca.isLe c then 2 ^ 21 + Ca.chain c else i

/-- The dispatch units of a graph, in ascending lowest member (R258). -/
def Graph.units (g : Graph) (gid : Nat) : List UnitSt :=
  let keyed := g.carrs.zipIdx.map fun e => (unitKey e.1 e.2, e.2)
  ((keyed.map (·.1)).eraseDups).map fun k => { graph := gid, members := (keyed.filter (·.1 == k)).map (·.2) }

/-- A carriage of a registered graph; empty bytes where there is none. -/
def State.carr (s : State) (gid i : Nat) : List Byte := ((s.graph gid).map fun g => g.carrs.getD i []).getD []

/-- The key of a carriage in the coupling counts. -/
def carrKey (gid i : Nat) : Nat := 65536 * gid + i

/-- The key of a carriage that a core holds. -/
def TdItem.key (t : TdItem) : Nat := carrKey t.graph t.index

/-- Rows of a graph in the step. -/
def State.nrow (s : State) (gid : Nat) : Nat := (s.graphRows gid).length

/-- A unit's window holds no rows: it is void (R256). -/
def State.unitVoid (s : State) (u : UnitSt) : Bool :=
  u.members.all fun i => (window (s.carr u.graph i) (s.nrow u.graph)).2 == 0

/-- Every member's pending count is zero (R258). -/
def State.unitReady (s : State) (u : UnitSt) : Bool :=
  u.members.all fun i => SMap.look 0 s.gs.sat (carrKey u.graph i) == Ca.nin (s.carr u.graph i)

/-- Change the unit at a position. -/
def State.modUnit (s : State) (k : Nat) (f : UnitSt → UnitSt) : State :=
  { s with gs := { s.gs with units := modifyAt s.gs.units k f } }

/-- The unit that holds a carriage: its position. -/
def State.unitOf (s : State) (gid i : Nat) : Option Nat :=
  s.gs.units.findIdx? fun u => u.graph == gid && u.members.contains i

/-- Note when a unit has become ready (R354). -/
def State.noteReady (s : State) : State :=
  { s with gs := { s.gs with units := s.gs.units.map fun (u : UnitSt) =>
      if u.st = 0 ∧ u.readyAt = 0 ∧ s.unitReady u = true then { u with readyAt := s.gcount + 1 } else u } }

/-- The out-couplings of a unit's members are satisfied, each consumer's count by one (R258). -/
def State.couple (s : State) (u : UnitSt) : State :=
  match s.graph u.graph with
  | none => s
  | some g =>
    State.noteReady { s with gs := { s.gs with sat := (u.members.flatMap fun i => g.outs.getD i []).foldl (fun m j =>
        SMap.put 0 m (carrKey u.graph j) (SMap.look 0 m (carrKey u.graph j) + 1)) s.gs.sat } }

/-- The manifest numbers of the rows in a unit's windows. -/
def State.unitRows (s : State) (u : UnitSt) : List Nat :=
  let r0 := s.row0 u.graph
  (u.members.flatMap fun i =>
    let w := window (s.carr u.graph i) (s.nrow u.graph)
    upFrom (r0 + w.1) w.2).eraseDups

/-- Mask rows of the step by manifest number with a status (R270). -/
def State.maskRows (s : State) (ms : List Nat) (status : Nat) : State :=
  s.mapRows fun m r => if ms.contains m ∧ r.done = false then r.mask status else r

/-- End the units that consume from an ended unit, without dispatching them; repeated down the graph (R270). -/
def endPass (s : State) : State :=
  (List.range s.gs.units.length).foldl (fun (s : State) k =>
    match s.gs.units[k]? with
    | none => s
    | some u =>
      if u.st ≠ 0 then s
      else
        match s.gs.units.find? (fun v => v.st == 2 && v.status != 0 && v.graph == u.graph
          && (s.graph v.graph).any fun g => v.members.any fun i => (g.outs.getD i []).any u.members.contains) with
        | none => s
        | some v =>
          let s := s.modUnit k fun u => { u with st := 2, status := v.status }
          (s.maskRows (s.unitRows u) v.status).couple u) s

/-- As many passes as there are units. -/
def endPasses : Nat → State → State
  | 0, s => s
  | n + 1, s => endPasses n (endPass s)

/-- A unit ends without recovery (R270). -/
def State.endUnit (s : State) (k status : Nat) : State :=
  match s.gs.units[k]? with
  | none => s
  | some u =>
    let s := s.modUnit k fun u => { u with st := 2, status := status }
    let s := ((s.maskRows (s.unitRows u) status).couple u).count F.unitEnded
    endPasses s.gs.units.length s

/-- A unit completes: its flags join the step flags of the rows in its windows (R263), and its couplings are satisfied. -/
def State.completeUnit (s : State) (k : Nat) : State :=
  match s.gs.units[k]? with
  | none => s
  | some u =>
    let ms := s.unitRows u
    let s := s.modUnit k fun u => { u with st := 2 }
    let s := if u.flags = 0 then s else s.mapRows fun m r => if ms.contains m then { r with flags := r.flags ||| u.flags } else r
    s.couple u

/-! ### Arming (R259) -/

/-- PASS of a graph's carriages in this step, without ATTEMPT (R265). -/
def Graph.pass (g : Graph) (attempt : Nat) : Nat := g.armedSteps * 256 + attempt % 256

/-- PASS of a unit's present attempt (R265). -/
def State.unitPass (s : State) (u : UnitSt) : Nat := ((s.graph u.graph).map fun g => g.pass u.attempt).getD 0

/-- A unit of a coach has a member in a chain. -/
def State.inChain (s : State) (u : UnitSt) (coach chain : Nat) : Bool :=
  (s.graph u.graph).any (fun g => g.coach == coach) && u.members.any fun i => Ca.inChain (s.carr u.graph i) && Ca.chain (s.carr u.graph i) == chain

/-- The REPLAYs that came before their unit was armed (R266): its attempts that they abandon are not made. -/
def State.earlyReplays (s : State) : State :=
  s.gs.replays.foldl (fun (s : State) e =>
    let hit (u : UnitSt) : Bool := u.st == 0 && s.inChain u e.1 e.2.1 && s.unitPass u == e.2.2
    { s with gs := { s.gs with
        units := s.gs.units.map fun (u : UnitSt) => if hit u then { u with attempt := u.attempt + 1 } else u
        replays := if s.gs.units.any hit then s.gs.replays.erase e else s.gs.replays } }) s

/-- A PASS of a coach's chain may still come to run here: no graph that has the chain has gone past it. -/
def State.passAhead (s : State) (coach chain pass : Nat) : Bool :=
  s.graphs.all fun e => e.2.all fun g => g.coach != coach || !(g.carrs.any fun c => Ca.inChain c && Ca.chain c == chain)
    || decide (g.armedSteps < pass / 256)
    || (g.armedSteps == pass / 256 && s.gs.units.any fun u => s.inChain u coach chain && decide (s.unitPass u < pass))

/-! ### Carts of chains that come from another device (R265, R370) -/

/-- The chain id of a drawbar cart. -/
def chainOfMsg (m : Msg) : Nat := fieldLE m.data 0 2

/-- The cart that a drawbar message carries (R77, R265). -/
def cartOf (m : Msg) : Cart :=
  let t := m.data
  { chain := fieldLE t 0 2, row := bits (fieldLE t 2 1) 0 6, qtr := bits (fieldLE t 2 1) 6 2, group := bits (fieldLE t 3 1) 0 5
    hop := fieldLE t 4 1, res := bits (fieldLE t 5 1) 0 2, coach := bits (fieldLE t 6 2) 0 12
    sat := (List.range 64).map fun i => bit (fieldLE t 8 8) i
    vals := (List.range 64).map fun i => signed 32 (fieldLE t (16 + 4 * i) 4), pass := m.arg }

/-- The carriages of a graph at the position before that of a chain's carriage. -/
def Graph.before (g : Graph) (c : List Byte) : Option (List Byte) :=
  g.carrs.find? fun b => Ca.inChain b && Ca.chain b == Ca.chain c && Ca.pos b + 1 == Ca.pos c && !Ca.remote b

/-- The carriage that a chain's link from another device feeds: in a LINKED graph of the coach in the header, the member of
that chain past position 0 whose predecessor is not here. The rest of the cart's tag is the engine's to check (R78). -/
def State.cartTarget (s : State) (m : Msg) : Option (Nat × Graph × Nat) :=
  s.graphs.findSome? fun e => match e.2 with
    | none => none
    | some g =>
      if g.linked && g.coach == m.coach then
        (g.carrs.findIdx? fun b => Ca.inChain b && Ca.chain b == chainOfMsg m && Ca.pos b != 0 && (g.before b).isNone).map
          fun i => (e.1, g, i)
      else none

/-- PASS of the device's own carriage of a chain now (R265): of its unit in the step, or of the last step of the graph. -/
def State.ownPass (s : State) (gid : Nat) (g : Graph) (i : Nat) : Nat :=
  match (s.unitOf gid i).bind fun k => s.gs.units[k]? with
  | some u => g.pass u.attempt
  | none => g.pass 255

/-- Return credits of a chain link to the node that a cart came from (R370, R373). -/
def State.barCredit (s : State) (m : Msg) (n : Nat) : State :=
  s.send { mtype := 0x23, vc := 6, dst := m.src, coach := m.coach, addr := chainOfMsg m + n * 65536, arg := m.arg }

/-- Compare a cart's PASS with the carriage's own (R265): it goes to the TE, is discarded as stale, or waits. True where it
waits. -/
def State.cartArrives (s : State) (m : Msg) : State × Bool :=
  let c := cartOf m
  match s.cartTarget m with
  | none => ((s.count F.staleCarts).barCredit m 1, false)
  | some (gid, g, i) =>
    let own := s.ownPass gid g i
    if c.pass < own then ((s.count F.staleCarts).barCredit m 1, false)
    else if own < c.pass then (s, true)
    else
      let b := g.carrs.getD i []
      match s.phys (g.pbase + Ca.lcore b) with
      | none => (s, true)
      | some p =>
        let key := 65536 * gid + c.chain
        let s := { s with link := { s.link with
          barFrom := SMap.put [] s.link.barFrom key (insertNat m.src (SMap.look [] s.link.barFrom key)) } }
        (s.modCore p fun x => { x with te := modifyAt x.te (Ca.te b) fun (t : Te) => { t with link := t.link ++ [{ c with graph := gid, node := m.src }] } }, false)

/-- Look again at the carts that wait, where the PASS of a carriage has risen (R265). -/
def State.takeCarts (s : State) : State :=
  s.link.carts.foldl (fun s m =>
    let r := s.cartArrives m
    if r.2 then { r.1 with link := { r.1.link with carts := r.1.link.carts ++ [m] } } else r.1)
    { s with link := { s.link with carts := [] } }

/-- Change a registered graph. -/
def State.modGraph (s : State) (gid : Nat) (f : Graph → Graph) : State :=
  { s with graphs := SMap.put none s.graphs gid ((s.graph gid).map f) }

/-- The address of the active copy of a layer descriptor in the graph store (R248, R260). -/
def State.ldesc (s : State) (g : Graph) (layer : Nat) : Nat := s.chip F.gsStore + g.base + g.ldofs + 128 * layer

/-- A graph with its staged layer descriptors, and the pin lists read with them, in the active copy. -/
def Graph.taken (g : Graph) : Graph :=
  { g with layers := g.comingLayers, staged := [], stagedPins := []
           pins := g.staged.foldl (fun m e => SMap.put [] m e.1 (SMap.look [] g.stagedPins e.1)) g.pins }

/-- Copy the staged layer descriptors of every graph into its active copy in the graph store (R252). -/
def State.applyStaged (s : State) : State :=
  let s := s.graphs.foldl (fun (s : State) e => match e.2 with
    | none => s
    | some g => g.staged.foldl (fun s d => s.memWrite (s.ldesc g d.1) d.2) s) s
  { s with graphs := s.graphs.map fun e => (e.1, e.2.map Graph.taken) }

/-- Take the set of units ready at the start of a quantum; the time each waited for it counts in QUANTUM_WAIT (R354). -/
def State.takeQuantum (s : State) : State :=
  let units := s.gs.units.filter fun u => u.st == 0 && s.unitReady u
  let key (u : UnitSt) : Nat := carrKey u.graph (u.members.headD 0)
  let waited := (units.filter fun u => !s.gs.quantumSet.contains (key u)).foldl (fun a u => a + (s.gcount + 1 - u.readyAt)) 0
  (({ s with gs := { s.gs with quantum := s.gcount, quantumSet := units.map key } } : State)).count F.quantumWait waited

/-- Nothing of a coach is dispatched (R326): it is VACANT, HALTED or FAULTED, or its reset is pending (R345). -/
def State.coachStopped (s : State) (c : Nat) : Bool :=
  (s.coachState c != Cs.running && s.coachState c != Cs.draining) || (s.coach c).resetting

/-- Arm the step for a manifest (R259). The units of a coach that has stopped since the cut end undispatched. In the safe state its rows end at once with INTEGRITY. -/
def State.arm (s : State) (rows : List Row) : State :=
  let s := s.applyStaged
  let gids := ((rows.map (·.graph)).eraseDups).filter fun g => (s.graph g).isSome
  let s := gids.foldl (fun s g => s.modGraph g fun x => { x with armedSteps := x.armedSteps + 1 }) s
  let units := gids.flatMap fun g => ((s.graph g).map fun x => if s.coachStopped x.coach then (x.units g).map fun (u : UnitSt) =>
    { u with st := 2, status := Sc.cancelled } else x.units g).getD []
  let s := { s with gs := { s.gs.cutOver with
    active := true, rows := rows, units := units, sat := [], posted := none, cur := 0, cutDone := false, boundary := s.gcount
    quantumSet := [], predMiss := [], predPairs := [], predActive := [] } }
  let s := s.earlyReplays.takeCarts.noteReady
  let s := if s.strictTime then s.takeQuantum else s
  if s.safe then
    { s with gs := { s.gs with rows := s.gs.rows.map fun (r : Row) => r.mask Sc.integrity
                               units := s.gs.units.map fun (u : UnitSt) => { u with st := 2, status := Sc.integrity } } }
  else s

/-! ### Charging and withdrawal (R402-R406) -/

/-- SPARE cores left (R419). -/
def State.spares (s : State) : Nat := ((List.range 144).filter fun p => s.get (pcoreB p) F.pcoreState == 1).length

/-- The spare for core `p` (R14, R405): the lowest SPARE core of its quadrant, else of the others. -/
def State.spareFor (s : State) (p : Nat) : Option Nat :=
  let sp := (List.range 144).filter fun q => s.get (pcoreB q) F.pcoreState == 1
  match sp.find? (fun q => quadOf q == quadOf p) with
  | some q => some q
  | none => sp.head?

/-- Take the results of a dispatched member out of its unit. -/
def State.dropMember (s : State) (gid i : Nat) : State :=
  match s.unitOf gid i with
  | some k => s.modUnit k fun u => { u with out := u.out.filter (· != i) }
  | none => s

/-- Zero words with no owner in every SPM row of a core (R289). -/
def State.clearSpm (s : State) (p : Nat) : State :=
  { s with spm := { bytes := SMap.dropRange s.spm.bytes (2 ^ 22 * p) (2 ^ 22 * (p + 1))
                    owner := SMap.dropRange s.spm.owner (2 ^ 22 * p) (2 ^ 22 * (p + 1))
                    poison := s.spm.poison.filter fun a => a < 2 ^ 22 * p || 2 ^ 22 * (p + 1) ≤ a } }

/-- The words of core `p`'s SPM stand in core `q`'s. R29 and R405 say that a step's results do not change when its discarded
units run again on the spare, and R407's worked chain gives the bits of a step without the fault: the spare then holds what the
step's earlier carriages wrote for the logical core (DEDUCED, log entry 42). -/
def State.carrySpm (s : State) (p q : Nat) : State :=
  let mine (a : Nat) : Bool := decide (2 ^ 22 * p ≤ a) && decide (a < 2 ^ 22 * (p + 1))
  let at_ (a : Nat) : Nat := a - 2 ^ 22 * p + 2 ^ 22 * q
  let s := s.clearSpm q
  { s with spm := { bytes := (s.spm.bytes.filter fun e => mine e.1).foldl (fun m e => Memory.write m (at_ e.1) [e.2]) s.spm.bytes
                    owner := (s.spm.owner.filter fun e => mine e.1).foldl (fun m e => SMap.put 0 m (at_ e.1) e.2) s.spm.owner
                    poison := (s.spm.poison.filter mine).foldl (fun m a => insertNat (at_ a) m) s.spm.poison } }

/-- The registers of a core's window clear (R273, R405). -/
def State.clearCoreRegs (s : State) (p : Nat) : State :=
  { s with regs := s.regs.filter fun e => e.1 < coreB p || coreB (p + 1) ≤ e.1 }

/-- Release the slot references that the blocks in a core's expanders hold (R102, R114). -/
def State.releaseBlocks (s : State) (bs : List XBlock) : State :=
  (bs.filter (·.ref)).foldl (fun s b =>
    let n := bits (fieldLE b.entry 2 1) 0 4
    let c := s.get (tblB n) F.tblCount
    let s := s.set (tblB n) F.tblCount (c - 1)
    if s.get (tblB n) F.tblState = 2 ∧ c ≤ 1 then s.set (tblB n) F.tblState 0 else s) s

/-- The queues whose carts a core receives, or whose requests it has at the controllers (R21). -/
def Qk.atCore (p k : Nat) : Bool :=
  let n := k % 2 ^ 24
  match k / 2 ^ 24 with
  | 1 => n == p
  | 3 => n / 8 == p
  | 5 | 6 => n / 4 == p
  | 7 => n % 1024 / 4 == p
  | 8 => n % 144 == p
  | 10 | 11 => n == p
  | _ => false

/-- The carts at a core leave its buffers unread, and their credits return (R19, R290, R499). -/
def State.dropQueues (s : State) (p : Nat) : State :=
  (s.noc.queues.filter fun e => Qk.atCore p e.1).foldl (fun s e => s.qLeave e.1 (e.2.flight + e.2.buffer)) s

/-- Isolate a core (R289, R405): its carriages, tags and engine states end, its SPM and registers clear. -/
def State.isolate (s : State) (p : Nat) : State :=
  let s := s.releaseBlocks ((s.core p).xe.flatMap (·.blocks))
  let s := s.dropQueues p
  let s := { s with cores := SMap.put {} s.cores p { emptyAt := s.gcount } }
  (s.clearSpm p).clearCoreRegs p

/-- The key of the dispatch credit that a carriage holds (R21, R342): its logical core and its coach. -/
def TdItem.credit (t : TdItem) : Nat := 4096 * (t.pbase + Ca.lcore t.carr) + t.coach

/-- Every carriage on a core ends; its units are discarded, their other members are ordered to end, and they are dispatched
again (R29, R405). -/
def State.discardCore (s : State) (p : Nat) : State :=
  let items := (s.core p).td ++ (s.core p).disp
  items.foldl (fun s t =>
    let s : State := { s with gs := { s.gs with credits := SMap.modify 0 s.gs.credits t.credit (· - 1) } }
    match s.unitOf t.graph t.index with
    | none => s
    | some k =>
      let s := s.dropMember t.graph t.index
      match s.gs.units[k]? with
      | none => s
      | some u => (s.orderEnd u Sc.integrity).modUnit k fun u => { u with redo := true }) s

/-- Withdraw core `p` (R405, R406). `cause` is the PCORE CAUSE of R420. -/
def State.withdraw (s : State) (p cause : Nat) : State :=
  let b := pcoreB p
  let st := s.get b F.pcoreState
  if st = 1 then
    ((s.set b F.pcoreState 4).set b F.pcoreCause cause).count F.withdrawals
  else if st ≠ 2 ∧ st ≠ 3 then s
  else
    let l := s.get b F.pcoreLogical
    let s := if s.chip F.ftStatusTesting = p then s.setChip F.ftStatusTesting 0xFF else s
    let s := s.answerAll 0x000B (fun q => q.par == [p]) Sc.badArg
    let s := s.discardCore p
    let mark (s : State) : State :=
      (((s.set b F.pcoreState 4).set b F.pcoreCause cause).set b F.pcoreDeferred 0).count F.withdrawals
    let note (q : Nat) : LogRec :=
      { cls := 3, sev := 2, cause := 0x80, fw := true, lcore := some l
        detail := [Byte.ofNat p, Byte.ofNat l, Byte.ofNat q, Byte.ofNat cause] }
    match s.spareFor p with
    | none => ((mark s).isolate p).raiseSafe (note 0xFF)
    | some q =>
      let s := (mark s).setWord (coremapB l) (coremapWord s.nCores l q)
      let s := (s.set (pcoreB q) F.pcoreState 2).set (pcoreB q) F.pcoreLogical l
      let s := if s.chip F.ftStatusTesting = q then s.setChip F.ftStatusTesting 0xFF else s
      let fresh : Core := { due := (s.core q).due, lastTest := (s.core q).lastTest, cleared := (s.core q).cleared, emptyAt := s.gcount }
      let s := { s with cores := SMap.put {} s.cores q fresh }
      let s := if s.gs.active then s.carrySpm p q else s
      let s := (s.isolate p).raise (note q)
      s.raise { cls := 0, sev := 0, cause := 0x87, detail := [Byte.ofNat l, Byte.ofNat p, Byte.ofNat q] }

/-- Charge a residue fault of a unit's attempt to a core or to none (R402), and note a core that qualifies for withdrawal
(R404). -/
def State.charge (s : State) (gid i : Nat) (core : Option Nat) : State :=
  match core with
  | none => s.count F.resUncharged
  | some p =>
    let s := s.bumpSat (pcoreB p) F.pcoreResTotal
    if s.get (pcoreB p) F.pcoreState = 4 then s
    else
      let recent := (SMap.look [] s.gs.charges p).filter fun t => s.gcount < t + 60000000000
      let s := { s with gs := { s.gs with charges := SMap.put [] s.gs.charges p ((recent ++ [s.gcount]).drop (recent.length + 1 - 4)) } }
      let k := s.unitOf gid i
      let before := match k.bind fun k => s.gs.units[k]? with
        | some u => u.charged0.contains p
        | none => false
      let s := match k with
        | some k => s.modUnit k fun u => { u with charged1 := insertNat p u.charged1 }
        | none => s
      let why := if before then 1 else if 3 ≤ recent.length then 2 else 0
      if why = 0 ∨ s.gs.withdrawQ.any (·.1 == p) then s
      else
        let q := sortBy (fun a b => decide (a.1 ≤ b.1)) (s.gs.withdrawQ ++ [(p, why)])
        { s with gs := { s.gs with withdrawQ := q } }

/-- Withdraw the cores that qualify, the lower physical number first (R417). -/
def State.withdrawals (s : State) : State :=
  s.gs.withdrawQ.foldl (fun s e => s.withdraw e.1 e.2) { s with gs := { s.gs with withdrawQ := [] } }

/-! ### The end of a unit's attempt (R84, R258, R266, R403) -/

/-- The local members of a chain hold its last position. -/
def State.holdsLast (s : State) (u : UnitSt) : Bool :=
  u.members.all fun i =>
    let c := s.carr u.graph i
    !Ca.inChain c || u.members.any fun j => Ca.pos (s.carr u.graph j) == Ca.lenm1 c

/-- Nodes of a chain that are known here, for CHAIN_DONE and REPLAY (R266): the next position's node, and the nodes its carts
came from. -/
def State.chainNodes (s : State) (u : UnitSt) : List Nat :=
  let next := u.members.filterMap fun i => if Ca.remote (s.carr u.graph i) then some (Ca.node (s.carr u.graph i)) else none
  let before := u.members.flatMap fun i =>
    if Ca.inChain (s.carr u.graph i) then SMap.look [] s.link.barFrom (65536 * u.graph + Ca.chain (s.carr u.graph i)) else []
  (next ++ before).eraseDups

/-- CHAIN_DONE has come for a unit's present attempt (R266). -/
def State.chainIsDone (s : State) (u : UnitSt) : Bool :=
  u.chainDone || s.gs.chainDone.any fun e => e.2.2 == s.unitPass u && s.inChain u e.1 e.2.1

/-- Settle a unit none of whose members is out (R258, R403, R270): it ends, is dispatched again, waits for CHAIN_DONE, or
completes. -/
def State.settle (s : State) (k : Nat) : State :=
  match s.gs.units[k]? with
  | none => s
  | some u =>
    if u.st ≠ 1 ∨ u.out ≠ [] ∨ (u.unsent ≠ [] ∧ u.status = 0 ∧ u.faulted = false ∧ u.redo = false) then s
    else
    let s := { s with gs := { s.gs with endQ := s.gs.endQ.filter fun e => !(e.2.1 == u.graph && u.members.contains e.2.2.1) } }
    if u.status ≠ 0 then s.endUnit k u.status
    else if u.faulted ∨ u.redo then
      if u.faulted ∧ 3 ≤ u.attempt then (s.count F.unitGiveup).endUnit k Sc.integrity
      else if u.faulted ∧ s.sev1Full then s.endUnit k Sc.integrity
      else
        let s := s.modUnit k fun u => { u with
          st := 0, unsent := [], attempt := u.attempt + 1, faulted := false, redo := false, flags := 0
          charged0 := u.charged1, charged1 := [], readyAt := s.gcount + 1 }
        (s.count F.unitReplays).earlyReplays.takeCarts
    else if s.holdsLast u = false ∧ s.chainIsDone u = false then s
    else s.completeUnit k

/-- Settle every unit. -/
def State.settleAll (s : State) : State := (List.range s.gs.units.length).foldl (fun s k => s.settle k) s

/-! ### Exports and pauses that begin at a boundary (R209, R217, R218) -/

/-- The pages of a sequence in shipment order (R211, R218): stream, span, entry. -/
def State.seqPages (s : State) (slot : Nat) : List (Stream × Nat × List Byte) :=
  let c := s.seq slot Se.owner
  let n := s.seq slot Se.ntokens
  (s.streams slot).flatMap fun t =>
    match t.list with
    | none => []
    | some b => (List.range ((n + 31) / 32)).filterMap fun i =>
        match s.coachRead Blk.sb c (b + 16 * i) 16 with
        | none => none
        | some e => if Pe.fmt e = 2 ∨ (Pe.fmt e = 1 ∧ Pe.half e = 0) then some (t, i, e) else none

/-- The header cart of a shipment (R218). -/
def State.shipHeader (s : State) (slot ticket attempt : Nat) : List Byte :=
  let layers := ((s.graph (s.cfg slot Se.graph)).map fun g => g.attnLayers.length).getD 0
  let b := packFields 252 [(0, 8, ticket), (8, 2, s.node), (10, 1, attempt), (12, 4, s.seq slot Se.ntokens),
    (16, 2, layers), (20, 4, s.cfg slot Se.listlen), (24, 4, (s.seqPages slot).length)]
  b ++ leBytes 4 (crc32c b)

/-- An export starts (R217): the sequence leaves the cuts and its shipment header is sent. -/
def State.startExport (s : State) (slot dest ticket : Nat) : State :=
  let s := s.setSeq slot Se.exporting 1
  let e : Exp := { dest := dest, ticket := ticket, st := 1, sentAt := s.gcount }
  let s := { s with sb := { s.sb with exports := SMap.put ({ dest := 0, ticket := 0 } : Exp) s.sb.exports slot e } }
  s.shipSend dest ticket (s.seq slot Se.owner) (s.shipHeader slot ticket 0)

/-- Change an export. -/
def State.setExport (s : State) (n : Nat) (e : Exp) : State :=
  { s with sb := { s.sb with exports := s.sb.exports.map fun x => if x.1 = n then (n, e) else x } }

/-- The sender ends an export without a commit (R221): the sequence completes with the status and SHIP_FAILED. -/
def State.failExport (s : State) (n status : Nat) (tell : Bool) : State :=
  (s.abortExport n status tell).complete n status Cf.shipFailed 0 (s.seq n Se.genDone)

/-- A loss ends an attempt of a shipment (R221): it starts again from its header with ATTEMPT + 1; the third loss aborts it. -/
def State.shipRestart (s : State) (slot : Nat) (e : Exp) : State :=
  if 2 ≤ e.losses then
    let s := s.raise { cls := 10, sev := 0, cause := (Config.uncodedCause 4).toNat, unit := 9
                       coach := some (s.seq slot Se.owner), detail := leBytes 2 e.dest }
    s.failExport slot Sc.timeout true
  else
    let s := s.setExport slot { e with st := 1, attempt := e.attempt + 1, losses := e.losses + 1, resent := [], sentAt := s.gcount }
    s.shipSend e.dest e.ticket (s.seq slot Se.owner) (s.shipHeader slot e.ticket (e.attempt + 1))

/-- Shipments with a message among those that a port lost (R221, R394): each starts again where a route to its node stands; else its
answer timeout starts it once the firmware has routed it anew. -/
def State.shipsLost (s : State) (lost : List Msg) : State :=
  (s.sb.exports.filter fun e => e.2.st != 0 && (lost.any fun m => m.mtype == 0x30 && m.src == s.node && m.dst == e.2.dest
    && m.arg == e.2.ticket) && (s.route s.node e.2.dest (s.seq e.1 Se.owner)).isSome).foldl (fun s e => s.shipRestart e.1 e.2) s

/-- Cold pages that a move needs (R211): the pairs of every stream. -/
def State.coldNeed (s : State) (slot : Nat) : Nat := (s.streams slot).length * ((s.seq slot Se.ntokens + 63) / 64)

/-- The write of a cold page to host memory (R211): 288 data units on VC1. -/
def State.sendCold (s : State) (slot addr : Nat) (bytes : List Byte) : State :=
  let c := s.seq slot Se.owner
  let p := s.get (coachB c) F.coachHport
  s.request p { mtype := 1, vc := 1, space := 3, dst := s.hostNode p, coach := c, addr := addr, data := bytes } (.cold slot)

/-- A pause whose move cannot be made ends: the sequence stays HOT with its pages, and its command fails (R211). -/
def State.failPause (s : State) (slot status : Nat) : State :=
  let s := { s with sb := { s.sb with moves := s.sb.moves.filter (·.1 != slot) } }
  (s.setSeq slot Se.tier Tr.hot).answerAll 0x0403 (fun q => q.par.head? == some slot) status

/-- A pause starts (R209): TIER goes to TO_COLD, and in the cold HBM tier its pages count as used in both tiers (R207); to host
memory its pages are sent. -/
def State.startPause (s : State) (slot : Nat) (m : Move) : State :=
  let n := s.coldNeed slot
  if m.host = false ∧ s.chip F.coldFree < n then s.failPause slot Sc.noResource
  else
    let s := s.setSeq slot Se.tier Tr.toCold
    let s := { s with sb := { s.sb with moves := s.sb.moves.map fun (e : Nat × Move) =>
        if e.1 = slot then (e.1, { e.2 with waiting := false }) else e } }
    if m.host then
      match s.coldPairs slot with
      | .error st => s.failPause slot st
      | .ok ps => (ps.zipIdx).foldl (fun (s : State) e => s.sendCold slot (m.buf + 4608 * e.2) e.1.bytes) s
    else (s.drop chipB F.coldFree n).bump chipB F.coldUsed n

/-- The pauses that have been accepted start (R209). -/
def State.startPauses (s : State) : State :=
  (s.sb.moves.filter fun e => e.2.waiting).foldl (fun (s : State) (e : Nat × Move) => s.startPause e.1 e.2) s

/-! ### Coaches at a boundary (R326, R327, R345) -/

/-- The coach has no work in flight: no carriage dispatched, no row in the step or the posted manifest, no pause, resume or shipment
(R326, R328). -/
def State.coachIdle (s : State) (c : Nat) : Bool :=
  !(s.gs.active && s.gs.rows.any fun r => r.coach == c)
    && !(s.gs.posted.any fun l => l.any fun r => r.coach == c)
    && !(s.gs.cut.any fun l => l.any fun n => s.stillCandidate n && s.seq n Se.owner == c)
    && !(s.sb.moves.any fun e => s.seq e.1 Se.owner == c) && !(s.sb.exports.any fun e => s.seq e.1 Se.owner == c)

/-- The pending reset of a coach completes (R345, steps 4 and 5; R505). -/
def State.finishReset (s : State) (c : Nat) : State :=
  let s := (s.slotsOf c).foldl (fun s n => s.endSeq n Sc.cancelled 0) s
  let s := (s.sb.oves.filter fun e => e.2.st != 0 && e.2.coach == c).foldl (fun (s : State) e =>
    let o := s.ove e.1
    let held := (s.liveSlots.filter fun n => s.seq n Se.oveValid == 1 && s.seq n Se.ove == e.1).length
    if o.st = 0 ∨ o.refs = held then s
    else
      let s := s.setOve e.1 { o with refs := held }
      let s := if o.st = Os.retiring ∧ held = 0 then s.freeOve e.1 else s
      s.raise { cls := 8, sev := 0, cause := 0x84, fw := true, coach := some c
                detail := leBytes 2 e.1 ++ [0, 0] ++ leBytes 4 o.refs ++ leBytes 4 held }) s
  let s := (List.range 4).foldl (fun s v => s.trySend (4 * c + v) true) s
  let s := (s.set (coachB c) F.coachResetPend 0).bump (coachB c) F.coachCoachResets
  let s := (s.modCoach c fun x => { x with resetting := false, launch := none }).enterCoach c Cs.halted
  (s.answerAll 0x0105 (fun q => q.coach == c) Sc.ok).answerAll 0x0104 (fun q => q.coach == c) Sc.ok

/-- What a step boundary, or no step, does for a DRAINING coach or one whose reset is pending (R326, R327, R345). -/
def State.coachBoundary (s : State) (c : Nat) : State :=
  if (s.coach c).resetting then (if s.coachIdle c then s.finishReset c else s)
  else if s.coachState c = Cs.draining ∧ s.coachIdle c then
    (s.enterCoach c Cs.halted).answerAll 0x0104 (fun q => q.coach == c) Sc.ok
  else s

/-- The translation caches drop the pages of the unmaps that wait, and their responses return (R336). -/
def State.dropUnmapped (s : State) : State :=
  let ps := s.inprog.filter fun q => q.op == 0x0107
  let gone (k : Nat) : Bool := SMap.look 0 s.xlate.map k == 0
  if ps = [] then s
  else
    let kept : SMap (List (Nat × Nat)) := s.xlate.caches.map fun e => (e.1, e.2.filter fun x => !gone x.1)
    let s := { s with xlate := { s.xlate with caches := kept.filter fun e => e.2 != [] } }
    s.answerAll 0x0107 (fun _ => true) Sc.ok

/-! ### The step boundary (R259 and what the other chapters do at it) -/

/-- A written CHIP_MODE takes effect (R348). -/
def State.applyMode (s : State) : State :=
  match s.gs.modeNext with
  | none => s
  | some v =>
    let s := (s.setChip F.effStrict (v % 2)).setChip F.effStrictTime (v / 2 % 2)
    ({ s with gs := { s.gs with modeNext := none } }).setChip F.chipModePending 0

/-- A role set by SET_ROLE takes effect, and its command returns. -/
def State.applyRole (s : State) : State :=
  match s.gs.roleNext with
  | none => s
  | some v => (({ s with gs := { s.gs with roleNext := none } }).setChip F.sbRole v).answerAll 0x0002 (fun _ => true) Sc.ok

/-- A layer's misses so far are over its threshold (R244). -/
def State.overMiss (s : State) (g layer pairs : Nat) : Bool :=
  let l := ((s.graph g).map fun g => g.layers.getD layer []).getD []
  decide (Pd.missThr l * pairs < SMap.look 0 s.gs.predMiss (65536 * g + layer) * 65536)

/-- The predictor audit of a step (R244): a layer whose misses exceed its threshold is counted and logged. -/
def State.predAudit (s : State) : State :=
  s.gs.predPairs.foldl (fun s e =>
    let m := SMap.look 0 s.gs.predMiss e.1
    if s.overMiss (e.1 / 65536) (e.1 % 65536) e.2 then
      (s.count F.predBreach).raise { cls := 0, sev := 0, cause := 0x85, graph := e.1 / 65536
                                     coach := (s.graph (e.1 / 65536)).map (·.coach)
                                     detail := leBytes 2 (e.1 % 65536) ++ [0, 0] ++ leBytes 4 m ++ leBytes 4 e.2 }
    else s) s

/-- Some audited layer that one of these rows used is over its threshold: a layer that RESUME masks for a row is not used by it
(R234, R244). -/
def State.predMissed (s : State) (g : Nat) (rows : List Row) : Bool :=
  s.gs.predPairs.any fun e => e.1 / 65536 == g && s.overMiss g (e.1 % 65536) e.2 &&
    rows.any fun r => !(r.resume != 0 && decide (e.1 % 65536 ≤ r.resume))

/-- The rows of the step leave it (R226, R239, R240, R270): masked rows complete with their status, and each sequence goes
to IDLE, READY or ENDING. -/
def State.closeRows (s : State) : State :=
  let slots := (s.gs.rows.map (·.slot)).eraseDups
  slots.foldl (fun s n =>
    match s.gs.rows.find? fun r => r.slot == n with
    | none => s
    | some r =>
      let s := s.setSeq n Se.steps (s.seq n Se.steps + 1)
      let bad := ((s.gs.rows.filter fun x => x.slot == n && x.status != 0).head?.map (·.status)).getD 0
      let mine := s.gs.rows.filter fun x => x.slot == n
      let fl := mine.foldl (fun a x => a ||| x.flags) 0 ||| if s.predMissed r.graph mine then Cf.predMiss else 0
      let closing := SMap.look 0 s.sb.reg n / 4 % 2 = 1
      let s := if bad ≠ 0 ∧ s.rowDone n = false ∧ s.seq n Se.state = Ss.running
        then s.complete n bad fl 0 r.gen else s
      if s.seq n Se.state ≠ Ss.running then s
      else if closing then s.setEnding n Sc.ok true
      else s.setSeq n Se.state (if s.seq n Se.gen = s.seq n Se.genDone then Ss.idle else Ss.ready)) s

/-- The exports that begin at this boundary: a final prefill chunk has returned its hidden state (R217). -/
def State.exportsDue (s : State) : List Nat :=
  ((s.gs.rows.filter fun r => r.last && r.done && r.status == 0 && r.trip.isNone).map (·.slot)).eraseDups.filter fun n =>
    s.cfg n Se.exportBit == 1 && s.seq n Se.promptDone == 1 && s.seq n Se.state != Ss.ending

/-- What happens at a step boundary before the next step is armed. -/
def State.boundaryCore (s : State) : State :=
  let s := s.count F.steps
  let s := s.predAudit
  let ex : List Nat := s.exportsDue
  let s := s.closeRows
  let s := { s with gs := { s.gs with active := false, step := s.gs.step + 1, rows := [], units := [], sat := [], quantumSet := [] } }
  let s := (s.freeEnding).flushLate
  let s := s.liveSlots.foldl (fun s n => (s.checkDeadline n).checkTtl n) s
  let s := ex.foldl (fun s n =>
    if s.seq n Se.state = Ss.free ∨ s.seq n Se.state = Ss.ending then s else s.startExport n (s.seq n Se.dest) (s.seq n Se.ticket)) s
  let s := s.startPauses
  let s := s.applyMode.applyRole
  let s := s.applyStaged
  let s := s.liveCoaches.foldl (fun s c => s.coachBoundary c) s
  let s := s.dropUnmapped
  s.ledgerTrigger

/-- Every unit of the step in progress has completed. -/
def State.stepDone (s : State) : Bool := s.gs.active && s.gs.units.all fun u => u.st == 2

/-- The step boundary, where the last unit has completed; the next step is armed when its manifest is posted. A manifest
posted in the safe state ends at its own boundary at once (R406). -/
def State.boundary (s : State) : State :=
  if s.stepDone = false ∨ s.log.hold = true then s
  else
    let s := s.boundaryCore
    match s.gs.posted with
    | some (r :: rs) =>
      let s := s.arm (r :: rs)
      if s.stepDone then s.boundaryCore else s
    | _ => { s with gs := { s.gs with posted := none } }

/-- The cut for the next step is taken once the last carriage of the step has been dispatched (R25). -/
def State.maybeCut (s : State) : State :=
  if s.gs.active = true ∧ s.log.hold = false ∧ s.gs.cutDone = false
      ∧ s.gs.units.all (fun u => u.st == 2 || (u.st == 1 && u.unsent == [])) = true then s.takeCut else s

end Sys2Proof.Machine
end

