-- ==== Sys2Proof/Machine/Scheduler.lean ====
section
/-!
DEFINITION. The commands of the step batcher and the graph scheduler (09, 10): inputs and ends of sequences, the manifest,
dispatch and completion.
-/
namespace Sys2Proof.Machine

/-! ### Writes to sequence entries (R222, R223, R226, R237) -/

/-- The snoop of an INPUT word (R226, R236): the ready bit is set, the staged copy is dropped, and an IDLE sequence with new
input becomes READY. -/
def State.inputWritten (s : State) (slot : Nat) : State :=
  let s := { s with sb := { s.sb with staged := SMap.put [] s.sb.staged slot [] } }
  if s.seq slot Se.gen = s.seq slot Se.genDone then s
  else
    let s := { s with sb := { s.sb with ready := insertNat slot s.sb.ready } }
    if s.seq slot Se.state = Ss.idle then s.setSeq slot Se.state Ss.ready else s

/-- The snoop of a CTRL word (R237): CLOSE, then CANCEL, is registered. -/
def State.ctrlWritten (s : State) (slot : Nat) : State :=
  let s := { s with sb := { s.sb with staged := SMap.put [] s.sb.staged slot [] } }
  let s := if s.seq slot Se.close = 1 then s.registerEnd slot Sc.ok else s
  if s.seq slot Se.cancel = 1 then s.registerEnd slot Sc.cancelled else s

/-- A write of bytes into sequence entry `slot` by a coach (R222, R223): the owner's writes reach bytes 0-127, and the
controller snoops the INPUT and CTRL words; any other write is discarded and counted. -/
def State.entryWrite (s : State) (coach slot off : Nat) (l : List Byte) : State :=
  if s.seqTable = false ∨ 8192 ≤ slot ∨ s.seq slot Se.state = Ss.free ∨ s.seq slot Se.owner ≠ coach then s.count F.seqWdeny
  else
    let l := l.take (128 - off)
    let s := s.memWrite (s.seqB slot + off) l
    let hit (a b : Nat) : Bool := decide (off < b) && decide (a < off + l.length)
    let s := if hit 32 40 then s.inputWritten slot else s
    if hit 64 68 then s.ctrlWritten slot else s

/-- SEQ_INPUT_WRITE (R226, R227, R236): a coach writes the 8-byte INPUT word of an entry. -/
def execSeqInputWrite (coach slot word : Nat) (s : State) : Res := .next (s.entryWrite coach slot 32 (leBytes 8 word))

/-- SEQ_CANCEL_BIT (R237, R239, R240): a coach writes CANCEL into the CTRL word of an entry. -/
def execSeqCancelBit (coach slot : Nat) (s : State) : Res := .next (s.entryWrite coach slot 64 (leBytes 4 1))

/-- SEQ_CLOSE_BIT (R237, R240): a coach writes CLOSE into the CTRL word of an entry. -/
def execSeqCloseBit (coach slot : Nat) (s : State) : Res := .next (s.entryWrite coach slot 64 (leBytes 4 2))

/-- SEQ_ENTRY_STAGED (R236): the SB keeps a copy of an entry whose ready bit is set; the buffer holds 2,048. -/
def execSeqEntryStaged (slot : Nat) (s : State) : Res :=
  .next (if s.sb.ready.contains slot = true ∧ SMap.look [] s.sb.staged slot = [] ∧ s.sb.staged.length < 2048 then
    { s with sb := { s.sb with staged := SMap.put [] s.sb.staged slot (s.memRead (s.seqB slot) 256) } } else s)

/-! ### Deadlines and timers (R213, R238, R240) -/

/-- DEADLINE_CHECK (R238): DEADLINE is compared with GCOUNT for every RUNNING sequence while a step runs, for every live one
while none does. -/
def execDeadlineCheck (s : State) : Res :=
  .next ((s.liveSlots.filter fun n => !s.gs.active || s.seq n Se.state == Ss.running).foldl (fun s n => s.checkDeadline n) s)

/-- DEADLINE_EXPIRY (R238, R239): the comparison that finds GCOUNT at or past DEADLINE registers the expiry. -/
def execDeadlineExpiry (slot : Nat) (s : State) : Res := .next (s.checkDeadline slot)

/-- SB_IDLE_TIMER (R205, R213, R238, R240, R345): while no step runs, the SB compares deadlines and times to live, frees what
is ending, starts the pauses and completes the resets and drains that wait for a boundary. -/
def execSbIdleTimer (s : State) : Res :=
  .next (if s.gs.active = true ∨ s.log.hold = true then s
    else
      let s := s.liveSlots.foldl (fun s n => (s.checkDeadline n).checkTtl n) s
      let s := ((s.freeEnding).flushLate).startPauses
      s.liveCoaches.foldl (fun s c => s.coachBoundary c) s)

/-- KV_TTL_EXPIRY (R213): the time to live of a COLD sequence has passed. -/
def execKvTtlExpiry (slot : Nat) (s : State) : Res := .next (s.checkTtl slot)

/-- IMPORT_TTL_EXPIRY (R216): the time to live of an open import has passed. -/
def execImportTtlExpiry (idx : Nat) (s : State) : Res :=
  .next (if (SMap.look {} s.sb.imports idx).st = 1 ∧ (SMap.look {} s.sb.imports idx).expiry ≤ s.gcount
    then s.closeImport idx else s)

/-! ### The manifest (R232-R236) -/

/-- Post a manifest: armed at once where no step runs, else at the boundary (R236, R259). -/
def State.post (s : State) (rows : List Row) : State :=
  if s.gs.active then { s with gs := { s.gs.cutOver with posted := some rows } }
  else (s.arm rows).boundary

/-- MANIFEST_READY (R232-R236, R228, R229, R203): the SB checks the candidates of the cut, opens their pages and posts the
manifest. With no step in progress and no cut taken, the cut is taken now. `pages` are the page ids that the pool hands out,
`waitNs` the time the GS waited for the manifest. -/
def execManifestReady (pages : List Nat) (waitNs : Nat) (s : State) : Res :=
  .next (if s.log.hold then s else match s.gs.cut with
    | some cs =>
      let r := s.buildManifest cs pages
      let t := if s.gs.active then r.1 else r.1.count F.manifestWait waitNs
      if r.2 = [] then { t with gs := t.gs.cutOver } else t.post r.2
    | none =>
      if s.gs.active = true ∨ s.seqTable = false ∨ s.candidates = [] then s
      else
        let s := s.takeCut
        let r := s.buildManifest (s.gs.cut.getD []) pages
        let t := r.1
        if r.2 = [] then { t with gs := { t.gs.cutOver with cutDone := false } } else t.post r.2)

/-! ### Dispatch (R259, R260, R342, R354) -/

/-- Dispatch credits reserved for a coach on a logical core (R342). -/
def State.resDisp (s : State) (l c : Nat) : Nat :=
  if s.graphs.any fun e => e.2.any fun g => g.coach == c && g.pbase ≤ l && l < g.pbase + g.pcount
  then s.get (coachB c) F.coachResDisp else 0

/-- Credits a coach holds on a logical core. -/
def State.heldDisp (s : State) (l c : Nat) : Nat := SMap.look 0 s.gs.credits (4096 * l + c)

/-- A dispatch credit is there for a coach on a logical core (R21, R342): from its reservation, else from the common part
within its cap. -/
def State.creditFor (s : State) (l c : Nat) : Bool :=
  let cs := s.liveCoaches
  let mine := s.heldDisp l c
  let r := s.resDisp l c
  let reserved := cs.foldl (fun a d => a + s.resDisp l d) 0
  let common := cs.foldl (fun a d => a + ((if d = c then mine else s.heldDisp l d) - s.resDisp l d)) 0
  let cap := max 1 (min 32 (s.get (coachB c) F.coachDispCap))
  decide (mine < r) || (decide (mine - r < cap) && decide (common + reserved < 32))

/-- A core takes dispatches: it is ACTIVE, its SPM is cleared (R289) and no forced test holds it back (R410). -/
def State.coreOpen (s : State) (l : Nat) : Bool :=
  (s.phys l).any fun p => s.get (pcoreB p) F.pcoreState == 2 && s.get (pcoreB p) F.pcoreDeferred == 0
    && (s.core p).cleared

/-- The logical cores of a unit's members. -/
def State.unitCores (s : State) (u : UnitSt) : List Nat :=
  u.members.map fun i => ((s.graph u.graph).map (·.pbase)).getD 0 + Ca.lcore (s.carr u.graph i)

/-- A member of a unit finds its credit: its core takes dispatches, the coach has a credit there, and the core's queue has room
(R21, R342). -/
def State.memberReady (s : State) (u : UnitSt) (c i : Nat) : Bool :=
  let l := ((s.graph u.graph).map (·.pbase)).getD 0 + Ca.lcore (s.carr u.graph i)
  s.coreOpen l && s.creditFor l c && (s.phys l).any fun p => s.qRoom (Qk.dispatch p)

/-- The carriage that a dispatch cart carries, with its header (R260) and the grant that it is dispatched under (R341). -/
def State.dispatchItem (s : State) (u : UnitSt) (g : Graph) (i : Nat) : TdItem :=
  let c := g.carrs.getD i []
  { step := s.gs.step, graph := u.graph, index := i, coach := g.coach, row0 := s.row0 u.graph, nrow := s.nrow u.graph
    pbase := g.pbase, attempt := u.attempt, pass := g.pass u.attempt, carr := c, layer := []
    ldesc := s.ldesc g (Ca.layer c), maddr := (Config.manifestAt s.gs.step).toNat, grant := s.get (coachB g.coach) F.coachGrant }

/-- Send one member to its TD: a credit is taken and the cart leaves on N0 (R259). -/
def State.dispatchOne (s : State) (u : UnitSt) (g : Graph) (i : Nat) : State :=
  let t := s.dispatchItem u g i
  let s := { s with gs := { s.gs with credits := SMap.modify 0 s.gs.credits t.credit (· + 1) } }
  let s := s.count F.dispatched
  match s.phys (g.pbase + Ca.lcore t.carr) with
  | none => s
  | some p => (s.modCore p fun c => { c with disp := c.disp ++ [t] }).qSend (Qk.dispatch p) Ch.dispatch End.gs (End.core p)

/-- The members that wait are sent in ascending index; the first that finds no credit holds back those after it (R259). -/
def State.sendMembers (s : State) (k : Nat) (g : Graph) : List Nat → State
  | [] => s
  | i :: rest =>
    match s.gs.units[k]? with
    | none => s
    | some u =>
      if s.memberReady u g.coach i then
        State.sendMembers ((s.dispatchOne u g i).modUnit k fun u => { u with out := u.out ++ [i], unsent := rest }) k g rest
      else s

/-- A unit may go on to be dispatched: it is ready, or it is partly dispatched and has met no fault. -/
def State.mayDispatch (s : State) (u : UnitSt) : Bool :=
  (u.st == 0 && s.unitReady u) || (u.st == 1 && u.unsent != [] && u.status == 0 && !u.faulted && !u.redo)

/-- The unit that the GS dispatches next: the one that it has begun or that waits for a credit, which holds back every other;
else the ready unit with the lowest GRAPH and member (R259), of the quantum's set in repeatable time (R354). -/
def State.nextUnit (s : State) : Option Nat :=
  if s.gs.cur ≠ 0 ∧ (s.gs.units[s.gs.cur - 1]?).any s.mayDispatch = true then some (s.gs.cur - 1)
  else s.gs.units.findIdx? fun u => u.st == 0 && s.unitReady u
    && (!s.strictTime || s.gs.quantumSet.contains (carrKey u.graph (u.members.headD 0)))

/-- GS_DISPATCH_UNIT (R256, R259, R260, R354, R232): the GS dispatches the lowest ready unit member by member, or completes it
as void or, for a NOP, without dispatch. Where a member finds no credit the GS waits with it. `waitNs` is the time the GS
waited for credits. -/
def execGsDispatchUnit (waitNs : Nat) (s : State) : Res :=
  .next (if s.gs.active = false ∨ s.safe = true ∨ s.gs.held = true ∨ s.log.hold = true ∨ s.scanned = true ∨ s.pwr.holding = true then s
    else match s.nextUnit with
      | none => s
      | some k =>
        match s.gs.units[k]? with
        | none => s
        | some u =>
          match s.graph u.graph with
          | none => s
          | some g =>
            if s.unitVoid u then (((s.count F.voided u.members.length).completeUnit k).maybeCut).boundary
            else if u.members.all fun i => Ca.kind (g.carrs.getD i []) == Kd.nop then ((s.completeUnit k).maybeCut).boundary
            else
              let rest := if u.st = 0 then u.members else u.unsent
              let t := s.sendMembers k g rest
              let sent : Bool := (t.gs.units[k]?).any fun v => v.out != u.out
              let more : Bool := (t.gs.units[k]?).any fun v => v.unsent != []
              if sent = false then { s with gs := { s.gs with cur := k + 1 } }
              else
                let t := (t.count F.cycNocredit waitNs).modUnit k fun v => { v with st := 1, chainDone := false }
                State.maybeCut { t with gs := { t.gs with cur := if more = true then k + 1 else 0 } })

/-- QUANTUM_START (R354): in repeatable time, a dispatch quantum of 64 cycles from the step boundary begins. -/
def execQuantumStart (s : State) : Res :=
  .next (if s.gs.active = true ∧ s.strictTime = true ∧ s.gs.quantum + 64 ≤ s.gcount then
    let t := s.takeQuantum
    { t with gs := { t.gs with quantum := s.gs.boundary + (s.gcount - s.gs.boundary) / 64 * 64 } } else s)

/-! ### Completion (R258, R262, R263, R270) -/

/-- Causes of residue faults (R90, R196). -/
def residueCause (c : Nat) : Bool := (1 ≤ c && c ≤ 5) || (0x31 ≤ c && c ≤ 0x33)

/-- What a member's completion record does to its unit (R84, R258, R270). -/
def State.takeCompletion (s : State) (k : Nat) (c : Compl) : State :=
  match s.gs.units[k]? with
  | none => s
  | some u =>
    if c.status = Sc.ok then s.modUnit k fun u => { u with flags := u.flags ||| c.flags }
    else if c.cause = 0 then s
    else if residueCause c.cause then
      let s := if u.faulted then s
        else
          let s := s.orderEnd u Sc.integrity
          (s.chainNodes u).foldl (fun s n => s.send { mtype := 0x22, vc := 0, dst := n, coach := ((s.graph u.graph).map (·.coach)).getD 0
                                                      addr := Ca.chain (s.carr u.graph c.index), arg := s.unitPass u }) s
      s.modUnit k fun u => { u with faulted := true }
    else
      let s := if u.status ≠ 0 then s else s.orderEnd u c.status
      s.modUnit k fun u => { u with status := if u.status = 0 then c.status else u.status }

/-- A completion record leaves for the GS under its credit, and the dispatch credit of its carriage is on the way back (R21). -/
def State.sendCompl (s : State) (p : Nat) (x : Compl × Nat) : State :=
  let s : State := { s with gs := { s.gs with complQ := s.gs.complQ ++ [x.1]
                                              credits := SMap.modify 0 s.gs.credits x.2 (· - 1) } }
  (s.qSend (Qk.completion p) Ch.dispatch (End.core p) End.gs).qLeave (Qk.dispatch p)

/-- The credit of a completion record is on the way back to its core, which sends the next record that waits (R21). -/
def State.complBack (s : State) (p : Nat) : State :=
  let s := s.qLeave (Qk.completion p)
  match (s.core p).complWait with
  | [] => s
  | x :: rest => if s.qRoom (Qk.completion p) then (s.modCore p fun c => { c with complWait := rest }).sendCompl p x else s

/-- CARRIAGE_COMPLETION_RX (R258, R263, R84, R270, R405, R259): the GS takes the oldest completion record. The unit goes on
when no member of it is out: it is dispatched again, ends, or completes; cores that qualify are withdrawn; the last unit of
the step brings the step boundary. -/
def execCarriageCompletionRx (s : State) : Res :=
  .next (match s.gs.complQ with
    | [] => s
    | c :: r =>
      let s := s.qAwait (Qk.completion c.core) ((s.gs.complQ.filter fun x => x.core == c.core).length)
      let s := State.complBack { s with gs := { s.gs with complQ := r } } c.core
      match s.unitOf c.graph c.index with
      | none => s
      | some k =>
        match s.gs.units[k]? with
        | none => s
        | some u =>
          if c.step = s.gs.step ∧ c.attempt = u.attempt ∧ u.out.contains c.index = true then
            let s := s.dropMember c.graph c.index
            let s := s.takeCompletion k c
            (s.withdrawals.settleAll.maybeCut).boundary
          else s)

end Sys2Proof.Machine
end

