-- ==== Sys2Proof/Machine/Coaches.lean ====
section
/-!
DEFINITION. Coaches: the commands that change a coach (R329-R336, R345), launches (R360, R361), interrupt vectors (R343) and
the writes to coach registers (R333).
-/
namespace Sys2Proof.Machine

/-! ### The table store (R334) -/

/-- The tables of the lower levels that mappings take (R334): one level-2 table per 2^40 bytes and one level-3 table per 2^28 bytes
that hold a mapped page. -/
def tablesFor (m : SMap Nat) : List Nat := (m.flatMap fun e => [table2 e.1, table3 e.1]).eraseDups

/-- How many they are. -/
def tablesUsed (m : SMap Nat) : Nat := (tablesFor m).length

/-- The tables in use once the mappings are `m`: those in use that are still wanted, and the lowest free ones for the others. -/
def takeTables (old : SMap Nat) (m : SMap Nat) : SMap Nat :=
  let want := tablesFor m
  want.foldl (fun t k => if SMap.look 0 t k ≠ 0 then t
    else SMap.put 0 t k ((firstBelow 16384 fun n => !t.any fun e => e.2 == n + 1).getD 0 + 1)) (old.filter fun e => want.contains e.1)

/-- A level-3 entry: VALID, WRITE, and the physical page in bits [39:16]. -/
def pageEntry (e : Nat) : List Byte := leBytes 8 (e % 4 + e / 4 * 65536)

/-- The entry of the level above that names a table: in the level-1 table of its coach, or in a level-2 table. -/
def State.parentEntry (s : State) (t : SMap Nat) (k : Nat) : Nat :=
  let i := k / 2
  if k % 2 = 0 then s.get (coachB (i / 256)) F.coachTtBase + 8 * (i % 256)
  else s.tableAt (SMap.look 0 t (2 * (i / 4096)) - 1) + 8 * (i % 4096)

/-- The firmware changes the mappings to `m`: the entries of pages that change are written in their level-3 tables, and the entries
of the levels above for tables that are taken or given back (R334). -/
def State.setMap (s : State) (m : SMap Nat) : State :=
  let o := s.xlate
  let t := takeTables o.tables m
  let l3 (tab : SMap Nat) (k : Nat) : Nat := s.tableAt (SMap.look 0 tab (table3 k) - 1) + 8 * (k % 4096)
  let gone := (o.map.filter fun e => SMap.look 0 m e.1 == 0 && SMap.look 0 o.tables (table3 e.1) != 0).map fun e => (l3 o.tables e.1, pageEntry 0)
  let back := (o.tables.filter fun e => SMap.look 0 t e.1 == 0).map fun e => (s.parentEntry o.tables e.1, leBytes 8 0)
  let new := (m.filter fun e => SMap.look 0 o.map e.1 != e.2).map fun e => (l3 t e.1, pageEntry e.2)
  let made := (t.filter fun e => SMap.look 0 o.tables e.1 == 0).map fun e => (s.parentEntry t e.1, leBytes 8 (1 + s.tableAt (e.2 - 1)))
  let s := { s with xlate := { o with map := m, tables := t } }
  (gone ++ back ++ new ++ made).foldl (fun s w => s.memWrite w.1 w.2) s


/-! ### Creation and destruction (R330, R331) -/

/-- The lowest level-1 table of the store that no coach holds (R330). -/
def State.freeTable (s : State) : Option Nat :=
  firstBelow 4096 fun t => !(s.coaches.any fun e => e.2.table == t + 1)

/-- Every register of a coach at its reset value, its vectors empty, and what it holds besides them forgotten (R330), but for
withheld pages, which stay counted until a warm reset (R205). -/
def State.clearCoach (s : State) (c : Nat) : State :=
  { s with regs := s.regs.filter fun e => e.1 < coachB c + 0x400 || coachB c + 0x1000 ≤ e.1
           vecs := SMap.dropRange s.vecs (4 * c) (4 * c + 4)
           coaches := SMap.put {} s.coaches c { pages := (s.coach c).pages } }

/-- The effect of COACH_CREATE (R330): a level-1 table, reset values in every register, and the host port. -/
def State.createCoach (s : State) (c port t : Nat) (d : List Byte) : State :=
  let s := s.clearCoach c
  let s := s.modCoach c fun x => { x with table := t + 1 }
  let s := (s.set (coachB c) F.coachHport port).set (coachB c) F.coachTtBase (s.boot.ttStore + 32768 * t)
  (s.extendCm c d).enterCoach c Cs.halted

/-- COACH_CREATE (R329, R330). -/
def execCoachCreate (box : Nat) (s : State) : Res :=
  .next (takeCommand 0x0101 box (fun c s =>
    if s.coachState c.coach ≠ Cs.vacant then s.respond box c.coach Sc.inUse
    else if 1 < c.arg 0 1 then s.respond box c.coach Sc.badArg
    else match s.freeTable with
      | none => s.respond box c.coach Sc.noResource
      | some t => (s.createCoach c.coach (c.arg 0 1) t c.digest).respond box c.coach Sc.ok) s)

/-- Something of the coach is still there that COACH_DESTROY refuses over (R331). -/
def State.coachInUse (s : State) (c : Nat) : Bool :=
  (s.slotsOf c != []) || (s.graphs.any fun e => e.2.any fun g => g.coach == c)
    || (s.sb.oves.any fun e => e.2.st != 0 && e.2.coach == c)

/-- The mappings of a coach are removed, and the caches drop them (R331). -/
def State.unmapAll (s : State) (c : Nat) : State :=
  let kept : SMap (List (Nat × Nat)) := s.xlate.caches.map fun e => (e.1, e.2.filter fun x => x.1 / 2 ^ 32 != c)
  let s : State := { s with xlate := { s.xlate with caches := kept.filter fun e => e.2 != [] } }
  s.setMap (SMap.dropRange s.xlate.map (pageKey c 0) (pageKey (c + 1) 0))

/-- The SPM rows of a coach, 256 bytes each (R275): their bytes and owners clear (R331). -/
def State.clearOwner (s : State) (c : Nat) : State :=
  let rows := (s.spm.owner.filter fun e => e.2 == c + 1).map (·.1)
  let hit (a : Nat) : Bool := rows.contains (a / 2 ^ 22 * 2 ^ 22 + a % 2 ^ 22 / 256)
  { s with spm := { bytes := s.spm.bytes.filter fun e => !hit e.1
                    owner := s.spm.owner.filter fun e => e.2 != c + 1
                    poison := s.spm.poison.filter fun a => !hit a } }

/-- The counters of a coach clear (R331). -/
def State.clearCounters (s : State) (c : Nat) : State :=
  { s with regs := s.regs.filter fun e => e.1 < coachB c + 0x490 || coachB c + 0x4C0 < e.1 }

/-- The effect of COACH_DESTROY (R331, R448): the coach's other registers stand until COACH_CREATE gives them their reset values,
and withheld pages stay counted (R205). -/
def State.destroyCoach (s : State) (c : Nat) : State :=
  let s := ((s.unmapAll c).clearOwner c).clearCounters c
  let s : State := { s with coaches := SMap.put {} s.coaches c { pages := (s.coach c).pages } }
  s.enterCoach c Cs.vacant

/-- COACH_DESTROY (R329, R331): accepted for a HALTED coach that owns nothing; it waits for the end of the clearing. -/
def execCoachDestroy (box : Nat) (s : State) : Res :=
  .next (takeCommand 0x0102 box (fun c s =>
    let st := s.coachState c.coach
    if st = Cs.vacant then s.respond box c.coach Sc.badArg
    else if st ≠ Cs.halted then s.respond box c.coach Sc.notHalted
    else if s.coachInUse c.coach then s.respond box c.coach Sc.inUse
    else s.modCoach c.coach (fun x => { x with launch := none }) |>.inProg c) s)

/-- COACH_DESTROY_DONE (R331): mappings are removed, tables return, the coach's SPM rows are zero with no owner, its counters
clear and it is VACANT; the response returns. -/
def execCoachDestroyDone (coach : Nat) (s : State) : Res :=
  .next (match s.findProg 0x0102 (fun q => q.coach == coach) with
    | none => s
    | some q =>
      if s.coachState coach ≠ Cs.halted then s.answer q Sc.notHalted
      else if s.coachInUse coach then s.answer q Sc.inUse
      else (s.destroyCoach coach).answer q Sc.ok)

/-! ### Start, halt, reset (R327, R329, R345) -/

/-- COACH_START (R329, R406). -/
def execCoachStart (box : Nat) (s : State) : Res :=
  .next (takeCommand 0x0103 box (fun c s =>
    let st := s.coachState c.coach
    if st = Cs.vacant ∨ st = Cs.faulted then s.respond box c.coach Sc.badArg
    else if s.safe then s.respond box c.coach Sc.noResource
    else if st = Cs.draining then s.respondBusy box c.coach
    else (s.enterCoach c.coach Cs.running).respond box c.coach Sc.ok) s)

/-- COACH_HALT (R327, R329): a RUNNING coach drains; the response returns when it is HALTED, at once where no step runs and
nothing of it is in flight. -/
def execCoachHalt (box : Nat) (s : State) : Res :=
  .next (takeCommand 0x0104 box (fun c s =>
    let st := s.coachState c.coach
    if st = Cs.vacant ∨ st = Cs.faulted then s.respond box c.coach Sc.badArg
    else
      let s := s.modCoach c.coach fun x => { x with launch := none }
      if st = Cs.halted then s.respond box c.coach Sc.ok
      else
        let s := (s.enterCoach c.coach Cs.draining).inProg c
        if s.gs.active = false ∧ (s.coach c.coach).resetting = false then s.coachBoundary c.coach else s) s)

/-- A pause or resume in progress is dropped: what it holds in the tier it moves to returns (R215). -/
def State.dropMove (s : State) (slot : Nat) : State :=
  match s.moveOf slot with
  | none => s
  | some m =>
    let t := s.seq slot Se.tier
    let n := s.coldNeed slot
    let c := s.seq slot Se.owner
    let s := if t = Tr.toCold then
        (let s := if m.host then s else (s.drop chipB F.coldUsed n).bump chipB F.coldFree n
         s.setSeq slot Se.tier Tr.hot)
      else if t = Tr.toHot then
        ((s.drop chipB F.kvUsed n).bump chipB F.kvFree n).holdPages c false n |>.setSeq slot Se.tier Tr.cold
      else s
    let s := { s with sb := { s.sb with moves := s.sb.moves.filter (·.1 != slot) } }
    (s.answerAll 0x0403 (fun q => q.par.head? == some slot) Sc.cancelled).answerAll 0x0404
      (fun q => q.par.head? == some slot) Sc.cancelled

/-- Every sequence of a coach goes to ENDING and completes CANCELLED (R240, R345, R215): imports close, exports are aborted,
paused sequences are freed. -/
def State.endCoachSeqs (s : State) (c : Nat) : State :=
  (s.slotsOf c).foldl (fun s n =>
    let s := s.dropMove n
    let s := match s.importOf n with | some m => s.closeImport m.1 | none => s
    let s := s.abortExport n Sc.cancelled true
    if s.seq n Se.tier = Tr.cold then s.freeColdNow n Sc.cancelled
    else s.setEnding n Sc.cancelled) s

/-- A command that the coach mailbox carries and that has not taken effect completes with CANCELLED (R345). -/
def State.cancelCoachBox (s : State) (c box : Nat) : State :=
  if box = 16 + c ∨ s.owned (16 + c) = false then s else s.respond (16 + c) c Sc.cancelled

/-- The first part of a coach reset (R345, steps 1 to 3). -/
def State.resetCoach (s : State) (c : Nat) : State :=
  let s := s.set (coachB c) F.coachResetPend 1
  let s := (s.modCoach c fun x => { x with resetting := true, launch := none }).enterCoach c Cs.draining
  let s := s.endCoachWork c Sc.cancelled
  (s.dropNames c).endCoachSeqs c

/-- COACH_RESET (R329, R345): in any state but VACANT; it completes at the next step boundary, or at the SB's idle timer. -/
def execCoachReset (box : Nat) (s : State) : Res :=
  .next (takeCommand 0x0105 box (fun c s =>
    if s.coachState c.coach = Cs.vacant then s.respond box c.coach Sc.badArg
    else ((s.cancelCoachBox c.coach box).resetCoach c.coach).inProg c) s)

/-! ### Mapping (R334-R336) -/

/-- The mapping of `n` pages from coach page `p` to physical page `q`. -/
def mapPages (m : SMap Nat) (c p q w : Nat) (n : Nat) : SMap Nat :=
  (List.range n).foldl (fun m i => SMap.put 0 m (pageKey c (p + i)) (1 + 2 * w + 4 * (q + i))) m

/-- The checks of COACH_MAP (R335). -/
def State.mapBad (s : State) (c a len q : Nat) : Bool :=
  a % 65536 != 0 || len % 65536 != 0 || q % 65536 != 0 || len == 0 || decide (2 ^ 48 < a + len)
    || decide (aperturePage * 65536 < a + len)
    || ((upFrom (a / 65536) (len / 65536)).any fun p => SMap.look 0 s.xlate.map (pageKey c p) != 0)
    || (match s.oneRegion q len with | none => true | some r => r == 0)

/-- COACH_MAP (R335, R448). -/
def execCoachMap (box : Nat) (s : State) : Res :=
  .next (takeCommand 0x0106 box (fun c s =>
    let a := c.arg 0 8
    let len := c.arg 8 8
    let q := c.arg 16 8
    if s.mapBad c.coach a len q then s.respond box c.coach Sc.badArg
    else
      let m := mapPages s.xlate.map c.coach (a / 65536) (q / 65536) (c.arg 24 1 % 2) (len / 65536)
      if 16384 < tablesUsed m then s.respond box c.coach Sc.noResource
      else ((s.setMap m).extendCm c.coach c.digest).respond box c.coach Sc.ok) s)

/-- COACH_UNMAP (R336, R448): the entries go at once; the response returns when every cache has dropped them. -/
def execCoachUnmap (box : Nat) (s : State) : Res :=
  .next (takeCommand 0x0107 box (fun c s =>
    let a := c.arg 0 8
    let len := c.arg 8 8
    let ps := upFrom (a / 65536) (len / 65536)
    if a % 65536 ≠ 0 ∨ len % 65536 ≠ 0 ∨ len = 0 ∨ 2 ^ 48 < a + len then s.respond box c.coach Sc.badArg
    else if ps.any fun p => SMap.look 0 s.xlate.map (pageKey c.coach p) == 0 then s.respond box c.coach Sc.badArg
    else
      let m := SMap.dropRange s.xlate.map (pageKey c.coach (a / 65536)) (pageKey c.coach (a / 65536 + len / 65536))
      ((s.setMap m).extendCm c.coach c.digest).inProg c) s)

/-- TRANSLATION_CACHES_DROPPED (R336): while no step runs, the caches drop what was unmapped and the responses return. -/
def execTranslationCachesDropped (s : State) : Res := .next (if s.gs.active then s else s.dropUnmapped)

/-- XLATE_WALK_DONE (R336, R332): a block's walk of the tables ends. A valid entry fills its cache; a refusal advances
XLATE_DENY; an uncorrectable read of the coach's tables that no mirror recovers is coach-fatal. -/
def execXlateWalkDone (block coach addr : Nat) (write poisoned : Bool) (s : State) : Res :=
  .next (if s.coachState coach = Cs.vacant then s
    else if poisoned ∨ ((s.tableEntries coach (addr % 2 ^ 48 / 65536)).any fun a => s.poisoned a 8) then (s.bump (coachB coach) F.coachXlateMiss).coachFatal coach Sc.poison
    else
      let s := s.walk block coach (addr % 2 ^ 48 / 65536)
      if (s.xlateAddr block coach addr write).isNone then s.bump (coachB coach) F.coachXlateDeny else s)

/-! ### Launches (R360-R362) -/

/-- Launches pending or in lockstep (R363). -/
def State.launches (s : State) : Nat := (s.coaches.filter fun e => e.2.launch.isSome).length

/-- LAUNCH_AT (R360, R406). -/
def execLaunchAt (box : Nat) (s : State) : Res :=
  .next (takeCommand 0x0108 box (fun c s =>
    let t := c.arg 0 8
    let p := c.arg 8 8
    if s.coachState c.coach ≠ Cs.halted then s.respond box c.coach Sc.notHalted
    else if s.safe then s.respond box c.coach Sc.noResource
    else if t < s.gcount + 100000 ∨ (p ≠ 0 ∧ (p < 10000 ∨ 1000000000 < p)) then s.respond box c.coach Sc.badArg
    else if s.chip F.gcSyncRole = 2 ∧ s.chip F.gcStatusState ≠ 2 then
      (s.count F.mbBusy).respondAs box c.coach Sc.busy 0 1000 []
    else if 64 ≤ s.launches then s.respond box c.coach Sc.noResource
    else (s.modCoach c.coach fun x => { x with launch := some { t := t, p := p } }).respond box c.coach Sc.ok) s)

/-- LAUNCH_TIME (R360): GCOUNT has reached T, and the coach is made RUNNING as COACH_START would, which changes nothing of a
RUNNING coach. -/
def execLaunchTime (coach : Nat) (s : State) : Res :=
  .next (match (s.coach coach).launch with
    | none => s
    | some l =>
      if l.started ∨ s.gcount < l.t ∨ (s.coachState coach ≠ Cs.halted ∧ s.coachState coach ≠ Cs.running) ∨ s.safe = true then s
      else
        let s := s.enterCoach coach Cs.running
        s.modCoach coach fun x => { x with launch := if l.p = 0 then none else some { l with started := true } })

/-- LAUNCH_WINDOW (R361): window W_k of a coach in lockstep: a snapshot of its candidates, or a skip while the last snapshot
still awaits its cut. -/
def execLaunchWindow (coach : Nat) (s : State) : Res :=
  .next (match (s.coach coach).launch with
    | none => s
    | some l =>
      if l.started = false ∨ l.p = 0 ∨ s.gcount < l.t + l.k * l.p then s
      else if l.snap ≠ [] then
        (s.modCoach coach fun x => { x with launch := some { l with k := l.k + 1 } }).count F.launchSkip
      else
        let snap := (s.slotsOf coach).filter s.candidate
        s.modCoach coach fun x => { x with launch := some { l with k := l.k + 1, snap := snap } })

/-! ### Interrupt vectors (R341, R343, R439) -/

/-- INTERRUPT_COAL_TIMEOUT (R343): the hold time of a vector's first pending event has passed. `vec` is 4 * coach + vector,
or 16,384 + k for admin mailbox k. -/
def execInterruptCoalTimeout (vec : Nat) (s : State) : Res := .next (s.trySend vec false)

/-- Write VCFG: MASK, COAL_CNT and COAL_NS take the value; clearing MASK with events pending sends the frame at once. -/
def State.writeVcfg (s : State) (i value : Nat) : State :=
  let b := vecB i
  let old := s.get b F.cvecMask
  let s := ((s.set b F.cvecMask value).set b F.cvecCoalCnt (value / 2 ^ 8)).set b F.cvecCoalNs (value / 2 ^ 16)
  if old = 1 ∧ value % 2 = 0 then s.trySend i true else s.trySend i false

/-- VCFG_WRITE (R341, R343): the VCFG register of a vector is written. -/
def execVcfgWrite (vec value : Nat) (s : State) : Res := .next (if vec < 16392 then s.writeVcfg vec value else s)

/-! ### RWH registers (R333, R342) -/

/-- The sum of a reservation over the coaches that are not VACANT, with `v` for coach `c`. -/
def State.resSum (s : State) (f : Fld) (c v : Nat) : Nat :=
  (s.liveCoaches.filter (· != c)).foldl (fun a d => a + s.get (coachB d) f) v

/-- A reservation would be raised above its limit. -/
def State.resOver (s : State) (c : Nat) (f : Fld) (v limit : Nat) : Bool :=
  decide (s.get (coachB c) f < v) && decide (limit < s.resSum f c v)

/-- Reserved dispatch credits of a core would rise above 24 (R342). -/
def State.dispOver (s : State) (c v : Nat) : Bool :=
  decide (s.get (coachB c) F.coachResDisp < v) && (List.range s.nCores).any fun l =>
    (s.graphs.any fun e => e.2.any fun g => g.coach == c && g.pbase ≤ l && l < g.pbase + g.pcount)
      && decide (24 < (s.liveCoaches.filter (· != c)).foldl (fun a d => a + s.resDisp l d) v)

/-- A write to a coach register of RWH fields (R333): applied while the coach is HALTED and within the limits of R342;
otherwise discarded, with REFUSED, REFUSE and WR_REFUSED. The status that the write is acknowledged with. -/
def State.rwhWrite (s : State) (c off value : Nat) : State × Nat :=
  let b := coachB c
  let past :=
    if off = 0x418 then s.resOver c F.coachResSeq (bits value 0 14) 4096 || s.resOver c F.coachResOve (bits value 16 14) 8192
      || s.dispOver c (bits value 32 5) || s.resOver c F.coachResRows (bits value 48 11) 1024
    else if off = 0x420 then s.resOver c F.coachResPages (bits value 0 32) (s.chip F.nPages / 2)
    else false
  let refuse (st : Nat) : State × Nat :=
    (((s.set b F.coachRefused 1).set b F.coachRefuse st).bump b F.coachWrRefused, st)
  if s.coachState c ≠ Cs.halted then refuse Sc.notHalted
  else if past then refuse Sc.noResource
  else
    let s := if off = 0x418 then
        (((s.set b F.coachResSeq value).set b F.coachResOve (value / 2 ^ 16)).set b F.coachResDisp (value / 2 ^ 32)).set b
          F.coachResRows (value / 2 ^ 48)
      else if off = 0x420 then s.set b F.coachResPages value
      else if off = 0x428 then s.set b F.coachSeed value
      else s.set b F.coachHport value
    (s, Sc.ok)

/-- The registers of RWH fields, by offset in the coach window (R341). -/
def isRwh (off : Nat) : Bool := off == 0x418 || off == 0x420 || off == 0x428 || off == 0x430

/-- COACH_RWH_WRITE (R333): an admin write reaches a coach register of RWH fields. -/
def execCoachRwhWrite (coach off value : Nat) (s : State) : Res :=
  .next (if coach < 4096 ∧ isRwh off = true then (s.rwhWrite coach off value).1 else s)

end Sys2Proof.Machine
end

