-- ==== Sys2Proof/Machine/LinkOps.lean ====
section
/-!
DEFINITION. Operations of the Enkuor Link ports (15): faults (R401), messages to the host adapters (R539), flits (R367, R373-R375),
the drain (R397, R538), routes (R383, R385), link states and lost messages (R378, R394), and chains that replay (R266).
-/
namespace Sys2Proof.Machine

/-! ### Faults and notices -/

/-- PORT_ERR takes a cause and the event log a record of it (R400, R401, R513, R515). -/
def State.portFault (s : State) (p cause sev vc mtype node : Nat) : State :=
  let w := captureWord cause [(F.portErrVc, vc), (F.portErrMtype, mtype), (F.portErrNode, node)]
  (s.capture (portB p + 8) w).raise { cls := 10, sev := sev, cause := cause, unit := 9, inst := p, capture := w
                                      detail := leBytes 2 node }

/-- The host ports that lead to a host adapter now. -/
def State.hostsUp (s : State) : List Nat :=
  [0, 1].filter fun p => s.linkState p == Ls.up && (s.port p).partnerHost

/-- A MGMT message to the host adapter on port `p` (R370, R441): the subtype in ADDR. -/
def State.mgmtTo (s : State) (p sub arg : Nat) (data : List Byte := []) : State :=
  s.enqueue p { mtype := 0x50, vc := 7, dst := s.hostNode p, src := s.node, addr := sub, arg := arg, data := data }

/-- A MGMT message of the firmware to every reachable host adapter; it waits for the MP while MP_DOWN reads 1 (R539). -/
def State.tellHosts (s : State) (sub arg : Nat) : State :=
  if s.rom ≠ Rom.running then s
  else if s.chip F.mpDown = 1 then { s with svc := { s.svc with notes := s.svc.notes ++ [(sub, arg)] } }
  else s.hostsUp.foldl (fun s p => s.mgmtTo p sub arg) s

/-- The messages that waited for the MP leave (R539). -/
def State.flushNotes (s : State) : State :=
  s.svc.notes.foldl (fun s n => s.tellHosts n.1 n.2) { s with svc := { s.svc with notes := [] } }

/-- A SERVICE message (R539): event and source; alert cause 5 (R532). -/
def State.serviceNote (s : State) (ev src : Nat) : State :=
  if s.rom = Rom.running then (s.tellHosts 0x0C03 (ev + 256 * src)).alertCause 5 else s

/-! ### Port switch -/

/-- A message given to its route's port, as a transit message (R386) or one of the device's own; one without a route is
discarded, and a request in transit receives TIMEOUT (R371). -/
def State.forward (s : State) (m : Msg) (own : Bool) : State :=
  match s.route m.src m.dst m.coach with
  | none =>
    let s := s.count F.noRoute
    if own = false ∧ (m.mtype = 1 ∨ m.mtype = 3 ∨ m.mtype = 5) then
      s.send { mtype := m.mtype + 1, vc := m.vc, admin := m.admin, space := m.space, dst := m.src, coach := m.coach
               tagw := m.tagw, addr := m.addr, arg := Sc.timeout }
    else s
  | some (p, alt) =>
    let m := { m with cls := s.clsOut m p alt }
    if own then s.enqueue p m
    else s.modPort p fun q => { q with transit := SMap.modify [] q.transit (2 * m.vc + m.cls) (· ++ [m]) }

/-- Units of the step that have a member in a coach's chain and run under a PASS. -/
def State.chainUnits (s : State) (coach chain pass : Nat) : List Nat :=
  (List.range s.gs.units.length).filter fun k => (s.gs.units[k]?).any fun u => s.unitPass u == pass && s.inChain u coach chain

/-- A chain replays here (R266, R84): its members' results are discarded, and they are dispatched again with ATTEMPT raised by
one. -/
def State.replayHere (s : State) (coach chain pass : Nat) : State :=
  (s.chainUnits coach chain pass).foldl (fun (s : State) k =>
    match s.gs.units[k]? with
    | none => s
    | some u =>
      if u.st = 0 then (s.modUnit k fun u => { u with attempt := u.attempt + 1 }).takeCarts
      else if u.st = 1 then
        ((s.orderEnd u Sc.integrity).modUnit k fun u => { u with redo := true }).settle k
      else s) s

/-- The GS sends REPLAY for a chain and PASS to every other node of the chain that is known here (R266). -/
def State.replaySend (s : State) (coach chain pass : Nat) : State :=
  let nodes := ((s.chainUnits coach chain pass).flatMap fun k => ((s.gs.units[k]?).map s.chainNodes).getD []).eraseDups
  nodes.foldl (fun s n => s.send { mtype := 0x22, vc := 0, dst := n, coach := coach, addr := chain, arg := pass }) s

/-! ### Flits (R367, R373-R375) -/

/-- The 256 bytes of a flit (R367). -/
def flitBytes (h : FlitHdr) (payload : List Byte) : List Byte :=
  let w := h.typ % 4 + h.vc % 8 * 4 + h.cls % 2 * 32 + b2n h.nak * 64 + h.seq % 4096 * 2 ^ 8 + h.ack % 4096 * 2 ^ 20
    + h.crsel % 16 * 2 ^ 32 + h.crcum % 4096 * 2 ^ 36 + h.first % 16 * 2 ^ 48
  let b := leBytes 8 w ++ padTo 240 payload
  b ++ leBytes 8 (crc64 b)

/-- The header that a port gives its next flit (R367, R373): ACK, NAK, and credit counter n mod 16 in the n-th flit. -/
def Port.hdr (q : Port) (typ vc cls seq first : Nat) : FlitHdr :=
  let k := q.flitNo % 16
  { typ := typ, vc := vc, cls := cls, nak := q.nak, seq := seq, ack := q.rxSeq, crsel := k, crcum := SMap.look 0 q.freed k, first := first }

/-- Credits held for a counter (R373). -/
def Port.credits (q : Port) (k : Nat) : Nat := (SMap.look 0 q.init k + SMap.look 0 q.cum k + 4096 - SMap.look 0 q.sent k % 4096) % 4096

/-- Something of a counter waits to be sent. -/
def Port.waiting (q : Port) (k : Nat) : Bool :=
  SMap.look [] q.part k != [] || SMap.look [] q.own k != [] || SMap.look [] q.transit k != []

/-- The port holds data of some counter and no credit for it (R374). -/
def Port.starved (q : Port) : Bool := (List.range 16).any fun k => q.waiting k && q.credits k == 0

/-- The next message of a counter: the device's own and transit messages alternate within a VC (R374). -/
def Port.nextMsg (q : Port) (k : Nat) : Option (Port × Msg) :=
  let takeOwn (m : Msg) (r : List Msg) : Port × Msg :=
    ({ q with own := SMap.put [] q.own k r, lastOwn := insertNat (k / 2) q.lastOwn }, m)
  let takeTransit (m : Msg) (r : List Msg) : Port × Msg :=
    ({ q with transit := SMap.put [] q.transit k r, lastOwn := q.lastOwn.filter (· != k / 2) }, m)
  match SMap.look [] q.own k, SMap.look [] q.transit k with
  | [], [] => none
  | m :: r, [] => some (takeOwn m r)
  | [], m :: r => some (takeTransit m r)
  | m :: r, n :: t => some (if q.lastOwn.contains (k / 2) then takeTransit n t else takeOwn m r)

/-- Fill a DATA flit of a counter: units of the message in progress, then whole messages one after another (R369). The port,
the payload, FIRST, and the messages whose last unit stands in the flit. -/
def Port.fill (q : Port) (k : Nat) : Nat → List Byte → Nat → List Msg → Port × List Byte × Nat × List Msg
  | 0, u, f, d => (q, u, f, d)
  | n + 1, u, f, d =>
    let room := 240 - u.length
    let part := SMap.look [] q.part k
    if room = 0 then (q, u, f, d)
    else if part ≠ [] then
      let whole := decide (part.length ≤ room)
      let q' := { q with part := SMap.put [] q.part k (part.drop room), cur := if whole then SMap.put [] q.cur k [] else q.cur }
      Port.fill q' k n (u ++ part.take room) f (if whole then d ++ SMap.look [] q.cur k else d)
    else match q.nextMsg k with
      | none => (q, u, f, d)
      | some (q', m) =>
        Port.fill { q' with part := SMap.put [] q'.part k m.wire, cur := SMap.put [] q'.cur k [m] } k n u
          (if f = 15 then u.length / 16 else f) d

/-- What a frame of slots has added to a port's counters: DATA flits, payload bytes, transit flits, slots without credit. -/
structure SlotCount where
  flits : Nat := 0
  bytes : Nat := 0
  transit : Nat := 0
  starved : Nat := 0
deriving DecidableEq, Repr

/-- The counters in the order of R374: VC0, VC7, then VC1-VC6 round-robin after the one served last. -/
def Port.order (q : Port) : List Nat := [0, 1, 14, 15] ++ (List.range 12).map fun i => 2 + (q.rr + 1 + i) % 12

/-- One slot: a DATA flit of the first counter with data and credit, while the replay buffer of 512 has room; otherwise an
IDLE flit (R374, R375). True where the slot was idle. -/
def Port.slot (q : Port) (c : SlotCount) (me : Nat) : Port × SlotCount × Bool :=
  let dry := q.starved
  let k? := if 512 ≤ q.replay.length then none else q.order.find? fun k => q.waiting k && q.credits k != 0
  match k? with
  | none => ({ q with flitNo := q.flitNo + 1 }, { c with starved := c.starved + b2n q.starved }, true)
  | some k =>
    let (q, u, f, d) := Port.fill q k 16 [] 15 []
    let seq := q.nextSeq
    let b := flitBytes (q.hdr 1 (k / 2) (k % 2) seq f) u
    let tr := (d ++ SMap.look [] q.cur k).any fun m => m.src != me
    ({ q with rr := if 2 ≤ k ∧ k < 14 then k - 2 else q.rr, nextSeq := (seq + 1) % 4096, flitNo := q.flitNo + 1
              sent := SMap.put 0 q.sent k ((SMap.look 0 q.sent k + 1) % 4096), line := q.line ++ [b]
              replay := q.replay ++ [({ seq := seq, vc := k / 2, cls := k % 2, first := f, payload := u, sends := 1 } : TxFlit)]
              unacked := q.unacked ++ d.map fun m => (seq, m) },
     { c with starved := c.starved + b2n dry, flits := c.flits + 1, bytes := c.bytes + u.length, transit := c.transit + b2n tr }, false)

/-- The slots of a frame after its mark: slots that find nothing to send are IDLE flits, which the line does not list. -/
def Port.slots (me : Nat) : Nat → Port → SlotCount → Port × SlotCount
  | 0, q, c => (q, c)
  | n + 1, q, c =>
    let (q, c, idle) := q.slot c me
    if idle then ({ q with flitNo := q.flitNo + n }, { c with starved := c.starved + n * b2n q.starved })
    else Port.slots me n q c

/-- The initial credits of a counter (R372): what a receiver of the device grants. -/
def initCredit (k : Nat) : Nat :=
  match k / 2 with | 0 => 16 | 1 => 192 | 2 => 128 | 3 => 96 | 4 => 96 | 5 => 96 | 6 => 128 | _ => 16

/-- The device's marks carry DRAIN (R397, R406, R538). -/
def State.markBits (s : State) : Nat :=
  s.chip F.draining + 4 * b2n (s.chip F.gcStatusState == 2 || s.chip F.gcSyncRole == 1)

/-- The payload of a start-of-frame mark of port `p` (R377). -/
def State.markPayload (s : State) (p : Nat) : List Byte :=
  let q := s.port p
  let master := s.chip F.gcSyncRole == 1
  let hops := if master then 0 else if s.chip F.gcStatusState = 0 then 0xFF else s.chip F.gcStatusHops
  let credits := (List.range 16).foldl (fun a k => a + initCredit k * 2 ^ (12 * k)) 0
  packFields 240 [(0, 8, s.gcount), (8, 8, (q.markRx + 2 ^ 64 - q.markTx) % 2 ^ 64), (16, 2, s.node),
    (18, 1, p + 16 * s.linkState p), (19, 1, hops), (20, 2, if master then s.node else s.chip F.gcStatusMaster),
    (22, 1, s.markBits), (24, 24, credits)]

/-! ### What a received flit carries besides data (R373, R375) -/

/-- Flits at the head of the replay buffer that an ACK covers. -/
def ackCount (l : List TxFlit) (ack : Nat) : Nat :=
  match l with
  | [] => 0
  | f :: _ => let n := (ack + 4096 - f.seq) % 4096 + 1; if n ≤ l.length then n else 0

/-- An ACK is taken: the flits and the messages it covers are delivered. -/
def Port.takeAck (q : Port) (ack now : Nat) : Port :=
  let n := ackCount q.replay ack
  let gone := (q.replay.take n).map (·.seq)
  { q with replay := q.replay.drop n, unacked := q.unacked.filter fun e => !gone.contains e.1
           lastAck := ack, ackAt := if ack = q.lastAck then q.ackAt else now }

/-! ### Link states (R378, R394) -/

/-- Enter a link state. -/
def State.enterLink (s : State) (p st : Nat) : State :=
  (s.set (portB p) F.portState st).modPort p fun q => { q with since := s.gcount }

/-- Messages that a port loses when it leaves UP or RETRAIN for DOWN (R378, R394): those in its replay buffer or begun. -/
def Port.lost (q : Port) : List Msg := q.unacked.map (·.2) ++ q.cur.flatMap (·.2)

/-- Handle one lost message of the device (R394). -/
def State.lostMsg (s : State) (p : Nat) (m : Msg) : State :=
  let mark (s : State) : State := { s with link := { s.link with
    out := s.link.out.map fun (o : OutReq) => if o.tag = m.tagw ∧ o.port = p ∧ o.msg.mtype = m.mtype then { o with lost := true } else o } }
  if m.src ≠ s.node then s
  else if m.mtype = 1 ∧ m.vc = 1 then
    let s := mark s
    { s with link := { s.link with hostLost := SMap.put 0 s.link.hostLost p (s.gcount + 1) } }
  else if m.mtype = 0x20 then
    (s.replaySend m.coach (chainOfMsg m) m.arg).replayHere m.coach (chainOfMsg m) m.arg
  else if m.mtype = 0x50 then s.forward m true
  else s

/-- The other ports of the direction of a torus port, or the port alone. -/
def directionPorts (p : Nat) : List Nat := if 2 ≤ p ∧ p < 10 then [p, pairPort p] else [p]

/-- No port of the direction of `p` is UP. -/
def State.directionDown (s : State) (p : Nat) : Bool := (directionPorts p).all fun q => s.linkState q != Ls.up

/-- Some route entry names the direction of `p` as its primary and has an alternate (R385). -/
def State.reroutes (s : State) (p : Nat) : Bool :=
  (List.range 2048).any fun n => s.get (routeB n) F.routePv == 1 && s.get (routeB n) F.routeAv == 1
    && (directionPorts p).contains (s.get (routeB n) F.routePri)

/-- The switch moves a direction's traffic to the alternates, where it stays until new entries are written: REROUTES and a LINK
record (R385, R398, R513). -/
def State.noteReroute (s : State) (p : Nat) : State :=
  if 2 ≤ p ∧ s.directionDown p = true ∧ s.reroutes p = true then
    let s := State.count { s with link := { s.link with rerouted := insertNat (directionOf p) s.link.rerouted } } F.reroutes
    s.raise { cls := 10, sev := 0, cause := (Config.uncodedCause 1).toNat, unit := 9, inst := p,
              detail := leBytes 2 (s.get (portB p) F.portPartner) }
  else s

/-- Every message of a port's queues is routed again. -/
def State.requeue (s : State) (p : Nat) : State :=
  let q := s.port p
  let s := s.modPort p fun q => { q with own := [], transit := [] }
  let s := (q.own.flatMap (·.2)).foldl (fun s m => s.forward m true) s
  (q.transit.flatMap (·.2)).foldl (fun s m => s.forward m false) s

/-- A port leaves UP or RETRAIN, for DOWN or DISABLED: what it holds is lost or moves (R378, R394, R398). -/
def State.loseLink (s : State) (p st : Nat) : State :=
  let q := s.port p
  let lost := q.lost
  let s := (s.enterLink p st).set (portB p) F.portLaneLock 0
  let s := s.bump (portB p) F.portLostMsgs (lost.length + (q.asm.filter fun e => e.2 != []).length)
  let s := s.modPort p fun q =>
    { q with part := [], cur := [], unacked := [], replay := [], nextSeq := 0, sent := [], cum := [], init := [], lastAck := 4095
             rxSeq := 4095, nak := false, freed := [], accepted := [], rxFlits := [], rx := q.rx.map fun e => (0, e.2), asm := [], line := [], marks := 0, partnerHost := false }
  let s := lost.foldl (fun s m => s.lostMsg p m) s
  ((if p < 2 then s else s.requeue p).noteReroute p).shipsLost lost

/-- A port enters DOWN from UP or RETRAIN (R378); from TRAINING or MISWIRED it carries nothing that could be lost. -/
def State.linkDown (s : State) (p : Nat) : State :=
  let st := s.linkState p
  if st = Ls.up ∨ st = Ls.retrain then (s.bump (portB p) F.portLinkDowns).loseLink p Ls.down
  else if st = Ls.training ∨ st = Ls.miswired then
    ((s.enterLink p Ls.down).set (portB p) F.portLaneLock 0).modPort p fun q => { q with marks := 0 }
  else s

/-- A port enters RETRAIN: its replay buffer and partial messages stay (R378). -/
def State.retrain (s : State) (p : Nat) : State :=
  if s.linkState p = Ls.up then (s.bump (portB p) F.portRetrains).enterLink p Ls.retrain else s

/-- Every unacknowledged flit is sent again in order; at the replay limit of 8 the port retrains (R375, R376). -/
def State.replayPort (s : State) (p : Nat) : State :=
  let q := s.port p
  if q.replay = [] then s
  else if q.replay.any fun f => 8 ≤ f.sends then
    s.portFault p 0x71 0 0 0 (s.get (portB p) F.portPartner) |>.retrain p
  else
    let again := q.replay.map fun f => flitBytes (q.hdr 1 f.vc f.cls f.seq f.first) f.payload
    (s.bump (portB p) F.portReplays q.replay.length).modPort p fun q =>
      { q with line := q.line ++ again, flitNo := q.flitNo + again.length, ackAt := s.gcount
               replay := q.replay.map fun (f : TxFlit) => { f with sends := f.sends + 1 } }

/-- What every received flit carries is taken: ACK, one credit counter, and NAK, on whose rise the sender replays (R373, R375;
a NAK that stays set asks once, log entry 22). -/
def State.takeHdr (s : State) (p : Nat) (h : FlitHdr) : State :=
  let was := (s.port p).nakSeen
  let s := s.modPort p fun q =>
    { (q.takeAck h.ack s.gcount) with cum := SMap.put 0 q.cum h.crsel h.crcum, nakSeen := h.nak }
  if h.nak ∧ was = false ∧ s.linkState p = Ls.up then s.replayPort p else s

/-- What FEC found in the codewords of a flit counts in FEC_CORR and FEC_UNCORR (R400). -/
def State.fecTaken (s : State) (p : Nat) (fec : FecFind) : State :=
  (s.bump (portB p) F.portFecCorr fec.corr).bump (portB p) F.portFecUncorr fec.uncorr

/-- A flit is discarded (R368): CRC_ERR, and NAK until the expected flit arrives. -/
def State.dropFlit (s : State) (p : Nat) : State :=
  let s := s.bump (portB p) F.portCrcErr
  if s.linkState p = Ls.up then s.modPort p fun q => { q with nak := true } else s

/-- A flit is discarded under R368: its CRC fails, FEC could not correct it, or its TYPE is 3. -/
def badFlit (flit : List Byte) (fec : FecFind) : Bool :=
  fec.uncorr != 0 || flit.length != 256 || fieldLE flit 248 8 != crc64 (flit.take 248) || (FlitHdr.of flit).typ == 3

/-- Whole messages, and what is left of a message begun, in the units of a VC and class (R369). -/
def parseUnits (vc cls : Nat) : Nat → List Byte → List Msg × List Byte
  | 0, l => ([], l)
  | n + 1, l =>
    match l with
    | [] => ([], [])
    | b :: _ =>
      if b = 0 then ([], [])
      else if l.length < 32 then ([], l)
      else
        let k := 16 * bits (fieldLE l 8 2) 0 9
        if l.length < 32 + k then ([], l)
        else
          let m := { Msg.ofHeader vc cls (l.take 32) with data := (l.drop 32).take k }
          let r := parseUnits vc cls n (l.drop (32 + k))
          (m :: r.1, r.2)

/-- Flits of a counter that whole messages in the receive buffer hold. -/
def Port.whole (q : Port) (k : Nat) : Nat := ((q.rx.filter fun e => 2 * e.2.vc + e.2.cls == k).map (·.1)).sum

/-- An accepted DATA flit enters the receive buffer, and its units join its counter's stream; whole messages stand in the buffer,
the last of them with the flits that leave with it, and fill leaves at once (R369, R373). -/
def Port.accept (q : Port) (h : FlitHdr) (payload : List Byte) : Port :=
  let k := 2 * h.vc + h.cls
  let old := SMap.look [] q.asm k
  let l := if old = [] then (if h.first = 15 then [] else payload.drop (16 * h.first)) else old ++ payload
  let r := parseUnits h.vc h.cls 16 l
  let all := SMap.look 0 q.rxFlits k + 1
  let n := all - q.whole k
  let keep := b2n (r.2 != [])
  let q := { q with rxSeq := h.seq, nak := false, asm := SMap.put [] q.asm k r.2
                    accepted := SMap.put 0 q.accepted k ((SMap.look 0 q.accepted k + 1) % 4096) }
  if r.1 = [] ∧ r.2 = [] then
    { q with rxFlits := SMap.put 0 q.rxFlits k (all - n), freed := SMap.put 0 q.freed k ((SMap.look 0 q.freed k + n) % 4096) }
  else
    { q with rxFlits := SMap.put 0 q.rxFlits k all
             rx := q.rx ++ r.1.zipIdx.map fun e => (if e.2 + 1 = r.1.length then n - keep else 0, e.1) }

/-- A whole message leaves the receive buffer, and its credits are freed (R373). -/
def Port.free (q : Port) (e : Nat × Msg) : Port :=
  let k := 2 * e.2.vc + e.2.cls
  { q with rx := q.rx.erase e, rxFlits := SMap.put 0 q.rxFlits k (SMap.look 0 q.rxFlits k - e.1)
           freed := SMap.put 0 q.freed k ((SMap.look 0 q.freed k + e.1) % 4096) }

/-! ### The drain (R397, R538) -/

/-- A drain source is set: service, admin, the safe state, or entry into STAND or SHUTDOWN. -/
def State.drainAsked (s : State) : Bool :=
  s.chip F.svcDrain == 1 || s.chip F.admDrain == 1 || s.safe || s.chip F.pwrStatusState != 0

/-- DRAINING follows its sources; the drain begins anew when they appear, and DRAINED clears when they go. -/
def State.refreshDrain (s : State) : State :=
  let d := s.drainAsked
  if d = (s.chip F.draining == 1) then s
  else
    let s := (s.setChip F.draining (b2n d)).setChip F.drained 0
    { s with link := { s.link with transitAt := s.gcount } }

/-! ### Routes computed by the firmware (R383, R385) -/

/-- Groups of the topology map. -/
def State.nGroups (s : State) : Nat := s.chip F.ngroups

/-- The gateway position and port of group `a` towards group `b` (R382). -/
def gateway (a b : Nat) : Nat × Nat :=
  let d := (b + 97 - a) % 97
  ((d - 1) / 6, 10 + (d - 1) % 6)

/-- The first port of the direction from one position to another of the torus, x before y (R383). -/
def torusPort (a b : Nat) : Option Nat :=
  if a % 4 ≠ b % 4 then some (if ringPlus 0 4 (a % 4) (b % 4) then 2 else 3)
  else if a / 4 ≠ b / 4 then some (if ringPlus 0 4 (a / 4) (b / 4) then 4 else 5)
  else none

/-- The other direction on the ring of a torus port. -/
def otherWay (p : Nat) : Nat := match p with | 2 => 3 | 3 => 2 | 4 => 5 | _ => 4

/-- The alternate of a torus direction: y before x where both differ, else the other way round the ring (R385). -/
def torusAlt (a b : Nat) : Option Nat :=
  if a % 4 ≠ b % 4 ∧ a / 4 ≠ b / 4 then some (if ringPlus 0 4 (a / 4) (b / 4) then 4 else 5)
  else (torusPort a b).map otherWay

/-- The port towards group `b` from this device: its own global port, or the torus towards the gateway. -/
def State.groupPort (s : State) (b : Nat) : Option Nat :=
  let g := gateway (s.node / 16) b
  if g.1 = s.node % 16 then some g.2 else torusPort (s.node % 16) g.1

/-- The global link between two groups is UP as this device's firmware knows it: it sees the state of the links it holds
(DEDUCED, log entry 23). -/
def State.globalUp (s : State) (a b : Nat) : Bool :=
  let g := gateway a b
  !(a == s.node / 16 && g.1 == s.node % 16) || s.linkState g.2 == Ls.up

/-- The detour group for a destination group (R385): the lowest-numbered existing group whose links to both are UP. -/
def State.detour (s : State) (b : Nat) : Option Nat :=
  let a := s.node / 16
  firstBelow s.nGroups fun c => c != a && c != b && s.globalUp a c && s.globalUp c b

/-- The route entry of device `n` (R385): primary, alternate, and whether the alternate is a detour. -/
def State.routeEntry (s : State) (n : Nat) : Nat :=
  let a := s.node / 16
  let b := n / 16
  if s.chip F.mapValid = 0 ∨ n = s.node ∨ s.nGroups ≤ b then 0
  else
    let word (pri alt : Option Nat) (det : Bool) : Nat :=
      (match pri with | some p => p + 16 | none => 0) + (match alt with | some p => p * 256 + 4096 | none => 0) + b2n det * 8192
    if a = b then word (torusPort (s.node % 16) (n % 16)) (torusAlt (s.node % 16) (n % 16)) false
    else
      let pri := s.groupPort b
      let g := gateway a b
      if s.globalUp a b = false then
        match s.detour b with
        | some c => word pri (s.groupPort c) true
        | none => word pri none false
      else if g.1 = s.node % 16 then word pri ((s.detour b).bind s.groupPort) true
      else word pri (torusAlt (s.node % 16) g.1) false

end Sys2Proof.Machine
end

