-- ==== Sys2Proof/Machine/Window.lean ====
section
/-!
DEFINITION. The control window (R543-R553): where each register lies, what a read returns, what a write does to each word
(R545, R546), which words an access without the admin bit may reach (R338), and the mailboxes (R421-R425).
-/
namespace Sys2Proof.Machine

/-! ### Where registers lie (R543, R544, R550-R553) -/

/-- The place of an address in the model's own register space: core windows are kept by physical core; none for a logical core
that is not there (R544). -/
def State.regKey (s : State) (a : Nat) : Option Nat :=
  if 0x100000 ≤ a ∧ a < 0x180000 then
    let l := (a - 0x100000) / 0x1000
    if l < s.nCores then (s.phys l).map fun p => coreB p + a % 0x1000 else none
  else some a

/-- The fields of the register word at a place; none where it is reserved. -/
def fieldsAt (a : Nat) : List Fld :=
  let at_ (fs : List Fld) (o : Nat) : List Fld := fs.filter fun f => f.off == o
  if a % 8 ≠ 0 then []
  else if 0x1000 ≤ a ∧ a < 0x1400 then fields.coremap
  else if 0x2000 ≤ a ∧ a < 0x2080 then fields.tbl
  else if 0x2800 ≤ a ∧ a < 0x2A00 then fields.region
  else if 0x2C00 ≤ a ∧ a < 0x3080 then fields.pcore
  else if 0x3140 ≤ a ∧ a < 0x31C0 then at_ fields.cvec (a % 16)
  else if 0x4000 ≤ a ∧ a < 0x8000 then fields.route
  else if 0x8000 ≤ a ∧ a < 0x10000 then fields.slice
  else if a < 0x100000 then at_ fields.chip a
  else if 0x200000 ≤ a ∧ a < 0x280000 then
    let o := a % 0x10000
    if 0x100 ≤ o ∧ o < 0x180 then fields.mcreg else if 0x180 ≤ o ∧ o < 0x200 then fields.mcbytes else at_ fields.mc o
  else if 0x300000 ≤ a ∧ a < 0x340000 then at_ fields.port (a % 0x4000)
  else if 0x1000000 ≤ a ∧ a < 0x2000000 then
    let o := a % 0x1000
    if 0x450 ≤ o ∧ o < 0x490 then at_ fields.cvec (o % 16) else at_ fields.coach o
  else if 0x2000000 ≤ a ∧ a < 0x2000038 then at_ fields.chip a
  else if 0x2010000 ≤ a ∧ a < 0x2011000 then fields.mgn
  else if 0x2020000 ≤ a ∧ a < 0x2020300 then at_ fields.lb (a % 0x20)
  else if coreKey ≤ a then
    let o := a % 0x1000
    if 0x400 ≤ o ∧ o < 0x600 then at_ fields.te (o % 0x80)
    else if 0x600 ≤ o ∧ o < 0x800 then at_ fields.xe (o % 0x80)
    else if 0x800 ≤ o ∧ o < 0x900 then at_ fields.q (o - 0x800)
    else if 0x900 ≤ o ∧ o < 0xA00 then at_ fields.ge (o - 0x900)
    else if 0xA00 ≤ o ∧ o < 0xB00 then at_ fields.le (o - 0xA00)
    else if 0xB00 ≤ o ∧ o < 0xC00 then at_ fields.td (o - 0xB00)
    else if 0xC00 ≤ o ∧ o < 0xD00 then at_ fields.spm (o - 0xC00)
    else if 0xD00 ≤ o ∧ o < 0xE00 then at_ fields.dma (o - 0xD00)
    else []
  else []

/-- The address lies in a mailbox (R421). -/
def inMailbox (a : Nat) : Bool :=
  (0x400000 ≤ a && a < 0x402400) || (0x1000000 ≤ a && a < 0x2000000 && a % 0x1000 < 0x400)

/-! ### Words that are read as they stand in the machine -/

/-- Logical core at a mesh neighbour of a physical core, as SPM_NBR shows it (R293). -/
def State.nbr (s : State) (ok : Bool) (q : Nat) : Nat :=
  let st := s.get (pcoreB q) F.pcoreState
  if ok ∧ (st = 2 ∨ st = 3) then 128 + s.get (pcoreB q) F.pcoreLogical else 0

/-- A set's drain is sending a row, or has sent its last (R87): between rows, and while it waits for carts, it is not. -/
def AccSet.moving (a : AccSet) : Bool := a.st == 3 && (a.sent % 4 != 0 || a.sent == 4 * a.rows.length)

/-- The pass that an engine runs next waits for a cart of a list (R169). -/
def Core.geWaits (c : Core) (g : GeList) : Bool :=
  decide (g.carts.length < g.ncart) && c.td.any fun t => t.key + 1 == g.carr && decide (g.tileNo ≤ (t.todo.head?.map Pass.tile).getD 0)

/-- The VU appends keys or values: the last engine of a chain that appends drains (R185, R193). -/
def Core.appends (c : Core) : Bool :=
  c.te.any fun x => [x.setA, x.setB].any fun a => a.st == 3 && c.td.any fun t => t.key + 1 == a.carr && Ca.append t.carr
    && Ca.pos t.carr == Ca.lenm1 t.carr

/-- The fields of a core window that follow the core's engines: (field, value) of the word at an offset. A word reads as its unit
stands between two commands (DESIGN CHOICE, log entry 101): XE_STATUS.SLOT of a raw block as the ignored bits of its entry,
LE_STATUS.PHASE 1 while a started attention carriage has units and 3 while partials wait, CHUNK and COACH those of the first started
LE carriage and of its next unit. -/
def State.coreView (s : State) (p o : Nat) : List (Fld × Nat) :=
  let c := s.core p
  if 0x400 ≤ o ∧ o < 0x600 ∧ o % 0x80 = 0 then
    let t := c.te.getD ((o - 0x400) / 0x80) {}
    [(F.teSetA, t.setA.st), (F.teSetB, t.setB.st), (F.teActiveValid, b2n t.active.isSome), (F.teShadowValid, b2n t.shadow.isSome),
     (F.teSkipEn, b2n (!s.strictTime)), (F.teFmtA, t.setA.fmt), (F.teFmtB, t.setB.fmt),
     (F.teCompact, b2n t.compact), (F.teDrainBusy, b2n (t.setA.moving || t.setB.moving))]
  else if 0x600 ≤ o ∧ o < 0x800 ∧ o % 0x80 = 0 then
    let e := (o - 0x600) / 0x80
    let x := c.xe.getD e {}
    let b := (x.blocks.filter (·.st == 3)).length
    let y := x.blocks.getD b {}
    let done := (c.te.getD e {}).shadow.isSome
    [(F.xeState, if x.carr = 0 then (if done then 2 else 0) else if y.attempt = 1 && y.st == 1 then 3 else 1), (F.xeBlock, b),
     (F.xeMode, if y.entry = [] then 0 else bits (fieldLE y.entry 0 1) 0 1),
     (F.xeSlot, if y.entry = [] then 0 else bits (fieldLE y.entry 2 1) 0 4)]
  else if o = 0x900 then
    match c.ge.find? c.geWaits with
    | some g => [(F.geState, if g.again then 3 else 2), (F.geOve, g.ove), (F.geColumn, 0)]
    | none =>
      let on := c.te.any (·.compact)
      [(F.geState, b2n on), (F.geOve, if on then c.gather.1 else 0), (F.geColumn, if on then c.gather.2 else 0)]
  else if o = 0xA00 then
    let le := c.td.find? fun t => Ca.isLe t.carr && t.start != 0
    [(F.leMergeStrict, b2n s.strict), (F.leAppend, b2n c.appends),
     (F.lePhase, if le.any (fun t => t.units != []) then 1 else if c.merges.any (fun m => m.parts != []) then 3 else 0),
     (F.leCoach, (le.map (·.coach)).getD 0), (F.leChunk, ((le.bind fun t => t.units.head?).map (·.chunk)).getD 0)]
  else if o = 0xB20 then [(F.tdCycIdle, s.get (tdB p) F.tdCycIdle + (if c.td = [] then s.gcount - c.emptyAt else 0))]
  else if o = 0xB00 then [(F.tdQueued, c.td.length)]
  else if o = 0xC08 then
    [(F.spmNbrN, s.nbr (12 ≤ p) (p - 12)), (F.spmNbrE, s.nbr (p % 12 < 11) (p + 1)), (F.spmNbrS, s.nbr (p < 132) (p + 12)),
     (F.spmNbrW, s.nbr (0 < p % 12) (p - 1))]
  else if o = 0xD00 then [(F.dmaTagsBusy, c.tags.length), (F.dmaQueued, c.dmaQ.length)]
  else []

/-- The fields of a chip word that follow the machine. -/
def State.chipView (s : State) (a : Nat) : List (Fld × Nat) :=
  if a = 0x2108 then
    [(F.ovlLive, (s.sb.oves.filter fun e => e.2.st == Os.live).length),
     (F.ovlRetiring, (s.sb.oves.filter fun e => e.2.st == Os.retiring).length),
     (F.ovlRefs, s.sb.oves.foldl (fun a e => a + e.2.refs) 0)]
  else if a = 0x2310 then
    [(F.sbLive, s.liveSlots.length), (F.sbReady, (s.liveSlots.filter fun n => s.seq n Se.state == Ss.ready).length)]
  else if a = 0x2408 then
    [(F.armed, ((s.gs.rows.map (·.graph)).eraseDups).length), (F.inflight, (s.gs.units.filter fun u => u.st == 1).length)]
  else if a = 0x2410 then [(F.registered, s.graphs.length)]
  else if a = 0x2608 then [(F.gcount, s.gcount)]
  else if a = 0x2618 then
    [(F.gcStatusBound, if s.chip F.gcStatusState = 2 then 4 * s.chip F.gcStatusHops else 0xFFFF)]
  else if a = 0x2628 then [(F.launches, s.launches)]
  else if a = 0x2A08 then [(F.ftStatusSpares, s.spares)]
  else if a = 0x3100 then
    [(F.admPend, (List.range 8).foldl (fun a k => a + b2n (s.owned k) * 2 ^ k) 0), (F.sbPend, b2n (s.owned 8)),
     (F.coachPend, s.ownedCoaches.length), (F.inprog, s.inprog.length), (F.mpLoad, s.mpLoad)]
  else if a = 0x3500 then [(F.svcStatusLocate, s.chip F.svcCtrlLocate)]
  else if a = 0x2000010 then
    [(F.logQueueSev0, s.log.q0.length), (F.logQueueSev1, s.log.q1.length), (F.logQueueSev2, s.log.q2.length),
     (F.logQueueHold, b2n s.logHeld)]
  else []

/-- The word at a place as a read returns it: only the bits of its fields, those that follow the machine taken from it. Coach
registers read zero after the clear before scan (R451). -/
def State.readReg (s : State) (a : Nat) : Nat :=
  if s.boot.cleared ∧ 0x1000000 ≤ a ∧ a < 0x2000000 then 0 else
  let view := if coreKey ≤ a then s.coreView ((a - coreKey) / 0x1000) (a % 0x1000) else s.chipView a
  let w := (fieldsAt a).foldl (fun w f => w + bits (s.word a) f.lo f.w * 2 ^ f.lo) 0
  view.foldl (fun w e => setBits w e.1.lo e.1.w e.2) w

/-- The 64-bit word at an address of the window, for a reader that may read all of it but the sideband mailbox (R421). -/
def State.readWord (s : State) (a : Nat) : Nat :=
  if 0x402000 ≤ a ∧ a < 0x402400 then 0
  else if inMailbox a then leNat (Memory.read s.mbox a 8)
  else if 0x2100000 ≤ a ∧ a < 0x2180000 then
    fieldLE (SMap.look [] s.log.ring ((a - 0x2100000) / 64)) (a % 64) 8
  else match s.regKey a with
    | none => 0
    | some k => s.readReg k

/-- A read clears every RC field of the word it returns (R545). -/
def State.clearRc (s : State) (a : Nat) : State :=
  if inMailbox a then s
  else match s.regKey a with
    | none => s
    | some k => (fieldsAt k).foldl (fun s f => if f.acc = .rc then s.set (k - f.off) f 0 else s) s

/-- The address lies in the window of a coach (R341). -/
def inCoach (coach a : Nat) : Bool := decide (coachB coach ≤ a) && decide (a < coachB coach + 0x1000)

/-- Read the words of an access (R338, R545, R546): the state with the RC fields cleared, and the bytes. -/
def State.windowRead (s : State) (admin : Bool) (coach a : Nat) : Nat → State × List Byte
  | 0 => (s, [])
  | n + 1 =>
    let ok := admin || inCoach coach a
    let w := if ok then s.readWord a else 0
    let s := if ok then s.clearRc a else s
    let r := State.windowRead s admin coach (a + 8) n
    (r.1, leBytes 8 w ++ r.2)

/-! ### Registers whose write does more -/

/-- A write of CHIP_MODE (R348): STRICT_TIME brings STRICT; the value waits for the step boundary, or applies at once where no
graph is armed. -/
def State.writeChipMode (s : State) (v : Nat) : State :=
  let t := v / 2 % 2
  let st := if t = 1 then 1 else v % 2
  let s := ((s.setChip F.chipModeStrict st).setChip F.strictTime t).setChip F.chipModePending 1
  let s := { s with gs := { s.gs with modeNext := some (st + 2 * t) } }
  if s.gs.active then s else s.applyMode

/-- The coaches in lockstep hear that the device leaves LOCKED (R362). -/
def State.unlocked (s : State) : State :=
  if s.chip F.gcStatusState = 2 then
    (s.liveCoaches.filter fun c => (s.coach c).launch.any fun l => l.started && l.p != 0).foldl (fun s c => s.event c 3) s
  else s

/-- The synchronisation state changes (R359). -/
def State.setSync (s : State) (st : Nat) : State :=
  let s := if st = 2 then s else s.unlocked
  (s.setChip F.gcStatusState st)

/-- A write of GC_SYNC (R363, R359): ROLE 0, 1 or 3 makes the state FREE, with HOPS 0. -/
def State.writeGcSync (s : State) (v : Nat) : State :=
  let s := ((s.setChip F.gcSyncRole v).setChip F.gcSyncSrc (v / 2 ^ 8)).setChip F.gcSyncAlt (v / 2 ^ 12)
  let s := s.setChip F.altEn (v / 2 ^ 16)
  if s.chip F.gcSyncRole = 2 then s
  else
    let s := (((s.setSync 0).setChip F.gcStatusHops 0).setChip F.onAlt 0).setChip F.gcStatusMaster 0
    { s with link := { s.link with lockFrames := 0 } }

/-- The lasers of a port are turned on or off; EKL_OPTIC shows a connector's lasers on while one of its ports has them on. -/
def State.setLaser (s : State) (p v : Nat) : State :=
  let s := s.set (portB p) F.portLaser v
  let k := p / 4
  let on := (upFrom (4 * k) 4).any fun q => s.get (portB q) F.portLaser == 1
  s.setChip F.laserOn (setBits (s.chip F.laserOn) k 1 (b2n on))

/-- The loop-back of a port ends: it reads DEPTH 0 and its counts stand as they were measured, which the source does not
give (free values). -/
def State.endLoop (s : State) (p : Nat) : State :=
  let b := lbEklB p
  if s.get b F.lbActive = 0 then s.set b F.lbDepth 0
  else
    let f := s.free
    let s := ((s.draw).draw).draw
    let s := ((s.set b F.lbDepth 0).set b F.lbActive 0).set b F.lbLock 0
    let s := ((s.set b F.lbLaneErr (Config.measured f).toNat).bump b F.lbLbErrs (Config.measured (f + 1)).toNat).bump b F.lbLbBits
      (Config.measured (f + 2)).toNat
    s.setLaser p 0

/-- A write of an EKL port's loop-back DEPTH (R490, R491, R493). -/
def State.writeLbEkl (s : State) (p d : Nat) : State :=
  let b := lbEklB p
  let d := d % 8
  if d = s.get b F.lbDepth then s
  else if s.linkState p ≠ Ls.disabled ∨ 5 < d ∨ (4 ≤ d ∧ s.get (portB p) F.portPresent = 0) then s.set b F.lbRefused 1
  else if d = 0 then s.endLoop p
  else
    let f := s.free
    let s := ((s.draw).set b F.lbDepth d).set b F.lbActive 1
    let s := s.set b F.lbLock (Config.measured f).toNat
    s.setLaser p (b2n (decide (3 ≤ d)))

/-- A write of a stack's loop-back DEPTH (R490, R492, R493): it runs for 1 ms. -/
def State.writeLbHbm (s : State) (m d : Nat) : State :=
  let b := lbHbmB m
  let d := d % 8
  if d = s.get b F.lbDepth then s
  else if s.allQuiet = false ∨ 3 < d ∨ s.get b F.lbActive = 1 then s.set b F.lbRefused 1
  else
    let f := s.free
    let s := (((s.draw).set b F.lbDepth d).set b F.lbActive 1).set b F.lbLock (Config.measured f).toNat
    let s := if 2 ≤ d then s.set (mcB m) F.mcSelfref 1 else s
    { s with hbm := { s.hbm with lbEnd := SMap.put 0 s.hbm.lbEnd m (s.gcount + 1000000) } }

/-- A write of PORT_CTRL.DISABLE (R378, R398): the port is DISABLED with its lasers off and what it carries is lost, or it is
released to DOWN, where its lasers are on while its connector is present. -/
def State.writePortCtrl (s : State) (p v : Nat) : State :=
  let v := v % 2
  if v = s.get (portB p) F.portDisable then s
  else
    let s := s.set (portB p) F.portDisable v
    if v = 1 then
      let st := s.linkState p
      let s := if st = Ls.up ∨ st = Ls.retrain then s.loseLink p Ls.disabled else s.enterLink p Ls.disabled
      s.setLaser p 0
    else if s.boot.badPorts.contains p then s
    else
      ((s.endLoop p).enterLink p Ls.down).setLaser p (s.get (portB p) F.portPresent)

/-- A write of SVC_CTRL (R542): LOCATE and BTN_EN, and SERVICE with source 3. -/
def State.writeSvcCtrl (s : State) (v : Nat) : State :=
  let s := (s.setChip F.svcCtrlLocate v).setChip F.btnEn (v / 2)
  s.serviceNote (if s.chip F.svcCtrlLocate = 1 then 1 else 2) 3

/-- A write of PM_INTERVAL (R316): an interval begins, and every XE is latched. -/
def State.writePmInterval (s : State) (v : Nat) : State :=
  let s := s.setChip F.pmInterval v
  let sum (f : Fld) : Nat := (List.range 144).foldl (fun a p => (List.range 4).foldl (fun a e => a + s.get (xeB p e) f) a) 0
  { s with hbm := { s.hbm with pmStart := s.gcount, pmPayload0 := sum F.xePayloadBytes, pmTrits0 := sum F.xeTritsOut } }

/-- The vector whose VCFG lies at a place (R341, R439). -/
def vcfgAt (a : Nat) : Option Nat :=
  if 0x3140 ≤ a ∧ a < 0x31C0 ∧ a % 16 = 8 then some (16384 + (a - 0x3140) / 16)
  else if 0x1000000 ≤ a ∧ a < 0x2000000 ∧ 0x450 ≤ a % 0x1000 ∧ a % 0x1000 < 0x490 ∧ a % 16 = 8 then
    some (4 * ((a - 0x1000000) / 0x1000) + (a % 0x1000 - 0x450) / 16)
  else none

/-- The plain rule of a register write (R8, R545): RW fields take the value, W1C bits written 1 clear, others stand. -/
def State.writePlain (s : State) (a v : Nat) : State :=
  (fieldsAt a).foldl (fun s f =>
    match f.acc with
    | .rw => s.set (a - f.off) f (v / 2 ^ f.lo)
    | .w1c => if bit v f.lo then s.set (a - f.off) f 0 else s
    | _ => s) s

/-- The controller and class whose regulator a register word holds (R308). -/
def regulatorAt (a : Nat) : Option (Nat × Nat) :=
  let m := (a - 0x200000) / 0x10000
  let o := (a - 0x200000) % 0x10000
  if 0x200000 ≤ a ∧ m < 8 ∧ 0x100 ≤ o ∧ o < 0x180 ∧ o % 8 = 0 then some (m, (o - 0x100) / 8) else none

/-- One register word is written (R546); a regulator's tokens of the cycles so far are booked before it changes (R308). -/
def State.writeReg (s : State) (a v : Nat) : State :=
  if a = 0x2600 then s.writeChipMode v
  else if a = 0x2610 then s.writeGcSync v
  else if a = 0x3508 then s.writeSvcCtrl v
  else if a = 0x2500 then s.writePmInterval (v % 2 ^ 32)
  else if a = 0x2228 then (s.setChip F.lowmark (v / 2 ^ 32)).poolMark
  else if 0x300000 ≤ a ∧ a < 0x340000 ∧ a % 0x4000 = 0x10 then s.writePortCtrl ((a - 0x300000) / 0x4000) v
  else if 0x2020000 ≤ a ∧ a < 0x2020200 ∧ a % 0x20 = 0 then s.writeLbEkl ((a - 0x2020000) / 0x20) v
  else if 0x2020200 ≤ a ∧ a < 0x2020300 ∧ a % 0x20 = 0 then s.writeLbHbm ((a - 0x2020200) / 0x20) v
  else match vcfgAt a with
    | some i => s.writeVcfg i v
    | none =>
      match regulatorAt a with
      | some (m, k) => (s.settleBucket m k).writePlain a v
      | none => s.writePlain a v

/-! ### Writes (R338, R425, R546) -/

/-- A write of a register word would change nothing (R546): every RW field holds its value and every W1C bit is 0. -/
def State.unchanged (s : State) (k v : Nat) : Bool :=
  (fieldsAt k).all fun f => match f.acc with
    | .rw | .rwh => bits (s.word k) f.lo f.w == bits v f.lo f.w
    | .w1c => bits v f.lo f.w == 0
    | _ => true

/-- The offset of an RWH register of a coach window; none for another place (R333). -/
def rwhAt (a : Nat) : Option (Nat × Nat) :=
  if 0x1000000 ≤ a ∧ a < 0x2000000 ∧ isRwh (a % 0x1000) = true then some ((a - 0x1000000) / 0x1000, a % 0x1000) else none

/-- A register word that an access without the admin bit may write (R338): VADDR and VCFG of its own window; the W1C bit
REFUSED is handled beside it. -/
def coachMayWrite (coach a : Nat) : Bool :=
  inCoach coach a && decide (0x450 ≤ a % 0x1000) && decide (a % 0x1000 < 0x490)

/-- One word of a write is applied or discarded (R338, R546): the state, and whether it was discarded under R338. -/
def State.writeWord (s : State) (admin : Bool) (coach a v : Nat) : State × Bool :=
  match s.regKey a with
  | none => (s, false)
  | some k =>
    if s.unchanged k v then (s, false)
    else if admin then
      (match rwhAt k with
       | some (c, off) => ((s.rwhWrite c off v).1, false)
       | none => (s.writeReg k v, false))
    else if coachMayWrite coach a then (s.writeReg k v, false)
    else if a = coachB coach + 0x400 then (s.writePlain k v, false)
    else (s.bump (coachB coach) F.coachWrDiscard, true)

/-- The mailbox that holds an address: its number. -/
def boxOf (a : Nat) : Nat :=
  if a < 0x402000 then (a - 0x400000) / 0x400 else if a < 0x402400 then 8 else 16 + (a - 0x1000000) / 0x1000

/-- Write bytes into a mailbox's command area (R422-R425): discarded and counted while OWN reads 1; the response area takes no
host write. Byte 3 is applied last, so the command stands whole when OWN is set. -/
def State.writeBox (s : State) (a : Nat) (l : List Byte) : State :=
  let box := boxOf a
  let off := a - boxB box
  if 0x200 ≤ off then s
  else if s.owned box then s.count F.mbWdiscard
  else { s with mbox := Memory.write s.mbox a (l.take (0x200 - off)) }

/-- The first RWH word of an access that R333 refuses: the state with the refusal noted, and its status. -/
def State.rwhRefusal (s : State) (a : Nat) : List Nat → Option (State × Nat)
  | [] => none
  | v :: r =>
    match rwhAt a with
    | some (c, off) =>
      if s.unchanged a v then s.rwhRefusal (a + 8) r
      else
        let q := s.rwhWrite c off v
        if q.2 = Sc.ok then s.rwhRefusal (a + 8) r else some q
    | none => s.rwhRefusal (a + 8) r

/-- The words of a write that lie in one mailbox, from its front. -/
def boxRun (a : Nat) : List Nat → Nat
  | [] => 0
  | _ :: r => if inMailbox a then 1 + (if inMailbox (a + 8) ∧ boxOf (a + 8) = boxOf a then boxRun (a + 8) r else 0) else 0

/-- How many words of a write into a mailbox would change it (R546). -/
def State.changedWords (s : State) (a : Nat) (ws : List Nat) : Nat :=
  (ws.zipIdx.filter fun e => Memory.read s.mbox (a + 8 * e.2) 8 != leBytes 8 e.1).length

/-- Apply the words of a write one after another; how many were discarded under R338. A write into a mailbox counts once
under R425. -/
def State.writeWords (s : State) (admin : Bool) (coach : Nat) : Nat → Nat → List Nat → State × Nat
  | 0, _, _ => (s, 0)
  | _ + 1, _, [] => (s, 0)
  | n + 1, a, v :: r =>
    if inMailbox a then
      let k := max 1 (boxRun a (v :: r))
      let l := ((v :: r).take k).flatMap (leBytes 8)
      let sb := decide (0x402000 ≤ a ∧ a < 0x402400)
      let mine := admin || inCoach coach a
      let other := if mine then 0 else s.changedWords a ((v :: r).take k)
      let s := if mine then (if sb then s else s.writeBox a l) else s.bump (coachB coach) F.coachWrDiscard other
      let q := State.writeWords s admin coach n (a + 8 * k) ((v :: r).drop k)
      (q.1, q.2 + other)
    else
      let w := s.writeWord admin coach a v
      let q := State.writeWords w.1 admin coach n (a + 8) r
      (q.1, q.2 + b2n w.2)

/-- A write to the control window (R546): the state and the status that its WRITE_ACK carries. -/
def State.windowWrite (s : State) (admin : Bool) (coach a : Nat) (ws : List Nat) : State × Nat :=
  match (if admin then s.rwhRefusal a ws else none) with
  | some q => q
  | none =>
    let q := s.writeWords admin coach ws.length a ws
    (q.1, if q.2 = 0 then Sc.ok else Sc.denied)

/-- The 64-bit words of a byte list. -/
def wordsOf (l : List Byte) : List Nat := (chunks 8 (l.length / 8) l).map leNat

end Sys2Proof.Machine
end

