-- ==== Sys2Proof/Machine/BootOps.lean ====
section
/-!
DEFINITION. Operations of the boot ROM and of what follows a wake (18, 19): the boot exchange (R441), the reads of the hand-back
block and the image (R442), returns to REQUEST, and a port that reaches UP (R378, R394, R469).
-/
namespace Sys2Proof.Machine

/-- The ROM enters a state (R440). -/
def State.enterRom (s : State) (st : Nat) : State := s.setChip F.bootStatusState st

/-- The ROM enters FAILED with a REASON (R440, R453). -/
def State.romFailed (s : State) (reason : Nat) : State := (s.enterRom Rom.failed).setChip F.bootStatusReason reason

/-- BOOT_REQ on a host port (R441). -/
def State.bootReq (s : State) (p : Nat) : State :=
  s.mgmtTo p 0x0B01 ((s.chip F.attempts + 1) % 256 + 256 * s.chip F.bootStatusReason)
    (packFields 16 [(0, 8, s.chip F.devSerialSerial), (8, 1, 0xB1), (9, 1, Config.romVersion.toNat)])

/-- BOOT_REQ on every host port that is UP (R440). -/
def State.bootReqAll (s : State) : State :=
  let s := { s with boot := { s.boot with lastReq := s.gcount } }
  s.hostsUp.foldl (fun s p => s.bootReq p) s

/-- The ROM enters REQUEST, and the reads of the attempt are forgotten. -/
def State.enterRequest (s : State) : State :=
  let s := { s with
    boot := { s.boot with got := [], reads := [], nextOff := 0, buf := [] }
    link := { s.link with out := s.link.out.filter fun o => match o.why with | .boot _ _ => false | _ => true } }
  (s.enterRom Rom.request).bootReqAll

/-- An attempt ends (R442, R445): BOOT_FAIL to the adapter of the grant, and REQUEST again; from the sixteenth attempt on
ALERT# is asserted. -/
def State.bootFail (s : State) (status reason : Nat) : State :=
  let s := s.mgmtTo s.boot.port 0x0B03 (status + 256 * reason)
  let s := ((s.setChip F.lastStatus status).setChip F.bootStatusReason reason).bumpSat chipB F.attempts
  let s := if 15 ≤ s.chip F.attempts then s.alertCause 2 else s
  s.enterRequest

/-! ### Reads of the hand-back block and the image (R442) -/

/-- Bytes that the reads in progress fetch. -/
def State.bootTotal (s : State) : Nat :=
  if s.rom = Rom.handback then min 4096 s.boot.hbLen else min 4194304 s.boot.len

/-- Host address they are fetched from. -/
def State.bootFrom (s : State) : Nat := if s.rom = Rom.handback then s.boot.hb else s.boot.img

/-- Reads of the boot ROM are under way: the hand-back block, or an image at boot or at a hand-over. -/
def State.bootLoading (s : State) : Bool := s.rom == Rom.handback || s.rom == Rom.load || s.boot.phase == 1

/-- Issue one read of 512 bytes, or of what is left in units of 32 (R370, R442). The entry of an outstanding read holds its
failures plus one, and when it was issued. -/
def State.bootRead (s : State) (off : Nat) : State :=
  let n := min 512 ((s.bootTotal - off + 31) / 32 * 32)
  let f := max 1 (SMap.look (0, 0) s.boot.reads off).1
  let s := { s with boot := { s.boot with reads := SMap.put (0, 0) s.boot.reads off (f, s.gcount) } }
  s.request s.boot.port { mtype := 3, vc := 7, space := 3, dst := s.hostNode s.boot.port, addr := s.bootFrom + off, arg := n }
    (.boot off n)

/-- Keep 16 reads outstanding. -/
def State.bootIssue : Nat → State → State
  | 0, s => s
  | n + 1, s =>
    if s.boot.reads.length < 16 ∧ s.boot.nextOff < s.bootTotal then
      let off := s.boot.nextOff
      State.bootIssue n (State.bootRead { s with boot := { s.boot with nextOff := off + 512 } } off)
    else s

/-- The reads of a block or image begin. -/
def State.bootStart (s : State) : State :=
  State.bootIssue 16 { s with boot := { s.boot with got := [], reads := [], nextOff := 0, buf := [] } }

/-- Every byte has arrived. -/
def State.bootGot (s : State) : Bool := decide (s.bootTotal ≤ s.boot.nextOff) && s.boot.reads == []

/-- The slot that a load goes to (R443): the one that does not hold the kept image; slot A at a cold boot. -/
def State.stagingSlot (s : State) : Nat :=
  if s.rom = Rom.running ∨ s.boot.warm = true then 1 - s.chip F.bootStatusSlot else 0

/-- Device address of an image slot. -/
def slotAddr (n : Nat) : Nat := 0x400000 * n

/-- A load of the hand-over fails: the kept image is verified instead, and the command will be answered with a status
(R434, R436, R442). -/
def State.keepImage (s : State) (status : Nat) : State :=
  { s with boot := { s.boot with phase := 2, kept := true, handStatus := status, got := [], reads := [], nextOff := 0 }
           link := { s.link with out := s.link.out.filter fun o => match o.why with | .boot _ _ => false | _ => true } }

/-- A read failed: it is issued again, and the third failure ends the attempt (R442). -/
def State.bootReadFailed (s : State) (off status : Nat) : State :=
  let f := (SMap.look (0, 0) s.boot.reads off).1
  if f = 0 then s
  else if 3 ≤ f then
    (if s.boot.phase = 1 then s.keepImage Sc.timeout else s.bootFail status 8)
  else State.bootRead { s with boot := { s.boot with reads := SMap.put (0, 0) s.boot.reads off (f + 1, s.gcount) } } off

/-- The answer of a boot read arrives (R442). -/
def State.bootAnswer (s : State) (off n status : Nat) (data : List Byte) : State :=
  if s.bootLoading = false ∨ (SMap.look (0, 0) s.boot.reads off).1 = 0 then s
  else if status ≠ Sc.ok ∨ data.length ≠ n then
    s.bootReadFailed off (if status = Sc.poison then Sc.poison else Sc.timeout)
  else
    let b := { s.boot with reads := SMap.put (0, 0) s.boot.reads off (0, 0), got := insertNat off s.boot.got }
    let s : State := { s with boot := b }
    let s := if s.rom = Rom.handback then { s with boot := { s.boot with buf := Memory.write s.boot.buf off data } }
      else s.memWrite (slotAddr s.stagingSlot + off) data
    State.bootIssue 1 s

/-! ### A port reaches UP -/

/-- The writes to a host that were lost with its port are sent again in order (R394). -/
def State.resendLost (s : State) (p : Nat) : State :=
  let lost := s.link.out.filter fun o => o.lost && o.port == p
  let s := { s with link := { s.link with
    out := s.link.out.map fun (o : OutReq) => if o.port = p then { o with lost := false } else o
    hostLost := SMap.put 0 s.link.hostLost p 0 } }
  lost.foldl (fun s o => s.enqueue p o.msg) s

/-- The first host port is UP after a wake (R469): WAKE to every reachable adapter, a record, ALERT#, and WAKE_US, whose value
the source does not give (a free value). -/
def State.wakeNotice (s : State) : State :=
  if s.pwr.wakeNote = false ∨ s.hostsUp = [] then s
  else
    let us := (Config.measured s.free).toNat % 2 ^ 32
    let s := { s.draw with pwr := { s.pwr with wakeNote := false } }
    let s := ((s.setChip F.wakeUs us).setChip F.pwrStatusState 0).refreshDrain
    ((s.tellHosts 0x0C01 us).raise { cls := 0, sev := 0, cause := 0x8E, unit := 13, all := true, detail := leBytes 4 us }).alertCause 3

/-- A port reaches UP (R378): LANE_LOCK reads all lanes; LINK gives way to REQUEST; a wake is announced; kept writes leave. -/
def State.linkUp (s : State) (p : Nat) : State :=
  let s := (s.enterLink p Ls.up).set (portB p) F.portLaneLock 0xFF
  let s := if p < 2 then s.resendLost p else s
  let s := s.wakeNotice
  if s.rom = Rom.linkUp ∧ s.hostsUp ≠ [] ∧ bit s.pwr.railsGood 5 = true then s.enterRequest else s

end Sys2Proof.Machine
end

