-- ==== Sys2Proof/Machine/Messages.lean ====
section
/-!
DEFINITION. Messages that arrive for the device (R369-R371, R337-R340, R394): the requests of hosts and their answers, the
answers to the device's own requests, drawbar carts and chain messages (R265, R266), management messages and transit (R386).
-/
namespace Sys2Proof.Machine

/-! ### Validity (R369-R371, R380) -/

/-- A node id is valid (R380). -/
def validNode (n : Nat) : Bool := decide (n ≤ 0x60F) || (decide (0x8000 ≤ n) && decide ((n - 0x8000) / 2 ≤ 0x60F))

/-- The virtual channels and the LEN of each message type (R370). -/
def typeOk (m : Msg) : Bool :=
  let n := m.len
  match m.mtype with
  | 0x01 => [0, 1, 7].contains m.vc && decide (1 ≤ n)
  | 0x02 => [0, 1, 7].contains m.vc && n == 0
  | 0x03 => [1, 7].contains m.vc && n == 0 && m.arg % 8192 % 32 == 0 && decide (1 ≤ m.arg % 8192) && decide (m.arg % 8192 ≤ 4096)
  | 0x04 => [1, 7].contains m.vc
  | 0x05 => m.vc == 1 && n == 2 && m.addr % 32 == 0 && m.space != 1
  | 0x06 => m.vc == 1 && (n == 0 || n == 2)
  | 0x20 => m.vc == 6 && n == 17
  | 0x21 | 0x22 => m.vc == 0 && n == 0
  | 0x23 => m.vc == 6 && n == 0
  | 0x30 => m.vc == 2 && n % 16 == 0 && decide (1 ≤ n)
  | 0x31 => m.vc == 2 && n == 0
  | 0x40 | 0x41 => decide (3 ≤ m.vc) && decide (m.vc ≤ 5) && decide (1 ≤ n) && decide (n ≤ 256)
  | 0x42 => decide (3 ≤ m.vc) && decide (m.vc ≤ 5) && n == 0
  | 0x50 => m.vc == 7
  | _ => false

/-- A request: it receives exactly one response (R370). -/
def isRequest (m : Msg) : Bool := m.mtype == 1 || m.mtype == 3 || m.mtype == 5

/-- A message is invalid or its fields break R369: LEN above 288, or above 32 on VC0 and VC7; an id that is not valid; a
request of the device that names a host address, or a device address without ADMIN. -/
def msgBad (m : Msg) (here : Bool) : Bool :=
  !typeOk m || decide (288 < m.len) || ((m.vc == 0 || m.vc == 7) && decide (32 < m.len)) || m.data.length % 16 != 0
    || !validNode m.dst || !validNode m.src || decide (4096 ≤ m.coach)
    || (here && isRequest m && (m.space == 3 || (m.space == 2 && !m.admin) || (m.space == 1 && m.addr % 8 != 0)))

/-- An invalid message is discarded (R371): BAD_MSG, cause 0x76 at most once per millisecond and port, and BAD_ARG to a request. -/
def State.badMsg (s : State) (p : Nat) (m : Msg) : State :=
  let w := captureWord 0x76 [(F.portErrVc, m.vc), (F.portErrMtype, m.mtype), (F.portErrNode, m.src)]
  let s := (s.bump (portB p) F.portBadMsg).capture (portB p + 8) w
  let s := s.raiseOnce (4096 + p) { cls := 10, sev := 0, cause := 0x76, unit := 9, inst := p, capture := w, detail := leBytes 2 m.src }
  if isRequest m then s.reply p m (m.mtype + 1) Sc.badArg [] else s

/-- The message leaves the receive buffer it stood in, and its credits return (R373). -/
def State.unbuffer (s : State) (p : Nat) (m : Msg) : State :=
  match (s.port p).rx.find? (fun e => e.2 == m) with
  | none => s
  | some e => s.modPort p fun q => q.free e

/-- The device takes no message of type `t` here: messages for other nodes are MESSAGE_FORWARD's, and the ROM answers none in
FAILED and SAFE (R440). -/
def State.deaf (s : State) (p : Nat) (m : Msg) (t : Nat) : Bool :=
  decide (16 ≤ p) || m.mtype != t || m.dst != s.node || s.rom == Rom.failed || s.rom == Rom.safe || !s.clocked || s.scanned

/-- Before a topology map is loaded, messages are accepted only on a host port and only from the device's own adapter (R441). -/
def State.stray (s : State) (p : Nat) (m : Msg) : Bool := s.chip F.mapValid == 0 && (decide (2 ≤ p) || m.src != s.hostNode p)

/-- A message between devices names a coach that is VACANT here (R371). What a host sends is answered DENIED by its own meaning, and
a management message is the firmware's. -/
def State.coachless (s : State) (m : Msg) : Bool :=
  decide (0x20 ≤ m.mtype) && m.mtype != 0x50 && s.coachState m.coach == Cs.vacant

/-- A message of type `t` for this device arrives whole on a port: one that is stray, invalid or for a VACANT coach is discarded,
another goes on to `own`. -/
def State.arrive (s : State) (p : Nat) (m : Msg) (t : Nat) (own : State → State) : State :=
  if s.deaf p m t = true then s
  else if s.stray p m = true then s.unbuffer p m
  else
    let s := s.unbuffer p m
    if msgBad m true then s.badMsg p m else if s.coachless m then s else own s

/-! ### Access to the device by a host (R337-R340) -/

/-- A refused host access is logged at most once per millisecond and coach (R339, R515). -/
def State.hostDeny (s : State) (c p a : Nat) : State :=
  s.raiseOnce c { cls := 0, sev := 0, cause := 0x88, unit := 9, inst := p, coach := some c
                  detail := [Byte.ofNat p, 0, 0, 0, 0, 0, 0, 0] ++ leBytes 8 a }

/-- First address of the sequence aperture (R340). -/
def apertureBase : Nat := aperturePage * 65536

/-- The access arrives on a port that its coach does not name, or names a VACANT coach (R339, R371): the state, refused. -/
def State.portDenied (s : State) (p : Nat) (m : Msg) : Option State :=
  if m.admin = true ∧ m.space ≠ 0 then none
  else if s.coachState m.coach = Cs.vacant then some s
  else if m.vc = 1 ∧ s.get (coachB m.coach) F.coachHport ≠ p then
    some ((s.bump (coachB m.coach) F.coachXlateDeny).hostDeny m.coach p m.addr)
  else none

/-- The device physical pieces of an access: translated through the coach's map page by page, or the range as it stands. -/
def State.hostPieces (s : State) (m : Msg) (n : Nat) (write : Bool) : Option (List (Nat × Nat)) :=
  if m.space = 2 then some [(m.addr, n)]
  else if s.xlateOk Blk.switch m.coach m.addr n write then
    some ((pagesOf m.addr n).filterMap fun p =>
      let lo := max m.addr (p * 65536)
      (s.xlatePage Blk.switch m.coach p write).map fun q => (q * 65536 + lo % 65536, min (m.addr + n) ((p + 1) * 65536) - lo))
  else none

/-- The QoS class of a host access: the coach's, or none for an access to a device address. -/
def State.msgClass (s : State) (m : Msg) : Nat := if m.space = 2 then 16 else s.get (coachB m.coach) F.coachQos

/-- A request that reaches a stack which takes none now waits (R318, R492). -/
def State.msgWaits (s : State) (m : Msg) (n : Nat) (write : Bool) : Bool :=
  m.space != 1 && (s.hostPieces m n write).any fun ps => ps.any fun p => s.rangeHeld p.1 p.2

/-- Refuse an access that does not translate (R336, R339). -/
def State.xlateDenied (s : State) (p : Nat) (m : Msg) : State :=
  (s.bump (coachB m.coach) F.coachXlateDeny).hostDeny m.coach p m.addr

/-- The walks of a host access (R336). -/
def State.hostWalks (s : State) (m : Msg) (n : Nat) : State :=
  if m.space = 2 then s else (pagesOf m.addr n).foldl (fun s p => s.walk Blk.switch m.coach p) s

/-- Some byte of the access lies in the sequence aperture (R340). -/
def inAperture (m : Msg) (n : Nat) : Bool := m.space == 0 && decide (apertureBase < m.addr + n)

/-- The aperture refuses the access: not on VC1, or not wholly inside (R340). -/
def apertureBad (m : Msg) (n : Nat) : Bool := m.vc != 1 || decide (m.addr < apertureBase) || decide (2 ^ 48 < m.addr + n)

/-- Write through the aperture, entry by entry (R222, R340). -/
def State.apertureWrite (s : State) (c o : Nat) (l : List Byte) : State :=
  if l = [] then s
  else (upFrom (o / 256) ((o + l.length - 1) / 256 - o / 256 + 1)).foldl (fun s n =>
    let lo := max o (256 * n)
    let hi := min (o + l.length) (256 * n + 256)
    s.entryWrite c n (lo - 256 * n) ((l.drop (lo - o)).take (hi - lo))) s

/-- Read through the aperture: bytes of another coach's entries read zero (R222). -/
def State.apertureRead (s : State) (c o n : Nat) : List Byte :=
  (upFrom o n).map fun a =>
    if s.seqTable && s.seq (a / 256) Se.state != Ss.free && s.seq (a / 256) Se.owner == c
    then Memory.byte s.hbm.bytes (s.chip F.seqBase + a) else 0

/-- Serve a WRITE (R339, R340, R371, R546): the state and the status of its WRITE_ACK. -/
def State.serveWrite (s : State) (p : Nat) (m : Msg) : State × Nat :=
  match s.portDenied p m with
  | some s => (s, Sc.denied)
  | none =>
    let n := m.data.length
    if m.space = 1 then s.windowWrite m.admin m.coach m.addr (wordsOf m.data)
    else if inAperture m n then
      if apertureBad m n then (s.xlateDenied p m, Sc.denied) else (s.apertureWrite m.coach (m.addr - apertureBase) m.data, Sc.ok)
    else
      let s := s.hostWalks m n
      match s.hostPieces m n true with
      | none => (s.xlateDenied p m, Sc.denied)
      | some ps =>
        let k := s.msgClass m
        let r := ps.foldl (fun (r : State × Nat × Nat) q =>
          let w := r.1.mcWrite q.1 k false ((m.data.drop r.2.2).take q.2) []
          (w.1, if r.2.1 = 0 then w.2 else r.2.1, r.2.2 + q.2)) (s, 0, 0)
        (r.1, r.2.1)

/-- Serve a READ (R339, R340, R371, R545): the state, the status and the bytes. -/
def State.serveRead (s : State) (p : Nat) (m : Msg) : State × Nat × List Byte :=
  let n := m.arg % 8192
  let zeros := List.replicate n (0 : Byte)
  match s.portDenied p m with
  | some s => (s, Sc.denied, zeros)
  | none =>
    if m.space = 1 then
      let r := s.windowRead m.admin m.coach m.addr (n / 8)
      (r.1, Sc.ok, r.2)
    else if inAperture m n then
      if apertureBad m n then (s.xlateDenied p m, Sc.denied, zeros)
      else (s, Sc.ok, s.apertureRead m.coach (m.addr - apertureBase) n)
    else
      let s := s.hostWalks m n
      match s.hostPieces m n false with
      | none => (s.xlateDenied p m, Sc.denied, zeros)
      | some ps =>
        let k := s.msgClass m
        let r := ps.foldl (fun (r : State × Nat × List Byte) q =>
          let w := r.1.mcRead q.1 q.2 k false {}
          (w.1, if r.2.1 = 0 then w.2.1 else r.2.1, r.2.2 ++ padTo q.2 w.2.2.1)) (s, 0, [])
        (r.1, r.2.1, r.2.2)

/-- An earlier write that arrived on the same port and VC stands in the receive buffer: writes are applied in the order in which
they arrive (R26). -/
def State.earlierWrite (s : State) (p : Nat) (m : Msg) : Bool :=
  ((s.port p).rx.find? fun e => e.2.mtype == 1 && e.2.vc == m.vc && e.2.dst == s.node).any fun e => e.2 != m

/-- A write that must wait stands in the receive buffer; the command that names it again applies it in its turn. -/
def State.holdWrite (s : State) (p : Nat) (m : Msg) : State :=
  if s.deaf p m 1 || s.stray p m || (s.port p).rx.any fun e => e.2 == m then s else s.modPort p fun q => { q with rx := q.rx ++ [(0, m)] }

/-- EKL_WRITE (R26, R338-R340, R370, R371, R546): an inbound WRITE is applied and acknowledged, after those that arrived before
it on its port and VC. -/
def execEklWrite (port : Nat) (m : Msg) (s : State) : Res :=
  .next (if s.earlierWrite port m || s.msgWaits m m.data.length true then s.holdWrite port m
    else s.arrive port m 1 fun s =>
      let r := s.serveWrite port m
      r.1.reply port m 2 r.2 [])

/-- EKL_READ (R338-R340, R370, R371, R545): an inbound READ is answered with READ_DATA. -/
def execEklRead (port : Nat) (m : Msg) (s : State) : Res :=
  .next (if s.msgWaits m (m.arg % 8192) false then s
    else s.arrive port m 3 fun s =>
      let r := s.serveRead port m
      r.1.reply port m 4 r.2.1 r.2.2)

/-- Serve an ADD (R305, R306, R339): the state, the status and the old granule. -/
def State.serveAdd (s : State) (p : Nat) (m : Msg) : State × Nat × List Byte :=
  match s.portDenied p m with
  | some s => (s, Sc.denied, [])
  | none =>
    if inAperture m 32 then (s.xlateDenied p m, Sc.denied, [])
    else
      let s := s.hostWalks m 32
      match s.hostPieces m 32 true with
      | some ((a, _) :: _) =>
        s.mcAdd { addr := a, cls := s.msgClass m, ty := m.arg % 4, mask := bits m.arg 16 16, ret := bit m.arg 2, data := m.data } {}
      | _ => (s.xlateDenied p m, Sc.denied, [])

/-- EKL_ADD (R305, R370, R371): a memory-side addition for a host, answered with ADD_ACK. -/
def execEklAdd (port : Nat) (m : Msg) (s : State) : Res :=
  .next (if s.msgWaits m 32 true then s
    else s.arrive port m 5 fun s =>
      let r := s.serveAdd port m
      r.1.reply port m 6 r.2.1 (if bit m.arg 2 ∧ r.2.1 = Sc.ok then r.2.2 else []))

/-! ### Answers to the device's own requests (R344, R370, R394, R442) -/

/-- The outstanding request that an answer of type `t` names. -/
def State.outstanding (s : State) (m : Msg) : Option OutReq :=
  s.link.out.find? fun o => o.tag == m.tagw && o.msg.vc == m.vc && o.msg.mtype + 1 == m.mtype

/-- The request is no longer outstanding. -/
def State.settled (s : State) (o : OutReq) : State := { s with link := { s.link with out := s.link.out.filter (· != o) } }

/-- The writes that a vector's events announce lose one that is done with; the frame leaves when none is left (R344). -/
def State.releaseWait (s : State) (tag : Nat) : State :=
  (s.vecs.filter fun e => e.2.waits.contains tag).foldl (fun s e =>
    let s := s.setVec e.1 { s.vec e.1 with waits := (s.vec e.1).waits.filter (· != tag) }
    s.trySend e.1 false) s

/-- The frame in flight of a vector is done with; the next one leaves where events wait (R343). -/
def State.frameDone (s : State) (i tag : Nat) : State :=
  let v := s.vec i
  if v.flight = some tag then (s.setVec i { v with flight := none }).trySend i false else s

/-- A DMA tag takes the answer of the host (R284, R290). -/
def State.answerTag (s : State) (core tag status : Nat) (data : List Byte) : State :=
  s.modCore core fun c => { c with tags := c.tags.map fun (y : Nat × Tag) =>
    if y.1 = tag ∧ y.2.answer = none then (tag, { y.2 with answer := some (status, data) }) else y }

/-- Bytes of a cold page come back from host memory for a resume (R214). -/
def State.coldArrives (s : State) (slot off status : Nat) (data : List Byte) : State :=
  { s with sb := { s.sb with moves := s.sb.moves.map fun (e : Nat × Move) =>
      if e.1 ≠ slot then e
      else if status = Sc.ok then (e.1, { e.2 with data := Memory.write e.2.data off data })
      else (e.1, { e.2 with bad := if status = Sc.poison then Sc.poison else Sc.integrity }) } }

/-- A pause to host memory has met a write that did not arrive: it will fail (R211). -/
def State.moveLost (s : State) (n : Nat) : State :=
  { s with sb := { s.sb with moves := s.sb.moves.map fun (e : Nat × Move) => if e.1 = n then (e.1, { e.2 with bad := Sc.timeout }) else e } }

/-- What a write's acknowledgement completes. -/
def State.writeAcked (s : State) (o : OutReq) (status : Nat) : State :=
  match o.why with
  | .frame c v => s.frameDone (4 * c + v) o.tag
  | .admFrame k => s.frameDone (16384 + k) o.tag
  | .push _ => s.releaseWait o.tag
  | .dma c t => (s.answerTag c t status []).releaseWait o.tag
  | .cold n => if status = Sc.ok then s else s.moveLost n
  | _ => s

/-- EKL_WRITE_ACK (R370, R343, R344): an acknowledgement completes the write it names; one that names none has no effect. -/
def execEklWriteAck (port : Nat) (m : Msg) (s : State) : Res :=
  .next (s.arrive port m 2 fun s =>
    match s.outstanding m with
    | none => s
    | some o => (s.settled o).writeAcked o (m.arg % 256))

/-- EKL_READ_DATA (R370, R442): the data of a read that the device issued arrive: for the boot ROM, or for a DMA tag. -/
def execEklReadData (port : Nat) (m : Msg) (s : State) : Res :=
  .next (s.arrive port m 4 fun s =>
    match s.outstanding m with
    | none => s
    | some o =>
      let s := s.settled o
      match o.why with
      | .boot off n => s.bootAnswer off n (m.arg % 256) m.data
      | .dmaRead c t => s.answerTag c t (m.arg % 256) m.data
      | .coldRead slot off => s.coldArrives slot off (m.arg % 256) m.data
      | _ => s)

/-- EKL_ADD_ACK (R370): the answer to an ADD that the device issued completes it. -/
def execEklAddAck (port : Nat) (m : Msg) (s : State) : Res :=
  .next (s.arrive port m 6 fun s =>
    match s.outstanding m with
    | none => s
    | some o => s.settled o)

/-- An event that a discarded write announces is never covered by a frame (R344; DESIGN CHOICE, log entry 102): the vector's count
loses one for each completion discarded, or for outputs alone, one. -/
def State.forgetEvents (s : State) (gone : List OutReq) : State :=
  (s.vecs.filter fun e => gone.any fun o => e.2.waits.contains o.tag).foldl (fun s e =>
    let mine := gone.filter fun o => e.2.waits.contains o.tag
    let n := max 1 (mine.filter fun o => match o.why with | .push _ => true | _ => false).length
    (s.setVec e.1 { e.2 with pend := e.2.pend - n, waits := e.2.waits.filter fun t => !mine.any fun o => o.tag == t }).trySend e.1
      false) s

/-- What a discarded write was for goes on without it (R394): a DMA tag takes TIMEOUT, a pause to host memory fails (R211). -/
def State.writeGone (s : State) (o : OutReq) : State :=
  match o.why with
  | .dma c t => s.answerTag c t Sc.timeout []
  | .cold n => s.moveLost n
  | _ => s

/-- HOST_WRITE_GIVEUP (R394): no route to the host on `port` has returned within 1 s, and the writes kept for it are discarded. -/
def execHostWriteGiveup (port : Nat) (s : State) : Res :=
  .next (let t := SMap.look 0 s.link.hostLost port
    if t = 0 ∨ s.gcount + 1 < t + 1000000000 ∨ s.linkState port = Ls.up then s
    else
      let gone := s.link.out.filter fun o => o.lost && o.port == port
      let s := { s with link := { s.link with out := s.link.out.filter (fun o => !(o.lost && o.port == port))
                                              hostLost := SMap.put 0 s.link.hostLost port 0 } }
      gone.foldl (fun s o => s.writeGone o) (s.forgetEvents gone))

/-- INTERRUPT_FRAME_RESEND (R344, R394): a frame without its WRITE_ACK for 1 ms is sent again. -/
def execInterruptFrameResend (tag : Nat) (s : State) : Res :=
  .next (match s.link.out.find? (fun o => o.tag == tag && o.msg.vc == 0) with
    | none => s
    | some o =>
      if s.gcount < o.at_ + 1000000 then s
      else
        let s := { s with link := { s.link with
          out := s.link.out.map fun (x : OutReq) => if x.tag = tag then { x with at_ := s.gcount } else x } }
        s.enqueue o.port o.msg)

/-! ### Chains across devices (R265, R266, R370) -/

/-- DRAWBAR (R265, R370): a remote cart waits, is discarded as stale, or goes to the TE. -/
def execDrawbar (port : Nat) (m : Msg) (s : State) : Res :=
  .next (s.arrive port m 0x20 fun s =>
    let r := s.cartArrives m
    if r.2 then { r.1 with link := { r.1.link with carts := r.1.link.carts ++ [m] } } else r.1)

/-- CHAIN_DONE goes on to the nodes that a chain's carts came from (DESIGN CHOICE, log entry 15). -/
def State.chainDoneOn (s : State) (coach chain pass src : Nat) : State :=
  let nodes := ((s.chainUnits coach chain pass).flatMap fun k => ((s.gs.units[k]?).map fun u =>
    SMap.look [] s.link.barFrom (65536 * u.graph + chain)).getD []).eraseDups
  (nodes.filter (· != src)).foldl (fun s n => s.send { mtype := 0x21, vc := 0, dst := n, coach := coach, addr := chain, arg := pass }) s

/-- CHAIN_DONE (R266): the members of the chain that are here complete. -/
def execChainDone (port : Nat) (m : Msg) (s : State) : Res :=
  .next (s.arrive port m 0x21 fun s =>
    let chain := m.addr % 65536
    let ks := s.chainUnits m.coach chain m.arg
    if ks = [] then { s with gs := { s.gs with chainDone := s.gs.chainDone ++ [(m.coach, chain, m.arg)] } }
    else
      let s := s.chainDoneOn m.coach chain m.arg m.src
      let s := ks.foldl (fun s k => (s.modUnit k fun u => { u with chainDone := true }).settle k) s
      (s.maybeCut).boundary)

/-- REPLAY (R266, R84): the members of the chain that are here are discarded and dispatched again with ATTEMPT raised; one that
comes before their unit is armed is kept for it. -/
def execReplay (port : Nat) (m : Msg) (s : State) : Res :=
  .next (s.arrive port m 0x22 fun s =>
    let chain := m.addr % 65536
    let nodes := ((s.chainUnits m.coach chain m.arg).flatMap fun k => ((s.gs.units[k]?).map s.chainNodes).getD []).eraseDups
    let s := (nodes.filter (· != m.src)).foldl
      (fun s n => s.send { mtype := 0x22, vc := 0, dst := n, coach := m.coach, addr := chain, arg := m.arg }) s
    if s.chainUnits m.coach chain m.arg ≠ [] then (s.replayHere m.coach chain m.arg).boundary
    else if s.passAhead m.coach chain m.arg then
      { s with gs := { s.gs with replays := s.gs.replays ++ [(m.coach, chain, m.arg)] } }
    else s)

/-! ### Management and transit (R370, R371, R386) -/

/-- MGMT (R370): a management message reaches the firmware, which the source gives no effect of it but its taking; the boot
ROM's BOOT_GRANT has a row of its own. -/
def execMgmt (port : Nat) (m : Msg) (s : State) : Res := .next (s.arrive port m 0x50 fun s => s)

/-- BOOT_GRANT (R441): in REQUEST the first grant on a host port names the image and the hand-back block; the ROM goes on to
HANDBACK, or to LOAD after a chip warm reset (R481). Any other is ignored. -/
def execBootGrant (port : Nat) (m : Msg) (s : State) : Res :=
  .next (if m.addr % 65536 ≠ 0x0B02 then s
    else s.arrive port m 0x50 fun s =>
      if s.rom ≠ Rom.request ∨ 2 ≤ port ∨ m.data.length < 32 then s
      else
        let b := { s.boot with port := port, img := m.arg, len := fieldLE m.data 0 4, hb := fieldLE m.data 8 8, hbLen := fieldLE m.data 16 4 }
        let s : State := { s with boot := b }
        let s := s.setChip F.bootStatusPort port
        if s.boot.warm then (s.enterRom Rom.load).bootStart
        else if s.boot.hb = 0 then
          State.enterRom { s with boot := { s.boot with hbLen := 0, got := [], reads := [], nextOff := 0, buf := [] } } Rom.handback
        else (s.enterRom Rom.handback).bootStart)

/-- MESSAGE_FORWARD (R371, R386, R441): a whole message for another node leaves on its route's port; one without a route is
discarded, and a request receives TIMEOUT. A device without a map forwards none. -/
def execMessageForward (port : Nat) (m : Msg) (s : State) : Res :=
  .next (if 16 ≤ port ∨ m.dst = s.node then s
    else
      let s := s.unbuffer port m
      if msgBad m false then s.badMsg port m
      else if s.chip F.mapValid = 1 ∧ (s.route m.src m.dst m.coach).isSome then
        State.forward { s with link := { s.link with transitAt := s.gcount } } m false
      else
        let s := s.count F.noRoute
        if isRequest m then s.reply port m (m.mtype + 1) Sc.timeout [] else s)

end Sys2Proof.Machine
end

