-- ==== Sys2Proof/Machine/Collectives.lean ====
section
/-!
DEFINITION. Collectives over Enkuor Link (R389-R393): contexts, runs, segments up and down the tree of members, digests.
-/
namespace Sys2Proof.Machine

/-! ### The tree, segments and digests (R390, R391) -/

/-- Members. -/
def Coll.n (c : Coll) : Nat := c.members.length

/-- The relabelled rank of a rank, and back. -/
def Coll.rel (c : Coll) (r : Nat) : Nat := (r + c.n - c.root) % c.n
def Coll.nodeOf (c : Coll) (r : Nat) : Nat := c.members.getD ((r + c.root) % c.n) 0

/-- This device's relabelled rank. -/
def Coll.me (c : Coll) : Nat := c.rel c.rank

/-- The children of the device, by relabelled rank. -/
def Coll.children (c : Coll) : List Nat := [2 * c.me + 1, 2 * c.me + 2].filter (· < c.n)

/-- The parent of the device, by relabelled rank; none at the root. -/
def Coll.parent (c : Coll) : Option Nat := if c.me = 0 then none else some ((c.me - 1) / 2)

/-- Segments of one member's elements, and of the result: GATHER_ALL gathers the elements of every member in rank order
(DEDUCED, log entry 25). -/
def Coll.segs (c : Coll) : Nat := (c.count + 511) / 512
def Coll.total (c : Coll) : Nat := if c.op = 2 then c.n * c.segs else c.segs

/-- The first element of a segment, its place in a member's area, and its elements. -/
def Coll.first (c : Coll) (j : Nat) : Nat := if c.op = 2 then j / c.segs * c.count + 512 * (j % c.segs) else 512 * j
def Coll.local_ (c : Coll) (j : Nat) : Nat := 512 * (j % c.segs)
def Coll.len (c : Coll) (j : Nat) : Nat := min 512 (c.count - c.local_ j)

/-- Bytes of an element in the source area, on the wire, and in the destination (R390). -/
def Coll.srcW (c : Coll) : Nat := if c.ety = 1 then 8 else 4
def Coll.wireW (c : Coll) : Nat := if c.ety = 1 ∨ (c.ety = 0 ∧ c.op = 0) then 8 else 4

/-- Coefficient `k` of a collective's digest (R391). -/
def digestCoef (seed k : Nat) : Nat := digestCoefOf seed 0xFFFFFF02 k

/-- The digest of values from a global element index on (R391); FP32 REDUCE_ALL carries 0. -/
def Coll.digest (c : Coll) (first : Nat) (vs : List Int) : Nat :=
  if c.op = 0 ∧ c.ety = 2 then 0
  else ((vs.zipIdx.foldl (fun a e => a + digestCoef c.seed (first + e.2) * (e.1 % (digestP : Int)).toNat) 0) % digestP)

/-- The digest that a segment carries: ARG, and 0 for FP32 REDUCE_ALL (R391). -/
def Coll.carried (c : Coll) (m : Msg) : Nat := if c.op = 0 ∧ c.ety = 2 then 0 else m.arg

/-- Values from bytes of width `w`: signed integers, or binary32 codes. -/
def Coll.values (c : Coll) (w n : Nat) (l : List Byte) : List Int :=
  (List.range n).map fun i =>
    let v := fieldLE l (w * i) w
    if c.ety = 2 then (v : Int) else signed (8 * w) v

/-- Bytes of width `w` of values. -/
def bytesOfValues (w : Nat) (vs : List Int) : List Byte := vs.flatMap fun v => leBytes w (unsigned (8 * w) v)

/-- The segment that a message carries: its index, where TAGW is the first element of one and LEN counts its units. -/
def Coll.segOf (c : Coll) (m : Msg) : Option Nat :=
  (if c.op = 2 then some (m.tagw / c.count * c.segs + m.tagw % c.count / 512)
    else some (m.tagw / 512)).filter fun j =>
      c.first j == m.tagw && decide (j < c.total) && m.len == (c.wireW * c.len j + 15) / 16

/-! ### Contexts -/

/-- A collective context of the device. -/
def State.coll (s : State) (x : Nat) : Coll := SMap.look {} s.link.colls x

/-- Change a collective context. -/
def State.modColl (s : State) (x : Nat) (f : Coll → Coll) : State :=
  { s with link := { s.link with colls := SMap.modify {} s.link.colls x f } }

/-- The free context: the one picked, else the lowest. -/
def State.freeColl (s : State) (pick : Nat) : Option Nat :=
  let free (x : Nat) : Bool := x < 64 && !(s.coll x).opened
  if free pick then some pick else firstBelow 64 free

/-- Member lists repeat no node id. -/
def noRepeat : List Nat → Bool
  | [] => true
  | a :: r => !r.contains a && noRepeat r

/-- COLL_OPEN (R389, R431). -/
def execCollOpen (box pick : Nat) (s : State) : Res :=
  .next (takeCommand 0x0501 box (fun c s =>
    let n := c.arg 4 4
    let list := c.arg 24 8
    let k : Coll := { opened := true, id := c.arg 0 4, coach := c.coach, rank := c.arg 8 2, root := c.arg 10 2, op := c.arg 12 1
                      ety := c.arg 13 1, vc := c.arg 14 1, count := c.arg 16 4, src := c.arg 32 8, dst := c.arg 40 8
                      scratch := c.arg 48 8, seed := c.arg 56 8, limit := c.arg 64 4 }
    if n = 0 ∨ 1552 < n ∨ n ≤ k.rank ∨ n ≤ k.root ∨ 2 < k.op ∨ 2 < k.ety ∨ k.vc < 3 ∨ 5 < k.vc ∨ k.count = 0
        ∨ 2 ^ 24 < k.count ∨ list % 2 = 1 ∨ (k.op = 2 ∧ 2 ^ 32 < n * k.count) then s.respond box c.coach Sc.badArg
    else
      let s := s.walkRange Blk.mp c.coach list (2 * n) false
      match s.coachRead Blk.mp c.coach list (2 * n) with
      | none => s.respond box c.coach Sc.badArg
      | some l =>
        let ms := (List.range n).map fun i => fieldLE l (2 * i) 2
        if s.coachPoisoned Blk.mp c.coach list (2 * n) then s.respond box c.coach Sc.poison
        else if noRepeat ms = false ∨ ms.getD k.rank 0 ≠ s.node then s.respond box c.coach Sc.badArg
        else match s.freeColl pick with
          | none => s.respond box c.coach Sc.noResource
          | some x => (s.modColl x fun _ => { k with members := ms }).respond box c.coach Sc.ok [Byte.ofNat x]) s)

/-- COLL_CLOSE (R431). -/
def execCollClose (box : Nat) (s : State) : Res :=
  .next (takeCommand 0x0503 box (fun c s =>
    let x := c.arg 0 1
    let k := s.coll x
    if 64 ≤ x ∨ k.opened = false ∨ k.coach ≠ c.coach then s.respond box c.coach Sc.badArg
    else if k.run.isSome then s.respond box c.coach Sc.inUse
    else (s.modColl x fun _ => {}).respond box c.coach Sc.ok) s)

/-! ### Runs (R389-R393) -/

/-- Send a message of a run to a member. -/
def State.collSend (s : State) (c : Coll) (member mtype tagw arg : Nat) (data : List Byte) : State :=
  s.send { mtype := mtype, vc := c.vc, dst := c.nodeOf member, coach := c.coach, tagw := tagw
           addr := c.id + (c.run.getD 0) * 2 ^ 32, arg := arg, data := padTo ((data.length + 15) / 16 * 16) data }

/-- A run completes with a status (R389, R431): COLL_DONE or COLL_FAILED, and the response of its command. -/
def State.collEnd (s : State) (x status : Nat) : State :=
  let s := s.modColl x fun k => { k with run := none, ended := k.run.getD 0 + 1, heard := [], result := [] }
  let s := s.count (if status = Sc.ok then F.collDone else F.collFailed)
  s.answerAll 0x0502 (fun q => q.par == [x]) status

/-- A run ends without a result: COLL_ABORT goes to the parent and the children, and the run completes (R393). -/
def State.collAbort (s : State) (x status : Nat) : State :=
  let c := s.coll x
  let near := (match c.parent with | some p => [p] | none => []) ++ c.children
  (near.foldl (fun s r => s.collSend c r 0x42 0 status []) s).collEnd x status

/-- The device's own segment, read from the source area: the values, or the status of the failure. -/
def State.ownSeg (s : State) (c : Coll) (j : Nat) : List Int × Nat :=
  let a := c.src + c.srcW * c.local_ j
  let n := c.srcW * c.len j
  match s.coachRead Blk.mp c.coach a n with
  | none => ([], Sc.badArg)
  | some l => if s.coachPoisoned Blk.mp c.coach a n then ([], Sc.poison) else (c.values c.srcW (c.len j) l, Sc.ok)

/-- The run is complete: every segment of the result is here; it is written, and the run ends (R389). -/
def State.collFinish (s : State) (x : Nat) : State :=
  let c := s.coll x
  if c.run.isNone ∨ c.result.length < c.total then s
  else
    let w := c.wireW
    let n := w * (if c.op = 2 then c.n * c.count else c.count)
    let s := s.walkRange Blk.mp c.coach c.dst n true
    if s.xlateOk Blk.mp c.coach c.dst n true = false then s.collEnd x Sc.badArg
    else
      let s := c.result.foldl (fun s e => s.coachWrite Blk.mp c.coach (c.dst + w * c.first e.1) (bytesOfValues w e.2)) s
      s.collEnd x Sc.ok

/-- A segment of the result is complete here: it goes down to the children, and is kept for the end of the run. -/
def State.collDownSeg (s : State) (x j digest : Nat) (vs : List Int) : State :=
  let c := s.coll x
  let s := c.children.foldl (fun s r => s.collSend c r 0x41 (c.first j) digest (bytesOfValues c.wireW vs)) s
  (s.modColl x fun k => { k with result := SMap.put [] k.result j vs }).collFinish x

/-- Add two values of a sum (R390). -/
def Coll.add (c : Coll) (a b : Int) : Int :=
  if c.ety = 2 then ((f32Add (BitVec.ofNat 32 a.toNat) (BitVec.ofNat 32 b.toNat)).toNat : Int) else a + b

/-- A value leaves the 64-bit range. -/
def outside64 (v : Int) : Bool := decide (v < -9223372036854775808) || decide (9223372036854775807 < v)

/-- The partial sums of a segment in their order: the device's own first, then child 2r' + 1 and child 2r' + 2 while
EFF_STRICT = 1, otherwise in order of arrival; none where an integer sum leaves the 64-bit range (R390). -/
def Coll.sum (c : Coll) (own : List Int) : List (List Int) → Option (List Int)
  | [] => some own
  | v :: r =>
    let t := List.zipWith c.add own v
    if c.ety ≠ 2 ∧ t.any outside64 = true then none else Coll.sum c t r

/-- A segment of REDUCE_ALL is combined once every child has sent its own (R390, R392): a node sends the sum with the summed
digests to its parent, the root checks its digest and sends the result down. -/
def State.collCombine (s : State) (x j : Nat) : State :=
  let c := s.coll x
  let heard := SMap.look [] c.heard j
  if c.run.isNone ∨ heard.length ≠ c.children.length then s
  else
    let (own, st) := s.ownSeg c j
    if st ≠ Sc.ok then s.collAbort x st
    else
      let order := if s.strict then c.children.filterMap fun r => (heard.find? (·.1 == r)).map (·.2.1) else heard.map (·.2.1)
      match c.sum own order with
      | none => s.collAbort x Sc.badArg
      | some v =>
        let d := heard.foldl (fun d h => (d + h.2.2) % digestP) (c.digest (c.first j) own)
        match c.parent with
        | some p => s.collSend c p 0x40 (c.first j) d (bytesOfValues c.wireW v)
        | none =>
          if c.digest (c.first j) v = d then s.collDownSeg x j d v
          else
            let s := ((s.setChip F.digestNode s.node).setChip F.flagged 1).count F.digestFail
            (s.raise { cls := 4, sev := 1, cause := 0x77, unit := 10, coach := some c.coach
                       detail := leBytes 2 s.node }).collAbort x Sc.integrity

/-- A segment is refused for its digest (R393). -/
def State.refuseSeg (s : State) (x port : Nat) (m : Msg) : State :=
  let w := captureWord 0x77 [(F.portErrVc, m.vc), (F.portErrMtype, m.mtype), (F.portErrNode, m.src)]
  let s := ((s.setChip F.digestNode m.src).setChip F.flagged 1).count F.digestFail
  let s := s.capture (portB port + 8) w
  (s.raise { cls := 4, sev := 1, cause := 0x77, unit := 10, coach := some (s.coll x).coach, capture := w
             detail := leBytes 2 m.src }).collAbort x Sc.integrity

/-- A message of a run that is in progress. -/
def State.collTake (s : State) (x port : Nat) (m : Msg) : State :=
  let c := s.coll x
  if m.mtype = 0x42 then s.collAbort x (Sc.named (m.arg % 256))
  else match c.segOf m with
    | none => s
    | some j =>
      let vs := c.values c.wireW (c.len j) m.data
      let from_ := if m.mtype = 0x41 then c.parent.any (fun p => c.nodeOf p == m.src)
        else c.op != 1 && c.children.any fun r => c.nodeOf r == m.src
      if from_ = false then s
      else if c.digest (c.first j) vs ≠ c.carried m then s.refuseSeg x port m
      else
        let s := s.modColl x fun k => { k with movedAt := s.gcount }
        if m.mtype = 0x41 then s.collDownSeg x j (c.carried m) vs
        else if c.op = 2 then
          (match c.parent with
           | some p => s.collSend c p 0x40 m.tagw m.arg m.data
           | none => s.collDownSeg x j m.arg vs)
        else
          let r := (c.children.find? fun r => c.nodeOf r == m.src).getD 0
          let old := SMap.look [] c.heard j
          if old.any (·.1 == r) then s
          else (s.modColl x fun k => { k with heard := SMap.put [] k.heard j (old ++ [(r, vs, c.carried m)]) }).collCombine x j

/-- The device's own segments at the start of a run. -/
def State.collOwn (s : State) (x j : Nat) : State :=
  let c := s.coll x
  if c.run.isNone then s
  else if c.op = 0 then s.collCombine x j
  else
    let (vs, st) := s.ownSeg c j
    if st ≠ Sc.ok then s.collAbort x st
    else
      let k := if c.op = 2 then c.rank * c.segs + j else j
      let d := c.digest (c.first k) vs
      match c.parent with
      | none => s.collDownSeg x k d vs
      | some p => s.collSend c p 0x40 (c.first k) d (bytesOfValues c.wireW vs)

/-- COLL_RUN (R389, R390, R431): an instance starts; segments that came early are taken. -/
def execCollRun (box : Nat) (s : State) : Res :=
  .next (takeCommand 0x0502 box (fun c s =>
    let x := c.arg 0 1
    let k := s.coll x
    if 64 ≤ x ∨ k.opened = false ∨ k.coach ≠ c.coach then s.respond box c.coach Sc.badArg
    else if k.run.isSome then s.respondBusy box c.coach
    else
      let i := c.arg 4 4
      let early := k.early.filter fun e => e.2.2.1 == i
      let s := (s.inProg c [x]).modColl x fun k =>
        { k with run := some i, movedAt := s.gcount, heard := [], result := [], early := k.early.filter fun e => e.2.2.1 != i }
      let s := if k.op = 1 ∧ k.parent.isSome then s
        else (List.range k.segs).foldl (fun (s : State) j => s.collOwn x j) s
      early.foldl (fun s e => if (s.coll x).run = some i then s.collTake x e.2.1 e.2.2.2 else s) s) s)

/-- A collective message arrives (R389): for the run in progress, for an instance not yet run here, which waits in the scratch area
(in the lowest free slot of 4 KiB: DESIGN CHOICE, log entry 53), or for none. -/
def State.collMsg (s : State) (port : Nat) (m : Msg) : State :=
  let i := m.addr / 2 ^ 32
  match firstBelow 64 fun x => (s.coll x).opened && (s.coll x).id == m.addr % 2 ^ 32 && (s.coll x).coach == m.coach with
  | none => s
  | some x =>
    let c := s.coll x
    if s.coachState m.coach = Cs.vacant ∨ c.vc ≠ m.vc then s
    else if c.run = some i then s.collTake x port m
    else if c.ended = i + 1 then s
    else
      let slot := (firstBelow (c.early.length + 1) fun k => !(c.early.any fun e => e.1 == k)).getD 0
      let s := s.walkRange Blk.mp c.coach (c.scratch + 4096 * slot) m.data.length true
      (s.coachWrite Blk.mp c.coach (c.scratch + 4096 * slot) m.data).modColl x fun k => { k with early := k.early ++ [(slot, port, i, m)] }

/-- COLL_UP (R390, R392, R393). -/
def execCollUp (port : Nat) (m : Msg) (s : State) : Res := .next (s.arrive port m 0x40 fun s => s.collMsg port m)

/-- COLL_DOWN (R390, R392, R393). -/
def execCollDown (port : Nat) (m : Msg) (s : State) : Res := .next (s.arrive port m 0x41 fun s => s.collMsg port m)

/-- COLL_ABORT (R393). -/
def execCollAbort (port : Nat) (m : Msg) (s : State) : Res := .next (s.arrive port m 0x42 fun s => s.collMsg port m)

/-- COLL_TIMEOUT (R393): a run has received no segment that it waits for within its time limit. -/
def execCollTimeout (ctx : Nat) (s : State) : Res :=
  .next (if ctx < 64 ∧ (s.coll ctx).run.isSome = true ∧ (s.coll ctx).movedAt + 1000 * (s.coll ctx).limit ≤ s.gcount
    then s.collAbort ctx Sc.timeout else s)

end Sys2Proof.Machine
end

