-- ==== Sys2Proof/Machine/Link.lean ====
section
/-!
DEFINITION. The lines of the Enkuor Link ports (15) and GCOUNT synchronisation (14): flits (R367-R375), start-of-frame marks
(R377, R358, R359), link states (R378, R379), routes (R385), connectors (R395) and the drain (R397).
-/
namespace Sys2Proof.Machine

/-! ### Flits (R367-R376) -/

/-- Ports that take flits: training, up, or marks only. -/
def State.hears (s : State) (p : Nat) : Bool :=
  p < 16 && (s.linkState p == Ls.up || s.linkState p == Ls.training || s.linkState p == Ls.miswired)

/-- DATA_FLIT (R367-R369, R373, R375): a good flit's ACK, NAK and credit are taken; it is accepted where its SEQ is the next,
and otherwise discarded, with NAK after a gap. -/
def execDataFlit (port : Nat) (flit : List Byte) (fec : FecFind) (s : State) : Res :=
  .next (if s.hears port = false then s
    else if badFlit flit fec then (s.fecTaken port fec).dropFlit port
    else
      let s := s.fecTaken port fec
      let h := FlitHdr.of flit
      if h.typ ≠ 1 ∨ s.linkState port ≠ Ls.up then s
      else
        let s := s.takeHdr port h
        let d := (h.seq + 4096 - (s.port port).rxSeq) % 4096
        if d = 1 then
          (s.bump (portB port) F.portFlitsRx).modPort port fun q => q.accept h ((flit.drop 8).take 240)
        else if 2 ≤ d ∧ d < 2048 then s.modPort port fun q => { q with nak := true }
        else s)

/-- IDLE_FLIT (R367, R368, R373): its ACK, NAK and credit counter are taken. -/
def execIdleFlit (port : Nat) (flit : List Byte) (fec : FecFind) (s : State) : Res :=
  .next (if s.hears port = false then s
    else if badFlit flit fec then (s.fecTaken port fec).dropFlit port
    else
      let s := s.fecTaken port fec
      let h := FlitHdr.of flit
      if h.typ ≠ 0 then s else s.takeHdr port h)

/-- REPLAY_TIMEOUT (R375, R376): 4 µs have passed with flits unacknowledged and ACK unchanged. -/
def execReplayTimeout (port : Nat) (s : State) : Res :=
  .next (if 16 ≤ port ∨ s.linkState port ≠ Ls.up ∨ (s.port port).replay = [] ∨ s.gcount < (s.port port).ackAt + 4000 then s
    else s.replayPort port)

/-- The frame of one port (R365, R374): the mark, then DATA flits while there is data and credit; IDLE flits fill the rest. -/
def State.portFrame (s : State) (p : Nat) : State :=
  let st := s.linkState p
  if st = Ls.up ∨ st = Ls.training ∨ st = Ls.miswired then
    let q := s.port p
    let mark := flitBytes (q.hdr 2 0 0 0 15) (s.markPayload p)
    let q := { q with line := [mark], flitNo := q.flitNo + 1 }
    if st ≠ Ls.up then s.modPort p fun _ => q
    else
      let r := Port.slots s.node 399 q {}
      let q := r.1
      let c := r.2
      let s := s.modPort p fun _ => q
      let s := (s.bump (portB p) F.portFlitsTx c.flits).bump (portB p) F.portPayloadTx c.bytes
      let s := (s.bump (portB p) F.portTransit c.transit).bump (portB p) F.portCycNocredit (c.starved * 256 / 100)
      if c.transit = 0 then s else { s with link := { s.link with transitAt := s.gcount } }
  else s.modPort p fun q => { q with line := [] }

/-- FRAME_START (R365, R377): at a GCOUNT multiple of 1,024 each port begins a frame with its mark in slot 0. -/
def execFrameStart (s : State) : Res :=
  .next (if s.gcount % 1024 = 0 ∧ s.chip F.clkStatusSrc = 3 then (List.range 16).foldl (fun s p => s.portFrame p) s else s)

/-! ### Start-of-frame marks (R377, R379, R358, R359) -/

/-- The partner that a port expects (R379-R382): node and port; none where its map entry is empty. Before a map is loaded only
the host ports expect one, as node 0's adapters (R441). -/
def State.expected (s : State) (p : Nat) : Option (Nat × Option Nat) :=
  if p < 2 then (if s.chip F.mapValid = 0 ∨ SMap.look 0 s.link.expect p ≠ 0 then some (s.hostNode p, none) else none)
  else match SMap.look 0 s.link.expect p with
    | 0 => none
    | n + 1 => some (n / 16, some (n % 16))

/-- A mark's partner is the expected one. -/
def State.partnerOk (s : State) (p node port : Nat) (host : Bool) : Bool :=
  match s.expected p with
  | none => false
  | some (n, q) => n == node && (match q with | none => host | some q => q == port)

/-- The ports that a follower hears marks on (R358): SRC, and ALT where it is used. -/
def State.syncPort (s : State) (p : Nat) : Bool :=
  p == s.chip F.gcSyncSrc || (s.chip F.altEn == 1 && p == s.chip F.gcSyncAlt)

/-- The port that the follower follows now. -/
def State.sourcePort (s : State) : Nat := if s.chip F.onAlt = 1 then s.chip F.gcSyncAlt else s.chip F.gcSyncSrc

/-- GCOUNT goes back by a signed offset. -/
def State.shiftGcount (s : State) (off : Int) : State := { s with gcount := (((s.gcount : Int) - off) % (2 ^ 64 : Nat)).toNat }

/-- Take a mark's offset (R358, R359): GC_STATUS follows; the count is stepped while acquiring afresh and more than 1,024 ns
off, and otherwise slewed by at most one tick; 16 frames within 2 ns make it LOCKED. -/
def State.followMark (s : State) (p hops master : Nat) (off : Int) : State :=
  let sat := max (-32767) (min 32767 off)
  let s := ((s.setChip F.gcStatusOffset (unsigned 16 sat)).setChip F.gcStatusHops (hops + 1)).setChip F.gcStatusMaster master
  let s := s.setChip F.onAlt (b2n (p != s.chip F.gcSyncSrc))
  let s := if s.link.stepped = false ∧ s.chip F.gcStatusState = 1 ∧ 1024 < off.natAbs then s.shiftGcount off
    else s.shiftGcount (max (-1) (min 1 off))
  let n := if off.natAbs ≤ 2 then s.link.lockFrames + 1 else 0
  let s := { s with link := { s.link with lockFrames := n, lastMark := s.gcount } }
  if s.chip F.gcStatusState = 1 ∧ 16 ≤ n then s.setSync 2 else s

/-- The state begins to acquire: afresh from FREE, or from HOLDOVER without steps (R359). -/
def State.acquire (s : State) (fresh : Bool) : State :=
  State.setSync { s with link := { s.link with lockFrames := 0, stepped := !fresh } } 1

/-- A mark reaches a follower (R358, R359). Acquiring after HOLDOVER, it takes the port with fewer hops. -/
def State.syncMark (s : State) (p hops master : Nat) (off : Int) : State :=
  if s.chip F.gcSyncRole ≠ 2 ∨ s.syncPort p = false ∨ hops = 0xFF then s
  else
    let st := s.chip F.gcStatusState
    if st = 0 then (s.acquire true).followMark p hops master off
    else if master ≠ s.chip F.gcStatusMaster then
      (s.count F.gcForeign).raiseOnce 8192 { cls := 10, sev := 0, cause := 0x89, unit := 9, inst := p
                                             detail := [Byte.ofNat p, 0] ++ leBytes 2 master }
    else if st = 3 then
      if off.natAbs ≤ 1024 then (s.acquire false).followMark p hops master off
      else State.setSync { s with link := { s.link with lockFrames := 0, lastMark := s.gcount } } 0
    else if p = s.sourcePort then s.followMark p hops master off
    else if st = 1 ∧ s.link.stepped = true ∧ hops + 1 < s.chip F.gcStatusHops then
      State.followMark { s with link := { s.link with lockFrames := 0 } } p hops master off
    else s

/-- The payload fields of a mark (R377). -/
structure MarkIn where
  txg : Nat
  diff : Int
  node : Nat
  port : Nat
  hops : Nat
  master : Nat
  drain : Bool
  host : Bool
  init : List Nat
deriving DecidableEq, Repr

/-- The fields of a mark flit. -/
def markIn (f : List Byte) : MarkIn :=
  { txg := fieldLE f 8 8, diff := signed 64 (fieldLE f 16 8), node := fieldLE f 24 2, port := bits (fieldLE f 26 1) 0 4
    hops := fieldLE f 27 1, master := fieldLE f 28 2, drain := bit (fieldLE f 30 1) 0, host := bit (fieldLE f 30 1) 1
    init := (List.range 16).map fun i => bits (fieldLE f 32 24) (12 * i) 12 }

/-- What every accepted mark sets at its port. -/
def State.markTaken (s : State) (p : Nat) (m : MarkIn) : State :=
  let s := s.bump (portB p) F.portMarksRx
  let s := ((s.set (portB p) F.portPartner m.node).set (portB p) F.portPartnerPort m.port).set (portB p) F.portDrainRx (b2n m.drain)
  s.modPort p fun q => { q with markTx := m.txg, markRx := s.gcount, partnerHost := m.host
                                init := m.init.zipIdx.foldl (fun i e => SMap.put 0 i e.2 e.1) q.init }

/-- A port enters TRAINING. -/
def State.train (s : State) (p : Nat) : State := (s.enterLink p Ls.training).modPort p fun q => { q with marks := 0 }

/-- MARK_FLIT (R377, R378, R379, R358, R359, R397, R398): a good mark serves training, the check of the partner, credits, the
drain notice and synchronisation; a bad one is ignored. -/
def execMarkFlit (port : Nat) (flit : List Byte) (fec : FecFind) (s : State) : Res :=
  .next (if s.hears port = false then s
    else if badFlit flit fec then (s.fecTaken port fec).dropFlit port
    else
      let s := s.fecTaken port fec
      let h := FlitHdr.of flit
      if h.typ ≠ 2 then s
      else
        let m := markIn flit
        let other := decide (s.get (portB port) F.portPartner ≠ m.node ∨ s.get (portB port) F.portPartnerPort ≠ m.port)
        let last := (s.port port).markRx
        let s := (s.takeHdr port h).markTaken port m
        let st := s.linkState port
        if s.partnerOk port m.node m.port m.host = false then
          (if st = Ls.miswired then (if other then s.train port else s)
           else
             let s := s.portFault port 0x74 2 0 0 m.node
             if st = Ls.up then s.loseLink port Ls.miswired else s.enterLink port Ls.miswired)
        else if st = Ls.miswired then s.train port
        else if st = Ls.training then
          if (s.port port).marks ≠ 0 ∧ s.gcount ≤ last + 2000000 then s.linkUp port
          else s.modPort port fun q => { q with marks := 1 }
        else
          let df : Int := (s.gcount : Int) - m.txg
          s.syncMark port m.hops m.master ((df - m.diff).tdiv 2))

/-- SYNC_MARK_LOSS (R359, R362): a LOCKED follower has had no mark from its source port for 16 frames. -/
def execSyncMarkLoss (s : State) : Res :=
  .next (if s.chip F.gcStatusState = 2 ∧ s.link.lastMark + 16384 ≤ s.gcount then s.setSync 3 else s)

/-- SYNC_HOLDOVER_EXPIRY (R359): 10 ms have passed without marks. -/
def execSyncHoldoverExpiry (s : State) : Res :=
  .next (if s.chip F.gcStatusState = 3 ∧ s.link.lastMark + 10000000 ≤ s.gcount then s.setSync 0 else s)

/-! ### Link states (R378) -/

/-- A DOWN port may train: its connector is present, its lasers are on, it has a partner to expect, and the ROM has reached
LINK for a host port, the firmware for another (R440). -/
def State.mayTrain (s : State) (p : Nat) : Bool :=
  p < 16 && s.linkState p == Ls.down && s.get (portB p) F.portPresent == 1 && s.get (portB p) F.portLaser == 1
    && (s.expected p).isSome && decide (2 ≤ s.rom) && decide (s.rom ≤ 8)

/-- LIGHT_DETECT (R378): light on all lanes of a DOWN port. -/
def execLightDetect (port : Nat) (s : State) : Res := .next (if s.mayTrain port then s.train port else s)

/-- TRAINING_RETRY (R378): the 100 ms interval of a DOWN port has passed; it trains where light is seen. -/
def execTrainingRetry (port : Nat) (light : Bool) (s : State) : Res :=
  .next (if s.mayTrain port = false ∨ s.gcount < (s.port port).since + 100000000 then s
    else if light then s.train port
    else s.modPort port fun q => { q with since := s.gcount })

/-- TRAINING_TIMEOUT (R378): no lock within 10 ms. -/
def execTrainingTimeout (port : Nat) (s : State) : Res :=
  .next (if port < 16 ∧ s.linkState port = Ls.training ∧ (s.port port).since + 10000000 ≤ s.gcount then s.linkDown port else s)

/-- FEC_LOCK_LOSS (R378): an UP port loses FEC lock on a lane and retrains. -/
def execFecLockLoss (port lane : Nat) (s : State) : Res :=
  .next (if port < 16 ∧ lane < 8 ∧ s.linkState port = Ls.up then
    (s.retrain port).set (portB port) F.portLaneLock (setBits (s.get (portB port) F.portLaneLock) lane 1 0) else s)

/-- RETRAIN_RELOCK (R378): the port relocks within 1 ms; replay resumes from the partner's ACK, and no message is lost. The
count of R376 begins anew (DEDUCED, log entry 24). -/
def execRetrainRelock (port ack : Nat) (s : State) : Res :=
  .next (if port < 16 ∧ s.linkState port = Ls.retrain ∧ s.gcount < (s.port port).since + 1000000 then
    let s := (s.enterLink port Ls.up).set (portB port) F.portLaneLock 0xFF
    let s := s.modPort port fun q =>
      let q := q.takeAck (ack % 4096) s.gcount
      { q with replay := q.replay.map fun (f : TxFlit) => { f with sends := 0 } }
    s.replayPort port
   else s)

/-- RETRAIN_TIMEOUT (R378, R394, R401): no relock for 1 ms. -/
def execRetrainTimeout (port : Nat) (s : State) : Res :=
  .next (if port < 16 ∧ s.linkState port = Ls.retrain ∧ (s.port port).since + 1000000 ≤ s.gcount then
    (s.portFault port 0x72 2 0 0 (s.get (portB port) F.portPartner)).linkDown port else s)

/-- LOSS_OF_SIGNAL (R378, R394, R396, R401): a lane of an UP or RETRAIN port has had no signal for 10 µs. -/
def execLossOfSignal (port lane : Nat) (s : State) : Res :=
  .next (if port < 16 ∧ lane < 8 ∧ (s.linkState port = Ls.up ∨ s.linkState port = Ls.retrain) then
    (s.portFault port 0x75 2 0 0 (s.get (portB port) F.portPartner)).linkDown port else s)

/-- PORT_DISABLE_WRITE (R378, R398): an admin write of PORT_CTRL.DISABLE. -/
def execPortDisableWrite (port value : Nat) (s : State) : Res := .next (if port < 16 then s.writePortCtrl port value else s)

/-! ### Routes (R385) -/

/-- ROUTE_UPDATE (R383, R385, R398): the firmware writes new entries for every destination and advances TABLE_UPDATES; directions
that are UP again carry their traffic from then on. It waits for the MP (R435). -/
def execRouteUpdate (s : State) : Res :=
  .next (if s.mpUp = false ∨ s.chip F.mapValid = 0 then s
    else
      let s := { s with link := { s.link with rerouted := s.link.rerouted.filter s.directionDown } }
      ((List.range 2048).foldl (fun (t : State) n => t.setWord (routeB n) (s.routeEntry n)) s).count F.tableUpdates)

/-! ### Connectors (R395, R396) -/

/-- The PRESENCE message (R539): connectors present, those that changed, and their ports. -/
def State.presenceNote (s : State) (k : Nat) : State :=
  let s := s.alertCause 5
  if s.rom = Rom.running then s.tellHosts 0x0C04 (s.chip F.eklOpticPresent + 16 * 2 ^ k + 65536 * (15 * 2 ^ (4 * k))) else s

/-- Presence of a connector ends (R395): its ports go DOWN with their lasers off; a port that was UP is logged; loop-backs
through it end (R491). -/
def State.unplug (s : State) (k : Nat) : State :=
  let s := s.setChip F.eklOpticPresent (setBits (s.chip F.eklOpticPresent) k 1 0)
  let s := s.count F.presenceEvents
  let s := (upFrom (4 * k) 4).foldl (fun s p =>
    let was := s.linkState p
    let s := s.set (portB p) F.portPresent 0
    let s := if was = Ls.up then s.portFault p 0x73 2 0 0 (s.get (portB p) F.portPartner) else s
    ((s.linkDown p).endLoop p).setLaser p 0) s
  s.presenceNote k

/-- A connector is inserted (R395): its lasers wait for 100 ms of steady presence. -/
def State.plug (s : State) (k : Nat) : State :=
  let s := s.setChip F.eklOpticPresent (setBits (s.chip F.eklOpticPresent) k 1 1)
  let s := s.count F.presenceEvents
  let s := (upFrom (4 * k) 4).foldl (fun s p => s.set (portB p) F.portPresent 1) s
  State.presenceNote { s with link := { s.link with presentAt := SMap.put 0 s.link.presentAt k (s.gcount + 1) } } k

/-- In STAND, and without power or clocks, no presence is debounced (R473). -/
def State.awake (s : State) : Bool := s.clocked

/-- PRESENCE_CHANGE (R395, R539): a connector's debounced presence ends or begins. -/
def execPresenceChange (oc : Nat) (present : Bool) (s : State) : Res :=
  .next (if 4 ≤ oc ∨ s.awake = false ∨ bit (s.chip F.eklOpticPresent) oc = present then s
    else if present then s.plug oc else s.unplug oc)

/-- PRESENCE_STEADY (R395): presence has been steady for 100 ms; the lasers of the connector's ports turn on and they train. -/
def execPresenceSteady (oc : Nat) (s : State) : Res :=
  .next (let t := SMap.look 0 s.link.presentAt oc
    if 4 ≤ oc ∨ t = 0 ∨ s.gcount + 1 < t + 100000000 ∨ bit (s.chip F.eklOpticPresent) oc = false ∨ s.awake = false then s
    else
      let s := { s with link := { s.link with presentAt := SMap.put 0 s.link.presentAt oc 0 } }
      if bit s.pwr.railsGood 5 = false then s
      else (upFrom (4 * oc) 4).foldl (fun s p => if s.linkState p = Ls.disabled then s else s.setLaser p 1) s)

/-! ### The drain (R397, R538, R539) -/

/-- The drain of the device is complete now: 100 µs without transit, and every replay buffer empty. -/
def State.drainIsDone (s : State) : Bool :=
  s.chip F.draining == 1 && s.chip F.drained == 0 && decide (s.link.transitAt + 100000 ≤ s.gcount)
    && s.link.ports.all fun e => e.2.replay == []

/-- DRAIN_COMPLETE (R397, R539, R431): DRAINED reads 1, the hosts hear of it, and waiting DRAIN commands answer. -/
def execDrainComplete (s : State) : Res :=
  .next (if s.drainIsDone = false then s
    else
      let s := s.setChip F.drained 1
      let s := if s.chip F.svcDrain = 1 then s.serviceNote 4 1 else if s.chip F.admDrain = 1 then s.serviceNote 4 2 else s
      s.answerAll 0x0005 (fun _ => true) Sc.ok)

/-- PORT_SWITCH_PARITY_FAILURE (R418): the whole device goes down, transit included: every port loses its link and its lasers,
and every coach stops being served. The source gives no way back but a cold reset. -/
def execPortSwitchParityFailure (s : State) : Res :=
  .next (
    let s := (List.range 16).foldl (fun s p =>
      let st := s.linkState p
      let s := if st = Ls.up ∨ st = Ls.retrain then s.loseLink p Ls.down else s.linkDown p
      s.setLaser p 0) s
    { s with gs := { s.gs with held := true } })

end Sys2Proof.Machine
end

