-- ==== Sys2Proof/Machine/ResetOps.lean ====
section
/-!
DEFINITION. Operations of the resets (20): the chip warm reset (R475, R479, R480, R496), the cold state (R476), the error
sequencer's queues when a hold ends (R415, R517), and the version of the running image.
-/
namespace Sys2Proof.Machine

/-! ### The queues of the error sequencer (R415, R417, R517) -/

/-- A record that leaves a queue is written with QUEUED (R517); a SAFE_STATE record names the record written before it. -/
def State.writeQueued (s : State) (r : LogRec) : State :=
  let r := if r.cause = 0x8F then { r with detail := leBytes 4 ((s.chip F.logStateHead + 2 ^ 32 - 1) % 2 ^ 32) } else r
  s.logWrite r true

/-- The sequencer takes the next recovery (R415): the highest severity first, and within a severity the order of detection; a
pre-empted recovery resumes where nothing higher waits. Severity 0 is done once written. -/
def seqNext : Nat → State → State
  | 0, s => s
  | n + 1, s =>
    if s.logHeld then s
    else
      let now := (s.log.cur.head?.map (·.sev)).getD 0
      let busy := !s.log.cur.isEmpty
      match s.log.q3, s.log.q2, s.log.q1, s.log.q0 with
      | r :: t, _, _, _ =>
        let s := s.writeQueued r
        seqNext n { s with log := { s.log with q3 := t, cur := [r] } }
      | [], r :: t, _, _ =>
        if busy ∧ 2 ≤ now then s
        else
          let s := s.writeQueued r
          let s := if busy then s.count F.nestPreempt else s
          { s with log := { s.log with q2 := t, cur := r :: s.log.cur } }
      | [], [], r :: t, _ =>
        if busy then s
        else
          let s := s.writeQueued r
          { s with log := { s.log with q1 := t, cur := [r] } }
      | [], [], [], r :: t =>
        if busy then s
        else
          let s := s.writeQueued r
          seqNext n { s with log := { s.log with q0 := t } }
      | [], [], [], [] => s

/-- Records that wait in the queues. -/
def State.queued (s : State) : Nat := s.log.q0.length + s.log.q1.length + s.log.q2.length + s.log.q3.length

/-- The sequencer goes on after a recovery or a hold. -/
def State.seqResume (s : State) : State := seqNext (s.queued + 1) s

/-- Every held record is written, in the order of R415: a chip warm reset has subsumed every recovery (R415, R517). -/
def State.writeHeld (s : State) : State :=
  let rs := s.log.q3 ++ s.log.q2 ++ s.log.q1 ++ s.log.q0
  let s := { s with log := { s.log with q0 := [], q1 := [], q2 := [], q3 := [], cur := [] } }
  rs.foldl (fun s r => s.writeQueued r) s

/-! ### The chip warm reset (R480) -/

/-- The device's own messages that have not entered a replay buffer are discarded, but for answers to requests (R480, step 3;
log entry 41). -/
def State.dropOwn (s : State) : State :=
  { s with link := { s.link with
    ports := s.link.ports.map fun (e : Nat × Port) => (e.1, { e.2 with own := e.2.own.filterMap fun k =>
      (match k.2.filter (fun m => m.src != s.node || s.leavesInReset m) with | [] => none | l => some (k.1, l)) })
    out := s.link.out.filter fun o => (s.port o.port).lost.any fun m => m.tagw == o.tag && m.vc == o.msg.vc } }

/-- A queue whose carts belong to carriages: dispatches, completions, weights, tiles, partial sums, writes of neighbours, partials
(R21). -/
def Qk.ofWork (k : Nat) : Bool := [1, 2, 5, 6, 7, 8, 11].contains (k / 2 ^ 24)

/-- Every carriage on every core ends, the blocks in the expanders release their references (R114), and the carts of carriages leave
their buffers unread (R19). -/
def State.endAllWork (s : State) : State :=
  let s := s.cores.foldl (fun s e => s.releaseBlocks (e.2.xe.flatMap (·.blocks))) s
  let s := (s.noc.queues.filter fun e => Qk.ofWork e.1).foldl (fun s e => s.qLeave e.1 (e.2.flight + e.2.buffer)) s
  { s with cores := s.cores.map fun (e : Nat × Core) =>
      let c : Core := { e.2 with disp := [], td := [], dmaQ := [], xe := [{}, {}, {}, {}], te := [{}, {}, {}, {}] }
      (e.1, { c with pcarts := [], ge := [], merges := [], nbr := [], nbrWait := [], complWait := [] }) }

/-- A trigger of a chip warm reset is latched (R480, steps 1 to 3): 1 WARMRESET#, 2 CHIP_RESET, 3 GS or SB parity, 4 MP
absent. Before RUNNING it is ignored, and a second one merges with the first (R496). -/
def State.warmTrigger (s : State) (t : Nat) : State :=
  if s.rom ≠ Rom.running ∨ s.log.hold = true ∨ s.clocked = false ∨ s.scanned = true then s
  else
    let s := { s with log := { s.log with hold := true, noteTrigger := t }
                      gs := { s.gs with held := true, complQ := [], endQ := [], cut := none, posted := none
                                        rows := s.gs.rows.map fun (r : Row) => r.mask Sc.cancelled } }
    s.endAllWork.dropOwn

/-- Register words that a chip warm reset clears or returns to their reset value (R479): the core windows, the counters that
the chapters name, CHIP_MODE, LOWMARK with RESERVED, and PM_INTERVAL. -/
def warmCleared (a : Nat) : Bool :=
  decide (coreKey ≤ a)
    || (decide (0x2238 ≤ a) && decide (a ≤ 0x2258)) || a == 0x2228
    || (decide (0x2318 ≤ a) && decide (a ≤ 0x2380)) || (decide (0x2418 ≤ a) && decide (a ≤ 0x2448)) || a == 0x2500
    || a == 0x2600 || a == 0x2620 || a == 0x2630 || a == 0x2638 || a == 0x2640
    || (decide (0x2718 ≤ a) && decide (a ≤ 0x2748)) || (decide (0x2A10 ≤ a) && decide (a ≤ 0x2A48))
    || a == 0x3100 || (decide (0x3110 ≤ a) && decide (a ≤ 0x3138)) || a == 0x3330 || a == 0x3338
    || a == 0x3400 || (decide (0x3410 ≤ a) && decide (a ≤ 0x3428))
    || (decide (0x200000 ≤ a) && decide (a < 0x280000) && decide (0x10 ≤ a % 0x10000) && decide (a % 0x10000 ≤ 0x70))
    || (decide (0x300000 ≤ a) && decide (a < 0x340000) && decide (0x18 ≤ a % 0x4000) && decide (a % 0x4000 ≤ 0x80))
    || (decide (0x1000000 ≤ a) && decide (a < 0x2000000) && decide (0x490 ≤ a % 0x1000) && decide (a % 0x1000 ≤ 0x4C0))

/-- Every sequence entry becomes FREE without a completion (R479). -/
def State.freeAllEntries (s : State) : State := s.liveSlots.foldl (fun s n => s.setSeq n Se.state Ss.free) s

/-- The clears of R479, made in hardware at step 4 of R480. The versions of overlay names begin anew (R145; DESIGN CHOICE, log
entry 104). -/
def State.warmClear (s : State) : State :=
  let s := if s.seqTable then s.freeAllEntries else s
  let s := { s with regs := s.regs.filter fun e => !warmCleared e.1 }
  let s := (s.setChip F.decodeCap F.decodeCap.rst).setChip F.predAuditInt F.predAuditInt.rst
  let s := ((s.setChip F.kvFree (s.chip F.nPages)).setChip F.kvUsed 0)
  let s := (s.setChip F.coldFree (s.chip F.nCold)).setChip F.coldUsed 0
  let s := (List.range 16).foldl (fun s n => (s.set (tblB n) F.tblState 0).set (tblB n) F.tblCount 0) s
  let s := (List.range 144).foldl (fun s p => s.set (pcoreB p) F.pcoreResTotal 0) s
  let s := s.coaches.foldl (fun s e => s.set (coachB e.1) F.coachResetPend 0) s
  let s := s.vecs.foldl (fun s e => s.set (vecB e.1) F.cvecPending 0) s
  { s with
    spm := {}, inprog := [], vecs := [], tables := []
    cores := (List.range 144).filterMap fun p =>
      let c : Core := { due := (s.core p).due, lastTest := (s.core p).lastTest, emptyAt := s.gcount }
      if c = {} then none else some (p, c)
    coaches := s.coaches.filterMap fun (e : Nat × Coach) =>
      let c : Coach := { cm := e.2.cm, cmCount := e.2.cmCount, table := e.2.table }
      if c = {} then none else some (e.1, c)
    xlate := { s.xlate with caches := [] }
    graphs := s.graphs.map fun e => (e.1, e.2.map fun g => { g with staged := [], stagedPins := [] })
    gs := { held := true }, sb := {}, ledger := {}
    hbm := { s.hbm with margin := 0, fineQ := [] }
    noc := {}
    link := { s.link with colls := [], carts := [], barFrom := [], barOut := [] } }

/-- WARM_RESET_QUIESCED (R480, steps 4 and 5): tags have landed and writes are complete; the clears of R479 are made, and the
boot ROM verifies the kept image. What was in progress is remembered for its answer (R437). -/
def execWarmResetQuiesced (s : State) : Res :=
  .next (if s.log.hold = false ∨ s.rom ≠ Rom.running then s
    else
      let cut := s.inprog ++ s.boot.timeouts
      let s := s.warmClear
      let s := { s with boot := { s.boot with warm := true, kept := true, phase := 0, quotes := [], timeouts := cut
                                              got := [], reads := [], nextOff := 0 } }
      s.enterRom Rom.verify)

/-- GS_SB_PARITY_FAIL (R475, R480): a parity failure of the GS or the SB brings a chip warm reset. -/
def execGsSbParityFail (s : State) : Res := .next (s.warmTrigger 3)

/-! ### The cold state (R475, R476) -/

/-- Everything but the fuses and the pins is at its reset value (R475); what waits in the queue and the model's own counter
stay. -/
def State.cold (s : State) : State :=
  let r : State := { pending := s.pending, free := s.free, fuses := s.fuses }
  let r : State := { r with pwr := { pwrgd := s.pwr.pwrgd, poreset := s.pwr.poreset } }
  let r := ((r.setChip F.svnMin s.fuses.svn).setChip F.keyRevoke s.fuses.revoke).setChip F.scanLock s.fuses.scanLock
  ((r.setChip F.devSerialSerial s.fuses.serial).setChip F.ioscTrimCode s.fuses.iosc).setChip F.refclkPresent (s.chip F.refclkPresent)

/-- The cold state before any clock but IOSC runs (R457): clock state IOSC, with the rails given. -/
def State.coldHeld (s : State) (rails : Nat) : State :=
  let s := ((s.cold.setChip F.clkStatusSrc 0).setChip F.xtalOk 0).setChip F.pllLock 0
  { s with pwr := { s.pwr with railsGood := rails } }

/-- Version of the image that lies in the running slot (R444). -/
def State.imageVersion (s : State) : Nat := s.memNat (slotAddr (s.chip F.bootStatusSlot) + 16) 4

/-- The firmware writes MP_INFO (R438, R440). -/
def State.writeMpInfo (s : State) : State :=
  ((s.setChip F.ifMinor 4).setChip F.ifMajor 1).setChip F.fwVersion s.imageVersion

end Sys2Proof.Machine
end

