-- ==== Sys2Proof/Machine/Boot.lean ====
section
/-!
DEFINITION. The boot ROM (R440-R446), the hand-back block and the repair pass (R486-R488), the start of the firmware (R298, R477),
the hand-over (R434-R437), the end of a chip warm reset (R480, R481), and the MP's watchdog (R435, R437).
-/
namespace Sys2Proof.Machine

/-! ### POR and TRAIN (R440, R447, R448) -/

/-- BOOT_POR_DONE (R440, R447, R448, R528): the fuses are read; with TESTEN strapped the ROM enters FAILED with REASON 12; when the
self-check or the unwrap fails, with REASON 9. Otherwise DK is unwrapped, M0 is extended and the ROM goes on to TRAIN. -/
def execBootPorDone (ok : Bool) (s : State) : Res :=
  .next (if s.rom ≠ Rom.por ∨ s.clocked = false ∨ s.scanned = true then s
    else if s.pwr.testen then s.romFailed 12
    else
      let s := ((s.setChip F.svnMin s.fuses.svn).setChip F.keyRevoke s.fuses.revoke).setChip F.scanLock s.fuses.scanLock
      let s := s.setChip F.devSerialSerial s.fuses.serial
      if ok = false then s.romFailed 9
      else
        let s : State := { s with boot := { s.boot with dkN := s.fuses.dkN, dkD := s.fuses.dkD } }
        (s.extendM 0 (sha256 (Config.romVersion :: leBytes 8 (s.word 0x3208)))).enterRom Rom.train)

/-- The lasers of present connectors turn on, on ports that are not DISABLED (R395, R440, R469). -/
def State.lasersOn (s : State) : State :=
  (List.range 16).foldl (fun s p =>
    if s.get (portB p) F.portPresent = 1 ∧ s.linkState p ≠ Ls.disabled then s.setLaser p 1 else s) s

/-- The laser of every port turns off. -/
def State.lasersOff (s : State) : State := (List.range 16).foldl (fun s p => s.setLaser p 0) s

/-- Every stack is trained. -/
def State.allTrained (s : State) : Bool := (List.range 8).all s.trained

/-- TRAIN gives way to LINK once every stack is trained and VOPT is good (R440, R463). -/
def State.trainToLink (s : State) : State :=
  if s.rom = Rom.train ∧ s.allTrained = true ∧ bit s.pwr.railsGood 5 = true then (s.enterRom Rom.linkUp).lasersOn else s

/-- HBM_TRAIN_DONE (R440, R443): the stacks have trained in parallel; `failed` names those that did not. Frame 0 is mapped HASHED
for the image slots; the REASON of a stack that does not train is free (log entry 3). -/
def execHbmTrainDone (failed : Nat) (s : State) : Res :=
  .next (if s.rom ≠ Rom.train ∨ s.clocked = false ∨ s.scanned = true ∨ s.allTrained = true then s
    else
      let s := (List.range 8).foldl (fun (s : State) m => if bit failed m then s else s.set (mcB m) F.mcTrained 1) s
      if failed % 256 ≠ 0 then (s.draw).romFailed (Config.uncodedReason s.free).toNat
      else ((s.set (regionB 0) F.regionValid 1).set (regionB 0) F.regionFcount 1).trainToLink)

/-- BOOT_REQ_TIMER (R440, R441): in REQUEST, BOOT_REQ is sent every 100 ms on every host port that is UP. -/
def execBootReqTimer (s : State) : Res :=
  .next (if s.rom = Rom.request ∧ s.clocked = true ∧ s.scanned = false ∧ s.boot.lastReq + 100000000 ≤ s.gcount then s.bootReqAll else s)

/-! ### The hand-back block (R486, R487) -/

/-- The hand-back block as read. -/
def State.hbBlock (s : State) : List Byte := Memory.read s.boot.buf 0 (min 4096 s.boot.hbLen)

/-- Why a block is ignored (R487): 0 not, 1 MAGIC, FORMAT or LENGTH, 2 stepping, 3 serial, 4 CRC. -/
def State.hbIgnore (s : State) (b : List Byte) : Nat :=
  let ncore := fieldLE b 16 1
  let nrow := bits (fieldLE b 18 2) 0 9
  let len := bits (fieldLE b 20 2) 0 13
  if fieldLE b 0 4 ≠ 0x42485A56 ∨ fieldLE b 4 1 ≠ 1 ∨ 144 < ncore ∨ 400 < nrow ∨ len ≠ 100 + 4 * ncore + 8 * nrow
      ∨ len ≠ s.boot.hbLen then 1
  else if fieldLE b 5 1 ≠ 0xB1 then 2
  else if fieldLE b 8 8 ≠ s.chip F.devSerialSerial then 3
  else if fieldLE b (len - 4) 4 ≠ crc32c (b.take (len - 4)) then 4
  else 0

/-- The core entries of a block, and its row entries (stack, PC, row). -/
def hbCores (b : List Byte) : List Nat := (List.range (fieldLE b 16 1)).map fun i => fieldLE b (96 + 4 * i) 1
def hbRows (b : List Byte) : List (Nat × Nat × Nat) :=
  (List.range (bits (fieldLE b 18 2) 0 9)).map fun j =>
    let w := fieldLE b (96 + 4 * fieldLE b 16 1 + 8 * j) 8
    (bits w 0 3, bits w 3 6, bits w 9 21)

/-- An item of a self-test record failed (R484): kind 1 port, 2 thermal sensor, 3 PLL (0-12), HBM PHY (16 + m) or rail (32 + r). -/
def selftestFailed (b : List Byte) (k i : Nat) : Bool :=
  match k with
  | 1 => bit (fieldLE b (32 + 6) 2 ||| fieldLE b (32 + 8) 2) i
  | 2 => if i < 16 then bit (fieldLE b (32 + 10) 2) i else bit (fieldLE b (32 + 12) 1) (i - 16)
  | 3 => if i < 16 then bit (bits (fieldLE b (32 + 2) 2) 0 13) i
    else if i < 32 then bit (fieldLE b (32 + 4) 1) (i - 16) else bit (fieldLE b (32 + 5) 1) (i - 32)
  | _ => false

/-! ### The repair pass (R488) -/

/-- Each quadrant's range: its own cores, and where it falls short the next of those left over. -/
def takeRanges (n : Nat) : List (List Nat) → List Nat → List (List Nat)
  | [], _ => []
  | own :: r, rest => (own ++ rest.take (n - own.length)) :: takeRanges n r (rest.drop (n - own.length))

/-- The cores that stand behind the logical cores under a configuration (R14, R488): (logical, physical). -/
def repairMap (cfg : Nat) (healthy : List Nat) : List (Nat × Nat) :=
  let n := cfg / 4
  let inQuad (q : Nat) : List Nat := healthy.filter fun p => quadOf p == q
  let rest := [0, 1, 2, 3].flatMap fun q => (inQuad q).drop n
  (takeRanges n ([0, 1, 2, 3].map fun q => (inQuad q).take n) rest).zipIdx.flatMap fun e =>
    e.1.zipIdx.map fun x => (n * e.2 + x.2, x.1)

/-- The core part of the repair pass (R488, steps 1 to 5). `bad` names the cores that fail their test. -/
def State.repairCores (s : State) (cfg : Nat) (entries bad : List Nat) : State :=
  let soft := entries.filter fun p => decide (p < 144) && !s.fuses.cores.contains p
  let healthy := (List.range 144).filter fun p => !s.fuses.cores.contains p && !soft.contains p && !bad.contains p
  let map := repairMap cfg healthy
  let s := (List.range 144).foldl (fun (s : State) p =>
    let b := pcoreB p
    if s.fuses.cores.contains p then (s.set b F.pcoreState 0).set b F.pcoreCause 5
    else if soft.contains p then (s.set b F.pcoreState 4).set b F.pcoreCause 5
    else if bad.contains p then (s.set b F.pcoreState 4).set b F.pcoreCause 3
    else match map.find? (fun e => e.2 == p) with
      | some e => (s.set b F.pcoreState 2).set b F.pcoreLogical e.1
      | none => s.set b F.pcoreState 1) s
  let s := map.foldl (fun (s : State) e => s.setWord (coremapB e.1) (coremapWord cfg e.1 e.2)) s
  let s := (s.setChip F.coreConfig cfg).setChip F.hbStatusCfg cfg
  { (s.setChip F.coreEntries soft.length) with boot := { s.boot with healthy := healthy.length } }

/-- The row part of the repair pass (R488, step 6). -/
def State.repairRows (s : State) (rows : List (Nat × Nat × Nat)) : State :=
  rows.foldl (fun (s : State) r =>
    let k := 64 * r.1 + r.2.1
    let used := SMap.look 0 s.hbm.spares k
    if 16 ≤ used then
      State.setChip { s with boot := { s.boot with rowOvf := s.boot.rowOvf ++ [r] } } F.rowOvf 1
    else
      let s : State := { s with hbm := { s.hbm with spares := SMap.put 0 s.hbm.spares k (used + 1) } }
      let most := (List.range 64).foldl (fun x d => max x (SMap.look 0 s.hbm.spares (64 * r.1 + d))) 0
      (s.set (mcB r.1) F.mcSparesLeft (16 - most)).count F.rowEntries) s

/-- The ports that fail their retest stay DISABLED until cold reset (R487). -/
def State.disablePorts (s : State) (ps : List Nat) : State :=
  ps.foldl (fun (s : State) p =>
    let s := if s.linkState p = Ls.up ∨ s.linkState p = Ls.retrain then s.loseLink p Ls.disabled else s.enterLink p Ls.disabled
    State.setLaser { s with boot := { s.boot with badPorts := insertNat p s.boot.badPorts } } p 0) s

/-- HANDBACK_DONE (R440, R448, R478, R486-R488): the block has been read; M2 is extended, the analogue parts are checked or
retested, and the repair pass runs. `retest` lists what fails: (0, core), (1, port), (2, sensor), (3, PLL, PHY or regulator). -/
def execHandbackDone (retest : List (Nat × Nat)) (s : State) : Res :=
  .next (if s.rom ≠ Rom.handback ∨ s.bootGot = false ∨ s.clocked = false ∨ s.scanned = true then s
    else
      let present := decide (s.boot.hb ≠ 0)
      let b := s.hbBlock
      let s := s.extendM 2 (sha256 (if present then b else List.replicate 32 0))
      let ig := if present then s.hbIgnore b else 0
      let valid := present && ig == 0
      let s := ((s.setChip F.hbStatusPresent (b2n present)).setChip F.hbStatusValid (b2n valid)).setChip F.hbStatusIgnore ig
      let st := valid && bit (fieldLE b 7 1) 0 && bit (fieldLE b 32 1) 0
      let pass := st && bit (fieldLE b 32 1) 2
      let s := (s.setChip F.stUsed (b2n pass)).setChip F.retested (b2n (st && !pass))
      let fails := retest.filter fun e => e.1 != 0 && !pass && (!st || selftestFailed b e.1 e.2)
      if fails.any (fun e => e.1 == 3) then s.romFailed 11
      else
        let s := s.disablePorts ((fails.filter fun e => e.1 == 1 && decide (e.2 < 16)).map (·.2))
        let cfg := if valid ∧ fieldLE b 6 1 = 112 then 112 else 128
        let s := s.repairCores cfg (if valid then hbCores b else []) ((retest.filter fun e => e.1 == 0).map (·.2))
        if s.boot.healthy < cfg then ((s.setChip F.ftStatusSafe 1).alertCause 4).enterRom Rom.safe
        else ((s.repairRows (if valid then hbRows b else [])).enterRom Rom.load).bootStart)

/-! ### LOAD and VERIFY (R442-R446) -/

/-- BOOT_READ_TIMEOUT (R442): a read of the block or the image has not been answered within 10 ms, and is issued again. -/
def execBootReadTimeout (off : Nat) (s : State) : Res :=
  .next (let r := SMap.look (0, 0) s.boot.reads off
    if s.bootLoading = false ∨ r.1 = 0 ∨ s.gcount < r.2 + 10000000 then s
    else
      let out := s.link.out.filter fun o => match o.why with | .boot a _ => a != off | _ => true
      State.bootReadFailed { s with link := { s.link with out := out } } off Sc.timeout)

/-- IMAGE_LOAD_DONE (R434, R440): every byte of the image has arrived. -/
def execImageLoadDone (s : State) : Res :=
  .next (if s.bootGot = false then s
    else if s.rom = Rom.load then State.enterRom { s with boot := { s.boot with kept := false } } Rom.verify
    else if s.boot.phase = 1 then { s with boot := { s.boot with phase := 2, kept := false } }
    else s)

/-- Fields of an image (R444). -/
def Im.length (b : List Byte) : Nat := fieldLE b 8 4
def Im.keyslot (b : List Byte) : Nat := bits (fieldLE b 6 1) 0 2
def Im.commit (b : List Byte) : Bool := bit (fieldLE b 7 1) 0
def Im.svn (b : List Byte) : Nat := bits (fieldLE b 12 1) 0 7
def Im.entry (b : List Byte) : Nat := fieldLE b 20 4

/-- Reserved fields of an image are zero. -/
def Im.reservedOk (b : List Byte) : Bool :=
  bits (fieldLE b 6 1) 2 6 == 0 && bits (fieldLE b 7 1) 1 7 == 0 && !bit (fieldLE b 12 1) 7 && fieldLE b 13 3 == 0
    && ((b.drop 408).take 104).all (· == 0)

/-- The REASON of the first check of R445 that an image fails; 0 where it passes. `granted` is the granted length, none for the
kept image. -/
def State.imageCheck (s : State) (a : Nat) (granted : Option Nat) : Nat :=
  let h := s.memRead a 512
  let n := Im.length h
  if fieldLE h 0 4 ≠ 0x57465A56 ∨ fieldLE h 4 1 ≠ 1 ∨ n % 4096 ≠ 0 ∨ n < 4096 ∨ 4194304 < n ∨ granted.any (· != n) = true
      ∨ Im.entry h < 512 ∨ n - 384 ≤ Im.entry h ∨ Im.reservedOk h = false then 1
  else if fieldLE h 5 1 ≠ 0xB1 then 2
  else if bit (s.chip F.keyRevoke) (Im.keyslot h) then 3
  else
    let modulus := (h.drop 24).take 384
    if sha256 modulus ≠ s.fuses.keyHash.getD (Im.keyslot h) [] then 4
    else
      let b := s.memRead a n
      if rsaVerify (beNat modulus) (b.take (n - 384)) (b.drop (n - 384)) = false then 5
      else if Im.svn h < s.chip F.svnMin then 6
      else 0

/-- The status that goes with a REASON of R445. -/
def reasonStatus (r : Nat) : Nat := if r = 1 then Sc.badArg else if r = 2 then Sc.unsupported else Sc.badSignature

/-- The slot of the image in VERIFY. -/
def State.verifySlot (s : State) : Nat := if s.boot.kept then s.chip F.bootStatusSlot else s.stagingSlot

/-- A verified image becomes the running one (R443, R446, R448, R453): M1 is extended, the SVN fuses are burned where it asks,
and BOOT_STATUS names it. -/
def State.takeImage (s : State) (burnOk : Bool) : State :=
  let slot := s.verifySlot
  let h := s.memRead (slotAddr slot) 512
  let s := s.extendM 1 (sha256 (s.memRead (slotAddr slot) (Im.length h - 384)))
  let min := s.chip F.svnMin
  let s := if Im.commit h ∧ min < Im.svn h then
      (if burnOk then State.setChip { s with fuses := { s.fuses with svn := max s.fuses.svn (Im.svn h) } } F.svnMin (Im.svn h)
       else { s with boot := { s.boot with burnFail := some (min, Im.svn h) } })
    else s
  ((s.setChip F.bootStatusSlot slot).setChip F.keyslot (Im.keyslot h)).setChip F.bootStatusSvn (Im.svn h)

/-- The firmware's own areas in region 0 (R298): place, length and alignment of the two image slots (R443), the sequence table (R222,
R247), the OVE table (R145, R172), the graph store (R272) and the table store (R334). -/
def firmwareAreas (p : Placement) : List (Nat × Nat × Nat) :=
  [(0, 2 * 4194304, 1), (p.seqBase, 2 ^ 21, 2 ^ 21), (p.ovlBase, 2 ^ 20, 2 ^ 20), (p.gsStore, p.storeMib * 2 ^ 20, 256),
   (p.ttStore, 32768 * (4096 + 16384), 32768)]

/-- A placement that the firmware can make: region 0 begins at frame 0 and its mirror lies beyond it; each area is aligned and lies
whole in region 0, and no two of them meet. -/
def placementOk (p : Placement) : Bool :=
  p.fbase == 0 && decide (1 ≤ p.fcount) && decide (p.fcount ≤ p.mbase) && decide (p.mbase + p.fcount ≤ 640)
    && (firmwareAreas p).all (fun e => e.1 % e.2.2 == 0 && decide (e.1 + e.2.1 ≤ p.fcount * 2 ^ 30))
    && (firmwareAreas p).zipIdx.all fun e => ((firmwareAreas p).drop (e.2 + 1)).all fun f =>
        decide (e.1.1 + e.1.2.1 ≤ f.1) || decide (f.1 + f.2.1 ≤ e.1.1)

/-- The firmware that starts at a cold boot creates region 0, mirrored and HASHED, and places its areas in it (R298, R477). -/
def State.placeFirmware (s : State) (p : Placement) : State :=
  let b := regionB 0
  let s := (((s.set b F.regionFcount p.fcount).set b F.regionMbase p.mbase).set b F.regionMstate 1)
  let s := ((s.setChip F.seqBase p.seqBase).setChip F.ovlBase p.ovlBase).setChip F.gsStore p.gsStore
  { (s.setChip F.storeMib p.storeMib) with boot := { s.boot with ttStore := p.ttStore } }

/-- IMAGE_VERIFY_DONE (R436, R440, R443, R445, R446, R448, R481): the image in VERIFY has been checked. At boot a failed check
brings BOOT_FAIL and REQUEST; a passed one START. After a chip warm reset the kept image's failure brings REQUEST. At a hand-over
the image that fails gives way to the kept one, and when that fails too the MP stays away. `place` is where firmware that starts
cold places its areas, `burnOk` whether an SVN burn succeeds. -/
def execImageVerifyDone (place : Placement) (burnOk : Bool) (s : State) : Res :=
  .next (
    let granted := if s.boot.kept then none else some s.boot.len
    let r := s.imageCheck (slotAddr s.verifySlot) granted
    if s.rom = Rom.verify then
      if r = 0 then
        if s.boot.warm then (s.takeImage burnOk).enterRom Rom.start
        else if placementOk place then ((s.takeImage burnOk).placeFirmware place).enterRom Rom.start else s
      else if s.boot.kept then
        State.bootFail { s with boot := { s.boot with kept := false } } (reasonStatus r) r
      else s.bootFail (reasonStatus r) r
    else if s.boot.phase = 2 then
      if r = 0 then
        let s := s.takeImage burnOk
        { s with boot := { s.boot with phase := 3 } }
      else if s.boot.kept then { (s.setChip F.bootStatusReason r) with boot := { s.boot with phase := 4 } }
      else (s.setChip F.bootStatusReason r).keepImage Sc.badSignature
    else s)

/-! ### The firmware starts (R440, R477, R488) -/

/-- The records that starting firmware owes (R446, R488). -/
def State.owedLogs (s : State) : State :=
  let rows := s.boot.rowOvf
  let burn := s.boot.burnFail
  let s : State := { s with boot := { s.boot with rowOvf := [], burnFail := none } }
  let s := rows.foldl (fun (s : State) r => s.raise { cls := 0, sev := 0, cause := 0x66, unit := 8, inst := r.1, fw := true }) s
  match burn with
  | none => s
  | some e => s.raise { cls := 7, sev := 0, cause := 0x82, unit := 12, fw := true, detail := [Byte.ofNat e.1, Byte.ofNat e.2] }

/-- MIRROR_SYNC_DONE (R313, R440, R441, R477): every line of a region has been copied. When region 0 of starting firmware is in
sync, the firmware writes MP_INFO, sends BOOT_DONE with M1 and serves the device. -/
def execMirrorSyncDone (region : Nat) (s : State) : Res :=
  .next (
    let s := s.syncDone region
    if region = 0 ∧ s.rom = Rom.start ∧ s.boot.warm = false ∧ 2 ≤ s.get (regionB 0) F.regionMstate then
      let s := s.writeMpInfo.enterRom Rom.running
      (s.mgmtTo s.boot.port 0x0B04 (s.chip F.fwVersion) (s.boot.m.getD 1 [])).owedLogs
    else s)

/-! ### Hand-over and MP-only reset (R434-R437) -/

/-- HANDOVER_CHECKPOINT_DONE (R434, step 3): the tables are checkpointed, MP_DOWN reads 1, and the boot ROM loads the image. -/
def execHandoverCheckpointDone (s : State) : Res :=
  .next (if s.mpUp = false ∨ s.chip F.handover = 0 ∨ s.boot.phase ≠ 0 then s
    else
      let b := { s.boot with mpDownAt := s.gcount, phase := 1 }
      let s : State := { s with boot := b }
      (s.setChip F.mpDown 1).bootStart)

/-- APPLIED of a command that an MP-only or a chip warm reset cut short, as the committed tables show it (R433, R437). -/
def State.appliedNow (s : State) (q : InProg) : Nat :=
  if q.due then b2n (q.status == Sc.ok)
  else if q.op = 0x0107 then 1
  else if q.op = 0x0104 ∨ q.op = 0x0105 then b2n (s.coachState q.coach == Cs.halted)
  else if q.op = 0x0005 then s.chip F.admDrain
  else 0

/-- The commands that an unplanned MP-only reset cut short are answered TIMEOUT (R437). -/
def State.answerTimeouts (s : State) : State :=
  s.boot.timeouts.foldl (fun (s : State) q => (s.count F.mbTimeout).respondAs q.box q.coach Sc.timeout (s.appliedNow q) 0 [])
    { s with boot := { s.boot with timeouts := [] } }

/-- The commands whose events arrived while the MP was away are answered, in order (R428, R434). -/
def State.answerDue (s : State) : State :=
  (s.inprog.filter (·.due)).foldl (fun (s : State) q => s.respond q.box q.coach q.status q.result) s

/-- The answer of FW_HANDOVER (R434, R436). -/
def State.answerHandover (s : State) : State :=
  match s.findProg 0x0009 (fun _ => true) with
  | none => s
  | some q =>
    if s.boot.handStatus = Sc.ok then (s.count F.handovers).respond q.box q.coach Sc.ok (leBytes 4 (s.chip F.fwVersion))
    else (s.count F.handoverFail).respond q.box q.coach s.boot.handStatus

/-- The firmware is back after an MP-only reset (R434, step 7; R437, R500, R517, R539). -/
def State.mpReturns (s : State) : State :=
  let s := ((s.setChip F.mpDown 0).setChip F.handover 0).writeMpInfo
  let s : State := { s with boot := { s.boot with phase := 0 } }
  let s := s.seqResume.owedLogs.flushNotes
  (s.answerTimeouts.answerDue.answerHandover).ledgerTrigger

/-- The firmware is back after a chip warm reset (R480, steps 7 and 8): coaches are HALTED, the mailboxes that hold OWN are answered
TIMEOUT, with APPLIED as the tables show it for one that was in progress (R437), RESET_NOTE is sent, and the WARM_RESET record and
then the held ones are written. -/
def State.warmReturns (s : State) : State :=
  let t := s.log.noteTrigger
  let s : State := { s with log := { s.log with hold := false }, gs := { s.gs with held := false }, boot := { s.boot with warm := false } }
  let s := s.writeMpInfo.enterRom Rom.running
  let s := s.liveCoaches.foldl (fun s c => s.enterCoach c Cs.halted) s
  let boxes := ((List.range 9).filter s.owned) ++ s.ownedCoaches.map (16 + ·)
  let cut := s.boot.timeouts
  let s : State := { s with boot := { s.boot with timeouts := [] } }
  let s := boxes.foldl (fun (s : State) b =>
    let done := match cut.find? (fun q => q.box == b) with | some q => s.appliedNow q | none => 0
    (s.count F.mbTimeout).respondAs b (s.cmd b).coach Sc.timeout done 0 []) s
  let s := (s.tellHosts 0x0C02 t).flushNotes
  let r : LogRec := { cls := 0, sev := 0, cause := 0x8D, fw := true, all := true, time := s.gcount, detail := [Byte.ofNat t] }
  let s := ((s.count F.recRaised).logWrite r false).writeHeld
  (s.count F.warmResets).owedLogs.ledgerTrigger

/-- FIRMWARE_RESTORE_DONE (R434, R436, R437, R480): firmware that starts has read its tables back, or could not. -/
def execFirmwareRestoreDone (ok : Bool) (s : State) : Res :=
  .next (if s.boot.phase = 3 then
      if ok then s.mpReturns
      else if s.boot.kept then { s with boot := { s.boot with phase := 4 } }
      else (s.setChip F.bootStatusSlot (1 - s.chip F.bootStatusSlot)).keepImage Sc.badSignature
    else if s.rom = Rom.start ∧ s.boot.warm = true ∧ ok = true then s.warmReturns
    else s)

/-- MP_WATCHDOG (R435, R437, R513): the MP's own watchdog starts an MP-only reset with the kept image. -/
def execMpWatchdog (s : State) : Res :=
  .next (if s.rom ≠ Rom.running ∨ s.chip F.mpDown = 1 ∨ s.clocked = false ∨ s.scanned = true ∨ s.log.hold = true ∨ s.boot.phase ≠ 0 then s
    else
      let b := { s.boot with mpDownAt := s.gcount, phase := 2, kept := true, timeouts := s.inprog, quotes := [] }
      let s : State := { s with boot := b, inprog := [], gs := { s.gs with roleNext := none } }
      (s.setChip F.mpDown 1).raise { cls := 9, sev := 2, cause := (Config.uncodedCause 2).toNat, unit := 11 })

/-- MP_ABSENT_LIMIT (R435, R418, R480, R513): the MP has not returned within 250 ms, and the device takes a chip warm reset. -/
def execMpAbsentLimit (s : State) : Res :=
  .next (if s.rom ≠ Rom.running ∨ s.chip F.mpDown = 0 ∨ s.gcount < s.boot.mpDownAt + 250000000 ∨ s.log.hold = true
      ∨ s.clocked = false ∨ s.scanned = true then s
    else (s.warmTrigger 4).raise { cls := 9, sev := 3, cause := (Config.uncodedCause 3).toNat, unit := 11 })

end Sys2Proof.Machine
end

