-- ==== Sys2Proof/Machine/Spm.lean ====
section
/-!
DEFINITION. The scratchpads (11): addresses and reach (R275-R277), ownership (R279), correction and poison (R287), writes to
neighbours (R278); and how the work of an engine runs until it ends or meets a fault.
-/
namespace Sys2Proof.Machine

/-! ### Faults of a carriage -/

/-- A fault that ends a carriage: its cause, the capture registers that take it (address, word, and the width that a capture
replaces), and the word that its record carries. -/
structure Flt where
  cause : Nat
  caps : List (Nat × Nat × Nat) := []
  word : Nat := 0
  /-- Engine of a TE or XE. -/
  sub : Nat := 0
deriving DecidableEq, Repr

/-- The work of an engine: it goes on with a value or stops at a fault, in either case with what it has done so far. -/
abbrev Eng := EStateM Flt State

/-- Log class of a cause (R513, R514). -/
def causeClass (c : Nat) : Nat :=
  if (1 ≤ c ∧ c ≤ 5) ∨ (0x31 ≤ c ∧ c ≤ 0x33) then 3
  else match c with
    | 0x07 | 0x37 => 1
    | 0x08 | 0x38 => 2
    | 0x11 | 0x12 | 0x13 | 0x21 => 6
    | 0x16 | 0x24 | 0x36 | 0x43 | 0x52 | 0x53 => 7
    | 0x41 => 9
    | _ => 0

/-- Status of a carriage that a cause ends (R90, R115, R167, R196, R274, R291). -/
def causeStatus (c : Nat) : Nat :=
  if (1 ≤ c ∧ c ≤ 5) ∨ (0x31 ≤ c ∧ c ≤ 0x34) then Sc.integrity
  else match c with
    | 0x11 | 0x12 | 0x13 | 0x21 => Sc.integrity
    | 0x16 | 0x24 | 0x43 | 0x52 | 0x53 => Sc.poison
    | 0x41 => Sc.timeout
    | 0x51 | 0x55 => Sc.denied
    | _ => Sc.badArg

/-- UNIT of a cause's record (R512). -/
def causeUnit (c : Nat) : Nat :=
  if c < 0x10 then 1 else if c < 0x20 then 2 else if c < 0x30 then 4 else if c < 0x40 then 3 else if c < 0x50 then 5
  else if c = 0x53 ∨ c = 0x55 then 7 else 6

/-! ### Addresses (R275-R277) -/

/-- Bytes of an SPM (R275, R293). -/
def spmBytes : Nat := 3145728

/-- The key of a byte, and of a row, of a core's SPM. -/
def spmKey (p off : Nat) : Nat := 2 ^ 22 * p + off

/-- Bank, row and word of an offset (R275). -/
def spmBank (off : Nat) : Nat := 2 * (off / 196608) + off / 256 % 2
def spmRow (off : Nat) : Nat := off % 196608 / 512
def spmWord (off : Nat) : Nat := off % 256 / 8

/-- The offset of a row of a bank (R275). -/
def spmRowOffset (bank row : Nat) : Nat := 196608 * (bank / 2) + 512 * row + 256 * (bank % 2)

/-- Two physical cores are mesh neighbours (R12, R277). -/
def meshNeighbours (p q : Nat) : Bool :=
  (p / 12 == q / 12 && (p % 12 == q % 12 + 1 || q % 12 == p % 12 + 1))
    || (p % 12 == q % 12 && (p / 12 == q / 12 + 1 || q / 12 == p / 12 + 1))

/-- The core and offset that an SPM address of `len` bytes names from core `p`; none where it breaks R276 or R277. -/
def State.spmTarget (s : State) (p addr len : Nat) (nbrOk : Bool) : Option (Nat × Nat) :=
  let off := bits addr 0 22
  let l := bits addr 22 7
  if 2 ^ 30 ≤ addr ∨ spmBytes ≤ off ∨ spmBytes < off + len then none
  else if bit addr 29 = false then (if l = 0 then some (p, off) else none)
  else if nbrOk = false then none
  else match s.phys l with
    | some q => if meshNeighbours p q then some (q, off) else none
    | none => none

/-! ### Reads and writes (R279, R287) -/

/-- The word that SPM_ERR takes for a fault at an offset (R293). -/
def spmErrWord (cause off coach graph : Nat) : Nat :=
  captureWord cause [(F.spmErrBank, spmBank off), (F.spmErrRow, spmRow off), (F.spmErrWord, spmWord off),
    (F.spmErrCoach, coach), (F.spmErrGraph, graph)]

/-- A fault that SPM_ERR captures. -/
def spmFlt (p cause off coach graph : Nat) : Flt :=
  let w := spmErrWord cause off coach graph
  { cause := cause, caps := [(spmB p + 0x10, w, 64)], word := w }

/-- The rows that `n` bytes from `off` touch. -/
def spmRows (off n : Nat) : List Nat := if n = 0 then [] else upFrom (off / 256) ((off + n - 1) / 256 - off / 256 + 1)

/-- A port of core `p` reads `n` bytes for a carriage of a coach (R279, R287): a row of another coach or a poisoned word ends
the carriage. -/
def spmRead (p coach graph off n : Nat) : Eng (List Byte) := do
  let s ← get
  match (spmRows off n).find? fun r => SMap.look 0 s.spm.owner (spmKey p r) != 0
      && SMap.look 0 s.spm.owner (spmKey p r) != coach + 1 with
  | some r =>
    set (s.bump (spmB p) F.spmOwnerDeny)
    throw (spmFlt p 0x55 (max off (256 * r)) coach graph)
  | none =>
    match s.spm.poison.find? fun a => spmKey p (off / 8 * 8) ≤ a && a < spmKey p (off + n) with
    | some a =>
      set (s.bump (spmB p) F.spmEccUncorr)
      throw (spmFlt p 0x53 (a - spmKey p 0) coach graph)
    | none => pure (Memory.read s.spm.bytes (spmKey p off) n)

/-- A read whose poisoned word ends the carriage with a cause of the reader's own (R310). -/
def spmReadAs (p coach graph off n : Nat) (poison : Flt) : Eng (List Byte) := fun s =>
  match spmRead p coach graph off n s with
  | .error f t => .error (if f.cause = 0x53 then poison else f) t
  | r => r

/-- Mark words poisoned (R310): `offs` are byte offsets from `off`. -/
def State.spmPoison (s : State) (p off : Nat) (offs : List Nat) : State :=
  { s with spm := { s.spm with poison := offs.foldl (fun l o => insertNat (spmKey p ((off + o) / 8 * 8)) l) s.spm.poison } }

/-- Write the part of `data` that lies in row `r`, for coach `c` (R279): the row passes to the coach, and a row of another one
is zero but for the words written. -/
def State.spmWriteRow (s : State) (p c off : Nat) (data : List Byte) (r : Nat) : State :=
  let lo := max off (256 * r)
  let part := ((data.drop (lo - off)).take (256 * r + 256 - lo))
  let own := SMap.look 0 s.spm.owner (spmKey p r)
  let foreign := own ≠ 0 ∧ own ≠ c + 1
  let a := spmKey p (256 * r)
  let bytes := if foreign then SMap.dropRange s.spm.bytes a (a + 256) else s.spm.bytes
  let gone (w : Nat) : Bool := if foreign then a ≤ w && w < a + 256
    else spmKey p (lo / 8 * 8) ≤ w && w < spmKey p (lo + part.length)
  let spm : Spm := { bytes := Memory.write bytes (spmKey p lo) part, owner := SMap.put 0 s.spm.owner (spmKey p r) (c + 1)
                     poison := s.spm.poison.filter fun w => !gone w }
  let s := { s with spm := spm }
  if foreign then s.bump (spmB p) F.spmOwnerChanges else s

/-- Write bytes into the SPM of core `p` for a coach. -/
def State.spmWrite (s : State) (p c off : Nat) (data : List Byte) : State :=
  (spmRows off data.length).foldl (fun s r => s.spmWriteRow p c off data r) s

/-- An error in a word of the SPM that a read of the work meets (R287): with a double-bit error the word counts as poisoned
until it is written, a single-bit error is corrected. -/
def State.spmEcc (s : State) (p : Nat) (f : EngFind) : State :=
  if f.ecc = 1 ∧ f.eccAt < spmBytes then
    { s with spm := { s.spm with poison := insertNat (spmKey p (f.eccAt / 8 * 8)) s.spm.poison } }
  else if f.ecc = 2 then s.bump (spmB p) F.spmEccCorr else s

/-! ### FP32 panels in the SPM (DESIGN CHOICE, log entry 8) -/

/-- Offset, within a panel operand over `P` rows, of column `j` of row `i`. -/
def panelAt (P i j : Nat) : Nat := 1024 * (P * (j / 256) + i) + 4 * (j % 256)

/-- Bytes that a panel operand of `n` columns over `P` rows takes. -/
def panelBytes (P n : Nat) : Nat := 1024 * P * ((n + 255) / 256)

/-- FP32 values as bytes, and back. -/
def f32Bytes (l : List F32) : List Byte := l.flatMap fun x => leBytes 4 x.toNat
def f32s (l : List Byte) : List F32 := (List.range (l.length / 4)).map fun i => BitVec.ofNat 32 (fieldLE l (4 * i) 4)

/-- BF16 values as bytes, and back. -/
def bfBytes (l : List BF) : List Byte := l.flatMap fun x => leBytes 2 x.toNat
def bfs (l : List Byte) : List BF := (List.range (l.length / 2)).map fun i => BitVec.ofNat 16 (fieldLE l (2 * i) 2)

/-- Read `n` columns of row `i` of a panel operand at `off`. -/
def panelRead (p coach graph off P i n : Nat) : Eng (List F32) := do
  let l ← (List.range ((n + 255) / 256)).mapM fun k =>
    spmRead p coach graph (off + panelAt P i (256 * k)) (4 * min 256 (n - 256 * k))
  pure (f32s l.flatten)

end Sys2Proof.Machine
end

