-- ==== Sys2Proof/Machine/Validate.lean ====
section
/-!
DEFINITION. What the firmware checks before it takes an image: decode tables (R97), layer descriptors and graph images (R267),
overlay descriptors (R152-R155, R164). A check answers the failing status, or what it has read.
-/
namespace Sys2Proof.Machine

/-- A read of a coach's memory by the firmware: BAD_ARG where a byte lies outside the mappings, POISON where a line answers
so (R146, R267). -/
def State.fwRead (s : State) (c a n : Nat) : Except Nat (List Byte) :=
  match s.coachRead Blk.mp c a n with
  | none => .error Sc.badArg
  | some l => if s.coachPoisoned Blk.mp c a n then .error Sc.poison else .ok l

/-- A check: the status is answered where the condition fails. -/
def require (ok : Bool) (status : Nat) : Except Nat Unit := if ok then .ok () else .error status

/-- A list in strictly rising order. -/
def rising : List Nat → Bool
  | a :: b :: r => a < b && rising (b :: r)
  | _ => true

/-- A list without repeats. -/
def distinct {α : Type} [BEq α] : List α → Bool
  | [] => true
  | a :: r => !r.contains a && distinct r

/-! ### Decode tables (R97) -/

/-- The code length of each of the ten symbols (R97). -/
def tableLens (img : List Byte) : List Nat := (List.range 10).map fun k => bits (fieldLE img (k / 2) 1) (4 * (k % 2)) 4

/-- An image is valid: some length is non-zero, and the lengths satisfy the Kraft sum (R97). -/
def tableOk (img : List Byte) : Bool :=
  let ls := (tableLens img).filter (· != 0)
  ls != [] && decide (ls.foldl (fun a n => a + 2 ^ (15 - n)) 0 ≤ 2 ^ 15)

/-! ### Precision fields and layer descriptors (R121, R122, R134, R177, R267) -/

def Pr.fmt (p : List Byte) : Nat := bits (fieldLE p 0 1) 0 2
def Pr.dyn (p : List Byte) : Bool := bit (fieldLE p 0 1) 2
def Pr.ofsCal (p : List Byte) : Nat := bits (fieldLE p 0 1) 3 3
def Pr.outl (p : List Byte) : Bool := bit (fieldLE p 0 1) 6
def Pr.el (p : List Byte) : Int := signed 8 (fieldLE p 1 1)
def Pr.zthr (p : List Byte) : Nat := bits (fieldLE p 2 2) 0 10
def Pr.sthr (p : List Byte) : Nat := bits (fieldLE p 4 2) 0 10
def Pr.npin (p : List Byte) : Nat := bits (fieldLE p 6 1) 0 7
def Pr.kzthr (p : List Byte) : Nat := bits (fieldLE p 7 1) 0 6
def Pr.pinPtr (p : List Byte) : Nat := bits (fieldLE p 8 8) 0 48

/-- The base exponent keeps R36. -/
def Pr.elOk (p : List Byte) : Bool := decide (-120 ≤ Pr.el p ∧ Pr.el p ≤ 120)

/-- The channel indexes of a pin list (R122). -/
def pinsOf (l : List Byte) : List Nat := (List.range (l.length / 4)).map fun i => bits (fieldLE l (4 * i) 4) 0 26

/-- The precision field of a layer keeps R36 and R122; its pin list is read. -/
def State.precCheck (s : State) (owner : Nat) (l : List Byte) : Except Nat Unit := do
  let p := Ld.prec l
  require (Pr.elOk p && Pr.fmt p != 0 && Pr.npin p ≤ 64) Sc.badArg
  if Pr.npin p = 0 then .ok ()
  else
    require (Pr.pinPtr p % 4 == 0) Sc.badArg
    let b ← s.fwRead owner (Pr.pinPtr p) (4 * Pr.npin p)
    require (rising (pinsOf b) && (pinsOf b).all fun k => k < 640 * Ld.nkstep l) Sc.badArg

/-- The pin list of a layer as the GS reads it (R122). -/
def State.pinList (s : State) (owner : Nat) (l : List Byte) : List Nat :=
  let p := Ld.prec l
  match s.fwRead owner (Pr.pinPtr p) (4 * Pr.npin p) with
  | .ok b => pinsOf b
  | .error _ => []

/-- Least slot stride of a layer (R134). -/
def strideMin (p : List Byte) : Nat := if Pr.fmt p = 1 ∧ Pr.outl p = false then 384 else 704

/-- The attention field keeps R177, its stream ids aside. -/
def State.attnOk (s : State) (l : List Byte) : Bool :=
  At.nkv l != 0 && At.nkv l ≤ 256 && (At.chunk64 l == 0 || (4 ≤ At.chunk64 l && At.chunk64 l ≤ 64))
    && At.apart l != 0 && At.apart l ≤ s.nCores && (!At.rope l || At.freqPtr l % 4 == 0)

/-- The layer checks of R267, for layer number `idx` of a graph of coach `owner`. -/
def State.layerCheck (s : State) (owner idx : Nat) (l : List Byte) : Except Nat Unit := do
  require (Ld.nkstep l != 0) Sc.badArg
  s.precCheck owner l
  require (strideMin (Ld.prec l) ≤ Ld.astride l) Sc.badArg
  require (!Ld.attn l || s.attnOk l) Sc.badArg
  require (!Ld.pred l || (Pd.nblk l != 0 && !Ld.attn l)) Sc.badArg
  require (idx != 0 || !Ld.host l) Sc.badArg

/-- The pin list of a layer answers POISON (R122): this check comes ahead of the others (R267). -/
def State.pinPoison (s : State) (owner : Nat) (l : List Byte) : Bool :=
  let p := Ld.prec l
  Pr.npin p != 0 && Pr.npin p ≤ 64 && Pr.pinPtr p % 4 == 0
    && s.xlateOk Blk.mp owner (Pr.pinPtr p) (4 * Pr.npin p) false
    && s.coachPoisoned Blk.mp owner (Pr.pinPtr p) (4 * Pr.npin p)

/-- Stream ids that layer descriptors declare (R53). -/
def streamsIn (ls : List (List Byte)) : List Nat := (ls.filter Ld.attn).flatMap fun l => [At.kstream l, At.vstream l]

/-- Stream ids that a graph declares in its active and staged copies, layer `skip` of graph `gid` set aside (R53). -/
def Graph.declared (g : Graph) (skip : Option Nat) : List Nat :=
  streamsIn ((g.layers.zipIdx.filter fun e => some e.2 != skip).map (·.1))
    ++ streamsIn ((g.staged.filter fun e => some e.1 != skip).map (·.2))

/-- New declarations keep R53 within their coach. -/
def State.streamsOk (s : State) (owner gid : Nat) (skip : Option Nat) (ls : List (List Byte)) : Bool :=
  let new := streamsIn ls
  let old := s.graphs.flatMap fun e => match e.2 with
    | some g => if g.coach = owner then g.declared (if e.1 = gid then skip else none) else []
    | none => []
  new.all (fun i => i < 2 ^ 31) && distinct new && new.all fun i => !old.contains i

/-! ### Carriages (R254-R258, R267) -/

/-- KIND and VOP are valid, LAYER and LCORE are within the graph. -/
def kindOk (nlayer pcount : Nat) (c : List Byte) : Bool :=
  [Kd.dense, Kd.delta, Kd.adapter, Kd.pred, Kd.vu, Kd.attn, Kd.merge, Kd.copy, Kd.wstage, Kd.embed, Kd.push,
    Kd.nop].contains (Ca.kind c)
    && (Ca.kind c != Kd.vu || (1 ≤ Ca.param c % 256 && Ca.param c % 256 ≤ 10))
    && Ca.layer c < nlayer && Ca.lcore c < pcount

/-- The bounds of R68 and R256: the limit of two row groups for several tiles binds TE_DENSE (DEDUCED, log entry 27). -/
def windowOk (c : List Byte) : Bool :=
  Ca.gfirst c + Ca.ngroup c ≤ 32
    && (!Ca.isTe c || (1 ≤ Ca.ntile c && Ca.ntile c ≤ 1024 && Ca.ngroup c != 0))
    && (Ca.kind c != Kd.dense || Ca.ntile c ≤ 1 || Ca.ngroup c ≤ 2)

/-- The out-coupling list of a carriage lies within the image; its consumers. -/
def outList (img : List Byte) (c : List Byte) : Option (List Nat) :=
  if Ca.nout c = 0 then some []
  else if Ca.outofs c % 4 = 0 ∧ Ca.outofs c + 4 * Ca.nout c ≤ img.length then
    some ((List.range (Ca.nout c)).map fun k => fieldLE img (Ca.outofs c + 4 * k) 2)
  else none

/-- The couplings name later carriages, none twice, and NIN counts them. -/
def couplingsOk (carrs : List (List Byte)) (outs : List (List Nat)) : Bool :=
  let n := carrs.length
  (outs.zipIdx.all fun e => distinct e.1 && e.1.all fun j => e.2 < j && j < n)
    && carrs.zipIdx.all fun e => Ca.nin e.1 == (outs.filter fun l => l.contains e.2).length

/-- NEXT of one member of a chain names position POS + 1 (R253, R264). -/
def nextOk (ms : List (List Byte)) (c : List Byte) : Bool :=
  Ca.pos c == Ca.lenm1 c ||
    match ms.find? (fun d => Ca.pos d == Ca.pos c + 1) with
    | some d => !Ca.remote c && Ca.nextCore c == Ca.lcore d && Ca.nextTe c == Ca.te d
    | none => Ca.remote c

/-- Every core that runs base carriages of the chain runs one delta carriage, just before its first of them, where the layer
enables overlays; none stands in another layer (R161). -/
def deltaOk (ovl : Bool) (ms : List (List Byte)) : Bool :=
  let deltas := ms.filter fun c => Ca.kind c == Kd.delta
  let base := ms.filter fun c => Ca.kind c == Kd.dense
  if ovl then
    let cores := (base.map Ca.lcore).eraseDups
    deltas.length == cores.length && cores.all fun k =>
      let first := (base.filter fun c => Ca.lcore c == k).foldl (fun a c => min a (Ca.pos c)) 255
      deltas.any fun d => Ca.lcore d == k && Ca.pos d + 1 == first
  else deltas == []

/-- The local members of one chain keep R253, R264, R161 and the chain checks of R267. -/
def chainOk (linked : Bool) (layers : List (List Byte)) (ms : List (List Byte)) : Bool :=
  let h := ms.headD []
  distinct (ms.map Ca.pos) && (ms.all fun c => Ca.pos c ≤ Ca.lenm1 c && nextOk ms c)
    && (ms.all fun c => Ca.layer c == Ca.layer h && Ca.gfirst c == Ca.gfirst h && Ca.ngroup c == Ca.ngroup h
          && Ca.lenm1 c == Ca.lenm1 h)
    && distinct (ms.map fun c => 4 * Ca.lcore c + Ca.te c)
    && (if linked then ms.length ≤ Ca.lenm1 h + 1 else ms.length == Ca.lenm1 h + 1)
    && deltaOk (Ld.ovlEn (layers.getD (Ca.layer h) [])) ms

/-- The members of one MID: one LE_MERGE, APART LE_ATTN, one attention layer (R181, R267). -/
def midOk (layers : List (List Byte)) (ms : List (List Byte)) : Bool :=
  let l := layers.getD (Ca.layer (ms.headD [])) []
  (ms.filter fun c => Ca.kind c == Kd.merge).length == 1 && (ms.all fun c => Ca.layer c == Ca.layer (ms.headD []))
    && Ld.attn l && (ms.filter fun c => Ca.kind c == Kd.attn).length == At.apart l

/-- Carriages grouped by CHAIN or MID. -/
def groupsOf (cs : List (List Byte)) : List (List (List Byte)) :=
  ((cs.map Ca.chain).eraseDups).map fun k => cs.filter fun c => Ca.chain c == k

/-! ### Graph images (R249, R267) -/

/-- The header of a graph image (R249). -/
structure GHead where
  graph : Nat
  coach : Nat
  nlayer : Nat
  ncarr : Nat
  ncoup : Nat
  pbase : Nat
  pcount : Nat
  linked : Bool
  dModel : Nat
  ldofs : Nat
  caofs : Nat
deriving DecidableEq, Repr

/-- Read a header. -/
def GHead.of (b : List Byte) : GHead :=
  { graph := fieldLE b 0 2, coach := bits (fieldLE b 2 2) 0 12, nlayer := bits (fieldLE b 4 2) 0 13
    ncarr := bits (fieldLE b 8 4) 0 17, ncoup := bits (fieldLE b 12 4) 0 21, pbase := bits (fieldLE b 16 1) 0 7
    pcount := fieldLE b 17 1, linked := bit (fieldLE b 18 1) 0, dModel := bits (fieldLE b 20 4) 0 18
    ldofs := fieldLE b 24 4, caofs := fieldLE b 28 4 }

/-- The header keeps R249 and R264, and the parts it places lie within `len` bytes. -/
def State.headOk (s : State) (h : GHead) (len : Nat) : Bool :=
  1 ≤ h.nlayer && h.nlayer ≤ 4096 && 1 ≤ h.ncarr && h.ncarr ≤ 65536 && h.ncoup ≤ 1048576
    && 1 ≤ h.pcount && h.pcount ≤ 128 && h.pbase + h.pcount ≤ s.nCores
    && h.dModel % 640 == 0 && 640 ≤ h.dModel && h.dModel ≤ 40960
    && h.ldofs % 128 == 0 && h.caofs % 128 == 0 && 64 ≤ len
    && h.ldofs + 128 * h.nlayer ≤ len && h.caofs + 128 * h.ncarr ≤ len
    && s.coachState h.coach != Cs.vacant

/-- The 128-byte descriptors at an offset of an image. -/
def recordsAt (img : List Byte) (ofs n : Nat) : List (List Byte) :=
  (List.range n).map fun i => (img.drop (ofs + 128 * i)).take 128

/-- Bytes of the graph store in use: each copy with its arming words (R250). -/
def State.storeUsed (s : State) : Nat :=
  s.graphs.foldl (fun a e => match e.2 with | some g => a + g.size | none => a) 0

/-- Where the copy of a graph of `size` bytes goes in the graph store: the lowest place, at the start or behind a copy, where it
lies apart from every copy (DESIGN CHOICE, log entry 97). -/
def State.storePlace (s : State) (size : Nat) : Nat :=
  let held := s.graphs.filterMap fun e => e.2.map fun g => (g.base, (g.size + 127) / 128 * 128)
  let free (a : Nat) : Bool := held.all fun h => a + size ≤ h.1 || h.1 + h.2 ≤ a
  let ends := sortBy (fun a b => decide (a ≤ b)) (held.map fun h => h.1 + h.2)
  ((0 :: ends).find? free).getD 0

/-- A graph on this partition would raise the reserved dispatch credits of some core above 24 (R342). -/
def State.partOver (s : State) (owner pbase pcount : Nat) : Bool :=
  (upFrom pbase pcount).any fun l =>
    s.resDisp l owner == 0 && decide (24 < (s.liveCoaches.filter (· != owner)).foldl (fun a d => a + s.resDisp l d)
      (s.get (coachB owner) F.coachResDisp))

/-- Validate a graph image of `len` bytes at `a` in the address space of coach `by_`, for a caller that is an admin or that
coach (R248, R267): the id and the parsed graph, with the bytes read. -/
def State.graphImage (s : State) (admin : Bool) (by_ a len : Nat) : Except Nat (Nat × Graph × List Byte) := do
  let hd ← s.fwRead by_ a (min 64 len)
  let h := GHead.of hd
  require (admin || h.coach == by_) Sc.denied
  let img ← s.fwRead by_ a len
  let layers := recordsAt img h.ldofs h.nlayer
  require (!(s.headOk h len && layers.any (s.pinPoison h.coach))) Sc.poison
  require (h.graph ≤ 4095) Sc.badArg
  require (s.graph h.graph).isNone Sc.inUse
  require (s.headOk h len) Sc.badArg
  let carrs := recordsAt img h.caofs h.ncarr
  require (carrs.foldl (fun n c => n + Ca.nout c) 0 == h.ncoup) Sc.badArg
  layers.zipIdx.forM fun e => s.layerCheck h.coach e.2 e.1
  require (s.streamsOk h.coach h.graph none layers) Sc.badArg
  require (carrs.all (kindOk h.nlayer h.pcount)) Sc.badArg
  require (carrs.all windowOk) Sc.badArg
  require (carrs.all fun c => (outList img c).isSome) Sc.badArg
  let outs := carrs.map fun c => (outList img c).getD []
  require (couplingsOk carrs outs) Sc.badArg
  require ((groupsOf (carrs.filter Ca.inChain)).all (chainOk h.linked layers)) Sc.badArg
  require (h.linked || carrs.all fun c => !Ca.remote c) Sc.badArg
  require ((groupsOf (carrs.filter Ca.isLe)).all (midOk layers)) Sc.badArg
  let size := len + 8 * h.ncarr
  require (s.storeUsed + size ≤ s.chip F.storeMib * 2 ^ 20 && !s.partOver h.coach h.pbase h.pcount) Sc.noResource
  let g : Graph := { coach := h.coach, pbase := h.pbase, pcount := h.pcount, linked := h.linked, dModel := h.dModel
                     layers := layers, carrs := carrs, outs := outs, size := size, base := s.storePlace size, ldofs := h.ldofs
                     pins := layers.zipIdx.foldl (fun m e => SMap.put [] m e.2 (s.pinList h.coach e.1)) [] }
  .ok (h.graph, g, img)

/-! ### Overlay descriptors (R152-R155, R164) -/

/-- The base tiles of a layer: those that its TE_DENSE carriages name (DEDUCED, log entry 28). -/
def Graph.baseTiles (g : Graph) (layer : Nat) : List Nat :=
  ((g.carrs.filter fun c => Ca.kind c == Kd.dense && Ca.layer c == layer).flatMap fun c =>
    upFrom (Ca.tile0 c) (Ca.ntile c)).eraseDups

/-- Fields of a tile directory entry (R154). -/
def Td.nnz (e : List Byte) : Nat := bits (fieldLE e 0 4) 0 18
def Td.dense (e : List Byte) : Bool := bit (fieldLE e 0 4) 31
def Td.ncart (e : List Byte) : Nat := fieldLE e 4 2
def Td.ptr (e : List Byte) : Nat := bits (fieldLE e 8 8) 0 48

/-- A tile directory entry is valid (R154). -/
def tileEntryOk (e : List Byte) : Bool :=
  let n := Td.nnz e
  n ≤ 163840 &&
    if n = 0 then !Td.dense e && Td.ncart e == 0
    else if Td.dense e then Td.ncart e == 0
    else n ≤ 40960 && (n + 63) / 64 ≤ Td.ncart e && Td.ncart e ≤ n && Td.ptr e % 256 == 0

/-- Fields of an adapter descriptor (R164). -/
def Ad.rank (d : List Byte) : Nat := 32 * bits (fieldLE d 0 1) 0 4
def Ad.downBlk (d : List Byte) : Nat := bits (fieldLE d 8 8) 0 48
def Ad.downIdx (d : List Byte) : Nat := bits (fieldLE d 16 8) 0 48
def Ad.upBlk (d : List Byte) : Nat := bits (fieldLE d 24 8) 0 48
def Ad.upIdx (d : List Byte) : Nat := bits (fieldLE d 32 8) 0 48
def Ad.downScl (d : List Byte) : Nat := bits (fieldLE d 40 8) 0 48
def Ad.upScl (d : List Byte) : Nat := bits (fieldLE d 48 8) 0 48
def Ad.precD (d : List Byte) : List Byte := (d.drop 64).take 16
def Ad.precU (d : List Byte) : List Byte := (d.drop 80).take 16

/-- An adapter descriptor is valid (R164); an UP_SCL at an odd offset is not (DESIGN CHOICE, log entry 104). -/
def adapterOk (d : List Byte) : Bool :=
  let pr (p : List Byte) : Bool := Pr.fmt p == 3 && Pr.npin p == 0 && Pr.elOk p
  1 ≤ Ad.rank d / 32 && Ad.rank d / 32 ≤ 8 && Ad.downBlk d % 4096 == 0 && Ad.upBlk d % 4096 == 0
    && Ad.downIdx d % 16 == 0 && Ad.upIdx d % 16 == 0 && Ad.downScl d % 2 == 0 && Ad.upScl d % 2 == 0
    && pr (Ad.precD d) && pr (Ad.precU d)

/-- Fields of a layer record (R153). -/
def Lr.layer (r : List Byte) : Nat := fieldLE r 0 2
def Lr.delta (r : List Byte) : Bool := bit (fieldLE r 2 1) 0
def Lr.adapt (r : List Byte) : Bool := bit (fieldLE r 2 1) 1
def Lr.tdir (r : List Byte) : Nat := bits (fieldLE r 8 8) 0 48
def Lr.adpt (r : List Byte) : Nat := bits (fieldLE r 16 8) 0 48

/-- A layer record of an overlay on graph `g` is valid; its tile directory and adapter descriptor are read (R153-R155,
R164). -/
def State.layerRecord (s : State) (c : Nat) (g : Graph) (r : List Byte) : Except Nat Unit := do
  require (Lr.delta r || Lr.adapt r) Sc.badArg
  require (Lr.layer r < g.layers.length && Ld.ovlEn (g.layers.getD (Lr.layer r) [])) Sc.badArg
  if Lr.delta r then
    require (Lr.tdir r % 16 == 0) Sc.badArg
    (g.baseTiles (Lr.layer r)).forM fun u => do
      let e ← s.fwRead c (Lr.tdir r + 16 * u) 16
      require (tileEntryOk e) Sc.badArg
  if Lr.adapt r then
    require (Lr.adpt r % 128 == 0) Sc.badArg
    let d ← s.fwRead c (Lr.adpt r) 128
    require (adapterOk d) Sc.badArg

/-- Validate an overlay descriptor at `a` (R146, R152): its graph, and its bytes with the layer records. -/
def State.overlayImage (s : State) (c a : Nat) : Except Nat (Nat × List Byte) := do
  require (a % 256 == 0) Sc.badArg
  let h ← s.fwRead c a 32
  let n := bits (fieldLE h 0 2) 0 9
  require (1 ≤ n && n ≤ 256) Sc.badArg
  let gid := fieldLE h 2 2
  let all ← s.fwRead c a (32 + 32 * n)
  let recs := (List.range n).map fun i => (all.drop (32 + 32 * i)).take 32
  require (rising (recs.map Lr.layer)) Sc.badArg
  match s.graph gid with
  | none => .error Sc.badArg
  | some g =>
    recs.forM fun r => s.layerRecord c g r
    .ok (gid, all)

end Sys2Proof.Machine
end

