-- ==== Sys2Proof/Machine/Carriage.lean ====
section
/-!
DEFINITION. Carriages at a task dispatcher (10): their rows and masks (R239, R256, R261), their end with a completion record
(R262), their faults (R274, R291, R402), and how their work runs.
-/
namespace Sys2Proof.Machine

/-! ### Carriages held -/

/-- A carriage held by the TD of core `p`. -/
def State.item (s : State) (p i : Nat) : Option TdItem := (s.core p).td[i]?

/-- Change a carriage held. -/
def State.modItem (s : State) (p i : Nat) (f : TdItem → TdItem) : State := s.modCore p fun c => { c with td := modifyAt c.td i f }

/-- Change an engine of a core. -/
def State.modTe (s : State) (p e : Nat) (f : Te → Te) : State := s.modCore p fun c => { c with te := modifyAt c.te e f }

/-- An engine of a core, and an expander. -/
def State.te (s : State) (p e : Nat) : Te := (s.core p).te.getD e {}
def State.xe (s : State) (p e : Nat) : Xe := (s.core p).xe.getD e {}

/-- Change an expander. -/
def State.modXe (s : State) (p e : Nat) (f : Xe → Xe) : State := s.modCore p fun c => { c with xe := modifyAt c.xe e f }

/-- Logical core of a core that holds carriages. -/
def State.logical (s : State) (p : Nat) : Nat := s.get (pcoreB p) F.pcoreLogical

/-! ### Rows (R256, R239, R67) -/

/-- Manifest numbers of the rows in a carriage's window. -/
def TdItem.rows (t : TdItem) : List Nat :=
  let w := window t.carr t.nrow
  upFrom (t.row0 + w.1) w.2

/-- Rows in its window. -/
def TdItem.n (t : TdItem) : Nat := (window t.carr t.nrow).2

/-- Rows that its operand layouts leave room for (log entry 8). -/
def TdItem.P (t : TdItem) : Nat := 64 * Ca.ngroup t.carr

/-- A row of the manifest. -/
def State.row (s : State) (m : Nat) : Row := s.gs.rows.getD m { slot := 0, graph := 0, coach := 0, pos := 0, gen := 0, idx := 0, ntok := 0, last := false, decode := false, masked := true }

/-- A row is masked at a layer: in the chip's row mask, or run again from a later layer (R67, R234, R239). -/
def State.rowOff (s : State) (m layer : Nat) : Bool :=
  (s.row m).masked || ((s.row m).resume != 0 && layer ≤ (s.row m).resume)

/-- The place in the window of a row that a carriage may work on. -/
def State.itemRowOff (s : State) (t : TdItem) (i : Nat) : Bool :=
  s.rowOff (t.row0 + 64 * Ca.gfirst t.carr + i) (Ca.layer t.carr)

/-- The masks that a carriage finds at its issue more than 20 µs after they were registered count once each and are logged
(R239). -/
def State.lateMasks (s : State) (t : TdItem) : State :=
  t.rows.foldl (fun s m =>
    let r := s.row m
    let at_ := SMap.look 0 s.sb.regAt r.slot
    if r.masked = true ∧ r.late = false ∧ SMap.look 0 s.sb.reg r.slot % 4 ≠ 0 ∧ at_ ≠ 0 ∧ at_ + 20000 < s.gcount + 1 then
      let s := s.mapRows fun k x => if k = m then { x with late := true } else x
      (s.count F.maskLate).raise { cls := 0, sev := 0, cause := 0x86, coach := some r.coach
                                   detail := leBytes 2 r.slot ++ [0, 0] ++ leBytes 4 (s.gcount + 1 - at_) }
    else s) s

/-! ### The end of a carriage (R262, R72, R84, R114) -/

/-- The number of an engine among those of the device. -/
def engineNo (p e : Nat) : Nat := 4 * p + e

/-- The credit of a cart in an engine's receive buffer returns to its sender (R19, R78, R265, R370). -/
def State.cartBack (s : State) (p e : Nat) (c : Cart) : State :=
  if c.src = 0 then
    let coach := ((s.graph c.graph).map (·.coach)).getD c.coach
    s.send { mtype := 0x23, vc := 6, dst := c.node, coach := coach, addr := c.chain + 65536, arg := c.pass }
  else s.qLeave (Qk.drawbar (c.src - 1) (engineNo p e))

/-- Take carts out of an engine's receive buffers; their credits return (R84, R499). -/
def State.dropCarts (s : State) (p e : Nat) (gone : Cart → Bool) : State :=
  let out := (s.te p e).link.filter gone
  let s := s.modTe p e fun t => { t with link := t.link.filter fun c => !gone c }
  out.foldl (fun s c => s.cartBack p e c) s

/-- The engine at the next position of a chain, where it is on this device. -/
def State.nextEngine (s : State) (t : TdItem) : Option (Nat × Nat) :=
  if Ca.remote t.carr then none else (s.phys (t.pbase + Ca.nextCore t.carr)).map fun q => (q, Ca.nextTe t.carr)

/-- What the engines of a core hold for a carriage is dropped: sets become FREE, tiles and blocks go, descriptors not yet
issued are discarded (R72, R84, R114). -/
def State.stopEngines (s : State) (p : Nat) (t : TdItem) : State :=
  let k := t.key + 1
  let s := s.releaseBlocks ((s.core p).xe.flatMap fun x => if x.carr = k then x.blocks else [])
  let s := (List.range 4).foldl (fun s e => if (s.te p e).shadow.any fun y => y.carr == k then s.qLeave (Qk.tile p e) else s) s
  let free (a : AccSet) : AccSet := if a.carr = k then {} else a
  let keep (x : Option Tile) : Option Tile := x.filter fun y => y.carr != k
  let te (x : Te) : Te := { x with active := keep x.active, shadow := keep x.shadow, setA := free x.setA, setB := free x.setB }
  s.modCore p fun c =>
    { c with
      te := c.te.map te
      xe := c.xe.map fun (x : Xe) => if x.carr = k then {} else x
      dmaQ := c.dmaQ.filter fun d => !(d.graph == t.graph && d.index == t.index)
      ge := c.ge.filter fun g => g.carr != k }

/-- The carts of a carriage's chain leave the buffers of the links into and out of its engine (R84). -/
def State.stopLinks (s : State) (p : Nat) (t : TdItem) : State :=
  if Ca.inChain t.carr then
    let e := Ca.te t.carr
    let s := s.dropCarts p e fun c => c.graph == t.graph && c.chain == Ca.chain t.carr
    match s.nextEngine t with
    | some (q, f) => s.dropCarts q f fun c => c.graph == t.graph && c.chain == Ca.chain t.carr && c.src == 4 * p + e + 1
    | none => s
  else s

/-- Take a carriage out of the TD, with the merge state that no carriage of the core needs any more. -/
def State.removeItem (s : State) (p i : Nat) : State :=
  s.modCore p fun c =>
    let td := dropAt c.td i
    let merges := c.merges.filter fun m => td.any fun t => Ca.isLe t.carr && t.graph == m.graph && Ca.chain t.carr == m.mid
    { c with td := td, merges := merges, emptyAt := if td = [] then s.gcount else c.emptyAt }

/-- The completion record of a carriage (R262). -/
def State.complOf (s : State) (p : Nat) (t : TdItem) (status cause : Nat) : Compl :=
  { graph := t.graph, index := t.index, step := t.step, status := status, flags := t.flags, cause := cause, attempt := t.attempt
    start := t.start - 1, fin := s.gcount, core := p }

/-- A core sends a completion record, or holds it until a credit is there (R18). -/
def State.queueCompl (s : State) (p : Nat) (x : Compl × Nat) : State :=
  if (s.core p).complWait = [] ∧ s.qRoom (Qk.completion p) = true then s.sendCompl p x
  else s.modCore p fun c => { c with complWait := c.complWait ++ [x] }

/-- A carriage leaves the TD, and its completion record leaves for the GS (R262); the rows in which it met an infinity or a NaN
are masked from here on (R133). -/
def State.retireItem (s : State) (p i : Nat) (t : TdItem) (status cause : Nat) : State :=
  let s := if t.bad = [] then s else s.maskRows t.bad Sc.badArg
  (s.queueCompl p (s.complOf p t status cause, t.credit)).removeItem p i

/-- A carriage ends with a status before its work is done: its engines stop, and its completion record leaves (R84, R262). -/
def State.endItem (s : State) (p i status cause : Nat) : State :=
  match s.item p i with
  | none => s
  | some t => ((s.stopEngines p t).stopLinks p t).retireItem p i t status cause

/-- The physical core charged with a residue fault (R402): the detecting one, for cause 0x03 the sender's where it is on the
device, and for 0x05 and 0x33 none. -/
def chargedCore (p cause sender : Nat) : Option Nat :=
  if cause = 0x03 then (if sender = 0 then none else some ((sender - 1) / 4))
  else if cause = 0x05 ∨ cause = 0x33 then none else some p

/-- A carriage meets a fault: the capture registers take it, it is logged and, for a residue fault, charged, and the carriage
ends (R83, R90, R115, R167, R196, R274, R291, R402). `sender` is the link of a faulty cart. -/
def State.faultItem (s : State) (p i : Nat) (f : Flt) (sender : Nat := 0) : State :=
  match s.item p i with
  | none => s
  | some t =>
    let s := f.caps.foldl (fun (s : State) (c : Nat × Nat × Nat) => s.capture c.1 c.2.1 c.2.2) s
    let s := s.raise { cls := causeClass f.cause, sev := 1, cause := f.cause, unit := causeUnit f.cause, sub := f.sub, inst := p
                       coach := some t.coach, graph := t.graph, index := t.index, attempt := t.attempt
                       lcore := some (s.logical p), capture := f.word }
    let res := (1 ≤ f.cause ∧ f.cause ≤ 5) ∨ (0x31 ≤ f.cause ∧ f.cause ≤ 0x33)
    let s := if f.cause ≤ 5 then s.bumpSat (teB p f.sub) F.teErrResmis else s
    let s := if res then s.charge t.graph t.index (chargedCore p f.cause sender) else s
    s.endItem p i (causeStatus f.cause) f.cause

/-- Run the work of an engine for a carriage; a fault ends the carriage. -/
def State.work (s : State) (p i : Nat) (m : Eng Unit) : State :=
  match m s with
  | .ok _ t => t
  | .error f t => t.faultItem p i f

/-- A fault that TD_ERR captures (R273, R274). -/
def tdFlt (p cause : Nat) (t : TdItem) : Flt :=
  let w := captureWord cause [(F.tdErrIndex, t.index), (F.tdErrGraph, t.graph)]
  { cause := cause, caps := [(tdB p + 8, w, 64)], word := w }

/-- A fault that DMA_ERR captures (R291, R294). -/
def dmaFlt (p cause op : Nat) (graph index : Nat) : Flt :=
  let w := captureWord cause [(F.dmaErrIndex, index), (F.dmaErrGraph, graph), (F.dmaErrOp, op)]
  { cause := cause, caps := [(dmaB p + 8, w, 64)], word := w }

/-- A conflict or hazard of a scheduled port (R281, R282), which SPM_ERR captures beside the engine's own register. -/
def portFlt (p : Nat) (t : TdItem) (f : EngFind) (conflict hazard : Nat) (own : Nat → Nat × Nat × Nat) (sub : Nat) : Eng Unit := do
  let cause := if f.port = 1 then conflict else hazard
  modify fun s => s.bump (spmB p) (if f.port = 1 then F.spmConflicts else F.spmHazards)
  let o := own cause
  throw { cause := cause, caps := [o, (spmB p + 0x10, spmErrWord cause f.spm t.coach t.graph, 64)], word := o.2.1, sub := sub }

/-! ### Memory that a carriage names (R285, R337) -/

/-- A region is granted by a COACH_GRANT mask, and is not region 0 (R337). -/
def granted (grant r : Nat) : Bool := r != 0 && bit grant r

/-- The device physical range that a carriage's access reaches: by translation of a coach address with its walks (R285), or
directly where the region that holds it is granted (R337); a frame outside every region is left to the controller's UNMAPPED
answer (R301). `grant` is the mask that its carriage was dispatched under (R341). The state after the walks. -/
def State.reach (s : State) (p c grant aspace a n : Nat) (write : Bool) : State × Option Nat :=
  if aspace = 1 then
    (s, if (s.regionAt a).all (granted grant) && (s.regionAt (a + n - 1)).all (granted grant) then some a else none)
  else
    let s := s.walkRange p c a n write
    (s, if s.xlateOk p c a n write then s.xlateAddr p c a write else none)

/-- The pieces of a range, each within one page of 64 KiB (R334). -/
def pagePieces (a n : Nat) : List (Nat × Nat) :=
  if n = 0 then []
  else (upFrom (a / 65536) ((a + n - 1) / 65536 - a / 65536 + 1)).map fun g =>
    (max a (65536 * g), min (a + n) (65536 * g + 65536) - max a (65536 * g))

/-- A part of a carriage reads memory at once, in the address space of coach `c`: a refused address is cause 0x51, a poisoned
line the cause given; an UNMAPPED answer counts as a poisoned read (R301). -/
def carrRead (p : Nat) (t : TdItem) (c aspace a n : Nat) (fine : Bool) (poison : Flt) (op : Nat) (blk : Nat := p) :
    Eng (List Byte) := do
  let l ← (pagePieces a n).mapM fun x => do
    let s ← get
    let r := s.reach blk c t.grant aspace x.1 x.2 false
    set r.1
    match r.2 with
    | none => throw (dmaFlt p 0x51 op t.graph t.index)
    | some q =>
      let s := if fine then r.1.bump (dmaB p) F.dmaFineAccesses (x.2 / 32) else r.1
      let m := s.mcRead q x.2 (s.get (coachB c) F.coachQos) fine {}
      set m.1
      if m.2.1 = Sc.ok then pure m.2.2.1 else throw poison
  pure l.flatten

/-- A read over the fine path, in accesses of 32 bytes (R303). -/
def fineRead (p : Nat) (t : TdItem) (c aspace a n : Nat) (poison : Flt) (op : Nat := 2) (blk : Nat := p) : Eng (List Byte) := do
  if n = 0 then pure []
  else
    let lo := a / 32 * 32
    let l ← carrRead p t c aspace lo ((a + n + 31) / 32 * 32 - lo) true poison op blk
    pure ((l.drop (a - lo)).take n)

/-- A fetch of R158 or R261: a FINE_RD descriptor that is written, issued and completed at once (R283). -/
def descRead (p : Nat) (t : TdItem) (c aspace a n : Nat) (poison : Flt) : Eng (List Byte) := do
  modify fun s => s.bump (dmaB p) F.dmaDescriptors
  fineRead p t c aspace a n poison

/-- A TD or a GE reads `n` bytes of the firmware's own tables in region 0 over the fine path (R145, R261); a table that the
firmware has not placed is not read. -/
def tableFetch (p a n : Nat) (poison : Flt) : Eng Unit := do
  let s ← get
  if (s.unmapped a n).isNone then
    let s := (s.bump (dmaB p) F.dmaDescriptors).bump (dmaB p) F.dmaFineAccesses (n / 32)
    let m := s.mcRead a n 16 true {}
    set m.1
    if m.2.1 ≠ Sc.ok then throw poison

/-- A read of a table that is no table of the fine path: column scales, norm parameters, rotation frequencies (R303). A poisoned
line comes as poisoned words, which the VU may not read: cause 0x53 (R287, R310; log entry 95). -/
def tableRead (p : Nat) (t : TdItem) (c aspace a n : Nat) : Eng (List Byte) :=
  carrRead p t c aspace a n false (spmFlt p 0x53 0 t.coach t.graph) 0

/-! ### What work meets (R280, R287, R309) -/

/-- What a command says that its work meets: an error in a word of the SPM, errors in lines of memory, and the cycles that
yielding ports waited. -/
def State.meet (s : State) (p : Nat) (f : EngFind) : State :=
  let s := (s.spmEcc p f).bump (spmB p) F.spmCycYield f.yield
  { s with hbm := { s.hbm with latent := f.mem.foldl (fun m e => SMap.put {} m e.1 e.2) s.hbm.latent } }

/-! ### Order at the engines (R259) -/

/-- The unit of a core that runs a carriage: its TE, the VU 4, the LE 5, the merge unit 6, the DMA 7. -/
def engineOf (c : List Byte) : Nat :=
  if Ca.isTe c then Ca.te c
  else if Ca.kind c = Kd.vu ∨ Ca.kind c = Kd.embed ∨ Ca.kind c = Kd.push then 4
  else if Ca.kind c = Kd.attn then 5 else if Ca.kind c = Kd.merge then 6 else 7

/-- A carriage has work that its engine has not been given. -/
def TdItem.busy (t : TdItem) : Bool := t.todo != [] || t.units != [] || t.descs != [] || t.vector

/-- A carriage's turn has come at its engine: every carriage of the engine before it has been given all its work (R259). -/
def State.turn (s : State) (p i : Nat) : Bool :=
  match s.item p i with
  | none => false
  | some t => ((s.core p).td.take i).all fun u => engineOf u.carr != engineOf t.carr || !u.busy

/-- Note the first issue of a carriage to an engine (R262, R269). -/
def State.issued (s : State) (p i : Nat) : State := s.modItem p i fun t => if t.start = 0 then { t with start := s.gcount + 1 } else t

end Sys2Proof.Machine
end

