-- ==== Sys2Proof/Machine/Segments.lean ====
section
/-!
DEFINITION. TD_DISPATCH_RX: a TD accepts a carriage (R261), checks it (R276, R277, R274) and builds its work from the manifest:
segments (R69), delta pairs (R161, R162), adapters (R165), predictors (R242), attention work units (R181).
-/
namespace Sys2Proof.Machine

/-! ### Operands (log entry 8) -/

/-- An SPM operand of `n` bytes lies where it may (R276, R277), else cause 0x42. -/
def operand (p : Nat) (t : TdItem) (a n : Nat) (nbr : Bool := false) : Eng Unit := do
  let s ← get
  if (s.spmTarget p a n nbr).isNone then throw (tdFlt p 0x42 t)

/-- Every SPM address of a carriage has the form of R276, and only a result may name a neighbour (R277); else cause 0x42. -/
def addressForms (p : Nat) (t : TdItem) : Eng Unit := do
  let s ← get
  let k := Ca.kind t.carr
  let nbr (n : Nat) : Bool := n == 1 && (k == Kd.dense || k == Kd.adapter || k == Kd.vu || k == Kd.attn || k == Kd.merge)
  if (List.range 4).any fun n => Ca.a t.carr n != Ca.noAddr && (s.spmTarget p (Ca.a t.carr n) 0 (nbr n)).isNone then
    throw (tdFlt p 0x42 t)

/-- Bytes of a panel operand of `n` columns for the rows of a carriage. -/
def TdItem.panelLen (t : TdItem) (n : Nat) : Nat :=
  if t.n = 0 ∨ n = 0 then 0 else 1024 * (t.P * ((n + 255) / 256 - 1) + t.n)

/-- Bytes of a slot operand with `k` K-steps at a stride. -/
def TdItem.slotLen (t : TdItem) (stride k : Nat) : Nat := if t.n = 0 ∨ k = 0 then 0 else stride * (t.P * (k - 1) + t.n)

/-- Columns of the input of the carriage's layer. -/
def TdItem.width (t : TdItem) : Nat := 640 * Ld.nkstep t.layer

/-! ### Row groups (R256, R68, R69) -/

/-- The row groups of the window that exist: their numbers and their rows' places in the window. -/
def TdItem.groups (t : TdItem) : List (Nat × List Nat) :=
  (List.range ((t.n + 63) / 64)).map fun g => (Ca.gfirst t.carr + g, upFrom (64 * g) (min 64 (t.n - 64 * g)))

/-- A row's overlay, by its place in the window. -/
def State.oveAt (s : State) (t : TdItem) (i : Nat) : Option Nat := (s.row (t.row0 + 64 * Ca.gfirst t.carr + i)).ove

/-- The overlays bound to rows of the window, ascending (R158). -/
def State.boundOves (s : State) (t : TdItem) : List Nat :=
  ((List.range t.n).filterMap (s.oveAt t)).foldl (fun l o => insertNat o l) []

/-! ### Overlays (R145, R152-R155, R164) -/

/-- A fault that GE_ERR captures (R167, R170). -/
def geFlt (p cause ove : Nat) (t : TdItem) (index : Nat := 0) : Flt :=
  let w := captureWord cause [(F.geErrOve, ove), (F.geErrChain, Ca.chain t.carr), (F.geErrIndex, index)]
  { cause := cause, caps := [(geB p + 8, w, 64)], word := w }

/-- The coach of an overlay version. -/
def State.oveCoach (s : State) (o : Nat) : Nat := (SMap.look {} s.sb.oves o).coach

/-- The layer record of an overlay for the carriage's layer (R152, R153). The TD reads the OVE's record (R145) and the overlay
descriptor. -/
def layerRec (p : Nat) (t : TdItem) (o : Nat) : Eng (Option (List Byte)) := do
  let s ← get
  tableFetch p (s.chip F.ovlBase + 64 * o) 64 (geFlt p 0x24 o t)
  let v := SMap.look {} s.sb.oves o
  let h ← fineRead p t v.coach 0 v.desc 32 (geFlt p 0x24 o t)
  let l ← fineRead p t v.coach 0 (v.desc + 32) (32 * bits (fieldLE h 0 2) 0 9) (geFlt p 0x24 o t)
  let recs := (List.range (bits (fieldLE h 0 2) 0 9)).map fun k => (l.drop (32 * k)).take 32
  pure (recs.find? fun r => Lr.layer r == Ca.layer t.carr)

/-- The tile directory entry of a base tile (R154): one that is not valid is cause 0x23. -/
def tileEntry (p : Nat) (t : TdItem) (o : Nat) (r : List Byte) (u : Nat) : Eng (List Byte) := do
  let s ← get
  let e ← descRead p t (s.oveCoach o) 0 (Lr.tdir r + 16 * u) 16 (geFlt p 0x24 o t)
  if tileEntryOk e then pure e else throw (geFlt p 0x23 o t)

/-- The directory entries of the overlays bound in the window for some tiles: (tile, overlay, entry), by tile and overlay. -/
def tileEntries (p : Nat) (t : TdItem) (tiles : List Nat) : Eng (List (Nat × Nat × List Byte)) := do
  let s ← get
  let recs ← (s.boundOves t).mapM fun o => do
    let r ← layerRec p t o
    pure (o, (r.filter Lr.delta).getD [])
  let l ← tiles.mapM fun u => (recs.filter fun x => x.2 != []).mapM fun x => do
    let e ← tileEntry p t x.1 x.2 u
    pure (u, x.1, e)
  pure l.flatten

/-! ### Delta carts (R157, R158) -/

/-- Number a core's next descriptor, and put it in the queue. -/
def State.queueDesc (s : State) (p : Nat) (d : Desc) (head : Bool := false) : State :=
  s.modCore p fun c =>
    let d := { d with id := c.nextDesc }
    { c with dmaQ := if head then d :: c.dmaQ else c.dmaQ ++ [d], nextDesc := c.nextDesc + 1 }

/-- Room in a core's descriptor queue of 32 (R283). -/
def State.descRoom (s : State) (p : Nat) : Nat := 32 - (s.core p).dmaQ.length

/-- Change a list of delta carts. -/
def State.modGe (s : State) (p carr ove tile : Nat) (f : GeList → GeList) : State :=
  s.modCore p fun c => { c with ge := c.ge.map fun (g : GeList) => if g.carr = carr ∧ g.ove = ove ∧ g.tile = tile then f g else g }

/-- Carts that half of a carriage's staging area holds: a portion of a tile's carts (R158). -/
def TdItem.stageCap (t : TdItem) : Nat := max 1 (bits (Ca.param t.carr) 0 32 / 512)

/-- Where cart `n` of a list is staged: tiles use the halves of the area in turn, and portions follow one another in a half. An
area of less than two carts serves one tile at a time. -/
def TdItem.stageCell (t : TdItem) (g : GeList) (n : Nat) : Nat :=
  let half := bits (Ca.param t.carr) 0 32 / 512 * 256
  bits (Ca.a t.carr 3) 0 22 + g.tileNo % 2 * half + 256 * ((g.pre + n) % t.stageCap)

/-- The descriptor that fetches carts `n` to `m - 1` of a list. -/
def State.cartDesc (s : State) (t : TdItem) (g : GeList) (n m : Nat) : Desc :=
  { op := 0, aspace := 0, coach := s.oveCoach g.ove, len := 256 * (m - n), spm := t.stageCell g n, mem := g.ptr + 256 * n
    graph := t.graph, index := t.index, step := t.step, attempt := t.attempt, grant := t.grant, ove := some g.ove }

/-- The DMA is asked for the next carts of a list: those of the tile that runs, and of the one after it; a portion once the
portions before it have been read. -/
def State.askCarts (s : State) (p : Nat) (t : TdItem) (g : GeList) : State :=
  let cap := t.stageCap
  let k := (g.pre + g.asked) / cap
  let now := (t.todo.head?.map Pass.tile).getD 0
  let ahead := if bits (Ca.param t.carr) 0 32 < 512 then 0 else 1
  let read := (s.core p).ge.all fun h => h.carr != g.carr || h.tile != g.tile || decide (min h.ncart (k * cap - h.pre) ≤ h.carts.length)
  if g.ncart ≤ g.asked ∨ now + ahead < g.tileNo ∨ read = false ∨ s.descRoom p = 0 then s
  else
    let m := min g.ncart ((k + 1) * cap - g.pre)
    (s.queueDesc p (s.cartDesc t g g.asked m)).modGe p g.carr g.ove g.tile fun g => { g with asked := m }

/-- The fetches of delta carts that a core's carriages may make now. -/
def State.stageCarts (s : State) (p : Nat) : State :=
  (s.core p).td.foldl (fun s t => ((s.core p).ge.filter fun g => g.carr == t.key + 1).foldl (fun s g => s.askCarts p t g) s) s

/-! ### Segments -/

/-- Passes of tiles `k0 …` over row groups (R69): set A and B in turn by group, the last tile ends each set. -/
def passesOf (k0 T : Nat) (gs : List (Nat × List Nat)) (stage ove panel : Nat) : List Pass :=
  (List.range T).flatMap fun k => gs.zipIdx.map fun g =>
    { load := some (k0 + k), group := g.1.1, set := g.2 % 2, rows := g.1.2, run := g.1.2, tile := k, fin := k + 1 == T
      stage := stage, ove := ove, panel := panel }

/-- The work of a base carriage (R69), with the delta carts that its overlays need (R158). -/
def buildDense (p : Nat) (t : TdItem) : Eng TdItem := do
  let c := t.carr
  let l := t.layer
  let T := Ca.ntile c
  let staged := Ca.a c 2 != Ca.noAddr
  let ksteps := (List.range T).map fun k => (Ca.tile0 c + k) % Ld.nkstep l
  operand p t (Ca.a c 0) (t.slotLen (Ld.astride l) (ksteps.foldl max 0 + 1))
  if Ca.pos c = Ca.lenm1 c ∧ Ca.append c = false then operand p t (Ca.a c 1) (t.panelLen 256) true
  if staged then operand p t (Ca.a c 2) (32896 * T)
  if Ld.ovlEn l then
    let s ← get
    if s.boundOves t ≠ [] ∨ Ca.a c 3 ≠ Ca.noAddr then operand p t (Ca.a c 3) (bits (Ca.param c) 0 32)
    let es ← tileEntries p t (upFrom (Ca.tile0 c) T)
    let lists : List GeList := (es.filter fun e => Td.ncart e.2.2 != 0).map fun e =>
      { carr := t.key + 1, ove := e.2.1, tile := e.1, ncart := Td.ncart e.2.2, nnz := Td.nnz e.2.2, ptr := Td.ptr e.2.2
        tileNo := e.1 - Ca.tile0 c
        pre := (es.filter fun d => d.1 == e.1 && decide (d.2.1 < e.2.1)).foldl (fun a d => a + Td.ncart d.2.2) 0 }
    modify fun s => s.modCore p fun x => { x with ge := x.ge ++ lists }
  let loads : List Load := (List.range T).map fun k =>
    { tile := Ca.tile0 c + k, aspace := 1, wblk := Ld.wblk l, widx := Ld.widx l
      staged := if staged then some (bits (Ca.a c 2) 0 22 + 32896 * k) else none
      kstep := (Ca.tile0 c + k) % Ld.nkstep l, coach := t.coach }
  pure { t with loads := loads, todo := passesOf 0 T t.groups 0 0 0 }

/-- The base tiles that a delta carriage covers (R161). -/
def State.deltaTiles (s : State) (t : TdItem) : List Nat :=
  ((((s.graph t.graph).map Graph.carrs).getD []).filter fun c => Ca.kind c == Kd.dense && Ca.chain c == Ca.chain t.carr
      && Ca.lcore c == Ca.lcore t.carr).foldl
    (fun l c => (upFrom (Ca.tile0 c) (Ca.ntile c)).foldl (fun l u => insertNat u l) l) []

/-- The work of a delta carriage (R161, R162): per group its dense pairs, each with a load of its own. -/
def buildDelta (p : Nat) (t : TdItem) : Eng TdItem := do
  let s ← get
  let nk := Ld.nkstep t.layer
  let es ← tileEntries p t (s.deltaTiles t)
  let dense := es.filter fun e => Td.dense e.2.2
  operand p t (Ca.a t.carr 0) (t.slotLen (Ld.astride t.layer) (dense.foldl (fun a e => max a (e.1 % nk + 1)) 0))
  let recs ← dense.mapM fun e => do
    let r ← fineRead p t (s.oveCoach e.2.1) 0 (Td.ptr e.2.2) 256 (geFlt p 0x24 e.2.1 t)
    let ld : Load := { tile := 0, aspace := 0, wblk := bits (fieldLE r 128 8) 0 48, widx := Td.ptr e.2.2, kstep := e.1 % nk
                       ove := some e.2.1, coach := s.oveCoach e.2.1 }
    pure ld
  let work := t.groups.zipIdx.map fun g =>
    let ps := recs.filterMap fun ld =>
      let run := g.1.2.filter fun i => s.oveAt t i == ld.ove
      if run = [] then none else some (ld, run)
    (g, ps)
  let r := work.foldl (fun (r : List Load × List Pass) w =>
    let mk (load : Option Nat) (run : List Nat) (tile : Nat) (fin : Bool) : Pass :=
      { load := load, group := w.1.1.1, set := w.1.2 % 2, rows := w.1.1.2, run := run, tile := tile, fin := fin }
    let ps := if w.2 = [] then [mk none [] 0 true]
      else w.2.zipIdx.map fun x => mk (some (r.1.length + x.2)) x.1.2 x.2 (x.2 + 1 == w.2.length)
    (r.1 ++ w.2.map (·.1), r.2 ++ ps)) ([], [])
  pure { t with loads := r.1, todo := r.2 }

/-- Output panels of a layer: those that its base tiles make. -/
def Graph.panels (g : Graph) (layer nk : Nat) : Nat := (g.baseTiles layer).foldl (fun a u => max a (u / nk + 1)) 0

/-- The work of an adapter carriage (R165): by overlay, segments of at most two groups of 64 rows. Each carriage computes every
output panel (DESIGN CHOICE, log entry 104). -/
def buildAdapter (p : Nat) (t : TdItem) : Eng TdItem := do
  let s ← get
  let nk := Ld.nkstep t.layer
  let np := ((s.graph t.graph).map fun g => g.panels (Ca.layer t.carr) nk).getD 0
  let some' ← (s.boundOves t).filterMapM fun o => do
    let r ← layerRec p t o
    match r.filter Lr.adapt with
    | none => pure none
    | some r =>
      let d ← fineRead p t (s.oveCoach o) 0 (Lr.adpt r) 128 (geFlt p 0x24 o t)
      if adapterOk d then pure (some (o, d)) else throw (geFlt p 0x25 o t)
  if some' = [] then pure t
  else
    operand p t (Ca.a t.carr 0) (t.panelLen t.width)
    operand p t (Ca.a t.carr 1) (t.panelLen (256 * np)) true
    operand p t (Ca.a t.carr 2) (t.slotLen 704 (nk + 1))
    let segs := some'.flatMap fun a =>
      let rows := (List.range t.n).filter fun i => s.oveAt t i == some a.1
      (List.range ((rows.length + 127) / 128)).map fun k => (a, (rows.drop (128 * k)).take 128)
    let r := segs.foldl (fun (r : List Load × List Pass) x =>
      let (o, d) := x.1
      let rows := x.2
      let gs := (List.range ((rows.length + 63) / 64)).map fun g => (g, (rows.drop (64 * g)).take 64)
      let k0 := r.1.length
      let dn : List Load := (List.range nk).map fun k =>
        { tile := k, aspace := 0, wblk := Ad.downBlk d, widx := Ad.downIdx d, kstep := k, ove := some o, coach := s.oveCoach o }
      let up : List Load := (List.range np).map fun v =>
        { tile := v, aspace := 0, wblk := Ad.upBlk d, widx := Ad.upIdx d, ove := some o, coach := s.oveCoach o }
      let quant : Pass := { load := none, rows := rows, run := rows, stage := 1, ove := o }
      (r.1 ++ dn ++ up, r.2 ++ quant :: passesOf k0 nk gs 2 o 0 ++
        (List.range np).flatMap fun v => passesOf (k0 + nk + v) 1 gs 3 o v)) ([], [])
    pure { t with loads := r.1, todo := r.2, adapters := some'.foldl (fun m a => SMap.put [] m a.1 a.2) [] }

/-- The work of a predictor carriage (R242), two groups at a time; none in strict mode or with PRED_EN = 0 (R245). -/
def buildPred (p : Nat) (t : TdItem) : Eng TdItem := do
  let s ← get
  let l := t.layer
  let nk := Ld.nkstep l
  if Ld.pred l = false ∨ Pd.en l = false ∨ s.strict = true then pure t
  else
    operand p t (Ca.a t.carr 0) (t.slotLen (Ld.astride l) nk)
    operand p t (Ca.a t.carr 1) (t.slotLen 1280 1)
    let gs := t.groups
    let r := (List.range ((gs.length + 1) / 2)).foldl (fun (r : List Load × List Pass) b =>
      let two := (gs.drop (2 * b)).take 2
      let k0 := r.1.length
      let ld (k : Nat) : Load := { tile := k, aspace := 0, wblk := Pd.pblk l, widx := Pd.pidx l, kstep := k, coach := t.coach }
      (r.1 ++ (List.range (nk + 1)).map ld, r.2 ++ passesOf k0 nk two 4 0 0 ++ passesOf (k0 + nk) 1 two 5 0 0)) ([], [])
    pure { t with loads := r.1, todo := r.2 }

/-! ### Attention work units (R181) -/

/-- A fault that LE_ERR captures (R194, R196): manifest row, query head within the group, and chunk. -/
def leFlt (p cause : Nat) (t : TdItem) (row qh chunk : Nat) : Flt :=
  let w := captureWord cause [(F.leErrRow, row), (F.leErrQh, qh), (F.leErrMid, Ca.chain t.carr), (F.leErrChunk, chunk)]
  { cause := cause, caps := [(leB p + 8, w, 64)], word := w }

/-- Chunks that a position needs. -/
def chunksTo (l : List Byte) (pos : Nat) : Nat := pos / At.chunkLen l + 1

/-- Rows of one query set at most (R181). -/
def setRows (l : List Byte) : Nat := max 1 (min (64 / At.g l) (65536 / (At.g l * At.chunkLen l)))

/-- Cut the rows of the manifest (numbers and rows) into query sets; `fuel` bounds the cuts. -/
def querySets : Nat → Nat → List (Nat × Row) → List (List (Nat × Row))
  | 0, _, _ => []
  | _, _, [] => []
  | f + 1, q, (m, r) :: rest =>
    let same := rest.takeWhile fun x => !r.decode && !x.2.decode && x.2.slot == r.slot
    let set := (m, r) :: same.take (q - 1)
    set :: querySets f q (rest.drop (set.length - 1))

/-- The query sets of a graph's rows at an attention layer, each with its chunks. -/
def State.setsOf (s : State) (gid : Nat) (l : List Byte) : List (List Nat × Nat) :=
  let rows := (s.gs.rows.zipIdx.filter fun e => e.1.graph == gid).map fun e => (e.2, e.1)
  (querySets rows.length (setRows l) rows).map fun q =>
    (q.map (·.1), min 4096 (chunksTo l (q.foldl (fun a x => max a x.2.pos) 0)))

/-- The work units of a layer in order. -/
def State.unitsOf (s : State) (gid : Nat) (l : List Byte) : List WUnit :=
  (s.setsOf gid l).flatMap fun q => (List.range q.2).map fun k => { rows := q.1, chunk := k, chunks := q.2 }

/-- The core of the partition that merges a query set (R182): the first logical core is `first`. -/
def mergeCore (l : List Byte) (first : Nat) (rows : List Nat) : Nat := first + rows.headD 0 % At.apart l

/-- The LE_MERGE carriage of a MID. -/
def State.mergeCarr (s : State) (gid mid : Nat) : List Byte :=
  ((((s.graph gid).map Graph.carrs).getD []).find? fun c => Ca.kind c == Kd.merge && Ca.chain c == mid).getD []

/-- The first logical core of a MID's attention partition, as its LE_ATTN carriages name it. -/
def State.partFirst (s : State) (gid mid : Nat) : Nat :=
  match s.graph gid with
  | none => 0
  | some g => g.pbase + bits (Ca.param ((g.carrs.find? fun c => Ca.kind c == Kd.attn && Ca.chain c == mid).getD [])) 0 7

/-- The query set of a row at a layer, with its chunks. -/
def State.setOf (s : State) (gid : Nat) (l : List Byte) (m : Nat) : Option (List Nat × Nat) :=
  (s.setsOf gid l).find? fun q => q.1.contains m

/-- A set's partials are merged on core `p` (R182). -/
def State.mergesHere (s : State) (p : Nat) (t : TdItem) (q : List Nat × Nat) : Bool :=
  1 < q.2 && s.phys (mergeCore t.layer (s.partFirst t.graph (Ca.chain t.carr)) q.1) == some p

/-- The sets that core `p` merges for a carriage's MID, in order. -/
def State.mergedSets (s : State) (p : Nat) (t : TdItem) : List (List Nat × Nat) := (s.setsOf t.graph t.layer).filter (s.mergesHere p t)

/-- Length of the landing area of sets: 512 bytes per row, chunk and query head (R182). -/
def landLen (nq : Nat) (qs : List (List Nat × Nat)) : Nat := qs.foldl (fun a q => a + 512 * q.1.length * q.2 * nq) 0

/-- Offset of a partial's slot in the landing area: the sets in order, in each the rows, in each row the chunks, in each chunk the
query heads (DESIGN CHOICE, log entry 8). -/
def landSlot (nq row head chunk : Nat) : List (List Nat × Nat) → Nat
  | [] => 0
  | q :: rest =>
    if q.1.contains row then 512 * ((q.1.idxOf row * q.2 + chunk) * nq + head)
    else 512 * q.1.length * q.2 * nq + landSlot nq row head chunk rest

/-- The SPM offset of a partial's slot on the merge core `p`. -/
def State.landAt (s : State) (p : Nat) (t : TdItem) (row head chunk : Nat) : Nat :=
  bits (Ca.a (s.mergeCarr t.graph (Ca.chain t.carr)) 3) 0 22
    + landSlot (At.nkv t.layer * At.g t.layer) row head chunk (s.mergedSets p t)

/-- The work of an attention carriage: its units (R181); rows whose context needs more than 4,096 chunks end with BAD_ARG. -/
def buildAttn (p : Nat) (t : TdItem) : Eng TdItem := do
  let l := t.layer
  let s ← get
  if s.attnOk l = false then throw (leFlt p 0x35 t 0 0 0)
  let nq := At.nkv l * At.g l
  let long := (s.gs.rows.zipIdx.filter fun e => e.1.graph == t.graph && decide (4096 < chunksTo l e.1.pos)).map (·.2)
  if long ≠ [] then set (s.maskRows long Sc.badArg)
  let first := s.partFirst t.graph (Ca.chain t.carr)
  let units := ((s.unitsOf t.graph l).zipIdx.filter fun e => first + e.2 % At.apart l == t.pbase + Ca.lcore t.carr).map (·.1)
  if units ≠ [] then
    operand p t (Ca.a t.carr 0) (t.panelLen (128 * nq))
    if units.any (·.chunks == 1) ∨ Ca.a t.carr 1 ≠ Ca.noAddr then operand p t (Ca.a t.carr 1) (t.panelLen (128 * nq)) true
    if Ca.a t.carr 2 != Ca.noAddr then operand p t (Ca.a t.carr 2) 4608
  pure { t with units := units }

/-- The checks of a merge carriage (R182): its landing area holds one 512-byte slot per chunk and query head. -/
def buildMerge (p : Nat) (t : TdItem) : Eng TdItem := do
  let l := t.layer
  let s ← get
  if s.attnOk l = false then throw (leFlt p 0x35 t 0 0 0)
  let nq := At.nkv l * At.g l
  let need := landLen nq (s.mergedSets p t)
  if need ≠ 0 then
    operand p t (Ca.a t.carr 1) (t.panelLen (128 * nq)) true
    operand p t (Ca.a t.carr 3) (bits (Ca.param t.carr) 0 32)
    if bits (Ca.param t.carr) 0 32 < need then throw (tdFlt p 0x42 t)
  pure t

/-! ### The other kinds -/

/-- Whether a vector operation takes a second operand. -/
def vopBinary (v : Nat) : Bool := v == 4 || v == 5 || v == 8 || v == 9

/-- The checks of a vector carriage (R255). -/
def buildVu (p : Nat) (t : TdItem) : Eng TdItem := do
  let c := t.carr
  let l := t.layer
  let v := Ca.param c % 256
  if v = 10 ∧ Ld.attn l = false then throw (tdFlt p 0x42 t)
  operand p t (Ca.a c 0) (t.panelLen t.width)
  if vopBinary v then operand p t (Ca.a c 2) (t.panelLen t.width)
  operand p t (Ca.a c 1) (if v = 1 then t.slotLen (Ld.astride l) (Ld.nkstep l) else t.panelLen t.width) true
  pure { t with vector := true }

/-- The checks of carriages of the DMA (R254). -/
def buildDma (p : Nat) (t : TdItem) : Eng TdItem := do
  let c := t.carr
  let s ← get
  let d := ((s.graph t.graph).map Graph.dModel).getD 0
  if Ca.kind c = Kd.copy then operand p t (Ca.a c 0) (bits (Ca.param c) 0 32)
  else if Ca.kind c = Kd.wstage then operand p t (Ca.a c 2) (32896 * Ca.ntile c)
  else if Ca.kind c = Kd.embed then operand p t (Ca.a c 1) (t.panelLen d)
  else if Ca.kind c = Kd.push then operand p t (Ca.a c 0) (t.panelLen d)
  pure { t with vector := true }

/-- Build the work of a carriage by its kind (R254). -/
def buildWork (p : Nat) (t : TdItem) : Eng TdItem :=
  let k := Ca.kind t.carr
  if k = Kd.dense then buildDense p t
  else if k = Kd.delta then buildDelta p t
  else if k = Kd.adapter then buildAdapter p t
  else if k = Kd.pred then buildPred p t
  else if k = Kd.vu then buildVu p t
  else if k = Kd.attn then buildAttn p t
  else if k = Kd.merge then buildMerge p t
  else if k = Kd.nop then pure t
  else buildDma p t

/-- The TD reads the layer descriptor at LDESC, four accesses of 32 bytes, and keeps the copy (R261); poison is cause 0x43. -/
def readLayer (p : Nat) (t : TdItem) : Eng Unit := tableFetch p t.ldesc 128 (tdFlt p 0x43 t)

/-- The TD checks a carriage that it has accepted and builds its work (R261, R274). -/
def acceptWork (p i : Nat) (t : TdItem) (poisoned : Bool) : Eng Unit := do
  readLayer p t
  if poisoned then throw (tdFlt p 0x43 t)
  let s ← get
  if t.pbase + Ca.lcore t.carr ≠ s.logical p then throw (tdFlt p 0x42 t)
  addressForms p t
  let u ← buildWork p t
  modify fun s => (s.modItem p i fun _ => u).stageCarts p

/-- TD_DISPATCH_RX (R261): the oldest dispatch cart on its way to a core is accepted. -/
def execTdDispatchRx (core : Nat) (poisoned : Bool) (s : State) : Res :=
  .next (match (s.core core).disp with
    | [] => s
    | t :: rest =>
      let c := s.core core
      if c.cleared = false ∨ 32 ≤ c.td.length ∨ s.log.hold = true then s
      else
        let s := if c.td = [] then s.bump (tdB core) F.tdCycIdle (s.gcount - c.emptyAt) else s
        let l := Ca.layer t.carr
        let s := s.qAwait (Qk.dispatch core) (c.disp.length)
        let t := { t with layer := ((s.graph t.graph).map fun g => g.layers.getD l []).getD []
                          pins := ((s.graph t.graph).map fun g => SMap.look [] g.pins l).getD [] }
        let s := s.modCore core fun c => { c with disp := rest, td := c.td ++ [t] }
        s.work core c.td.length (acceptWork core c.td.length t poisoned))

end Sys2Proof.Machine
end

