-- ==== Sys2Proof/Machine/Ternary.lean ====
section
/-!
DEFINITION. The ternary engines (03): activation blocks (R37-R42), planes and accumulators (R43-R47, R62-R75), compacted slices
(R80, R81, R159, R160), and the passes of a carriage (R69) with the predictor's skips (R243).
-/
namespace Sys2Proof.Machine

/-! ### Activation blocks (R35-R42) -/

/-- Bits of a format (R35). -/
def fmtBits (f : Nat) : Nat := match f with | 1 => 2 | 2 => 4 | _ => 8

/-- Bytes of a block of a format (R37). -/
def blockBytes (f : Nat) : Nat := match f with | 0 => 64 | 1 => 224 | 2 => 384 | _ => 704

/-- Code `k` of a payload (R38). -/
def codeAt (f : Nat) (l : List Byte) (k : Nat) : Int :=
  let b := fmtBits f
  signed b (bits (fieldLE l (b * k / 8) 1) (b * k % 8) b)

/-- A block as a ternary engine reads it; format 0 for a zero block. -/
structure ABlk where
  fmt : Nat := 0
  ofs : Nat := 0
  esc : Bool := false
  recs : List (Nat × Int) := []
  codes : List Int := []
deriving DecidableEq, Repr

/-- Read a block's header and payload. -/
def ABlk.of (l : List Byte) : ABlk :=
  let h := fieldLE l 0 1
  let f := bits h 0 2
  if f = 0 then {}
  else
    { fmt := f, ofs := bits h 2 3, esc := bit h 5
      recs := (List.range (min 8 (bits (fieldLE l 1 1) 0 4))).map fun k =>
        (bits (fieldLE l (16 + 4 * k) 2) 0 10, signed 16 (fieldLE l (18 + 4 * k) 2))
      codes := (List.range 640).map (codeAt f (l.drop 64)) }

/-- The header keeps R37: zero blocks are not checked. -/
def blockOk (l : List Byte) : Bool :=
  let n := bits (fieldLE l 1 1) 0 4
  bits (fieldLE l 0 1) 0 2 == 0
    || (n ≤ 8 && (List.range n).all fun k => bits (fieldLE l (16 + 4 * k) 2) 0 10 ≤ 639)

/-- Effective width of a block: the least that holds every code (R64). -/
def ABlk.width (b : ABlk) : Nat :=
  b.codes.foldl (fun w q => max w ((firstBelow 9 fun n => 0 < n && decide (-(2 ^ (n - 1) : Int) ≤ q)
    && decide (q ≤ 2 ^ (n - 1) - 1)).getD 8)) 1

/-! ### Tiles (R91, R92) -/

/-- The 640 trits of tile column `j`. -/
def tileColumn (blocks : List (List Byte)) (j : Nat) : List Int :=
  tritsOf (((blocks.getD (j / 32) []).drop (128 * (j % 32))).take 128)

/-! ### Delta carts (R156, R157) -/

/-- Entries of a cart: K position, column, sign. -/
def cartEntries (c : List Byte) : List (Nat × Nat × Bool) :=
  (List.range (bits (fieldLE c 4 1) 0 7)).map fun k =>
    let e := fieldLE c (16 + 3 * k) 3
    (bits e 0 10, bits e 10 8, bit e 23)

/-- The runs of a cart, each with its column (R157). -/
def cartRuns (c : List Byte) : List (Nat × List (Nat × Nat × Bool)) :=
  (cartEntries c).foldr (fun e l => match l with
    | [] => [(e.2.1, [e])]
    | (j, r) :: rest => if j = e.2.1 then (j, e :: r) :: rest else (e.2.1, [e]) :: (j, r) :: rest) []

/-! ### Residues of the planes (R47, R63, R82) -/

/-- Bit `p` of a code, and the residue that a tree of the gated bits of the codes met by weights of one sign counts. -/
def gatedRes (p : Nat) (sign : Int) (l : List (Int × Int)) : Nat :=
  (l.filter fun x => x.1 == sign && bit (unsigned 8 x.2) p).length % 3

/-- The residue of D of plane `p`: that of P less that of N (R82). `l` holds the pairs of weight and code. -/
def planeRes (p : Nat) (l : List (Int × Int)) : Nat := (gatedRes p 1 l + 3 - gatedRes p (-1) l) % 3

/-- The residue of a running value after its `n` planes, from the sign plane down (R82). -/
def planesRes (l : List (Int × Int)) : Nat → Nat → Nat
  | 0, r => r
  | p + 1, r => planesRes l p ((2 * r + planeRes p l) % 3)

/-- The residue that a K-step's planes leave for a column: the sign plane takes 3 less its D (R82). -/
def stepRes (n : Nat) (l : List (Int × Int)) : Nat :=
  match n with
  | 0 => 0
  | p + 1 => planesRes l p ((3 - planeRes p l) % 3)

/-! ### Accumulators (R44-R47, R73-R75, R82, R83) -/

/-- A saturating addition of a value with its residue into a wide accumulator: the accumulator, and whether it saturates for
the first time. A saturated one takes the residue of its value (R82). -/
def Accum.add (a : Accum) (x : Int) (res : Nat) : Accum × Bool :=
  let r := sat32 (a.w + x)
  ({ a with w := r.1, sat := a.sat || r.2, rw := if r.2 then res3 r.1 else resAdd a.rw res }, r.2 && !a.sat)

/-- Change all 256 columns of a row: the row and the accumulators newly saturated. -/
def RowAcc.each (r : RowAcc) (f : Nat → Accum → Accum × Bool) : SMap Accum × Nat :=
  let l := (List.range 256).map fun j => (j, f j (SMap.look {} r.cols j))
  (l.filterMap (fun e => if e.2.1 = {} then none else some (e.1, e.2.1)), (l.filter (·.2.2)).length)

/-- Promote a row's narrow values (R45, R73): the row, and the accumulators newly saturated. -/
def RowAcc.promote (r : RowAcc) : RowAcc × Nat :=
  let c := r.each fun _ a => let x := a.add (a.nar * 2 ^ r.ofs) (resMul a.rn (res3pow r.ofs))
    ({ x.1 with nar := 0, rn := 0 }, x.2)
  ({ ofs := 0, steps := 0, cols := c.1 }, c.2)

/-- The first column of a row whose residue fails its check, and the cause (R83): the narrow values at promotion, and the wide
values as the row enters the drain shadow register. -/
def RowAcc.badNarrow (r : RowAcc) : Option (Nat × Nat) :=
  r.cols.findSome? fun e => let c := resCheck e.2.rn (res3 e.2.nar) 1
    if c = 0 then none else some (e.1, c)
def RowAcc.badWide (r : RowAcc) : Option (Nat × Nat) :=
  r.cols.findSome? fun e => let c := resCheck e.2.rw (res3 e.2.w) 2
    if c = 0 then none else some (e.1, c)

/-- An upset of a residue beside a row's accumulators: the code 3 for cause 0x04, else another residue. -/
def resUpset (cause r : Nat) : Nat := if cause = 4 then 3 else (r + 1) % 3
def AccSet.upset (a : AccSet) (row col cause : Nat) (narrow : Bool) : AccSet :=
  { a with acc := SMap.modify {} a.acc (a.rows.getD (row % 64) 0) fun r =>
      { r with cols := SMap.modify {} r.cols (col % 256) fun x =>
          if narrow then { x with rn := resUpset cause x.rn } else { x with rw := resUpset cause x.rw } } }

/-- Longest run of K-steps in the narrow accumulators (R45). -/
def narrowLimit (fmt : Nat) : Nat := if fmt = 3 then 6 else 16

/-- What a K-step adds for one column: the sum over the codes and that over the outliers, each with its residue (R43, R82). -/
structure ColSum where
  x : Int := 0
  out : Int := 0
  rx : Nat := 0
  ro : Nat := 0
deriving DecidableEq, Repr

/-- What one K-step makes of a row: the row, its promotions, the accumulators newly saturated, and the column and cause of a
residue that failed its check at a promotion. -/
structure StepOut where
  row : RowAcc
  promotions : Nat := 0
  sat : Nat := 0
  bad : Option (Nat × Nat) := none
deriving DecidableEq, Repr

/-- The planes of a K-step enter the narrow values (R63, R82). -/
def RowAcc.narrow (r : RowAcc) (ofs cost : Nat) (sums : List ColSum) : RowAcc :=
  { ofs := ofs, steps := r.steps + cost
    cols := (r.each fun j a =>
      let x := sums.getD j {}
      ({ a with nar := a.nar + x.x, rn := resAdd a.rn x.rx }, false)).1 }

/-- The end of a K-step at a row (R45, R74): where a promotion is due, the narrow values and the outlier sums enter the wide
values in one addition; else the outlier sums do alone. The row, and the accumulators newly saturated. -/
def RowAcc.settle (r : RowAcc) (due : Bool) (sums : List ColSum) : RowAcc × Nat :=
  let out (j : Nat) : ColSum := sums.getD j {}
  if due then
    let c := r.each fun j a =>
      let y := a.add ((a.nar + (out j).out) * 2 ^ r.ofs) (resMul (resAdd a.rn (out j).ro) (res3pow r.ofs))
      ({ y.1 with nar := 0, rn := 0 }, y.2)
    ({ ofs := 0, steps := 0, cols := c.1 }, c.2)
  else if sums.any (·.out != 0) then
    let c := r.each fun j a => a.add ((out j).out * 2 ^ r.ofs) (resMul (out j).ro (res3pow r.ofs))
    ({ r with cols := c.1 }, c.2)
  else (r, 0)

/-- One K-step of one row (R45, R73, R74, R83, R135): `cost` are the K-steps that it counts, `alone` an escalated block, `last`
the end of the reduction. A promotion is made when it is due and not before (log entry 32), after the check of the narrow
values. -/
def RowAcc.step (r : RowAcc) (fmt ofs cost : Nat) (alone last : Bool) (sums : List ColSum) : StepOut :=
  let first := r.steps != 0 && (r.ofs != ofs || alone || decide (narrowLimit fmt < r.steps + cost))
  let x := if first then r.promote else (r, 0)
  let due := alone || last || decide (narrowLimit fmt ≤ x.1.steps + cost)
  let mid := x.1.narrow ofs cost sums
  let y := mid.settle due sums
  { row := y.1, promotions := b2n first + b2n due, sat := x.2 + y.2
    bad := (if first then r.badNarrow else none).or (if due then mid.badNarrow else none) }

/-! ### Faults (R88, R90) -/

/-- A fault that TE_ERR captures; RESMIS is kept. -/
def teFlt (p e cause : Nat) (t : TdItem) (set row col : Nat) : Flt :=
  let w := captureWord cause [(F.teErrSet, set), (F.teErrRow, row), (F.teErrColumn, col), (F.teErrChain, Ca.chain t.carr)]
  { cause := cause, caps := [(teB p e + 8, w, 48)], word := w, sub := e }

/-- The faults of a scheduled port of an engine (R281, R282): TE0 comes first in the order and loses no conflict, and a hazard
is met by a read port alone. -/
def tePort (p e : Nat) (t : TdItem) (f : EngFind) (set row : Nat) (read : Bool) : Eng Unit :=
  if (f.port = 1 ∧ e ≠ 0) ∨ (f.port = 2 ∧ read = true) then
    portFlt p t f 0x07 0x08 (fun c => (teB p e + 8, (teFlt p e c t set row 0).word, 48)) e
  else pure ()

/-! ### Passes -/

/-- The format that a pass's set is tagged with (R87, R136): that of the layer; an adapter's input is A8 (R164). -/
def TdItem.tag (t : TdItem) : Nat := if Ca.kind t.carr = Kd.adapter then 3 else Pr.fmt (Ld.prec t.layer)

/-- Where the block of row `i` lies for a pass against K-step `k`. -/
def TdItem.slotAt (t : TdItem) (stage k i : Nat) : Nat :=
  let a (n : Nat) : Nat := bits (Ca.a t.carr n) 0 22
  match stage with
  | 2 => a 2 + 704 * (t.P * (1 + k) + i)
  | 3 => a 2 + 704 * i
  | 5 => a 1 + 1280 * i
  | _ => a 0 + Ld.astride t.layer * (t.P * k + i)

/-- A pass of a set. -/
def Te.set (x : Te) (n : Nat) : AccSet := if n = 0 then x.setA else x.setB

/-- Change a set. -/
def State.modSet (s : State) (p e n : Nat) (f : AccSet → AccSet) : State :=
  s.modTe p e fun x => if n = 0 then { x with setA := f x.setA } else { x with setB := f x.setB }

/-- Read the block of a row (R42, R66, R74). -/
def readBlock (p e : Nat) (t : TdItem) (x : Pass) (k i : Nat) : Eng ABlk := do
  let off := t.slotAt x.stage k i
  let h ← spmRead p t.coach t.graph off 64
  if blockOk h = false then throw (teFlt p e 0x06 t x.set (x.rows.idxOf i) 0)
  let f := bits (fieldLE h 0 1) 0 2
  let l ← if f = 0 then pure h else spmRead p t.coach t.graph off (blockBytes f)
  modify fun s => s.modTe p e fun y => { y with abuf := (l :: y.abuf).take 2 }
  pure (ABlk.of l)

/-- The delta carts that a row meets at a tile (R159, R160): none where the row's overlay has none there. -/
def State.rowCarts (s : State) (p : Nat) (t : TdItem) (x : Pass) (tile i : Nat) : List (List Byte) :=
  if Ca.kind t.carr = Kd.dense ∧ x.stage = 0 then
    match s.oveAt t i with
    | none => []
    | some o => (((s.core p).ge.find? fun g => g.carr == t.key + 1 && g.ove == o && g.tile == tile).map GeList.carts).getD []
  else []

/-- Planes that a block takes (R64, R65). -/
def planesOf (strictTime : Bool) (b : ABlk) : Nat := if strictTime then fmtBits b.fmt else b.width

/-- Count a row's work at an engine. -/
def State.countPlanes (s : State) (p e planes skipped zeros : Nat) : State :=
  ((s.bump (teB p e) F.teCycPlane planes).bump (teB p e) F.tePlanesSkipped skipped).bump (teB p e) F.teZeroBlocks zeros

/-- What a K-step of a block adds for tile column `j`: the dense pass and the slices of that column over the codes, and the
outlier records and the marked entries (R43, R74, R80, R82). -/
def ABlk.colSum (b : ABlk) (planes : Nat) (w : List Int) (slices : List (Nat × Nat × Bool)) : ColSum :=
  let sgn (y : Nat × Nat × Bool) : Int := if y.2.2 then -1 else 1
  let recsAt (k : Nat) : Int := (b.recs.filter fun r => r.1 == k).foldl (fun a r => a + r.2) 0
  let dense := (w.zip b.codes).filter fun x => x.1 != 0 && x.2 != 0
  let sparse := slices.map fun y => (sgn y, b.codes.getD y.1 0)
  let outs := b.recs.map (fun r => (w.getD r.1 0, r.2)) ++ slices.map fun y => (sgn y, recsAt y.1)
  { x := dense.foldl (fun a x => a + x.1 * x.2) 0 + sparse.foldl (fun a x => a + x.1 * x.2) 0
    rx := resAdd (stepRes planes dense) (stepRes planes sparse)
    out := outs.foldl (fun a x => a + x.1 * x.2) 0
    ro := outs.foldl (fun a x => resAdd a (resMul (res3 x.1) (res3 x.2))) 0 }

/-- One row of a pass against a tile (R63-R67, R73-R75, R80, R81). PLANES_SKIPPED counts the planes that the dense pass of a
block skips and not those of its slices, and OUTLIER_TERMS the block's records and not the marked entries of slices (DESIGN
CHOICE, log entry 91). -/
def runRow (p e : Nat) (t : TdItem) (x : Pass) (tile : Tile) (ld : Load) (i : Nat) : Eng Unit := do
  let s ← get
  let b := teB p e
  let masked := s.itemRowOff t i
  let blk ← if masked then pure {} else readBlock p e t x ld.kstep i
  let carts := if masked then [] else s.rowCarts p t x ld.tile i
  let none0 := blk.fmt == 0
  let planes := if none0 then (if s.strictTime then fmtBits t.tag else 0) else planesOf s.strictTime blk
  modify fun s => s.countPlanes p e planes (if none0 then 0 else fmtBits blk.fmt - planes) (b2n none0)
  let runs := if none0 && !s.strictTime then [] else carts.flatMap cartRuns
  let entries := runs.foldl (fun a r => a + r.2.length) 0
  modify fun s => s.modTe p e fun y => { y with compact := runs != [] }
  if runs ≠ [] then
    let o := (s.oveAt t i).getD 0
    modify fun s => s.modCore p fun c => { c with gather := (o, ((runs.getLast?).map (·.1)).getD 0) }
    modify fun s => (((s.bump (geB p) F.geSlicesOut runs.length).bump (geB p) F.geEntriesOut entries).bump b
      F.teCompactSlices runs.length).bump b F.teCycPlane ((runs.length + 3) / 4 * planes)
  if none0 = false then
    modify fun s => s.bump b F.teOutlierTerms blk.recs.length
    let sums := (List.range 256).map fun j =>
      blk.colSum planes (tileColumn tile.blocks j) ((runs.filter fun r => r.1 == j).flatMap (·.2))
    let alone := blk.esc || blk.fmt != t.tag
    let r := (SMap.look {} ((s.te p e).set x.set).acc i).step t.tag blk.ofs (if runs = [] then 1 else 2) alone x.fin sums
    match r.bad with
    | some (j, cause) => throw (teFlt p e cause t x.set (x.rows.idxOf i) j)
    | none =>
      modify fun s => (((s.modSet p e x.set fun a => { a with acc := SMap.put {} a.acc i r.row }).bump b F.tePromotions
        r.promotions).bump b F.teSatOut r.sat)

/-- Promote what a row of a set still holds at the end of its reduction (R45, R72, R83). -/
def promoteRow (p e : Nat) (t : TdItem) (x : Pass) (i : Nat) : Eng Unit := do
  let s ← get
  let r := SMap.look {} ((s.te p e).set x.set).acc i
  if r.steps ≠ 0 then
    match r.badNarrow with
    | some (j, cause) => throw (teFlt p e cause t x.set (x.rows.idxOf i) j)
    | none =>
      let y := r.promote
      set (((s.modSet p e x.set fun a => { a with acc := SMap.put {} a.acc i y.1 }).bump (teB p e) F.tePromotions).bump (teB p e)
        F.teSatOut y.2)

/-! ### The predictor (R241-R245) -/

/-- The step is an audit step (R244). -/
def State.audit (s : State) : Bool := s.chip F.predAuditInt != 0 && s.chip F.steps % s.chip F.predAuditInt == 0

/-- The layers whose predictor governs a carriage's tile, with the column block concerned: the up and gate tiles of the layer
itself by their columns, and the down tiles of the layer after it by their K-step (log entry 33). -/
def State.predBlock (s : State) (t : TdItem) (ld : Load) : Option (Nat × Nat) :=
  let l := t.layer
  if s.strict then none
  else if Ld.pred l && Pd.en l then
    some (Ca.layer t.carr, 256 * (ld.tile / Ld.nkstep l) % (1280 * Pd.nblk l) / 1280)
  else if 0 < Ca.layer t.carr then
    match s.graph t.graph with
    | none => none
    | some g =>
      let u := g.layers.getD (Ca.layer t.carr - 1) []
      if Ld.pred u && Pd.en u then some (Ca.layer t.carr - 1, ld.kstep / 2) else none
  else none

/-- A row predicts a column block inactive (R242); a row without a prediction does not. -/
def State.inactive (s : State) (gid layer m block : Nat) : Bool :=
  let l := SMap.look [] s.gs.predActive (65536 * gid + layer)
  l.contains (m, 256) && !l.contains (m, block)

/-- A pass is skipped: no row of its group predicts its column block active (R243). -/
def State.passSkipped (s : State) (t : TdItem) (x : Pass) (ld : Load) : Bool :=
  if Ca.kind t.carr ≠ Kd.dense ∨ s.audit = true then false
  else match s.predBlock t ld with
    | none => false
    | some (layer, block) => x.rows.all fun i =>
        let m := t.row0 + 64 * Ca.gfirst t.carr + i
        s.itemRowOff t i || s.inactive t.graph layer m block

/-! ### Issue (R69, R72, R136) -/

/-- The delta carts that a pass needs have been read (R157, R158). -/
def State.cartsRead (s : State) (p : Nat) (t : TdItem) (x : Pass) (ld : Load) : Bool :=
  (s.core p).ge.all fun g => !(g.carr == t.key + 1 && g.tile == ld.tile && x.stage == 0
    && x.run.any fun i => s.oveAt t i == some g.ove) || g.carts.length == g.ncart

/-- A set may take a pass: it is FREE, or fills for the same work (R72). -/
def AccSet.takes (a : AccSet) (t : TdItem) (x : Pass) : Bool :=
  a.st == 0 || (a.st == 1 && !a.full && a.carr == t.key + 1 && a.group == x.group && a.stage == x.stage && a.ove == x.ove
    && a.panel == x.panel && a.rows == x.rows)

/-- The engine can run the carriage's next pass now: its tile is active, its set takes it, the format stands, and the delta
carts are there. -/
def State.passReady (s : State) (p e : Nat) (t : TdItem) (x : Pass) : Bool :=
  let te := s.te p e
  let tileOk := match x.load with
    | none => true
    | some k => te.active.any (fun y => y.carr == t.key + 1 && y.load == k) && s.cartsRead p t x (t.loads.getD k {tile := 0, aspace := 0, wblk := 0, widx := 0})
  tileOk && (te.set x.set).takes t x && (te.fmt == 0 || te.fmt == t.tag)

/-- Cycles that an engine waited before a pass (R70, R72, R78, R81): the wait for a tile counts from the second tile of a
segment on. Forced scrubs that no port has counted cost it a cycle each (R288, log entry 92). -/
def State.countWaits (s : State) (p e : Nat) (x : Pass) (f : EngFind) : State :=
  let b := teB p e
  let s := (s.bump b F.teCycAstall (f.waited + (s.core p).forced)).bump b F.teCycDstall f.setWait
  let s := s.modCore p fun c => { c with forced := 0 }
  let s := if x.tile ≠ 0 then s.bump b F.teCycWstall f.tileWait else s
  s.bump (geB p) F.geCycGstall f.cartWait

/-- The E_L of the sums that a pass makes (R36): that of the layer, or for an adapter that of PREC_D or PREC_U (R165). -/
def TdItem.el (t : TdItem) (x : Pass) : Int :=
  let d := SMap.look [] t.adapters x.ove
  match x.stage with
  | 2 => Pr.el (Ad.precD d)
  | 3 => Pr.el (Ad.precU d)
  | _ => Pr.el (Ld.prec t.layer)

/-- A set takes a pass: a FREE one is cleared and tagged for it (R62, R72). -/
def AccSet.open (a : AccSet) (t : TdItem) (x : Pass) : AccSet :=
  if a.st = 0 then { st := 1, fmt := t.tag, el := t.el x, carr := t.key + 1, group := x.group, stage := x.stage, ove := x.ove
                     panel := x.panel, rows := x.rows } else a

/-- A pass of a ternary engine runs (R69). An upset of a narrow residue strikes before its rows run, and the check at the
promotion that follows finds it (R83). -/
def runPass (p e i : Nat) (t : TdItem) (x : Pass) (f : EngFind) : Eng Unit := do
  modify fun s => (s.countWaits p e x f).modTe p e fun y => { y with fmt := t.tag }
  modify fun s => s.modSet p e x.set fun a => a.open t x
  tePort p e t f x.set f.row true
  if f.cause = 1 ∨ f.cause = 4 then modify fun s => s.modSet p e x.set fun a => a.upset f.row f.col f.cause true
  let s ← get
  match x.load, (s.te p e).active with
  | some k, some tile =>
    let ld := t.loads.getD k { tile := 0, aspace := 0, wblk := 0, widx := 0 }
    if s.passSkipped t x ld then set (s.count F.predSkipped)
    else
      if Ca.kind t.carr = Kd.delta then modify fun s => s.bump (geB p) F.geDensePairs
      x.run.forM fun i => runRow p e t x tile ld i
  | _, _ => pure ()
  if x.fin then
    x.rows.forM fun i => promoteRow p e t x i
    modify fun s => s.modSet p e x.set fun a => { a with full := true }
  modify fun s => s.modItem p i fun u => { u with todo := u.todo.drop 1 }

/-- SET_READY (R72): two cycles after its last plane, the set whose group is complete becomes READY. -/
def execSetReady (core te : Nat) (s : State) : Res :=
  .next (let x := s.te core te
    let ready (a : AccSet) : Bool := a.st == 1 && a.full
    let mark (n : Nat) : State := (s.modSet core te n fun a => { a with st := 2, readyNo := x.readyCount }).modTe core te
      fun y => { y with readyCount := y.readyCount + 1, compact := false }
    if ready x.setA then mark 0 else if ready x.setB then mark 1 else s)

/-- TE_FORMAT_BARRIER_END (R136): the carriage whose turn it is has another format than the engine, and every set that holds
sums of another format is FREE: the engine changes its format. -/
def execTeFormatBarrierEnd (core te : Nat) (s : State) : Res :=
  .next (let x := s.te core te
    match (s.core core).td.find? (fun t => engineOf t.carr == te && Ca.isTe t.carr && t.todo != []) with
    | none => s
    | some t =>
      let waits (a : AccSet) : Bool := a.st != 0 && a.fmt != t.tag
      if x.fmt = 0 ∨ x.fmt = t.tag ∨ waits x.setA = true ∨ waits x.setB = true then s
      else (s.modTe core te fun y => { y with fmt := t.tag }).bump (qB core) F.qFmtBarriers)

/-- TILE_SWAP (R70): the shadow set is complete and no pass against the active tile is left, and the tile is swapped in; its
hand-over credit returns. -/
def execTileSwap (core te : Nat) (s : State) : Res :=
  .next (let x := s.te core te
    match x.shadow with
    | none => s
    | some y =>
      let used (a : Tile) : Bool := (s.core core).td.any fun t => t.key + 1 == a.carr && t.todo.any fun z => z.load == some a.load
      if x.active.any used then s
      else ((s.modTe core te fun z => { z with active := some y, shadow := none, compact := false }).qLeave (Qk.tile core te)).bump
        (teB core te) F.teTiles)

end Sys2Proof.Machine
end

