-- ==== Sys2Proof/Machine/Quantiser.lean ====
section
/-!
DEFINITION. The quantiser of the vector unit (05): passes over a block (R39-R41, R124, R125), the pass sequence (R127), spills
(R126), escalation (R128), pinned blocks (R129, R130), and what a core counts and records of them (R131-R133, R141, R142).
-/
namespace Sys2Proof.Machine

/-! ### One pass -/

/-- `x * 2^-(E_L + OFS)` to the nearest integer (R39). -/
def scaledRound (x : F32) (k : Int) : Int := f32Round x (-k)

/-- The offset of R40 for largest magnitude `m`, width `b` and base exponent `el`. -/
def ofs40 (m : F32) (b : Nat) (el : Int) : Nat :=
  (firstBelow 8 fun o => decide (scaledRound (f32Abs m) (el + (o : Int)) ≤ 2 ^ (b - 1) - 1)).getD 7

/-- What a pass makes of a block. -/
structure QPass where
  codes : List Int
  recs : List (Nat × Int)
  zcnt : Nat
  scnt : Nat
  /-- Elements that saturated and are not carried as outliers. -/
  sat : List Nat
  /-- More than 8 elements lay out of range while OUTL_EN is 1. -/
  many : Bool
  breach : Bool
deriving DecidableEq, Repr

/-- The eight places of largest magnitude, the lower index first among equals (R129). -/
def eightLargest (xs : List F32) (far : List Nat) : List Nat :=
  let larger (a b : Nat) : Bool :=
    let x := (f32Abs (xs.getD a f32Zero)).toNat
    let y := (f32Abs (xs.getD b f32Zero)).toNat
    decide (y < x) || (x == y && decide (a ≤ b))
  sortBy (fun a b => decide (a ≤ b)) ((sortBy larger far).take 8)

/-- One pass over a block's finite values at width `b` and an offset (R39, R41, R124, R125, R129). -/
def qPass (xs : List F32) (b ofs : Nat) (outl : Bool) (p : List Byte) : QPass :=
  let hi : Int := 2 ^ (b - 1) - 1
  let lo : Int := -(2 ^ (b - 1))
  let rs := xs.map fun x => scaledRound x (Pr.el p + (ofs : Int))
  let far := (rs.zipIdx.filter fun e => e.1 < lo || hi < e.1).map (·.2)
  let keep := if outl then eightLargest xs far else []
  let sat := far.filter fun k => !keep.contains k
  let codes := rs.zipIdx.map fun e => if keep.contains e.2 then 0 else max lo (min hi e.1)
  let recs := keep.map fun k => (k, max (-32768) (min 32767 (rs.getD k 0)))
  let clamped := keep.filter fun k => rs.getD k 0 < -32768 || 32767 < rs.getD k 0
  let live := (xs.zipIdx.filter fun e => !e.1.isZero && !keep.contains e.2).map (·.2)
  let zcnt := (live.filter fun k => codes.getD k 0 == 0).length
  let scnt := sat.length + clamped.length
  { codes := codes, recs := recs, zcnt := zcnt, scnt := scnt, sat := sat, many := outl && decide (8 < far.length)
    breach := decide (Pr.zthr p < zcnt) || decide (Pr.sthr p < scnt) || (live != [] && live.all sat.contains) }

/-! ### The final form (R37, R38, R42) -/

/-- Codes as payload bytes (R38). -/
def packBlock (b : Nat) (qs : List Int) : List Byte :=
  (List.range (640 * b / 8)).map fun i =>
    Byte.ofNat ((List.range (8 / b)).foldl (fun a k => a + unsigned b (qs.getD (8 / b * i + k) 0) * 2 ^ (b * k)) 0)

/-- A block with its header. -/
def blockImage (fmt ofs esc spill zcnt scnt : Nat) (maxabs : BF) (recs : List (Nat × Int)) (qs : List Int) : List Byte :=
  let h := packFields 64 [(0, 1, fmt + 4 * ofs + 32 * esc + 64 * spill), (1, 1, recs.length), (2, 2, zcnt), (4, 2, scnt),
    (8, 2, maxabs.toNat)]
  let h := recs.zipIdx.foldl (fun l e => overlay l (16 + 4 * e.2) (leBytes 2 e.1.1 ++ leBytes 2 (unsigned 16 e.1.2))) h
  if fmt = 0 then h else h ++ packBlock (fmtBits fmt) qs

/-- What the quantisation of one block leaves and counts. -/
structure QOut where
  bytes : List Byte
  isZero : Bool := false
  replays : Nat := 0
  escalated : Bool := false
  spilled : Bool := false
  ceil : Bool := false
  outliers : Nat := 0
  /-- Kind and place in the block of a pin flag (R130, R141). -/
  pin : Option (Nat × Nat) := none
  /-- The block holds an infinity or a NaN (R133). -/
  bad : Bool := false
deriving DecidableEq, Repr

/-- The form that a pass is written in; a block without a code or record is a zero block (R42). -/
def qEmit (r : QPass) (b ofs esc spill : Nat) (m : F32) : QOut :=
  let z := r.recs.isEmpty && r.codes.all (· == 0)
  let fmt := if z then 0 else if b = 2 then 1 else if b = 4 then 2 else 3
  { bytes := blockImage fmt ofs esc spill r.zcnt r.scnt (f32ToBf m) r.recs r.codes, isZero := z
    outliers := if z then 0 else r.recs.length, escalated := esc == 1 && spill == 0, spilled := spill == 1 }

/-- A spill (R126). -/
def qSpill (xs : List F32) (m : F32) (p : List Byte) : QOut :=
  let o := ofs40 m 8 (Pr.el p)
  qEmit (qPass xs 8 o false p) 8 o 1 1 m

/-- The pin flag of a pass over a pinned block (R130, R141): the pinned elements' kinds go before a breach. -/
def pinFlag (xs : List F32) (pins : List Nat) (r : QPass) : Option (Nat × Nat) :=
  let kind (k : Nat) : Nat :=
    if (xs.getD k f32Zero).isZero ∨ r.recs.any (·.1 == k) then 0
    else if r.sat.contains k then 2 else if r.codes.getD k 0 = 0 then 3 else 0
  match pins.find? fun k => kind k != 0 with
  | some k => some (kind k, k)
  | none => if r.breach then some (1, pins.headD 0) else none

/-- The passes of a block that is not pinned, in order (R127): the first that does not breach is written, a spill ends them, and
after the last one the block is written as it is in A8 or escalated (R128). -/
def qTry (xs : List F32) (b : Nat) (p : List Byte) (m : F32) (made : Nat) : List Nat → QOut
  | [] => { bytes := [] }
  | o :: rest =>
    let r := qPass xs b o (Pr.outl p) p
    if r.many then { qSpill xs m p with replays := made }
    else if r.breach = false then { qEmit r b o 0 0 m with replays := made }
    else match rest with
      | _ :: _ => qTry xs b p m (made + 1) rest
      | [] =>
        if b = 8 then { qEmit r b o 0 0 m with replays := made, ceil := true }
        else
          let w := 2 * b
          let e := ofs40 m w (Pr.el p)
          let q := qPass xs w e (Pr.outl p) p
          if q.many then { qSpill xs m p with replays := made }
          else { qEmit q w e 1 0 m with replays := made, escalated := true }

/-- The final form of a block of 640 values under a precision field (R127, R133); `pins` are its pinned places, ascending. The
zero block of an infinity or a NaN, as that of a masked row, has MAXABS 0 (DESIGN CHOICE, log entry 37). Where no offset keeps a
code, a pinned element that is not zero is rounded to zero and raises the pin flag (R130). -/
def quantBlock (p : List Byte) (pins : List Nat) (xs : List F32) : QOut :=
  let el := Pr.el p
  let b := fmtBits (Pr.fmt p)
  if xs.any F32.bad then { bytes := blockImage 0 0 0 0 0 0 0 [] [], isZero := true, bad := true }
  else
    let m := maxAbs xs
    let live := xs.filter fun x => !x.isZero
    let half := match m.val with
      | .fin _ n e => n == 0 || decide (scaledInt false n (e - el) (min (e - el) (-1)) ≤ 2 ^ (-1 - min (e - el) (-1)).toNat)
      | _ => true
    if half then
      { bytes := blockImage 0 0 0 0 live.length 0 (f32ToBf m) [] [], isZero := true
        pin := (pins.find? fun k => !(xs.getD k f32Zero).isZero).map fun k => (3, k) }
    else
      let o0 := if Pr.dyn p then ofs40 m b el else Pr.ofsCal p
      if pins ≠ [] then
        let r := qPass xs b o0 (Pr.outl p) p
        { qEmit r b o0 0 0 m with pin := pinFlag xs pins r }
      else
        let mags := sortBy (fun a b => decide (b ≤ a)) (xs.map fun x => (f32Abs x).toNat)
        let m9 : F32 := BitVec.ofNat 32 (mags.getD 8 0)
        let list := (o0 :: ofs40 m b el :: if Pr.outl p then [ofs40 m9 b el] else []).eraseDups
        qTry xs b p m 0 list

/-! ### What a core records (R130-R133, R141, R142) -/

/-- Count a block written, with its flags in the completion of the carriage (R130, R131) and the record of its first spill
(R132). `first` is the K position of the block's element 0. -/
def State.countBlock (s : State) (p i layer first : Nat) (q : QOut) : State :=
  match s.item p i with
  | none => s
  | some t =>
    let b := qB p
    let s := (((s.bump b F.qQblocks).bump b F.qQreplays q.replays).bump b F.qCycQreplay (10 * q.replays)).bump b F.qOutliers q.outliers
    let s := (s.bump b F.qZeroBlocks (b2n q.isZero)).bump b F.qEscCeil (b2n q.ceil)
    let s := (s.bump b F.qEscalations (b2n q.escalated)).bump b F.qOutlierSpill (b2n q.spilled)
    let s := if q.escalated ∨ q.spilled then s.modItem p i fun u => { u with flags := u.flags ||| 4 } else s
    let s := if q.spilled = true ∧ t.spilled = false then
        (s.modItem p i fun u => { u with spilled := true }).raise
          { cls := 5, sev := 0, cause := 0x91, unit := 3, inst := p, coach := some t.coach, graph := t.graph, index := t.index
            attempt := t.attempt, lcore := some (s.logical p), detail := leBytes 2 layer }
      else s
    match q.pin with
    | none => s
    | some k =>
      let w := 1 + 4 * k.1 + 16 * (t.coach % 4096) + 2 ^ 16 * ((first + k.2) % 2 ^ 26) + 2 ^ 42 * (layer % 65536)
      ((s.bump b F.qPinBreach).capture b w).modItem p i fun u => { u with flags := u.flags ||| 2 }

/-- The row at a place of a carriage's window is masked with BAD_ARG from the next carriage boundary: as the carriage ends
(R133). -/
def State.badRow (s : State) (p idx : Nat) (t : TdItem) (i : Nat) : State :=
  s.modItem p idx fun u => { u with bad := insertNat (t.row0 + 64 * Ca.gfirst t.carr + i) u.bad }

/-- Quantise one row's 640 values and write the block through `put`: a masked row is a zero block that counts nothing (R133). -/
def quantRow (p idx : Nat) (t : TdItem) (layer first : Nat) (prec : List Byte) (pins : List Nat) (i : Nat)
    (masked : Bool) (xs : List F32) (put : List Byte → Eng Unit) : Eng Unit := do
  if masked then put (blockImage 0 0 0 0 0 0 0 [] [])
  else
    let q := quantBlock prec pins xs
    put q.bytes
    modify fun s => s.countBlock p idx layer first q
    if q.bad then modify fun s => s.badRow p idx t i

end Sys2Proof.Machine
end

