-- ==== Sys2Proof/Machine/Drain.lean ====
section
/-!
DEFINITION. Drains and drawbar chains (R72, R76-R79, R265), the conversion of rows (R48), appended keys and values (R185), and
what adapter (R165, R166) and predictor (R242) sets become.
-/
namespace Sys2Proof.Machine

/-! ### Carriages and results -/

/-- The carriage that a set belongs to, by its place in the TD. -/
def State.itemOf (s : State) (p carr : Nat) : Option (Nat × TdItem) :=
  (((s.core p).td.zipIdx.find? fun e => e.1.key + 1 == carr).map fun e => (e.2, e.1))

/-- Manifest number of the row at a place of a carriage's window. -/
def TdItem.man (t : TdItem) (i : Nat) : Nat := t.row0 + 64 * Ca.gfirst t.carr + i

/-- The carts of a write to a neighbour: each within one row of the SPM, so of at most 256 bytes (R15, R275, R278). -/
def TdItem.nbrCarts (t : TdItem) (p off : Nat) (data : List Byte) : List NbrCart :=
  (spmRows off data.length).map fun r =>
    let lo := max off (256 * r)
    { off := lo, data := (data.drop (lo - off)).take (256 * r + 256 - lo), coach := t.coach, src := p, carr := t.key + 1 }

/-- A core sends a write to a neighbour (R278). -/
def State.nbrSend (s : State) (p q : Nat) (c : NbrCart) : State :=
  ((s.qSend (Qk.neighbour p q) Ch.chain (End.core p) (End.core q)).modCore q fun x => { x with nbr := x.nbr ++ [c] }).bump (dmaB p)
    F.dmaNbrOut

/-- A core has a write for a neighbour: it leaves on a credit of its direction, behind those that wait for one (R18, R21). -/
def State.nbrWrite (s : State) (p q : Nat) (c : NbrCart) : State :=
  if (s.core p).nbrWait.all (fun w => w.1 != q) ∧ s.qRoom (Qk.neighbour p q) = true then s.nbrSend p q c
  else s.modCore p fun x => { x with nbrWait := x.nbrWait ++ [(q, c)] }

/-- A credit of a direction has come back: the oldest write that waits for it leaves. -/
def State.nbrPump (s : State) (p q : Nat) : State :=
  match (s.core p).nbrWait.find? fun w => w.1 == q with
  | none => s
  | some w =>
    if s.qRoom (Qk.neighbour p q) then
      (s.modCore p fun x => { x with nbrWait := x.nbrWait.erase w }).nbrSend p q w.2
    else s

/-- NBR_WRITE_RX (R278, R280): the neighbour's SPM writes the oldest cart, and its credit goes back. -/
def execNbrWriteRx (core : Nat) (s : State) : Res :=
  .next (match (s.core core).nbr with
    | [] => s
    | c :: rest =>
      let k := Qk.neighbour c.src core
      let s := s.qAwait k ((s.core core).nbr.filter fun x => x.src == c.src).length
      let s := (s.modCore core fun x => { x with nbr := rest }).spmWrite core c.coach c.off c.data
      ((s.bump (dmaB core) F.dmaNbrIn).qLeave k).nbrPump c.src core)

/-- Write a result at an SPM address: into the own SPM, or as carts to a neighbour (R277, R278). -/
def outWrite (p : Nat) (t : TdItem) (a off : Nat) (data : List Byte) : Eng Unit := do
  let s ← get
  match s.spmTarget p a 0 true with
  | none => throw (tdFlt p 0x42 t)
  | some (q, base) =>
    if q = p then set (s.spmWrite p t.coach (base + off) data)
    else set ((t.nbrCarts p (base + off) data).foldl (fun s c => s.nbrWrite p q c) s)

/-- `n` BF16 values of a table in memory (R337). -/
def readBfs (p : Nat) (t : TdItem) (c aspace a n : Nat) : Eng (List BF) := do
  let l ← tableRead p t c aspace a (2 * n)
  pure (bfs l)

/-- Convert a wide value (R48): to binary32, by 2^E_L, by the column scale. -/
def convert (w el : Int) (c : BF) : F32 := f32Mul (f32Scale (f32OfInt w) el) (BF.toF32 c)

/-- The 256 wide values of a row of a set. -/
def AccSet.wide (a : AccSet) (i : Nat) : List Int :=
  let r := SMap.look {} a.acc i
  (List.range 256).map fun j => (SMap.look {} r.cols j).w

/-- Some accumulator of a row has saturated. -/
def AccSet.anySat (a : AccSet) (i : Nat) : Bool := ((SMap.look {} a.acc i).cols).any fun e => e.2.sat

/-- The output panel of a base carriage: that of its first tile. -/
def TdItem.panel (t : TdItem) : Nat := Ca.tile0 t.carr / Ld.nkstep t.layer

/-! ### Appended keys and values (R185) -/

/-- The list entry of the page that holds a row's token in a stream (R200). -/
def State.kvEntryAt (s : State) (r : Row) (attn k h span : Nat) : Option Nat :=
  (s.coachRead Blk.sb r.coach (r.kvdir + 8 * attn) 8).map fun l => leNat l % 2 ^ 48 + 16 * r.listlen * (2 * h + k) + 16 * span

/-- The number of an attention layer among those of its graph. -/
def State.attnNo (s : State) (gid layer : Nat) : Nat :=
  (((s.graph gid).map fun g => ((g.layers.take layer).filter Ld.attn).length).getD 0)

/-- Read a page-table entry of a row: the list base and the entry go over the fine path. -/
def kvEntry (p : Nat) (t : TdItem) (r : Row) (k h pos : Nat) (bad : Flt) : Eng (List Byte) := do
  let s ← get
  let a := s.attnNo t.graph (Ca.layer t.carr)
  let b ← fineRead p t r.coach 0 (r.kvdir + 8 * a) 8 bad 2 (Blk.td p)
  fineRead p t r.coach 0 (leNat b % 2 ^ 48 + 16 * r.listlen * (2 * h + k) + 16 * (pos / 32)) 16 bad 2 (Blk.td p)

/-- Write bytes to device memory for a carriage. -/
def physWrite (p : Nat) (t : TdItem) (a : Nat) (data : List Byte) : Eng Unit := do
  let s ← get
  let r := s.mcWrite a (s.get (coachB t.coach) F.coachQos) false data []
  set (r.1.bump (dmaB p) F.dmaBytesOut data.length)
  if r.2 = Sc.denied then throw (dmaFlt p 0x51 1 t.graph t.index)

/-- Append one key or value vector of a row: rotation, four KV blocks, codes and scales (R185, R50, R139). -/
def appendVec (p idx : Nat) (t : TdItem) (r : Row) (i k h : Nat) (e : List Byte) (freq v : List F32) : Eng Unit := do
  let s ← get
  let l := t.layer
  let v := if k = 0 ∧ At.rope l = true then ropeVec r.pos freq v else v
  let K := s.get (coachB r.coach) F.coachSeed
  let sid := if k = 0 then At.kstream l else At.vstream l
  let bs := (List.range 4).map fun b =>
    kvQuant (Pe.fmt e) (fun n => philoxDraw K sid (kvIndex r.slot r.pos (128 * h + 32 * b + n))) ((v.drop (32 * b)).take 32)
  let codes := packCodes (Pe.fmt e) (bs.flatMap (·.codes))
  let n := if Pe.fmt e = 1 then 64 else 32
  physWrite p t (s.pageCodes (Pe.page e) + codes.length * (r.pos % n)) codes
  physWrite p t (s.pageScales (Pe.page e) + 8 * (r.pos % n)) (bs.flatMap fun b => leBytes 2 b.scale.toNat)
  let zeros (b : Nat) (q : KvBlock) : Nat :=
    (((v.drop (32 * b)).zip q.codes).filter fun x => !x.1.isZero && x.2 == 0).length
  let dense := (bs.zipIdx.filter fun x => !x.1.bad && decide (Pr.kzthr (Ld.prec l) < zeros x.2 x.1)).length
  let empty := (bs.filter (·.zero)).length
  modify fun s => (((s.bump (qB p) F.qKvBlocks 4).bump (qB p) F.qZeroBlocks empty).bump (qB p) F.qKvZbreach dense).bump (leB p)
    F.leKvAppends
  if bs.any (·.bad) then modify fun s => s.badRow p idx t i

/-- Mask a row of the step, with the record of a poisoned page where that is why (R178, R191). -/
def State.attnMask (s : State) (p : Nat) (t : TdItem) (m chunk status : Nat) : State :=
  let s := s.maskRows [m] status
  if status = Sc.poison then
    let f := leFlt p 0x36 t m 0 chunk
    (s.capture (leB p + 8) f.word).raise
      { cls := 7, sev := 1, cause := 0x36, unit := 3, inst := p, coach := some t.coach, graph := t.graph, index := t.index
        attempt := t.attempt, lcore := some (s.logical p), capture := f.word }
  else s

/-- Run `m`; where a page-list entry that it reads is poisoned (cause 0x36), go on with `h` (R191, R196, log entry 90). -/
def onPoison (m : Eng Unit) (h : State → State) : Eng Unit := fun s =>
  match m s with
  | .error f t => if f.cause = 0x36 then .ok () (h t) else .error f t
  | .ok x t => .ok x t

/-- Append a converted row (R185, R186): a masked row appends nothing; the entries are checked before any code is written. -/
def appendRow (p idx : Nat) (t : TdItem) (i : Nat) (xs : List F32) : Eng Unit := do
  let s ← get
  if s.itemRowOff t i then pure ()
  else
    let l := t.layer
    let m := t.man i
    let r := s.row m
    let heads := [0, 1].map fun j => 2 * t.panel + j
    let mine := (heads.zipIdx.filter fun x => x.1 < 2 * At.nkv l).map fun x =>
      if x.1 < At.nkv l then (0, x.1, x.2) else (1, x.1 - At.nkv l, x.2)
    let freq ← if At.rope l = true ∧ mine.any (·.1 == 0) then do
        let b ← tableRead p t t.coach 0 (At.freqPtr l) 256
        pure (f32s b)
      else pure []
    onPoison (do
      let es ← mine.mapM fun x => do
        let e ← kvEntry p t r x.1 x.2.1 r.pos (leFlt p 0x36 t m 0 0)
        if Pe.fmt e = 0 ∨ Pe.fmt e = 3 ∨ Pe.tier e ≠ 0 then throw (leFlt p 0x35 t m 0 0)
        pure (x, e)
      es.forM fun y => appendVec p idx t r i y.1.1 y.1.2.1 y.2 freq ((xs.drop (128 * y.1.2.2)).take 128))
      fun s => s.attnMask p t m 0 Sc.poison

/-! ### What a set's rows become -/

/-- A row of a chain's last engine (R79): 1 KiB at the destination, or handed to the VU to be appended (R185). -/
def putRow (p idx : Nat) (t : TdItem) (a : AccSet) (i : Nat) : Eng Unit := do
  let cs ← readBfs p t t.coach 1 (Ld.cscale t.layer + 512 * t.panel) 256
  let xs := (a.wide i).zip cs |>.map fun x => convert x.1 a.el x.2
  if a.anySat i then modify fun s => s.modItem p idx fun u => { u with flags := u.flags ||| 1 }
  if Ca.append t.carr then appendRow p idx t i xs
  else outWrite p t (Ca.a t.carr 1) (1024 * i) (f32Bytes xs)

/-- A row of an adapter's down tiles (R165, steps 2 and 3): converted, and quantised under PREC_U as one block. -/
def putDown (p idx : Nat) (t : TdItem) (a : AccSet) (i : Nat) : Eng Unit := do
  let s ← get
  let d := SMap.look [] t.adapters a.ove
  let n := Ad.rank d
  let cs ← readBfs p t (s.oveCoach a.ove) 0 (Ad.downScl d) n
  let xs := ((a.wide i).zip cs).map fun x => convert x.1 a.el x.2
  if a.anySat i then modify fun s => s.modItem p idx fun u => { u with flags := u.flags ||| 1 }
  quantRow p idx t (Ca.layer t.carr) 0 (Ad.precU d) [] i (s.itemRowOff t i) (xs ++ List.replicate (640 - xs.length) f32Zero)
    fun b => modify fun s => s.spmWrite p t.coach (t.slotAt 3 0 i) b

/-- A row of an adapter's up tile (R165, R166): converted, and added by the VU to the layer's output, base first. -/
def putUp (p idx : Nat) (t : TdItem) (a : AccSet) (i : Nat) : Eng Unit := do
  let s ← get
  if s.itemRowOff t i then pure ()
  else
    let d := SMap.look [] t.adapters a.ove
    let cs ← readBfs p t (s.oveCoach a.ove) 0 (Ad.upScl d + 512 * a.panel) 256
    let xs := ((a.wide i).zip cs).map fun x => convert x.1 a.el x.2
    if a.anySat i then modify fun s => s.modItem p idx fun u => { u with flags := u.flags ||| 1 }
    let off := panelAt t.P i (256 * a.panel)
    match s.spmTarget p (Ca.a t.carr 1) 0 true with
    | none => throw (tdFlt p 0x42 t)
    | some (q, base) =>
      let old ← spmRead q t.coach t.graph (base + off) 1024
      outWrite p t (Ca.a t.carr 1) off (f32Bytes (((f32s old).zip xs).map fun x => f32Add x.1 x.2))
      if a.panel = 0 then modify fun s => s.bump (geB p) F.geAdapterRows

/-- A row of a predictor's down tiles (R242): the signs as one A2 block with OFS = 0. -/
def putSigns (p : Nat) (t : TdItem) (a : AccSet) (i : Nat) : Eng Unit := do
  let qs := ((a.wide i).take 64).map Int.sign
  modify fun s => s.spmWrite p t.coach (t.slotAt 5 0 i)
    (blockImage (if qs.all (· == 0) then 0 else 1) 0 0 0 0 0 0 [] (qs ++ List.replicate 576 0))

/-- A row of a predictor's up tile (R242, R243): the scores, in whole words of the SPM (R275), and the column blocks predicted
active. -/
def putScores (p : Nat) (t : TdItem) (a : AccSet) (i : Nat) : Eng Unit := do
  let s ← get
  let n := Pd.nblk t.layer
  let sc := (a.wide i).take n
  let whole := sc ++ List.replicate (n % 2) 0
  set (s.spmWrite p t.coach (t.slotAt 5 0 i + 256) (whole.flatMap fun x => leBytes 4 (unsigned 32 x)))
  if s.itemRowOff t i then pure ()
  else
    let act := (sc.zipIdx.filter fun x => Pd.thr t.layer ≤ x.1).map fun x => (t.man i, x.2)
    let key := 65536 * t.graph + Ca.layer t.carr
    modify fun s => { s with gs := { s.gs with
      predActive := SMap.modify [] s.gs.predActive key fun l => (l.filter fun x => x.1 != t.man i) ++ (t.man i, 256) :: act } }

/-- A row is read into the drain shadow register (R76): the residues beside its wide values are checked (R83). -/
def enterRow (p e n : Nat) (t : TdItem) (a : AccSet) (i : Nat) : Eng Unit := do
  let r := SMap.look {} a.acc i
  match r.badWide with
  | some (j, cause) => throw (teFlt p e cause t n (i % 64) j)
  | none => modify fun s => s.modTe p e fun x => { x with dsr := r.cols }

/-- A finished row of a set goes where its stage sends it. -/
def finishRow (p idx : Nat) (t : TdItem) (a : AccSet) (i : Nat) : Eng Unit :=
  match a.stage with
  | 2 => putDown p idx t a i
  | 3 => putUp p idx t a i
  | 4 => putSigns p t a i
  | 5 => putScores p t a i
  | _ => putRow p idx t a i

/-! ### Carts (R77, R78, R265) -/

/-- Cart number `k` of a draining set, out of the drain shadow register: row `k / 4`, quarter `k mod 4` (R76). RES is formed
from the residues that the engine carries (R77). -/
def AccSet.cart (a : AccSet) (t : TdItem) (dsr : SMap Accum) (k src : Nat) : Cart :=
  let l := (upFrom (64 * (k % 4)) 64).map fun j => SMap.look {} dsr j
  { chain := Ca.chain t.carr, group := a.group, row := a.rows.getD (k / 4) 0 % 64, qtr := k % 4, hop := Ca.pos t.carr
    coach := t.coach, res := l.foldl (fun n x => resAdd n x.rw) 0, sat := l.map (·.sat), vals := l.map (·.w), pass := t.pass
    graph := t.graph, src := src }

/-- The message that takes a cart to a remote position (R265, R370). -/
def Cart.msg (c : Cart) (node : Nat) : Msg :=
  let tag := packFields 16 [(0, 2, c.chain), (2, 1, c.row + 64 * c.qtr), (3, 1, c.group), (4, 1, c.hop), (5, 1, c.res),
    (6, 2, c.coach), (8, 8, c.sat.zipIdx.foldl (fun a b => a + b2n b.1 * 2 ^ b.2) 0)]
  { mtype := 0x20, vc := 6, dst := node, coach := c.coach, arg := c.pass
    data := tag ++ c.vals.flatMap fun v => leBytes 4 (unsigned 32 v) }

/-- The link to the next engine takes a further cart (R21, R78, R265): 8 per link. -/
def State.linkRoom (s : State) (p : Nat) (t : TdItem) : Bool :=
  if Ca.remote t.carr then decide (SMap.look 0 s.link.barOut (65536 * t.graph + Ca.chain t.carr) < 8)
  else match s.nextEngine t with
    | none => false
    | some (q, f) => s.qRoom (Qk.drawbar (engineNo p (Ca.te t.carr)) (engineNo q f))

/-- Send a cart to the next engine of its chain: within the core, over N5 to another core, or over EKL (R16, R265). -/
def State.sendCart (s : State) (p : Nat) (t : TdItem) (c : Cart) : State :=
  let s := s.bump (teB p (Ca.te t.carr)) F.teBarOut
  if Ca.remote t.carr then
    let key := 65536 * t.graph + Ca.chain t.carr
    ({ s with link := { s.link with barOut := SMap.modify 0 s.link.barOut key (· + 1) } }).send (c.msg (Ca.node t.carr))
  else match s.nextEngine t with
    | none => s
    | some (q, f) =>
      let k := Qk.drawbar (engineNo p (Ca.te t.carr)) (engineNo q f)
      let s := if q = p then s.qPut k else s.qSend k Ch.chain (End.core p) (End.core q)
      s.modTe q f fun x => { x with link := x.link ++ [c] }

/-- The link that feeds a carriage's position: the engine of the position before it, plus one; 0 for another device. -/
def State.feed (s : State) (t : TdItem) : Nat :=
  (((s.graph t.graph).bind fun g => g.before t.carr).bind fun b =>
    (s.phys (t.pbase + Ca.lcore b)).map fun q => engineNo q (Ca.te b) + 1).getD 0

/-- The carts that wait on the link that feeds a carriage's position. -/
def State.fed (s : State) (p : Nat) (t : TdItem) : List Cart :=
  let src := s.feed t
  (s.te p (Ca.te t.carr)).link.filter fun c =>
    c.src == src && (src != 0 || (c.graph == t.graph && c.chain == Ca.chain t.carr))

/-- The set that an engine drains: its number. -/
def Te.draining (x : Te) : Option Nat := if x.setA.st = 3 then some 0 else if x.setB.st = 3 then some 1 else none

/-- The first engine of a chain sends the carts of its draining set while the link takes them (R76, R78); `fuel` bounds them. A
row whose residue fails its check ends the carriage (R83). -/
def State.pump (s : State) (p e : Nat) : Nat → State
  | 0 => s
  | f + 1 =>
    match (s.te p e).draining with
    | none => s
    | some n =>
      let a := (s.te p e).set n
      match s.itemOf p a.carr with
      | none => s
      | some (idx, t) =>
        if a.stage ≠ 0 ∨ Ca.pos t.carr ≠ 0 ∨ Ca.lenm1 t.carr = 0 ∨ 4 * a.rows.length ≤ a.sent ∨ s.linkRoom p t = false then s
        else
          match (if a.sent % 4 = 0 then enterRow p e n t a (a.rows.getD (a.sent / 4) 0) else pure ()) s with
          | .error x s => s.faultItem p idx x
          | .ok _ s =>
            let c := a.cart t (s.te p e).dsr a.sent (engineNo p e + 1)
            State.pump ((s.sendCart p t c).modSet p e n fun a => { a with sent := a.sent + 1 }) p e f

/-- The credits of a remote chain link have come back (R370): the senders of this device go on. -/
def State.pumpRemote (s : State) : State :=
  s.cores.foldl (fun s c => (List.range 4).foldl (fun s e => s.pump c.1 e 8) s) s

/-- SET_DRAIN_START (R72, R76): the oldest READY set takes the free drain port. The first engine of a chain sends its carts, an
engine alone or a set of an adapter or predictor converts its rows, and others wait for carts. An upset of a wide residue
strikes before the rows leave (R83). -/
def execSetDrainStart (core te : Nat) (found : EngFind) (s : State) : Res :=
  .next (let x := s.te core te
    let pick : Option Nat :=
      if x.draining.isSome then none
      else if x.setA.st = 2 ∧ (x.setB.st ≠ 2 ∨ x.setA.readyNo ≤ x.setB.readyNo) then some 0
      else if x.setB.st = 2 then some 1 else none
    match pick with
    | none => s
    | some n =>
      match s.itemOf core (x.set n).carr with
      | none => s
      | some (i, t) =>
        let s := s.meet core found
        let s := (s.modSet core te n fun a => { a with st := 3 }).bump (teB core te) F.teCycBstall found.barWait
        let s := if found.cause = 2 ∨ found.cause = 4 then
            s.modSet core te n fun a => a.upset found.row found.col found.cause false else s
        s.work core i (do
          tePort core te t found n (found.row % 64) false
          let s ← get
          let a := (s.te core te).set n
          if a.stage ≠ 0 ∨ Ca.lenm1 t.carr = 0 then
            a.rows.forM fun r => do
              enterRow core te n t a r
              finishRow core i t a r
            modify fun s => s.modSet core te n fun a => { a with sent := 4 * a.rows.length }
          else if Ca.pos t.carr = 0 then modify fun s => s.pump core te 8))

/-- SET_DRAIN_DONE (R72): the last cart of a set's last row has been sent or written, and the set becomes FREE. -/
def execSetDrainDone (core te : Nat) (s : State) : Res :=
  .next (match (s.te core te).draining with
    | none => s
    | some n => if ((s.te core te).set n).sent < 4 * ((s.te core te).set n).rows.length then s else s.modSet core te n fun _ => {})

/-- A cart's tag is what a draining engine expects next (R78). -/
def Cart.expected (c : Cart) (t : TdItem) (a : AccSet) : Bool :=
  c.chain == Ca.chain t.carr && c.group == a.group && c.row == a.rows.getD (a.sent / 4) 0 % 64 && c.qtr == a.sent % 4
    && c.hop + 1 == Ca.pos t.carr && c.coach == t.coach

/-- An upset that strikes a cart on its link: its RES differs (cause 0x03) or is the code 3 (0x04), or its tag differs (0x05). -/
def Cart.upset (c : Cart) (cause : Nat) : Cart :=
  match cause with
  | 3 => { c with res := (c.res + 1) % 3 }
  | 4 => { c with res := 3 }
  | 5 => { c with row := (c.row + 1) % 64 }
  | _ => c

/-- The cause that the checks of R78 find in a cart; 0 for none. -/
def Cart.check (c : Cart) (t : TdItem) (a : AccSet) : Nat :=
  if c.res = 3 then 4 else if c.expected t a = false then 5
  else if c.res ≠ c.vals.foldl (fun n x => resAdd n (res3 x)) 0 then 3 else 0

/-- Add a cart into the row that drains (R46, R78, R82). It counts in BAR_IN here: a cart that fails its checks, or leaves the
buffer unadded, does not count (DESIGN CHOICE, log entry 96). -/
def addCart (p e n : Nat) (c : Cart) : Eng Unit := do
  let s ← get
  let a := (s.te p e).set n
  let i := a.rows.getD (a.sent / 4) 0
  let r := SMap.look {} a.acc i
  let x := (List.range 64).foldl (fun (x : SMap Accum × Nat) k =>
    let j := 64 * c.qtr + k
    let v := c.vals.getD k 0
    let y := (SMap.look {} x.1 j).add v (res3 v)
    (SMap.put {} x.1 j { y.1 with sat := y.1.sat || c.sat.getD k false }, x.2 + b2n y.2)) (r.cols, 0)
  let s := (s.modSet p e n fun a => { a with acc := SMap.put {} a.acc i { r with cols := x.1 } }).modTe p e fun y => { y with dsr := x.1 }
  set ((s.bump (teB p e) F.teSatOut x.2).bump (teB p e) F.teBarIn)

/-- The next cart of the draining row is checked and added, and the sum goes on or, at the last engine, is converted (R78,
R79). The first cart of a row finds the row read into the drain shadow register. TE_ERR takes ROW from the cart's own tag, and
COLUMN as the first of its quarter (DESIGN CHOICE, log entry 96). -/
def takeCart (p e n i : Nat) (t : TdItem) (c : Cart) : Eng Unit := do
  let s ← get
  let a := (s.te p e).set n
  let cause := c.check t a
  if cause ≠ 0 then throw (teFlt p e cause t n (c.row % 64) (64 * (c.qtr % 4)))
  if a.sent % 4 = 0 then enterRow p e n t a (a.rows.getD (a.sent / 4) 0)
  addCart p e n c
  let s ← get
  let b := (s.te p e).set n
  if Ca.pos t.carr = Ca.lenm1 t.carr then
    if b.sent % 4 = 3 then finishRow p i t b (b.rows.getD (b.sent / 4) 0)
  else set (s.sendCart p t (b.cart t (s.te p e).dsr b.sent (engineNo p e + 1)))
  modify fun s => s.modSet p e n fun a => { a with sent := a.sent + 1 }

/-- The credit of a cart that an engine has taken out of its buffer returns, and the sender goes on (R78, R265). -/
def State.cartCredit (s : State) (p e : Nat) (c : Cart) : State :=
  let s := s.cartBack p e c
  if c.src = 0 then s else s.pump ((c.src - 1) / 4) ((c.src - 1) % 4) 8

/-- DRAWBAR_CART_RX (R78): the first cart of the link is taken. A row is begun when its four carts have arrived. Where a fault
of the cart ends the carriage, its sender is charged with a mismatch of RES (R402). -/
def execDrawbarCartRx (core te : Nat) (found : EngFind) (s : State) : Res :=
  .next (match (s.te core te).draining with
    | none => s
    | some n =>
      let a := (s.te core te).set n
      match s.itemOf core a.carr with
      | none => s
      | some (i, t) =>
        let mine := s.fed core t
        match mine with
        | [] => s
        | c :: _ =>
          let last := Ca.pos t.carr == Ca.lenm1 t.carr
          if a.stage ≠ 0 ∨ Ca.pos t.carr = 0 ∨ 4 * a.rows.length ≤ a.sent ∨ (a.sent % 4 = 0 ∧ mine.length < 4)
              ∨ (last = false ∧ s.linkRoom core t = false) then s
          else
            let s := (s.meet core found).bump (teB core te) F.teCycBstall found.barWait
            let s := if c.src = 0 then s
              else s.qAwait (Qk.drawbar (c.src - 1) (engineNo core te)) (if a.sent % 4 = 0 then mine.length - 3 else mine.length)
            let s := if found.cause = 2 then s.modSet core te n fun a => a.upset (a.sent / 4) found.col 2 false else s
            let s := s.modTe core te fun x => { x with link := x.link.erase c }
            let run : Eng Unit := do
              if last then tePort core te t found n (found.row % 64) false
              takeCart core te n i t (c.upset found.cause)
            match run s with
            | .ok _ s => s.cartCredit core te c
            | .error f s => (s.faultItem core i f c.src).cartCredit core te c)

/-- BAR_CREDIT (R370, R373): credits of a chain link return to the sender. -/
def execBarCredit (port : Nat) (m : Msg) (s : State) : Res :=
  .next (s.arrive port m 0x23 fun s =>
    let chain := m.addr % 65536
    let n := bits m.addr 16 8
    let out := s.link.barOut.filterMap fun e =>
      if e.1 % 65536 = chain ∧ (s.graph (e.1 / 65536)).any (fun g => g.coach == m.coach) = true then (if e.2 ≤ n then none else some (e.1, e.2 - n)) else some e
    State.pumpRemote { s with link := { s.link with barOut := out } })

end Sys2Proof.Machine
end

