-- ==== Sys2Proof/Machine/Expander.lean ====
section
/-!
DEFINITION. The expanders (04): block index entries (R93, R94), coded payloads (R95-R100), references (R102), tiles and their
checks (R108-R115), and staged tiles (R254).
-/
namespace Sys2Proof.Machine

/-! ### Index entries (R93, R94) -/

def Ie.mode (e : List Byte) : Nat := bits (fieldLE e 0 1) 0 2
def Ie.len (e : List Byte) : Nat := fieldLE e 1 1
def Ie.slot (e : List Byte) : Nat := bits (fieldLE e 2 1) 0 4
def Ie.gen (e : List Byte) : Nat := fieldLE e 4 2
def Ie.crc (e : List Byte) : Nat := fieldLE e 8 4

/-- An index entry keeps R94. -/
def entryOk (e : List Byte) : Bool :=
  Ie.mode e ≤ 1 && Ie.len e != 0 && Ie.len e ≤ 128 && (Ie.mode e == 1 || Ie.len e == 128)

/-! ### Coded payloads (R95-R100) -/

/-- The codes of a table (R98): length, code, symbol. -/
def tableCodes (img : List Byte) : List (Nat × Nat × Nat) :=
  let ls := tableLens img
  ((upFrom 1 15).foldl (fun (r : Nat × List (Nat × Nat × Nat)) n =>
    let r := (List.range 10).foldl (fun (r : Nat × List (Nat × Nat × Nat)) k =>
      if ls.getD k 0 = n then (r.1 + 1, r.2 ++ [(n, r.1, k)]) else r) r
    (2 * r.1, r.2)) (0, [])).2

/-- The bits of a lane in stream order (R99). -/
def laneBits (l : List Byte) : List Bool := l.flatMap fun b => (List.range 8).map fun i => bit b.toNat i

/-- Read one symbol: at most `fuel` further bits after `n` bits of value `v`. -/
def readSymbol (tab : List (Nat × Nat × Nat)) : Nat → Nat → Nat → List Bool → Option (Nat × List Bool)
  | 0, _, _, _ => none
  | _, _, _, [] => none
  | f + 1, n, v, b :: rest =>
    let v' := 2 * v + b2n b
    match tab.find? fun e => e.1 == n + 1 && e.2.1 == v' with
    | some e => some (e.2.2, rest)
    | none => readSymbol tab f (n + 1) v' rest

/-- Decode a lane's pairs (R96, R100): `need` pairs are left. The symbols of the pairs, and the bits left over. -/
def readPairs (tab : List (Nat × Nat × Nat)) : Nat → Nat → List Bool → Option (List Nat × List Bool)
  | 0, _, _ => none
  | f + 1, need, l =>
    if need = 0 then some ([], l)
    else match readSymbol tab 15 0 0 l with
      | none => none
      | some (s, rest) =>
        if s < 9 then (readPairs tab f (need - 1) rest).map fun r => (s :: r.1, r.2)
        else
          let n := (rest.take 8).foldl (fun a b => 2 * a + b2n b) 0 + 1
          if rest.length < 8 ∨ need < n then none
          else (readPairs tab f (need - n) (rest.drop 8)).map fun r => (List.replicate n 4 ++ r.1, r.2)

/-- Digits as bytes of five trits (R33). -/
def digitBytes : Nat → List Nat → List Byte
  | 0, _ => []
  | f + 1, l => Byte.ofNat (((l.take 5).zipIdx).foldl (fun a e => a + e.1 * 3 ^ e.2) 0) :: digitBytes f (l.drop 5)

/-- Decode a lane of 1,280 trits to its 256 raw bytes (R96-R100). -/
def decodeLane (tab : List (Nat × Nat × Nat)) (l : List Byte) : Option (List Byte) :=
  match readPairs tab 641 640 (laneBits l) with
  | none => none
  | some r => if r.2.length < 8 then some (digitBytes 256 (r.1.flatMap fun s => [s % 3, s / 3])) else none

/-- Lane ends of a payload (R95). -/
def laneEnds (p : List Byte) : List Nat := (List.range 16).map fun l => fieldLE p (2 * l) 2

/-- The directory keeps R95. -/
def laneDirOk (p : List Byte) : Bool :=
  let es := laneEnds p
  ((32 :: es).zip es).all (fun e => e.1 ≤ e.2) && es.getD 15 0 ≤ p.length

/-- The bytes of lane `l` of a payload whose directory is good. -/
def laneOf (p : List Byte) (l : Nat) : List Byte :=
  let es := 32 :: laneEnds p
  (p.drop (es.getD l 32)).take (es.getD (l + 1) 32 - es.getD l 32)

/-- Expand a payload: the 4,096 raw bytes, or the cause and lane of a content fault (R34, R100, R111). -/
def expand (entry payload img : List Byte) : Except (Nat × Nat) (List Byte) :=
  if Ie.mode entry = 0 then
    if payload.any fun b => 243 ≤ b.toNat then .error (0x12, 0) else .ok payload
  else if laneDirOk payload = false then .error (0x13, 0)
  else
    let tab := tableCodes img
    let ls := (List.range 16).map fun l => decodeLane tab (laneOf payload l)
    match ls.findIdx? Option.isNone with
    | some l => .error (0x13, l)
    | none => .ok (ls.flatMap fun x => x.getD [])

/-- Cycles by which a coded block's lanes lengthen its fill (R108). -/
def laneExcess (entry payload : List Byte) : Nat :=
  if Ie.mode entry = 0 then 0
  else (List.range 16).foldl (fun a l => max a (((laneOf payload l).length + 7) / 8)) 20 - 20

/-! ### References (R102) and faults (R115, R118) -/

/-- A fault that XE_ERR captures. -/
def xeFlt (p e cause : Nat) (t : TdItem) (blk lane attempt tile : Nat) : Flt :=
  let w := captureWord cause [(F.xeErrBlock, blk), (F.xeErrLane, lane), (F.xeErrAttempt, attempt),
    (F.xeErrChain, Ca.chain t.carr), (F.xeErrTile, tile)]
  { cause := cause, caps := if e < 4 then [(xeB p e + 8, w, 64)] else [], word := w, sub := e % 4 }

/-- A coded block takes a reference on its slot; none where it is refused (R102). -/
def State.takeRef (s : State) (entry : List Byte) : Option State :=
  let n := Ie.slot entry
  if s.get (tblB n) F.tblState = 1 ∧ s.get (tblB n) F.tblGen = Ie.gen entry then some (s.bump (tblB n) F.tblCount) else none

/-- Bind a block for expansion (R102): a coded one takes its reference or ends the carriage with cause 0x14. -/
def bindBlock (p e : Nat) (t : TdItem) (blk attempt tile : Nat) (entry : List Byte) : Eng Unit := do
  if Ie.mode entry = 1 then
    let s ← get
    match s.takeRef entry with
    | some s => set s
    | none => throw (xeFlt p e 0x14 t blk 0 attempt tile)

/-- Change one block of an expander. -/
def State.modBlk (s : State) (p e b : Nat) (f : XBlock → XBlock) : State :=
  s.modXe p e fun x => { x with blocks := modifyAt x.blocks b f }

/-- The DMA descriptor that fetches a block of a load (R94, R283). -/
def blockDesc (t : TdItem) (ld : Load) (te b : Nat) (refetch : Bool) (spm : Nat := 0) : Desc :=
  let n := 8 * ld.tile + b
  { op := 4, aspace := ld.aspace, coach := ld.coach, len := 4096, spm := spm, mem := ld.widx + 16 * n, slot := ld.wblk + 4096 * n
    graph := t.graph, index := t.index, step := t.step, attempt := t.attempt, te := te, blk := b, refetch := refetch, grant := t.grant }

/-! ### Tiles -/

/-- Begin a staged tile: its blocks are bound from the copy in the SPM (R102, R254). A poisoned word of the copy is cause 0x16
(R113, R310). -/
def bindStaged (p e : Nat) (t : TdItem) (k base : Nat) : Eng Unit :=
  (List.range 8).forM fun b => do
    let bad := xeFlt p e 0x16 t b 0 0 k
    let entry ← spmReadAs p t.coach t.graph (base + 16 * b) 16 bad
    if entryOk entry = false then throw (xeFlt p e 0x15 t b 0 0 k)
    let pay ← spmReadAs p t.coach t.graph (base + 128 + 4096 * b) (32 * Ie.len entry) bad
    bindBlock p e t b 0 k entry
    modify fun s => s.modBlk p e b fun x => { x with st := 2, entry := entry, payload := pay, ref := Ie.mode entry == 1 }

/-- Begin the next tile of a carriage at its expander (R71, R91, R94). -/
def beginTile (p e i : Nat) (t : TdItem) (ld : Load) : Eng Unit := do
  if ld.staged = none ∧ (ld.wblk % 4096 ≠ 0 ∨ ld.widx % 16 ≠ 0) then throw (xeFlt p e 0x15 t 0 0 0 t.begun)
  modify fun s => (s.modXe p e fun _ => { carr := t.key + 1, load := t.begun, blocks := List.replicate 8 { st := 0 } }).modItem p i
    fun u => { u with begun := u.begun + 1 }
  match ld.staged with
  | some base => bindStaged p e t t.begun base
  | none => modify fun s => (List.range 8).foldl (fun s b => s.queueDesc p (blockDesc t ld e b false)) s

/-- XE_TILE_START (R71): the shadow set is free and its hand-over credit held, and the expander begins the next tile of a
carriage, in the order of its engine's carriages. -/
def execXeTileStart (core : Nat) (te : UnitAt) (idx : Nat) (s : State) : Res :=
  .next (match s.item core idx with
    | none => s
    | some t =>
      let before := ((s.core core).td.take idx).any fun u => Ca.isTe u.carr && Ca.te u.carr == te.no && decide (u.begun < u.loads.length)
      match t.loads[t.begun]? with
      | none => s
      | some ld =>
        if Ca.isTe t.carr = false ∨ Ca.te t.carr ≠ te.no ∨ 4 ≤ te.no ∨ before = true ∨ (s.xe core te.no).carr ≠ 0
            ∨ (s.te core te.no).shadow.isSome = true ∨ s.qRoom (Qk.tile core te.no) = false
            ∨ (ld.staged = none ∧ s.descRoom core < 8) then s
        else ((s.meet core te.found).issued core idx).work core idx (beginTile core te.no idx t ld))

/-- The carts of a block in progress pass through the weight stream, and their credits come back as the expander consumes them
or returns them (R21, R111). -/
def State.weightCarts (s : State) (p e : Nat) (y : XBlock) : State :=
  let n := cartsOf y.payload.length
  (s.qPut (Qk.weight p e) n).qLeave (Qk.weight p e) n

/-- The tile that an expander fills is not the first of its segment (R70). -/
def TdItem.laterTile (t : TdItem) (load : Nat) : Bool := (t.todo.find? fun x => x.load == some load).any fun x => x.tile != 0

/-- A block fails a check (R111, R112): it is fetched once more, once the queue of descriptors has room, or the carriage ends;
the wait of the TE for the tile is then counted where R70 says so (R90). -/
def failBlock (p e : Nat) (t : TdItem) (x : Xe) (b : Nat) (y : XBlock) (cause lane wait : Nat) : Eng Unit := do
  let f := xeFlt p e cause t b lane y.attempt x.load
  if y.attempt ≠ 0 then
    if t.laterTile x.load then modify fun s => s.bump (teB p e) F.teCycWstall wait
    throw f
  let ld := t.loads.getD x.load { tile := 0, aspace := 0, wblk := 0, widx := 0 }
  let s ← get
  if s.descRoom p ≠ 0 then
    let s := ((s.capture (xeB p e + 8) f.word).bump (xeB p e) F.xeRefetches).weightCarts p e y
    set ((s.modBlk p e b fun z => { z with st := 1, attempt := 1, payload := [] }).queueDesc p (blockDesc t ld e b true) true)

/-- A block has passed: its reference is released, and the eighth completes the tile, which takes the hand-over credit; the
excess of its fill is counted then (R21, R102, R108, R109, R111). -/
def State.passBlock (s : State) (p e b stall : Nat) (y : XBlock) (raw : List Byte) : State :=
  let r := xeB p e
  let slow := laneExcess y.entry y.payload
  let s := (s.releaseBlocks [y]).weightCarts p e y
  let s := (s.bump r (if Ie.mode y.entry = 0 then F.xeBlocksRaw else F.xeBlocksCoded)).bump r F.xePayloadBytes (32 * Ie.len y.entry)
  let s := s.bump r F.xeTritsOut 20480
  let s := s.modXe p e fun x => { x with stall := x.stall + stall, slow := x.slow + slow }
  let s := s.modBlk p e b fun z => { z with st := 3, raw := raw, ref := false, payload := [] }
  let x := s.xe p e
  if x.blocks.all fun z => z.st == 3 then
    let s := (s.bump r F.xeCycXstall (x.stall + x.slow)).bump r F.xeCycXslow x.slow
    let tile : Tile := { carr := x.carr, load := x.load, blocks := x.blocks.map (·.raw) }
    ((s.qPut (Qk.tile p e)).modTe p e fun t => { t with shadow := some tile }).modXe p e fun _ => {}
  else s

/-- The payload of a block as the expander reads it out of its landing space (R287): a double-bit error ends the carriage. -/
def readPayload (p : Nat) (t : TdItem) (f : EngFind) : Eng Unit := do
  if f.ecc = 1 then
    modify fun s => s.bump (spmB p) F.spmEccUncorr
    throw (spmFlt p 0x53 (f.eccAt % spmBytes) t.coach t.graph)
  else if f.ecc = 2 then modify fun s => s.bump (spmB p) F.spmEccCorr

/-- XE_BLOCK_DONE (R111): the block in progress has arrived and is checked; `stall` are the cycles it waited for carts. -/
def execXeBlockDone (core : Nat) (te : UnitAt) (stall : Nat) (s : State) : Res :=
  .next (let x := s.xe core te.no
    match s.itemOf core x.carr, x.blocks.findIdx? (fun z => z.st != 3) with
    | some (i, t), some b =>
      let y := x.blocks.getD b {}
      if y.st ≠ 2 then s
      else
        (s.bump (spmB core) F.spmCycYield te.found.yield).work core i (do
          readPayload core t te.found
          match expand y.entry y.payload (SMap.look {} s.tables (Ie.slot y.entry)).image with
          | .error c => failBlock core te.no t x b y c.1 c.2 te.found.tileWait
          | .ok raw =>
            if crc32c y.payload ≠ Ie.crc y.entry then failBlock core te.no t x b y 0x11 0 te.found.tileWait
            else modify fun s => s.passBlock core te.no b stall y raw)
    | _, _ => s)

/-! ### Delta carts (R157, R158, R167) -/

/-- The keys of a cart rise strictly, from above `last` (R157). -/
def cartRising : Nat → List (Nat × Nat × Bool) → Bool
  | _, [] => true
  | last, e :: r => decide (last < 640 * e.2.1 + e.1 + 1) && cartRising (640 * e.2.1 + e.1 + 1) r

/-- A cart with a good CRC keeps R157, after the carts read before it. An entry whose K position is 640 or more, which the
rule's list of checks does not name, fails the cart too (DESIGN CHOICE, log entry 98). -/
def deltaCartOk (g : GeList) (c : List Byte) : Bool :=
  let n := bits (fieldLE c 4 1) 0 7
  let es := cartEntries c
  let last := match g.carts.getLast? with
    | some d => ((cartEntries d).getLast?.map fun e => 640 * e.2.1 + e.1 + 1).getD 0
    | none => 0
  let sum := g.carts.foldl (fun a d => a + bits (fieldLE d 4 1) 0 7) 0 + n
  fieldLE c 0 4 == g.tile && fieldLE c 6 2 == g.carts.length && decide (1 ≤ n) && decide (n ≤ 64) && es.all (fun e => e.1 < 640)
    && cartRising last es && (if g.carts.length + 1 = g.ncart then sum == g.nnz else decide (sum < g.nnz))

/-- The bytes at an address of an overlay's delta carts have landed: nothing that a carriage requested still brings them. -/
def State.cartLanded (s : State) (p : Nat) (t : TdItem) (ove a : Nat) : Bool :=
  let mine (d : Desc) : Bool := d.graph == t.graph && d.index == t.index && d.step == t.step && d.attempt == t.attempt
    && d.ove == some ove
  (s.core p).dmaQ.all (fun d => !(mine d && decide (d.mem ≤ a) && decide (a < d.mem + d.len)))
    && (s.core p).tags.all fun e => !(mine e.2.desc && decide (e.2.desc.mem + e.2.off ≤ a)
      && decide (a < e.2.desc.mem + e.2.off + e.2.len))

/-- The GE reads the next cart of a list out of its staging area and checks it (R157, R158, R167): a cart that fails its CRC is
fetched once more. -/
def readCart (p : Nat) (t : TdItem) (g : GeList) : Eng Unit := do
  let n := g.carts.length
  let c ← spmReadAs p t.coach t.graph (t.stageCell g n) 256 (geFlt p 0x24 g.ove t)
  modify fun s => s.bump (geB p) F.geCartBytes 256
  if crc32c (c.take 252) ≠ fieldLE c 252 4 then
    if g.again then throw (geFlt p 0x21 g.ove t n)
    else modify fun s =>
      let d := s.cartDesc t g n (n + 1)
      ((s.bump (geB p) F.geRefetches).modGe p g.carr g.ove g.tile fun g => { g with again := true }).queueDesc p d true
  else if deltaCartOk g c = false then throw (geFlt p 0x22 g.ove t n)
  else modify fun s => ((s.bump (geB p) F.geCartsIn).modGe p g.carr g.ove g.tile fun g =>
    { g with carts := g.carts ++ [c], again := false }).stageCarts p

/-- GE_CART_READ (R157): the GE reads the next cart of a tile of an overlay for a carriage, once it is staged; for a fetch that
it may have to make again there is room in the queue. -/
def execGeCartRead (core : UnitAt) (idx ove tile : Nat) (s : State) : Res :=
  .next (match s.item core.no idx with
    | none => s
    | some t =>
      match (s.core core.no).ge.find? fun g => g.carr == t.key + 1 && g.ove == ove && g.tile == tile with
      | none => s
      | some g =>
        let n := g.carts.length
        if g.ncart ≤ n ∨ g.asked ≤ n ∨ s.descRoom core.no = 0 ∨ s.cartLanded core.no t ove (g.ptr + 256 * n) = false then s.stageCarts core.no
        else (s.meet core.no core.found).work core.no idx (readCart core.no t g))

end Sys2Proof.Machine
end

