-- ==== Sys2Proof/Machine/Dma.lean ====
section
/-!
DEFINITION. The DMA of a core (R283-R286), writes of neighbours (R278), the scrubbers (R288) and the clear of the SPM (R289).
-/
namespace Sys2Proof.Machine

/-! ### Issue (R284, R285, R94) -/

/-- The carriage that a descriptor serves, by its place in the TD. -/
def State.descItem (s : State) (p : Nat) (d : Desc) : Option (Nat × TdItem) :=
  ((s.core p).td.zipIdx.find? fun e => e.1.graph == d.graph && e.1.index == d.index && e.1.step == d.step
    && e.1.attempt == d.attempt).map fun e => (e.2, e.1)

/-- Take a tag for a chunk. -/
def State.takeTag (s : State) (p : Nat) (g : Tag) : State :=
  s.modCore p fun c =>
    match firstBelow 64 fun n => !c.tags.any fun e => e.1 == n with
    | none => c
    | some n => { c with tags := c.tags.filter (fun e => e.1 < n) ++ (n, g) :: c.tags.filter (fun e => n < e.1) }

/-- A descriptor goes back to the head of its core's queue: it waits for a tag or for credits. -/
def State.putBack (s : State) (p : Nat) (d : Desc) : State := s.modCore p fun c => { c with dmaQ := d :: c.dmaQ }

/-- A descriptor has been completed once none of its chunks is queued or under way (R294). -/
def State.descDone (s : State) (p : Nat) (d : Desc) : State :=
  if (s.core p).dmaQ.any (fun x => x.id == d.id) || (s.core p).tags.any (fun e => e.2.desc.id == d.id) then s
  else s.bump (dmaB p) F.dmaDescriptors

/-- The pieces of device physical memory that a descriptor's range of `n` bytes from `a` reaches (R285); cause 0x51 where it is
refused. -/
def reachDesc (p : Nat) (t : TdItem) (d : Desc) (a n : Nat) (write : Bool) : Eng (List (Nat × Nat)) :=
  (pagePieces a n).mapM fun x => do
    let s ← get
    let r := s.reach p d.coach d.grant d.aspace x.1 x.2 write
    set r.1
    match r.2 with
    | some q => pure (q, x.2)
    | none => throw (dmaFlt p 0x51 d.op t.graph t.index)

/-- The cause of a poisoned index entry or payload (R113): that of the expander, or of a staged tile. -/
def weightFlt (p : Nat) (t : TdItem) (d : Desc) (tile : Nat) : Flt := xeFlt p d.te 0x16 t d.blk 0 (b2n d.refetch) tile

/-- The index entry of a block (R94): an access of 32 bytes reads two, and the second goes to the descriptor in the queue that
wants it. -/
def entryRead (p : Nat) (t : TdItem) (d : Desc) (bad : Flt) : Eng (List Byte) := do
  if d.entry ≠ [] then pure d.entry
  else
    let l ← fineRead p t d.coach d.aspace (d.mem / 32 * 32) 32 bad 4
    let mate (x : Desc) : Bool := x.op == 4 && x.mem == d.mem + 16 && d.mem % 32 == 0 && x.te == d.te && !x.refetch && !d.refetch
      && x.graph == d.graph && x.index == d.index && x.step == d.step && x.attempt == d.attempt && x.aspace == d.aspace
    modify fun s => s.modCore p fun c =>
      { c with dmaQ := c.dmaQ.map fun (x : Desc) => if mate x then { x with entry := l.drop 16 } else x }
    pure ((l.drop (d.mem % 32)).take 16)

/-- A block's index entry is read and its payload requested on the credits of the controllers (R94, R102, R111). -/
def issueBlock (p : Nat) (t : TdItem) (d : Desc) : Eng Unit := do
  let s ← get
  let tile := (s.xe p d.te).load
  let entry ← entryRead p t d (weightFlt p t d tile)
  if entryOk entry = false then throw (xeFlt p d.te 0x15 t d.blk 0 (b2n d.refetch) tile)
  let ps ← reachDesc p t d d.slot (32 * Ie.len entry) false
  let s ← get
  if s.bulkRoom p ps false = false then set (s.putBack p { d with entry := entry })
  else
    if d.te < 4 then
      let y := (s.xe p d.te).blocks.getD d.blk {}
      let same := y.ref && Ie.mode entry == 1 && Ie.slot entry == Ie.slot y.entry && Ie.gen entry == Ie.gen y.entry
      if same = false then
        set (s.releaseBlocks [y])
        modify fun s => s.modBlk p d.te d.blk fun z => { z with ref := false }
        bindBlock p d.te t d.blk (b2n d.refetch) tile entry
      modify fun s => s.modBlk p d.te d.blk fun z => { z with st := 1, entry := entry, ref := Ie.mode entry == 1 }
    modify fun s => (s.bulkSend p ps false).takeTag p { desc := d, off := 0, len := 32 * Ie.len entry, pieces := ps }

/-- The bytes that a write chunk takes out of the SPM, with the offsets of the words that are marked poisoned (R279, R310). -/
def spmSource (p : Nat) (t : TdItem) (off n : Nat) : Eng (List Byte × List Nat) := fun s =>
  match spmRead p t.coach t.graph off n s with
  | .ok l s => .ok (l, []) s
  | .error f s =>
    if f.cause = 0x53 then
      let bad := (s.spm.poison.filter fun a => spmKey p (off / 8 * 8) ≤ a && a < spmKey p (off + n)).map fun a => a - spmKey p off
      .ok (Memory.read s.spm.bytes (spmKey p off) n, bad) s
    else .error f s

/-- A write chunk to a host address leaves on N6 for the coach's host port, under its tag (R230, R285). -/
def State.hostChunk (s : State) (p i : Nat) (d : Desc) (n : Nat) : State :=
  match firstBelow 64 fun k => !(s.core p).tags.any fun e => e.1 == k with
  | none => s
  | some k =>
    let port := s.get (coachB d.coach) F.coachHport
    let tag := s.link.nextTag
    let carts := cartsOf n
    let s := (List.range carts).foldl (fun s _ => s.qSend (Qk.outbound p) Ch.outbound (End.core p) (End.near p .switch)) s
    let s := (s.qLeave (Qk.outbound p) carts).takeTag p { desc := d, off := d.done, len := n }
    let s := s.request port { mtype := 1, vc := 1, space := 3, dst := s.hostNode port, coach := d.coach, addr := d.mem + d.done
                              data := (d.data.drop d.done).take n } (.dma p k)
    s.modItem p i fun u => { u with waits := u.waits ++ [tag] }

/-- Issue a bulk descriptor's chunks, of at most 4 KiB, while tags are free and credits held (R18, R284). What is left stays at
the head of the queue. Where words of a write chunk are marked poisoned the chunk leaves, to put the poison pattern into the
lines that they touch (R310), and the carriage ends with cause 0x53 (R287). -/
def issueChunks (p i : Nat) (t : TdItem) : Nat → Desc → Eng Unit
  | 0, d => modify fun s => s.putBack p d
  | f + 1, d => do
    let s ← get
    if d.len ≤ d.done then pure ()
    else if 64 ≤ (s.core p).tags.length then set (s.putBack p d)
    else
      let n := min 4096 (d.len - d.done)
      let next := { d with done := d.done + n }
      if d.aspace = 2 then
        set (s.hostChunk p i d n)
        issueChunks p i t f next
      else
        let w := d.op == 1
        let src ← if w then spmSource p t (d.spm + d.done) n else pure ([], [])
        let ps ← reachDesc p t d (d.mem + d.done) n w
        let s ← get
        if s.bulkRoom p ps w = false then set (s.putBack p d)
        else
          set ((s.bulkSend p ps w).takeTag p { desc := d, off := d.done, len := n, pieces := ps, data := src.1, bad := src.2 })
          match src.2 with
          | [] => issueChunks p i t f next
          | b :: _ => throw (spmFlt p 0x53 (d.spm + d.done + b) t.coach t.graph)

/-- A write over the fine path (OP 3), in accesses of 32 bytes. -/
def issueFineWrite (p : Nat) (t : TdItem) (d : Desc) : Eng Unit := do
  let src ← spmSource p t d.spm d.len
  let ps ← reachDesc p t d d.mem d.len true
  let _ ← ps.foldlM (fun k x => do
    let s ← get
    let mine := (src.2.filter fun o => k ≤ o && o < k + x.2).map (· - k)
    let r := s.mcWrite x.1 (s.get (coachB t.coach) F.coachQos) true ((src.1.drop k).take x.2) mine
    set ((r.1.bump (dmaB p) F.dmaFineAccesses (x.2 / 32)).bump (dmaB p) F.dmaBytesOut x.2)
    pure (k + x.2)) 0
  modify fun s => s.bump (dmaB p) F.dmaDescriptors

/-- Issue a descriptor (R283-R285): a length or alignment that breaks R283 is cause 0x54. So is an index base that is 16-byte
but not 32-byte aligned in a WSTAGE carriage, which R91 admits for a tile (DESIGN CHOICE, log entry 98). -/
def issueDesc (p i : Nat) (t : TdItem) (d : Desc) : Eng Unit := do
  if d.op = 4 then issueBlock p t d
  else
    if d.done = 0 ∧ d.aspace ≠ 2 ∧ (d.len = 0 ∨ d.len % 32 ≠ 0 ∨ d.spm % 32 ≠ 0 ∨ d.mem % 32 ≠ 0) then
      throw (dmaFlt p 0x54 d.op t.graph t.index)
    if d.op = 2 then
      let l ← fineRead p t d.coach d.aspace d.mem d.len (weightFlt p t d 0)
      modify fun s => ((s.spmWrite p t.coach d.spm l).bump (dmaB p) F.dmaBytesIn d.len).bump (dmaB p) F.dmaDescriptors
    else if d.op = 3 then issueFineWrite p t d
    else issueChunks p i t 64 d

/-- DMA_DESCRIPTOR_ISSUE (R284): the head descriptor is issued, once a tag is free where it needs one; the cycles that it waited
are counted. A descriptor of a carriage that has ended is discarded (R114). -/
def execDmaDescriptorIssue (core : UnitAt) (waitTag waitCred : Nat) (s : State) : Res :=
  .next (match (s.core core.no).dmaQ with
    | [] => s
    | d :: rest =>
      if d.op ≠ 2 ∧ d.op ≠ 3 ∧ 64 ≤ (s.core core.no).tags.length then s
      else
        let s := s.meet core.no core.found
        let s := (s.bump (dmaB core.no) F.dmaCycNotag waitTag).bump (dmaB core.no) F.dmaCycNocred waitCred
        let s := s.modCore core.no fun c => { c with dmaQ := rest }
        match s.descItem core.no d with
        | none => s
        | some (i, t) => (s.work core.no i (issueDesc core.no i t d)).stageCarts core.no)

/-! ### Chunks (R284, R286, R290, R291) -/

/-- The fault that a chunk's answer makes, if any: poison of delta carts, of weights, or of COPY or EMBED data (R113, R167,
R291). -/
def chunkFlt (p : Nat) (t : TdItem) (d : Desc) (status tile : Nat) : Option Flt :=
  if status = Sc.ok then none
  else if status = Sc.poison then
    some (match d.ove with
      | some o => geFlt p 0x24 o t
      | none => if d.op = 4 then weightFlt p t d tile else dmaFlt p 0x52 d.op t.graph t.index)
  else some (dmaFlt p 0x51 d.op t.graph t.index)

/-- The bytes of a read chunk land: in the landing space of the expander that waits for the block, or in the SPM, where the words
of a poisoned line are marked (R310). -/
def State.landChunk (s : State) (p : Nat) (d : Desc) (off : Nat) (data : List Byte) (bad : List Nat) : State :=
  if d.op = 4 ∧ d.te < 4 then
    let x := s.xe p d.te
    if x.carr = carrKey d.graph d.index + 1 ∧ (x.blocks.getD d.blk {}).st = 1 ∧ (x.blocks.getD d.blk {}).attempt = b2n d.refetch then
      s.modBlk p d.te d.blk fun z => { z with st := 2, payload := data }
    else s
  else (s.spmWrite p (((s.graph d.graph).map Graph.coach).getD d.coach) (d.spm + off) data).spmPoison p (d.spm + off) bad

/-- DMA_CHUNK_DONE (R284, R286): a chunk's answer is there and its tag is released; the last of a descriptor completes it. What a
carriage that has ended requested still lands, in the space that its tag reserved, and is not used (R290): a payload's landing
space is that of the ended carriage's expander, and no block of another carriage takes it. -/
def execDmaChunkDone (core tag : Nat) (s : State) : Res :=
  .next (match (s.core core).tags.find? (·.1 == tag) with
    | none => s
    | some e =>
      match e.2.answer with
      | none => s
      | some (status, data) =>
        let d := e.2.desc
        let s := s.modCore core fun c => { c with tags := c.tags.filter fun x => x.1 != tag }
        let write : Bool := d.op == 1
        let s := if write then s else s.qLeave (Qk.response core) (cartsOf data.length)
        let s := if write then s.bump (dmaB core) F.dmaBytesOut (if status = Sc.ok then e.2.len else 0)
          else s.bump (dmaB core) F.dmaBytesIn data.length
        let it := s.descItem core d
        let s := if write = true ∨ data = [] ∨ (d.op = 4 ∧ d.te < 4 ∧ it.isNone = true) then s
          else s.landChunk core d e.2.off data (if status = Sc.poison then e.2.bad else [])
        let s := s.descDone core d
        match it with
        | none => s
        | some (i, t) =>
          match chunkFlt core t d status (s.xe core d.te).load with
          | none => s
          | some f => s.faultItem core i f)

/-! ### Neighbours, scrubbers, clear (R278, R288, R289) -/

/-- What the scrubber finds in one word of a row: 1 a single-bit error, 2 a double-bit error (R288). -/
def State.scrubWord (s : State) (p bank row : Nat) (e : Nat × Nat) : State :=
  let off := spmRowOffset bank row + 8 * (e.1 % 32)
  let key := spmKey p off
  if e.2 = 1 then s.bump (spmB p) F.spmEccCorr
  else if e.2 ≠ 2 ∨ s.spm.poison.contains key = true then s
  else
    let s : State := { s with spm := { s.spm with poison := insertNat key s.spm.poison } }
    let w := captureWord 0x53 [(F.spmErrBank, bank), (F.spmErrRow, row), (F.spmErrWord, e.1 % 32)]
    (s.bump (spmB p) F.spmEccUncorr).raise { cls := 7, sev := 1, cause := 0x53, unit := 7, inst := p, capture := w }

/-- The scrubber of a bank reads its next row; all banks swept is a sweep (R288). -/
def State.scrub (s : State) (p bank : Nat) (errs : List (Nat × Nat)) : State :=
  let row := SMap.look 0 (s.core p).scrub bank
  let s := errs.foldl (fun s e => s.scrubWord p bank row e) (s.bump (spmB p) F.spmScrubRows)
  if row + 1 < 384 then s.modCore p fun c => { c with scrub := SMap.put 0 c.scrub bank (row + 1) }
  else
    let done := insertNat bank (s.core p).swept
    let s := s.modCore p fun c => { c with scrub := SMap.put 0 c.scrub bank 0, swept := if done.length = 32 then [] else done }
    if done.length = 32 then s.bump (spmB p) F.spmScrubSweeps else s

/-- SCRUB_ROW (R288): a bank's scrubber reads its next row in a free read cycle. -/
def execScrubRow (core bank : Nat) (errs : List (Nat × Nat)) (s : State) : Res :=
  .next (if 144 ≤ core ∨ 32 ≤ bank ∨ (s.core core).cleared = false then s else s.scrub core bank errs)

/-- SCRUB_FORCE (R288): the scrubber takes a cycle after 65,536 without a free one. The scheduled port that next works counts
the cycle (log entry 92). -/
def execScrubForce (core bank : Nat) (errs : List (Nat × Nat)) (s : State) : Res :=
  .next (if 144 ≤ core ∨ 32 ≤ bank ∨ (s.core core).cleared = false then s
    else ((s.scrub core bank errs).modCore core fun c => { c with forced := c.forced + 1 }).bump (spmB core) F.spmCycScrubforce)

/-- SPM_CLEAR_DONE (R289): every bank of the core has written zero rows without an owner. -/
def execSpmClearDone (core : Nat) (s : State) : Res :=
  .next (if 144 ≤ core ∨ (s.core core).cleared = true then s
    else (s.clearSpm core).modCore core fun c => { c with cleared := true })

end Sys2Proof.Machine
end

