-- ==== Sys2Proof/Machine/Vector.lean ====
section
/-!
DEFINITION. The vector unit's carriages (R187-R189, R255): vector operations, the predictor's zeros and audit (R243, R244), the
quantisation of an adapter's input (R165), and EMBED and PUSH (R227, R230, R234, R254).
-/
namespace Sys2Proof.Machine

/-! ### Vector operations (R255, R187-R189) -/

/-- One of the operations 0x02 to 0x0A on a row: operands `a` and `b`, gains and biases of a norm, position and frequencies. -/
def vop (v : Nat) (a b : List F32) (eps : F32) (g bt : List BF) (pos : Nat) (freq : List F32) : List F32 :=
  match v with
  | 2 => rmsNorm a eps g
  | 3 => layerNorm a eps g bt
  | 4 => List.zipWith f32Add a b
  | 5 => List.zipWith f32Mul a b
  | 6 => a.map f32Silu
  | 7 => a.map f32Gelu
  | 8 => List.zipWith (fun x y => f32Mul (f32Silu x) y) a b
  | 9 => List.zipWith (fun x y => f32Mul (f32Gelu x) y) a b
  | _ => (List.range (a.length / 128)).flatMap fun h => ropeVec pos freq ((a.drop (128 * h)).take 128)

/-- Write a row of panels to a result operand. -/
def panelWrite (p : Nat) (t : TdItem) (a i : Nat) (xs : List F32) : Eng Unit :=
  (List.range ((xs.length + 255) / 256)).forM fun k =>
    outWrite p t a (panelAt t.P i (256 * k)) (f32Bytes ((xs.drop (256 * k)).take 256))

/-- The predictor that governs a row's FFN values: that of the layer before the one named (R243, log entry 33). -/
def State.ffnPred (s : State) (t : TdItem) : Option (Nat × List Byte) :=
  if s.strict = true ∨ Ca.layer t.carr = 0 then none
  else
    let l := (((s.graph t.graph).map fun g => g.layers.getD (Ca.layer t.carr - 1) []).getD [])
    if Ld.pred l && Pd.en l then some (Ca.layer t.carr - 1, l) else none

/-- A row's values after the FFN's function: columns of blocks predicted inactive are zero, or audited (R243, R244). -/
def predicted (t : TdItem) (m : Nat) (xs : List F32) : Eng (List F32) := do
  let s ← get
  match s.ffnPred t with
  | none => pure xs
  | some (layer, l) =>
    let off := (List.range (Pd.nblk l)).filter fun b => s.inactive t.graph layer m b
    if s.audit then
      let eps := (f32Abs (BF.toF32 (BitVec.ofNat 16 (Pd.missEps l)))).toNat
      let miss := off.filter fun b => ((xs.drop (1280 * b)).take 1280).any fun x => decide (eps < (f32Abs x).toNat)
      let key := 65536 * t.graph + layer
      let s : State := { s with gs := { s.gs with predPairs := SMap.modify 0 s.gs.predPairs key (· + off.length)
                                                  predMiss := SMap.modify 0 s.gs.predMiss key (· + miss.length) } }
      set ((s.count F.predAudited off.length).count F.predMiss miss.length)
      pure xs
    else pure (xs.zipIdx.map fun e => if off.contains (e.2 / 1280) then f32Zero else e.1)

/-- The pinned places of K-step `k` (R129). -/
def pinsAt (pins : List Nat) (k : Nat) : List Nat := (pins.filter fun c => c / 640 == k).map (· % 640)

/-- Quantise the rows of a carriage under a precision field, each K-step to its slot (R127). -/
def quantRows (p idx : Nat) (t : TdItem) (prec : List Byte) (pins rows : List Nat) (put : Nat → Nat → List Byte → Eng Unit) :
    Eng Unit :=
  rows.forM fun i => do
    let s ← get
    let off := s.itemRowOff t i
    let a ← if off then pure (List.replicate t.width f32Zero)
      else panelRead p t.coach t.graph (bits (Ca.a t.carr 0) 0 22) t.P i t.width
    (List.range (Ld.nkstep t.layer)).forM fun k =>
      quantRow p idx t (Ca.layer t.carr) (640 * k) prec (pinsAt pins k) i off ((a.drop (640 * k)).take 640) (put i k)

/-- A QUANT carriage (R127, R255). -/
def runQuant (p idx : Nat) (t : TdItem) : Eng Unit := do
  quantRows p idx t (Ld.prec t.layer) t.pins (List.range t.n) fun i k b => outWrite p t (Ca.a t.carr 1) (Ld.astride t.layer * (t.P * k + i)) b

/-- A VU carriage (R255): masked rows are not written (log entry 40). -/
def runVu (p idx : Nat) (t : TdItem) : Eng Unit := do
  let c := t.carr
  let l := t.layer
  let v := Ca.param c % 256
  let n := t.width
  if v = 1 then runQuant p idx t
  else
    let g ← if v = 2 ∨ v = 3 then readBfs p t t.coach 1 (Ld.gamma l) n else pure []
    let bt ← if v = 3 then readBfs p t t.coach 1 (Ld.beta l) n else pure []
    let freq ← if v = 10 then do
        let b ← tableRead p t t.coach 0 (At.freqPtr l) 256
        pure (f32s b)
      else pure []
    (List.range t.n).forM fun i => do
      let s ← get
      if s.itemRowOff t i then pure ()
      else
        let a ← panelRead p t.coach t.graph (bits (Ca.a c 0) 0 22) t.P i n
        let b ← if vopBinary v then panelRead p t.coach t.graph (bits (Ca.a c 2) 0 22) t.P i n else pure []
        let m := t.man i
        let x := vop v a b (Ld.eps l) g bt (s.row m).pos freq
        let x ← if 6 ≤ v ∧ v ≤ 9 then predicted t m x else pure x
        panelWrite p t (Ca.a c 1) i x

/-- The quantisation of an adapter's input rows in A8 under PREC_D (R165, step 1). -/
def runAdapterQuant (p idx : Nat) (t : TdItem) (x : Pass) : Eng Unit := do
  let d := SMap.look [] t.adapters x.ove
  quantRows p idx t (Ad.precD d) [] x.rows fun i k b => modify fun s => s.spmWrite p t.coach (t.slotAt 2 k i) b
  modify fun s => s.modItem p idx fun u => { u with todo := u.todo.drop 1 }

/-! ### Transfers (R254, R283) -/

/-- Descriptors of a COPY carriage. -/
def copyDescs (t : TdItem) : List Desc :=
  let c := t.carr
  [{ op := if bit (Ca.param c) 32 then 1 else 0, aspace := 0, coach := t.coach, len := bits (Ca.param c) 0 32
     spm := bits (Ca.a c 0) 0 22, mem := Ca.aux c, graph := t.graph, index := t.index, step := t.step, attempt := t.attempt
     grant := t.grant }]

/-- Descriptors of a WSTAGE carriage: for each tile its 8 index entries, then its 8 blocks (R254). -/
def stageDescs (t : TdItem) : List Desc :=
  let c := t.carr
  let l := t.layer
  (List.range (Ca.ntile c)).flatMap fun k =>
    let u := Ca.tile0 c + k
    let base := bits (Ca.a c 2) 0 22 + 32896 * k
    let ld : Load := { tile := u, aspace := 1, wblk := Ld.wblk l, widx := Ld.widx l, coach := t.coach }
    let ent : Desc := { op := 2, aspace := 1, coach := t.coach, len := 128, spm := base, mem := Ld.widx l + 128 * u
                        graph := t.graph, index := t.index, step := t.step, attempt := t.attempt, grant := t.grant }
    ent :: (List.range 8).map fun b => blockDesc t ld 4 b false (base + 128 + 4096 * b)

/-- Descriptors of an EMBED carriage: the input vectors of its rows, each panel's 512 bytes into the row's own panel. -/
def State.embedDescs (s : State) (t : TdItem) : List Desc :=
  let d := ((s.graph t.graph).map Graph.dModel).getD 0
  ((List.range t.n).filter fun i => !s.itemRowOff t i).flatMap fun i =>
    let r := s.row (t.man i)
    (List.range ((d + 255) / 256)).map fun k =>
      { op := 0, aspace := 0, coach := r.coach, len := 2 * min 256 (d - 256 * k)
        spm := bits (Ca.a t.carr 1) 0 22 + panelAt t.P i (256 * k), mem := r.inAddr + 2 * d * r.idx + 512 * k
        graph := t.graph, index := t.index, step := t.step, attempt := t.attempt, grant := t.grant }

/-- Nothing that a carriage requested is under way. -/
def State.landed (s : State) (p : Nat) (t : TdItem) : Bool :=
  let c := s.core p
  let mine (d : Desc) : Bool := d.graph == t.graph && d.index == t.index && d.step == t.step && d.attempt == t.attempt
  t.descs == [] && !c.dmaQ.any mine && !c.tags.any fun e => mine e.2.desc

/-- A BF16 value as the VU converts it: every NaN becomes the NaN of R60. -/
def embedValue (x : BF) : F32 := if (BF.toF32 x).val = .nan then f32Nan else BF.toF32 x

/-- The VU converts the vectors that have landed: BF16 to FP32, an infinity or a NaN masks the row (R59). -/
def runEmbed (p idx : Nat) (t : TdItem) : Eng Unit := do
  let s ← get
  let d := ((s.graph t.graph).map Graph.dModel).getD 0
  (List.range t.n).forM fun i => do
    let s ← get
    if s.itemRowOff t i then pure ()
    else
      let xs ← (List.range ((d + 255) / 256)).mapM fun k => do
        let off := bits (Ca.a t.carr 1) 0 22 + panelAt t.P i (256 * k)
        let l ← spmRead p t.coach t.graph off (2 * min 256 (d - 256 * k))
        let x := (bfs l).map embedValue
        modify fun s => s.spmWrite p t.coach off (f32Bytes x)
        pure (x.any F32.bad)
      if xs.any id then modify fun s => s.badRow p idx t i
  modify fun s => s.modItem p idx fun u => { u with vector := false }

/-! ### PUSH (R27, R230, R231, R234, R235) -/

/-- The rows of a slot in the step that were not masked; none where some row of it is. -/
def State.slotClean (s : State) (slot : Nat) : Bool := !s.gs.rows.any fun r => r.slot == slot && (r.masked || r.done)

/-- Step flags of a slot (R231, R263), with PRED_MISS where an audited layer that a row of it used is over its threshold (R244):
a layer that RESUME masks for the row is not used by it (R234). A miss that the step finds later reaches the completions that
are written after it (DESIGN CHOICE, log entry 99). -/
def State.stepFlags (s : State) (r : Row) : Nat :=
  let mine := s.gs.rows.filter fun x => x.slot == r.slot
  let fl := mine.foldl (fun a x => a ||| x.flags) 0
  fl ||| if s.predMissed r.graph mine then Cf.predMiss else 0

/-- Every row of a slot has its completion. -/
def State.markDone (s : State) (slot : Nat) (trip : Option Nat) : State :=
  s.mapRows fun _ x => if x.slot = slot then { x with done := true, masked := x.masked || trip.isSome, trip := trip } else x

/-- Note the tags of writes that a carriage waits for (R262). -/
def State.waitFor (s : State) (p idx : Nat) (tags : List Nat) : State := s.modItem p idx fun u => { u with waits := u.waits ++ tags }

/-- The output of a row: which vector of its output slot it is; none where the row has none (R230). -/
def Row.output (r : Row) (host : Bool) : Option Nat :=
  if host then some r.idx else if r.idx + 1 = r.ntok ∧ (r.decode = true ∨ r.last = true) then some 0 else none

/-- The rows of a PUSH that have an output or a completion to write: none of a sequence with a masked row (R230). -/
def State.pushRows (s : State) (t : TdItem) : List Nat :=
  (List.range t.n).filter fun i => s.slotClean (s.row (t.man i)).slot && !s.itemRowOff t i

/-- The VU converts a row to BF16 for its host, as vector `k` of the output slot; the DMA writes it (R230, R283, R285). -/
def pushDesc (p : Nat) (t : TdItem) (i k : Nat) : Eng Desc := do
  let s ← get
  let d := ((s.graph t.graph).map Graph.dModel).getD 0
  let r := s.row (t.man i)
  let xs ← panelRead p t.coach t.graph (bits (Ca.a t.carr 0) 0 22) t.P i d
  pure { op := 1, aspace := 2, coach := r.coach, len := 2 * d, spm := bits (Ca.a t.carr 0) 0 22 + panelAt t.P i 0
         mem := s.seq r.slot Se.outAddr + 2 * d * k, graph := t.graph, index := t.index, step := t.step, attempt := t.attempt
         grant := t.grant, data := bfBytes (xs.map f32ToBf) }

/-- The descriptors of a PUSH (R283). -/
def pushDescs (p : Nat) (t : TdItem) : Eng (List Desc) := do
  let s ← get
  (s.pushRows t).filterMapM fun i =>
    match (s.row (t.man i)).output (Ld.host t.layer) with
    | none => pure none
    | some k => some <$> pushDesc p t i k

/-- The completion of a sequence at a PUSH, after its outputs (R27): NTOKENS advances and the rows are done; at a host layer the
trip begins instead (R234). -/
def State.pushDone (s : State) (p idx layer : Nat) (host : Bool) (r : Row) (outlen : Nat) (outs : List Nat) : State :=
  let fl := s.stepFlags r
  let tag := s.link.nextTag
  if host then
    let s := (s.setSeq r.slot Se.hlayer layer).count F.hostTrips
    ((s.complete r.slot Sc.ok (fl ||| Cf.hostLayer) outlen r.gen layer outs).markDone r.slot (some layer)).waitFor p idx [tag]
  else
    let s := s.setSeq r.slot Se.ntokens (s.seq r.slot Se.ntokens + r.ntok)
    let s := if r.last = true ∧ r.decode = false then s.setSeq r.slot Se.promptDone 1 else s
    ((s.complete r.slot Sc.ok fl outlen r.gen 0xFFFF outs).markDone r.slot none).waitFor p idx [tag]

/-- The end of a PUSH (R27, R230, R234): its outputs have left, and the completions follow them on the same port and VC. -/
def State.pushEnds (s : State) (p idx : Nat) (t : TdItem) : State :=
  let host := Ld.host t.layer
  let outs := t.waits
  let s := (s.pushRows t).foldl (fun s i =>
    let r := s.row (t.man i)
    if s.slotClean r.slot = false ∨ r.idx + 1 ≠ r.ntok then s
    else s.pushDone p idx (Ca.layer t.carr) host r (if host then r.ntok else b2n (r.decode || r.last)) outs) s
  s.modItem p idx fun u => { u with vector := false }

/-! ### Issue of carriages of the VU and the DMA -/

/-- The transfers of a carriage by its kind. -/
def State.transfers (s : State) (t : TdItem) : List Desc :=
  let k := Ca.kind t.carr
  if k = Kd.copy then copyDescs t else if k = Kd.wstage then stageDescs t else if k = Kd.embed then s.embedDescs t else []

/-- Move descriptors into the core's queue of 32 (R283). -/
def State.fillQueue (s : State) (p i : Nat) : State :=
  match s.item p i with
  | none => s
  | some t =>
    let room := 32 - (s.core p).dmaQ.length
    (t.descs.take room).foldl (fun s d => s.queueDesc p d) (s.modItem p i fun u => { u with descs := u.descs.drop room })

/-- No descriptor of a carriage waits to be issued. -/
def State.allIssued (s : State) (p : Nat) (t : TdItem) : Bool :=
  t.descs == [] && !(s.core p).dmaQ.any fun d => d.graph == t.graph && d.index == t.index && d.step == t.step && d.attempt == t.attempt

/-- The next work of a PUSH: its outputs are converted and go to the DMA; its completions follow once they have left. -/
def issuePush (p i : Nat) (t : TdItem) : Eng Unit := do
  let s ← get
  if t.start = 0 then
    let ds ← pushDescs p t
    modify fun s => ((s.issued p i).modItem p i fun u => { u with descs := ds }).fillQueue p i
  else if t.descs ≠ [] then set (s.fillQueue p i)
  else if s.allIssued p t = true ∧ t.vector = true then set (s.pushEnds p i t)

/-- The next work of a carriage with transfers: they are built at its first issue, then go to the queue; an EMBED converts what
has landed. A staged tile whose index base is not 16-byte aligned, or whose block base is not 4 KiB aligned, is cause 0x15. -/
def issueTransfers (p i : Nat) (t : TdItem) : Eng Unit := do
  if t.vector = true ∧ t.start = 0 then
    if Ca.kind t.carr = Kd.wstage ∧ (Ld.wblk t.layer % 4096 ≠ 0 ∨ Ld.widx t.layer % 16 ≠ 0) then throw (xeFlt p 4 0x15 t 0 0 0 0)
    modify fun s => ((s.issued p i).modItem p i fun u =>
      { u with descs := s.transfers t, vector := Ca.kind t.carr == Kd.embed }).fillQueue p i
  else if t.descs ≠ [] then modify fun s => s.fillQueue p i
  else
    let s ← get
    if t.vector = true ∧ s.landed p t = true then runEmbed p i t

end Sys2Proof.Machine
end

