-- ==== Sys2Proof/Machine/LogEngine.lean ====
section
/-!
DEFINITION. The log engines (07): pages read (R180, R202), scores and partials of work units (R176-R179, R181), partials on their
way to the merge core (R182, R183), and their fold (R184).
-/
namespace Sys2Proof.Machine

/-! ### Pages (R197, R202) -/

/-- A page as the engine holds it: format, codes, scale line, and whether a line of it was poisoned. -/
structure KvPage where
  id : Nat
  fmt : Nat
  codes : List Byte
  scl : List Byte
  bad : Bool
deriving DecidableEq, Repr

/-- Slot of a token in its page. -/
def KvPage.slot (g : KvPage) (tok : Nat) : Nat := if g.fmt = 1 then tok % 64 else tok % 32

/-- The scales of a token keep R49. -/
def KvPage.scalesOk (g : KvPage) (tok : Nat) : Bool := (List.range 4).all fun b => scaleOk (kvScale g.scl (g.slot tok) b)

/-- A page and its scale line are staged where A2 names an area: the codes, then the line (R254; DESIGN CHOICE, log entry 39). The
words of a poisoned line are marked (R310). -/
def stagePage (p : Nat) (t : TdItem) (at_ : Nat) (data : List Byte) (bad : List Nat) : Eng Unit :=
  if Ca.a t.carr 2 = Ca.noAddr then pure ()
  else
    let off := bits (Ca.a t.carr 2) 0 22 + at_
    modify fun s => (((s.spmWrite p t.coach off data).spmPoison p off bad).bump (dmaB p) F.dmaBytesIn data.length)

/-- Read a page's codes and scale line over the bulk path. -/
def readPage (p : Nat) (t : TdItem) (r : Row) (e : List Byte) : Eng KvPage := do
  let s ← get
  let n := if Pe.fmt e = 1 then 512 else 256
  let k := s.get (coachB r.coach) F.coachQos
  let a := s.mcRead (s.pageCodes (Pe.page e)) 4096 k false {}
  let b := a.1.mcRead (s.pageScales (Pe.page e)) n k false {}
  set (b.1.bump (leB p) F.lePagesRead)
  if a.2.1 = Sc.denied ∨ b.2.1 = Sc.denied then throw (dmaFlt p 0x51 0 t.graph t.index)
  stagePage p t 0 a.2.2.1 (a.2.2.2.flatMap (lineWords (s.pageCodes (Pe.page e)) 4096))
  stagePage p t 4096 b.2.2.1 (b.2.2.2.flatMap (lineWords (s.pageScales (Pe.page e)) n))
  pure { id := Pe.page e, fmt := Pe.fmt e, codes := a.2.2.1, scl := b.2.2.1, bad := a.2.1 != Sc.ok || b.2.1 != Sc.ok }

/-- The span's entry cannot be used (R202): `top` is the last span that may be read. -/
def entryBad (i top : Nat) (e partner : List Byte) : Bool :=
  Pe.fmt e == 0 || Pe.fmt e == 3 || Pe.tier e != 0
    || (Pe.fmt e == 1 && ((i % 2 == 1 && Pe.half e == 0)
        || (decide (i ^^^ 1 ≤ top) && Pe.page partner != Pe.page e)))

/-- The pages of a stream's spans `lo … hi` for a row's sequence, by span; an A4 page is read once for both spans. -/
def readSpans (p : Nat) (t : TdItem) (r : Row) (m chunk k h lo hi top : Nat) : Eng (List (Nat × KvPage)) :=
  (upFrom lo (hi + 1 - lo)).foldlM (fun (l : List (Nat × KvPage)) i => do
    let bad := leFlt p 0x36 t m 0 chunk
    let e ← kvEntry p t r k h (32 * i) bad
    let q ← if Pe.fmt e = 1 ∧ (i ^^^ 1) ≤ top then kvEntry p t r k h (32 * (i ^^^ 1)) bad else pure e
    if entryBad i top e q then throw (leFlt p 0x35 t m 0 chunk)
    match l.getLast? with
    | some x =>
      if Pe.fmt e = 1 ∧ x.2.fmt = 1 ∧ x.2.id = Pe.page e ∧ i % 2 = 1 then pure (l ++ [(i, x.2)])
      else do
        let g ← readPage p t r e
        pure (l ++ [(i, g)])
    | none => do
      let g ← readPage p t r e
      pure (l ++ [(i, g)])) []

/-- The page of a token among those read. -/
def pageFor (l : List (Nat × KvPage)) (tok : Nat) : Option KvPage := (l.find? fun e => e.1 == tok / 32).map (·.2)

/-! ### Scores and partials (R176-R179) -/

/-- c of R179. -/
def cLog : F32 := 0x41B8AA3B

/-- Products of a query vector with the key of a token (R174, R178). -/
def keyProducts (sigma : Int) (q : List L8) (g : KvPage) (tok : Nat) : List (Bool × Int) :=
  (q.zipIdx).filterMap fun e =>
    let sc := kvScale g.scl (g.slot tok) (e.2 / 32)
    let k := l8OfCode (kvCode g.fmt g.codes (g.slot tok) e.2)
    if e.1.mag = 0 ∨ k.mag = 0 ∨ sc = 0 then none
    else some (e.1.neg != k.neg, (e.1.mag : Int) - 1 + (k.mag - 1) + scaleCode sc + sigma)

/-- Products of a probability code with dimension `d` of a token's value (R179). -/
def valueProduct (mp : Int) (g : KvPage) (tok d : Nat) : Option (Bool × Int) :=
  let sc := kvScale g.scl (g.slot tok) (d / 32)
  let v := l8OfCode (kvCode g.fmt g.codes (g.slot tok) d)
  if v.mag = 0 ∨ sc = 0 then none else some (v.neg, mp - 1 + (v.mag - 1) + scaleCode sc)

/-- A partial in the making: E, l, o, the products formed, the probabilities dropped; `bad` where a score is not finite or passes
2^20, or a linear sum over values passes the largest finite magnitude (R176, R178). -/
structure Attn where
  e : Int
  l : F32
  o : List F32
  products : Nat := 0
  dropped : Nat := 0
  bad : Bool := false
deriving DecidableEq, Repr

/-- The empty partial. -/
def Attn.empty : Attn := { e := -(2 ^ 31), l := f32Zero, o := List.replicate 128 f32Zero }

/-- The value page of a token, by the page's first span (R179). -/
def valuePage (vs : List (Nat × KvPage)) (tok : Nat) : Nat :=
  if (pageFor vs tok).any fun g => g.fmt == 1 then 2 * (tok / 64) else tok / 32

/-- The partial of one query head of one row over its keys (R179). -/
def attend (sigma : Int) (q : List L8) (gq : Int) (ks vs : List (Nat × KvPage)) (keys : List Nat) : Attn :=
  if keys = [] then Attn.empty
  else
    let prods := keys.map fun t => match pageFor ks t with
      | some g => keyProducts sigma q g t
      | none => []
    let scores := prods.map fun l => lsum l gq
    let n := prods.foldl (fun a l => a + l.length) 0
    if scores.any fun x => x.bad || decide (0x49800000 < (f32Abs x).toNat) then { Attn.empty with products := n, bad := true }
    else
      let z := scores.map fun x => f32Mul x cLog
      let top := (z.drop 1).foldl f32Max (z.headD f32Zero)
      let e : Int := -(f32Floor (f32Neg top) (-4))
      let ps := (keys.zip z).map fun x => (x.1, f32Round (f32Sub x.2 (f32OfInt (16 * e))) 0)
      let live := (ps.filter fun x => -113 < x.2).map fun x => (valuePage vs x.1, x)
      let pages := (vs.map fun v => valuePage vs (32 * v.1)).eraseDups
      let r := pages.foldl (fun (r : F32 × List F32 × Nat × Bool) k =>
        let cs := (live.filter fun x => x.1 == k).map (·.2)
        let l := f32Add r.1 (lsum (cs.map fun x => (false, 112 + x.2)) (-7))
        let per := (List.range 128).map fun d => cs.filterMap fun x =>
          (pageFor vs x.1).bind fun g => valueProduct (113 + x.2) g x.1 d
        let sums := per.map fun w => lsum w (-7)
        (l, List.zipWith f32Add r.2.1 sums, r.2.2.1 + per.foldl (fun a w => a + w.length) 0, r.2.2.2 || sums.any F32.bad))
        (f32Zero, List.replicate 128 f32Zero, n, false)
      { e := e, l := r.1, o := r.2.1, products := r.2.2.1, dropped := (ps.filter fun x => x.2 ≤ -113).length, bad := r.2.2.2 }

/-! ### Work units (R181, R182) -/

/-- Change the merge state of a core for a MID; it begins empty. -/
def State.modMerge (s : State) (p gid mid : Nat) (f : Merge → Merge) : State :=
  s.modCore p fun c =>
    if c.merges.any fun m => m.graph == gid && m.mid == mid then
      { c with merges := c.merges.map fun (m : Merge) => if m.graph = gid ∧ m.mid = mid then f m else m }
    else { c with merges := c.merges ++ [f { graph := gid, mid := mid }] }

/-- Note that the carts of a partial have arrived. -/
def Merge.note (m : Merge) (row head chunk : Nat) (halves : List Nat) : Merge :=
  { m with seen := m.seen ++ halves.map fun h => (row, head, chunk, h) }

/-- A partial formed on its merge core lands in its slot at once. -/
def State.landLocal (s : State) (p : Nat) (t : TdItem) (x : Partial) : State :=
  (s.spmWrite p t.coach (s.landAt p t x.row x.head x.chunk) (f32Bytes x.o)).modMerge p t.graph (Ca.chain t.carr) fun y =>
    { y.note x.row x.head x.chunk [0, 1] with parts := y.parts ++ [{ x with o := [] }] }

/-- The two carts of a partial leave on N5 for its merge core (R182). -/
def State.sendPartial (s : State) (p q : Nat) (t : TdItem) (x : Partial) : State :=
  let cart (h : Nat) : PCart := { graph := t.graph, step := t.step, attempt := t.attempt, mid := Ca.chain t.carr, coach := t.coach
                                  half := h, part := { x with o := (x.o.drop (64 * h)).take 64 } }
  let s := (List.range 2).foldl (fun s _ => s.qSend (Qk.partials q) Ch.chain (End.core p) (End.core q)) s
  (s.modCore q fun c => { c with pcarts := c.pcarts ++ [cart 0, cart 1] }).bump (leB p) F.lePartialsOut

/-- A finished partial: divided and written where the row has one chunk, else sent to its merge core (R182). The chunks that
decide this are those of the row's query set, up to its highest position (DESIGN CHOICE, log entry 100). -/
def putPartial (p : Nat) (t : TdItem) (u : WUnit) (m head : Nat) (x : Attn) : Eng Unit := do
  let s ← get
  let mid := Ca.chain t.carr
  if u.chunks = 1 then
    outWrite p t (Ca.a t.carr 1) (panelAt t.P (m - t.row0) (128 * head)) (f32Bytes (x.o.map fun o => f32Div o x.l))
  else
    let pt : Partial := { row := m, head := head, chunk := u.chunk, e := x.e, l := x.l, o := x.o }
    match s.phys (mergeCore t.layer (s.partFirst t.graph mid) u.rows) with
    | none => pure ()
    | some q => set (if q = p then s.landLocal p t pt else s.sendPartial p q t pt)

/-- The query codes of a row's head (R57, R178): none where a value is an infinity or a NaN. -/
def queryOf (p : Nat) (t : TdItem) (m pos head : Nat) (freq : List F32) : Eng (Option (List L8 × Int)) := do
  let xs ← (fun (l : List Byte) => f32s l) <$>
    spmRead p t.coach t.graph (bits (Ca.a t.carr 0) 0 22 + panelAt t.P (m - t.row0) (128 * head)) 512
  let xs := if At.rope t.layer then ropeVec pos freq xs else xs
  if xs.any F32.bad then pure none
  else
    let g := l8Group xs
    pure (some (xs.map (l8OfF32 g), g))

/-- Cycles of a pass over the pages of a unit (R190): `q` query heads, with the further bound of the value pass. A page counts the
tokens of its format, since timing depends on page counts and formats alone (R191). -/
def passCycles (pages : List (Nat × KvPage)) (q : Nat) (value : Bool) : Nat :=
  ((pages.map fun e => (e.2.id, e.2.fmt)).eraseDups).foldl (fun a k =>
    let n := if k.2 = 1 then 64 else 32
    a + max (max 9 ((128 * n * q + 1023) / 1024)) (if value then (n * q + 31) / 32 else 0)) 0

/-- One KV head of a work unit for the rows that run (R178, R179). -/
def runHead (p : Nat) (t : TdItem) (u : WUnit) (rows : List Nat) (top h : Nat) (freq : List F32) : Eng Unit := do
  let l := t.layer
  let s ← get
  let r0 := s.row (rows.headD 0)
  let lo := u.chunk * At.chunkLen l
  let hi := min (lo + At.chunkLen l - 1) top
  let m0 := rows.headD 0
  if top < lo then
    rows.forM fun m => (List.range (At.g l)).forM fun j => putPartial p t u m (h * At.g l + j) Attn.empty
  else
    let ks ← readSpans p t r0 m0 u.chunk 0 h (lo / 32) (hi / 32) (top / 32)
    let vs ← readSpans p t r0 m0 u.chunk 1 h (lo / 32) (hi / 32) (top / 32)
    let q := u.rows.length * At.g l
    modify fun s => ((s.bump (leB p) F.leCycQk (passCycles ks q false)).bump (leB p) F.leCycPv (passCycles vs q true)).bump (leB p)
      F.leCycMerge (if u.chunks = 1 then 8 else 0)
    rows.forM fun m => do
      let s ← get
      let pos := (s.row m).pos
      let keys := upFrom lo (min hi pos + 1 - lo)
      let used (x : List (Nat × KvPage)) (f : KvPage → Nat → Bool) : Bool := keys.any fun k => (pageFor x k).any fun g => f g k
      if s.rowOff m (Ca.layer t.carr) then pure ()
      else if used ks (fun g _ => g.bad) || used vs (fun g _ => g.bad) then set (s.attnMask p t m u.chunk Sc.poison)
      else if used ks (fun g k => !g.scalesOk k) || used vs (fun g k => !g.scalesOk k) then
        throw (leFlt p 0x34 t m 0 u.chunk)
      else
        (List.range (At.g l)).forM fun j => do
          let s ← get
          if s.rowOff m (Ca.layer t.carr) then pure ()
          else
            let c ← queryOf p t m pos (h * At.g l + j) freq
            match c with
            | none => modify fun s => s.attnMask p t m u.chunk Sc.badArg
            | some (cs, gq) =>
              let x := attend (At.sigma l) cs gq ks vs keys
              modify fun s => (s.bump (leB p) F.leLogProducts x.products).bump (leB p) F.lePDropped x.dropped
              if x.bad then modify fun s => s.attnMask p t m u.chunk Sc.badArg
              else putPartial p t u m (h * At.g l + j) x

/-- The row of a unit that an upset is met in: the one named, the first where it is none of the unit's. -/
def WUnit.meets (u : WUnit) (row : Nat) : Nat := if u.rows.contains row then row else u.rows.headD 0

/-- A work unit runs (R181): every KV head of the layer, in turn. -/
def runUnit (p idx : Nat) (t : TdItem) (u : WUnit) (f : EngFind) : Eng Unit := do
  modify fun s => s.bump (leB p) F.leCycKvstall f.waited
  let at_ (c : Nat) : Flt := leFlt p c t (u.meets f.row) (f.col % At.g t.layer) u.chunk
  if f.port = 1 ∨ f.port = 2 then portFlt p t f 0x37 0x38 (fun c => (leB p + 8, (at_ c).word, 64)) 0
  if f.cause = 0x31 ∨ f.cause = 0x32 then throw (at_ f.cause)
  let s ← get
  let l := t.layer
  let rows := u.rows.filter fun m => !s.rowOff m (Ca.layer t.carr)
  if rows ≠ [] then
    let freq ← if At.rope l then do
        let b ← tableRead p t t.coach 0 (At.freqPtr l) 256
        pure (f32s b)
      else pure []
    let top := u.rows.foldl (fun a m => max a (s.row m).pos) 0
    onPoison ((List.range (At.nkv l)).forM fun h => runHead p t u rows top h freq) fun s =>
      (rows.filter fun m => !s.rowOff m (Ca.layer t.carr)).foldl (fun (s : State) m => s.attnMask p t m u.chunk Sc.poison) s
  modify fun s => s.modItem p idx fun v => { v with units := v.units.drop 1 }

/-! ### Partials at the merge core (R182-R184) -/

/-- The merge state of a carriage's MID on its core. -/
def State.mergeOf (s : State) (p : Nat) (t : TdItem) : Merge :=
  ((s.core p).merges.find? fun m => m.graph == t.graph && m.mid == Ca.chain t.carr).getD { graph := t.graph, mid := Ca.chain t.carr }

/-- The checks of R183 on a cart; the chunks are those of the row's query set (DESIGN CHOICE, log entry 100). -/
def State.partialOk (s : State) (p : Nat) (t : TdItem) (c : PCart) : Bool :=
  c.coach == t.coach && (match s.setOf t.graph t.layer c.part.row with
    | some q => s.mergesHere p t q && decide (c.part.chunk < q.2)
    | none => false)
  && !(s.mergeOf p t).seen.contains (c.part.row, c.part.head, c.part.chunk, c.half)

/-- The tag of a half is kept; with its other half it is a whole partial that waits (R182). -/
def Merge.land (m : Merge) (c : PCart) : Merge :=
  let x := c.part
  let whole := m.seen.contains (x.row, x.head, x.chunk, 1 - c.half)
  let m := m.note x.row x.head x.chunk [c.half]
  if whole then { m with parts := m.parts ++ [{ x with o := [] }] } else m

/-- A half is written into its slot of the landing area (R182). -/
def State.landHalf (s : State) (p : Nat) (t : TdItem) (c : PCart) : State :=
  (s.spmWrite p t.coach (s.landAt p t c.part.row c.part.head c.part.chunk + 256 * c.half) (f32Bytes c.part.o)).modMerge p t.graph
    (Ca.chain t.carr) fun m => m.land c

/-- PARTIAL_CART_RX (R183): the oldest partial cart on its way to a core is checked and lands; one of another attempt is
discarded. -/
def execPartialCartRx (core : Nat) (found : EngFind) (s : State) : Res :=
  let s := s.meet core found
  .next (match (s.core core).pcarts with
    | [] => s
    | c :: rest =>
      let fits (t : TdItem) : Bool := Ca.isLe t.carr && t.graph == c.graph && Ca.chain t.carr == c.mid && t.step == c.step
        && t.attempt == c.attempt
      let n := (s.core core).pcarts.length
      let taken := ((s.qAwait (Qk.partials core) n).qLeave (Qk.partials core)).modCore core fun x => { x with pcarts := rest }
      let i := ((s.core core).td.findIdx? fun t => fits t && Ca.kind t.carr == Kd.merge).orElse fun _ => (s.core core).td.findIdx? fits
      match i.bind fun i => (s.item core i).map fun t => (i, t) with
      | none => if (s.core core).disp.any fits then s else taken
      | some (i, t) =>
        let f (k : Nat) : Flt := leFlt core k t c.part.row (c.part.head % At.g t.layer) c.part.chunk
        if found.port = 1 then taken.work core i (portFlt core t found 0x37 0x38 (fun k => (leB core + 8, (f k).word, 64)) 0)
        else if found.cause = 0x33 ∨ s.partialOk core t c = false then taken.faultItem core i (f 0x33)
        else taken.landHalf core t c)

/-- The running sum of a row and head, with the partials folded. -/
def Merge.sum (m : Merge) (row head : Nat) : Partial × Nat :=
  (m.sums.find? fun x => x.1.row == row && x.1.head == head).getD
    ({ row := row, head := head, chunk := 0, e := -(2 ^ 31), l := f32Zero, o := List.replicate 128 f32Zero }, 0)

/-- One step of the fold of R184. -/
def foldPartial (a p : Partial) : Partial :=
  if p.e = -(2 ^ 31) then a
  else if a.e = -(2 ^ 31) then { a with e := p.e, l := p.l, o := p.o }
  else
    let f := max a.e p.e
    let add (x y : F32) : F32 := f32Add (f32Scale x (a.e - f)) (f32Scale y (p.e - f))
    { a with e := f, l := add a.l p.l, o := List.zipWith add a.o p.o }

/-- A partial may be folded now (R184): in strict mode it is the next chunk, else the first of its row and head to arrive. -/
def State.mayFold (s : State) (m : Merge) (k : Nat) (p : Partial) : Bool :=
  if s.strict then p.chunk == (m.sum p.row p.head).2
  else !(m.parts.take k).any fun x => x.row == p.row && x.head == p.head

/-- Fold one waiting partial from its slot; after the last one the sum is divided and written (R184). A masked row's partials are
discarded. -/
def foldOne (p i : Nat) (t : TdItem) (m : Merge) (k : Nat) (x : Partial) : Eng Unit := do
  modify fun s => (s.modMerge p t.graph (Ca.chain t.carr) fun y => { y with parts := dropAt y.parts k }).issued p i
  let s ← get
  if s.rowOff x.row (Ca.layer t.carr) then pure ()
  else
    let old := m.sum x.row x.head
    let b ← if x.e = -(2 ^ 31) then pure [] else spmRead p t.coach t.graph (s.landAt p t x.row x.head x.chunk) 512
    let a := foldPartial old.1 { x with o := f32s b }
    let n := old.2 + 1
    let all := ((s.setOf t.graph t.layer x.row).map (·.2)).getD 0
    let cyc := (if x.e = -(2 ^ 31) then 0 else 4) + (if n = all then 4 else 0)
    modify fun s => (s.bump (leB p) F.lePartialsIn).bump (leB p) F.leCycMerge cyc
    let others (y : Merge) : List (Partial × Nat) := y.sums.filter fun z => !(z.1.row == x.row && z.1.head == x.head)
    if n < all then modify fun s => s.modMerge p t.graph (Ca.chain t.carr) fun y => { y with sums := others y ++ [(a, n)] }
    else
      let mc := s.mergeCarr t.graph (Ca.chain t.carr)
      outWrite p t (Ca.a mc 1) (panelAt (64 * Ca.ngroup mc) (x.row - t.row0) (128 * x.head)) (f32Bytes (a.o.map fun o => f32Div o a.l))
      modify fun s => s.modMerge p t.graph (Ca.chain t.carr) fun y => { y with sums := others y, out := y.out ++ [(x.row, x.head)] }

/-- MERGE_FOLD (R184): the merge unit folds the waiting partial that stands at place `pick`. -/
def execMergeFold (core idx pick : Nat) (s : State) : Res :=
  .next (match s.item core idx with
    | none => s
    | some t =>
      let m := s.mergeOf core t
      match m.parts[pick]? with
      | none => s
      | some x => if Ca.isLe t.carr = false ∨ s.mayFold m pick x = false then s else s.work core idx (foldOne core idx t m pick x))

/-- Every row that the core merges for a carriage's MID has its outputs, or is masked (R184). -/
def State.merged (s : State) (p : Nat) (t : TdItem) : Bool :=
  let m := s.mergeOf p t
  let nq := At.nkv t.layer * At.g t.layer
  (s.mergedSets p t).all fun q => q.1.all fun r =>
    s.rowOff r (Ca.layer t.carr) || (List.range nq).all fun h => m.out.contains (r, h)

end Sys2Proof.Machine
end

