-- ==== Sys2Proof/Machine/Engines.lean ====
section
/-!
DEFINITION. What a task dispatcher does with a carriage it holds: the issue of its work (R261), its completion (R262, R266), its
end on the GS's order (R84, R114) and by the watchdog (R269).
-/
namespace Sys2Proof.Machine

/-! ### Issue (R259, R261) -/

/-- The next pass of a carriage of a ternary engine runs where the engine is ready for it. -/
def issuePass (p i : Nat) (t : TdItem) (f : EngFind) : Eng Unit := do
  let s ← get
  match t.todo with
  | [] => pure ()
  | x :: _ =>
    if x.stage = 1 then
      set (s.issued p i)
      runAdapterQuant p i t x
    else if s.passReady p (Ca.te t.carr) t x = true then
      set (s.issued p i)
      runPass p (Ca.te t.carr) i t x f

/-- The next work unit of an attention carriage runs. -/
def issueUnit (p i : Nat) (t : TdItem) (f : EngFind) : Eng Unit := do
  let s ← get
  match t.units with
  | [] => pure ()
  | u :: _ =>
    set (s.issued p i)
    runUnit p i t u f

/-- The vector work of a carriage. -/
def issueVector (p i : Nat) (t : TdItem) : Eng Unit := do
  let s ← get
  if t.vector = true then
    set (s.issued p i)
    runVu p i t
    modify fun s => s.modItem p i fun u => { u with vector := false }

/-- The next work of a carriage goes to its engine. -/
def issueWork (p i : Nat) (t : TdItem) (f : EngFind) : Eng Unit :=
  let k := Ca.kind t.carr
  if Ca.isTe t.carr then issuePass p i t f
  else if k = Kd.attn then issueUnit p i t f
  else if k = Kd.vu then issueVector p i t
  else if k = Kd.push then issuePush p i t
  else if k = Kd.copy ∨ k = Kd.wstage ∨ k = Kd.embed then issueTransfers p i t
  else pure ()

/-- CARRIAGE_ISSUE (R261): the TD issues the next work of a carriage whose turn it is at its engine; the row mask applies, and
the delta carts that may be fetched now are asked for (R158). -/
def execCarriageIssue (core idx : Nat) (found : EngFind) (s : State) : Res :=
  .next (match s.item core idx with
    | none => s
    | some t =>
      if s.turn core idx = false then s
      else (((s.meet core found).lateMasks t).work core idx (issueWork core idx t found)).stageCarts core)

/-! ### Completion (R262, R266) -/

/-- No set of a core's engines is held for a carriage. -/
def State.setsFree (s : State) (p : Nat) (t : TdItem) : Bool :=
  (s.core p).te.all fun x => (x.setA.st == 0 || x.setA.carr != t.key + 1) && (x.setB.st == 0 || x.setB.carr != t.key + 1)

/-- The chain segment of a carriage holds its chain's last position, or CHAIN_DONE has come (R266). -/
def State.chainOver (s : State) (t : TdItem) : Bool :=
  match (s.unitOf t.graph t.index).bind fun k => s.gs.units[k]? with
  | none => true
  | some u => s.holdsLast u || s.chainIsDone u

/-- The last engine of a carriage has finished and every write of it has been acknowledged (R262); a member of a chain that
ends on another device waits for CHAIN_DONE (R266). -/
def State.finished (s : State) (p : Nat) (t : TdItem) : Bool :=
  !t.busy && t.begun == t.loads.length && s.setsFree p t
    && (s.core p).xe.all (fun x => x.carr != t.key + 1)
    && s.landed p t
    && t.waits.all (fun w => !s.link.out.any fun o => o.tag == w)
    && s.cores.all (fun c => !c.2.nbr.any fun n => n.src == p && n.carr == t.key + 1)
    && (s.core p).nbrWait.all (fun w => w.2.carr != t.key + 1)
    && (!Ca.isLe t.carr || s.merged p t)
    && s.chainOver t

/-- The last position of a chain that crosses nodes sends CHAIN_DONE to the nodes that its carts came from (R266). -/
def State.sendChainDone (s : State) (t : TdItem) : State :=
  let c := t.carr
  if Ca.inChain c = true ∧ Ca.pos c = Ca.lenm1 c then
    (SMap.look [] s.link.barFrom (65536 * t.graph + Ca.chain c)).foldl
      (fun s n => s.send { mtype := 0x21, vc := 0, dst := n, coach := t.coach, addr := Ca.chain c, arg := t.pass }) s
  else s

/-- CARRIAGE_COMPLETE (R262): a carriage has finished, and its completion record leaves for the GS. -/
def execCarriageComplete (core idx : Nat) (s : State) : Res :=
  .next (match s.item core idx with
    | none => s
    | some t =>
      if s.finished core t = false then s
      else (((s.bump (tdB core) F.tdCarriages).sendChainDone t).stopEngines core t).retireItem core idx t Sc.ok 0)

/-! ### Ends that the GS orders, and the watchdog (R84, R114, R269) -/

/-- The place of a carriage among those of a queue. -/
def placeOf (l : List TdItem) (graph index : Nat) : Option Nat := l.findIdx? fun t => t.graph == graph && t.index == index

/-- End a carriage on the GS's order, whether the TD has accepted it or its dispatch cart is still on the way. -/
def State.endOrdered (s : State) (p graph index status : Nat) : State :=
  match placeOf (s.core p).td graph index with
  | some i => s.endItem p i status 0
  | none =>
    match (placeOf (s.core p).disp graph index).bind fun i => (s.core p).disp[i]?.map fun t => (i, t) with
    | none => s
    | some (i, t) =>
      (s.modCore p fun c => { c with disp := dropAt c.disp i }).queueCompl p (s.complOf p t status 0, t.credit)

/-- CARRIAGE_END_RX (R84): the oldest order of the GS for a core reaches its TD. -/
def execCarriageEndRx (core : Nat) (s : State) : Res :=
  .next (match s.gs.endQ.findIdx? (fun e => e.1 == core) with
    | none => s
    | some k =>
      let e := s.gs.endQ.getD k (0, 0, 0, 0)
      let t : State := { s with gs := { s.gs with endQ := dropAt s.gs.endQ k } }
      t.endOrdered core e.2.1 e.2.2.1 e.2.2.2)

/-- CARRIAGE_WATCHDOG (R269): 50 ms have passed since a carriage's first issue. -/
def execCarriageWatchdog (core idx : Nat) (s : State) : Res :=
  .next (match s.item core idx with
    | none => s
    | some t =>
      if t.start = 0 ∨ s.gcount + 1 < t.start + 50000000 then s
      else ((s.count F.watchdog).bump (tdB core) F.tdWdFired).faultItem core idx (tdFlt core 0x41 t))

end Sys2Proof.Machine
end

