-- ==== Sys2Proof/Machine/GraphCommands.lean ====
section
/-!
DEFINITION. The mailbox commands on graphs (R248-R252), decode tables (R103, R104) and overlays (R146, R147).
-/
namespace Sys2Proof.Machine

/-- Answer a command with the status of a failed validation. -/
def State.fails (s : State) (c : Cmd) (st : Nat) : State := s.respond c.box c.coach st

/-- A command for coach `d` fails with NO_RESOURCE; where a quota or a reservation refuses it, the coach's vector 2 takes one
event (R343). -/
def State.refuses (s : State) (c : Cmd) (d : Nat) (byShare : Bool) : State :=
  (if byShare then s.event d 2 else s).fails c Sc.noResource

/-! ### Graphs -/

/-- A registration for which there is no resource is refused by the reserved dispatch credits of its partition (R342, R343). -/
def State.registerByShare (s : State) (c : Cmd) : Bool :=
  match s.fwRead c.coach (c.arg 0 8) 64 with
  | .ok hd => s.partOver (GHead.of hd).coach (GHead.of hd).pbase (GHead.of hd).pcount
  | .error _ => false

/-- GRAPH_REGISTER (R248, R250, R267, R448). -/
def execGraphRegister (box : Nat) (s : State) : Res :=
  .next (takeCommand 0x0301 box (fun c s =>
    match s.graphImage c.isAdmin c.coach (c.arg 0 8) (c.arg 8 4) with
    | .error st => if st = Sc.noResource then s.refuses c c.coach (s.registerByShare c) else s.fails c st
    | .ok (id, g, img) =>
      let s := ({ s with graphs := SMap.put none s.graphs id (some g) }).memWrite (s.chip F.gsStore + g.base) img
      (s.extendCm g.coach (sha256 img)).respond box c.coach Sc.ok (leBytes 2 id ++ [0, 0] ++ leBytes 4 g.size)) s)

/-- A coach mailbox acts on another coach's graph. -/
def Cmd.stranger (c : Cmd) (owner : Nat) : Bool := !c.isAdmin && c.coach != owner

/-- The checks of GRAPH_UPDATE (R252, R267): the caller, the layer, and the descriptor. -/
def State.updateCheck (s : State) (c : Cmd) (gid layer : Nat) (d : List Byte) : Except Nat Graph :=
  match s.graph gid with
  | none => .error Sc.badArg
  | some g => do
    require (!c.stranger g.coach) Sc.denied
    require (!s.pinPoison g.coach d) Sc.poison
    require (layer < g.layers.length) Sc.badArg
    s.layerCheck g.coach layer d
    require (s.streamsOk g.coach gid (some layer) [d]) Sc.badArg
    .ok g

/-- GRAPH_UPDATE (R252, R267, R448): the descriptor is staged for the next step boundary. -/
def execGraphUpdate (box : Nat) (s : State) : Res :=
  .next (takeCommand 0x0302 box (fun c s =>
    let gid := c.arg 0 2
    let layer := c.arg 2 2
    let d := padTo 128 (c.args.drop 16)
    match s.updateCheck c gid layer d with
    | .error st => s.fails c st
    | .ok g =>
      let s := s.modGraph gid fun g => { g with
        staged := SMap.put [] g.staged layer d, stagedPins := SMap.put [] g.stagedPins layer (s.pinList g.coach d) }
      (s.extendCm g.coach (sha256 d)).respond box c.coach Sc.ok) s)

/-- A graph is named by a live sequence or an OVE, or armed in the step (R250). -/
def State.graphInUse (s : State) (gid : Nat) : Bool :=
  (s.liveSlots.any fun n => s.cfg n Se.graph == gid)
    || (s.sb.oves.any fun e => e.2.st != Os.free && e.2.graph == gid)
    || (s.gs.active && s.gs.units.any fun u => u.graph == gid)

/-- GRAPH_UNREGISTER (R250). -/
def execGraphUnregister (box : Nat) (s : State) : Res :=
  .next (takeCommand 0x0303 box (fun c s =>
    let gid := c.arg 0 2
    match s.graph gid with
    | none => s.fails c Sc.badArg
    | some g =>
      if c.stranger g.coach then s.fails c Sc.denied
      else if s.graphInUse gid then s.fails c Sc.inUse
      else State.respond { s with graphs := SMap.put none s.graphs gid none } box c.coach Sc.ok) s)

/-- GRAPH_SHARE (R431): an admin shares a graph with COACH, or withdraws the share. -/
def execGraphShare (box : Nat) (s : State) : Res :=
  .next (takeCommand 0x0304 box (fun c s =>
    let gid := c.arg 0 2
    let on := c.arg 2 1
    if (s.graph gid).isNone ∨ 1 < on then s.fails c Sc.badArg
    else if on = 1 then
      (s.modGraph gid fun g => { g with shared := insertNat c.coach g.shared }).respond box c.coach Sc.ok
    else if (s.slotsOf c.coach).any (fun n => s.cfg n Se.graph == gid) then s.fails c Sc.inUse
    else (s.modGraph gid fun g => { g with shared := g.shared.filter (· != c.coach) }).respond box c.coach Sc.ok) s)

/-! ### Decode tables (R101-R105) -/

/-- States of a decode-table slot (R101). -/
def Tb.free : Nat := 0
def Tb.live : Nat := 1
def Tb.retiring : Nat := 2
def Tb.loading : Nat := 3

/-- TABLE_LOAD (R103): the slot enters LOADING, and answers when every XE holds the image. -/
def execTableLoad (box : Nat) (s : State) : Res :=
  .next (takeCommand 0x0305 box (fun c s =>
    let n := c.arg 0 1
    let img := (c.args.drop 4).take 16
    if 15 < n ∨ tableOk img = false then s.fails c Sc.badArg
    else if s.get (tblB n) F.tblState = Tb.loading then s.respondBusy box c.coach
    else if s.get (tblB n) F.tblCount ≠ 0 then s.fails c Sc.inUse
    else
      let s := s.set (tblB n) F.tblState Tb.loading
      State.inProg { s with tables := SMap.put {} s.tables n { image := img, digest := c.digest } } c [n]) s)

/-- TABLE_LOAD_DONE (R103, R448): every XE has its copy. GEN advances, the slot becomes LIVE, and the command returns GEN. -/
def execTableLoadDone (slot : Nat) (s : State) : Res :=
  .next (if 15 < slot ∨ s.get (tblB slot) F.tblState ≠ Tb.loading then s
    else
      let g := s.get (tblB slot) F.tblGen
      let g := if g = 0xFFFF then 1 else g + 1
      let s := (s.set (tblB slot) F.tblState Tb.live).set (tblB slot) F.tblGen g
      let s := s.extendM 5 (SMap.look {} s.tables slot).digest
      s.answerAll 0x0305 (fun q => q.par == [slot]) Sc.ok (leBytes 2 g))

/-- TABLE_RETIRE (R104). -/
def execTableRetire (box : Nat) (s : State) : Res :=
  .next (takeCommand 0x0306 box (fun c s =>
    let n := c.arg 0 1
    if 15 < n ∨ s.get (tblB n) F.tblState ≠ Tb.live then s.fails c Sc.badArg
    else
      let st := if s.get (tblB n) F.tblCount = 0 then Tb.free else Tb.retiring
      (s.set (tblB n) F.tblState st).respond box c.coach Sc.ok [Byte.ofNat st]) s)

/-! ### Overlays (R144-R147) -/

/-- OVEs of a coach that are not FREE. -/
def State.ovesOf (s : State) (c : Nat) : Nat := (s.sb.oves.filter fun e => e.2.st != Os.free && e.2.coach == c).length

/-- A coach that holds `held` of a pool of `total` may take one more (R342): from its reservation, or from the common part
within its cap. `common` and `reserved` are the common part in use and the reservations of all coaches. -/
def poolRoom (total held res cap common reserved : Nat) : Bool :=
  decide (held < res) || (decide (held - res < cap) && decide (common + reserved < total))

/-- The coach's cap on the common part stops it (R342). -/
def capStops (held res cap : Nat) : Bool := decide (res ≤ held) && decide (cap ≤ held - res)

/-- The coach may take one more OVE (R342). -/
def State.oveRoom (s : State) (c : Nat) : Bool :=
  let res (d : Nat) : Nat := s.get (coachB d) F.coachResOve
  let cs := s.liveCoaches
  poolRoom 16384 (s.ovesOf c) (res c) (s.get (coachB c) F.coachOveQuota)
    (cs.foldl (fun a d => a + (s.ovesOf d - res d)) 0) (cs.foldl (fun a d => a + res d) 0)

/-- The FREE OVE that the firmware takes: the one picked where it is FREE, else the lowest. -/
def State.freeOveAt (s : State) (pick : Nat) : Option Nat :=
  let free (i : Nat) : Bool := i < 16384 && (s.ove i).st == Os.free
  if free pick then some pick else firstBelow 16384 free

/-- The 64-byte record of an OVE (R145). -/
def oveRecord (name coach version desc graph : Nat) : List Byte :=
  packFields 64 [(0, 2, name), (2, 2, coach), (4, 4, version), (8, 8, desc), (16, 2, graph)]

/-- OVE `i` becomes LIVE and current for its name, and the previous version moves on (R146, steps 4 and 5). -/
def State.loadOve (s : State) (i coach name desc graph : Nat) : State :=
  let v := (s.ovName name).loads + 1
  let s := s.memWrite (s.chip F.ovlBase + 64 * i) (oveRecord name coach v desc graph)
  let s := s.setOve i { st := Os.live, refs := 0, coach := coach, name := name, desc := desc, graph := graph }
  let old := (s.ovName name).cur
  let s := s.setName name { cur := some i, owner := some coach, loads := v }
  match old with
  | none => s
  | some j => s.moveOn j

/-- OVERLAY_LOAD (R146, R152-R155, R164, R342, R448). -/
def execOverlayLoad (box pick : Nat) (s : State) : Res :=
  .next (takeCommand 0x0307 box (fun c s =>
    let name := c.arg 0 2
    let desc := c.arg 8 8
    let owner := (s.ovName name).owner
    if 16383 < name then s.fails c Sc.badArg
    else if owner ≠ none ∧ owner ≠ some c.coach then s.fails c Sc.denied
    else match (if s.oveRoom c.coach then s.freeOveAt pick else none) with
      | none => s.refuses c c.coach (!s.oveRoom c.coach && ((s.freeOveAt pick).isSome ||
          capStops (s.ovesOf c.coach) (s.get (coachB c.coach) F.coachResOve) (s.get (coachB c.coach) F.coachOveQuota)))
      | some i =>
        match s.overlayImage c.coach desc with
        | .error st => s.fails c st
        | .ok (gid, bytes) =>
          let v := (s.ovName name).loads + 1
          let s := s.loadOve i c.coach name desc gid
          (s.extendCm c.coach (sha256 bytes)).respond box c.coach Sc.ok (leBytes 2 i ++ [0, 0] ++ leBytes 4 v)) s)

/-- OVERLAY_DROP (R147). -/
def execOverlayDrop (box : Nat) (s : State) : Res :=
  .next (takeCommand 0x0308 box (fun c s =>
    let name := c.arg 0 2
    if 16383 < name then s.fails c Sc.badArg
    else if c.isAdmin = false ∧ (s.ovName name).owner ≠ none ∧ (s.ovName name).owner ≠ some c.coach then s.fails c Sc.denied
    else if (s.ovName name).cur = none then s.fails c Sc.badArg
    else (s.dropName name).respond box c.coach Sc.ok) s)

/-- One entry of OVERLAY_READ as the caller sees it. -/
def State.oveEntry (s : State) (c : Cmd) (i : Nat) : List Byte :=
  let o := s.ove i
  if o.st = Os.free ∨ c.stranger o.coach = true then List.replicate 8 0
  else packFields 8 [(0, 4, o.refs), (4, 2, o.coach), (6, 1, o.st)]

/-- OVERLAY_READ (R431). -/
def execOverlayRead (box : Nat) (s : State) : Res :=
  .next (takeCommand 0x0309 box (fun c s =>
    let first := c.arg 0 2
    let n := c.arg 2 1
    if n = 0 ∨ 60 < n ∨ 16384 < first + n then s.fails c Sc.badArg
    else s.respond box c.coach Sc.ok ((upFrom first n).flatMap fun i => s.oveEntry c i)) s)

end Sys2Proof.Machine
end

