-- ==== Sys2Proof/Machine/Management.lean ====
section
/-!
DEFINITION. The device's management commands (R431): information, role, core configuration, topology (R379-R382), drain (R397),
chip reset (R480), hand-over (R434), cores (R405, R410), the log (R520), identity and quotes (R449, R450).
-/
namespace Sys2Proof.Machine

/-- GET_INFO (R431). -/
def execGetInfo (box : Nat) (s : State) : Res :=
  .next (takeCommand 0x0001 box (fun c s =>
    s.respond box c.coach Sc.ok (packFields 12 [(0, 1, 4), (1, 1, 1), (2, 1, 0xB1), (3, 1, s.nCores), (4, 4, s.chip F.fwVersion),
      (8, 2, s.node), (10, 1, s.mpLoad), (11, 1, s.chip F.sbRole)])) s)

/-- SET_ROLE (R431, R229): the role applies at the next step boundary, and at once where no step runs. -/
def execSetRole (box : Nat) (s : State) : Res :=
  .next (takeCommand 0x0002 box (fun c s =>
    let v := c.arg 0 1
    if 2 < v then s.respond box c.coach Sc.badArg
    else if s.gs.active then State.inProg { s with gs := { s.gs with roleNext := some v } } c
    else (s.setChip F.sbRole v).respond box c.coach Sc.ok) s)

/-- SET_CORE_CONFIG (R431, R448, R485): held for the next cold reset. -/
def execSetCoreConfig (box : Nat) (s : State) : Res :=
  .next (takeCommand 0x0003 box (fun c s =>
    let v := c.arg 0 1
    if v ≠ 112 ∧ v ≠ 128 then s.respond box c.coach Sc.badArg
    else (State.extendM { s with boot := { s.boot with nextCfg := v } } 3 c.digest).respond box c.coach Sc.ok) s)

/-! ### Topology (R379-R382) -/

/-- The far end of torus port `p` of a node (R381): the neighbour in the group, and its port. -/
def torusPeer (node p : Nat) : Nat × Nat :=
  let g := node / 16 * 16
  let x := node % 4
  let y := node / 4 % 4
  let k := if p < 6 then p else p - 4
  let far := match k with
    | 2 => ((x + 1) % 4 + 4 * y, 3)
    | 3 => ((x + 3) % 4 + 4 * y, 2)
    | 4 => (x + 4 * ((y + 1) % 4), 5)
    | _ => (x + 4 * ((y + 3) % 4), 4)
  (g + far.1, if p < 6 then far.2 else far.2 + 4)

/-- The far end of global port `p` of a node (R382); none where its group does not exist. -/
def globalPeer (node groups p : Nat) : Option (Nat × Nat) :=
  let a := node / 16
  let b := (a + 6 * (node % 16) + (p - 10) + 1) % 97
  if b < groups then
    let g := gateway b a
    some (16 * b + g.1, g.2)
  else none

/-- The partner that port `p` expects (R379), as node * 16 + port + 1; 0 for an empty entry. -/
def partnerOf (node groups hosts p : Nat) : Nat :=
  if p < 2 then (if bit hosts p then (0x8000 + 2 * node + p) * 16 + p + 1 else 0)
  else if p < 10 then let e := torusPeer node p; e.1 * 16 + e.2 + 1
  else match globalPeer node groups p with | some e => e.1 * 16 + e.2 + 1 | none => 0

/-- A MISWIRED port under a new topology map (R378, R379): it trains, or is DOWN where its map entry is empty. -/
def State.rewired (s : State) (p : Nat) : State :=
  if s.linkState p ≠ Ls.miswired then s
  else
    let s := if SMap.look 0 s.link.expect p = 0 then (s.enterLink p Ls.down).set (portB p) F.portLaneLock 0
      else s.enterLink p Ls.training
    s.modPort p fun q => { q with marks := 0 }

/-- EKL_NODE shows the device's node, its group and position, and the groups of the map (R399). -/
def State.setNode (s : State) (node groups : Nat) : State :=
  let s := ((s.setChip F.eklNodeNode node).setChip F.group (node / 16)).setChip F.eklNodeX (node % 4)
  ((s.setChip F.eklNodeY (node / 4 % 4)).setChip F.ngroups groups).setChip F.mapValid 1

/-- The topology map is loaded (R379). -/
def State.setTopo (s : State) (node groups hosts : Nat) : State :=
  let s := s.setNode node groups
  let s : State := { s with link := { s.link with
    expect := (List.range 16).foldl (fun m p => SMap.put 0 m p (partnerOf node groups hosts p)) [] } }
  (List.range 16).foldl (fun s p => s.rewired p) s

/-- TOPO_SET (R379-R382, R431, R448). -/
def execTopoSet (box : Nat) (s : State) : Res :=
  .next (takeCommand 0x0004 box (fun c s =>
    let node := c.arg 0 2
    let groups := c.arg 2 1
    if groups = 0 ∨ 97 < groups ∨ groups ≤ node / 16 then s.respond box c.coach Sc.badArg
    else ((s.setTopo node groups (c.arg 3 1)).extendM 3 c.digest).respond box c.coach Sc.ok) s)

/-- DRAIN (R397, R431, R538, R539): the admin drain source is set or cleared; a begun drain is answered once DRAINED reads 1. -/
def execDrain (box : Nat) (s : State) : Res :=
  .next (takeCommand 0x0005 box (fun c s =>
    let v := c.arg 0 1
    if 1 < v then s.respond box c.coach Sc.badArg
    else if v = 0 then
      let was := s.chip F.admDrain
      let s := (s.setChip F.admDrain 0).refreshDrain
      (if was = 1 then s.serviceNote 5 2 else s).respond box c.coach Sc.ok
    else
      let was := s.chip F.admDrain
      let s := (s.setChip F.admDrain 1).refreshDrain
      let s := if was = 0 then s.serviceNote 3 2 else s
      if s.chip F.drained = 1 then s.respond box c.coach Sc.ok else s.inProg c [s.gcount]) s)

/-- CHIP_RESET (R431, R480): the response is written, and a chip warm reset begins. -/
def execChipReset (box : Nat) (s : State) : Res :=
  .next (takeCommand 0x0008 box (fun c s => (s.respond box c.coach Sc.ok).warmTrigger 2) s)

/-- FW_HANDOVER (R434, step 1): HANDOVER reads 1 and no new command is taken; the command stays in progress. -/
def execFwHandover (box : Nat) (s : State) : Res :=
  .next (takeCommand 0x0009 box (fun c s =>
    let a := c.arg 0 8
    let len := c.arg 8 4
    let p := c.arg 12 1
    if a % 4096 ≠ 0 ∨ len = 0 ∨ 4194304 < len ∨ 1 < p then s.respond box c.coach Sc.badArg
    else
      let b := { s.boot with img := a, len := len, port := p, handStatus := Sc.ok, kept := false }
      (State.setChip { s with boot := b } F.handover 1).inProg c) s)

/-! ### Cores (R405, R410, R411) -/

/-- CORE_WITHDRAW (R405, R431): an ACTIVE core is withdrawn while a spare is left. -/
def execCoreWithdraw (box : Nat) (s : State) : Res :=
  .next (takeCommand 0x000A box (fun c s =>
    let p := c.arg 0 1
    if 144 ≤ p ∨ s.get (pcoreB p) F.pcoreState ≠ 2 then s.respond box c.coach Sc.badArg
    else match s.spareFor p with
      | none => s.respond box c.coach Sc.noResource
      | some q => (((s.withdraw p 4).settleAll.maybeCut).boundary).respond box c.coach Sc.ok [Byte.ofNat q]) s)

/-- A core falls due for its test (R408). -/
def State.makeDue (s : State) (p : Nat) : State :=
  s.modCore p fun x => { x with due := match x.due with | none => some s.gcount | some t => some t }

/-- CORE_TEST (R410, R431): an ACTIVE or SPARE core falls due for its test, and the command waits for its end. -/
def execCoreTest (box : Nat) (s : State) : Res :=
  .next (takeCommand 0x000B box (fun c s =>
    let p := c.arg 0 1
    if 144 ≤ p ∨ (s.get (pcoreB p) F.pcoreState ≠ 1 ∧ s.get (pcoreB p) F.pcoreState ≠ 2) then s.respond box c.coach Sc.badArg
    else (s.makeDue p).inProg c [p]) s)

/-! ### The log (R520) -/

/-- The record in a slot of the ring names a coach (R516). -/
def State.recNames (s : State) (slot c : Nat) : Bool :=
  fieldLE (SMap.look [] s.log.ring slot) 16 2 == 32768 + c || (SMap.look [] s.log.named slot).contains c

/-- Scan the log upward from a record number for at most `left` records that a mailbox may receive: the next number, and the
records. -/
def State.logScan (s : State) (coach : Option Nat) : Nat → Nat → Nat → List (List Byte) → Nat × List (List Byte)
  | 0, n, _, l => (n, l)
  | k + 1, n, left, l =>
    if left = 0 ∨ n = s.chip F.logStateHead then (n, l)
    else
      let r := SMap.look [] s.log.ring (n % 8192)
      if coach.all fun c => s.recNames (n % 8192) c then State.logScan s coach k ((n + 1) % 2 ^ 32) (left - 1) (l ++ [r])
      else State.logScan s coach k ((n + 1) % 2 ^ 32) left l

/-- `a` lies behind `b`, distances taken mod 2^32 (R520). -/
def behind (a b : Nat) : Bool := decide (0 < (b + 2 ^ 32 - a % 2 ^ 32) % 2 ^ 32) && decide ((b + 2 ^ 32 - a % 2 ^ 32) % 2 ^ 32 < 2 ^ 31)

/-- The result of LOG_READ (R431, R520). -/
def State.logRead (s : State) (coach : Option Nat) (first count : Nat) : List Byte :=
  let head := s.chip F.logStateHead
  let tail := s.chip F.logStateTail
  if behind first head = false then packFields 16 [(0, 4, head)]
  else
    let lost := if behind first tail then (tail + 2 ^ 32 - first) % 2 ^ 32 else 0
    let r := s.logScan coach 8192 (if lost = 0 then first else tail) count []
    packFields 16 [(0, 4, r.1), (4, 1, r.2.length), (8, 4, lost)] ++ r.2.flatten

/-- LOG_READ (R520). -/
def execLogRead (box : Nat) (s : State) : Res :=
  .next (takeCommand 0x000C box (fun c s =>
    let n := c.arg 4 1
    if n = 0 ∨ 7 < n then s.respond box c.coach Sc.badArg
    else s.respond box c.coach Sc.ok (s.logRead (if 16 ≤ box then some (box - 16) else none) (c.arg 0 4) n)) s)

/-! ### Identity and quotes (R449, R450) -/

/-- ID_GET (R449). -/
def execIdGet (box : Nat) (s : State) : Res :=
  .next (takeCommand 0x000D box (fun c s =>
    match c.arg 0 1 with
    | 0 => s.respond box c.coach Sc.ok (packFields 16 [(0, 8, s.chip F.devSerialSerial), (8, 1, 0xB1), (9, 1, s.chip F.keyslot),
        (10, 1, s.chip F.svnMin), (11, 1, s.chip F.bootStatusSvn), (12, 4, s.chip F.fwVersion)] ++ sha256 (beBytes 384 s.boot.dkN))
    | 1 => s.respond box c.coach Sc.ok (beBytes 384 s.boot.dkN)
    | 2 => s.respond box c.coach Sc.ok s.boot.m.flatten
    | 3 =>
      if box = 8 then s.respond box c.coach Sc.denied
      else s.respond box c.coach Sc.ok ((s.coach c.coach).cm ++ leBytes 4 (s.coach c.coach).cmCount)
    | _ => s.respond box c.coach Sc.badArg) s)

/-- The selected measurement registers, in the order M0 to M7, CM (R450). -/
def State.selected (s : State) (sel coach : Nat) : List Byte :=
  ((List.range 8).flatMap fun k => if bit sel k then s.boot.m.getD k [] else []) ++ (if bit sel 8 then (s.coach coach).cm else [])

/-- Bytes 0-95 of a quote, as the trust block reads the registers (R450). -/
def State.quoteBody (s : State) (q : Quote) : List Byte :=
  packFields 32 [(0, 4, 0x544F5551), (4, 1, 1), (5, 1, 0xB1), (6, 2, if bit q.sel 8 then q.coach % 4096 + 32768 else 0),
    (8, 8, s.chip F.devSerialSerial), (16, 8, s.gcount), (24, 4, s.chip F.fwVersion), (28, 4, q.sel)]
  ++ padTo 32 q.nonce ++ sha256 (s.selected q.sel q.coach)

/-- ATTEST_QUOTE (R450): the trust block holds up to eight quotes; a ninth is answered BUSY. -/
def execAttestQuote (box : Nat) (s : State) : Res :=
  .next (takeCommand 0x000E box (fun c s =>
    let sel := c.arg 32 4
    if sel = 0 ∨ 512 ≤ sel ∨ (bit sel 8 = true ∧ s.coachState c.coach = Cs.vacant) then s.respond box c.coach Sc.badArg
    else if 8 ≤ s.boot.quotes.length then s.respondBusy box c.coach
    else
      let q : Quote := { box := box, coach := c.coach, sel := sel, nonce := c.args.take 32 }
      State.inProg { s with boot := { s.boot with quotes := s.boot.quotes ++ [q] } } c) s)

/-- QUOTE_SIGNED (R450, R452): the trust block signs the oldest quote over the registers as they stand now; its command returns the 480
bytes. -/
def execQuoteSigned (s : State) : Res :=
  .next (match s.boot.quotes with
    | [] => s
    | q :: r =>
      if s.mpUp = false then s
      else
        let body := s.quoteBody q
        let s : State := { s with boot := { s.boot with quotes := r } }
        if s.inprog.any fun x => x.box == q.box && x.op == 0x000E then
          s.respond q.box q.coach Sc.ok (body ++ rsaSign s.boot.dkN s.boot.dkD body)
        else s)

end Sys2Proof.Machine
end

