-- ==== Sys2Proof/Machine/Power.lean ====
section
/-!
DEFINITION. Clocks and power (19) and the resets that pins bring (20): rails and clock states (R457, R463, R476), the trim of IOSC
(R458), VIN (R461), thermal limits and throttling (R465, R466), STAND (R467-R472) and SHUTDOWN (R482-R485).
-/
namespace Sys2Proof.Machine

/-! ### Rails (R462): VCORE 0, VSRAM 1, VRET 2, VAON 3, VPHY 4, VOPT 5, VIO 6, HBM4 supplies 7 -/

/-- VRET, VAON and VIO report good. -/
def State.alwaysOnGood (s : State) : Bool := bit s.pwr.railsGood 2 && bit s.pwr.railsGood 3 && bit s.pwr.railsGood 6

/-- VSRAM, VCORE and VPHY report good. -/
def State.mainGood (s : State) : Bool := bit s.pwr.railsGood 0 && bit s.pwr.railsGood 1 && bit s.pwr.railsGood 4

/-- Of a set of rails, the ones that stay on in STAND: VRET, VAON, VIO and the HBM4 supplies. -/
def keptRails (n : Nat) : Nat := n &&& 0xCC

/-- The state as a supply below 10.8 V, or a trip, leaves it: nothing but the given rails, held in reset until PORESET# (R461). -/
def State.powerOff (s : State) (rails : Nat) : State :=
  let s := s.coldHeld rails
  { s with pwr := { s.pwr with off := true } }

/-- Clock state IOSC gives way to XTAL_WAIT (R457, R476), and XTAL_WAIT to PLL_LOCK (R457, R463). -/
def State.clockAdvance (s : State) : State :=
  let c := s.chip F.clkStatusSrc
  if c = 0 ∧ s.alwaysOnGood = true ∧ s.pwr.poreset = false ∧ s.pwr.off = false ∧ s.pwr.shut = false ∧ s.pwr.pwrgd = true then
    State.setChip { s with pwr := { s.pwr with delayDone := false } } F.clkStatusSrc 1
  else if c = 1 ∧ s.pwr.delayDone = true ∧ s.mainGood = true then s.setChip F.clkStatusSrc 2
  else s

/-- A rail is ramping now (R463): the always-on rails under PWRGD, VSRAM, VCORE and VPHY from XTAL_WAIT on, VOPT in RUN. -/
def State.ramping (s : State) (rail : Nat) : Bool :=
  let c := s.chip F.clkStatusSrc
  s.pwr.pwrgd && !s.pwr.off && !s.pwr.shut && decide (rail < 8) && !bit s.pwr.railsGood rail && !bit s.pwr.railsFailed rail
    && (if rail = 5 then c == 3 else if rail = 0 ∨ rail = 1 ∨ rail = 4 then c == 1 else true)

/-- PWRGD_RISE (R476, R477): the power manager starts, and the always-on rails ramp. -/
def execPwrgdRise (s : State) : Res :=
  .next (if s.pwr.pwrgd then s
    else
      let off := s.pwr.off && !s.pwr.poreset
      let s := s.coldHeld 0
      { s with pwr := { s.pwr with pwrgd := true, off := off } })

/-- PWRGD_FALL (R461, R476): the device acts as for a supply below 10.8 V. -/
def execPwrgdFall (s : State) : Res :=
  .next (if s.pwr.pwrgd = false then s
    else
      let s := s.powerOff (keptRails s.pwr.railsGood)
      { s with pwr := { s.pwr with pwrgd := false } })

/-- REGULATOR_GOOD (R457, R463): a rail reports good. The clock state goes on where it waited for it; VOPT lets the boot ROM enter
LINK, and on a wake lights the lasers (R469). -/
def execRegulatorGood (rail : Nat) (s : State) : Res :=
  .next (if s.ramping rail = false then s
    else
      let s : State := { s with pwr := { s.pwr with railsGood := s.pwr.railsGood + 2 ^ rail } }
      let s := s.clockAdvance
      if rail ≠ 5 then s
      else if s.rom = Rom.train then s.trainToLink
      else if Rom.linkUp ≤ s.rom ∧ s.rom ≤ Rom.running ∧ s.clocked = true ∧ s.scanned = false then s.lasersOn else s)

/-- REGULATOR_TIMEOUT (R463, R532): a rail has not reported good within 1 ms of its ramp: the start-up stops where it stands. -/
def execRegulatorTimeout (rail : Nat) (s : State) : Res :=
  .next (if s.ramping rail = false then s
    else { s with pwr := { s.pwr with railsFailed := s.pwr.railsFailed + 2 ^ rail } })

/-! ### Resets by pins (R475, R476, R480) -/

/-- A wake from STAND begins (R468, R469): the crystal starts, and the main rails ramp. -/
def State.beginWake (s : State) (warm : Bool) : State :=
  let s : State := { s with pwr := { s.pwr with delayDone := false, retries := 0, wakePending := false, wakeNote := true, warmAfter := warm } }
  ((s.setChip F.clkStatusSrc 1).setChip F.pwrStatusState 3).setChip F.wakeWarm (b2n warm)

/-- PORESET (R455, R475, R476, R528): asserted, a cold reset; released, the straps and TESTEN are sampled and the crystal starts once
VAON, VRET and VIO are good. `straps` holds OSC_DLY in bits 2-0 and SMB_ADDR in bits 5-3. -/
def execPoreset (asserted : Bool) (straps : Nat) (testen : Bool) (s : State) : Res :=
  .next (if asserted then
      if s.pwr.poreset then s
      else
        let rails := if s.pwr.pwrgd then keptRails s.pwr.railsGood else s.pwr.railsGood
        let s := s.coldHeld rails
        { s with pwr := { s.pwr with poreset := true } }
    else if s.pwr.poreset = false then s
    else
      let s : State := { s with pwr := { s.pwr with poreset := false, straps := straps % 64, testen := testen }
                                jtag := { s.jtag with drive := 0 } }
      (s.setChip F.oscDly straps).clockAdvance)

/-- WARMRESET (R468, R480, R496): in STAND the device wakes and then takes a chip warm reset; else a chip warm reset begins, unless
the boot ROM has not reached RUNNING. -/
def execWarmreset (s : State) : Res :=
  .next (if s.chip F.clkStatusSrc = 4 then s.beginWake true else s.warmTrigger 1)

/-! ### The crystal and the root PLL (R455-R457) -/

/-- XTAL_DELAY_END (R455, R457, R463): the start-up delay has ended. -/
def execXtalDelayEnd (s : State) : Res :=
  .next (if s.chip F.clkStatusSrc ≠ 1 ∨ s.pwr.delayDone = true then s
    else State.clockAdvance { s with pwr := { s.pwr with delayDone := true } })

/-- Clock state FAIL with the check that failed (R457, R532): lasers off, HBM contents lost. -/
def State.clockFail (s : State) (chk : Nat) : State :=
  let s := (s.setChip F.clkStatusSrc 5).setChip F.pllLock 0
  let s := s.lasersOff.alertCause 4
  { s with pwr := { s.pwr with clkchk := chk }, hbm := {} }

/-- Retained state is back (R469, R472, R502): the stacks leave self-refresh, the ports that STAND disabled are DOWN again, and the
ledgers are audited. -/
def State.restored (s : State) : State :=
  let s := (List.range 8).foldl (fun (s : State) m => s.set (mcB m) F.mcSelfref 0) s
  let s := (List.range 16).foldl (fun (s : State) p =>
    if s.get (portB p) F.portDisable = 1 ∨ s.boot.badPorts.contains p then s else s.enterLink p Ls.down) s
  let s := s.ledgerTrigger
  if s.pwr.warmAfter then State.warmTrigger { s with pwr := { s.pwr with warmAfter := false } } 1 else s

/-- The clock state reaches RUN: at a cold boot GCOUNT starts at 0 and the boot ROM enters POR; on a wake the retention check is made
(R472, R477). -/
def State.clocksRun (s : State) : State :=
  let s := ((s.setChip F.clkStatusSrc 3).setChip F.xtalOk 1).setChip F.pllLock 1
  if s.chip F.pwrStatusState = 3 then
    if s.pwr.retained then s.restored else s.setChip F.retOk 0
  else (State.enterRom { s with gcount := 0 } Rom.por)

/-- PLL_LOCK_DONE (R456, R457): the crystal check and the PLL lock succeed, or one fails: three retries, each after a further delay, then
FAIL. -/
def execPllLockDone (xtalOk locked : Bool) (s : State) : Res :=
  .next (if s.chip F.clkStatusSrc ≠ 2 then s
    else if xtalOk = true ∧ locked = true then s.clocksRun
    else if 3 ≤ s.pwr.retries then
      let s := s.clockFail (if xtalOk then 2 else 1)
      { s with pwr := { s.pwr with retained := false } }
    else
      let s : State := { s with pwr := { s.pwr with retries := s.pwr.retries + 1, delayDone := false } }
      (s.bumpSat chipB F.pllRetries).setChip F.clkStatusSrc 1)

/-- PLL_LOCK_LOSS (R457): in RUN the PLL loses lock, or the crystal leaves its bounds. -/
def execPllLockLoss (s : State) : Res := .next (if s.chip F.clkStatusSrc = 3 then s.clockFail 3 else s)

/-! ### IOSC and REFCLK (R454, R458) -/

/-- The reference that trims IOSC now: 1 REFCLK, 2 the marks of a host port, 0 none. -/
def State.trimSource (s : State) : Nat := if s.chip F.refclkPresent = 1 then 1 else if s.hostsUp ≠ [] then 2 else 0

/-- Steps of 0.05 % that correct an error in ppm: the nearest number, at most 4 (R458). -/
def trimSteps (ppm : Int) : Int := max (-4) (min 4 ((if ppm < 0 then ppm - 250 else ppm + 250).tdiv 500))

/-- IOSC_TRIM_MEASURE (R458): with AUTO set and a reference there, CODE moves by at most 4 steps towards zero error and ERR records the
error found; a higher CODE is a faster IOSC (log entry 26). -/
def execIoscTrimMeasure (ppm : Int) (s : State) : Res :=
  .next (if s.clocked = false ∨ s.chip F.ioscTrimAuto = 0 then s
    else
      let k := s.trimSource
      let s := s.setChip F.trimSrc k
      if k = 0 then s
      else
        let code := max 0 (min 255 ((s.chip F.ioscTrimCode : Int) - trimSteps ppm))
        (s.setChip F.ioscTrimCode code.toNat).setChip F.ioscTrimErr (unsigned 16 ppm))

/-- REFCLK_PRESENCE_CHANGE (R454, R458): REFCLK starts or stops, and the trim source changes with it. -/
def execRefclkPresenceChange (present : Bool) (s : State) : Res :=
  .next (
    let s := s.setChip F.refclkPresent (b2n present)
    s.setChip F.trimSrc s.trimSource)

/-! ### VIN, temperature, throttle (R461, R465, R466) -/

/-- VIN_UNDERVOLT (R461): VIN below 11.4 V for 100 µs: ALERT# and a record; work continues. -/
def execVinUndervolt (mv : Nat) (s : State) : Res :=
  .next (if 11400 ≤ mv ∨ s.clocked = false then s
    else
      let s := (s.setChip F.vinMv mv).alertCause 1
      s.raise { cls := 11, sev := 0, cause := 0x8C, unit := 13, detail := leBytes 2 mv })

/-- VIN_BROWNOUT (R461, R472): VIN below 10.8 V: in STAND retained state is lost; else every rail but the retention rails turns off. -/
def execVinBrownout (mv : Nat) (s : State) : Res :=
  .next (if 10800 ≤ mv then s
    else if s.chip F.clkStatusSrc = 4 then { s with pwr := { s.pwr with retained := false } }
    else s.powerOff (keptRails s.pwr.railsGood))

/-- TTHROT in force, and the temperature at which the device warns (R465). -/
def State.tthrotNow (s : State) : Nat := min 105 s.pwr.tthrot
def State.twarnNow (s : State) : Nat := min (min 105 s.pwr.twarn) s.tthrotNow

/-- PWR_CTRL as it is written takes effect, at a 1 ms evaluation (R474). -/
def State.takePwrCtrl (s : State) : State :=
  { s with pwr := { s.pwr with pcap := s.chip F.pcap, twarn := s.chip F.twarn, tthrot := s.chip F.tthrot } }

/-- THERM_SAMPLE (R465, R474): THERM takes the readings and VIN its 100 µs average in mV; an upward crossing of TWARN writes a record and asserts ALERT#. -/
def execThermSample (tj : Nat) (more : Sensors) (s : State) : Res :=
  .next (if s.clocked = false then s
    else
      let was := s.chip F.tjMax
      let s := ((s.setChip F.tjMax tj).setChip F.thbmMax more.thbm).setChip F.vinMv more.vin
      if was < s.twarnNow ∧ s.twarnNow ≤ tj % 256 then
        (s.raise { cls := 11, sev := 0, cause := 0x8B, unit := 13, detail := [Byte.ofNat tj, Byte.ofNat more.thbm] }).alertCause 1
      else s)

/-- THERMAL_TRIP (R465, R473): THERMTRIP# is asserted and every rail except VAON turns off. -/
def execThermalTrip (s : State) : Res :=
  .next (
    let s := s.powerOff (s.pwr.railsGood &&& 8)
    { s with pwr := { s.pwr with thermtrip := true, retained := false } })

/-- THROTTLE_EVAL (R466, R474): the 1 ms evaluation: PIN_W, ENERGY, PWR_CTRL as written, and D up or down by 4. -/
def execThrottleEval (tj watts : Nat) (s : State) : Res :=
  .next (if s.clocked = false then s
    else
      let s := ((s.setChip F.pinW watts).count F.energy watts).takePwrCtrl
      let cap := max 400 s.pwr.pcap
      let d := s.chip F.duty
      if s.tthrotNow ≤ tj ∨ 95 ≤ s.chip F.thbmMax ∨ cap < watts then s.setChip F.duty (min 60 (d + 4))
      else if tj + 2 ≤ s.tthrotNow ∧ watts < cap then s.setChip F.duty (d - 4)
      else s)

/-- The hold of D µs ends: THROTTLE_NS advances by it. -/
def State.endHold (s : State) : State :=
  if s.pwr.holding then State.count { s with pwr := { s.pwr with holding := false } } F.throttleNs (1000 * s.chip F.duty) else s

/-- THROTTLE_WINDOW (R466): a window of 64 µs of GCOUNT begins with its hold, or its hold ends. -/
def execThrottleWindow (s : State) : Res :=
  .next (if s.clocked = false then s
    else
      let w := s.gcount / 64000 + 1
      let late := decide (1000 * s.chip F.duty ≤ s.gcount % 64000)
      if s.pwr.windowAt ≠ w then
        let s := s.endHold
        { s with pwr := { s.pwr with windowAt := w, holding := !late } }
      else if late then s.endHold else s)

/-! ### STAND and SHUTDOWN (R467-R472, R482-R485) -/

/-- An activity of R467 that answers BUSY is in progress. -/
def State.standBusy (s : State) : Bool :=
  s.chip F.handover == 1 || s.hbm.margin != 0 || (s.inprog.any fun q => q.op == 0x0203 || q.op == 0x000B)
    || (List.range 64).any fun r => s.get (regionB r) F.regionValid == 1
        && (s.get (regionB r) F.regionMstate == 1 || s.get (regionB r) F.regionMstate == 3)

/-- A KV import or a collective context is open. -/
def State.standInUse (s : State) : Bool := (s.sb.imports.any fun e => e.2.st == 1) || s.link.colls.any fun e => e.2.opened

/-- The checks of R467, which SHUTDOWN shares (R482). -/
def State.standCheck (s : State) (c : Cmd) (own : State → State) : State :=
  if s.standBusy then s.respondBusy c.box c.coach
  else if s.standInUse then s.respond c.box c.coach Sc.inUse
  else own s

/-- STAND_ENTER (R467): accepted, the device is ENTERING and drains. -/
def execStandEnter (box : Nat) (s : State) : Res :=
  .next (takeCommand 0x0006 box (fun c s => s.standCheck c fun s =>
    let s : State := { s with pwr := { s.pwr with entry := 1 } }
    ((s.setChip F.pwrStatusState 1).refreshDrain).inProg c) s)

/-- STAND_DRAINED (R467, steps 2 to 4): the drain is complete and no in-field test runs: the MP writes the response. -/
def execStandDrained (s : State) : Res :=
  .next (if s.pwr.entry ≠ 1 ∨ s.chip F.pwrStatusState ≠ 1 ∨ s.chip F.drained = 0 ∨ s.chip F.ftStatusTesting ≠ 0xFF ∨ s.mpUp = false then s
    else State.answerAll { s with pwr := { s.pwr with entry := 2 } } 0x0006 (fun _ => true) Sc.ok)

/-- Every port goes dark; PORT_CTRL keeps its value (R467, step 5). -/
def State.portsDark (s : State) : State :=
  let s := (List.range 16).foldl (fun (s : State) p =>
    let st := s.linkState p
    if st = Ls.up ∨ st = Ls.retrain then s.loseLink p Ls.disabled
    else if st = Ls.disabled then s else s.enterLink p Ls.disabled) s
  s.lasersOff

/-- STAND_ACK_WAIT_END (R467, steps 5 to 8; R472, R473): ports and lasers off, stacks in self-refresh, state retained, clocks gated,
main rails off. A wake that is pending starts now. -/
def execStandAckWaitEnd (s : State) : Res :=
  .next (if s.pwr.entry ≠ 2 ∨ s.clocked = false ∨ s.log.hold = true then s
    else
      let s := s.portsDark
      let s := (List.range 8).foldl (fun (s : State) m => s.set (mcB m) F.mcSelfref 1) s
      let s := (s.count F.standEntries).setChip F.clkStatusSrc 4
      let word := (Config.measured s.free).toNat
      let s : State := { s.draw with pwr := { s.pwr with entry := 0, retained := true, retCheck := word
                                                         railsGood := keptRails s.pwr.railsGood } }
      if s.pwr.wakePending then s.beginWake false else s)

/-- STAND_ADDRESS_MATCH (R468): the matcher acknowledges the device's address, and the wake starts. -/
def execStandAddressMatch (s : State) : Res := .next (if s.chip F.clkStatusSrc = 4 then s.beginWake false else s)

/-- A stack's loop-back ends: LB_ERRS and LB_BITS take what was counted, LANE_ERR what was found (free, log entry 3), and the stack
leaves self-refresh (R492, R493). -/
def State.endLbHbm (s : State) (m errs nbits : Nat) : State :=
  let b := lbHbmB m
  if s.get b F.lbActive = 0 then s
  else
    let lanes := (Config.measured s.free).toNat
    let s := ((((s.draw).set b F.lbDepth 0).set b F.lbActive 0).set b F.lbLock 0).set b F.lbLaneErr lanes
    let s := (((s.bump b F.lbLbErrs errs).bump b F.lbLbBits nbits)).set (mcB m) F.mcSelfref 0
    { s with hbm := { s.hbm with lbEnd := SMap.put 0 s.hbm.lbEnd m 0 } }

/-- Every loop-back ends (R496). -/
def State.endLoops (s : State) : State :=
  let s := (List.range 16).foldl (fun (s : State) p => if s.get (lbEklB p) F.lbActive = 1 then s.endLoop p else s) s
  (List.range 8).foldl (fun (s : State) m =>
    if s.get (lbHbmB m) F.lbActive = 1 then
      (s.draw.draw).endLbHbm m (Config.measured s.free).toNat (Config.measured (s.free + 1)).toNat
    else s) s

/-- SHUTDOWN (R482, R496): refused as STAND_ENTER is; accepted, PWR_STATUS reads SHUT and the device drains. -/
def execShutdown (box : Nat) (s : State) : Res :=
  .next (takeCommand 0x0007 box (fun c s => s.standCheck c fun s =>
    (((s.setChip F.pwrStatusState 2).refreshDrain).endLoops).inProg c) s)

/-- The 64 bytes of a self-test record, its reserved bits zero (R7, R484). -/
def selftestRecord (l : List Byte) : List Byte :=
  let b := padTo 48 l
  leBytes 2 (fieldLE b 0 1 % 8) ++ leBytes 2 (fieldLE b 2 2 % 2 ^ 13) ++ (b.drop 4).take 9 ++ leBytes 1 (fieldLE b 13 1 % 32)
    ++ b.drop 14 ++ List.replicate 16 0

/-- SELFTEST_DONE (R482-R485): with the drain complete, the self-test has ended with this record. The response is written, its
completion leaves, and the main rails turn off until PORESET#. -/
def execSelftestDone (results : List Byte) (s : State) : Res :=
  .next (if s.chip F.pwrStatusState ≠ 2 ∨ s.chip F.drained = 0 ∨ s.chip F.ftStatusTesting ≠ 0xFF ∨ s.mpUp = false then s
    else
      let cfg := if s.boot.nextCfg = 0 then s.nCores else s.boot.nextCfg
      let s := s.answerAll 0x0007 (fun _ => true) Sc.ok
        (selftestRecord results ++ [Byte.ofNat cfg, 0, 0, 0] ++ leBytes 4 (s.chip F.fwVersion))
      let s := (s.portFrame 0).portFrame 1
      let s := (List.range 8).foldl (fun (s : State) m => s.set (mcB m) F.mcSelfref 1) s
      let s := s.lasersOff.setChip F.clkStatusSrc 0
      { s with pwr := { s.pwr with shut := true, railsGood := keptRails s.pwr.railsGood } })

end Sys2Proof.Machine
end

