-- ==== Sys2Proof/Machine/Service.lean ====
section
/-!
DEFINITION. Pins and service (23): the sideband (R529-R533), the service button (R537-R542), the LEDs (R536); JTAG, scan and fuses
(R451, R489, R494, R495); loop-backs (R490-R493); and the writes and reads of registers (R348, R363, R542, R545, R546).
-/
namespace Sys2Proof.Machine

/-! ### JTAG (R494, R495) -/

/-- The TAP after a reset: IDCODE is selected, and every pin keeps its function. -/
def State.tap (s : State) (ir dr : Nat) (drive : Nat) : State :=
  { s with jtag := { s.jtag with ir := ir, dr := dr, drive := drive } }

/-- TAP_RESET (R494). -/
def execTapReset (s : State) : Res := .next (s.tap 0 0x3964054F 0)

/-- JTAG_IDCODE (R494): the data register reads the identity code. -/
def execJtagIdcode (s : State) : Res := .next (s.tap 0 0x3964054F 0)

/-- JTAG_BYPASS (R494): BYPASS, or any other code, selects the bypass register. -/
def execJtagBypass (s : State) : Res := .next (s.tap 1 0 0)

/-- SAMPLE/PRELOAD: the boundary chain takes what is sampled or shifted in; every pin keeps its function. -/
def State.samplePreload (s : State) (pins : List Bool) : State :=
  let s := s.tap 2 0 0
  { s with jtag := { s.jtag with chain := pins } }

/-- JTAG_SAMPLE_PRELOAD (R494). -/
def execJtagSamplePreload (pins : List Bool) (s : State) : Res := .next (s.samplePreload pins)

/-- JTAG_EXTEST (R495): while PORESET# is held low the chain drives the board pins. -/
def execJtagExtest (pins : List Bool) (s : State) : Res :=
  .next (if s.pwr.poreset then
      let s := s.tap 3 0 1
      { s with jtag := { s.jtag with chain := pins } }
    else s.samplePreload pins)

/-- JTAG_HIGHZ (R495): while PORESET# is held low the board pins float. -/
def execJtagHighz (pins : List Bool) (s : State) : Res := .next (if s.pwr.poreset then s.tap 4 0 2 else s.samplePreload pins)

/-- JTAG_CLAMP (R495): while PORESET# is held low the board pins are held from the chain as it stands. -/
def execJtagClamp (pins : List Bool) (s : State) : Res := .next (if s.pwr.poreset then s.tap 5 0 1 else s.samplePreload pins)

/-! ### Scan and fuses (R451, R452, R489) -/

/-- SCAN_REQ (R451, R452): ignored where SCAN_LOCK is burned; otherwise dispatch stops, every carriage ends, every port is DISABLED and
dark, and a boot before START stops in FAILED with REASON 10. -/
def execScanReq (s : State) : Res :=
  .next (
    let s := s.tap 6 0 0
    if s.fuses.scanLock = 1 then s.setChip F.scanCtrlState 3
    else if s.scanned = true ∨ s.clocked = false then s
    else
      let s := (s.setChip F.scanCtrlState 1).endAllWork.portsDark
      if s.rom < Rom.start then s.romFailed 10 else s)

/-- What the clear before scan zeroes (R451, steps 3 to 6). -/
def State.scanClear (s : State) : State :=
  let s := { s with
    boot := { s.boot with dkN := 0, dkD := 0, m := List.replicate 8 (List.replicate 32 0), cleared := true, quotes := [], timeouts := [] }
    spm := {}, cores := [], coaches := [], vecs := [], inprog := [], tables := []
    xlate := { s.xlate with caches := [] }
    mbox := s.mbox.filter fun e => decide (0x402000 ≤ e.1) && decide (e.1 < 0x402400)
    gs := { held := true }
    sb := { s.sb with names := [], oves := [] }
    regs := s.regs.filter fun e => !(decide (0x1000000 ≤ e.1) && decide (e.1 < 0x2000000))
      && !(decide (0x2000 ≤ e.1) && decide (e.1 < 0x2080)) && e.1 != 0x3208 && e.1 != 0x3210 }
  (List.range 8).foldl (fun (s : State) m => s.set (mcB m) F.mcSelfref 1) s

/-- SCAN_CLEAR_DONE (R451, step 7): the clear has ended and the internal chains connect. -/
def execScanClearDone (s : State) : Res :=
  .next (if s.chip F.scanCtrlState = 1 then s.scanClear.setChip F.scanCtrlState 2 else s)

/-- FUSE_PROG (R489, R494): while SCAN_CTRL reads READY it burns a repair fuse: kind 0 disables core `a`, kind 1 repairs row `c` of PC `b`
on stack `a`. Otherwise it acts as BYPASS. -/
def execFuseProg (kind a b c : Nat) (s : State) : Res :=
  .next (if s.chip F.scanCtrlState ≠ 2 then s.tap 1 0 0
    else
      let s := s.tap 7 0 0
      if kind = 0 ∧ a < 144 then { s with fuses := { s.fuses with cores := insertNat a s.fuses.cores } }
      else if kind = 1 ∧ a < 8 ∧ b < 64 ∧ c < 1310720 then
        { s with fuses := { s.fuses with rows := if s.fuses.rows.contains (a, b, c) then s.fuses.rows else s.fuses.rows ++ [(a, b, c)] } }
      else s)

/-! ### The sideband (R529-R533) -/

/-- The sideband's answer. -/
def State.sbReply (s : State) (l : List Byte) : State := { s with svc := { s.svc with reply := l } }

/-- A transaction addressed to the device (R468, R529): in STAND its address match starts the wake and nothing else is answered; one between
steps 4 and 7 of R467 also sets a pending wake; without VAON nothing answers. -/
def State.sideband (s : State) (own : State → State) : State :=
  if bit s.pwr.railsGood 3 = false then s
  else if s.chip F.clkStatusSrc = 4 then (s.sbReply []).beginWake false
  else if s.pwr.entry = 2 then own { s with pwr := { s.pwr with wakePending := true } }
  else own s

/-- SB_QUICK_COMMAND (R468, R530). -/
def execSbQuickCommand (s : State) : Res := .next (s.sideband fun s => s)

/-- The status block (R532). -/
def State.statusBlock (s : State) : List Byte :=
  let flags := b2n (s.rom == Rom.safe || s.safe) + 2 * b2n (s.chip F.clkStatusSrc == 5) + 4 * b2n (s.chip F.retOk == 0)
    + 8 * b2n s.pwr.shut + 16 * b2n (s.pwr.railsFailed != 0) + 32 * b2n (s.svc.mbDone && !s.owned 8)
  [Byte.ofNat (s.rom + 16 * s.chip F.clkStatusSrc), Byte.ofNat (s.chip F.bootStatusReason), Byte.ofNat flags,
   Byte.ofNat s.boot.healthy, Byte.ofNat s.pwr.railsFailed, Byte.ofNat s.pwr.clkchk, Byte.ofNat s.svc.causes, 0]

/-- SB_STATUS_READ (R530, R532, R533): the status block is returned, and the alert causes clear. -/
def execSbStatusRead (s : State) : Res :=
  .next (s.sideband fun s =>
    let s := s.sbReply s.statusBlock
    { s with svc := { s.svc with causes := 0 } })

/-- The sideband may read an address (R531). -/
def sbRange (a : Nat) : Bool :=
  decide (a < 0x100000) || (decide (0x402000 ≤ a) && decide (a < 0x402400)) || (decide (0x2000000 ≤ a) && decide (a < 0x3000000))

/-- SB_REGISTER_READ (R531, R532, R545): a status and one word; a read of the response area takes MB_DONE away. -/
def execSbRegisterRead (addr : Nat) (s : State) : Res :=
  .next (s.sideband fun s =>
    let no (st : Nat) : State := s.sbReply (Byte.ofNat st :: List.replicate 8 0)
    if addr % 8 ≠ 0 then no Sc.badArg
    else if sbRange addr = false then no Sc.denied
    else if s.chip F.clkStatusSrc ≠ 3 ∨ s.pwr.shut = true then no Sc.unsupported
    else if 0x402000 ≤ addr ∧ addr < 0x402400 then
      let s := s.sbReply (0 :: Memory.read s.mbox addr 8)
      if 0x402200 ≤ addr then { s with svc := { s.svc with mbDone := false } } else s
    else (s.sbReply (0 :: leBytes 8 (s.readWord addr))).clearRc addr)

/-- SB_MAILBOX_WRITE (R425, R530, R531): a block write into the command area of the sideband mailbox. -/
def execSbMailboxWrite (off : Nat) (data : List Byte) (pecOk : Bool) (s : State) : Res :=
  .next (s.sideband fun s =>
    if s.chip F.clkStatusSrc ≠ 3 ∨ s.pwr.shut = true then s
    else if pecOk = false then s.count F.sbPecerr
    else if data = [] ∨ 30 < data.length then s
    else if 0x200 < off + data.length then s.count F.sbDiscard
    else s.writeBox (0x402000 + off) data)

/-- SB_ALERT_RESPONSE (R533): while ALERT# is asserted the device answers with its own address. -/
def execSbAlertResponse (s : State) : Res :=
  .next (if s.svc.causes = 0 ∨ s.chip F.clkStatusSrc = 4 ∨ bit s.pwr.railsGood 3 = false then s
    else s.sbReply [Byte.ofNat (0x58 + bits s.pwr.straps 3 3)])

/-- SB_CLOCK_TIMEOUT (R529): the transaction is abandoned. -/
def execSbClockTimeout (s : State) : Res := .next (s.sbReply [])

/-! ### The service button (R537-R541) -/

/-- The button is taken: BTN_EN is 1 and the device is not in STAND. -/
def State.buttonOn (s : State) : Bool := s.chip F.btnEn == 1 && s.chip F.clkStatusSrc != 4

/-- SVC_BUTTON_PRESS (R537): the debounced fall of SVC_REQ#. -/
def execSvcButtonPress (s : State) : Res :=
  .next (if s.buttonOn = false ∨ s.svc.pressedAt.isSome = true then s
    else State.setChip { s with svc := { s.svc with pressedAt := some s.gcount, holdTaken := false } } F.svcStatusButton 1)

/-- The hold acts (R537, R538): the service drain toggles. -/
def State.holdActs (s : State) : State :=
  let v := 1 - s.chip F.svcDrain
  let s : State := { s with svc := { s.svc with holdTaken := true } }
  (((s.setChip F.svcDrain v).count F.svcHolds).refreshDrain).serviceNote (if v = 1 then 3 else 5) 1

/-- SVC_HOLD (R537): the button has been held for 3 s. -/
def execSvcHold (s : State) : Res :=
  .next (match s.svc.pressedAt with
    | none => s
    | some t => if s.svc.holdTaken = true ∨ s.buttonOn = false ∨ s.gcount < t + 3000000000 then s else s.holdActs)

/-- SVC_BUTTON_RELEASE (R537): a release from 50 ms to 1 s toggles LOCATE; after a hold it does nothing; any other is ignored. -/
def execSvcButtonRelease (s : State) : Res :=
  .next (match s.svc.pressedAt with
    | none => s
    | some t =>
      let taken := s.svc.holdTaken
      let s := State.setChip { s with svc := { s.svc with pressedAt := none, holdTaken := false } } F.svcStatusButton 0
      let dt := s.gcount - t
      if taken = true ∨ s.buttonOn = false then s
      else if 3000000000 ≤ dt then
        let s := s.holdActs
        { s with svc := { s.svc with holdTaken := false } }
      else if 50000000 ≤ dt ∧ dt ≤ 1000000000 then
        let v := 1 - s.chip F.svcCtrlLocate
        ((s.setChip F.svcCtrlLocate v).count F.svcPresses).serviceNote (if v = 1 then 1 else 2) 1
      else s.count F.svcIgnored)

/-! ### The LEDs (R536): 0 off, 1 steady, otherwise 1 + the blink rate in Hz -/

/-- VIO is good and the device is not in STAND: the LEDs work. -/
def State.ledsOn (s : State) : Bool := bit s.pwr.railsGood 6 && s.chip F.clkStatusSrc != 4

/-- LED_STATUS. -/
def State.ledStatus (s : State) : Nat :=
  if s.ledsOn = false ∨ s.pwr.shut = true then 0
  else if s.chip F.mpDown = 1 ∨ (Rom.train ≤ s.rom ∧ s.rom ≤ Rom.start) then 2
  else if s.rom = Rom.running then 1 else 0

/-- LED_FAULT. -/
def State.ledFault (s : State) : Nat :=
  if s.ledsOn = false then 0
  else if s.safe = true ∨ s.rom = Rom.failed ∨ s.rom = Rom.safe ∨ s.chip F.clkStatusSrc = 5 ∨ s.pwr.railsFailed ≠ 0 ∨ s.chip F.retOk = 0 then 1
  else if (s.liveCoaches.any fun c => s.coachState c == Cs.faulted) ∨ s.allTrained = false then 2 else 0

/-- LED_LOCATE. -/
def State.ledLocate (s : State) : Nat := if s.ledsOn = true ∧ s.chip F.svcCtrlLocate = 1 then 3 else 0

/-- LED_SAFE (R536); before the boot ROM reaches RUNNING nothing is forwarded, and a drain is complete at once (R538). -/
def State.ledSafe (s : State) : Nat :=
  if s.ledsOn = false then 0
  else if s.chip F.draining = 1 ∧ (s.chip F.drained = 1 ∨ s.chip F.laserOn = 0 ∨ s.rom ≠ Rom.running) ∨ (s.pwr.shut = true ∧ s.chip F.svcDrain = 1) then 1
  else if s.chip F.draining = 1 then 5 else 0

/-- LED_OC[k]. -/
def State.ledOc (s : State) (k : Nat) : Nat :=
  let ps := upFrom (4 * k) 4
  if s.ledsOn = false ∨ bit (s.chip F.eklOpticPresent) k = false ∨ bit (s.chip F.laserOn) k = false then 0
  else if ps.any fun p => s.linkState p == Ls.miswired then 5
  else if ps.all fun p => s.linkState p == Ls.up then 1 else 2

/-! ### Writes and reads of registers -/

/-- CHIP_MODE_WRITE (R348). -/
def execChipModeWrite (value : Nat) (s : State) : Res := .next (if s.clocked then s.writeChipMode value else s)

/-- SVC_LOCATE_WRITE (R542). -/
def execSvcLocateWrite (value : Nat) (s : State) : Res := .next (if s.clocked then s.writeSvcCtrl value else s)

/-- GC_SYNC_WRITE (R359, R363). -/
def execGcSyncWrite (value : Nat) (s : State) : Res := .next (if s.clocked then s.writeGcSync value else s)

/-- LB_EKL_WRITE (R490, R491). -/
def execLbEklWrite (port depth : Nat) (s : State) : Res :=
  .next (if port < 16 ∧ s.clocked = true then s.writeLbEkl port depth else s)

/-- LB_HBM_WRITE (R490, R492). -/
def execLbHbmWrite (stack depth : Nat) (s : State) : Res :=
  .next (if stack < 8 ∧ s.clocked = true then s.writeLbHbm stack depth else s)

/-- LB_HBM_END (R492): a stack's loop-back has run for 1 ms. -/
def execLbHbmEnd (stack errs bits : Nat) (s : State) : Res :=
  .next (if stack < 8 ∧ SMap.look 0 s.hbm.lbEnd stack ≤ s.gcount then s.endLbHbm stack errs bits else s)

/-- COUNTER_READ_CLEAR (R545): a read clears every RC field of the word it returns. -/
def execCounterReadClear (addr : Nat) (s : State) : Res := .next (if s.clocked then s.clearRc (addr / 8 * 8) else s)

/-- REGISTER_WRITE (R338, R546): words are written from an aligned address of the control window on, with or without the admin bit. -/
def execRegisterWrite (admin : Bool) (coach addr : Nat) (words : List Word) (s : State) : Res :=
  .next (if s.clocked = false ∨ addr % 8 ≠ 0 ∨ 4096 ≤ coach then s
    else (s.windowWrite admin coach addr (words.map (·.toNat))).1)

end Sys2Proof.Machine
end

