-- ==== Sys2Proof/Machine/Integrity.lean ====
section
/-!
DEFINITION. In-field tests (R408-R411), the recovery sequencer's end of a recovery (R415), and the conservation ledgers (R499-R506).
-/
namespace Sys2Proof.Machine

/-! ### In-field tests (R408-R411) -/

/-- The period of the tests in ns (R408, R419). -/
def State.ftPeriod (s : State) : Nat :=
  let n := s.chip F.ftCtrlPeriod
  1000000000 * (if n = 0 then 600 else if n < 60 then 60 else n)

/-- FT_DUE (R408): one period after the start of its last test, an ACTIVE or SPARE core falls due. -/
def execFtDue (core : Nat) (s : State) : Res :=
  .next (if 144 ≤ core ∨ s.chip F.ftCtrlEn = 0 ∨ s.clocked = false ∨ (s.core core).due.isSome = true
      ∨ (s.get (pcoreB core) F.pcoreState ≠ 1 ∧ s.get (pcoreB core) F.pcoreState ≠ 2)
      ∨ s.gcount < (s.core core).lastTest + s.ftPeriod then s
    else s.makeDue core)

/-- The GS holds a ready unit with a member on a logical core. -/
def State.readyOn (s : State) (l : Nat) : Bool :=
  s.gs.units.any fun u => u.st == 0 && s.unitReady u && (s.unitCores u).contains l

/-- The TD of a core holds no carriage, and none is on its way to it. -/
def State.tdEmpty (s : State) (p : Nat) : Bool := (s.core p).disp == [] && (s.core p).td == []

/-- A due core may be tested now (R410): a SPARE core at once; an ACTIVE one while its TD is empty and no ready unit has a member on it,
or once it is deferred. -/
def State.testable (s : State) (p : Nat) : Bool :=
  let b := pcoreB p
  (s.core p).due.isSome && (s.get b F.pcoreState == 1
    || (s.get b F.pcoreState == 2 && s.tdEmpty p && (s.get b F.pcoreDeferred == 1 || !s.readyOn (s.get b F.pcoreLogical))))

/-- Tests may run: the field test is enabled, and the device is neither safe nor in STAND, nor on its way there or in a reset. -/
def State.testsRun (s : State) : Bool :=
  s.chip F.ftCtrlEn == 1 && !s.safe && s.clocked && !s.scanned && !s.log.hold && s.chip F.pwrStatusState == 0

/-- FT_TEST_START (R408, R410): the power manager tests the due core that may be tested and fell due first, the lower number first. -/
def execFtTestStart (core : Nat) (s : State) : Res :=
  .next (
    let key (p : Nat) : Nat := 256 * (s.core p).due.getD 0 + p
    if 144 ≤ core ∨ s.testsRun = false ∨ s.chip F.ftStatusTesting ≠ 0xFF ∨ s.testable core = false
      ∨ ((List.range 144).any fun q => s.testable q && decide (key q < key core)) = true then s
    else
      let s := s.setChip F.ftStatusTesting core
      let s := if s.get (pcoreB core) F.pcoreState = 2 then s.set (pcoreB core) F.pcoreState 3 else s
      s.modCore core fun x => { x with testAt := some s.gcount })

/-- FT_DEFER (R410): no instant for the test has come within 100 ms. -/
def execFtDefer (core : Nat) (s : State) : Res :=
  .next (match (s.core core).due with
    | none => s
    | some t =>
      if 144 ≤ core ∨ s.gcount < t + 100000000 ∨ s.get (pcoreB core) F.pcoreState ≠ 2 ∨ s.get (pcoreB core) F.pcoreDeferred = 1
        ∨ s.testsRun = false then s
      else (s.set (pcoreB core) F.pcoreDeferred 1).count F.ftForced)

/-- FT_TEST_DONE (R408, R411): the 1.5 ms of a test have passed. A core that fails is withdrawn. -/
def execFtTestDone (core : Nat) (passed : Bool) (s : State) : Res :=
  .next (match (s.core core).testAt with
    | none => s
    | some t =>
      if s.chip F.ftStatusTesting ≠ core ∨ s.gcount < t + 1500000 then s
      else
        let b := pcoreB core
        let s := (s.setChip F.ftStatusTesting 0xFF).set b F.pcoreDeferred 0
        let s := if s.get b F.pcoreState = 3 then s.set b F.pcoreState 2 else s
        let s := s.modCore core fun x => { x with due := none, testAt := none, lastTest := t }
        let s := s.answerAll 0x000B (fun q => q.par == [core]) Sc.ok [if passed then 1 else 0]
        if passed then (s.set b F.pcoreLastTest (t / 2 ^ 30)).count F.ftPass
        else (((s.count F.ftFail).withdraw core 3).settleAll.maybeCut).boundary)

/-! ### The recovery sequencer (R415) -/

/-- RECOVERY_DONE (R415): the recovery in progress completes; the sequencer takes the next. -/
def execRecoveryDone (s : State) : Res :=
  .next (match s.log.cur with
    | [] => s
    | _ :: r => State.seqResume { s with log := { s.log with cur := r } })

/-! ### Ledgers (R499-R506) -/

/-- LEDGER_AUDIT_TIMER (R500, R502): 1 ms of GCOUNT has passed since the last snapshot. -/
def execLedgerAuditTimer (s : State) : Res :=
  .next (if s.rom ≠ Rom.running ∨ s.clocked = false ∨ s.scanned = true ∨ s.gcount < s.ledger.lastAt + 1000000 then s else s.ledgerTrigger)

/-- A violation (R503): class, owning coach plus one or 0, instance, observed and expected terms. -/
structure Violation where
  cls : Nat
  owner : Nat
  inst : Nat
  observed : Nat
  expected : Nat
deriving DecidableEq, Repr

/-- The LEDGER_ERR word of a violation (R503, R508): DIFF saturates at ±32,767. -/
def Violation.word (v : Violation) : Nat :=
  1 + v.cls % 16 * 2 ^ 4 + b2n (v.owner != 0) * 2 ^ 8 + (v.owner - 1) % 4096 * 2 ^ 12 + v.inst % 2 ^ 24 * 2 ^ 24
    + unsigned 16 (max (-32767) (min 32767 ((v.observed : Int) - v.expected))) * 2 ^ 48

/-- The record of a violation (R515). -/
def Violation.record (v : Violation) : LogRec :=
  { cls := 8, sev := if v.owner = 0 then 3 else 2, cause := 0x90, coach := if v.owner = 0 then none else some (v.owner - 1)
    all := v.owner == 0, capture := v.word, detail := leBytes 4 v.observed ++ leBytes 4 v.expected }

/-- A class becomes VOID (R504). -/
def State.voidClass (s : State) (k : Nat) : State :=
  if bit (s.chip F.ledgerStatusVoid) k then s
  else (s.setChip F.ledgerStatusVoid (s.chip F.ledgerStatusVoid + 2 ^ k)).raise
    { cls := 7, sev := 0, cause := 0x83, detail := [Byte.ofNat k] }

/-- A coach's ledger is violated (R503): it is FAULTED, and the command in progress in its mailbox ends with LEDGER. -/
def State.coachViolation (s : State) (v : Violation) : State :=
  let c := v.owner - 1
  let s := (s.raise v.record).coachFatal c Sc.ledger
  (s.inprog.filter fun q => q.box == 16 + c).foldl (fun (s : State) q => s.answer q Sc.ledger) s

/-- Chip violations (R503): the rows of the step complete with LEDGER, and the device enters the safe state. -/
def State.chipViolations (s : State) (vs : List Violation) : State :=
  match vs with
  | [] => s
  | v :: r =>
    let s := { s with gs := { s.gs with rows := s.gs.rows.map fun (x : Row) => if x.done then x else x.mask Sc.ledger } }
    let s := s.raiseSafe v.record
    (r.foldl (fun (s : State) v => s.raise v.record) s).settleAll.boundary

/-- Violations of an evaluation: what the snapshot shows and what the unit has found besides, in classes that are not VOID. -/
def State.violations (s : State) (found : List LedgerFind) : List Violation :=
  let here := s.ledger.snap.map fun t =>
    ({ cls := t.1, owner := t.2.1, inst := t.2.2.1, observed := t.2.2.2.1, expected := t.2.2.2.2 } : Violation)
  let more := (found.filter fun f => f.observed != f.expected).map fun f =>
    ({ cls := f.cls, owner := (match f.coach with | none => 0 | some c => if f.cls = 4 then c + 1 else 0), inst := f.inst
       observed := f.observed, expected := f.expected } : Violation)
  (here ++ more).filter fun v => !bit (s.chip F.ledgerStatusVoid) v.cls

/-- LEDGER_EVAL_DONE (R500-R504, R507): the evaluation ends. `found` lists terms that its snapshot shows to differ, and, with equal terms,
classes with a term that cannot be read. A trigger that was merged takes its snapshot now. -/
def execLedgerEvalDone (found : List LedgerFind) (s : State) : Res :=
  .next (if s.ledger.running = false then s
    else
      let s := (found.filter fun f => f.observed == f.expected && decide (f.cls < 7)).foldl (fun (s : State) f => s.voidClass f.cls) s
      let vs := s.violations found
      let again := s.ledger.again
      let s : State := { s with ledger := { s.ledger with running := false, again := false, snap := [] } }
      let s := (s.setChip F.ledgerStatusBusy 0).count F.audits
      let s := vs.foldl (fun (s : State) v => (s.count F.mismatches).capture 0x3408 v.word) s
      let s := (vs.filter fun v => v.owner != 0).foldl (fun (s : State) v => s.coachViolation v) s
      let s := s.chipViolations (vs.filter fun v => v.owner == 0)
      if again then s.ledgerTrigger else s)

end Sys2Proof.Machine
end

