-- ==== Sys2Proof/Machine/SeqCommands.lean ====
section
/-!
DEFINITION. The commands on sequences (R222-R226, R237) and their KV side: pauses and resumes (R209-R215), imports (R216),
exports (R217-R221).
-/
namespace Sys2Proof.Machine

/-! ### Opening and cancelling (R223, R237) -/

/-- The coach may take one more sequence entry (R223, R342). -/
def State.seqRoom (s : State) (c : Nat) : Bool :=
  let res (d : Nat) : Nat := s.get (coachB d) F.coachResSeq
  let held (d : Nat) : Nat := (s.slotsOf d).length
  let cs := s.liveCoaches
  poolRoom 8192 (held c) (res c) (s.get (coachB c) F.coachSeqQuota)
    (cs.foldl (fun a d => a + (held d - res d)) 0) (cs.foldl (fun a d => a + res d) 0)

/-- The FREE entry that SEQ_OPEN takes: the one picked where it is FREE, else the lowest. -/
def State.freeSeqAt (s : State) (pick : Nat) : Option Nat :=
  let free (n : Nat) : Bool := n < 8192 && s.seq n Se.state == Ss.free
  if free pick then some pick else firstBelow 8192 free

/-- Take an entry for a coach (R223): every byte zero, OWNER set, STATE IDLE. -/
def State.openSeq (s : State) (n c : Nat) : State :=
  let s := s.memWrite (s.seqB n) (List.replicate 256 0)
  ((s.forgetSlot n).setSeq n Se.owner c).setSeq n Se.state Ss.idle

/-- SEQ_OPEN (R223). -/
def execSeqOpen (box pick : Nat) (s : State) : Res :=
  .next (takeCommand 0x0401 box (fun c s =>
    match (if s.seqRoom c.coach then s.freeSeqAt pick else none) with
    | none => s.refuses c c.coach (!s.seqRoom c.coach && ((s.freeSeqAt pick).isSome ||
        capStops (s.slotsOf c.coach).length (s.get (coachB c.coach) F.coachResSeq) (s.get (coachB c.coach) F.coachSeqQuota)))
    | some n => (s.openSeq n c.coach).respond box c.coach Sc.ok (leBytes 2 n)) s)

/-- Why a command may not act on a slot: BAD_ARG for a FREE one, DENIED for a coach mailbox that does not own it. -/
def State.slotRefused (s : State) (c : Cmd) (n : Nat) : Option Nat :=
  if 8192 ≤ n ∨ s.seq n Se.state = Ss.free then some Sc.badArg
  else if c.stranger (s.seq n Se.owner) then some Sc.denied else none

/-- SEQ_CANCEL (R237, R239). -/
def execSeqCancel (box : Nat) (s : State) : Res :=
  .next (takeCommand 0x0402 box (fun c s =>
    let n := c.arg 0 2
    match s.slotRefused c n with
    | some st => s.fails c st
    | none => (s.registerEnd n Sc.cancelled).respond box c.coach Sc.ok) s)

/-! ### Pausing and resuming (R209-R215) -/

/-- A sequence whose KV side may be moved or shipped: HOT, not exporting, no move, not ending and not importing. -/
def State.movable (s : State) (n : Nat) : Bool :=
  s.seq n Se.tier == Tr.hot && (s.exportOf n).isNone && (s.moveOf n).isNone
    && s.seq n Se.state != Ss.ending && s.seq n Se.state != Ss.importing

/-- Cold pages that the pauses accepted and not yet started will take. -/
def State.coldPromised (s : State) : Nat :=
  (s.sb.moves.filter fun e => e.2.waiting && !e.2.host).foldl (fun a e => a + s.coldNeed e.1) 0

/-- KV_PAUSE (R210, R209): accepted, it starts at the next step boundary. -/
def execKvPause (box : Nat) (s : State) : Res :=
  .next (takeCommand 0x0403 box (fun c s =>
    let n := c.arg 0 2
    let tier := c.arg 2 1
    let ttl := c.arg 4 4
    let buf := c.arg 8 8
    match s.slotRefused c n with
    | some st => s.fails c st
    | none =>
      if s.movable n = false ∨ s.seq n Se.exporting = 1 ∨ ttl = 0 ∨ (tier ≠ 1 ∧ tier ≠ 2) ∨ (tier = 2 ∧ buf % 4096 ≠ 0) then
        s.fails c Sc.badArg
      else if tier = 1 ∧ s.chip F.coldFree < s.coldPromised + s.coldNeed n then s.fails c Sc.noResource
      else
        let m : Move := { host := tier == 2, buf := buf, ttl := ttl }
        State.inProg { s with sb := { s.sb with moves := SMap.put {} s.sb.moves n m } } c [n]) s)

/-- The reads of a paused sequence's pages from host memory (R214): 4,096 bytes and 512 bytes of each. -/
def State.readCold (s : State) (n buf k : Nat) : State :=
  let c := s.seq n Se.owner
  let p := s.get (coachB c) F.coachHport
  let rd (s : State) (off len : Nat) : State :=
    s.request p { mtype := 3, vc := 1, space := 3, dst := s.hostNode p, coach := c, addr := buf + off, arg := len } (.coldRead n off)
  rd (rd s (4608 * k) 4096) (4608 * k + 4096) 512

/-- A resume starts (R214): the hot pages count as used, and pages in host memory are read. -/
def State.startResume (s : State) (n : Nat) : State :=
  let need := s.coldNeed n
  let c := s.seq n Se.owner
  let host := SMap.look 0 s.sb.coldHost n == 1
  let buf := (SMap.look [] s.sb.coldList n).headD 0
  let s := s.setSeq n Se.tier Tr.toHot
  let s := ((s.drop chipB F.kvFree need).bump chipB F.kvUsed need).holdPages c true need |>.poolMark
  let m : Move := { waiting := false, host := host, buf := buf }
  let s := { s with sb := { s.sb with moves := SMap.put {} s.sb.moves n m } }
  if host then (List.range need).foldl (fun s k => s.readCold n buf k) s else s

/-- KV_RESUME (R214, R215). -/
def execKvResume (box : Nat) (s : State) : Res :=
  .next (takeCommand 0x0404 box (fun c s =>
    let n := c.arg 0 2
    match s.slotRefused c n with
    | some st => s.fails c st
    | none =>
      let ex := s.seq n Se.expiry
      if s.seq n Se.tier ≠ Tr.cold ∨ s.seq n Se.state = Ss.ending ∨ (ex ≠ 2 ^ 64 - 1 ∧ ex ≤ s.gcount) then s.fails c Sc.badArg
      else if s.kvRefuse (s.seq n Se.owner) (s.coldNeed n) ≠ 0 then
        s.refuses c (s.seq n Se.owner) (s.kvRefuse (s.seq n Se.owner) (s.coldNeed n) == 2)
      else (s.startResume n).inProg c [n]) s)

/-- A cold page that the pool hands out: the one picked where it is free, else the lowest free one. -/
def State.pickCold (s : State) (pick : Nat) : Nat :=
  let free (k : Nat) : Bool := k < s.chip F.nCold && SMap.look 0 s.sb.coldOf k == 0
  if free pick then pick else (firstBelow (s.chip F.nCold) free).getD noPage

/-- The move of a slot is over: its command is answered, and an end that waited for it takes place in both tiers (R215). -/
def State.moveOver (s : State) (n op : Nat) (m : Move) (status : Nat) (result : List Byte) : State :=
  let s := { s with sb := { s.sb with moves := s.sb.moves.filter (·.1 != n) } }
  let mine (q : InProg) : Bool := q.par.head? == some n
  if m.cancelled = 0 then s.answerAll op mine status result
  else (s.endSeq n m.cancelled 0).answerAll op mine m.cancelled

/-- The KV side's class of memory traffic: that of its coach (R212). -/
def State.moveQos (s : State) (n : Nat) : Nat := s.get (coachB (s.seq n Se.owner)) F.coachQos

/-- One pair of a pause lands in its cold page (R211): in cold HBM, or in host memory. -/
def State.landCold (s : State) (n : Nat) (host : Bool) (k pick : Nat) (p : ColdPair) : State :=
  if host then s.toCold n 2 k p
  else
    let q := s.pickCold pick
    let s := (s.countWrite (s.coldAddr q) 4608 (s.moveQos n) false).memWrite (s.coldAddr q) p.bytes
    let s := { s with sb := { s.sb with coldOf := SMap.put 0 s.sb.coldOf q (n + 1)
                                        coldList := SMap.put [] s.sb.coldList n (SMap.look [] s.sb.coldList n ++ [q]) } }
    s.toCold n 1 q p

/-- The expiry of a sequence that reaches COLD now (R213). -/
def State.coldExpiry (s : State) (ttl : Nat) : Nat := if ttl = 0xFFFFFFFF then 2 ^ 64 - 1 else s.gcount + 1000000000 * ttl

/-- A pause that cannot complete: the cold pages counted for it return, and the sequence is HOT again (R211). -/
def State.undoPause (s : State) (n : Nat) (m : Move) (status : Nat) : State :=
  let need := s.coldNeed n
  let s := if m.host then s else (s.drop chipB F.coldUsed need).bump chipB F.coldFree need
  (s.setSeq n Se.tier Tr.hot).moveOver n 0x0403 m status []

/-- The physical core that moves the pages of stream `j` of a sequence: the logical cores of the partition of the graph's first
attention layer, in turn (R212; DESIGN CHOICE, log entry 30). -/
def State.mover (s : State) (n j : Nat) : Option Nat :=
  (s.graph (s.cfg n Se.graph)).bind fun g =>
    let l := (g.layers.findIdx? Ld.attn).getD 0
    let c := (g.carrs.find? fun c => Ca.kind c == Kd.attn && Ca.layer c == l).getD []
    s.phys (g.pbase + bits (Ca.param c) 0 7 + j % max 1 (At.apart (g.layers.getD l [])))

/-- The move of each stream is a carriage of the owning coach on its core (R212). -/
def State.moveWork (s : State) (n : Nat) : State :=
  (List.range (s.streams n).length).foldl (fun s j => match s.mover n j with
    | none => s
    | some p => s.bump (tdB p) F.tdCarriages) s

/-- The traffic of a hot page: its codes and its scale slot. -/
def State.hotTraffic (s : State) (k : Nat) (write : Bool) (h : Nat) : State :=
  if write then (s.countWrite (s.pageCodes h) 4096 k false).countWrite (s.pageScales h) 512 k false
  else (s.countRead (s.pageCodes h) 4096 k false).countRead (s.pageScales h) 512 k false

/-- What a pause reads of its hot pages counts in the coach's class, and the blocks that it re-quantises in the cores that move
them (R139, R212). -/
def State.pauseTraffic (s : State) (n : Nat) (ps : List ColdPair) : State :=
  let k := s.moveQos n
  let per := max 1 ((s.seq n Se.ntokens + 63) / 64)
  ps.zipIdx.foldl (fun (s : State) e =>
    let s := e.1.hot.foldl (fun (s : State) h => s.hotTraffic k false h) s
    match s.mover n (e.2 / per) with
    | none => s
    | some p => s.bump (qB p) F.qKvBlocks e.1.blocks) s

/-- The end of a pause (R209, R211, R213): the hot pages are freed, those beyond the token count too. -/
def State.endPause (s : State) (n : Nat) (m : Move) (pages : List Nat) (lost : Bool) : State :=
  if m.host = true ∧ lost = true ∨ m.bad ≠ 0 then s.undoPause n m Sc.timeout
  else match s.coldPairs n with
    | .error st => s.undoPause n m st
    | .ok ps =>
      let s := (s.moveWork n).pauseTraffic n ps
      let s := ps.zipIdx.foldl (fun (s : State) e => s.landCold n m.host e.2 (pages.getD e.2 noPage) e.1) s
      let s := (s.freePairs n ((s.seq n Se.ntokens + 63) / 64)).1
      let s := if m.host then { s with sb := { s.sb with coldHost := SMap.put 0 s.sb.coldHost n 1
                                                         coldList := SMap.put [] s.sb.coldList n [m.buf] } } else s
      let s := (s.setSeq n Se.tier Tr.cold).setSeq n Se.expiry (s.coldExpiry m.ttl)
      s.moveOver n 0x0403 m Sc.ok (leBytes 4 ps.length)

/-- A resume that fails: the sequence is COLD again, its expiry unchanged (R214). -/
def State.undoResume (s : State) (n : Nat) (m : Move) (status : Nat) : State :=
  let need := s.coldNeed n
  let s := ((s.drop chipB F.kvUsed need).bump chipB F.kvFree need).holdPages (s.seq n Se.owner) false need |>.poolMark
  (s.setSeq n Se.tier Tr.cold).moveOver n 0x0404 m status []

/-- The end of a resume (R209, R214). -/
def State.endResume (s : State) (n : Nat) (m : Move) (pages : List Nat) : State :=
  if m.bad ≠ 0 then s.undoResume n m m.bad
  else match s.warmPairs n m.host m.data with
    | .error st => s.undoResume n m st
    | .ok ws =>
      let s := s.moveWork n
      let s := ws.zipIdx.foldl (fun (s : State) e =>
        let h := s.pickPage (pages.getD e.2 noPage)
        let s := if m.host then s else s.countRead (s.coldAddr e.1.page) 4608 (s.moveQos n) false
        (s.hotTraffic (s.moveQos n) true h).toHot n h e.1) s
      let s := (s.freeColdPages n).setSeq n Se.tier Tr.hot
      s.moveOver n 0x0404 m Sc.ok []

/-- A write or read of the move is outstanding at the host. -/
def State.moveWaits (s : State) (n : Nat) : Bool :=
  s.link.out.any fun o => match o.why with
    | .cold k => k == n
    | .coldRead k _ => k == n
    | _ => false

/-- KV_MOVE_DONE (R209, R211, R214, R215): the move of a slot has handled its last page. `pages` are the pages taken, `lost` a
move to host memory that the link cannot complete. -/
def execKvMoveDone (slot : Nat) (pages : List Nat) (lost : Bool) (s : State) : Res :=
  .next (match s.moveOf slot with
    | none => s
    | some m =>
      if m.waiting ∨ (s.moveWaits slot = true ∧ lost = false) then s
      else
        let s := if lost then { s with link := { s.link with out := s.link.out.filter fun o => match o.why with
          | .cold k => k != slot
          | .coldRead k _ => k != slot
          | _ => true } } else s
        if s.seq slot Se.tier = Tr.toCold then s.endPause slot m pages lost
        else if s.seq slot Se.tier = Tr.toHot then s.endResume slot m pages
        else s)

/-! ### Imports (R216) -/

/-- The import index that KV_IMPORT_OPEN takes: the one picked where it is not open, else the lowest; at most 1,024 are open. -/
def State.freeImport (s : State) (pick : Nat) : Option Nat :=
  let free (i : Nat) : Bool := i < 1024 && (SMap.look {} s.sb.imports i).st != 1
  if free pick then some pick else firstBelow 1024 free

/-- The ticket of an import (R216). -/
def Imp.ticket (m : Imp) (i : Nat) : Nat := i % 65536 + m.gen % 65536 * 65536 + m.check % 2 ^ 32 * 2 ^ 32

/-- Open an import on a slot (R216, R224, R226): pages are reserved, the configuration is copied, the slot is IMPORTING. -/
def State.openImport (s : State) (i n pages ttl : Nat) : State :=
  let old := SMap.look {} s.sb.imports i
  let m : Imp := { st := 1, gen := (old.gen + 1) % 65536, check := (Config.ticketCheck s.free).toNat, coach := s.seq n Se.owner
                   slot := n, left := pages, expiry := s.gcount + 1000000000 * ttl }
  let s := s.draw
  let s := { s with sb := { s.sb with imports := SMap.put {} s.sb.imports i m } }
  let s := (s.drop chipB F.kvFree pages).bump chipB F.reserved pages |>.poolMark
  let s := if s.seq n Se.bound = 1 then s
    else (s.memWrite (s.seqB n + 192) (s.memRead (s.seqB n) 24)).setSeq n Se.bound 1
  s.setSeq n Se.state Ss.importing

/-- KV_IMPORT_OPEN (R216, R226). -/
def execKvImportOpen (box pick : Nat) (s : State) : Res :=
  .next (takeCommand 0x0405 box (fun c s =>
    let n := c.arg 0 2
    let pages := c.arg 4 4
    match s.slotRefused c n with
    | some st => s.fails c st
    | none =>
      if s.seq n Se.state ≠ Ss.idle ∨ s.movable n = false ∨ s.seq n Se.owner ≠ c.coach then s.fails c Sc.badArg
      else if s.kvRefuse c.coach pages ≠ 0 then s.refuses c c.coach (s.kvRefuse c.coach pages == 2)
      else match s.freeImport pick with
        | none => s.fails c Sc.noResource
        | some i =>
          let s := s.openImport i n pages (c.arg 8 4)
          s.respond box c.coach Sc.ok (leBytes 8 ((SMap.look {} s.sb.imports i).ticket i) ++ leBytes 2 s.node)) s)

/-- The import that a ticket names: its index, where the generation and check value agree. -/
def State.importBy (s : State) (ticket : Nat) : Option (Nat × Imp) :=
  let i := ticket % 65536
  let m := SMap.look {} s.sb.imports i
  if m.st ≠ 0 ∧ m.ticket i = ticket then some (i, m) else none

/-- KV_IMPORT_CLOSE (R216). -/
def execKvImportClose (box : Nat) (s : State) : Res :=
  .next (takeCommand 0x0406 box (fun c s =>
    match s.importBy (c.arg 0 8) with
    | none => s.fails c Sc.badArg
    | some (i, m) =>
      if m.st ≠ 1 then s.fails c Sc.badArg
      else if c.stranger m.coach then s.fails c Sc.denied
      else (s.closeImport i).respond box c.coach Sc.ok) s)

/-! ### Exports: the sending side (R217-R221) -/

/-- KV_SHIP (R217): the export of a HOT sequence that is in no step starts. -/
def execKvShip (box : Nat) (s : State) : Res :=
  .next (takeCommand 0x0407 box (fun c s =>
    let n := c.arg 0 2
    match s.slotRefused c n with
    | some st => s.fails c st
    | none =>
      if s.movable n = false ∨ s.seq n Se.state = Ss.running then s.fails c Sc.badArg
      else (s.startExport n (c.arg 2 2) (c.arg 8 8)).respond box c.coach Sc.ok) s)

/-- A control cart with its CRC (R218). -/
def shipCart (fs : List (Nat × Nat × Nat)) : List Byte :=
  let b := packFields 252 fs
  b ++ leBytes 4 (crc32c b)

/-- The CRC of a control cart holds. -/
def shipCartOk (b : List Byte) : Bool := b.length == 256 && crc32c (b.take 252) == fieldLE b 252 4

/-- The record cart of page number `k` (R218). -/
def shipRecord (k : Nat) (t : Stream) (i : Nat) (e odd data : List Byte) : List Byte :=
  shipCart ([(0, 4, k), (4, 2, t.layer), (6, 1, t.head), (7, 1, t.kind + 2 * Pe.fmt e), (8, 4, i), (12, 4, Pe.stream e),
      (16, 4, if Pe.fmt e = 1 then Pe.stream odd else 0), (20, 1, Pe.rq e)]
    ++ (List.range 18).map fun j => (32 + 4 * j, 4, crc32c ((data.drop (256 * j)).take 256)))

/-- Send one page of a shipment: its record, then its 18 data carts (R218). -/
def State.sendPage (s : State) (n : Nat) (e : Exp) (k : Nat) (p : Stream × Nat × List Byte) : State :=
  let c := s.seq n Se.owner
  let data := s.pageBytes (Pe.page p.2.2)
  let odd := (p.1.list.bind fun b => s.coachRead Blk.sb c (b + 16 * (p.2.1 + 1)) 16).getD []
  (s.shipSend e.dest e.ticket c (shipRecord k p.1 p.2.1 p.2.2 odd data)).shipSend e.dest e.ticket c data

/-- Send the trailer of a shipment (R218, R219). -/
def State.sendTrailer (s : State) (n : Nat) (e : Exp) : State :=
  let ps := s.seqPages n
  let d := ps.zipIdx.foldl (fun a p => (a + pageDigest e.ticket p.2 (s.pageBytes (Pe.page p.1.2.2))) % digestP) 0
  s.shipSend e.dest e.ticket (s.seq n Se.owner) (shipCart [(0, 8, e.ticket), (8, 4, ps.length), (16, 8, d)])

/-- The export that an answer names, by ticket and node. -/
def State.exportBy (s : State) (m : Msg) : Option (Nat × Exp) :=
  s.sb.exports.find? fun e => e.2.ticket == m.addr && e.2.dest == m.src && e.2.st != 0

/-- An answer of a shipment (R220, R370): ADDR names the ticket (DESIGN CHOICE, log entry 31). -/
def State.shipAnswer (s : State) (port : Nat) (m : Msg) (kind : Nat) (own : State → State) : State :=
  s.arrive port m 0x31 fun s => if m.arg % 256 = kind then own s else s

/-- The sender reads a poisoned page: it aborts, and the sequence is freed at the next boundary (R221). -/
def State.shipPoisoned (s : State) (n : Nat) : State := ((s.abortExport n Sc.poison true).setEnding n Sc.poison).endShipFailed n

/-- SHIP_ACCEPT (R220, R221): the pages and the trailer leave. A poisoned page aborts and the sequence ends. -/
def execShipAccept (port : Nat) (m : Msg) (s : State) : Res :=
  .next (s.shipAnswer port m 1 fun s =>
    match s.exportBy m with
    | none => s
    | some (n, e) =>
      if e.st ≠ 1 then s
      else
        let ps := s.seqPages n
        if ps.any fun p => s.pagePoisoned (Pe.page p.2.2) then s.shipPoisoned n
        else
          let s := ps.zipIdx.foldl (fun (s : State) p => s.sendPage n e p.2 p.1) s
          (s.sendTrailer n e).setExport n { e with st := 2, sentAt := s.gcount })

/-- SHIP_NAK (R221): a page that failed its CRC is sent once more, and the trailer after it; any other NAK, or a second one of
the same page, ends the export. -/
def execShipNak (port : Nat) (m : Msg) (s : State) : Res :=
  .next (s.shipAnswer port m 2 fun s =>
    match s.exportBy m with
    | none => s
    | some (n, e) =>
      let st := Sc.named (m.arg / 256 % 256)
      let k := m.arg / 2 ^ 32 % 2 ^ 32
      match (s.seqPages n)[k]? with
      | some p =>
        if e.st = 2 ∧ st = Sc.integrity ∧ e.resent.contains k = false then
          if s.pagePoisoned (Pe.page p.2.2) then s.shipPoisoned n
          else
            let s := s.sendPage n e k p
            (s.sendTrailer n e).setExport n { e with resent := k :: e.resent, sentAt := s.gcount }
        else s.failExport n st false
      | none => s.failExport n st false)

/-- SHIP_COMMIT (R220): the sequence ends OK, its pages freed at the next step boundary. -/
def execShipCommit (port : Nat) (m : Msg) (s : State) : Res :=
  .next (s.shipAnswer port m 3 fun s =>
    match s.exportBy m with
    | none => s
    | some (n, _) =>
      let s := { s with sb := { s.sb with exports := s.sb.exports.filter (·.1 != n) } }
      (s.count F.shipOut).setEnding n Sc.ok)

/-- SHIP_ABORT (R221): at the sender the export ends; at the receiver the import of an aborted shipment closes. -/
def execShipAbort (port : Nat) (m : Msg) (s : State) : Res :=
  .next (s.shipAnswer port m 4 fun s =>
    match s.exportBy m with
    | some (n, _) =>
      let s := { s with sb := { s.sb with exports := s.sb.exports.filter (·.1 != n) } }
      s.complete n (Sc.named (m.arg / 256 % 256)) Cf.shipFailed 0 (s.seq n Se.genDone)
    | none =>
      match s.importBy m.addr with
      | some (i, x) => if x.st = 1 ∧ x.begun = true ∧ x.node = m.src then s.closeImport i else s
      | none => s)

/-- SHIP_ANSWER_TIMEOUT (R221): no answer for 10 ms. The shipment starts again from its header with ATTEMPT + 1; the third loss
aborts it. -/
def execShipAnswerTimeout (slot : Nat) (s : State) : Res :=
  .next (match s.exportOf slot with
    | none => s
    | some e =>
      if e.st = 0 ∨ s.gcount < e.sentAt + 10000000 then s else s.shipRestart slot e)

/-! ### Imports: the receiving side (R220, R221) -/

/-- Change an import. -/
def State.setImport (s : State) (i : Nat) (m : Imp) : State :=
  { s with sb := { s.sb with imports := SMap.put {} s.sb.imports i m } }

/-- The open import that a shipment's cart names (R221); a cart for no open import is answered with NAK and DENIED. -/
def State.forImport (s : State) (m : Msg) (page : Nat) (own : Nat → Imp → State → State) : State :=
  match s.importBy m.arg with
  | some (i, x) =>
    if x.st = 1 ∧ x.expiry ≤ s.gcount then (s.closeImport i).shipReply m.coach m.src m.arg 2 Sc.denied page
    else if x.st = 1 then own i x s
    else s.shipReply m.coach m.src m.arg 2 Sc.denied page
  | none => s.shipReply m.coach m.src m.arg 2 Sc.denied page

/-- The pages landed of a shipment go back to the reservation, and the next attempt starts from nothing (R221). -/
def State.discardLanded (s : State) (i : Nat) (x : Imp) : State :=
  let n := x.landed.length
  let s := x.landed.foldl (fun s e => s.freeLanded x.slot x.coach e) s
  let s := (s.drop chipB F.kvFree n).bump chipB F.reserved n
  s.setImport i { x with left := x.left + n, begun := false, next := 0, record := none, digest := 0, failed := [], landed := []
                         redo := [] }

/-- SHIP_HEADER (R218, R220, R221): the header is checked against an open import and its geometry, and answered. -/
def execShipHeader (port : Nat) (m : Msg) (s : State) : Res :=
  .next (s.arrive port m 0x30 fun s =>
    if shipCartOk m.data = false then s
    else s.forImport m 0 fun i x s =>
      let b := m.data
      let att := fieldLE b 10 1
      let n := fieldLE b 12 4
      let np := fieldLE b 24 4
      let layers := ((s.graph (s.cfg x.slot Se.graph)).map fun g => g.attnLayers.length)
      if x.begun = true ∧ att < x.attempt then s
      else if x.left + x.landed.length < np ∨ fieldLE b 20 4 < (n + 31) / 32 ∨ s.cfg x.slot Se.listlen < (n + 31) / 32
          ∨ layers ≠ some (fieldLE b 16 2) then s.shipReply m.coach m.src m.arg 2 Sc.badArg 0
      else
        let s := s.discardLanded i x
        let y := SMap.look {} s.sb.imports i
        let s := s.setImport i { y with begun := true, node := fieldLE b 8 2, attempt := att, npages := np, ntok := n
                                        listlen := fieldLE b 20 4 }
        s.shipReply m.coach m.src m.arg 1 Sc.ok 0)

/-- The page that is awaited next: the next in order, or the first of those to be sent again. -/
def Imp.expected (x : Imp) : Nat := if x.next < x.npages then x.next else x.redo.headD x.npages

/-- The page is no longer awaited. -/
def Imp.past (x : Imp) (k : Nat) : Imp :=
  if k = x.next then { x with next := x.next + 1 } else { x with redo := x.redo.filter (· != k) }

/-- A page of a shipment has failed (R221): NAK the first time, and an abort of the shipment the second. -/
def State.pageFailed (s : State) (m : Msg) (i : Nat) (x : Imp) (k : Nat) : State :=
  if x.failed.contains k then
    let s := s.discardLanded i x
    let s := (s.count F.shipFail).raise { cls := 6, sev := 1, cause := (Config.uncodedCause 4).toNat, unit := 9
                                          coach := some x.coach, detail := leBytes 2 x.node }
    s.shipReply m.coach m.src m.arg 4 Sc.integrity k
  else
    let y := x.past k
    let s := s.setImport i { y with record := none, failed := k :: y.failed, redo := y.redo ++ [k] }
    s.shipReply m.coach m.src m.arg 2 Sc.integrity k

/-- SHIP_PAGE_RECORD (R218, R220, R221). -/
def execShipPageRecord (port : Nat) (m : Msg) (s : State) : Res :=
  .next (s.arrive port m 0x30 fun s =>
    s.forImport m (fieldLE m.data 0 4) fun i x s =>
      let k := fieldLE m.data 0 4
      if x.begun = false then s.shipReply m.coach m.src m.arg 2 Sc.denied k
      else if shipCartOk m.data = true ∧ k < x.npages ∧ (k = x.next ∨ x.redo.contains k = true) then
        s.setImport i { x.past k with record := some m.data }
      else if x.expected < x.npages then s.pageFailed m i x x.expected
      else s)

/-- The stream and span of a record are of the slot's graph: the address of the entry (R218). -/
def State.recordEntry (s : State) (x : Imp) (r : List Byte) : Option Nat :=
  let fmt := bits (fieldLE r 7 1) 1 2
  let span := fieldLE r 8 4
  match (s.streams x.slot).find? (fun t => t.layer == fieldLE r 4 2 && t.head == fieldLE r 6 1 && t.kind == fieldLE r 7 1 % 2) with
  | none => none
  | some t =>
    if s.cfg x.slot Se.listlen ≤ span ∨ (fmt ≠ 1 ∧ fmt ≠ 2) ∨ (fmt = 1 ∧ span % 2 = 1) then none
    else t.list.map fun b => b + 16 * span

/-- A page lands (R220): in a hot page of the reservation, and in its entry, or both entries for A4. -/
def State.landPage (s : State) (i : Nat) (x : Imp) (r data : List Byte) (a pick : Nat) : State :=
  let p := s.pickPage pick
  let fmt := bits (fieldLE r 7 1) 1 2
  let rq := bits (fieldLE r 20 1) 0 1
  let s := (s.takeHot x.slot x.coach p true).writePage p data
  let s := s.sbWrite x.coach a (Pe.mk p fmt 0 0 rq (fieldLE r 12 4) 0)
  let s := if fmt = 1 then s.sbWrite x.coach (a + 16) (Pe.mk p 1 1 0 rq (fieldLE r 16 4) 0) else s
  s.setImport i { x with record := none, left := x.left - 1, landed := x.landed ++ [(p, a)]
                         digest := (x.digest + pageDigest (x.ticket i) (fieldLE r 0 4) data) % digestP }

/-- SHIP_PAGE_DATA (R218, R220, R221): the 18 data carts of the record that came before. -/
def execShipPageData (port : Nat) (m : Msg) (page : Nat) (s : State) : Res :=
  .next (s.arrive port m 0x30 fun s =>
    s.forImport m 0 fun i x s =>
      match x.record with
      | none => s
      | some r =>
        let k := fieldLE r 0 4
        let good := m.data.length == 4608 && (List.range 18).all fun j =>
          crc32c ((m.data.drop (256 * j)).take 256) == fieldLE r (32 + 4 * j) 4
        match (if good then s.recordEntry x r else none) with
        | none => s.pageFailed m i x k
        | some a => s.landPage i x r m.data a page)

/-- The import commits (R220, R225, R226). -/
def State.commitImport (s : State) (i : Nat) (x : Imp) : State :=
  let n := x.slot
  let s := (s.drop chipB F.reserved x.left).bump chipB F.kvFree x.left
  let s := s.setImport i { x with st := 2, left := 0 }
  let s := ((s.setSeq n Se.tier Tr.hot).setSeq n Se.ntokens x.ntok).setSeq n Se.promptDone 1
  let s := ((s.setSeq n Se.bound 1).setSeq n Se.state Ss.idle).count F.shipIn
  (s.complete n Sc.ok Cf.imported 0 (s.seq n Se.genDone)).poolMark

/-- SHIP_TRAILER (R219-R221): with every page landed, a digest that matches commits; one that does not aborts. A committed ticket
answers COMMIT again. -/
def execShipTrailer (port : Nat) (m : Msg) (s : State) : Res :=
  .next (s.arrive port m 0x30 fun s =>
    if shipCartOk m.data = false then s
    else if (s.importBy m.arg).any (fun e => e.2.st == 2) then s.shipReply m.coach m.src m.arg 3 Sc.ok 0
    else s.forImport m 0 fun i x s =>
      if x.begun = false then s.shipReply m.coach m.src m.arg 2 Sc.denied 0
      else if fieldLE m.data 8 4 ≠ x.npages ∨ x.landed.length ≠ x.npages then s
      else if fieldLE m.data 16 8 = x.digest then (s.commitImport i x).shipReply m.coach m.src m.arg 3 Sc.ok 0
      else
        let s := s.discardLanded i x
        let s := (s.count F.shipFail).raise { cls := 4, sev := 1, cause := 0x8A, coach := some x.coach
                                              detail := leBytes 2 x.node ++ List.replicate 6 0 ++ leBytes 8 m.arg }
        s.shipReply m.coach m.src m.arg 4 Sc.integrity 0)

end Sys2Proof.Machine
end

