-- ==== Sys2Proof/Machine/Dispatch.lean ====
section
/-! DEFINITION. One arm per command: a direct call of its meaning, or a rejection by name. -/
namespace Sys2Proof.Machine

def exec (i : Instr) (s : State) : Host.Outcome State Fault Refusal :=
  match i with
  | .getInfo box => Sys2Proof.Machine.execGetInfo box s
  | .setRole box => Sys2Proof.Machine.execSetRole box s
  | .setCoreConfig box => Sys2Proof.Machine.execSetCoreConfig box s
  | .topoSet box => Sys2Proof.Machine.execTopoSet box s
  | .drain box => Sys2Proof.Machine.execDrain box s
  | .standEnter box => Sys2Proof.Machine.execStandEnter box s
  | .shutdown box => Sys2Proof.Machine.execShutdown box s
  | .chipReset box => Sys2Proof.Machine.execChipReset box s
  | .fwHandover box => Sys2Proof.Machine.execFwHandover box s
  | .coreWithdraw box => Sys2Proof.Machine.execCoreWithdraw box s
  | .coreTest box => Sys2Proof.Machine.execCoreTest box s
  | .logRead box => Sys2Proof.Machine.execLogRead box s
  | .idGet box => Sys2Proof.Machine.execIdGet box s
  | .attestQuote box => Sys2Proof.Machine.execAttestQuote box s
  | .coachCreate box => Sys2Proof.Machine.execCoachCreate box s
  | .coachDestroy box => Sys2Proof.Machine.execCoachDestroy box s
  | .coachStart box => Sys2Proof.Machine.execCoachStart box s
  | .coachHalt box => Sys2Proof.Machine.execCoachHalt box s
  | .coachReset box => Sys2Proof.Machine.execCoachReset box s
  | .coachMap box => Sys2Proof.Machine.execCoachMap box s
  | .coachUnmap box => Sys2Proof.Machine.execCoachUnmap box s
  | .launchAt box => Sys2Proof.Machine.execLaunchAt box s
  | .regionSet box pick => Sys2Proof.Machine.execRegionSet box pick s
  | .regionClear box => Sys2Proof.Machine.execRegionClear box s
  | .memMargin box => Sys2Proof.Machine.execMemMargin box s
  | .kvPoolSet box => Sys2Proof.Machine.execKvPoolSet box s
  | .graphRegister box => Sys2Proof.Machine.execGraphRegister box s
  | .graphUpdate box => Sys2Proof.Machine.execGraphUpdate box s
  | .graphUnregister box => Sys2Proof.Machine.execGraphUnregister box s
  | .graphShare box => Sys2Proof.Machine.execGraphShare box s
  | .tableLoad box => Sys2Proof.Machine.execTableLoad box s
  | .tableRetire box => Sys2Proof.Machine.execTableRetire box s
  | .overlayLoad box pick => Sys2Proof.Machine.execOverlayLoad box pick s
  | .overlayDrop box => Sys2Proof.Machine.execOverlayDrop box s
  | .overlayRead box => Sys2Proof.Machine.execOverlayRead box s
  | .seqOpen box pick => Sys2Proof.Machine.execSeqOpen box pick s
  | .seqCancel box => Sys2Proof.Machine.execSeqCancel box s
  | .kvPause box => Sys2Proof.Machine.execKvPause box s
  | .kvResume box => Sys2Proof.Machine.execKvResume box s
  | .kvImportOpen box pick => Sys2Proof.Machine.execKvImportOpen box pick s
  | .kvImportClose box => Sys2Proof.Machine.execKvImportClose box s
  | .kvShip box => Sys2Proof.Machine.execKvShip box s
  | .collOpen box pick => Sys2Proof.Machine.execCollOpen box pick s
  | .collRun box => Sys2Proof.Machine.execCollRun box s
  | .collClose box => Sys2Proof.Machine.execCollClose box s
  | .tableLoadDone slot => Sys2Proof.Machine.execTableLoadDone slot s
  | .quoteSigned => Sys2Proof.Machine.execQuoteSigned s
  | .marginDone eyes => Sys2Proof.Machine.execMarginDone eyes s
  | .coachDestroyDone coach => Sys2Proof.Machine.execCoachDestroyDone coach s
  | .mirrorSyncDone region => Sys2Proof.Machine.execMirrorSyncDone region s
  | .mirrorRebuild => Sys2Proof.Machine.execMirrorRebuild s
  | .kvMoveDone slot pages lost => Sys2Proof.Machine.execKvMoveDone slot pages lost s
  | .handoverCheckpointDone => Sys2Proof.Machine.execHandoverCheckpointDone s
  | .firmwareRestoreDone ok => Sys2Proof.Machine.execFirmwareRestoreDone ok s
  | .standDrained => Sys2Proof.Machine.execStandDrained s
  | .standAckWaitEnd => Sys2Proof.Machine.execStandAckWaitEnd s
  | .selftestDone results => Sys2Proof.Machine.execSelftestDone results s
  | .eklWrite port m => Sys2Proof.Machine.execEklWrite port m s
  | .eklWriteAck port m => Sys2Proof.Machine.execEklWriteAck port m s
  | .eklRead port m => Sys2Proof.Machine.execEklRead port m s
  | .eklReadData port m => Sys2Proof.Machine.execEklReadData port m s
  | .eklAdd port m => Sys2Proof.Machine.execEklAdd port m s
  | .eklAddAck port m => Sys2Proof.Machine.execEklAddAck port m s
  | .drawbar port m => Sys2Proof.Machine.execDrawbar port m s
  | .chainDone port m => Sys2Proof.Machine.execChainDone port m s
  | .replay port m => Sys2Proof.Machine.execReplay port m s
  | .barCredit port m => Sys2Proof.Machine.execBarCredit port m s
  | .shipHeader port m => Sys2Proof.Machine.execShipHeader port m s
  | .shipPageRecord port m => Sys2Proof.Machine.execShipPageRecord port m s
  | .shipPageData port m page => Sys2Proof.Machine.execShipPageData port m page s
  | .shipTrailer port m => Sys2Proof.Machine.execShipTrailer port m s
  | .shipAccept port m => Sys2Proof.Machine.execShipAccept port m s
  | .shipNak port m => Sys2Proof.Machine.execShipNak port m s
  | .shipCommit port m => Sys2Proof.Machine.execShipCommit port m s
  | .shipAbort port m => Sys2Proof.Machine.execShipAbort port m s
  | .shipAnswerTimeout slot => Sys2Proof.Machine.execShipAnswerTimeout slot s
  | .collUp port m => Sys2Proof.Machine.execCollUp port m s
  | .collDown port m => Sys2Proof.Machine.execCollDown port m s
  | .collAbort port m => Sys2Proof.Machine.execCollAbort port m s
  | .collTimeout ctx => Sys2Proof.Machine.execCollTimeout ctx s
  | .mgmt port m => Sys2Proof.Machine.execMgmt port m s
  | .bootGrant port m => Sys2Proof.Machine.execBootGrant port m s
  | .messageForward port m => Sys2Proof.Machine.execMessageForward port m s
  | .dataFlit port flit fec => Sys2Proof.Machine.execDataFlit port flit fec s
  | .idleFlit port flit fec => Sys2Proof.Machine.execIdleFlit port flit fec s
  | .markFlit port flit fec => Sys2Proof.Machine.execMarkFlit port flit fec s
  | .replayTimeout port => Sys2Proof.Machine.execReplayTimeout port s
  | .frameStart => Sys2Proof.Machine.execFrameStart s
  | .syncMarkLoss => Sys2Proof.Machine.execSyncMarkLoss s
  | .syncHoldoverExpiry => Sys2Proof.Machine.execSyncHoldoverExpiry s
  | .lightDetect port => Sys2Proof.Machine.execLightDetect port s
  | .trainingRetry port light => Sys2Proof.Machine.execTrainingRetry port light s
  | .trainingTimeout port => Sys2Proof.Machine.execTrainingTimeout port s
  | .fecLockLoss port lane => Sys2Proof.Machine.execFecLockLoss port lane s
  | .retrainRelock port ack => Sys2Proof.Machine.execRetrainRelock port ack s
  | .retrainTimeout port => Sys2Proof.Machine.execRetrainTimeout port s
  | .lossOfSignal port lane => Sys2Proof.Machine.execLossOfSignal port lane s
  | .routeUpdate => Sys2Proof.Machine.execRouteUpdate s
  | .presenceChange oc present => Sys2Proof.Machine.execPresenceChange oc present s
  | .presenceSteady oc => Sys2Proof.Machine.execPresenceSteady oc s
  | .drainComplete => Sys2Proof.Machine.execDrainComplete s
  | .hostWriteGiveup port => Sys2Proof.Machine.execHostWriteGiveup port s
  | .interruptFrameResend tag => Sys2Proof.Machine.execInterruptFrameResend tag s
  | .seqInputWrite coach slot word => Sys2Proof.Machine.execSeqInputWrite coach slot word s
  | .seqCancelBit coach slot => Sys2Proof.Machine.execSeqCancelBit coach slot s
  | .seqCloseBit coach slot => Sys2Proof.Machine.execSeqCloseBit coach slot s
  | .seqEntryStaged slot => Sys2Proof.Machine.execSeqEntryStaged slot s
  | .deadlineCheck => Sys2Proof.Machine.execDeadlineCheck s
  | .deadlineExpiry slot => Sys2Proof.Machine.execDeadlineExpiry slot s
  | .sbIdleTimer => Sys2Proof.Machine.execSbIdleTimer s
  | .kvTtlExpiry slot => Sys2Proof.Machine.execKvTtlExpiry slot s
  | .importTtlExpiry idx => Sys2Proof.Machine.execImportTtlExpiry idx s
  | .manifestReady pages waitNs => Sys2Proof.Machine.execManifestReady pages waitNs s
  | .ledgerAuditTimer => Sys2Proof.Machine.execLedgerAuditTimer s
  | .ledgerEvalDone found => Sys2Proof.Machine.execLedgerEvalDone found s
  | .gsDispatchUnit waitNs => Sys2Proof.Machine.execGsDispatchUnit waitNs s
  | .quantumStart => Sys2Proof.Machine.execQuantumStart s
  | .throttleWindow => Sys2Proof.Machine.execThrottleWindow s
  | .tdDispatchRx core poisoned => Sys2Proof.Machine.execTdDispatchRx core poisoned s
  | .carriageIssue core idx found => Sys2Proof.Machine.execCarriageIssue core idx found s
  | .carriageComplete core idx => Sys2Proof.Machine.execCarriageComplete core idx s
  | .carriageCompletionRx => Sys2Proof.Machine.execCarriageCompletionRx s
  | .carriageEndRx core => Sys2Proof.Machine.execCarriageEndRx core s
  | .carriageWatchdog core idx => Sys2Proof.Machine.execCarriageWatchdog core idx s
  | .tileSwap core te => Sys2Proof.Machine.execTileSwap core te s
  | .teFormatBarrierEnd core te => Sys2Proof.Machine.execTeFormatBarrierEnd core te s
  | .setReady core te => Sys2Proof.Machine.execSetReady core te s
  | .setDrainStart core te found => Sys2Proof.Machine.execSetDrainStart core te found s
  | .setDrainDone core te => Sys2Proof.Machine.execSetDrainDone core te s
  | .drawbarCartRx core te found => Sys2Proof.Machine.execDrawbarCartRx core te found s
  | .xeTileStart core te idx => Sys2Proof.Machine.execXeTileStart core te idx s
  | .xeBlockDone core te stall => Sys2Proof.Machine.execXeBlockDone core te stall s
  | .geCartRead core idx ove tile => Sys2Proof.Machine.execGeCartRead core idx ove tile s
  | .partialCartRx core found => Sys2Proof.Machine.execPartialCartRx core found s
  | .mergeFold core idx pick => Sys2Proof.Machine.execMergeFold core idx pick s
  | .dmaDescriptorIssue core waitTag waitCred => Sys2Proof.Machine.execDmaDescriptorIssue core waitTag waitCred s
  | .dmaChunkDone core tag => Sys2Proof.Machine.execDmaChunkDone core tag s
  | .xlateWalkDone block coach addr write poisoned => Sys2Proof.Machine.execXlateWalkDone block coach addr write poisoned s
  | .nbrWriteRx core => Sys2Proof.Machine.execNbrWriteRx core s
  | .scrubRow core bank errs => Sys2Proof.Machine.execScrubRow core bank errs s
  | .scrubForce core bank errs => Sys2Proof.Machine.execScrubForce core bank errs s
  | .spmClearDone core => Sys2Proof.Machine.execSpmClearDone core s
  | .mcBulkRequest core tag found => Sys2Proof.Machine.execMcBulkRequest core tag found s
  | .mcFineRequest req found => Sys2Proof.Machine.execMcFineRequest req found s
  | .mcAddRequest req found => Sys2Proof.Machine.execMcAddRequest req found s
  | .patrolLine mc pc addr found => Sys2Proof.Machine.execPatrolLine mc pc addr found s
  | .pmIntervalEnd => Sys2Proof.Machine.execPmIntervalEnd s
  | .interruptCoalTimeout vec => Sys2Proof.Machine.execInterruptCoalTimeout vec s
  | .launchTime coach => Sys2Proof.Machine.execLaunchTime coach s
  | .launchWindow coach => Sys2Proof.Machine.execLaunchWindow coach s
  | .ftDue core => Sys2Proof.Machine.execFtDue core s
  | .ftTestStart core => Sys2Proof.Machine.execFtTestStart core s
  | .ftDefer core => Sys2Proof.Machine.execFtDefer core s
  | .ftTestDone core passed => Sys2Proof.Machine.execFtTestDone core passed s
  | .recoveryDone => Sys2Proof.Machine.execRecoveryDone s
  | .mpWatchdog => Sys2Proof.Machine.execMpWatchdog s
  | .mpAbsentLimit => Sys2Proof.Machine.execMpAbsentLimit s
  | .gsSbParityFail => Sys2Proof.Machine.execGsSbParityFail s
  | .warmResetQuiesced => Sys2Proof.Machine.execWarmResetQuiesced s
  | .bootPorDone ok => Sys2Proof.Machine.execBootPorDone ok s
  | .hbmTrainDone failed => Sys2Proof.Machine.execHbmTrainDone failed s
  | .bootReqTimer => Sys2Proof.Machine.execBootReqTimer s
  | .handbackDone retest => Sys2Proof.Machine.execHandbackDone retest s
  | .bootReadTimeout off => Sys2Proof.Machine.execBootReadTimeout off s
  | .imageLoadDone => Sys2Proof.Machine.execImageLoadDone s
  | .imageVerifyDone place burnOk => Sys2Proof.Machine.execImageVerifyDone place burnOk s
  | .pwrgdRise => Sys2Proof.Machine.execPwrgdRise s
  | .pwrgdFall => Sys2Proof.Machine.execPwrgdFall s
  | .poreset asserted straps testen => Sys2Proof.Machine.execPoreset asserted straps testen s
  | .warmreset => Sys2Proof.Machine.execWarmreset s
  | .regulatorGood rail => Sys2Proof.Machine.execRegulatorGood rail s
  | .regulatorTimeout rail => Sys2Proof.Machine.execRegulatorTimeout rail s
  | .xtalDelayEnd => Sys2Proof.Machine.execXtalDelayEnd s
  | .pllLockDone xtalOk locked => Sys2Proof.Machine.execPllLockDone xtalOk locked s
  | .pllLockLoss => Sys2Proof.Machine.execPllLockLoss s
  | .ioscTrimMeasure ppm => Sys2Proof.Machine.execIoscTrimMeasure ppm s
  | .vinUndervolt mv => Sys2Proof.Machine.execVinUndervolt mv s
  | .vinBrownout mv => Sys2Proof.Machine.execVinBrownout mv s
  | .thermSample tj more => Sys2Proof.Machine.execThermSample tj more s
  | .thermalTrip => Sys2Proof.Machine.execThermalTrip s
  | .throttleEval tj watts => Sys2Proof.Machine.execThrottleEval tj watts s
  | .standAddressMatch => Sys2Proof.Machine.execStandAddressMatch s
  | .lbEklWrite port depth => Sys2Proof.Machine.execLbEklWrite port depth s
  | .lbHbmWrite stack depth => Sys2Proof.Machine.execLbHbmWrite stack depth s
  | .lbHbmEnd stack errs bits => Sys2Proof.Machine.execLbHbmEnd stack errs bits s
  | .tapReset => Sys2Proof.Machine.execTapReset s
  | .jtagIdcode => Sys2Proof.Machine.execJtagIdcode s
  | .jtagBypass => Sys2Proof.Machine.execJtagBypass s
  | .jtagSamplePreload pins => Sys2Proof.Machine.execJtagSamplePreload pins s
  | .jtagExtest pins => Sys2Proof.Machine.execJtagExtest pins s
  | .jtagHighz pins => Sys2Proof.Machine.execJtagHighz pins s
  | .jtagClamp pins => Sys2Proof.Machine.execJtagClamp pins s
  | .scanReq => Sys2Proof.Machine.execScanReq s
  | .scanClearDone => Sys2Proof.Machine.execScanClearDone s
  | .fuseProg kind a b c => Sys2Proof.Machine.execFuseProg kind a b c s
  | .sbQuickCommand => Sys2Proof.Machine.execSbQuickCommand s
  | .sbStatusRead => Sys2Proof.Machine.execSbStatusRead s
  | .sbRegisterRead addr => Sys2Proof.Machine.execSbRegisterRead addr s
  | .sbMailboxWrite off data pecOk => Sys2Proof.Machine.execSbMailboxWrite off data pecOk s
  | .sbAlertResponse => Sys2Proof.Machine.execSbAlertResponse s
  | .sbClockTimeout => Sys2Proof.Machine.execSbClockTimeout s
  | .svcButtonPress => Sys2Proof.Machine.execSvcButtonPress s
  | .svcButtonRelease => Sys2Proof.Machine.execSvcButtonRelease s
  | .svcHold => Sys2Proof.Machine.execSvcHold s
  | .chipModeWrite value => Sys2Proof.Machine.execChipModeWrite value s
  | .coachRwhWrite coach off value => Sys2Proof.Machine.execCoachRwhWrite coach off value s
  | .vcfgWrite vec value => Sys2Proof.Machine.execVcfgWrite vec value s
  | .portDisableWrite port value => Sys2Proof.Machine.execPortDisableWrite port value s
  | .svcLocateWrite value => Sys2Proof.Machine.execSvcLocateWrite value s
  | .gcSyncWrite value => Sys2Proof.Machine.execGcSyncWrite value s
  | .counterReadClear addr => Sys2Proof.Machine.execCounterReadClear addr s
  | .registerWrite admin coach addr words => Sys2Proof.Machine.execRegisterWrite admin coach addr words s
  | .stackTrainingLoss stack => Sys2Proof.Machine.execStackTrainingLoss stack s
  | .portSwitchParityFailure => Sys2Proof.Machine.execPortSwitchParityFailure s
  | .refclkPresenceChange present => Sys2Proof.Machine.execRefclkPresenceChange present s
  | .translationCachesDropped => Sys2Proof.Machine.execTranslationCachesDropped s

end Sys2Proof.Machine
end

