-- ==== Sys2Proof/Machine/Tick.lean ====
section
/-!
DEFINITION. The clock tick: GCOUNT advances by one while the root clock runs (R357, R457), and a DRAIN command that has waited
100 ms is answered TIMEOUT (R431).
-/
namespace Sys2Proof.Machine

/-- A DRAIN command in progress has waited 100 ms (R431). -/
def State.drainLate (s : State) (q : InProg) : Bool := q.op == 0x0005 && decide (q.par.headD 0 + 100000000 ≤ s.gcount)

/-- The DRAIN commands that have waited 100 ms are answered TIMEOUT, and the drain goes on (R431). -/
def State.drainTimeouts (s : State) : State :=
  if s.mpUp = true ∧ s.inprog.any s.drainLate = true then s.answerAll 0x0005 s.drainLate Sc.timeout else s

/-- One CLK_F cycle while the clock state is RUN: GCOUNT advances by one, wrapping at 2^64 (R357), and the mesh moves its carts
(R15, R31); otherwise nothing. -/
def tick (s : State) : State :=
  if s.regs.get chipB F.clkStatusSrc = 3 then State.drainTimeouts { s with gcount := (s.gcount + 1) % 2 ^ 64, noc := s.noc.cycle } else s

end Sys2Proof.Machine
end

