-- ==== Sys2Proof/Safety.lean ====
section
/-!
DEFINITION. What claims about the block are stated in: the parts of the state and the parts a command may change, the canonical
form, and what it means that a mailbox command is served, is answered, or stays in progress.
-/
namespace Sys2Proof.Machine

/-! ### Parts of the state -/

/-- The parts of the state, but for the queue of commands. -/
inductive Part where
  | free | gcount | regs | hbm | spm | cores | coaches | vecs | mbox | inprog | lastCoach | xlate | tables | graphs | gs | sb
  | link | boot | fuses | pwr | svc | jtag | log | ledger | noc
deriving DecidableEq, Repr

/-- A part is the same in two states. -/
def Part.same (s t : State) : Part → Prop
  | .free => t.free = s.free
  | .gcount => t.gcount = s.gcount
  | .regs => t.regs = s.regs
  | .hbm => t.hbm = s.hbm
  | .spm => t.spm = s.spm
  | .cores => t.cores = s.cores
  | .coaches => t.coaches = s.coaches
  | .vecs => t.vecs = s.vecs
  | .mbox => t.mbox = s.mbox
  | .inprog => t.inprog = s.inprog
  | .lastCoach => t.lastCoach = s.lastCoach
  | .xlate => t.xlate = s.xlate
  | .tables => t.tables = s.tables
  | .graphs => t.graphs = s.graphs
  | .gs => t.gs = s.gs
  | .sb => t.sb = s.sb
  | .link => t.link = s.link
  | .boot => t.boot = s.boot
  | .fuses => t.fuses = s.fuses
  | .pwr => t.pwr = s.pwr
  | .svc => t.svc = s.svc
  | .jtag => t.jtag = s.jtag
  | .log => t.log = s.log
  | .ledger => t.ledger = s.ledger
  | .noc => t.noc = s.noc

/-- The parts that a command may change; it leaves every other part as it was. -/
def touches : Instr → List Part
  | .getInfo _ => [.free, .regs, .vecs, .mbox, .inprog, .lastCoach, .link, .svc]
  | .setRole _ => [.free, .regs, .vecs, .mbox, .inprog, .lastCoach, .gs, .link, .svc]
  | .setCoreConfig _ => [.free, .regs, .vecs, .mbox, .inprog, .lastCoach, .link, .boot, .svc]
  | .topoSet _ => [.free, .regs, .vecs, .mbox, .inprog, .lastCoach, .link, .boot, .svc]
  | .drain _ => [.free, .regs, .vecs, .mbox, .inprog, .lastCoach, .link, .svc]
  | .standEnter _ => [.free, .regs, .vecs, .mbox, .inprog, .lastCoach, .link, .pwr, .svc]
  | .shutdown _ => [.free, .regs, .hbm, .vecs, .mbox, .inprog, .lastCoach, .link, .svc]
  | .chipReset _ => [.free, .regs, .cores, .vecs, .mbox, .inprog, .lastCoach, .gs, .link, .svc, .log, .noc]
  | .fwHandover _ => [.free, .regs, .vecs, .mbox, .inprog, .lastCoach, .link, .boot, .svc]
  | .coreWithdraw _ => [.free, .regs, .hbm, .spm, .cores, .coaches, .vecs, .mbox, .inprog, .lastCoach, .xlate, .graphs,
      .gs, .sb, .link, .svc, .log, .ledger, .noc]
  | .coreTest _ => [.free, .regs, .cores, .vecs, .mbox, .inprog, .lastCoach, .link, .svc]
  | .logRead _ => [.free, .regs, .vecs, .mbox, .inprog, .lastCoach, .link, .svc]
  | .idGet _ => [.free, .regs, .vecs, .mbox, .inprog, .lastCoach, .link, .svc]
  | .attestQuote _ => [.free, .regs, .vecs, .mbox, .inprog, .lastCoach, .link, .boot, .svc]
  | .coachCreate _ => [.free, .regs, .coaches, .vecs, .mbox, .inprog, .lastCoach, .link, .svc]
  | .coachDestroy _ => [.free, .regs, .coaches, .vecs, .mbox, .inprog, .lastCoach, .link, .svc]
  | .coachStart _ => [.free, .regs, .vecs, .mbox, .inprog, .lastCoach, .link, .svc]
  | .coachHalt _ => [.free, .regs, .hbm, .coaches, .vecs, .mbox, .inprog, .lastCoach, .xlate, .gs, .sb, .link, .svc, .log]
  | .coachReset _ => [.free, .regs, .hbm, .coaches, .vecs, .mbox, .inprog, .lastCoach, .xlate, .gs, .sb, .link, .svc, .log]
  | .coachMap _ => [.free, .regs, .hbm, .coaches, .vecs, .mbox, .inprog, .lastCoach, .xlate, .link, .svc]
  | .coachUnmap _ => [.free, .regs, .hbm, .coaches, .vecs, .mbox, .inprog, .lastCoach, .xlate, .link, .svc]
  | .launchAt _ => [.free, .regs, .coaches, .vecs, .mbox, .inprog, .lastCoach, .link, .svc]
  | .regionSet _ _ => [.free, .regs, .vecs, .mbox, .inprog, .lastCoach, .link, .boot, .svc]
  | .regionClear _ => [.free, .regs, .hbm, .vecs, .mbox, .inprog, .lastCoach, .link, .boot, .svc]
  | .memMargin _ => [.free, .regs, .hbm, .vecs, .mbox, .inprog, .lastCoach, .link, .svc]
  | .kvPoolSet _ => [.free, .regs, .coaches, .vecs, .mbox, .inprog, .lastCoach, .sb, .link, .boot, .svc]
  | .graphRegister _ => [.free, .regs, .hbm, .coaches, .vecs, .mbox, .inprog, .lastCoach, .graphs, .link, .svc]
  | .graphUpdate _ => [.free, .regs, .coaches, .vecs, .mbox, .inprog, .lastCoach, .graphs, .link, .svc]
  | .graphUnregister _ => [.free, .regs, .vecs, .mbox, .inprog, .lastCoach, .graphs, .link, .svc]
  | .graphShare _ => [.free, .regs, .vecs, .mbox, .inprog, .lastCoach, .graphs, .link, .svc]
  | .tableLoad _ => [.free, .regs, .vecs, .mbox, .inprog, .lastCoach, .tables, .link, .svc]
  | .tableRetire _ => [.free, .regs, .vecs, .mbox, .inprog, .lastCoach, .link, .svc]
  | .overlayLoad _ _ => [.free, .regs, .hbm, .coaches, .vecs, .mbox, .inprog, .lastCoach, .gs, .sb, .link, .svc, .log]
  | .overlayDrop _ => [.free, .regs, .vecs, .mbox, .inprog, .lastCoach, .gs, .sb, .link, .svc, .log]
  | .overlayRead _ => [.free, .regs, .vecs, .mbox, .inprog, .lastCoach, .link, .svc]
  | .seqOpen _ _ => [.free, .regs, .hbm, .vecs, .mbox, .inprog, .lastCoach, .sb, .link, .svc]
  | .seqCancel _ => [.free, .regs, .hbm, .coaches, .vecs, .mbox, .inprog, .lastCoach, .xlate, .gs, .sb, .link, .svc, .log]
  | .kvPause _ => [.free, .regs, .vecs, .mbox, .inprog, .lastCoach, .sb, .link, .svc]
  | .kvResume _ => [.free, .gcount, .regs, .hbm, .spm, .cores, .coaches, .vecs, .mbox, .inprog, .lastCoach, .xlate,
      .tables, .graphs, .gs, .sb, .link, .boot, .pwr, .svc, .jtag, .log, .ledger, .noc]
  | .kvImportOpen _ _ => [.free, .regs, .hbm, .coaches, .vecs, .mbox, .inprog, .lastCoach, .sb, .link, .svc]
  | .kvImportClose _ => [.free, .regs, .hbm, .coaches, .vecs, .mbox, .inprog, .lastCoach, .xlate, .sb, .link, .svc]
  | .kvShip _ => [.free, .regs, .hbm, .vecs, .mbox, .inprog, .lastCoach, .sb, .link, .svc]
  | .collOpen _ _ => [.free, .regs, .vecs, .mbox, .inprog, .lastCoach, .xlate, .link, .svc]
  | .collRun _ => [.free, .regs, .hbm, .vecs, .mbox, .inprog, .lastCoach, .xlate, .gs, .link, .svc, .log]
  | .collClose _ => [.free, .regs, .vecs, .mbox, .inprog, .lastCoach, .link, .svc]
  | .tableLoadDone _ => [.regs, .vecs, .mbox, .inprog, .link, .boot, .svc]
  | .quoteSigned => [.regs, .vecs, .mbox, .inprog, .link, .boot, .svc]
  | .marginDone _ => [.regs, .hbm, .vecs, .mbox, .inprog, .link, .svc]
  | .coachDestroyDone _ => [.regs, .hbm, .spm, .coaches, .vecs, .mbox, .inprog, .xlate, .link, .svc]
  | .mirrorSyncDone _ => [.regs, .hbm, .vecs, .gs, .link, .boot, .svc, .log]
  | .mirrorRebuild => [.regs, .hbm]
  | .kvMoveDone _ _ _ => [.free, .gcount, .regs, .hbm, .spm, .cores, .coaches, .vecs, .mbox, .inprog, .lastCoach,
      .xlate, .tables, .graphs, .gs, .sb, .link, .boot, .pwr, .svc, .jtag, .log, .ledger, .noc]
  | .handoverCheckpointDone => [.regs, .link, .boot]
  | .firmwareRestoreDone _ => [.regs, .vecs, .mbox, .inprog, .gs, .link, .boot, .svc, .log, .ledger]
  | .standDrained => [.regs, .vecs, .mbox, .inprog, .link, .pwr, .svc]
  | .standAckWaitEnd => [.free, .regs, .hbm, .cores, .vecs, .gs, .sb, .link, .pwr, .svc, .log]
  | .selftestDone _ => [.regs, .vecs, .mbox, .inprog, .link, .pwr, .svc]
  | .eklWrite _ _ => [.free, .regs, .hbm, .cores, .coaches, .vecs, .mbox, .inprog, .xlate, .gs, .sb, .link, .svc, .log]
  | .eklWriteAck _ _ => [.regs, .cores, .vecs, .mbox, .inprog, .gs, .sb, .link, .svc, .log]
  | .eklRead _ _ => [.regs, .hbm, .vecs, .xlate, .gs, .link, .svc, .log]
  | .eklReadData _ _ => [.regs, .hbm, .cores, .vecs, .mbox, .inprog, .gs, .sb, .link, .boot, .svc, .log]
  | .eklAdd _ _ => [.regs, .hbm, .vecs, .xlate, .gs, .link, .svc, .log]
  | .eklAddAck _ _ => [.regs, .vecs, .gs, .link, .svc, .log]
  | .drawbar _ _ => [.regs, .cores, .vecs, .gs, .link, .svc, .log]
  | .chainDone _ _ => [.regs, .hbm, .cores, .coaches, .vecs, .mbox, .inprog, .xlate, .graphs, .gs, .sb, .link, .svc,
      .log, .ledger]
  | .replay _ _ => [.regs, .hbm, .cores, .coaches, .vecs, .mbox, .inprog, .xlate, .graphs, .gs, .sb, .link, .svc, .log, .ledger]
  | .barCredit _ _ => [.regs, .cores, .vecs, .gs, .link, .svc, .log, .noc]
  | .shipHeader _ _ => [.regs, .hbm, .coaches, .vecs, .xlate, .gs, .sb, .link, .svc, .log]
  | .shipPageRecord _ _ => [.regs, .hbm, .coaches, .vecs, .xlate, .gs, .sb, .link, .svc, .log]
  | .shipPageData _ _ _ => [.regs, .hbm, .coaches, .vecs, .xlate, .gs, .sb, .link, .svc, .log]
  | .shipTrailer _ _ => [.regs, .hbm, .coaches, .vecs, .xlate, .gs, .sb, .link, .svc, .log]
  | .shipAccept _ _ => [.regs, .hbm, .vecs, .gs, .sb, .link, .svc, .log]
  | .shipNak _ _ => [.regs, .hbm, .vecs, .gs, .sb, .link, .svc, .log]
  | .shipCommit _ _ => [.regs, .hbm, .vecs, .gs, .sb, .link, .svc, .log]
  | .shipAbort _ _ => [.regs, .hbm, .coaches, .vecs, .xlate, .gs, .sb, .link, .svc, .log]
  | .shipAnswerTimeout _ => [.regs, .hbm, .vecs, .gs, .sb, .link, .svc, .log]
  | .collUp _ _ => [.regs, .hbm, .vecs, .mbox, .inprog, .xlate, .gs, .link, .svc, .log]
  | .collDown _ _ => [.regs, .hbm, .vecs, .mbox, .inprog, .xlate, .gs, .link, .svc, .log]
  | .collAbort _ _ => [.regs, .hbm, .vecs, .mbox, .inprog, .xlate, .gs, .link, .svc, .log]
  | .collTimeout _ => [.regs, .vecs, .mbox, .inprog, .link, .svc]
  | .mgmt _ _ => [.regs, .vecs, .gs, .link, .svc, .log]
  | .bootGrant _ _ => [.regs, .vecs, .gs, .link, .boot, .svc, .log]
  | .messageForward _ _ => [.regs, .vecs, .gs, .link, .svc, .log]
  | .dataFlit _ _ _ => [.regs, .vecs, .gs, .link, .svc, .log]
  | .idleFlit _ _ _ => [.regs, .vecs, .gs, .link, .svc, .log]
  | .markFlit _ _ _ => [.free, .gcount, .regs, .hbm, .cores, .vecs, .gs, .sb, .link, .boot, .pwr, .svc, .log]
  | .replayTimeout _ => [.regs, .vecs, .gs, .link, .svc, .log]
  | .frameStart => [.regs, .link]
  | .syncMarkLoss => [.regs, .vecs, .link]
  | .syncHoldoverExpiry => [.regs, .vecs, .link]
  | .lightDetect _ => [.regs, .link]
  | .trainingRetry _ _ => [.regs, .link]
  | .trainingTimeout _ => [.regs, .hbm, .cores, .vecs, .gs, .sb, .link, .svc, .log]
  | .fecLockLoss _ _ => [.regs, .link]
  | .retrainRelock _ _ => [.regs, .vecs, .gs, .link, .svc, .log]
  | .retrainTimeout _ => [.regs, .hbm, .cores, .vecs, .gs, .sb, .link, .svc, .log]
  | .lossOfSignal _ _ => [.regs, .hbm, .cores, .vecs, .gs, .sb, .link, .svc, .log]
  | .routeUpdate => [.regs, .link]
  | .presenceChange _ _ => [.free, .regs, .hbm, .cores, .vecs, .gs, .sb, .link, .svc, .log]
  | .presenceSteady _ => [.regs, .link]
  | .drainComplete => [.regs, .vecs, .mbox, .inprog, .link, .svc]
  | .hostWriteGiveup _ => [.regs, .cores, .vecs, .mbox, .inprog, .sb, .link, .svc]
  | .interruptFrameResend _ => [.link]
  | .seqInputWrite _ _ _ => [.regs, .hbm, .coaches, .vecs, .mbox, .inprog, .xlate, .gs, .sb, .link, .svc, .log]
  | .seqCancelBit _ _ => [.regs, .hbm, .coaches, .vecs, .mbox, .inprog, .xlate, .gs, .sb, .link, .svc, .log]
  | .seqCloseBit _ _ => [.regs, .hbm, .coaches, .vecs, .mbox, .inprog, .xlate, .gs, .sb, .link, .svc, .log]
  | .seqEntryStaged _ => [.sb]
  | .deadlineCheck => [.regs, .hbm, .coaches, .vecs, .mbox, .inprog, .xlate, .gs, .sb, .link, .svc, .log]
  | .deadlineExpiry _ => [.regs, .hbm, .coaches, .vecs, .mbox, .inprog, .xlate, .gs, .sb, .link, .svc, .log]
  | .sbIdleTimer => [.regs, .hbm, .coaches, .vecs, .mbox, .inprog, .xlate, .gs, .sb, .link, .svc, .log]
  | .kvTtlExpiry _ => [.regs, .hbm, .coaches, .vecs, .xlate, .gs, .sb, .link, .svc, .log]
  | .importTtlExpiry _ => [.regs, .hbm, .coaches, .vecs, .xlate, .sb, .link]
  | .manifestReady _ _ => [.regs, .hbm, .cores, .coaches, .vecs, .mbox, .inprog, .xlate, .graphs, .gs, .sb, .link,
      .svc, .log, .ledger]
  | .ledgerAuditTimer => [.regs, .ledger]
  | .ledgerEvalDone _ => [.regs, .hbm, .cores, .coaches, .vecs, .mbox, .inprog, .xlate, .graphs, .gs, .sb, .link, .svc,
      .log, .ledger]
  | .gsDispatchUnit _ => [.regs, .hbm, .cores, .coaches, .vecs, .mbox, .inprog, .xlate, .graphs, .gs, .sb, .link, .svc,
      .log, .ledger, .noc]
  | .quantumStart => [.regs, .hbm, .cores, .coaches, .vecs, .mbox, .inprog, .xlate, .graphs, .gs, .sb, .link, .svc,
      .log, .ledger]
  | .throttleWindow => [.regs, .pwr]
  | .tdDispatchRx _ _ => [.regs, .hbm, .cores, .vecs, .xlate, .gs, .link, .svc, .log, .noc]
  | .carriageIssue _ _ _ => [.regs, .hbm, .spm, .cores, .vecs, .xlate, .gs, .link, .svc, .log, .noc]
  | .carriageComplete _ _ => [.regs, .cores, .gs, .link, .noc]
  | .carriageCompletionRx => [.regs, .hbm, .spm, .cores, .coaches, .vecs, .mbox, .inprog, .xlate, .graphs, .gs, .sb,
      .link, .svc, .log, .ledger, .noc]
  | .carriageEndRx _ => [.regs, .cores, .gs, .link, .noc]
  | .carriageWatchdog _ _ => [.regs, .cores, .vecs, .gs, .link, .svc, .log, .noc]
  | .tileSwap _ _ => [.regs, .cores, .noc]
  | .teFormatBarrierEnd _ _ => [.regs, .cores]
  | .setReady _ _ => [.cores]
  | .setDrainStart _ _ _ => [.regs, .hbm, .spm, .cores, .vecs, .xlate, .gs, .link, .svc, .log, .noc]
  | .setDrainDone _ _ => [.regs, .cores]
  | .drawbarCartRx _ _ _ => [.regs, .hbm, .spm, .cores, .vecs, .xlate, .gs, .link, .svc, .log, .noc]
  | .xeTileStart _ _ _ => [.regs, .hbm, .spm, .cores, .vecs, .gs, .link, .svc, .log, .noc]
  | .xeBlockDone _ _ _ => [.regs, .cores, .vecs, .gs, .link, .svc, .log, .noc]
  | .geCartRead _ _ _ _ => [.regs, .hbm, .spm, .cores, .vecs, .gs, .link, .svc, .log, .noc]
  | .partialCartRx _ _ => [.regs, .hbm, .spm, .cores, .vecs, .gs, .link, .svc, .log, .noc]
  | .mergeFold _ _ _ => [.regs, .spm, .cores, .vecs, .gs, .link, .svc, .log, .noc]
  | .dmaDescriptorIssue _ _ _ => [.regs, .hbm, .spm, .cores, .vecs, .xlate, .gs, .link, .svc, .log, .noc]
  | .dmaChunkDone _ _ => [.regs, .spm, .cores, .vecs, .mbox, .inprog, .gs, .link, .svc, .log, .noc]
  | .xlateWalkDone _ _ _ _ _ => [.regs, .vecs, .xlate, .gs, .link]
  | .nbrWriteRx _ => [.regs, .spm, .cores, .noc]
  | .scrubRow _ _ _ => [.regs, .spm, .cores, .vecs, .gs, .link, .svc, .log]
  | .scrubForce _ _ _ => [.regs, .spm, .cores, .vecs, .gs, .link, .svc, .log]
  | .spmClearDone _ => [.spm, .cores]
  | .mcBulkRequest _ _ _ => [.regs, .hbm, .cores, .vecs, .mbox, .inprog, .gs, .link, .svc, .log, .noc]
  | .mcFineRequest _ _ => [.regs, .hbm, .vecs, .gs, .link, .svc, .log, .noc]
  | .mcAddRequest _ _ => [.regs, .hbm, .vecs, .gs, .link, .svc, .log]
  | .patrolLine _ _ _ _ => [.regs, .hbm, .vecs, .gs, .link, .svc, .log]
  | .pmIntervalEnd => [.regs, .hbm]
  | .interruptCoalTimeout _ => [.regs, .vecs, .link]
  | .launchTime _ => [.regs, .coaches, .vecs, .link]
  | .launchWindow _ => [.regs, .coaches]
  | .ftDue _ => [.cores]
  | .ftTestStart _ => [.regs, .cores]
  | .ftDefer _ => [.regs]
  | .ftTestDone _ _ => [.regs, .hbm, .spm, .cores, .coaches, .vecs, .mbox, .inprog, .xlate, .graphs, .gs, .sb, .link,
      .svc, .log, .ledger, .noc]
  | .recoveryDone => [.regs, .vecs, .link, .log]
  | .mpWatchdog => [.regs, .vecs, .inprog, .gs, .link, .boot, .svc, .log]
  | .mpAbsentLimit => [.regs, .cores, .vecs, .gs, .link, .svc, .log, .noc]
  | .gsSbParityFail => [.regs, .cores, .gs, .link, .log, .noc]
  | .warmResetQuiesced => [.regs, .hbm, .spm, .cores, .coaches, .vecs, .inprog, .xlate, .tables, .graphs, .gs, .sb,
      .link, .boot, .ledger, .noc]
  | .bootPorDone _ => [.regs, .link, .boot]
  | .hbmTrainDone _ => [.free, .regs, .vecs, .gs, .link, .boot, .pwr, .svc, .log]
  | .bootReqTimer => [.link, .boot]
  | .handbackDone _ => [.regs, .hbm, .cores, .vecs, .gs, .sb, .link, .boot, .svc, .log]
  | .bootReadTimeout _ => [.regs, .link, .boot, .svc]
  | .imageLoadDone => [.regs, .boot]
  | .imageVerifyDone _ _ => [.regs, .link, .boot, .fuses, .svc]
  | .pwrgdRise => [.free, .gcount, .regs, .hbm, .spm, .cores, .coaches, .vecs, .mbox, .inprog, .lastCoach, .xlate,
      .tables, .graphs, .gs, .sb, .link, .boot, .pwr, .svc, .jtag, .log, .ledger, .noc]
  | .pwrgdFall => [.free, .gcount, .regs, .hbm, .spm, .cores, .coaches, .vecs, .mbox, .inprog, .lastCoach, .xlate,
      .tables, .graphs, .gs, .sb, .link, .boot, .pwr, .svc, .jtag, .log, .ledger, .noc]
  | .poreset _ _ _ => [.free, .gcount, .regs, .hbm, .spm, .cores, .coaches, .vecs, .mbox, .inprog, .lastCoach, .xlate,
      .tables, .graphs, .gs, .sb, .link, .boot, .pwr, .svc, .jtag, .log, .ledger, .noc]
  | .warmreset => [.regs, .cores, .gs, .link, .pwr, .log, .noc]
  | .regulatorGood _ => [.free, .regs, .vecs, .gs, .link, .boot, .pwr, .svc, .log]
  | .regulatorTimeout _ => [.pwr]
  | .xtalDelayEnd => [.regs, .pwr]
  | .pllLockDone _ _ => [.gcount, .regs, .hbm, .cores, .gs, .link, .pwr, .svc, .log, .ledger, .noc]
  | .pllLockLoss => [.regs, .hbm, .pwr, .svc]
  | .ioscTrimMeasure _ => [.regs]
  | .vinUndervolt _ => [.regs, .vecs, .gs, .link, .svc, .log]
  | .vinBrownout _ => [.free, .gcount, .regs, .hbm, .spm, .cores, .coaches, .vecs, .mbox, .inprog, .lastCoach, .xlate,
      .tables, .graphs, .gs, .sb, .link, .boot, .pwr, .svc, .jtag, .log, .ledger, .noc]
  | .thermSample _ _ => [.regs, .vecs, .gs, .link, .svc, .log]
  | .thermalTrip => [.free, .gcount, .regs, .hbm, .spm, .cores, .coaches, .vecs, .mbox, .inprog, .lastCoach, .xlate,
      .tables, .graphs, .gs, .sb, .link, .boot, .pwr, .svc, .jtag, .log, .ledger, .noc]
  | .throttleEval _ _ => [.regs, .pwr]
  | .standAddressMatch => [.regs, .pwr]
  | .lbEklWrite _ _ => [.free, .regs]
  | .lbHbmWrite _ _ => [.free, .regs, .hbm]
  | .lbHbmEnd _ _ _ => [.free, .regs, .hbm]
  | .tapReset => [.jtag]
  | .jtagIdcode => [.jtag]
  | .jtagBypass => [.jtag]
  | .jtagSamplePreload _ => [.jtag]
  | .jtagExtest _ => [.jtag]
  | .jtagHighz _ => [.jtag]
  | .jtagClamp _ => [.jtag]
  | .scanReq => [.regs, .hbm, .cores, .vecs, .gs, .sb, .link, .svc, .jtag, .log, .noc]
  | .scanClearDone => [.regs, .spm, .cores, .coaches, .vecs, .mbox, .inprog, .xlate, .tables, .gs, .sb, .boot]
  | .fuseProg _ _ _ _ => [.fuses, .jtag]
  | .sbQuickCommand => [.regs, .pwr, .svc]
  | .sbStatusRead => [.regs, .pwr, .svc]
  | .sbRegisterRead _ => [.regs, .pwr, .svc]
  | .sbMailboxWrite _ _ _ => [.regs, .mbox, .pwr, .svc]
  | .sbAlertResponse => [.svc]
  | .sbClockTimeout => [.svc]
  | .svcButtonPress => [.regs, .svc]
  | .svcButtonRelease => [.regs, .link, .svc]
  | .svcHold => [.regs, .link, .svc]
  | .chipModeWrite _ => [.regs, .gs]
  | .coachRwhWrite _ _ _ => [.regs]
  | .vcfgWrite _ _ => [.regs, .vecs, .link]
  | .portDisableWrite _ _ => [.free, .regs, .hbm, .cores, .vecs, .gs, .sb, .link, .svc, .log]
  | .svcLocateWrite _ => [.regs, .link, .svc]
  | .gcSyncWrite _ => [.regs, .vecs, .link]
  | .counterReadClear _ => [.regs]
  | .registerWrite _ _ _ _ => [.free, .regs, .hbm, .cores, .coaches, .vecs, .mbox, .gs, .sb, .link, .svc, .log]
  | .stackTrainingLoss _ => [.regs, .vecs, .gs, .link, .svc, .log]
  | .portSwitchParityFailure => [.regs, .hbm, .cores, .vecs, .gs, .sb, .link, .svc, .log]
  | .refclkPresenceChange _ => [.regs]
  | .translationCachesDropped => [.regs, .vecs, .mbox, .inprog, .xlate, .link, .svc]

/-! ### Invariants -/

/-- The registers and the three byte memories are in canonical form: keys rising, nothing listed that reads as unlisted. -/
def Canonical (s : State) : Prop :=
  s.regs.wf = true ∧ s.hbm.bytes.wf = true ∧ s.spm.bytes.wf = true ∧ s.mbox.wf = true

/-- The mesh keeps its credits (R18, R19, R499): at every input buffer the credits that its senders do not hold are those of the
carts in it and those on the way back, at most the eight of R21. -/
def Noc.MeshOk (n : Noc) : Prop :=
  SMap.wf {} n.mesh = true ∧ SMap.wf [] n.bufs = true ∧ ∀ b,
    (n.buf b).flight = 0 ∧ (n.buf b).buffer = (SMap.look [] n.bufs b).length ∧
      (n.buf b).spent = (n.buf b).buffer + (n.buf b).back ∧ (n.buf b).spent ≤ 8

/-! ### Mailboxes (R421-R433) -/

/-- The state once the MP has taken a command from a mailbox: a coach mailbox is the one taken last (R428). -/
def State.taken (s : State) (box : Nat) : State := if 16 ≤ box then { s with lastCoach := box - 16 } else s

/-- The MP serves mailboxes, takes `box` next, the command there has opcode `op`, a place for it is free, and every check that
comes before its own passes (R427-R430, R434, R435, R467). -/
def Served (s : State) (op box : Nat) : Prop :=
  s.mpUp = true ∧ s.chip F.handover = 0 ∧ s.nextBox = some box ∧ (s.cmd box).op = op ∧ (s.taken box).noPlace box = false
    ∧ (s.chip F.pwrStatusState = 0 ∨ 2 < s.chip F.pwrStatusState ∨ op = 0x0001 ∨ op = 0x000C)
    ∧ (s.taken box).cmdCheck (s.cmd box) = none

/-- The MP serves mailboxes and takes `box` next, and the command there has opcode `op`, or one that R431 does not list, which
any row answers (log entry 7). -/
def Taken (s : State) (op box : Nat) : Prop :=
  s.mpUp = true ∧ s.chip F.handover = 0 ∧ s.nextBox = some box ∧ ((s.cmd box).op = op ∨ cmdRow (s.cmd box).op = none)

/-- The status byte of a mailbox's response (R423). -/
def State.statusOf (s : State) (box : Nat) : Nat := (Memory.byte s.mbox (boxB box + 0x202)).toNat

/-- The first `n` bytes of the result of a mailbox's response (R423). -/
def State.resultOf (s : State) (box n : Nat) : List Byte := Memory.read s.mbox (boxB box + 0x210) n

/-- The mailbox's command is answered with a status: OWN reads 0, the response carries the status, and no command of the
mailbox is in progress (R423, R426). -/
def Answered (t : State) (box status : Nat) : Prop :=
  t.owned box = false ∧ t.statusOf box = status ∧ t.inProgress box = false

/-- The mailbox's command stays in progress with its opcode; OWN still reads 1 (R428). -/
def InProgress (t : State) (box op : Nat) : Prop :=
  t.owned box = true ∧ t.inprog.any (fun q => q.box == box && q.op == op) = true

/-! ### The host commands (R431) -/

/-- The opcode of R431 and the mailbox of a row that takes a host command; none for any other row. -/
def hostCommand : Instr → Option (Nat × Nat)
  | .getInfo box => some (0x0001, box)
  | .setRole box => some (0x0002, box)
  | .setCoreConfig box => some (0x0003, box)
  | .topoSet box => some (0x0004, box)
  | .drain box => some (0x0005, box)
  | .standEnter box => some (0x0006, box)
  | .shutdown box => some (0x0007, box)
  | .chipReset box => some (0x0008, box)
  | .fwHandover box => some (0x0009, box)
  | .coreWithdraw box => some (0x000A, box)
  | .coreTest box => some (0x000B, box)
  | .logRead box => some (0x000C, box)
  | .idGet box => some (0x000D, box)
  | .attestQuote box => some (0x000E, box)
  | .coachCreate box => some (0x0101, box)
  | .coachDestroy box => some (0x0102, box)
  | .coachStart box => some (0x0103, box)
  | .coachHalt box => some (0x0104, box)
  | .coachReset box => some (0x0105, box)
  | .coachMap box => some (0x0106, box)
  | .coachUnmap box => some (0x0107, box)
  | .launchAt box => some (0x0108, box)
  | .regionSet box _ => some (0x0201, box)
  | .regionClear box => some (0x0202, box)
  | .memMargin box => some (0x0203, box)
  | .kvPoolSet box => some (0x0204, box)
  | .graphRegister box => some (0x0301, box)
  | .graphUpdate box => some (0x0302, box)
  | .graphUnregister box => some (0x0303, box)
  | .graphShare box => some (0x0304, box)
  | .tableLoad box => some (0x0305, box)
  | .tableRetire box => some (0x0306, box)
  | .overlayLoad box _ => some (0x0307, box)
  | .overlayDrop box => some (0x0308, box)
  | .overlayRead box => some (0x0309, box)
  | .seqOpen box _ => some (0x0401, box)
  | .seqCancel box => some (0x0402, box)
  | .kvPause box => some (0x0403, box)
  | .kvResume box => some (0x0404, box)
  | .kvImportOpen box _ => some (0x0405, box)
  | .kvImportClose box => some (0x0406, box)
  | .kvShip box => some (0x0407, box)
  | .collOpen box _ => some (0x0501, box)
  | .collRun box => some (0x0502, box)
  | .collClose box => some (0x0503, box)
  | .tableLoadDone _ => none
  | .quoteSigned => none
  | .marginDone _ => none
  | .coachDestroyDone _ => none
  | .mirrorSyncDone _ => none
  | .mirrorRebuild => none
  | .kvMoveDone _ _ _ => none
  | .handoverCheckpointDone => none
  | .firmwareRestoreDone _ => none
  | .standDrained => none
  | .standAckWaitEnd => none
  | .selftestDone _ => none
  | .eklWrite _ _ => none
  | .eklWriteAck _ _ => none
  | .eklRead _ _ => none
  | .eklReadData _ _ => none
  | .eklAdd _ _ => none
  | .eklAddAck _ _ => none
  | .drawbar _ _ => none
  | .chainDone _ _ => none
  | .replay _ _ => none
  | .barCredit _ _ => none
  | .shipHeader _ _ => none
  | .shipPageRecord _ _ => none
  | .shipPageData _ _ _ => none
  | .shipTrailer _ _ => none
  | .shipAccept _ _ => none
  | .shipNak _ _ => none
  | .shipCommit _ _ => none
  | .shipAbort _ _ => none
  | .shipAnswerTimeout _ => none
  | .collUp _ _ => none
  | .collDown _ _ => none
  | .collAbort _ _ => none
  | .collTimeout _ => none
  | .mgmt _ _ => none
  | .bootGrant _ _ => none
  | .messageForward _ _ => none
  | .dataFlit _ _ _ => none
  | .idleFlit _ _ _ => none
  | .markFlit _ _ _ => none
  | .replayTimeout _ => none
  | .frameStart => none
  | .syncMarkLoss => none
  | .syncHoldoverExpiry => none
  | .lightDetect _ => none
  | .trainingRetry _ _ => none
  | .trainingTimeout _ => none
  | .fecLockLoss _ _ => none
  | .retrainRelock _ _ => none
  | .retrainTimeout _ => none
  | .lossOfSignal _ _ => none
  | .routeUpdate => none
  | .presenceChange _ _ => none
  | .presenceSteady _ => none
  | .drainComplete => none
  | .hostWriteGiveup _ => none
  | .interruptFrameResend _ => none
  | .seqInputWrite _ _ _ => none
  | .seqCancelBit _ _ => none
  | .seqCloseBit _ _ => none
  | .seqEntryStaged _ => none
  | .deadlineCheck => none
  | .deadlineExpiry _ => none
  | .sbIdleTimer => none
  | .kvTtlExpiry _ => none
  | .importTtlExpiry _ => none
  | .manifestReady _ _ => none
  | .ledgerAuditTimer => none
  | .ledgerEvalDone _ => none
  | .gsDispatchUnit _ => none
  | .quantumStart => none
  | .throttleWindow => none
  | .tdDispatchRx _ _ => none
  | .carriageIssue _ _ _ => none
  | .carriageComplete _ _ => none
  | .carriageCompletionRx => none
  | .carriageEndRx _ => none
  | .carriageWatchdog _ _ => none
  | .tileSwap _ _ => none
  | .teFormatBarrierEnd _ _ => none
  | .setReady _ _ => none
  | .setDrainStart _ _ _ => none
  | .setDrainDone _ _ => none
  | .drawbarCartRx _ _ _ => none
  | .xeTileStart _ _ _ => none
  | .xeBlockDone _ _ _ => none
  | .geCartRead _ _ _ _ => none
  | .partialCartRx _ _ => none
  | .mergeFold _ _ _ => none
  | .dmaDescriptorIssue _ _ _ => none
  | .dmaChunkDone _ _ => none
  | .xlateWalkDone _ _ _ _ _ => none
  | .nbrWriteRx _ => none
  | .scrubRow _ _ _ => none
  | .scrubForce _ _ _ => none
  | .spmClearDone _ => none
  | .mcBulkRequest _ _ _ => none
  | .mcFineRequest _ _ => none
  | .mcAddRequest _ _ => none
  | .patrolLine _ _ _ _ => none
  | .pmIntervalEnd => none
  | .interruptCoalTimeout _ => none
  | .launchTime _ => none
  | .launchWindow _ => none
  | .ftDue _ => none
  | .ftTestStart _ => none
  | .ftDefer _ => none
  | .ftTestDone _ _ => none
  | .recoveryDone => none
  | .mpWatchdog => none
  | .mpAbsentLimit => none
  | .gsSbParityFail => none
  | .warmResetQuiesced => none
  | .bootPorDone _ => none
  | .hbmTrainDone _ => none
  | .bootReqTimer => none
  | .handbackDone _ => none
  | .bootReadTimeout _ => none
  | .imageLoadDone => none
  | .imageVerifyDone _ _ => none
  | .pwrgdRise => none
  | .pwrgdFall => none
  | .poreset _ _ _ => none
  | .warmreset => none
  | .regulatorGood _ => none
  | .regulatorTimeout _ => none
  | .xtalDelayEnd => none
  | .pllLockDone _ _ => none
  | .pllLockLoss => none
  | .ioscTrimMeasure _ => none
  | .vinUndervolt _ => none
  | .vinBrownout _ => none
  | .thermSample _ _ => none
  | .thermalTrip => none
  | .throttleEval _ _ => none
  | .standAddressMatch => none
  | .lbEklWrite _ _ => none
  | .lbHbmWrite _ _ => none
  | .lbHbmEnd _ _ _ => none
  | .tapReset => none
  | .jtagIdcode => none
  | .jtagBypass => none
  | .jtagSamplePreload _ => none
  | .jtagExtest _ => none
  | .jtagHighz _ => none
  | .jtagClamp _ => none
  | .scanReq => none
  | .scanClearDone => none
  | .fuseProg _ _ _ _ => none
  | .sbQuickCommand => none
  | .sbStatusRead => none
  | .sbRegisterRead _ => none
  | .sbMailboxWrite _ _ _ => none
  | .sbAlertResponse => none
  | .sbClockTimeout => none
  | .svcButtonPress => none
  | .svcButtonRelease => none
  | .svcHold => none
  | .chipModeWrite _ => none
  | .coachRwhWrite _ _ _ => none
  | .vcfgWrite _ _ => none
  | .portDisableWrite _ _ => none
  | .svcLocateWrite _ => none
  | .gcSyncWrite _ => none
  | .counterReadClear _ => none
  | .registerWrite _ _ _ _ => none
  | .stackTrainingLoss _ => none
  | .portSwitchParityFailure => none
  | .refclkPresenceChange _ => none
  | .translationCachesDropped => none

/-! ### Messages (R369-R371, R440) -/

/-- A message of type `t` for this device arrives whole on port `p`, breaks no rule of R369, and the device takes messages: its
boot ROM is not in FAILED or SAFE (R440), its clocks run, and no scan holds it. Before a topology map is loaded the message comes
from the device's own adapter (R441). The coach that a message between devices names is not VACANT (R371). -/
def Arrives (s : State) (p : Nat) (m : Msg) (t : Nat) : Prop :=
  p < 16 ∧ m.mtype = t ∧ m.dst = s.node ∧ s.rom ≠ Rom.failed ∧ s.rom ≠ Rom.safe ∧ s.clocked = true ∧ s.scanned = false
    ∧ msgBad m true = false ∧ s.stray p m = false ∧ s.coachless m = false

end Sys2Proof.Machine
end

