-- ==== Sys2Proof/Certificates/Slice0/Obligations.lean ====
section
/-!
DEFINITION. The statements for the provers.
-/

open Sys2Proof Sys2Proof.Machine

/-- With command `c` at the front of the queue, a step is `exec c` on the state with the queue's rest. -/
def Obligations.StepRunsTheCommandAtTheFront : Prop :=
  ∀ (c : Instr) (s : State), step { s with pending := c :: s.pending } = exec c s

/-- An idle step is one tick of the clock (the model's choice, log entry 2). -/
def Obligations.IdleStepTicksTheClock : Prop :=
  ∀ s : State, s.pending = [] →
    (s.chip F.clkStatusSrc ≠ 3 → step s = .next s) ∧
    (s.chip F.clkStatusSrc = 3 → (∀ q ∈ s.inprog, q.op ≠ 0x0005) →
      step s = .next { s with gcount := (s.gcount + 1) % 2 ^ 64, noc := s.noc.cycle })

/-- GCOUNT reads 0 at the end of cold reset (R357), and the ROM is in its first state (R440); that the queue is empty and
the clocks run at reset is the model's choice (log entry 12). -/
def Obligations.ResetState : Prop :=
  State.reset.gcount = 0 ∧ State.reset.pending = [] ∧ State.reset.inprog = [] ∧ State.reset.rom = Rom.por ∧
    State.reset.chip F.clkStatusSrc = 3 ∧ State.reset.gs.units = [] ∧ State.reset.gs.rows = [] ∧ State.reset.graphs = [] ∧
    State.reset.log.ring = [] ∧ ∀ c < 4096, State.reset.coachState c = Cs.vacant

/-- The reset state meets the invariants that every step keeps. -/
def Obligations.ResetIsCanonical : Prop := Canonical State.reset ∧ State.reset.gcount < 2 ^ 64 ∧ State.reset.noc.MeshOk

/-- Canonical form is an invariant of every step, from every state that has it. -/
def Obligations.EveryStepKeepsTheCanonicalForm : Prop :=
  ∀ s t : State, Canonical s → step s = .next t → Canonical t

/-- The mesh's credits balance at every router input buffer, and stay within the eight of R21. -/
def Obligations.EveryStepKeepsTheMeshCredits : Prop :=
  ∀ s t : State, s.noc.MeshOk → step s = .next t → t.noc.MeshOk

/-- Fuses only ever burn, whatever the command: no command, no reset and no tick takes a burn back. -/
def Obligations.FusesOnlyBurn : Prop :=
  ∀ s t : State, step s = .next t →
    s.fuses.svn ≤ t.fuses.svn ∧ (∀ c ∈ s.fuses.cores, c ∈ t.fuses.cores) ∧ (∀ r ∈ s.fuses.rows, r ∈ t.fuses.rows) ∧
    t.fuses.keyHash = s.fuses.keyHash ∧ t.fuses.revoke = s.fuses.revoke ∧ t.fuses.scanLock = s.fuses.scanLock ∧
    t.fuses.serial = s.fuses.serial ∧ t.fuses.dkN = s.fuses.dkN ∧ t.fuses.dkD = s.fuses.dkD ∧ t.fuses.iosc = s.fuses.iosc

/-- GCOUNT is a 64-bit count, and the clock tick, which the model takes for one CLK_F cycle, advances it by one. -/
def Obligations.GcountStaysA64BitCount : Prop :=
  (∀ s t : State, s.gcount < 2 ^ 64 → step s = .next t → t.gcount < 2 ^ 64) ∧
  (∀ s : State, s.chip F.clkStatusSrc = 3 → (tick s).gcount = (s.gcount + 1) % 2 ^ 64)

/-- No command stops the model: every one answers a next state, and the queue of waiting commands is as it was. -/
def Obligations.EveryCommandAnswersANextState : Prop :=
  ∀ (i : Instr) (s : State), ∃ t, exec i s = .next t ∧ t.pending = s.pending

/-- Every command changes only the parts of the state that `touches` lists for it. -/
def Obligations.CommandsKeepEveryOtherPart : Prop :=
  ∀ (i : Instr) (s t : State), exec i s = .next t → ∀ p : Part, p ∉ touches i → p.same s t

/-- The commands that only report (R431, R449, R520). -/
def Obligations.InformationCommandsAnswer : Prop :=
  (∀ s box, Canonical s → Served s 0x0001 box →
    ∃ t, exec (.getInfo box) s = .next t ∧ Answered t box Sc.ok ∧
      t.resultOf box 12 = packFields 12 [(0, 1, 4), (1, 1, 1), (2, 1, 0xB1), (3, 1, s.chip F.coreConfig),
        (4, 4, s.chip F.fwVersion), (8, 2, s.chip F.eklNodeNode), (10, 1, s.mpLoad), (11, 1, s.chip F.sbRole)]) ∧
  (∀ s box, Canonical s → Served s 0x000D box → (s.cmd box).arg 0 1 = 0 →
    exec (.idGet box) s = .next ((s.taken box).respond box (s.cmd box).coach Sc.ok
      (packFields 16 [(0, 8, s.chip F.devSerialSerial), (8, 1, 0xB1), (9, 1, s.chip F.keyslot),
        (10, 1, s.chip F.svnMin), (11, 1, s.chip F.bootStatusSvn), (12, 4, s.chip F.fwVersion)] ++ sha256 (beBytes 384 s.boot.dkN)))) ∧
  (∀ s box, Canonical s → Served s 0x000D box → (s.cmd box).arg 0 1 = 1 →
    ∃ t, exec (.idGet box) s = .next t ∧ Answered t box Sc.ok ∧ t.resultOf box 384 = beBytes 384 s.boot.dkN) ∧
  (∀ s box, Canonical s → Served s 0x000D box → (s.cmd box).arg 0 1 = 2 → s.boot.m.flatten.length ≤ 496 →
    ∃ t, exec (.idGet box) s = .next t ∧ Answered t box Sc.ok ∧
      t.resultOf box s.boot.m.flatten.length = s.boot.m.flatten) ∧
  (∀ s box, Canonical s → Served s 0x000D box → (s.cmd box).arg 0 1 = 3 → box ≠ 8 →
    exec (.idGet box) s = .next ((s.taken box).respond box (s.cmd box).coach Sc.ok
      ((s.coach (s.cmd box).coach).cm ++ leBytes 4 (s.coach (s.cmd box).coach).cmCount))) ∧
  (∀ s box, Canonical s → Served s 0x000C box → 1 ≤ (s.cmd box).arg 4 1 → (s.cmd box).arg 4 1 ≤ 7 →
    ∃ t, exec (.logRead box) s = .next t ∧ Answered t box Sc.ok ∧ t.log = s.log ∧
      t = (s.taken box).respond box (s.cmd box).coach Sc.ok
        (s.logRead (if 16 ≤ box then some (box - 16) else none) ((s.cmd box).arg 0 4) ((s.cmd box).arg 4 1)))

/-- The configuration commands of R431 with legal arguments. -/
def Obligations.ConfigurationCommandsTakeEffect : Prop :=
  (∀ s box, Canonical s → Served s 0x0002 box → (s.cmd box).arg 0 1 ≤ 2 → s.gs.active = false →
    ∃ t, exec (.setRole box) s = .next t ∧ Answered t box Sc.ok ∧ t.chip F.sbRole = (s.cmd box).arg 0 1) ∧
  (∀ s box, Canonical s → Served s 0x0002 box → (s.cmd box).arg 0 1 ≤ 2 → s.gs.active = true →
    ∃ t, exec (.setRole box) s = .next t ∧ InProgress t box 0x0002 ∧ t.gs.roleNext = some ((s.cmd box).arg 0 1) ∧
      t.chip F.sbRole = s.chip F.sbRole) ∧
  (∀ s box, Canonical s → Served s 0x0003 box → ((s.cmd box).arg 0 1 = 112 ∨ (s.cmd box).arg 0 1 = 128) →
    ∃ t, exec (.setCoreConfig box) s = .next t ∧ Answered t box Sc.ok ∧ t.boot.nextCfg = (s.cmd box).arg 0 1 ∧
      t.boot.m = modifyAt s.boot.m 3 (fun m => sha256 (m ++ (s.cmd box).digest)) ∧ t.chip F.coreConfig = s.chip F.coreConfig) ∧
  (∀ s box, Canonical s → Served s 0x0004 box → 1 ≤ (s.cmd box).arg 2 1 → (s.cmd box).arg 2 1 ≤ 97 →
    (s.cmd box).arg 0 2 / 16 < (s.cmd box).arg 2 1 →
    ∃ t, exec (.topoSet box) s = .next t ∧ Answered t box Sc.ok ∧ t.chip F.eklNodeNode = (s.cmd box).arg 0 2 ∧
      t.chip F.group = (s.cmd box).arg 0 2 / 16 ∧ t.chip F.ngroups = (s.cmd box).arg 2 1 ∧ t.chip F.mapValid = 1 ∧
      t.boot.m = modifyAt s.boot.m 3 (fun m => sha256 (m ++ (s.cmd box).digest)))

/-- The commands that drain, stop or restart the device (R397, R431, R434, R467, R480, R482). -/
def Obligations.DrainStandAndResetCommandsTakeEffect : Prop :=
  (∀ s box, let c := s.cmd box; let u := s.taken box; Served s 0x0005 box → c.arg 0 1 = 0 →
    exec (.drain box) s = .next ((if u.chip F.admDrain = 1 then ((u.setChip F.admDrain 0).refreshDrain).serviceNote 5 2
      else (u.setChip F.admDrain 0).refreshDrain).respond box c.coach Sc.ok)) ∧
  (∀ s box, let c := s.cmd box; let u := s.taken box; Served s 0x0005 box → c.arg 0 1 = 1 → u.chip F.admDrain = 0 →
    let v := ((u.setChip F.admDrain 1).refreshDrain).serviceNote 3 2
    exec (.drain box) s = .next (if v.chip F.drained = 1 then v.respond box c.coach Sc.ok else v.inProg c [v.gcount])) ∧
  (∀ s box, let c := s.cmd box; let u := s.taken box; Served s 0x0005 box → c.arg 0 1 = 1 → u.chip F.admDrain ≠ 0 →
    let v := (u.setChip F.admDrain 1).refreshDrain
    exec (.drain box) s = .next (if v.chip F.drained = 1 then v.respond box c.coach Sc.ok else v.inProg c [v.gcount])) ∧
  (∀ s box, let c := s.cmd box; let u := s.taken box; Served s 0x0006 box → u.standBusy = false → u.standInUse = false →
    exec (.standEnter box) s = .next (((State.setChip { u with pwr := { u.pwr with entry := 1 } } F.pwrStatusState 1).refreshDrain).inProg c)) ∧
  (∀ s box, let c := s.cmd box; let u := s.taken box; Served s 0x0007 box → u.standBusy = false → u.standInUse = false →
    exec (.shutdown box) s = .next ((((u.setChip F.pwrStatusState 2).refreshDrain).endLoops).inProg c)) ∧
  (∀ s box, let c := s.cmd box; let u := s.taken box; Served s 0x0008 box →
    exec (.chipReset box) s = .next ((u.respond box c.coach Sc.ok).warmTrigger 2)) ∧
  (∀ s box, let c := s.cmd box; let u := s.taken box; Served s 0x0009 box → c.arg 0 8 % 4096 = 0 → 1 ≤ c.arg 8 4 →
    c.arg 8 4 ≤ 4194304 → c.arg 12 1 ≤ 1 →
    exec (.fwHandover box) s = .next ((State.setChip { u with boot := { u.boot with
      img := c.arg 0 8, len := c.arg 8 4, port := c.arg 12 1, handStatus := Sc.ok, kept := false } } F.handover 1).inProg c))

/-- The core commands and the quotes (R405, R410, R450-R452). -/
def Obligations.CoreAndQuoteCommandsComplete : Prop :=
  (∀ s box q, let c := s.cmd box; let u := s.taken box; Served s 0x000A box → c.arg 0 1 < 144 →
    u.get (pcoreB (c.arg 0 1)) F.pcoreState = 2 → u.spareFor (c.arg 0 1) = some q →
    exec (.coreWithdraw box) s =
      .next ((((u.withdraw (c.arg 0 1) 4).settleAll.maybeCut).boundary).respond box c.coach Sc.ok [Byte.ofNat q])) ∧
  (∀ s box, let c := s.cmd box; let u := s.taken box; Served s 0x000B box → c.arg 0 1 < 144 →
    (u.get (pcoreB (c.arg 0 1)) F.pcoreState = 1 ∨ u.get (pcoreB (c.arg 0 1)) F.pcoreState = 2) →
    exec (.coreTest box) s = .next ((u.makeDue (c.arg 0 1)).inProg c [c.arg 0 1])) ∧
  (∀ s box, let c := s.cmd box; let u := s.taken box; Served s 0x000E box → 1 ≤ c.arg 32 4 → c.arg 32 4 < 512 →
    (bit (c.arg 32 4) 8 = true → u.coachState c.coach ≠ Cs.vacant) → u.boot.quotes.length < 8 →
    let q : Quote := { box := box, coach := c.coach, sel := c.arg 32 4, nonce := c.args.take 32 }
    exec (.attestQuote box) s = .next (State.inProg { u with boot := { u.boot with quotes := u.boot.quotes ++ [q] } } c)) ∧
  (∀ s q r, s.boot.quotes = q :: r → s.mpUp = true → s.inprog.any (fun x => x.box == q.box && x.op == 0x000E) = true →
    exec .quoteSigned s = .next (State.respond { s with boot := { s.boot with quotes := r } } q.box q.coach Sc.ok
      (s.quoteBody q ++ rsaSign s.boot.dkN s.boot.dkD (s.quoteBody q))))

/-- The life of a coach (R326-R331, R345). -/
def Obligations.CoachCommandsComplete : Prop :=
  (∀ s box n, let c := s.cmd box; let u := s.taken box; Served s 0x0101 box → u.coachState c.coach = Cs.vacant → c.arg 0 1 ≤ 1 →
    u.freeTable = some n →
    exec (.coachCreate box) s = .next ((u.createCoach c.coach (c.arg 0 1) n c.digest).respond box c.coach Sc.ok)) ∧
  (∀ s box, let c := s.cmd box; let u := s.taken box; Served s 0x0102 box → u.coachState c.coach = Cs.halted →
    u.coachInUse c.coach = false →
    exec (.coachDestroy box) s = .next ((u.modCoach c.coach fun x => { x with launch := none }).inProg c)) ∧
  (∀ s coach q, s.findProg 0x0102 (fun q => q.coach == coach) = some q → s.coachState coach = Cs.halted →
    s.coachInUse coach = false →
    exec (.coachDestroyDone coach) s = .next ((s.destroyCoach coach).answer q Sc.ok)) ∧
  (∀ s box, let c := s.cmd box; let u := s.taken box; Served s 0x0103 box →
    (u.coachState c.coach = Cs.halted ∨ u.coachState c.coach = Cs.running) → u.safe = false →
    exec (.coachStart box) s = .next ((u.enterCoach c.coach Cs.running).respond box c.coach Sc.ok)) ∧
  (∀ s box, let c := s.cmd box; let u := s.taken box; Served s 0x0104 box → u.coachState c.coach = Cs.halted →
    exec (.coachHalt box) s = .next ((u.modCoach c.coach fun x => { x with launch := none }).respond box c.coach Sc.ok)) ∧
  (∀ s box, let c := s.cmd box; let u := s.taken box; Served s 0x0104 box →
    (u.coachState c.coach = Cs.running ∨ u.coachState c.coach = Cs.draining) →
    let v := ((u.modCoach c.coach fun x => { x with launch := none }).enterCoach c.coach Cs.draining).inProg c
    exec (.coachHalt box) s =
      .next (if v.gs.active = false ∧ (v.coach c.coach).resetting = false then v.coachBoundary c.coach else v)) ∧
  (∀ s box, let c := s.cmd box; let u := s.taken box; Served s 0x0105 box → u.coachState c.coach ≠ Cs.vacant →
    exec (.coachReset box) s = .next (((u.cancelCoachBox c.coach box).resetCoach c.coach).inProg c))

/-- The mapping commands and the launch time (R335, R336, R360). -/
def Obligations.MappingCommandsComplete : Prop :=
  (∀ s box, let c := s.cmd box; let u := s.taken box; Served s 0x0106 box →
    u.mapBad c.coach (c.arg 0 8) (c.arg 8 8) (c.arg 16 8) = false →
    let m := mapPages u.xlate.map c.coach (c.arg 0 8 / 65536) (c.arg 16 8 / 65536) (c.arg 24 1 % 2) (c.arg 8 8 / 65536)
    tablesUsed m ≤ 16384 →
    exec (.coachMap box) s =
      .next (((u.setMap m).extendCm c.coach c.digest).respond box c.coach Sc.ok)) ∧
  (∀ s box, let c := s.cmd box; let u := s.taken box; Served s 0x0107 box → c.arg 0 8 % 65536 = 0 → c.arg 8 8 % 65536 = 0 →
    c.arg 8 8 ≠ 0 → c.arg 0 8 + c.arg 8 8 ≤ 2 ^ 48 →
    ((upFrom (c.arg 0 8 / 65536) (c.arg 8 8 / 65536)).any fun p => SMap.look 0 u.xlate.map (pageKey c.coach p) == 0) = false →
    let m := SMap.dropRange u.xlate.map (pageKey c.coach (c.arg 0 8 / 65536)) (pageKey c.coach (c.arg 0 8 / 65536 + c.arg 8 8 / 65536))
    exec (.coachUnmap box) s = .next (((u.setMap m).extendCm c.coach c.digest).inProg c)) ∧
  (∀ s box, let c := s.cmd box; let u := s.taken box; Served s 0x0108 box → u.coachState c.coach = Cs.halted → u.safe = false →
    u.gcount + 100000 ≤ c.arg 0 8 → (c.arg 8 8 = 0 ∨ (10000 ≤ c.arg 8 8 ∧ c.arg 8 8 ≤ 1000000000)) →
    (u.chip F.gcSyncRole ≠ 2 ∨ u.chip F.gcStatusState = 2) → u.launches < 64 →
    exec (.launchAt box) s = .next ((u.modCoach c.coach fun x => { x with launch := some { t := c.arg 0 8, p := c.arg 8 8 } }).respond
      box c.coach Sc.ok)) ∧
  (∀ s : State, s.gs.active = false → (s.inprog.any fun q => q.op == 0x0107) = true →
    let caches := (s.xlate.caches.map fun e => (e.1, e.2.filter fun x => SMap.look 0 s.xlate.map x.1 != 0)).filter fun e => e.2 != []
    exec .translationCachesDropped s =
      .next (State.answerAll { s with xlate := { s.xlate with caches := caches } } 0x0107 (fun _ => true) Sc.ok))

/-- The commands that lay out HBM (R206, R297, R313, R318, R319). -/
def Obligations.RegionAndPoolCommandsComplete : Prop :=
  (∀ s box pick r b, let c := s.cmd box; let u := s.taken box; Served s 0x0201 box → c.arg 4 1 ≤ 1 →
    (c.arg 4 1 = 1 → c.arg 5 1 ≤ 3) → c.arg 2 2 ≠ 0 → c.arg 0 2 + c.arg 2 2 ≤ 640 →
    (bit (c.arg 6 1) 1 && bit (c.arg 6 1) 2) = false → ((upFrom (c.arg 0 2) (c.arg 2 2)).any u.frameTaken) = false →
    u.freeRegion pick = some r →
    let quad := if c.arg 4 1 = 0 then 0 else c.arg 5 1
    let shared := c.arg 6 1 % 2
    let mir : Bool := if shared = 1 then !bit (c.arg 6 1) 1 else bit (c.arg 6 1) 2
    ((List.range 8).any fun m =>
      decide (640 < u.slotsUsed m + slotsNeeded (c.arg 4 1) quad (c.arg 2 2 * (if mir then 2 else 1)) m)) = false →
    (if mir then u.mirrorRun (c.arg 0 2) (c.arg 2 2) else some 0) = some b →
    exec (.regionSet box pick) s =
      .next (((u.fillRegion r (c.arg 4 1) quad shared (b2n mir) (c.arg 0 2) (c.arg 2 2) b).extendM 4 c.digest).respond
        box c.coach Sc.ok [Byte.ofNat r])) ∧
  (∀ s box, let c := s.cmd box; let u := s.taken box; Served s 0x0202 box → c.arg 0 1 ≤ 63 →
    u.get (regionB (c.arg 0 1)) F.regionValid ≠ 0 → u.regionInUse (c.arg 0 1) = false →
    let v := u.setWord (regionB (c.arg 0 1)) 0
    let rb := v.hbm.rebuild.filter (·.2 != c.arg 0 1)
    exec (.regionClear box) s =
      .next ((State.extendM { v with hbm := { v.hbm with rebuild := rb } } 4 c.digest).respond box c.coach Sc.ok)) ∧
  (∀ s box, let c := s.cmd box; let u := s.taken box; Served s 0x0203 box →
    let v := ((List.range 8).filter (bit (c.arg 0 1))).foldl (fun (v : State) m => v.set (mcB m) F.mcSelfref 1) u
    let w := (List.range 512).foldl (fun (v : State) p => v.set (mgnB (p / 64) (p % 64)) F.mgnDone 0) v
    let margin := w.hbm.margin ||| c.arg 0 1
    exec (.memMargin box) s = .next (State.inProg { w with hbm := { w.hbm with margin := margin } } c)) ∧
  (∀ s box, let c := s.cmd box; let u := s.taken box; let a := c.arg 0 8; let b := c.arg 8 8; let n := c.arg 16 4
    let d := c.arg 20 8; let m := c.arg 28 4
    Served s 0x0204 box → u.chip F.kvUsed = 0 → u.chip F.reserved = 0 → u.chip F.coldUsed = 0 → n ≤ 119304647 →
    u.areaOk a (4096 * n) = true → u.areaOk b (512 * n) = true → u.areaOk d (4608 * m) = true →
    areasMeet a (4096 * n) b (512 * n) = false → areasMeet a (4096 * n) d (4608 * m) = false →
    areasMeet b (512 * n) d (4608 * m) = false →
    exec (.kvPoolSet box) s = .next ((((((((((u.setChip F.kvPoolBase a).setChip F.kvSclBase b).setChip F.nPages n).setChip F.nCold m).setChip
      F.kvColdBase d).setChip F.kvFree n).setChip F.coldFree m).poolMark).extendM 4 c.digest).respond box c.coach Sc.ok)) ∧
  (∀ (s : State) eyes, s.hbm.margin ≠ 0 →
    let ms := (List.range 8).filter (bit s.hbm.margin)
    let pcs := (ms.flatMap fun m => (List.range 64).map fun p => (m, p)).zipIdx
    let v := pcs.foldl (fun (s : State) (e : (Nat × Nat) × Nat) =>
      let eye := eyes.getD e.2 (0, 0)
      let ok := 20 ≤ eye.1 % 256 && 16 ≤ eye.1 / 256 % 256 && 20 ≤ eye.2 % 256 && 16 ≤ eye.2 / 256 % 256
      s.setWord (mgnB e.1.1 e.1.2) (eye.1 % 65536 + eye.2 % 65536 * 65536 + 2 ^ 32 + b2n ok * 2 ^ 33)) s
    let w := ms.foldl (fun (s : State) m => s.set (mcB m) F.mcSelfref 0) v
    exec (.marginDone eyes) s =
      .next (State.answerAll { w with hbm := { w.hbm with margin := 0 } } 0x0203 (fun _ => true) Sc.ok))

/-- The graph commands (R248-R252, R267, R431). -/
def Obligations.GraphCommandsComplete : Prop :=
  (∀ s box id g img, let c := s.cmd box; let u := s.taken box; Served s 0x0301 box →
    u.graphImage c.isAdmin c.coach (c.arg 0 8) (c.arg 8 4) = .ok (id, g, img) →
    let v := State.memWrite { u with graphs := SMap.put none u.graphs id (some g) } (u.chip F.gsStore + g.base) img
    exec (.graphRegister box) s =
      .next ((v.extendCm g.coach (sha256 img)).respond box c.coach Sc.ok (leBytes 2 id ++ [0, 0] ++ leBytes 4 g.size))) ∧
  (∀ s box g, let c := s.cmd box; let u := s.taken box; let d := padTo 128 (c.args.drop 16); Served s 0x0302 box →
    u.updateCheck c (c.arg 0 2) (c.arg 2 2) d = .ok g →
    exec (.graphUpdate box) s = .next (((u.modGraph (c.arg 0 2) fun g => { g with
      staged := SMap.put [] g.staged (c.arg 2 2) d
      stagedPins := SMap.put [] g.stagedPins (c.arg 2 2) (u.pinList g.coach d) }).extendCm g.coach (sha256 d)).respond box c.coach Sc.ok)) ∧
  (∀ s box g, let c := s.cmd box; let u := s.taken box; Served s 0x0303 box → u.graph (c.arg 0 2) = some g →
    c.stranger g.coach = false → u.graphInUse (c.arg 0 2) = false →
    exec (.graphUnregister box) s =
      .next (State.respond { u with graphs := SMap.put none u.graphs (c.arg 0 2) none } box c.coach Sc.ok)) ∧
  (∀ s box, let c := s.cmd box; let u := s.taken box; Served s 0x0304 box → (u.graph (c.arg 0 2)).isSome = true → c.arg 2 1 = 1 →
    exec (.graphShare box) s = .next ((u.modGraph (c.arg 0 2) fun g => { g with
      shared := insertNat c.coach g.shared }).respond box c.coach Sc.ok)) ∧
  (∀ s box, let c := s.cmd box; let u := s.taken box; Served s 0x0304 box → (u.graph (c.arg 0 2)).isSome = true → c.arg 2 1 = 0 →
    ((u.slotsOf c.coach).any fun n => u.cfg n Se.graph == c.arg 0 2) = false →
    exec (.graphShare box) s = .next ((u.modGraph (c.arg 0 2) fun g => { g with
      shared := g.shared.filter (· != c.coach) }).respond box c.coach Sc.ok))

/-- The code tables and the overlays (R103, R104, R146, R147, R152, R164). -/
def Obligations.TableAndOverlayCommandsComplete : Prop :=
  (∀ s box, let c := s.cmd box; let u := s.taken box; let img := (c.args.drop 4).take 16; Served s 0x0305 box → c.arg 0 1 ≤ 15 →
    tableOk img = true → u.get (tblB (c.arg 0 1)) F.tblState ≠ Tb.loading → u.get (tblB (c.arg 0 1)) F.tblCount = 0 →
    let v := u.set (tblB (c.arg 0 1)) F.tblState Tb.loading
    let m := SMap.put {} v.tables (c.arg 0 1) { image := img, digest := c.digest }
    exec (.tableLoad box) s = .next (State.inProg { v with tables := m } c [c.arg 0 1])) ∧
  (∀ s slot, slot ≤ 15 → s.get (tblB slot) F.tblState = Tb.loading →
    let gen := if s.get (tblB slot) F.tblGen = 0xFFFF then 1 else s.get (tblB slot) F.tblGen + 1
    let v := (s.set (tblB slot) F.tblState Tb.live).set (tblB slot) F.tblGen gen
    exec (.tableLoadDone slot) s = .next ((v.extendM 5 (SMap.look {} v.tables slot).digest).answerAll 0x0305
      (fun q => q.par == [slot]) Sc.ok (leBytes 2 gen))) ∧
  (∀ s box, let c := s.cmd box; let u := s.taken box; Served s 0x0306 box → c.arg 0 1 ≤ 15 →
    u.get (tblB (c.arg 0 1)) F.tblState = Tb.live →
    let st := if u.get (tblB (c.arg 0 1)) F.tblCount = 0 then Tb.free else Tb.retiring
    exec (.tableRetire box) s =
      .next ((u.set (tblB (c.arg 0 1)) F.tblState st).respond box c.coach Sc.ok [Byte.ofNat st])) ∧
  (∀ s box pick i gid bytes, let c := s.cmd box; let u := s.taken box; let name := c.arg 0 2; Served s 0x0307 box → name ≤ 16383 →
    ((u.ovName name).owner = none ∨ (u.ovName name).owner = some c.coach) → u.oveRoom c.coach = true →
    u.freeOveAt pick = some i → u.overlayImage c.coach (c.arg 8 8) = .ok (gid, bytes) →
    exec (.overlayLoad box pick) s = .next (((u.loadOve i c.coach name (c.arg 8 8) gid).extendCm c.coach (sha256 bytes)).respond
      box c.coach Sc.ok (leBytes 2 i ++ [0, 0] ++ leBytes 4 ((u.ovName name).loads + 1)))) ∧
  (∀ s box, let c := s.cmd box; let u := s.taken box; let name := c.arg 0 2; Served s 0x0308 box → name ≤ 16383 →
    (c.isAdmin = true ∨ (u.ovName name).owner = none ∨ (u.ovName name).owner = some c.coach) → (u.ovName name).cur ≠ none →
    exec (.overlayDrop box) s = .next ((u.dropName name).respond box c.coach Sc.ok)) ∧
  (∀ s box, let c := s.cmd box; let u := s.taken box; Served s 0x0309 box → 1 ≤ c.arg 2 1 → c.arg 2 1 ≤ 60 →
    c.arg 0 2 + c.arg 2 1 ≤ 16384 →
    exec (.overlayRead box) s =
      .next (u.respond box c.coach Sc.ok ((upFrom (c.arg 0 2) (c.arg 2 1)).flatMap fun i => u.oveEntry c i)))

/-- The sequence commands (R209-R215, R223, R237). -/
def Obligations.SequenceCommandsComplete : Prop :=
  (∀ s box pick n, let c := s.cmd box; let u := s.taken box; Served s 0x0401 box → u.seqRoom c.coach = true →
    u.freeSeqAt pick = some n →
    exec (.seqOpen box pick) s = .next ((u.openSeq n c.coach).respond box c.coach Sc.ok (leBytes 2 n))) ∧
  (∀ s box, let c := s.cmd box; let u := s.taken box; Served s 0x0402 box → u.slotRefused c (c.arg 0 2) = none →
    exec (.seqCancel box) s = .next ((u.registerEnd (c.arg 0 2) Sc.cancelled).respond box c.coach Sc.ok)) ∧
  (∀ s box, let c := s.cmd box; let u := s.taken box; let n := c.arg 0 2; let tier := c.arg 2 1; Served s 0x0403 box →
    u.slotRefused c n = none → u.movable n = true → u.seq n Se.exporting ≠ 1 → c.arg 4 4 ≠ 0 →
    ((tier = 1 ∧ u.coldPromised + u.coldNeed n ≤ u.chip F.coldFree) ∨ (tier = 2 ∧ c.arg 8 8 % 4096 = 0)) →
    let mv : Move := { host := tier == 2, buf := c.arg 8 8, ttl := c.arg 4 4 }
    exec (.kvPause box) s =
      .next (State.inProg { u with sb := { u.sb with moves := SMap.put {} u.sb.moves n mv } } c [n])) ∧
  (∀ s box, let c := s.cmd box; let u := s.taken box; let n := c.arg 0 2; Served s 0x0404 box → u.slotRefused c n = none →
    u.seq n Se.tier = Tr.cold → u.seq n Se.state ≠ Ss.ending →
    (u.seq n Se.expiry = 2 ^ 64 - 1 ∨ u.gcount < u.seq n Se.expiry) → u.kvRefuse (u.seq n Se.owner) (u.coldNeed n) = 0 →
    exec (.kvResume box) s = .next ((u.startResume n).inProg c [n])) ∧
  (∀ s slot pages m, s.moveOf slot = some m → m.waiting = false → s.moveWaits slot = false → s.seq slot Se.tier = Tr.toCold →
    exec (.kvMoveDone slot pages false) s = .next (s.endPause slot m pages false)) ∧
  (∀ s slot pages m, s.moveOf slot = some m → m.waiting = false → s.moveWaits slot = false → s.seq slot Se.tier = Tr.toHot →
    exec (.kvMoveDone slot pages false) s = .next (s.endResume slot m pages))

/-- The shipment commands (R216, R217). -/
def Obligations.ShipmentCommandsComplete : Prop :=
  (∀ s box pick i, let c := s.cmd box; let u := s.taken box; let n := c.arg 0 2; Served s 0x0405 box → u.slotRefused c n = none →
    u.seq n Se.state = Ss.idle → u.movable n = true → u.seq n Se.owner = c.coach → u.kvRefuse c.coach (c.arg 4 4) = 0 →
    u.freeImport pick = some i →
    let v := u.openImport i n (c.arg 4 4) (c.arg 8 4)
    exec (.kvImportOpen box pick) s =
      .next (v.respond box c.coach Sc.ok (leBytes 8 ((SMap.look {} v.sb.imports i).ticket i) ++ leBytes 2 v.node))) ∧
  (∀ s box i x, let c := s.cmd box; let u := s.taken box; Served s 0x0406 box → u.importBy (c.arg 0 8) = some (i, x) → x.st = 1 →
    c.stranger x.coach = false →
    exec (.kvImportClose box) s = .next ((u.closeImport i).respond box c.coach Sc.ok)) ∧
  (∀ s box, let c := s.cmd box; let u := s.taken box; let n := c.arg 0 2; Served s 0x0407 box → u.slotRefused c n = none →
    u.movable n = true → u.seq n Se.state ≠ Ss.running →
    exec (.kvShip box) s = .next ((u.startExport n (c.arg 2 2) (c.arg 8 8)).respond box c.coach Sc.ok)) ∧
  (∀ s idx, (SMap.look {} s.sb.imports idx).st = 1 → (SMap.look {} s.sb.imports idx).expiry ≤ s.gcount →
    exec (.importTtlExpiry idx) s = .next (s.closeImport idx))

/-- The collectives (R389-R393). -/
def Obligations.CollectiveCommandsComplete : Prop :=
  (∀ s box pick l x, let c := s.cmd box; let u := s.taken box; let n := c.arg 4 4; let list := c.arg 24 8; Served s 0x0501 box →
    let k : Coll := { opened := true, id := c.arg 0 4, coach := c.coach, rank := c.arg 8 2, root := c.arg 10 2, op := c.arg 12 1
                      ety := c.arg 13 1, vc := c.arg 14 1, count := c.arg 16 4, src := c.arg 32 8, dst := c.arg 40 8
                      scratch := c.arg 48 8, seed := c.arg 56 8, limit := c.arg 64 4 }
    1 ≤ n → n ≤ 1552 → k.rank < n → k.root < n → k.op ≤ 2 → k.ety ≤ 2 → 3 ≤ k.vc → k.vc ≤ 5 → 1 ≤ k.count → k.count ≤ 2 ^ 24 →
    list % 2 = 0 → (k.op = 2 → n * k.count ≤ 2 ^ 32) →
    let v := u.walkRange Blk.mp c.coach list (2 * n) false
    v.coachRead Blk.mp c.coach list (2 * n) = some l → v.coachPoisoned Blk.mp c.coach list (2 * n) = false →
    let ms := (List.range n).map fun i => fieldLE l (2 * i) 2
    noRepeat ms = true → ms.getD k.rank 0 = v.node → v.freeColl pick = some x →
    exec (.collOpen box pick) s =
      .next ((v.modColl x fun _ => { k with members := ms }).respond box c.coach Sc.ok [Byte.ofNat x])) ∧
  (∀ s box, let c := s.cmd box; let u := s.taken box; let x := c.arg 0 1; let i := c.arg 4 4; let k := u.coll x; Served s 0x0502 box →
    x < 64 → k.opened = true → k.coach = c.coach → k.run = none →
    let begun (k : Coll) : Coll :=
      { k with run := some i, movedAt := u.gcount, heard := [], result := [], early := k.early.filter fun e => e.2.2.1 != i }
    let v := (u.inProg c [x]).modColl x begun
    let w := if k.op = 1 ∧ k.parent.isSome then v else (List.range k.segs).foldl (fun (s : State) j => s.collOwn x j) v
    exec (.collRun box) s = .next ((k.early.filter fun e => e.2.2.1 == i).foldl
      (fun s e => if (s.coll x).run = some i then s.collTake x e.2.1 e.2.2.2 else s) w)) ∧
  (∀ s box, let c := s.cmd box; let u := s.taken box; let x := c.arg 0 1; Served s 0x0503 box → x < 64 → (u.coll x).opened = true →
    (u.coll x).coach = c.coach → (u.coll x).run = none →
    exec (.collClose box) s = .next ((u.modColl x fun _ => {}).respond box c.coach Sc.ok)) ∧
  (∀ s port m, Arrives s port m 0x40 → exec (.collUp port m) s = .next ((s.unbuffer port m).collMsg port m)) ∧
  (∀ s port m, Arrives s port m 0x41 → exec (.collDown port m) s = .next ((s.unbuffer port m).collMsg port m)) ∧
  (∀ s port m, Arrives s port m 0x42 → exec (.collAbort port m) s = .next ((s.unbuffer port m).collMsg port m)) ∧
  (∀ s ctx, ctx < 64 → (s.coll ctx).run.isSome = true → (s.coll ctx).movedAt + 1000 * (s.coll ctx).limit ≤ s.gcount →
    exec (.collTimeout ctx) s = .next (s.collAbort ctx Sc.timeout))

/-- Requests of others and answers to the device's own (R338-R340, R370, R371). -/
def Obligations.RequestMessagesAreServed : Prop :=
  (∀ s port m, Arrives s port m 1 → s.earlierWrite port m = false → s.msgWaits m m.data.length true = false →
    let r := (s.unbuffer port m).serveWrite port m
    exec (.eklWrite port m) s = .next (r.1.reply port m 2 r.2 [])) ∧
  (∀ s port m, (s.earlierWrite port m = true ∨ s.msgWaits m m.data.length true = true) →
    exec (.eklWrite port m) s = .next (s.holdWrite port m)) ∧
  (∀ s port m, Arrives s port m 3 → s.msgWaits m (m.arg % 8192) false = false →
    let r := (s.unbuffer port m).serveRead port m
    exec (.eklRead port m) s = .next (r.1.reply port m 4 r.2.1 r.2.2)) ∧
  (∀ s port m, Arrives s port m 5 → s.msgWaits m 32 true = false →
    let r := (s.unbuffer port m).serveAdd port m
    exec (.eklAdd port m) s = .next (r.1.reply port m 6 r.2.1 (if bit m.arg 2 ∧ r.2.1 = Sc.ok then r.2.2 else []))) ∧
  (∀ s port m o, Arrives s port m 2 → (s.unbuffer port m).outstanding m = some o →
    exec (.eklWriteAck port m) s = .next (((s.unbuffer port m).settled o).writeAcked o (m.arg % 256))) ∧
  (∀ s port m o, Arrives s port m 6 → (s.unbuffer port m).outstanding m = some o →
    exec (.eklAddAck port m) s = .next ((s.unbuffer port m).settled o)) ∧
  (∀ s port m o off n, Arrives s port m 4 → (s.unbuffer port m).outstanding m = some o → o.why = .boot off n →
    exec (.eklReadData port m) s = .next (((s.unbuffer port m).settled o).bootAnswer off n (m.arg % 256) m.data)) ∧
  (∀ s port m o c t, Arrives s port m 4 → (s.unbuffer port m).outstanding m = some o → o.why = .dmaRead c t →
    exec (.eklReadData port m) s = .next (((s.unbuffer port m).settled o).answerTag c t (m.arg % 256) m.data)) ∧
  (∀ s port m o n off, Arrives s port m 4 → (s.unbuffer port m).outstanding m = some o → o.why = .coldRead n off →
    exec (.eklReadData port m) s = .next (((s.unbuffer port m).settled o).coldArrives n off (m.arg % 256) m.data))

/-- The chain messages, management and the boot grant (R84, R265, R266, R373, R441). -/
def Obligations.ChainMessagesTakeEffect : Prop :=
  (∀ s port m, Arrives s port m 0x20 →
    let r := (s.unbuffer port m).cartArrives m
    let kept := r.1.link.carts ++ [m]
    exec (.drawbar port m) s = .next (if r.2 then { r.1 with link := { r.1.link with carts := kept } } else r.1)) ∧
  (∀ s port m, Arrives s port m 0x21 → let u := s.unbuffer port m; let chain := m.addr % 65536
    let marks (u : UnitSt) : UnitSt := { u with chainDone := true }
    u.chainUnits m.coach chain m.arg ≠ [] →
    exec (.chainDone port m) s = .next ((((u.chainUnits m.coach chain m.arg).foldl (fun s k => (s.modUnit k marks).settle k)
      (u.chainDoneOn m.coach chain m.arg m.src)).maybeCut).boundary)) ∧
  (∀ s port m, Arrives s port m 0x21 → let u := s.unbuffer port m; let chain := m.addr % 65536
    let done := u.gs.chainDone ++ [(m.coach, chain, m.arg)]
    u.chainUnits m.coach chain m.arg = [] →
    exec (.chainDone port m) s = .next { u with gs := { u.gs with chainDone := done } }) ∧
  (∀ s port m, Arrives s port m 0x22 → let u := s.unbuffer port m; let chain := m.addr % 65536
    let nodes := ((u.chainUnits m.coach chain m.arg).flatMap fun k => ((u.gs.units[k]?).map u.chainNodes).getD []).eraseDups
    let sent := (nodes.filter (· != m.src)).foldl
      (fun (s : State) n => s.send { mtype := 0x22, vc := 0, dst := n, coach := m.coach, addr := chain, arg := m.arg }) u
    (sent.chainUnits m.coach chain m.arg ≠ [] → exec (.replay port m) s = .next ((sent.replayHere m.coach chain m.arg).boundary)) ∧
    (sent.chainUnits m.coach chain m.arg = [] → sent.passAhead m.coach chain m.arg = true →
      let kept := sent.gs.replays ++ [(m.coach, chain, m.arg)]
      exec (.replay port m) s = .next { sent with gs := { sent.gs with replays := kept } }) ∧
    (sent.chainUnits m.coach chain m.arg = [] → sent.passAhead m.coach chain m.arg = false → exec (.replay port m) s = .next sent)) ∧
  (∀ s port m, Arrives s port m 0x23 → let u := s.unbuffer port m; let n := bits m.addr 16 8
    let out := u.link.barOut.filterMap fun e =>
      if e.1 % 65536 = m.addr % 65536 ∧ (u.graph (e.1 / 65536)).any (fun g => g.coach == m.coach) = true then (if e.2 ≤ n then none else some (e.1, e.2 - n)) else some e
    exec (.barCredit port m) s = .next (State.pumpRemote { u with link := { u.link with barOut := out } })) ∧
  (∀ s port m, Arrives s port m 0x50 → exec (.mgmt port m) s = .next (s.unbuffer port m)) ∧
  (∀ s port m, Arrives s port m 0x50 → m.addr % 65536 = 0x0B02 → let u := s.unbuffer port m
    u.rom = Rom.request → port < 2 → 32 ≤ m.data.length → u.boot.warm = true →
    let b := { u.boot with port := port, img := m.arg, len := fieldLE m.data 0 4, hb := fieldLE m.data 8 8, hbLen := fieldLE m.data 16 4 }
    let v := State.setChip { u with boot := b } F.bootStatusPort port
    exec (.bootGrant port m) s = .next ((v.enterRom Rom.load).bootStart)) ∧
  (∀ s port m, Arrives s port m 0x50 → m.addr % 65536 = 0x0B02 → let u := s.unbuffer port m
    u.rom = Rom.request → port < 2 → 32 ≤ m.data.length → u.boot.warm = false → fieldLE m.data 8 8 ≠ 0 →
    let b := { u.boot with port := port, img := m.arg, len := fieldLE m.data 0 4, hb := fieldLE m.data 8 8, hbLen := fieldLE m.data 16 4 }
    let v := State.setChip { u with boot := b } F.bootStatusPort port
    exec (.bootGrant port m) s = .next ((v.enterRom Rom.handback).bootStart))

/-- The receiver of a shipment (R218-R221). -/
def Obligations.ShipmentMessagesTakeEffect : Prop :=
  (∀ s port m i x, Arrives s port m 0x30 → shipCartOk m.data = true → let u := s.unbuffer port m
    u.importBy m.arg = some (i, x) → x.st = 1 → u.gcount < x.expiry → (x.begun = true → x.attempt ≤ fieldLE m.data 10 1) →
    fieldLE m.data 24 4 ≤ x.left + x.landed.length → (fieldLE m.data 12 4 + 31) / 32 ≤ fieldLE m.data 20 4 →
    (fieldLE m.data 12 4 + 31) / 32 ≤ u.cfg x.slot Se.listlen →
    ((u.graph (u.cfg x.slot Se.graph)).map fun g => g.attnLayers.length) = some (fieldLE m.data 16 2) →
    let v := u.discardLanded i x
    let y := SMap.look {} v.sb.imports i
    let z : Imp := { y with begun := true, node := fieldLE m.data 8 2, attempt := fieldLE m.data 10 1, npages := fieldLE m.data 24 4
                            ntok := fieldLE m.data 12 4, listlen := fieldLE m.data 20 4 }
    exec (.shipHeader port m) s = .next ((v.setImport i z).shipReply m.coach m.src m.arg 1 Sc.ok 0)) ∧
  (∀ s port m i x, Arrives s port m 0x30 → shipCartOk m.data = true → let u := s.unbuffer port m; let k := fieldLE m.data 0 4
    u.importBy m.arg = some (i, x) → x.st = 1 → u.gcount < x.expiry → x.begun = true → k < x.npages →
    (k = x.next ∨ x.redo.contains k = true) →
    let y : Imp := { x.past k with record := some m.data }
    exec (.shipPageRecord port m) s = .next (u.setImport i y)) ∧
  (∀ s port m page i x r a, Arrives s port m 0x30 → let u := s.unbuffer port m
    u.importBy m.arg = some (i, x) → x.st = 1 → u.gcount < x.expiry → x.record = some r → m.data.length = 4608 →
    ((List.range 18).all fun j => crc32c ((m.data.drop (256 * j)).take 256) == fieldLE r (32 + 4 * j) 4) = true →
    u.recordEntry x r = some a →
    exec (.shipPageData port m page) s = .next (u.landPage i x r m.data a page)) ∧
  (∀ s port m i x, Arrives s port m 0x30 → shipCartOk m.data = true → let u := s.unbuffer port m
    u.importBy m.arg = some (i, x) → x.st = 1 → u.gcount < x.expiry → x.begun = true → fieldLE m.data 8 4 = x.npages →
    x.landed.length = x.npages → fieldLE m.data 16 8 = x.digest →
    exec (.shipTrailer port m) s = .next ((u.commitImport i x).shipReply m.coach m.src m.arg 3 Sc.ok 0))

/-- The sender of a shipment (R217-R221). -/
def Obligations.ShipmentAnswersTakeEffect : Prop :=
  (∀ s port m n e, Arrives s port m 0x31 → m.arg % 256 = 1 → let u := s.unbuffer port m; u.exportBy m = some (n, e) → e.st = 1 →
    ((u.seqPages n).any fun p => u.pagePoisoned (Pe.page p.2.2)) = false →
    let f : Exp := { e with st := 2, sentAt := ((u.seqPages n).zipIdx.foldl (fun (s : State) p => s.sendPage n e p.2 p.1) u).gcount }
    exec (.shipAccept port m) s =
      .next ((((u.seqPages n).zipIdx.foldl (fun (s : State) p => s.sendPage n e p.2 p.1) u).sendTrailer n e).setExport n f)) ∧
  (∀ s port m n e p, Arrives s port m 0x31 → m.arg % 256 = 2 → let u := s.unbuffer port m; let k := m.arg / 2 ^ 32 % 2 ^ 32
    u.exportBy m = some (n, e) → e.st = 2 → Sc.named (m.arg / 256 % 256) = Sc.integrity → e.resent.contains k = false →
    (u.seqPages n)[k]? = some p →
    let f : Exp := { e with resent := k :: e.resent, sentAt := (u.sendPage n e k p).gcount }
    (u.pagePoisoned (Pe.page p.2.2) = false →
      exec (.shipNak port m) s = .next (((u.sendPage n e k p).sendTrailer n e).setExport n f)) ∧
    (u.pagePoisoned (Pe.page p.2.2) = true → exec (.shipNak port m) s = .next (u.shipPoisoned n))) ∧
  (∀ s port m n e, Arrives s port m 0x31 → m.arg % 256 = 3 → let u := s.unbuffer port m; u.exportBy m = some (n, e) →
    let rest := u.sb.exports.filter (·.1 != n)
    exec (.shipCommit port m) s =
      .next ((State.count { u with sb := { u.sb with exports := rest } } F.shipOut).setEnding n Sc.ok)) ∧
  (∀ s port m n e, Arrives s port m 0x31 → m.arg % 256 = 4 → let u := s.unbuffer port m; u.exportBy m = some (n, e) →
    let rest := u.sb.exports.filter (·.1 != n)
    let v : State := { u with sb := { u.sb with exports := rest } }
    exec (.shipAbort port m) s = .next (v.complete n (Sc.named (m.arg / 256 % 256)) Cf.shipFailed 0 (v.seq n Se.genDone))) ∧
  (∀ s slot e, s.exportOf slot = some e → e.st ≠ 0 → e.sentAt + 10000000 ≤ s.gcount → e.losses < 2 →
    let f : Exp := { e with st := 1, attempt := e.attempt + 1, losses := e.losses + 1, resent := [], sentAt := s.gcount }
    let v := s.setExport slot f
    exec (.shipAnswerTimeout slot) s =
      .next (v.shipSend e.dest e.ticket (v.seq slot Se.owner) (v.shipHeader slot e.ticket (e.attempt + 1)))) ∧
  (∀ s slot e, s.exportOf slot = some e → e.st ≠ 0 → e.sentAt + 10000000 ≤ s.gcount → 2 ≤ e.losses →
    let r : LogRec := { cls := 10, sev := 0, cause := (Config.uncodedCause 4).toNat, unit := 9
                        coach := some (s.seq slot Se.owner), detail := leBytes 2 e.dest }
    exec (.shipAnswerTimeout slot) s = .next ((s.raise r).failExport slot Sc.timeout true))

/-- Data, IDLE and mark flits (R358, R367-R379). -/
def Obligations.FlitsAreTaken : Prop :=
  (∀ s port flit fec, let h := FlitHdr.of flit; let t := s.fecTaken port fec
    s.hears port = true → badFlit flit fec = false → h.typ = 1 → t.linkState port = Ls.up →
    (h.seq + 4096 - ((t.takeHdr port h).port port).rxSeq) % 4096 = 1 →
    exec (.dataFlit port flit fec) s = .next (((t.takeHdr port h).bump (portB port) F.portFlitsRx).modPort port
      fun q => q.accept h ((flit.drop 8).take 240))) ∧
  (∀ s port flit fec, let h := FlitHdr.of flit; let t := s.fecTaken port fec
    s.hears port = true → badFlit flit fec = false → h.typ = 1 → t.linkState port = Ls.up →
    2 ≤ (h.seq + 4096 - ((t.takeHdr port h).port port).rxSeq) % 4096 →
    (h.seq + 4096 - ((t.takeHdr port h).port port).rxSeq) % 4096 < 2048 →
    exec (.dataFlit port flit fec) s = .next ((t.takeHdr port h).modPort port fun q => { q with nak := true })) ∧
  (∀ s port flit fec, let h := FlitHdr.of flit; let t := s.fecTaken port fec
    s.hears port = true → badFlit flit fec = false → h.typ = 1 → t.linkState port = Ls.up →
    ((h.seq + 4096 - ((t.takeHdr port h).port port).rxSeq) % 4096 = 0 ∨
      2048 ≤ (h.seq + 4096 - ((t.takeHdr port h).port port).rxSeq) % 4096) →
    exec (.dataFlit port flit fec) s = .next (t.takeHdr port h)) ∧
  (∀ s port flit fec, let h := FlitHdr.of flit; let t := s.fecTaken port fec
    s.hears port = true → badFlit flit fec = false → h.typ = 0 →
    exec (.idleFlit port flit fec) s = .next (t.takeHdr port h)) ∧
  (∀ s port flit fec, let h := FlitHdr.of flit; let m := markIn flit; let u := ((s.fecTaken port fec).takeHdr port h).markTaken port m
    s.hears port = true → badFlit flit fec = false → h.typ = 2 → u.partnerOk port m.node m.port m.host = true →
    u.linkState port = Ls.training →
    exec (.markFlit port flit fec) s = .next (if (u.port port).marks ≠ 0 ∧ u.gcount ≤ (s.port port).markRx + 2000000 then u.linkUp port
      else u.modPort port fun q => { q with marks := 1 })) ∧
  (∀ s port flit fec, let h := FlitHdr.of flit; let m := markIn flit; let u := ((s.fecTaken port fec).takeHdr port h).markTaken port m
    s.hears port = true → badFlit flit fec = false → h.typ = 2 → u.partnerOk port m.node m.port m.host = true →
    u.linkState port = Ls.miswired → exec (.markFlit port flit fec) s = .next (u.train port)) ∧
  (∀ s port flit fec, let h := FlitHdr.of flit; let m := markIn flit; let u := ((s.fecTaken port fec).takeHdr port h).markTaken port m
    s.hears port = true → badFlit flit fec = false → h.typ = 2 → u.partnerOk port m.node m.port m.host = true →
    u.linkState port = Ls.up →
    let df : Int := (u.gcount : Int) - m.txg
    exec (.markFlit port flit fec) s = .next (u.syncMark port m.hops m.master ((df - m.diff).tdiv 2))) ∧
  (∀ s port flit fec, let h := FlitHdr.of flit; let m := markIn flit; let u := ((s.fecTaken port fec).takeHdr port h).markTaken port m
    s.hears port = true → badFlit flit fec = false → h.typ = 2 → u.partnerOk port m.node m.port m.host = false →
    u.linkState port = Ls.up →
    exec (.markFlit port flit fec) s = .next ((u.portFault port 0x74 2 0 0 m.node).loseLink port Ls.miswired)) ∧
  (∀ s port flit fec, s.hears port = true → badFlit flit fec = true → let v := (s.fecTaken port fec).dropFlit port
    exec (.dataFlit port flit fec) s = .next v ∧ exec (.idleFlit port flit fec) s = .next v ∧ exec (.markFlit port flit fec) s = .next v)

/-- The events of a port (R365, R375-R378, R394-R398). -/
def Obligations.PortEventsTakeEffect : Prop :=
  (∀ s port, port < 16 → s.linkState port = Ls.up → (s.port port).replay ≠ [] → (s.port port).ackAt + 4000 ≤ s.gcount →
    exec (.replayTimeout port) s = .next (s.replayPort port)) ∧
  (∀ s : State, s.gcount % 1024 = 0 → s.chip F.clkStatusSrc = 3 →
    exec .frameStart s = .next ((List.range 16).foldl (fun s p => s.portFrame p) s)) ∧
  (∀ s port, s.mayTrain port = true → exec (.lightDetect port) s = .next (s.train port)) ∧
  (∀ s port, s.mayTrain port = true → (s.port port).since + 100000000 ≤ s.gcount →
    exec (.trainingRetry port true) s = .next (s.train port) ∧
      exec (.trainingRetry port false) s = .next (s.modPort port fun q => { q with since := s.gcount })) ∧
  (∀ s port, port < 16 → s.linkState port = Ls.training → (s.port port).since + 10000000 ≤ s.gcount →
    exec (.trainingTimeout port) s = .next (s.linkDown port)) ∧
  (∀ s port lane, port < 16 → lane < 8 → s.linkState port = Ls.up →
    exec (.fecLockLoss port lane) s =
      .next ((s.retrain port).set (portB port) F.portLaneLock (setBits (s.get (portB port) F.portLaneLock) lane 1 0))) ∧
  (∀ s port ack, port < 16 → s.linkState port = Ls.retrain → s.gcount < (s.port port).since + 1000000 →
    let u := (s.enterLink port Ls.up).set (portB port) F.portLaneLock 0xFF
    let again (f : TxFlit) : TxFlit := { f with sends := 0 }
    let back (q : Port) : Port := { q.takeAck (ack % 4096) u.gcount with replay := (q.takeAck (ack % 4096) u.gcount).replay.map again }
    exec (.retrainRelock port ack) s = .next ((u.modPort port back).replayPort port)) ∧
  (∀ s port, port < 16 → s.linkState port = Ls.retrain → (s.port port).since + 1000000 ≤ s.gcount →
    exec (.retrainTimeout port) s =
      .next ((s.portFault port 0x72 2 0 0 (s.get (portB port) F.portPartner)).linkDown port)) ∧
  (∀ s port lane, port < 16 → lane < 8 → (s.linkState port = Ls.up ∨ s.linkState port = Ls.retrain) →
    exec (.lossOfSignal port lane) s =
      .next ((s.portFault port 0x75 2 0 0 (s.get (portB port) F.portPartner)).linkDown port)) ∧
  (∀ s port value, port < 16 → exec (.portDisableWrite port value) s = .next (s.writePortCtrl port value))

/-- Synchronisation, routes, presence, the end of a drain and forwarding (R359, R371, R383-R397, R418). -/
def Obligations.RoutesPresenceAndSyncTakeEffect : Prop :=
  (∀ s : State, s.chip F.gcStatusState = 2 → s.link.lastMark + 16384 ≤ s.gcount → exec .syncMarkLoss s = .next (s.setSync 3)) ∧
  (∀ s : State, s.chip F.gcStatusState = 3 → s.link.lastMark + 10000000 ≤ s.gcount →
    exec .syncHoldoverExpiry s = .next (s.setSync 0)) ∧
  (∀ s value, s.clocked = true → exec (.gcSyncWrite value) s = .next (s.writeGcSync value)) ∧
  (∀ s : State, s.mpUp = true → s.chip F.mapValid ≠ 0 →
    let v := { s with link := { s.link with rerouted := s.link.rerouted.filter s.directionDown } }
    exec .routeUpdate s =
      .next (((List.range 2048).foldl (fun (t : State) n => t.setWord (routeB n) (v.routeEntry n)) v).count F.tableUpdates)) ∧
  (∀ s oc, oc < 4 → s.awake = true → bit (s.chip F.eklOpticPresent) oc = false →
    exec (.presenceChange oc true) s = .next (s.plug oc)) ∧
  (∀ s oc, oc < 4 → s.awake = true → bit (s.chip F.eklOpticPresent) oc = true →
    exec (.presenceChange oc false) s = .next (s.unplug oc)) ∧
  (∀ s oc, let t := SMap.look 0 s.link.presentAt oc; oc < 4 → t ≠ 0 → t + 100000000 ≤ s.gcount + 1 →
    bit (s.chip F.eklOpticPresent) oc = true → s.awake = true → bit s.pwr.railsGood 5 = true →
    let at' := SMap.put 0 s.link.presentAt oc 0
    exec (.presenceSteady oc) s = .next ((upFrom (4 * oc) 4).foldl (fun s p => if s.linkState p = Ls.disabled then s else s.setLaser p 1)
      { s with link := { s.link with presentAt := at' } })) ∧
  (∀ s : State, s.drainIsDone = true →
    let v := s.setChip F.drained 1
    exec .drainComplete s = .next ((if v.chip F.svcDrain = 1 then v.serviceNote 4 1 else if v.chip F.admDrain = 1 then v.serviceNote 4 2
      else v).answerAll 0x0005 (fun _ => true) Sc.ok)) ∧
  (∀ s port m, port < 16 → m.dst ≠ s.node → msgBad m false = false → let u := s.unbuffer port m
    u.chip F.mapValid = 1 → (u.route m.src m.dst m.coach).isSome = true →
    exec (.messageForward port m) s = .next (State.forward { u with link := { u.link with transitAt := u.gcount } } m false)) ∧
  (∀ s : State, let down (s : State) (p : Nat) : State :=
      if s.linkState p = Ls.up ∨ s.linkState p = Ls.retrain then s.loseLink p Ls.down else s.linkDown p
    let v := (List.range 16).foldl (fun s p => (down s p).setLaser p 0) s
    exec .portSwitchParityFailure s = .next { v with gs := { v.gs with held := true } })

/-- Interrupts to hosts (R341, R343, R344, R394). -/
def Obligations.InterruptsAreSentAndResent : Prop :=
  (∀ s port, let t := SMap.look 0 s.link.hostLost port; t ≠ 0 → t + 1000000000 ≤ s.gcount + 1 → s.linkState port ≠ Ls.up →
    let kept := s.link.out.filter (fun o => !(o.lost && o.port == port))
    let lost := SMap.put 0 s.link.hostLost port 0
    let gone := s.link.out.filter fun o => o.lost && o.port == port
    exec (.hostWriteGiveup port) s =
      .next (gone.foldl (fun s o => s.writeGone o) (State.forgetEvents { s with link := { s.link with out := kept, hostLost := lost } } gone))) ∧
  (∀ s tag o, s.link.out.find? (fun o => o.tag == tag && o.msg.vc == 0) = some o → o.at_ + 1000000 ≤ s.gcount →
    let stamped := s.link.out.map fun (x : OutReq) => if x.tag = tag then { x with at_ := s.gcount } else x
    exec (.interruptFrameResend tag) s = .next (State.enqueue { s with link := { s.link with out := stamped } } o.port o.msg)) ∧
  (∀ s vec, exec (.interruptCoalTimeout vec) s = .next (s.trySend vec false)) ∧
  (∀ s vec value, vec < 16392 → exec (.vcfgWrite vec value) s = .next (s.writeVcfg vec value))

/-- What coaches write into their entries, and the SB's timers (R205, R213, R222-R240, R345). -/
def Obligations.EntryWritesAndTimersTakeEffect : Prop :=
  (∀ s coach slot word, s.seqTable = true → slot < 8192 → s.seq slot Se.state ≠ Ss.free → s.seq slot Se.owner = coach →
    exec (.seqInputWrite coach slot word) s = .next ((s.memWrite (s.seqB slot + 32) (leBytes 8 word)).inputWritten slot)) ∧
  (∀ s coach slot, s.seqTable = true → slot < 8192 → s.seq slot Se.state ≠ Ss.free → s.seq slot Se.owner = coach →
    exec (.seqCancelBit coach slot) s = .next ((s.memWrite (s.seqB slot + 64) (leBytes 4 1)).ctrlWritten slot)) ∧
  (∀ s coach slot, s.seqTable = true → slot < 8192 → s.seq slot Se.state ≠ Ss.free → s.seq slot Se.owner = coach →
    exec (.seqCloseBit coach slot) s = .next ((s.memWrite (s.seqB slot + 64) (leBytes 4 2)).ctrlWritten slot)) ∧
  (∀ s slot, s.sb.ready.contains slot = true → SMap.look [] s.sb.staged slot = [] → s.sb.staged.length < 2048 →
    let copies := SMap.put [] s.sb.staged slot (s.memRead (s.seqB slot) 256)
    exec (.seqEntryStaged slot) s = .next { s with sb := { s.sb with staged := copies } }) ∧
  (∀ s : State, exec .deadlineCheck s =
    .next ((s.liveSlots.filter fun n => !s.gs.active || s.seq n Se.state == Ss.running).foldl (fun s n => s.checkDeadline n) s)) ∧
  (∀ s slot, s.seq slot Se.deadline ≠ 0 → s.seq slot Se.deadline ≤ s.gcount →
    exec (.deadlineExpiry slot) s = .next (s.registerEnd slot Sc.deadline)) ∧
  (∀ s slot, s.seq slot Se.tier = Tr.cold → s.seq slot Se.state ≠ Ss.free → s.seq slot Se.expiry ≠ 2 ^ 64 - 1 →
    s.seq slot Se.expiry ≤ s.gcount →
    exec (.kvTtlExpiry slot) s = .next ((s.count F.ttlExpired).endSeq slot Sc.timeout 0)) ∧
  (∀ s : State, s.gs.active = false → s.log.hold = false →
    let u := s.liveSlots.foldl (fun s n => (s.checkDeadline n).checkTtl n) s
    let v := ((u.freeEnding).flushLate).startPauses
    exec .sbIdleTimer s = .next (v.liveCoaches.foldl (fun s c => s.coachBoundary c) v))

/-- Steps, units, completions and launches (R229-R260, R354, R360, R361). -/
def Obligations.StepsAreBuiltAndDispatched : Prop :=
  (∀ s pages w cs, s.log.hold = false → s.gs.cut = some cs → s.gs.active = true → (s.buildManifest cs pages).2 ≠ [] →
    exec (.manifestReady pages w) s = .next ((s.buildManifest cs pages).1.post (s.buildManifest cs pages).2)) ∧
  (∀ s pages w, s.log.hold = false → s.gs.cut = none → s.gs.active = false → s.seqTable = true → s.candidates ≠ [] →
    let r := s.takeCut.buildManifest (s.takeCut.gs.cut.getD []) pages
    r.2 ≠ [] → exec (.manifestReady pages w) s = .next (r.1.post r.2)) ∧
  (∀ s w k u g, s.gs.active = true → s.safe = false → s.gs.held = false → s.log.hold = false → s.scanned = false →
    s.pwr.holding = false → s.nextUnit = some k → s.gs.units[k]? = some u → s.graph u.graph = some g →
    (s.unitVoid u = true →
      exec (.gsDispatchUnit w) s = .next (((s.count F.voided u.members.length).completeUnit k).maybeCut.boundary)) ∧
    (s.unitVoid u = false → u.members.all (fun i => Ca.kind (g.carrs.getD i []) == Kd.nop) = true →
      exec (.gsDispatchUnit w) s = .next ((s.completeUnit k).maybeCut.boundary)) ∧
    (s.unitVoid u = false → u.members.all (fun i => Ca.kind (g.carrs.getD i []) == Kd.nop) = false →
      let rest := if u.st = 0 then u.members else u.unsent
      (∃ i r, rest = i :: r ∧ s.memberReady u g.coach i = true) →
      let t := s.sendMembers k g rest
      let v := (t.count F.cycNocredit w).modUnit k fun x => { x with st := 1, chainDone := false }
      let more : Bool := (t.gs.units[k]?).any fun x => x.unsent != []
      let gs := { v.gs with cur := if more = true then k + 1 else 0 }
      exec (.gsDispatchUnit w) s = .next (State.maybeCut { v with gs := gs }))) ∧
  (∀ s : State, s.gs.active = true → s.strictTime = true → s.gs.quantum + 64 ≤ s.gcount →
    let at' := s.gs.boundary + (s.gcount - s.gs.boundary) / 64 * 64
    exec .quantumStart s = .next { s.takeQuantum with gs := { s.takeQuantum.gs with quantum := at' } }) ∧
  (∀ s c r k u, s.gs.complQ = c :: r →
    let w := s.qAwait (Qk.completion c.core) ((c :: r).filter fun x => x.core == c.core).length
    let v := State.complBack { w with gs := { w.gs with complQ := r } } c.core
    v.unitOf c.graph c.index = some k → v.gs.units[k]? = some u → c.step = v.gs.step → c.attempt = u.attempt →
    u.out.contains c.index = true →
    exec .carriageCompletionRx s =
      .next (((v.dropMember c.graph c.index).takeCompletion k c).withdrawals.settleAll.maybeCut.boundary)) ∧
  (∀ s core k, s.gs.endQ.findIdx? (fun e => e.1 == core) = some k → let e := s.gs.endQ.getD k (0, 0, 0, 0)
    let rest := dropAt s.gs.endQ k
    exec (.carriageEndRx core) s =
      .next (State.endOrdered { s with gs := { s.gs with endQ := rest } } core e.2.1 e.2.2.1 e.2.2.2)) ∧
  (∀ s coach l, (s.coach coach).launch = some l → l.started = false → l.t ≤ s.gcount → s.coachState coach = Cs.halted → s.safe = false →
    let next := if l.p = 0 then none else some { l with started := true }
    exec (.launchTime coach) s = .next ((s.enterCoach coach Cs.running).modCoach coach fun x => { x with launch := next })) ∧
  (∀ s coach l, (s.coach coach).launch = some l → l.started = true → l.p ≠ 0 → l.t + l.k * l.p ≤ s.gcount → l.snap = [] →
    let next : Launch := { l with k := l.k + 1, snap := (s.slotsOf coach).filter s.candidate }
    exec (.launchWindow coach) s = .next (s.modCoach coach fun x => { x with launch := some next }))

/-- Audits, field tests, recoveries and stack loss (R408-R418, R500-R507). -/
def Obligations.AuditsAndFieldTestsTakeEffect : Prop :=
  (∀ s : State, s.rom = Rom.running → s.clocked = true → s.scanned = false → s.ledger.lastAt + 1000000 ≤ s.gcount →
    exec .ledgerAuditTimer s = .next s.ledgerTrigger) ∧
  (∀ s found, s.ledger.running = true →
    let u := (found.filter fun f => f.observed == f.expected && decide (f.cls < 7)).foldl (fun (s : State) f => s.voidClass f.cls) s
    let vs := u.violations found
    let v : State := { u with ledger := { u.ledger with running := false, again := false, snap := [] } }
    let w := vs.foldl (fun (s : State) v => (s.count F.mismatches).capture 0x3408 v.word)
      ((v.setChip F.ledgerStatusBusy 0).count F.audits)
    let x := ((vs.filter fun v => v.owner != 0).foldl (fun (s : State) v => s.coachViolation v) w).chipViolations
      (vs.filter fun v => v.owner == 0)
    exec (.ledgerEvalDone found) s = .next (if u.ledger.again then x.ledgerTrigger else x)) ∧
  (∀ s core, core < 144 → s.chip F.ftCtrlEn ≠ 0 → s.clocked = true → (s.core core).due = none →
    (s.get (pcoreB core) F.pcoreState = 1 ∨ s.get (pcoreB core) F.pcoreState = 2) → (s.core core).lastTest + s.ftPeriod ≤ s.gcount →
    exec (.ftDue core) s = .next (s.makeDue core)) ∧
  (∀ s core, core < 144 → s.testsRun = true → s.chip F.ftStatusTesting = 0xFF → s.testable core = true →
    (∀ q < 144, s.testable q = true → 256 * (s.core core).due.getD 0 + core ≤ 256 * (s.core q).due.getD 0 + q) →
    let u := s.setChip F.ftStatusTesting core
    let v := if u.get (pcoreB core) F.pcoreState = 2 then u.set (pcoreB core) F.pcoreState 3 else u
    exec (.ftTestStart core) s = .next (v.modCore core fun x => { x with testAt := some v.gcount })) ∧
  (∀ s core t, core < 144 → (s.core core).due = some t → t + 100000000 ≤ s.gcount → s.get (pcoreB core) F.pcoreState = 2 →
    s.get (pcoreB core) F.pcoreDeferred ≠ 1 → s.testsRun = true →
    exec (.ftDefer core) s = .next ((s.set (pcoreB core) F.pcoreDeferred 1).count F.ftForced)) ∧
  (∀ s core passed t, (s.core core).testAt = some t → s.chip F.ftStatusTesting = core → t + 1500000 ≤ s.gcount →
    let b := pcoreB core
    let u := (s.setChip F.ftStatusTesting 0xFF).set b F.pcoreDeferred 0
    let v := if u.get b F.pcoreState = 3 then u.set b F.pcoreState 2 else u
    let w := (v.modCore core fun x => { x with due := none, testAt := none, lastTest := t }).answerAll 0x000B
      (fun q => q.par == [core]) Sc.ok [if passed then 1 else 0]
    exec (.ftTestDone core passed) s = .next (if passed then (w.set b F.pcoreLastTest (t / 2 ^ 30)).count F.ftPass
      else (((w.count F.ftFail).withdraw core 3).settleAll.maybeCut).boundary)) ∧
  (∀ s c r, s.log.cur = c :: r → exec .recoveryDone s = .next (State.seqResume { s with log := { s.log with cur := r } })) ∧
  (∀ s stack, stack < 8 → s.trained stack = true →
    let r : LogRec := { cls := 7, sev := 2, cause := (Config.uncodedCause 0).toNat, unit := 8, inst := stack }
    exec (.stackTrainingLoss stack) s = .next ((s.set (mcB stack) F.mcTrained 0).raise r))

/-- The task dispatcher (R261, R262, R269). -/
def Obligations.CarriagesAreAcceptedIssuedAndRetired : Prop :=
  (∀ s core poisoned t rest, (s.core core).disp = t :: rest → (s.core core).cleared = true → (s.core core).td.length < 32 →
    s.log.hold = false →
    let u := if (s.core core).td = [] then s.bump (tdB core) F.tdCycIdle (s.gcount - (s.core core).emptyAt) else s
    let layer := ((u.graph t.graph).map fun g => g.layers.getD (Ca.layer t.carr) []).getD []
    let pins := ((u.graph t.graph).map fun g => SMap.look [] g.pins (Ca.layer t.carr)).getD []
    let t' : TdItem := { t with layer := layer, pins := pins }
    let v := (u.qAwait (Qk.dispatch core) (rest.length + 1)).modCore core fun c => { c with disp := rest, td := c.td ++ [t'] }
    exec (.tdDispatchRx core poisoned) s =
      .next (v.work core (s.core core).td.length (acceptWork core (s.core core).td.length t' poisoned))) ∧
  (∀ s core idx found t, s.item core idx = some t → s.turn core idx = true →
    exec (.carriageIssue core idx found) s =
      .next ((((s.meet core found).lateMasks t).work core idx (issueWork core idx t found)).stageCarts core)) ∧
  (∀ s core idx t, s.item core idx = some t → s.finished core t = true →
    exec (.carriageComplete core idx) s =
      .next ((((s.bump (tdB core) F.tdCarriages).sendChainDone t).stopEngines core t).retireItem core idx t Sc.ok 0)) ∧
  (∀ s core idx t, s.item core idx = some t → t.start ≠ 0 → t.start + 50000000 ≤ s.gcount + 1 →
    exec (.carriageWatchdog core idx) s =
      .next (((s.count F.watchdog).bump (tdB core) F.tdWdFired).faultItem core idx (tdFlt core 0x41 t)))

/-- The ternary engines (R70-R78, R136). -/
def Obligations.TernaryEnginesTakeEffect : Prop :=
  (∀ s core te y, (s.te core te).shadow = some y →
    let used (a : Tile) : Bool := (s.core core).td.any fun t => t.key + 1 == a.carr && t.todo.any fun z => z.load == some a.load
    (s.te core te).active.any used = false →
    exec (.tileSwap core te) s =
      .next (((s.modTe core te fun z => { z with active := some y, shadow := none, compact := false }).qLeave (Qk.tile core te)).bump
        (teB core te) F.teTiles)) ∧
  (∀ s core te t, (s.core core).td.find? (fun t => engineOf t.carr == te && Ca.isTe t.carr && t.todo != []) = some t →
    let waits (a : AccSet) : Bool := a.st != 0 && a.fmt != t.tag
    (s.te core te).fmt ≠ 0 → (s.te core te).fmt ≠ t.tag → waits (s.te core te).setA = false → waits (s.te core te).setB = false →
    exec (.teFormatBarrierEnd core te) s = .next ((s.modTe core te fun y => { y with fmt := t.tag }).bump (qB core) F.qFmtBarriers)) ∧
  (∀ s core te, (s.te core te).setA.st = 1 → (s.te core te).setA.full = true →
    let x := s.te core te
    exec (.setReady core te) s = .next ((s.modSet core te 0 fun a => { a with st := 2, readyNo := x.readyCount }).modTe core te
      fun y => { y with readyCount := y.readyCount + 1, compact := false })) ∧
  (∀ s core te, ((s.te core te).setA.st ≠ 1 ∨ (s.te core te).setA.full = false) → (s.te core te).setB.st = 1 →
    (s.te core te).setB.full = true →
    let x := s.te core te
    exec (.setReady core te) s = .next ((s.modSet core te 1 fun a => { a with st := 2, readyNo := x.readyCount }).modTe core te
      fun y => { y with readyCount := y.readyCount + 1, compact := false })) ∧
  (∀ s core te found n i t, (s.te core te).draining = none →
    ((n = 0 ∧ (s.te core te).setA.st = 2 ∧ ((s.te core te).setB.st ≠ 2 ∨ (s.te core te).setA.readyNo ≤ (s.te core te).setB.readyNo)) ∨
      (n = 1 ∧ (s.te core te).setB.st = 2 ∧ ((s.te core te).setA.st ≠ 2 ∨ (s.te core te).setB.readyNo < (s.te core te).setA.readyNo))) →
    let a := (s.te core te).set n
    s.itemOf core a.carr = some (i, t) →
    let u := ((s.meet core found).modSet core te n fun a => { a with st := 3 }).bump (teB core te) F.teCycBstall found.barWait
    let v := if found.cause = 2 ∨ found.cause = 4 then
      u.modSet core te n fun a => a.upset found.row found.col found.cause false else u
    exec (.setDrainStart core te found) s =
      .next (v.work core i (do
        tePort core te t found n (found.row % 64) false
        let s ← get
        let a := (s.te core te).set n
        if a.stage ≠ 0 ∨ Ca.lenm1 t.carr = 0 then
          a.rows.forM fun r => do
            enterRow core te n t a r
            finishRow core i t a r
          modify fun s => s.modSet core te n fun a => { a with sent := 4 * a.rows.length }
        else if Ca.pos t.carr = 0 then modify fun s => s.pump core te 8))) ∧
  (∀ s core te n, (s.te core te).draining = some n → 4 * ((s.te core te).set n).rows.length ≤ ((s.te core te).set n).sent →
    exec (.setDrainDone core te) s = .next (s.modSet core te n fun _ => {})) ∧
  (∀ s core te found n i t c cs, (s.te core te).draining = some n → let a := (s.te core te).set n
    s.itemOf core a.carr = some (i, t) →
    let mine := s.fed core t
    let last := Ca.pos t.carr == Ca.lenm1 t.carr
    mine = c :: cs → a.stage = 0 → Ca.pos t.carr ≠ 0 → a.sent < 4 * a.rows.length → (a.sent % 4 = 0 → 4 ≤ mine.length) →
    (last = false → s.linkRoom core t = true) → (found.cause < 2 ∨ 5 < found.cause) →
    let u := (s.meet core found).bump (teB core te) F.teCycBstall found.barWait
    let v := if c.src = 0 then u
      else u.qAwait (Qk.drawbar (c.src - 1) (engineNo core te)) (if a.sent % 4 = 0 then mine.length - 3 else mine.length)
    let w := v.modTe core te fun x => { x with link := x.link.erase c }
    let run : Eng Unit := do
      if last then tePort core te t found n (found.row % 64) false
      takeCart core te n i t c
    (∀ x, run w = .ok () x → exec (.drawbarCartRx core te found) s = .next (x.cartCredit core te c)) ∧
    (∀ f x, run w = .error f x →
      exec (.drawbarCartRx core te found) s = .next ((x.faultItem core i f c.src).cartCredit core te c)) ∧
    (last = false → c.check t ((w.te core te).set n) = 0 → ((w.te core te).set n).sent % 4 ≠ 0 → ∃ x, addCart core te n c w = .ok () x ∧
      let b := (x.te core te).set n
      exec (.drawbarCartRx core te found) s = .next (((x.sendCart core t (b.cart t (x.te core te).dsr b.sent (engineNo core te + 1))).modSet
        core te n fun a => { a with sent := a.sent + 1 }).cartCredit core te c)))

/-- Expanders, gather engines and the merge unit (R71, R111, R157, R183, R184). -/
def Obligations.ExpandersAndReadersTakeEffect : Prop :=
  (∀ s core (x : UnitAt) idx t ld, s.item core idx = some t → t.loads[t.begun]? = some ld → Ca.isTe t.carr = true → Ca.te t.carr = x.no → x.no < 4 →
    ((s.core core).td.take idx).any (fun u => Ca.isTe u.carr && Ca.te u.carr == x.no && decide (u.begun < u.loads.length)) = false →
    (s.xe core x.no).carr = 0 → (s.te core x.no).shadow.isSome = false → s.qRoom (Qk.tile core x.no) = true →
    (ld.staged = none → 8 ≤ s.descRoom core) →
    exec (.xeTileStart core x idx) s =
      .next (((s.meet core x.found).issued core idx).work core idx (beginTile core x.no idx t ld))) ∧
  (∀ s core (v : UnitAt) stall i t b raw, let x := s.xe core v.no; let y := x.blocks.getD b {}
    s.itemOf core x.carr = some (i, t) → x.blocks.findIdx? (fun z => z.st != 3) = some b → y.st = 2 →
    expand y.entry y.payload (SMap.look {} s.tables (Ie.slot y.entry)).image = .ok raw → crc32c y.payload = Ie.crc y.entry →
    let u := s.bump (spmB core) F.spmCycYield v.found.yield
    exec (.xeBlockDone core v stall) s = .next (u.work core i (do
      readPayload core t v.found
      modify fun s => s.passBlock core v.no b stall y raw))) ∧
  (∀ s core (v : UnitAt) stall i t b k f, let x := s.xe core v.no; let y := x.blocks.getD b {}
    s.itemOf core x.carr = some (i, t) → x.blocks.findIdx? (fun z => z.st != 3) = some b → y.st = 2 →
    expand y.entry y.payload (SMap.look {} s.tables (Ie.slot y.entry)).image = .error (k, f) →
    let u := s.bump (spmB core) F.spmCycYield v.found.yield
    exec (.xeBlockDone core v stall) s = .next (u.work core i (do
      readPayload core t v.found
      failBlock core v.no t x b y k f v.found.tileWait))) ∧
  (∀ s core (v : UnitAt) stall i t b raw, let x := s.xe core v.no; let y := x.blocks.getD b {}
    s.itemOf core x.carr = some (i, t) → x.blocks.findIdx? (fun z => z.st != 3) = some b → y.st = 2 →
    expand y.entry y.payload (SMap.look {} s.tables (Ie.slot y.entry)).image = .ok raw → crc32c y.payload ≠ Ie.crc y.entry →
    let u := s.bump (spmB core) F.spmCycYield v.found.yield
    exec (.xeBlockDone core v stall) s = .next (u.work core i (do
      readPayload core t v.found
      failBlock core v.no t x b y 0x11 0 v.found.tileWait))) ∧
  (∀ s (x : UnitAt) idx ove tile t g, s.item x.no idx = some t →
    (s.core x.no).ge.find? (fun g => g.carr == t.key + 1 && g.ove == ove && g.tile == tile) = some g → g.carts.length < g.ncart →
    g.carts.length < g.asked → s.descRoom x.no ≠ 0 → s.cartLanded x.no t ove (g.ptr + 256 * g.carts.length) = true →
    exec (.geCartRead x idx ove tile) s = .next ((s.meet x.no x.found).work x.no idx (readCart x.no t g))) ∧
  (∀ s core found c rest i t, (s.core core).pcarts = c :: rest → let u := s.meet core found
    let fits (t : TdItem) : Bool := Ca.isLe t.carr && t.graph == c.graph && Ca.chain t.carr == c.mid && t.step == c.step
      && t.attempt == c.attempt
    ((u.core core).td.findIdx? fun t => fits t && Ca.kind t.carr == Kd.merge).orElse (fun _ => (u.core core).td.findIdx? fits) = some i →
    u.item core i = some t → found.port ≠ 1 → found.cause ≠ 0x33 → u.partialOk core t c = true →
    let v := ((u.qAwait (Qk.partials core) (rest.length + 1)).qLeave (Qk.partials core)).modCore core fun x => { x with pcarts := rest }
    exec (.partialCartRx core found) s = .next (v.landHalf core t c)) ∧
  (∀ s core idx pick t x, s.item core idx = some t → (s.mergeOf core t).parts[pick]? = some x → Ca.isLe t.carr = true →
    s.mayFold (s.mergeOf core t) pick x = true →
    exec (.mergeFold core idx pick) s = .next (s.work core idx (foldOne core idx t (s.mergeOf core t) pick x)))

/-- The DMA engine and the scratchpad (R278-R290). -/
def Obligations.DmaAndScratchpadTakeEffect : Prop :=
  (∀ s (x : UnitAt) w1 w2 d rest, (s.core x.no).dmaQ = d :: rest → (d.op = 2 ∨ d.op = 3 ∨ (s.core x.no).tags.length < 64) →
    let u := (((s.meet x.no x.found).bump (dmaB x.no) F.dmaCycNotag w1).bump (dmaB x.no) F.dmaCycNocred w2).modCore x.no fun c =>
      { c with dmaQ := rest }
    (u.descItem x.no d = none → exec (.dmaDescriptorIssue x w1 w2) s = .next u) ∧
    (∀ i t, u.descItem x.no d = some (i, t) →
      exec (.dmaDescriptorIssue x w1 w2) s = .next ((u.work x.no i (issueDesc x.no i t d)).stageCarts x.no))) ∧
  (∀ s core tag e data, (s.core core).tags.find? (·.1 == tag) = some e → e.2.answer = some (Sc.ok, data) → e.2.desc.op ≠ 1 →
    data ≠ [] →
    let d := e.2.desc
    let u := ((s.modCore core fun c => { c with tags := c.tags.filter fun x => x.1 != tag }).qLeave (Qk.response core)
      (cartsOf data.length)).bump (dmaB core) F.dmaBytesIn data.length
    let v := (u.landChunk core d e.2.off data []).descDone core d
    (∀ i t, u.descItem core d = some (i, t) → chunkFlt core t d Sc.ok (v.xe core d.te).load = none →
      exec (.dmaChunkDone core tag) s = .next v) ∧
    (u.descItem core d = none → (d.op ≠ 4 ∨ 4 ≤ d.te) → exec (.dmaChunkDone core tag) s = .next v) ∧
    (u.descItem core d = none → d.op = 4 → d.te < 4 → exec (.dmaChunkDone core tag) s = .next (u.descDone core d))) ∧
  (∀ s core tag e data, (s.core core).tags.find? (·.1 == tag) = some e → e.2.answer = some (Sc.ok, data) → e.2.desc.op = 1 →
    let u := (s.modCore core fun c => { c with tags := c.tags.filter fun x => x.1 != tag }).bump (dmaB core) F.dmaBytesOut e.2.len
    let v := u.descDone core e.2.desc
    (∀ i t, u.descItem core e.2.desc = some (i, t) → chunkFlt core t e.2.desc Sc.ok (v.xe core e.2.desc.te).load = none →
      exec (.dmaChunkDone core tag) s = .next v) ∧
    (u.descItem core e.2.desc = none → exec (.dmaChunkDone core tag) s = .next v)) ∧
  (∀ s core c rest, (s.core core).nbr = c :: rest →
    let k := Qk.neighbour c.src core
    let n := ((s.core core).nbr.filter fun x => x.src == c.src).length
    let u := ((s.qAwait k n).modCore core fun x => { x with nbr := rest }).spmWrite core c.coach c.off c.data
    exec (.nbrWriteRx core) s = .next (((u.bump (dmaB core) F.dmaNbrIn).qLeave k).nbrPump c.src core)) ∧
  (∀ s core bank errs, core < 144 → bank < 32 → (s.core core).cleared = true →
    exec (.scrubRow core bank errs) s = .next (s.scrub core bank errs) ∧
      exec (.scrubForce core bank errs) s = .next (((s.scrub core bank errs).modCore core fun c =>
        { c with forced := c.forced + 1 }).bump (spmB core) F.spmCycScrubforce)) ∧
  (∀ s core, core < 144 → (s.core core).cleared = false →
    exec (.spmClearDone core) s = .next ((s.clearSpm core).modCore core fun c => { c with cleared := true }))

/-- The memory controllers and the translation (R303-R320, R332, R336). -/
def Obligations.MemoryRequestsAreServed : Prop :=
  (∀ s core tag found e, (s.core core).tags.find? (·.1 == tag) = some e → e.2.answer = none → e.2.desc.aspace ≠ 2 →
    (e.2.pieces.any fun x => s.rangeHeld x.1 x.2) = false → let k := s.qosOf e.2.desc.coach
    (e.2.pieces.any fun x => (s.unmapped x.1 x.2).isNone && !s.mayStartAll x.1 x.2 k) = false →
    let put (s : State) (t : Tag) : State := s.modCore core fun x =>
      { x with tags := x.tags.map fun (y : Nat × Tag) => if y.1 = tag then (tag, t) else y }
    let a := (e.2.pieces.headD (0, 0)).1
    let u := s.countHeld a found.held
    let slots (s : State) : State := e.2.pieces.foldl (fun s x => s.bulkSlots x.1 x.2) s
    (e.2.desc.op = 1 →
      let r := (u.bulkAccepted core e.2.pieces true).writePieces k e.2.data e.2.bad e.2.pieces
      let t : Tag := { e.2 with answer := some (r.2, []) }
      exec (.mcBulkRequest core tag found) s = .next (slots (put r.1 t))) ∧
    (e.2.desc.op ≠ 1 →
      let r := (u.bulkAccepted core e.2.pieces false).readPieces k found e.2.pieces
      let t : Tag := { e.2 with answer := some (r.2.status, r.2.data), bad := r.2.bad }
      let v := put r.1 t
      exec (.mcBulkRequest core tag found) s = .next (slots ((List.range (cartsOf r.2.data.length)).foldl (fun (s : State) _ =>
        s.qSend (Qk.response core) Ch.bulkResp (End.near core (.mc (s.place a).1)) (End.core core)) v)))) ∧
  (∀ s req found, s.rangeHeld req.addr 1 = false → let x := s.place (req.addr / 32 * 32)
    let key := 64 * x.1 + x.2
    (s.hbm.fineQ.countP fun e => e.1 == key) < 8 → s.qRoom (fineQueue x.1) = true →
    let fineQ := s.hbm.fineQ ++ [(key, req, found)]
    let u := State.qPut { s with hbm := { s.hbm with fineQ := fineQ } } (fineQueue x.1)
    exec (.mcFineRequest req found) s = .next (u.finePump x.1 x.2 8) ∧
    (s.bulkWaits x.1 x.2 = false → exec (.mcFineRequest req found) s = .next ((u.fineServe x.1 x.2).finePump x.1 x.2 7))) ∧
  (∀ s req found, s.rangeHeld req.addr 1 = false → exec (.mcAddRequest req found) s = .next (s.mcAdd req found).1) ∧
  (∀ s mc pc addr found, mc < 8 → pc < 64 → s.trained mc = true → s.get (mcB mc) F.mcSelfref ≠ 1 → s.stackHeld mc = false →
    let n := SMap.look 0 s.hbm.patrol (64 * mc + pc) + 1
    let wrap := decide (20971520 ≤ n)
    let b := s.bump (mcB mc) F.mcScrubLines
    let patrol := SMap.put 0 b.hbm.patrol (64 * mc + pc) (if wrap then 0 else n)
    let corrected := if wrap then SMap.dropRange b.hbm.corrected (rowKey mc pc 0) (rowKey mc (pc + 1) 0) else b.hbm.corrected
    let u : State := { b with hbm := { b.hbm with patrol := patrol, corrected := corrected } }
    let l := addr / 64
    let copy := u.hasMirror (64 * l) && (u.mirrorStack (64 * l), (u.place (64 * l)).2) == (mc, pc)
    let primary := (u.regionAt (64 * l)).isSome && u.place (64 * l) == (mc, pc)
    let v := if primary then (u.readLine l found).1 else u.patrolOther mc pc l copy found
    exec (.patrolLine mc pc addr found) s = .next
      (if (primary || copy) = true ∧ v.hasMirror (64 * l) = true ∧ v.lineBad l = 2 ∧ v.trained (v.mirrorStack (64 * l)) = true then
        v.queueRebuild l else v)) ∧
  (∀ s region, (region ≠ 0 ∨ (s.syncDone region).rom ≠ Rom.start) → exec (.mirrorSyncDone region) s = .next (s.syncDone region)) ∧
  (∀ s l r rest, s.hbm.rebuild = (l, r) :: rest →
    let bad := if s.lineBad l = 3 then s.hbm.bad else SMap.put 0 s.hbm.bad l 0
    let u := State.drop { s with hbm := { s.hbm with rebuild := rest, bad := bad } } (regionB r) F.regionRebuilds
    exec .mirrorRebuild s = .next (if u.get (regionB r) F.regionMstate = 3 ∧ u.get (regionB r) F.regionRebuilds = 0
      then u.set (regionB r) F.regionMstate 2 else u)) ∧
  (∀ s : State, let n := s.chip F.pmInterval; n ≠ 0 → s.hbm.pmStart + n ≤ s.gcount →
    let dp := (s.xeSum F.xePayloadBytes + 2 ^ 64 - s.hbm.pmPayload0) % 2 ^ 64
    let dt := (s.xeSum F.xeTritsOut + 2 ^ 64 - s.hbm.pmTrits0) % 2 ^ 64
    let u := ((((s.setChip F.pmPayload dp).setChip F.pmTrits dt).setChip F.pmNs n).setChip F.pmEff (dp * 65536 * 10 / (196608 * n))).setChip
      F.pmEnd (s.hbm.pmStart + n)
    let p0 := s.xeSum F.xePayloadBytes
    let t0 := s.xeSum F.xeTritsOut
    exec .pmIntervalEnd s =
      .next { u with hbm := { u.hbm with pmStart := s.hbm.pmStart + n, pmPayload0 := p0, pmTrits0 := t0 } }) ∧
  (∀ s block coach addr write, s.coachState coach ≠ Cs.vacant → let page := addr % 2 ^ 48 / 65536
    let u := s.walk block coach page
    exec (.xlateWalkDone block coach addr write true) s =
      .next ((s.bump (coachB coach) F.coachXlateMiss).coachFatal coach Sc.poison) ∧
    ((s.tableEntries coach page).any (fun a => s.poisoned a 8) = true → exec (.xlateWalkDone block coach addr write false) s =
      .next ((s.bump (coachB coach) F.coachXlateMiss).coachFatal coach Sc.poison)) ∧
    ((s.tableEntries coach page).any (fun a => s.poisoned a 8) = false → exec (.xlateWalkDone block coach addr write false) s =
      .next (if (u.xlateAddr block coach addr write).isNone then u.bump (coachB coach) F.coachXlateDeny else u)))

/-- The steps of a boot (R440-R448, R477, R478, R486-R488). -/
def Obligations.BootStepsTakeEffect : Prop :=
  (∀ s : State, s.rom = Rom.por → s.clocked = true → s.scanned = false → s.pwr.testen = false →
    let u := (((s.setChip F.svnMin s.fuses.svn).setChip F.keyRevoke s.fuses.revoke).setChip F.scanLock s.fuses.scanLock).setChip
      F.devSerialSerial s.fuses.serial
    let v : State := { u with boot := { u.boot with dkN := u.fuses.dkN, dkD := u.fuses.dkD } }
    exec (.bootPorDone true) s =
      .next ((v.extendM 0 (sha256 (Config.romVersion :: leBytes 8 (v.word 0x3208)))).enterRom Rom.train)) ∧
  (∀ s : State, s.rom = Rom.train → s.clocked = true → s.scanned = false → s.allTrained = false →
    let u := (List.range 8).foldl (fun (s : State) m => if bit 0 m then s else s.set (mcB m) F.mcTrained 1) s
    exec (.hbmTrainDone 0) s =
      .next ((u.set (regionB 0) F.regionValid 1).set (regionB 0) F.regionFcount 1).trainToLink) ∧
  (∀ s : State, s.rom = Rom.request → s.clocked = true → s.scanned = false → s.boot.lastReq + 100000000 ≤ s.gcount →
    exec .bootReqTimer s = .next s.bootReqAll) ∧
  (∀ s : State, s.rom = Rom.handback → s.bootGot = true → s.clocked = true → s.scanned = false →
    let present := decide (s.boot.hb ≠ 0)
    let b := s.hbBlock
    let u := s.extendM 2 (sha256 (if present then b else List.replicate 32 0))
    let ig := if present then u.hbIgnore b else 0
    let valid := present && ig == 0
    let st := valid && bit (fieldLE b 7 1) 0 && bit (fieldLE b 32 1) 0
    let pass := st && bit (fieldLE b 32 1) 2
    let v := ((((u.setChip F.hbStatusPresent (b2n present)).setChip F.hbStatusValid (b2n valid)).setChip F.hbStatusIgnore ig).setChip
      F.stUsed (b2n pass)).setChip F.retested (b2n (st && !pass))
    let cfg := if valid ∧ fieldLE b 6 1 = 112 then 112 else 128
    let w := (v.disablePorts []).repairCores cfg (if valid then hbCores b else []) []
    exec (.handbackDone []) s = .next (if w.boot.healthy < cfg then ((w.setChip F.ftStatusSafe 1).alertCause 4).enterRom Rom.safe
      else ((w.repairRows (if valid then hbRows b else [])).enterRom Rom.load).bootStart)) ∧
  (∀ s off, let r := SMap.look (0, 0) s.boot.reads off; s.bootLoading = true → r.1 ≠ 0 → r.2 + 10000000 ≤ s.gcount →
    let out := s.link.out.filter fun o => match o.why with | .boot a _ => a != off | _ => true
    exec (.bootReadTimeout off) s = .next (State.bootReadFailed { s with link := { s.link with out := out } } off Sc.timeout)) ∧
  (∀ s : State, s.bootGot = true → s.rom = Rom.load →
    exec .imageLoadDone s = .next (State.enterRom { s with boot := { s.boot with kept := false } } Rom.verify)) ∧
  (∀ s place burnOk, s.rom = Rom.verify → s.boot.warm = false → placementOk place = true →
    s.imageCheck (slotAddr s.verifySlot) (if s.boot.kept then none else some s.boot.len) = 0 →
    exec (.imageVerifyDone place burnOk) s = .next (((s.takeImage burnOk).placeFirmware place).enterRom Rom.start)) ∧
  (∀ s : State, let u := s.syncDone 0; u.rom = Rom.start → u.boot.warm = false → 2 ≤ u.get (regionB 0) F.regionMstate →
    let v := u.writeMpInfo.enterRom Rom.running
    exec (.mirrorSyncDone 0) s =
      .next ((v.mgmtTo v.boot.port 0x0B04 (v.chip F.fwVersion) (v.boot.m.getD 1 [])).owedLogs))

/-- Hand-overs, the MP's watchdog and the chip warm reset (R434-R437, R479-R481). -/
def Obligations.HandoversAndWarmResetsTakeEffect : Prop :=
  (∀ s : State, s.mpUp = true → s.chip F.handover ≠ 0 → s.boot.phase = 0 →
    let b := { s.boot with mpDownAt := s.gcount, phase := 1 }
    exec .handoverCheckpointDone s = .next ((State.setChip { s with boot := b } F.mpDown 1).bootStart)) ∧
  (∀ s : State, s.boot.phase = 3 → exec (.firmwareRestoreDone true) s = .next s.mpReturns) ∧
  (∀ s : State, s.boot.phase ≠ 3 → s.rom = Rom.start → s.boot.warm = true →
    exec (.firmwareRestoreDone true) s = .next s.warmReturns) ∧
  (∀ s : State, s.rom = Rom.running → s.chip F.mpDown ≠ 1 → s.clocked = true → s.scanned = false → s.log.hold = false →
    s.boot.phase = 0 →
    let b := { s.boot with mpDownAt := s.gcount, phase := 2, kept := true, timeouts := s.inprog, quotes := [] }
    let u : State := { s with boot := b, inprog := [], gs := { s.gs with roleNext := none } }
    let r : LogRec := { cls := 9, sev := 2, cause := (Config.uncodedCause 2).toNat, unit := 11 }
    exec .mpWatchdog s = .next ((u.setChip F.mpDown 1).raise r)) ∧
  (∀ s : State, s.rom = Rom.running → s.chip F.mpDown ≠ 0 → s.boot.mpDownAt + 250000000 ≤ s.gcount → s.log.hold = false →
    s.clocked = true → s.scanned = false →
    let r : LogRec := { cls := 9, sev := 3, cause := (Config.uncodedCause 3).toNat, unit := 11 }
    exec .mpAbsentLimit s = .next ((s.warmTrigger 4).raise r)) ∧
  (∀ s : State, exec .gsSbParityFail s = .next (s.warmTrigger 3)) ∧
  (∀ s : State, s.chip F.clkStatusSrc ≠ 4 → exec .warmreset s = .next (s.warmTrigger 1)) ∧
  (∀ s : State, s.rom = Rom.running → s.log.hold = false → s.clocked = true → s.scanned = false → ∀ cause,
    let log := { s.log with hold := true, noteTrigger := cause }
    let rows := s.gs.rows.map fun (r : Row) => r.mask Sc.cancelled
    let gs := { s.gs with held := true, complQ := [], endQ := [], cut := none, posted := none, rows := rows }
    s.warmTrigger cause = (State.endAllWork { s with log := log, gs := gs }).dropOwn) ∧
  (∀ s : State, s.log.hold = true → s.rom = Rom.running →
    let u := s.warmClear
    let b := { u.boot with warm := true, kept := true, phase := 0, quotes := [], timeouts := s.inprog ++ s.boot.timeouts, got := [], reads := [], nextOff := 0 }
    exec .warmResetQuiesced s = .next (State.enterRom { u with boot := b } Rom.verify))

/-- Standing by and shutting down (R467-R473, R482-R485). -/
def Obligations.StandAndShutdownTakeEffect : Prop :=
  (∀ s : State, s.pwr.entry = 1 → s.chip F.pwrStatusState = 1 → s.chip F.drained ≠ 0 → s.chip F.ftStatusTesting = 0xFF → s.mpUp = true →
    exec .standDrained s = .next (State.answerAll { s with pwr := { s.pwr with entry := 2 } } 0x0006 (fun _ => true) Sc.ok)) ∧
  (∀ s : State, s.pwr.entry = 2 → s.clocked = true → s.log.hold = false →
    let u := (((List.range 8).foldl (fun (s : State) m => s.set (mcB m) F.mcSelfref 1) s.portsDark).count F.standEntries).setChip
      F.clkStatusSrc 4
    let word := (Config.measured u.free).toNat
    let rails := keptRails u.draw.pwr.railsGood
    let v : State := { u.draw with pwr := { u.draw.pwr with entry := 0, retained := true, retCheck := word, railsGood := rails } }
    exec .standAckWaitEnd s = .next (if v.pwr.wakePending then v.beginWake false else v)) ∧
  (∀ s results, s.chip F.pwrStatusState = 2 → s.chip F.drained ≠ 0 → s.chip F.ftStatusTesting = 0xFF → s.mpUp = true →
    let cfg := if s.boot.nextCfg = 0 then s.nCores else s.boot.nextCfg
    let u := s.answerAll 0x0007 (fun _ => true) Sc.ok
      (selftestRecord results ++ [Byte.ofNat cfg, 0, 0, 0] ++ leBytes 4 (s.chip F.fwVersion))
    let v := ((List.range 8).foldl (fun (s : State) m => s.set (mcB m) F.mcSelfref 1)
      ((u.portFrame 0).portFrame 1)).lasersOff.setChip F.clkStatusSrc 0
    let rails := keptRails v.pwr.railsGood
    exec (.selftestDone results) s = .next { v with pwr := { v.pwr with shut := true, railsGood := rails } }) ∧
  (∀ s : State, s.chip F.clkStatusSrc = 4 → exec .standAddressMatch s = .next (s.beginWake false))

/-- Power good, resets, clocks and the trim (R454-R463, R476, R477). -/
def Obligations.StartUpAndClocksTakeEffect : Prop :=
  (∀ s : State, s.pwr.pwrgd = false → let u := s.coldHeld 0; let off := s.pwr.off && !s.pwr.poreset
    exec .pwrgdRise s = .next { u with pwr := { u.pwr with pwrgd := true, off := off } }) ∧
  (∀ s : State, s.pwr.pwrgd = true → let u := s.powerOff (keptRails s.pwr.railsGood)
    exec .pwrgdFall s = .next { u with pwr := { u.pwr with pwrgd := false } }) ∧
  (∀ s straps testen, s.pwr.poreset = false →
    let u := s.coldHeld (if s.pwr.pwrgd then keptRails s.pwr.railsGood else s.pwr.railsGood)
    exec (.poreset true straps testen) s = .next { u with pwr := { u.pwr with poreset := true } }) ∧
  (∀ s straps testen, s.pwr.poreset = true →
    let pwr := { s.pwr with poreset := false, straps := straps % 64, testen := testen }
    let jtag := { s.jtag with drive := 0 }
    exec (.poreset false straps testen) s = .next ((State.setChip { s with pwr := pwr, jtag := jtag } F.oscDly straps).clockAdvance)) ∧
  (∀ s rail, s.ramping rail = true → rail ≠ 5 →
    let good := s.pwr.railsGood + 2 ^ rail
    exec (.regulatorGood rail) s = .next (State.clockAdvance { s with pwr := { s.pwr with railsGood := good } })) ∧
  (∀ s rail, s.ramping rail = true →
    let failed := s.pwr.railsFailed + 2 ^ rail
    exec (.regulatorTimeout rail) s = .next { s with pwr := { s.pwr with railsFailed := failed } }) ∧
  (∀ s : State, s.chip F.clkStatusSrc = 1 → s.pwr.delayDone = false →
    exec .xtalDelayEnd s = .next (State.clockAdvance { s with pwr := { s.pwr with delayDone := true } })) ∧
  (∀ s : State, s.chip F.clkStatusSrc = 2 → exec (.pllLockDone true true) s = .next s.clocksRun) ∧
  (∀ s xtalOk locked, s.chip F.clkStatusSrc = 2 → (xtalOk && locked) = false → s.pwr.retries < 3 →
    let pwr := { s.pwr with retries := s.pwr.retries + 1, delayDone := false }
    exec (.pllLockDone xtalOk locked) s =
      .next ((State.bumpSat { s with pwr := pwr } chipB F.pllRetries).setChip F.clkStatusSrc 1)) ∧
  (∀ s : State, s.chip F.clkStatusSrc = 3 → exec .pllLockLoss s = .next (s.clockFail 3)) ∧
  (∀ s ppm, s.clocked = true → s.chip F.ioscTrimAuto ≠ 0 → s.trimSource ≠ 0 → let u := s.setChip F.trimSrc s.trimSource
    let code := max 0 (min 255 ((u.chip F.ioscTrimCode : Int) - trimSteps ppm))
    exec (.ioscTrimMeasure ppm) s = .next ((u.setChip F.ioscTrimCode code.toNat).setChip F.ioscTrimErr (unsigned 16 ppm))) ∧
  (∀ s present, let u := s.setChip F.refclkPresent (b2n present)
    exec (.refclkPresenceChange present) s = .next (u.setChip F.trimSrc u.trimSource))

/-- Supply, temperature and throttle (R461, R465, R466, R472-R474). -/
def Obligations.SupplyAndHeatTakeEffect : Prop :=
  (∀ s mv, mv < 11400 → s.clocked = true →
    let r : LogRec := { cls := 11, sev := 0, cause := 0x8C, unit := 13, detail := leBytes 2 mv }
    exec (.vinUndervolt mv) s = .next (((s.setChip F.vinMv mv).alertCause 1).raise r)) ∧
  (∀ s mv, mv < 10800 → s.chip F.clkStatusSrc = 4 →
    exec (.vinBrownout mv) s = .next { s with pwr := { s.pwr with retained := false } }) ∧
  (∀ s mv, mv < 10800 → s.chip F.clkStatusSrc ≠ 4 → exec (.vinBrownout mv) s = .next (s.powerOff (keptRails s.pwr.railsGood))) ∧
  (∀ s tj (v : Sensors), s.clocked = true → let u := ((s.setChip F.tjMax tj).setChip F.thbmMax v.thbm).setChip F.vinMv v.vin
    let r : LogRec := { cls := 11, sev := 0, cause := 0x8B, unit := 13, detail := [Byte.ofNat tj, Byte.ofNat v.thbm] }
    exec (.thermSample tj v) s =
      .next (if s.chip F.tjMax < u.twarnNow ∧ u.twarnNow ≤ tj % 256 then (u.raise r).alertCause 1 else u)) ∧
  (∀ s : State, let u := s.powerOff (s.pwr.railsGood &&& 8)
    exec .thermalTrip s = .next { u with pwr := { u.pwr with thermtrip := true, retained := false } }) ∧
  (∀ s tj watts, s.clocked = true → let u := ((s.setChip F.pinW watts).count F.energy watts).takePwrCtrl; let cap := max 400 u.pwr.pcap
    exec (.throttleEval tj watts) s =
      .next (if u.tthrotNow ≤ tj ∨ 95 ≤ u.chip F.thbmMax ∨ cap < watts then u.setChip F.duty (min 60 (u.chip F.duty + 4))
        else if tj + 2 ≤ u.tthrotNow ∧ watts < cap then u.setChip F.duty (u.chip F.duty - 4) else u)) ∧
  (∀ s : State, s.clocked = true → let late := decide (1000 * s.chip F.duty ≤ s.gcount % 64000)
    (s.pwr.windowAt ≠ s.gcount / 64000 + 1 → let w := s.gcount / 64000 + 1
      exec .throttleWindow s = .next { s.endHold with pwr := { s.endHold.pwr with windowAt := w, holding := !late } }) ∧
    (s.pwr.windowAt = s.gcount / 64000 + 1 → late = true → exec .throttleWindow s = .next s.endHold))

/-- The JTAG instructions (R494, R495). -/
def Obligations.JtagInstructionsTakeEffect : Prop :=
  (∀ s : State, let j := { s.jtag with ir := 0, dr := 0x3964054F, drive := 0 }
    exec .tapReset s = .next { s with jtag := j } ∧ exec .jtagIdcode s = .next { s with jtag := j }) ∧
  (∀ s : State, let j := { s.jtag with ir := 1, dr := 0, drive := 0 }
    exec .jtagBypass s = .next { s with jtag := j }) ∧
  (∀ s pins, let j := { s.jtag with ir := 2, dr := 0, drive := 0, chain := pins }
    exec (.jtagSamplePreload pins) s = .next { s with jtag := j }) ∧
  (∀ s pins, s.pwr.poreset = true →
    let je := { s.jtag with ir := 3, dr := 0, drive := 1, chain := pins }
    let jh := { s.jtag with ir := 4, dr := 0, drive := 2 }
    let jc := { s.jtag with ir := 5, dr := 0, drive := 1 }
    exec (.jtagExtest pins) s = .next { s with jtag := je } ∧ exec (.jtagHighz pins) s = .next { s with jtag := jh } ∧
      exec (.jtagClamp pins) s = .next { s with jtag := jc }) ∧
  (∀ s pins, s.pwr.poreset = false →
    let j := { s.jtag with ir := 2, dr := 0, drive := 0, chain := pins }
    exec (.jtagExtest pins) s = .next { s with jtag := j } ∧ exec (.jtagHighz pins) s = .next { s with jtag := j } ∧
      exec (.jtagClamp pins) s = .next { s with jtag := j })

/-- The scan chain and the repair fuses (R451, R452, R489). -/
def Obligations.ScanAndFusesTakeEffect : Prop :=
  (∀ s : State, s.fuses.scanLock = 1 → exec .scanReq s = .next ((s.tap 6 0 0).setChip F.scanCtrlState 3)) ∧
  (∀ s : State, s.fuses.scanLock ≠ 1 → (s.tap 6 0 0).scanned = false → (s.tap 6 0 0).clocked = true →
    let u := ((s.tap 6 0 0).setChip F.scanCtrlState 1).endAllWork.portsDark
    exec .scanReq s = .next (if u.rom < Rom.start then u.romFailed 10 else u)) ∧
  (∀ s : State, s.chip F.scanCtrlState = 1 → exec .scanClearDone s = .next (s.scanClear.setChip F.scanCtrlState 2)) ∧
  (∀ s a b c, s.chip F.scanCtrlState = 2 → a < 144 →
    let fuses := { s.fuses with cores := insertNat a s.fuses.cores }
    exec (.fuseProg 0 a b c) s = .next { s.tap 7 0 0 with fuses := fuses }) ∧
  (∀ s a b c, s.chip F.scanCtrlState = 2 → a < 8 → b < 64 → c < 1310720 →
    let rows := if s.fuses.rows.contains (a, b, c) then s.fuses.rows else s.fuses.rows ++ [(a, b, c)]
    let fuses := { s.fuses with rows := rows }
    exec (.fuseProg 1 a b c) s = .next { s.tap 7 0 0 with fuses := fuses }) ∧
  (∀ s kind a b c, s.chip F.scanCtrlState ≠ 2 → exec (.fuseProg kind a b c) s = .next (s.tap 1 0 0)) ∧
  (∀ s kind a b c t, exec (.fuseProg kind a b c) s = .next t → s.chip F.scanCtrlState ≠ 2 → t.fuses = s.fuses)

/-- The sideband (R529-R533). -/
def Obligations.SidebandTakesEffect : Prop :=
  (∀ s : State, bit s.pwr.railsGood 3 = true → s.chip F.clkStatusSrc ≠ 4 → s.pwr.entry ≠ 2 → exec .sbQuickCommand s = .next s) ∧
  (∀ s : State, bit s.pwr.railsGood 3 = true → s.chip F.clkStatusSrc ≠ 4 → s.pwr.entry ≠ 2 →
    let svc := { s.svc with reply := s.statusBlock, causes := 0 }
    exec .sbStatusRead s = .next { s with svc := svc }) ∧
  (∀ s addr, bit s.pwr.railsGood 3 = true → s.chip F.clkStatusSrc = 3 → s.pwr.entry ≠ 2 → addr % 8 = 0 → sbRange addr = true →
    s.pwr.shut = false → (addr < 0x402000 ∨ 0x402400 ≤ addr) →
    exec (.sbRegisterRead addr) s = .next ((s.sbReply (0 :: leBytes 8 (s.readWord addr))).clearRc addr)) ∧
  (∀ s off data, bit s.pwr.railsGood 3 = true → s.chip F.clkStatusSrc = 3 → s.pwr.entry ≠ 2 → s.pwr.shut = false → data ≠ [] →
    data.length ≤ 30 → off + data.length ≤ 0x200 →
    exec (.sbMailboxWrite off data true) s = .next (s.writeBox (0x402000 + off) data)) ∧
  (∀ s : State, s.svc.causes ≠ 0 → s.chip F.clkStatusSrc ≠ 4 → bit s.pwr.railsGood 3 = true →
    exec .sbAlertResponse s = .next (s.sbReply [Byte.ofNat (0x58 + bits s.pwr.straps 3 3)])) ∧
  (∀ s : State, exec .sbClockTimeout s = .next (s.sbReply []))

/-- The service button, the loop-backs and the register writes (R333, R348, R490-R492, R537, R542, R545, R546). -/
def Obligations.ServiceAndRegisterWritesTakeEffect : Prop :=
  (∀ s : State, s.buttonOn = true → s.svc.pressedAt = none → let svc := { s.svc with pressedAt := some s.gcount, holdTaken := false }
    exec .svcButtonPress s = .next (State.setChip { s with svc := svc } F.svcStatusButton 1)) ∧
  (∀ s t, s.svc.pressedAt = some t → s.svc.holdTaken = true → let svc := { s.svc with pressedAt := none, holdTaken := false }
    exec .svcButtonRelease s = .next (State.setChip { s with svc := svc } F.svcStatusButton 0)) ∧
  (∀ s t, s.svc.pressedAt = some t → s.svc.holdTaken = false → let svc := { s.svc with pressedAt := none, holdTaken := false }
    let u := State.setChip { s with svc := svc } F.svcStatusButton 0
    u.buttonOn = true → 50000000 ≤ s.gcount - t → s.gcount - t ≤ 1000000000 → let v := 1 - u.chip F.svcCtrlLocate
    exec .svcButtonRelease s =
      .next (((u.setChip F.svcCtrlLocate v).count F.svcPresses).serviceNote (if v = 1 then 1 else 2) 1)) ∧
  (∀ s t, s.svc.pressedAt = some t → s.svc.holdTaken = false → s.buttonOn = true → t + 3000000000 ≤ s.gcount →
    exec .svcHold s = .next s.holdActs) ∧
  (∀ s port depth, port < 16 → s.clocked = true → exec (.lbEklWrite port depth) s = .next (s.writeLbEkl port depth)) ∧
  (∀ s stack depth, stack < 8 → s.clocked = true → exec (.lbHbmWrite stack depth) s = .next (s.writeLbHbm stack depth)) ∧
  (∀ s stack errs bits, stack < 8 → SMap.look 0 s.hbm.lbEnd stack ≤ s.gcount →
    exec (.lbHbmEnd stack errs bits) s = .next (s.endLbHbm stack errs bits)) ∧
  (∀ s value, s.clocked = true →
    exec (.chipModeWrite value) s = .next (s.writeChipMode value) ∧ exec (.svcLocateWrite value) s = .next (s.writeSvcCtrl value)) ∧
  (∀ s addr, s.clocked = true → exec (.counterReadClear addr) s = .next (s.clearRc (addr / 8 * 8))) ∧
  (∀ s coach off value, coach < 4096 → isRwh off = true →
    exec (.coachRwhWrite coach off value) s = .next (s.rwhWrite coach off value).1) ∧
  (∀ s admin coach addr words, s.clocked = true → addr % 8 = 0 → coach < 4096 →
    exec (.registerWrite admin coach addr words) s = .next (s.windowWrite admin coach addr (words.map (·.toNat))).1)

/-- What becomes of a host command before its own meaning (R427-R429). -/
def Obligations.HostCommandsAreTakenAndChecked : Prop :=
  (∀ i op box s, hostCommand i = some (op, box) → ¬ Taken s op box → exec i s = .next s) ∧
  (∀ i op box s, Canonical s → hostCommand i = some (op, box) → Taken s op box →
    ((s.taken box).noPlace box = true ∨
      (1 ≤ s.chip F.pwrStatusState ∧ s.chip F.pwrStatusState ≤ 2 ∧ op ≠ 0x0001 ∧ op ≠ 0x000C)) →
    ∃ t, exec i s = .next t ∧ Answered t box Sc.busy) ∧
  (∀ i op box s st, Canonical s → hostCommand i = some (op, box) → Taken s op box → (s.taken box).noPlace box = false →
    (s.chip F.pwrStatusState = 0 ∨ 2 < s.chip F.pwrStatusState ∨ op = 0x0001 ∨ op = 0x000C) →
    (s.taken box).cmdCheck (s.cmd box) = some st →
    ∃ t, exec i s = .next t ∧ Answered t box st ∧
      ∀ p ∈ [Part.free, .gcount, .hbm, .spm, .cores, .coaches, .xlate, .tables, .graphs, .gs, .sb, .boot, .fuses, .pwr, .jtag, .log,
        .ledger], p.same s t)

/-- The stored bytes of four writers; every other byte of their memories reads as before. -/
def Obligations.StoresReachOnlyTheirBytes : Prop :=
  (∀ s t req found, Canonical s → exec (.mcFineRequest req found) s = .next t → let p := s.place (req.addr / 32 * 32)
    let key := 64 * p.1 + p.2
    ∀ x, (∀ e ∈ s.hbm.fineQ ++ [(key, req, found)], e.1 = key → e.2.1.write.isSome = true →
        x < e.2.1.addr / 32 * 32 ∨ e.2.1.addr / 32 * 32 + 32 ≤ x) →
      Memory.byte t.hbm.bytes x = Memory.byte s.hbm.bytes x) ∧
  (∀ s t core w rest, Canonical s → (s.core core).nbr = w :: rest → exec (.nbrWriteRx core) s = .next t →
    ∀ x, (x < spmKey core (256 * (w.off / 256)) ∨ spmKey core (256 * ((w.off + w.data.length - 1) / 256 + 1)) ≤ x ∨ w.data = []) →
      Memory.byte t.spm.bytes x = Memory.byte s.spm.bytes x) ∧
  (∀ s t off data pecOk, Canonical s → exec (.sbMailboxWrite off data pecOk) s = .next t →
    ∀ x, (x < 0x402000 + off ∨ 0x402000 + off + data.length ≤ x) → Memory.byte t.mbox x = Memory.byte s.mbox x) ∧
  (∀ s t box, Canonical s → Served s 0x0001 box → exec (.getInfo box) s = .next t →
    ∀ x, x ≠ boxB box + 3 → (x < boxB box + 0x200 ∨ boxB box + 0x400 ≤ x) → Memory.byte t.mbox x = Memory.byte s.mbox x)

/-- Writes that the sender may not make (R222, R223, R333). -/
def Obligations.WritesOfStrangersAreDiscarded : Prop :=
  (∀ s coach slot word, s.seqTable = true → (8192 ≤ slot ∨ s.seq slot Se.state = Ss.free ∨ s.seq slot Se.owner ≠ coach) →
    exec (.seqInputWrite coach slot word) s = .next (s.count F.seqWdeny) ∧
    exec (.seqCancelBit coach slot) s = .next (s.count F.seqWdeny) ∧
    exec (.seqCloseBit coach slot) s = .next (s.count F.seqWdeny)) ∧
  (∀ s coach off value, s.regs.wf = true → coach < 4096 → isRwh off = true → s.coachState coach ≠ Cs.halted →
    ∃ t, exec (.coachRwhWrite coach off value) s = .next t ∧ t.get (coachB coach) F.coachRefused = 1 ∧
      t.get (coachB coach) F.coachRefuse = Sc.notHalted ∧
      t.get (coachB coach) F.coachWrRefused = (s.get (coachB coach) F.coachWrRefused + 1) % 2 ^ 64 ∧
      ∀ d f, f ∈ [F.coachResSeq, F.coachResOve, F.coachResDisp, F.coachResRows, F.coachResPages, F.coachSeed, F.coachHport] →
        t.get (coachB d) f = s.get (coachB d) f)

/-- The register frames of seven events. -/
def Obligations.SmallEventsKeepOtherRegisters : Prop :=
  (∀ s t core te, s.regs.wf = true → exec (.tileSwap core te) s = .next t → ∀ a, a ≠ teB core te + F.teTiles.off →
    t.regs.look a = s.regs.look a) ∧
  (∀ s t core te, s.regs.wf = true → exec (.teFormatBarrierEnd core te) s = .next t → ∀ a, a ≠ qB core + F.qFmtBarriers.off →
    t.regs.look a = s.regs.look a) ∧
  (∀ s t core, s.regs.wf = true → exec (.ftDefer core) s = .next t → ∀ a, a ≠ pcoreB core → a ≠ F.ftForced.off →
    t.regs.look a = s.regs.look a) ∧
  (∀ s t ppm, s.regs.wf = true → exec (.ioscTrimMeasure ppm) s = .next t → ∀ a, a ≠ F.trimSrc.off → a ≠ F.ioscTrimCode.off →
    t.regs.look a = s.regs.look a) ∧
  (∀ s t present, s.regs.wf = true → exec (.refclkPresenceChange present) s = .next t → ∀ a, a ≠ F.trimSrc.off →
    t.regs.look a = s.regs.look a) ∧
  (∀ s t tj watts, s.regs.wf = true → exec (.throttleEval tj watts) s = .next t → ∀ a, a ≠ F.pinW.off → a ≠ F.duty.off →
    a ≠ F.energy.off → t.regs.look a = s.regs.look a) ∧
  (∀ s t, s.regs.wf = true → exec .routeUpdate s = .next t → ∀ a, (a < routeB 0 ∨ routeB 2048 ≤ a) → a ≠ F.tableUpdates.off →
    t.regs.look a = s.regs.look a)

/-- The valid node ids are those of R380 and no others. -/
def Obligations.NodeIdsAreValidByR380 : Prop :=
  (∀ n, validNode n = true ↔
    (∃ g x y, g ≤ 96 ∧ x < 4 ∧ y < 4 ∧ n = 16 * g + 4 * y + x) ∨
    (∃ d p, (∃ g x y, g ≤ 96 ∧ x < 4 ∧ y < 4 ∧ d = 16 * g + 4 * y + x) ∧ p < 2 ∧ n = 0x8000 ||| (d <<< 1) ||| p)) ∧
  (∀ d, (∃ g x y, g ≤ 96 ∧ x < 4 ∧ y < 4 ∧ d = 16 * g + 4 * y + x) ↔ d ≤ 0x060F)

/-- The CRC of weight blocks (R110). -/
def Obligations.Crc32cIsR110 : Prop :=
  (∀ i < 32, Nat.testBit 0x82F63B78 i = Nat.testBit 0x1EDC6F41 (31 - i)) ∧
  (let bitStep (c : Nat) : Nat := if c % 2 = 1 then c / 2 ^^^ 0x82F63B78 else c / 2
    let byteStep (c : Nat) (b : Byte) : Nat :=
      bitStep (bitStep (bitStep (bitStep (bitStep (bitStep (bitStep (bitStep (c ^^^ b.toNat))))))))
    ∀ l : List Byte, crc32c l = l.foldl byteStep 0xFFFFFFFF ^^^ 0xFFFFFFFF) ∧
  crc32c [0x31, 0x32, 0x33, 0x34, 0x35, 0x36, 0x37, 0x38, 0x39] = 0xE3069283 ∧
  (∀ e : List Byte, 12 ≤ e.length → Ie.crc e =
    (e.getD 8 0).toNat + 256 * (e.getD 9 0).toNat + 65536 * (e.getD 10 0).toNat + 16777216 * (e.getD 11 0).toNat)

/-- The result of SHUTDOWN (R485). -/
def Obligations.ShutdownReturnsItsRecord : Prop :=
  ∀ s results q, Canonical s → s.chip F.pwrStatusState = 2 → s.chip F.drained ≠ 0 → s.chip F.ftStatusTesting = 0xFF → s.mpUp = true →
    s.inprog.filter (fun q => q.op == 0x0007) = [q] →
    ∃ t, exec (.selftestDone results) s = .next t ∧ Answered t q.box Sc.ok ∧ t.pwr.shut = true ∧
      t.pwr.railsGood = keptRails s.pwr.railsGood ∧
      t.resultOf q.box 72 = selftestRecord results ++
        [Byte.ofNat (if s.boot.nextCfg = 0 then s.chip F.coreConfig else s.boot.nextCfg), 0, 0, 0] ++ leBytes 4 (s.chip F.fwVersion)

/-- Nothing new is started in the safe state (R406). -/
def Obligations.SafeStateRefusesWork : Prop :=
  (∀ s w, s.safe = true → exec (.gsDispatchUnit w) s = .next s) ∧
  (∀ s coach, s.safe = true → exec (.launchTime coach) s = .next s) ∧
  (∀ s box, let u := s.taken box; Canonical s → s.safe = true → Served s 0x0103 box →
    u.coachState (s.cmd box).coach ≠ Cs.vacant → u.coachState (s.cmd box).coach ≠ Cs.faulted →
    ∃ t, exec (.coachStart box) s = .next t ∧ Answered t box Sc.noResource ∧ t.coaches = s.coaches ∧ t.gs = s.gs ∧ t.sb = s.sb) ∧
  (∀ s box, let u := s.taken box; Canonical s → s.safe = true → Served s 0x0108 box → u.coachState (s.cmd box).coach = Cs.halted →
    ∃ t, exec (.launchAt box) s = .next t ∧ Answered t box Sc.noResource ∧ t.coaches = s.coaches ∧ t.gs = s.gs ∧ t.sb = s.sb)

/-- Arguments out of range (R431). -/
def Obligations.IllegalArgumentsAreAnsweredBadArg : Prop :=
  ∀ s box i op, Canonical s → Served s op box → let c := s.cmd box
    ((i = .setRole box ∧ op = 0x0002 ∧ 2 < c.arg 0 1) ∨
      (i = .setCoreConfig box ∧ op = 0x0003 ∧ c.arg 0 1 ≠ 112 ∧ c.arg 0 1 ≠ 128) ∨
      (i = .topoSet box ∧ op = 0x0004 ∧ (c.arg 2 1 = 0 ∨ 97 < c.arg 2 1)) ∨
      (i = .drain box ∧ op = 0x0005 ∧ 1 < c.arg 0 1) ∨
      (i = .coreWithdraw box ∧ op = 0x000A ∧ 144 ≤ c.arg 0 1) ∨
      (i = .coreTest box ∧ op = 0x000B ∧ 144 ≤ c.arg 0 1) ∨
      (i = .logRead box ∧ op = 0x000C ∧ (c.arg 4 1 = 0 ∨ 7 < c.arg 4 1)) ∨
      (i = .fwHandover box ∧ op = 0x0009 ∧ (c.arg 0 8 % 4096 ≠ 0 ∨ c.arg 8 4 = 0 ∨ 4194304 < c.arg 8 4)) ∨
      (i = .tableLoad box ∧ op = 0x0305 ∧ 15 < c.arg 0 1) ∨
      (i = .tableRetire box ∧ op = 0x0306 ∧ 15 < c.arg 0 1) ∨
      (i = .regionClear box ∧ op = 0x0202 ∧ 63 < c.arg 0 1)) →
    ∃ t, exec i s = .next t ∧ Answered t box Sc.badArg ∧
      ∀ p, p ∉ [Part.regs, .vecs, .mbox, .inprog, .lastCoach, .link, .svc] → p.same s t

/-- The path of a cart over the mesh (R15). -/
def Obligations.MeshRoutesAreDimensionOrdered : Prop :=
  ∀ (c : NocCart) (r : Nat), r < 144 → c.router < 144 → (c.port = 4 ∨ c.port = 5) → c.chan < 8 →
    (c.out r < 4 ↔ r ≠ c.router) ∧ (r = c.router → c.out r = c.port) ∧
    ((c.out r = 0 ∨ c.out r = 2) → r % 12 = c.router % 12) ∧
    (c.out r < 4 → let b := linkBuf r (c.out r) c.chan
      b / 48 < 144 ∧ hops (b / 48) c.router + 1 = hops r c.router ∧ b % 8 = c.chan ∧ b % 48 / 8 = (c.out r + 2) % 4)

/-- The arbitration of a link (R31): `ready` says that a channel has a cart for the output and a credit. -/
def Obligations.RoutersServeChannelsInTurn : Prop :=
  ∀ (n : Noc) (r o first : Nat) (taken : List Nat),
    let used (b : Nat) : Nat := (taken.filter (· == b)).length
    let cart (b : Nat) : Prop := ∃ x, n.head b (used b) = some x ∧ x.out r = o
    let credit (c : Nat) : Prop := 4 ≤ o ∨ (n.buf (linkBuf r o c)).spent + (taken.filter fun b => b % 8 == c).length < 8
    let ready (c : Nat) : Prop := credit c ∧ ∃ p < 6, cart (48 * r + 8 * p + c)
    (∀ b c, n.choose r o first taken = some (b, c) →
      ∃ i < 8, c = (first + i) % 8 ∧ credit c ∧ (∃ p < 6, b = 48 * r + 8 * p + c ∧ cart b) ∧ ∀ j < i, ¬ ready ((first + j) % 8)) ∧
    (n.choose r o first taken = none → ∀ c < 8, ¬ ready c) ∧
    (∀ b x rest, SMap.look [] n.bufs b = x :: rest → SMap.wf 0 n.served = true → (4 ≤ o ∨ (n.buf (linkBuf r o (b % 8))).spent < 8) →
      SMap.look 0 (n.move r o b).served (6 * r + o) = b % 8 + 1)

/-- What other devices send for a coach that is VACANT here (R371). -/
def Obligations.MessagesForVacantCoachesAreDiscarded : Prop :=
  ∀ s port m, port < 16 → m.dst = s.node → s.rom ≠ Rom.failed → s.rom ≠ Rom.safe → s.clocked = true → s.scanned = false →
    msgBad m true = false → s.stray port m = false → s.coachState m.coach = Cs.vacant → let t := s.unbuffer port m
    (m.mtype = 0x20 → exec (.drawbar port m) s = .next t) ∧ (m.mtype = 0x21 → exec (.chainDone port m) s = .next t) ∧
    (m.mtype = 0x22 → exec (.replay port m) s = .next t) ∧ (m.mtype = 0x23 → exec (.barCredit port m) s = .next t) ∧
    (m.mtype = 0x30 → exec (.shipHeader port m) s = .next t ∧ exec (.shipPageRecord port m) s = .next t ∧
      (∀ page, exec (.shipPageData port m page) s = .next t) ∧ exec (.shipTrailer port m) s = .next t) ∧
    (m.mtype = 0x31 → exec (.shipAccept port m) s = .next t ∧ exec (.shipNak port m) s = .next t ∧
      exec (.shipCommit port m) s = .next t ∧ exec (.shipAbort port m) s = .next t) ∧
    (m.mtype = 0x40 → exec (.collUp port m) s = .next t) ∧ (m.mtype = 0x41 → exec (.collDown port m) s = .next t) ∧
    (m.mtype = 0x42 → exec (.collAbort port m) s = .next t)
end

