-- ==== Sys2Proof/Laws/Maps.lean ====
section
/-!
SUPPORT. Laws of the sparse maps, the byte memories and the register map: reading after writing, and the canonical form, which
every write and every removal keeps.
-/
namespace Sys2Proof.Machine

/-! ### Sparse maps -/

section
variable {α : Type} {d : α}

theorem SMap.above_trans {k j : Nat} {m : SMap α} (h : SMap.above k m = true) (hj : j ≤ k) : SMap.above j m = true := by
  cases m with
  | nil => rfl
  | cons e r =>
    simp only [SMap.above, decide_eq_true_eq] at h ⊢
    omega

/-- An unlisted key below every listed one reads as the default. -/
theorem SMap.look_above {k : Nat} {m : SMap α} (h : SMap.above k m = true) : SMap.look d m k = d := by
  cases m with
  | nil => rfl
  | cons e r =>
    obtain ⟨k', w⟩ := e
    have : k < k' := by simpa [SMap.above] using h
    simp [SMap.look, this]

end

section
variable {α : Type} [DecidableEq α] {d : α}

theorem SMap.wf_cons {k : Nat} {v : α} {m : SMap α} :
    SMap.wf d ((k, v) :: m) = true ↔ SMap.above k m = true ∧ v ≠ d ∧ SMap.wf d m = true := by
  simp [SMap.wf, and_assoc]

end

section
variable {α : Type} [DecidableEq α] {d : α}

theorem SMap.above_cons_put {k a : Nat} {v : α} {m : SMap α} (h : SMap.above k m = true) (ha : k < a) (hw : SMap.wf d m = true) :
    SMap.above k (SMap.put d m a v) = true := by
  cases m with
  | nil => unfold SMap.put; split <;> simp [SMap.above, ha]
  | cons e r =>
    obtain ⟨k', w⟩ := e
    have hk : k < k' := by simpa [SMap.above] using h
    have hr := (SMap.wf_cons.mp hw).1
    unfold SMap.put
    split
    · split <;> simp [SMap.above, ha, hk]
    · split
      · split
        · exact SMap.above_trans hr (by omega)
        · simp [SMap.above, ha]
      · simp [SMap.above, hk]

/-- A write keeps the canonical form. -/
theorem SMap.wf_put (m : SMap α) (k : Nat) (v : α) (h : SMap.wf d m = true) : SMap.wf d (SMap.put d m k v) = true := by
  induction m with
  | nil => unfold SMap.put; split <;> simp_all [SMap.wf, SMap.above]
  | cons e r ih =>
    obtain ⟨k', w⟩ := e
    obtain ⟨h1, h2, h3⟩ := SMap.wf_cons.mp h
    unfold SMap.put
    split
    · split
      · exact h
      · exact SMap.wf_cons.mpr ⟨by simpa [SMap.above], by assumption, h⟩
    · split
      · split
        · exact h3
        · subst k'
          exact SMap.wf_cons.mpr ⟨h1, by assumption, h3⟩
      · exact SMap.wf_cons.mpr ⟨SMap.above_cons_put h1 (by omega) h3, h2, ih h3⟩

/-- What a key reads as after a write. -/
theorem SMap.look_put (m : SMap α) (k j : Nat) (v : α) (h : SMap.wf d m = true) :
    SMap.look d (SMap.put d m k v) j = if j = k then v else SMap.look d m j := by
  induction m with
  | nil => grind [SMap.put, SMap.look]
  | cons e r ih =>
    obtain ⟨k', w⟩ := e
    obtain ⟨h1, h2, h3⟩ := SMap.wf_cons.mp h
    unfold SMap.put
    split
    · split
      · grind [SMap.look]
      · grind [SMap.look]
    · split
      · split
        · by_cases hj : j = k
          · subst hj
            subst v
            rw [if_pos rfl]
            exact SMap.look_above (by subst k'; exact h1)
          · simp only [SMap.look, hj, if_false]
            by_cases hlt : j < k'
            · simp only [hlt, if_true]
              exact SMap.look_above (SMap.above_trans h1 (by omega))
            · simp only [hlt, if_false]
              rw [if_neg (by omega)]
        · grind [SMap.look]
      · have := ih h3
        grind [SMap.look]

/-- A key reads as what was written there, where that is not what an unlisted key reads as. -/
theorem SMap.look_put_self (m : SMap α) (k : Nat) (v : α) (hv : v ≠ d) : SMap.look d (SMap.put d m k v) k = v := by
  induction m with
  | nil => simp [SMap.put, SMap.look, hv]
  | cons e r ih =>
    obtain ⟨k', w⟩ := e
    unfold SMap.put
    split
    · simp [SMap.look]
    · split
      · simp [SMap.look]
      · rename_i h1 h2
        simp [SMap.look, h1, h2, ih]

theorem SMap.above_filter {k : Nat} {m : SMap α} (p : Nat × α → Bool) (h : SMap.above k m = true) (hw : SMap.wf d m = true) :
    SMap.above k (m.filter p) = true := by
  induction m with
  | nil => rfl
  | cons e r ih =>
    obtain ⟨k', w⟩ := e
    have hk : k < k' := by simpa [SMap.above] using h
    obtain ⟨h1, _, h3⟩ := SMap.wf_cons.mp hw
    rw [List.filter_cons]
    split
    · simpa [SMap.above]
    · exact ih (SMap.above_trans h1 (by omega)) h3

/-- Removing entries keeps the canonical form. -/
theorem SMap.wf_filter (m : SMap α) (p : Nat × α → Bool) (h : SMap.wf d m = true) : SMap.wf d (m.filter p) = true := by
  induction m with
  | nil => rfl
  | cons e r ih =>
    obtain ⟨k', w⟩ := e
    obtain ⟨h1, h2, h3⟩ := SMap.wf_cons.mp h
    rw [List.filter_cons]
    split
    · exact SMap.wf_cons.mpr ⟨SMap.above_filter p h1 h3, h2, ih h3⟩
    · exact ih h3

/-- What a key reads as after the entries of some keys are removed. -/
theorem SMap.look_filter (m : SMap α) (p : Nat → Bool) (k : Nat) (h : SMap.wf d m = true) :
    SMap.look d (m.filter fun e => p e.1) k = if p k then SMap.look d m k else d := by
  induction m with
  | nil => simp [SMap.look]
  | cons e r ih =>
    obtain ⟨k', w⟩ := e
    obtain ⟨h1, h2, h3⟩ := SMap.wf_cons.mp h
    have hi := ih h3
    have ha (hk : k ≤ k') : SMap.look d r k = d := SMap.look_above (SMap.above_trans h1 hk)
    rw [List.filter_cons]
    by_cases hp : p k' = true
    · simp only [hp, if_true, SMap.look]
      split
      · split <;> rfl
      · split
        · next he => subst he; simp [hp]
        · exact hi
    · simp only [hp, SMap.look]
      rw [if_neg (by simp), hi]
      have hk : p k = true → k ≠ k' := fun h1 h2 => hp (h2 ▸ h1)
      split
      · next h =>
        rw [if_neg (hk h)]
        split
        · exact ha (by omega)
        · rfl
      · rfl

/-- What a key reads as after a change of one entry. -/
theorem SMap.look_modify (m : SMap α) (k j : Nat) (f : α → α) (h : SMap.wf d m = true) :
    SMap.look d (SMap.modify d m k f) j = if j = k then f (SMap.look d m k) else SMap.look d m j :=
  SMap.look_put m k j _ h

theorem SMap.wf_modify (m : SMap α) (k : Nat) (f : α → α) (h : SMap.wf d m = true) :
    SMap.wf d (SMap.modify d m k f) = true := SMap.wf_put m k _ h

end

/-! ### Byte memories -/

theorem Memory.wf_put (m : Memory) (a : Nat) (v : Byte) (h : Memory.wf m = true) : Memory.wf (SMap.put 0 m a v) = true :=
  SMap.wf_put m a v h

theorem Memory.wf_write (m : Memory) (a : Nat) (l : List Byte) (h : Memory.wf m = true) :
    Memory.wf (Memory.write m a l) = true := by
  induction l generalizing m a with
  | nil => exact h
  | cons b r ih => exact ih _ _ (Memory.wf_put m a b h)

theorem Memory.byte_put (m : Memory) (a x : Nat) (v : Byte) (h : Memory.wf m = true) :
    Memory.byte (SMap.put 0 m a v) x = if x = a then v else Memory.byte m x := SMap.look_put m a x v h

/-- A byte after a write of a list: from the list inside its range, as before outside. -/
theorem Memory.byte_write (m : Memory) (a x : Nat) (l : List Byte) (h : Memory.wf m = true) :
    Memory.byte (Memory.write m a l) x = if a ≤ x ∧ x < a + l.length then l.getD (x - a) 0 else Memory.byte m x := by
  induction l generalizing m a with
  | nil => rw [Memory.write, if_neg (by simp)]
  | cons b r ih =>
    rw [Memory.write, ih _ _ (Memory.wf_put m a b h), Memory.byte_put m a x b h, List.length_cons]
    by_cases hx : x = a
    · subst hx
      rw [if_neg (by omega), if_pos rfl, if_pos (by omega), Nat.sub_self]
      rfl
    · by_cases h1 : a + 1 ≤ x ∧ x < a + 1 + r.length
      · rw [if_pos h1, if_pos (by omega)]
        obtain ⟨n, hn⟩ : ∃ n, x - a = n + 1 := ⟨x - a - 1, by omega⟩
        have : x - (a + 1) = n := by omega
        simp [hn, this]
      · rw [if_neg h1, if_neg hx, if_neg (by omega)]

theorem Memory.read_congr {m n : Memory} {a k : Nat} (h : ∀ x, a ≤ x → x < a + k → Memory.byte m x = Memory.byte n x) :
    Memory.read m a k = Memory.read n a k := by
  induction k generalizing a with
  | zero => rfl
  | succ k ih =>
    rw [Memory.read, Memory.read, h a (by omega) (by omega), ih fun x h1 h2 => h x (by omega) (by omega)]

theorem Memory.length_read (m : Memory) (a n : Nat) : (Memory.read m a n).length = n := by
  induction n generalizing a with
  | zero => rfl
  | succ n ih => rw [Memory.read, List.length_cons, ih]

/-- The bytes read are the bytes of the memory, one by one. -/
theorem Memory.getD_read (m : Memory) (a n i : Nat) (h : i < n) : (Memory.read m a n).getD i 0 = Memory.byte m (a + i) := by
  induction n generalizing a i with
  | zero => omega
  | succ n ih =>
    cases i with
    | zero => simp [Memory.read]
    | succ i =>
      rw [Memory.read, List.getD_cons_succ, ih (a + 1) i (by omega)]
      congr 1
      omega

/-- A read of what a write wrote. -/
theorem Memory.read_write (m : Memory) (a b n : Nat) (l : List Byte) (h : Memory.wf m = true) (h1 : a ≤ b)
    (h2 : b + n ≤ a + l.length) : Memory.read (Memory.write m a l) b n = (l.drop (b - a)).take n := by
  apply List.ext_getElem?
  intro i
  by_cases hi : i < n
  · have hl : i < (Memory.read (Memory.write m a l) b n).length := by rw [Memory.length_read]; exact hi
    have hg := Memory.getD_read (Memory.write m a l) b n i hi
    rw [Memory.byte_write m a (b + i) l h, if_pos (by omega), List.getD_eq_getElem?_getD, List.getElem?_eq_getElem hl,
      Option.getD_some] at hg
    rw [List.getElem?_eq_getElem hl, hg, List.getElem?_take, if_pos hi, List.getElem?_drop, List.getD_eq_getElem?_getD]
    have : b + i - a = b - a + i := by omega
    rw [this, List.getElem?_eq_getElem (by omega)]
    rfl
  · rw [List.getElem?_eq_none (by rw [Memory.length_read]; omega),
      List.getElem?_eq_none (by rw [List.length_take]; omega)]

/-- A read away from a write. -/
theorem Memory.read_write_away (m : Memory) (a b n : Nat) (l : List Byte) (h : Memory.wf m = true)
    (h1 : b + n ≤ a ∨ a + l.length ≤ b) : Memory.read (Memory.write m a l) b n = Memory.read m b n :=
  Memory.read_congr fun x h2 h3 => by rw [Memory.byte_write m a x l h, if_neg (by omega)]

/-! ### Registers -/

theorem Regs.wf_cons {k : Nat} {v : Word} {r : Regs} :
    Regs.wf ((k, v) :: r) = true ↔ SMap.above k r = true ∧ v ≠ resetWord k ∧ Regs.wf r = true := by
  simp [Regs.wf, and_assoc]

theorem Regs.look_above {k : Nat} {r : Regs} (h : SMap.above k r = true) : Regs.look r k = resetWord k := by
  cases r with
  | nil => rfl
  | cons e r =>
    obtain ⟨k', w⟩ := e
    have : k < k' := by simpa [SMap.above] using h
    simp [Regs.look, this]

theorem Regs.above_put {k a : Nat} {v : Word} {r : Regs} (h : SMap.above k r = true) (ha : k < a) (hw : Regs.wf r = true) :
    SMap.above k (Regs.put r a v) = true := by
  cases r with
  | nil => unfold Regs.put; split <;> simp [SMap.above, ha]
  | cons e r =>
    obtain ⟨k', w⟩ := e
    have hk : k < k' := by simpa [SMap.above] using h
    have hr := (Regs.wf_cons.mp hw).1
    unfold Regs.put
    split
    · split <;> simp [SMap.above, ha, hk]
    · split
      · split
        · exact SMap.above_trans hr (by omega)
        · simp [SMap.above, ha]
      · simp [SMap.above, hk]

/-- A write of a register word keeps the canonical form. -/
theorem Regs.wf_put (r : Regs) (a : Nat) (v : Word) (h : Regs.wf r = true) : Regs.wf (Regs.put r a v) = true := by
  induction r with
  | nil => unfold Regs.put; split <;> simp_all [Regs.wf, SMap.above]
  | cons e r ih =>
    obtain ⟨k', w⟩ := e
    obtain ⟨h1, h2, h3⟩ := Regs.wf_cons.mp h
    unfold Regs.put
    split
    · split
      · exact h
      · exact Regs.wf_cons.mpr ⟨by simpa [SMap.above], by assumption, h⟩
    · split
      · split
        · exact h3
        · subst k'
          exact Regs.wf_cons.mpr ⟨h1, by assumption, h3⟩
      · exact Regs.wf_cons.mpr ⟨Regs.above_put h1 (by omega) h3, h2, ih h3⟩

/-- What a register word reads as after a write. -/
theorem Regs.look_put (r : Regs) (a b : Nat) (v : Word) (h : Regs.wf r = true) :
    (Regs.put r a v).look b = if b = a then v else Regs.look r b := by
  induction r with
  | nil => grind [Regs.put, Regs.look]
  | cons e r ih =>
    obtain ⟨k', w⟩ := e
    obtain ⟨h1, h2, h3⟩ := Regs.wf_cons.mp h
    have hk := Regs.look_above h1
    have hb := fun hb : b < k' => Regs.look_above (SMap.above_trans h1 (Nat.le_of_lt hb))
    have := ih h3
    grind [Regs.put, Regs.look]

theorem Regs.above_filter {k : Nat} {r : Regs} (p : Nat × Word → Bool) (h : SMap.above k r = true) (hw : Regs.wf r = true) :
    SMap.above k (r.filter p) = true := by
  induction r with
  | nil => rfl
  | cons e r ih =>
    obtain ⟨k', w⟩ := e
    have hk : k < k' := by simpa [SMap.above] using h
    obtain ⟨h1, _, h3⟩ := Regs.wf_cons.mp hw
    rw [List.filter_cons]
    split
    · simpa [SMap.above]
    · exact ih (SMap.above_trans h1 (by omega)) h3

/-- Removing register words keeps the canonical form. -/
theorem Regs.wf_filter (r : Regs) (p : Nat × Word → Bool) (h : Regs.wf r = true) : Regs.wf (r.filter p) = true := by
  induction r with
  | nil => rfl
  | cons e r ih =>
    obtain ⟨k', w⟩ := e
    obtain ⟨h1, h2, h3⟩ := Regs.wf_cons.mp h
    rw [List.filter_cons]
    split
    · exact Regs.wf_cons.mpr ⟨Regs.above_filter p h1 h3, h2, ih h3⟩
    · exact ih h3

end Sys2Proof.Machine
end

