-- ==== Sys2Proof/Laws/Registers.lean ====
section
/-!
SUPPORT. Laws of bit fields and of the register fields of the state: a field reads back as it was set, and a write of a field
leaves every field of another word, and every disjoint field of its own word, as it was.
-/
namespace Sys2Proof.Machine

/-- `setBits` by quotient and remainder. -/
theorem setBits_eq (n lo w v : Nat) :
    setBits n lo w v = 2 ^ lo * (2 ^ w * (n / 2 ^ lo / 2 ^ w) + v % 2 ^ w) + n % 2 ^ lo := by
  unfold setBits bits
  have h1 := Nat.div_add_mod n (2 ^ lo)
  have h2 := Nat.div_add_mod (n / 2 ^ lo) (2 ^ w)
  generalize n / 2 ^ lo / 2 ^ w = q at *
  generalize hm : n / 2 ^ lo % 2 ^ w = m at *
  generalize hr : n % 2 ^ lo = r at *
  rw [← h2] at h1
  have h3 : 2 ^ lo * (2 ^ w * q + m) = 2 ^ lo * (2 ^ w * q) + m * 2 ^ lo := by rw [Nat.mul_add, Nat.mul_comm (2 ^ lo) m]
  have h4 : 2 ^ lo * (2 ^ w * q + v % 2 ^ w) = 2 ^ lo * (2 ^ w * q) + v % 2 ^ w * 2 ^ lo := by rw [Nat.mul_add, Nat.mul_comm (2 ^ lo) (_ % _)]
  omega

/-- A field reads back as it was set. -/
theorem bits_setBits (n lo w v : Nat) : bits (setBits n lo w v) lo w = v % 2 ^ w := by
  rw [setBits_eq]
  unfold bits
  rw [Nat.mul_add_div (Nat.two_pow_pos lo), Nat.div_eq_of_lt (Nat.mod_lt _ (Nat.two_pow_pos lo)), Nat.add_zero,
    Nat.mul_add_mod, Nat.mod_mod]

theorem bits_eq_mod (n lo w : Nat) : bits n lo w = n % 2 ^ (lo + w) / 2 ^ lo := by
  unfold bits
  rw [Nat.pow_add, Nat.mod_mul_right_div_self]

/-- A field below the one that is set stays. -/
theorem bits_setBits_below (n lo w v lo' w' : Nat) (h : lo' + w' ≤ lo) : bits (setBits n lo w v) lo' w' = bits n lo' w' := by
  obtain ⟨k, rfl⟩ := Nat.exists_eq_add_of_le h
  rw [bits_eq_mod, bits_eq_mod n, setBits_eq]
  congr 1
  rw [Nat.pow_add _ (lo' + w') k, Nat.mul_assoc, Nat.mul_add_mod, Nat.mod_mul_right_mod]

/-- A field above the one that is set stays. -/
theorem bits_setBits_above (n lo w v lo' w' : Nat) (h : lo + w ≤ lo') : bits (setBits n lo w v) lo' w' = bits n lo' w' := by
  obtain ⟨k, rfl⟩ := Nat.exists_eq_add_of_le h
  have hq : setBits n lo w v / 2 ^ (lo + w) = n / 2 ^ (lo + w) := by
    rw [setBits_eq, Nat.pow_add, ← Nat.div_div_eq_div_mul, Nat.mul_add_div (Nat.two_pow_pos lo),
      Nat.div_eq_of_lt (Nat.mod_lt _ (Nat.two_pow_pos lo)), Nat.add_zero, Nat.mul_add_div (Nat.two_pow_pos w),
      Nat.div_eq_of_lt (Nat.mod_lt _ (Nat.two_pow_pos w)), Nat.add_zero, Nat.div_div_eq_div_mul]
  unfold bits
  rw [Nat.pow_add 2 (lo + w) k, ← Nat.div_div_eq_div_mul, ← Nat.div_div_eq_div_mul, hq]

theorem setBits_lt (n lo w v k : Nat) (h : lo + w ≤ k) (hn : n < 2 ^ k) : setBits n lo w v < 2 ^ k := by
  obtain ⟨j, rfl⟩ := Nat.exists_eq_add_of_le h
  have h1 := bits_setBits_above n lo w v (lo + w) j (Nat.le_refl _)
  have h2 : setBits n lo w v / 2 ^ (lo + w) = n / 2 ^ (lo + w) := by
    rw [setBits_eq, Nat.pow_add, ← Nat.div_div_eq_div_mul, Nat.mul_add_div (Nat.two_pow_pos lo),
      Nat.div_eq_of_lt (Nat.mod_lt _ (Nat.two_pow_pos lo)), Nat.add_zero, Nat.mul_add_div (Nat.two_pow_pos w),
      Nat.div_eq_of_lt (Nat.mod_lt _ (Nat.two_pow_pos w)), Nat.add_zero, Nat.div_div_eq_div_mul]
  rw [Nat.pow_add] at hn ⊢
  have h3 : n / 2 ^ (lo + w) < 2 ^ j := Nat.div_lt_of_lt_mul hn
  rw [← h2] at h3
  have := (Nat.div_lt_iff_lt_mul (Nat.two_pow_pos (lo + w))).mp h3
  rwa [Nat.mul_comm] at this

/-- A field that lies inside its word. -/
def Fld.fits (f : Fld) : Bool := decide (f.lo + f.w ≤ 64)

theorem Word.toNat_ofNat_setBits (x : Word) (f : Fld) (v : Nat) (h : f.fits = true) :
    (Word.ofNat (setBits x.toNat f.lo f.w v)).toNat = setBits x.toNat f.lo f.w v := by
  have := setBits_lt x.toNat f.lo f.w v 64 (by simpa [Fld.fits] using h) x.isLt
  rw [BitVec.toNat_ofNat]
  exact Nat.mod_eq_of_lt this

/-! ### The register map -/

theorem Regs.look_set_ne (r : Regs) (b : Nat) (f : Fld) (v a : Nat) (h : r.wf = true) (ha : a ≠ b + f.off) :
    (r.set b f v).look a = r.look a := by
  unfold Regs.set
  rw [Regs.look_put r _ _ _ h, if_neg ha]

theorem Regs.get_set (r : Regs) (b : Nat) (f : Fld) (v : Nat) (h : r.wf = true) (hf : f.fits = true) :
    (r.set b f v).get b f = v % 2 ^ f.w := by
  unfold Regs.get Regs.set
  rw [Regs.look_put r _ _ _ h, if_pos rfl, Word.toNat_ofNat_setBits _ _ _ hf, bits_setBits]

theorem Regs.get_set_word (r : Regs) (b : Nat) (f : Fld) (v c : Nat) (g : Fld) (h : r.wf = true)
    (ha : c + g.off ≠ b + f.off) : (r.set b f v).get c g = r.get c g := by
  unfold Regs.get
  rw [Regs.look_set_ne r b f v _ h ha]

theorem Regs.get_set_field (r : Regs) (b : Nat) (f : Fld) (v c : Nat) (g : Fld) (h : r.wf = true) (hf : f.fits = true)
    (hd : g.lo + g.w ≤ f.lo ∨ f.lo + f.w ≤ g.lo) : (r.set b f v).get c g = r.get c g := by
  by_cases ha : c + g.off = b + f.off
  · unfold Regs.get Regs.set
    rw [ha, Regs.look_put r _ _ _ h, if_pos rfl, Word.toNat_ofNat_setBits _ _ _ hf]
    exact hd.elim (bits_setBits_below _ _ _ _ _ _) (bits_setBits_above _ _ _ _ _ _)
  · exact Regs.get_set_word r b f v c g h ha

theorem Regs.wf_set (r : Regs) (b : Nat) (f : Fld) (v : Nat) (h : r.wf = true) : (r.set b f v).wf = true :=
  Regs.wf_put r _ _ h

/-! ### The register fields of the state -/

theorem State.get_set (s : State) (b : Nat) (f : Fld) (v : Nat) (h : s.regs.wf = true) (hf : f.fits = true := by rfl) :
    (s.set b f v).get b f = v % 2 ^ f.w := Regs.get_set s.regs b f v h hf

theorem State.get_set_word (s : State) (b : Nat) (f : Fld) (v c : Nat) (g : Fld) (h : s.regs.wf = true)
    (ha : c + g.off ≠ b + f.off) : (s.set b f v).get c g = s.get c g := Regs.get_set_word s.regs b f v c g h ha

theorem State.get_set_field (s : State) (b : Nat) (f : Fld) (v c : Nat) (g : Fld) (h : s.regs.wf = true)
    (hd : g.lo + g.w ≤ f.lo ∨ f.lo + f.w ≤ g.lo) (hf : f.fits = true := by rfl) : (s.set b f v).get c g = s.get c g :=
  Regs.get_set_field s.regs b f v c g h hf hd

theorem State.wf_set (s : State) (b : Nat) (f : Fld) (v : Nat) (h : s.regs.wf = true) : (s.set b f v).regs.wf = true :=
  Regs.wf_set s.regs b f v h

/-- A counter reads one more, wrapping at its width, after it is advanced. -/
theorem State.get_bump (s : State) (b : Nat) (f : Fld) (n : Nat) (h : s.regs.wf = true) (hf : f.fits = true := by rfl) :
    (s.bump b f n).get b f = (s.get b f + n) % 2 ^ f.w := Regs.get_set s.regs b f _ h hf

theorem State.get_bump_word (s : State) (b : Nat) (f : Fld) (n c : Nat) (g : Fld) (h : s.regs.wf = true)
    (ha : c + g.off ≠ b + f.off) : (s.bump b f n).get c g = s.get c g := Regs.get_set_word s.regs b f _ c g h ha

theorem State.wf_bump (s : State) (b : Nat) (f : Fld) (n : Nat) (h : s.regs.wf = true) : (s.bump b f n).regs.wf = true :=
  Regs.wf_set s.regs b f _ h

theorem State.chip_congr {s t : State} (h : s.regs = t.regs) (f : Fld) : s.chip f = t.chip f := by
  unfold State.chip State.get
  rw [h]

theorem State.wf_setChip (s : State) (f : Fld) (v : Nat) (h : s.regs.wf = true) : (s.setChip f v).regs.wf = true :=
  Regs.wf_set _ _ _ _ h

theorem State.chip_setChip (s : State) (f : Fld) (v : Nat) (h : s.regs.wf = true) (hf : f.fits = true := by rfl) :
    (s.setChip f v).chip f = v % 2 ^ f.w := State.get_set s chipB f v h hf

/-- Setting a chip field leaves the other chip fields: `ha` is closed by evaluation. -/
theorem State.chip_setChip_ne (s : State) (f : Fld) (v : Nat) (g : Fld) (h : s.regs.wf = true)
    (ha : (g.off != f.off || decide (g.lo + g.w ≤ f.lo) || decide (f.lo + f.w ≤ g.lo)) = true)
    (hf : f.fits = true := by rfl) : (s.setChip f v).chip g = s.chip g := by
  simp only [Bool.or_eq_true, bne_iff_ne, decide_eq_true_eq] at ha
  rcases ha with (ha | ha) | ha
  · exact State.get_set_word s chipB f v chipB g h (by omega)
  · exact State.get_set_field s chipB f v chipB g h (.inl ha) hf
  · exact State.get_set_field s chipB f v chipB g h (.inr ha) hf

end Sys2Proof.Machine
end

