-- ==== Sys2Proof/Laws/Mesh.lean ====
section
/-!
SUPPORT. The mesh keeps its credits: everything that moves a cart keeps `Noc.MeshOk`.
-/
namespace Sys2Proof.Machine

/-- What a cart moved in the mesh may do to it. -/
def NocUpd (m n : Noc) : Prop := m.MeshOk → n.MeshOk

theorem NocUpd.refl (n : Noc) : NocUpd n n := id

theorem NocUpd.trans {a b c : Noc} (h : NocUpd a b) (k : NocUpd b c) : NocUpd a c := fun x => k (h x)

/-- An empty mesh holds no cart and owes no credit. -/
theorem NocUpd.empty (m : Noc) : NocUpd m {} := fun _ => ⟨rfl, rfl, fun _ => ⟨rfl, rfl, rfl, Nat.zero_le _⟩⟩

/-- What is neither a buffer nor a buffer's credits does not matter. -/
theorem NocUpd.other {m n : Noc} (hm : n.mesh = m.mesh) (hb : n.bufs = m.bufs) : NocUpd m n := by
  intro h
  unfold Noc.MeshOk Noc.buf at *
  rw [hm, hb]
  exact h

theorem NocUpd.modQ (m : Noc) (k : Nat) (f : Cq → Cq) : NocUpd m (m.modQ k f) := .other rfl rfl

section
variable {α : Type} [DecidableEq α] {d : α} {f : α → α}

theorem SMap.above_filterMap {k : Nat} {m : SMap α} (h : SMap.above k m = true) (hw : SMap.wf d m = true) :
    SMap.above k (m.filterMap fun e => if f e.2 = d then none else some (e.1, f e.2)) = true := by
  induction m with
  | nil => rfl
  | cons e r ih =>
    obtain ⟨j, v⟩ := e
    obtain ⟨h1, _, h3⟩ := SMap.wf_cons.mp hw
    have hk : k < j := by simpa [SMap.above] using h
    rw [List.filterMap_cons]
    by_cases hv : f v = d
    · simp only [hv, if_true]
      exact ih (SMap.above_trans h1 (by omega)) h3
    · simp [hv, SMap.above, hk]

theorem SMap.wf_filterMap {m : SMap α} (hw : SMap.wf d m = true) :
    SMap.wf d (m.filterMap fun e => if f e.2 = d then none else some (e.1, f e.2)) = true := by
  induction m with
  | nil => rfl
  | cons e r ih =>
    obtain ⟨j, v⟩ := e
    obtain ⟨h1, _, h3⟩ := SMap.wf_cons.mp hw
    rw [List.filterMap_cons]
    by_cases hv : f v = d
    · simp only [hv, if_true]
      exact ih h3
    · simp only [hv, if_false]
      exact SMap.wf_cons.mpr ⟨SMap.above_filterMap h1 h3, hv, ih h3⟩

theorem SMap.look_filterMap {m : SMap α} (hd : f d = d) (k : Nat) (hw : SMap.wf d m = true) :
    SMap.look d (m.filterMap fun e => if f e.2 = d then none else some (e.1, f e.2)) k = f (SMap.look d m k) := by
  induction m with
  | nil => exact hd.symm
  | cons e r ih =>
    obtain ⟨j, v⟩ := e
    obtain ⟨h1, _, h3⟩ := SMap.wf_cons.mp hw
    rw [List.filterMap_cons]
    by_cases hv : f v = d
    · simp only [hv, if_true]
      rw [ih h3]
      by_cases hk : k < j
      · rw [SMap.look_above (SMap.above_trans h1 (by omega))]
        simp [SMap.look, hk]
      · by_cases he : k = j
        · subst he
          rw [SMap.look_above h1]
          simp [SMap.look, hv, hd]
        · simp [SMap.look, hk, he]
    · simp only [hv, if_false]
      by_cases hk : k < j
      · simp [SMap.look, hk, hd]
      · by_cases he : k = j
        · simp [SMap.look, he]
        · simp [SMap.look, hk, he, ih h3]

end

theorem NocUpd.collect (m : Noc) : NocUpd m m.collect := by
  rintro ⟨hm, hb, h⟩
  refine ⟨SMap.wf_filterMap hm, hb, fun b => ?_⟩
  have hc : m.collect.buf b = (m.buf b).collect := SMap.look_filterMap (f := Cq.collect) rfl b hm
  obtain ⟨h1, h2, h3, h4⟩ := h b
  rw [hc]
  simp only [Cq.collect]
  exact ⟨h1, h2, by omega, by omega⟩

/-- A buffer whose credits and carts change together keeps the balance. -/
theorem NocUpd.buffer {m n : Noc} {b : Nat} {l : List NocCart} {f : Cq → Cq} (hm : n.mesh = SMap.modify {} m.mesh b f)
    (hb : n.bufs = SMap.put [] m.bufs b l) (hf : m.MeshOk → (f (m.buf b)).flight = 0 ∧ (f (m.buf b)).buffer = l.length ∧
      (f (m.buf b)).spent = (f (m.buf b)).buffer + (f (m.buf b)).back ∧ (f (m.buf b)).spent ≤ 8) : NocUpd m n := by
  intro h
  have hx := hf h
  obtain ⟨h1, h2, h3⟩ := h
  refine ⟨by rw [hm]; exact SMap.wf_modify _ _ _ h1, by rw [hb]; exact SMap.wf_put _ _ _ h2, fun c => ?_⟩
  unfold Noc.buf at *
  rw [hm, hb, SMap.look_modify _ _ _ _ h1, SMap.look_put _ _ _ _ h2]
  by_cases hc : c = b
  · subst hc
    simpa using hx
  · rw [if_neg hc, if_neg hc]
    exact h3 c

theorem NocUpd.enter (m : Noc) (b : Nat) : NocUpd m (m.enter b) := by
  unfold Noc.enter
  split
  · exact .refl _
  · split
    · exact .refl _
    · refine .buffer (b := b) (f := fun c => c.send.arrive) rfl rfl fun h => ?_
      obtain ⟨h1, h2, h3, h4⟩ := h.2.2 b
      simp only [Cq.send, Cq.arrive, List.length_append, List.length_singleton]
      omega

theorem NocUpd.move (m : Noc) (r o b : Nat) : NocUpd m (m.move r o b) := by
  unfold Noc.move
  split
  · exact .refl _
  · rename_i x rest hl
    dsimp only
    split
    · exact .refl _
    · rename_i hc
      intro h
      have hn : Noc.MeshOk (Noc.modBuf
          { m with bufs := SMap.put [] m.bufs b rest, served := SMap.put 0 m.served (6 * r + o) (b % 8 + 1) } b fun c => c.leave) := by
        refine NocUpd.buffer (m := m) (b := b) (l := rest) (f := fun c => c.leave) rfl rfl (fun h => ?_) h
        obtain ⟨h1, h2, h3, h4⟩ := h.2.2 b
        rw [hl] at h2
        simp only [Cq.leave, List.length_cons] at *
        omega
      have hs : (Noc.buf (Noc.modBuf
          { m with bufs := SMap.put [] m.bufs b rest, served := SMap.put 0 m.served (6 * r + o) (b % 8 + 1) } b fun c => c.leave)
          (linkBuf r o (b % 8))).spent = (m.buf (linkBuf r o (b % 8))).spent := by
        show Cq.spent (SMap.look {} (SMap.modify {} m.mesh b fun c => c.leave) _) = Cq.spent (SMap.look {} m.mesh _)
        rw [SMap.look_modify _ _ _ _ h.1]
        split
        · rename_i he
          rw [he]
          rfl
        · rfl
      revert hn hs
      generalize Noc.modBuf { m with bufs := SMap.put [] m.bufs b rest, served := SMap.put 0 m.served (6 * r + o) (b % 8 + 1) } b
        (fun c => c.leave) = n
      intro hn hs
      split
      · refine NocUpd.buffer (m := n) (b := linkBuf r o (b % 8)) (f := fun c => c.send.arrive) rfl rfl (fun k => ?_) hn
        obtain ⟨h1, h2, h3, h4⟩ := k.2.2 (linkBuf r o (b % 8))
        simp only [Cq.send, Cq.arrive, List.length_append, List.length_singleton]
        omega
      · exact NocUpd.modQ _ _ _ hn

theorem NocUpd.foldl {α : Type} {f : Noc → α → Noc} (l : List α) (m : Noc) (hf : ∀ n x, NocUpd n (f n x)) : NocUpd m (l.foldl f m) := by
  induction l generalizing m with
  | nil => exact .refl _
  | cons a r ih => exact .trans (hf m a) (ih _)

/-- A cycle of the mesh keeps its credits. -/
theorem NocUpd.cycle (m : Noc) : NocUpd m m.cycle := by
  unfold Noc.cycle
  refine .trans (.collect m) ?_
  dsimp only
  exact .trans (.foldl (f := fun n (e : Nat × List NocCart) => (n.enter e.1).enter e.1) _ _ fun n e => .trans (.enter n _) (.enter _ _))
    (.foldl (f := fun n (x : Nat × Nat × Nat) => n.move x.1 x.2.1 x.2.2) _ _ fun n x => .move n _ _ _)

theorem NocUpd.await (q k f : Nat) (m : Noc) : NocUpd m (Noc.await q k f m) := by
  induction f generalizing m with
  | zero => exact .refl _
  | succ n ih =>
    unfold Noc.await
    split
    · exact .refl _
    · exact .trans (.cycle m) (ih _)

end Sys2Proof.Machine
end

