-- ==== Sys2Proof/Laws/Upd.lean ====
section
/-!
SUPPORT. What an operation may do to the state, said once: `Upd F s t` says that `t` comes from `s` by changes of the fields
in `F` alone, each change of a register map or a byte memory made of writes and removals. Every operation of the machine has
one lemma of this form; frames and invariants follow from it.
-/
namespace Sys2Proof.Machine

/-- Every field of `G` is one of `F`. -/
def Part.Sub (G F : List Part) : Prop := G.all F.contains = true

/-- A register map reached by writes and removals of words. -/
inductive RegsUpd : Regs → Regs → Prop
  | refl (r : Regs) : RegsUpd r r
  | put {r q : Regs} (h : RegsUpd r q) (a : Nat) (v : Word) : RegsUpd r (q.put a v)
  | filter {r q : Regs} (h : RegsUpd r q) (p : Nat × Word → Bool) : RegsUpd r (q.filter p)

/-- A byte memory reached by writes and removals of bytes. -/
inductive MemUpd : Memory → Memory → Prop
  | refl (m : Memory) : MemUpd m m
  | put {m n : Memory} (h : MemUpd m n) (a : Nat) (v : Byte) : MemUpd m (SMap.put 0 n a v)
  | filter {m n : Memory} (h : MemUpd m n) (p : Nat × Byte → Bool) : MemUpd m (n.filter p)

/-- Fuses only ever burn. -/
structure FusesUpd (f g : Fuses) : Prop where
  svn : f.svn ≤ g.svn
  cores : ∀ c ∈ f.cores, c ∈ g.cores
  rows : ∀ r ∈ f.rows, r ∈ g.rows
  keyHash : g.keyHash = f.keyHash
  revoke : g.revoke = f.revoke
  scanLock : g.scanLock = f.scanLock
  serial : g.serial = f.serial
  dkN : g.dkN = f.dkN
  dkD : g.dkD = f.dkD
  iosc : g.iosc = f.iosc

/-- `t` comes from `s` by changes of the fields in `F` alone. -/
structure Upd (F : List Part) (s t : State) : Prop where
  pending : t.pending = s.pending
  free : s.free ≤ t.free
  gcount : s.gcount < 2 ^ 64 → t.gcount < 2 ^ 64
  regs : RegsUpd s.regs t.regs
  hbm : MemUpd s.hbm.bytes t.hbm.bytes
  spm : MemUpd s.spm.bytes t.spm.bytes
  mbox : MemUpd s.mbox t.mbox
  fuses : FusesUpd s.fuses t.fuses
  noc : NocUpd s.noc t.noc
  keep : ∀ f, F.contains f = false → f.same s t

theorem Part.Sub.of {G F : List Part} (h : G.all F.contains = true) : Part.Sub G F := h

theorem Part.Sub.trans {A B C : List Part} (h : Part.Sub A B) (k : Part.Sub B C) : Part.Sub A C :=
  List.all_eq_true.mpr fun f m => List.all_eq_true.mp k f (List.contains_iff_mem.mp (List.all_eq_true.mp h f m))

theorem Part.Sub.has {G F : List Part} (h : Part.Sub G F) (f : Part) (m : f ∈ G) : F.contains f = true := List.all_eq_true.mp h f m

theorem RegsUpd.trans {a b c : Regs} (h : RegsUpd a b) (k : RegsUpd b c) : RegsUpd a c := by
  induction k with
  | refl => exact h
  | put _ a v ih => exact .put ih a v
  | filter _ p ih => exact .filter ih p

theorem MemUpd.trans {a b c : Memory} (h : MemUpd a b) (k : MemUpd b c) : MemUpd a c := by
  induction k with
  | refl => exact h
  | put _ a v ih => exact .put ih a v
  | filter _ p ih => exact .filter ih p

theorem MemUpd.write {m n : Memory} (h : MemUpd m n) (a : Nat) (l : List Byte) : MemUpd m (Memory.write n a l) := by
  induction l generalizing n a with
  | nil => exact h
  | cons b r ih => exact ih (.put h a b) (a + 1)

theorem MemUpd.dropRange {m n : Memory} (h : MemUpd m n) (a b : Nat) : MemUpd m (SMap.dropRange n a b) := .filter h _

theorem MemUpd.nil {m n : Memory} (h : MemUpd m n) : MemUpd m [] := by
  have k := MemUpd.filter h (fun _ => false)
  rwa [List.filter_eq_nil_iff.mpr (by simp)] at k

theorem RegsUpd.nil {r q : Regs} (h : RegsUpd r q) : RegsUpd r [] := by
  have k := RegsUpd.filter h (fun _ => false)
  rwa [List.filter_eq_nil_iff.mpr (by simp)] at k

theorem FusesUpd.refl (f : Fuses) : FusesUpd f f := ⟨Nat.le_refl _, fun _ h => h, fun _ h => h, rfl, rfl, rfl, rfl, rfl, rfl, rfl⟩

theorem FusesUpd.trans {f g k : Fuses} (h : FusesUpd f g) (j : FusesUpd g k) : FusesUpd f k :=
  ⟨Nat.le_trans h.svn j.svn, fun c m => j.cores c (h.cores c m), fun c m => j.rows c (h.rows c m),
    j.keyHash.trans h.keyHash, j.revoke.trans h.revoke, j.scanLock.trans h.scanLock, j.serial.trans h.serial,
    j.dkN.trans h.dkN, j.dkD.trans h.dkD, j.iosc.trans h.iosc⟩

theorem mem_insertNat {c k : Nat} {l : List Nat} (h : c ∈ l) : c ∈ insertNat k l := by
  induction l with
  | nil => cases h
  | cons x r ih =>
    unfold insertNat
    split
    · exact List.mem_cons_of_mem _ h
    · split
      · exact h
      · cases h with
        | head => exact List.mem_cons_self
        | tail _ m => exact List.mem_cons_of_mem _ (ih m)

/-- Burning a core's fuse. -/
theorem FusesUpd.addCore {f : Fuses} {a : Nat} : FusesUpd f { f with cores := insertNat a f.cores } :=
  ⟨Nat.le_refl _, fun _ h => mem_insertNat h, fun _ h => h, rfl, rfl, rfl, rfl, rfl, rfl, rfl⟩

/-- Burning a row's fuse. -/
theorem FusesUpd.addRow {f : Fuses} {r : Nat × Nat × Nat} :
    FusesUpd f { f with rows := if f.rows.contains r then f.rows else f.rows ++ [r] } :=
  ⟨Nat.le_refl _, fun _ h => h, fun x h => by
    show x ∈ (if f.rows.contains r then f.rows else f.rows ++ [r])
    split
    · exact h
    · exact List.mem_append_left _ h, rfl, rfl, rfl, rfl, rfl, rfl, rfl⟩

namespace Upd

variable {F : List Part} {s₀ s t : State}

theorem same_trans {s t u : State} {f : Part} (h : f.same s t) (k : f.same t u) : f.same s u := by
  cases f <;> exact Eq.trans k h

theorem refl (s : State) : Upd F s s :=
  ⟨rfl, Nat.le_refl _, fun h => h, .refl _, .refl _, .refl _, .refl _, .refl _, .refl _, fun f _ => by cases f <;> rfl⟩

theorem trans (h : Upd F s₀ s) (k : Upd F s t) : Upd F s₀ t :=
  ⟨k.pending.trans h.pending, Nat.le_trans h.free k.free, fun x => k.gcount (h.gcount x), h.regs.trans k.regs,
    h.hbm.trans k.hbm, h.spm.trans k.spm, h.mbox.trans k.mbox, h.fuses.trans k.fuses, h.noc.trans k.noc,
    fun f hf => same_trans (h.keep f hf) (k.keep f hf)⟩

theorem mono {G : List Part} (h : Upd F s t) (hG : Part.Sub F G) : Upd G s t :=
  ⟨h.pending, h.free, h.gcount, h.regs, h.hbm, h.spm, h.mbox, h.fuses, h.noc, fun f hf => h.keep f (by
    cases hc : F.contains f with
    | false => rfl
    | true =>
      have hm := List.all_eq_true.mp hG f (List.contains_iff_mem.mp hc)
      rw [hf] at hm
      exact absurd hm Bool.false_ne_true)⟩

/-- A change by an operation that is known to change only fields of `G`, all of them in `F`. -/
theorem by_ {G : List Part} (h : Upd F s₀ s) (k : Upd G s t) (hG : Part.Sub G F) : Upd F s₀ t := h.trans (k.mono hG)

theorem ite {c : Prop} [Decidable c] {a b : State} (ha : Upd F s₀ a) (hb : Upd F s₀ b) : Upd F s₀ (if c then a else b) := by
  split
  · exact ha
  · exact hb

theorem foldl {α : Type} {f : State → α → State} (l : List α) (h : Upd F s₀ s)
    (hf : ∀ s x, Upd F s₀ s → Upd F s₀ (f s x)) : Upd F s₀ (l.foldl f s) := by
  induction l generalizing s with
  | nil => exact h
  | cons a r ih => exact ih (hf s a h)

/-- A fold over an accumulator that holds a state. -/
theorem acc {α β : Type} (π : β → State) {f : β → α → β} (l : List α) {r : β} (h : Upd F s₀ (π r))
    (hf : ∀ r x, Upd F s₀ (π r) → Upd F s₀ (π (f r x))) : Upd F s₀ (π (l.foldl f r)) := by
  induction l generalizing r with
  | nil => exact h
  | cons a l ih => exact ih (hf r a h)

/-- Several fields change at once. -/
theorem fields {F : List Part} {s₀ s : State} {free : Nat} {gcount : Nat} {regs : Regs} {hbm : Hbm} {spm : Spm} {cores : SMap
      Core} {coaches : SMap Coach} {vecs : SMap Vec} {mbox : Memory} {inprog : List InProg} {lastCoach : Nat} {xlate : Xlate}
      {tables : SMap TblSlot} {graphs : SMap (Option Graph)} {gs : Gs} {sb : Sb} {link : Link} {boot : Boot} {fuses : Fuses}
      {pwr : Pwr} {svc : Svc} {jtag : Jtag} {log : Log} {ledger : Ledger} {noc : Noc}
    (h : Upd F s₀ s)
    (kfree : free = s.free ∨ Part.Sub [.free] F) (kgcount : gcount = s.gcount ∨ Part.Sub [.gcount] F)
    (kregs : regs = s.regs ∨ Part.Sub [.regs] F) (khbm : hbm = s.hbm ∨ Part.Sub [.hbm] F) (kspm : spm = s.spm ∨ Part.Sub [.spm] F)
    (kcores : cores = s.cores ∨ Part.Sub [.cores] F) (kcoaches : coaches = s.coaches ∨ Part.Sub [.coaches] F)
    (kvecs : vecs = s.vecs ∨ Part.Sub [.vecs] F) (kmbox : mbox = s.mbox ∨ Part.Sub [.mbox] F)
    (kinprog : inprog = s.inprog ∨ Part.Sub [.inprog] F) (klastCoach : lastCoach = s.lastCoach ∨ Part.Sub [.lastCoach] F)
    (kxlate : xlate = s.xlate ∨ Part.Sub [.xlate] F) (ktables : tables = s.tables ∨ Part.Sub [.tables] F)
    (kgraphs : graphs = s.graphs ∨ Part.Sub [.graphs] F) (kgs : gs = s.gs ∨ Part.Sub [.gs] F) (ksb : sb = s.sb ∨ Part.Sub [.sb] F)
    (klink : link = s.link ∨ Part.Sub [.link] F) (kboot : boot = s.boot ∨ Part.Sub [.boot] F)
    (kfuses : fuses = s.fuses ∨ Part.Sub [.fuses] F) (kpwr : pwr = s.pwr ∨ Part.Sub [.pwr] F)
    (ksvc : svc = s.svc ∨ Part.Sub [.svc] F) (kjtag : jtag = s.jtag ∨ Part.Sub [.jtag] F) (klog : log = s.log ∨ Part.Sub [.log] F)
    (kledger : ledger = s.ledger ∨ Part.Sub [.ledger] F) (knoc : noc = s.noc ∨ Part.Sub [.noc] F)
    (mfree : s.free ≤ free) (mgcount : s.gcount < 2 ^ 64 → gcount < 2 ^ 64) (mregs : RegsUpd s.regs regs)
    (mhbm : MemUpd s.hbm.bytes hbm.bytes) (mspm : MemUpd s.spm.bytes spm.bytes) (mmbox : MemUpd s.mbox mbox)
    (mfuses : FusesUpd s.fuses fuses) (mnoc : NocUpd s.noc noc) :
    Upd F s₀ (State.mk s.pending free gcount regs hbm spm cores coaches vecs mbox inprog lastCoach xlate tables
      graphs gs sb link boot fuses pwr svc jtag log ledger noc) := by
  refine h.trans ⟨rfl, mfree, mgcount, mregs, mhbm, mspm, mmbox, mfuses, mnoc, fun f hf => ?_⟩
  have sub (f : Part) (k : Part.Sub [f] F) (hf : F.contains f = false) : False := by
    rw [k.has f (List.mem_singleton_self f)] at hf
    exact Bool.noConfusion hf
  cases f
  case free => exact kfree.elim id fun k => (sub _ k hf).elim
  case gcount => exact kgcount.elim id fun k => (sub _ k hf).elim
  case regs => exact kregs.elim id fun k => (sub _ k hf).elim
  case hbm => exact khbm.elim id fun k => (sub _ k hf).elim
  case spm => exact kspm.elim id fun k => (sub _ k hf).elim
  case cores => exact kcores.elim id fun k => (sub _ k hf).elim
  case coaches => exact kcoaches.elim id fun k => (sub _ k hf).elim
  case vecs => exact kvecs.elim id fun k => (sub _ k hf).elim
  case mbox => exact kmbox.elim id fun k => (sub _ k hf).elim
  case inprog => exact kinprog.elim id fun k => (sub _ k hf).elim
  case lastCoach => exact klastCoach.elim id fun k => (sub _ k hf).elim
  case xlate => exact kxlate.elim id fun k => (sub _ k hf).elim
  case tables => exact ktables.elim id fun k => (sub _ k hf).elim
  case graphs => exact kgraphs.elim id fun k => (sub _ k hf).elim
  case gs => exact kgs.elim id fun k => (sub _ k hf).elim
  case sb => exact ksb.elim id fun k => (sub _ k hf).elim
  case link => exact klink.elim id fun k => (sub _ k hf).elim
  case boot => exact kboot.elim id fun k => (sub _ k hf).elim
  case fuses => exact kfuses.elim id fun k => (sub _ k hf).elim
  case pwr => exact kpwr.elim id fun k => (sub _ k hf).elim
  case svc => exact ksvc.elim id fun k => (sub _ k hf).elim
  case jtag => exact kjtag.elim id fun k => (sub _ k hf).elim
  case log => exact klog.elim id fun k => (sub _ k hf).elim
  case ledger => exact kledger.elim id fun k => (sub _ k hf).elim
  case noc => exact knoc.elim id fun k => (sub _ k hf).elim

theorem gcount_id {s : State} : s.gcount < 2 ^ 64 → s.gcount < 2 ^ 64 := id

theorem gcount_mod {s : State} {x : Nat} : s.gcount < 2 ^ 64 → x % 2 ^ 64 < 2 ^ 64 := fun _ => Nat.mod_lt _ (by decide)

theorem gcount_zero {s : State} : s.gcount < 2 ^ 64 → 0 < 2 ^ 64 := fun _ => by decide

theorem gcount_int {s : State} {x : Int} : s.gcount < 2 ^ 64 → (x % (2 ^ 64 : Nat)).toNat < 2 ^ 64 := fun _ => by omega

theorem next (h : Upd F s₀ s) : ∃ t, (Host.Outcome.next s : Res) = .next t ∧ Upd F s₀ t := ⟨s, rfl, h⟩

end Upd

namespace Upd

variable {F : List Part} {s₀ s : State}

theorem cores (x : SMap Core) (h : Upd F s₀ s) (hF : Part.Sub [.cores] F) : Upd F s₀ { s with cores := x } :=
  ⟨h.pending, h.free, h.gcount, h.regs, h.hbm, h.spm, h.mbox, h.fuses, h.noc, fun f hf => by
    cases f <;> first | exact h.keep _ hf | (have := hF.has _ (List.mem_singleton_self _); rw [this] at hf; exact absurd hf Bool.noConfusion)⟩

theorem coaches (x : SMap Coach) (h : Upd F s₀ s) (hF : Part.Sub [.coaches] F) : Upd F s₀ { s with coaches := x } :=
  ⟨h.pending, h.free, h.gcount, h.regs, h.hbm, h.spm, h.mbox, h.fuses, h.noc, fun f hf => by
    cases f <;> first | exact h.keep _ hf | (have := hF.has _ (List.mem_singleton_self _); rw [this] at hf; exact absurd hf Bool.noConfusion)⟩

theorem vecs (x : SMap Vec) (h : Upd F s₀ s) (hF : Part.Sub [.vecs] F) : Upd F s₀ { s with vecs := x } :=
  ⟨h.pending, h.free, h.gcount, h.regs, h.hbm, h.spm, h.mbox, h.fuses, h.noc, fun f hf => by
    cases f <;> first | exact h.keep _ hf | (have := hF.has _ (List.mem_singleton_self _); rw [this] at hf; exact absurd hf Bool.noConfusion)⟩

theorem inprog (x : List InProg) (h : Upd F s₀ s) (hF : Part.Sub [.inprog] F) : Upd F s₀ { s with inprog := x } :=
  ⟨h.pending, h.free, h.gcount, h.regs, h.hbm, h.spm, h.mbox, h.fuses, h.noc, fun f hf => by
    cases f <;> first | exact h.keep _ hf | (have := hF.has _ (List.mem_singleton_self _); rw [this] at hf; exact absurd hf Bool.noConfusion)⟩

theorem lastCoach (x : Nat) (h : Upd F s₀ s) (hF : Part.Sub [.lastCoach] F) : Upd F s₀ { s with lastCoach := x } :=
  ⟨h.pending, h.free, h.gcount, h.regs, h.hbm, h.spm, h.mbox, h.fuses, h.noc, fun f hf => by
    cases f <;> first | exact h.keep _ hf | (have := hF.has _ (List.mem_singleton_self _); rw [this] at hf; exact absurd hf Bool.noConfusion)⟩

theorem xlate (x : Xlate) (h : Upd F s₀ s) (hF : Part.Sub [.xlate] F) : Upd F s₀ { s with xlate := x } :=
  ⟨h.pending, h.free, h.gcount, h.regs, h.hbm, h.spm, h.mbox, h.fuses, h.noc, fun f hf => by
    cases f <;> first | exact h.keep _ hf | (have := hF.has _ (List.mem_singleton_self _); rw [this] at hf; exact absurd hf Bool.noConfusion)⟩

theorem tables (x : SMap TblSlot) (h : Upd F s₀ s) (hF : Part.Sub [.tables] F) : Upd F s₀ { s with tables := x } :=
  ⟨h.pending, h.free, h.gcount, h.regs, h.hbm, h.spm, h.mbox, h.fuses, h.noc, fun f hf => by
    cases f <;> first | exact h.keep _ hf | (have := hF.has _ (List.mem_singleton_self _); rw [this] at hf; exact absurd hf Bool.noConfusion)⟩

theorem graphs (x : SMap (Option Graph)) (h : Upd F s₀ s) (hF : Part.Sub [.graphs] F) : Upd F s₀ { s with graphs := x } :=
  ⟨h.pending, h.free, h.gcount, h.regs, h.hbm, h.spm, h.mbox, h.fuses, h.noc, fun f hf => by
    cases f <;> first | exact h.keep _ hf | (have := hF.has _ (List.mem_singleton_self _); rw [this] at hf; exact absurd hf Bool.noConfusion)⟩

theorem gs (x : Gs) (h : Upd F s₀ s) (hF : Part.Sub [.gs] F) : Upd F s₀ { s with gs := x } :=
  ⟨h.pending, h.free, h.gcount, h.regs, h.hbm, h.spm, h.mbox, h.fuses, h.noc, fun f hf => by
    cases f <;> first | exact h.keep _ hf | (have := hF.has _ (List.mem_singleton_self _); rw [this] at hf; exact absurd hf Bool.noConfusion)⟩

theorem sb (x : Sb) (h : Upd F s₀ s) (hF : Part.Sub [.sb] F) : Upd F s₀ { s with sb := x } :=
  ⟨h.pending, h.free, h.gcount, h.regs, h.hbm, h.spm, h.mbox, h.fuses, h.noc, fun f hf => by
    cases f <;> first | exact h.keep _ hf | (have := hF.has _ (List.mem_singleton_self _); rw [this] at hf; exact absurd hf Bool.noConfusion)⟩

theorem link (x : Link) (h : Upd F s₀ s) (hF : Part.Sub [.link] F) : Upd F s₀ { s with link := x } :=
  ⟨h.pending, h.free, h.gcount, h.regs, h.hbm, h.spm, h.mbox, h.fuses, h.noc, fun f hf => by
    cases f <;> first | exact h.keep _ hf | (have := hF.has _ (List.mem_singleton_self _); rw [this] at hf; exact absurd hf Bool.noConfusion)⟩

theorem boot (x : Boot) (h : Upd F s₀ s) (hF : Part.Sub [.boot] F) : Upd F s₀ { s with boot := x } :=
  ⟨h.pending, h.free, h.gcount, h.regs, h.hbm, h.spm, h.mbox, h.fuses, h.noc, fun f hf => by
    cases f <;> first | exact h.keep _ hf | (have := hF.has _ (List.mem_singleton_self _); rw [this] at hf; exact absurd hf Bool.noConfusion)⟩

theorem pwr (x : Pwr) (h : Upd F s₀ s) (hF : Part.Sub [.pwr] F) : Upd F s₀ { s with pwr := x } :=
  ⟨h.pending, h.free, h.gcount, h.regs, h.hbm, h.spm, h.mbox, h.fuses, h.noc, fun f hf => by
    cases f <;> first | exact h.keep _ hf | (have := hF.has _ (List.mem_singleton_self _); rw [this] at hf; exact absurd hf Bool.noConfusion)⟩

theorem svc (x : Svc) (h : Upd F s₀ s) (hF : Part.Sub [.svc] F) : Upd F s₀ { s with svc := x } :=
  ⟨h.pending, h.free, h.gcount, h.regs, h.hbm, h.spm, h.mbox, h.fuses, h.noc, fun f hf => by
    cases f <;> first | exact h.keep _ hf | (have := hF.has _ (List.mem_singleton_self _); rw [this] at hf; exact absurd hf Bool.noConfusion)⟩

theorem jtag (x : Jtag) (h : Upd F s₀ s) (hF : Part.Sub [.jtag] F) : Upd F s₀ { s with jtag := x } :=
  ⟨h.pending, h.free, h.gcount, h.regs, h.hbm, h.spm, h.mbox, h.fuses, h.noc, fun f hf => by
    cases f <;> first | exact h.keep _ hf | (have := hF.has _ (List.mem_singleton_self _); rw [this] at hf; exact absurd hf Bool.noConfusion)⟩

theorem log (x : Log) (h : Upd F s₀ s) (hF : Part.Sub [.log] F) : Upd F s₀ { s with log := x } :=
  ⟨h.pending, h.free, h.gcount, h.regs, h.hbm, h.spm, h.mbox, h.fuses, h.noc, fun f hf => by
    cases f <;> first | exact h.keep _ hf | (have := hF.has _ (List.mem_singleton_self _); rw [this] at hf; exact absurd hf Bool.noConfusion)⟩

theorem ledger (x : Ledger) (h : Upd F s₀ s) (hF : Part.Sub [.ledger] F) : Upd F s₀ { s with ledger := x } :=
  ⟨h.pending, h.free, h.gcount, h.regs, h.hbm, h.spm, h.mbox, h.fuses, h.noc, fun f hf => by
    cases f <;> first | exact h.keep _ hf | (have := hF.has _ (List.mem_singleton_self _); rw [this] at hf; exact absurd hf Bool.noConfusion)⟩

theorem setNoc (x : Noc) (h : Upd F s₀ s) (hF : Part.Sub [.noc] F) (k : NocUpd s.noc x) : Upd F s₀ { s with noc := x } :=
  ⟨h.pending, h.free, h.gcount, h.regs, h.hbm, h.spm, h.mbox, h.fuses, h.noc.trans k, fun f hf => by
    cases f <;> first | exact h.keep _ hf | (have := hF.has _ (List.mem_singleton_self _); rw [this] at hf; exact absurd hf Bool.noConfusion)⟩

theorem setFree (x : Nat) (h : Upd F s₀ s) (hF : Part.Sub [.free] F) (k : s.free ≤ x) :
    Upd F s₀ { s with free := x } :=
  ⟨h.pending, Nat.le_trans h.free k, h.gcount, h.regs, h.hbm, h.spm, h.mbox, h.fuses, h.noc, fun f hf => by
    cases f <;> first | exact h.keep _ hf | (have := hF.has _ (List.mem_singleton_self _); rw [this] at hf; exact absurd hf Bool.noConfusion)⟩

theorem setGcount (x : Nat) (h : Upd F s₀ s) (hF : Part.Sub [.gcount] F) (k : s.gcount < 2 ^ 64 → x < 2 ^ 64) :
    Upd F s₀ { s with gcount := x } :=
  ⟨h.pending, h.free, fun y => k (h.gcount y), h.regs, h.hbm, h.spm, h.mbox, h.fuses, h.noc, fun f hf => by
    cases f <;> first | exact h.keep _ hf | (have := hF.has _ (List.mem_singleton_self _); rw [this] at hf; exact absurd hf Bool.noConfusion)⟩

theorem setRegs (x : Regs) (h : Upd F s₀ s) (hF : Part.Sub [.regs] F) (k : RegsUpd s.regs x) :
    Upd F s₀ { s with regs := x } :=
  ⟨h.pending, h.free, h.gcount, h.regs.trans k, h.hbm, h.spm, h.mbox, h.fuses, h.noc, fun f hf => by
    cases f <;> first | exact h.keep _ hf | (have := hF.has _ (List.mem_singleton_self _); rw [this] at hf; exact absurd hf Bool.noConfusion)⟩

theorem setHbm (x : Hbm) (h : Upd F s₀ s) (hF : Part.Sub [.hbm] F) (k : MemUpd s.hbm.bytes x.bytes) :
    Upd F s₀ { s with hbm := x } :=
  ⟨h.pending, h.free, h.gcount, h.regs, h.hbm.trans k, h.spm, h.mbox, h.fuses, h.noc, fun f hf => by
    cases f <;> first | exact h.keep _ hf | (have := hF.has _ (List.mem_singleton_self _); rw [this] at hf; exact absurd hf Bool.noConfusion)⟩

theorem setSpm (x : Spm) (h : Upd F s₀ s) (hF : Part.Sub [.spm] F) (k : MemUpd s.spm.bytes x.bytes) :
    Upd F s₀ { s with spm := x } :=
  ⟨h.pending, h.free, h.gcount, h.regs, h.hbm, h.spm.trans k, h.mbox, h.fuses, h.noc, fun f hf => by
    cases f <;> first | exact h.keep _ hf | (have := hF.has _ (List.mem_singleton_self _); rw [this] at hf; exact absurd hf Bool.noConfusion)⟩

theorem setMbox (x : Memory) (h : Upd F s₀ s) (hF : Part.Sub [.mbox] F) (k : MemUpd s.mbox x) :
    Upd F s₀ { s with mbox := x } :=
  ⟨h.pending, h.free, h.gcount, h.regs, h.hbm, h.spm, h.mbox.trans k, h.fuses, h.noc, fun f hf => by
    cases f <;> first | exact h.keep _ hf | (have := hF.has _ (List.mem_singleton_self _); rw [this] at hf; exact absurd hf Bool.noConfusion)⟩

theorem setFuses (x : Fuses) (h : Upd F s₀ s) (hF : Part.Sub [.fuses] F) (k : FusesUpd s.fuses x) :
    Upd F s₀ { s with fuses := x } :=
  ⟨h.pending, h.free, h.gcount, h.regs, h.hbm, h.spm, h.mbox, h.fuses.trans k, h.noc, fun f hf => by
    cases f <;> first | exact h.keep _ hf | (have := hF.has _ (List.mem_singleton_self _); rw [this] at hf; exact absurd hf Bool.noConfusion)⟩

end Upd

/-- `Upd` of the state that stands first in a pair. -/
def Upd1 (F : List Part) (s₀ : State) {β : Type} (r : State × β) : Prop := Upd F s₀ r.1

namespace Upd1

variable {F : List Part} {s₀ s : State} {β : Type}

theorem fst {r : State × β} (h : Upd1 F s₀ r) : Upd F s₀ r.1 := h

theorem mk {x : β} (h : Upd F s₀ s) : Upd1 F s₀ (s, x) := h

theorem of {x : β} {r : State × β} (e : r = (s, x)) (h : Upd1 F s₀ r) : Upd F s₀ s := by
  rw [e] at h
  exact h

theorem ite {c : Prop} [Decidable c] {a b : State × β} (ha : Upd1 F s₀ a) (hb : Upd1 F s₀ b) :
    Upd1 F s₀ (if c then a else b) := by
  split
  · exact ha
  · exact hb

theorem foldl {α : Type} {f : State × β → α → State × β} (l : List α) {r : State × β} (h : Upd1 F s₀ r)
    (hf : ∀ r x, Upd1 F s₀ r → Upd1 F s₀ (f r x)) : Upd1 F s₀ (l.foldl f r) := by
  induction l generalizing r with
  | nil => exact h
  | cons a l ih => exact ih (hf r a h)

theorem by_ {G : List Part} {r : State × β} (h : Upd F s₀ s) (k : Upd1 G s r) (hG : Part.Sub G F) : Upd1 F s₀ r := h.by_ k hG

end Upd1

/-! ### The work of an engine -/

/-- The state that a piece of engine work leaves, whether it goes on or meets a fault. -/
def Eng.after {α : Type} (m : Eng α) (s : State) : State :=
  match m s with
  | .ok _ t => t
  | .error _ t => t

/-- From every state reached from `s₀` by changes of `F`, the work leaves one reached likewise. -/
structure EngUpd (F : List Part) (s₀ : State) {α : Type} (m : Eng α) : Prop where
  after : ∀ s, Upd F s₀ s → Upd F s₀ (Eng.after m s)

namespace EngUpd

variable {F : List Part} {s₀ : State} {α β : Type}

theorem pure (a : α) : EngUpd F s₀ (Pure.pure a : Eng α) := ⟨fun _ h => h⟩

theorem throw (e : Flt) : EngUpd F s₀ (MonadExcept.throw e : Eng α) := ⟨fun _ h => h⟩

theorem bind {m : Eng α} {f : α → Eng β} (hm : EngUpd F s₀ m) (hf : ∀ a, EngUpd F s₀ (f a)) : EngUpd F s₀ (m >>= f) := by
  refine ⟨fun s h => ?_⟩
  have h1 := hm.after s h
  unfold Eng.after at h1 ⊢
  show Upd F s₀ (match EStateM.bind m f s with | .ok _ t => t | .error _ t => t)
  unfold EStateM.bind
  cases hs : m s with
  | ok a t => rw [hs] at h1; exact (hf a).after t h1
  | error e t => rw [hs] at h1; exact h1

theorem getBind {f : State → Eng β} (hf : ∀ s, Upd F s₀ s → EngUpd F s₀ (f s)) : EngUpd F s₀ (MonadState.get >>= f) :=
  ⟨fun s h => (hf s h).after s h⟩

theorem set {t : State} (h : Upd F s₀ t) : EngUpd F s₀ (MonadStateOf.set t : Eng PUnit) := ⟨fun _ _ => h⟩

theorem modify {f : State → State} (hf : ∀ s, Upd F s₀ s → Upd F s₀ (f s)) : EngUpd F s₀ (modify f : Eng PUnit) :=
  ⟨fun s h => hf s h⟩

theorem ite {c : Prop} [Decidable c] {a b : Eng α} (ha : EngUpd F s₀ a) (hb : EngUpd F s₀ b) :
    EngUpd F s₀ (if c then a else b) := by
  split
  · exact ha
  · exact hb

theorem map {f : α → β} {m : Eng α} (h : EngUpd F s₀ m) : EngUpd F s₀ (f <$> m) := by
  rw [← bind_pure_comp]
  exact bind h fun _ => pure _

theorem mapM {f : α → Eng β} (l : List α) (hf : ∀ a, EngUpd F s₀ (f a)) : EngUpd F s₀ (l.mapM f) := by
  induction l with
  | nil => rw [List.mapM_nil]; exact pure _
  | cons a r ih =>
    rw [List.mapM_cons]
    exact bind (hf a) fun _ => bind ih fun _ => pure _

theorem foldlM {f : β → α → Eng β} (l : List α) (b : β) (hf : ∀ b a, EngUpd F s₀ (f b a)) : EngUpd F s₀ (l.foldlM f b) := by
  induction l generalizing b with
  | nil => exact pure b
  | cons a r ih =>
    rw [List.foldlM_cons]
    exact bind (hf b a) fun b => ih b

theorem forIn {f : α → β → Eng (ForInStep β)} (l : List α) (b : β) (hf : ∀ a b, EngUpd F s₀ (f a b)) :
    EngUpd F s₀ (ForIn.forIn l b f) := by
  induction l generalizing b with
  | nil => rw [List.forIn_nil]; exact pure b
  | cons a r ih =>
    rw [List.forIn_cons]
    refine bind (hf a b) fun x => ?_
    cases x with
    | done b => exact pure b
    | yield b => exact ih b

theorem forM {f : α → Eng PUnit} (l : List α) (hf : ∀ a, EngUpd F s₀ (f a)) : EngUpd F s₀ (l.forM f) := by
  induction l with
  | nil => exact pure _
  | cons a r ih => exact bind (hf a) fun _ => ih

theorem filterMapM_go {f : α → Eng (Option β)} (l : List α) (acc : List β) (hf : ∀ a, EngUpd F s₀ (f a)) :
    EngUpd F s₀ (List.filterMapM.loop f l acc) := by
  induction l generalizing acc with
  | nil => exact pure _
  | cons a r ih =>
    unfold List.filterMapM.loop
    refine bind (hf a) fun x => ?_
    cases x with
    | none => exact ih acc
    | some b => exact ih (b :: acc)

theorem filterMapM {f : α → Eng (Option β)} (l : List α) (hf : ∀ a, EngUpd F s₀ (f a)) : EngUpd F s₀ (l.filterMapM f) :=
  filterMapM_go l [] hf

end EngUpd

/-- The state that finished work leaves. -/
theorem EngUpd.ok {F : List Part} {s₀ s t : State} {α : Type} {m : Eng α} {a : α} (h : Upd F s₀ s) (hm : EngUpd F s₀ m)
    (e : m s = .ok a t) : Upd F s₀ t := by
  have k := hm.after s h
  unfold Eng.after at k
  rw [e] at k
  exact k

/-- The state that work leaves which met a fault. -/
theorem EngUpd.err {F : List Part} {s₀ s t : State} {α : Type} {m : Eng α} {f : Flt} (h : Upd F s₀ s) (hm : EngUpd F s₀ m)
    (e : m s = .error f t) : Upd F s₀ t := by
  have k := hm.after s h
  unfold Eng.after at k
  rw [e] at k
  exact k

/-- Work known to change only fields of `G`, all of them in `F`. -/
theorem EngUpd.by_ {F G : List Part} {s₀ : State} {α : Type} {m : Eng α} (k : ∀ s, EngUpd G s m)
    (hG : Part.Sub G F) : EngUpd F s₀ m := ⟨fun s h => h.by_ ((k s).after s (Upd.refl s)) hG⟩

/-! ### The plainest updates -/

theorem State.set_upd {F : List Part} {s₀ s : State} (b : Nat) (f : Fld) (v : Nat) (h : Upd F s₀ s) (hF : Part.Sub [.regs] F) :
    Upd F s₀ (s.set b f v) := Upd.setRegs _ h hF (.put (.refl _) _ _)

theorem State.bump_upd {F : List Part} {s₀ s : State} (b : Nat) (f : Fld) (n : Nat) (h : Upd F s₀ s) (hF : Part.Sub [.regs] F) :
    Upd F s₀ (s.bump b f n) := Upd.setRegs _ h hF (.put (.refl _) _ _)

theorem State.bumpSat_upd {F : List Part} {s₀ s : State} (b : Nat) (f : Fld) (n : Nat) (h : Upd F s₀ s)
    (hF : Part.Sub [.regs] F) : Upd F s₀ (s.bumpSat b f n) := Upd.setRegs _ h hF (.put (.refl _) _ _)

theorem State.setWord_upd {F : List Part} {s₀ s : State} (a v : Nat) (h : Upd F s₀ s) (hF : Part.Sub [.regs] F) :
    Upd F s₀ (s.setWord a v) := Upd.setRegs _ h hF (.put (.refl _) _ _)

theorem State.draw_upd {F : List Part} {s₀ s : State} (h : Upd F s₀ s) (hF : Part.Sub [.free] F) : Upd F s₀ s.draw :=
  Upd.setFree _ h hF (Nat.le_succ _)

end Sys2Proof.Machine
end

