-- ==== Sys2Proof/Laws/Canonical.lean ====
section
/-!
SUPPORT. The canonical form of the registers and the byte memories through every change that `Upd` allows.
-/
namespace Sys2Proof.Machine

theorem RegsUpd.wf {r q : Regs} (h : RegsUpd r q) (k : r.wf = true) : q.wf = true := by
  induction h with
  | refl => exact k
  | put _ a v ih => exact Regs.wf_put _ a v ih
  | filter _ p ih => exact Regs.wf_filter _ p ih

theorem MemUpd.wf {m n : Memory} (h : MemUpd m n) (k : m.wf = true) : n.wf = true := by
  induction h with
  | refl => exact k
  | put _ a v ih => exact Memory.wf_put _ a v ih
  | filter _ p ih => exact SMap.wf_filter _ p ih

theorem Upd.regs_wf {F : List Part} {s t : State} (h : Upd F s t) (k : s.regs.wf = true) : t.regs.wf = true := h.regs.wf k

theorem Upd.mbox_wf {F : List Part} {s t : State} (h : Upd F s t) (k : s.mbox.wf = true) : t.mbox.wf = true := h.mbox.wf k

theorem Upd.canonical {F : List Part} {s t : State} (h : Upd F s t) (k : Canonical s) : Canonical t :=
  ⟨h.regs.wf k.1, h.hbm.wf k.2.1, h.spm.wf k.2.2.1, h.mbox.wf k.2.2.2⟩

end Sys2Proof.Machine
end

