-- ==== Sys2Proof/Laws/Dispatch.lean ====
section
/-!
SUPPORT. Each arm of `exec`, as an equation.
-/
namespace Sys2Proof.Machine

@[simp] theorem exec_getInfo (s : State) {box} : exec (.getInfo box) s = execGetInfo box s := rfl
@[simp] theorem exec_setRole (s : State) {box} : exec (.setRole box) s = execSetRole box s := rfl
@[simp] theorem exec_setCoreConfig (s : State) {box} : exec (.setCoreConfig box) s = execSetCoreConfig box s := rfl
@[simp] theorem exec_topoSet (s : State) {box} : exec (.topoSet box) s = execTopoSet box s := rfl
@[simp] theorem exec_drain (s : State) {box} : exec (.drain box) s = execDrain box s := rfl
@[simp] theorem exec_standEnter (s : State) {box} : exec (.standEnter box) s = execStandEnter box s := rfl
@[simp] theorem exec_shutdown (s : State) {box} : exec (.shutdown box) s = execShutdown box s := rfl
@[simp] theorem exec_chipReset (s : State) {box} : exec (.chipReset box) s = execChipReset box s := rfl
@[simp] theorem exec_fwHandover (s : State) {box} : exec (.fwHandover box) s = execFwHandover box s := rfl
@[simp] theorem exec_coreWithdraw (s : State) {box} : exec (.coreWithdraw box) s = execCoreWithdraw box s := rfl
@[simp] theorem exec_coreTest (s : State) {box} : exec (.coreTest box) s = execCoreTest box s := rfl
@[simp] theorem exec_logRead (s : State) {box} : exec (.logRead box) s = execLogRead box s := rfl
@[simp] theorem exec_idGet (s : State) {box} : exec (.idGet box) s = execIdGet box s := rfl
@[simp] theorem exec_attestQuote (s : State) {box} : exec (.attestQuote box) s = execAttestQuote box s := rfl
@[simp] theorem exec_coachCreate (s : State) {box} : exec (.coachCreate box) s = execCoachCreate box s := rfl
@[simp] theorem exec_coachDestroy (s : State) {box} : exec (.coachDestroy box) s = execCoachDestroy box s := rfl
@[simp] theorem exec_coachStart (s : State) {box} : exec (.coachStart box) s = execCoachStart box s := rfl
@[simp] theorem exec_coachHalt (s : State) {box} : exec (.coachHalt box) s = execCoachHalt box s := rfl
@[simp] theorem exec_coachReset (s : State) {box} : exec (.coachReset box) s = execCoachReset box s := rfl
@[simp] theorem exec_coachMap (s : State) {box} : exec (.coachMap box) s = execCoachMap box s := rfl
@[simp] theorem exec_coachUnmap (s : State) {box} : exec (.coachUnmap box) s = execCoachUnmap box s := rfl
@[simp] theorem exec_launchAt (s : State) {box} : exec (.launchAt box) s = execLaunchAt box s := rfl
@[simp] theorem exec_regionSet (s : State) {box pick} : exec (.regionSet box pick) s = execRegionSet box pick s := rfl
@[simp] theorem exec_regionClear (s : State) {box} : exec (.regionClear box) s = execRegionClear box s := rfl
@[simp] theorem exec_memMargin (s : State) {box} : exec (.memMargin box) s = execMemMargin box s := rfl
@[simp] theorem exec_kvPoolSet (s : State) {box} : exec (.kvPoolSet box) s = execKvPoolSet box s := rfl
@[simp] theorem exec_graphRegister (s : State) {box} : exec (.graphRegister box) s = execGraphRegister box s := rfl
@[simp] theorem exec_graphUpdate (s : State) {box} : exec (.graphUpdate box) s = execGraphUpdate box s := rfl
@[simp] theorem exec_graphUnregister (s : State) {box} : exec (.graphUnregister box) s = execGraphUnregister box s := rfl
@[simp] theorem exec_graphShare (s : State) {box} : exec (.graphShare box) s = execGraphShare box s := rfl
@[simp] theorem exec_tableLoad (s : State) {box} : exec (.tableLoad box) s = execTableLoad box s := rfl
@[simp] theorem exec_tableRetire (s : State) {box} : exec (.tableRetire box) s = execTableRetire box s := rfl
@[simp] theorem exec_overlayLoad (s : State) {box pick} : exec (.overlayLoad box pick) s = execOverlayLoad box pick s := rfl
@[simp] theorem exec_overlayDrop (s : State) {box} : exec (.overlayDrop box) s = execOverlayDrop box s := rfl
@[simp] theorem exec_overlayRead (s : State) {box} : exec (.overlayRead box) s = execOverlayRead box s := rfl
@[simp] theorem exec_seqOpen (s : State) {box pick} : exec (.seqOpen box pick) s = execSeqOpen box pick s := rfl
@[simp] theorem exec_seqCancel (s : State) {box} : exec (.seqCancel box) s = execSeqCancel box s := rfl
@[simp] theorem exec_kvPause (s : State) {box} : exec (.kvPause box) s = execKvPause box s := rfl
@[simp] theorem exec_kvResume (s : State) {box} : exec (.kvResume box) s = execKvResume box s := rfl
@[simp] theorem exec_kvImportOpen (s : State) {box pick} : exec (.kvImportOpen box pick) s = execKvImportOpen box pick s := rfl
@[simp] theorem exec_kvImportClose (s : State) {box} : exec (.kvImportClose box) s = execKvImportClose box s := rfl
@[simp] theorem exec_kvShip (s : State) {box} : exec (.kvShip box) s = execKvShip box s := rfl
@[simp] theorem exec_collOpen (s : State) {box pick} : exec (.collOpen box pick) s = execCollOpen box pick s := rfl
@[simp] theorem exec_collRun (s : State) {box} : exec (.collRun box) s = execCollRun box s := rfl
@[simp] theorem exec_collClose (s : State) {box} : exec (.collClose box) s = execCollClose box s := rfl
@[simp] theorem exec_tableLoadDone (s : State) {slot} : exec (.tableLoadDone slot) s = execTableLoadDone slot s := rfl
@[simp] theorem exec_quoteSigned (s : State) : exec .quoteSigned s = execQuoteSigned s := rfl
@[simp] theorem exec_marginDone (s : State) {eyes} : exec (.marginDone eyes) s = execMarginDone eyes s := rfl
@[simp] theorem exec_coachDestroyDone (s : State) {coach} : exec (.coachDestroyDone coach) s = execCoachDestroyDone coach s := rfl
@[simp] theorem exec_mirrorSyncDone (s : State) {region} : exec (.mirrorSyncDone region) s = execMirrorSyncDone region s := rfl
@[simp] theorem exec_mirrorRebuild (s : State) : exec .mirrorRebuild s = execMirrorRebuild s := rfl
@[simp] theorem exec_kvMoveDone (s : State) {slot pages lost} : exec (.kvMoveDone slot pages lost) s = execKvMoveDone slot pages lost s := rfl
@[simp] theorem exec_handoverCheckpointDone (s : State) : exec .handoverCheckpointDone s = execHandoverCheckpointDone s := rfl
@[simp] theorem exec_firmwareRestoreDone (s : State) {ok} : exec (.firmwareRestoreDone ok) s = execFirmwareRestoreDone ok s := rfl
@[simp] theorem exec_standDrained (s : State) : exec .standDrained s = execStandDrained s := rfl
@[simp] theorem exec_standAckWaitEnd (s : State) : exec .standAckWaitEnd s = execStandAckWaitEnd s := rfl
@[simp] theorem exec_selftestDone (s : State) {results} : exec (.selftestDone results) s = execSelftestDone results s := rfl
@[simp] theorem exec_eklWrite (s : State) {port m} : exec (.eklWrite port m) s = execEklWrite port m s := rfl
@[simp] theorem exec_eklWriteAck (s : State) {port m} : exec (.eklWriteAck port m) s = execEklWriteAck port m s := rfl
@[simp] theorem exec_eklRead (s : State) {port m} : exec (.eklRead port m) s = execEklRead port m s := rfl
@[simp] theorem exec_eklReadData (s : State) {port m} : exec (.eklReadData port m) s = execEklReadData port m s := rfl
@[simp] theorem exec_eklAdd (s : State) {port m} : exec (.eklAdd port m) s = execEklAdd port m s := rfl
@[simp] theorem exec_eklAddAck (s : State) {port m} : exec (.eklAddAck port m) s = execEklAddAck port m s := rfl
@[simp] theorem exec_drawbar (s : State) {port m} : exec (.drawbar port m) s = execDrawbar port m s := rfl
@[simp] theorem exec_chainDone (s : State) {port m} : exec (.chainDone port m) s = execChainDone port m s := rfl
@[simp] theorem exec_replay (s : State) {port m} : exec (.replay port m) s = execReplay port m s := rfl
@[simp] theorem exec_barCredit (s : State) {port m} : exec (.barCredit port m) s = execBarCredit port m s := rfl
@[simp] theorem exec_shipHeader (s : State) {port m} : exec (.shipHeader port m) s = execShipHeader port m s := rfl
@[simp] theorem exec_shipPageRecord (s : State) {port m} : exec (.shipPageRecord port m) s = execShipPageRecord port m s := rfl
@[simp] theorem exec_shipPageData (s : State) {port m page} : exec (.shipPageData port m page) s = execShipPageData port m page s := rfl
@[simp] theorem exec_shipTrailer (s : State) {port m} : exec (.shipTrailer port m) s = execShipTrailer port m s := rfl
@[simp] theorem exec_shipAccept (s : State) {port m} : exec (.shipAccept port m) s = execShipAccept port m s := rfl
@[simp] theorem exec_shipNak (s : State) {port m} : exec (.shipNak port m) s = execShipNak port m s := rfl
@[simp] theorem exec_shipCommit (s : State) {port m} : exec (.shipCommit port m) s = execShipCommit port m s := rfl
@[simp] theorem exec_shipAbort (s : State) {port m} : exec (.shipAbort port m) s = execShipAbort port m s := rfl
@[simp] theorem exec_shipAnswerTimeout (s : State) {slot} : exec (.shipAnswerTimeout slot) s = execShipAnswerTimeout slot s := rfl
@[simp] theorem exec_collUp (s : State) {port m} : exec (.collUp port m) s = execCollUp port m s := rfl
@[simp] theorem exec_collDown (s : State) {port m} : exec (.collDown port m) s = execCollDown port m s := rfl
@[simp] theorem exec_collAbort (s : State) {port m} : exec (.collAbort port m) s = execCollAbort port m s := rfl
@[simp] theorem exec_collTimeout (s : State) {ctx} : exec (.collTimeout ctx) s = execCollTimeout ctx s := rfl
@[simp] theorem exec_mgmt (s : State) {port m} : exec (.mgmt port m) s = execMgmt port m s := rfl
@[simp] theorem exec_bootGrant (s : State) {port m} : exec (.bootGrant port m) s = execBootGrant port m s := rfl
@[simp] theorem exec_messageForward (s : State) {port m} : exec (.messageForward port m) s = execMessageForward port m s := rfl
@[simp] theorem exec_dataFlit (s : State) {port flit fec} : exec (.dataFlit port flit fec) s = execDataFlit port flit fec s := rfl
@[simp] theorem exec_idleFlit (s : State) {port flit fec} : exec (.idleFlit port flit fec) s = execIdleFlit port flit fec s := rfl
@[simp] theorem exec_markFlit (s : State) {port flit fec} : exec (.markFlit port flit fec) s = execMarkFlit port flit fec s := rfl
@[simp] theorem exec_replayTimeout (s : State) {port} : exec (.replayTimeout port) s = execReplayTimeout port s := rfl
@[simp] theorem exec_frameStart (s : State) : exec .frameStart s = execFrameStart s := rfl
@[simp] theorem exec_syncMarkLoss (s : State) : exec .syncMarkLoss s = execSyncMarkLoss s := rfl
@[simp] theorem exec_syncHoldoverExpiry (s : State) : exec .syncHoldoverExpiry s = execSyncHoldoverExpiry s := rfl
@[simp] theorem exec_lightDetect (s : State) {port} : exec (.lightDetect port) s = execLightDetect port s := rfl
@[simp] theorem exec_trainingRetry (s : State) {port light} : exec (.trainingRetry port light) s = execTrainingRetry port light s := rfl
@[simp] theorem exec_trainingTimeout (s : State) {port} : exec (.trainingTimeout port) s = execTrainingTimeout port s := rfl
@[simp] theorem exec_fecLockLoss (s : State) {port lane} : exec (.fecLockLoss port lane) s = execFecLockLoss port lane s := rfl
@[simp] theorem exec_retrainRelock (s : State) {port ack} : exec (.retrainRelock port ack) s = execRetrainRelock port ack s := rfl
@[simp] theorem exec_retrainTimeout (s : State) {port} : exec (.retrainTimeout port) s = execRetrainTimeout port s := rfl
@[simp] theorem exec_lossOfSignal (s : State) {port lane} : exec (.lossOfSignal port lane) s = execLossOfSignal port lane s := rfl
@[simp] theorem exec_routeUpdate (s : State) : exec .routeUpdate s = execRouteUpdate s := rfl
@[simp] theorem exec_presenceChange (s : State) {oc present} : exec (.presenceChange oc present) s = execPresenceChange oc present s := rfl
@[simp] theorem exec_presenceSteady (s : State) {oc} : exec (.presenceSteady oc) s = execPresenceSteady oc s := rfl
@[simp] theorem exec_drainComplete (s : State) : exec .drainComplete s = execDrainComplete s := rfl
@[simp] theorem exec_hostWriteGiveup (s : State) {port} : exec (.hostWriteGiveup port) s = execHostWriteGiveup port s := rfl
@[simp] theorem exec_interruptFrameResend (s : State) {tag} : exec (.interruptFrameResend tag) s = execInterruptFrameResend tag s := rfl
@[simp] theorem exec_seqInputWrite (s : State) {coach slot word} : exec (.seqInputWrite coach slot word) s = execSeqInputWrite coach slot word s := rfl
@[simp] theorem exec_seqCancelBit (s : State) {coach slot} : exec (.seqCancelBit coach slot) s = execSeqCancelBit coach slot s := rfl
@[simp] theorem exec_seqCloseBit (s : State) {coach slot} : exec (.seqCloseBit coach slot) s = execSeqCloseBit coach slot s := rfl
@[simp] theorem exec_seqEntryStaged (s : State) {slot} : exec (.seqEntryStaged slot) s = execSeqEntryStaged slot s := rfl
@[simp] theorem exec_deadlineCheck (s : State) : exec .deadlineCheck s = execDeadlineCheck s := rfl
@[simp] theorem exec_deadlineExpiry (s : State) {slot} : exec (.deadlineExpiry slot) s = execDeadlineExpiry slot s := rfl
@[simp] theorem exec_sbIdleTimer (s : State) : exec .sbIdleTimer s = execSbIdleTimer s := rfl
@[simp] theorem exec_kvTtlExpiry (s : State) {slot} : exec (.kvTtlExpiry slot) s = execKvTtlExpiry slot s := rfl
@[simp] theorem exec_importTtlExpiry (s : State) {idx} : exec (.importTtlExpiry idx) s = execImportTtlExpiry idx s := rfl
@[simp] theorem exec_manifestReady (s : State) {pages waitNs} : exec (.manifestReady pages waitNs) s = execManifestReady pages waitNs s := rfl
@[simp] theorem exec_ledgerAuditTimer (s : State) : exec .ledgerAuditTimer s = execLedgerAuditTimer s := rfl
@[simp] theorem exec_ledgerEvalDone (s : State) {found} : exec (.ledgerEvalDone found) s = execLedgerEvalDone found s := rfl
@[simp] theorem exec_gsDispatchUnit (s : State) {waitNs} : exec (.gsDispatchUnit waitNs) s = execGsDispatchUnit waitNs s := rfl
@[simp] theorem exec_quantumStart (s : State) : exec .quantumStart s = execQuantumStart s := rfl
@[simp] theorem exec_throttleWindow (s : State) : exec .throttleWindow s = execThrottleWindow s := rfl
@[simp] theorem exec_tdDispatchRx (s : State) {core poisoned} : exec (.tdDispatchRx core poisoned) s = execTdDispatchRx core poisoned s := rfl
@[simp] theorem exec_carriageIssue (s : State) {core idx found} : exec (.carriageIssue core idx found) s = execCarriageIssue core idx found s := rfl
@[simp] theorem exec_carriageComplete (s : State) {core idx} : exec (.carriageComplete core idx) s = execCarriageComplete core idx s := rfl
@[simp] theorem exec_carriageCompletionRx (s : State) : exec .carriageCompletionRx s = execCarriageCompletionRx s := rfl
@[simp] theorem exec_carriageEndRx (s : State) {core} : exec (.carriageEndRx core) s = execCarriageEndRx core s := rfl
@[simp] theorem exec_carriageWatchdog (s : State) {core idx} : exec (.carriageWatchdog core idx) s = execCarriageWatchdog core idx s := rfl
@[simp] theorem exec_tileSwap (s : State) {core te} : exec (.tileSwap core te) s = execTileSwap core te s := rfl
@[simp] theorem exec_teFormatBarrierEnd (s : State) {core te} : exec (.teFormatBarrierEnd core te) s = execTeFormatBarrierEnd core te s := rfl
@[simp] theorem exec_setReady (s : State) {core te} : exec (.setReady core te) s = execSetReady core te s := rfl
@[simp] theorem exec_setDrainStart (s : State) {core te found} : exec (.setDrainStart core te found) s = execSetDrainStart core te found s := rfl
@[simp] theorem exec_setDrainDone (s : State) {core te} : exec (.setDrainDone core te) s = execSetDrainDone core te s := rfl
@[simp] theorem exec_drawbarCartRx (s : State) {core te found} : exec (.drawbarCartRx core te found) s = execDrawbarCartRx core te found s := rfl
@[simp] theorem exec_xeTileStart (s : State) {core te idx} : exec (.xeTileStart core te idx) s = execXeTileStart core te idx s := rfl
@[simp] theorem exec_xeBlockDone (s : State) {core te stall} : exec (.xeBlockDone core te stall) s = execXeBlockDone core te stall s := rfl
@[simp] theorem exec_geCartRead (s : State) {core idx ove tile} : exec (.geCartRead core idx ove tile) s = execGeCartRead core idx ove tile s := rfl
@[simp] theorem exec_partialCartRx (s : State) {core found} : exec (.partialCartRx core found) s = execPartialCartRx core found s := rfl
@[simp] theorem exec_mergeFold (s : State) {core idx pick} : exec (.mergeFold core idx pick) s = execMergeFold core idx pick s := rfl
@[simp] theorem exec_dmaDescriptorIssue (s : State) {core waitTag waitCred} : exec (.dmaDescriptorIssue core waitTag waitCred) s = execDmaDescriptorIssue core waitTag waitCred s := rfl
@[simp] theorem exec_dmaChunkDone (s : State) {core tag} : exec (.dmaChunkDone core tag) s = execDmaChunkDone core tag s := rfl
@[simp] theorem exec_xlateWalkDone (s : State) {block coach addr write poisoned} : exec (.xlateWalkDone block coach addr write poisoned) s = execXlateWalkDone block coach addr write poisoned s := rfl
@[simp] theorem exec_nbrWriteRx (s : State) {core} : exec (.nbrWriteRx core) s = execNbrWriteRx core s := rfl
@[simp] theorem exec_scrubRow (s : State) {core bank errs} : exec (.scrubRow core bank errs) s = execScrubRow core bank errs s := rfl
@[simp] theorem exec_scrubForce (s : State) {core bank errs} : exec (.scrubForce core bank errs) s = execScrubForce core bank errs s := rfl
@[simp] theorem exec_spmClearDone (s : State) {core} : exec (.spmClearDone core) s = execSpmClearDone core s := rfl
@[simp] theorem exec_mcBulkRequest (s : State) {core tag found} : exec (.mcBulkRequest core tag found) s = execMcBulkRequest core tag found s := rfl
@[simp] theorem exec_mcFineRequest (s : State) {req found} : exec (.mcFineRequest req found) s = execMcFineRequest req found s := rfl
@[simp] theorem exec_mcAddRequest (s : State) {req found} : exec (.mcAddRequest req found) s = execMcAddRequest req found s := rfl
@[simp] theorem exec_patrolLine (s : State) {mc pc addr found} : exec (.patrolLine mc pc addr found) s = execPatrolLine mc pc addr found s := rfl
@[simp] theorem exec_pmIntervalEnd (s : State) : exec .pmIntervalEnd s = execPmIntervalEnd s := rfl
@[simp] theorem exec_interruptCoalTimeout (s : State) {vec} : exec (.interruptCoalTimeout vec) s = execInterruptCoalTimeout vec s := rfl
@[simp] theorem exec_launchTime (s : State) {coach} : exec (.launchTime coach) s = execLaunchTime coach s := rfl
@[simp] theorem exec_launchWindow (s : State) {coach} : exec (.launchWindow coach) s = execLaunchWindow coach s := rfl
@[simp] theorem exec_ftDue (s : State) {core} : exec (.ftDue core) s = execFtDue core s := rfl
@[simp] theorem exec_ftTestStart (s : State) {core} : exec (.ftTestStart core) s = execFtTestStart core s := rfl
@[simp] theorem exec_ftDefer (s : State) {core} : exec (.ftDefer core) s = execFtDefer core s := rfl
@[simp] theorem exec_ftTestDone (s : State) {core passed} : exec (.ftTestDone core passed) s = execFtTestDone core passed s := rfl
@[simp] theorem exec_recoveryDone (s : State) : exec .recoveryDone s = execRecoveryDone s := rfl
@[simp] theorem exec_mpWatchdog (s : State) : exec .mpWatchdog s = execMpWatchdog s := rfl
@[simp] theorem exec_mpAbsentLimit (s : State) : exec .mpAbsentLimit s = execMpAbsentLimit s := rfl
@[simp] theorem exec_gsSbParityFail (s : State) : exec .gsSbParityFail s = execGsSbParityFail s := rfl
@[simp] theorem exec_warmResetQuiesced (s : State) : exec .warmResetQuiesced s = execWarmResetQuiesced s := rfl
@[simp] theorem exec_bootPorDone (s : State) {ok} : exec (.bootPorDone ok) s = execBootPorDone ok s := rfl
@[simp] theorem exec_hbmTrainDone (s : State) {failed} : exec (.hbmTrainDone failed) s = execHbmTrainDone failed s := rfl
@[simp] theorem exec_bootReqTimer (s : State) : exec .bootReqTimer s = execBootReqTimer s := rfl
@[simp] theorem exec_handbackDone (s : State) {retest} : exec (.handbackDone retest) s = execHandbackDone retest s := rfl
@[simp] theorem exec_bootReadTimeout (s : State) {off} : exec (.bootReadTimeout off) s = execBootReadTimeout off s := rfl
@[simp] theorem exec_imageLoadDone (s : State) : exec .imageLoadDone s = execImageLoadDone s := rfl
@[simp] theorem exec_imageVerifyDone (s : State) {place burnOk} : exec (.imageVerifyDone place burnOk) s = execImageVerifyDone place burnOk s := rfl
@[simp] theorem exec_pwrgdRise (s : State) : exec .pwrgdRise s = execPwrgdRise s := rfl
@[simp] theorem exec_pwrgdFall (s : State) : exec .pwrgdFall s = execPwrgdFall s := rfl
@[simp] theorem exec_poreset (s : State) {asserted straps testen} : exec (.poreset asserted straps testen) s = execPoreset asserted straps testen s := rfl
@[simp] theorem exec_warmreset (s : State) : exec .warmreset s = execWarmreset s := rfl
@[simp] theorem exec_regulatorGood (s : State) {rail} : exec (.regulatorGood rail) s = execRegulatorGood rail s := rfl
@[simp] theorem exec_regulatorTimeout (s : State) {rail} : exec (.regulatorTimeout rail) s = execRegulatorTimeout rail s := rfl
@[simp] theorem exec_xtalDelayEnd (s : State) : exec .xtalDelayEnd s = execXtalDelayEnd s := rfl
@[simp] theorem exec_pllLockDone (s : State) {xtalOk locked} : exec (.pllLockDone xtalOk locked) s = execPllLockDone xtalOk locked s := rfl
@[simp] theorem exec_pllLockLoss (s : State) : exec .pllLockLoss s = execPllLockLoss s := rfl
@[simp] theorem exec_ioscTrimMeasure (s : State) {ppm} : exec (.ioscTrimMeasure ppm) s = execIoscTrimMeasure ppm s := rfl
@[simp] theorem exec_vinUndervolt (s : State) {mv} : exec (.vinUndervolt mv) s = execVinUndervolt mv s := rfl
@[simp] theorem exec_vinBrownout (s : State) {mv} : exec (.vinBrownout mv) s = execVinBrownout mv s := rfl
@[simp] theorem exec_thermSample (s : State) {tj more} : exec (.thermSample tj more) s = execThermSample tj more s := rfl
@[simp] theorem exec_thermalTrip (s : State) : exec .thermalTrip s = execThermalTrip s := rfl
@[simp] theorem exec_throttleEval (s : State) {tj watts} : exec (.throttleEval tj watts) s = execThrottleEval tj watts s := rfl
@[simp] theorem exec_standAddressMatch (s : State) : exec .standAddressMatch s = execStandAddressMatch s := rfl
@[simp] theorem exec_lbEklWrite (s : State) {port depth} : exec (.lbEklWrite port depth) s = execLbEklWrite port depth s := rfl
@[simp] theorem exec_lbHbmWrite (s : State) {stack depth} : exec (.lbHbmWrite stack depth) s = execLbHbmWrite stack depth s := rfl
@[simp] theorem exec_lbHbmEnd (s : State) {stack errs bits} : exec (.lbHbmEnd stack errs bits) s = execLbHbmEnd stack errs bits s := rfl
@[simp] theorem exec_tapReset (s : State) : exec .tapReset s = execTapReset s := rfl
@[simp] theorem exec_jtagIdcode (s : State) : exec .jtagIdcode s = execJtagIdcode s := rfl
@[simp] theorem exec_jtagBypass (s : State) : exec .jtagBypass s = execJtagBypass s := rfl
@[simp] theorem exec_jtagSamplePreload (s : State) {pins} : exec (.jtagSamplePreload pins) s = execJtagSamplePreload pins s := rfl
@[simp] theorem exec_jtagExtest (s : State) {pins} : exec (.jtagExtest pins) s = execJtagExtest pins s := rfl
@[simp] theorem exec_jtagHighz (s : State) {pins} : exec (.jtagHighz pins) s = execJtagHighz pins s := rfl
@[simp] theorem exec_jtagClamp (s : State) {pins} : exec (.jtagClamp pins) s = execJtagClamp pins s := rfl
@[simp] theorem exec_scanReq (s : State) : exec .scanReq s = execScanReq s := rfl
@[simp] theorem exec_scanClearDone (s : State) : exec .scanClearDone s = execScanClearDone s := rfl
@[simp] theorem exec_fuseProg (s : State) {kind a b c} : exec (.fuseProg kind a b c) s = execFuseProg kind a b c s := rfl
@[simp] theorem exec_sbQuickCommand (s : State) : exec .sbQuickCommand s = execSbQuickCommand s := rfl
@[simp] theorem exec_sbStatusRead (s : State) : exec .sbStatusRead s = execSbStatusRead s := rfl
@[simp] theorem exec_sbRegisterRead (s : State) {addr} : exec (.sbRegisterRead addr) s = execSbRegisterRead addr s := rfl
@[simp] theorem exec_sbMailboxWrite (s : State) {off data pecOk} : exec (.sbMailboxWrite off data pecOk) s = execSbMailboxWrite off data pecOk s := rfl
@[simp] theorem exec_sbAlertResponse (s : State) : exec .sbAlertResponse s = execSbAlertResponse s := rfl
@[simp] theorem exec_sbClockTimeout (s : State) : exec .sbClockTimeout s = execSbClockTimeout s := rfl
@[simp] theorem exec_svcButtonPress (s : State) : exec .svcButtonPress s = execSvcButtonPress s := rfl
@[simp] theorem exec_svcButtonRelease (s : State) : exec .svcButtonRelease s = execSvcButtonRelease s := rfl
@[simp] theorem exec_svcHold (s : State) : exec .svcHold s = execSvcHold s := rfl
@[simp] theorem exec_chipModeWrite (s : State) {value} : exec (.chipModeWrite value) s = execChipModeWrite value s := rfl
@[simp] theorem exec_coachRwhWrite (s : State) {coach off value} : exec (.coachRwhWrite coach off value) s = execCoachRwhWrite coach off value s := rfl
@[simp] theorem exec_vcfgWrite (s : State) {vec value} : exec (.vcfgWrite vec value) s = execVcfgWrite vec value s := rfl
@[simp] theorem exec_portDisableWrite (s : State) {port value} : exec (.portDisableWrite port value) s = execPortDisableWrite port value s := rfl
@[simp] theorem exec_svcLocateWrite (s : State) {value} : exec (.svcLocateWrite value) s = execSvcLocateWrite value s := rfl
@[simp] theorem exec_gcSyncWrite (s : State) {value} : exec (.gcSyncWrite value) s = execGcSyncWrite value s := rfl
@[simp] theorem exec_counterReadClear (s : State) {addr} : exec (.counterReadClear addr) s = execCounterReadClear addr s := rfl
@[simp] theorem exec_registerWrite (s : State) {admin coach addr words} : exec (.registerWrite admin coach addr words) s = execRegisterWrite admin coach addr words s := rfl
@[simp] theorem exec_stackTrainingLoss (s : State) {stack} : exec (.stackTrainingLoss stack) s = execStackTrainingLoss stack s := rfl
@[simp] theorem exec_portSwitchParityFailure (s : State) : exec .portSwitchParityFailure s = execPortSwitchParityFailure s := rfl
@[simp] theorem exec_refclkPresenceChange (s : State) {present} : exec (.refclkPresenceChange present) s = execRefclkPresenceChange present s := rfl
@[simp] theorem exec_translationCachesDropped (s : State) : exec .translationCachesDropped s = execTranslationCachesDropped s := rfl

end Sys2Proof.Machine
end

