-- ==== Sys2Proof/Laws/UpdFlags.lean ====
section
/-!
SUPPORT. What each operation of Machine/Flags.lean may change.
-/
namespace Sys2Proof.Machine

theorem State.drop_upd {F : List Part} {s₀ s : State} (b : Nat) (f : Fld) (n : Nat) (h : Upd F s₀ s) (hF : Part.Sub [.regs] F) :
    Upd F s₀ (State.drop s b f n) := by
  refine Upd.by_ h ?_ hF
  clear h hF
  revert s
  intro s₀
  have h := Upd.refl (F := [.regs]) s₀
  delta State.drop
  repeat' (first
    | with_reducible assumption
    | ((with_reducible apply Part.Sub.of); rfl)
    | with_reducible apply State.set_upd)

theorem State.setChip_upd {F : List Part} {s₀ s : State} (f : Fld) (v : Nat) (h : Upd F s₀ s) (hF : Part.Sub [.regs] F) :
    Upd F s₀ (State.setChip s f v) := by
  refine Upd.by_ h ?_ hF
  clear h hF
  revert s
  intro s₀
  have h := Upd.refl (F := [.regs]) s₀
  delta State.setChip
  repeat' (first
    | with_reducible assumption
    | ((with_reducible apply Part.Sub.of); rfl)
    | with_reducible apply State.set_upd)

theorem State.count_upd {F : List Part} {s₀ s : State} (f : Fld) (n : Nat) (h : Upd F s₀ s) (hF : Part.Sub [.regs] F) :
    Upd F s₀ (State.count s f n) := by
  refine Upd.by_ h ?_ hF
  clear h hF
  revert s
  intro s₀
  have h := Upd.refl (F := [.regs]) s₀
  delta State.count
  repeat' (first
    | with_reducible assumption
    | ((with_reducible apply Part.Sub.of); rfl)
    | with_reducible apply State.bump_upd)

theorem State.capture_upd {F : List Part} {s₀ s : State} (a : Nat) (w : Nat) (keep : Nat) (h : Upd F s₀ s) (hF : Part.Sub [.regs] F) :
    Upd F s₀ (State.capture s a w keep) := by
  refine Upd.by_ h ?_ hF
  clear h hF
  revert s
  intro s₀
  have h := Upd.refl (F := [.regs]) s₀
  delta State.capture
  repeat' (first
    | with_reducible assumption
    | ((with_reducible apply Part.Sub.of); rfl)
    | intro s
    | lift_lets -underBinder
    | with_reducible apply Upd.ite
    | with_reducible apply State.setWord_upd)

theorem State.modCoach_upd {F : List Part} {s₀ s : State} (c : Nat) (f : Coach → Coach) (h : Upd F s₀ s) (hF : Part.Sub [.coaches] F) :
    Upd F s₀ (State.modCoach s c f) := by
  refine Upd.by_ h ?_ hF
  clear h hF
  revert s
  intro s₀
  have h := Upd.refl (F := [.coaches]) s₀
  delta State.modCoach
  repeat' (first
    | ((with_reducible apply Part.Sub.of); rfl)
    | (with_reducible apply Upd.coaches; case h => with_reducible assumption))

theorem State.modCore_upd {F : List Part} {s₀ s : State} (p : Nat) (f : Core → Core) (h : Upd F s₀ s) (hF : Part.Sub [.cores] F) :
    Upd F s₀ (State.modCore s p f) := by
  refine Upd.by_ h ?_ hF
  clear h hF
  revert s
  intro s₀
  have h := Upd.refl (F := [.cores]) s₀
  delta State.modCore
  repeat' (first
    | ((with_reducible apply Part.Sub.of); rfl)
    | (with_reducible apply Upd.cores; case h => with_reducible assumption))

theorem State.modPort_upd {F : List Part} {s₀ s : State} (p : Nat) (f : Port → Port) (h : Upd F s₀ s) (hF : Part.Sub [.link] F) :
    Upd F s₀ (State.modPort s p f) := by
  refine Upd.by_ h ?_ hF
  clear h hF
  revert s
  intro s₀
  have h := Upd.refl (F := [.link]) s₀
  delta State.modPort
  repeat' (first
    | ((with_reducible apply Part.Sub.of); rfl)
    | intro s
    | lift_lets -underBinder
    | (with_reducible apply Upd.link; case h => with_reducible assumption))

end Sys2Proof.Machine
end

