-- ==== Sys2Proof/Laws/UpdNoc.lean ====
section
/-!
SUPPORT. What each operation of Machine/Noc.lean may change.
-/
namespace Sys2Proof.Machine

theorem State.qSend_upd {F : List Part} {s₀ s : State} (k : Nat) (chan : Nat) (src : End) (dst : End) (h : Upd F s₀ s) (hF : Part.Sub [.noc] F) :
    Upd F s₀ (State.qSend s k chan src dst) :=
  .setNoc _ h hF (.other rfl rfl)

theorem State.qPut_upd {F : List Part} {s₀ s : State} (k : Nat) (n : Nat) (h : Upd F s₀ s) (hF : Part.Sub [.noc] F) :
    Upd F s₀ (State.qPut s k n) :=
  .setNoc _ h hF (.modQ _ _ _)

theorem State.qAwait_upd {F : List Part} {s₀ s : State} (k : Nat) (cargo : Nat) (h : Upd F s₀ s) (hF : Part.Sub [.noc] F) :
    Upd F s₀ (State.qAwait s k cargo) :=
  .setNoc _ h hF (.await _ _ _ _)

theorem State.qLeave_upd {F : List Part} {s₀ s : State} (k : Nat) (n : Nat) (h : Upd F s₀ s) (hF : Part.Sub [.noc] F) :
    Upd F s₀ (State.qLeave s k n) := by
  refine .setNoc _ h hF (.trans ?_ (.modQ _ _ _))
  split
  · exact .await _ _ _ _
  · exact .refl _

end Sys2Proof.Machine
end

