-- ==== Sys2Proof/Laws/UpdOps.lean ====
section
/-!
SUPPORT. What each operation of Machine/Ops.lean may change.
-/
namespace Sys2Proof.Machine

theorem State.enqueue_upd {F : List Part} {s₀ s : State} (p : Nat) (m : Msg) (h : Upd F s₀ s) (hF : Part.Sub [.link] F) :
    Upd F s₀ (State.enqueue s p m) := by
  refine Upd.by_ h ?_ hF
  clear h hF
  revert s
  intro s₀
  have h := Upd.refl (F := [.link]) s₀
  delta State.enqueue
  repeat' (first
    | with_reducible assumption
    | ((with_reducible apply Part.Sub.of); rfl)
    | lift_lets -underBinder
    | with_reducible apply Upd.ite
    | with_reducible apply State.modPort_upd)

theorem State.send_upd {F : List Part} {s₀ s : State} (m : Msg) (h : Upd F s₀ s) (hF : Part.Sub [.regs, .link] F) :
    Upd F s₀ (State.send s m) := by
  refine Upd.by_ h ?_ hF
  clear h hF
  revert s
  intro s₀
  have h := Upd.refl (F := [.regs, .link]) s₀
  delta State.send
  repeat' (first
    | with_reducible assumption
    | ((with_reducible apply Part.Sub.of); rfl)
    | intro s
    | lift_lets -underBinder
    | with_reducible apply State.enqueue_upd
    | with_reducible apply State.count_upd
    | split)

theorem State.request_upd {F : List Part} {s₀ s : State} (p : Nat) (m : Msg) (why : Awaits) (h : Upd F s₀ s) (hF : Part.Sub [.link] F) :
    Upd F s₀ (State.request s p m why) := by
  refine Upd.by_ h ?_ hF
  clear h hF
  revert s
  intro s₀
  have h := Upd.refl (F := [.link]) s₀
  delta State.request
  repeat' (first
    | with_reducible assumption
    | ((with_reducible apply Part.Sub.of); rfl)
    | (intro s; refine (fun h => ?_) (?_ : Upd [.link] s₀ s); rotate_left; subst s; rotate_left)
    | intro s
    | lift_lets -underBinder
    | (with_reducible apply Upd.link; case h => with_reducible assumption)
    | with_reducible apply State.enqueue_upd)

theorem State.reply_upd {F : List Part} {s₀ s : State} (port : Nat) (m : Msg) (mtype : Nat) (arg : Nat) (data : List Byte) (h : Upd F s₀ s) (hF : Part.Sub [.regs, .link] F) :
    Upd F s₀ (State.reply s port m mtype arg data) := by
  refine Upd.by_ h ?_ hF
  clear h hF
  revert s
  intro s₀
  have h := Upd.refl (F := [.regs, .link]) s₀
  delta State.reply
  repeat' (first
    | with_reducible assumption
    | ((with_reducible apply Part.Sub.of); rfl)
    | intro s
    | lift_lets -underBinder
    | with_reducible apply Upd.ite
    | with_reducible apply State.enqueue_upd
    | with_reducible apply State.count_upd
    | split)

theorem State.setVec_upd {F : List Part} {s₀ s : State} (i : Nat) (v : Vec) (h : Upd F s₀ s) (hF : Part.Sub [.regs, .vecs] F) :
    Upd F s₀ (State.setVec s i v) := by
  refine Upd.by_ h ?_ hF
  clear h hF
  revert s
  intro s₀
  have h := Upd.refl (F := [.regs, .vecs]) s₀
  delta State.setVec
  repeat' (first
    | ((with_reducible apply Part.Sub.of); rfl)
    | lift_lets -underBinder
    | (with_reducible apply Upd.vecs; case h => with_reducible assumption)
    | with_reducible apply State.set_upd)

theorem State.sendFrame_upd {F : List Part} {s₀ s : State} (i : Nat) (h : Upd F s₀ s) (hF : Part.Sub [.regs, .vecs, .link] F) :
    Upd F s₀ (State.sendFrame s i) := by
  refine Upd.by_ h ?_ hF
  clear h hF
  revert s
  intro s₀
  have h := Upd.refl (F := [.regs, .vecs, .link]) s₀
  delta State.sendFrame
  repeat' (first
    | with_reducible assumption
    | ((with_reducible apply Part.Sub.of); rfl)
    | (intro s; refine (fun h => ?_) (?_ : Upd [.regs, .vecs, .link] s₀ s); rotate_left; subst s; rotate_left)
    | intro s
    | lift_lets -underBinder
    | with_reducible apply Upd.ite
    | with_reducible apply State.request_upd
    | with_reducible apply State.setVec_upd
    | with_reducible apply State.bump_upd)

theorem State.trySend_upd {F : List Part} {s₀ s : State} (i : Nat) (due : Bool) (h : Upd F s₀ s) (hF : Part.Sub [.regs, .vecs, .link] F) :
    Upd F s₀ (State.trySend s i due) := by
  refine Upd.by_ h ?_ hF
  clear h hF
  revert s
  intro s₀
  have h := Upd.refl (F := [.regs, .vecs, .link]) s₀
  delta State.trySend
  repeat' (first
    | with_reducible assumption
    | ((with_reducible apply Part.Sub.of); rfl)
    | intro s
    | lift_lets -underBinder
    | with_reducible apply Upd.ite
    | with_reducible apply State.sendFrame_upd)

theorem State.raiseVec_upd {F : List Part} {s₀ s : State} (i : Nat) (waits : List Nat) (h : Upd F s₀ s) (hF : Part.Sub [.regs, .vecs, .link] F) :
    Upd F s₀ (State.raiseVec s i waits) := by
  refine Upd.by_ h ?_ hF
  clear h hF
  revert s
  intro s₀
  have h := Upd.refl (F := [.regs, .vecs, .link]) s₀
  delta State.raiseVec
  repeat' (first
    | with_reducible assumption
    | ((with_reducible apply Part.Sub.of); rfl)
    | (intro s; refine (fun h => ?_) (?_ : Upd [.regs, .vecs, .link] s₀ s); rotate_left; subst s; rotate_left)
    | intro s
    | lift_lets -underBinder
    | with_reducible apply Upd.ite
    | with_reducible apply State.setVec_upd
    | with_reducible apply State.bump_upd
    | with_reducible apply State.trySend_upd)

theorem State.event_upd {F : List Part} {s₀ s : State} (c : Nat) (v : Nat) (waits : List Nat) (h : Upd F s₀ s) (hF : Part.Sub [.regs, .vecs, .link] F) :
    Upd F s₀ (State.event s c v waits) := by
  refine Upd.by_ h ?_ hF
  clear h hF
  revert s
  intro s₀
  have h := Upd.refl (F := [.regs, .vecs, .link]) s₀
  delta State.event
  repeat' (first
    | with_reducible assumption
    | ((with_reducible apply Part.Sub.of); rfl)
    | with_reducible apply State.raiseVec_upd)

theorem State.alertCause_upd {F : List Part} {s₀ s : State} (bitNo : Nat) (h : Upd F s₀ s) (hF : Part.Sub [.svc] F) :
    Upd F s₀ (State.alertCause s bitNo) := by
  refine Upd.by_ h ?_ hF
  clear h hF
  revert s
  intro s₀
  have h := Upd.refl (F := [.svc]) s₀
  delta State.alertCause
  repeat' (first
    | ((with_reducible apply Part.Sub.of); rfl)
    | intro s
    | lift_lets -underBinder
    | (with_reducible apply Upd.svc; case h => with_reducible assumption))

theorem State.logWrite_upd {F : List Part} {s₀ s : State} (r : LogRec) (queued : Bool) (h : Upd F s₀ s) (hF : Part.Sub [.regs, .vecs, .link, .log] F) :
    Upd F s₀ (State.logWrite s r queued) := by
  refine Upd.by_ h ?_ hF
  clear h hF
  revert s
  intro s₀
  have h := Upd.refl (F := [.regs, .vecs, .link, .log]) s₀
  delta State.logWrite
  repeat' (first
    | with_reducible assumption
    | ((with_reducible apply Part.Sub.of); rfl)
    | (intro s; refine (fun h => ?_) (?_ : Upd [.regs, .vecs, .link, .log] s₀ s); rotate_left; subst s; rotate_left)
    | intro s
    | lift_lets -underBinder
    | with_reducible apply Upd.ite
    | (with_reducible apply Upd.foldl; case' hf => intro _ _ h)
    | (with_reducible apply Upd.log; case h => with_reducible assumption)
    | with_reducible apply State.setChip_upd
    | with_reducible apply State.count_upd
    | with_reducible apply State.event_upd
    | split)

theorem State.setDraining_upd {F : List Part} {s₀ s : State} (h : Upd F s₀ s) (hF : Part.Sub [.regs] F) :
    Upd F s₀ (State.setDraining s) := by
  refine Upd.by_ h ?_ hF
  clear h hF
  revert s
  intro s₀
  have h := Upd.refl (F := [.regs]) s₀
  delta State.setDraining
  repeat' (first
    | with_reducible assumption
    | ((with_reducible apply Part.Sub.of); rfl)
    | with_reducible apply State.setChip_upd)

theorem State.enterCoach_upd {F : List Part} {s₀ s : State} (c : Nat) (st : Nat) (h : Upd F s₀ s) (hF : Part.Sub [.regs, .vecs, .link] F) :
    Upd F s₀ (State.enterCoach s c st) := by
  refine Upd.by_ h ?_ hF
  clear h hF
  revert s
  intro s₀
  have h := Upd.refl (F := [.regs, .vecs, .link]) s₀
  delta State.enterCoach
  repeat' (first
    | with_reducible assumption
    | ((with_reducible apply Part.Sub.of); rfl)
    | with_reducible apply Upd.ite
    | with_reducible apply State.set_upd
    | with_reducible apply State.event_upd)

theorem State.orderEnd_upd {F : List Part} {s₀ s : State} (u : UnitSt) (status : Nat) (h : Upd F s₀ s) (hF : Part.Sub [.gs] F) :
    Upd F s₀ (State.orderEnd s u status) := by
  refine Upd.by_ h ?_ hF
  clear h hF
  revert s
  intro s₀
  have h := Upd.refl (F := [.gs]) s₀
  delta State.orderEnd
  repeat' (first
    | ((with_reducible apply Part.Sub.of); rfl)
    | (intro s; have _h : List _ := s; clear _h; clear_value s)
    | intro s
    | lift_lets -underBinder
    | (with_reducible apply Upd.gs; case h => with_reducible assumption))

theorem State.safeMarks_upd {F : List Part} {s₀ s : State} (h : Upd F s₀ s) (hF : Part.Sub [.regs, .vecs, .gs, .link, .svc] F) :
    Upd F s₀ (State.safeMarks s) := by
  refine Upd.by_ h ?_ hF
  clear h hF
  revert s
  intro s₀
  have h := Upd.refl (F := [.regs, .vecs, .gs, .link, .svc]) s₀
  delta State.safeMarks
  repeat' (first
    | with_reducible assumption
    | with_reducible exact Upd.refl _
    | ((with_reducible apply Part.Sub.of); rfl)
    | (intro s; refine (fun h => ?_) (?_ : Upd [.regs, .vecs, .gs, .link, .svc] s₀ s); rotate_left; subst s; rotate_left)
    | (intro q; refine (fun hq => ?_) (?_ : ∀ s, Upd [.regs, .vecs, .gs, .link, .svc] s₀ s → Upd [.regs, .vecs, .gs, .link, .svc] s₀ (q s)); rotate_left; subst q; intro s h; rotate_left)
    | (intro q; refine (fun hq => ?_) (?_ : ∀ s x, Upd [.regs, .vecs, .gs, .link, .svc] s₀ s → Upd [.regs, .vecs, .gs, .link, .svc] s₀ (q s x)); rotate_left; subst q; intro s x h; rotate_left)
    | (intro q; refine (fun hq => ?_) (?_ : ∀ x s, Upd [.regs, .vecs, .gs, .link, .svc] s₀ s → Upd [.regs, .vecs, .gs, .link, .svc] s₀ (q x s)); rotate_left; subst q; intro x s h; rotate_left)
    | (intro s; have _h : Option _ := s; clear _h; clear_value s)
    | (intro s; have _h : List _ := s; clear _h; clear_value s)
    | intro s
    | lift_lets -underBinder
    | with_reducible apply hq
    | with_reducible apply Upd.ite
    | (with_reducible apply Upd.foldl; case' hf => intro _ _ h)
    | (with_reducible apply Upd.gs; case h => with_reducible assumption)
    | with_reducible apply State.setChip_upd
    | with_reducible apply State.alertCause_upd
    | with_reducible apply State.setDraining_upd
    | with_reducible apply State.orderEnd_upd
    | with_reducible apply State.enterCoach_upd
    | split)


theorem State.enterSafe_upd {F : List Part} {s₀ s : State} (r : LogRec) (h : Upd F s₀ s) (hF : Part.Sub [.regs, .vecs, .gs, .link, .svc, .log] F) :
    Upd F s₀ (State.enterSafe s r) := by
  refine Upd.by_ h ?_ hF
  clear h hF
  revert s
  intro s₀
  have h := Upd.refl (F := [.regs, .vecs, .gs, .link, .svc, .log]) s₀
  delta State.enterSafe
  repeat' (first
    | with_reducible assumption
    | with_reducible exact Upd.refl _
    | ((with_reducible apply Part.Sub.of); rfl)
    | (intro s; refine (fun h => ?_) (?_ : Upd [.regs, .vecs, .gs, .link, .svc, .log] s₀ s); rotate_left; subst s; rotate_left)
    | (intro q; refine (fun hq => ?_) (?_ : ∀ s, Upd [.regs, .vecs, .gs, .link, .svc, .log] s₀ s → Upd [.regs, .vecs, .gs, .link, .svc, .log] s₀ (q s)); rotate_left; subst q; intro s h; rotate_left)
    | (intro q; refine (fun hq => ?_) (?_ : ∀ s x, Upd [.regs, .vecs, .gs, .link, .svc, .log] s₀ s → Upd [.regs, .vecs, .gs, .link, .svc, .log] s₀ (q s x)); rotate_left; subst q; intro s x h; rotate_left)
    | (intro q; refine (fun hq => ?_) (?_ : ∀ x s, Upd [.regs, .vecs, .gs, .link, .svc, .log] s₀ s → Upd [.regs, .vecs, .gs, .link, .svc, .log] s₀ (q x s)); rotate_left; subst q; intro x s h; rotate_left)
    | (intro s; have _h : Option _ := s; clear _h; clear_value s)
    | (intro s; have _h : List _ := s; clear _h; clear_value s)
    | intro s
    | lift_lets -underBinder
    | with_reducible apply hq
    | with_reducible apply Upd.ite
    | (with_reducible apply Upd.log; case h => with_reducible assumption)
    | with_reducible apply State.logWrite_upd
    | with_reducible apply State.count_upd
    | with_reducible apply State.safeMarks_upd
    | split)


theorem State.raise_upd {F : List Part} {s₀ s : State} (r : LogRec) (h : Upd F s₀ s) (hF : Part.Sub [.regs, .vecs, .gs, .link, .svc, .log] F) :
    Upd F s₀ (State.raise s r) := by
  refine Upd.by_ h ?_ hF
  clear h hF
  revert s
  intro s₀
  have h := Upd.refl (F := [.regs, .vecs, .gs, .link, .svc, .log]) s₀
  delta State.raise
  repeat' (first
    | with_reducible assumption
    | ((with_reducible apply Part.Sub.of); rfl)
    | (intro s; refine (fun h => ?_) (?_ : Upd [.regs, .vecs, .gs, .link, .svc, .log] s₀ s); rotate_left; subst s; rotate_left)
    | (intro q; refine (fun hq => ?_) (?_ : ∀ s, Upd [.regs, .vecs, .gs, .link, .svc, .log] s₀ s → Upd [.regs, .vecs, .gs, .link, .svc, .log] s₀ (q s)); rotate_left; subst q; intro s h; rotate_left)
    | intro s
    | lift_lets -underBinder
    | with_reducible apply hq
    | with_reducible apply Upd.ite
    | (with_reducible apply Upd.log; case h => with_reducible assumption)
    | with_reducible apply State.count_upd
    | with_reducible apply State.bumpSat_upd
    | with_reducible apply State.enterSafe_upd
    | with_reducible apply State.logWrite_upd
    | split)

theorem State.raiseSafe_upd {F : List Part} {s₀ s : State} (r : LogRec) (h : Upd F s₀ s) (hF : Part.Sub [.regs, .vecs, .gs, .link, .svc, .log] F) :
    Upd F s₀ (State.raiseSafe s r) := by
  refine Upd.by_ h ?_ hF
  clear h hF
  revert s
  intro s₀
  have h := Upd.refl (F := [.regs, .vecs, .gs, .link, .svc, .log]) s₀
  delta State.raiseSafe
  repeat' (first
    | with_reducible assumption
    | ((with_reducible apply Part.Sub.of); rfl)
    | with_reducible apply Upd.ite
    | with_reducible apply State.raise_upd
    | with_reducible apply State.count_upd
    | with_reducible apply State.enterSafe_upd)

theorem State.raiseOnce_upd {F : List Part} {s₀ s : State} (src : Nat) (r : LogRec) (h : Upd F s₀ s) (hF : Part.Sub [.regs, .vecs, .gs, .link, .svc, .log] F) :
    Upd F s₀ (State.raiseOnce s src r) := by
  refine Upd.by_ h ?_ hF
  clear h hF
  revert s
  intro s₀
  have h := Upd.refl (F := [.regs, .vecs, .gs, .link, .svc, .log]) s₀
  delta State.raiseOnce
  repeat' (first
    | with_reducible assumption
    | ((with_reducible apply Part.Sub.of); rfl)
    | intro s
    | lift_lets -underBinder
    | with_reducible apply Upd.ite
    | (with_reducible apply Upd.log; case h => with_reducible assumption)
    | with_reducible apply State.raise_upd)

theorem State.maskWhere_upd {F : List Part} {s₀ s : State} (f : Row → Bool) (status : Nat) (h : Upd F s₀ s) (hF : Part.Sub [.gs] F) :
    Upd F s₀ (State.maskWhere s f status) := by
  refine Upd.by_ h ?_ hF
  clear h hF
  revert s
  intro s₀
  have h := Upd.refl (F := [.gs]) s₀
  delta State.maskWhere
  repeat' (first
    | ((with_reducible apply Part.Sub.of); rfl)
    | intro s
    | lift_lets -underBinder
    | (with_reducible apply Upd.gs; case h => with_reducible assumption))

theorem State.endCoachWork_upd {F : List Part} {s₀ s : State} (c : Nat) (status : Nat) (h : Upd F s₀ s) (hF : Part.Sub [.gs] F) :
    Upd F s₀ (State.endCoachWork s c status) := by
  refine Upd.by_ h ?_ hF
  clear h hF
  revert s
  intro s₀
  have h := Upd.refl (F := [.gs]) s₀
  delta State.endCoachWork
  repeat' (first
    | with_reducible assumption
    | ((with_reducible apply Part.Sub.of); rfl)
    | (intro s; refine (fun h => ?_) (?_ : Upd [.gs] s₀ s); rotate_left; subst s; rotate_left)
    | intro s
    | lift_lets -underBinder
    | with_reducible apply Upd.ite
    | (with_reducible apply Upd.foldl; case' hf => intro _ _ h)
    | (with_reducible apply Upd.gs; case h => with_reducible assumption)
    | with_reducible apply State.orderEnd_upd
    | with_reducible apply State.maskWhere_upd)

theorem State.coachFatal_upd {F : List Part} {s₀ s : State} (c : Nat) (status : Nat) (h : Upd F s₀ s) (hF : Part.Sub [.regs, .vecs, .gs, .link] F) :
    Upd F s₀ (State.coachFatal s c status) := by
  refine Upd.by_ h ?_ hF
  clear h hF
  revert s
  intro s₀
  have h := Upd.refl (F := [.regs, .vecs, .gs, .link]) s₀
  delta State.coachFatal
  repeat' (first
    | with_reducible assumption
    | ((with_reducible apply Part.Sub.of); rfl)
    | (intro s; refine (fun h => ?_) (?_ : Upd [.regs, .vecs, .gs, .link] s₀ s); rotate_left; subst s; rotate_left)
    | lift_lets -underBinder
    | with_reducible apply State.enterCoach_upd
    | with_reducible apply State.set_upd
    | with_reducible apply State.endCoachWork_upd)

theorem State.respondAs_upd {F : List Part} {s₀ s : State} (box coach status applied retry : Nat) (result : List Byte)
    (h : Upd F s₀ s) (hF : Part.Sub [.regs, .vecs, .mbox, .inprog, .link, .svc] F) : Upd F s₀ (s.respondAs box coach status applied retry result) := by
  have h1 (x : Memory) (l : List InProg) (k : MemUpd s.mbox x) : Upd F s₀ { s with mbox := x, inprog := l } :=
    Upd.inprog _ (Upd.setMbox _ h (Part.Sub.trans (Part.Sub.of rfl) hF) k) (Part.Sub.trans (Part.Sub.of rfl) hF)
  have h2 (x : Memory) (l : List InProg) (k : MemUpd s.mbox x) :=
    State.count_upd Machine.F.mbCmds 1 (h1 x l k) (Part.Sub.trans (Part.Sub.of rfl) hF)
  have k := ((MemUpd.refl s.mbox).write (boxB box + 0x200) (padTo 512 (packFields 16 [
    (0, 2, fieldLE (Memory.read s.mbox (boxB box) 8) 0 2), (2, 1, status), (3, 1, applied),
    (4, 4, fieldLE (Memory.read s.mbox (boxB box) 8) 4 4), (8, 2, result.length % 512), (10, 2, coach % 4096),
    (12, 4, retry)] ++ result))).put (boxB box + 3) (Memory.byte (Memory.write s.mbox (boxB box + 0x200) (padTo 512 (packFields 16 [
    (0, 2, fieldLE (Memory.read s.mbox (boxB box) 8) 0 2), (2, 1, status), (3, 1, applied),
    (4, 4, fieldLE (Memory.read s.mbox (boxB box) 8) 4 4), (8, 2, result.length % 512), (10, 2, coach % 4096),
    (12, 4, retry)] ++ result))) (boxB box + 3) &&& 0xFE)
  unfold State.respondAs
  refine Upd.ite (State.raiseVec_upd _ _ (h2 _ _ k) (Part.Sub.trans (Part.Sub.of rfl) hF)) (Upd.ite ?_ ?_)
  · exact State.alertCause_upd _ (Upd.svc _ (h2 _ _ k) (Part.Sub.trans (Part.Sub.of rfl) hF)) (Part.Sub.trans (Part.Sub.of rfl) hF)
  · exact State.event_upd _ _ _ (h2 _ _ k) (Part.Sub.trans (Part.Sub.of rfl) hF)

theorem State.respond_upd {F : List Part} {s₀ s : State} (box : Nat) (coach : Nat) (status : Nat) (result : List Byte) (h : Upd F s₀ s) (hF : Part.Sub [.regs, .vecs, .mbox, .inprog, .link, .svc] F) :
    Upd F s₀ (State.respond s box coach status result) := by
  refine Upd.by_ h ?_ hF
  clear h hF
  revert s
  intro s₀
  have h := Upd.refl (F := [.regs, .vecs, .mbox, .inprog, .link, .svc]) s₀
  delta State.respond
  repeat' (first
    | with_reducible assumption
    | ((with_reducible apply Part.Sub.of); rfl)
    | with_reducible apply State.respondAs_upd)

theorem State.respondBusy_upd {F : List Part} {s₀ s : State} (box : Nat) (coach : Nat) (h : Upd F s₀ s) (hF : Part.Sub [.free, .regs, .vecs, .mbox, .inprog, .link, .svc] F) :
    Upd F s₀ (State.respondBusy s box coach) := by
  refine Upd.by_ h ?_ hF
  clear h hF
  revert s
  intro s₀
  have h := Upd.refl (F := [.free, .regs, .vecs, .mbox, .inprog, .link, .svc]) s₀
  delta State.respondBusy
  repeat' (first
    | with_reducible assumption
    | ((with_reducible apply Part.Sub.of); rfl)
    | intro s
    | lift_lets -underBinder
    | with_reducible apply State.draw_upd
    | with_reducible apply State.count_upd
    | with_reducible apply State.respondAs_upd)

theorem takeCommand_upd {F : List Part} {s₀ s : State} (op : Nat) (box : Nat) (own : Cmd → State → State) (h : Upd F s₀ s) (hF : Part.Sub [.free, .regs, .vecs, .mbox, .inprog, .lastCoach, .link, .svc] F)
    (hown : ∀ c s, Upd F s₀ s → Upd F s₀ (own c s)) :
    Upd F s₀ (takeCommand op box own s) := by
  delta takeCommand
  repeat' (first
    | (with_reducible assumption)
    | ((with_reducible apply Part.Sub.trans _ hF); exact Part.Sub.of rfl)
    | with_reducible apply hown
    | (intro s; refine (fun h => ?_) (?_ : Upd F s₀ s); rotate_left; subst s; rotate_left)
    | intro s
    | lift_lets -underBinder
    | with_reducible apply Upd.ite
    | (with_reducible apply Upd.lastCoach; case h => with_reducible assumption)
    | with_reducible apply State.respondBusy_upd
    | with_reducible apply State.respond_upd
    | split)

theorem State.inProg_upd {F : List Part} {s₀ s : State} (c : Cmd) (par : List Nat) (h : Upd F s₀ s) (hF : Part.Sub [.inprog] F) :
    Upd F s₀ (State.inProg s c par) := by
  refine Upd.by_ h ?_ hF
  clear h hF
  revert s
  intro s₀
  have h := Upd.refl (F := [.inprog]) s₀
  delta State.inProg
  repeat' (first
    | ((with_reducible apply Part.Sub.of); rfl)
    | (with_reducible apply Upd.inprog; case h => with_reducible assumption))

theorem State.answer_upd {F : List Part} {s₀ s : State} (q : InProg) (status : Nat) (result : List Byte) (h : Upd F s₀ s) (hF : Part.Sub [.regs, .vecs, .mbox, .inprog, .link, .svc] F) :
    Upd F s₀ (State.answer s q status result) := by
  refine Upd.by_ h ?_ hF
  clear h hF
  revert s
  intro s₀
  have h := Upd.refl (F := [.regs, .vecs, .mbox, .inprog, .link, .svc]) s₀
  delta State.answer
  repeat' (first
    | with_reducible assumption
    | ((with_reducible apply Part.Sub.of); rfl)
    | lift_lets -underBinder
    | with_reducible apply Upd.ite
    | (with_reducible apply Upd.inprog; case h => with_reducible assumption)
    | with_reducible apply State.respond_upd)

theorem State.answerAll_upd {F : List Part} {s₀ s : State} (op : Nat) (p : InProg → Bool) (status : Nat) (result : List Byte) (h : Upd F s₀ s) (hF : Part.Sub [.regs, .vecs, .mbox, .inprog, .link, .svc] F) :
    Upd F s₀ (State.answerAll s op p status result) := by
  refine Upd.by_ h ?_ hF
  clear h hF
  revert s
  intro s₀
  have h := Upd.refl (F := [.regs, .vecs, .mbox, .inprog, .link, .svc]) s₀
  delta State.answerAll
  repeat' (first
    | with_reducible assumption
    | ((with_reducible apply Part.Sub.of); rfl)
    | (with_reducible apply Upd.foldl; case' hf => intro _ _ h)
    | with_reducible apply State.answer_upd)

theorem State.extendM_upd {F : List Part} {s₀ s : State} (k : Nat) (d : List Byte) (h : Upd F s₀ s) (hF : Part.Sub [.boot] F) :
    Upd F s₀ (State.extendM s k d) := by
  refine Upd.by_ h ?_ hF
  clear h hF
  revert s
  intro s₀
  have h := Upd.refl (F := [.boot]) s₀
  delta State.extendM
  repeat' (first
    | ((with_reducible apply Part.Sub.of); rfl)
    | intro s
    | lift_lets -underBinder
    | (with_reducible apply Upd.boot; case h => with_reducible assumption))

theorem State.extendCm_upd {F : List Part} {s₀ s : State} (c : Nat) (d : List Byte) (h : Upd F s₀ s) (hF : Part.Sub [.coaches] F) :
    Upd F s₀ (State.extendCm s c d) := by
  refine Upd.by_ h ?_ hF
  clear h hF
  revert s
  intro s₀
  have h := Upd.refl (F := [.coaches]) s₀
  delta State.extendCm
  repeat' (first
    | with_reducible assumption
    | ((with_reducible apply Part.Sub.of); rfl)
    | with_reducible apply State.modCoach_upd)

theorem State.tableAccess_upd {F : List Part} {s₀ s : State} (a : Nat) (h : Upd F s₀ s) (hF : Part.Sub [.regs] F) :
    Upd F s₀ (State.tableAccess s a) := by
  refine Upd.by_ h ?_ hF
  clear h hF
  revert s
  intro s₀
  have h := Upd.refl (F := [.regs]) s₀
  delta State.tableAccess
  repeat' (first
    | with_reducible assumption
    | ((with_reducible apply Part.Sub.of); rfl)
    | intro s
    | lift_lets -underBinder
    | with_reducible apply State.bump_upd)

theorem State.walk_upd {F : List Part} {s₀ s : State} (block : Nat) (coach : Nat) (page : Nat) (h : Upd F s₀ s) (hF : Part.Sub [.regs, .xlate] F) :
    Upd F s₀ (State.walk s block coach page) := by
  refine Upd.by_ h ?_ hF
  clear h hF
  revert s
  intro s₀
  have h := Upd.refl (F := [.regs, .xlate]) s₀
  delta State.walk
  repeat' (first
    | with_reducible assumption
    | ((with_reducible apply Part.Sub.of); rfl)
    | (intro s; refine (fun h => ?_) (?_ : Upd [.regs, .xlate] s₀ s); rotate_left; subst s; rotate_left)
    | (intro s; have _h : List _ := s; clear _h; clear_value s)
    | intro s
    | lift_lets -underBinder
    | with_reducible apply Upd.ite
    | (with_reducible apply Upd.foldl; case' hf => intro _ _ h)
    | (with_reducible apply Upd.xlate; case h => with_reducible assumption)
    | with_reducible apply State.tableAccess_upd
    | with_reducible apply State.bump_upd)

theorem State.walkRange_upd {F : List Part} {s₀ s : State} (block : Nat) (coach : Nat) (a : Nat) (n : Nat) (write : Bool) (h : Upd F s₀ s) (hF : Part.Sub [.regs, .xlate] F) :
    Upd F s₀ (State.walkRange s block coach a n write) := by
  refine Upd.by_ h ?_ hF
  clear h hF
  revert s
  intro s₀
  have h := Upd.refl (F := [.regs, .xlate]) s₀
  delta State.walkRange
  repeat' (first
    | with_reducible assumption
    | ((with_reducible apply Part.Sub.of); rfl)
    | (intro s; refine (fun h => ?_) (?_ : Upd [.regs, .xlate] s₀ s); rotate_left; subst s; rotate_left)
    | lift_lets -underBinder
    | with_reducible apply Upd.ite
    | (with_reducible apply Upd.foldl; case' hf => intro _ _ h)
    | with_reducible apply State.walk_upd
    | with_reducible apply State.bump_upd)

theorem State.memWrite_upd {F : List Part} {s₀ s : State} (a : Nat) (l : List Byte) (h : Upd F s₀ s) (hF : Part.Sub [.hbm] F) :
    Upd F s₀ (State.memWrite s a l) := by
  refine Upd.by_ h ?_ hF
  clear h hF
  revert s
  intro s₀
  have h := Upd.refl (F := [.hbm]) s₀
  delta State.memWrite
  repeat' (first
    | ((with_reducible apply Part.Sub.of); rfl)
    | (with_reducible apply MemUpd.write; with_reducible apply MemUpd.refl)
    | (intro s; have _h : List _ := s; clear _h; clear_value s)
    | intro s
    | lift_lets -underBinder
    | (with_reducible apply Upd.setHbm; case h => with_reducible assumption))

theorem State.coachWrite_upd {F : List Part} {s₀ s : State} (block : Nat) (coach : Nat) (a : Nat) (l : List Byte) (h : Upd F s₀ s) (hF : Part.Sub [.regs, .hbm] F) :
    Upd F s₀ (State.coachWrite s block coach a l) := by
  refine Upd.by_ h ?_ hF
  clear h hF
  revert s
  intro s₀
  have h := Upd.refl (F := [.regs, .hbm]) s₀
  delta State.coachWrite
  repeat' (first
    | with_reducible assumption
    | ((with_reducible apply Part.Sub.of); rfl)
    | intro s
    | lift_lets -underBinder
    | (with_reducible apply Upd.foldl; case' hf => intro _ _ h)
    | with_reducible apply State.memWrite_upd
    | split)

end Sys2Proof.Machine
end

