-- ==== Sys2Proof/Laws/UpdOperands.lean ====
section
/-!
SUPPORT. What each operation of Machine/Operands.lean may change.
-/
namespace Sys2Proof.Machine

theorem State.setSeq_upd {F : List Part} {s₀ s : State} (n : Nat) (f : EntF) (v : Nat) (h : Upd F s₀ s) (hF : Part.Sub [.hbm] F) :
    Upd F s₀ (State.setSeq s n f v) := by
  refine Upd.by_ h ?_ hF
  clear h hF
  revert s
  intro s₀
  have h := Upd.refl (F := [.hbm]) s₀
  delta State.setSeq
  repeat' (first
    | with_reducible assumption
    | ((with_reducible apply Part.Sub.of); rfl)
    | with_reducible apply State.memWrite_upd)

theorem State.mapRows_upd {F : List Part} {s₀ s : State} (f : Nat → Row → Row) (h : Upd F s₀ s) (hF : Part.Sub [.gs] F) :
    Upd F s₀ (State.mapRows s f) := by
  refine Upd.by_ h ?_ hF
  clear h hF
  revert s
  intro s₀
  have h := Upd.refl (F := [.gs]) s₀
  delta State.mapRows
  repeat' (first
    | ((with_reducible apply Part.Sub.of); rfl)
    | intro s
    | lift_lets -underBinder
    | (with_reducible apply Upd.gs; case h => with_reducible assumption))

end Sys2Proof.Machine
end

