-- ==== Sys2Proof/Laws/UpdSequences.lean ====
section
/-!
SUPPORT. What each operation of Machine/Sequences.lean may change.
-/
namespace Sys2Proof.Machine

theorem State.setOve_upd {F : List Part} {s₀ s : State} (i : Nat) (o : Ove) (h : Upd F s₀ s) (hF : Part.Sub [.sb] F) :
    Upd F s₀ (State.setOve s i o) := by
  refine Upd.by_ h ?_ hF
  clear h hF
  revert s
  intro s₀
  have h := Upd.refl (F := [.sb]) s₀
  delta State.setOve
  repeat' (first
    | ((with_reducible apply Part.Sub.of); rfl)
    | intro s
    | lift_lets -underBinder
    | (with_reducible apply Upd.sb; case h => with_reducible assumption))

theorem State.setName_upd {F : List Part} {s₀ s : State} (n : Nat) (v : OvName) (h : Upd F s₀ s) (hF : Part.Sub [.sb] F) :
    Upd F s₀ (State.setName s n v) := by
  refine Upd.by_ h ?_ hF
  clear h hF
  revert s
  intro s₀
  have h := Upd.refl (F := [.sb]) s₀
  delta State.setName
  repeat' (first
    | ((with_reducible apply Part.Sub.of); rfl)
    | intro s
    | lift_lets -underBinder
    | (with_reducible apply Upd.sb; case h => with_reducible assumption))

theorem State.freeOve_upd {F : List Part} {s₀ s : State} (i : Nat) (h : Upd F s₀ s) (hF : Part.Sub [.regs, .vecs, .gs, .sb, .link, .svc, .log] F) :
    Upd F s₀ (State.freeOve s i) := by
  refine Upd.by_ h ?_ hF
  clear h hF
  revert s
  intro s₀
  have h := Upd.refl (F := [.regs, .vecs, .gs, .sb, .link, .svc, .log]) s₀
  delta State.freeOve
  repeat' (first
    | with_reducible assumption
    | ((with_reducible apply Part.Sub.of); rfl)
    | (intro s; refine (fun h => ?_) (?_ : Upd [.regs, .vecs, .gs, .sb, .link, .svc, .log] s₀ s); rotate_left; subst s; rotate_left)
    | intro s
    | lift_lets -underBinder
    | with_reducible apply Upd.ite
    | with_reducible apply State.raise_upd
    | with_reducible apply State.setOve_upd
    | with_reducible apply State.setName_upd)

theorem State.moveOn_upd {F : List Part} {s₀ s : State} (i : Nat) (h : Upd F s₀ s) (hF : Part.Sub [.regs, .vecs, .gs, .sb, .link, .svc, .log] F) :
    Upd F s₀ (State.moveOn s i) := by
  refine Upd.by_ h ?_ hF
  clear h hF
  revert s
  intro s₀
  have h := Upd.refl (F := [.regs, .vecs, .gs, .sb, .link, .svc, .log]) s₀
  delta State.moveOn
  repeat' (first
    | with_reducible assumption
    | ((with_reducible apply Part.Sub.of); rfl)
    | intro s
    | lift_lets -underBinder
    | with_reducible apply Upd.ite
    | with_reducible apply State.setOve_upd
    | with_reducible apply State.freeOve_upd)

theorem State.releaseOve_upd {F : List Part} {s₀ s : State} (i : Nat) (h : Upd F s₀ s) (hF : Part.Sub [.regs, .vecs, .gs, .sb, .link, .svc, .log] F) :
    Upd F s₀ (State.releaseOve s i) := by
  refine Upd.by_ h ?_ hF
  clear h hF
  revert s
  intro s₀
  have h := Upd.refl (F := [.regs, .vecs, .gs, .sb, .link, .svc, .log]) s₀
  delta State.releaseOve
  repeat' (first
    | with_reducible assumption
    | ((with_reducible apply Part.Sub.of); rfl)
    | (intro s; refine (fun h => ?_) (?_ : Upd [.regs, .vecs, .gs, .sb, .link, .svc, .log] s₀ s); rotate_left; subst s; rotate_left)
    | intro s
    | lift_lets -underBinder
    | with_reducible apply Upd.ite
    | with_reducible apply State.setOve_upd
    | with_reducible apply State.freeOve_upd)

theorem State.bindOve_upd {F : List Part} {s₀ s : State} (i : Nat) (h : Upd F s₀ s) (hF : Part.Sub [.sb] F) :
    Upd F s₀ (State.bindOve s i) := by
  refine Upd.by_ h ?_ hF
  clear h hF
  revert s
  intro s₀
  have h := Upd.refl (F := [.sb]) s₀
  delta State.bindOve
  repeat' (first
    | with_reducible assumption
    | ((with_reducible apply Part.Sub.of); rfl)
    | intro s
    | lift_lets -underBinder
    | with_reducible apply State.setOve_upd)

theorem State.dropName_upd {F : List Part} {s₀ s : State} (n : Nat) (h : Upd F s₀ s) (hF : Part.Sub [.regs, .vecs, .gs, .sb, .link, .svc, .log] F) :
    Upd F s₀ (State.dropName s n) := by
  refine Upd.by_ h ?_ hF
  clear h hF
  revert s
  intro s₀
  have h := Upd.refl (F := [.regs, .vecs, .gs, .sb, .link, .svc, .log]) s₀
  delta State.dropName
  repeat' (first
    | with_reducible assumption
    | ((with_reducible apply Part.Sub.of); rfl)
    | intro s
    | lift_lets -underBinder
    | with_reducible apply State.setName_upd
    | with_reducible apply State.moveOn_upd
    | split)

theorem State.dropNames_upd {F : List Part} {s₀ s : State} (c : Nat) (h : Upd F s₀ s) (hF : Part.Sub [.regs, .vecs, .gs, .sb, .link, .svc, .log] F) :
    Upd F s₀ (State.dropNames s c) := by
  refine Upd.by_ h ?_ hF
  clear h hF
  revert s
  intro s₀
  have h := Upd.refl (F := [.regs, .vecs, .gs, .sb, .link, .svc, .log]) s₀
  delta State.dropNames
  repeat' (first
    | with_reducible assumption
    | ((with_reducible apply Part.Sub.of); rfl)
    | (with_reducible apply Upd.foldl; case' hf => intro _ _ h)
    | with_reducible apply State.dropName_upd)

theorem State.poolMark_upd {F : List Part} {s₀ s : State} (h : Upd F s₀ s) (hF : Part.Sub [.regs, .coaches, .vecs, .sb, .link] F) :
    Upd F s₀ (State.poolMark s) := by
  refine Upd.by_ h ?_ hF
  clear h hF
  revert s
  intro s₀
  have h := Upd.refl (F := [.regs, .coaches, .vecs, .sb, .link]) s₀
  delta State.poolMark
  repeat' (first
    | with_reducible assumption
    | ((with_reducible apply Part.Sub.of); rfl)
    | (intro s; refine (fun h => ?_) (?_ : Upd [.regs, .coaches, .vecs, .sb, .link] s₀ s); rotate_left; subst s; rotate_left)
    | intro s
    | lift_lets -underBinder
    | with_reducible apply Upd.ite
    | (with_reducible apply Upd.foldl; case' hf => intro _ _ h)
    | (with_reducible apply Upd.sb; case h => with_reducible assumption)
    | with_reducible apply State.modCoach_upd
    | with_reducible apply State.event_upd)

theorem State.holdPages_upd {F : List Part} {s₀ s : State} (c : Nat) (up : Bool) (n : Nat) (h : Upd F s₀ s) (hF : Part.Sub [.coaches] F) :
    Upd F s₀ (State.holdPages s c up n) := by
  refine Upd.by_ h ?_ hF
  clear h hF
  revert s
  intro s₀
  have h := Upd.refl (F := [.coaches]) s₀
  delta State.holdPages
  repeat' (first
    | with_reducible assumption
    | ((with_reducible apply Part.Sub.of); rfl)
    | with_reducible apply State.modCoach_upd)

theorem State.takeHot_upd {F : List Part} {s₀ s : State} (slot : Nat) (coach : Nat) (p : Nat) (reserved : Bool) (h : Upd F s₀ s) (hF : Part.Sub [.regs, .coaches, .vecs, .sb, .link] F) :
    Upd F s₀ (State.takeHot s slot coach p reserved) := by
  refine Upd.by_ h ?_ hF
  clear h hF
  revert s
  intro s₀
  have h := Upd.refl (F := [.regs, .coaches, .vecs, .sb, .link]) s₀
  delta State.takeHot
  repeat' (first
    | with_reducible assumption
    | ((with_reducible apply Part.Sub.of); rfl)
    | (intro s; refine (fun h => ?_) (?_ : Upd [.regs, .coaches, .vecs, .sb, .link] s₀ s); rotate_left; subst s; rotate_left)
    | intro s
    | lift_lets -underBinder
    | with_reducible apply Upd.ite
    | (with_reducible apply Upd.sb; case h => with_reducible assumption)
    | with_reducible apply State.drop_upd
    | with_reducible apply State.bump_upd
    | with_reducible apply State.holdPages_upd
    | with_reducible apply State.poolMark_upd)

theorem State.freeHot_upd {F : List Part} {s₀ s : State} (coach : Nat) (p : Nat) (h : Upd F s₀ s) (hF : Part.Sub [.regs, .coaches, .vecs, .sb, .link] F) :
    Upd F s₀ (State.freeHot s coach p) := by
  refine Upd.by_ h ?_ hF
  clear h hF
  revert s
  intro s₀
  have h := Upd.refl (F := [.regs, .coaches, .vecs, .sb, .link]) s₀
  delta State.freeHot
  repeat' (first
    | with_reducible assumption
    | ((with_reducible apply Part.Sub.of); rfl)
    | (intro s; refine (fun h => ?_) (?_ : Upd [.regs, .coaches, .vecs, .sb, .link] s₀ s); rotate_left; subst s; rotate_left)
    | intro s
    | lift_lets -underBinder
    | (with_reducible apply Upd.sb; case h => with_reducible assumption)
    | with_reducible apply State.drop_upd
    | with_reducible apply State.bump_upd
    | with_reducible apply State.holdPages_upd
    | with_reducible apply State.poolMark_upd)

theorem State.takeCold_upd {F : List Part} {s₀ s : State} (slot : Nat) (p : Nat) (h : Upd F s₀ s) (hF : Part.Sub [.regs, .sb] F) :
    Upd F s₀ (State.takeCold s slot p) := by
  refine Upd.by_ h ?_ hF
  clear h hF
  revert s
  intro s₀
  have h := Upd.refl (F := [.regs, .sb]) s₀
  delta State.takeCold
  repeat' (first
    | ((with_reducible apply Part.Sub.of); rfl)
    | intro s
    | lift_lets -underBinder
    | (with_reducible apply Upd.sb; case h => with_reducible assumption)
    | with_reducible apply State.drop_upd
    | with_reducible apply State.bump_upd)

theorem State.freeCold_upd {F : List Part} {s₀ s : State} (p : Nat) (h : Upd F s₀ s) (hF : Part.Sub [.regs, .sb] F) :
    Upd F s₀ (State.freeCold s p) := by
  refine Upd.by_ h ?_ hF
  clear h hF
  revert s
  intro s₀
  have h := Upd.refl (F := [.regs, .sb]) s₀
  delta State.freeCold
  repeat' (first
    | ((with_reducible apply Part.Sub.of); rfl)
    | intro s
    | lift_lets -underBinder
    | (with_reducible apply Upd.sb; case h => with_reducible assumption)
    | with_reducible apply State.drop_upd
    | with_reducible apply State.bump_upd)

theorem State.deferRow_upd {F : List Part} {s₀ s : State} (slot : Nat) (c : Nat) (kind : Nat) (h : Upd F s₀ s) (hF : Part.Sub [.regs, .coaches, .vecs, .link] F) :
    Upd F s₀ (State.deferRow s slot c kind) := by
  refine Upd.by_ h ?_ hF
  clear h hF
  revert s
  intro s₀
  have h := Upd.refl (F := [.regs, .coaches, .vecs, .link]) s₀
  delta State.deferRow
  repeat' (first
    | with_reducible assumption
    | ((with_reducible apply Part.Sub.of); rfl)
    | (intro s; refine (fun h => ?_) (?_ : Upd [.regs, .coaches, .vecs, .link] s₀ s); rotate_left; subst s; rotate_left)
    | intro s
    | lift_lets -underBinder
    | with_reducible apply Upd.ite
    | with_reducible apply State.count_upd
    | with_reducible apply State.modCoach_upd
    | with_reducible apply State.event_upd)

theorem State.sbRead_upd {F : List Part} {s₀ s : State} (c : Nat) (a : Nat) (n : Nat) (h : Upd F s₀ s) (hF : Part.Sub [.regs, .xlate] F) :
    Upd1 F s₀ (State.sbRead s c a n) := by
  refine Upd1.by_ h ?_ hF
  clear h hF
  revert s
  intro s₀
  have h := Upd.refl (F := [.regs, .xlate]) s₀
  delta State.sbRead
  repeat' (first
    | with_reducible assumption
    | ((with_reducible apply Part.Sub.of); rfl)
    | (intro s; refine (fun h => ?_) (?_ : Upd [.regs, .xlate] s₀ s); rotate_left; subst s; rotate_left)
    | lift_lets -underBinder
    | with_reducible apply State.walkRange_upd
    | (with_reducible apply Upd1.mk; fail_if_success (with_reducible apply Upd1.fst)))

theorem State.sbWrite_upd {F : List Part} {s₀ s : State} (c : Nat) (a : Nat) (l : List Byte) (h : Upd F s₀ s) (hF : Part.Sub [.regs, .hbm, .xlate] F) :
    Upd F s₀ (State.sbWrite s c a l) := by
  refine Upd.by_ h ?_ hF
  clear h hF
  revert s
  intro s₀
  have h := Upd.refl (F := [.regs, .hbm, .xlate]) s₀
  delta State.sbWrite
  repeat' (first
    | with_reducible assumption
    | ((with_reducible apply Part.Sub.of); rfl)
    | (intro s; refine (fun h => ?_) (?_ : Upd [.regs, .hbm, .xlate] s₀ s); rotate_left; subst s; rotate_left)
    | lift_lets -underBinder
    | with_reducible apply Upd.ite
    | with_reducible apply State.walkRange_upd
    | with_reducible apply State.coachWrite_upd)

theorem State.freeEntry_upd {F : List Part} {s₀ s : State} (slot : Nat) (c : Nat) (a : Nat) (h : Upd F s₀ s) (hF : Part.Sub [.regs, .hbm, .coaches, .vecs, .xlate, .sb, .link] F) :
    Upd1 F s₀ (State.freeEntry s slot c a) := by
  refine Upd1.by_ h ?_ hF
  clear h hF
  revert s
  intro s₀
  have h := Upd.refl (F := [.regs, .hbm, .coaches, .vecs, .xlate, .sb, .link]) s₀
  delta State.freeEntry
  repeat' (first
    | with_reducible assumption
    | ((with_reducible apply Part.Sub.of); rfl)
    | (intro s; refine (fun h => ?_) (?_ : Upd [.regs, .hbm, .coaches, .vecs, .xlate, .sb, .link] s₀ s); rotate_left; subst s; rotate_left)
    | lift_lets -underBinder
    | with_reducible apply Upd.ite
    | with_reducible apply State.sbRead_upd
    | with_reducible apply State.freeHot_upd
    | with_reducible apply State.sbWrite_upd
    | (with_reducible apply Upd1.mk; fail_if_success (with_reducible apply Upd1.fst))
    | with_reducible apply Upd1.ite
    | (with_reducible apply Upd1.of; assumption)
    | split)

theorem State.freePair_upd {F : List Part} {s₀ s : State} (slot : Nat) (c : Nat) (a : Nat) (h : Upd F s₀ s) (hF : Part.Sub [.regs, .hbm, .coaches, .vecs, .xlate, .sb, .link] F) :
    Upd1 F s₀ (State.freePair s slot c a) := by
  refine Upd1.by_ h ?_ hF
  clear h hF
  revert s
  intro s₀
  have h := Upd.refl (F := [.regs, .hbm, .coaches, .vecs, .xlate, .sb, .link]) s₀
  delta State.freePair
  repeat' (first
    | with_reducible assumption
    | ((with_reducible apply Part.Sub.of); rfl)
    | lift_lets -underBinder
    | with_reducible apply State.freeEntry_upd
    | (with_reducible apply Upd1.mk; fail_if_success (with_reducible apply Upd1.fst))
    | (with_reducible apply Upd1.of; assumption)
    | split)

theorem State.freePairs_upd {F : List Part} {s₀ s : State} (slot : Nat) (lo : Nat) (h : Upd F s₀ s) (hF : Part.Sub [.regs, .hbm, .coaches, .vecs, .xlate, .sb, .link] F) :
    Upd1 F s₀ (State.freePairs s slot lo) := by
  refine Upd1.by_ h ?_ hF
  clear h hF
  revert s
  intro s₀
  have h := Upd.refl (F := [.regs, .hbm, .coaches, .vecs, .xlate, .sb, .link]) s₀
  delta State.freePairs
  repeat' (first
    | with_reducible assumption
    | ((with_reducible apply Part.Sub.of); rfl)
    | (intro s; refine (fun h => ?_) (?_ : Upd1 [.regs, .hbm, .coaches, .vecs, .xlate, .sb, .link] s₀ s); rotate_left; subst s; rotate_left)
    | intro s
    | lift_lets -underBinder
    | with_reducible apply State.freePair_upd
    | (with_reducible apply Upd1.mk; fail_if_success (with_reducible apply Upd1.fst))
    | (with_reducible apply Upd1.foldl; case' hf => intro _ _ h)
    | with_reducible apply Upd1.fst
    | split
    | with_reducible apply Upd1.mk)

theorem State.freeHotPages_upd {F : List Part} {s₀ s : State} (slot : Nat) (h : Upd F s₀ s) (hF : Part.Sub [.regs, .hbm, .coaches, .vecs, .xlate, .gs, .sb, .link, .svc, .log] F) :
    Upd F s₀ (State.freeHotPages s slot) := by
  refine Upd.by_ h ?_ hF
  clear h hF
  revert s
  intro s₀
  have h := Upd.refl (F := [.regs, .hbm, .coaches, .vecs, .xlate, .gs, .sb, .link, .svc, .log]) s₀
  delta State.freeHotPages
  repeat' (first
    | with_reducible assumption
    | ((with_reducible apply Part.Sub.of); rfl)
    | (intro s; refine (fun h => ?_) (?_ : Upd [.regs, .hbm, .coaches, .vecs, .xlate, .gs, .sb, .link, .svc, .log] s₀ s); rotate_left; subst s; rotate_left)
    | (intro s; refine (fun h => ?_) (?_ : Upd1 [.regs, .hbm, .coaches, .vecs, .xlate, .gs, .sb, .link, .svc, .log] s₀ s); rotate_left; subst s; rotate_left)
    | intro s
    | lift_lets -underBinder
    | with_reducible apply Upd.ite
    | (with_reducible apply Upd.sb; case h => with_reducible assumption)
    | with_reducible apply State.freePairs_upd
    | with_reducible apply State.raise_upd
    | with_reducible apply Upd1.fst)

theorem State.freeColdPages_upd {F : List Part} {s₀ s : State} (slot : Nat) (h : Upd F s₀ s) (hF : Part.Sub [.regs, .sb] F) :
    Upd F s₀ (State.freeColdPages s slot) := by
  refine Upd.by_ h ?_ hF
  clear h hF
  revert s
  intro s₀
  have h := Upd.refl (F := [.regs, .sb]) s₀
  delta State.freeColdPages
  repeat' (first
    | with_reducible assumption
    | ((with_reducible apply Part.Sub.of); rfl)
    | (intro s; refine (fun h => ?_) (?_ : Upd [.regs, .sb] s₀ s); rotate_left; subst s; rotate_left)
    | intro s
    | lift_lets -underBinder
    | with_reducible apply Upd.ite
    | (with_reducible apply Upd.foldl; case' hf => intro _ _ h)
    | (with_reducible apply Upd.sb; case h => with_reducible assumption)
    | with_reducible apply State.freeCold_upd)

theorem State.pushHost_upd {F : List Part} {s₀ s : State} (slot : Nat) (c : Nat) (addr : Nat) (data : List Byte) (h : Upd F s₀ s) (hF : Part.Sub [.link] F) :
    Upd1 F s₀ (State.pushHost s slot c addr data) := by
  refine Upd1.by_ h ?_ hF
  clear h hF
  revert s
  intro s₀
  have h := Upd.refl (F := [.link]) s₀
  delta State.pushHost
  repeat' (first
    | with_reducible assumption
    | ((with_reducible apply Part.Sub.of); rfl)
    | intro s
    | lift_lets -underBinder
    | with_reducible apply State.request_upd
    | (with_reducible apply Upd1.mk; fail_if_success (with_reducible apply Upd1.fst)))

theorem State.complete_upd {F : List Part} {s₀ s : State} (slot : Nat) (status : Nat) (flags : Nat) (outlen : Nat) (gen : Nat) (hl : Nat) (outs : List Nat) (h : Upd F s₀ s) (hF : Part.Sub [.regs, .hbm, .vecs, .link] F) :
    Upd F s₀ (State.complete s slot status flags outlen gen hl outs) := by
  refine Upd.by_ h ?_ hF
  clear h hF
  revert s
  intro s₀
  have h := Upd.refl (F := [.regs, .hbm, .vecs, .link]) s₀
  delta State.complete
  repeat' (first
    | with_reducible assumption
    | ((with_reducible apply Part.Sub.of); rfl)
    | (intro s; refine (fun h => ?_) (?_ : Upd [.regs, .hbm, .vecs, .link] s₀ s); rotate_left; subst s; rotate_left)
    | (intro s; have _h : List _ := s; clear _h; clear_value s)
    | intro s
    | lift_lets -underBinder
    | with_reducible apply Upd.ite
    | with_reducible apply State.setSeq_upd
    | with_reducible apply State.pushHost_upd
    | with_reducible apply State.count_upd
    | with_reducible apply State.event_upd
    | with_reducible apply Upd1.fst)

theorem State.setEnding_upd {F : List Part} {s₀ s : State} (slot : Nat) (status : Nat) (closed : Bool) (h : Upd F s₀ s) (hF : Part.Sub [.hbm, .sb] F) :
    Upd F s₀ (State.setEnding s slot status closed) := by
  refine Upd.by_ h ?_ hF
  clear h hF
  revert s
  intro s₀
  have h := Upd.refl (F := [.hbm, .sb]) s₀
  delta State.setEnding
  repeat' (first
    | with_reducible assumption
    | ((with_reducible apply Part.Sub.of); rfl)
    | (intro s; refine (fun h => ?_) (?_ : Upd [.hbm, .sb] s₀ s); rotate_left; subst s; rotate_left)
    | intro s
    | lift_lets -underBinder
    | with_reducible apply Upd.ite
    | (with_reducible apply Upd.sb; case h => with_reducible assumption)
    | with_reducible apply State.setSeq_upd)

theorem State.endShipFailed_upd {F : List Part} {s₀ s : State} (slot : Nat) (h : Upd F s₀ s) (hF : Part.Sub [.sb] F) :
    Upd F s₀ (State.endShipFailed s slot) := by
  refine Upd.by_ h ?_ hF
  clear h hF
  revert s
  intro s₀
  have h := Upd.refl (F := [.sb]) s₀
  delta State.endShipFailed
  repeat' (first
    | ((with_reducible apply Part.Sub.of); rfl)
    | intro s
    | lift_lets -underBinder
    | (with_reducible apply Upd.sb; case h => with_reducible assumption))

theorem State.forgetSlot_upd {F : List Part} {s₀ s : State} (slot : Nat) (h : Upd F s₀ s) (hF : Part.Sub [.sb] F) :
    Upd F s₀ (State.forgetSlot s slot) := by
  refine Upd.by_ h ?_ hF
  clear h hF
  revert s
  intro s₀
  have h := Upd.refl (F := [.sb]) s₀
  delta State.forgetSlot
  repeat' (first
    | ((with_reducible apply Part.Sub.of); rfl)
    | intro s
    | lift_lets -underBinder
    | (with_reducible apply Upd.sb; case h => with_reducible assumption))

theorem State.freeSlot_upd {F : List Part} {s₀ s : State} (slot : Nat) (h : Upd F s₀ s) (hF : Part.Sub [.regs, .hbm, .coaches, .vecs, .xlate, .gs, .sb, .link, .svc, .log] F) :
    Upd F s₀ (State.freeSlot s slot) := by
  refine Upd.by_ h ?_ hF
  clear h hF
  revert s
  intro s₀
  have h := Upd.refl (F := [.regs, .hbm, .coaches, .vecs, .xlate, .gs, .sb, .link, .svc, .log]) s₀
  delta State.freeSlot
  repeat' (first
    | with_reducible assumption
    | ((with_reducible apply Part.Sub.of); rfl)
    | (intro s; refine (fun h => ?_) (?_ : Upd [.regs, .hbm, .coaches, .vecs, .xlate, .gs, .sb, .link, .svc, .log] s₀ s); rotate_left; subst s; rotate_left)
    | lift_lets -underBinder
    | with_reducible apply Upd.ite
    | with_reducible apply State.freeHotPages_upd
    | with_reducible apply State.freeColdPages_upd
    | with_reducible apply State.releaseOve_upd
    | with_reducible apply State.setSeq_upd
    | with_reducible apply State.forgetSlot_upd)

theorem State.endSeq_upd {F : List Part} {s₀ s : State} (slot : Nat) (status : Nat) (flags : Nat) (h : Upd F s₀ s) (hF : Part.Sub [.regs, .hbm, .coaches, .vecs, .xlate, .gs, .sb, .link, .svc, .log] F) :
    Upd F s₀ (State.endSeq s slot status flags) := by
  refine Upd.by_ h ?_ hF
  clear h hF
  revert s
  intro s₀
  have h := Upd.refl (F := [.regs, .hbm, .coaches, .vecs, .xlate, .gs, .sb, .link, .svc, .log]) s₀
  delta State.endSeq
  repeat' (first
    | with_reducible assumption
    | ((with_reducible apply Part.Sub.of); rfl)
    | (intro s; refine (fun h => ?_) (?_ : Upd [.regs, .hbm, .coaches, .vecs, .xlate, .gs, .sb, .link, .svc, .log] s₀ s); rotate_left; subst s; rotate_left)
    | lift_lets -underBinder
    | with_reducible apply State.freeSlot_upd
    | with_reducible apply State.complete_upd)

theorem State.freeEnding_upd {F : List Part} {s₀ s : State} (h : Upd F s₀ s) (hF : Part.Sub [.regs, .hbm, .coaches, .vecs, .xlate, .gs, .sb, .link, .svc, .log] F) :
    Upd F s₀ (State.freeEnding s) := by
  refine Upd.by_ h ?_ hF
  clear h hF
  revert s
  intro s₀
  have h := Upd.refl (F := [.regs, .hbm, .coaches, .vecs, .xlate, .gs, .sb, .link, .svc, .log]) s₀
  delta State.freeEnding
  repeat' (first
    | with_reducible assumption
    | ((with_reducible apply Part.Sub.of); rfl)
    | intro s
    | lift_lets -underBinder
    | with_reducible apply Upd.ite
    | (with_reducible apply Upd.foldl; case' hf => intro _ _ h)
    | with_reducible apply State.freeSlot_upd
    | with_reducible apply State.endSeq_upd)

theorem State.flushLate_upd {F : List Part} {s₀ s : State} (h : Upd F s₀ s) (hF : Part.Sub [.regs, .hbm, .vecs, .sb, .link] F) :
    Upd F s₀ (State.flushLate s) := by
  refine Upd.by_ h ?_ hF
  clear h hF
  revert s
  intro s₀
  have h := Upd.refl (F := [.regs, .hbm, .vecs, .sb, .link]) s₀
  delta State.flushLate
  repeat' (first
    | with_reducible assumption
    | ((with_reducible apply Part.Sub.of); rfl)
    | intro s
    | lift_lets -underBinder
    | with_reducible apply Upd.ite
    | (with_reducible apply Upd.foldl; case' hf => intro _ _ h)
    | (with_reducible apply Upd.sb; case h => with_reducible assumption)
    | with_reducible apply State.complete_upd)

theorem State.freeLanded_upd {F : List Part} {s₀ s : State} (slot : Nat) (c : Nat) (e : Nat × Nat) (h : Upd F s₀ s) (hF : Part.Sub [.regs, .hbm, .coaches, .vecs, .xlate, .sb, .link] F) :
    Upd F s₀ (State.freeLanded s slot c e) := by
  refine Upd.by_ h ?_ hF
  clear h hF
  revert s
  intro s₀
  have h := Upd.refl (F := [.regs, .hbm, .coaches, .vecs, .xlate, .sb, .link]) s₀
  delta State.freeLanded
  repeat' (first
    | with_reducible assumption
    | ((with_reducible apply Part.Sub.of); rfl)
    | (intro s; refine (fun h => ?_) (?_ : Upd [.regs, .hbm, .coaches, .vecs, .xlate, .sb, .link] s₀ s); rotate_left; subst s; rotate_left)
    | lift_lets -underBinder
    | with_reducible apply Upd.ite
    | with_reducible apply State.freeHot_upd
    | with_reducible apply State.sbWrite_upd
    | split)

theorem State.closeImport_upd {F : List Part} {s₀ s : State} (i : Nat) (h : Upd F s₀ s) (hF : Part.Sub [.regs, .hbm, .coaches, .vecs, .xlate, .sb, .link] F) :
    Upd F s₀ (State.closeImport s i) := by
  refine Upd.by_ h ?_ hF
  clear h hF
  revert s
  intro s₀
  have h := Upd.refl (F := [.regs, .hbm, .coaches, .vecs, .xlate, .sb, .link]) s₀
  delta State.closeImport
  repeat' (first
    | with_reducible assumption
    | ((with_reducible apply Part.Sub.of); rfl)
    | (intro s; refine (fun h => ?_) (?_ : Upd [.regs, .hbm, .coaches, .vecs, .xlate, .sb, .link] s₀ s); rotate_left; subst s; rotate_left)
    | intro s
    | lift_lets -underBinder
    | with_reducible apply Upd.ite
    | (with_reducible apply Upd.foldl; case' hf => intro _ _ h)
    | (with_reducible apply Upd.sb; case h => with_reducible assumption)
    | with_reducible apply State.freeLanded_upd
    | with_reducible apply State.drop_upd
    | with_reducible apply State.bump_upd
    | with_reducible apply State.setSeq_upd
    | with_reducible apply State.poolMark_upd)

theorem State.shipSend_upd {F : List Part} {s₀ s : State} (dest : Nat) (ticket : Nat) (coach : Nat) (data : List Byte) (h : Upd F s₀ s) (hF : Part.Sub [.regs, .link] F) :
    Upd F s₀ (State.shipSend s dest ticket coach data) := by
  refine Upd.by_ h ?_ hF
  clear h hF
  revert s
  intro s₀
  have h := Upd.refl (F := [.regs, .link]) s₀
  delta State.shipSend
  repeat' (first
    | with_reducible assumption
    | ((with_reducible apply Part.Sub.of); rfl)
    | with_reducible apply State.send_upd)

theorem State.shipReply_upd {F : List Part} {s₀ s : State} (coach : Nat) (dest : Nat) (ticket : Nat) (kind : Nat) (status : Nat) (page : Nat) (h : Upd F s₀ s) (hF : Part.Sub [.regs, .link] F) :
    Upd F s₀ (State.shipReply s coach dest ticket kind status page) := by
  refine Upd.by_ h ?_ hF
  clear h hF
  revert s
  intro s₀
  have h := Upd.refl (F := [.regs, .link]) s₀
  delta State.shipReply
  repeat' (first
    | with_reducible assumption
    | with_reducible exact Upd.refl _
    | ((with_reducible apply Part.Sub.of); rfl)
    | with_reducible apply Upd.ite
    | with_reducible apply State.send_upd
    | split)


theorem State.abortExport_upd {F : List Part} {s₀ s : State} (slot : Nat) (status : Nat) (tell : Bool) (h : Upd F s₀ s) (hF : Part.Sub [.regs, .sb, .link] F) :
    Upd F s₀ (State.abortExport s slot status tell) := by
  refine Upd.by_ h ?_ hF
  clear h hF
  revert s
  intro s₀
  have h := Upd.refl (F := [.regs, .sb, .link]) s₀
  delta State.abortExport
  repeat' (first
    | with_reducible assumption
    | with_reducible exact Upd.refl _
    | ((with_reducible apply Part.Sub.of); rfl)
    | (intro s; refine (fun h => ?_) (?_ : Upd [.regs, .sb, .link] s₀ s); rotate_left; subst s; rotate_left)
    | (intro s; have _h : Option _ := s; clear _h; clear_value s)
    | (intro s; have _h : List _ := s; clear _h; clear_value s)
    | intro s
    | lift_lets -underBinder
    | with_reducible apply Upd.ite
    | (with_reducible apply Upd.sb; case h => with_reducible assumption)
    | with_reducible apply State.shipReply_upd
    | with_reducible apply State.count_upd
    | split)


theorem State.maskSlot_upd {F : List Part} {s₀ s : State} (slot : Nat) (status : Nat) (h : Upd F s₀ s) (hF : Part.Sub [.gs] F) :
    Upd F s₀ (State.maskSlot s slot status) := by
  refine Upd.by_ h ?_ hF
  clear h hF
  revert s
  intro s₀
  have h := Upd.refl (F := [.gs]) s₀
  delta State.maskSlot
  repeat' (first
    | with_reducible assumption
    | ((with_reducible apply Part.Sub.of); rfl)
    | with_reducible apply State.maskWhere_upd)

theorem State.freeColdNow_upd {F : List Part} {s₀ s : State} (slot : Nat) (status : Nat) (h : Upd F s₀ s) (hF : Part.Sub [.regs, .hbm, .coaches, .vecs, .xlate, .gs, .sb, .link, .svc, .log] F) :
    Upd F s₀ (State.freeColdNow s slot status) := by
  refine Upd.by_ h ?_ hF
  clear h hF
  revert s
  intro s₀
  have h := Upd.refl (F := [.regs, .hbm, .coaches, .vecs, .xlate, .gs, .sb, .link, .svc, .log]) s₀
  delta State.freeColdNow
  repeat' (first
    | with_reducible assumption
    | ((with_reducible apply Part.Sub.of); rfl)
    | with_reducible apply State.endSeq_upd)

theorem State.refusePause_upd {F : List Part} {s₀ s : State} (slot : Nat) (h : Upd F s₀ s) (hF : Part.Sub [.regs, .vecs, .mbox, .inprog, .sb, .link, .svc] F) :
    Upd F s₀ (State.refusePause s slot) := by
  refine Upd.by_ h ?_ hF
  clear h hF
  revert s
  intro s₀
  have h := Upd.refl (F := [.regs, .vecs, .mbox, .inprog, .sb, .link, .svc]) s₀
  delta State.refusePause
  repeat' (first
    | with_reducible assumption
    | ((with_reducible apply Part.Sub.of); rfl)
    | intro s
    | lift_lets -underBinder
    | with_reducible apply Upd.ite
    | (with_reducible apply Upd.sb; case h => with_reducible assumption)
    | with_reducible apply State.answerAll_upd)

theorem State.registerEnd_upd {F : List Part} {s₀ s : State} (slot : Nat) (status : Nat) (h : Upd F s₀ s) (hF : Part.Sub [.regs, .hbm, .coaches, .vecs, .mbox, .inprog, .xlate, .gs, .sb, .link, .svc, .log] F) :
    Upd F s₀ (State.registerEnd s slot status) := by
  refine Upd.by_ h ?_ hF
  clear h hF
  revert s
  intro s₀
  have h := Upd.refl (F := [.regs, .hbm, .coaches, .vecs, .mbox, .inprog, .xlate, .gs, .sb, .link, .svc, .log]) s₀
  delta State.registerEnd
  repeat' (first
    | with_reducible assumption
    | ((with_reducible apply Part.Sub.of); rfl)
    | (intro s; refine (fun h => ?_) (?_ : Upd [.regs, .hbm, .coaches, .vecs, .mbox, .inprog, .xlate, .gs, .sb, .link, .svc, .log] s₀ s); rotate_left; subst s; rotate_left)
    | (intro s; have _h : List _ := s; clear _h; clear_value s)
    | intro s
    | lift_lets -underBinder
    | with_reducible apply Upd.ite
    | (with_reducible apply Upd.sb; case h => with_reducible assumption)
    | with_reducible apply State.setEnding_upd
    | with_reducible apply State.refusePause_upd
    | with_reducible apply State.maskSlot_upd
    | with_reducible apply State.closeImport_upd
    | with_reducible apply State.freeColdNow_upd
    | with_reducible apply State.abortExport_upd
    | with_reducible apply State.endShipFailed_upd
    | split)

theorem State.checkDeadline_upd {F : List Part} {s₀ s : State} (slot : Nat) (h : Upd F s₀ s) (hF : Part.Sub [.regs, .hbm, .coaches, .vecs, .mbox, .inprog, .xlate, .gs, .sb, .link, .svc, .log] F) :
    Upd F s₀ (State.checkDeadline s slot) := by
  refine Upd.by_ h ?_ hF
  clear h hF
  revert s
  intro s₀
  have h := Upd.refl (F := [.regs, .hbm, .coaches, .vecs, .mbox, .inprog, .xlate, .gs, .sb, .link, .svc, .log]) s₀
  delta State.checkDeadline
  repeat' (first
    | with_reducible assumption
    | ((with_reducible apply Part.Sub.of); rfl)
    | intro s
    | lift_lets -underBinder
    | with_reducible apply Upd.ite
    | with_reducible apply State.registerEnd_upd)

theorem State.checkTtl_upd {F : List Part} {s₀ s : State} (slot : Nat) (h : Upd F s₀ s) (hF : Part.Sub [.regs, .hbm, .coaches, .vecs, .xlate, .gs, .sb, .link, .svc, .log] F) :
    Upd F s₀ (State.checkTtl s slot) := by
  refine Upd.by_ h ?_ hF
  clear h hF
  revert s
  intro s₀
  have h := Upd.refl (F := [.regs, .hbm, .coaches, .vecs, .xlate, .gs, .sb, .link, .svc, .log]) s₀
  delta State.checkTtl
  repeat' (first
    | with_reducible assumption
    | ((with_reducible apply Part.Sub.of); rfl)
    | with_reducible apply Upd.ite
    | with_reducible apply State.count_upd
    | with_reducible apply State.endSeq_upd)

end Sys2Proof.Machine
end

