-- ==== Sys2Proof/Laws/UpdCut.lean ====
section
/-!
SUPPORT. What each operation of Machine/Cut.lean may change.
-/
namespace Sys2Proof.Machine

theorem State.readCut_upd {F : List Part} {s₀ s : State} (cs : List Nat) (h : Upd F s₀ s) (hF : Part.Sub [.gs] F) :
    Upd F s₀ (State.readCut s cs) := by
  refine Upd.by_ h ?_ hF
  clear h hF
  revert s
  intro s₀
  have h := Upd.refl (F := [.gs]) s₀
  delta State.readCut
  repeat' (first
    | ((with_reducible apply Part.Sub.of); rfl)
    | (intro s; have _h : List _ := s; clear _h; clear_value s)
    | intro s
    | lift_lets -underBinder
    | (with_reducible apply Upd.gs; case h => with_reducible assumption))

theorem State.takeCut_upd {F : List Part} {s₀ s : State} (h : Upd F s₀ s) (hF : Part.Sub [.regs, .hbm, .coaches, .vecs, .mbox, .inprog, .xlate, .gs, .sb, .link, .svc, .log] F) :
    Upd F s₀ (State.takeCut s) := by
  refine Upd.by_ h ?_ hF
  clear h hF
  revert s
  intro s₀
  have h := Upd.refl (F := [.regs, .hbm, .coaches, .vecs, .mbox, .inprog, .xlate, .gs, .sb, .link, .svc, .log]) s₀
  delta State.takeCut
  repeat' (first
    | with_reducible assumption
    | ((with_reducible apply Part.Sub.of); rfl)
    | ((with_reducible apply Or.inr); exact .of rfl)
    | ((with_reducible apply Or.inl); rfl)
    | with_reducible apply Nat.le_refl
    | with_reducible apply Upd.gcount_id
    | with_reducible apply MemUpd.refl
    | with_reducible apply RegsUpd.refl
    | with_reducible apply FusesUpd.refl
    | with_reducible apply NocUpd.refl
    | (intro s; refine (fun h => ?_) (?_ : Upd [.regs, .hbm, .coaches, .vecs, .mbox, .inprog, .xlate, .gs, .sb, .link, .svc, .log] s₀ s); rotate_left; subst s; rotate_left)
    | (intro s; have _h : List _ := s; clear _h; clear_value s)
    | intro s
    | lift_lets -underBinder
    | (with_reducible apply Upd.foldl; case' hf => intro _ _ h)
    | (with_reducible apply Upd.fields; (case h => with_reducible assumption))
    | with_reducible apply State.checkDeadline_upd
    | with_reducible apply State.readCut_upd
    | with_reducible apply State.modCoach_upd)

theorem State.refuseInput_upd {F : List Part} {s₀ s : State} (slot : Nat) (h : Upd F s₀ s) (hF : Part.Sub [.regs, .hbm, .vecs, .link] F) :
    Upd F s₀ (State.refuseInput s slot) := by
  refine Upd.by_ h ?_ hF
  clear h hF
  revert s
  intro s₀
  have h := Upd.refl (F := [.regs, .hbm, .vecs, .link]) s₀
  delta State.refuseInput
  repeat' (first
    | with_reducible assumption
    | ((with_reducible apply Part.Sub.of); rfl)
    | (intro s; refine (fun h => ?_) (?_ : Upd [.regs, .hbm, .vecs, .link] s₀ s); rotate_left; subst s; rotate_left)
    | lift_lets -underBinder
    | with_reducible apply State.setSeq_upd
    | with_reducible apply State.count_upd
    | with_reducible apply State.complete_upd)

theorem State.refuseConfig_upd {F : List Part} {s₀ s : State} (slot : Nat) (status : Nat) (h : Upd F s₀ s) (hF : Part.Sub [.regs, .hbm, .vecs, .sb, .link] F) :
    Upd F s₀ (State.refuseConfig s slot status) := by
  refine Upd.by_ h ?_ hF
  clear h hF
  revert s
  intro s₀
  have h := Upd.refl (F := [.regs, .hbm, .vecs, .sb, .link]) s₀
  delta State.refuseConfig
  repeat' (first
    | with_reducible assumption
    | ((with_reducible apply Part.Sub.of); rfl)
    | (intro s; refine (fun h => ?_) (?_ : Upd [.regs, .hbm, .vecs, .sb, .link] s₀ s); rotate_left; subst s; rotate_left)
    | intro s
    | lift_lets -underBinder
    | (with_reducible apply Upd.sb; case h => with_reducible assumption)
    | with_reducible apply State.setSeq_upd
    | with_reducible apply State.complete_upd)

theorem State.refuseLength_upd {F : List Part} {s₀ s : State} (slot : Nat) (h : Upd F s₀ s) (hF : Part.Sub [.hbm, .sb] F) :
    Upd F s₀ (State.refuseLength s slot) := by
  refine Upd.by_ h ?_ hF
  clear h hF
  revert s
  intro s₀
  have h := Upd.refl (F := [.hbm, .sb]) s₀
  delta State.refuseLength
  repeat' (first
    | with_reducible assumption
    | ((with_reducible apply Part.Sub.of); rfl)
    | (intro s; refine (fun h => ?_) (?_ : Upd [.hbm, .sb] s₀ s); rotate_left; subst s; rotate_left)
    | intro s
    | lift_lets -underBinder
    | (with_reducible apply Upd.sb; case h => with_reducible assumption)
    | with_reducible apply State.setSeq_upd)

theorem State.checkCut_upd {F : List Part} {s₀ s : State} (cs : List Nat) (h : Upd F s₀ s) (hF : Part.Sub [.regs, .hbm, .vecs, .sb, .link] F) :
    Upd1 F s₀ (State.checkCut s cs) := by
  refine Upd1.by_ h ?_ hF
  clear h hF
  revert s
  intro s₀
  have h := Upd.refl (F := [.regs, .hbm, .vecs, .sb, .link]) s₀
  delta State.checkCut
  repeat' (first
    | with_reducible assumption
    | ((with_reducible apply Part.Sub.of); rfl)
    | (intro s; refine (fun h => ?_) (?_ : Upd [.regs, .hbm, .vecs, .sb, .link] s₀ s); rotate_left; subst s; rotate_left)
    | (intro s; have _h : Option _ := s; clear _h; clear_value s)
    | lift_lets -underBinder
    | with_reducible apply State.refuseInput_upd
    | with_reducible apply State.refuseConfig_upd
    | with_reducible apply State.refuseLength_upd
    | (with_reducible apply Upd1.mk; fail_if_success (with_reducible apply Upd1.fst))
    | with_reducible apply Upd1.ite
    | (with_reducible apply Upd1.foldl; case' hf => intro _ _ h)
    | with_reducible apply Upd1.fst
    | split
    | with_reducible apply Upd1.mk)

theorem State.admission_upd {F : List Part} {s₀ s : State} (slot : Nat) (h : Upd F s₀ s) (hF : Part.Sub [.regs, .hbm, .sb] F) :
    Upd F s₀ (State.admission s slot) := by
  refine Upd.by_ h ?_ hF
  clear h hF
  revert s
  intro s₀
  have h := Upd.refl (F := [.regs, .hbm, .sb]) s₀
  delta State.admission
  repeat' (first
    | with_reducible assumption
    | ((with_reducible apply Part.Sub.of); rfl)
    | (intro s; refine (fun h => ?_) (?_ : Upd [.regs, .hbm, .sb] s₀ s); rotate_left; subst s; rotate_left)
    | (intro s; have _h : List _ := s; clear _h; clear_value s)
    | lift_lets -underBinder
    | with_reducible apply Upd.ite
    | with_reducible apply State.memWrite_upd
    | with_reducible apply State.setSeq_upd
    | with_reducible apply State.bindOve_upd
    | with_reducible apply State.count_upd
    | split)

theorem accIte {α : Type} (P : α → Prop) {c : Prop} [Decidable c] {a b : α} (ha : P a) (hb : P b) : P (if c then a else b) := by
  split
  · exact ha
  · exact hb

theorem OpenAcc.take_upd {F : List Part} {s₀ : State} {r : OpenAcc} (slot c : Nat) (h : Upd F s₀ r.s) (hF : Part.Sub [.regs, .hbm, .coaches, .vecs, .xlate, .sb, .link] F) :
    Upd F s₀ (r.take slot c).1.s := by
  unfold OpenAcc.take
  dsimp only
  split
  · exact State.takeHot_upd _ _ _ _ h (Part.Sub.trans (Part.Sub.of rfl) hF)
  · exact h

theorem OpenAcc.span_upd {F : List Part} {s₀ : State} {r : OpenAcc} (slot c fmt : Nat) (t : Stream) (i : Nat) (h : Upd F s₀ r.s)
    (hF : Part.Sub [.regs, .hbm, .coaches, .vecs, .xlate, .sb, .link] F) : Upd F s₀ (r.span slot c fmt t i).s := by
  have hw (c a : Nat) (l : List Byte) {s : State} (h : Upd F s₀ s) : Upd F s₀ (s.sbWrite c a l) :=
    State.sbWrite_upd _ _ _ h (Part.Sub.trans (Part.Sub.of rfl) hF)
  unfold OpenAcc.span
  split
  next => exact h
  next b _ =>
    have h1 := Upd1.fst (State.sbRead_upd c (b + 16 * i) 16 h (Part.Sub.trans (Part.Sub.of rfl) hF))
    dsimp only
    split
    next => exact h1
    next e _ =>
      have k := OpenAcc.take_upd (r := ⟨(r.s.sbRead c (b + 16 * i) 16).1, r.need, r.picks⟩) slot c h1 hF
      generalize (r.s.sbRead c (b + 16 * i) 16).1 = s at h1 k
      generalize OpenAcc.take _ slot c = q at k
      refine accIte (fun r : OpenAcc => Upd F s₀ r.s) h1 ?_
      generalize (if i % 2 = 1 then _ else _) = partner
      refine accIte (fun r : OpenAcc => Upd F s₀ r.s) ?_ (accIte (fun r : OpenAcc => Upd F s₀ r.s) ?_ ?_)
      · with_reducible exact hw _ _ _ h1
      · with_reducible exact hw _ _ _ k
      · with_reducible exact hw _ _ _ (hw _ _ _ k)

theorem openFold_upd {F : List Part} {s₀ : State} {α : Type} {f : OpenAcc → α → OpenAcc} (l : List α) {r : OpenAcc}
    (h : Upd F s₀ r.s) (hf : ∀ r x, Upd F s₀ r.s → Upd F s₀ (f r x).s) : Upd F s₀ (l.foldl f r).s := by
  induction l generalizing r with
  | nil => exact h
  | cons a l ih => exact ih (hf r a h)

theorem State.openPages_upd {F : List Part} {s₀ s : State} (slot first last : Nat) (picks : List Nat) (h : Upd F s₀ s)
    (hF : Part.Sub [.regs, .hbm, .coaches, .vecs, .xlate, .sb, .link] F) : Upd F s₀ (s.openPages slot first last picks).s :=
  openFold_upd _ (r := ⟨s, 0, picks⟩) h fun _ _ h => openFold_upd _ h fun _ _ h => OpenAcc.span_upd _ _ _ _ _ h hF

theorem cutFold_upd {F : List Part} {s₀ : State} {α : Type} {f : CutAcc → α → CutAcc} (l : List α) {r : CutAcc}
    (h : Upd F s₀ r.s) (hf : ∀ r x, Upd F s₀ r.s → Upd F s₀ (f r x).s) : Upd F s₀ (l.foldl f r).s := by
  induction l generalizing r with
  | nil => exact h
  | cons a l ih => exact ih (hf r a h)

theorem CutAcc.place_upd {F : List Part} {s₀ : State} {r : CutAcc} (cs : List Nat) (dcap slot : Nat) (h : Upd F s₀ r.s)
    (hF : Part.Sub [.regs, .hbm, .coaches, .vecs, .xlate, .sb, .link] F) : Upd F s₀ (r.place cs dcap slot).s := by
  unfold CutAcc.place
  exact accIte (fun r : CutAcc => Upd F s₀ r.s) h (accIte (fun r : CutAcc => Upd F s₀ r.s)
    (State.deferRow_upd _ _ _ h (Part.Sub.trans (Part.Sub.of rfl) hF))
    (State.admission_upd _ (State.openPages_upd _ _ _ _ h hF) (Part.Sub.trans (Part.Sub.of rfl) hF)))

theorem CutAcc.visit_upd {F : List Part} {s₀ : State} {r : CutAcc} (all cs : List Nat) (dcap c : Nat) (h : Upd F s₀ r.s)
    (hF : Part.Sub [.regs, .hbm, .coaches, .vecs, .xlate, .sb, .link] F) : Upd F s₀ (r.visit all cs dcap c).s := by
  have key (l : List Nat) (q : CutAcc × Bool) (h : Upd F s₀ q.1.s) : Upd F s₀ (l.foldl (fun (r : CutAcc × Bool) n =>
      if r.2 ∨ r.1.s.seq n Se.owner ≠ c ∨ r.1.placed.contains n ∨ r.1.gone.contains n then r
      else
        let q := r.1.place all dcap n
        (q, q.placed.contains n)) q).1.s := by
    induction l generalizing q with
    | nil => exact h
    | cons n l ih =>
      refine ih _ ?_
      dsimp only
      split
      · exact h
      · exact CutAcc.place_upd _ _ _ h hF
  exact key cs (r, false) h

theorem CutAcc.rounds_upd {F : List Part} {s₀ : State} {r : CutAcc} (all cs : List Nat) (dcap : Nat) (order : List Nat) (k : Nat)
    (h : Upd F s₀ r.s) (hF : Part.Sub [.regs, .hbm, .coaches, .vecs, .xlate, .sb, .link] F) : Upd F s₀ (CutAcc.rounds all cs dcap order k r).s := by
  induction k generalizing r with
  | zero => exact h
  | succ k ih =>
    have h1 := cutFold_upd order (f := fun (r : CutAcc) c => r.visit all cs dcap c) h
      fun _ _ h => CutAcc.visit_upd _ _ _ _ h hF
    unfold CutAcc.rounds
    dsimp only
    split
    · exact h1
    · exact ih h1

theorem CutAcc.pass_upd {F : List Part} {s₀ : State} {r : CutAcc} (all cs : List Nat) (dcap pass : Nat) (h : Upd F s₀ r.s)
    (hF : Part.Sub [.regs, .hbm, .coaches, .vecs, .xlate, .sb, .link] F) : Upd F s₀ (r.pass all cs dcap pass).s := by
  unfold CutAcc.pass
  refine cutFold_upd _ h fun _ _ h => ?_
  dsimp only
  split
  · exact h
  · exact CutAcc.rounds_upd _ _ _ _ _ (Upd.sb _ h (Part.Sub.trans (Part.Sub.of rfl) hF)) hF

theorem CutAcc.snapshot_upd {F : List Part} {s₀ : State} {r : CutAcc} (all cs : List Nat) (dcap c : Nat) (h : Upd F s₀ r.s)
    (hF : Part.Sub [.regs, .hbm, .coaches, .vecs, .xlate, .sb, .link] F) : Upd F s₀ (r.snapshot all cs dcap c).s := by
  have h1 (l : List Nat) := cutFold_upd l (f := fun (r : CutAcc) n => r.place all dcap n) h
    fun _ _ h => CutAcc.place_upd _ _ _ h hF
  unfold CutAcc.snapshot
  dsimp only
  split
  · exact h1 _
  · exact State.enterCoach_upd _ _ (State.modCoach_upd _ _ (State.event_upd _ _ _ (State.count_upd _ _
      (Upd.foldl _ h fun _ _ h => State.deferRow_upd _ _ _ h (Part.Sub.trans (Part.Sub.of rfl) hF))
      (Part.Sub.trans (Part.Sub.of rfl) hF)) (Part.Sub.trans (Part.Sub.of rfl) hF)) (Part.Sub.trans (Part.Sub.of rfl) hF))
      (Part.Sub.trans (Part.Sub.of rfl) hF)

theorem State.selectRows_upd {F : List Part} {s₀ s : State} (cs picks : List Nat) (h : Upd F s₀ s)
    (hF : Part.Sub [.regs, .hbm, .coaches, .vecs, .xlate, .sb, .link] F) : Upd F s₀ (s.selectRows cs picks).s := by
  unfold State.selectRows
  exact Upd.sb _ (CutAcc.pass_upd _ _ _ _ (cutFold_upd _ (CutAcc.pass_upd _ _ _ _ (cutFold_upd _ h
    fun _ _ h => CutAcc.snapshot_upd _ _ _ _ h hF) hF) fun _ _ h => CutAcc.place_upd _ _ _ h hF) hF)
    (Part.Sub.trans (Part.Sub.of rfl) hF)

theorem State.buildManifest_upd {F : List Part} {s₀ s : State} (cs picks : List Nat) (h : Upd F s₀ s) (hF : Part.Sub [.regs, .hbm, .coaches, .vecs, .xlate, .sb, .link] F) :
    Upd1 F s₀ (s.buildManifest cs picks) := by
  unfold State.buildManifest
  exact Upd1.mk (State.selectRows_upd _ _ (Upd1.fst (State.checkCut_upd _ (Upd.foldl _ h fun _ _ h =>
    State.modCoach_upd _ _ h (Part.Sub.trans (Part.Sub.of rfl) hF)) (Part.Sub.trans (Part.Sub.of rfl) hF))) hF)

end Sys2Proof.Machine
end

