-- ==== Sys2Proof/Laws/UpdPages.lean ====
section
/-!
SUPPORT. What each operation of Machine/Pages.lean may change.
-/
namespace Sys2Proof.Machine

theorem State.writePage_upd {F : List Part} {s₀ s : State} (p : Nat) (l : List Byte) (h : Upd F s₀ s) (hF : Part.Sub [.regs, .hbm] F) :
    Upd F s₀ (State.writePage s p l) := by
  refine Upd.by_ h ?_ hF
  clear h hF
  revert s
  intro s₀
  have h := Upd.refl (F := [.regs, .hbm]) s₀
  delta State.writePage
  repeat' (first
    | with_reducible assumption
    | ((with_reducible apply Part.Sub.of); rfl)
    | with_reducible apply State.memWrite_upd)

theorem State.toCold_upd {F : List Part} {s₀ s : State} (slot : Nat) (tier : Nat) (k : Nat) (p : ColdPair) (h : Upd F s₀ s) (hF : Part.Sub [.regs, .hbm, .coaches, .vecs, .xlate, .sb, .link] F) :
    Upd F s₀ (State.toCold s slot tier k p) := by
  refine Upd.by_ h ?_ hF
  clear h hF
  revert s
  intro s₀
  have h := Upd.refl (F := [.regs, .hbm, .coaches, .vecs, .xlate, .sb, .link]) s₀
  delta State.toCold
  repeat' (first
    | with_reducible assumption
    | ((with_reducible apply Part.Sub.of); rfl)
    | (intro s; refine (fun h => ?_) (?_ : Upd [.regs, .hbm, .coaches, .vecs, .xlate, .sb, .link] s₀ s); rotate_left; subst s; rotate_left)
    | intro s
    | lift_lets -underBinder
    | with_reducible apply Upd.ite
    | (with_reducible apply Upd.foldl; case' hf => intro _ _ h)
    | with_reducible apply State.sbWrite_upd
    | with_reducible apply State.freeHot_upd)

theorem State.toHot_upd {F : List Part} {s₀ s : State} (slot : Nat) (p : Nat) (w : WarmPair) (h : Upd F s₀ s) (hF : Part.Sub [.regs, .hbm, .xlate, .sb] F) :
    Upd F s₀ (State.toHot s slot p w) := by
  refine Upd.by_ h ?_ hF
  clear h hF
  revert s
  intro s₀
  have h := Upd.refl (F := [.regs, .hbm, .xlate, .sb]) s₀
  delta State.toHot
  repeat' (first
    | with_reducible assumption
    | ((with_reducible apply Part.Sub.of); rfl)
    | (intro s; refine (fun h => ?_) (?_ : Upd [.regs, .hbm, .xlate, .sb] s₀ s); rotate_left; subst s; rotate_left)
    | intro s
    | lift_lets -underBinder
    | (with_reducible apply Upd.sb; case h => with_reducible assumption)
    | with_reducible apply State.writePage_upd
    | with_reducible apply State.sbWrite_upd)

end Sys2Proof.Machine
end

