-- ==== Sys2Proof/Laws/UpdGs.lean ====
section
/-!
SUPPORT. What each operation of Machine/Gs.lean may change.
-/
namespace Sys2Proof.Machine

theorem State.ledgerTrigger_upd {F : List Part} {s₀ s : State} (h : Upd F s₀ s) (hF : Part.Sub [.regs, .ledger] F) :
    Upd F s₀ (State.ledgerTrigger s) := by
  refine Upd.by_ h ?_ hF
  clear h hF
  revert s
  intro s₀
  have h := Upd.refl (F := [.regs, .ledger]) s₀
  delta State.ledgerTrigger
  repeat' (first
    | with_reducible assumption
    | ((with_reducible apply Part.Sub.of); rfl)
    | (intro s; have _h : List _ := s; clear _h; clear_value s)
    | intro s
    | lift_lets -underBinder
    | with_reducible apply Upd.ite
    | (with_reducible apply Upd.ledger; case h => with_reducible assumption)
    | with_reducible apply State.count_upd
    | with_reducible apply State.setChip_upd)

theorem State.modUnit_upd {F : List Part} {s₀ s : State} (k : Nat) (f : UnitSt → UnitSt) (h : Upd F s₀ s) (hF : Part.Sub [.gs] F) :
    Upd F s₀ (State.modUnit s k f) := by
  refine Upd.by_ h ?_ hF
  clear h hF
  revert s
  intro s₀
  have h := Upd.refl (F := [.gs]) s₀
  delta State.modUnit
  repeat' (first
    | ((with_reducible apply Part.Sub.of); rfl)
    | intro s
    | lift_lets -underBinder
    | (with_reducible apply Upd.gs; case h => with_reducible assumption))

theorem State.noteReady_upd {F : List Part} {s₀ s : State} (h : Upd F s₀ s) (hF : Part.Sub [.gs] F) :
    Upd F s₀ (State.noteReady s) := by
  refine Upd.by_ h ?_ hF
  clear h hF
  revert s
  intro s₀
  have h := Upd.refl (F := [.gs]) s₀
  delta State.noteReady
  repeat' (first
    | ((with_reducible apply Part.Sub.of); rfl)
    | intro s
    | lift_lets -underBinder
    | (with_reducible apply Upd.gs; case h => with_reducible assumption))

theorem State.couple_upd {F : List Part} {s₀ s : State} (u : UnitSt) (h : Upd F s₀ s) (hF : Part.Sub [.gs] F) :
    Upd F s₀ (State.couple s u) := by
  refine Upd.by_ h ?_ hF
  clear h hF
  revert s
  intro s₀
  have h := Upd.refl (F := [.gs]) s₀
  delta State.couple
  repeat' (first
    | with_reducible assumption
    | ((with_reducible apply Part.Sub.of); rfl)
    | intro s
    | lift_lets -underBinder
    | (with_reducible apply Upd.gs; case h => with_reducible assumption)
    | with_reducible apply State.noteReady_upd
    | split)

theorem State.maskRows_upd {F : List Part} {s₀ s : State} (ms : List Nat) (status : Nat) (h : Upd F s₀ s) (hF : Part.Sub [.gs] F) :
    Upd F s₀ (State.maskRows s ms status) := by
  refine Upd.by_ h ?_ hF
  clear h hF
  revert s
  intro s₀
  have h := Upd.refl (F := [.gs]) s₀
  delta State.maskRows
  repeat' (first
    | with_reducible assumption
    | ((with_reducible apply Part.Sub.of); rfl)
    | with_reducible apply State.mapRows_upd)

theorem endPass_upd {F : List Part} {s₀ s : State} (h : Upd F s₀ s) (hF : Part.Sub [.gs] F) :
    Upd F s₀ (endPass s) := by
  refine Upd.by_ h ?_ hF
  clear h hF
  revert s
  intro s₀
  have h := Upd.refl (F := [.gs]) s₀
  delta endPass
  repeat' (first
    | with_reducible assumption
    | ((with_reducible apply Part.Sub.of); rfl)
    | (intro s; refine (fun h => ?_) (?_ : Upd [.gs] s₀ s); rotate_left; subst s; rotate_left)
    | lift_lets -underBinder
    | with_reducible apply Upd.ite
    | (with_reducible apply Upd.foldl; case' hf => intro _ _ h)
    | with_reducible apply State.modUnit_upd
    | with_reducible apply State.maskRows_upd
    | with_reducible apply State.couple_upd
    | split)

theorem endPasses_upd {F : List Part} {s₀ s : State} (n : Nat) (h : Upd F s₀ s) (hF : Part.Sub [.gs] F) :
    Upd F s₀ (endPasses n s) := by
  induction n generalizing s with
  | zero => exact h
  | succ n ih => exact ih (endPass_upd h hF)

theorem State.endUnit_upd {F : List Part} {s₀ s : State} (k : Nat) (status : Nat) (h : Upd F s₀ s) (hF : Part.Sub [.regs, .gs] F) :
    Upd F s₀ (State.endUnit s k status) := by
  refine Upd.by_ h ?_ hF
  clear h hF
  revert s
  intro s₀
  have h := Upd.refl (F := [.regs, .gs]) s₀
  delta State.endUnit
  repeat' (first
    | with_reducible assumption
    | ((with_reducible apply Part.Sub.of); rfl)
    | (intro s; refine (fun h => ?_) (?_ : Upd [.regs, .gs] s₀ s); rotate_left; subst s; rotate_left)
    | lift_lets -underBinder
    | with_reducible apply State.modUnit_upd
    | with_reducible apply State.maskRows_upd
    | with_reducible apply State.couple_upd
    | with_reducible apply State.count_upd
    | with_reducible apply endPasses_upd
    | split)

theorem State.completeUnit_upd {F : List Part} {s₀ s : State} (k : Nat) (h : Upd F s₀ s) (hF : Part.Sub [.gs] F) :
    Upd F s₀ (State.completeUnit s k) := by
  refine Upd.by_ h ?_ hF
  clear h hF
  revert s
  intro s₀
  have h := Upd.refl (F := [.gs]) s₀
  delta State.completeUnit
  repeat' (first
    | with_reducible assumption
    | ((with_reducible apply Part.Sub.of); rfl)
    | (intro s; refine (fun h => ?_) (?_ : Upd [.gs] s₀ s); rotate_left; subst s; rotate_left)
    | (intro s; have _h : List _ := s; clear _h; clear_value s)
    | lift_lets -underBinder
    | with_reducible apply Upd.ite
    | with_reducible apply State.modUnit_upd
    | with_reducible apply State.mapRows_upd
    | with_reducible apply State.couple_upd
    | split)

theorem State.earlyReplays_upd {F : List Part} {s₀ s : State} (h : Upd F s₀ s) (hF : Part.Sub [.gs] F) :
    Upd F s₀ (State.earlyReplays s) := by
  refine Upd.by_ h ?_ hF
  clear h hF
  revert s
  intro s₀
  have h := Upd.refl (F := [.gs]) s₀
  delta State.earlyReplays
  repeat' (first
    | with_reducible assumption
    | with_reducible exact Upd.refl _
    | ((with_reducible apply Part.Sub.of); rfl)
    | (intro s; refine (fun h => ?_) (?_ : Upd [.gs] s₀ s); rotate_left; subst s; rotate_left)
    | (intro q; refine (fun hq => ?_) (?_ : ∀ s, Upd [.gs] s₀ s → Upd [.gs] s₀ (q s)); rotate_left; subst q; intro s h; rotate_left)
    | (intro q; refine (fun hq => ?_) (?_ : ∀ s x, Upd [.gs] s₀ s → Upd [.gs] s₀ (q s x)); rotate_left; subst q; intro s x h; rotate_left)
    | (intro q; refine (fun hq => ?_) (?_ : ∀ x s, Upd [.gs] s₀ s → Upd [.gs] s₀ (q x s)); rotate_left; subst q; intro x s h; rotate_left)
    | (intro s; have _h : Option _ := s; clear _h; clear_value s)
    | (intro s; have _h : List _ := s; clear _h; clear_value s)
    | intro s
    | lift_lets -underBinder
    | with_reducible apply hq
    | with_reducible apply Upd.ite
    | (with_reducible apply Upd.foldl; case' hf => intro _ _ h)
    | (with_reducible apply Upd.gs; case h => with_reducible assumption)
    | split)


theorem State.barCredit_upd {F : List Part} {s₀ s : State} (m : Msg) (n : Nat) (h : Upd F s₀ s) (hF : Part.Sub [.regs, .link] F) :
    Upd F s₀ (State.barCredit s m n) := by
  refine Upd.by_ h ?_ hF
  clear h hF
  revert s
  intro s₀
  have h := Upd.refl (F := [.regs, .link]) s₀
  delta State.barCredit
  repeat' (first
    | with_reducible assumption
    | ((with_reducible apply Part.Sub.of); rfl)
    | with_reducible apply State.send_upd)

theorem State.cartArrives_upd {F : List Part} {s₀ s : State} (m : Msg) (h : Upd F s₀ s) (hF : Part.Sub [.regs, .cores, .link] F) :
    Upd1 F s₀ (State.cartArrives s m) := by
  refine Upd1.by_ h ?_ hF
  clear h hF
  revert s
  intro s₀
  have h := Upd.refl (F := [.regs, .cores, .link]) s₀
  delta State.cartArrives
  repeat' (first
    | with_reducible assumption
    | ((with_reducible apply Part.Sub.of); rfl)
    | (intro s; refine (fun h => ?_) (?_ : Upd [.regs, .cores, .link] s₀ s); rotate_left; subst s; rotate_left)
    | (intro s; have _h : List _ := s; clear _h; clear_value s)
    | intro s
    | lift_lets -underBinder
    | (with_reducible apply Upd.link; case h => with_reducible assumption)
    | with_reducible apply State.count_upd
    | with_reducible apply State.barCredit_upd
    | with_reducible apply State.modCore_upd
    | (with_reducible apply Upd1.mk; fail_if_success (with_reducible apply Upd1.fst))
    | with_reducible apply Upd1.ite
    | split)

theorem State.takeCarts_upd {F : List Part} {s₀ s : State} (h : Upd F s₀ s) (hF : Part.Sub [.regs, .cores, .link] F) :
    Upd F s₀ (State.takeCarts s) := by
  refine Upd.by_ h ?_ hF
  clear h hF
  revert s
  intro s₀
  have h := Upd.refl (F := [.regs, .cores, .link]) s₀
  delta State.takeCarts
  repeat' (first
    | with_reducible assumption
    | ((with_reducible apply Part.Sub.of); rfl)
    | (intro s; refine (fun h => ?_) (?_ : Upd [.regs, .cores, .link] s₀ s); rotate_left; subst s; rotate_left)
    | (intro s; refine (fun h => ?_) (?_ : Upd1 [.regs, .cores, .link] s₀ s); rotate_left; subst s; rotate_left)
    | intro s
    | lift_lets -underBinder
    | with_reducible apply Upd.ite
    | (with_reducible apply Upd.foldl; case' hf => intro _ _ h)
    | (with_reducible apply Upd.link; case h => with_reducible assumption)
    | with_reducible apply State.cartArrives_upd
    | with_reducible apply Upd1.fst)

theorem State.modGraph_upd {F : List Part} {s₀ s : State} (gid : Nat) (f : Graph → Graph) (h : Upd F s₀ s) (hF : Part.Sub [.graphs] F) :
    Upd F s₀ (State.modGraph s gid f) := by
  refine Upd.by_ h ?_ hF
  clear h hF
  revert s
  intro s₀
  have h := Upd.refl (F := [.graphs]) s₀
  delta State.modGraph
  repeat' (first
    | ((with_reducible apply Part.Sub.of); rfl)
    | (with_reducible apply Upd.graphs; case h => with_reducible assumption))

theorem State.applyStaged_upd {F : List Part} {s₀ s : State} (h : Upd F s₀ s) (hF : Part.Sub [.hbm, .graphs] F) :
    Upd F s₀ (State.applyStaged s) := by
  refine Upd.by_ h ?_ hF
  clear h hF
  revert s
  intro s₀
  have h := Upd.refl (F := [.hbm, .graphs]) s₀
  delta State.applyStaged
  repeat' (first
    | with_reducible assumption
    | ((with_reducible apply Part.Sub.of); rfl)
    | (intro s; refine (fun h => ?_) (?_ : Upd [.hbm, .graphs] s₀ s); rotate_left; subst s; rotate_left)
    | lift_lets -underBinder
    | (with_reducible apply Upd.foldl; case' hf => intro _ _ h)
    | (with_reducible apply Upd.graphs; case h => with_reducible assumption)
    | with_reducible apply State.memWrite_upd
    | split)

theorem State.takeQuantum_upd {F : List Part} {s₀ s : State} (h : Upd F s₀ s) (hF : Part.Sub [.regs, .gs] F) :
    Upd F s₀ (State.takeQuantum s) := by
  refine Upd.by_ h ?_ hF
  clear h hF
  revert s
  intro s₀
  have h := Upd.refl (F := [.regs, .gs]) s₀
  delta State.takeQuantum
  repeat' (first
    | ((with_reducible apply Part.Sub.of); rfl)
    | (intro s; have _h : List _ := s; clear _h; clear_value s)
    | intro s
    | lift_lets -underBinder
    | (with_reducible apply Upd.gs; case h => with_reducible assumption)
    | with_reducible apply State.count_upd)

theorem State.arm_upd {F : List Part} {s₀ s : State} (rows : List Row) (h : Upd F s₀ s) (hF : Part.Sub [.regs, .hbm, .cores, .graphs, .gs, .link] F) :
    Upd F s₀ (State.arm s rows) := by
  refine Upd.by_ h ?_ hF
  clear h hF
  revert s
  intro s₀
  have h := Upd.refl (F := [.regs, .hbm, .cores, .graphs, .gs, .link]) s₀
  delta State.arm
  repeat' (first
    | with_reducible assumption
    | ((with_reducible apply Part.Sub.of); rfl)
    | (intro s; refine (fun h => ?_) (?_ : Upd [.regs, .hbm, .cores, .graphs, .gs, .link] s₀ s); rotate_left; subst s; rotate_left)
    | (intro s; have _h : List _ := s; clear _h; clear_value s)
    | intro s
    | lift_lets -underBinder
    | with_reducible apply Upd.ite
    | (with_reducible apply Upd.foldl; case' hf => intro _ _ h)
    | (with_reducible apply Upd.gs; case h => with_reducible assumption)
    | with_reducible apply State.applyStaged_upd
    | with_reducible apply State.modGraph_upd
    | with_reducible apply State.earlyReplays_upd
    | with_reducible apply State.takeCarts_upd
    | with_reducible apply State.noteReady_upd
    | with_reducible apply State.takeQuantum_upd)

theorem State.dropMember_upd {F : List Part} {s₀ s : State} (gid : Nat) (i : Nat) (h : Upd F s₀ s) (hF : Part.Sub [.gs] F) :
    Upd F s₀ (State.dropMember s gid i) := by
  refine Upd.by_ h ?_ hF
  clear h hF
  revert s
  intro s₀
  have h := Upd.refl (F := [.gs]) s₀
  delta State.dropMember
  repeat' (first
    | with_reducible assumption
    | ((with_reducible apply Part.Sub.of); rfl)
    | with_reducible apply State.modUnit_upd
    | split)

theorem State.clearSpm_upd {F : List Part} {s₀ s : State} (p : Nat) (h : Upd F s₀ s) (hF : Part.Sub [.spm] F) :
    Upd F s₀ (State.clearSpm s p) := by
  refine Upd.by_ h ?_ hF
  clear h hF
  revert s
  intro s₀
  have h := Upd.refl (F := [.spm]) s₀
  delta State.clearSpm
  repeat' (first
    | ((with_reducible apply Part.Sub.of); rfl)
    | (with_reducible apply MemUpd.dropRange; with_reducible apply MemUpd.refl)
    | (with_reducible apply Upd.setSpm; case h => with_reducible assumption))

theorem State.carrySpm_upd {F : List Part} {s₀ s : State} (p q : Nat) (h : Upd F s₀ s) (hF : Part.Sub [.spm] F) :
    Upd F s₀ (s.carrySpm p q) := by
  have hfold (l : List (Nat × Byte)) (at_ : Nat → Nat) (m n : Memory) (k : MemUpd m n) :
      MemUpd m (l.foldl (fun m e => Memory.write m (at_ e.1) [e.2]) n) := by
    induction l generalizing n with
    | nil => exact k
    | cons e r ih => exact ih _ (k.write _ _)
  refine Upd.setSpm _ (State.clearSpm_upd _ h hF) hF ?_
  exact hfold _ (fun a => a - 2 ^ 22 * p + 2 ^ 22 * q) _ _ (.refl _)

theorem State.clearCoreRegs_upd {F : List Part} {s₀ s : State} (p : Nat) (h : Upd F s₀ s) (hF : Part.Sub [.regs] F) :
    Upd F s₀ (State.clearCoreRegs s p) := by
  refine Upd.by_ h ?_ hF
  clear h hF
  revert s
  intro s₀
  have h := Upd.refl (F := [.regs]) s₀
  delta State.clearCoreRegs
  repeat' (first
    | ((with_reducible apply Part.Sub.of); rfl)
    | (with_reducible apply RegsUpd.filter; with_reducible apply RegsUpd.refl)
    | (with_reducible apply Upd.setRegs; case h => with_reducible assumption))

theorem State.releaseBlocks_upd {F : List Part} {s₀ s : State} (bs : List XBlock) (h : Upd F s₀ s) (hF : Part.Sub [.regs] F) :
    Upd F s₀ (State.releaseBlocks s bs) := by
  refine Upd.by_ h ?_ hF
  clear h hF
  revert s
  intro s₀
  have h := Upd.refl (F := [.regs]) s₀
  delta State.releaseBlocks
  repeat' (first
    | with_reducible assumption
    | ((with_reducible apply Part.Sub.of); rfl)
    | (intro s; refine (fun h => ?_) (?_ : Upd [.regs] s₀ s); rotate_left; subst s; rotate_left)
    | intro s
    | lift_lets -underBinder
    | with_reducible apply Upd.ite
    | (with_reducible apply Upd.foldl; case' hf => intro _ _ h)
    | with_reducible apply State.set_upd)

theorem State.dropQueues_upd {F : List Part} {s₀ s : State} (p : Nat) (h : Upd F s₀ s) (hF : Part.Sub [.noc] F) :
    Upd F s₀ (State.dropQueues s p) := by
  refine Upd.by_ h ?_ hF
  clear h hF
  revert s
  intro s₀
  have h := Upd.refl (F := [.noc]) s₀
  delta State.dropQueues
  repeat' (first
    | with_reducible assumption
    | ((with_reducible apply Part.Sub.of); rfl)
    | (with_reducible apply Upd.foldl; case' hf => intro _ _ h)
    | with_reducible apply State.qLeave_upd)

theorem State.isolate_upd {F : List Part} {s₀ s : State} (p : Nat) (h : Upd F s₀ s) (hF : Part.Sub [.regs, .spm, .cores, .noc] F) :
    Upd F s₀ (State.isolate s p) := by
  refine Upd.by_ h ?_ hF
  clear h hF
  revert s
  intro s₀
  have h := Upd.refl (F := [.regs, .spm, .cores, .noc]) s₀
  delta State.isolate
  repeat' (first
    | with_reducible assumption
    | ((with_reducible apply Part.Sub.of); rfl)
    | (intro s; refine (fun h => ?_) (?_ : Upd [.regs, .spm, .cores, .noc] s₀ s); rotate_left; subst s; rotate_left)
    | lift_lets -underBinder
    | (with_reducible apply Upd.cores; case h => with_reducible assumption)
    | with_reducible apply State.releaseBlocks_upd
    | with_reducible apply State.dropQueues_upd
    | with_reducible apply State.clearSpm_upd
    | with_reducible apply State.clearCoreRegs_upd)

theorem State.discardCore_upd {F : List Part} {s₀ s : State} (p : Nat) (h : Upd F s₀ s) (hF : Part.Sub [.gs] F) :
    Upd F s₀ (State.discardCore s p) := by
  refine Upd.by_ h ?_ hF
  clear h hF
  revert s
  intro s₀
  have h := Upd.refl (F := [.gs]) s₀
  delta State.discardCore
  repeat' (first
    | with_reducible assumption
    | ((with_reducible apply Part.Sub.of); rfl)
    | (intro s; refine (fun h => ?_) (?_ : Upd [.gs] s₀ s); rotate_left; subst s; rotate_left)
    | (intro s; have _h : List _ := s; clear _h; clear_value s)
    | intro s
    | lift_lets -underBinder
    | (with_reducible apply Upd.foldl; case' hf => intro _ _ h)
    | (with_reducible apply Upd.gs; case h => with_reducible assumption)
    | with_reducible apply State.dropMember_upd
    | with_reducible apply State.orderEnd_upd
    | with_reducible apply State.modUnit_upd
    | split)

theorem State.withdraw_upd {F : List Part} {s₀ s : State} (p : Nat) (cause : Nat) (h : Upd F s₀ s) (hF : Part.Sub [.regs, .spm, .cores, .vecs, .mbox, .inprog, .gs, .link, .svc, .log, .noc] F) :
    Upd F s₀ (State.withdraw s p cause) := by
  refine Upd.by_ h ?_ hF
  clear h hF
  revert s
  intro s₀
  have h := Upd.refl (F := [.regs, .spm, .cores, .vecs, .mbox, .inprog, .gs, .link, .svc, .log, .noc]) s₀
  delta State.withdraw
  repeat' (first
    | with_reducible assumption
    | ((with_reducible apply Part.Sub.of); rfl)
    | (intro s; refine (fun h => ?_) (?_ : Upd [.regs, .spm, .cores, .vecs, .mbox, .inprog, .gs, .link, .svc, .log, .noc] s₀ s); rotate_left; subst s; rotate_left)
    | (intro q; refine (fun hq => ?_) (?_ : ∀ s, Upd [.regs, .spm, .cores, .vecs, .mbox, .inprog, .gs, .link, .svc, .log, .noc] s₀ s → Upd [.regs, .spm, .cores, .vecs, .mbox, .inprog, .gs, .link, .svc, .log, .noc] s₀ (q s)); rotate_left; subst q; intro s h; rotate_left)
    | intro s
    | lift_lets -underBinder
    | with_reducible apply hq
    | with_reducible apply Upd.ite
    | (with_reducible apply Upd.cores; case h => with_reducible assumption)
    | with_reducible apply State.set_upd
    | with_reducible apply State.count_upd
    | with_reducible apply State.setChip_upd
    | with_reducible apply State.answerAll_upd
    | with_reducible apply State.discardCore_upd
    | with_reducible apply State.isolate_upd
    | with_reducible apply State.raiseSafe_upd
    | with_reducible apply State.setWord_upd
    | with_reducible apply State.carrySpm_upd
    | with_reducible apply State.raise_upd
    | split)

theorem State.charge_upd {F : List Part} {s₀ s : State} (gid i : Nat) (core : Option Nat) (h : Upd F s₀ s) (hF : Part.Sub [.regs, .gs] F) :
    Upd F s₀ (s.charge gid i core) := by
  have hr : Part.Sub [.regs] F := Part.Sub.trans (Part.Sub.of rfl) hF
  have hg : Part.Sub [.gs] F := Part.Sub.trans (Part.Sub.of rfl) hF
  cases core with
  | none => exact State.count_upd _ _ h hr
  | some p =>
    have h1 := State.bumpSat_upd (pcoreB p) Machine.F.pcoreResTotal 1 h hr
    unfold State.charge
    refine Upd.ite h1 ?_
    dsimp only
    refine Upd.ite ?_ (Upd.gs _ ?_ hg)
    all_goals
      split
      · exact State.modUnit_upd _ _ (Upd.gs _ h1 hg) (Part.Sub.trans (Part.Sub.of rfl) hF)
      · exact Upd.gs _ h1 hg

theorem State.withdrawals_upd {F : List Part} {s₀ s : State} (h : Upd F s₀ s) (hF : Part.Sub [.regs, .spm, .cores, .vecs, .mbox, .inprog, .gs, .link, .svc, .log, .noc] F) :
    Upd F s₀ (State.withdrawals s) := by
  refine Upd.by_ h ?_ hF
  clear h hF
  revert s
  intro s₀
  have h := Upd.refl (F := [.regs, .spm, .cores, .vecs, .mbox, .inprog, .gs, .link, .svc, .log, .noc]) s₀
  delta State.withdrawals
  repeat' (first
    | with_reducible assumption
    | ((with_reducible apply Part.Sub.of); rfl)
    | intro s
    | lift_lets -underBinder
    | (with_reducible apply Upd.foldl; case' hf => intro _ _ h)
    | (with_reducible apply Upd.gs; case h => with_reducible assumption)
    | with_reducible apply State.withdraw_upd)

theorem State.settle_upd {F : List Part} {s₀ s : State} (k : Nat) (h : Upd F s₀ s) (hF : Part.Sub [.regs, .cores, .gs, .link] F) :
    Upd F s₀ (State.settle s k) := by
  refine Upd.by_ h ?_ hF
  clear h hF
  revert s
  intro s₀
  have h := Upd.refl (F := [.regs, .cores, .gs, .link]) s₀
  delta State.settle
  repeat' (first
    | with_reducible assumption
    | ((with_reducible apply Part.Sub.of); rfl)
    | (intro s; refine (fun h => ?_) (?_ : Upd [.regs, .cores, .gs, .link] s₀ s); rotate_left; subst s; rotate_left)
    | intro s
    | lift_lets -underBinder
    | with_reducible apply Upd.ite
    | (with_reducible apply Upd.gs; case h => with_reducible assumption)
    | with_reducible apply State.endUnit_upd
    | with_reducible apply State.count_upd
    | with_reducible apply State.modUnit_upd
    | with_reducible apply State.earlyReplays_upd
    | with_reducible apply State.takeCarts_upd
    | with_reducible apply State.completeUnit_upd
    | split)

theorem State.settleAll_upd {F : List Part} {s₀ s : State} (h : Upd F s₀ s) (hF : Part.Sub [.regs, .cores, .gs, .link] F) :
    Upd F s₀ (State.settleAll s) := by
  refine Upd.by_ h ?_ hF
  clear h hF
  revert s
  intro s₀
  have h := Upd.refl (F := [.regs, .cores, .gs, .link]) s₀
  delta State.settleAll
  repeat' (first
    | with_reducible assumption
    | ((with_reducible apply Part.Sub.of); rfl)
    | (with_reducible apply Upd.foldl; case' hf => intro _ _ h)
    | with_reducible apply State.settle_upd)

theorem State.startExport_upd {F : List Part} {s₀ s : State} (slot : Nat) (dest : Nat) (ticket : Nat) (h : Upd F s₀ s) (hF : Part.Sub [.regs, .hbm, .sb, .link] F) :
    Upd F s₀ (State.startExport s slot dest ticket) := by
  refine Upd.by_ h ?_ hF
  clear h hF
  revert s
  intro s₀
  have h := Upd.refl (F := [.regs, .hbm, .sb, .link]) s₀
  delta State.startExport
  repeat' (first
    | with_reducible assumption
    | ((with_reducible apply Part.Sub.of); rfl)
    | (intro s; refine (fun h => ?_) (?_ : Upd [.regs, .hbm, .sb, .link] s₀ s); rotate_left; subst s; rotate_left)
    | intro s
    | lift_lets -underBinder
    | (with_reducible apply Upd.sb; case h => with_reducible assumption)
    | with_reducible apply State.setSeq_upd
    | with_reducible apply State.shipSend_upd)

theorem State.setExport_upd {F : List Part} {s₀ s : State} (n : Nat) (e : Exp) (h : Upd F s₀ s) (hF : Part.Sub [.sb] F) :
    Upd F s₀ (State.setExport s n e) := by
  refine Upd.by_ h ?_ hF
  clear h hF
  revert s
  intro s₀
  have h := Upd.refl (F := [.sb]) s₀
  delta State.setExport
  repeat' (first
    | ((with_reducible apply Part.Sub.of); rfl)
    | intro s
    | lift_lets -underBinder
    | (with_reducible apply Upd.sb; case h => with_reducible assumption))

theorem State.failExport_upd {F : List Part} {s₀ s : State} (n : Nat) (status : Nat) (tell : Bool) (h : Upd F s₀ s) (hF : Part.Sub [.regs, .hbm, .vecs, .sb, .link] F) :
    Upd F s₀ (State.failExport s n status tell) := by
  refine Upd.by_ h ?_ hF
  clear h hF
  revert s
  intro s₀
  have h := Upd.refl (F := [.regs, .hbm, .vecs, .sb, .link]) s₀
  delta State.failExport
  repeat' (first
    | with_reducible assumption
    | ((with_reducible apply Part.Sub.of); rfl)
    | with_reducible apply State.abortExport_upd
    | with_reducible apply State.complete_upd)

theorem State.shipRestart_upd {F : List Part} {s₀ s : State} (slot : Nat) (e : Exp) (h : Upd F s₀ s) (hF : Part.Sub [.regs, .hbm, .vecs, .gs, .sb, .link, .svc, .log] F) :
    Upd F s₀ (State.shipRestart s slot e) := by
  refine Upd.by_ h ?_ hF
  clear h hF
  revert s
  intro s₀
  have h := Upd.refl (F := [.regs, .hbm, .vecs, .gs, .sb, .link, .svc, .log]) s₀
  delta State.shipRestart
  repeat' (first
    | with_reducible assumption
    | ((with_reducible apply Part.Sub.of); rfl)
    | (intro s; refine (fun h => ?_) (?_ : Upd [.regs, .hbm, .vecs, .gs, .sb, .link, .svc, .log] s₀ s); rotate_left; subst s; rotate_left)
    | lift_lets -underBinder
    | with_reducible apply Upd.ite
    | with_reducible apply State.raise_upd
    | with_reducible apply State.failExport_upd
    | with_reducible apply State.setExport_upd
    | with_reducible apply State.shipSend_upd)

theorem State.shipsLost_upd {F : List Part} {s₀ s : State} (lost : List Msg) (h : Upd F s₀ s) (hF : Part.Sub [.regs, .hbm, .vecs, .gs, .sb, .link, .svc, .log] F) :
    Upd F s₀ (State.shipsLost s lost) := by
  refine Upd.by_ h ?_ hF
  clear h hF
  revert s
  intro s₀
  have h := Upd.refl (F := [.regs, .hbm, .vecs, .gs, .sb, .link, .svc, .log]) s₀
  delta State.shipsLost
  repeat' (first
    | with_reducible assumption
    | ((with_reducible apply Part.Sub.of); rfl)
    | (with_reducible apply Upd.foldl; case' hf => intro _ _ h)
    | with_reducible apply State.shipRestart_upd)

theorem State.sendCold_upd {F : List Part} {s₀ s : State} (slot : Nat) (addr : Nat) (bytes : List Byte) (h : Upd F s₀ s) (hF : Part.Sub [.link] F) :
    Upd F s₀ (State.sendCold s slot addr bytes) := by
  refine Upd.by_ h ?_ hF
  clear h hF
  revert s
  intro s₀
  have h := Upd.refl (F := [.link]) s₀
  delta State.sendCold
  repeat' (first
    | with_reducible assumption
    | ((with_reducible apply Part.Sub.of); rfl)
    | intro s
    | lift_lets -underBinder
    | with_reducible apply State.request_upd)

theorem State.failPause_upd {F : List Part} {s₀ s : State} (slot : Nat) (status : Nat) (h : Upd F s₀ s) (hF : Part.Sub [.regs, .hbm, .vecs, .mbox, .inprog, .sb, .link, .svc] F) :
    Upd F s₀ (State.failPause s slot status) := by
  refine Upd.by_ h ?_ hF
  clear h hF
  revert s
  intro s₀
  have h := Upd.refl (F := [.regs, .hbm, .vecs, .mbox, .inprog, .sb, .link, .svc]) s₀
  delta State.failPause
  repeat' (first
    | with_reducible assumption
    | ((with_reducible apply Part.Sub.of); rfl)
    | (intro s; refine (fun h => ?_) (?_ : Upd [.regs, .hbm, .vecs, .mbox, .inprog, .sb, .link, .svc] s₀ s); rotate_left; subst s; rotate_left)
    | intro s
    | lift_lets -underBinder
    | (with_reducible apply Upd.sb; case h => with_reducible assumption)
    | with_reducible apply State.setSeq_upd
    | with_reducible apply State.answerAll_upd)

theorem State.startPause_upd {F : List Part} {s₀ s : State} (slot : Nat) (m : Move) (h : Upd F s₀ s) (hF : Part.Sub [.regs, .hbm, .coaches, .vecs, .mbox, .inprog, .xlate, .sb, .link, .svc] F) :
    Upd F s₀ (State.startPause s slot m) := by
  refine Upd.by_ h ?_ hF
  clear h hF
  revert s
  intro s₀
  have h := Upd.refl (F := [.regs, .hbm, .coaches, .vecs, .mbox, .inprog, .xlate, .sb, .link, .svc]) s₀
  delta State.startPause
  repeat' (first
    | with_reducible assumption
    | ((with_reducible apply Part.Sub.of); rfl)
    | (intro s; refine (fun h => ?_) (?_ : Upd [.regs, .hbm, .coaches, .vecs, .mbox, .inprog, .xlate, .sb, .link, .svc] s₀ s); rotate_left; subst s; rotate_left)
    | intro s
    | lift_lets -underBinder
    | with_reducible apply Upd.ite
    | (with_reducible apply Upd.foldl; case' hf => intro _ _ h)
    | (with_reducible apply Upd.sb; case h => with_reducible assumption)
    | with_reducible apply State.failPause_upd
    | with_reducible apply State.setSeq_upd
    | with_reducible apply State.sendCold_upd
    | with_reducible apply State.drop_upd
    | with_reducible apply State.bump_upd
    | split)

theorem State.startPauses_upd {F : List Part} {s₀ s : State} (h : Upd F s₀ s) (hF : Part.Sub [.regs, .hbm, .coaches, .vecs, .mbox, .inprog, .xlate, .sb, .link, .svc] F) :
    Upd F s₀ (State.startPauses s) := by
  refine Upd.by_ h ?_ hF
  clear h hF
  revert s
  intro s₀
  have h := Upd.refl (F := [.regs, .hbm, .coaches, .vecs, .mbox, .inprog, .xlate, .sb, .link, .svc]) s₀
  delta State.startPauses
  repeat' (first
    | with_reducible assumption
    | ((with_reducible apply Part.Sub.of); rfl)
    | (with_reducible apply Upd.foldl; case' hf => intro _ _ h)
    | with_reducible apply State.startPause_upd)

theorem State.finishReset_upd {F : List Part} {s₀ s : State} (c : Nat) (h : Upd F s₀ s) (hF : Part.Sub [.regs, .hbm, .coaches, .vecs, .mbox, .inprog, .xlate, .gs, .sb, .link, .svc, .log] F) :
    Upd F s₀ (State.finishReset s c) := by
  refine Upd.by_ h ?_ hF
  clear h hF
  revert s
  intro s₀
  have h := Upd.refl (F := [.regs, .hbm, .coaches, .vecs, .mbox, .inprog, .xlate, .gs, .sb, .link, .svc, .log]) s₀
  delta State.finishReset
  repeat' (first
    | with_reducible assumption
    | ((with_reducible apply Part.Sub.of); rfl)
    | (intro s; refine (fun h => ?_) (?_ : Upd [.regs, .hbm, .coaches, .vecs, .mbox, .inprog, .xlate, .gs, .sb, .link, .svc, .log] s₀ s); rotate_left; subst s; rotate_left)
    | intro s
    | lift_lets -underBinder
    | with_reducible apply Upd.ite
    | (with_reducible apply Upd.foldl; case' hf => intro _ _ h)
    | with_reducible apply State.endSeq_upd
    | with_reducible apply State.setOve_upd
    | with_reducible apply State.freeOve_upd
    | with_reducible apply State.raise_upd
    | with_reducible apply State.trySend_upd
    | with_reducible apply State.set_upd
    | with_reducible apply State.bump_upd
    | with_reducible apply State.modCoach_upd
    | with_reducible apply State.enterCoach_upd
    | with_reducible apply State.answerAll_upd)

theorem State.coachBoundary_upd {F : List Part} {s₀ s : State} (c : Nat) (h : Upd F s₀ s) (hF : Part.Sub [.regs, .hbm, .coaches, .vecs, .mbox, .inprog, .xlate, .gs, .sb, .link, .svc, .log] F) :
    Upd F s₀ (State.coachBoundary s c) := by
  refine Upd.by_ h ?_ hF
  clear h hF
  revert s
  intro s₀
  have h := Upd.refl (F := [.regs, .hbm, .coaches, .vecs, .mbox, .inprog, .xlate, .gs, .sb, .link, .svc, .log]) s₀
  delta State.coachBoundary
  repeat' (first
    | with_reducible assumption
    | ((with_reducible apply Part.Sub.of); rfl)
    | with_reducible apply Upd.ite
    | with_reducible apply State.finishReset_upd
    | with_reducible apply State.enterCoach_upd
    | with_reducible apply State.answerAll_upd)

theorem State.dropUnmapped_upd {F : List Part} {s₀ s : State} (h : Upd F s₀ s) (hF : Part.Sub [.regs, .vecs, .mbox, .inprog, .xlate, .link, .svc] F) :
    Upd F s₀ (State.dropUnmapped s) := by
  refine Upd.by_ h ?_ hF
  clear h hF
  revert s
  intro s₀
  have h := Upd.refl (F := [.regs, .vecs, .mbox, .inprog, .xlate, .link, .svc]) s₀
  delta State.dropUnmapped
  repeat' (first
    | with_reducible assumption
    | ((with_reducible apply Part.Sub.of); rfl)
    | (intro s; refine (fun h => ?_) (?_ : Upd [.regs, .vecs, .mbox, .inprog, .xlate, .link, .svc] s₀ s); rotate_left; subst s; rotate_left)
    | (intro s; have _h : List _ := s; clear _h; clear_value s)
    | intro s
    | lift_lets -underBinder
    | with_reducible apply Upd.ite
    | (with_reducible apply Upd.xlate; case h => with_reducible assumption)
    | with_reducible apply State.answerAll_upd)

theorem State.applyMode_upd {F : List Part} {s₀ s : State} (h : Upd F s₀ s) (hF : Part.Sub [.regs, .gs] F) :
    Upd F s₀ (State.applyMode s) := by
  refine Upd.by_ h ?_ hF
  clear h hF
  revert s
  intro s₀
  have h := Upd.refl (F := [.regs, .gs]) s₀
  delta State.applyMode
  repeat' (first
    | with_reducible assumption
    | ((with_reducible apply Part.Sub.of); rfl)
    | (intro s; refine (fun h => ?_) (?_ : Upd [.regs, .gs] s₀ s); rotate_left; subst s; rotate_left)
    | intro s
    | lift_lets -underBinder
    | (with_reducible apply Upd.gs; case h => with_reducible assumption)
    | with_reducible apply State.setChip_upd
    | split)

theorem State.applyRole_upd {F : List Part} {s₀ s : State} (h : Upd F s₀ s) (hF : Part.Sub [.regs, .vecs, .mbox, .inprog, .gs, .link, .svc] F) :
    Upd F s₀ (State.applyRole s) := by
  refine Upd.by_ h ?_ hF
  clear h hF
  revert s
  intro s₀
  have h := Upd.refl (F := [.regs, .vecs, .mbox, .inprog, .gs, .link, .svc]) s₀
  delta State.applyRole
  repeat' (first
    | with_reducible assumption
    | ((with_reducible apply Part.Sub.of); rfl)
    | intro s
    | lift_lets -underBinder
    | (with_reducible apply Upd.gs; case h => with_reducible assumption)
    | with_reducible apply State.setChip_upd
    | with_reducible apply State.answerAll_upd
    | split)

theorem State.predAudit_upd {F : List Part} {s₀ s : State} (h : Upd F s₀ s) (hF : Part.Sub [.regs, .vecs, .gs, .link, .svc, .log] F) :
    Upd F s₀ (State.predAudit s) := by
  refine Upd.by_ h ?_ hF
  clear h hF
  revert s
  intro s₀
  have h := Upd.refl (F := [.regs, .vecs, .gs, .link, .svc, .log]) s₀
  delta State.predAudit
  repeat' (first
    | with_reducible assumption
    | with_reducible exact Upd.refl _
    | ((with_reducible apply Part.Sub.of); rfl)
    | (intro s; refine (fun h => ?_) (?_ : Upd [.regs, .vecs, .gs, .link, .svc, .log] s₀ s); rotate_left; subst s; rotate_left)
    | (intro q; refine (fun hq => ?_) (?_ : ∀ s, Upd [.regs, .vecs, .gs, .link, .svc, .log] s₀ s → Upd [.regs, .vecs, .gs, .link, .svc, .log] s₀ (q s)); rotate_left; subst q; intro s h; rotate_left)
    | (intro q; refine (fun hq => ?_) (?_ : ∀ s x, Upd [.regs, .vecs, .gs, .link, .svc, .log] s₀ s → Upd [.regs, .vecs, .gs, .link, .svc, .log] s₀ (q s x)); rotate_left; subst q; intro s x h; rotate_left)
    | (intro q; refine (fun hq => ?_) (?_ : ∀ x s, Upd [.regs, .vecs, .gs, .link, .svc, .log] s₀ s → Upd [.regs, .vecs, .gs, .link, .svc, .log] s₀ (q x s)); rotate_left; subst q; intro x s h; rotate_left)
    | (intro s; have _h : Option _ := s; clear _h; clear_value s)
    | (intro s; have _h : List _ := s; clear _h; clear_value s)
    | intro s
    | lift_lets -underBinder
    | with_reducible apply hq
    | with_reducible apply Upd.ite
    | (with_reducible apply Upd.foldl; case' hf => intro _ _ h)
    | with_reducible apply State.count_upd
    | with_reducible apply State.raise_upd
    | split)


theorem State.closeRows_upd {F : List Part} {s₀ s : State} (h : Upd F s₀ s) (hF : Part.Sub [.regs, .hbm, .vecs, .sb, .link] F) :
    Upd F s₀ (State.closeRows s) := by
  refine Upd.by_ h ?_ hF
  clear h hF
  revert s
  intro s₀
  have h := Upd.refl (F := [.regs, .hbm, .vecs, .sb, .link]) s₀
  delta State.closeRows
  repeat' (first
    | with_reducible assumption
    | ((with_reducible apply Part.Sub.of); rfl)
    | (intro s; refine (fun h => ?_) (?_ : Upd [.regs, .hbm, .vecs, .sb, .link] s₀ s); rotate_left; subst s; rotate_left)
    | (intro s; have _h : List _ := s; clear _h; clear_value s)
    | intro s
    | lift_lets -underBinder
    | with_reducible apply Upd.ite
    | (with_reducible apply Upd.foldl; case' hf => intro _ _ h)
    | with_reducible apply State.setSeq_upd
    | with_reducible apply State.complete_upd
    | with_reducible apply State.setEnding_upd
    | split)

theorem State.boundaryCore_upd {F : List Part} {s₀ s : State} (h : Upd F s₀ s) (hF : Part.Sub [.regs, .hbm, .coaches, .vecs, .mbox, .inprog, .xlate, .graphs, .gs, .sb, .link, .svc, .log, .ledger] F) :
    Upd F s₀ (State.boundaryCore s) := by
  refine Upd.by_ h ?_ hF
  clear h hF
  revert s
  intro s₀
  have h := Upd.refl (F := [.regs, .hbm, .coaches, .vecs, .mbox, .inprog, .xlate, .graphs, .gs, .sb, .link, .svc, .log, .ledger]) s₀
  delta State.boundaryCore
  repeat' (first
    | with_reducible assumption
    | ((with_reducible apply Part.Sub.of); rfl)
    | (intro s; refine (fun h => ?_) (?_ : Upd [.regs, .hbm, .coaches, .vecs, .mbox, .inprog, .xlate, .graphs, .gs, .sb, .link, .svc, .log, .ledger] s₀ s); rotate_left; subst s; rotate_left)
    | (intro s; have _h : List _ := s; clear _h; clear_value s)
    | intro s
    | lift_lets -underBinder
    | with_reducible apply Upd.ite
    | (with_reducible apply Upd.foldl; case' hf => intro _ _ h)
    | (with_reducible apply Upd.gs; case h => with_reducible assumption)
    | with_reducible apply State.count_upd
    | with_reducible apply State.predAudit_upd
    | with_reducible apply State.closeRows_upd
    | with_reducible apply State.freeEnding_upd
    | with_reducible apply State.flushLate_upd
    | with_reducible apply State.checkDeadline_upd
    | with_reducible apply State.checkTtl_upd
    | with_reducible apply State.startExport_upd
    | with_reducible apply State.startPauses_upd
    | with_reducible apply State.applyMode_upd
    | with_reducible apply State.applyRole_upd
    | with_reducible apply State.applyStaged_upd
    | with_reducible apply State.coachBoundary_upd
    | with_reducible apply State.dropUnmapped_upd
    | with_reducible apply State.ledgerTrigger_upd)

theorem State.boundary_upd {F : List Part} {s₀ s : State} (h : Upd F s₀ s) (hF : Part.Sub [.regs, .hbm, .cores, .coaches, .vecs, .mbox, .inprog, .xlate, .graphs, .gs, .sb, .link, .svc, .log, .ledger] F) :
    Upd F s₀ (State.boundary s) := by
  refine Upd.by_ h ?_ hF
  clear h hF
  revert s
  intro s₀
  have h := Upd.refl (F := [.regs, .hbm, .cores, .coaches, .vecs, .mbox, .inprog, .xlate, .graphs, .gs, .sb, .link, .svc, .log, .ledger]) s₀
  delta State.boundary
  repeat' (first
    | with_reducible assumption
    | ((with_reducible apply Part.Sub.of); rfl)
    | (intro s; refine (fun h => ?_) (?_ : Upd [.regs, .hbm, .cores, .coaches, .vecs, .mbox, .inprog, .xlate, .graphs, .gs, .sb, .link, .svc, .log, .ledger] s₀ s); rotate_left; subst s; rotate_left)
    | intro s
    | lift_lets -underBinder
    | with_reducible apply Upd.ite
    | (with_reducible apply Upd.gs; case h => with_reducible assumption)
    | with_reducible apply State.boundaryCore_upd
    | with_reducible apply State.arm_upd
    | split)

theorem State.maybeCut_upd {F : List Part} {s₀ s : State} (h : Upd F s₀ s) (hF : Part.Sub [.regs, .hbm, .coaches, .vecs, .mbox, .inprog, .xlate, .gs, .sb, .link, .svc, .log] F) :
    Upd F s₀ (State.maybeCut s) := by
  refine Upd.by_ h ?_ hF
  clear h hF
  revert s
  intro s₀
  have h := Upd.refl (F := [.regs, .hbm, .coaches, .vecs, .mbox, .inprog, .xlate, .gs, .sb, .link, .svc, .log]) s₀
  delta State.maybeCut
  repeat' (first
    | with_reducible assumption
    | ((with_reducible apply Part.Sub.of); rfl)
    | with_reducible apply Upd.ite
    | with_reducible apply State.takeCut_upd)

end Sys2Proof.Machine
end

