-- ==== Sys2Proof/Laws/UpdScheduler.lean ====
section
/-!
SUPPORT. What each operation of Machine/Scheduler.lean may change.
-/
namespace Sys2Proof.Machine

theorem State.inputWritten_upd {F : List Part} {s₀ s : State} (slot : Nat) (h : Upd F s₀ s) (hF : Part.Sub [.hbm, .sb] F) :
    Upd F s₀ (State.inputWritten s slot) := by
  refine Upd.by_ h ?_ hF
  clear h hF
  revert s
  intro s₀
  have h := Upd.refl (F := [.hbm, .sb]) s₀
  delta State.inputWritten
  repeat' (first
    | with_reducible assumption
    | ((with_reducible apply Part.Sub.of); rfl)
    | (intro s; refine (fun h => ?_) (?_ : Upd [.hbm, .sb] s₀ s); rotate_left; subst s; rotate_left)
    | intro s
    | lift_lets -underBinder
    | with_reducible apply Upd.ite
    | (with_reducible apply Upd.sb; case h => with_reducible assumption)
    | with_reducible apply State.setSeq_upd)

theorem State.ctrlWritten_upd {F : List Part} {s₀ s : State} (slot : Nat) (h : Upd F s₀ s) (hF : Part.Sub [.regs, .hbm, .coaches, .vecs, .mbox, .inprog, .xlate, .gs, .sb, .link, .svc, .log] F) :
    Upd F s₀ (State.ctrlWritten s slot) := by
  refine Upd.by_ h ?_ hF
  clear h hF
  revert s
  intro s₀
  have h := Upd.refl (F := [.regs, .hbm, .coaches, .vecs, .mbox, .inprog, .xlate, .gs, .sb, .link, .svc, .log]) s₀
  delta State.ctrlWritten
  repeat' (first
    | with_reducible assumption
    | ((with_reducible apply Part.Sub.of); rfl)
    | (intro s; refine (fun h => ?_) (?_ : Upd [.regs, .hbm, .coaches, .vecs, .mbox, .inprog, .xlate, .gs, .sb, .link, .svc, .log] s₀ s); rotate_left; subst s; rotate_left)
    | intro s
    | lift_lets -underBinder
    | with_reducible apply Upd.ite
    | (with_reducible apply Upd.sb; case h => with_reducible assumption)
    | with_reducible apply State.registerEnd_upd)

theorem State.entryWrite_upd {F : List Part} {s₀ s : State} (coach : Nat) (slot : Nat) (off : Nat) (l : List Byte) (h : Upd F s₀ s) (hF : Part.Sub [.regs, .hbm, .coaches, .vecs, .mbox, .inprog, .xlate, .gs, .sb, .link, .svc, .log] F) :
    Upd F s₀ (State.entryWrite s coach slot off l) := by
  refine Upd.by_ h ?_ hF
  clear h hF
  revert s
  intro s₀
  have h := Upd.refl (F := [.regs, .hbm, .coaches, .vecs, .mbox, .inprog, .xlate, .gs, .sb, .link, .svc, .log]) s₀
  delta State.entryWrite
  repeat' (first
    | with_reducible assumption
    | ((with_reducible apply Part.Sub.of); rfl)
    | (intro s; refine (fun h => ?_) (?_ : Upd [.regs, .hbm, .coaches, .vecs, .mbox, .inprog, .xlate, .gs, .sb, .link, .svc, .log] s₀ s); rotate_left; subst s; rotate_left)
    | (intro s; have _h : List _ := s; clear _h; clear_value s)
    | intro s
    | lift_lets -underBinder
    | with_reducible apply Upd.ite
    | with_reducible apply State.count_upd
    | with_reducible apply State.memWrite_upd
    | with_reducible apply State.inputWritten_upd
    | with_reducible apply State.ctrlWritten_upd)

theorem execSeqInputWrite_upd (coach : Nat) (slot : Nat) (word : Nat) (s₀ : State) : ∃ t, execSeqInputWrite coach slot word s₀ = .next t ∧ Upd [.regs, .hbm, .coaches, .vecs, .mbox, .inprog, .xlate, .gs, .sb, .link, .svc, .log] s₀ t := by
  have h := Upd.refl (F := [.regs, .hbm, .coaches, .vecs, .mbox, .inprog, .xlate, .gs, .sb, .link, .svc, .log]) s₀
  delta execSeqInputWrite
  repeat' (first
    | with_reducible assumption
    | ((with_reducible apply Part.Sub.of); rfl)
    | with_reducible apply Upd.next
    | with_reducible apply State.entryWrite_upd)

theorem execSeqCancelBit_upd (coach : Nat) (slot : Nat) (s₀ : State) : ∃ t, execSeqCancelBit coach slot s₀ = .next t ∧ Upd [.regs, .hbm, .coaches, .vecs, .mbox, .inprog, .xlate, .gs, .sb, .link, .svc, .log] s₀ t := by
  have h := Upd.refl (F := [.regs, .hbm, .coaches, .vecs, .mbox, .inprog, .xlate, .gs, .sb, .link, .svc, .log]) s₀
  delta execSeqCancelBit
  repeat' (first
    | with_reducible assumption
    | ((with_reducible apply Part.Sub.of); rfl)
    | with_reducible apply Upd.next
    | with_reducible apply State.entryWrite_upd)

theorem execSeqCloseBit_upd (coach : Nat) (slot : Nat) (s₀ : State) : ∃ t, execSeqCloseBit coach slot s₀ = .next t ∧ Upd [.regs, .hbm, .coaches, .vecs, .mbox, .inprog, .xlate, .gs, .sb, .link, .svc, .log] s₀ t := by
  have h := Upd.refl (F := [.regs, .hbm, .coaches, .vecs, .mbox, .inprog, .xlate, .gs, .sb, .link, .svc, .log]) s₀
  delta execSeqCloseBit
  repeat' (first
    | with_reducible assumption
    | ((with_reducible apply Part.Sub.of); rfl)
    | with_reducible apply Upd.next
    | with_reducible apply State.entryWrite_upd)

theorem execSeqEntryStaged_upd (slot : Nat) (s₀ : State) : ∃ t, execSeqEntryStaged slot s₀ = .next t ∧ Upd [.sb] s₀ t := by
  have h := Upd.refl (F := [.sb]) s₀
  delta execSeqEntryStaged
  repeat' (first
    | with_reducible assumption
    | ((with_reducible apply Part.Sub.of); rfl)
    | intro s
    | lift_lets -underBinder
    | with_reducible apply Upd.ite
    | with_reducible apply Upd.next
    | (with_reducible apply Upd.sb; case h => with_reducible assumption))

theorem execDeadlineCheck_upd (s₀ : State) : ∃ t, execDeadlineCheck s₀ = .next t ∧ Upd [.regs, .hbm, .coaches, .vecs, .mbox, .inprog, .xlate, .gs, .sb, .link, .svc, .log] s₀ t := by
  have h := Upd.refl (F := [.regs, .hbm, .coaches, .vecs, .mbox, .inprog, .xlate, .gs, .sb, .link, .svc, .log]) s₀
  delta execDeadlineCheck
  repeat' (first
    | with_reducible assumption
    | ((with_reducible apply Part.Sub.of); rfl)
    | (with_reducible apply Upd.foldl; case' hf => intro _ _ h)
    | with_reducible apply Upd.next
    | with_reducible apply State.checkDeadline_upd)

theorem execDeadlineExpiry_upd (slot : Nat) (s₀ : State) : ∃ t, execDeadlineExpiry slot s₀ = .next t ∧ Upd [.regs, .hbm, .coaches, .vecs, .mbox, .inprog, .xlate, .gs, .sb, .link, .svc, .log] s₀ t := by
  have h := Upd.refl (F := [.regs, .hbm, .coaches, .vecs, .mbox, .inprog, .xlate, .gs, .sb, .link, .svc, .log]) s₀
  delta execDeadlineExpiry
  repeat' (first
    | with_reducible assumption
    | ((with_reducible apply Part.Sub.of); rfl)
    | with_reducible apply Upd.next
    | with_reducible apply State.checkDeadline_upd)

theorem execSbIdleTimer_upd (s₀ : State) : ∃ t, execSbIdleTimer s₀ = .next t ∧ Upd [.regs, .hbm, .coaches, .vecs, .mbox, .inprog, .xlate, .gs, .sb, .link, .svc, .log] s₀ t := by
  have h := Upd.refl (F := [.regs, .hbm, .coaches, .vecs, .mbox, .inprog, .xlate, .gs, .sb, .link, .svc, .log]) s₀
  delta execSbIdleTimer
  repeat' (first
    | with_reducible assumption
    | ((with_reducible apply Part.Sub.of); rfl)
    | (intro s; refine (fun h => ?_) (?_ : Upd [.regs, .hbm, .coaches, .vecs, .mbox, .inprog, .xlate, .gs, .sb, .link, .svc, .log] s₀ s); rotate_left; subst s; rotate_left)
    | lift_lets -underBinder
    | with_reducible apply Upd.ite
    | (with_reducible apply Upd.foldl; case' hf => intro _ _ h)
    | with_reducible apply Upd.next
    | with_reducible apply State.checkDeadline_upd
    | with_reducible apply State.checkTtl_upd
    | with_reducible apply State.freeEnding_upd
    | with_reducible apply State.flushLate_upd
    | with_reducible apply State.startPauses_upd
    | with_reducible apply State.coachBoundary_upd)

theorem execKvTtlExpiry_upd (slot : Nat) (s₀ : State) : ∃ t, execKvTtlExpiry slot s₀ = .next t ∧ Upd [.regs, .hbm, .coaches, .vecs, .xlate, .gs, .sb, .link, .svc, .log] s₀ t := by
  have h := Upd.refl (F := [.regs, .hbm, .coaches, .vecs, .xlate, .gs, .sb, .link, .svc, .log]) s₀
  delta execKvTtlExpiry
  repeat' (first
    | with_reducible assumption
    | ((with_reducible apply Part.Sub.of); rfl)
    | with_reducible apply Upd.next
    | with_reducible apply State.checkTtl_upd)

theorem execImportTtlExpiry_upd (idx : Nat) (s₀ : State) : ∃ t, execImportTtlExpiry idx s₀ = .next t ∧ Upd [.regs, .hbm, .coaches, .vecs, .xlate, .sb, .link] s₀ t := by
  have h := Upd.refl (F := [.regs, .hbm, .coaches, .vecs, .xlate, .sb, .link]) s₀
  delta execImportTtlExpiry
  repeat' (first
    | with_reducible assumption
    | ((with_reducible apply Part.Sub.of); rfl)
    | with_reducible apply Upd.ite
    | with_reducible apply Upd.next
    | with_reducible apply State.closeImport_upd)

theorem State.post_upd {F : List Part} {s₀ s : State} (rows : List Row) (h : Upd F s₀ s) (hF : Part.Sub [.regs, .hbm, .cores, .coaches, .vecs, .mbox, .inprog, .xlate, .graphs, .gs, .sb, .link, .svc, .log, .ledger] F) :
    Upd F s₀ (State.post s rows) := by
  refine Upd.by_ h ?_ hF
  clear h hF
  revert s
  intro s₀
  have h := Upd.refl (F := [.regs, .hbm, .cores, .coaches, .vecs, .mbox, .inprog, .xlate, .graphs, .gs, .sb, .link, .svc, .log, .ledger]) s₀
  delta State.post
  repeat' (first
    | with_reducible assumption
    | ((with_reducible apply Part.Sub.of); rfl)
    | intro s
    | lift_lets -underBinder
    | with_reducible apply Upd.ite
    | (with_reducible apply Upd.gs; case h => with_reducible assumption)
    | with_reducible apply State.arm_upd
    | with_reducible apply State.boundary_upd)

theorem execManifestReady_upd (pages : List Nat) (waitNs : Nat) (s₀ : State) : ∃ t, execManifestReady pages waitNs s₀ = .next t ∧ Upd [.regs, .hbm, .cores, .coaches, .vecs, .mbox, .inprog, .xlate, .graphs, .gs, .sb, .link, .svc, .log, .ledger] s₀ t := by
  have h := Upd.refl (F := [.regs, .hbm, .cores, .coaches, .vecs, .mbox, .inprog, .xlate, .graphs, .gs, .sb, .link, .svc, .log, .ledger]) s₀
  delta execManifestReady
  repeat' (first
    | with_reducible assumption
    | ((with_reducible apply Part.Sub.of); rfl)
    | (intro s; refine (fun h => ?_) (?_ : Upd [.regs, .hbm, .cores, .coaches, .vecs, .mbox, .inprog, .xlate, .graphs, .gs, .sb, .link, .svc, .log, .ledger] s₀ s); rotate_left; subst s; rotate_left)
    | (intro s; refine (fun h => ?_) (?_ : Upd1 [.regs, .hbm, .cores, .coaches, .vecs, .mbox, .inprog, .xlate, .graphs, .gs, .sb, .link, .svc, .log, .ledger] s₀ s); rotate_left; subst s; rotate_left)
    | intro s
    | lift_lets -underBinder
    | with_reducible apply Upd.ite
    | with_reducible apply Upd.next
    | (with_reducible apply Upd.gs; case h => with_reducible assumption)
    | with_reducible apply State.buildManifest_upd
    | with_reducible apply State.count_upd
    | with_reducible apply State.post_upd
    | with_reducible apply State.takeCut_upd
    | with_reducible apply Upd1.fst
    | split)

theorem State.dispatchOne_upd {F : List Part} {s₀ s : State} (u : UnitSt) (g : Graph) (i : Nat) (h : Upd F s₀ s) (hF : Part.Sub [.regs, .cores, .gs, .noc] F) :
    Upd F s₀ (State.dispatchOne s u g i) := by
  refine Upd.by_ h ?_ hF
  clear h hF
  revert s
  intro s₀
  have h := Upd.refl (F := [.regs, .cores, .gs, .noc]) s₀
  delta State.dispatchOne
  repeat' (first
    | with_reducible assumption
    | ((with_reducible apply Part.Sub.of); rfl)
    | (intro s; refine (fun h => ?_) (?_ : Upd [.regs, .cores, .gs, .noc] s₀ s); rotate_left; subst s; rotate_left)
    | intro s
    | lift_lets -underBinder
    | (with_reducible apply Upd.gs; case h => with_reducible assumption)
    | with_reducible apply State.count_upd
    | with_reducible apply State.modCore_upd
    | with_reducible apply State.qSend_upd
    | split)

theorem State.sendMembers_upd {F : List Part} {s₀ s : State} (k : Nat) (g : Graph) (l : List Nat) (h : Upd F s₀ s)
    (hF : Part.Sub [.regs, .cores, .gs, .noc] F) : Upd F s₀ (s.sendMembers k g l) := by
  induction l generalizing s with
  | nil => exact h
  | cons i r ih =>
    unfold State.sendMembers
    split
    · exact h
    · exact Upd.ite (ih (State.modUnit_upd _ _ (State.dispatchOne_upd _ _ _ h (Part.Sub.trans (Part.Sub.of rfl) hF))
        (Part.Sub.trans (Part.Sub.of rfl) hF))) h

theorem execGsDispatchUnit_upd (waitNs : Nat) (s₀ : State) : ∃ t, execGsDispatchUnit waitNs s₀ = .next t ∧ Upd [.regs, .hbm, .cores, .coaches, .vecs, .mbox, .inprog, .xlate, .graphs, .gs, .sb, .link, .svc, .log, .ledger, .noc] s₀ t := by
  have h := Upd.refl (F := [.regs, .hbm, .cores, .coaches, .vecs, .mbox, .inprog, .xlate, .graphs, .gs, .sb, .link, .svc, .log, .ledger, .noc]) s₀
  delta execGsDispatchUnit
  repeat' (first
    | with_reducible assumption
    | ((with_reducible apply Part.Sub.of); rfl)
    | (intro s; refine (fun h => ?_) (?_ : Upd [.regs, .hbm, .cores, .coaches, .vecs, .mbox, .inprog, .xlate, .graphs, .gs, .sb, .link, .svc, .log, .ledger, .noc] s₀ s); rotate_left; subst s; rotate_left)
    | (intro s; have _h : List _ := s; clear _h; clear_value s)
    | intro s
    | lift_lets -underBinder
    | with_reducible apply Upd.ite
    | with_reducible apply Upd.next
    | (with_reducible apply Upd.gs; case h => with_reducible assumption)
    | with_reducible apply State.maybeCut_upd
    | with_reducible apply State.count_upd
    | with_reducible apply State.completeUnit_upd
    | with_reducible apply State.boundary_upd
    | with_reducible apply State.sendMembers_upd
    | with_reducible apply State.modUnit_upd
    | split)

theorem execQuantumStart_upd (s₀ : State) : ∃ t, execQuantumStart s₀ = .next t ∧ Upd [.regs, .hbm, .cores, .coaches, .vecs, .mbox, .inprog, .xlate, .graphs, .gs, .sb, .link, .svc, .log, .ledger] s₀ t := by
  have h := Upd.refl (F := [.regs, .hbm, .cores, .coaches, .vecs, .mbox, .inprog, .xlate, .graphs, .gs, .sb, .link, .svc, .log, .ledger]) s₀
  delta execQuantumStart
  repeat' (first
    | with_reducible assumption
    | ((with_reducible apply Part.Sub.of); rfl)
    | (intro s; refine (fun h => ?_) (?_ : Upd [.regs, .hbm, .cores, .coaches, .vecs, .mbox, .inprog, .xlate, .graphs, .gs, .sb, .link, .svc, .log, .ledger] s₀ s); rotate_left; subst s; rotate_left)
    | intro s
    | lift_lets -underBinder
    | with_reducible apply Upd.ite
    | with_reducible apply Upd.next
    | (with_reducible apply Upd.gs; case h => with_reducible assumption)
    | with_reducible apply State.takeQuantum_upd)

theorem State.takeCompletion_upd {F : List Part} {s₀ s : State} (k : Nat) (c : Compl) (h : Upd F s₀ s) (hF : Part.Sub [.regs, .gs, .link] F) :
    Upd F s₀ (State.takeCompletion s k c) := by
  refine Upd.by_ h ?_ hF
  clear h hF
  revert s
  intro s₀
  have h := Upd.refl (F := [.regs, .gs, .link]) s₀
  delta State.takeCompletion
  repeat' (first
    | with_reducible assumption
    | with_reducible exact Upd.refl _
    | ((with_reducible apply Part.Sub.of); rfl)
    | (intro s; refine (fun h => ?_) (?_ : Upd [.regs, .gs, .link] s₀ s); rotate_left; subst s; rotate_left)
    | (intro q; refine (fun hq => ?_) (?_ : ∀ s, Upd [.regs, .gs, .link] s₀ s → Upd [.regs, .gs, .link] s₀ (q s)); rotate_left; subst q; intro s h; rotate_left)
    | (intro q; refine (fun hq => ?_) (?_ : ∀ s x, Upd [.regs, .gs, .link] s₀ s → Upd [.regs, .gs, .link] s₀ (q s x)); rotate_left; subst q; intro s x h; rotate_left)
    | (intro q; refine (fun hq => ?_) (?_ : ∀ x s, Upd [.regs, .gs, .link] s₀ s → Upd [.regs, .gs, .link] s₀ (q x s)); rotate_left; subst q; intro x s h; rotate_left)
    | (intro s; have _h : Option _ := s; clear _h; clear_value s)
    | (intro s; have _h : List _ := s; clear _h; clear_value s)
    | intro s
    | lift_lets -underBinder
    | with_reducible apply hq
    | with_reducible apply Upd.ite
    | (with_reducible apply Upd.foldl; case' hf => intro _ _ h)
    | with_reducible apply State.modUnit_upd
    | with_reducible apply State.orderEnd_upd
    | with_reducible apply State.send_upd
    | split)


theorem State.sendCompl_upd {F : List Part} {s₀ s : State} (p : Nat) (x : Compl × Nat) (h : Upd F s₀ s) (hF : Part.Sub [.gs, .noc] F) :
    Upd F s₀ (State.sendCompl s p x) := by
  refine Upd.by_ h ?_ hF
  clear h hF
  revert s
  intro s₀
  have h := Upd.refl (F := [.gs, .noc]) s₀
  delta State.sendCompl
  repeat' (first
    | with_reducible assumption
    | ((with_reducible apply Part.Sub.of); rfl)
    | (intro s; refine (fun h => ?_) (?_ : Upd [.gs, .noc] s₀ s); rotate_left; subst s; rotate_left)
    | intro s
    | lift_lets -underBinder
    | (with_reducible apply Upd.gs; case h => with_reducible assumption)
    | with_reducible apply State.qSend_upd
    | with_reducible apply State.qLeave_upd)

theorem State.complBack_upd {F : List Part} {s₀ s : State} (p : Nat) (h : Upd F s₀ s) (hF : Part.Sub [.cores, .gs, .noc] F) :
    Upd F s₀ (State.complBack s p) := by
  refine Upd.by_ h ?_ hF
  clear h hF
  revert s
  intro s₀
  have h := Upd.refl (F := [.cores, .gs, .noc]) s₀
  delta State.complBack
  repeat' (first
    | with_reducible assumption
    | ((with_reducible apply Part.Sub.of); rfl)
    | (intro s; refine (fun h => ?_) (?_ : Upd [.cores, .gs, .noc] s₀ s); rotate_left; subst s; rotate_left)
    | lift_lets -underBinder
    | with_reducible apply Upd.ite
    | with_reducible apply State.qLeave_upd
    | with_reducible apply State.modCore_upd
    | with_reducible apply State.sendCompl_upd
    | split)

theorem execCarriageCompletionRx_upd (s₀ : State) : ∃ t, execCarriageCompletionRx s₀ = .next t ∧ Upd [.regs, .hbm, .spm, .cores, .coaches, .vecs, .mbox, .inprog, .xlate, .graphs, .gs, .sb, .link, .svc, .log, .ledger, .noc] s₀ t := by
  have h := Upd.refl (F := [.regs, .hbm, .spm, .cores, .coaches, .vecs, .mbox, .inprog, .xlate, .graphs, .gs, .sb, .link, .svc, .log, .ledger, .noc]) s₀
  delta execCarriageCompletionRx
  repeat' (first
    | with_reducible assumption
    | ((with_reducible apply Part.Sub.of); rfl)
    | (intro s; refine (fun h => ?_) (?_ : Upd [.regs, .hbm, .spm, .cores, .coaches, .vecs, .mbox, .inprog, .xlate, .graphs, .gs, .sb, .link, .svc, .log, .ledger, .noc] s₀ s); rotate_left; subst s; rotate_left)
    | intro s
    | lift_lets -underBinder
    | with_reducible apply Upd.ite
    | with_reducible apply Upd.next
    | (with_reducible apply Upd.gs; case h => with_reducible assumption)
    | with_reducible apply State.complBack_upd
    | with_reducible apply State.qAwait_upd
    | with_reducible apply State.dropMember_upd
    | with_reducible apply State.takeCompletion_upd
    | with_reducible apply State.withdrawals_upd
    | with_reducible apply State.settleAll_upd
    | with_reducible apply State.maybeCut_upd
    | with_reducible apply State.boundary_upd
    | split)

end Sys2Proof.Machine
end

