-- ==== Sys2Proof/Laws/UpdLinkOps.lean ====
section
/-!
SUPPORT. What each operation of Machine/LinkOps.lean may change.
-/
namespace Sys2Proof.Machine

theorem State.portFault_upd {F : List Part} {s₀ s : State} (p : Nat) (cause : Nat) (sev : Nat) (vc : Nat) (mtype : Nat) (node : Nat) (h : Upd F s₀ s) (hF : Part.Sub [.regs, .vecs, .gs, .link, .svc, .log] F) :
    Upd F s₀ (State.portFault s p cause sev vc mtype node) := by
  refine Upd.by_ h ?_ hF
  clear h hF
  revert s
  intro s₀
  have h := Upd.refl (F := [.regs, .vecs, .gs, .link, .svc, .log]) s₀
  delta State.portFault
  repeat' (first
    | with_reducible assumption
    | ((with_reducible apply Part.Sub.of); rfl)
    | intro s
    | lift_lets -underBinder
    | with_reducible apply State.capture_upd
    | with_reducible apply State.raise_upd)

theorem State.mgmtTo_upd {F : List Part} {s₀ s : State} (p : Nat) (sub : Nat) (arg : Nat) (data : List Byte) (h : Upd F s₀ s) (hF : Part.Sub [.link] F) :
    Upd F s₀ (State.mgmtTo s p sub arg data) := by
  refine Upd.by_ h ?_ hF
  clear h hF
  revert s
  intro s₀
  have h := Upd.refl (F := [.link]) s₀
  delta State.mgmtTo
  repeat' (first
    | with_reducible assumption
    | ((with_reducible apply Part.Sub.of); rfl)
    | with_reducible apply State.enqueue_upd)

theorem State.tellHosts_upd {F : List Part} {s₀ s : State} (sub : Nat) (arg : Nat) (h : Upd F s₀ s) (hF : Part.Sub [.link, .svc] F) :
    Upd F s₀ (State.tellHosts s sub arg) := by
  refine Upd.by_ h ?_ hF
  clear h hF
  revert s
  intro s₀
  have h := Upd.refl (F := [.link, .svc]) s₀
  delta State.tellHosts
  repeat' (first
    | with_reducible assumption
    | ((with_reducible apply Part.Sub.of); rfl)
    | intro s
    | lift_lets -underBinder
    | with_reducible apply Upd.ite
    | (with_reducible apply Upd.foldl; case' hf => intro _ _ h)
    | (with_reducible apply Upd.svc; case h => with_reducible assumption)
    | with_reducible apply State.mgmtTo_upd)

theorem State.flushNotes_upd {F : List Part} {s₀ s : State} (h : Upd F s₀ s) (hF : Part.Sub [.link, .svc] F) :
    Upd F s₀ (State.flushNotes s) := by
  refine Upd.by_ h ?_ hF
  clear h hF
  revert s
  intro s₀
  have h := Upd.refl (F := [.link, .svc]) s₀
  delta State.flushNotes
  repeat' (first
    | with_reducible assumption
    | ((with_reducible apply Part.Sub.of); rfl)
    | intro s
    | lift_lets -underBinder
    | (with_reducible apply Upd.foldl; case' hf => intro _ _ h)
    | (with_reducible apply Upd.svc; case h => with_reducible assumption)
    | with_reducible apply State.tellHosts_upd)

theorem State.serviceNote_upd {F : List Part} {s₀ s : State} (ev : Nat) (src : Nat) (h : Upd F s₀ s) (hF : Part.Sub [.link, .svc] F) :
    Upd F s₀ (State.serviceNote s ev src) := by
  refine Upd.by_ h ?_ hF
  clear h hF
  revert s
  intro s₀
  have h := Upd.refl (F := [.link, .svc]) s₀
  delta State.serviceNote
  repeat' (first
    | with_reducible assumption
    | ((with_reducible apply Part.Sub.of); rfl)
    | with_reducible apply Upd.ite
    | with_reducible apply State.tellHosts_upd
    | with_reducible apply State.alertCause_upd)

theorem State.forward_upd {F : List Part} {s₀ s : State} (m : Msg) (own : Bool) (h : Upd F s₀ s) (hF : Part.Sub [.regs, .link] F) :
    Upd F s₀ (State.forward s m own) := by
  refine Upd.by_ h ?_ hF
  clear h hF
  revert s
  intro s₀
  have h := Upd.refl (F := [.regs, .link]) s₀
  delta State.forward
  repeat' (first
    | with_reducible assumption
    | with_reducible exact Upd.refl _
    | ((with_reducible apply Part.Sub.of); rfl)
    | (intro s; refine (fun h => ?_) (?_ : Upd [.regs, .link] s₀ s); rotate_left; subst s; rotate_left)
    | (intro q; refine (fun hq => ?_) (?_ : ∀ s, Upd [.regs, .link] s₀ s → Upd [.regs, .link] s₀ (q s)); rotate_left; subst q; intro s h; rotate_left)
    | (intro q; refine (fun hq => ?_) (?_ : ∀ s x, Upd [.regs, .link] s₀ s → Upd [.regs, .link] s₀ (q s x)); rotate_left; subst q; intro s x h; rotate_left)
    | (intro q; refine (fun hq => ?_) (?_ : ∀ x s, Upd [.regs, .link] s₀ s → Upd [.regs, .link] s₀ (q x s)); rotate_left; subst q; intro x s h; rotate_left)
    | (intro s; have _h : Option _ := s; clear _h; clear_value s)
    | (intro s; have _h : List _ := s; clear _h; clear_value s)
    | intro s
    | lift_lets -underBinder
    | with_reducible apply hq
    | with_reducible apply Upd.ite
    | with_reducible apply State.count_upd
    | with_reducible apply State.send_upd
    | with_reducible apply State.enqueue_upd
    | with_reducible apply State.modPort_upd
    | split)


theorem State.replayHere_upd {F : List Part} {s₀ s : State} (coach : Nat) (chain : Nat) (pass : Nat) (h : Upd F s₀ s) (hF : Part.Sub [.regs, .cores, .gs, .link] F) :
    Upd F s₀ (State.replayHere s coach chain pass) := by
  refine Upd.by_ h ?_ hF
  clear h hF
  revert s
  intro s₀
  have h := Upd.refl (F := [.regs, .cores, .gs, .link]) s₀
  delta State.replayHere
  repeat' (first
    | with_reducible assumption
    | with_reducible exact Upd.refl _
    | ((with_reducible apply Part.Sub.of); rfl)
    | (intro s; refine (fun h => ?_) (?_ : Upd [.regs, .cores, .gs, .link] s₀ s); rotate_left; subst s; rotate_left)
    | (intro q; refine (fun hq => ?_) (?_ : ∀ s, Upd [.regs, .cores, .gs, .link] s₀ s → Upd [.regs, .cores, .gs, .link] s₀ (q s)); rotate_left; subst q; intro s h; rotate_left)
    | (intro q; refine (fun hq => ?_) (?_ : ∀ s x, Upd [.regs, .cores, .gs, .link] s₀ s → Upd [.regs, .cores, .gs, .link] s₀ (q s x)); rotate_left; subst q; intro s x h; rotate_left)
    | (intro q; refine (fun hq => ?_) (?_ : ∀ x s, Upd [.regs, .cores, .gs, .link] s₀ s → Upd [.regs, .cores, .gs, .link] s₀ (q x s)); rotate_left; subst q; intro x s h; rotate_left)
    | (intro s; have _h : Option _ := s; clear _h; clear_value s)
    | (intro s; have _h : List _ := s; clear _h; clear_value s)
    | intro s
    | lift_lets -underBinder
    | with_reducible apply hq
    | with_reducible apply Upd.ite
    | (with_reducible apply Upd.foldl; case' hf => intro _ _ h)
    | with_reducible apply State.modUnit_upd
    | with_reducible apply State.takeCarts_upd
    | with_reducible apply State.orderEnd_upd
    | with_reducible apply State.settle_upd
    | split)


theorem State.replaySend_upd {F : List Part} {s₀ s : State} (coach : Nat) (chain : Nat) (pass : Nat) (h : Upd F s₀ s) (hF : Part.Sub [.regs, .link] F) :
    Upd F s₀ (State.replaySend s coach chain pass) := by
  refine Upd.by_ h ?_ hF
  clear h hF
  revert s
  intro s₀
  have h := Upd.refl (F := [.regs, .link]) s₀
  delta State.replaySend
  repeat' (first
    | with_reducible assumption
    | with_reducible exact Upd.refl _
    | ((with_reducible apply Part.Sub.of); rfl)
    | (intro s; refine (fun h => ?_) (?_ : Upd [.regs, .link] s₀ s); rotate_left; subst s; rotate_left)
    | (intro q; refine (fun hq => ?_) (?_ : ∀ s, Upd [.regs, .link] s₀ s → Upd [.regs, .link] s₀ (q s)); rotate_left; subst q; intro s h; rotate_left)
    | (intro q; refine (fun hq => ?_) (?_ : ∀ s x, Upd [.regs, .link] s₀ s → Upd [.regs, .link] s₀ (q s x)); rotate_left; subst q; intro s x h; rotate_left)
    | (intro q; refine (fun hq => ?_) (?_ : ∀ x s, Upd [.regs, .link] s₀ s → Upd [.regs, .link] s₀ (q x s)); rotate_left; subst q; intro x s h; rotate_left)
    | (intro s; have _h : Option _ := s; clear _h; clear_value s)
    | (intro s; have _h : List _ := s; clear _h; clear_value s)
    | intro s
    | lift_lets -underBinder
    | with_reducible apply hq
    | with_reducible apply Upd.ite
    | (with_reducible apply Upd.foldl; case' hf => intro _ _ h)
    | with_reducible apply State.send_upd
    | split)


theorem State.enterLink_upd {F : List Part} {s₀ s : State} (p : Nat) (st : Nat) (h : Upd F s₀ s) (hF : Part.Sub [.regs, .link] F) :
    Upd F s₀ (State.enterLink s p st) := by
  refine Upd.by_ h ?_ hF
  clear h hF
  revert s
  intro s₀
  have h := Upd.refl (F := [.regs, .link]) s₀
  delta State.enterLink
  repeat' (first
    | with_reducible assumption
    | ((with_reducible apply Part.Sub.of); rfl)
    | lift_lets -underBinder
    | with_reducible apply State.set_upd
    | with_reducible apply State.modPort_upd)

theorem State.lostMsg_upd {F : List Part} {s₀ s : State} (p : Nat) (m : Msg) (h : Upd F s₀ s) (hF : Part.Sub [.regs, .cores, .gs, .link] F) :
    Upd F s₀ (State.lostMsg s p m) := by
  refine Upd.by_ h ?_ hF
  clear h hF
  revert s
  intro s₀
  have h := Upd.refl (F := [.regs, .cores, .gs, .link]) s₀
  delta State.lostMsg
  repeat' (first
    | with_reducible assumption
    | with_reducible exact Upd.refl _
    | ((with_reducible apply Part.Sub.of); rfl)
    | (intro s; refine (fun h => ?_) (?_ : Upd [.regs, .cores, .gs, .link] s₀ s); rotate_left; subst s; rotate_left)
    | (intro q; refine (fun hq => ?_) (?_ : ∀ s, Upd [.regs, .cores, .gs, .link] s₀ s → Upd [.regs, .cores, .gs, .link] s₀ (q s)); rotate_left; subst q; intro s h; rotate_left)
    | (intro q; refine (fun hq => ?_) (?_ : ∀ s x, Upd [.regs, .cores, .gs, .link] s₀ s → Upd [.regs, .cores, .gs, .link] s₀ (q s x)); rotate_left; subst q; intro s x h; rotate_left)
    | (intro q; refine (fun hq => ?_) (?_ : ∀ x s, Upd [.regs, .cores, .gs, .link] s₀ s → Upd [.regs, .cores, .gs, .link] s₀ (q x s)); rotate_left; subst q; intro x s h; rotate_left)
    | (intro s; have _h : Option _ := s; clear _h; clear_value s)
    | (intro s; have _h : List _ := s; clear _h; clear_value s)
    | intro s
    | lift_lets -underBinder
    | with_reducible apply hq
    | with_reducible apply Upd.ite
    | (with_reducible apply Upd.link; case h => with_reducible assumption)
    | with_reducible apply State.replaySend_upd
    | with_reducible apply State.replayHere_upd
    | with_reducible apply State.forward_upd
    | split)


theorem State.noteReroute_upd {F : List Part} {s₀ s : State} (p : Nat) (h : Upd F s₀ s) (hF : Part.Sub [.regs, .vecs, .gs, .link, .svc, .log] F) :
    Upd F s₀ (State.noteReroute s p) := by
  refine Upd.by_ h ?_ hF
  clear h hF
  revert s
  intro s₀
  have h := Upd.refl (F := [.regs, .vecs, .gs, .link, .svc, .log]) s₀
  delta State.noteReroute
  repeat' (first
    | with_reducible assumption
    | with_reducible exact Upd.refl _
    | ((with_reducible apply Part.Sub.of); rfl)
    | (intro s; refine (fun h => ?_) (?_ : Upd [.regs, .vecs, .gs, .link, .svc, .log] s₀ s); rotate_left; subst s; rotate_left)
    | (intro s; have _h : Option _ := s; clear _h; clear_value s)
    | (intro s; have _h : List _ := s; clear _h; clear_value s)
    | intro s
    | lift_lets -underBinder
    | with_reducible apply Upd.ite
    | (with_reducible apply Upd.link; case h => with_reducible assumption)
    | with_reducible apply State.count_upd
    | with_reducible apply State.raise_upd
    | split)


theorem State.requeue_upd {F : List Part} {s₀ s : State} (p : Nat) (h : Upd F s₀ s) (hF : Part.Sub [.regs, .link] F) :
    Upd F s₀ (State.requeue s p) := by
  refine Upd.by_ h ?_ hF
  clear h hF
  revert s
  intro s₀
  have h := Upd.refl (F := [.regs, .link]) s₀
  delta State.requeue
  repeat' (first
    | with_reducible assumption
    | ((with_reducible apply Part.Sub.of); rfl)
    | (intro s; refine (fun h => ?_) (?_ : Upd [.regs, .link] s₀ s); rotate_left; subst s; rotate_left)
    | intro s
    | lift_lets -underBinder
    | (with_reducible apply Upd.foldl; case' hf => intro _ _ h)
    | with_reducible apply State.modPort_upd
    | with_reducible apply State.forward_upd)

theorem State.loseLink_upd {F : List Part} {s₀ s : State} (p : Nat) (st : Nat) (h : Upd F s₀ s) (hF : Part.Sub [.regs, .hbm, .cores, .vecs, .gs, .sb, .link, .svc, .log] F) :
    Upd F s₀ (State.loseLink s p st) := by
  refine Upd.by_ h ?_ hF
  clear h hF
  revert s
  intro s₀
  have h := Upd.refl (F := [.regs, .hbm, .cores, .vecs, .gs, .sb, .link, .svc, .log]) s₀
  delta State.loseLink
  repeat' (first
    | with_reducible assumption
    | ((with_reducible apply Part.Sub.of); rfl)
    | (intro s; refine (fun h => ?_) (?_ : Upd [.regs, .hbm, .cores, .vecs, .gs, .sb, .link, .svc, .log] s₀ s); rotate_left; subst s; rotate_left)
    | (intro s; have _h : List _ := s; clear _h; clear_value s)
    | intro s
    | lift_lets -underBinder
    | with_reducible apply Upd.ite
    | (with_reducible apply Upd.foldl; case' hf => intro _ _ h)
    | with_reducible apply State.enterLink_upd
    | with_reducible apply State.set_upd
    | with_reducible apply State.bump_upd
    | with_reducible apply State.modPort_upd
    | with_reducible apply State.lostMsg_upd
    | with_reducible apply State.requeue_upd
    | with_reducible apply State.noteReroute_upd
    | with_reducible apply State.shipsLost_upd)

theorem State.linkDown_upd {F : List Part} {s₀ s : State} (p : Nat) (h : Upd F s₀ s) (hF : Part.Sub [.regs, .hbm, .cores, .vecs, .gs, .sb, .link, .svc, .log] F) :
    Upd F s₀ (State.linkDown s p) := by
  refine Upd.by_ h ?_ hF
  clear h hF
  revert s
  intro s₀
  have h := Upd.refl (F := [.regs, .hbm, .cores, .vecs, .gs, .sb, .link, .svc, .log]) s₀
  delta State.linkDown
  repeat' (first
    | with_reducible assumption
    | ((with_reducible apply Part.Sub.of); rfl)
    | intro s
    | lift_lets -underBinder
    | with_reducible apply Upd.ite
    | with_reducible apply State.bump_upd
    | with_reducible apply State.loseLink_upd
    | with_reducible apply State.enterLink_upd
    | with_reducible apply State.set_upd
    | with_reducible apply State.modPort_upd)

theorem State.retrain_upd {F : List Part} {s₀ s : State} (p : Nat) (h : Upd F s₀ s) (hF : Part.Sub [.regs, .link] F) :
    Upd F s₀ (State.retrain s p) := by
  refine Upd.by_ h ?_ hF
  clear h hF
  revert s
  intro s₀
  have h := Upd.refl (F := [.regs, .link]) s₀
  delta State.retrain
  repeat' (first
    | with_reducible assumption
    | ((with_reducible apply Part.Sub.of); rfl)
    | with_reducible apply Upd.ite
    | with_reducible apply State.bump_upd
    | with_reducible apply State.enterLink_upd)

theorem State.replayPort_upd {F : List Part} {s₀ s : State} (p : Nat) (h : Upd F s₀ s) (hF : Part.Sub [.regs, .vecs, .gs, .link, .svc, .log] F) :
    Upd F s₀ (State.replayPort s p) := by
  refine Upd.by_ h ?_ hF
  clear h hF
  revert s
  intro s₀
  have h := Upd.refl (F := [.regs, .vecs, .gs, .link, .svc, .log]) s₀
  delta State.replayPort
  repeat' (first
    | with_reducible assumption
    | ((with_reducible apply Part.Sub.of); rfl)
    | (intro s; have _h : List _ := s; clear _h; clear_value s)
    | intro s
    | lift_lets -underBinder
    | with_reducible apply Upd.ite
    | with_reducible apply State.portFault_upd
    | with_reducible apply State.retrain_upd
    | with_reducible apply State.bump_upd
    | with_reducible apply State.modPort_upd)

theorem State.takeHdr_upd {F : List Part} {s₀ s : State} (p : Nat) (hd : FlitHdr) (h : Upd F s₀ s) (hF : Part.Sub [.regs, .vecs, .gs, .link, .svc, .log] F) :
    Upd F s₀ (State.takeHdr s p hd) := by
  refine Upd.by_ h ?_ hF
  clear h hF
  revert s
  intro s₀
  have h := Upd.refl (F := [.regs, .vecs, .gs, .link, .svc, .log]) s₀
  delta State.takeHdr
  repeat' (first
    | with_reducible assumption
    | ((with_reducible apply Part.Sub.of); rfl)
    | (intro s; refine (fun h => ?_) (?_ : Upd [.regs, .vecs, .gs, .link, .svc, .log] s₀ s); rotate_left; subst s; rotate_left)
    | intro s
    | lift_lets -underBinder
    | with_reducible apply Upd.ite
    | with_reducible apply State.modPort_upd
    | with_reducible apply State.replayPort_upd)

theorem State.fecTaken_upd {F : List Part} {s₀ s : State} (p : Nat) (fec : FecFind) (h : Upd F s₀ s) (hF : Part.Sub [.regs] F) :
    Upd F s₀ (State.fecTaken s p fec) := by
  refine Upd.by_ h ?_ hF
  clear h hF
  revert s
  intro s₀
  have h := Upd.refl (F := [.regs]) s₀
  delta State.fecTaken
  repeat' (first
    | with_reducible assumption
    | ((with_reducible apply Part.Sub.of); rfl)
    | with_reducible apply State.bump_upd)

theorem State.dropFlit_upd {F : List Part} {s₀ s : State} (p : Nat) (h : Upd F s₀ s) (hF : Part.Sub [.regs, .link] F) :
    Upd F s₀ (State.dropFlit s p) := by
  refine Upd.by_ h ?_ hF
  clear h hF
  revert s
  intro s₀
  have h := Upd.refl (F := [.regs, .link]) s₀
  delta State.dropFlit
  repeat' (first
    | with_reducible assumption
    | ((with_reducible apply Part.Sub.of); rfl)
    | (intro s; refine (fun h => ?_) (?_ : Upd [.regs, .link] s₀ s); rotate_left; subst s; rotate_left)
    | lift_lets -underBinder
    | with_reducible apply Upd.ite
    | with_reducible apply State.bump_upd
    | with_reducible apply State.modPort_upd)

theorem State.refreshDrain_upd {F : List Part} {s₀ s : State} (h : Upd F s₀ s) (hF : Part.Sub [.regs, .link] F) :
    Upd F s₀ (State.refreshDrain s) := by
  refine Upd.by_ h ?_ hF
  clear h hF
  revert s
  intro s₀
  have h := Upd.refl (F := [.regs, .link]) s₀
  delta State.refreshDrain
  repeat' (first
    | with_reducible assumption
    | ((with_reducible apply Part.Sub.of); rfl)
    | (intro s; refine (fun h => ?_) (?_ : Upd [.regs, .link] s₀ s); rotate_left; subst s; rotate_left)
    | intro s
    | lift_lets -underBinder
    | with_reducible apply Upd.ite
    | (with_reducible apply Upd.link; case h => with_reducible assumption)
    | with_reducible apply State.setChip_upd)

end Sys2Proof.Machine
end

