-- ==== Sys2Proof/Laws/Respond.lean ====
section
/-!
SUPPORT. What answering a mailbox command does: the response area, OWN, and what stays as it was.
-/
namespace Sys2Proof.Machine

/-! ### Lists of fields -/

theorem length_overlay (l : List Byte) (o : Nat) (b : List Byte) : (overlay l o b).length = l.length := by
  simp only [overlay, List.length_append, List.length_take, List.length_drop]
  omega

theorem length_leBytes (n v : Nat) : (leBytes n v).length = n := by
  induction n generalizing v with
  | zero => rfl
  | succ n ih => rw [leBytes, List.length_cons, ih]

/-- A byte of an overlaid list. -/
theorem getD_overlay (l : List Byte) (o : Nat) (b : List Byte) (i : Nat) (h : o + b.length ≤ l.length) :
    (overlay l o b).getD i 0 = if o ≤ i ∧ i < o + b.length then b.getD (i - o) 0 else l.getD i 0 := by
  have ho : (l.take o).length = o := by rw [List.length_take]; omega
  have hb : b.take (l.length - o) = b := List.take_of_length_le (by omega)
  simp only [overlay, List.getD_eq_getElem?_getD, List.append_assoc, hb]
  by_cases h1 : i < o
  · rw [if_neg (by omega), List.getElem?_append_left (by omega), List.getElem?_take, if_pos h1]
  · rw [List.getElem?_append_right (by omega), ho]
    by_cases h2 : i < o + b.length
    · rw [if_pos (by omega), List.getElem?_append_left (by omega)]
    · rw [if_neg (by omega), List.getElem?_append_right (by omega), List.getElem?_drop]
      congr 2
      omega

theorem length_packFields (n : Nat) (fs : List (Nat × Nat × Nat)) : (packFields n fs).length = n := by
  unfold packFields
  have h (l : List Byte) : (fs.foldl (fun l f => overlay l f.1 (leBytes f.2.1 f.2.2)) l).length = l.length := by
    induction fs generalizing l with
    | nil => rfl
    | cons f r ih => rw [List.foldl_cons, ih, length_overlay]
  rw [h, List.length_replicate]

theorem length_padTo (n : Nat) (l : List Byte) : (padTo n l).length = n := by
  simp only [padTo, List.length_take, List.length_append, List.length_replicate]
  omega

/-! ### The response -/

/-- The 16 bytes of a response's header (R423). -/
def respHeader (a : List Byte) (coach status applied retry len : Nat) : List Byte :=
  packFields 16 [(0, 2, fieldLE a 0 2), (2, 1, status), (3, 1, applied), (4, 4, fieldLE a 4 4),
    (8, 2, len % 512), (10, 2, coach % 4096), (12, 4, retry)]

theorem length_respHeader (a : List Byte) (coach status applied retry len : Nat) :
    (respHeader a coach status applied retry len).length = 16 := length_packFields _ _

theorem respHeader_status (a : List Byte) (coach status applied retry len : Nat) :
    (respHeader a coach status applied retry len).getD 2 0 = Byte.ofNat status := by
  simp only [respHeader, packFields, List.foldl_cons, List.foldl_nil]
  iterate 7 rw [getD_overlay _ _ _ _ (by simp [length_overlay, length_leBytes])]
  simp [leBytes]

/-- The mailbox bytes once a response is written and OWN cleared. -/
def respMbox (m : Memory) (box coach status applied retry : Nat) (result : List Byte) : Memory :=
  let n := Memory.write m (boxB box + 0x200)
    (padTo 512 (respHeader (Memory.read m (boxB box) 8) coach status applied retry result.length ++ result))
  SMap.put 0 n (boxB box + 3) (Memory.byte n (boxB box + 3) &&& 0xFE)

/-- The count and the signal of a completed command (R426). -/
def respSignal (s : State) (box : Nat) : State :=
  let s := s.count F.mbCmds
  if box < 8 then s.raiseVec (16384 + box)
  else if box = 8 then State.alertCause { s with svc := { s.svc with mbDone := true } } 0 else s.event (box - 16) 1

theorem respondAs_eq (s : State) (box coach status applied retry : Nat) (result : List Byte) :
    s.respondAs box coach status applied retry result =
      respSignal { s with mbox := respMbox s.mbox box coach status applied retry result
                          inprog := s.inprog.filter fun p => p.box != box } box := rfl

theorem respSignal_mbox (s : State) (box : Nat) : (respSignal s box).mbox = s.mbox := by
  have hr (s : State) (i : Nat) : (s.raiseVec i).mbox = s.mbox :=
    (State.raiseVec_upd (F := [.regs, .vecs, .link]) i [] (Upd.refl s) (.of rfl)).keep .mbox rfl
  unfold respSignal
  dsimp only
  split
  · rw [hr]; rfl
  · split
    · rfl
    · unfold State.event; rw [hr]; rfl

theorem respSignal_inprog (s : State) (box : Nat) : (respSignal s box).inprog = s.inprog := by
  have hr (s : State) (i : Nat) : (s.raiseVec i).inprog = s.inprog :=
    (State.raiseVec_upd (F := [.regs, .vecs, .link]) i [] (Upd.refl s) (.of rfl)).keep .inprog rfl
  unfold respSignal
  dsimp only
  split
  · rw [hr]; rfl
  · split
    · rfl
    · unfold State.event; rw [hr]; rfl

/-- The mailbox bytes after an answer. -/
theorem respondAs_mbox (s : State) (box coach status applied retry : Nat) (result : List Byte) :
    (s.respondAs box coach status applied retry result).mbox = respMbox s.mbox box coach status applied retry result := by
  rw [respondAs_eq, respSignal_mbox]

theorem respondAs_inprog (s : State) (box coach status applied retry : Nat) (result : List Byte) :
    (s.respondAs box coach status applied retry result).inprog = s.inprog.filter fun p => p.box != box := by
  rw [respondAs_eq, respSignal_inprog]

/-- A byte of the mailboxes outside the response area and the OWN byte of the box that is answered stays. -/
theorem respondAs_byte (s : State) (box coach status applied retry : Nat) (result : List Byte) (a : Nat)
    (h : s.mbox.wf = true) (h1 : a ≠ boxB box + 3) (h2 : a < boxB box + 0x200 ∨ boxB box + 0x400 ≤ a) :
    Memory.byte (s.respondAs box coach status applied retry result).mbox a = Memory.byte s.mbox a := by
  rw [respondAs_mbox]
  unfold respMbox
  dsimp only
  rw [Memory.byte_put _ _ _ _ (Memory.wf_write _ _ _ h), if_neg h1, Memory.byte_write _ _ _ _ h, if_neg]
  rw [length_padTo]
  omega

/-- An answer clears OWN, carries its status and ends the command (R423, R426). -/
theorem answered_respondAs (s : State) (box coach status applied retry : Nat) (result : List Byte) (h : s.mbox.wf = true)
    (hs : status < 256 := by decide) : Answered (s.respondAs box coach status applied retry result) box status := by
  refine ⟨?_, ?_, ?_⟩
  · unfold State.owned
    rw [respondAs_mbox]
    unfold respMbox
    dsimp only
    rw [Memory.byte_put _ _ _ _ (Memory.wf_write _ _ _ h), if_pos rfl]
    generalize Memory.byte _ _ = x
    revert x
    decide
  · unfold State.statusOf
    rw [respondAs_mbox]
    unfold respMbox
    dsimp only
    rw [Memory.byte_put _ _ _ _ (Memory.wf_write _ _ _ h), if_neg (by omega), Memory.byte_write _ _ _ _ h,
      if_pos ⟨by omega, by rw [length_padTo]; omega⟩]
    have hx : boxB box + 0x202 - (boxB box + 0x200) = 2 := by omega
    have hl := length_respHeader (Memory.read s.mbox (boxB box) 8) coach status applied retry result.length
    rw [hx, padTo, List.getD_eq_getElem?_getD, List.getElem?_take, if_pos (by decide), List.append_assoc,
      List.getElem?_append_left (by omega), ← List.getD_eq_getElem?_getD, respHeader_status, BitVec.toNat_ofNat]
    exact Nat.mod_eq_of_lt hs
  · unfold State.inProgress
    rw [respondAs_inprog, List.any_eq_false]
    intro q hq
    simpa using (List.mem_filter.mp hq).2

/-- The result of an answer (R423). -/
theorem resultOf_respondAs (s : State) (box coach status applied retry : Nat) (result : List Byte) (h : s.mbox.wf = true)
    (hr : result.length ≤ 496) :
    (s.respondAs box coach status applied retry result).resultOf box result.length = result := by
  have hl := length_respHeader (Memory.read s.mbox (boxB box) 8) coach status applied retry result.length
  unfold State.resultOf
  rw [respondAs_mbox]
  unfold respMbox
  dsimp only
  rw [Memory.read_congr (n := Memory.write s.mbox (boxB box + 0x200) (padTo 512 (respHeader (Memory.read s.mbox (boxB box) 8)
    coach status applied retry result.length ++ result))), Memory.read_write _ _ _ _ _ h (by omega)
      (by rw [length_padTo]; omega)]
  · have hx : boxB box + 0x210 - (boxB box + 0x200) = 16 := by omega
    rw [hx, padTo, List.drop_take, List.take_take, List.append_assoc, List.drop_append_of_le_length (by omega),
      List.drop_of_length_le (Nat.le_of_eq hl), List.nil_append, Nat.min_eq_left (by omega),
      List.take_append_of_le_length (Nat.le_refl _), List.take_length]
  · intro x h1 h2
    rw [Memory.byte_put _ _ _ _ (Memory.wf_write _ _ _ h), if_neg (by omega)]

theorem answered_respond (s : State) (box coach status : Nat) (result : List Byte) (h : s.mbox.wf = true)
    (hs : status < 256 := by decide) : Answered (s.respond box coach status result) box status :=
  answered_respondAs s box coach status _ _ result h hs

theorem resultOf_respond (s : State) (box coach status n : Nat) (result : List Byte) (h : s.mbox.wf = true)
    (hn : result.length = n) (hr : n ≤ 496) : (s.respond box coach status result).resultOf box n = result := by
  subst n
  exact resultOf_respondAs s box coach status _ _ result h hr

/-! ### What an answer leaves as it was -/

@[simp] theorem respond_free (s : State) (box coach status : Nat) (result : List Byte) :
    (s.respond box coach status result).free = s.free :=
  (State.respond_upd (F := [.regs, .vecs, .mbox, .inprog, .link, .svc]) box coach status result (Upd.refl s) (.of rfl)).keep
    .free rfl

@[simp] theorem respond_gcount (s : State) (box coach status : Nat) (result : List Byte) :
    (s.respond box coach status result).gcount = s.gcount :=
  (State.respond_upd (F := [.regs, .vecs, .mbox, .inprog, .link, .svc]) box coach status result (Upd.refl s) (.of rfl)).keep
    .gcount rfl

@[simp] theorem respond_hbm (s : State) (box coach status : Nat) (result : List Byte) :
    (s.respond box coach status result).hbm = s.hbm :=
  (State.respond_upd (F := [.regs, .vecs, .mbox, .inprog, .link, .svc]) box coach status result (Upd.refl s) (.of rfl)).keep
    .hbm rfl

@[simp] theorem respond_spm (s : State) (box coach status : Nat) (result : List Byte) :
    (s.respond box coach status result).spm = s.spm :=
  (State.respond_upd (F := [.regs, .vecs, .mbox, .inprog, .link, .svc]) box coach status result (Upd.refl s) (.of rfl)).keep
    .spm rfl

@[simp] theorem respond_cores (s : State) (box coach status : Nat) (result : List Byte) :
    (s.respond box coach status result).cores = s.cores :=
  (State.respond_upd (F := [.regs, .vecs, .mbox, .inprog, .link, .svc]) box coach status result (Upd.refl s) (.of rfl)).keep
    .cores rfl

@[simp] theorem respond_coaches (s : State) (box coach status : Nat) (result : List Byte) :
    (s.respond box coach status result).coaches = s.coaches :=
  (State.respond_upd (F := [.regs, .vecs, .mbox, .inprog, .link, .svc]) box coach status result (Upd.refl s) (.of rfl)).keep
    .coaches rfl

@[simp] theorem respond_lastCoach (s : State) (box coach status : Nat) (result : List Byte) :
    (s.respond box coach status result).lastCoach = s.lastCoach :=
  (State.respond_upd (F := [.regs, .vecs, .mbox, .inprog, .link, .svc]) box coach status result (Upd.refl s) (.of rfl)).keep
    .lastCoach rfl

@[simp] theorem respond_xlate (s : State) (box coach status : Nat) (result : List Byte) :
    (s.respond box coach status result).xlate = s.xlate :=
  (State.respond_upd (F := [.regs, .vecs, .mbox, .inprog, .link, .svc]) box coach status result (Upd.refl s) (.of rfl)).keep
    .xlate rfl

@[simp] theorem respond_tables (s : State) (box coach status : Nat) (result : List Byte) :
    (s.respond box coach status result).tables = s.tables :=
  (State.respond_upd (F := [.regs, .vecs, .mbox, .inprog, .link, .svc]) box coach status result (Upd.refl s) (.of rfl)).keep
    .tables rfl

@[simp] theorem respond_graphs (s : State) (box coach status : Nat) (result : List Byte) :
    (s.respond box coach status result).graphs = s.graphs :=
  (State.respond_upd (F := [.regs, .vecs, .mbox, .inprog, .link, .svc]) box coach status result (Upd.refl s) (.of rfl)).keep
    .graphs rfl

@[simp] theorem respond_gs (s : State) (box coach status : Nat) (result : List Byte) :
    (s.respond box coach status result).gs = s.gs :=
  (State.respond_upd (F := [.regs, .vecs, .mbox, .inprog, .link, .svc]) box coach status result (Upd.refl s) (.of rfl)).keep
    .gs rfl

@[simp] theorem respond_sb (s : State) (box coach status : Nat) (result : List Byte) :
    (s.respond box coach status result).sb = s.sb :=
  (State.respond_upd (F := [.regs, .vecs, .mbox, .inprog, .link, .svc]) box coach status result (Upd.refl s) (.of rfl)).keep
    .sb rfl

@[simp] theorem respond_boot (s : State) (box coach status : Nat) (result : List Byte) :
    (s.respond box coach status result).boot = s.boot :=
  (State.respond_upd (F := [.regs, .vecs, .mbox, .inprog, .link, .svc]) box coach status result (Upd.refl s) (.of rfl)).keep
    .boot rfl

@[simp] theorem respond_fuses (s : State) (box coach status : Nat) (result : List Byte) :
    (s.respond box coach status result).fuses = s.fuses :=
  (State.respond_upd (F := [.regs, .vecs, .mbox, .inprog, .link, .svc]) box coach status result (Upd.refl s) (.of rfl)).keep
    .fuses rfl

@[simp] theorem respond_pwr (s : State) (box coach status : Nat) (result : List Byte) :
    (s.respond box coach status result).pwr = s.pwr :=
  (State.respond_upd (F := [.regs, .vecs, .mbox, .inprog, .link, .svc]) box coach status result (Upd.refl s) (.of rfl)).keep
    .pwr rfl

@[simp] theorem respond_jtag (s : State) (box coach status : Nat) (result : List Byte) :
    (s.respond box coach status result).jtag = s.jtag :=
  (State.respond_upd (F := [.regs, .vecs, .mbox, .inprog, .link, .svc]) box coach status result (Upd.refl s) (.of rfl)).keep
    .jtag rfl

@[simp] theorem respond_log (s : State) (box coach status : Nat) (result : List Byte) :
    (s.respond box coach status result).log = s.log :=
  (State.respond_upd (F := [.regs, .vecs, .mbox, .inprog, .link, .svc]) box coach status result (Upd.refl s) (.of rfl)).keep
    .log rfl

@[simp] theorem respond_noc (s : State) (box coach status : Nat) (result : List Byte) :
    (s.respond box coach status result).noc = s.noc :=
  (State.respond_upd (F := [.regs, .vecs, .mbox, .inprog, .link, .svc]) box coach status result (Upd.refl s) (.of rfl)).keep
    .noc rfl

@[simp] theorem respond_ledger (s : State) (box coach status : Nat) (result : List Byte) :
    (s.respond box coach status result).ledger = s.ledger :=
  (State.respond_upd (F := [.regs, .vecs, .mbox, .inprog, .link, .svc]) box coach status result (Upd.refl s) (.of rfl)).keep
    .ledger rfl

/-! ### Registers that an event and an answer may change -/

/-- An event changes no register word but the vector's own and the two counters of its coach. -/
theorem raiseVec_look (s : State) (i : Nat) (waits : List Nat) (a : Nat) (h : s.regs.wf = true) (h1 : a ≠ vecB i + 8)
    (h2 : i < 16384 → a ≠ coachB (i / 4) + 0x490 ∧ a ≠ coachB (i / 4) + 0x498) :
    (s.raiseVec i waits).regs.look a = s.regs.look a := by
  have hv (s : State) (v : Vec) (h : s.regs.wf = true) : (s.setVec i v).regs.look a = s.regs.look a :=
    Regs.look_set_ne _ _ _ _ _ h h1
  have wv (s : State) (v : Vec) (h : s.regs.wf = true) : (s.setVec i v).regs.wf = true := Regs.wf_set _ _ _ _ h
  have hf (s : State) (h : s.regs.wf = true) : (s.sendFrame i).regs.look a = s.regs.look a := by
    have hq (s : State) (p : Nat) (m : Msg) (w : Awaits) : (s.request p m w).regs = s.regs :=
      (State.request_upd (F := [.link]) p m w (Upd.refl s) (.of rfl)).keep .regs rfl
    unfold State.sendFrame
    dsimp only
    split
    next hi =>
      refine (Regs.look_set_ne _ _ _ _ _ (wv _ _ (by rw [hq]; exact h)) (h2 hi).1).trans ?_
      rw [hv _ _ (by rw [hq]; exact h), hq]
    next => rw [hv _ _ (by rw [hq]; exact h), hq]
  have ht (s : State) (h : s.regs.wf = true) : (s.trySend i false).regs.look a = s.regs.look a := by
    unfold State.trySend
    dsimp only
    split
    · exact hf s h
    · rfl
  unfold State.raiseVec
  dsimp only
  split
  next hi =>
    rw [ht _ (State.wf_bump _ _ _ _ (wv _ _ h))]
    exact (Regs.look_set_ne _ _ _ _ _ (wv _ _ h) (h2 hi).2).trans (hv _ _ h)
  next => rw [ht _ (wv _ _ h), hv _ _ h]

/-- A mailbox of the device (R421). -/
def boxOk (box : Nat) : Bool := decide (box < 9) || (decide (16 ≤ box) && decide (box < 16 + 4096))

/-- The signal of a completed command changes no word below the coach windows but MB_CMDS and the admin mailboxes' vectors. -/
theorem respSignal_look (s : State) (box a : Nat) (h : s.regs.wf = true) (hb : boxOk box = true) (h1 : a < 0x1000000)
    (h2 : a ≠ 0x3110) (h3 : a < 0x3140 ∨ 0x31C0 ≤ a) : (respSignal s box).regs.look a = s.regs.look a := by
  simp only [boxOk, Bool.or_eq_true, Bool.and_eq_true, decide_eq_true_eq] at hb
  have hc : (s.count F.mbCmds).regs.look a = s.regs.look a :=
    Regs.look_set_ne _ _ _ _ _ h (by simpa [chipB, F.mbCmds] using h2)
  have wc : (s.count F.mbCmds).regs.wf = true := Regs.wf_set _ _ _ _ h
  unfold respSignal
  dsimp only
  split
  next hx =>
    rw [raiseVec_look _ _ _ _ wc, hc]
    · unfold vecB
      rw [if_neg (by omega)]
      unfold admVecB
      omega
    · intro hi; omega
  next =>
    split
    · exact hc
    next h8 =>
      unfold State.event
      rw [raiseVec_look _ _ _ _ wc, hc]
      · unfold vecB
        rw [if_pos (by omega)]
        unfold cvecB coachB
        omega
      · intro hi
        unfold coachB
        omega

/-- An answer changes no word below the coach windows but MB_CMDS and the admin mailboxes' vectors. -/
theorem respondAs_look (s : State) (box coach status applied retry : Nat) (result : List Byte) (a : Nat) (h : s.regs.wf = true)
    (hb : boxOk box = true) (h1 : a < 0x1000000) (h2 : a ≠ 0x3110) (h3 : a < 0x3140 ∨ 0x31C0 ≤ a) :
    (s.respondAs box coach status applied retry result).regs.look a = s.regs.look a := by
  rw [respondAs_eq]
  exact respSignal_look _ box a h hb h1 h2 h3

theorem respond_look (s : State) (box coach status : Nat) (result : List Byte) (a : Nat) (h : s.regs.wf = true)
    (hb : boxOk box = true) (h1 : a < 0x1000000) (h2 : a ≠ 0x3110) (h3 : a < 0x3140 ∨ 0x31C0 ≤ a) :
    (s.respond box coach status result).regs.look a = s.regs.look a :=
  respondAs_look s box coach status _ _ result a h hb h1 h2 h3

/-- An answer leaves a chip field: `hf` is closed by evaluation. -/
theorem respond_chip (s : State) (box coach status : Nat) (result : List Byte) (f : Fld) (h : s.regs.wf = true)
    (hb : boxOk box = true)
    (hf : (decide (f.off < 0x1000000) && f.off != 0x3110 && (decide (f.off < 0x3140) || decide (0x31C0 ≤ f.off))) = true := by rfl) :
    (s.respond box coach status result).chip f = s.chip f := by
  simp only [Bool.and_eq_true, Bool.or_eq_true, decide_eq_true_eq, bne_iff_ne] at hf
  unfold State.chip State.get Regs.get
  rw [respond_look s box coach status result _ h hb] <;> simp only [chipB] <;> omega

end Sys2Proof.Machine
end

