-- ==== Sys2Proof/Laws/Mailbox.lean ====
section
/-!
SUPPORT. Taking a mailbox command: which mailbox is taken, and what a command that is served runs on.
-/
namespace Sys2Proof.Machine

theorem SMap.look_of_mem {α : Type} [DecidableEq α] {d : α} {m : SMap α} {k : Nat} {v : α} (h : SMap.wf d m = true)
    (hm : (k, v) ∈ m) : SMap.look d m k = v := by
  induction m with
  | nil => cases hm
  | cons e r ih =>
    obtain ⟨k', w⟩ := e
    obtain ⟨h1, h2, h3⟩ := SMap.wf_cons.mp h
    have hr := ih h3
    have hb := fun hb : k < k' => SMap.look_above (d := d) (SMap.above_trans h1 (Nat.le_of_lt hb))
    have ha : (k, v) ∈ r → k' < k := by
      intro hin
      by_cases hk : k' < k
      · exact hk
      · exfalso
        have hl := SMap.look_above (d := d) (SMap.above_trans h1 (Nat.le_of_not_lt hk))
        have := hr hin
        rw [hl] at this
        have hd (m : SMap α) (k : Nat) (h : SMap.wf d m = true) : (k, d) ∉ m := by
          induction m with
          | nil => exact List.not_mem_nil
          | cons e r ih =>
            obtain ⟨k', w⟩ := e
            obtain ⟨h1, h2, h3⟩ := SMap.wf_cons.mp h
            intro hm
            cases hm with
            | head => exact h2 rfl
            | tail _ hm => exact ih h3 hm
        exact hd r k h3 (this ▸ hin)
    unfold SMap.look
    cases hm with
    | head => rw [if_neg (Nat.lt_irrefl _), if_pos rfl]
    | tail _ hin =>
      have := ha hin
      rw [if_neg (by omega), if_neg (by omega), hr hin]

/-- A coach mailbox that stands among the owned ones holds OWN = 1. -/
theorem ownedCoaches_owned {s : State} {c : Nat} (h : s.mbox.wf = true) (hc : c ∈ s.ownedCoaches) :
    c < 4096 ∧ s.owned (16 + c) = true := by
  unfold State.ownedCoaches at hc
  obtain ⟨e, he, rfl⟩ := List.mem_map.mp hc
  obtain ⟨hm, hp⟩ := List.mem_filter.mp he
  simp only [Bool.and_eq_true, decide_eq_true_eq, beq_iff_eq] at hp
  obtain ⟨⟨⟨h1, h2⟩, h3⟩, h4⟩ := hp
  refine ⟨by omega, ?_⟩
  unfold State.owned Memory.byte
  have ha : boxB (16 + (e.1 - 0x1000000) / 0x1000) + 3 = e.1 := by
    unfold boxB coachB
    rw [if_neg (by omega), if_neg (by omega)]
    omega
  rw [ha, SMap.look_of_mem h (v := e.2) hm]
  exact h4

/-- The mailbox that is taken next is one of the device's, holds OWN = 1, and carries no command in progress (R428). -/
theorem nextBox_ok {s : State} {box : Nat} (h : s.mbox.wf = true) (hb : s.nextBox = some box) :
    boxOk box = true ∧ s.owned box = true ∧ s.inProgress box = false := by
  have hc (c : Nat) (hc : c ∈ s.ownedCoaches.filter fun c => !s.inProgress (16 + c)) :
      boxOk (16 + c) = true ∧ s.owned (16 + c) = true ∧ s.inProgress (16 + c) = false := by
    obtain ⟨h1, h2⟩ := List.mem_filter.mp hc
    obtain ⟨h3, h4⟩ := ownedCoaches_owned h h1
    refine ⟨?_, h4, by simpa using h2⟩
    simp only [boxOk, Bool.or_eq_true, Bool.and_eq_true, decide_eq_true_eq]
    omega
  unfold State.nextBox at hb
  dsimp only at hb
  split at hb
  next k hk =>
    cases hb
    have h1 := List.find?_some hk
    have h2 := List.mem_range.mp (List.mem_of_find?_eq_some hk)
    simp only [Bool.and_eq_true, Bool.not_eq_true'] at h1
    refine ⟨?_, h1⟩
    simp only [boxOk, Bool.or_eq_true, decide_eq_true_eq]
    omega
  next =>
    split at hb
    next h8 =>
      cases hb
      simp only [Bool.and_eq_true, Bool.not_eq_true'] at h8
      exact ⟨rfl, h8⟩
    next =>
      split at hb
      next c hf =>
        cases hb
        exact hc c (List.mem_of_find?_eq_some hf)
      next =>
        cases hl : s.ownedCoaches.filter fun c => !s.inProgress (16 + c) with
        | nil => rw [hl] at hb; cases hb
        | cons c r =>
          rw [hl] at hb
          cases hb
          exact hc c (by rw [hl]; exact List.mem_cons_self)

/-- A served command runs its own meaning, on the state in which its mailbox is taken. -/
theorem takeCommand_served {s : State} {op box : Nat} (own : Cmd → State → State) (h : Served s op box) :
    takeCommand op box own s = own (s.cmd box) (s.taken box) := by
  obtain ⟨h1, h2, h3, h4, h5, h6, h7⟩ := h
  have hp : (s.taken box).chip F.pwrStatusState = s.chip F.pwrStatusState := by
    unfold State.taken
    split <;> rfl
  unfold takeCommand
  dsimp only
  rw [if_pos ⟨h1, h2, h3, .inl h4⟩]
  change (if (s.taken box).noPlace box = true ∨ (1 ≤ (s.taken box).chip F.pwrStatusState ∧
    (s.taken box).chip F.pwrStatusState ≤ 2 ∧ op ≠ 1 ∧ op ≠ 12) then _ else _) = _
  rw [hp, if_neg (by rw [h5]; simp; omega)]
  change (match (s.taken box).cmdCheck (s.cmd box) with | some st => _ | none => own (s.cmd box) (s.taken box)) = _
  rw [h7]

theorem taken_chip (s : State) (box : Nat) (f : Fld) : (s.taken box).chip f = s.chip f := by
  unfold State.taken
  split <;> rfl

theorem taken_get (s : State) (box b : Nat) (f : Fld) : (s.taken box).get b f = s.get b f := by
  unfold State.taken
  split <;> rfl

/-- A row whose mailbox the MP does not take leaves the state as it is. -/
theorem takeCommand_untaken {s : State} {op box : Nat} (own : Cmd → State → State) (h : ¬ Taken s op box) :
    takeCommand op box own s = s := by
  unfold takeCommand
  dsimp only
  exact if_neg h

/-- A command taken without a place for it is answered BUSY (R429). -/
theorem takeCommand_busy {s : State} {op box : Nat} (own : Cmd → State → State) (h : Taken s op box)
    (hb : (s.taken box).noPlace box = true ∨
      (1 ≤ s.chip F.pwrStatusState ∧ s.chip F.pwrStatusState ≤ 2 ∧ op ≠ 0x0001 ∧ op ≠ 0x000C)) :
    takeCommand op box own s = (s.taken box).respondBusy box (s.cmd box).coach := by
  unfold takeCommand
  dsimp only
  obtain ⟨h1, h2, h3, h4⟩ := h
  rw [if_pos ⟨h1, h2, h3, h4⟩]
  refine if_pos ?_
  have hp := taken_chip s box F.pwrStatusState
  rw [← hp] at hb
  exact hb

/-- A command that fails a check of R427 is answered with its status. -/
theorem takeCommand_refused {s : State} {op box st : Nat} (own : Cmd → State → State) (h : Taken s op box)
    (hb : (s.taken box).noPlace box = false)
    (hp : s.chip F.pwrStatusState = 0 ∨ 2 < s.chip F.pwrStatusState ∨ op = 0x0001 ∨ op = 0x000C)
    (hc : (s.taken box).cmdCheck (s.cmd box) = some st) :
    takeCommand op box own s =
      (s.taken box).respond box (s.cmd box).coach st (if (s.cmd box).badIfv then [0x14] else []) := by
  have h2 := taken_chip s box F.pwrStatusState
  unfold takeCommand
  dsimp only
  obtain ⟨k1, k2, k3, k4⟩ := h
  rw [if_pos ⟨k1, k2, k3, k4⟩]
  change (if (s.taken box).noPlace box = true ∨ (1 ≤ (s.taken box).chip F.pwrStatusState ∧
    (s.taken box).chip F.pwrStatusState ≤ 2 ∧ op ≠ 1 ∧ op ≠ 12) then _ else _) = _
  rw [h2, if_neg (by rw [hb]; simp; omega)]
  change (match (s.taken box).cmdCheck (s.cmd box) with | some st => _ | none => own (s.cmd box) (s.taken box)) = _
  rw [hc]
  rfl

theorem cmd_box (s : State) (box : Nat) : (s.cmd box).box = box := rfl

theorem cmd_op {s : State} {op box : Nat} (h : Served s op box) : (s.cmd box).op = op := h.2.2.2.1

theorem Served.boxOk {s : State} {op box : Nat} (h : Served s op box) (hw : s.mbox.wf = true) :
    Machine.boxOk box = true := (nextBox_ok hw h.2.2.1).1

theorem Served.owned {s : State} {op box : Nat} (h : Served s op box) (hw : s.mbox.wf = true) :
    s.owned box = true := (nextBox_ok hw h.2.2.1).2.1

@[simp] theorem taken_pending (s : State) (box : Nat) : (s.taken box).pending = s.pending := by
  unfold State.taken
  split <;> rfl

@[simp] theorem taken_free (s : State) (box : Nat) : (s.taken box).free = s.free := by
  unfold State.taken
  split <;> rfl

@[simp] theorem taken_gcount (s : State) (box : Nat) : (s.taken box).gcount = s.gcount := by
  unfold State.taken
  split <;> rfl

@[simp] theorem taken_regs (s : State) (box : Nat) : (s.taken box).regs = s.regs := by
  unfold State.taken
  split <;> rfl

@[simp] theorem taken_hbm (s : State) (box : Nat) : (s.taken box).hbm = s.hbm := by
  unfold State.taken
  split <;> rfl

@[simp] theorem taken_spm (s : State) (box : Nat) : (s.taken box).spm = s.spm := by
  unfold State.taken
  split <;> rfl

@[simp] theorem taken_cores (s : State) (box : Nat) : (s.taken box).cores = s.cores := by
  unfold State.taken
  split <;> rfl

@[simp] theorem taken_coaches (s : State) (box : Nat) : (s.taken box).coaches = s.coaches := by
  unfold State.taken
  split <;> rfl

@[simp] theorem taken_vecs (s : State) (box : Nat) : (s.taken box).vecs = s.vecs := by
  unfold State.taken
  split <;> rfl

@[simp] theorem taken_mbox (s : State) (box : Nat) : (s.taken box).mbox = s.mbox := by
  unfold State.taken
  split <;> rfl

@[simp] theorem taken_inprog (s : State) (box : Nat) : (s.taken box).inprog = s.inprog := by
  unfold State.taken
  split <;> rfl

@[simp] theorem taken_xlate (s : State) (box : Nat) : (s.taken box).xlate = s.xlate := by
  unfold State.taken
  split <;> rfl

@[simp] theorem taken_tables (s : State) (box : Nat) : (s.taken box).tables = s.tables := by
  unfold State.taken
  split <;> rfl

@[simp] theorem taken_graphs (s : State) (box : Nat) : (s.taken box).graphs = s.graphs := by
  unfold State.taken
  split <;> rfl

@[simp] theorem taken_gs (s : State) (box : Nat) : (s.taken box).gs = s.gs := by
  unfold State.taken
  split <;> rfl

@[simp] theorem taken_sb (s : State) (box : Nat) : (s.taken box).sb = s.sb := by
  unfold State.taken
  split <;> rfl

@[simp] theorem taken_link (s : State) (box : Nat) : (s.taken box).link = s.link := by
  unfold State.taken
  split <;> rfl

@[simp] theorem taken_boot (s : State) (box : Nat) : (s.taken box).boot = s.boot := by
  unfold State.taken
  split <;> rfl

@[simp] theorem taken_fuses (s : State) (box : Nat) : (s.taken box).fuses = s.fuses := by
  unfold State.taken
  split <;> rfl

@[simp] theorem taken_pwr (s : State) (box : Nat) : (s.taken box).pwr = s.pwr := by
  unfold State.taken
  split <;> rfl

@[simp] theorem taken_svc (s : State) (box : Nat) : (s.taken box).svc = s.svc := by
  unfold State.taken
  split <;> rfl

@[simp] theorem taken_jtag (s : State) (box : Nat) : (s.taken box).jtag = s.jtag := by
  unfold State.taken
  split <;> rfl

@[simp] theorem taken_log (s : State) (box : Nat) : (s.taken box).log = s.log := by
  unfold State.taken
  split <;> rfl

@[simp] theorem taken_noc (s : State) (box : Nat) : (s.taken box).noc = s.noc := by
  unfold State.taken
  split <;> rfl

@[simp] theorem taken_ledger (s : State) (box : Nat) : (s.taken box).ledger = s.ledger := by
  unfold State.taken
  split <;> rfl

@[simp] theorem inProg_pending (s : State) (c : Cmd) (par : List Nat) : (s.inProg c par).pending = s.pending := rfl

@[simp] theorem inProg_free (s : State) (c : Cmd) (par : List Nat) : (s.inProg c par).free = s.free := rfl

@[simp] theorem inProg_gcount (s : State) (c : Cmd) (par : List Nat) : (s.inProg c par).gcount = s.gcount := rfl

@[simp] theorem inProg_regs (s : State) (c : Cmd) (par : List Nat) : (s.inProg c par).regs = s.regs := rfl

@[simp] theorem inProg_hbm (s : State) (c : Cmd) (par : List Nat) : (s.inProg c par).hbm = s.hbm := rfl

@[simp] theorem inProg_spm (s : State) (c : Cmd) (par : List Nat) : (s.inProg c par).spm = s.spm := rfl

@[simp] theorem inProg_cores (s : State) (c : Cmd) (par : List Nat) : (s.inProg c par).cores = s.cores := rfl

@[simp] theorem inProg_coaches (s : State) (c : Cmd) (par : List Nat) : (s.inProg c par).coaches = s.coaches := rfl

@[simp] theorem inProg_vecs (s : State) (c : Cmd) (par : List Nat) : (s.inProg c par).vecs = s.vecs := rfl

@[simp] theorem inProg_mbox (s : State) (c : Cmd) (par : List Nat) : (s.inProg c par).mbox = s.mbox := rfl

@[simp] theorem inProg_lastCoach (s : State) (c : Cmd) (par : List Nat) : (s.inProg c par).lastCoach = s.lastCoach := rfl

@[simp] theorem inProg_xlate (s : State) (c : Cmd) (par : List Nat) : (s.inProg c par).xlate = s.xlate := rfl

@[simp] theorem inProg_tables (s : State) (c : Cmd) (par : List Nat) : (s.inProg c par).tables = s.tables := rfl

@[simp] theorem inProg_graphs (s : State) (c : Cmd) (par : List Nat) : (s.inProg c par).graphs = s.graphs := rfl

@[simp] theorem inProg_gs (s : State) (c : Cmd) (par : List Nat) : (s.inProg c par).gs = s.gs := rfl

@[simp] theorem inProg_sb (s : State) (c : Cmd) (par : List Nat) : (s.inProg c par).sb = s.sb := rfl

@[simp] theorem inProg_link (s : State) (c : Cmd) (par : List Nat) : (s.inProg c par).link = s.link := rfl

@[simp] theorem inProg_boot (s : State) (c : Cmd) (par : List Nat) : (s.inProg c par).boot = s.boot := rfl

@[simp] theorem inProg_fuses (s : State) (c : Cmd) (par : List Nat) : (s.inProg c par).fuses = s.fuses := rfl

@[simp] theorem inProg_pwr (s : State) (c : Cmd) (par : List Nat) : (s.inProg c par).pwr = s.pwr := rfl

@[simp] theorem inProg_svc (s : State) (c : Cmd) (par : List Nat) : (s.inProg c par).svc = s.svc := rfl

@[simp] theorem inProg_jtag (s : State) (c : Cmd) (par : List Nat) : (s.inProg c par).jtag = s.jtag := rfl

@[simp] theorem inProg_log (s : State) (c : Cmd) (par : List Nat) : (s.inProg c par).log = s.log := rfl

@[simp] theorem inProg_ledger (s : State) (c : Cmd) (par : List Nat) : (s.inProg c par).ledger = s.ledger := rfl

/-- A command that waits stays in progress, and its mailbox keeps OWN (R428). -/
theorem inProgress_inProg (s : State) (c : Cmd) (par : List Nat) (h : s.owned c.box = true) :
    InProgress (s.inProg c par) c.box c.op := by
  refine ⟨h, ?_⟩
  unfold State.inProg
  simp

/-- A message that arrives goes on to its own meaning, once it has left the receive buffer. -/
theorem arrive_arrives {s : State} {p t : Nat} {m : Msg} (own : State → State) (h : Arrives s p m t) :
    s.arrive p m t own = own (s.unbuffer p m) := by
  obtain ⟨h1, h2, h3, h4, h5, h6, h7, h8, h9, h10⟩ := h
  have hc : (s.unbuffer p m).coachless m = false := by rw [← h10]; unfold State.unbuffer; split <;> rfl
  unfold State.arrive
  rw [if_neg (by simp [State.deaf, h2, h3, h4, h5, h6, h7]; omega), if_neg (by rw [h9]; decide)]
  dsimp only
  rw [h8, if_neg (by decide), hc, if_neg (by decide)]

end Sys2Proof.Machine
end

