-- ==== Sys2Proof/Laws/State.lean ====
section
/-!
SUPPORT. What each of the plainest updates of the state leaves as it was, one lemma for each field.
-/
namespace Sys2Proof.Machine

/-! ### set -/

@[simp] theorem set_pending (s : State) (b : Nat) (f : Fld) (v : Nat) : (s.set b f v).pending = s.pending := rfl
@[simp] theorem set_free (s : State) (b : Nat) (f : Fld) (v : Nat) : (s.set b f v).free = s.free := rfl
@[simp] theorem set_gcount (s : State) (b : Nat) (f : Fld) (v : Nat) : (s.set b f v).gcount = s.gcount := rfl
@[simp] theorem set_hbm (s : State) (b : Nat) (f : Fld) (v : Nat) : (s.set b f v).hbm = s.hbm := rfl
@[simp] theorem set_spm (s : State) (b : Nat) (f : Fld) (v : Nat) : (s.set b f v).spm = s.spm := rfl
@[simp] theorem set_cores (s : State) (b : Nat) (f : Fld) (v : Nat) : (s.set b f v).cores = s.cores := rfl
@[simp] theorem set_coaches (s : State) (b : Nat) (f : Fld) (v : Nat) : (s.set b f v).coaches = s.coaches := rfl
@[simp] theorem set_vecs (s : State) (b : Nat) (f : Fld) (v : Nat) : (s.set b f v).vecs = s.vecs := rfl
@[simp] theorem set_mbox (s : State) (b : Nat) (f : Fld) (v : Nat) : (s.set b f v).mbox = s.mbox := rfl
@[simp] theorem set_inprog (s : State) (b : Nat) (f : Fld) (v : Nat) : (s.set b f v).inprog = s.inprog := rfl
@[simp] theorem set_lastCoach (s : State) (b : Nat) (f : Fld) (v : Nat) : (s.set b f v).lastCoach = s.lastCoach := rfl
@[simp] theorem set_xlate (s : State) (b : Nat) (f : Fld) (v : Nat) : (s.set b f v).xlate = s.xlate := rfl
@[simp] theorem set_tables (s : State) (b : Nat) (f : Fld) (v : Nat) : (s.set b f v).tables = s.tables := rfl
@[simp] theorem set_graphs (s : State) (b : Nat) (f : Fld) (v : Nat) : (s.set b f v).graphs = s.graphs := rfl
@[simp] theorem set_gs (s : State) (b : Nat) (f : Fld) (v : Nat) : (s.set b f v).gs = s.gs := rfl
@[simp] theorem set_sb (s : State) (b : Nat) (f : Fld) (v : Nat) : (s.set b f v).sb = s.sb := rfl
@[simp] theorem set_link (s : State) (b : Nat) (f : Fld) (v : Nat) : (s.set b f v).link = s.link := rfl
@[simp] theorem set_boot (s : State) (b : Nat) (f : Fld) (v : Nat) : (s.set b f v).boot = s.boot := rfl
@[simp] theorem set_fuses (s : State) (b : Nat) (f : Fld) (v : Nat) : (s.set b f v).fuses = s.fuses := rfl
@[simp] theorem set_pwr (s : State) (b : Nat) (f : Fld) (v : Nat) : (s.set b f v).pwr = s.pwr := rfl
@[simp] theorem set_svc (s : State) (b : Nat) (f : Fld) (v : Nat) : (s.set b f v).svc = s.svc := rfl
@[simp] theorem set_jtag (s : State) (b : Nat) (f : Fld) (v : Nat) : (s.set b f v).jtag = s.jtag := rfl
@[simp] theorem set_log (s : State) (b : Nat) (f : Fld) (v : Nat) : (s.set b f v).log = s.log := rfl
@[simp] theorem set_ledger (s : State) (b : Nat) (f : Fld) (v : Nat) : (s.set b f v).ledger = s.ledger := rfl
@[simp] theorem set_noc (s : State) (b : Nat) (f : Fld) (v : Nat) : (s.set b f v).noc = s.noc := rfl

/-! ### bump -/

@[simp] theorem bump_pending (s : State) (b : Nat) (f : Fld) (n : Nat) : (s.bump b f n).pending = s.pending := rfl
@[simp] theorem bump_free (s : State) (b : Nat) (f : Fld) (n : Nat) : (s.bump b f n).free = s.free := rfl
@[simp] theorem bump_gcount (s : State) (b : Nat) (f : Fld) (n : Nat) : (s.bump b f n).gcount = s.gcount := rfl
@[simp] theorem bump_hbm (s : State) (b : Nat) (f : Fld) (n : Nat) : (s.bump b f n).hbm = s.hbm := rfl
@[simp] theorem bump_spm (s : State) (b : Nat) (f : Fld) (n : Nat) : (s.bump b f n).spm = s.spm := rfl
@[simp] theorem bump_cores (s : State) (b : Nat) (f : Fld) (n : Nat) : (s.bump b f n).cores = s.cores := rfl
@[simp] theorem bump_coaches (s : State) (b : Nat) (f : Fld) (n : Nat) : (s.bump b f n).coaches = s.coaches := rfl
@[simp] theorem bump_vecs (s : State) (b : Nat) (f : Fld) (n : Nat) : (s.bump b f n).vecs = s.vecs := rfl
@[simp] theorem bump_mbox (s : State) (b : Nat) (f : Fld) (n : Nat) : (s.bump b f n).mbox = s.mbox := rfl
@[simp] theorem bump_inprog (s : State) (b : Nat) (f : Fld) (n : Nat) : (s.bump b f n).inprog = s.inprog := rfl
@[simp] theorem bump_lastCoach (s : State) (b : Nat) (f : Fld) (n : Nat) : (s.bump b f n).lastCoach = s.lastCoach := rfl
@[simp] theorem bump_xlate (s : State) (b : Nat) (f : Fld) (n : Nat) : (s.bump b f n).xlate = s.xlate := rfl
@[simp] theorem bump_tables (s : State) (b : Nat) (f : Fld) (n : Nat) : (s.bump b f n).tables = s.tables := rfl
@[simp] theorem bump_graphs (s : State) (b : Nat) (f : Fld) (n : Nat) : (s.bump b f n).graphs = s.graphs := rfl
@[simp] theorem bump_gs (s : State) (b : Nat) (f : Fld) (n : Nat) : (s.bump b f n).gs = s.gs := rfl
@[simp] theorem bump_sb (s : State) (b : Nat) (f : Fld) (n : Nat) : (s.bump b f n).sb = s.sb := rfl
@[simp] theorem bump_link (s : State) (b : Nat) (f : Fld) (n : Nat) : (s.bump b f n).link = s.link := rfl
@[simp] theorem bump_boot (s : State) (b : Nat) (f : Fld) (n : Nat) : (s.bump b f n).boot = s.boot := rfl
@[simp] theorem bump_fuses (s : State) (b : Nat) (f : Fld) (n : Nat) : (s.bump b f n).fuses = s.fuses := rfl
@[simp] theorem bump_pwr (s : State) (b : Nat) (f : Fld) (n : Nat) : (s.bump b f n).pwr = s.pwr := rfl
@[simp] theorem bump_svc (s : State) (b : Nat) (f : Fld) (n : Nat) : (s.bump b f n).svc = s.svc := rfl
@[simp] theorem bump_jtag (s : State) (b : Nat) (f : Fld) (n : Nat) : (s.bump b f n).jtag = s.jtag := rfl
@[simp] theorem bump_log (s : State) (b : Nat) (f : Fld) (n : Nat) : (s.bump b f n).log = s.log := rfl
@[simp] theorem bump_ledger (s : State) (b : Nat) (f : Fld) (n : Nat) : (s.bump b f n).ledger = s.ledger := rfl
@[simp] theorem bump_noc (s : State) (b : Nat) (f : Fld) (n : Nat) : (s.bump b f n).noc = s.noc := rfl

/-! ### bumpSat -/

@[simp] theorem bumpSat_pending (s : State) (b : Nat) (f : Fld) (n : Nat) : (s.bumpSat b f n).pending = s.pending := rfl
@[simp] theorem bumpSat_free (s : State) (b : Nat) (f : Fld) (n : Nat) : (s.bumpSat b f n).free = s.free := rfl
@[simp] theorem bumpSat_gcount (s : State) (b : Nat) (f : Fld) (n : Nat) : (s.bumpSat b f n).gcount = s.gcount := rfl
@[simp] theorem bumpSat_hbm (s : State) (b : Nat) (f : Fld) (n : Nat) : (s.bumpSat b f n).hbm = s.hbm := rfl
@[simp] theorem bumpSat_spm (s : State) (b : Nat) (f : Fld) (n : Nat) : (s.bumpSat b f n).spm = s.spm := rfl
@[simp] theorem bumpSat_cores (s : State) (b : Nat) (f : Fld) (n : Nat) : (s.bumpSat b f n).cores = s.cores := rfl
@[simp] theorem bumpSat_coaches (s : State) (b : Nat) (f : Fld) (n : Nat) : (s.bumpSat b f n).coaches = s.coaches := rfl
@[simp] theorem bumpSat_vecs (s : State) (b : Nat) (f : Fld) (n : Nat) : (s.bumpSat b f n).vecs = s.vecs := rfl
@[simp] theorem bumpSat_mbox (s : State) (b : Nat) (f : Fld) (n : Nat) : (s.bumpSat b f n).mbox = s.mbox := rfl
@[simp] theorem bumpSat_inprog (s : State) (b : Nat) (f : Fld) (n : Nat) : (s.bumpSat b f n).inprog = s.inprog := rfl
@[simp] theorem bumpSat_lastCoach (s : State) (b : Nat) (f : Fld) (n : Nat) : (s.bumpSat b f n).lastCoach = s.lastCoach := rfl
@[simp] theorem bumpSat_xlate (s : State) (b : Nat) (f : Fld) (n : Nat) : (s.bumpSat b f n).xlate = s.xlate := rfl
@[simp] theorem bumpSat_tables (s : State) (b : Nat) (f : Fld) (n : Nat) : (s.bumpSat b f n).tables = s.tables := rfl
@[simp] theorem bumpSat_graphs (s : State) (b : Nat) (f : Fld) (n : Nat) : (s.bumpSat b f n).graphs = s.graphs := rfl
@[simp] theorem bumpSat_gs (s : State) (b : Nat) (f : Fld) (n : Nat) : (s.bumpSat b f n).gs = s.gs := rfl
@[simp] theorem bumpSat_sb (s : State) (b : Nat) (f : Fld) (n : Nat) : (s.bumpSat b f n).sb = s.sb := rfl
@[simp] theorem bumpSat_link (s : State) (b : Nat) (f : Fld) (n : Nat) : (s.bumpSat b f n).link = s.link := rfl
@[simp] theorem bumpSat_boot (s : State) (b : Nat) (f : Fld) (n : Nat) : (s.bumpSat b f n).boot = s.boot := rfl
@[simp] theorem bumpSat_fuses (s : State) (b : Nat) (f : Fld) (n : Nat) : (s.bumpSat b f n).fuses = s.fuses := rfl
@[simp] theorem bumpSat_pwr (s : State) (b : Nat) (f : Fld) (n : Nat) : (s.bumpSat b f n).pwr = s.pwr := rfl
@[simp] theorem bumpSat_svc (s : State) (b : Nat) (f : Fld) (n : Nat) : (s.bumpSat b f n).svc = s.svc := rfl
@[simp] theorem bumpSat_jtag (s : State) (b : Nat) (f : Fld) (n : Nat) : (s.bumpSat b f n).jtag = s.jtag := rfl
@[simp] theorem bumpSat_log (s : State) (b : Nat) (f : Fld) (n : Nat) : (s.bumpSat b f n).log = s.log := rfl
@[simp] theorem bumpSat_ledger (s : State) (b : Nat) (f : Fld) (n : Nat) : (s.bumpSat b f n).ledger = s.ledger := rfl
@[simp] theorem bumpSat_noc (s : State) (b : Nat) (f : Fld) (n : Nat) : (s.bumpSat b f n).noc = s.noc := rfl

/-! ### drop -/

@[simp] theorem drop_pending (s : State) (b : Nat) (f : Fld) (n : Nat) : (s.drop b f n).pending = s.pending := rfl
@[simp] theorem drop_free (s : State) (b : Nat) (f : Fld) (n : Nat) : (s.drop b f n).free = s.free := rfl
@[simp] theorem drop_gcount (s : State) (b : Nat) (f : Fld) (n : Nat) : (s.drop b f n).gcount = s.gcount := rfl
@[simp] theorem drop_hbm (s : State) (b : Nat) (f : Fld) (n : Nat) : (s.drop b f n).hbm = s.hbm := rfl
@[simp] theorem drop_spm (s : State) (b : Nat) (f : Fld) (n : Nat) : (s.drop b f n).spm = s.spm := rfl
@[simp] theorem drop_cores (s : State) (b : Nat) (f : Fld) (n : Nat) : (s.drop b f n).cores = s.cores := rfl
@[simp] theorem drop_coaches (s : State) (b : Nat) (f : Fld) (n : Nat) : (s.drop b f n).coaches = s.coaches := rfl
@[simp] theorem drop_vecs (s : State) (b : Nat) (f : Fld) (n : Nat) : (s.drop b f n).vecs = s.vecs := rfl
@[simp] theorem drop_mbox (s : State) (b : Nat) (f : Fld) (n : Nat) : (s.drop b f n).mbox = s.mbox := rfl
@[simp] theorem drop_inprog (s : State) (b : Nat) (f : Fld) (n : Nat) : (s.drop b f n).inprog = s.inprog := rfl
@[simp] theorem drop_lastCoach (s : State) (b : Nat) (f : Fld) (n : Nat) : (s.drop b f n).lastCoach = s.lastCoach := rfl
@[simp] theorem drop_xlate (s : State) (b : Nat) (f : Fld) (n : Nat) : (s.drop b f n).xlate = s.xlate := rfl
@[simp] theorem drop_tables (s : State) (b : Nat) (f : Fld) (n : Nat) : (s.drop b f n).tables = s.tables := rfl
@[simp] theorem drop_graphs (s : State) (b : Nat) (f : Fld) (n : Nat) : (s.drop b f n).graphs = s.graphs := rfl
@[simp] theorem drop_gs (s : State) (b : Nat) (f : Fld) (n : Nat) : (s.drop b f n).gs = s.gs := rfl
@[simp] theorem drop_sb (s : State) (b : Nat) (f : Fld) (n : Nat) : (s.drop b f n).sb = s.sb := rfl
@[simp] theorem drop_link (s : State) (b : Nat) (f : Fld) (n : Nat) : (s.drop b f n).link = s.link := rfl
@[simp] theorem drop_boot (s : State) (b : Nat) (f : Fld) (n : Nat) : (s.drop b f n).boot = s.boot := rfl
@[simp] theorem drop_fuses (s : State) (b : Nat) (f : Fld) (n : Nat) : (s.drop b f n).fuses = s.fuses := rfl
@[simp] theorem drop_pwr (s : State) (b : Nat) (f : Fld) (n : Nat) : (s.drop b f n).pwr = s.pwr := rfl
@[simp] theorem drop_svc (s : State) (b : Nat) (f : Fld) (n : Nat) : (s.drop b f n).svc = s.svc := rfl
@[simp] theorem drop_jtag (s : State) (b : Nat) (f : Fld) (n : Nat) : (s.drop b f n).jtag = s.jtag := rfl
@[simp] theorem drop_log (s : State) (b : Nat) (f : Fld) (n : Nat) : (s.drop b f n).log = s.log := rfl
@[simp] theorem drop_ledger (s : State) (b : Nat) (f : Fld) (n : Nat) : (s.drop b f n).ledger = s.ledger := rfl
@[simp] theorem drop_noc (s : State) (b : Nat) (f : Fld) (n : Nat) : (s.drop b f n).noc = s.noc := rfl

/-! ### setChip -/

@[simp] theorem setChip_pending (s : State) (f : Fld) (v : Nat) : (s.setChip f v).pending = s.pending := rfl
@[simp] theorem setChip_free (s : State) (f : Fld) (v : Nat) : (s.setChip f v).free = s.free := rfl
@[simp] theorem setChip_gcount (s : State) (f : Fld) (v : Nat) : (s.setChip f v).gcount = s.gcount := rfl
@[simp] theorem setChip_hbm (s : State) (f : Fld) (v : Nat) : (s.setChip f v).hbm = s.hbm := rfl
@[simp] theorem setChip_spm (s : State) (f : Fld) (v : Nat) : (s.setChip f v).spm = s.spm := rfl
@[simp] theorem setChip_cores (s : State) (f : Fld) (v : Nat) : (s.setChip f v).cores = s.cores := rfl
@[simp] theorem setChip_coaches (s : State) (f : Fld) (v : Nat) : (s.setChip f v).coaches = s.coaches := rfl
@[simp] theorem setChip_vecs (s : State) (f : Fld) (v : Nat) : (s.setChip f v).vecs = s.vecs := rfl
@[simp] theorem setChip_mbox (s : State) (f : Fld) (v : Nat) : (s.setChip f v).mbox = s.mbox := rfl
@[simp] theorem setChip_inprog (s : State) (f : Fld) (v : Nat) : (s.setChip f v).inprog = s.inprog := rfl
@[simp] theorem setChip_lastCoach (s : State) (f : Fld) (v : Nat) : (s.setChip f v).lastCoach = s.lastCoach := rfl
@[simp] theorem setChip_xlate (s : State) (f : Fld) (v : Nat) : (s.setChip f v).xlate = s.xlate := rfl
@[simp] theorem setChip_tables (s : State) (f : Fld) (v : Nat) : (s.setChip f v).tables = s.tables := rfl
@[simp] theorem setChip_graphs (s : State) (f : Fld) (v : Nat) : (s.setChip f v).graphs = s.graphs := rfl
@[simp] theorem setChip_gs (s : State) (f : Fld) (v : Nat) : (s.setChip f v).gs = s.gs := rfl
@[simp] theorem setChip_sb (s : State) (f : Fld) (v : Nat) : (s.setChip f v).sb = s.sb := rfl
@[simp] theorem setChip_link (s : State) (f : Fld) (v : Nat) : (s.setChip f v).link = s.link := rfl
@[simp] theorem setChip_boot (s : State) (f : Fld) (v : Nat) : (s.setChip f v).boot = s.boot := rfl
@[simp] theorem setChip_fuses (s : State) (f : Fld) (v : Nat) : (s.setChip f v).fuses = s.fuses := rfl
@[simp] theorem setChip_pwr (s : State) (f : Fld) (v : Nat) : (s.setChip f v).pwr = s.pwr := rfl
@[simp] theorem setChip_svc (s : State) (f : Fld) (v : Nat) : (s.setChip f v).svc = s.svc := rfl
@[simp] theorem setChip_jtag (s : State) (f : Fld) (v : Nat) : (s.setChip f v).jtag = s.jtag := rfl
@[simp] theorem setChip_log (s : State) (f : Fld) (v : Nat) : (s.setChip f v).log = s.log := rfl
@[simp] theorem setChip_ledger (s : State) (f : Fld) (v : Nat) : (s.setChip f v).ledger = s.ledger := rfl
@[simp] theorem setChip_noc (s : State) (f : Fld) (v : Nat) : (s.setChip f v).noc = s.noc := rfl

/-! ### count -/

@[simp] theorem count_pending (s : State) (f : Fld) (n : Nat) : (s.count f n).pending = s.pending := rfl
@[simp] theorem count_free (s : State) (f : Fld) (n : Nat) : (s.count f n).free = s.free := rfl
@[simp] theorem count_gcount (s : State) (f : Fld) (n : Nat) : (s.count f n).gcount = s.gcount := rfl
@[simp] theorem count_hbm (s : State) (f : Fld) (n : Nat) : (s.count f n).hbm = s.hbm := rfl
@[simp] theorem count_spm (s : State) (f : Fld) (n : Nat) : (s.count f n).spm = s.spm := rfl
@[simp] theorem count_cores (s : State) (f : Fld) (n : Nat) : (s.count f n).cores = s.cores := rfl
@[simp] theorem count_coaches (s : State) (f : Fld) (n : Nat) : (s.count f n).coaches = s.coaches := rfl
@[simp] theorem count_vecs (s : State) (f : Fld) (n : Nat) : (s.count f n).vecs = s.vecs := rfl
@[simp] theorem count_mbox (s : State) (f : Fld) (n : Nat) : (s.count f n).mbox = s.mbox := rfl
@[simp] theorem count_inprog (s : State) (f : Fld) (n : Nat) : (s.count f n).inprog = s.inprog := rfl
@[simp] theorem count_lastCoach (s : State) (f : Fld) (n : Nat) : (s.count f n).lastCoach = s.lastCoach := rfl
@[simp] theorem count_xlate (s : State) (f : Fld) (n : Nat) : (s.count f n).xlate = s.xlate := rfl
@[simp] theorem count_tables (s : State) (f : Fld) (n : Nat) : (s.count f n).tables = s.tables := rfl
@[simp] theorem count_graphs (s : State) (f : Fld) (n : Nat) : (s.count f n).graphs = s.graphs := rfl
@[simp] theorem count_gs (s : State) (f : Fld) (n : Nat) : (s.count f n).gs = s.gs := rfl
@[simp] theorem count_sb (s : State) (f : Fld) (n : Nat) : (s.count f n).sb = s.sb := rfl
@[simp] theorem count_link (s : State) (f : Fld) (n : Nat) : (s.count f n).link = s.link := rfl
@[simp] theorem count_boot (s : State) (f : Fld) (n : Nat) : (s.count f n).boot = s.boot := rfl
@[simp] theorem count_fuses (s : State) (f : Fld) (n : Nat) : (s.count f n).fuses = s.fuses := rfl
@[simp] theorem count_pwr (s : State) (f : Fld) (n : Nat) : (s.count f n).pwr = s.pwr := rfl
@[simp] theorem count_svc (s : State) (f : Fld) (n : Nat) : (s.count f n).svc = s.svc := rfl
@[simp] theorem count_jtag (s : State) (f : Fld) (n : Nat) : (s.count f n).jtag = s.jtag := rfl
@[simp] theorem count_log (s : State) (f : Fld) (n : Nat) : (s.count f n).log = s.log := rfl
@[simp] theorem count_ledger (s : State) (f : Fld) (n : Nat) : (s.count f n).ledger = s.ledger := rfl
@[simp] theorem count_noc (s : State) (f : Fld) (n : Nat) : (s.count f n).noc = s.noc := rfl

/-! ### setWord -/

@[simp] theorem setWord_pending (s : State) (a v : Nat) : (s.setWord a v).pending = s.pending := rfl
@[simp] theorem setWord_free (s : State) (a v : Nat) : (s.setWord a v).free = s.free := rfl
@[simp] theorem setWord_gcount (s : State) (a v : Nat) : (s.setWord a v).gcount = s.gcount := rfl
@[simp] theorem setWord_hbm (s : State) (a v : Nat) : (s.setWord a v).hbm = s.hbm := rfl
@[simp] theorem setWord_spm (s : State) (a v : Nat) : (s.setWord a v).spm = s.spm := rfl
@[simp] theorem setWord_cores (s : State) (a v : Nat) : (s.setWord a v).cores = s.cores := rfl
@[simp] theorem setWord_coaches (s : State) (a v : Nat) : (s.setWord a v).coaches = s.coaches := rfl
@[simp] theorem setWord_vecs (s : State) (a v : Nat) : (s.setWord a v).vecs = s.vecs := rfl
@[simp] theorem setWord_mbox (s : State) (a v : Nat) : (s.setWord a v).mbox = s.mbox := rfl
@[simp] theorem setWord_inprog (s : State) (a v : Nat) : (s.setWord a v).inprog = s.inprog := rfl
@[simp] theorem setWord_lastCoach (s : State) (a v : Nat) : (s.setWord a v).lastCoach = s.lastCoach := rfl
@[simp] theorem setWord_xlate (s : State) (a v : Nat) : (s.setWord a v).xlate = s.xlate := rfl
@[simp] theorem setWord_tables (s : State) (a v : Nat) : (s.setWord a v).tables = s.tables := rfl
@[simp] theorem setWord_graphs (s : State) (a v : Nat) : (s.setWord a v).graphs = s.graphs := rfl
@[simp] theorem setWord_gs (s : State) (a v : Nat) : (s.setWord a v).gs = s.gs := rfl
@[simp] theorem setWord_sb (s : State) (a v : Nat) : (s.setWord a v).sb = s.sb := rfl
@[simp] theorem setWord_link (s : State) (a v : Nat) : (s.setWord a v).link = s.link := rfl
@[simp] theorem setWord_boot (s : State) (a v : Nat) : (s.setWord a v).boot = s.boot := rfl
@[simp] theorem setWord_fuses (s : State) (a v : Nat) : (s.setWord a v).fuses = s.fuses := rfl
@[simp] theorem setWord_pwr (s : State) (a v : Nat) : (s.setWord a v).pwr = s.pwr := rfl
@[simp] theorem setWord_svc (s : State) (a v : Nat) : (s.setWord a v).svc = s.svc := rfl
@[simp] theorem setWord_jtag (s : State) (a v : Nat) : (s.setWord a v).jtag = s.jtag := rfl
@[simp] theorem setWord_log (s : State) (a v : Nat) : (s.setWord a v).log = s.log := rfl
@[simp] theorem setWord_ledger (s : State) (a v : Nat) : (s.setWord a v).ledger = s.ledger := rfl
@[simp] theorem setWord_noc (s : State) (a v : Nat) : (s.setWord a v).noc = s.noc := rfl

/-! ### modCoach -/

@[simp] theorem modCoach_pending (s : State) (c : Nat) (f : Coach → Coach) : (s.modCoach c f).pending = s.pending := rfl
@[simp] theorem modCoach_free (s : State) (c : Nat) (f : Coach → Coach) : (s.modCoach c f).free = s.free := rfl
@[simp] theorem modCoach_gcount (s : State) (c : Nat) (f : Coach → Coach) : (s.modCoach c f).gcount = s.gcount := rfl
@[simp] theorem modCoach_regs (s : State) (c : Nat) (f : Coach → Coach) : (s.modCoach c f).regs = s.regs := rfl
@[simp] theorem modCoach_hbm (s : State) (c : Nat) (f : Coach → Coach) : (s.modCoach c f).hbm = s.hbm := rfl
@[simp] theorem modCoach_spm (s : State) (c : Nat) (f : Coach → Coach) : (s.modCoach c f).spm = s.spm := rfl
@[simp] theorem modCoach_cores (s : State) (c : Nat) (f : Coach → Coach) : (s.modCoach c f).cores = s.cores := rfl
@[simp] theorem modCoach_vecs (s : State) (c : Nat) (f : Coach → Coach) : (s.modCoach c f).vecs = s.vecs := rfl
@[simp] theorem modCoach_mbox (s : State) (c : Nat) (f : Coach → Coach) : (s.modCoach c f).mbox = s.mbox := rfl
@[simp] theorem modCoach_inprog (s : State) (c : Nat) (f : Coach → Coach) : (s.modCoach c f).inprog = s.inprog := rfl
@[simp] theorem modCoach_lastCoach (s : State) (c : Nat) (f : Coach → Coach) : (s.modCoach c f).lastCoach = s.lastCoach := rfl
@[simp] theorem modCoach_xlate (s : State) (c : Nat) (f : Coach → Coach) : (s.modCoach c f).xlate = s.xlate := rfl
@[simp] theorem modCoach_tables (s : State) (c : Nat) (f : Coach → Coach) : (s.modCoach c f).tables = s.tables := rfl
@[simp] theorem modCoach_graphs (s : State) (c : Nat) (f : Coach → Coach) : (s.modCoach c f).graphs = s.graphs := rfl
@[simp] theorem modCoach_gs (s : State) (c : Nat) (f : Coach → Coach) : (s.modCoach c f).gs = s.gs := rfl
@[simp] theorem modCoach_sb (s : State) (c : Nat) (f : Coach → Coach) : (s.modCoach c f).sb = s.sb := rfl
@[simp] theorem modCoach_link (s : State) (c : Nat) (f : Coach → Coach) : (s.modCoach c f).link = s.link := rfl
@[simp] theorem modCoach_boot (s : State) (c : Nat) (f : Coach → Coach) : (s.modCoach c f).boot = s.boot := rfl
@[simp] theorem modCoach_fuses (s : State) (c : Nat) (f : Coach → Coach) : (s.modCoach c f).fuses = s.fuses := rfl
@[simp] theorem modCoach_pwr (s : State) (c : Nat) (f : Coach → Coach) : (s.modCoach c f).pwr = s.pwr := rfl
@[simp] theorem modCoach_svc (s : State) (c : Nat) (f : Coach → Coach) : (s.modCoach c f).svc = s.svc := rfl
@[simp] theorem modCoach_jtag (s : State) (c : Nat) (f : Coach → Coach) : (s.modCoach c f).jtag = s.jtag := rfl
@[simp] theorem modCoach_log (s : State) (c : Nat) (f : Coach → Coach) : (s.modCoach c f).log = s.log := rfl
@[simp] theorem modCoach_ledger (s : State) (c : Nat) (f : Coach → Coach) : (s.modCoach c f).ledger = s.ledger := rfl
@[simp] theorem modCoach_noc (s : State) (c : Nat) (f : Coach → Coach) : (s.modCoach c f).noc = s.noc := rfl

/-! ### modCore -/

@[simp] theorem modCore_pending (s : State) (p : Nat) (f : Core → Core) : (s.modCore p f).pending = s.pending := rfl
@[simp] theorem modCore_free (s : State) (p : Nat) (f : Core → Core) : (s.modCore p f).free = s.free := rfl
@[simp] theorem modCore_gcount (s : State) (p : Nat) (f : Core → Core) : (s.modCore p f).gcount = s.gcount := rfl
@[simp] theorem modCore_regs (s : State) (p : Nat) (f : Core → Core) : (s.modCore p f).regs = s.regs := rfl
@[simp] theorem modCore_hbm (s : State) (p : Nat) (f : Core → Core) : (s.modCore p f).hbm = s.hbm := rfl
@[simp] theorem modCore_spm (s : State) (p : Nat) (f : Core → Core) : (s.modCore p f).spm = s.spm := rfl
@[simp] theorem modCore_coaches (s : State) (p : Nat) (f : Core → Core) : (s.modCore p f).coaches = s.coaches := rfl
@[simp] theorem modCore_vecs (s : State) (p : Nat) (f : Core → Core) : (s.modCore p f).vecs = s.vecs := rfl
@[simp] theorem modCore_mbox (s : State) (p : Nat) (f : Core → Core) : (s.modCore p f).mbox = s.mbox := rfl
@[simp] theorem modCore_inprog (s : State) (p : Nat) (f : Core → Core) : (s.modCore p f).inprog = s.inprog := rfl
@[simp] theorem modCore_lastCoach (s : State) (p : Nat) (f : Core → Core) : (s.modCore p f).lastCoach = s.lastCoach := rfl
@[simp] theorem modCore_xlate (s : State) (p : Nat) (f : Core → Core) : (s.modCore p f).xlate = s.xlate := rfl
@[simp] theorem modCore_tables (s : State) (p : Nat) (f : Core → Core) : (s.modCore p f).tables = s.tables := rfl
@[simp] theorem modCore_graphs (s : State) (p : Nat) (f : Core → Core) : (s.modCore p f).graphs = s.graphs := rfl
@[simp] theorem modCore_gs (s : State) (p : Nat) (f : Core → Core) : (s.modCore p f).gs = s.gs := rfl
@[simp] theorem modCore_sb (s : State) (p : Nat) (f : Core → Core) : (s.modCore p f).sb = s.sb := rfl
@[simp] theorem modCore_link (s : State) (p : Nat) (f : Core → Core) : (s.modCore p f).link = s.link := rfl
@[simp] theorem modCore_boot (s : State) (p : Nat) (f : Core → Core) : (s.modCore p f).boot = s.boot := rfl
@[simp] theorem modCore_fuses (s : State) (p : Nat) (f : Core → Core) : (s.modCore p f).fuses = s.fuses := rfl
@[simp] theorem modCore_pwr (s : State) (p : Nat) (f : Core → Core) : (s.modCore p f).pwr = s.pwr := rfl
@[simp] theorem modCore_svc (s : State) (p : Nat) (f : Core → Core) : (s.modCore p f).svc = s.svc := rfl
@[simp] theorem modCore_jtag (s : State) (p : Nat) (f : Core → Core) : (s.modCore p f).jtag = s.jtag := rfl
@[simp] theorem modCore_log (s : State) (p : Nat) (f : Core → Core) : (s.modCore p f).log = s.log := rfl
@[simp] theorem modCore_ledger (s : State) (p : Nat) (f : Core → Core) : (s.modCore p f).ledger = s.ledger := rfl
@[simp] theorem modCore_noc (s : State) (p : Nat) (f : Core → Core) : (s.modCore p f).noc = s.noc := rfl

/-! ### modPort -/

@[simp] theorem modPort_pending (s : State) (p : Nat) (f : Port → Port) : (s.modPort p f).pending = s.pending := rfl
@[simp] theorem modPort_free (s : State) (p : Nat) (f : Port → Port) : (s.modPort p f).free = s.free := rfl
@[simp] theorem modPort_gcount (s : State) (p : Nat) (f : Port → Port) : (s.modPort p f).gcount = s.gcount := rfl
@[simp] theorem modPort_regs (s : State) (p : Nat) (f : Port → Port) : (s.modPort p f).regs = s.regs := rfl
@[simp] theorem modPort_hbm (s : State) (p : Nat) (f : Port → Port) : (s.modPort p f).hbm = s.hbm := rfl
@[simp] theorem modPort_spm (s : State) (p : Nat) (f : Port → Port) : (s.modPort p f).spm = s.spm := rfl
@[simp] theorem modPort_cores (s : State) (p : Nat) (f : Port → Port) : (s.modPort p f).cores = s.cores := rfl
@[simp] theorem modPort_coaches (s : State) (p : Nat) (f : Port → Port) : (s.modPort p f).coaches = s.coaches := rfl
@[simp] theorem modPort_vecs (s : State) (p : Nat) (f : Port → Port) : (s.modPort p f).vecs = s.vecs := rfl
@[simp] theorem modPort_mbox (s : State) (p : Nat) (f : Port → Port) : (s.modPort p f).mbox = s.mbox := rfl
@[simp] theorem modPort_inprog (s : State) (p : Nat) (f : Port → Port) : (s.modPort p f).inprog = s.inprog := rfl
@[simp] theorem modPort_lastCoach (s : State) (p : Nat) (f : Port → Port) : (s.modPort p f).lastCoach = s.lastCoach := rfl
@[simp] theorem modPort_xlate (s : State) (p : Nat) (f : Port → Port) : (s.modPort p f).xlate = s.xlate := rfl
@[simp] theorem modPort_tables (s : State) (p : Nat) (f : Port → Port) : (s.modPort p f).tables = s.tables := rfl
@[simp] theorem modPort_graphs (s : State) (p : Nat) (f : Port → Port) : (s.modPort p f).graphs = s.graphs := rfl
@[simp] theorem modPort_gs (s : State) (p : Nat) (f : Port → Port) : (s.modPort p f).gs = s.gs := rfl
@[simp] theorem modPort_sb (s : State) (p : Nat) (f : Port → Port) : (s.modPort p f).sb = s.sb := rfl
@[simp] theorem modPort_boot (s : State) (p : Nat) (f : Port → Port) : (s.modPort p f).boot = s.boot := rfl
@[simp] theorem modPort_fuses (s : State) (p : Nat) (f : Port → Port) : (s.modPort p f).fuses = s.fuses := rfl
@[simp] theorem modPort_pwr (s : State) (p : Nat) (f : Port → Port) : (s.modPort p f).pwr = s.pwr := rfl
@[simp] theorem modPort_svc (s : State) (p : Nat) (f : Port → Port) : (s.modPort p f).svc = s.svc := rfl
@[simp] theorem modPort_jtag (s : State) (p : Nat) (f : Port → Port) : (s.modPort p f).jtag = s.jtag := rfl
@[simp] theorem modPort_log (s : State) (p : Nat) (f : Port → Port) : (s.modPort p f).log = s.log := rfl
@[simp] theorem modPort_ledger (s : State) (p : Nat) (f : Port → Port) : (s.modPort p f).ledger = s.ledger := rfl
@[simp] theorem modPort_noc (s : State) (p : Nat) (f : Port → Port) : (s.modPort p f).noc = s.noc := rfl

/-! ### draw -/

@[simp] theorem draw_pending (s : State) : (s.draw).pending = s.pending := rfl
@[simp] theorem draw_gcount (s : State) : (s.draw).gcount = s.gcount := rfl
@[simp] theorem draw_regs (s : State) : (s.draw).regs = s.regs := rfl
@[simp] theorem draw_hbm (s : State) : (s.draw).hbm = s.hbm := rfl
@[simp] theorem draw_spm (s : State) : (s.draw).spm = s.spm := rfl
@[simp] theorem draw_cores (s : State) : (s.draw).cores = s.cores := rfl
@[simp] theorem draw_coaches (s : State) : (s.draw).coaches = s.coaches := rfl
@[simp] theorem draw_vecs (s : State) : (s.draw).vecs = s.vecs := rfl
@[simp] theorem draw_mbox (s : State) : (s.draw).mbox = s.mbox := rfl
@[simp] theorem draw_inprog (s : State) : (s.draw).inprog = s.inprog := rfl
@[simp] theorem draw_lastCoach (s : State) : (s.draw).lastCoach = s.lastCoach := rfl
@[simp] theorem draw_xlate (s : State) : (s.draw).xlate = s.xlate := rfl
@[simp] theorem draw_tables (s : State) : (s.draw).tables = s.tables := rfl
@[simp] theorem draw_graphs (s : State) : (s.draw).graphs = s.graphs := rfl
@[simp] theorem draw_gs (s : State) : (s.draw).gs = s.gs := rfl
@[simp] theorem draw_sb (s : State) : (s.draw).sb = s.sb := rfl
@[simp] theorem draw_link (s : State) : (s.draw).link = s.link := rfl
@[simp] theorem draw_boot (s : State) : (s.draw).boot = s.boot := rfl
@[simp] theorem draw_fuses (s : State) : (s.draw).fuses = s.fuses := rfl
@[simp] theorem draw_pwr (s : State) : (s.draw).pwr = s.pwr := rfl
@[simp] theorem draw_svc (s : State) : (s.draw).svc = s.svc := rfl
@[simp] theorem draw_jtag (s : State) : (s.draw).jtag = s.jtag := rfl
@[simp] theorem draw_log (s : State) : (s.draw).log = s.log := rfl
@[simp] theorem draw_ledger (s : State) : (s.draw).ledger = s.ledger := rfl
@[simp] theorem draw_noc (s : State) : (s.draw).noc = s.noc := rfl

/-! ### alertCause -/

@[simp] theorem alertCause_pending (s : State) (n : Nat) : (s.alertCause n).pending = s.pending := rfl
@[simp] theorem alertCause_free (s : State) (n : Nat) : (s.alertCause n).free = s.free := rfl
@[simp] theorem alertCause_gcount (s : State) (n : Nat) : (s.alertCause n).gcount = s.gcount := rfl
@[simp] theorem alertCause_regs (s : State) (n : Nat) : (s.alertCause n).regs = s.regs := rfl
@[simp] theorem alertCause_hbm (s : State) (n : Nat) : (s.alertCause n).hbm = s.hbm := rfl
@[simp] theorem alertCause_spm (s : State) (n : Nat) : (s.alertCause n).spm = s.spm := rfl
@[simp] theorem alertCause_cores (s : State) (n : Nat) : (s.alertCause n).cores = s.cores := rfl
@[simp] theorem alertCause_coaches (s : State) (n : Nat) : (s.alertCause n).coaches = s.coaches := rfl
@[simp] theorem alertCause_vecs (s : State) (n : Nat) : (s.alertCause n).vecs = s.vecs := rfl
@[simp] theorem alertCause_mbox (s : State) (n : Nat) : (s.alertCause n).mbox = s.mbox := rfl
@[simp] theorem alertCause_inprog (s : State) (n : Nat) : (s.alertCause n).inprog = s.inprog := rfl
@[simp] theorem alertCause_lastCoach (s : State) (n : Nat) : (s.alertCause n).lastCoach = s.lastCoach := rfl
@[simp] theorem alertCause_xlate (s : State) (n : Nat) : (s.alertCause n).xlate = s.xlate := rfl
@[simp] theorem alertCause_tables (s : State) (n : Nat) : (s.alertCause n).tables = s.tables := rfl
@[simp] theorem alertCause_graphs (s : State) (n : Nat) : (s.alertCause n).graphs = s.graphs := rfl
@[simp] theorem alertCause_gs (s : State) (n : Nat) : (s.alertCause n).gs = s.gs := rfl
@[simp] theorem alertCause_sb (s : State) (n : Nat) : (s.alertCause n).sb = s.sb := rfl
@[simp] theorem alertCause_link (s : State) (n : Nat) : (s.alertCause n).link = s.link := rfl
@[simp] theorem alertCause_boot (s : State) (n : Nat) : (s.alertCause n).boot = s.boot := rfl
@[simp] theorem alertCause_fuses (s : State) (n : Nat) : (s.alertCause n).fuses = s.fuses := rfl
@[simp] theorem alertCause_pwr (s : State) (n : Nat) : (s.alertCause n).pwr = s.pwr := rfl
@[simp] theorem alertCause_jtag (s : State) (n : Nat) : (s.alertCause n).jtag = s.jtag := rfl
@[simp] theorem alertCause_log (s : State) (n : Nat) : (s.alertCause n).log = s.log := rfl
@[simp] theorem alertCause_ledger (s : State) (n : Nat) : (s.alertCause n).ledger = s.ledger := rfl
@[simp] theorem alertCause_noc (s : State) (n : Nat) : (s.alertCause n).noc = s.noc := rfl

/-! ### extendM -/

@[simp] theorem extendM_pending (s : State) (k : Nat) (d : List Byte) : (s.extendM k d).pending = s.pending := rfl
@[simp] theorem extendM_free (s : State) (k : Nat) (d : List Byte) : (s.extendM k d).free = s.free := rfl
@[simp] theorem extendM_gcount (s : State) (k : Nat) (d : List Byte) : (s.extendM k d).gcount = s.gcount := rfl
@[simp] theorem extendM_regs (s : State) (k : Nat) (d : List Byte) : (s.extendM k d).regs = s.regs := rfl
@[simp] theorem extendM_hbm (s : State) (k : Nat) (d : List Byte) : (s.extendM k d).hbm = s.hbm := rfl
@[simp] theorem extendM_spm (s : State) (k : Nat) (d : List Byte) : (s.extendM k d).spm = s.spm := rfl
@[simp] theorem extendM_cores (s : State) (k : Nat) (d : List Byte) : (s.extendM k d).cores = s.cores := rfl
@[simp] theorem extendM_coaches (s : State) (k : Nat) (d : List Byte) : (s.extendM k d).coaches = s.coaches := rfl
@[simp] theorem extendM_vecs (s : State) (k : Nat) (d : List Byte) : (s.extendM k d).vecs = s.vecs := rfl
@[simp] theorem extendM_mbox (s : State) (k : Nat) (d : List Byte) : (s.extendM k d).mbox = s.mbox := rfl
@[simp] theorem extendM_inprog (s : State) (k : Nat) (d : List Byte) : (s.extendM k d).inprog = s.inprog := rfl
@[simp] theorem extendM_lastCoach (s : State) (k : Nat) (d : List Byte) : (s.extendM k d).lastCoach = s.lastCoach := rfl
@[simp] theorem extendM_xlate (s : State) (k : Nat) (d : List Byte) : (s.extendM k d).xlate = s.xlate := rfl
@[simp] theorem extendM_tables (s : State) (k : Nat) (d : List Byte) : (s.extendM k d).tables = s.tables := rfl
@[simp] theorem extendM_graphs (s : State) (k : Nat) (d : List Byte) : (s.extendM k d).graphs = s.graphs := rfl
@[simp] theorem extendM_gs (s : State) (k : Nat) (d : List Byte) : (s.extendM k d).gs = s.gs := rfl
@[simp] theorem extendM_sb (s : State) (k : Nat) (d : List Byte) : (s.extendM k d).sb = s.sb := rfl
@[simp] theorem extendM_link (s : State) (k : Nat) (d : List Byte) : (s.extendM k d).link = s.link := rfl
@[simp] theorem extendM_fuses (s : State) (k : Nat) (d : List Byte) : (s.extendM k d).fuses = s.fuses := rfl
@[simp] theorem extendM_pwr (s : State) (k : Nat) (d : List Byte) : (s.extendM k d).pwr = s.pwr := rfl
@[simp] theorem extendM_svc (s : State) (k : Nat) (d : List Byte) : (s.extendM k d).svc = s.svc := rfl
@[simp] theorem extendM_jtag (s : State) (k : Nat) (d : List Byte) : (s.extendM k d).jtag = s.jtag := rfl
@[simp] theorem extendM_log (s : State) (k : Nat) (d : List Byte) : (s.extendM k d).log = s.log := rfl
@[simp] theorem extendM_ledger (s : State) (k : Nat) (d : List Byte) : (s.extendM k d).ledger = s.ledger := rfl
@[simp] theorem extendM_noc (s : State) (k : Nat) (d : List Byte) : (s.extendM k d).noc = s.noc := rfl

/-! ### extendCm -/

@[simp] theorem extendCm_pending (s : State) (c : Nat) (d : List Byte) : (s.extendCm c d).pending = s.pending := rfl
@[simp] theorem extendCm_free (s : State) (c : Nat) (d : List Byte) : (s.extendCm c d).free = s.free := rfl
@[simp] theorem extendCm_gcount (s : State) (c : Nat) (d : List Byte) : (s.extendCm c d).gcount = s.gcount := rfl
@[simp] theorem extendCm_regs (s : State) (c : Nat) (d : List Byte) : (s.extendCm c d).regs = s.regs := rfl
@[simp] theorem extendCm_hbm (s : State) (c : Nat) (d : List Byte) : (s.extendCm c d).hbm = s.hbm := rfl
@[simp] theorem extendCm_spm (s : State) (c : Nat) (d : List Byte) : (s.extendCm c d).spm = s.spm := rfl
@[simp] theorem extendCm_cores (s : State) (c : Nat) (d : List Byte) : (s.extendCm c d).cores = s.cores := rfl
@[simp] theorem extendCm_vecs (s : State) (c : Nat) (d : List Byte) : (s.extendCm c d).vecs = s.vecs := rfl
@[simp] theorem extendCm_mbox (s : State) (c : Nat) (d : List Byte) : (s.extendCm c d).mbox = s.mbox := rfl
@[simp] theorem extendCm_inprog (s : State) (c : Nat) (d : List Byte) : (s.extendCm c d).inprog = s.inprog := rfl
@[simp] theorem extendCm_lastCoach (s : State) (c : Nat) (d : List Byte) : (s.extendCm c d).lastCoach = s.lastCoach := rfl
@[simp] theorem extendCm_xlate (s : State) (c : Nat) (d : List Byte) : (s.extendCm c d).xlate = s.xlate := rfl
@[simp] theorem extendCm_tables (s : State) (c : Nat) (d : List Byte) : (s.extendCm c d).tables = s.tables := rfl
@[simp] theorem extendCm_graphs (s : State) (c : Nat) (d : List Byte) : (s.extendCm c d).graphs = s.graphs := rfl
@[simp] theorem extendCm_gs (s : State) (c : Nat) (d : List Byte) : (s.extendCm c d).gs = s.gs := rfl
@[simp] theorem extendCm_sb (s : State) (c : Nat) (d : List Byte) : (s.extendCm c d).sb = s.sb := rfl
@[simp] theorem extendCm_link (s : State) (c : Nat) (d : List Byte) : (s.extendCm c d).link = s.link := rfl
@[simp] theorem extendCm_boot (s : State) (c : Nat) (d : List Byte) : (s.extendCm c d).boot = s.boot := rfl
@[simp] theorem extendCm_fuses (s : State) (c : Nat) (d : List Byte) : (s.extendCm c d).fuses = s.fuses := rfl
@[simp] theorem extendCm_pwr (s : State) (c : Nat) (d : List Byte) : (s.extendCm c d).pwr = s.pwr := rfl
@[simp] theorem extendCm_svc (s : State) (c : Nat) (d : List Byte) : (s.extendCm c d).svc = s.svc := rfl
@[simp] theorem extendCm_jtag (s : State) (c : Nat) (d : List Byte) : (s.extendCm c d).jtag = s.jtag := rfl
@[simp] theorem extendCm_log (s : State) (c : Nat) (d : List Byte) : (s.extendCm c d).log = s.log := rfl
@[simp] theorem extendCm_ledger (s : State) (c : Nat) (d : List Byte) : (s.extendCm c d).ledger = s.ledger := rfl
@[simp] theorem extendCm_noc (s : State) (c : Nat) (d : List Byte) : (s.extendCm c d).noc = s.noc := rfl

/-! ### modGraph -/

@[simp] theorem modGraph_pending (s : State) (g : Nat) (f : Graph → Graph) : (s.modGraph g f).pending = s.pending := rfl
@[simp] theorem modGraph_free (s : State) (g : Nat) (f : Graph → Graph) : (s.modGraph g f).free = s.free := rfl
@[simp] theorem modGraph_gcount (s : State) (g : Nat) (f : Graph → Graph) : (s.modGraph g f).gcount = s.gcount := rfl
@[simp] theorem modGraph_regs (s : State) (g : Nat) (f : Graph → Graph) : (s.modGraph g f).regs = s.regs := rfl
@[simp] theorem modGraph_hbm (s : State) (g : Nat) (f : Graph → Graph) : (s.modGraph g f).hbm = s.hbm := rfl
@[simp] theorem modGraph_spm (s : State) (g : Nat) (f : Graph → Graph) : (s.modGraph g f).spm = s.spm := rfl
@[simp] theorem modGraph_cores (s : State) (g : Nat) (f : Graph → Graph) : (s.modGraph g f).cores = s.cores := rfl
@[simp] theorem modGraph_coaches (s : State) (g : Nat) (f : Graph → Graph) : (s.modGraph g f).coaches = s.coaches := rfl
@[simp] theorem modGraph_vecs (s : State) (g : Nat) (f : Graph → Graph) : (s.modGraph g f).vecs = s.vecs := rfl
@[simp] theorem modGraph_mbox (s : State) (g : Nat) (f : Graph → Graph) : (s.modGraph g f).mbox = s.mbox := rfl
@[simp] theorem modGraph_inprog (s : State) (g : Nat) (f : Graph → Graph) : (s.modGraph g f).inprog = s.inprog := rfl
@[simp] theorem modGraph_lastCoach (s : State) (g : Nat) (f : Graph → Graph) : (s.modGraph g f).lastCoach = s.lastCoach := rfl
@[simp] theorem modGraph_xlate (s : State) (g : Nat) (f : Graph → Graph) : (s.modGraph g f).xlate = s.xlate := rfl
@[simp] theorem modGraph_tables (s : State) (g : Nat) (f : Graph → Graph) : (s.modGraph g f).tables = s.tables := rfl
@[simp] theorem modGraph_gs (s : State) (g : Nat) (f : Graph → Graph) : (s.modGraph g f).gs = s.gs := rfl
@[simp] theorem modGraph_sb (s : State) (g : Nat) (f : Graph → Graph) : (s.modGraph g f).sb = s.sb := rfl
@[simp] theorem modGraph_link (s : State) (g : Nat) (f : Graph → Graph) : (s.modGraph g f).link = s.link := rfl
@[simp] theorem modGraph_boot (s : State) (g : Nat) (f : Graph → Graph) : (s.modGraph g f).boot = s.boot := rfl
@[simp] theorem modGraph_fuses (s : State) (g : Nat) (f : Graph → Graph) : (s.modGraph g f).fuses = s.fuses := rfl
@[simp] theorem modGraph_pwr (s : State) (g : Nat) (f : Graph → Graph) : (s.modGraph g f).pwr = s.pwr := rfl
@[simp] theorem modGraph_svc (s : State) (g : Nat) (f : Graph → Graph) : (s.modGraph g f).svc = s.svc := rfl
@[simp] theorem modGraph_jtag (s : State) (g : Nat) (f : Graph → Graph) : (s.modGraph g f).jtag = s.jtag := rfl
@[simp] theorem modGraph_log (s : State) (g : Nat) (f : Graph → Graph) : (s.modGraph g f).log = s.log := rfl
@[simp] theorem modGraph_ledger (s : State) (g : Nat) (f : Graph → Graph) : (s.modGraph g f).ledger = s.ledger := rfl
@[simp] theorem modGraph_noc (s : State) (g : Nat) (f : Graph → Graph) : (s.modGraph g f).noc = s.noc := rfl

/-! ### modColl -/

@[simp] theorem modColl_pending (s : State) (x : Nat) (f : Coll → Coll) : (s.modColl x f).pending = s.pending := rfl
@[simp] theorem modColl_free (s : State) (x : Nat) (f : Coll → Coll) : (s.modColl x f).free = s.free := rfl
@[simp] theorem modColl_gcount (s : State) (x : Nat) (f : Coll → Coll) : (s.modColl x f).gcount = s.gcount := rfl
@[simp] theorem modColl_regs (s : State) (x : Nat) (f : Coll → Coll) : (s.modColl x f).regs = s.regs := rfl
@[simp] theorem modColl_hbm (s : State) (x : Nat) (f : Coll → Coll) : (s.modColl x f).hbm = s.hbm := rfl
@[simp] theorem modColl_spm (s : State) (x : Nat) (f : Coll → Coll) : (s.modColl x f).spm = s.spm := rfl
@[simp] theorem modColl_cores (s : State) (x : Nat) (f : Coll → Coll) : (s.modColl x f).cores = s.cores := rfl
@[simp] theorem modColl_coaches (s : State) (x : Nat) (f : Coll → Coll) : (s.modColl x f).coaches = s.coaches := rfl
@[simp] theorem modColl_vecs (s : State) (x : Nat) (f : Coll → Coll) : (s.modColl x f).vecs = s.vecs := rfl
@[simp] theorem modColl_mbox (s : State) (x : Nat) (f : Coll → Coll) : (s.modColl x f).mbox = s.mbox := rfl
@[simp] theorem modColl_inprog (s : State) (x : Nat) (f : Coll → Coll) : (s.modColl x f).inprog = s.inprog := rfl
@[simp] theorem modColl_lastCoach (s : State) (x : Nat) (f : Coll → Coll) : (s.modColl x f).lastCoach = s.lastCoach := rfl
@[simp] theorem modColl_xlate (s : State) (x : Nat) (f : Coll → Coll) : (s.modColl x f).xlate = s.xlate := rfl
@[simp] theorem modColl_tables (s : State) (x : Nat) (f : Coll → Coll) : (s.modColl x f).tables = s.tables := rfl
@[simp] theorem modColl_graphs (s : State) (x : Nat) (f : Coll → Coll) : (s.modColl x f).graphs = s.graphs := rfl
@[simp] theorem modColl_gs (s : State) (x : Nat) (f : Coll → Coll) : (s.modColl x f).gs = s.gs := rfl
@[simp] theorem modColl_sb (s : State) (x : Nat) (f : Coll → Coll) : (s.modColl x f).sb = s.sb := rfl
@[simp] theorem modColl_boot (s : State) (x : Nat) (f : Coll → Coll) : (s.modColl x f).boot = s.boot := rfl
@[simp] theorem modColl_fuses (s : State) (x : Nat) (f : Coll → Coll) : (s.modColl x f).fuses = s.fuses := rfl
@[simp] theorem modColl_pwr (s : State) (x : Nat) (f : Coll → Coll) : (s.modColl x f).pwr = s.pwr := rfl
@[simp] theorem modColl_svc (s : State) (x : Nat) (f : Coll → Coll) : (s.modColl x f).svc = s.svc := rfl
@[simp] theorem modColl_jtag (s : State) (x : Nat) (f : Coll → Coll) : (s.modColl x f).jtag = s.jtag := rfl
@[simp] theorem modColl_log (s : State) (x : Nat) (f : Coll → Coll) : (s.modColl x f).log = s.log := rfl
@[simp] theorem modColl_ledger (s : State) (x : Nat) (f : Coll → Coll) : (s.modColl x f).ledger = s.ledger := rfl
@[simp] theorem modColl_noc (s : State) (x : Nat) (f : Coll → Coll) : (s.modColl x f).noc = s.noc := rfl

/-! ### enterRom -/

@[simp] theorem enterRom_pending (s : State) (st : Nat) : (s.enterRom st).pending = s.pending := rfl
@[simp] theorem enterRom_free (s : State) (st : Nat) : (s.enterRom st).free = s.free := rfl
@[simp] theorem enterRom_gcount (s : State) (st : Nat) : (s.enterRom st).gcount = s.gcount := rfl
@[simp] theorem enterRom_hbm (s : State) (st : Nat) : (s.enterRom st).hbm = s.hbm := rfl
@[simp] theorem enterRom_spm (s : State) (st : Nat) : (s.enterRom st).spm = s.spm := rfl
@[simp] theorem enterRom_cores (s : State) (st : Nat) : (s.enterRom st).cores = s.cores := rfl
@[simp] theorem enterRom_coaches (s : State) (st : Nat) : (s.enterRom st).coaches = s.coaches := rfl
@[simp] theorem enterRom_vecs (s : State) (st : Nat) : (s.enterRom st).vecs = s.vecs := rfl
@[simp] theorem enterRom_mbox (s : State) (st : Nat) : (s.enterRom st).mbox = s.mbox := rfl
@[simp] theorem enterRom_inprog (s : State) (st : Nat) : (s.enterRom st).inprog = s.inprog := rfl
@[simp] theorem enterRom_lastCoach (s : State) (st : Nat) : (s.enterRom st).lastCoach = s.lastCoach := rfl
@[simp] theorem enterRom_xlate (s : State) (st : Nat) : (s.enterRom st).xlate = s.xlate := rfl
@[simp] theorem enterRom_tables (s : State) (st : Nat) : (s.enterRom st).tables = s.tables := rfl
@[simp] theorem enterRom_graphs (s : State) (st : Nat) : (s.enterRom st).graphs = s.graphs := rfl
@[simp] theorem enterRom_gs (s : State) (st : Nat) : (s.enterRom st).gs = s.gs := rfl
@[simp] theorem enterRom_sb (s : State) (st : Nat) : (s.enterRom st).sb = s.sb := rfl
@[simp] theorem enterRom_link (s : State) (st : Nat) : (s.enterRom st).link = s.link := rfl
@[simp] theorem enterRom_boot (s : State) (st : Nat) : (s.enterRom st).boot = s.boot := rfl
@[simp] theorem enterRom_fuses (s : State) (st : Nat) : (s.enterRom st).fuses = s.fuses := rfl
@[simp] theorem enterRom_pwr (s : State) (st : Nat) : (s.enterRom st).pwr = s.pwr := rfl
@[simp] theorem enterRom_svc (s : State) (st : Nat) : (s.enterRom st).svc = s.svc := rfl
@[simp] theorem enterRom_jtag (s : State) (st : Nat) : (s.enterRom st).jtag = s.jtag := rfl
@[simp] theorem enterRom_log (s : State) (st : Nat) : (s.enterRom st).log = s.log := rfl
@[simp] theorem enterRom_ledger (s : State) (st : Nat) : (s.enterRom st).ledger = s.ledger := rfl
@[simp] theorem enterRom_noc (s : State) (st : Nat) : (s.enterRom st).noc = s.noc := rfl

end Sys2Proof.Machine
end

