-- ==== Sys2Proof/Laws/UpdControllers.lean ====
section
/-!
SUPPORT. What each operation of Machine/Controllers.lean may change.
-/
namespace Sys2Proof.Machine

theorem State.mcErr_upd {F : List Part} {s₀ s : State} (m : Nat) (c : Nat) (a : Nat) (cause : Nat) (cls : Nat) (sev : Nat) (h : Upd F s₀ s) (hF : Part.Sub [.regs, .vecs, .gs, .link, .svc, .log] F) :
    Upd F s₀ (State.mcErr s m c a cause cls sev) := by
  refine Upd.by_ h ?_ hF
  clear h hF
  revert s
  intro s₀
  have h := Upd.refl (F := [.regs, .vecs, .gs, .link, .svc, .log]) s₀
  delta State.mcErr
  repeat' (first
    | with_reducible assumption
    | ((with_reducible apply Part.Sub.of); rfl)
    | intro s
    | lift_lets -underBinder
    | with_reducible apply State.capture_upd
    | with_reducible apply State.raise_upd)

theorem State.answerUnmapped_upd {F : List Part} {s₀ s : State} (a : Nat) (h : Upd F s₀ s) (hF : Part.Sub [.regs, .vecs, .gs, .link, .svc, .log] F) :
    Upd F s₀ (State.answerUnmapped s a) := by
  refine Upd.by_ h ?_ hF
  clear h hF
  revert s
  intro s₀
  have h := Upd.refl (F := [.regs, .vecs, .gs, .link, .svc, .log]) s₀
  delta State.answerUnmapped
  repeat' (first
    | with_reducible assumption
    | ((with_reducible apply Part.Sub.of); rfl)
    | intro s
    | lift_lets -underBinder
    | with_reducible apply State.bump_upd
    | with_reducible apply State.mcErr_upd)

theorem State.setBucket_upd {F : List Part} {s₀ s : State} (m : Nat) (k : Nat) (t : Int) (h : Upd F s₀ s) (hF : Part.Sub [.hbm] F) :
    Upd F s₀ (State.setBucket s m k t) := by
  refine Upd.by_ h ?_ hF
  clear h hF
  revert s
  intro s₀
  have h := Upd.refl (F := [.hbm]) s₀
  delta State.setBucket
  repeat' (first
    | ((with_reducible apply Part.Sub.of); rfl)
    | with_reducible apply MemUpd.refl
    | intro s
    | lift_lets -underBinder
    | (with_reducible apply Upd.setHbm; case h => with_reducible assumption))

theorem State.settleBucket_upd {F : List Part} {s₀ s : State} (m : Nat) (k : Nat) (h : Upd F s₀ s) (hF : Part.Sub [.hbm] F) :
    Upd F s₀ (State.settleBucket s m k) := by
  refine Upd.by_ h ?_ hF
  clear h hF
  revert s
  intro s₀
  have h := Upd.refl (F := [.hbm]) s₀
  delta State.settleBucket
  repeat' (first
    | with_reducible assumption
    | ((with_reducible apply Part.Sub.of); rfl)
    | with_reducible apply State.setBucket_upd)

theorem State.charged_upd {F : List Part} {s₀ s : State} (m : Nat) (k : Nat) (n : Nat) (fine : Bool) (h : Upd F s₀ s) (hF : Part.Sub [.regs, .hbm] F) :
    Upd F s₀ (State.charged s m k n fine) := by
  refine Upd.by_ h ?_ hF
  clear h hF
  revert s
  intro s₀
  have h := Upd.refl (F := [.regs, .hbm]) s₀
  delta State.charged
  repeat' (first
    | with_reducible assumption
    | ((with_reducible apply Part.Sub.of); rfl)
    | (intro s; refine (fun h => ?_) (?_ : Upd [.regs, .hbm] s₀ s); rotate_left; subst s; rotate_left)
    | intro s
    | lift_lets -underBinder
    | with_reducible apply Upd.ite
    | with_reducible apply State.bump_upd
    | with_reducible apply State.setBucket_upd)

theorem State.countRead_upd {F : List Part} {s₀ s : State} (a : Nat) (n : Nat) (k : Nat) (fine : Bool) (h : Upd F s₀ s) (hF : Part.Sub [.regs, .hbm] F) :
    Upd F s₀ (State.countRead s a n k fine) := by
  refine Upd.by_ h ?_ hF
  clear h hF
  revert s
  intro s₀
  have h := Upd.refl (F := [.regs, .hbm]) s₀
  delta State.countRead
  repeat' (first
    | with_reducible assumption
    | ((with_reducible apply Part.Sub.of); rfl)
    | intro s
    | lift_lets -underBinder
    | (with_reducible apply Upd.foldl; case' hf => intro _ _ h)
    | with_reducible apply State.bump_upd
    | with_reducible apply State.charged_upd)

theorem State.countWrite_upd {F : List Part} {s₀ s : State} (a : Nat) (n : Nat) (k : Nat) (fine : Bool) (h : Upd F s₀ s) (hF : Part.Sub [.regs, .hbm] F) :
    Upd F s₀ (State.countWrite s a n k fine) := by
  refine Upd.by_ h ?_ hF
  clear h hF
  revert s
  intro s₀
  have h := Upd.refl (F := [.regs, .hbm]) s₀
  delta State.countWrite
  repeat' (first
    | with_reducible assumption
    | ((with_reducible apply Part.Sub.of); rfl)
    | (intro s; refine (fun h => ?_) (?_ : Upd [.regs, .hbm] s₀ s); rotate_left; subst s; rotate_left)
    | intro s
    | lift_lets -underBinder
    | with_reducible apply Upd.ite
    | (with_reducible apply Upd.foldl; case' hf => intro _ _ h)
    | with_reducible apply State.bump_upd
    | with_reducible apply State.charged_upd)

theorem State.bulkSend_upd {F : List Part} {s₀ s : State} (core : Nat) (ps : List (Nat × Nat)) (write : Bool) (h : Upd F s₀ s) (hF : Part.Sub [.noc] F) :
    Upd F s₀ (State.bulkSend s core ps write) := by
  refine Upd.by_ h ?_ hF
  clear h hF
  revert s
  intro s₀
  have h := Upd.refl (F := [.noc]) s₀
  delta State.bulkSend
  repeat' (first
    | with_reducible assumption
    | ((with_reducible apply Part.Sub.of); rfl)
    | (with_reducible apply Upd.foldl; case' hf => intro _ _ h)
    | with_reducible apply State.qSend_upd)

theorem State.bulkAccepted_upd {F : List Part} {s₀ s : State} (core : Nat) (ps : List (Nat × Nat)) (write : Bool) (h : Upd F s₀ s) (hF : Part.Sub [.noc] F) :
    Upd F s₀ (State.bulkAccepted s core ps write) := by
  refine Upd.by_ h ?_ hF
  clear h hF
  revert s
  intro s₀
  have h := Upd.refl (F := [.noc]) s₀
  delta State.bulkAccepted
  repeat' (first
    | with_reducible assumption
    | ((with_reducible apply Part.Sub.of); rfl)
    | (with_reducible apply Upd.foldl; case' hf => intro _ _ h)
    | with_reducible apply State.qLeave_upd)

theorem State.countFine_upd {F : List Part} {s₀ s : State} (a : Nat) (n : Nat) (h : Upd F s₀ s) (hF : Part.Sub [.regs] F) :
    Upd F s₀ (State.countFine s a n) := by
  refine Upd.by_ h ?_ hF
  clear h hF
  revert s
  intro s₀
  have h := Upd.refl (F := [.regs]) s₀
  delta State.countFine
  repeat' (first
    | with_reducible assumption
    | ((with_reducible apply Part.Sub.of); rfl)
    | (intro s; refine (fun h => ?_) (?_ : Upd [.regs] s₀ s); rotate_left; subst s; rotate_left)
    | intro s
    | lift_lets -underBinder
    | with_reducible apply Upd.ite
    | (with_reducible apply Upd.foldl; case' hf => intro _ _ h)
    | with_reducible apply State.bump_upd)

theorem State.retireRow_upd {F : List Part} {s₀ s : State} (m : Nat) (c : Nat) (row : Nat) (a : Nat) (copy : Nat) (lines : List Nat) (h : Upd F s₀ s) (hF : Part.Sub [.regs, .hbm, .vecs, .gs, .link, .svc, .log] F) :
    Upd F s₀ (State.retireRow s m c row a copy lines) := by
  refine Upd.by_ h ?_ hF
  clear h hF
  revert s
  intro s₀
  have h := Upd.refl (F := [.regs, .hbm, .vecs, .gs, .link, .svc, .log]) s₀
  delta State.retireRow
  repeat' (first
    | with_reducible assumption
    | ((with_reducible apply Part.Sub.of); rfl)
    | with_reducible apply MemUpd.refl
    | (intro s; refine (fun h => ?_) (?_ : Upd [.regs, .hbm, .vecs, .gs, .link, .svc, .log] s₀ s); rotate_left; subst s; rotate_left)
    | (intro s; have _h : List _ := s; clear _h; clear_value s)
    | intro s
    | lift_lets -underBinder
    | with_reducible apply Upd.ite
    | (with_reducible apply Upd.setHbm; case h => with_reducible assumption)
    | with_reducible apply State.mcErr_upd
    | with_reducible apply State.set_upd
    | with_reducible apply State.bump_upd
    | with_reducible apply State.raise_upd)

theorem State.markBad_upd {F : List Part} {s₀ s : State} (l : Nat) (k : Nat) (h : Upd F s₀ s) (hF : Part.Sub [.hbm] F) :
    Upd F s₀ (State.markBad s l k) := by
  refine Upd.by_ h ?_ hF
  clear h hF
  revert s
  intro s₀
  have h := Upd.refl (F := [.hbm]) s₀
  delta State.markBad
  repeat' (first
    | ((with_reducible apply Part.Sub.of); rfl)
    | with_reducible apply MemUpd.refl
    | intro s
    | lift_lets -underBinder
    | (with_reducible apply Upd.setHbm; case h => with_reducible assumption))

theorem State.queueRebuild_upd {F : List Part} {s₀ s : State} (l : Nat) (h : Upd F s₀ s) (hF : Part.Sub [.regs, .hbm] F) :
    Upd F s₀ (State.queueRebuild s l) := by
  refine Upd.by_ h ?_ hF
  clear h hF
  revert s
  intro s₀
  have h := Upd.refl (F := [.regs, .hbm]) s₀
  delta State.queueRebuild
  repeat' (first
    | with_reducible assumption
    | ((with_reducible apply Part.Sub.of); rfl)
    | with_reducible apply MemUpd.refl
    | (intro s; refine (fun h => ?_) (?_ : Upd [.regs, .hbm] s₀ s); rotate_left; subst s; rotate_left)
    | intro s
    | lift_lets -underBinder
    | with_reducible apply Upd.ite
    | (with_reducible apply Upd.setHbm; case h => with_reducible assumption)
    | with_reducible apply State.bump_upd
    | with_reducible apply State.set_upd
    | split)

theorem State.foundBad_upd {F : List Part} {s₀ s : State} (m : Nat) (l : Nat) (k : Nat) (h : Upd F s₀ s) (hF : Part.Sub [.regs, .hbm] F) :
    Upd F s₀ (State.foundBad s m l k) := by
  refine Upd.by_ h ?_ hF
  clear h hF
  revert s
  intro s₀
  have h := Upd.refl (F := [.regs, .hbm]) s₀
  delta State.foundBad
  repeat' (first
    | with_reducible assumption
    | ((with_reducible apply Part.Sub.of); rfl)
    | with_reducible apply State.markBad_upd
    | with_reducible apply State.bump_upd)

theorem State.corrected_upd {F : List Part} {s₀ s : State} (m : Nat) (c : Nat) (row : Nat) (a : Nat) (copy : Nat) (lines : List Nat) (h : Upd F s₀ s) (hF : Part.Sub [.regs, .hbm, .vecs, .gs, .link, .svc, .log] F) :
    Upd F s₀ (State.corrected s m c row a copy lines) := by
  refine Upd.by_ h ?_ hF
  clear h hF
  revert s
  intro s₀
  have h := Upd.refl (F := [.regs, .hbm, .vecs, .gs, .link, .svc, .log]) s₀
  delta State.corrected
  repeat' (first
    | with_reducible assumption
    | ((with_reducible apply Part.Sub.of); rfl)
    | with_reducible apply MemUpd.refl
    | (intro s; refine (fun h => ?_) (?_ : Upd [.regs, .hbm, .vecs, .gs, .link, .svc, .log] s₀ s); rotate_left; subst s; rotate_left)
    | intro s
    | lift_lets -underBinder
    | with_reducible apply Upd.ite
    | (with_reducible apply Upd.setHbm; case h => with_reducible assumption)
    | with_reducible apply State.bump_upd
    | with_reducible apply State.retireRow_upd)

theorem State.mirrorFound_upd {F : List Part} {s₀ s : State} (l : Nat) (h : Upd F s₀ s) (hF : Part.Sub [.regs, .hbm, .vecs, .gs, .link, .svc, .log] F) :
    Upd F s₀ (State.mirrorFound s l) := by
  refine Upd.by_ h ?_ hF
  clear h hF
  revert s
  intro s₀
  have h := Upd.refl (F := [.regs, .hbm, .vecs, .gs, .link, .svc, .log]) s₀
  delta State.mirrorFound
  repeat' (first
    | with_reducible assumption
    | ((with_reducible apply Part.Sub.of); rfl)
    | intro s
    | lift_lets -underBinder
    | with_reducible apply Upd.ite
    | with_reducible apply State.foundBad_upd
    | with_reducible apply State.mcErr_upd)

theorem State.takeLatent_upd {F : List Part} {s₀ s : State} (l : Nat) (h : Upd F s₀ s) (hF : Part.Sub [.hbm] F) :
    Upd F s₀ (State.takeLatent s l) := by
  refine Upd.by_ h ?_ hF
  clear h hF
  revert s
  intro s₀
  have h := Upd.refl (F := [.hbm]) s₀
  delta State.takeLatent
  repeat' (first
    | ((with_reducible apply Part.Sub.of); rfl)
    | with_reducible apply MemUpd.refl
    | intro s
    | lift_lets -underBinder
    | (with_reducible apply Upd.setHbm; case h => with_reducible assumption))

theorem State.readLine_upd {F : List Part} {s₀ s : State} (l : Nat) (f : MemFind) (h : Upd F s₀ s) (hF : Part.Sub [.regs, .hbm, .vecs, .gs, .link, .svc, .log] F) :
    Upd1 F s₀ (State.readLine s l f) := by
  refine Upd1.by_ h ?_ hF
  clear h hF
  revert s
  intro s₀
  have h := Upd.refl (F := [.regs, .hbm, .vecs, .gs, .link, .svc, .log]) s₀
  delta State.readLine
  repeat' (first
    | with_reducible assumption
    | ((with_reducible apply Part.Sub.of); rfl)
    | (intro s; refine (fun h => ?_) (?_ : Upd [.regs, .hbm, .vecs, .gs, .link, .svc, .log] s₀ s); rotate_left; subst s; rotate_left)
    | (intro s; refine (fun h => ?_) (?_ : Upd1 [.regs, .hbm, .vecs, .gs, .link, .svc, .log] s₀ s); rotate_left; subst s; rotate_left)
    | intro s
    | lift_lets -underBinder
    | with_reducible apply Upd.ite
    | with_reducible apply State.takeLatent_upd
    | with_reducible apply State.mirrorFound_upd
    | with_reducible apply State.corrected_upd
    | with_reducible apply State.foundBad_upd
    | with_reducible apply State.queueRebuild_upd
    | with_reducible apply State.bump_upd
    | with_reducible apply State.mcErr_upd
    | with_reducible apply State.retireRow_upd
    | (with_reducible apply Upd1.mk; fail_if_success (with_reducible apply Upd1.fst))
    | with_reducible apply Upd1.ite
    | with_reducible apply Upd1.fst)

theorem State.readLines_upd {F : List Part} {s₀ s : State} (a : Nat) (n : Nat) (f : MemFind) (h : Upd F s₀ s) (hF : Part.Sub [.regs, .hbm, .vecs, .gs, .link, .svc, .log] F) :
    Upd1 F s₀ (State.readLines s a n f) := by
  refine Upd1.by_ h ?_ hF
  clear h hF
  revert s
  intro s₀
  have h := Upd.refl (F := [.regs, .hbm, .vecs, .gs, .link, .svc, .log]) s₀
  delta State.readLines
  repeat' (first
    | with_reducible assumption
    | ((with_reducible apply Part.Sub.of); rfl)
    | (intro s; refine (fun h => ?_) (?_ : Upd1 [.regs, .hbm, .vecs, .gs, .link, .svc, .log] s₀ s); rotate_left; subst s; rotate_left)
    | intro s
    | lift_lets -underBinder
    | with_reducible apply State.readLine_upd
    | (with_reducible apply Upd1.mk; fail_if_success (with_reducible apply Upd1.fst))
    | (with_reducible apply Upd1.foldl; case' hf => intro _ _ h)
    | with_reducible apply Upd1.fst
    | split
    | with_reducible apply Upd1.mk)

theorem State.cureLine_upd {F : List Part} {s₀ s : State} (l : Nat) (h : Upd F s₀ s) (hF : Part.Sub [.regs, .hbm] F) :
    Upd F s₀ (State.cureLine s l) := by
  refine Upd.by_ h ?_ hF
  clear h hF
  revert s
  intro s₀
  have h := Upd.refl (F := [.regs, .hbm]) s₀
  delta State.cureLine
  repeat' (first
    | with_reducible assumption
    | ((with_reducible apply Part.Sub.of); rfl)
    | with_reducible apply MemUpd.refl
    | (intro s; refine (fun h => ?_) (?_ : Upd [.regs, .hbm] s₀ s); rotate_left; subst s; rotate_left)
    | intro s
    | lift_lets -underBinder
    | with_reducible apply Upd.ite
    | (with_reducible apply Upd.setHbm; case h => with_reducible assumption)
    | with_reducible apply State.takeLatent_upd
    | with_reducible apply State.drop_upd
    | with_reducible apply State.set_upd
    | split)

theorem State.writeLine_upd {F : List Part} {s₀ s : State} (l : Nat) (a : Nat) (data : List Byte) (poison : Bool) (h : Upd F s₀ s) (hF : Part.Sub [.regs, .hbm, .vecs, .gs, .link, .svc, .log] F) :
    Upd1 F s₀ (State.writeLine s l a data poison) := by
  refine Upd1.by_ h ?_ hF
  clear h hF
  revert s
  intro s₀
  have h := Upd.refl (F := [.regs, .hbm, .vecs, .gs, .link, .svc, .log]) s₀
  delta State.writeLine
  repeat' (first
    | with_reducible assumption
    | ((with_reducible apply Part.Sub.of); rfl)
    | (intro s; refine (fun h => ?_) (?_ : Upd1 [.regs, .hbm, .vecs, .gs, .link, .svc, .log] s₀ s); rotate_left; subst s; rotate_left)
    | intro s
    | lift_lets -underBinder
    | with_reducible apply State.bump_upd
    | with_reducible apply State.markBad_upd
    | with_reducible apply State.readLine_upd
    | with_reducible apply State.memWrite_upd
    | with_reducible apply State.cureLine_upd
    | (with_reducible apply Upd1.mk; fail_if_success (with_reducible apply Upd1.fst))
    | with_reducible apply Upd1.ite
    | with_reducible apply Upd1.fst)

theorem State.writeLines_upd {F : List Part} {s₀ s : State} (a : Nat) (data : List Byte) (bad : List Nat) (h : Upd F s₀ s) (hF : Part.Sub [.regs, .hbm, .vecs, .gs, .link, .svc, .log] F) :
    Upd1 F s₀ (State.writeLines s a data bad) := by
  refine Upd1.by_ h ?_ hF
  clear h hF
  revert s
  intro s₀
  have h := Upd.refl (F := [.regs, .hbm, .vecs, .gs, .link, .svc, .log]) s₀
  delta State.writeLines
  repeat' (first
    | with_reducible assumption
    | ((with_reducible apply Part.Sub.of); rfl)
    | (intro s; refine (fun h => ?_) (?_ : Upd1 [.regs, .hbm, .vecs, .gs, .link, .svc, .log] s₀ s); rotate_left; subst s; rotate_left)
    | intro s
    | lift_lets -underBinder
    | with_reducible apply State.writeLine_upd
    | (with_reducible apply Upd1.mk; fail_if_success (with_reducible apply Upd1.fst))
    | (with_reducible apply Upd1.foldl; case' hf => intro _ _ h)
    | with_reducible apply Upd1.fst
    | with_reducible apply Upd1.mk)

theorem State.mcRead_upd {F : List Part} {s₀ s : State} (a : Nat) (n : Nat) (k : Nat) (fine : Bool) (f : MemFind) (h : Upd F s₀ s) (hF : Part.Sub [.regs, .hbm, .vecs, .gs, .link, .svc, .log] F) :
    Upd1 F s₀ (State.mcRead s a n k fine f) := by
  refine Upd1.by_ h ?_ hF
  clear h hF
  revert s
  intro s₀
  have h := Upd.refl (F := [.regs, .hbm, .vecs, .gs, .link, .svc, .log]) s₀
  delta State.mcRead
  repeat' (first
    | with_reducible assumption
    | ((with_reducible apply Part.Sub.of); rfl)
    | (intro s; refine (fun h => ?_) (?_ : Upd [.regs, .hbm, .vecs, .gs, .link, .svc, .log] s₀ s); rotate_left; subst s; rotate_left)
    | (intro s; refine (fun h => ?_) (?_ : Upd1 [.regs, .hbm, .vecs, .gs, .link, .svc, .log] s₀ s); rotate_left; subst s; rotate_left)
    | lift_lets -underBinder
    | with_reducible apply Upd.ite
    | with_reducible apply State.answerUnmapped_upd
    | with_reducible apply State.countRead_upd
    | with_reducible apply State.countFine_upd
    | with_reducible apply State.readLines_upd
    | (with_reducible apply Upd1.mk; fail_if_success (with_reducible apply Upd1.fst))
    | with_reducible apply Upd1.fst
    | split
    | with_reducible apply Upd1.mk)

theorem State.mcWrite_upd {F : List Part} {s₀ s : State} (a : Nat) (k : Nat) (fine : Bool) (data : List Byte) (bad : List Nat) (h : Upd F s₀ s) (hF : Part.Sub [.regs, .hbm, .vecs, .gs, .link, .svc, .log] F) :
    Upd1 F s₀ (State.mcWrite s a k fine data bad) := by
  refine Upd1.by_ h ?_ hF
  clear h hF
  revert s
  intro s₀
  have h := Upd.refl (F := [.regs, .hbm, .vecs, .gs, .link, .svc, .log]) s₀
  delta State.mcWrite
  repeat' (first
    | with_reducible assumption
    | ((with_reducible apply Part.Sub.of); rfl)
    | (intro s; refine (fun h => ?_) (?_ : Upd [.regs, .hbm, .vecs, .gs, .link, .svc, .log] s₀ s); rotate_left; subst s; rotate_left)
    | (intro s; refine (fun h => ?_) (?_ : Upd1 [.regs, .hbm, .vecs, .gs, .link, .svc, .log] s₀ s); rotate_left; subst s; rotate_left)
    | lift_lets -underBinder
    | with_reducible apply Upd.ite
    | with_reducible apply State.answerUnmapped_upd
    | with_reducible apply State.countWrite_upd
    | with_reducible apply State.countFine_upd
    | with_reducible apply State.writeLines_upd
    | (with_reducible apply Upd1.mk; fail_if_success (with_reducible apply Upd1.fst))
    | with_reducible apply Upd1.fst
    | split
    | with_reducible apply Upd1.mk)

theorem State.countHeld_upd {F : List Part} {s₀ s : State} (a : Nat) (n : Nat) (h : Upd F s₀ s) (hF : Part.Sub [.regs] F) :
    Upd F s₀ (State.countHeld s a n) := by
  refine Upd.by_ h ?_ hF
  clear h hF
  revert s
  intro s₀
  have h := Upd.refl (F := [.regs]) s₀
  delta State.countHeld
  repeat' (first
    | with_reducible assumption
    | ((with_reducible apply Part.Sub.of); rfl)
    | with_reducible apply Upd.ite
    | with_reducible apply State.bump_upd)

theorem State.mcAdd_upd {F : List Part} {s₀ s : State} (r : AddReq) (f : MemFind) (h : Upd F s₀ s) (hF : Part.Sub [.regs, .hbm, .vecs, .gs, .link, .svc, .log] F) :
    Upd1 F s₀ (State.mcAdd s r f) := by
  refine Upd1.by_ h ?_ hF
  clear h hF
  revert s
  intro s₀
  have h := Upd.refl (F := [.regs, .hbm, .vecs, .gs, .link, .svc, .log]) s₀
  delta State.mcAdd
  repeat' (first
    | with_reducible assumption
    | ((with_reducible apply Part.Sub.of); rfl)
    | (intro s; refine (fun h => ?_) (?_ : Upd [.regs, .hbm, .vecs, .gs, .link, .svc, .log] s₀ s); rotate_left; subst s; rotate_left)
    | (intro s; refine (fun h => ?_) (?_ : Upd1 [.regs, .hbm, .vecs, .gs, .link, .svc, .log] s₀ s); rotate_left; subst s; rotate_left)
    | (intro s; have _h : List _ := s; clear _h; clear_value s)
    | intro s
    | lift_lets -underBinder
    | with_reducible apply Upd.ite
    | with_reducible apply State.answerUnmapped_upd
    | with_reducible apply State.mcErr_upd
    | with_reducible apply State.countRead_upd
    | with_reducible apply State.countFine_upd
    | with_reducible apply State.readLine_upd
    | with_reducible apply State.memWrite_upd
    | with_reducible apply State.bump_upd
    | with_reducible apply State.cureLine_upd
    | (with_reducible apply Upd1.mk; fail_if_success (with_reducible apply Upd1.fst))
    | with_reducible apply Upd1.ite
    | with_reducible apply Upd1.fst
    | split
    | with_reducible apply Upd1.mk)

end Sys2Proof.Machine
end

