-- ==== Sys2Proof/Laws/UpdMemoryCommands.lean ====
section
/-!
SUPPORT. What each operation of Machine/MemoryCommands.lean may change.
-/
namespace Sys2Proof.Machine

theorem State.fillRegion_upd {F : List Part} {s₀ s : State} (r : Nat) (form : Nat) (quad : Nat) (shared : Nat) (mstate : Nat) (fbase : Nat) (fcount : Nat) (mbase : Nat) (h : Upd F s₀ s) (hF : Part.Sub [.regs] F) :
    Upd F s₀ (State.fillRegion s r form quad shared mstate fbase fcount mbase) := by
  refine Upd.by_ h ?_ hF
  clear h hF
  revert s
  intro s₀
  have h := Upd.refl (F := [.regs]) s₀
  delta State.fillRegion
  repeat' (first
    | with_reducible assumption
    | ((with_reducible apply Part.Sub.of); rfl)
    | with_reducible apply State.setWord_upd)

theorem execRegionSet_upd (box : Nat) (pick : Nat) (s₀ : State) : ∃ t, execRegionSet box pick s₀ = .next t ∧ Upd [.free, .regs, .vecs, .mbox, .inprog, .lastCoach, .link, .boot, .svc] s₀ t := by
  have h := Upd.refl (F := [.free, .regs, .vecs, .mbox, .inprog, .lastCoach, .link, .boot, .svc]) s₀
  delta execRegionSet
  repeat' (first
    | with_reducible assumption
    | ((with_reducible apply Part.Sub.of); rfl)
    | (intro s; have _h : Option _ := s; clear _h; clear_value s)
    | intro s
    | lift_lets -underBinder
    | with_reducible apply Upd.ite
    | with_reducible apply Upd.next
    | with_reducible apply State.respond_upd
    | with_reducible apply State.fillRegion_upd
    | with_reducible apply State.extendM_upd
    | (with_reducible apply takeCommand_upd; case' hown => intro _ _ h)
    | split)

theorem execRegionClear_upd (box : Nat) (s₀ : State) : ∃ t, execRegionClear box s₀ = .next t ∧ Upd [.free, .regs, .hbm, .vecs, .mbox, .inprog, .lastCoach, .link, .boot, .svc] s₀ t := by
  have h := Upd.refl (F := [.free, .regs, .hbm, .vecs, .mbox, .inprog, .lastCoach, .link, .boot, .svc]) s₀
  delta execRegionClear
  repeat' (first
    | with_reducible assumption
    | ((with_reducible apply Part.Sub.of); rfl)
    | with_reducible apply MemUpd.refl
    | (intro s; refine (fun h => ?_) (?_ : Upd [.free, .regs, .hbm, .vecs, .mbox, .inprog, .lastCoach, .link, .boot, .svc] s₀ s); rotate_left; subst s; rotate_left)
    | intro s
    | lift_lets -underBinder
    | with_reducible apply Upd.ite
    | with_reducible apply Upd.next
    | (with_reducible apply Upd.setHbm; case h => with_reducible assumption)
    | with_reducible apply State.respond_upd
    | with_reducible apply State.setWord_upd
    | with_reducible apply State.extendM_upd
    | (with_reducible apply takeCommand_upd; case' hown => intro _ _ h))

theorem State.carryPoison_upd {F : List Part} {s₀ s : State} (r : Nat) (h : Upd F s₀ s) (hF : Part.Sub [.hbm] F) :
    Upd F s₀ (State.carryPoison s r) := by
  refine Upd.by_ h ?_ hF
  clear h hF
  revert s
  intro s₀
  have h := Upd.refl (F := [.hbm]) s₀
  delta State.carryPoison
  repeat' (first
    | ((with_reducible apply Part.Sub.of); rfl)
    | with_reducible apply MemUpd.refl
    | intro s
    | lift_lets -underBinder
    | (with_reducible apply Upd.setHbm; case h => with_reducible assumption))

theorem State.syncDone_upd {F : List Part} {s₀ s : State} (r : Nat) (h : Upd F s₀ s) (hF : Part.Sub [.regs, .hbm] F) :
    Upd F s₀ (State.syncDone s r) := by
  refine Upd.by_ h ?_ hF
  clear h hF
  revert s
  intro s₀
  have h := Upd.refl (F := [.regs, .hbm]) s₀
  delta State.syncDone
  repeat' (first
    | with_reducible assumption
    | ((with_reducible apply Part.Sub.of); rfl)
    | (intro s; refine (fun h => ?_) (?_ : Upd [.regs, .hbm] s₀ s); rotate_left; subst s; rotate_left)
    | lift_lets -underBinder
    | with_reducible apply Upd.ite
    | with_reducible apply State.carryPoison_upd
    | with_reducible apply State.set_upd)

theorem execMirrorRebuild_upd (s₀ : State) : ∃ t, execMirrorRebuild s₀ = .next t ∧ Upd [.regs, .hbm] s₀ t := by
  have h := Upd.refl (F := [.regs, .hbm]) s₀
  delta execMirrorRebuild
  repeat' (first
    | with_reducible assumption
    | ((with_reducible apply Part.Sub.of); rfl)
    | with_reducible apply MemUpd.refl
    | (intro s; refine (fun h => ?_) (?_ : Upd [.regs, .hbm] s₀ s); rotate_left; subst s; rotate_left)
    | intro s
    | lift_lets -underBinder
    | with_reducible apply Upd.ite
    | with_reducible apply Upd.next
    | (with_reducible apply Upd.setHbm; case h => with_reducible assumption)
    | with_reducible apply State.drop_upd
    | with_reducible apply State.set_upd
    | split)

theorem execKvPoolSet_upd (box : Nat) (s₀ : State) : ∃ t, execKvPoolSet box s₀ = .next t ∧ Upd [.free, .regs, .coaches, .vecs, .mbox, .inprog, .lastCoach, .sb, .link, .boot, .svc] s₀ t := by
  have h := Upd.refl (F := [.free, .regs, .coaches, .vecs, .mbox, .inprog, .lastCoach, .sb, .link, .boot, .svc]) s₀
  delta execKvPoolSet
  repeat' (first
    | with_reducible assumption
    | ((with_reducible apply Part.Sub.of); rfl)
    | (intro s; refine (fun h => ?_) (?_ : Upd [.free, .regs, .coaches, .vecs, .mbox, .inprog, .lastCoach, .sb, .link, .boot, .svc] s₀ s); rotate_left; subst s; rotate_left)
    | intro s
    | lift_lets -underBinder
    | with_reducible apply Upd.ite
    | with_reducible apply Upd.next
    | with_reducible apply State.respond_upd
    | with_reducible apply State.setChip_upd
    | with_reducible apply State.poolMark_upd
    | with_reducible apply State.extendM_upd
    | (with_reducible apply takeCommand_upd; case' hown => intro _ _ h))

theorem execMemMargin_upd (box : Nat) (s₀ : State) : ∃ t, execMemMargin box s₀ = .next t ∧ Upd [.free, .regs, .hbm, .vecs, .mbox, .inprog, .lastCoach, .link, .svc] s₀ t := by
  have h := Upd.refl (F := [.free, .regs, .hbm, .vecs, .mbox, .inprog, .lastCoach, .link, .svc]) s₀
  delta execMemMargin
  repeat' (first
    | with_reducible assumption
    | ((with_reducible apply Part.Sub.of); rfl)
    | with_reducible apply MemUpd.refl
    | (intro s; refine (fun h => ?_) (?_ : Upd [.free, .regs, .hbm, .vecs, .mbox, .inprog, .lastCoach, .link, .svc] s₀ s); rotate_left; subst s; rotate_left)
    | intro s
    | lift_lets -underBinder
    | (with_reducible apply Upd.foldl; case' hf => intro _ _ h)
    | with_reducible apply Upd.next
    | (with_reducible apply Upd.setHbm; case h => with_reducible assumption)
    | with_reducible apply State.inProg_upd
    | with_reducible apply State.set_upd
    | (with_reducible apply takeCommand_upd; case' hown => intro _ _ h))

theorem execMarginDone_upd (eyes : List (Nat × Nat)) (s₀ : State) : ∃ t, execMarginDone eyes s₀ = .next t ∧ Upd [.regs, .hbm, .vecs, .mbox, .inprog, .link, .svc] s₀ t := by
  have h := Upd.refl (F := [.regs, .hbm, .vecs, .mbox, .inprog, .link, .svc]) s₀
  delta execMarginDone
  repeat' (first
    | with_reducible assumption
    | ((with_reducible apply Part.Sub.of); rfl)
    | with_reducible apply MemUpd.refl
    | (intro s; refine (fun h => ?_) (?_ : Upd [.regs, .hbm, .vecs, .mbox, .inprog, .link, .svc] s₀ s); rotate_left; subst s; rotate_left)
    | (intro s; have _h : List _ := s; clear _h; clear_value s)
    | intro s
    | lift_lets -underBinder
    | with_reducible apply Upd.ite
    | (with_reducible apply Upd.foldl; case' hf => intro _ _ h)
    | with_reducible apply Upd.next
    | (with_reducible apply Upd.setHbm; case h => with_reducible assumption)
    | with_reducible apply State.answerAll_upd
    | with_reducible apply State.setWord_upd
    | with_reducible apply State.set_upd)

theorem State.fineServe_upd {F : List Part} {s₀ s : State} (m : Nat) (c : Nat) (h : Upd F s₀ s) (hF : Part.Sub [.regs, .hbm, .vecs, .gs, .link, .svc, .log, .noc] F) :
    Upd F s₀ (State.fineServe s m c) := by
  refine Upd.by_ h ?_ hF
  clear h hF
  revert s
  intro s₀
  have h := Upd.refl (F := [.regs, .hbm, .vecs, .gs, .link, .svc, .log, .noc]) s₀
  delta State.fineServe
  repeat' (first
    | with_reducible assumption
    | with_reducible exact Upd.refl _
    | ((with_reducible apply Part.Sub.of); rfl)
    | ((with_reducible apply Or.inr); exact .of rfl)
    | ((with_reducible apply Or.inl); rfl)
    | with_reducible apply Nat.le_refl
    | with_reducible apply Upd.gcount_id
    | with_reducible apply Upd.gcount_mod
    | with_reducible apply Upd.gcount_zero
    | with_reducible apply Upd.gcount_int
    | with_reducible apply FusesUpd.addCore
    | with_reducible apply FusesUpd.addRow
    | (with_reducible apply MemUpd.put; with_reducible apply MemUpd.write; with_reducible apply MemUpd.refl)
    | (with_reducible apply MemUpd.write; with_reducible apply MemUpd.refl)
    | (with_reducible apply MemUpd.dropRange; with_reducible apply MemUpd.refl)
    | (with_reducible apply MemUpd.nil; with_reducible apply MemUpd.refl)
    | (with_reducible apply MemUpd.filter; with_reducible apply MemUpd.refl)
    | (with_reducible apply RegsUpd.filter; with_reducible apply RegsUpd.refl)
    | with_reducible apply MemUpd.refl
    | with_reducible apply RegsUpd.refl
    | with_reducible apply FusesUpd.refl
    | with_reducible apply NocUpd.refl
    | with_reducible apply NocUpd.cycle
    | with_reducible apply NocUpd.empty
    | (intro s; refine (fun h => ?_) (?_ : Upd [.regs, .hbm, .vecs, .gs, .link, .svc, .log, .noc] s₀ s); rotate_left; subst s; rotate_left)
    | (intro s; refine (fun h => ?_) (?_ : Upd1 [.regs, .hbm, .vecs, .gs, .link, .svc, .log, .noc] s₀ s); rotate_left; subst s; rotate_left)
    | (intro q; refine (fun hq => ?_) (?_ : ∀ s, Upd [.regs, .hbm, .vecs, .gs, .link, .svc, .log, .noc] s₀ s → Upd [.regs, .hbm, .vecs, .gs, .link, .svc, .log, .noc] s₀ (q s)); rotate_left; subst q; intro s h; rotate_left)
    | (intro q; refine (fun hq => ?_) (?_ : ∀ s x, Upd [.regs, .hbm, .vecs, .gs, .link, .svc, .log, .noc] s₀ s → Upd [.regs, .hbm, .vecs, .gs, .link, .svc, .log, .noc] s₀ (q s x)); rotate_left; subst q; intro s x h; rotate_left)
    | (intro q; refine (fun hq => ?_) (?_ : ∀ x s, Upd [.regs, .hbm, .vecs, .gs, .link, .svc, .log, .noc] s₀ s → Upd [.regs, .hbm, .vecs, .gs, .link, .svc, .log, .noc] s₀ (q x s)); rotate_left; subst q; intro x s h; rotate_left)
    | (intro s; have _h : Option _ := s; clear _h; clear_value s)
    | (intro s; have _h : List _ := s; clear _h; clear_value s)
    | intro s
    | lift_lets -underBinder
    | with_reducible apply hq
    | with_reducible apply Upd.ite
    | (with_reducible apply Upd.setHbm; case h => with_reducible assumption)
    | with_reducible apply State.qLeave_upd
    | with_reducible apply State.mcRead_upd
    | with_reducible apply State.mcWrite_upd
    | (with_reducible apply Upd1.mk; fail_if_success (with_reducible apply Upd1.fst))
    | with_reducible apply Upd1.ite
    | (with_reducible apply Upd1.foldl; case' hf => intro _ _ h)
    | (with_reducible apply Upd1.of; assumption)
    | with_reducible apply Upd1.fst
    | split
    | with_reducible apply Upd1.mk)


theorem State.finePump_upd {F : List Part} {s₀ s : State} (m c n : Nat) (h : Upd F s₀ s) (hF : Part.Sub [.regs, .hbm, .vecs, .gs, .link, .svc, .log, .noc] F) :
    Upd F s₀ (s.finePump m c n) := by
  induction n generalizing s with
  | zero => exact h
  | succ n ih =>
    unfold State.finePump
    exact Upd.ite h (ih (State.fineServe_upd _ _ h hF))

theorem State.bulkSlots_upd {F : List Part} {s₀ s : State} (a : Nat) (n : Nat) (h : Upd F s₀ s) (hF : Part.Sub [.regs, .hbm, .vecs, .gs, .link, .svc, .log, .noc] F) :
    Upd F s₀ (State.bulkSlots s a n) := by
  refine Upd.by_ h ?_ hF
  clear h hF
  revert s
  intro s₀
  have h := Upd.refl (F := [.regs, .hbm, .vecs, .gs, .link, .svc, .log, .noc]) s₀
  delta State.bulkSlots
  repeat' (first
    | with_reducible assumption
    | ((with_reducible apply Part.Sub.of); rfl)
    | with_reducible apply MemUpd.refl
    | (intro s; refine (fun h => ?_) (?_ : Upd [.regs, .hbm, .vecs, .gs, .link, .svc, .log, .noc] s₀ s); rotate_left; subst s; rotate_left)
    | intro s
    | lift_lets -underBinder
    | (with_reducible apply Upd.foldl; case' hf => intro _ _ h)
    | (with_reducible apply Upd.setHbm; case h => with_reducible assumption)
    | with_reducible apply State.finePump_upd)

theorem State.writePieces_upd {F : List Part} {s₀ s : State} (k : Nat) (data : List Byte) (bad : List Nat) (ps : List (Nat × Nat))
    (h : Upd F s₀ s) (hF : Part.Sub [.regs, .hbm, .vecs, .gs, .link, .svc, .log] F) : Upd1 F s₀ (s.writePieces k data bad ps) :=
  Upd.acc (fun r : (State × Nat) × Nat => r.1.1) ps h fun _ _ h => Upd1.fst (State.mcWrite_upd _ _ _ _ _ h hF)

theorem State.readPieces_upd {F : List Part} {s₀ s : State} (k : Nat) (f : MemFind) (ps : List (Nat × Nat)) (h : Upd F s₀ s) (hF : Part.Sub [.regs, .hbm, .vecs, .gs, .link, .svc, .log] F) :
    Upd1 F s₀ (State.readPieces s k f ps) := by
  refine Upd1.by_ h ?_ hF
  clear h hF
  revert s
  intro s₀
  have h := Upd.refl (F := [.regs, .hbm, .vecs, .gs, .link, .svc, .log]) s₀
  delta State.readPieces
  repeat' (first
    | with_reducible assumption
    | ((with_reducible apply Part.Sub.of); rfl)
    | (intro s; refine (fun h => ?_) (?_ : Upd1 [.regs, .hbm, .vecs, .gs, .link, .svc, .log] s₀ s); rotate_left; subst s; rotate_left)
    | intro s
    | lift_lets -underBinder
    | with_reducible apply State.mcRead_upd
    | (with_reducible apply Upd1.mk; fail_if_success (with_reducible apply Upd1.fst))
    | (with_reducible apply Upd1.foldl; case' hf => intro _ _ h)
    | with_reducible apply Upd1.fst
    | split
    | with_reducible apply Upd1.mk)

theorem execMcBulkRequest_upd (core : Nat) (tag : Nat) (found : MemFind) (s₀ : State) : ∃ t, execMcBulkRequest core tag found s₀ = .next t ∧ Upd [.regs, .hbm, .cores, .vecs, .mbox, .inprog, .gs, .link, .svc, .log, .noc] s₀ t := by
  have h := Upd.refl (F := [.regs, .hbm, .cores, .vecs, .mbox, .inprog, .gs, .link, .svc, .log, .noc]) s₀
  delta execMcBulkRequest
  repeat' (first
    | with_reducible assumption
    | ((with_reducible apply Part.Sub.of); rfl)
    | (intro s; refine (fun h => ?_) (?_ : Upd [.regs, .hbm, .cores, .vecs, .mbox, .inprog, .gs, .link, .svc, .log, .noc] s₀ s); rotate_left; subst s; rotate_left)
    | (intro s; refine (fun h => ?_) (?_ : Upd1 [.regs, .hbm, .cores, .vecs, .mbox, .inprog, .gs, .link, .svc, .log, .noc] s₀ s); rotate_left; subst s; rotate_left)
    | (intro q; refine (fun hq => ?_) (?_ : ∀ s x, Upd [.regs, .hbm, .cores, .vecs, .mbox, .inprog, .gs, .link, .svc, .log, .noc] s₀ s → Upd [.regs, .hbm, .cores, .vecs, .mbox, .inprog, .gs, .link, .svc, .log, .noc] s₀ (q s x)); rotate_left; subst q; intro s x h; rotate_left)
    | intro s
    | lift_lets -underBinder
    | with_reducible apply hq
    | with_reducible apply Upd.ite
    | (with_reducible apply Upd.foldl; case' hf => intro _ _ h)
    | with_reducible apply Upd.next
    | with_reducible apply State.countHeld_upd
    | with_reducible apply State.modCore_upd
    | with_reducible apply State.bulkAccepted_upd
    | with_reducible apply State.writePieces_upd
    | with_reducible apply State.readPieces_upd
    | with_reducible apply State.qSend_upd
    | with_reducible apply State.bulkSlots_upd
    | with_reducible apply Upd1.fst
    | split)

theorem execMcFineRequest_upd (req : FineReq) (found : MemFind) (s₀ : State) : ∃ t, execMcFineRequest req found s₀ = .next t ∧ Upd [.regs, .hbm, .vecs, .gs, .link, .svc, .log, .noc] s₀ t := by
  have h := Upd.refl (F := [.regs, .hbm, .vecs, .gs, .link, .svc, .log, .noc]) s₀
  delta execMcFineRequest
  repeat' (first
    | with_reducible assumption
    | with_reducible exact Upd.refl _
    | ((with_reducible apply Part.Sub.of); rfl)
    | ((with_reducible apply Or.inr); exact .of rfl)
    | ((with_reducible apply Or.inl); rfl)
    | with_reducible apply Nat.le_refl
    | with_reducible apply Upd.gcount_id
    | with_reducible apply Upd.gcount_mod
    | with_reducible apply Upd.gcount_zero
    | with_reducible apply Upd.gcount_int
    | with_reducible apply FusesUpd.addCore
    | with_reducible apply FusesUpd.addRow
    | (with_reducible apply MemUpd.put; with_reducible apply MemUpd.write; with_reducible apply MemUpd.refl)
    | (with_reducible apply MemUpd.write; with_reducible apply MemUpd.refl)
    | (with_reducible apply MemUpd.dropRange; with_reducible apply MemUpd.refl)
    | (with_reducible apply MemUpd.nil; with_reducible apply MemUpd.refl)
    | (with_reducible apply MemUpd.filter; with_reducible apply MemUpd.refl)
    | (with_reducible apply RegsUpd.filter; with_reducible apply RegsUpd.refl)
    | with_reducible apply MemUpd.refl
    | with_reducible apply RegsUpd.refl
    | with_reducible apply FusesUpd.refl
    | with_reducible apply NocUpd.refl
    | with_reducible apply NocUpd.cycle
    | with_reducible apply NocUpd.empty
    | (intro s; refine (fun h => ?_) (?_ : Upd [.regs, .hbm, .vecs, .gs, .link, .svc, .log, .noc] s₀ s); rotate_left; subst s; rotate_left)
    | (intro q; refine (fun hq => ?_) (?_ : ∀ s, Upd [.regs, .hbm, .vecs, .gs, .link, .svc, .log, .noc] s₀ s → Upd [.regs, .hbm, .vecs, .gs, .link, .svc, .log, .noc] s₀ (q s)); rotate_left; subst q; intro s h; rotate_left)
    | (intro q; refine (fun hq => ?_) (?_ : ∀ s x, Upd [.regs, .hbm, .vecs, .gs, .link, .svc, .log, .noc] s₀ s → Upd [.regs, .hbm, .vecs, .gs, .link, .svc, .log, .noc] s₀ (q s x)); rotate_left; subst q; intro s x h; rotate_left)
    | (intro q; refine (fun hq => ?_) (?_ : ∀ x s, Upd [.regs, .hbm, .vecs, .gs, .link, .svc, .log, .noc] s₀ s → Upd [.regs, .hbm, .vecs, .gs, .link, .svc, .log, .noc] s₀ (q x s)); rotate_left; subst q; intro x s h; rotate_left)
    | (intro s; have _h : Option _ := s; clear _h; clear_value s)
    | (intro s; have _h : List _ := s; clear _h; clear_value s)
    | intro s
    | lift_lets -underBinder
    | with_reducible apply hq
    | with_reducible apply Upd.ite
    | with_reducible apply Upd.next
    | (with_reducible apply Upd.setHbm; case h => with_reducible assumption)
    | with_reducible apply State.qPut_upd
    | with_reducible apply State.finePump_upd
    | split)


theorem execMcAddRequest_upd (req : AddReq) (found : MemFind) (s₀ : State) : ∃ t, execMcAddRequest req found s₀ = .next t ∧ Upd [.regs, .hbm, .vecs, .gs, .link, .svc, .log] s₀ t := by
  have h := Upd.refl (F := [.regs, .hbm, .vecs, .gs, .link, .svc, .log]) s₀
  delta execMcAddRequest
  repeat' (first
    | with_reducible assumption
    | ((with_reducible apply Part.Sub.of); rfl)
    | with_reducible apply Upd.ite
    | with_reducible apply Upd.next
    | with_reducible apply State.mcAdd_upd
    | with_reducible apply Upd1.fst)

theorem State.patrolOther_upd {F : List Part} {s₀ s : State} (m : Nat) (c : Nat) (l : Nat) (mirror : Bool) (f : MemFind) (h : Upd F s₀ s) (hF : Part.Sub [.regs, .hbm, .vecs, .gs, .link, .svc, .log] F) :
    Upd F s₀ (State.patrolOther s m c l mirror f) := by
  refine Upd.by_ h ?_ hF
  clear h hF
  revert s
  intro s₀
  have h := Upd.refl (F := [.regs, .hbm, .vecs, .gs, .link, .svc, .log]) s₀
  delta State.patrolOther
  repeat' (first
    | with_reducible assumption
    | ((with_reducible apply Part.Sub.of); rfl)
    | (intro s; refine (fun h => ?_) (?_ : Upd [.regs, .hbm, .vecs, .gs, .link, .svc, .log] s₀ s); rotate_left; subst s; rotate_left)
    | (intro s; have _h : List _ := s; clear _h; clear_value s)
    | intro s
    | lift_lets -underBinder
    | with_reducible apply Upd.ite
    | with_reducible apply State.mirrorFound_upd
    | with_reducible apply State.bump_upd
    | with_reducible apply State.mcErr_upd
    | with_reducible apply State.retireRow_upd
    | with_reducible apply State.corrected_upd)

theorem execPatrolLine_upd (mc : Nat) (pc : Nat) (addr : Nat) (found : MemFind) (s₀ : State) : ∃ t, execPatrolLine mc pc addr found s₀ = .next t ∧ Upd [.regs, .hbm, .vecs, .gs, .link, .svc, .log] s₀ t := by
  have h := Upd.refl (F := [.regs, .hbm, .vecs, .gs, .link, .svc, .log]) s₀
  delta execPatrolLine
  repeat' (first
    | with_reducible assumption
    | ((with_reducible apply Part.Sub.of); rfl)
    | with_reducible apply MemUpd.refl
    | (intro s; refine (fun h => ?_) (?_ : Upd [.regs, .hbm, .vecs, .gs, .link, .svc, .log] s₀ s); rotate_left; subst s; rotate_left)
    | intro s
    | lift_lets -underBinder
    | with_reducible apply Upd.ite
    | with_reducible apply Upd.next
    | (with_reducible apply Upd.setHbm; case h => with_reducible assumption)
    | with_reducible apply State.bump_upd
    | with_reducible apply State.readLine_upd
    | with_reducible apply State.patrolOther_upd
    | with_reducible apply State.queueRebuild_upd
    | with_reducible apply Upd1.fst)

theorem execPmIntervalEnd_upd (s₀ : State) : ∃ t, execPmIntervalEnd s₀ = .next t ∧ Upd [.regs, .hbm] s₀ t := by
  have h := Upd.refl (F := [.regs, .hbm]) s₀
  delta execPmIntervalEnd
  repeat' (first
    | with_reducible assumption
    | ((with_reducible apply Part.Sub.of); rfl)
    | with_reducible apply MemUpd.refl
    | (intro s; refine (fun h => ?_) (?_ : Upd [.regs, .hbm] s₀ s); rotate_left; subst s; rotate_left)
    | intro s
    | lift_lets -underBinder
    | with_reducible apply Upd.ite
    | with_reducible apply Upd.next
    | (with_reducible apply Upd.setHbm; case h => with_reducible assumption)
    | with_reducible apply State.setChip_upd)

theorem execStackTrainingLoss_upd (stack : Nat) (s₀ : State) : ∃ t, execStackTrainingLoss stack s₀ = .next t ∧ Upd [.regs, .vecs, .gs, .link, .svc, .log] s₀ t := by
  have h := Upd.refl (F := [.regs, .vecs, .gs, .link, .svc, .log]) s₀
  delta execStackTrainingLoss
  repeat' (first
    | with_reducible assumption
    | ((with_reducible apply Part.Sub.of); rfl)
    | with_reducible apply Upd.ite
    | with_reducible apply Upd.next
    | with_reducible apply State.set_upd
    | with_reducible apply State.raise_upd)

end Sys2Proof.Machine
end

