-- ==== Sys2Proof/Laws/UpdCoaches.lean ====
section
/-!
SUPPORT. What each operation of Machine/Coaches.lean may change.
-/
namespace Sys2Proof.Machine

theorem State.setMap_upd {F : List Part} {s₀ s : State} (m : SMap Nat) (h : Upd F s₀ s) (hF : Part.Sub [.hbm, .xlate] F) :
    Upd F s₀ (State.setMap s m) := by
  refine Upd.by_ h ?_ hF
  clear h hF
  revert s
  intro s₀
  have h := Upd.refl (F := [.hbm, .xlate]) s₀
  delta State.setMap
  repeat' (first
    | with_reducible assumption
    | ((with_reducible apply Part.Sub.of); rfl)
    | (intro s; refine (fun h => ?_) (?_ : Upd [.hbm, .xlate] s₀ s); rotate_left; subst s; rotate_left)
    | (intro s; have _h : List _ := s; clear _h; clear_value s)
    | intro s
    | lift_lets -underBinder
    | (with_reducible apply Upd.foldl; case' hf => intro _ _ h)
    | (with_reducible apply Upd.xlate; case h => with_reducible assumption)
    | with_reducible apply State.memWrite_upd)

theorem State.clearCoach_upd {F : List Part} {s₀ s : State} (c : Nat) (h : Upd F s₀ s) (hF : Part.Sub [.regs, .coaches, .vecs] F) :
    Upd F s₀ (State.clearCoach s c) := by
  refine Upd.by_ h ?_ hF
  clear h hF
  revert s
  intro s₀
  have h := Upd.refl (F := [.regs, .coaches, .vecs]) s₀
  delta State.clearCoach
  repeat' (first
    | with_reducible assumption
    | with_reducible exact Upd.refl _
    | ((with_reducible apply Part.Sub.of); rfl)
    | ((with_reducible apply Or.inr); exact .of rfl)
    | ((with_reducible apply Or.inl); rfl)
    | with_reducible apply Nat.le_refl
    | with_reducible apply Upd.gcount_id
    | with_reducible apply Upd.gcount_mod
    | with_reducible apply Upd.gcount_zero
    | with_reducible apply Upd.gcount_int
    | with_reducible apply FusesUpd.addCore
    | with_reducible apply FusesUpd.addRow
    | (with_reducible apply MemUpd.put; with_reducible apply MemUpd.write; with_reducible apply MemUpd.refl)
    | (with_reducible apply MemUpd.write; with_reducible apply MemUpd.refl)
    | (with_reducible apply MemUpd.dropRange; with_reducible apply MemUpd.refl)
    | (with_reducible apply MemUpd.nil; with_reducible apply MemUpd.refl)
    | (with_reducible apply MemUpd.filter; with_reducible apply MemUpd.refl)
    | (with_reducible apply RegsUpd.filter; with_reducible apply RegsUpd.refl)
    | with_reducible apply MemUpd.refl
    | with_reducible apply RegsUpd.refl
    | with_reducible apply FusesUpd.refl
    | with_reducible apply NocUpd.refl
    | with_reducible apply NocUpd.cycle
    | with_reducible apply NocUpd.empty
    | (intro s; refine (fun h => ?_) (?_ : Upd [.regs, .coaches, .vecs] s₀ s); rotate_left; subst s; rotate_left)
    | (intro q; refine (fun hq => ?_) (?_ : ∀ s, Upd [.regs, .coaches, .vecs] s₀ s → Upd [.regs, .coaches, .vecs] s₀ (q s)); rotate_left; subst q; intro s h; rotate_left)
    | (intro q; refine (fun hq => ?_) (?_ : ∀ s x, Upd [.regs, .coaches, .vecs] s₀ s → Upd [.regs, .coaches, .vecs] s₀ (q s x)); rotate_left; subst q; intro s x h; rotate_left)
    | (intro q; refine (fun hq => ?_) (?_ : ∀ x s, Upd [.regs, .coaches, .vecs] s₀ s → Upd [.regs, .coaches, .vecs] s₀ (q x s)); rotate_left; subst q; intro x s h; rotate_left)
    | (intro s; have _h : Option _ := s; clear _h; clear_value s)
    | (intro s; have _h : List _ := s; clear _h; clear_value s)
    | intro s
    | lift_lets -underBinder
    | with_reducible apply hq
    | with_reducible apply Upd.ite
    | (with_reducible apply Upd.fields; (case h => with_reducible assumption))
    | split)


theorem State.createCoach_upd {F : List Part} {s₀ s : State} (c : Nat) (port : Nat) (t : Nat) (d : List Byte) (h : Upd F s₀ s) (hF : Part.Sub [.regs, .coaches, .vecs, .link] F) :
    Upd F s₀ (State.createCoach s c port t d) := by
  refine Upd.by_ h ?_ hF
  clear h hF
  revert s
  intro s₀
  have h := Upd.refl (F := [.regs, .coaches, .vecs, .link]) s₀
  delta State.createCoach
  repeat' (first
    | with_reducible assumption
    | ((with_reducible apply Part.Sub.of); rfl)
    | (intro s; refine (fun h => ?_) (?_ : Upd [.regs, .coaches, .vecs, .link] s₀ s); rotate_left; subst s; rotate_left)
    | lift_lets -underBinder
    | with_reducible apply State.clearCoach_upd
    | with_reducible apply State.modCoach_upd
    | with_reducible apply State.set_upd
    | with_reducible apply State.extendCm_upd
    | with_reducible apply State.enterCoach_upd)

theorem execCoachCreate_upd (box : Nat) (s₀ : State) : ∃ t, execCoachCreate box s₀ = .next t ∧ Upd [.free, .regs, .coaches, .vecs, .mbox, .inprog, .lastCoach, .link, .svc] s₀ t := by
  have h := Upd.refl (F := [.free, .regs, .coaches, .vecs, .mbox, .inprog, .lastCoach, .link, .svc]) s₀
  delta execCoachCreate
  repeat' (first
    | with_reducible assumption
    | ((with_reducible apply Part.Sub.of); rfl)
    | lift_lets -underBinder
    | with_reducible apply Upd.ite
    | with_reducible apply Upd.next
    | with_reducible apply State.respond_upd
    | with_reducible apply State.createCoach_upd
    | (with_reducible apply takeCommand_upd; case' hown => intro _ _ h)
    | split)

theorem State.unmapAll_upd {F : List Part} {s₀ s : State} (c : Nat) (h : Upd F s₀ s) (hF : Part.Sub [.hbm, .xlate] F) :
    Upd F s₀ (State.unmapAll s c) := by
  refine Upd.by_ h ?_ hF
  clear h hF
  revert s
  intro s₀
  have h := Upd.refl (F := [.hbm, .xlate]) s₀
  delta State.unmapAll
  repeat' (first
    | with_reducible assumption
    | ((with_reducible apply Part.Sub.of); rfl)
    | (intro s; refine (fun h => ?_) (?_ : Upd [.hbm, .xlate] s₀ s); rotate_left; subst s; rotate_left)
    | (intro s; have _h : List _ := s; clear _h; clear_value s)
    | intro s
    | lift_lets -underBinder
    | (with_reducible apply Upd.xlate; case h => with_reducible assumption)
    | with_reducible apply State.setMap_upd)

theorem State.clearOwner_upd {F : List Part} {s₀ s : State} (c : Nat) (h : Upd F s₀ s) (hF : Part.Sub [.spm] F) :
    Upd F s₀ (State.clearOwner s c) := by
  refine Upd.by_ h ?_ hF
  clear h hF
  revert s
  intro s₀
  have h := Upd.refl (F := [.spm]) s₀
  delta State.clearOwner
  repeat' (first
    | ((with_reducible apply Part.Sub.of); rfl)
    | (with_reducible apply MemUpd.filter; with_reducible apply MemUpd.refl)
    | (intro s; have _h : List _ := s; clear _h; clear_value s)
    | intro s
    | lift_lets -underBinder
    | (with_reducible apply Upd.setSpm; case h => with_reducible assumption))

theorem State.clearCounters_upd {F : List Part} {s₀ s : State} (c : Nat) (h : Upd F s₀ s) (hF : Part.Sub [.regs] F) :
    Upd F s₀ (State.clearCounters s c) := by
  refine Upd.by_ h ?_ hF
  clear h hF
  revert s
  intro s₀
  have h := Upd.refl (F := [.regs]) s₀
  delta State.clearCounters
  repeat' (first
    | with_reducible assumption
    | with_reducible exact Upd.refl _
    | ((with_reducible apply Part.Sub.of); rfl)
    | ((with_reducible apply Or.inr); exact .of rfl)
    | ((with_reducible apply Or.inl); rfl)
    | with_reducible apply Nat.le_refl
    | with_reducible apply Upd.gcount_id
    | with_reducible apply Upd.gcount_mod
    | with_reducible apply Upd.gcount_zero
    | with_reducible apply Upd.gcount_int
    | with_reducible apply FusesUpd.addCore
    | with_reducible apply FusesUpd.addRow
    | (with_reducible apply MemUpd.put; with_reducible apply MemUpd.write; with_reducible apply MemUpd.refl)
    | (with_reducible apply MemUpd.write; with_reducible apply MemUpd.refl)
    | (with_reducible apply MemUpd.dropRange; with_reducible apply MemUpd.refl)
    | (with_reducible apply MemUpd.nil; with_reducible apply MemUpd.refl)
    | (with_reducible apply MemUpd.filter; with_reducible apply MemUpd.refl)
    | (with_reducible apply RegsUpd.filter; with_reducible apply RegsUpd.refl)
    | with_reducible apply MemUpd.refl
    | with_reducible apply RegsUpd.refl
    | with_reducible apply FusesUpd.refl
    | with_reducible apply NocUpd.refl
    | with_reducible apply NocUpd.cycle
    | with_reducible apply NocUpd.empty
    | (intro s; refine (fun h => ?_) (?_ : Upd [.regs] s₀ s); rotate_left; subst s; rotate_left)
    | (intro q; refine (fun hq => ?_) (?_ : ∀ s, Upd [.regs] s₀ s → Upd [.regs] s₀ (q s)); rotate_left; subst q; intro s h; rotate_left)
    | (intro q; refine (fun hq => ?_) (?_ : ∀ s x, Upd [.regs] s₀ s → Upd [.regs] s₀ (q s x)); rotate_left; subst q; intro s x h; rotate_left)
    | (intro q; refine (fun hq => ?_) (?_ : ∀ x s, Upd [.regs] s₀ s → Upd [.regs] s₀ (q x s)); rotate_left; subst q; intro x s h; rotate_left)
    | (intro s; have _h : Option _ := s; clear _h; clear_value s)
    | (intro s; have _h : List _ := s; clear _h; clear_value s)
    | intro s
    | lift_lets -underBinder
    | with_reducible apply hq
    | with_reducible apply Upd.ite
    | (with_reducible apply Upd.setRegs; case h => with_reducible assumption)
    | split)


theorem State.destroyCoach_upd {F : List Part} {s₀ s : State} (c : Nat) (h : Upd F s₀ s) (hF : Part.Sub [.regs, .hbm, .spm, .coaches, .vecs, .xlate, .link] F) :
    Upd F s₀ (State.destroyCoach s c) := by
  refine Upd.by_ h ?_ hF
  clear h hF
  revert s
  intro s₀
  have h := Upd.refl (F := [.regs, .hbm, .spm, .coaches, .vecs, .xlate, .link]) s₀
  delta State.destroyCoach
  repeat' (first
    | with_reducible assumption
    | with_reducible exact Upd.refl _
    | ((with_reducible apply Part.Sub.of); rfl)
    | (intro s; refine (fun h => ?_) (?_ : Upd [.regs, .hbm, .spm, .coaches, .vecs, .xlate, .link] s₀ s); rotate_left; subst s; rotate_left)
    | (intro s; have _h : Option _ := s; clear _h; clear_value s)
    | (intro s; have _h : List _ := s; clear _h; clear_value s)
    | intro s
    | lift_lets -underBinder
    | with_reducible apply Upd.ite
    | (with_reducible apply Upd.coaches; case h => with_reducible assumption)
    | with_reducible apply State.unmapAll_upd
    | with_reducible apply State.clearOwner_upd
    | with_reducible apply State.clearCounters_upd
    | with_reducible apply State.enterCoach_upd
    | split)


theorem execCoachDestroy_upd (box : Nat) (s₀ : State) : ∃ t, execCoachDestroy box s₀ = .next t ∧ Upd [.free, .regs, .coaches, .vecs, .mbox, .inprog, .lastCoach, .link, .svc] s₀ t := by
  have h := Upd.refl (F := [.free, .regs, .coaches, .vecs, .mbox, .inprog, .lastCoach, .link, .svc]) s₀
  delta execCoachDestroy
  repeat' (first
    | with_reducible assumption
    | ((with_reducible apply Part.Sub.of); rfl)
    | intro s
    | lift_lets -underBinder
    | with_reducible apply Upd.ite
    | with_reducible apply Upd.next
    | with_reducible apply State.respond_upd
    | with_reducible apply State.modCoach_upd
    | with_reducible apply State.inProg_upd
    | (with_reducible apply takeCommand_upd; case' hown => intro _ _ h))

theorem execCoachDestroyDone_upd (coach : Nat) (s₀ : State) : ∃ t, execCoachDestroyDone coach s₀ = .next t ∧ Upd [.regs, .hbm, .spm, .coaches, .vecs, .mbox, .inprog, .xlate, .link, .svc] s₀ t := by
  have h := Upd.refl (F := [.regs, .hbm, .spm, .coaches, .vecs, .mbox, .inprog, .xlate, .link, .svc]) s₀
  delta execCoachDestroyDone
  repeat' (first
    | with_reducible assumption
    | ((with_reducible apply Part.Sub.of); rfl)
    | lift_lets -underBinder
    | with_reducible apply Upd.ite
    | with_reducible apply Upd.next
    | with_reducible apply State.answer_upd
    | with_reducible apply State.destroyCoach_upd
    | split)

theorem execCoachStart_upd (box : Nat) (s₀ : State) : ∃ t, execCoachStart box s₀ = .next t ∧ Upd [.free, .regs, .vecs, .mbox, .inprog, .lastCoach, .link, .svc] s₀ t := by
  have h := Upd.refl (F := [.free, .regs, .vecs, .mbox, .inprog, .lastCoach, .link, .svc]) s₀
  delta execCoachStart
  repeat' (first
    | with_reducible assumption
    | ((with_reducible apply Part.Sub.of); rfl)
    | intro s
    | lift_lets -underBinder
    | with_reducible apply Upd.ite
    | with_reducible apply Upd.next
    | with_reducible apply State.respond_upd
    | with_reducible apply State.respondBusy_upd
    | with_reducible apply State.enterCoach_upd
    | (with_reducible apply takeCommand_upd; case' hown => intro _ _ h))

theorem execCoachHalt_upd (box : Nat) (s₀ : State) : ∃ t, execCoachHalt box s₀ = .next t ∧ Upd [.free, .regs, .hbm, .coaches, .vecs, .mbox, .inprog, .lastCoach, .xlate, .gs, .sb, .link, .svc, .log] s₀ t := by
  have h := Upd.refl (F := [.free, .regs, .hbm, .coaches, .vecs, .mbox, .inprog, .lastCoach, .xlate, .gs, .sb, .link, .svc, .log]) s₀
  delta execCoachHalt
  repeat' (first
    | with_reducible assumption
    | ((with_reducible apply Part.Sub.of); rfl)
    | (intro s; refine (fun h => ?_) (?_ : Upd [.free, .regs, .hbm, .coaches, .vecs, .mbox, .inprog, .lastCoach, .xlate, .gs, .sb, .link, .svc, .log] s₀ s); rotate_left; subst s; rotate_left)
    | intro s
    | lift_lets -underBinder
    | with_reducible apply Upd.ite
    | with_reducible apply Upd.next
    | with_reducible apply State.respond_upd
    | with_reducible apply State.modCoach_upd
    | with_reducible apply State.enterCoach_upd
    | with_reducible apply State.inProg_upd
    | with_reducible apply State.coachBoundary_upd
    | (with_reducible apply takeCommand_upd; case' hown => intro _ _ h))

theorem State.dropMove_upd {F : List Part} {s₀ s : State} (slot : Nat) (h : Upd F s₀ s) (hF : Part.Sub [.regs, .hbm, .coaches, .vecs, .mbox, .inprog, .xlate, .sb, .link, .svc] F) :
    Upd F s₀ (State.dropMove s slot) := by
  refine Upd.by_ h ?_ hF
  clear h hF
  revert s
  intro s₀
  have h := Upd.refl (F := [.regs, .hbm, .coaches, .vecs, .mbox, .inprog, .xlate, .sb, .link, .svc]) s₀
  delta State.dropMove
  repeat' (first
    | with_reducible assumption
    | ((with_reducible apply Part.Sub.of); rfl)
    | (intro s; refine (fun h => ?_) (?_ : Upd [.regs, .hbm, .coaches, .vecs, .mbox, .inprog, .xlate, .sb, .link, .svc] s₀ s); rotate_left; subst s; rotate_left)
    | intro s
    | lift_lets -underBinder
    | with_reducible apply Upd.ite
    | (with_reducible apply Upd.sb; case h => with_reducible assumption)
    | with_reducible apply State.drop_upd
    | with_reducible apply State.bump_upd
    | with_reducible apply State.setSeq_upd
    | with_reducible apply State.holdPages_upd
    | with_reducible apply State.answerAll_upd
    | split)

theorem State.endCoachSeqs_upd {F : List Part} {s₀ s : State} (c : Nat) (h : Upd F s₀ s) (hF : Part.Sub [.regs, .hbm, .coaches, .vecs, .mbox, .inprog, .xlate, .gs, .sb, .link, .svc, .log] F) :
    Upd F s₀ (State.endCoachSeqs s c) := by
  refine Upd.by_ h ?_ hF
  clear h hF
  revert s
  intro s₀
  have h := Upd.refl (F := [.regs, .hbm, .coaches, .vecs, .mbox, .inprog, .xlate, .gs, .sb, .link, .svc, .log]) s₀
  delta State.endCoachSeqs
  repeat' (first
    | with_reducible assumption
    | ((with_reducible apply Part.Sub.of); rfl)
    | (intro s; refine (fun h => ?_) (?_ : Upd [.regs, .hbm, .coaches, .vecs, .mbox, .inprog, .xlate, .gs, .sb, .link, .svc, .log] s₀ s); rotate_left; subst s; rotate_left)
    | lift_lets -underBinder
    | with_reducible apply Upd.ite
    | (with_reducible apply Upd.foldl; case' hf => intro _ _ h)
    | with_reducible apply State.dropMove_upd
    | with_reducible apply State.closeImport_upd
    | with_reducible apply State.abortExport_upd
    | with_reducible apply State.freeColdNow_upd
    | with_reducible apply State.setEnding_upd
    | split)

theorem State.cancelCoachBox_upd {F : List Part} {s₀ s : State} (c : Nat) (box : Nat) (h : Upd F s₀ s) (hF : Part.Sub [.regs, .vecs, .mbox, .inprog, .link, .svc] F) :
    Upd F s₀ (State.cancelCoachBox s c box) := by
  refine Upd.by_ h ?_ hF
  clear h hF
  revert s
  intro s₀
  have h := Upd.refl (F := [.regs, .vecs, .mbox, .inprog, .link, .svc]) s₀
  delta State.cancelCoachBox
  repeat' (first
    | with_reducible assumption
    | ((with_reducible apply Part.Sub.of); rfl)
    | with_reducible apply Upd.ite
    | with_reducible apply State.respond_upd)

theorem State.resetCoach_upd {F : List Part} {s₀ s : State} (c : Nat) (h : Upd F s₀ s) (hF : Part.Sub [.regs, .hbm, .coaches, .vecs, .mbox, .inprog, .xlate, .gs, .sb, .link, .svc, .log] F) :
    Upd F s₀ (State.resetCoach s c) := by
  refine Upd.by_ h ?_ hF
  clear h hF
  revert s
  intro s₀
  have h := Upd.refl (F := [.regs, .hbm, .coaches, .vecs, .mbox, .inprog, .xlate, .gs, .sb, .link, .svc, .log]) s₀
  delta State.resetCoach
  repeat' (first
    | with_reducible assumption
    | ((with_reducible apply Part.Sub.of); rfl)
    | (intro s; refine (fun h => ?_) (?_ : Upd [.regs, .hbm, .coaches, .vecs, .mbox, .inprog, .xlate, .gs, .sb, .link, .svc, .log] s₀ s); rotate_left; subst s; rotate_left)
    | lift_lets -underBinder
    | with_reducible apply State.set_upd
    | with_reducible apply State.modCoach_upd
    | with_reducible apply State.enterCoach_upd
    | with_reducible apply State.endCoachWork_upd
    | with_reducible apply State.dropNames_upd
    | with_reducible apply State.endCoachSeqs_upd)

theorem execCoachReset_upd (box : Nat) (s₀ : State) : ∃ t, execCoachReset box s₀ = .next t ∧ Upd [.free, .regs, .hbm, .coaches, .vecs, .mbox, .inprog, .lastCoach, .xlate, .gs, .sb, .link, .svc, .log] s₀ t := by
  have h := Upd.refl (F := [.free, .regs, .hbm, .coaches, .vecs, .mbox, .inprog, .lastCoach, .xlate, .gs, .sb, .link, .svc, .log]) s₀
  delta execCoachReset
  repeat' (first
    | with_reducible assumption
    | ((with_reducible apply Part.Sub.of); rfl)
    | with_reducible apply Upd.ite
    | with_reducible apply Upd.next
    | with_reducible apply State.respond_upd
    | with_reducible apply State.cancelCoachBox_upd
    | with_reducible apply State.resetCoach_upd
    | with_reducible apply State.inProg_upd
    | (with_reducible apply takeCommand_upd; case' hown => intro _ _ h))

theorem execCoachMap_upd (box : Nat) (s₀ : State) : ∃ t, execCoachMap box s₀ = .next t ∧ Upd [.free, .regs, .hbm, .coaches, .vecs, .mbox, .inprog, .lastCoach, .xlate, .link, .svc] s₀ t := by
  have h := Upd.refl (F := [.free, .regs, .hbm, .coaches, .vecs, .mbox, .inprog, .lastCoach, .xlate, .link, .svc]) s₀
  delta execCoachMap
  repeat' (first
    | with_reducible assumption
    | ((with_reducible apply Part.Sub.of); rfl)
    | (intro s; have _h : List _ := s; clear _h; clear_value s)
    | intro s
    | lift_lets -underBinder
    | with_reducible apply Upd.ite
    | with_reducible apply Upd.next
    | with_reducible apply State.respond_upd
    | with_reducible apply State.setMap_upd
    | with_reducible apply State.extendCm_upd
    | (with_reducible apply takeCommand_upd; case' hown => intro _ _ h))

theorem execCoachUnmap_upd (box : Nat) (s₀ : State) : ∃ t, execCoachUnmap box s₀ = .next t ∧ Upd [.free, .regs, .hbm, .coaches, .vecs, .mbox, .inprog, .lastCoach, .xlate, .link, .svc] s₀ t := by
  have h := Upd.refl (F := [.free, .regs, .hbm, .coaches, .vecs, .mbox, .inprog, .lastCoach, .xlate, .link, .svc]) s₀
  delta execCoachUnmap
  repeat' (first
    | with_reducible assumption
    | ((with_reducible apply Part.Sub.of); rfl)
    | (intro s; have _h : List _ := s; clear _h; clear_value s)
    | intro s
    | lift_lets -underBinder
    | with_reducible apply Upd.ite
    | with_reducible apply Upd.next
    | with_reducible apply State.respond_upd
    | with_reducible apply State.setMap_upd
    | with_reducible apply State.extendCm_upd
    | with_reducible apply State.inProg_upd
    | (with_reducible apply takeCommand_upd; case' hown => intro _ _ h))

theorem execTranslationCachesDropped_upd (s₀ : State) : ∃ t, execTranslationCachesDropped s₀ = .next t ∧ Upd [.regs, .vecs, .mbox, .inprog, .xlate, .link, .svc] s₀ t := by
  have h := Upd.refl (F := [.regs, .vecs, .mbox, .inprog, .xlate, .link, .svc]) s₀
  delta execTranslationCachesDropped
  repeat' (first
    | with_reducible assumption
    | ((with_reducible apply Part.Sub.of); rfl)
    | with_reducible apply Upd.ite
    | with_reducible apply Upd.next
    | with_reducible apply State.dropUnmapped_upd)

theorem execXlateWalkDone_upd (block : Nat) (coach : Nat) (addr : Nat) (write : Bool) (poisoned : Bool) (s₀ : State) : ∃ t, execXlateWalkDone block coach addr write poisoned s₀ = .next t ∧ Upd [.regs, .vecs, .xlate, .gs, .link] s₀ t := by
  have h := Upd.refl (F := [.regs, .vecs, .xlate, .gs, .link]) s₀
  delta execXlateWalkDone
  repeat' (first
    | with_reducible assumption
    | ((with_reducible apply Part.Sub.of); rfl)
    | (intro s; refine (fun h => ?_) (?_ : Upd [.regs, .vecs, .xlate, .gs, .link] s₀ s); rotate_left; subst s; rotate_left)
    | lift_lets -underBinder
    | with_reducible apply Upd.ite
    | with_reducible apply Upd.next
    | with_reducible apply State.bump_upd
    | with_reducible apply State.coachFatal_upd
    | with_reducible apply State.walk_upd)

theorem execLaunchAt_upd (box : Nat) (s₀ : State) : ∃ t, execLaunchAt box s₀ = .next t ∧ Upd [.free, .regs, .coaches, .vecs, .mbox, .inprog, .lastCoach, .link, .svc] s₀ t := by
  have h := Upd.refl (F := [.free, .regs, .coaches, .vecs, .mbox, .inprog, .lastCoach, .link, .svc]) s₀
  delta execLaunchAt
  repeat' (first
    | with_reducible assumption
    | with_reducible exact Upd.refl _
    | ((with_reducible apply Part.Sub.of); rfl)
    | (intro s; refine (fun h => ?_) (?_ : Upd [.free, .regs, .coaches, .vecs, .mbox, .inprog, .lastCoach, .link, .svc] s₀ s); rotate_left; subst s; rotate_left)
    | (intro q; refine (fun hq => ?_) (?_ : ∀ s, Upd [.free, .regs, .coaches, .vecs, .mbox, .inprog, .lastCoach, .link, .svc] s₀ s → Upd [.free, .regs, .coaches, .vecs, .mbox, .inprog, .lastCoach, .link, .svc] s₀ (q s)); rotate_left; subst q; intro s h; rotate_left)
    | (intro q; refine (fun hq => ?_) (?_ : ∀ s x, Upd [.free, .regs, .coaches, .vecs, .mbox, .inprog, .lastCoach, .link, .svc] s₀ s → Upd [.free, .regs, .coaches, .vecs, .mbox, .inprog, .lastCoach, .link, .svc] s₀ (q s x)); rotate_left; subst q; intro s x h; rotate_left)
    | (intro q; refine (fun hq => ?_) (?_ : ∀ x s, Upd [.free, .regs, .coaches, .vecs, .mbox, .inprog, .lastCoach, .link, .svc] s₀ s → Upd [.free, .regs, .coaches, .vecs, .mbox, .inprog, .lastCoach, .link, .svc] s₀ (q x s)); rotate_left; subst q; intro x s h; rotate_left)
    | (intro s; have _h : Option _ := s; clear _h; clear_value s)
    | (intro s; have _h : List _ := s; clear _h; clear_value s)
    | intro s
    | lift_lets -underBinder
    | with_reducible apply hq
    | with_reducible apply Upd.ite
    | with_reducible apply Upd.next
    | with_reducible apply State.respond_upd
    | with_reducible apply State.count_upd
    | with_reducible apply State.respondAs_upd
    | with_reducible apply State.modCoach_upd
    | (with_reducible apply takeCommand_upd; case' hown => intro _ _ h)
    | split)


theorem execLaunchTime_upd (coach : Nat) (s₀ : State) : ∃ t, execLaunchTime coach s₀ = .next t ∧ Upd [.regs, .coaches, .vecs, .link] s₀ t := by
  have h := Upd.refl (F := [.regs, .coaches, .vecs, .link]) s₀
  delta execLaunchTime
  repeat' (first
    | with_reducible assumption
    | ((with_reducible apply Part.Sub.of); rfl)
    | (intro s; refine (fun h => ?_) (?_ : Upd [.regs, .coaches, .vecs, .link] s₀ s); rotate_left; subst s; rotate_left)
    | lift_lets -underBinder
    | with_reducible apply Upd.ite
    | with_reducible apply Upd.next
    | with_reducible apply State.enterCoach_upd
    | with_reducible apply State.modCoach_upd
    | split)

theorem execLaunchWindow_upd (coach : Nat) (s₀ : State) : ∃ t, execLaunchWindow coach s₀ = .next t ∧ Upd [.regs, .coaches] s₀ t := by
  have h := Upd.refl (F := [.regs, .coaches]) s₀
  delta execLaunchWindow
  repeat' (first
    | with_reducible assumption
    | ((with_reducible apply Part.Sub.of); rfl)
    | (intro s; have _h : List _ := s; clear _h; clear_value s)
    | lift_lets -underBinder
    | with_reducible apply Upd.ite
    | with_reducible apply Upd.next
    | with_reducible apply State.modCoach_upd
    | with_reducible apply State.count_upd
    | split)

theorem execInterruptCoalTimeout_upd (vec : Nat) (s₀ : State) : ∃ t, execInterruptCoalTimeout vec s₀ = .next t ∧ Upd [.regs, .vecs, .link] s₀ t := by
  have h := Upd.refl (F := [.regs, .vecs, .link]) s₀
  delta execInterruptCoalTimeout
  repeat' (first
    | with_reducible assumption
    | ((with_reducible apply Part.Sub.of); rfl)
    | with_reducible apply Upd.next
    | with_reducible apply State.trySend_upd)

theorem State.writeVcfg_upd {F : List Part} {s₀ s : State} (i : Nat) (value : Nat) (h : Upd F s₀ s) (hF : Part.Sub [.regs, .vecs, .link] F) :
    Upd F s₀ (State.writeVcfg s i value) := by
  refine Upd.by_ h ?_ hF
  clear h hF
  revert s
  intro s₀
  have h := Upd.refl (F := [.regs, .vecs, .link]) s₀
  delta State.writeVcfg
  repeat' (first
    | with_reducible assumption
    | ((with_reducible apply Part.Sub.of); rfl)
    | (intro s; refine (fun h => ?_) (?_ : Upd [.regs, .vecs, .link] s₀ s); rotate_left; subst s; rotate_left)
    | intro s
    | lift_lets -underBinder
    | with_reducible apply Upd.ite
    | with_reducible apply State.set_upd
    | with_reducible apply State.trySend_upd)

theorem execVcfgWrite_upd (vec : Nat) (value : Nat) (s₀ : State) : ∃ t, execVcfgWrite vec value s₀ = .next t ∧ Upd [.regs, .vecs, .link] s₀ t := by
  have h := Upd.refl (F := [.regs, .vecs, .link]) s₀
  delta execVcfgWrite
  repeat' (first
    | with_reducible assumption
    | ((with_reducible apply Part.Sub.of); rfl)
    | with_reducible apply Upd.ite
    | with_reducible apply Upd.next
    | with_reducible apply State.writeVcfg_upd)

theorem State.rwhWrite_upd {F : List Part} {s₀ s : State} (c : Nat) (off : Nat) (value : Nat) (h : Upd F s₀ s) (hF : Part.Sub [.regs] F) :
    Upd1 F s₀ (State.rwhWrite s c off value) := by
  refine Upd1.by_ h ?_ hF
  clear h hF
  revert s
  intro s₀
  have h := Upd.refl (F := [.regs]) s₀
  delta State.rwhWrite
  repeat' (first
    | with_reducible assumption
    | ((with_reducible apply Part.Sub.of); rfl)
    | (intro s; refine (fun h => ?_) (?_ : Upd [.regs] s₀ s); rotate_left; subst s; rotate_left)
    | intro s
    | lift_lets -underBinder
    | with_reducible apply Upd.ite
    | with_reducible apply State.set_upd
    | with_reducible apply State.bump_upd
    | (with_reducible apply Upd1.mk; fail_if_success (with_reducible apply Upd1.fst))
    | with_reducible apply Upd1.ite)

theorem execCoachRwhWrite_upd (coach : Nat) (off : Nat) (value : Nat) (s₀ : State) : ∃ t, execCoachRwhWrite coach off value s₀ = .next t ∧ Upd [.regs] s₀ t := by
  have h := Upd.refl (F := [.regs]) s₀
  delta execCoachRwhWrite
  repeat' (first
    | with_reducible assumption
    | ((with_reducible apply Part.Sub.of); rfl)
    | with_reducible apply Upd.ite
    | with_reducible apply Upd.next
    | with_reducible apply State.rwhWrite_upd
    | with_reducible apply Upd1.fst)

end Sys2Proof.Machine
end

