-- ==== Sys2Proof/Laws/UpdWindow.lean ====
section
/-!
SUPPORT. What each operation of Machine/Window.lean may change.
-/
namespace Sys2Proof.Machine

theorem State.clearRc_upd {F : List Part} {s₀ s : State} (a : Nat) (h : Upd F s₀ s) (hF : Part.Sub [.regs] F) :
    Upd F s₀ (State.clearRc s a) := by
  refine Upd.by_ h ?_ hF
  clear h hF
  revert s
  intro s₀
  have h := Upd.refl (F := [.regs]) s₀
  delta State.clearRc
  repeat' (first
    | with_reducible assumption
    | ((with_reducible apply Part.Sub.of); rfl)
    | lift_lets -underBinder
    | with_reducible apply Upd.ite
    | (with_reducible apply Upd.foldl; case' hf => intro _ _ h)
    | with_reducible apply State.set_upd
    | split)

theorem State.windowRead_upd {F : List Part} {s₀ s : State} (admin : Bool) (coach a n : Nat) (h : Upd F s₀ s)
    (hF : Part.Sub [.regs] F) : Upd1 F s₀ (s.windowRead admin coach a n) := by
  induction n generalizing s a with
  | zero => exact Upd1.mk h
  | succ n ih =>
    unfold State.windowRead
    refine Upd1.mk (Upd1.fst (ih _ ?_))
    split
    · exact State.clearRc_upd _ h hF
    · exact h

theorem State.writeChipMode_upd {F : List Part} {s₀ s : State} (v : Nat) (h : Upd F s₀ s) (hF : Part.Sub [.regs, .gs] F) :
    Upd F s₀ (State.writeChipMode s v) := by
  refine Upd.by_ h ?_ hF
  clear h hF
  revert s
  intro s₀
  have h := Upd.refl (F := [.regs, .gs]) s₀
  delta State.writeChipMode
  repeat' (first
    | with_reducible assumption
    | ((with_reducible apply Part.Sub.of); rfl)
    | (intro s; refine (fun h => ?_) (?_ : Upd [.regs, .gs] s₀ s); rotate_left; subst s; rotate_left)
    | intro s
    | lift_lets -underBinder
    | with_reducible apply Upd.ite
    | (with_reducible apply Upd.gs; case h => with_reducible assumption)
    | with_reducible apply State.setChip_upd
    | with_reducible apply State.applyMode_upd)

theorem State.unlocked_upd {F : List Part} {s₀ s : State} (h : Upd F s₀ s) (hF : Part.Sub [.regs, .vecs, .link] F) :
    Upd F s₀ (State.unlocked s) := by
  refine Upd.by_ h ?_ hF
  clear h hF
  revert s
  intro s₀
  have h := Upd.refl (F := [.regs, .vecs, .link]) s₀
  delta State.unlocked
  repeat' (first
    | with_reducible assumption
    | ((with_reducible apply Part.Sub.of); rfl)
    | with_reducible apply Upd.ite
    | (with_reducible apply Upd.foldl; case' hf => intro _ _ h)
    | with_reducible apply State.event_upd)

theorem State.setSync_upd {F : List Part} {s₀ s : State} (st : Nat) (h : Upd F s₀ s) (hF : Part.Sub [.regs, .vecs, .link] F) :
    Upd F s₀ (State.setSync s st) := by
  refine Upd.by_ h ?_ hF
  clear h hF
  revert s
  intro s₀
  have h := Upd.refl (F := [.regs, .vecs, .link]) s₀
  delta State.setSync
  repeat' (first
    | with_reducible assumption
    | ((with_reducible apply Part.Sub.of); rfl)
    | (intro s; refine (fun h => ?_) (?_ : Upd [.regs, .vecs, .link] s₀ s); rotate_left; subst s; rotate_left)
    | lift_lets -underBinder
    | with_reducible apply Upd.ite
    | with_reducible apply State.unlocked_upd
    | with_reducible apply State.setChip_upd)

theorem State.writeGcSync_upd {F : List Part} {s₀ s : State} (v : Nat) (h : Upd F s₀ s) (hF : Part.Sub [.regs, .vecs, .link] F) :
    Upd F s₀ (State.writeGcSync s v) := by
  refine Upd.by_ h ?_ hF
  clear h hF
  revert s
  intro s₀
  have h := Upd.refl (F := [.regs, .vecs, .link]) s₀
  delta State.writeGcSync
  repeat' (first
    | with_reducible assumption
    | ((with_reducible apply Part.Sub.of); rfl)
    | (intro s; refine (fun h => ?_) (?_ : Upd [.regs, .vecs, .link] s₀ s); rotate_left; subst s; rotate_left)
    | intro s
    | lift_lets -underBinder
    | with_reducible apply Upd.ite
    | (with_reducible apply Upd.link; case h => with_reducible assumption)
    | with_reducible apply State.setChip_upd
    | with_reducible apply State.setSync_upd)

theorem State.setLaser_upd {F : List Part} {s₀ s : State} (p : Nat) (v : Nat) (h : Upd F s₀ s) (hF : Part.Sub [.regs] F) :
    Upd F s₀ (State.setLaser s p v) := by
  refine Upd.by_ h ?_ hF
  clear h hF
  revert s
  intro s₀
  have h := Upd.refl (F := [.regs]) s₀
  delta State.setLaser
  repeat' (first
    | with_reducible assumption
    | ((with_reducible apply Part.Sub.of); rfl)
    | (intro s; refine (fun h => ?_) (?_ : Upd [.regs] s₀ s); rotate_left; subst s; rotate_left)
    | intro s
    | lift_lets -underBinder
    | with_reducible apply State.set_upd
    | with_reducible apply State.setChip_upd)

theorem State.endLoop_upd {F : List Part} {s₀ s : State} (p : Nat) (h : Upd F s₀ s) (hF : Part.Sub [.free, .regs] F) :
    Upd F s₀ (State.endLoop s p) := by
  refine Upd.by_ h ?_ hF
  clear h hF
  revert s
  intro s₀
  have h := Upd.refl (F := [.free, .regs]) s₀
  delta State.endLoop
  repeat' (first
    | with_reducible assumption
    | ((with_reducible apply Part.Sub.of); rfl)
    | (intro s; refine (fun h => ?_) (?_ : Upd [.free, .regs] s₀ s); rotate_left; subst s; rotate_left)
    | intro s
    | lift_lets -underBinder
    | with_reducible apply Upd.ite
    | with_reducible apply State.set_upd
    | with_reducible apply State.draw_upd
    | with_reducible apply State.bump_upd
    | with_reducible apply State.setLaser_upd)

theorem State.writeLbEkl_upd {F : List Part} {s₀ s : State} (p : Nat) (d : Nat) (h : Upd F s₀ s) (hF : Part.Sub [.free, .regs] F) :
    Upd F s₀ (State.writeLbEkl s p d) := by
  refine Upd.by_ h ?_ hF
  clear h hF
  revert s
  intro s₀
  have h := Upd.refl (F := [.free, .regs]) s₀
  delta State.writeLbEkl
  repeat' (first
    | with_reducible assumption
    | ((with_reducible apply Part.Sub.of); rfl)
    | (intro s; refine (fun h => ?_) (?_ : Upd [.free, .regs] s₀ s); rotate_left; subst s; rotate_left)
    | intro s
    | lift_lets -underBinder
    | with_reducible apply Upd.ite
    | with_reducible apply State.set_upd
    | with_reducible apply State.endLoop_upd
    | with_reducible apply State.draw_upd
    | with_reducible apply State.setLaser_upd)

theorem State.writeLbHbm_upd {F : List Part} {s₀ s : State} (m : Nat) (d : Nat) (h : Upd F s₀ s) (hF : Part.Sub [.free, .regs, .hbm] F) :
    Upd F s₀ (State.writeLbHbm s m d) := by
  refine Upd.by_ h ?_ hF
  clear h hF
  revert s
  intro s₀
  have h := Upd.refl (F := [.free, .regs, .hbm]) s₀
  delta State.writeLbHbm
  repeat' (first
    | with_reducible assumption
    | ((with_reducible apply Part.Sub.of); rfl)
    | with_reducible apply MemUpd.refl
    | (intro s; refine (fun h => ?_) (?_ : Upd [.free, .regs, .hbm] s₀ s); rotate_left; subst s; rotate_left)
    | intro s
    | lift_lets -underBinder
    | with_reducible apply Upd.ite
    | (with_reducible apply Upd.setHbm; case h => with_reducible assumption)
    | with_reducible apply State.set_upd
    | with_reducible apply State.draw_upd)

theorem State.writePortCtrl_upd {F : List Part} {s₀ s : State} (p : Nat) (v : Nat) (h : Upd F s₀ s) (hF : Part.Sub [.free, .regs, .hbm, .cores, .vecs, .gs, .sb, .link, .svc, .log] F) :
    Upd F s₀ (State.writePortCtrl s p v) := by
  refine Upd.by_ h ?_ hF
  clear h hF
  revert s
  intro s₀
  have h := Upd.refl (F := [.free, .regs, .hbm, .cores, .vecs, .gs, .sb, .link, .svc, .log]) s₀
  delta State.writePortCtrl
  repeat' (first
    | with_reducible assumption
    | ((with_reducible apply Part.Sub.of); rfl)
    | (intro s; refine (fun h => ?_) (?_ : Upd [.free, .regs, .hbm, .cores, .vecs, .gs, .sb, .link, .svc, .log] s₀ s); rotate_left; subst s; rotate_left)
    | intro s
    | lift_lets -underBinder
    | with_reducible apply Upd.ite
    | with_reducible apply State.set_upd
    | with_reducible apply State.loseLink_upd
    | with_reducible apply State.enterLink_upd
    | with_reducible apply State.setLaser_upd
    | with_reducible apply State.endLoop_upd)

theorem State.writeSvcCtrl_upd {F : List Part} {s₀ s : State} (v : Nat) (h : Upd F s₀ s) (hF : Part.Sub [.regs, .link, .svc] F) :
    Upd F s₀ (State.writeSvcCtrl s v) := by
  refine Upd.by_ h ?_ hF
  clear h hF
  revert s
  intro s₀
  have h := Upd.refl (F := [.regs, .link, .svc]) s₀
  delta State.writeSvcCtrl
  repeat' (first
    | with_reducible assumption
    | ((with_reducible apply Part.Sub.of); rfl)
    | (intro s; refine (fun h => ?_) (?_ : Upd [.regs, .link, .svc] s₀ s); rotate_left; subst s; rotate_left)
    | lift_lets -underBinder
    | with_reducible apply State.setChip_upd
    | with_reducible apply State.serviceNote_upd)

theorem State.writePmInterval_upd {F : List Part} {s₀ s : State} (v : Nat) (h : Upd F s₀ s) (hF : Part.Sub [.regs, .hbm] F) :
    Upd F s₀ (State.writePmInterval s v) := by
  refine Upd.by_ h ?_ hF
  clear h hF
  revert s
  intro s₀
  have h := Upd.refl (F := [.regs, .hbm]) s₀
  delta State.writePmInterval
  repeat' (first
    | with_reducible assumption
    | ((with_reducible apply Part.Sub.of); rfl)
    | with_reducible apply MemUpd.refl
    | (intro s; refine (fun h => ?_) (?_ : Upd [.regs, .hbm] s₀ s); rotate_left; subst s; rotate_left)
    | intro s
    | lift_lets -underBinder
    | (with_reducible apply Upd.setHbm; case h => with_reducible assumption)
    | with_reducible apply State.setChip_upd)

theorem State.writePlain_upd {F : List Part} {s₀ s : State} (a : Nat) (v : Nat) (h : Upd F s₀ s) (hF : Part.Sub [.regs] F) :
    Upd F s₀ (State.writePlain s a v) := by
  refine Upd.by_ h ?_ hF
  clear h hF
  revert s
  intro s₀
  have h := Upd.refl (F := [.regs]) s₀
  delta State.writePlain
  repeat' (first
    | with_reducible assumption
    | ((with_reducible apply Part.Sub.of); rfl)
    | lift_lets -underBinder
    | with_reducible apply Upd.ite
    | (with_reducible apply Upd.foldl; case' hf => intro _ _ h)
    | with_reducible apply State.set_upd
    | split)

theorem State.writeReg_upd {F : List Part} {s₀ s : State} (a : Nat) (v : Nat) (h : Upd F s₀ s) (hF : Part.Sub [.free, .regs, .hbm, .cores, .coaches, .vecs, .gs, .sb, .link, .svc, .log] F) :
    Upd F s₀ (State.writeReg s a v) := by
  refine Upd.by_ h ?_ hF
  clear h hF
  revert s
  intro s₀
  have h := Upd.refl (F := [.free, .regs, .hbm, .cores, .coaches, .vecs, .gs, .sb, .link, .svc, .log]) s₀
  delta State.writeReg
  repeat' (first
    | with_reducible assumption
    | ((with_reducible apply Part.Sub.of); rfl)
    | lift_lets -underBinder
    | with_reducible apply Upd.ite
    | with_reducible apply State.writeChipMode_upd
    | with_reducible apply State.writeGcSync_upd
    | with_reducible apply State.writeSvcCtrl_upd
    | with_reducible apply State.writePmInterval_upd
    | with_reducible apply State.setChip_upd
    | with_reducible apply State.poolMark_upd
    | with_reducible apply State.writePortCtrl_upd
    | with_reducible apply State.writeLbEkl_upd
    | with_reducible apply State.writeLbHbm_upd
    | with_reducible apply State.writeVcfg_upd
    | with_reducible apply State.settleBucket_upd
    | with_reducible apply State.writePlain_upd
    | split)

theorem State.writeWord_upd {F : List Part} {s₀ s : State} (admin : Bool) (coach : Nat) (a : Nat) (v : Nat) (h : Upd F s₀ s) (hF : Part.Sub [.free, .regs, .hbm, .cores, .coaches, .vecs, .gs, .sb, .link, .svc, .log] F) :
    Upd1 F s₀ (State.writeWord s admin coach a v) := by
  refine Upd1.by_ h ?_ hF
  clear h hF
  revert s
  intro s₀
  have h := Upd.refl (F := [.free, .regs, .hbm, .cores, .coaches, .vecs, .gs, .sb, .link, .svc, .log]) s₀
  delta State.writeWord
  repeat' (first
    | with_reducible assumption
    | ((with_reducible apply Part.Sub.of); rfl)
    | lift_lets -underBinder
    | with_reducible apply State.rwhWrite_upd
    | with_reducible apply State.writeReg_upd
    | with_reducible apply State.writePlain_upd
    | with_reducible apply State.bump_upd
    | (with_reducible apply Upd1.mk; fail_if_success (with_reducible apply Upd1.fst))
    | with_reducible apply Upd1.ite
    | with_reducible apply Upd1.fst
    | split
    | with_reducible apply Upd1.mk)

theorem State.writeBox_upd {F : List Part} {s₀ s : State} (a : Nat) (l : List Byte) (h : Upd F s₀ s) (hF : Part.Sub [.regs, .mbox] F) :
    Upd F s₀ (State.writeBox s a l) := by
  refine Upd.by_ h ?_ hF
  clear h hF
  revert s
  intro s₀
  have h := Upd.refl (F := [.regs, .mbox]) s₀
  delta State.writeBox
  repeat' (first
    | with_reducible assumption
    | ((with_reducible apply Part.Sub.of); rfl)
    | (with_reducible apply MemUpd.write; with_reducible apply MemUpd.refl)
    | intro s
    | lift_lets -underBinder
    | with_reducible apply Upd.ite
    | (with_reducible apply Upd.setMbox; case h => with_reducible assumption)
    | with_reducible apply State.count_upd)

theorem State.rwhRefusal_upd {F : List Part} {s₀ s t : State} {a k : Nat} {l : List Nat} (h : Upd F s₀ s)
    (e : s.rwhRefusal a l = some (t, k)) (hF : Part.Sub [.regs] F) : Upd F s₀ t := by
  induction l generalizing a with
  | nil => cases e
  | cons v r ih =>
    unfold State.rwhRefusal at e
    split at e
    next c off _ =>
      split at e
      · exact ih e
      · dsimp only at e
        split at e
        · exact ih e
        · exact Upd1.of (Option.some.inj e) (State.rwhWrite_upd _ _ _ h hF)
    next => exact ih e

theorem State.writeWords_upd {F : List Part} {s₀ s : State} (admin : Bool) (coach n a : Nat) (l : List Nat) (h : Upd F s₀ s)
    (hF : Part.Sub [.free, .regs, .hbm, .cores, .coaches, .vecs, .mbox, .gs, .sb, .link, .svc, .log] F) : Upd1 F s₀ (s.writeWords admin coach n a l) := by
  induction n generalizing s a l with
  | zero => exact Upd1.mk h
  | succ n ih =>
    cases l with
    | nil => exact Upd1.mk h
    | cons v r =>
      unfold State.writeWords
      split
      · refine Upd1.mk (Upd1.fst (ih _ _ ?_))
        split
        · split
          · exact h
          · exact State.writeBox_upd _ _ h (Part.Sub.trans (Part.Sub.of rfl) hF)
        · exact State.bump_upd _ _ _ h (Part.Sub.trans (Part.Sub.of rfl) hF)
      · exact Upd1.mk (Upd1.fst (ih _ _ (Upd1.fst (State.writeWord_upd _ _ _ _ h (Part.Sub.trans (Part.Sub.of rfl) hF)))))

theorem State.windowWrite_upd {F : List Part} {s₀ s : State} (admin : Bool) (coach a : Nat) (ws : List Nat) (h : Upd F s₀ s)
    (hF : Part.Sub [.free, .regs, .hbm, .cores, .coaches, .vecs, .mbox, .gs, .sb, .link, .svc, .log] F) : Upd1 F s₀ (s.windowWrite admin coach a ws) := by
  unfold State.windowWrite
  split
  next q e =>
    split at e
    · exact State.rwhRefusal_upd h e (Part.Sub.trans (Part.Sub.of rfl) hF)
    · cases e
  next => exact Upd1.mk (Upd1.fst (State.writeWords_upd _ _ _ _ _ h (Part.Sub.trans (Part.Sub.of rfl) hF)))

end Sys2Proof.Machine
end

