-- ==== Sys2Proof/Laws/UpdBootOps.lean ====
section
/-!
SUPPORT. What each operation of Machine/BootOps.lean may change.
-/
namespace Sys2Proof.Machine

theorem State.enterRom_upd {F : List Part} {s₀ s : State} (st : Nat) (h : Upd F s₀ s) (hF : Part.Sub [.regs] F) :
    Upd F s₀ (State.enterRom s st) := by
  refine Upd.by_ h ?_ hF
  clear h hF
  revert s
  intro s₀
  have h := Upd.refl (F := [.regs]) s₀
  delta State.enterRom
  repeat' (first
    | with_reducible assumption
    | ((with_reducible apply Part.Sub.of); rfl)
    | with_reducible apply State.setChip_upd)

theorem State.romFailed_upd {F : List Part} {s₀ s : State} (reason : Nat) (h : Upd F s₀ s) (hF : Part.Sub [.regs] F) :
    Upd F s₀ (State.romFailed s reason) := by
  refine Upd.by_ h ?_ hF
  clear h hF
  revert s
  intro s₀
  have h := Upd.refl (F := [.regs]) s₀
  delta State.romFailed
  repeat' (first
    | with_reducible assumption
    | ((with_reducible apply Part.Sub.of); rfl)
    | with_reducible apply State.enterRom_upd
    | with_reducible apply State.setChip_upd)

theorem State.bootReq_upd {F : List Part} {s₀ s : State} (p : Nat) (h : Upd F s₀ s) (hF : Part.Sub [.link] F) :
    Upd F s₀ (State.bootReq s p) := by
  refine Upd.by_ h ?_ hF
  clear h hF
  revert s
  intro s₀
  have h := Upd.refl (F := [.link]) s₀
  delta State.bootReq
  repeat' (first
    | with_reducible assumption
    | ((with_reducible apply Part.Sub.of); rfl)
    | with_reducible apply State.mgmtTo_upd)

theorem State.bootReqAll_upd {F : List Part} {s₀ s : State} (h : Upd F s₀ s) (hF : Part.Sub [.link, .boot] F) :
    Upd F s₀ (State.bootReqAll s) := by
  refine Upd.by_ h ?_ hF
  clear h hF
  revert s
  intro s₀
  have h := Upd.refl (F := [.link, .boot]) s₀
  delta State.bootReqAll
  repeat' (first
    | with_reducible assumption
    | ((with_reducible apply Part.Sub.of); rfl)
    | (intro s; refine (fun h => ?_) (?_ : Upd [.link, .boot] s₀ s); rotate_left; subst s; rotate_left)
    | intro s
    | lift_lets -underBinder
    | (with_reducible apply Upd.foldl; case' hf => intro _ _ h)
    | (with_reducible apply Upd.boot; case h => with_reducible assumption)
    | with_reducible apply State.bootReq_upd)

theorem State.enterRequest_upd {F : List Part} {s₀ s : State} (h : Upd F s₀ s) (hF : Part.Sub [.regs, .link, .boot] F) :
    Upd F s₀ (State.enterRequest s) := by
  refine Upd.by_ h ?_ hF
  clear h hF
  revert s
  intro s₀
  have h := Upd.refl (F := [.regs, .link, .boot]) s₀
  delta State.enterRequest
  repeat' (first
    | with_reducible assumption
    | ((with_reducible apply Part.Sub.of); rfl)
    | ((with_reducible apply Or.inr); exact .of rfl)
    | ((with_reducible apply Or.inl); rfl)
    | with_reducible apply Nat.le_refl
    | with_reducible apply Upd.gcount_id
    | with_reducible apply MemUpd.refl
    | with_reducible apply RegsUpd.refl
    | with_reducible apply FusesUpd.refl
    | with_reducible apply NocUpd.refl
    | (intro s; refine (fun h => ?_) (?_ : Upd [.regs, .link, .boot] s₀ s); rotate_left; subst s; rotate_left)
    | intro s
    | lift_lets -underBinder
    | (with_reducible apply Upd.fields; (case h => with_reducible assumption))
    | with_reducible apply State.enterRom_upd
    | with_reducible apply State.bootReqAll_upd)

theorem State.bootFail_upd {F : List Part} {s₀ s : State} (status : Nat) (reason : Nat) (h : Upd F s₀ s) (hF : Part.Sub [.regs, .link, .boot, .svc] F) :
    Upd F s₀ (State.bootFail s status reason) := by
  refine Upd.by_ h ?_ hF
  clear h hF
  revert s
  intro s₀
  have h := Upd.refl (F := [.regs, .link, .boot, .svc]) s₀
  delta State.bootFail
  repeat' (first
    | with_reducible assumption
    | ((with_reducible apply Part.Sub.of); rfl)
    | (intro s; refine (fun h => ?_) (?_ : Upd [.regs, .link, .boot, .svc] s₀ s); rotate_left; subst s; rotate_left)
    | lift_lets -underBinder
    | with_reducible apply Upd.ite
    | with_reducible apply State.mgmtTo_upd
    | with_reducible apply State.setChip_upd
    | with_reducible apply State.bumpSat_upd
    | with_reducible apply State.alertCause_upd
    | with_reducible apply State.enterRequest_upd)

theorem State.bootRead_upd {F : List Part} {s₀ s : State} (off : Nat) (h : Upd F s₀ s) (hF : Part.Sub [.link, .boot] F) :
    Upd F s₀ (State.bootRead s off) := by
  refine Upd.by_ h ?_ hF
  clear h hF
  revert s
  intro s₀
  have h := Upd.refl (F := [.link, .boot]) s₀
  delta State.bootRead
  repeat' (first
    | with_reducible assumption
    | ((with_reducible apply Part.Sub.of); rfl)
    | (intro s; refine (fun h => ?_) (?_ : Upd [.link, .boot] s₀ s); rotate_left; subst s; rotate_left)
    | intro s
    | lift_lets -underBinder
    | (with_reducible apply Upd.boot; case h => with_reducible assumption)
    | with_reducible apply State.request_upd)

theorem State.bootIssue_upd {F : List Part} {s₀ s : State} (n : Nat) (h : Upd F s₀ s) (hF : Part.Sub [.link, .boot] F) :
    Upd F s₀ (State.bootIssue n s) := by
  induction n generalizing s with
  | zero => exact h
  | succ n ih =>
    unfold State.bootIssue
    split
    · exact ih (State.bootRead_upd _ (Upd.boot _ h (Part.Sub.trans (Part.Sub.of rfl) hF)) (Part.Sub.trans (Part.Sub.of rfl) hF))
    · exact h

theorem State.bootStart_upd {F : List Part} {s₀ s : State} (h : Upd F s₀ s) (hF : Part.Sub [.link, .boot] F) :
    Upd F s₀ (State.bootStart s) := by
  refine Upd.by_ h ?_ hF
  clear h hF
  revert s
  intro s₀
  have h := Upd.refl (F := [.link, .boot]) s₀
  delta State.bootStart
  repeat' (first
    | ((with_reducible apply Part.Sub.of); rfl)
    | intro s
    | lift_lets -underBinder
    | (with_reducible apply Upd.boot; case h => with_reducible assumption)
    | with_reducible apply State.bootIssue_upd)

theorem State.keepImage_upd {F : List Part} {s₀ s : State} (status : Nat) (h : Upd F s₀ s) (hF : Part.Sub [.link, .boot] F) :
    Upd F s₀ (State.keepImage s status) := by
  refine Upd.by_ h ?_ hF
  clear h hF
  revert s
  intro s₀
  have h := Upd.refl (F := [.link, .boot]) s₀
  delta State.keepImage
  repeat' (first
    | ((with_reducible apply Or.inr); exact .of rfl)
    | ((with_reducible apply Or.inl); rfl)
    | with_reducible apply Nat.le_refl
    | with_reducible apply Upd.gcount_id
    | with_reducible apply MemUpd.refl
    | with_reducible apply RegsUpd.refl
    | with_reducible apply FusesUpd.refl
    | with_reducible apply NocUpd.refl
    | intro s
    | lift_lets -underBinder
    | (with_reducible apply Upd.fields; (case h => with_reducible assumption)))

theorem State.bootReadFailed_upd {F : List Part} {s₀ s : State} (off : Nat) (status : Nat) (h : Upd F s₀ s) (hF : Part.Sub [.regs, .link, .boot, .svc] F) :
    Upd F s₀ (State.bootReadFailed s off status) := by
  refine Upd.by_ h ?_ hF
  clear h hF
  revert s
  intro s₀
  have h := Upd.refl (F := [.regs, .link, .boot, .svc]) s₀
  delta State.bootReadFailed
  repeat' (first
    | with_reducible assumption
    | ((with_reducible apply Part.Sub.of); rfl)
    | intro s
    | lift_lets -underBinder
    | with_reducible apply Upd.ite
    | (with_reducible apply Upd.boot; case h => with_reducible assumption)
    | with_reducible apply State.bootRead_upd
    | with_reducible apply State.keepImage_upd
    | with_reducible apply State.bootFail_upd)

theorem State.bootAnswer_upd {F : List Part} {s₀ s : State} (off : Nat) (n : Nat) (status : Nat) (data : List Byte) (h : Upd F s₀ s) (hF : Part.Sub [.regs, .hbm, .link, .boot, .svc] F) :
    Upd F s₀ (State.bootAnswer s off n status data) := by
  refine Upd.by_ h ?_ hF
  clear h hF
  revert s
  intro s₀
  have h := Upd.refl (F := [.regs, .hbm, .link, .boot, .svc]) s₀
  delta State.bootAnswer
  repeat' (first
    | with_reducible assumption
    | ((with_reducible apply Part.Sub.of); rfl)
    | (intro s; refine (fun h => ?_) (?_ : Upd [.regs, .hbm, .link, .boot, .svc] s₀ s); rotate_left; subst s; rotate_left)
    | intro s
    | lift_lets -underBinder
    | with_reducible apply Upd.ite
    | (with_reducible apply Upd.boot; case h => with_reducible assumption)
    | with_reducible apply State.bootIssue_upd
    | with_reducible apply State.bootReadFailed_upd
    | with_reducible apply State.memWrite_upd)

theorem State.resendLost_upd {F : List Part} {s₀ s : State} (p : Nat) (h : Upd F s₀ s) (hF : Part.Sub [.link] F) :
    Upd F s₀ (State.resendLost s p) := by
  refine Upd.by_ h ?_ hF
  clear h hF
  revert s
  intro s₀
  have h := Upd.refl (F := [.link]) s₀
  delta State.resendLost
  repeat' (first
    | with_reducible assumption
    | ((with_reducible apply Part.Sub.of); rfl)
    | (intro s; refine (fun h => ?_) (?_ : Upd [.link] s₀ s); rotate_left; subst s; rotate_left)
    | (intro s; have _h : List _ := s; clear _h; clear_value s)
    | intro s
    | lift_lets -underBinder
    | (with_reducible apply Upd.foldl; case' hf => intro _ _ h)
    | (with_reducible apply Upd.link; case h => with_reducible assumption)
    | with_reducible apply State.enqueue_upd)

theorem State.wakeNotice_upd {F : List Part} {s₀ s : State} (h : Upd F s₀ s) (hF : Part.Sub [.free, .regs, .vecs, .gs, .link, .pwr, .svc, .log] F) :
    Upd F s₀ (State.wakeNotice s) := by
  refine Upd.by_ h ?_ hF
  clear h hF
  revert s
  intro s₀
  have h := Upd.refl (F := [.free, .regs, .vecs, .gs, .link, .pwr, .svc, .log]) s₀
  delta State.wakeNotice
  repeat' (first
    | with_reducible assumption
    | ((with_reducible apply Part.Sub.of); rfl)
    | (intro s; refine (fun h => ?_) (?_ : Upd [.free, .regs, .vecs, .gs, .link, .pwr, .svc, .log] s₀ s); rotate_left; subst s; rotate_left)
    | intro s
    | lift_lets -underBinder
    | with_reducible apply Upd.ite
    | (with_reducible apply Upd.pwr; case h => with_reducible assumption)
    | with_reducible apply State.draw_upd
    | with_reducible apply State.setChip_upd
    | with_reducible apply State.refreshDrain_upd
    | with_reducible apply State.tellHosts_upd
    | with_reducible apply State.raise_upd
    | with_reducible apply State.alertCause_upd)

theorem State.linkUp_upd {F : List Part} {s₀ s : State} (p : Nat) (h : Upd F s₀ s) (hF : Part.Sub [.free, .regs, .vecs, .gs, .link, .boot, .pwr, .svc, .log] F) :
    Upd F s₀ (State.linkUp s p) := by
  refine Upd.by_ h ?_ hF
  clear h hF
  revert s
  intro s₀
  have h := Upd.refl (F := [.free, .regs, .vecs, .gs, .link, .boot, .pwr, .svc, .log]) s₀
  delta State.linkUp
  repeat' (first
    | with_reducible assumption
    | ((with_reducible apply Part.Sub.of); rfl)
    | (intro s; refine (fun h => ?_) (?_ : Upd [.free, .regs, .vecs, .gs, .link, .boot, .pwr, .svc, .log] s₀ s); rotate_left; subst s; rotate_left)
    | lift_lets -underBinder
    | with_reducible apply Upd.ite
    | with_reducible apply State.enterLink_upd
    | with_reducible apply State.set_upd
    | with_reducible apply State.resendLost_upd
    | with_reducible apply State.wakeNotice_upd
    | with_reducible apply State.enterRequest_upd)

end Sys2Proof.Machine
end

