-- ==== Sys2Proof/Laws/UpdMessages.lean ====
section
/-!
SUPPORT. What each operation of Machine/Messages.lean may change.
-/
namespace Sys2Proof.Machine

theorem State.badMsg_upd {F : List Part} {s₀ s : State} (p : Nat) (m : Msg) (h : Upd F s₀ s) (hF : Part.Sub [.regs, .vecs, .gs, .link, .svc, .log] F) :
    Upd F s₀ (State.badMsg s p m) := by
  refine Upd.by_ h ?_ hF
  clear h hF
  revert s
  intro s₀
  have h := Upd.refl (F := [.regs, .vecs, .gs, .link, .svc, .log]) s₀
  delta State.badMsg
  repeat' (first
    | with_reducible assumption
    | ((with_reducible apply Part.Sub.of); rfl)
    | (intro s; refine (fun h => ?_) (?_ : Upd [.regs, .vecs, .gs, .link, .svc, .log] s₀ s); rotate_left; subst s; rotate_left)
    | intro s
    | lift_lets -underBinder
    | with_reducible apply Upd.ite
    | with_reducible apply State.bump_upd
    | with_reducible apply State.capture_upd
    | with_reducible apply State.raiseOnce_upd
    | with_reducible apply State.reply_upd)

theorem State.unbuffer_upd {F : List Part} {s₀ s : State} (p : Nat) (m : Msg) (h : Upd F s₀ s) (hF : Part.Sub [.link] F) :
    Upd F s₀ (State.unbuffer s p m) := by
  refine Upd.by_ h ?_ hF
  clear h hF
  revert s
  intro s₀
  have h := Upd.refl (F := [.link]) s₀
  delta State.unbuffer
  repeat' (first
    | with_reducible assumption
    | ((with_reducible apply Part.Sub.of); rfl)
    | with_reducible apply State.modPort_upd
    | split)

theorem State.arrive_upd {F : List Part} {s₀ s : State} (p : Nat) (m : Msg) (t : Nat) (own : State → State) (h : Upd F s₀ s) (hF : Part.Sub [.regs, .vecs, .gs, .link, .svc, .log] F)
    (hown : ∀ s, Upd F s₀ s → Upd F s₀ (own s)) :
    Upd F s₀ (State.arrive s p m t own) := by
  delta State.arrive
  repeat' (first
    | (with_reducible assumption)
    | ((with_reducible apply Part.Sub.trans _ hF); exact Part.Sub.of rfl)
    | with_reducible apply hown
    | with_reducible assumption
    | with_reducible exact Upd.refl _
    | (intro s; refine (fun h => ?_) (?_ : Upd F s₀ s); rotate_left; subst s; rotate_left)
    | (intro s; have _h : Option _ := s; clear _h; clear_value s)
    | (intro s; have _h : List _ := s; clear _h; clear_value s)
    | intro s
    | lift_lets -underBinder
    | with_reducible apply Upd.ite
    | with_reducible apply State.unbuffer_upd
    | with_reducible apply State.badMsg_upd
    | split)


theorem State.hostDeny_upd {F : List Part} {s₀ s : State} (c : Nat) (p : Nat) (a : Nat) (h : Upd F s₀ s) (hF : Part.Sub [.regs, .vecs, .gs, .link, .svc, .log] F) :
    Upd F s₀ (State.hostDeny s c p a) := by
  refine Upd.by_ h ?_ hF
  clear h hF
  revert s
  intro s₀
  have h := Upd.refl (F := [.regs, .vecs, .gs, .link, .svc, .log]) s₀
  delta State.hostDeny
  repeat' (first
    | with_reducible assumption
    | ((with_reducible apply Part.Sub.of); rfl)
    | with_reducible apply State.raiseOnce_upd)

theorem State.portDenied_upd {F : List Part} {s₀ s t : State} {p : Nat} {m : Msg} (h : Upd F s₀ s)
    (e : s.portDenied p m = some t) (hF : Part.Sub [.regs, .vecs, .gs, .link, .svc, .log] F) : Upd F s₀ t := by
  unfold State.portDenied at e
  split at e
  · cases e
  · split at e
    · cases e
      exact h
    · split at e
      · cases e
        exact State.hostDeny_upd _ _ _ (State.bump_upd _ _ _ h (Part.Sub.trans (Part.Sub.of rfl) hF))
          (Part.Sub.trans (Part.Sub.of rfl) hF)
      · cases e

theorem State.xlateDenied_upd {F : List Part} {s₀ s : State} (p : Nat) (m : Msg) (h : Upd F s₀ s) (hF : Part.Sub [.regs, .vecs, .gs, .link, .svc, .log] F) :
    Upd F s₀ (State.xlateDenied s p m) := by
  refine Upd.by_ h ?_ hF
  clear h hF
  revert s
  intro s₀
  have h := Upd.refl (F := [.regs, .vecs, .gs, .link, .svc, .log]) s₀
  delta State.xlateDenied
  repeat' (first
    | with_reducible assumption
    | ((with_reducible apply Part.Sub.of); rfl)
    | with_reducible apply State.bump_upd
    | with_reducible apply State.hostDeny_upd)

theorem State.hostWalks_upd {F : List Part} {s₀ s : State} (m : Msg) (n : Nat) (h : Upd F s₀ s) (hF : Part.Sub [.regs, .xlate] F) :
    Upd F s₀ (State.hostWalks s m n) := by
  refine Upd.by_ h ?_ hF
  clear h hF
  revert s
  intro s₀
  have h := Upd.refl (F := [.regs, .xlate]) s₀
  delta State.hostWalks
  repeat' (first
    | with_reducible assumption
    | ((with_reducible apply Part.Sub.of); rfl)
    | with_reducible apply Upd.ite
    | (with_reducible apply Upd.foldl; case' hf => intro _ _ h)
    | with_reducible apply State.walk_upd)

theorem State.apertureWrite_upd {F : List Part} {s₀ s : State} (c : Nat) (o : Nat) (l : List Byte) (h : Upd F s₀ s) (hF : Part.Sub [.regs, .hbm, .coaches, .vecs, .mbox, .inprog, .xlate, .gs, .sb, .link, .svc, .log] F) :
    Upd F s₀ (State.apertureWrite s c o l) := by
  refine Upd.by_ h ?_ hF
  clear h hF
  revert s
  intro s₀
  have h := Upd.refl (F := [.regs, .hbm, .coaches, .vecs, .mbox, .inprog, .xlate, .gs, .sb, .link, .svc, .log]) s₀
  delta State.apertureWrite
  repeat' (first
    | with_reducible assumption
    | ((with_reducible apply Part.Sub.of); rfl)
    | intro s
    | lift_lets -underBinder
    | with_reducible apply Upd.ite
    | (with_reducible apply Upd.foldl; case' hf => intro _ _ h)
    | with_reducible apply State.entryWrite_upd)

theorem State.serveWrite_upd {F : List Part} {s₀ s : State} (p : Nat) (m : Msg) (h : Upd F s₀ s) (hF : Part.Sub [.free, .regs, .hbm, .cores, .coaches, .vecs, .mbox, .inprog, .xlate, .gs, .sb, .link, .svc, .log] F) :
    Upd1 F s₀ (State.serveWrite s p m) := by
  refine Upd1.by_ h ?_ hF
  clear h hF
  revert s
  intro s₀
  have h := Upd.refl (F := [.free, .regs, .hbm, .cores, .coaches, .vecs, .mbox, .inprog, .xlate, .gs, .sb, .link, .svc, .log]) s₀
  delta State.serveWrite
  repeat' (first
    | with_reducible assumption
    | ((with_reducible apply Part.Sub.of); rfl)
    | (with_reducible apply State.portDenied_upd; (case e => assumption))
    | (intro s; refine (fun h => ?_) (?_ : Upd [.free, .regs, .hbm, .cores, .coaches, .vecs, .mbox, .inprog, .xlate, .gs, .sb, .link, .svc, .log] s₀ s); rotate_left; subst s; rotate_left)
    | (intro s; refine (fun h => ?_) (?_ : Upd1 [.free, .regs, .hbm, .cores, .coaches, .vecs, .mbox, .inprog, .xlate, .gs, .sb, .link, .svc, .log] s₀ s); rotate_left; subst s; rotate_left)
    | intro s
    | lift_lets -underBinder
    | with_reducible apply State.windowWrite_upd
    | with_reducible apply State.xlateDenied_upd
    | with_reducible apply State.apertureWrite_upd
    | with_reducible apply State.hostWalks_upd
    | with_reducible apply State.mcWrite_upd
    | (with_reducible apply Upd1.mk; fail_if_success (with_reducible apply Upd1.fst))
    | with_reducible apply Upd1.ite
    | (with_reducible apply Upd1.foldl; case' hf => intro _ _ h)
    | with_reducible apply Upd1.fst
    | split
    | with_reducible apply Upd1.mk)

theorem State.serveRead_upd {F : List Part} {s₀ s : State} (p : Nat) (m : Msg) (h : Upd F s₀ s) (hF : Part.Sub [.regs, .hbm, .vecs, .xlate, .gs, .link, .svc, .log] F) :
    Upd1 F s₀ (State.serveRead s p m) := by
  refine Upd1.by_ h ?_ hF
  clear h hF
  revert s
  intro s₀
  have h := Upd.refl (F := [.regs, .hbm, .vecs, .xlate, .gs, .link, .svc, .log]) s₀
  delta State.serveRead
  repeat' (first
    | with_reducible assumption
    | ((with_reducible apply Part.Sub.of); rfl)
    | (with_reducible apply State.portDenied_upd; (case e => assumption))
    | (intro s; refine (fun h => ?_) (?_ : Upd [.regs, .hbm, .vecs, .xlate, .gs, .link, .svc, .log] s₀ s); rotate_left; subst s; rotate_left)
    | (intro s; refine (fun h => ?_) (?_ : Upd1 [.regs, .hbm, .vecs, .xlate, .gs, .link, .svc, .log] s₀ s); rotate_left; subst s; rotate_left)
    | (intro s; have _h : List _ := s; clear _h; clear_value s)
    | intro s
    | lift_lets -underBinder
    | with_reducible apply State.windowRead_upd
    | with_reducible apply State.xlateDenied_upd
    | with_reducible apply State.hostWalks_upd
    | with_reducible apply State.mcRead_upd
    | (with_reducible apply Upd1.mk; fail_if_success (with_reducible apply Upd1.fst))
    | with_reducible apply Upd1.ite
    | (with_reducible apply Upd1.foldl; case' hf => intro _ _ h)
    | with_reducible apply Upd1.fst
    | split
    | with_reducible apply Upd1.mk)

theorem State.holdWrite_upd {F : List Part} {s₀ s : State} (p : Nat) (m : Msg) (h : Upd F s₀ s) (hF : Part.Sub [.link] F) :
    Upd F s₀ (State.holdWrite s p m) := by
  refine Upd.by_ h ?_ hF
  clear h hF
  revert s
  intro s₀
  have h := Upd.refl (F := [.link]) s₀
  delta State.holdWrite
  repeat' (first
    | with_reducible assumption
    | ((with_reducible apply Part.Sub.of); rfl)
    | lift_lets -underBinder
    | with_reducible apply Upd.ite
    | with_reducible apply State.modPort_upd)

theorem execEklWrite_upd (port : Nat) (m : Msg) (s₀ : State) : ∃ t, execEklWrite port m s₀ = .next t ∧ Upd [.free, .regs, .hbm, .cores, .coaches, .vecs, .mbox, .inprog, .xlate, .gs, .sb, .link, .svc, .log] s₀ t := by
  have h := Upd.refl (F := [.free, .regs, .hbm, .cores, .coaches, .vecs, .mbox, .inprog, .xlate, .gs, .sb, .link, .svc, .log]) s₀
  delta execEklWrite
  repeat' (first
    | with_reducible assumption
    | ((with_reducible apply Part.Sub.of); rfl)
    | (intro s; refine (fun h => ?_) (?_ : Upd1 [.free, .regs, .hbm, .cores, .coaches, .vecs, .mbox, .inprog, .xlate, .gs, .sb, .link, .svc, .log] s₀ s); rotate_left; subst s; rotate_left)
    | lift_lets -underBinder
    | with_reducible apply Upd.ite
    | with_reducible apply Upd.next
    | with_reducible apply State.holdWrite_upd
    | (with_reducible apply State.arrive_upd; case' hown => intro _ h)
    | with_reducible apply State.serveWrite_upd
    | with_reducible apply State.reply_upd
    | with_reducible apply Upd1.fst)

theorem execEklRead_upd (port : Nat) (m : Msg) (s₀ : State) : ∃ t, execEklRead port m s₀ = .next t ∧ Upd [.regs, .hbm, .vecs, .xlate, .gs, .link, .svc, .log] s₀ t := by
  have h := Upd.refl (F := [.regs, .hbm, .vecs, .xlate, .gs, .link, .svc, .log]) s₀
  delta execEklRead
  repeat' (first
    | with_reducible assumption
    | ((with_reducible apply Part.Sub.of); rfl)
    | (intro s; refine (fun h => ?_) (?_ : Upd1 [.regs, .hbm, .vecs, .xlate, .gs, .link, .svc, .log] s₀ s); rotate_left; subst s; rotate_left)
    | lift_lets -underBinder
    | with_reducible apply Upd.ite
    | with_reducible apply Upd.next
    | (with_reducible apply State.arrive_upd; case' hown => intro _ h)
    | with_reducible apply State.serveRead_upd
    | with_reducible apply State.reply_upd
    | with_reducible apply Upd1.fst)

theorem State.serveAdd_upd {F : List Part} {s₀ s : State} (p : Nat) (m : Msg) (h : Upd F s₀ s) (hF : Part.Sub [.regs, .hbm, .vecs, .xlate, .gs, .link, .svc, .log] F) :
    Upd1 F s₀ (State.serveAdd s p m) := by
  refine Upd1.by_ h ?_ hF
  clear h hF
  revert s
  intro s₀
  have h := Upd.refl (F := [.regs, .hbm, .vecs, .xlate, .gs, .link, .svc, .log]) s₀
  delta State.serveAdd
  repeat' (first
    | with_reducible assumption
    | ((with_reducible apply Part.Sub.of); rfl)
    | (with_reducible apply State.portDenied_upd; (case e => assumption))
    | (intro s; refine (fun h => ?_) (?_ : Upd [.regs, .hbm, .vecs, .xlate, .gs, .link, .svc, .log] s₀ s); rotate_left; subst s; rotate_left)
    | lift_lets -underBinder
    | with_reducible apply State.xlateDenied_upd
    | with_reducible apply State.hostWalks_upd
    | with_reducible apply State.mcAdd_upd
    | (with_reducible apply Upd1.mk; fail_if_success (with_reducible apply Upd1.fst))
    | with_reducible apply Upd1.ite
    | split)

theorem execEklAdd_upd (port : Nat) (m : Msg) (s₀ : State) : ∃ t, execEklAdd port m s₀ = .next t ∧ Upd [.regs, .hbm, .vecs, .xlate, .gs, .link, .svc, .log] s₀ t := by
  have h := Upd.refl (F := [.regs, .hbm, .vecs, .xlate, .gs, .link, .svc, .log]) s₀
  delta execEklAdd
  repeat' (first
    | with_reducible assumption
    | ((with_reducible apply Part.Sub.of); rfl)
    | (intro s; refine (fun h => ?_) (?_ : Upd1 [.regs, .hbm, .vecs, .xlate, .gs, .link, .svc, .log] s₀ s); rotate_left; subst s; rotate_left)
    | lift_lets -underBinder
    | with_reducible apply Upd.ite
    | with_reducible apply Upd.next
    | (with_reducible apply State.arrive_upd; case' hown => intro _ h)
    | with_reducible apply State.serveAdd_upd
    | with_reducible apply State.reply_upd
    | with_reducible apply Upd1.fst)

theorem State.settled_upd {F : List Part} {s₀ s : State} (o : OutReq) (h : Upd F s₀ s) (hF : Part.Sub [.link] F) :
    Upd F s₀ (State.settled s o) := by
  refine Upd.by_ h ?_ hF
  clear h hF
  revert s
  intro s₀
  have h := Upd.refl (F := [.link]) s₀
  delta State.settled
  repeat' (first
    | ((with_reducible apply Part.Sub.of); rfl)
    | intro s
    | lift_lets -underBinder
    | (with_reducible apply Upd.link; case h => with_reducible assumption))

theorem State.releaseWait_upd {F : List Part} {s₀ s : State} (tag : Nat) (h : Upd F s₀ s) (hF : Part.Sub [.regs, .vecs, .link] F) :
    Upd F s₀ (State.releaseWait s tag) := by
  refine Upd.by_ h ?_ hF
  clear h hF
  revert s
  intro s₀
  have h := Upd.refl (F := [.regs, .vecs, .link]) s₀
  delta State.releaseWait
  repeat' (first
    | with_reducible assumption
    | ((with_reducible apply Part.Sub.of); rfl)
    | (intro s; refine (fun h => ?_) (?_ : Upd [.regs, .vecs, .link] s₀ s); rotate_left; subst s; rotate_left)
    | intro s
    | lift_lets -underBinder
    | (with_reducible apply Upd.foldl; case' hf => intro _ _ h)
    | with_reducible apply State.setVec_upd
    | with_reducible apply State.trySend_upd)

theorem State.frameDone_upd {F : List Part} {s₀ s : State} (i : Nat) (tag : Nat) (h : Upd F s₀ s) (hF : Part.Sub [.regs, .vecs, .link] F) :
    Upd F s₀ (State.frameDone s i tag) := by
  refine Upd.by_ h ?_ hF
  clear h hF
  revert s
  intro s₀
  have h := Upd.refl (F := [.regs, .vecs, .link]) s₀
  delta State.frameDone
  repeat' (first
    | with_reducible assumption
    | ((with_reducible apply Part.Sub.of); rfl)
    | intro s
    | lift_lets -underBinder
    | with_reducible apply Upd.ite
    | with_reducible apply State.setVec_upd
    | with_reducible apply State.trySend_upd)

theorem State.answerTag_upd {F : List Part} {s₀ s : State} (core : Nat) (tag : Nat) (status : Nat) (data : List Byte) (h : Upd F s₀ s) (hF : Part.Sub [.regs, .cores, .vecs, .mbox, .inprog, .link, .svc] F) :
    Upd F s₀ (State.answerTag s core tag status data) := by
  refine Upd.by_ h ?_ hF
  clear h hF
  revert s
  intro s₀
  have h := Upd.refl (F := [.regs, .cores, .vecs, .mbox, .inprog, .link, .svc]) s₀
  delta State.answerTag
  repeat' (first
    | with_reducible assumption
    | ((with_reducible apply Part.Sub.of); rfl)
    | with_reducible apply State.modCore_upd)

theorem State.coldArrives_upd {F : List Part} {s₀ s : State} (slot : Nat) (off : Nat) (status : Nat) (data : List Byte) (h : Upd F s₀ s) (hF : Part.Sub [.sb] F) :
    Upd F s₀ (State.coldArrives s slot off status data) := by
  refine Upd.by_ h ?_ hF
  clear h hF
  revert s
  intro s₀
  have h := Upd.refl (F := [.sb]) s₀
  delta State.coldArrives
  repeat' (first
    | ((with_reducible apply Part.Sub.of); rfl)
    | intro s
    | lift_lets -underBinder
    | (with_reducible apply Upd.sb; case h => with_reducible assumption))

theorem State.moveLost_upd {F : List Part} {s₀ s : State} (n : Nat) (h : Upd F s₀ s) (hF : Part.Sub [.sb] F) :
    Upd F s₀ (State.moveLost s n) := by
  refine Upd.by_ h ?_ hF
  clear h hF
  revert s
  intro s₀
  have h := Upd.refl (F := [.sb]) s₀
  delta State.moveLost
  repeat' (first
    | ((with_reducible apply Part.Sub.of); rfl)
    | intro s
    | lift_lets -underBinder
    | (with_reducible apply Upd.sb; case h => with_reducible assumption))

theorem State.writeAcked_upd {F : List Part} {s₀ s : State} (o : OutReq) (status : Nat) (h : Upd F s₀ s) (hF : Part.Sub [.regs, .cores, .vecs, .mbox, .inprog, .sb, .link, .svc] F) :
    Upd F s₀ (State.writeAcked s o status) := by
  refine Upd.by_ h ?_ hF
  clear h hF
  revert s
  intro s₀
  have h := Upd.refl (F := [.regs, .cores, .vecs, .mbox, .inprog, .sb, .link, .svc]) s₀
  delta State.writeAcked
  repeat' (first
    | with_reducible assumption
    | ((with_reducible apply Part.Sub.of); rfl)
    | lift_lets -underBinder
    | with_reducible apply Upd.ite
    | with_reducible apply State.frameDone_upd
    | with_reducible apply State.releaseWait_upd
    | with_reducible apply State.answerTag_upd
    | with_reducible apply State.moveLost_upd
    | split)

theorem execEklWriteAck_upd (port : Nat) (m : Msg) (s₀ : State) : ∃ t, execEklWriteAck port m s₀ = .next t ∧ Upd [.regs, .cores, .vecs, .mbox, .inprog, .gs, .sb, .link, .svc, .log] s₀ t := by
  have h := Upd.refl (F := [.regs, .cores, .vecs, .mbox, .inprog, .gs, .sb, .link, .svc, .log]) s₀
  delta execEklWriteAck
  repeat' (first
    | with_reducible assumption
    | ((with_reducible apply Part.Sub.of); rfl)
    | lift_lets -underBinder
    | with_reducible apply Upd.next
    | (with_reducible apply State.arrive_upd; case' hown => intro _ h)
    | with_reducible apply State.settled_upd
    | with_reducible apply State.writeAcked_upd
    | split)

theorem execEklReadData_upd (port : Nat) (m : Msg) (s₀ : State) : ∃ t, execEklReadData port m s₀ = .next t ∧ Upd [.regs, .hbm, .cores, .vecs, .mbox, .inprog, .gs, .sb, .link, .boot, .svc, .log] s₀ t := by
  have h := Upd.refl (F := [.regs, .hbm, .cores, .vecs, .mbox, .inprog, .gs, .sb, .link, .boot, .svc, .log]) s₀
  delta execEklReadData
  repeat' (first
    | with_reducible assumption
    | ((with_reducible apply Part.Sub.of); rfl)
    | (intro s; refine (fun h => ?_) (?_ : Upd [.regs, .hbm, .cores, .vecs, .mbox, .inprog, .gs, .sb, .link, .boot, .svc, .log] s₀ s); rotate_left; subst s; rotate_left)
    | lift_lets -underBinder
    | with_reducible apply Upd.next
    | (with_reducible apply State.arrive_upd; case' hown => intro _ h)
    | with_reducible apply State.settled_upd
    | with_reducible apply State.bootAnswer_upd
    | with_reducible apply State.answerTag_upd
    | with_reducible apply State.coldArrives_upd
    | split)

theorem execEklAddAck_upd (port : Nat) (m : Msg) (s₀ : State) : ∃ t, execEklAddAck port m s₀ = .next t ∧ Upd [.regs, .vecs, .gs, .link, .svc, .log] s₀ t := by
  have h := Upd.refl (F := [.regs, .vecs, .gs, .link, .svc, .log]) s₀
  delta execEklAddAck
  repeat' (first
    | with_reducible assumption
    | ((with_reducible apply Part.Sub.of); rfl)
    | lift_lets -underBinder
    | with_reducible apply Upd.next
    | (with_reducible apply State.arrive_upd; case' hown => intro _ h)
    | with_reducible apply State.settled_upd
    | split)

theorem State.forgetEvents_upd {F : List Part} {s₀ s : State} (gone : List OutReq) (h : Upd F s₀ s) (hF : Part.Sub [.regs, .vecs, .link] F) :
    Upd F s₀ (State.forgetEvents s gone) := by
  refine Upd.by_ h ?_ hF
  clear h hF
  revert s
  intro s₀
  have h := Upd.refl (F := [.regs, .vecs, .link]) s₀
  delta State.forgetEvents
  repeat' (first
    | with_reducible assumption
    | ((with_reducible apply Part.Sub.of); rfl)
    | (intro s; have _h : List _ := s; clear _h; clear_value s)
    | intro s
    | lift_lets -underBinder
    | (with_reducible apply Upd.foldl; case' hf => intro _ _ h)
    | with_reducible apply State.setVec_upd
    | with_reducible apply State.trySend_upd)

theorem State.writeGone_upd {F : List Part} {s₀ s : State} (o : OutReq) (h : Upd F s₀ s) (hF : Part.Sub [.regs, .cores, .vecs, .mbox, .inprog, .sb, .link, .svc] F) :
    Upd F s₀ (State.writeGone s o) := by
  refine Upd.by_ h ?_ hF
  clear h hF
  revert s
  intro s₀
  have h := Upd.refl (F := [.regs, .cores, .vecs, .mbox, .inprog, .sb, .link, .svc]) s₀
  delta State.writeGone
  repeat' (first
    | with_reducible assumption
    | ((with_reducible apply Part.Sub.of); rfl)
    | with_reducible apply State.answerTag_upd
    | with_reducible apply State.moveLost_upd
    | split)

theorem execHostWriteGiveup_upd (port : Nat) (s₀ : State) : ∃ t, execHostWriteGiveup port s₀ = .next t ∧ Upd [.regs, .cores, .vecs, .mbox, .inprog, .sb, .link, .svc] s₀ t := by
  have h := Upd.refl (F := [.regs, .cores, .vecs, .mbox, .inprog, .sb, .link, .svc]) s₀
  delta execHostWriteGiveup
  repeat' (first
    | with_reducible assumption
    | ((with_reducible apply Part.Sub.of); rfl)
    | (intro s; refine (fun h => ?_) (?_ : Upd [.regs, .cores, .vecs, .mbox, .inprog, .sb, .link, .svc] s₀ s); rotate_left; subst s; rotate_left)
    | (intro s; have _h : List _ := s; clear _h; clear_value s)
    | intro s
    | lift_lets -underBinder
    | with_reducible apply Upd.ite
    | (with_reducible apply Upd.foldl; case' hf => intro _ _ h)
    | with_reducible apply Upd.next
    | (with_reducible apply Upd.link; case h => with_reducible assumption)
    | with_reducible apply State.writeGone_upd
    | with_reducible apply State.forgetEvents_upd)

theorem execInterruptFrameResend_upd (tag : Nat) (s₀ : State) : ∃ t, execInterruptFrameResend tag s₀ = .next t ∧ Upd [.link] s₀ t := by
  have h := Upd.refl (F := [.link]) s₀
  delta execInterruptFrameResend
  repeat' (first
    | with_reducible assumption
    | ((with_reducible apply Part.Sub.of); rfl)
    | (intro s; refine (fun h => ?_) (?_ : Upd [.link] s₀ s); rotate_left; subst s; rotate_left)
    | intro s
    | lift_lets -underBinder
    | with_reducible apply Upd.ite
    | with_reducible apply Upd.next
    | (with_reducible apply Upd.link; case h => with_reducible assumption)
    | with_reducible apply State.enqueue_upd
    | split)

theorem execDrawbar_upd (port : Nat) (m : Msg) (s₀ : State) : ∃ t, execDrawbar port m s₀ = .next t ∧ Upd [.regs, .cores, .vecs, .gs, .link, .svc, .log] s₀ t := by
  have h := Upd.refl (F := [.regs, .cores, .vecs, .gs, .link, .svc, .log]) s₀
  delta execDrawbar
  repeat' (first
    | with_reducible assumption
    | with_reducible exact Upd.refl _
    | ((with_reducible apply Part.Sub.of); rfl)
    | (intro s; refine (fun h => ?_) (?_ : Upd [.regs, .cores, .vecs, .gs, .link, .svc, .log] s₀ s); rotate_left; subst s; rotate_left)
    | (intro s; refine (fun h => ?_) (?_ : Upd1 [.regs, .cores, .vecs, .gs, .link, .svc, .log] s₀ s); rotate_left; subst s; rotate_left)
    | (intro q; refine (fun hq => ?_) (?_ : ∀ s, Upd [.regs, .cores, .vecs, .gs, .link, .svc, .log] s₀ s → Upd [.regs, .cores, .vecs, .gs, .link, .svc, .log] s₀ (q s)); rotate_left; subst q; intro s h; rotate_left)
    | (intro q; refine (fun hq => ?_) (?_ : ∀ s x, Upd [.regs, .cores, .vecs, .gs, .link, .svc, .log] s₀ s → Upd [.regs, .cores, .vecs, .gs, .link, .svc, .log] s₀ (q s x)); rotate_left; subst q; intro s x h; rotate_left)
    | (intro q; refine (fun hq => ?_) (?_ : ∀ x s, Upd [.regs, .cores, .vecs, .gs, .link, .svc, .log] s₀ s → Upd [.regs, .cores, .vecs, .gs, .link, .svc, .log] s₀ (q x s)); rotate_left; subst q; intro x s h; rotate_left)
    | (intro s; have _h : Option _ := s; clear _h; clear_value s)
    | (intro s; have _h : List _ := s; clear _h; clear_value s)
    | intro s
    | lift_lets -underBinder
    | with_reducible apply hq
    | with_reducible apply Upd.ite
    | with_reducible apply Upd.next
    | (with_reducible apply Upd.link; case h => with_reducible assumption)
    | (with_reducible apply State.arrive_upd; case' hown => intro _ h)
    | with_reducible apply State.cartArrives_upd
    | (with_reducible apply Upd1.mk; fail_if_success (with_reducible apply Upd1.fst))
    | with_reducible apply Upd1.ite
    | (with_reducible apply Upd1.foldl; case' hf => intro _ _ h)
    | (with_reducible apply Upd1.of; assumption)
    | with_reducible apply Upd1.fst
    | split
    | with_reducible apply Upd1.mk)


theorem State.chainDoneOn_upd {F : List Part} {s₀ s : State} (coach : Nat) (chain : Nat) (pass : Nat) (src : Nat) (h : Upd F s₀ s) (hF : Part.Sub [.regs, .link] F) :
    Upd F s₀ (State.chainDoneOn s coach chain pass src) := by
  refine Upd.by_ h ?_ hF
  clear h hF
  revert s
  intro s₀
  have h := Upd.refl (F := [.regs, .link]) s₀
  delta State.chainDoneOn
  repeat' (first
    | with_reducible assumption
    | with_reducible exact Upd.refl _
    | ((with_reducible apply Part.Sub.of); rfl)
    | (intro s; refine (fun h => ?_) (?_ : Upd [.regs, .link] s₀ s); rotate_left; subst s; rotate_left)
    | (intro q; refine (fun hq => ?_) (?_ : ∀ s, Upd [.regs, .link] s₀ s → Upd [.regs, .link] s₀ (q s)); rotate_left; subst q; intro s h; rotate_left)
    | (intro q; refine (fun hq => ?_) (?_ : ∀ s x, Upd [.regs, .link] s₀ s → Upd [.regs, .link] s₀ (q s x)); rotate_left; subst q; intro s x h; rotate_left)
    | (intro q; refine (fun hq => ?_) (?_ : ∀ x s, Upd [.regs, .link] s₀ s → Upd [.regs, .link] s₀ (q x s)); rotate_left; subst q; intro x s h; rotate_left)
    | (intro s; have _h : Option _ := s; clear _h; clear_value s)
    | (intro s; have _h : List _ := s; clear _h; clear_value s)
    | intro s
    | lift_lets -underBinder
    | with_reducible apply hq
    | with_reducible apply Upd.ite
    | (with_reducible apply Upd.foldl; case' hf => intro _ _ h)
    | with_reducible apply State.send_upd
    | split)


theorem execChainDone_upd (port : Nat) (m : Msg) (s₀ : State) : ∃ t, execChainDone port m s₀ = .next t ∧ Upd [.regs, .hbm, .cores, .coaches, .vecs, .mbox, .inprog, .xlate, .graphs, .gs, .sb, .link, .svc, .log, .ledger] s₀ t := by
  have h := Upd.refl (F := [.regs, .hbm, .cores, .coaches, .vecs, .mbox, .inprog, .xlate, .graphs, .gs, .sb, .link, .svc, .log, .ledger]) s₀
  delta execChainDone
  repeat' (first
    | with_reducible assumption
    | with_reducible exact Upd.refl _
    | ((with_reducible apply Part.Sub.of); rfl)
    | (intro s; refine (fun h => ?_) (?_ : Upd [.regs, .hbm, .cores, .coaches, .vecs, .mbox, .inprog, .xlate, .graphs, .gs, .sb, .link, .svc, .log, .ledger] s₀ s); rotate_left; subst s; rotate_left)
    | (intro q; refine (fun hq => ?_) (?_ : ∀ s, Upd [.regs, .hbm, .cores, .coaches, .vecs, .mbox, .inprog, .xlate, .graphs, .gs, .sb, .link, .svc, .log, .ledger] s₀ s → Upd [.regs, .hbm, .cores, .coaches, .vecs, .mbox, .inprog, .xlate, .graphs, .gs, .sb, .link, .svc, .log, .ledger] s₀ (q s)); rotate_left; subst q; intro s h; rotate_left)
    | (intro q; refine (fun hq => ?_) (?_ : ∀ s x, Upd [.regs, .hbm, .cores, .coaches, .vecs, .mbox, .inprog, .xlate, .graphs, .gs, .sb, .link, .svc, .log, .ledger] s₀ s → Upd [.regs, .hbm, .cores, .coaches, .vecs, .mbox, .inprog, .xlate, .graphs, .gs, .sb, .link, .svc, .log, .ledger] s₀ (q s x)); rotate_left; subst q; intro s x h; rotate_left)
    | (intro q; refine (fun hq => ?_) (?_ : ∀ x s, Upd [.regs, .hbm, .cores, .coaches, .vecs, .mbox, .inprog, .xlate, .graphs, .gs, .sb, .link, .svc, .log, .ledger] s₀ s → Upd [.regs, .hbm, .cores, .coaches, .vecs, .mbox, .inprog, .xlate, .graphs, .gs, .sb, .link, .svc, .log, .ledger] s₀ (q x s)); rotate_left; subst q; intro x s h; rotate_left)
    | (intro s; have _h : Option _ := s; clear _h; clear_value s)
    | (intro s; have _h : List _ := s; clear _h; clear_value s)
    | intro s
    | lift_lets -underBinder
    | with_reducible apply hq
    | with_reducible apply Upd.ite
    | (with_reducible apply Upd.foldl; case' hf => intro _ _ h)
    | with_reducible apply Upd.next
    | (with_reducible apply Upd.gs; case h => with_reducible assumption)
    | (with_reducible apply State.arrive_upd; case' hown => intro _ h)
    | with_reducible apply State.chainDoneOn_upd
    | with_reducible apply State.modUnit_upd
    | with_reducible apply State.settle_upd
    | with_reducible apply State.maybeCut_upd
    | with_reducible apply State.boundary_upd
    | split)


theorem execReplay_upd (port : Nat) (m : Msg) (s₀ : State) : ∃ t, execReplay port m s₀ = .next t ∧ Upd [.regs, .hbm, .cores, .coaches, .vecs, .mbox, .inprog, .xlate, .graphs, .gs, .sb, .link, .svc, .log, .ledger] s₀ t := by
  have h := Upd.refl (F := [.regs, .hbm, .cores, .coaches, .vecs, .mbox, .inprog, .xlate, .graphs, .gs, .sb, .link, .svc, .log, .ledger]) s₀
  delta execReplay
  repeat' (first
    | with_reducible assumption
    | with_reducible exact Upd.refl _
    | ((with_reducible apply Part.Sub.of); rfl)
    | (intro s; refine (fun h => ?_) (?_ : Upd [.regs, .hbm, .cores, .coaches, .vecs, .mbox, .inprog, .xlate, .graphs, .gs, .sb, .link, .svc, .log, .ledger] s₀ s); rotate_left; subst s; rotate_left)
    | (intro q; refine (fun hq => ?_) (?_ : ∀ s, Upd [.regs, .hbm, .cores, .coaches, .vecs, .mbox, .inprog, .xlate, .graphs, .gs, .sb, .link, .svc, .log, .ledger] s₀ s → Upd [.regs, .hbm, .cores, .coaches, .vecs, .mbox, .inprog, .xlate, .graphs, .gs, .sb, .link, .svc, .log, .ledger] s₀ (q s)); rotate_left; subst q; intro s h; rotate_left)
    | (intro q; refine (fun hq => ?_) (?_ : ∀ s x, Upd [.regs, .hbm, .cores, .coaches, .vecs, .mbox, .inprog, .xlate, .graphs, .gs, .sb, .link, .svc, .log, .ledger] s₀ s → Upd [.regs, .hbm, .cores, .coaches, .vecs, .mbox, .inprog, .xlate, .graphs, .gs, .sb, .link, .svc, .log, .ledger] s₀ (q s x)); rotate_left; subst q; intro s x h; rotate_left)
    | (intro q; refine (fun hq => ?_) (?_ : ∀ x s, Upd [.regs, .hbm, .cores, .coaches, .vecs, .mbox, .inprog, .xlate, .graphs, .gs, .sb, .link, .svc, .log, .ledger] s₀ s → Upd [.regs, .hbm, .cores, .coaches, .vecs, .mbox, .inprog, .xlate, .graphs, .gs, .sb, .link, .svc, .log, .ledger] s₀ (q x s)); rotate_left; subst q; intro x s h; rotate_left)
    | (intro s; have _h : Option _ := s; clear _h; clear_value s)
    | (intro s; have _h : List _ := s; clear _h; clear_value s)
    | intro s
    | lift_lets -underBinder
    | with_reducible apply hq
    | with_reducible apply Upd.ite
    | (with_reducible apply Upd.foldl; case' hf => intro _ _ h)
    | with_reducible apply Upd.next
    | (with_reducible apply Upd.gs; case h => with_reducible assumption)
    | (with_reducible apply State.arrive_upd; case' hown => intro _ h)
    | with_reducible apply State.send_upd
    | with_reducible apply State.replayHere_upd
    | with_reducible apply State.boundary_upd
    | split)


theorem execMgmt_upd (port : Nat) (m : Msg) (s₀ : State) : ∃ t, execMgmt port m s₀ = .next t ∧ Upd [.regs, .vecs, .gs, .link, .svc, .log] s₀ t := by
  have h := Upd.refl (F := [.regs, .vecs, .gs, .link, .svc, .log]) s₀
  delta execMgmt
  repeat' (first
    | with_reducible assumption
    | ((with_reducible apply Part.Sub.of); rfl)
    | with_reducible apply Upd.next
    | (with_reducible apply State.arrive_upd; case' hown => intro _ h))

theorem execBootGrant_upd (port : Nat) (m : Msg) (s₀ : State) : ∃ t, execBootGrant port m s₀ = .next t ∧ Upd [.regs, .vecs, .gs, .link, .boot, .svc, .log] s₀ t := by
  have h := Upd.refl (F := [.regs, .vecs, .gs, .link, .boot, .svc, .log]) s₀
  delta execBootGrant
  repeat' (first
    | with_reducible assumption
    | ((with_reducible apply Part.Sub.of); rfl)
    | (intro s; refine (fun h => ?_) (?_ : Upd [.regs, .vecs, .gs, .link, .boot, .svc, .log] s₀ s); rotate_left; subst s; rotate_left)
    | intro s
    | lift_lets -underBinder
    | with_reducible apply Upd.ite
    | with_reducible apply Upd.next
    | (with_reducible apply Upd.boot; case h => with_reducible assumption)
    | with_reducible apply State.enterRom_upd
    | (with_reducible apply State.arrive_upd; case' hown => intro _ h)
    | with_reducible apply State.setChip_upd
    | with_reducible apply State.bootStart_upd)

theorem execMessageForward_upd (port : Nat) (m : Msg) (s₀ : State) : ∃ t, execMessageForward port m s₀ = .next t ∧ Upd [.regs, .vecs, .gs, .link, .svc, .log] s₀ t := by
  have h := Upd.refl (F := [.regs, .vecs, .gs, .link, .svc, .log]) s₀
  delta execMessageForward
  repeat' (first
    | with_reducible assumption
    | ((with_reducible apply Part.Sub.of); rfl)
    | (intro s; refine (fun h => ?_) (?_ : Upd [.regs, .vecs, .gs, .link, .svc, .log] s₀ s); rotate_left; subst s; rotate_left)
    | intro s
    | lift_lets -underBinder
    | with_reducible apply Upd.ite
    | with_reducible apply Upd.next
    | (with_reducible apply Upd.link; case h => with_reducible assumption)
    | with_reducible apply State.forward_upd
    | with_reducible apply State.unbuffer_upd
    | with_reducible apply State.badMsg_upd
    | with_reducible apply State.count_upd
    | with_reducible apply State.reply_upd)

end Sys2Proof.Machine
end

