-- ==== Sys2Proof/Laws/UpdCollectives.lean ====
section
/-!
SUPPORT. What each operation of Machine/Collectives.lean may change.
-/
namespace Sys2Proof.Machine

theorem State.modColl_upd {F : List Part} {s₀ s : State} (x : Nat) (f : Coll → Coll) (h : Upd F s₀ s) (hF : Part.Sub [.link] F) :
    Upd F s₀ (State.modColl s x f) := by
  refine Upd.by_ h ?_ hF
  clear h hF
  revert s
  intro s₀
  have h := Upd.refl (F := [.link]) s₀
  delta State.modColl
  repeat' (first
    | ((with_reducible apply Part.Sub.of); rfl)
    | intro s
    | lift_lets -underBinder
    | (with_reducible apply Upd.link; case h => with_reducible assumption))

theorem execCollOpen_upd (box : Nat) (pick : Nat) (s₀ : State) : ∃ t, execCollOpen box pick s₀ = .next t ∧ Upd [.free, .regs, .vecs, .mbox, .inprog, .lastCoach, .xlate, .link, .svc] s₀ t := by
  have h := Upd.refl (F := [.free, .regs, .vecs, .mbox, .inprog, .lastCoach, .xlate, .link, .svc]) s₀
  delta execCollOpen
  repeat' (first
    | with_reducible assumption
    | ((with_reducible apply Part.Sub.of); rfl)
    | (intro s; refine (fun h => ?_) (?_ : Upd [.free, .regs, .vecs, .mbox, .inprog, .lastCoach, .xlate, .link, .svc] s₀ s); rotate_left; subst s; rotate_left)
    | (intro s; have _h : List _ := s; clear _h; clear_value s)
    | intro s
    | lift_lets -underBinder
    | with_reducible apply Upd.ite
    | with_reducible apply Upd.next
    | with_reducible apply State.respond_upd
    | with_reducible apply State.walkRange_upd
    | with_reducible apply State.modColl_upd
    | (with_reducible apply takeCommand_upd; case' hown => intro _ _ h)
    | split)

theorem execCollClose_upd (box : Nat) (s₀ : State) : ∃ t, execCollClose box s₀ = .next t ∧ Upd [.free, .regs, .vecs, .mbox, .inprog, .lastCoach, .link, .svc] s₀ t := by
  have h := Upd.refl (F := [.free, .regs, .vecs, .mbox, .inprog, .lastCoach, .link, .svc]) s₀
  delta execCollClose
  repeat' (first
    | with_reducible assumption
    | ((with_reducible apply Part.Sub.of); rfl)
    | intro s
    | lift_lets -underBinder
    | with_reducible apply Upd.ite
    | with_reducible apply Upd.next
    | with_reducible apply State.respond_upd
    | with_reducible apply State.modColl_upd
    | (with_reducible apply takeCommand_upd; case' hown => intro _ _ h))

theorem State.collSend_upd {F : List Part} {s₀ s : State} (c : Coll) (member : Nat) (mtype : Nat) (tagw : Nat) (arg : Nat) (data : List Byte) (h : Upd F s₀ s) (hF : Part.Sub [.regs, .link] F) :
    Upd F s₀ (State.collSend s c member mtype tagw arg data) := by
  refine Upd.by_ h ?_ hF
  clear h hF
  revert s
  intro s₀
  have h := Upd.refl (F := [.regs, .link]) s₀
  delta State.collSend
  repeat' (first
    | with_reducible assumption
    | ((with_reducible apply Part.Sub.of); rfl)
    | with_reducible apply State.send_upd)

theorem State.collEnd_upd {F : List Part} {s₀ s : State} (x : Nat) (status : Nat) (h : Upd F s₀ s) (hF : Part.Sub [.regs, .vecs, .mbox, .inprog, .link, .svc] F) :
    Upd F s₀ (State.collEnd s x status) := by
  refine Upd.by_ h ?_ hF
  clear h hF
  revert s
  intro s₀
  have h := Upd.refl (F := [.regs, .vecs, .mbox, .inprog, .link, .svc]) s₀
  delta State.collEnd
  repeat' (first
    | with_reducible assumption
    | ((with_reducible apply Part.Sub.of); rfl)
    | (intro s; refine (fun h => ?_) (?_ : Upd [.regs, .vecs, .mbox, .inprog, .link, .svc] s₀ s); rotate_left; subst s; rotate_left)
    | lift_lets -underBinder
    | with_reducible apply State.modColl_upd
    | with_reducible apply State.count_upd
    | with_reducible apply State.answerAll_upd)

theorem State.collAbort_upd {F : List Part} {s₀ s : State} (x : Nat) (status : Nat) (h : Upd F s₀ s) (hF : Part.Sub [.regs, .vecs, .mbox, .inprog, .link, .svc] F) :
    Upd F s₀ (State.collAbort s x status) := by
  refine Upd.by_ h ?_ hF
  clear h hF
  revert s
  intro s₀
  have h := Upd.refl (F := [.regs, .vecs, .mbox, .inprog, .link, .svc]) s₀
  delta State.collAbort
  repeat' (first
    | with_reducible assumption
    | ((with_reducible apply Part.Sub.of); rfl)
    | (intro s; have _h : List _ := s; clear _h; clear_value s)
    | intro s
    | lift_lets -underBinder
    | (with_reducible apply Upd.foldl; case' hf => intro _ _ h)
    | with_reducible apply State.collSend_upd
    | with_reducible apply State.collEnd_upd)

theorem State.collFinish_upd {F : List Part} {s₀ s : State} (x : Nat) (h : Upd F s₀ s) (hF : Part.Sub [.regs, .hbm, .vecs, .mbox, .inprog, .xlate, .link, .svc] F) :
    Upd F s₀ (State.collFinish s x) := by
  refine Upd.by_ h ?_ hF
  clear h hF
  revert s
  intro s₀
  have h := Upd.refl (F := [.regs, .hbm, .vecs, .mbox, .inprog, .xlate, .link, .svc]) s₀
  delta State.collFinish
  repeat' (first
    | with_reducible assumption
    | ((with_reducible apply Part.Sub.of); rfl)
    | (intro s; refine (fun h => ?_) (?_ : Upd [.regs, .hbm, .vecs, .mbox, .inprog, .xlate, .link, .svc] s₀ s); rotate_left; subst s; rotate_left)
    | intro s
    | lift_lets -underBinder
    | with_reducible apply Upd.ite
    | (with_reducible apply Upd.foldl; case' hf => intro _ _ h)
    | with_reducible apply State.walkRange_upd
    | with_reducible apply State.collEnd_upd
    | with_reducible apply State.coachWrite_upd)

theorem State.collDownSeg_upd {F : List Part} {s₀ s : State} (x : Nat) (j : Nat) (digest : Nat) (vs : List Int) (h : Upd F s₀ s) (hF : Part.Sub [.regs, .hbm, .vecs, .mbox, .inprog, .xlate, .link, .svc] F) :
    Upd F s₀ (State.collDownSeg s x j digest vs) := by
  refine Upd.by_ h ?_ hF
  clear h hF
  revert s
  intro s₀
  have h := Upd.refl (F := [.regs, .hbm, .vecs, .mbox, .inprog, .xlate, .link, .svc]) s₀
  delta State.collDownSeg
  repeat' (first
    | with_reducible assumption
    | ((with_reducible apply Part.Sub.of); rfl)
    | (intro s; refine (fun h => ?_) (?_ : Upd [.regs, .hbm, .vecs, .mbox, .inprog, .xlate, .link, .svc] s₀ s); rotate_left; subst s; rotate_left)
    | intro s
    | lift_lets -underBinder
    | (with_reducible apply Upd.foldl; case' hf => intro _ _ h)
    | with_reducible apply State.collSend_upd
    | with_reducible apply State.modColl_upd
    | with_reducible apply State.collFinish_upd)

theorem State.collCombine_upd {F : List Part} {s₀ s : State} (x : Nat) (j : Nat) (h : Upd F s₀ s) (hF : Part.Sub [.regs, .hbm, .vecs, .mbox, .inprog, .xlate, .gs, .link, .svc, .log] F) :
    Upd F s₀ (State.collCombine s x j) := by
  refine Upd.by_ h ?_ hF
  clear h hF
  revert s
  intro s₀
  have h := Upd.refl (F := [.regs, .hbm, .vecs, .mbox, .inprog, .xlate, .gs, .link, .svc, .log]) s₀
  delta State.collCombine
  repeat' (first
    | with_reducible assumption
    | ((with_reducible apply Part.Sub.of); rfl)
    | (intro s; refine (fun h => ?_) (?_ : Upd [.regs, .hbm, .vecs, .mbox, .inprog, .xlate, .gs, .link, .svc, .log] s₀ s); rotate_left; subst s; rotate_left)
    | (intro s; have _h : List _ := s; clear _h; clear_value s)
    | intro s
    | lift_lets -underBinder
    | with_reducible apply Upd.ite
    | with_reducible apply State.collAbort_upd
    | with_reducible apply State.collSend_upd
    | with_reducible apply State.collDownSeg_upd
    | with_reducible apply State.setChip_upd
    | with_reducible apply State.count_upd
    | with_reducible apply State.raise_upd
    | split)

theorem State.refuseSeg_upd {F : List Part} {s₀ s : State} (x : Nat) (port : Nat) (m : Msg) (h : Upd F s₀ s) (hF : Part.Sub [.regs, .vecs, .mbox, .inprog, .gs, .link, .svc, .log] F) :
    Upd F s₀ (State.refuseSeg s x port m) := by
  refine Upd.by_ h ?_ hF
  clear h hF
  revert s
  intro s₀
  have h := Upd.refl (F := [.regs, .vecs, .mbox, .inprog, .gs, .link, .svc, .log]) s₀
  delta State.refuseSeg
  repeat' (first
    | with_reducible assumption
    | ((with_reducible apply Part.Sub.of); rfl)
    | (intro s; refine (fun h => ?_) (?_ : Upd [.regs, .vecs, .mbox, .inprog, .gs, .link, .svc, .log] s₀ s); rotate_left; subst s; rotate_left)
    | intro s
    | lift_lets -underBinder
    | with_reducible apply State.setChip_upd
    | with_reducible apply State.count_upd
    | with_reducible apply State.capture_upd
    | with_reducible apply State.raise_upd
    | with_reducible apply State.collAbort_upd)

theorem State.collTake_upd {F : List Part} {s₀ s : State} (x : Nat) (port : Nat) (m : Msg) (h : Upd F s₀ s) (hF : Part.Sub [.regs, .hbm, .vecs, .mbox, .inprog, .xlate, .gs, .link, .svc, .log] F) :
    Upd F s₀ (State.collTake s x port m) := by
  refine Upd.by_ h ?_ hF
  clear h hF
  revert s
  intro s₀
  have h := Upd.refl (F := [.regs, .hbm, .vecs, .mbox, .inprog, .xlate, .gs, .link, .svc, .log]) s₀
  delta State.collTake
  repeat' (first
    | with_reducible assumption
    | ((with_reducible apply Part.Sub.of); rfl)
    | (intro s; refine (fun h => ?_) (?_ : Upd [.regs, .hbm, .vecs, .mbox, .inprog, .xlate, .gs, .link, .svc, .log] s₀ s); rotate_left; subst s; rotate_left)
    | (intro s; have _h : List _ := s; clear _h; clear_value s)
    | intro s
    | lift_lets -underBinder
    | with_reducible apply Upd.ite
    | with_reducible apply State.collAbort_upd
    | with_reducible apply State.refuseSeg_upd
    | with_reducible apply State.modColl_upd
    | with_reducible apply State.collDownSeg_upd
    | with_reducible apply State.collSend_upd
    | with_reducible apply State.collCombine_upd
    | split)

theorem State.collOwn_upd {F : List Part} {s₀ s : State} (x : Nat) (j : Nat) (h : Upd F s₀ s) (hF : Part.Sub [.regs, .hbm, .vecs, .mbox, .inprog, .xlate, .gs, .link, .svc, .log] F) :
    Upd F s₀ (State.collOwn s x j) := by
  refine Upd.by_ h ?_ hF
  clear h hF
  revert s
  intro s₀
  have h := Upd.refl (F := [.regs, .hbm, .vecs, .mbox, .inprog, .xlate, .gs, .link, .svc, .log]) s₀
  delta State.collOwn
  repeat' (first
    | with_reducible assumption
    | ((with_reducible apply Part.Sub.of); rfl)
    | intro s
    | lift_lets -underBinder
    | with_reducible apply Upd.ite
    | with_reducible apply State.collCombine_upd
    | with_reducible apply State.collAbort_upd
    | with_reducible apply State.collDownSeg_upd
    | with_reducible apply State.collSend_upd
    | split)

theorem execCollRun_upd (box : Nat) (s₀ : State) : ∃ t, execCollRun box s₀ = .next t ∧ Upd [.free, .regs, .hbm, .vecs, .mbox, .inprog, .lastCoach, .xlate, .gs, .link, .svc, .log] s₀ t := by
  have h := Upd.refl (F := [.free, .regs, .hbm, .vecs, .mbox, .inprog, .lastCoach, .xlate, .gs, .link, .svc, .log]) s₀
  delta execCollRun
  repeat' (first
    | with_reducible assumption
    | with_reducible exact Upd.refl _
    | ((with_reducible apply Part.Sub.of); rfl)
    | (intro s; refine (fun h => ?_) (?_ : Upd [.free, .regs, .hbm, .vecs, .mbox, .inprog, .lastCoach, .xlate, .gs, .link, .svc, .log] s₀ s); rotate_left; subst s; rotate_left)
    | (intro q; refine (fun hq => ?_) (?_ : ∀ s, Upd [.free, .regs, .hbm, .vecs, .mbox, .inprog, .lastCoach, .xlate, .gs, .link, .svc, .log] s₀ s → Upd [.free, .regs, .hbm, .vecs, .mbox, .inprog, .lastCoach, .xlate, .gs, .link, .svc, .log] s₀ (q s)); rotate_left; subst q; intro s h; rotate_left)
    | (intro q; refine (fun hq => ?_) (?_ : ∀ s x, Upd [.free, .regs, .hbm, .vecs, .mbox, .inprog, .lastCoach, .xlate, .gs, .link, .svc, .log] s₀ s → Upd [.free, .regs, .hbm, .vecs, .mbox, .inprog, .lastCoach, .xlate, .gs, .link, .svc, .log] s₀ (q s x)); rotate_left; subst q; intro s x h; rotate_left)
    | (intro q; refine (fun hq => ?_) (?_ : ∀ x s, Upd [.free, .regs, .hbm, .vecs, .mbox, .inprog, .lastCoach, .xlate, .gs, .link, .svc, .log] s₀ s → Upd [.free, .regs, .hbm, .vecs, .mbox, .inprog, .lastCoach, .xlate, .gs, .link, .svc, .log] s₀ (q x s)); rotate_left; subst q; intro x s h; rotate_left)
    | (intro s; have _h : Option _ := s; clear _h; clear_value s)
    | (intro s; have _h : List _ := s; clear _h; clear_value s)
    | intro s
    | lift_lets -underBinder
    | with_reducible apply hq
    | with_reducible apply Upd.ite
    | (with_reducible apply Upd.foldl; case' hf => intro _ _ h)
    | with_reducible apply Upd.next
    | with_reducible apply State.respond_upd
    | with_reducible apply State.respondBusy_upd
    | with_reducible apply State.inProg_upd
    | with_reducible apply State.modColl_upd
    | with_reducible apply State.collOwn_upd
    | with_reducible apply State.collTake_upd
    | (with_reducible apply takeCommand_upd; case' hown => intro _ _ h)
    | split)


theorem State.collMsg_upd {F : List Part} {s₀ s : State} (port : Nat) (m : Msg) (h : Upd F s₀ s) (hF : Part.Sub [.regs, .hbm, .vecs, .mbox, .inprog, .xlate, .gs, .link, .svc, .log] F) :
    Upd F s₀ (State.collMsg s port m) := by
  refine Upd.by_ h ?_ hF
  clear h hF
  revert s
  intro s₀
  have h := Upd.refl (F := [.regs, .hbm, .vecs, .mbox, .inprog, .xlate, .gs, .link, .svc, .log]) s₀
  delta State.collMsg
  repeat' (first
    | with_reducible assumption
    | with_reducible exact Upd.refl _
    | ((with_reducible apply Part.Sub.of); rfl)
    | (intro s; refine (fun h => ?_) (?_ : Upd [.regs, .hbm, .vecs, .mbox, .inprog, .xlate, .gs, .link, .svc, .log] s₀ s); rotate_left; subst s; rotate_left)
    | (intro q; refine (fun hq => ?_) (?_ : ∀ s, Upd [.regs, .hbm, .vecs, .mbox, .inprog, .xlate, .gs, .link, .svc, .log] s₀ s → Upd [.regs, .hbm, .vecs, .mbox, .inprog, .xlate, .gs, .link, .svc, .log] s₀ (q s)); rotate_left; subst q; intro s h; rotate_left)
    | (intro q; refine (fun hq => ?_) (?_ : ∀ s x, Upd [.regs, .hbm, .vecs, .mbox, .inprog, .xlate, .gs, .link, .svc, .log] s₀ s → Upd [.regs, .hbm, .vecs, .mbox, .inprog, .xlate, .gs, .link, .svc, .log] s₀ (q s x)); rotate_left; subst q; intro s x h; rotate_left)
    | (intro q; refine (fun hq => ?_) (?_ : ∀ x s, Upd [.regs, .hbm, .vecs, .mbox, .inprog, .xlate, .gs, .link, .svc, .log] s₀ s → Upd [.regs, .hbm, .vecs, .mbox, .inprog, .xlate, .gs, .link, .svc, .log] s₀ (q x s)); rotate_left; subst q; intro x s h; rotate_left)
    | (intro s; have _h : Option _ := s; clear _h; clear_value s)
    | (intro s; have _h : List _ := s; clear _h; clear_value s)
    | intro s
    | lift_lets -underBinder
    | with_reducible apply hq
    | with_reducible apply Upd.ite
    | with_reducible apply State.collTake_upd
    | with_reducible apply State.walkRange_upd
    | with_reducible apply State.coachWrite_upd
    | with_reducible apply State.modColl_upd
    | split)


theorem execCollUp_upd (port : Nat) (m : Msg) (s₀ : State) : ∃ t, execCollUp port m s₀ = .next t ∧ Upd [.regs, .hbm, .vecs, .mbox, .inprog, .xlate, .gs, .link, .svc, .log] s₀ t := by
  have h := Upd.refl (F := [.regs, .hbm, .vecs, .mbox, .inprog, .xlate, .gs, .link, .svc, .log]) s₀
  delta execCollUp
  repeat' (first
    | with_reducible assumption
    | ((with_reducible apply Part.Sub.of); rfl)
    | with_reducible apply Upd.next
    | (with_reducible apply State.arrive_upd; case' hown => intro _ h)
    | with_reducible apply State.collMsg_upd)

theorem execCollDown_upd (port : Nat) (m : Msg) (s₀ : State) : ∃ t, execCollDown port m s₀ = .next t ∧ Upd [.regs, .hbm, .vecs, .mbox, .inprog, .xlate, .gs, .link, .svc, .log] s₀ t := by
  have h := Upd.refl (F := [.regs, .hbm, .vecs, .mbox, .inprog, .xlate, .gs, .link, .svc, .log]) s₀
  delta execCollDown
  repeat' (first
    | with_reducible assumption
    | ((with_reducible apply Part.Sub.of); rfl)
    | with_reducible apply Upd.next
    | (with_reducible apply State.arrive_upd; case' hown => intro _ h)
    | with_reducible apply State.collMsg_upd)

theorem execCollAbort_upd (port : Nat) (m : Msg) (s₀ : State) : ∃ t, execCollAbort port m s₀ = .next t ∧ Upd [.regs, .hbm, .vecs, .mbox, .inprog, .xlate, .gs, .link, .svc, .log] s₀ t := by
  have h := Upd.refl (F := [.regs, .hbm, .vecs, .mbox, .inprog, .xlate, .gs, .link, .svc, .log]) s₀
  delta execCollAbort
  repeat' (first
    | with_reducible assumption
    | ((with_reducible apply Part.Sub.of); rfl)
    | with_reducible apply Upd.next
    | (with_reducible apply State.arrive_upd; case' hown => intro _ h)
    | with_reducible apply State.collMsg_upd)

theorem execCollTimeout_upd (ctx : Nat) (s₀ : State) : ∃ t, execCollTimeout ctx s₀ = .next t ∧ Upd [.regs, .vecs, .mbox, .inprog, .link, .svc] s₀ t := by
  have h := Upd.refl (F := [.regs, .vecs, .mbox, .inprog, .link, .svc]) s₀
  delta execCollTimeout
  repeat' (first
    | with_reducible assumption
    | ((with_reducible apply Part.Sub.of); rfl)
    | with_reducible apply Upd.ite
    | with_reducible apply Upd.next
    | with_reducible apply State.collAbort_upd)

end Sys2Proof.Machine
end

