-- ==== Sys2Proof/Laws/UpdLink.lean ====
section
/-!
SUPPORT. What each operation of Machine/Link.lean may change.
-/
namespace Sys2Proof.Machine

theorem execDataFlit_upd (port : Nat) (flit : List Byte) (fec : FecFind) (s₀ : State) : ∃ t, execDataFlit port flit fec s₀ = .next t ∧ Upd [.regs, .vecs, .gs, .link, .svc, .log] s₀ t := by
  have h := Upd.refl (F := [.regs, .vecs, .gs, .link, .svc, .log]) s₀
  delta execDataFlit
  repeat' (first
    | with_reducible assumption
    | ((with_reducible apply Part.Sub.of); rfl)
    | (intro s; refine (fun h => ?_) (?_ : Upd [.regs, .vecs, .gs, .link, .svc, .log] s₀ s); rotate_left; subst s; rotate_left)
    | intro s
    | lift_lets -underBinder
    | with_reducible apply Upd.ite
    | with_reducible apply Upd.next
    | with_reducible apply State.fecTaken_upd
    | with_reducible apply State.dropFlit_upd
    | with_reducible apply State.takeHdr_upd
    | with_reducible apply State.bump_upd
    | with_reducible apply State.modPort_upd)

theorem execIdleFlit_upd (port : Nat) (flit : List Byte) (fec : FecFind) (s₀ : State) : ∃ t, execIdleFlit port flit fec s₀ = .next t ∧ Upd [.regs, .vecs, .gs, .link, .svc, .log] s₀ t := by
  have h := Upd.refl (F := [.regs, .vecs, .gs, .link, .svc, .log]) s₀
  delta execIdleFlit
  repeat' (first
    | with_reducible assumption
    | ((with_reducible apply Part.Sub.of); rfl)
    | (intro s; refine (fun h => ?_) (?_ : Upd [.regs, .vecs, .gs, .link, .svc, .log] s₀ s); rotate_left; subst s; rotate_left)
    | intro s
    | lift_lets -underBinder
    | with_reducible apply Upd.ite
    | with_reducible apply Upd.next
    | with_reducible apply State.fecTaken_upd
    | with_reducible apply State.dropFlit_upd
    | with_reducible apply State.takeHdr_upd)

theorem execReplayTimeout_upd (port : Nat) (s₀ : State) : ∃ t, execReplayTimeout port s₀ = .next t ∧ Upd [.regs, .vecs, .gs, .link, .svc, .log] s₀ t := by
  have h := Upd.refl (F := [.regs, .vecs, .gs, .link, .svc, .log]) s₀
  delta execReplayTimeout
  repeat' (first
    | with_reducible assumption
    | ((with_reducible apply Part.Sub.of); rfl)
    | with_reducible apply Upd.ite
    | with_reducible apply Upd.next
    | with_reducible apply State.replayPort_upd)

theorem State.portFrame_upd {F : List Part} {s₀ s : State} (p : Nat) (h : Upd F s₀ s) (hF : Part.Sub [.regs, .link] F) :
    Upd F s₀ (State.portFrame s p) := by
  refine Upd.by_ h ?_ hF
  clear h hF
  revert s
  intro s₀
  have h := Upd.refl (F := [.regs, .link]) s₀
  delta State.portFrame
  repeat' (first
    | with_reducible assumption
    | ((with_reducible apply Part.Sub.of); rfl)
    | (intro s; refine (fun h => ?_) (?_ : Upd [.regs, .link] s₀ s); rotate_left; subst s; rotate_left)
    | (intro s; have _h : List _ := s; clear _h; clear_value s)
    | intro s
    | lift_lets -underBinder
    | with_reducible apply Upd.ite
    | (with_reducible apply Upd.link; case h => with_reducible assumption)
    | with_reducible apply State.modPort_upd
    | with_reducible apply State.bump_upd)

theorem execFrameStart_upd (s₀ : State) : ∃ t, execFrameStart s₀ = .next t ∧ Upd [.regs, .link] s₀ t := by
  have h := Upd.refl (F := [.regs, .link]) s₀
  delta execFrameStart
  repeat' (first
    | with_reducible assumption
    | ((with_reducible apply Part.Sub.of); rfl)
    | with_reducible apply Upd.ite
    | (with_reducible apply Upd.foldl; case' hf => intro _ _ h)
    | with_reducible apply Upd.next
    | with_reducible apply State.portFrame_upd)

theorem State.shiftGcount_upd {F : List Part} {s₀ s : State} (off : Int) (h : Upd F s₀ s) (hF : Part.Sub [.gcount] F) :
    Upd F s₀ (State.shiftGcount s off) := by
  refine Upd.by_ h ?_ hF
  clear h hF
  revert s
  intro s₀
  have h := Upd.refl (F := [.gcount]) s₀
  delta State.shiftGcount
  repeat' (first
    | ((with_reducible apply Part.Sub.of); rfl)
    | with_reducible apply Upd.gcount_int
    | (with_reducible apply Upd.setGcount; case h => with_reducible assumption))

theorem State.followMark_upd {F : List Part} {s₀ s : State} (p : Nat) (hops : Nat) (master : Nat) (off : Int) (h : Upd F s₀ s) (hF : Part.Sub [.gcount, .regs, .vecs, .link] F) :
    Upd F s₀ (State.followMark s p hops master off) := by
  refine Upd.by_ h ?_ hF
  clear h hF
  revert s
  intro s₀
  have h := Upd.refl (F := [.gcount, .regs, .vecs, .link]) s₀
  delta State.followMark
  repeat' (first
    | with_reducible assumption
    | ((with_reducible apply Part.Sub.of); rfl)
    | (intro s; refine (fun h => ?_) (?_ : Upd [.gcount, .regs, .vecs, .link] s₀ s); rotate_left; subst s; rotate_left)
    | intro s
    | lift_lets -underBinder
    | with_reducible apply Upd.ite
    | (with_reducible apply Upd.link; case h => with_reducible assumption)
    | with_reducible apply State.setChip_upd
    | with_reducible apply State.shiftGcount_upd
    | with_reducible apply State.setSync_upd)

theorem State.acquire_upd {F : List Part} {s₀ s : State} (fresh : Bool) (h : Upd F s₀ s) (hF : Part.Sub [.regs, .vecs, .link] F) :
    Upd F s₀ (State.acquire s fresh) := by
  refine Upd.by_ h ?_ hF
  clear h hF
  revert s
  intro s₀
  have h := Upd.refl (F := [.regs, .vecs, .link]) s₀
  delta State.acquire
  repeat' (first
    | ((with_reducible apply Part.Sub.of); rfl)
    | intro s
    | lift_lets -underBinder
    | (with_reducible apply Upd.link; case h => with_reducible assumption)
    | with_reducible apply State.setSync_upd)

theorem State.syncMark_upd {F : List Part} {s₀ s : State} (p : Nat) (hops : Nat) (master : Nat) (off : Int) (h : Upd F s₀ s) (hF : Part.Sub [.gcount, .regs, .vecs, .gs, .link, .svc, .log] F) :
    Upd F s₀ (State.syncMark s p hops master off) := by
  refine Upd.by_ h ?_ hF
  clear h hF
  revert s
  intro s₀
  have h := Upd.refl (F := [.gcount, .regs, .vecs, .gs, .link, .svc, .log]) s₀
  delta State.syncMark
  repeat' (first
    | with_reducible assumption
    | ((with_reducible apply Part.Sub.of); rfl)
    | intro s
    | lift_lets -underBinder
    | with_reducible apply Upd.ite
    | (with_reducible apply Upd.link; case h => with_reducible assumption)
    | with_reducible apply State.setSync_upd
    | with_reducible apply State.acquire_upd
    | with_reducible apply State.followMark_upd
    | with_reducible apply State.count_upd
    | with_reducible apply State.raiseOnce_upd)

theorem State.markTaken_upd {F : List Part} {s₀ s : State} (p : Nat) (m : MarkIn) (h : Upd F s₀ s) (hF : Part.Sub [.regs, .link] F) :
    Upd F s₀ (State.markTaken s p m) := by
  refine Upd.by_ h ?_ hF
  clear h hF
  revert s
  intro s₀
  have h := Upd.refl (F := [.regs, .link]) s₀
  delta State.markTaken
  repeat' (first
    | with_reducible assumption
    | with_reducible exact Upd.refl _
    | ((with_reducible apply Part.Sub.of); rfl)
    | (intro s; refine (fun h => ?_) (?_ : Upd [.regs, .link] s₀ s); rotate_left; subst s; rotate_left)
    | (intro q; refine (fun hq => ?_) (?_ : ∀ s, Upd [.regs, .link] s₀ s → Upd [.regs, .link] s₀ (q s)); rotate_left; subst q; intro s h; rotate_left)
    | (intro q; refine (fun hq => ?_) (?_ : ∀ s x, Upd [.regs, .link] s₀ s → Upd [.regs, .link] s₀ (q s x)); rotate_left; subst q; intro s x h; rotate_left)
    | (intro q; refine (fun hq => ?_) (?_ : ∀ x s, Upd [.regs, .link] s₀ s → Upd [.regs, .link] s₀ (q x s)); rotate_left; subst q; intro x s h; rotate_left)
    | (intro s; have _h : Option _ := s; clear _h; clear_value s)
    | (intro s; have _h : List _ := s; clear _h; clear_value s)
    | intro s
    | lift_lets -underBinder
    | with_reducible apply hq
    | with_reducible apply Upd.ite
    | (with_reducible apply Upd.foldl; case' hf => intro _ _ h)
    | with_reducible apply State.bump_upd
    | with_reducible apply State.set_upd
    | with_reducible apply State.modPort_upd
    | split)


theorem State.train_upd {F : List Part} {s₀ s : State} (p : Nat) (h : Upd F s₀ s) (hF : Part.Sub [.regs, .link] F) :
    Upd F s₀ (State.train s p) := by
  refine Upd.by_ h ?_ hF
  clear h hF
  revert s
  intro s₀
  have h := Upd.refl (F := [.regs, .link]) s₀
  delta State.train
  repeat' (first
    | with_reducible assumption
    | with_reducible exact Upd.refl _
    | ((with_reducible apply Part.Sub.of); rfl)
    | (intro s; refine (fun h => ?_) (?_ : Upd [.regs, .link] s₀ s); rotate_left; subst s; rotate_left)
    | (intro q; refine (fun hq => ?_) (?_ : ∀ s, Upd [.regs, .link] s₀ s → Upd [.regs, .link] s₀ (q s)); rotate_left; subst q; intro s h; rotate_left)
    | (intro q; refine (fun hq => ?_) (?_ : ∀ s x, Upd [.regs, .link] s₀ s → Upd [.regs, .link] s₀ (q s x)); rotate_left; subst q; intro s x h; rotate_left)
    | (intro q; refine (fun hq => ?_) (?_ : ∀ x s, Upd [.regs, .link] s₀ s → Upd [.regs, .link] s₀ (q x s)); rotate_left; subst q; intro x s h; rotate_left)
    | (intro s; have _h : Option _ := s; clear _h; clear_value s)
    | (intro s; have _h : List _ := s; clear _h; clear_value s)
    | intro s
    | lift_lets -underBinder
    | with_reducible apply hq
    | with_reducible apply Upd.ite
    | with_reducible apply State.enterLink_upd
    | with_reducible apply State.modPort_upd
    | split)


theorem execMarkFlit_upd (port : Nat) (flit : List Byte) (fec : FecFind) (s₀ : State) : ∃ t, execMarkFlit port flit fec s₀ = .next t ∧ Upd [.free, .gcount, .regs, .hbm, .cores, .vecs, .gs, .sb, .link, .boot, .pwr, .svc, .log] s₀ t := by
  have h := Upd.refl (F := [.free, .gcount, .regs, .hbm, .cores, .vecs, .gs, .sb, .link, .boot, .pwr, .svc, .log]) s₀
  delta execMarkFlit
  repeat' (first
    | with_reducible assumption
    | with_reducible exact Upd.refl _
    | ((with_reducible apply Part.Sub.of); rfl)
    | (intro s; refine (fun h => ?_) (?_ : Upd [.free, .gcount, .regs, .hbm, .cores, .vecs, .gs, .sb, .link, .boot, .pwr, .svc, .log] s₀ s); rotate_left; subst s; rotate_left)
    | (intro q; refine (fun hq => ?_) (?_ : ∀ s, Upd [.free, .gcount, .regs, .hbm, .cores, .vecs, .gs, .sb, .link, .boot, .pwr, .svc, .log] s₀ s → Upd [.free, .gcount, .regs, .hbm, .cores, .vecs, .gs, .sb, .link, .boot, .pwr, .svc, .log] s₀ (q s)); rotate_left; subst q; intro s h; rotate_left)
    | (intro q; refine (fun hq => ?_) (?_ : ∀ s x, Upd [.free, .gcount, .regs, .hbm, .cores, .vecs, .gs, .sb, .link, .boot, .pwr, .svc, .log] s₀ s → Upd [.free, .gcount, .regs, .hbm, .cores, .vecs, .gs, .sb, .link, .boot, .pwr, .svc, .log] s₀ (q s x)); rotate_left; subst q; intro s x h; rotate_left)
    | (intro q; refine (fun hq => ?_) (?_ : ∀ x s, Upd [.free, .gcount, .regs, .hbm, .cores, .vecs, .gs, .sb, .link, .boot, .pwr, .svc, .log] s₀ s → Upd [.free, .gcount, .regs, .hbm, .cores, .vecs, .gs, .sb, .link, .boot, .pwr, .svc, .log] s₀ (q x s)); rotate_left; subst q; intro x s h; rotate_left)
    | (intro s; have _h : Option _ := s; clear _h; clear_value s)
    | (intro s; have _h : List _ := s; clear _h; clear_value s)
    | intro s
    | lift_lets -underBinder
    | with_reducible apply hq
    | with_reducible apply Upd.ite
    | with_reducible apply Upd.next
    | with_reducible apply State.fecTaken_upd
    | with_reducible apply State.dropFlit_upd
    | with_reducible apply State.takeHdr_upd
    | with_reducible apply State.markTaken_upd
    | with_reducible apply State.train_upd
    | with_reducible apply State.portFault_upd
    | with_reducible apply State.loseLink_upd
    | with_reducible apply State.enterLink_upd
    | with_reducible apply State.linkUp_upd
    | with_reducible apply State.modPort_upd
    | with_reducible apply State.syncMark_upd
    | split)


theorem execSyncMarkLoss_upd (s₀ : State) : ∃ t, execSyncMarkLoss s₀ = .next t ∧ Upd [.regs, .vecs, .link] s₀ t := by
  have h := Upd.refl (F := [.regs, .vecs, .link]) s₀
  delta execSyncMarkLoss
  repeat' (first
    | with_reducible assumption
    | ((with_reducible apply Part.Sub.of); rfl)
    | with_reducible apply Upd.ite
    | with_reducible apply Upd.next
    | with_reducible apply State.setSync_upd)

theorem execSyncHoldoverExpiry_upd (s₀ : State) : ∃ t, execSyncHoldoverExpiry s₀ = .next t ∧ Upd [.regs, .vecs, .link] s₀ t := by
  have h := Upd.refl (F := [.regs, .vecs, .link]) s₀
  delta execSyncHoldoverExpiry
  repeat' (first
    | with_reducible assumption
    | ((with_reducible apply Part.Sub.of); rfl)
    | with_reducible apply Upd.ite
    | with_reducible apply Upd.next
    | with_reducible apply State.setSync_upd)

theorem execLightDetect_upd (port : Nat) (s₀ : State) : ∃ t, execLightDetect port s₀ = .next t ∧ Upd [.regs, .link] s₀ t := by
  have h := Upd.refl (F := [.regs, .link]) s₀
  delta execLightDetect
  repeat' (first
    | with_reducible assumption
    | ((with_reducible apply Part.Sub.of); rfl)
    | with_reducible apply Upd.ite
    | with_reducible apply Upd.next
    | with_reducible apply State.train_upd)

theorem execTrainingRetry_upd (port : Nat) (light : Bool) (s₀ : State) : ∃ t, execTrainingRetry port light s₀ = .next t ∧ Upd [.regs, .link] s₀ t := by
  have h := Upd.refl (F := [.regs, .link]) s₀
  delta execTrainingRetry
  repeat' (first
    | with_reducible assumption
    | ((with_reducible apply Part.Sub.of); rfl)
    | lift_lets -underBinder
    | with_reducible apply Upd.ite
    | with_reducible apply Upd.next
    | with_reducible apply State.train_upd
    | with_reducible apply State.modPort_upd)

theorem execTrainingTimeout_upd (port : Nat) (s₀ : State) : ∃ t, execTrainingTimeout port s₀ = .next t ∧ Upd [.regs, .hbm, .cores, .vecs, .gs, .sb, .link, .svc, .log] s₀ t := by
  have h := Upd.refl (F := [.regs, .hbm, .cores, .vecs, .gs, .sb, .link, .svc, .log]) s₀
  delta execTrainingTimeout
  repeat' (first
    | with_reducible assumption
    | ((with_reducible apply Part.Sub.of); rfl)
    | with_reducible apply Upd.ite
    | with_reducible apply Upd.next
    | with_reducible apply State.linkDown_upd)

theorem execFecLockLoss_upd (port : Nat) (lane : Nat) (s₀ : State) : ∃ t, execFecLockLoss port lane s₀ = .next t ∧ Upd [.regs, .link] s₀ t := by
  have h := Upd.refl (F := [.regs, .link]) s₀
  delta execFecLockLoss
  repeat' (first
    | with_reducible assumption
    | ((with_reducible apply Part.Sub.of); rfl)
    | with_reducible apply Upd.ite
    | with_reducible apply Upd.next
    | with_reducible apply State.retrain_upd
    | with_reducible apply State.set_upd)

theorem execRetrainRelock_upd (port : Nat) (ack : Nat) (s₀ : State) : ∃ t, execRetrainRelock port ack s₀ = .next t ∧ Upd [.regs, .vecs, .gs, .link, .svc, .log] s₀ t := by
  have h := Upd.refl (F := [.regs, .vecs, .gs, .link, .svc, .log]) s₀
  delta execRetrainRelock
  repeat' (first
    | with_reducible assumption
    | ((with_reducible apply Part.Sub.of); rfl)
    | (intro s; refine (fun h => ?_) (?_ : Upd [.regs, .vecs, .gs, .link, .svc, .log] s₀ s); rotate_left; subst s; rotate_left)
    | lift_lets -underBinder
    | with_reducible apply Upd.ite
    | with_reducible apply Upd.next
    | with_reducible apply State.enterLink_upd
    | with_reducible apply State.set_upd
    | with_reducible apply State.modPort_upd
    | with_reducible apply State.replayPort_upd)

theorem execRetrainTimeout_upd (port : Nat) (s₀ : State) : ∃ t, execRetrainTimeout port s₀ = .next t ∧ Upd [.regs, .hbm, .cores, .vecs, .gs, .sb, .link, .svc, .log] s₀ t := by
  have h := Upd.refl (F := [.regs, .hbm, .cores, .vecs, .gs, .sb, .link, .svc, .log]) s₀
  delta execRetrainTimeout
  repeat' (first
    | with_reducible assumption
    | ((with_reducible apply Part.Sub.of); rfl)
    | with_reducible apply Upd.ite
    | with_reducible apply Upd.next
    | with_reducible apply State.portFault_upd
    | with_reducible apply State.linkDown_upd)

theorem execLossOfSignal_upd (port : Nat) (lane : Nat) (s₀ : State) : ∃ t, execLossOfSignal port lane s₀ = .next t ∧ Upd [.regs, .hbm, .cores, .vecs, .gs, .sb, .link, .svc, .log] s₀ t := by
  have h := Upd.refl (F := [.regs, .hbm, .cores, .vecs, .gs, .sb, .link, .svc, .log]) s₀
  delta execLossOfSignal
  repeat' (first
    | with_reducible assumption
    | ((with_reducible apply Part.Sub.of); rfl)
    | with_reducible apply Upd.ite
    | with_reducible apply Upd.next
    | with_reducible apply State.portFault_upd
    | with_reducible apply State.linkDown_upd)

theorem execPortDisableWrite_upd (port : Nat) (value : Nat) (s₀ : State) : ∃ t, execPortDisableWrite port value s₀ = .next t ∧ Upd [.free, .regs, .hbm, .cores, .vecs, .gs, .sb, .link, .svc, .log] s₀ t := by
  have h := Upd.refl (F := [.free, .regs, .hbm, .cores, .vecs, .gs, .sb, .link, .svc, .log]) s₀
  delta execPortDisableWrite
  repeat' (first
    | with_reducible assumption
    | with_reducible exact Upd.refl _
    | ((with_reducible apply Part.Sub.of); rfl)
    | with_reducible apply Upd.ite
    | with_reducible apply Upd.next
    | with_reducible apply State.writePortCtrl_upd
    | split)


theorem execRouteUpdate_upd (s₀ : State) : ∃ t, execRouteUpdate s₀ = .next t ∧ Upd [.regs, .link] s₀ t := by
  have h := Upd.refl (F := [.regs, .link]) s₀
  delta execRouteUpdate
  repeat' (first
    | with_reducible assumption
    | with_reducible exact Upd.refl _
    | ((with_reducible apply Part.Sub.of); rfl)
    | (intro s; refine (fun h => ?_) (?_ : Upd [.regs, .link] s₀ s); rotate_left; subst s; rotate_left)
    | (intro q; refine (fun hq => ?_) (?_ : ∀ s, Upd [.regs, .link] s₀ s → Upd [.regs, .link] s₀ (q s)); rotate_left; subst q; intro s h; rotate_left)
    | (intro q; refine (fun hq => ?_) (?_ : ∀ s x, Upd [.regs, .link] s₀ s → Upd [.regs, .link] s₀ (q s x)); rotate_left; subst q; intro s x h; rotate_left)
    | (intro q; refine (fun hq => ?_) (?_ : ∀ x s, Upd [.regs, .link] s₀ s → Upd [.regs, .link] s₀ (q x s)); rotate_left; subst q; intro x s h; rotate_left)
    | (intro s; have _h : Option _ := s; clear _h; clear_value s)
    | (intro s; have _h : List _ := s; clear _h; clear_value s)
    | intro s
    | lift_lets -underBinder
    | with_reducible apply hq
    | with_reducible apply Upd.ite
    | (with_reducible apply Upd.foldl; case' hf => intro _ _ h)
    | with_reducible apply Upd.next
    | (with_reducible apply Upd.link; case h => with_reducible assumption)
    | with_reducible apply State.setWord_upd
    | with_reducible apply State.count_upd
    | split)


theorem State.presenceNote_upd {F : List Part} {s₀ s : State} (k : Nat) (h : Upd F s₀ s) (hF : Part.Sub [.link, .svc] F) :
    Upd F s₀ (State.presenceNote s k) := by
  refine Upd.by_ h ?_ hF
  clear h hF
  revert s
  intro s₀
  have h := Upd.refl (F := [.link, .svc]) s₀
  delta State.presenceNote
  repeat' (first
    | with_reducible assumption
    | ((with_reducible apply Part.Sub.of); rfl)
    | (intro s; refine (fun h => ?_) (?_ : Upd [.link, .svc] s₀ s); rotate_left; subst s; rotate_left)
    | lift_lets -underBinder
    | with_reducible apply Upd.ite
    | with_reducible apply State.alertCause_upd
    | with_reducible apply State.tellHosts_upd)

theorem State.unplug_upd {F : List Part} {s₀ s : State} (k : Nat) (h : Upd F s₀ s) (hF : Part.Sub [.free, .regs, .hbm, .cores, .vecs, .gs, .sb, .link, .svc, .log] F) :
    Upd F s₀ (State.unplug s k) := by
  refine Upd.by_ h ?_ hF
  clear h hF
  revert s
  intro s₀
  have h := Upd.refl (F := [.free, .regs, .hbm, .cores, .vecs, .gs, .sb, .link, .svc, .log]) s₀
  delta State.unplug
  repeat' (first
    | with_reducible assumption
    | ((with_reducible apply Part.Sub.of); rfl)
    | (intro s; refine (fun h => ?_) (?_ : Upd [.free, .regs, .hbm, .cores, .vecs, .gs, .sb, .link, .svc, .log] s₀ s); rotate_left; subst s; rotate_left)
    | intro s
    | lift_lets -underBinder
    | with_reducible apply Upd.ite
    | (with_reducible apply Upd.foldl; case' hf => intro _ _ h)
    | with_reducible apply State.setChip_upd
    | with_reducible apply State.count_upd
    | with_reducible apply State.set_upd
    | with_reducible apply State.portFault_upd
    | with_reducible apply State.linkDown_upd
    | with_reducible apply State.endLoop_upd
    | with_reducible apply State.setLaser_upd
    | with_reducible apply State.presenceNote_upd)

theorem State.plug_upd {F : List Part} {s₀ s : State} (k : Nat) (h : Upd F s₀ s) (hF : Part.Sub [.regs, .link, .svc] F) :
    Upd F s₀ (State.plug s k) := by
  refine Upd.by_ h ?_ hF
  clear h hF
  revert s
  intro s₀
  have h := Upd.refl (F := [.regs, .link, .svc]) s₀
  delta State.plug
  repeat' (first
    | with_reducible assumption
    | ((with_reducible apply Part.Sub.of); rfl)
    | (intro s; refine (fun h => ?_) (?_ : Upd [.regs, .link, .svc] s₀ s); rotate_left; subst s; rotate_left)
    | intro s
    | lift_lets -underBinder
    | (with_reducible apply Upd.foldl; case' hf => intro _ _ h)
    | (with_reducible apply Upd.link; case h => with_reducible assumption)
    | with_reducible apply State.presenceNote_upd
    | with_reducible apply State.setChip_upd
    | with_reducible apply State.count_upd
    | with_reducible apply State.set_upd)

theorem execPresenceChange_upd (oc : Nat) (present : Bool) (s₀ : State) : ∃ t, execPresenceChange oc present s₀ = .next t ∧ Upd [.free, .regs, .hbm, .cores, .vecs, .gs, .sb, .link, .svc, .log] s₀ t := by
  have h := Upd.refl (F := [.free, .regs, .hbm, .cores, .vecs, .gs, .sb, .link, .svc, .log]) s₀
  delta execPresenceChange
  repeat' (first
    | with_reducible assumption
    | ((with_reducible apply Part.Sub.of); rfl)
    | with_reducible apply Upd.ite
    | with_reducible apply Upd.next
    | with_reducible apply State.plug_upd
    | with_reducible apply State.unplug_upd)

theorem execPresenceSteady_upd (oc : Nat) (s₀ : State) : ∃ t, execPresenceSteady oc s₀ = .next t ∧ Upd [.regs, .link] s₀ t := by
  have h := Upd.refl (F := [.regs, .link]) s₀
  delta execPresenceSteady
  repeat' (first
    | with_reducible assumption
    | ((with_reducible apply Part.Sub.of); rfl)
    | (intro s; refine (fun h => ?_) (?_ : Upd [.regs, .link] s₀ s); rotate_left; subst s; rotate_left)
    | intro s
    | lift_lets -underBinder
    | with_reducible apply Upd.ite
    | (with_reducible apply Upd.foldl; case' hf => intro _ _ h)
    | with_reducible apply Upd.next
    | (with_reducible apply Upd.link; case h => with_reducible assumption)
    | with_reducible apply State.setLaser_upd)

theorem execDrainComplete_upd (s₀ : State) : ∃ t, execDrainComplete s₀ = .next t ∧ Upd [.regs, .vecs, .mbox, .inprog, .link, .svc] s₀ t := by
  have h := Upd.refl (F := [.regs, .vecs, .mbox, .inprog, .link, .svc]) s₀
  delta execDrainComplete
  repeat' (first
    | with_reducible assumption
    | ((with_reducible apply Part.Sub.of); rfl)
    | (intro s; refine (fun h => ?_) (?_ : Upd [.regs, .vecs, .mbox, .inprog, .link, .svc] s₀ s); rotate_left; subst s; rotate_left)
    | lift_lets -underBinder
    | with_reducible apply Upd.ite
    | with_reducible apply Upd.next
    | with_reducible apply State.setChip_upd
    | with_reducible apply State.serviceNote_upd
    | with_reducible apply State.answerAll_upd)

theorem execPortSwitchParityFailure_upd (s₀ : State) : ∃ t, execPortSwitchParityFailure s₀ = .next t ∧ Upd [.regs, .hbm, .cores, .vecs, .gs, .sb, .link, .svc, .log] s₀ t := by
  have h := Upd.refl (F := [.regs, .hbm, .cores, .vecs, .gs, .sb, .link, .svc, .log]) s₀
  delta execPortSwitchParityFailure
  repeat' (first
    | with_reducible assumption
    | ((with_reducible apply Part.Sub.of); rfl)
    | (intro s; refine (fun h => ?_) (?_ : Upd [.regs, .hbm, .cores, .vecs, .gs, .sb, .link, .svc, .log] s₀ s); rotate_left; subst s; rotate_left)
    | intro s
    | lift_lets -underBinder
    | with_reducible apply Upd.ite
    | (with_reducible apply Upd.foldl; case' hf => intro _ _ h)
    | with_reducible apply Upd.next
    | (with_reducible apply Upd.gs; case h => with_reducible assumption)
    | with_reducible apply State.loseLink_upd
    | with_reducible apply State.linkDown_upd
    | with_reducible apply State.setLaser_upd)

end Sys2Proof.Machine
end

