-- ==== Sys2Proof/Laws/UpdResetOps.lean ====
section
/-!
SUPPORT. What each operation of Machine/ResetOps.lean may change.
-/
namespace Sys2Proof.Machine

theorem State.writeQueued_upd {F : List Part} {s₀ s : State} (r : LogRec) (h : Upd F s₀ s) (hF : Part.Sub [.regs, .vecs, .link, .log] F) :
    Upd F s₀ (State.writeQueued s r) := by
  refine Upd.by_ h ?_ hF
  clear h hF
  revert s
  intro s₀
  have h := Upd.refl (F := [.regs, .vecs, .link, .log]) s₀
  delta State.writeQueued
  repeat' (first
    | with_reducible assumption
    | ((with_reducible apply Part.Sub.of); rfl)
    | intro s
    | lift_lets -underBinder
    | with_reducible apply State.logWrite_upd)

theorem seqNext_upd {F : List Part} {s₀ s : State} (n : Nat) (h : Upd F s₀ s) (hF : Part.Sub [.regs, .vecs, .link, .log] F) :
    Upd F s₀ (seqNext n s) := by
  have hl : Part.Sub [.log] F := Part.Sub.trans (Part.Sub.of rfl) hF
  have hr : Part.Sub [.regs] F := Part.Sub.trans (Part.Sub.of rfl) hF
  induction n generalizing s with
  | zero => exact h
  | succ n ih =>
    have hw (r : LogRec) : Upd F s₀ (s.writeQueued r) := State.writeQueued_upd r h (Part.Sub.trans (Part.Sub.of rfl) hF)
    unfold seqNext
    dsimp only
    split
    · exact h
    · split
      · exact ih (Upd.log _ (hw _) hl)
      · split
        · exact h
        · refine Upd.log _ ?_ hl
          split
          · exact State.count_upd _ _ (hw _) hr
          · exact hw _
      · split
        · exact h
        · exact Upd.log _ (hw _) hl
      · split
        · exact h
        · exact ih (Upd.log _ (hw _) hl)
      · exact h

theorem State.seqResume_upd {F : List Part} {s₀ s : State} (h : Upd F s₀ s) (hF : Part.Sub [.regs, .vecs, .link, .log] F) :
    Upd F s₀ (State.seqResume s) := by
  refine Upd.by_ h ?_ hF
  clear h hF
  revert s
  intro s₀
  have h := Upd.refl (F := [.regs, .vecs, .link, .log]) s₀
  delta State.seqResume
  repeat' (first
    | with_reducible assumption
    | ((with_reducible apply Part.Sub.of); rfl)
    | with_reducible apply seqNext_upd)

theorem State.writeHeld_upd {F : List Part} {s₀ s : State} (h : Upd F s₀ s) (hF : Part.Sub [.regs, .vecs, .link, .log] F) :
    Upd F s₀ (State.writeHeld s) := by
  refine Upd.by_ h ?_ hF
  clear h hF
  revert s
  intro s₀
  have h := Upd.refl (F := [.regs, .vecs, .link, .log]) s₀
  delta State.writeHeld
  repeat' (first
    | with_reducible assumption
    | ((with_reducible apply Part.Sub.of); rfl)
    | (intro s; refine (fun h => ?_) (?_ : Upd [.regs, .vecs, .link, .log] s₀ s); rotate_left; subst s; rotate_left)
    | (intro s; have _h : List _ := s; clear _h; clear_value s)
    | intro s
    | lift_lets -underBinder
    | (with_reducible apply Upd.foldl; case' hf => intro _ _ h)
    | (with_reducible apply Upd.log; case h => with_reducible assumption)
    | with_reducible apply State.writeQueued_upd)

theorem State.dropOwn_upd {F : List Part} {s₀ s : State} (h : Upd F s₀ s) (hF : Part.Sub [.link] F) :
    Upd F s₀ (State.dropOwn s) := by
  refine Upd.by_ h ?_ hF
  clear h hF
  revert s
  intro s₀
  have h := Upd.refl (F := [.link]) s₀
  delta State.dropOwn
  repeat' (first
    | with_reducible assumption
    | with_reducible exact Upd.refl _
    | ((with_reducible apply Part.Sub.of); rfl)
    | (intro s; refine (fun h => ?_) (?_ : Upd [.link] s₀ s); rotate_left; subst s; rotate_left)
    | (intro q; refine (fun hq => ?_) (?_ : ∀ s, Upd [.link] s₀ s → Upd [.link] s₀ (q s)); rotate_left; subst q; intro s h; rotate_left)
    | (intro q; refine (fun hq => ?_) (?_ : ∀ s x, Upd [.link] s₀ s → Upd [.link] s₀ (q s x)); rotate_left; subst q; intro s x h; rotate_left)
    | (intro q; refine (fun hq => ?_) (?_ : ∀ x s, Upd [.link] s₀ s → Upd [.link] s₀ (q x s)); rotate_left; subst q; intro x s h; rotate_left)
    | (intro s; have _h : Option _ := s; clear _h; clear_value s)
    | (intro s; have _h : List _ := s; clear _h; clear_value s)
    | intro s
    | lift_lets -underBinder
    | with_reducible apply hq
    | with_reducible apply Upd.ite
    | (with_reducible apply Upd.link; case h => with_reducible assumption)
    | split)

theorem State.endAllWork_upd {F : List Part} {s₀ s : State} (h : Upd F s₀ s) (hF : Part.Sub [.regs, .cores, .noc] F) :
    Upd F s₀ (State.endAllWork s) := by
  refine Upd.by_ h ?_ hF
  clear h hF
  revert s
  intro s₀
  have h := Upd.refl (F := [.regs, .cores, .noc]) s₀
  delta State.endAllWork
  repeat' (first
    | with_reducible assumption
    | with_reducible exact Upd.refl _
    | ((with_reducible apply Part.Sub.of); rfl)
    | (intro s; refine (fun h => ?_) (?_ : Upd [.regs, .cores, .noc] s₀ s); rotate_left; subst s; rotate_left)
    | (intro q; refine (fun hq => ?_) (?_ : ∀ s, Upd [.regs, .cores, .noc] s₀ s → Upd [.regs, .cores, .noc] s₀ (q s)); rotate_left; subst q; intro s h; rotate_left)
    | (intro q; refine (fun hq => ?_) (?_ : ∀ s x, Upd [.regs, .cores, .noc] s₀ s → Upd [.regs, .cores, .noc] s₀ (q s x)); rotate_left; subst q; intro s x h; rotate_left)
    | (intro q; refine (fun hq => ?_) (?_ : ∀ x s, Upd [.regs, .cores, .noc] s₀ s → Upd [.regs, .cores, .noc] s₀ (q x s)); rotate_left; subst q; intro x s h; rotate_left)
    | (intro s; have _h : Option _ := s; clear _h; clear_value s)
    | (intro s; have _h : List _ := s; clear _h; clear_value s)
    | intro s
    | lift_lets -underBinder
    | with_reducible apply hq
    | with_reducible apply Upd.ite
    | (with_reducible apply Upd.foldl; case' hf => intro _ _ h)
    | (with_reducible apply Upd.cores; case h => with_reducible assumption)
    | with_reducible apply State.releaseBlocks_upd
    | with_reducible apply State.qLeave_upd
    | split)

theorem State.warmTrigger_upd {F : List Part} {s₀ s : State} (t : Nat) (h : Upd F s₀ s) (hF : Part.Sub [.regs, .cores, .gs, .link, .log, .noc] F) :
    Upd F s₀ (State.warmTrigger s t) := by
  refine Upd.by_ h ?_ hF
  clear h hF
  revert s
  intro s₀
  have h := Upd.refl (F := [.regs, .cores, .gs, .link, .log, .noc]) s₀
  delta State.warmTrigger
  repeat' (first
    | with_reducible assumption
    | ((with_reducible apply Part.Sub.of); rfl)
    | ((with_reducible apply Or.inr); exact .of rfl)
    | ((with_reducible apply Or.inl); rfl)
    | with_reducible apply Nat.le_refl
    | with_reducible apply Upd.gcount_id
    | with_reducible apply MemUpd.refl
    | with_reducible apply RegsUpd.refl
    | with_reducible apply FusesUpd.refl
    | with_reducible apply NocUpd.refl
    | (intro s; refine (fun h => ?_) (?_ : Upd [.regs, .cores, .gs, .link, .log, .noc] s₀ s); rotate_left; subst s; rotate_left)
    | intro s
    | lift_lets -underBinder
    | with_reducible apply Upd.ite
    | (with_reducible apply Upd.fields; (case h => with_reducible assumption))
    | with_reducible apply State.endAllWork_upd
    | with_reducible apply State.dropOwn_upd)

theorem State.freeAllEntries_upd {F : List Part} {s₀ s : State} (h : Upd F s₀ s) (hF : Part.Sub [.hbm] F) :
    Upd F s₀ (State.freeAllEntries s) := by
  refine Upd.by_ h ?_ hF
  clear h hF
  revert s
  intro s₀
  have h := Upd.refl (F := [.hbm]) s₀
  delta State.freeAllEntries
  repeat' (first
    | with_reducible assumption
    | ((with_reducible apply Part.Sub.of); rfl)
    | (with_reducible apply Upd.foldl; case' hf => intro _ _ h)
    | with_reducible apply State.setSeq_upd)

theorem State.warmClear_upd {F : List Part} {s₀ s : State} (h : Upd F s₀ s) (hF : Part.Sub [.regs, .hbm, .spm, .cores, .coaches, .vecs, .inprog, .xlate, .tables, .graphs, .gs, .sb, .link, .ledger, .noc] F) :
    Upd F s₀ (State.warmClear s) := by
  refine Upd.by_ h ?_ hF
  clear h hF
  revert s
  intro s₀
  have h := Upd.refl (F := [.regs, .hbm, .spm, .cores, .coaches, .vecs, .inprog, .xlate, .tables, .graphs, .gs, .sb, .link, .ledger, .noc]) s₀
  delta State.warmClear
  repeat' (first
    | with_reducible assumption
    | ((with_reducible apply Part.Sub.of); rfl)
    | ((with_reducible apply Or.inr); exact .of rfl)
    | ((with_reducible apply Or.inl); rfl)
    | with_reducible apply Nat.le_refl
    | with_reducible apply Upd.gcount_id
    | (with_reducible apply MemUpd.nil; with_reducible apply MemUpd.refl)
    | (with_reducible apply RegsUpd.filter; with_reducible apply RegsUpd.refl)
    | with_reducible apply MemUpd.refl
    | with_reducible apply RegsUpd.refl
    | with_reducible apply FusesUpd.refl
    | with_reducible apply NocUpd.empty
    | (intro s; refine (fun h => ?_) (?_ : Upd [.regs, .hbm, .spm, .cores, .coaches, .vecs, .inprog, .xlate, .tables, .graphs, .gs, .sb, .link, .ledger, .noc] s₀ s); rotate_left; subst s; rotate_left)
    | intro s
    | lift_lets -underBinder
    | with_reducible apply Upd.ite
    | (with_reducible apply Upd.foldl; case' hf => intro _ _ h)
    | (with_reducible apply Upd.setRegs; case h => with_reducible assumption)
    | (with_reducible apply Upd.fields; (case h => with_reducible assumption))
    | with_reducible apply State.freeAllEntries_upd
    | with_reducible apply State.setChip_upd
    | with_reducible apply State.set_upd)

theorem execWarmResetQuiesced_upd (s₀ : State) : ∃ t, execWarmResetQuiesced s₀ = .next t ∧ Upd [.regs, .hbm, .spm, .cores, .coaches, .vecs, .inprog, .xlate, .tables, .graphs, .gs, .sb, .link, .boot, .ledger, .noc] s₀ t := by
  have h := Upd.refl (F := [.regs, .hbm, .spm, .cores, .coaches, .vecs, .inprog, .xlate, .tables, .graphs, .gs, .sb, .link, .boot, .ledger, .noc]) s₀
  delta execWarmResetQuiesced
  repeat' (first
    | with_reducible assumption
    | ((with_reducible apply Part.Sub.of); rfl)
    | (intro s; refine (fun h => ?_) (?_ : Upd [.regs, .hbm, .spm, .cores, .coaches, .vecs, .inprog, .xlate, .tables, .graphs, .gs, .sb, .link, .boot, .ledger, .noc] s₀ s); rotate_left; subst s; rotate_left)
    | intro s
    | lift_lets -underBinder
    | with_reducible apply Upd.ite
    | with_reducible apply Upd.next
    | (with_reducible apply Upd.boot; case h => with_reducible assumption)
    | with_reducible apply State.warmClear_upd
    | with_reducible apply State.enterRom_upd)

theorem execGsSbParityFail_upd (s₀ : State) : ∃ t, execGsSbParityFail s₀ = .next t ∧ Upd [.regs, .cores, .gs, .link, .log, .noc] s₀ t := by
  have h := Upd.refl (F := [.regs, .cores, .gs, .link, .log, .noc]) s₀
  delta execGsSbParityFail
  repeat' (first
    | with_reducible assumption
    | ((with_reducible apply Part.Sub.of); rfl)
    | with_reducible apply Upd.next
    | with_reducible apply State.warmTrigger_upd)

theorem State.cold_upd {F : List Part} {s₀ s : State} (h : Upd F s₀ s) (hF : Part.Sub [.free, .gcount, .regs, .hbm, .spm, .cores, .coaches, .vecs, .mbox, .inprog, .lastCoach, .xlate, .tables, .graphs, .gs, .sb, .link, .boot, .pwr, .svc, .jtag, .log, .ledger, .noc] F) : Upd F s₀ s.cold := by
  refine h.by_ ?_ hF
  unfold State.cold
  have h0 : Upd [.free, .gcount, .regs, .hbm, .spm, .cores, .coaches, .vecs, .mbox, .inprog, .lastCoach, .xlate, .tables, .graphs, .gs, .sb, .link, .boot, .pwr, .svc, .jtag, .log, .ledger, .noc] s { pending := s.pending, free := s.free, fuses := s.fuses } :=
    ⟨rfl, Nat.le_refl _, fun _ => Nat.two_pow_pos 64, .nil (.refl _), .nil (.refl _), .nil (.refl _), .nil (.refl _), .refl _,
      .empty _, fun f hf => by cases f <;> first | rfl | exact absurd hf (by decide)⟩
  have h1 := Upd.pwr (s := { pending := s.pending, free := s.free, fuses := s.fuses })
    { pwrgd := s.pwr.pwrgd, poreset := s.pwr.poreset } h0 (.of rfl)
  exact State.setChip_upd _ _ (State.setChip_upd _ _ (State.setChip_upd _ _ (State.setChip_upd _ _ (State.setChip_upd _ _
    (State.setChip_upd _ _ h1 (.of rfl)) (.of rfl)) (.of rfl)) (.of rfl)) (.of rfl)) (.of rfl)

theorem State.coldHeld_upd {F : List Part} {s₀ s : State} (rails : Nat) (h : Upd F s₀ s) (hF : Part.Sub [.free, .gcount, .regs, .hbm, .spm, .cores, .coaches, .vecs, .mbox, .inprog, .lastCoach, .xlate, .tables, .graphs, .gs, .sb, .link, .boot, .pwr, .svc, .jtag, .log, .ledger, .noc] F) :
    Upd F s₀ (State.coldHeld s rails) := by
  refine Upd.by_ h ?_ hF
  clear h hF
  revert s
  intro s₀
  have h := Upd.refl (F := [.free, .gcount, .regs, .hbm, .spm, .cores, .coaches, .vecs, .mbox, .inprog, .lastCoach, .xlate, .tables, .graphs, .gs, .sb, .link, .boot, .pwr, .svc, .jtag, .log, .ledger, .noc]) s₀
  delta State.coldHeld
  repeat' (first
    | with_reducible assumption
    | ((with_reducible apply Part.Sub.of); rfl)
    | (intro s; refine (fun h => ?_) (?_ : Upd [.free, .gcount, .regs, .hbm, .spm, .cores, .coaches, .vecs, .mbox, .inprog, .lastCoach, .xlate, .tables, .graphs, .gs, .sb, .link, .boot, .pwr, .svc, .jtag, .log, .ledger, .noc] s₀ s); rotate_left; subst s; rotate_left)
    | intro s
    | lift_lets -underBinder
    | (with_reducible apply Upd.pwr; case h => with_reducible assumption)
    | with_reducible apply State.cold_upd
    | with_reducible apply State.setChip_upd)

theorem State.writeMpInfo_upd {F : List Part} {s₀ s : State} (h : Upd F s₀ s) (hF : Part.Sub [.regs] F) :
    Upd F s₀ (State.writeMpInfo s) := by
  refine Upd.by_ h ?_ hF
  clear h hF
  revert s
  intro s₀
  have h := Upd.refl (F := [.regs]) s₀
  delta State.writeMpInfo
  repeat' (first
    | with_reducible assumption
    | ((with_reducible apply Part.Sub.of); rfl)
    | with_reducible apply State.setChip_upd)

end Sys2Proof.Machine
end

