-- ==== Sys2Proof/Laws/UpdBoot.lean ====
section
/-!
SUPPORT. What each operation of Machine/Boot.lean may change.
-/
namespace Sys2Proof.Machine

theorem execBootPorDone_upd (ok : Bool) (s₀ : State) : ∃ t, execBootPorDone ok s₀ = .next t ∧ Upd [.regs, .link, .boot] s₀ t := by
  have h := Upd.refl (F := [.regs, .link, .boot]) s₀
  delta execBootPorDone
  repeat' (first
    | with_reducible assumption
    | ((with_reducible apply Part.Sub.of); rfl)
    | (intro s; refine (fun h => ?_) (?_ : Upd [.regs, .link, .boot] s₀ s); rotate_left; subst s; rotate_left)
    | intro s
    | lift_lets -underBinder
    | with_reducible apply Upd.ite
    | with_reducible apply Upd.next
    | (with_reducible apply Upd.boot; case h => with_reducible assumption)
    | with_reducible apply State.romFailed_upd
    | with_reducible apply State.setChip_upd
    | with_reducible apply State.extendM_upd
    | with_reducible apply State.enterRom_upd)

theorem State.lasersOn_upd {F : List Part} {s₀ s : State} (h : Upd F s₀ s) (hF : Part.Sub [.regs] F) :
    Upd F s₀ (State.lasersOn s) := by
  refine Upd.by_ h ?_ hF
  clear h hF
  revert s
  intro s₀
  have h := Upd.refl (F := [.regs]) s₀
  delta State.lasersOn
  repeat' (first
    | with_reducible assumption
    | ((with_reducible apply Part.Sub.of); rfl)
    | with_reducible apply Upd.ite
    | (with_reducible apply Upd.foldl; case' hf => intro _ _ h)
    | with_reducible apply State.setLaser_upd)

theorem State.lasersOff_upd {F : List Part} {s₀ s : State} (h : Upd F s₀ s) (hF : Part.Sub [.regs] F) :
    Upd F s₀ (State.lasersOff s) := by
  refine Upd.by_ h ?_ hF
  clear h hF
  revert s
  intro s₀
  have h := Upd.refl (F := [.regs]) s₀
  delta State.lasersOff
  repeat' (first
    | with_reducible assumption
    | ((with_reducible apply Part.Sub.of); rfl)
    | (with_reducible apply Upd.foldl; case' hf => intro _ _ h)
    | with_reducible apply State.setLaser_upd)

theorem State.trainToLink_upd {F : List Part} {s₀ s : State} (h : Upd F s₀ s) (hF : Part.Sub [.free, .regs, .vecs, .gs, .link, .boot, .pwr, .svc, .log] F) :
    Upd F s₀ (State.trainToLink s) := by
  refine Upd.by_ h ?_ hF
  clear h hF
  revert s
  intro s₀
  have h := Upd.refl (F := [.free, .regs, .vecs, .gs, .link, .boot, .pwr, .svc, .log]) s₀
  delta State.trainToLink
  repeat' (first
    | with_reducible assumption
    | ((with_reducible apply Part.Sub.of); rfl)
    | with_reducible apply Upd.ite
    | with_reducible apply State.enterRom_upd
    | with_reducible apply State.lasersOn_upd)

theorem execHbmTrainDone_upd (failed : Nat) (s₀ : State) : ∃ t, execHbmTrainDone failed s₀ = .next t ∧ Upd [.free, .regs, .vecs, .gs, .link, .boot, .pwr, .svc, .log] s₀ t := by
  have h := Upd.refl (F := [.free, .regs, .vecs, .gs, .link, .boot, .pwr, .svc, .log]) s₀
  delta execHbmTrainDone
  repeat' (first
    | with_reducible assumption
    | ((with_reducible apply Part.Sub.of); rfl)
    | (intro s; refine (fun h => ?_) (?_ : Upd [.free, .regs, .vecs, .gs, .link, .boot, .pwr, .svc, .log] s₀ s); rotate_left; subst s; rotate_left)
    | lift_lets -underBinder
    | with_reducible apply Upd.ite
    | (with_reducible apply Upd.foldl; case' hf => intro _ _ h)
    | with_reducible apply Upd.next
    | with_reducible apply State.set_upd
    | with_reducible apply State.draw_upd
    | with_reducible apply State.romFailed_upd
    | with_reducible apply State.trainToLink_upd)

theorem execBootReqTimer_upd (s₀ : State) : ∃ t, execBootReqTimer s₀ = .next t ∧ Upd [.link, .boot] s₀ t := by
  have h := Upd.refl (F := [.link, .boot]) s₀
  delta execBootReqTimer
  repeat' (first
    | with_reducible assumption
    | ((with_reducible apply Part.Sub.of); rfl)
    | with_reducible apply Upd.ite
    | with_reducible apply Upd.next
    | with_reducible apply State.bootReqAll_upd)

theorem State.repairCores_upd {F : List Part} {s₀ s : State} (cfg : Nat) (entries : List Nat) (bad : List Nat) (h : Upd F s₀ s) (hF : Part.Sub [.regs, .boot] F) :
    Upd F s₀ (State.repairCores s cfg entries bad) := by
  refine Upd.by_ h ?_ hF
  clear h hF
  revert s
  intro s₀
  have h := Upd.refl (F := [.regs, .boot]) s₀
  delta State.repairCores
  repeat' (first
    | with_reducible assumption
    | ((with_reducible apply Part.Sub.of); rfl)
    | (intro s; refine (fun h => ?_) (?_ : Upd [.regs, .boot] s₀ s); rotate_left; subst s; rotate_left)
    | (intro s; have _h : List _ := s; clear _h; clear_value s)
    | intro s
    | lift_lets -underBinder
    | with_reducible apply Upd.ite
    | (with_reducible apply Upd.foldl; case' hf => intro _ _ h)
    | (with_reducible apply Upd.boot; case h => with_reducible assumption)
    | with_reducible apply State.set_upd
    | with_reducible apply State.setWord_upd
    | with_reducible apply State.setChip_upd
    | split)

theorem State.repairRows_upd {F : List Part} {s₀ s : State} (rows : List (Nat × Nat × Nat)) (h : Upd F s₀ s) (hF : Part.Sub [.regs, .hbm, .boot] F) :
    Upd F s₀ (State.repairRows s rows) := by
  refine Upd.by_ h ?_ hF
  clear h hF
  revert s
  intro s₀
  have h := Upd.refl (F := [.regs, .hbm, .boot]) s₀
  delta State.repairRows
  repeat' (first
    | with_reducible assumption
    | ((with_reducible apply Part.Sub.of); rfl)
    | with_reducible apply MemUpd.refl
    | (intro s; refine (fun h => ?_) (?_ : Upd [.regs, .hbm, .boot] s₀ s); rotate_left; subst s; rotate_left)
    | intro s
    | lift_lets -underBinder
    | with_reducible apply Upd.ite
    | (with_reducible apply Upd.foldl; case' hf => intro _ _ h)
    | (with_reducible apply Upd.boot; case h => with_reducible assumption)
    | (with_reducible apply Upd.setHbm; case h => with_reducible assumption)
    | with_reducible apply State.setChip_upd
    | with_reducible apply State.set_upd
    | with_reducible apply State.count_upd)

theorem State.disablePorts_upd {F : List Part} {s₀ s : State} (ps : List Nat) (h : Upd F s₀ s) (hF : Part.Sub [.regs, .hbm, .cores, .vecs, .gs, .sb, .link, .boot, .svc, .log] F) :
    Upd F s₀ (State.disablePorts s ps) := by
  refine Upd.by_ h ?_ hF
  clear h hF
  revert s
  intro s₀
  have h := Upd.refl (F := [.regs, .hbm, .cores, .vecs, .gs, .sb, .link, .boot, .svc, .log]) s₀
  delta State.disablePorts
  repeat' (first
    | with_reducible assumption
    | ((with_reducible apply Part.Sub.of); rfl)
    | (intro s; refine (fun h => ?_) (?_ : Upd [.regs, .hbm, .cores, .vecs, .gs, .sb, .link, .boot, .svc, .log] s₀ s); rotate_left; subst s; rotate_left)
    | intro s
    | lift_lets -underBinder
    | with_reducible apply Upd.ite
    | (with_reducible apply Upd.foldl; case' hf => intro _ _ h)
    | (with_reducible apply Upd.boot; case h => with_reducible assumption)
    | with_reducible apply State.setLaser_upd
    | with_reducible apply State.loseLink_upd
    | with_reducible apply State.enterLink_upd)

theorem execHandbackDone_upd (retest : List (Nat × Nat)) (s₀ : State) : ∃ t, execHandbackDone retest s₀ = .next t ∧ Upd [.regs, .hbm, .cores, .vecs, .gs, .sb, .link, .boot, .svc, .log] s₀ t := by
  have h := Upd.refl (F := [.regs, .hbm, .cores, .vecs, .gs, .sb, .link, .boot, .svc, .log]) s₀
  delta execHandbackDone
  repeat' (first
    | with_reducible assumption
    | ((with_reducible apply Part.Sub.of); rfl)
    | (intro s; refine (fun h => ?_) (?_ : Upd [.regs, .hbm, .cores, .vecs, .gs, .sb, .link, .boot, .svc, .log] s₀ s); rotate_left; subst s; rotate_left)
    | (intro s; have _h : List _ := s; clear _h; clear_value s)
    | intro s
    | lift_lets -underBinder
    | with_reducible apply Upd.ite
    | with_reducible apply Upd.next
    | with_reducible apply State.extendM_upd
    | with_reducible apply State.setChip_upd
    | with_reducible apply State.romFailed_upd
    | with_reducible apply State.disablePorts_upd
    | with_reducible apply State.repairCores_upd
    | with_reducible apply State.alertCause_upd
    | with_reducible apply State.enterRom_upd
    | with_reducible apply State.repairRows_upd
    | with_reducible apply State.bootStart_upd)

theorem execBootReadTimeout_upd (off : Nat) (s₀ : State) : ∃ t, execBootReadTimeout off s₀ = .next t ∧ Upd [.regs, .link, .boot, .svc] s₀ t := by
  have h := Upd.refl (F := [.regs, .link, .boot, .svc]) s₀
  delta execBootReadTimeout
  repeat' (first
    | with_reducible assumption
    | ((with_reducible apply Part.Sub.of); rfl)
    | (intro s; have _h : List _ := s; clear _h; clear_value s)
    | intro s
    | lift_lets -underBinder
    | with_reducible apply Upd.ite
    | with_reducible apply Upd.next
    | (with_reducible apply Upd.link; case h => with_reducible assumption)
    | with_reducible apply State.bootReadFailed_upd)

theorem execImageLoadDone_upd (s₀ : State) : ∃ t, execImageLoadDone s₀ = .next t ∧ Upd [.regs, .boot] s₀ t := by
  have h := Upd.refl (F := [.regs, .boot]) s₀
  delta execImageLoadDone
  repeat' (first
    | with_reducible assumption
    | ((with_reducible apply Part.Sub.of); rfl)
    | intro s
    | lift_lets -underBinder
    | with_reducible apply Upd.ite
    | with_reducible apply Upd.next
    | (with_reducible apply Upd.boot; case h => with_reducible assumption)
    | with_reducible apply State.enterRom_upd)

theorem State.takeImage_upd {F : List Part} {s₀ s : State} (burnOk : Bool) (h : Upd F s₀ s) (hF : Part.Sub [.regs, .boot, .fuses] F) :
    Upd F s₀ (s.takeImage burnOk) := by
  have hr : Part.Sub [.regs] F := Part.Sub.trans (Part.Sub.of rfl) hF
  have h1 (d : List Byte) := State.extendM_upd 1 d h (Part.Sub.trans (Part.Sub.of rfl) hF)
  unfold State.takeImage
  refine State.setChip_upd _ _ (State.setChip_upd _ _ (State.setChip_upd _ _ ?_ hr) hr) hr
  dsimp only
  split
  next hc =>
    refine Upd.ite (State.setChip_upd _ _ (Upd.setFuses _ (h1 _) (Part.Sub.trans (Part.Sub.of rfl) hF) ?_) hr)
      (Upd.boot _ (h1 _) (Part.Sub.trans (Part.Sub.of rfl) hF))
    exact ⟨Nat.le_max_left _ _, fun _ h => h, fun _ h => h, rfl, rfl, rfl, rfl, rfl, rfl, rfl⟩
  next => exact h1 _

theorem State.placeFirmware_upd {F : List Part} {s₀ s : State} (p : Placement) (h : Upd F s₀ s) (hF : Part.Sub [.regs, .boot] F) :
    Upd F s₀ (State.placeFirmware s p) := by
  refine Upd.by_ h ?_ hF
  clear h hF
  revert s
  intro s₀
  have h := Upd.refl (F := [.regs, .boot]) s₀
  delta State.placeFirmware
  repeat' (first
    | with_reducible assumption
    | ((with_reducible apply Part.Sub.of); rfl)
    | (intro s; refine (fun h => ?_) (?_ : Upd [.regs, .boot] s₀ s); rotate_left; subst s; rotate_left)
    | intro s
    | lift_lets -underBinder
    | (with_reducible apply Upd.boot; case h => with_reducible assumption)
    | with_reducible apply State.set_upd
    | with_reducible apply State.setChip_upd)

theorem execImageVerifyDone_upd (place : Placement) (burnOk : Bool) (s₀ : State) : ∃ t, execImageVerifyDone place burnOk s₀ = .next t ∧ Upd [.regs, .link, .boot, .fuses, .svc] s₀ t := by
  have h := Upd.refl (F := [.regs, .link, .boot, .fuses, .svc]) s₀
  delta execImageVerifyDone
  repeat' (first
    | with_reducible assumption
    | with_reducible exact Upd.refl _
    | ((with_reducible apply Part.Sub.of); rfl)
    | (intro s; refine (fun h => ?_) (?_ : Upd [.regs, .link, .boot, .fuses, .svc] s₀ s); rotate_left; subst s; rotate_left)
    | (intro s; have _h : Option _ := s; clear _h; clear_value s)
    | (intro s; have _h : List _ := s; clear _h; clear_value s)
    | intro s
    | lift_lets -underBinder
    | with_reducible apply Upd.ite
    | with_reducible apply Upd.next
    | (with_reducible apply Upd.boot; case h => with_reducible assumption)
    | with_reducible apply State.bootFail_upd
    | with_reducible apply State.takeImage_upd
    | with_reducible apply State.enterRom_upd
    | with_reducible apply State.placeFirmware_upd
    | with_reducible apply State.setChip_upd
    | with_reducible apply State.keepImage_upd
    | split)


theorem State.owedLogs_upd {F : List Part} {s₀ s : State} (h : Upd F s₀ s) (hF : Part.Sub [.regs, .vecs, .gs, .link, .boot, .svc, .log] F) :
    Upd F s₀ (State.owedLogs s) := by
  refine Upd.by_ h ?_ hF
  clear h hF
  revert s
  intro s₀
  have h := Upd.refl (F := [.regs, .vecs, .gs, .link, .boot, .svc, .log]) s₀
  delta State.owedLogs
  repeat' (first
    | with_reducible assumption
    | ((with_reducible apply Part.Sub.of); rfl)
    | (intro s; refine (fun h => ?_) (?_ : Upd [.regs, .vecs, .gs, .link, .boot, .svc, .log] s₀ s); rotate_left; subst s; rotate_left)
    | (intro s; have _h : Option _ := s; clear _h; clear_value s)
    | (intro s; have _h : List _ := s; clear _h; clear_value s)
    | intro s
    | lift_lets -underBinder
    | (with_reducible apply Upd.foldl; case' hf => intro _ _ h)
    | (with_reducible apply Upd.boot; case h => with_reducible assumption)
    | with_reducible apply State.raise_upd
    | split)

theorem execMirrorSyncDone_upd (region : Nat) (s₀ : State) : ∃ t, execMirrorSyncDone region s₀ = .next t ∧ Upd [.regs, .hbm, .vecs, .gs, .link, .boot, .svc, .log] s₀ t := by
  have h := Upd.refl (F := [.regs, .hbm, .vecs, .gs, .link, .boot, .svc, .log]) s₀
  delta execMirrorSyncDone
  repeat' (first
    | with_reducible assumption
    | ((with_reducible apply Part.Sub.of); rfl)
    | (intro s; refine (fun h => ?_) (?_ : Upd [.regs, .hbm, .vecs, .gs, .link, .boot, .svc, .log] s₀ s); rotate_left; subst s; rotate_left)
    | lift_lets -underBinder
    | with_reducible apply Upd.ite
    | with_reducible apply Upd.next
    | with_reducible apply State.syncDone_upd
    | with_reducible apply State.writeMpInfo_upd
    | with_reducible apply State.enterRom_upd
    | with_reducible apply State.mgmtTo_upd
    | with_reducible apply State.owedLogs_upd)

theorem execHandoverCheckpointDone_upd (s₀ : State) : ∃ t, execHandoverCheckpointDone s₀ = .next t ∧ Upd [.regs, .link, .boot] s₀ t := by
  have h := Upd.refl (F := [.regs, .link, .boot]) s₀
  delta execHandoverCheckpointDone
  repeat' (first
    | with_reducible assumption
    | ((with_reducible apply Part.Sub.of); rfl)
    | (intro s; refine (fun h => ?_) (?_ : Upd [.regs, .link, .boot] s₀ s); rotate_left; subst s; rotate_left)
    | intro s
    | lift_lets -underBinder
    | with_reducible apply Upd.ite
    | with_reducible apply Upd.next
    | (with_reducible apply Upd.boot; case h => with_reducible assumption)
    | with_reducible apply State.setChip_upd
    | with_reducible apply State.bootStart_upd)

theorem State.answerTimeouts_upd {F : List Part} {s₀ s : State} (h : Upd F s₀ s) (hF : Part.Sub [.regs, .vecs, .mbox, .inprog, .link, .boot, .svc] F) :
    Upd F s₀ (State.answerTimeouts s) := by
  refine Upd.by_ h ?_ hF
  clear h hF
  revert s
  intro s₀
  have h := Upd.refl (F := [.regs, .vecs, .mbox, .inprog, .link, .boot, .svc]) s₀
  delta State.answerTimeouts
  repeat' (first
    | with_reducible assumption
    | ((with_reducible apply Part.Sub.of); rfl)
    | intro s
    | lift_lets -underBinder
    | (with_reducible apply Upd.foldl; case' hf => intro _ _ h)
    | (with_reducible apply Upd.boot; case h => with_reducible assumption)
    | with_reducible apply State.count_upd
    | with_reducible apply State.respondAs_upd)

theorem State.answerDue_upd {F : List Part} {s₀ s : State} (h : Upd F s₀ s) (hF : Part.Sub [.regs, .vecs, .mbox, .inprog, .link, .svc] F) :
    Upd F s₀ (State.answerDue s) := by
  refine Upd.by_ h ?_ hF
  clear h hF
  revert s
  intro s₀
  have h := Upd.refl (F := [.regs, .vecs, .mbox, .inprog, .link, .svc]) s₀
  delta State.answerDue
  repeat' (first
    | with_reducible assumption
    | ((with_reducible apply Part.Sub.of); rfl)
    | (with_reducible apply Upd.foldl; case' hf => intro _ _ h)
    | with_reducible apply State.respond_upd)

theorem State.answerHandover_upd {F : List Part} {s₀ s : State} (h : Upd F s₀ s) (hF : Part.Sub [.regs, .vecs, .mbox, .inprog, .link, .svc] F) :
    Upd F s₀ (State.answerHandover s) := by
  refine Upd.by_ h ?_ hF
  clear h hF
  revert s
  intro s₀
  have h := Upd.refl (F := [.regs, .vecs, .mbox, .inprog, .link, .svc]) s₀
  delta State.answerHandover
  repeat' (first
    | with_reducible assumption
    | ((with_reducible apply Part.Sub.of); rfl)
    | lift_lets -underBinder
    | with_reducible apply Upd.ite
    | with_reducible apply State.count_upd
    | with_reducible apply State.respond_upd
    | split)

theorem State.mpReturns_upd {F : List Part} {s₀ s : State} (h : Upd F s₀ s) (hF : Part.Sub [.regs, .vecs, .mbox, .inprog, .gs, .link, .boot, .svc, .log, .ledger] F) :
    Upd F s₀ (State.mpReturns s) := by
  refine Upd.by_ h ?_ hF
  clear h hF
  revert s
  intro s₀
  have h := Upd.refl (F := [.regs, .vecs, .mbox, .inprog, .gs, .link, .boot, .svc, .log, .ledger]) s₀
  delta State.mpReturns
  repeat' (first
    | with_reducible assumption
    | ((with_reducible apply Part.Sub.of); rfl)
    | (intro s; refine (fun h => ?_) (?_ : Upd [.regs, .vecs, .mbox, .inprog, .gs, .link, .boot, .svc, .log, .ledger] s₀ s); rotate_left; subst s; rotate_left)
    | intro s
    | lift_lets -underBinder
    | (with_reducible apply Upd.boot; case h => with_reducible assumption)
    | with_reducible apply State.setChip_upd
    | with_reducible apply State.writeMpInfo_upd
    | with_reducible apply State.seqResume_upd
    | with_reducible apply State.owedLogs_upd
    | with_reducible apply State.flushNotes_upd
    | with_reducible apply State.answerTimeouts_upd
    | with_reducible apply State.answerDue_upd
    | with_reducible apply State.answerHandover_upd
    | with_reducible apply State.ledgerTrigger_upd)

theorem State.warmReturns_upd {F : List Part} {s₀ s : State} (h : Upd F s₀ s) (hF : Part.Sub [.regs, .vecs, .mbox, .inprog, .gs, .link, .boot, .svc, .log, .ledger] F) :
    Upd F s₀ (State.warmReturns s) := by
  refine Upd.by_ h ?_ hF
  clear h hF
  revert s
  intro s₀
  have h := Upd.refl (F := [.regs, .vecs, .mbox, .inprog, .gs, .link, .boot, .svc, .log, .ledger]) s₀
  delta State.warmReturns
  repeat' (first
    | with_reducible assumption
    | ((with_reducible apply Part.Sub.of); rfl)
    | ((with_reducible apply Or.inr); exact .of rfl)
    | ((with_reducible apply Or.inl); rfl)
    | with_reducible apply Nat.le_refl
    | with_reducible apply Upd.gcount_id
    | with_reducible apply MemUpd.refl
    | with_reducible apply RegsUpd.refl
    | with_reducible apply FusesUpd.refl
    | with_reducible apply NocUpd.refl
    | (intro s; refine (fun h => ?_) (?_ : Upd [.regs, .vecs, .mbox, .inprog, .gs, .link, .boot, .svc, .log, .ledger] s₀ s); rotate_left; subst s; rotate_left)
    | (intro s; have _h : List _ := s; clear _h; clear_value s)
    | intro s
    | lift_lets -underBinder
    | (with_reducible apply Upd.foldl; case' hf => intro _ _ h)
    | (with_reducible apply Upd.fields; (case h => with_reducible assumption))
    | with_reducible apply State.writeMpInfo_upd
    | with_reducible apply State.enterRom_upd
    | with_reducible apply State.enterCoach_upd
    | with_reducible apply State.count_upd
    | with_reducible apply State.respondAs_upd
    | with_reducible apply State.tellHosts_upd
    | with_reducible apply State.flushNotes_upd
    | with_reducible apply State.logWrite_upd
    | with_reducible apply State.writeHeld_upd
    | with_reducible apply State.owedLogs_upd
    | with_reducible apply State.ledgerTrigger_upd)

theorem execFirmwareRestoreDone_upd (ok : Bool) (s₀ : State) : ∃ t, execFirmwareRestoreDone ok s₀ = .next t ∧ Upd [.regs, .vecs, .mbox, .inprog, .gs, .link, .boot, .svc, .log, .ledger] s₀ t := by
  have h := Upd.refl (F := [.regs, .vecs, .mbox, .inprog, .gs, .link, .boot, .svc, .log, .ledger]) s₀
  delta execFirmwareRestoreDone
  repeat' (first
    | with_reducible assumption
    | ((with_reducible apply Part.Sub.of); rfl)
    | intro s
    | lift_lets -underBinder
    | with_reducible apply Upd.ite
    | with_reducible apply Upd.next
    | (with_reducible apply Upd.boot; case h => with_reducible assumption)
    | with_reducible apply State.mpReturns_upd
    | with_reducible apply State.setChip_upd
    | with_reducible apply State.keepImage_upd
    | with_reducible apply State.warmReturns_upd)

theorem execMpWatchdog_upd (s₀ : State) : ∃ t, execMpWatchdog s₀ = .next t ∧ Upd [.regs, .vecs, .inprog, .gs, .link, .boot, .svc, .log] s₀ t := by
  have h := Upd.refl (F := [.regs, .vecs, .inprog, .gs, .link, .boot, .svc, .log]) s₀
  delta execMpWatchdog
  repeat' (first
    | with_reducible assumption
    | ((with_reducible apply Part.Sub.of); rfl)
    | ((with_reducible apply Or.inr); exact .of rfl)
    | ((with_reducible apply Or.inl); rfl)
    | with_reducible apply Nat.le_refl
    | with_reducible apply Upd.gcount_id
    | with_reducible apply MemUpd.refl
    | with_reducible apply RegsUpd.refl
    | with_reducible apply FusesUpd.refl
    | with_reducible apply NocUpd.refl
    | (intro s; refine (fun h => ?_) (?_ : Upd [.regs, .vecs, .inprog, .gs, .link, .boot, .svc, .log] s₀ s); rotate_left; subst s; rotate_left)
    | intro s
    | lift_lets -underBinder
    | with_reducible apply Upd.ite
    | with_reducible apply Upd.next
    | (with_reducible apply Upd.fields; (case h => with_reducible assumption))
    | with_reducible apply State.setChip_upd
    | with_reducible apply State.raise_upd)

theorem execMpAbsentLimit_upd (s₀ : State) : ∃ t, execMpAbsentLimit s₀ = .next t ∧ Upd [.regs, .cores, .vecs, .gs, .link, .svc, .log, .noc] s₀ t := by
  have h := Upd.refl (F := [.regs, .cores, .vecs, .gs, .link, .svc, .log, .noc]) s₀
  delta execMpAbsentLimit
  repeat' (first
    | with_reducible assumption
    | ((with_reducible apply Part.Sub.of); rfl)
    | with_reducible apply Upd.ite
    | with_reducible apply Upd.next
    | with_reducible apply State.warmTrigger_upd
    | with_reducible apply State.raise_upd)

end Sys2Proof.Machine
end

