-- ==== Sys2Proof/Laws/UpdSpm.lean ====
section
/-!
SUPPORT. What each operation of Machine/Spm.lean may change.
-/
namespace Sys2Proof.Machine

theorem spmRead_upd {F : List Part} {s₀ : State} (p : Nat) (coach : Nat) (graph : Nat) (off : Nat) (n : Nat) (hF : Part.Sub [.regs] F) : EngUpd F s₀ (spmRead p coach graph off n) := by
  refine EngUpd.by_ (fun s₀ => ?_) hF
  have h := Upd.refl (F := [.regs]) s₀
  delta spmRead
  repeat' (first
    | with_reducible assumption
    | ((with_reducible apply Part.Sub.of); rfl)
    | lift_lets -underBinder
    | with_reducible apply EngUpd.pure
    | with_reducible apply EngUpd.throw
    | (with_reducible apply EngUpd.getBind; intro _ h)
    | (with_reducible apply EngUpd.bind; case' hf => intro _)
    | with_reducible apply EngUpd.set
    | with_reducible apply State.bump_upd
    | split)

theorem spmReadAs_upd {F : List Part} {s₀ : State} (p coach graph off n : Nat) (poison : Flt) (hF : Part.Sub [.regs] F) :
    EngUpd F s₀ (spmReadAs p coach graph off n poison) := by
  refine ⟨fun s h => ?_⟩
  have k := (spmRead_upd (s₀ := s₀) p coach graph off n hF).after s h
  unfold Eng.after at k ⊢
  unfold spmReadAs
  cases e : spmRead p coach graph off n s with
  | ok a t => rw [e] at k; exact k
  | error f t => rw [e] at k; exact k

theorem State.spmPoison_upd {F : List Part} {s₀ s : State} (p : Nat) (off : Nat) (offs : List Nat) (h : Upd F s₀ s) (hF : Part.Sub [.spm] F) :
    Upd F s₀ (State.spmPoison s p off offs) := by
  refine Upd.by_ h ?_ hF
  clear h hF
  revert s
  intro s₀
  have h := Upd.refl (F := [.spm]) s₀
  delta State.spmPoison
  repeat' (first
    | ((with_reducible apply Part.Sub.of); rfl)
    | with_reducible apply MemUpd.refl
    | intro s
    | lift_lets -underBinder
    | (with_reducible apply Upd.setSpm; case h => with_reducible assumption))

theorem State.spmWriteRow_upd {F : List Part} {s₀ s : State} (p c off : Nat) (data : List Byte) (r : Nat) (h : Upd F s₀ s)
    (hF : Part.Sub [.regs, .spm] F) : Upd F s₀ (s.spmWriteRow p c off data r) := by
  have hs : Part.Sub [.spm] F := Part.Sub.trans (Part.Sub.of rfl) hF
  unfold State.spmWriteRow
  have hm (x : Prop) [Decidable x] (a b k : Nat) (l : List Byte) :
      MemUpd s.spm.bytes (Memory.write (if x then SMap.dropRange s.spm.bytes a b else s.spm.bytes) k l) := by
    split
    · exact (MemUpd.dropRange (.refl _) _ _).write _ _
    · exact (MemUpd.refl _).write _ _
  refine Upd.ite (State.bump_upd _ _ _ (Upd.setSpm _ h hs (hm _ _ _ _ _)) (Part.Sub.trans (Part.Sub.of rfl) hF))
    (Upd.setSpm _ h hs (hm _ _ _ _ _))

theorem State.spmWrite_upd {F : List Part} {s₀ s : State} (p : Nat) (c : Nat) (off : Nat) (data : List Byte) (h : Upd F s₀ s) (hF : Part.Sub [.regs, .spm] F) :
    Upd F s₀ (State.spmWrite s p c off data) := by
  refine Upd.by_ h ?_ hF
  clear h hF
  revert s
  intro s₀
  have h := Upd.refl (F := [.regs, .spm]) s₀
  delta State.spmWrite
  repeat' (first
    | with_reducible assumption
    | ((with_reducible apply Part.Sub.of); rfl)
    | (with_reducible apply Upd.foldl; case' hf => intro _ _ h)
    | with_reducible apply State.spmWriteRow_upd)

theorem State.spmEcc_upd {F : List Part} {s₀ s : State} (p : Nat) (f : EngFind) (h : Upd F s₀ s) (hF : Part.Sub [.regs, .spm] F) :
    Upd F s₀ (State.spmEcc s p f) := by
  refine Upd.by_ h ?_ hF
  clear h hF
  revert s
  intro s₀
  have h := Upd.refl (F := [.regs, .spm]) s₀
  delta State.spmEcc
  repeat' (first
    | with_reducible assumption
    | ((with_reducible apply Part.Sub.of); rfl)
    | with_reducible apply MemUpd.refl
    | intro s
    | lift_lets -underBinder
    | with_reducible apply Upd.ite
    | (with_reducible apply Upd.setSpm; case h => with_reducible assumption)
    | with_reducible apply State.bump_upd)

theorem panelRead_upd {F : List Part} {s₀ : State} (p : Nat) (coach : Nat) (graph : Nat) (off : Nat) (P : Nat) (i : Nat) (n : Nat) (hF : Part.Sub [.regs] F) : EngUpd F s₀ (panelRead p coach graph off P i n) := by
  refine EngUpd.by_ (fun s₀ => ?_) hF
  have h := Upd.refl (F := [.regs]) s₀
  delta panelRead
  repeat' (first
    | ((with_reducible apply Part.Sub.of); rfl)
    | lift_lets -underBinder
    | with_reducible apply EngUpd.pure
    | (with_reducible apply EngUpd.bind; case' hf => intro _)
    | (with_reducible apply EngUpd.mapM; intro _)
    | with_reducible apply spmRead_upd)

end Sys2Proof.Machine
end

