-- ==== Sys2Proof/Laws/UpdCarriage.lean ====
section
/-!
SUPPORT. What each operation of Machine/Carriage.lean may change.
-/
namespace Sys2Proof.Machine

theorem State.modItem_upd {F : List Part} {s₀ s : State} (p : Nat) (i : Nat) (f : TdItem → TdItem) (h : Upd F s₀ s) (hF : Part.Sub [.cores] F) :
    Upd F s₀ (State.modItem s p i f) := by
  refine Upd.by_ h ?_ hF
  clear h hF
  revert s
  intro s₀
  have h := Upd.refl (F := [.cores]) s₀
  delta State.modItem
  repeat' (first
    | with_reducible assumption
    | ((with_reducible apply Part.Sub.of); rfl)
    | with_reducible apply State.modCore_upd)

theorem State.modTe_upd {F : List Part} {s₀ s : State} (p : Nat) (e : Nat) (f : Te → Te) (h : Upd F s₀ s) (hF : Part.Sub [.cores] F) :
    Upd F s₀ (State.modTe s p e f) := by
  refine Upd.by_ h ?_ hF
  clear h hF
  revert s
  intro s₀
  have h := Upd.refl (F := [.cores]) s₀
  delta State.modTe
  repeat' (first
    | with_reducible assumption
    | ((with_reducible apply Part.Sub.of); rfl)
    | with_reducible apply State.modCore_upd)

theorem State.modXe_upd {F : List Part} {s₀ s : State} (p : Nat) (e : Nat) (f : Xe → Xe) (h : Upd F s₀ s) (hF : Part.Sub [.cores] F) :
    Upd F s₀ (State.modXe s p e f) := by
  refine Upd.by_ h ?_ hF
  clear h hF
  revert s
  intro s₀
  have h := Upd.refl (F := [.cores]) s₀
  delta State.modXe
  repeat' (first
    | with_reducible assumption
    | ((with_reducible apply Part.Sub.of); rfl)
    | with_reducible apply State.modCore_upd)

theorem State.lateMasks_upd {F : List Part} {s₀ s : State} (t : TdItem) (h : Upd F s₀ s) (hF : Part.Sub [.regs, .vecs, .gs, .link, .svc, .log] F) :
    Upd F s₀ (State.lateMasks s t) := by
  refine Upd.by_ h ?_ hF
  clear h hF
  revert s
  intro s₀
  have h := Upd.refl (F := [.regs, .vecs, .gs, .link, .svc, .log]) s₀
  delta State.lateMasks
  repeat' (first
    | with_reducible assumption
    | ((with_reducible apply Part.Sub.of); rfl)
    | (intro s; refine (fun h => ?_) (?_ : Upd [.regs, .vecs, .gs, .link, .svc, .log] s₀ s); rotate_left; subst s; rotate_left)
    | intro s
    | lift_lets -underBinder
    | with_reducible apply Upd.ite
    | (with_reducible apply Upd.foldl; case' hf => intro _ _ h)
    | with_reducible apply State.mapRows_upd
    | with_reducible apply State.count_upd
    | with_reducible apply State.raise_upd)

theorem State.cartBack_upd {F : List Part} {s₀ s : State} (p : Nat) (e : Nat) (c : Cart) (h : Upd F s₀ s) (hF : Part.Sub [.regs, .link, .noc] F) :
    Upd F s₀ (State.cartBack s p e c) := by
  refine Upd.by_ h ?_ hF
  clear h hF
  revert s
  intro s₀
  have h := Upd.refl (F := [.regs, .link, .noc]) s₀
  delta State.cartBack
  repeat' (first
    | with_reducible assumption
    | ((with_reducible apply Part.Sub.of); rfl)
    | intro s
    | lift_lets -underBinder
    | with_reducible apply Upd.ite
    | with_reducible apply State.send_upd
    | with_reducible apply State.qLeave_upd)

theorem State.dropCarts_upd {F : List Part} {s₀ s : State} (p : Nat) (e : Nat) (gone : Cart → Bool) (h : Upd F s₀ s) (hF : Part.Sub [.regs, .cores, .link, .noc] F) :
    Upd F s₀ (State.dropCarts s p e gone) := by
  refine Upd.by_ h ?_ hF
  clear h hF
  revert s
  intro s₀
  have h := Upd.refl (F := [.regs, .cores, .link, .noc]) s₀
  delta State.dropCarts
  repeat' (first
    | with_reducible assumption
    | ((with_reducible apply Part.Sub.of); rfl)
    | (intro s; refine (fun h => ?_) (?_ : Upd [.regs, .cores, .link, .noc] s₀ s); rotate_left; subst s; rotate_left)
    | (intro s; have _h : List _ := s; clear _h; clear_value s)
    | lift_lets -underBinder
    | (with_reducible apply Upd.foldl; case' hf => intro _ _ h)
    | with_reducible apply State.modTe_upd
    | with_reducible apply State.cartBack_upd)

theorem State.stopEngines_upd {F : List Part} {s₀ s : State} (p : Nat) (t : TdItem) (h : Upd F s₀ s) (hF : Part.Sub [.regs, .cores, .noc] F) :
    Upd F s₀ (State.stopEngines s p t) := by
  refine Upd.by_ h ?_ hF
  clear h hF
  revert s
  intro s₀
  have h := Upd.refl (F := [.regs, .cores, .noc]) s₀
  delta State.stopEngines
  repeat' (first
    | with_reducible assumption
    | ((with_reducible apply Part.Sub.of); rfl)
    | (intro s; refine (fun h => ?_) (?_ : Upd [.regs, .cores, .noc] s₀ s); rotate_left; subst s; rotate_left)
    | intro s
    | lift_lets -underBinder
    | with_reducible apply Upd.ite
    | (with_reducible apply Upd.foldl; case' hf => intro _ _ h)
    | with_reducible apply State.releaseBlocks_upd
    | with_reducible apply State.qLeave_upd
    | with_reducible apply State.modCore_upd)

theorem State.stopLinks_upd {F : List Part} {s₀ s : State} (p : Nat) (t : TdItem) (h : Upd F s₀ s) (hF : Part.Sub [.regs, .cores, .link, .noc] F) :
    Upd F s₀ (State.stopLinks s p t) := by
  refine Upd.by_ h ?_ hF
  clear h hF
  revert s
  intro s₀
  have h := Upd.refl (F := [.regs, .cores, .link, .noc]) s₀
  delta State.stopLinks
  repeat' (first
    | with_reducible assumption
    | ((with_reducible apply Part.Sub.of); rfl)
    | (intro s; refine (fun h => ?_) (?_ : Upd [.regs, .cores, .link, .noc] s₀ s); rotate_left; subst s; rotate_left)
    | intro s
    | lift_lets -underBinder
    | with_reducible apply Upd.ite
    | with_reducible apply State.dropCarts_upd
    | split)

theorem State.removeItem_upd {F : List Part} {s₀ s : State} (p : Nat) (i : Nat) (h : Upd F s₀ s) (hF : Part.Sub [.cores] F) :
    Upd F s₀ (State.removeItem s p i) := by
  refine Upd.by_ h ?_ hF
  clear h hF
  revert s
  intro s₀
  have h := Upd.refl (F := [.cores]) s₀
  delta State.removeItem
  repeat' (first
    | with_reducible assumption
    | ((with_reducible apply Part.Sub.of); rfl)
    | with_reducible apply State.modCore_upd)

theorem State.queueCompl_upd {F : List Part} {s₀ s : State} (p : Nat) (x : Compl × Nat) (h : Upd F s₀ s) (hF : Part.Sub [.cores, .gs, .noc] F) :
    Upd F s₀ (State.queueCompl s p x) := by
  refine Upd.by_ h ?_ hF
  clear h hF
  revert s
  intro s₀
  have h := Upd.refl (F := [.cores, .gs, .noc]) s₀
  delta State.queueCompl
  repeat' (first
    | with_reducible assumption
    | ((with_reducible apply Part.Sub.of); rfl)
    | lift_lets -underBinder
    | with_reducible apply Upd.ite
    | with_reducible apply State.sendCompl_upd
    | with_reducible apply State.modCore_upd)

theorem State.retireItem_upd {F : List Part} {s₀ s : State} (p : Nat) (i : Nat) (t : TdItem) (status : Nat) (cause : Nat) (h : Upd F s₀ s) (hF : Part.Sub [.cores, .gs, .noc] F) :
    Upd F s₀ (State.retireItem s p i t status cause) := by
  refine Upd.by_ h ?_ hF
  clear h hF
  revert s
  intro s₀
  have h := Upd.refl (F := [.cores, .gs, .noc]) s₀
  delta State.retireItem
  repeat' (first
    | with_reducible assumption
    | ((with_reducible apply Part.Sub.of); rfl)
    | (intro s; refine (fun h => ?_) (?_ : Upd [.cores, .gs, .noc] s₀ s); rotate_left; subst s; rotate_left)
    | lift_lets -underBinder
    | with_reducible apply Upd.ite
    | with_reducible apply State.maskRows_upd
    | with_reducible apply State.queueCompl_upd
    | with_reducible apply State.removeItem_upd)

theorem State.endItem_upd {F : List Part} {s₀ s : State} (p : Nat) (i : Nat) (status : Nat) (cause : Nat) (h : Upd F s₀ s) (hF : Part.Sub [.regs, .cores, .gs, .link, .noc] F) :
    Upd F s₀ (State.endItem s p i status cause) := by
  refine Upd.by_ h ?_ hF
  clear h hF
  revert s
  intro s₀
  have h := Upd.refl (F := [.regs, .cores, .gs, .link, .noc]) s₀
  delta State.endItem
  repeat' (first
    | with_reducible assumption
    | ((with_reducible apply Part.Sub.of); rfl)
    | lift_lets -underBinder
    | with_reducible apply State.stopEngines_upd
    | with_reducible apply State.stopLinks_upd
    | with_reducible apply State.retireItem_upd
    | split)

theorem State.faultItem_upd {F : List Part} {s₀ s : State} (p : Nat) (i : Nat) (f : Flt) (sender : Nat) (h : Upd F s₀ s) (hF : Part.Sub [.regs, .cores, .vecs, .gs, .link, .svc, .log, .noc] F) :
    Upd F s₀ (State.faultItem s p i f sender) := by
  refine Upd.by_ h ?_ hF
  clear h hF
  revert s
  intro s₀
  have h := Upd.refl (F := [.regs, .cores, .vecs, .gs, .link, .svc, .log, .noc]) s₀
  delta State.faultItem
  repeat' (first
    | with_reducible assumption
    | ((with_reducible apply Part.Sub.of); rfl)
    | (intro s; refine (fun h => ?_) (?_ : Upd [.regs, .cores, .vecs, .gs, .link, .svc, .log, .noc] s₀ s); rotate_left; subst s; rotate_left)
    | intro s
    | lift_lets -underBinder
    | with_reducible apply Upd.ite
    | (with_reducible apply Upd.foldl; case' hf => intro _ _ h)
    | with_reducible apply State.capture_upd
    | with_reducible apply State.raise_upd
    | with_reducible apply State.bumpSat_upd
    | with_reducible apply State.charge_upd
    | with_reducible apply State.endItem_upd
    | split)

theorem State.work_upd {F : List Part} {s₀ s : State} (p i : Nat) (m : Eng Unit) (h : Upd F s₀ s) (hF : Part.Sub [.regs, .cores, .vecs, .gs, .link, .svc, .log, .noc] F)
    (hown : EngUpd F s₀ m) : Upd F s₀ (s.work p i m) := by
  have k := hown.after s h
  unfold Eng.after at k
  unfold State.work
  split
  next e => rw [e] at k; exact k
  next e => rw [e] at k; exact State.faultItem_upd _ _ _ _ k hF

theorem portFlt_upd {F : List Part} {s₀ : State} (p : Nat) (t : TdItem) (f : EngFind) (conflict : Nat) (hazard : Nat) (own : Nat → Nat × Nat × Nat) (sub : Nat) (hF : Part.Sub [.regs] F) : EngUpd F s₀ (portFlt p t f conflict hazard own sub) := by
  refine EngUpd.by_ (fun s₀ => ?_) hF
  have h := Upd.refl (F := [.regs]) s₀
  delta portFlt
  repeat' (first
    | with_reducible assumption
    | ((with_reducible apply Part.Sub.of); rfl)
    | intro s
    | lift_lets -underBinder
    | with_reducible apply EngUpd.throw
    | (with_reducible apply EngUpd.bind; case' hf => intro _)
    | (with_reducible apply EngUpd.modify; intro _ h)
    | with_reducible apply State.bump_upd)

theorem State.reach_upd {F : List Part} {s₀ s : State} (p : Nat) (c : Nat) (grant : Nat) (aspace : Nat) (a : Nat) (n : Nat) (write : Bool) (h : Upd F s₀ s) (hF : Part.Sub [.regs, .xlate] F) :
    Upd1 F s₀ (State.reach s p c grant aspace a n write) := by
  refine Upd1.by_ h ?_ hF
  clear h hF
  revert s
  intro s₀
  have h := Upd.refl (F := [.regs, .xlate]) s₀
  delta State.reach
  repeat' (first
    | with_reducible assumption
    | ((with_reducible apply Part.Sub.of); rfl)
    | (intro s; refine (fun h => ?_) (?_ : Upd [.regs, .xlate] s₀ s); rotate_left; subst s; rotate_left)
    | lift_lets -underBinder
    | with_reducible apply State.walkRange_upd
    | (with_reducible apply Upd1.mk; fail_if_success (with_reducible apply Upd1.fst))
    | with_reducible apply Upd1.ite)

theorem carrRead_upd {F : List Part} {s₀ : State} (p : Nat) (t : TdItem) (c : Nat) (aspace : Nat) (a : Nat) (n : Nat) (fine : Bool) (poison : Flt) (op : Nat) (blk : Nat) (hF : Part.Sub [.regs, .hbm, .vecs, .xlate, .gs, .link, .svc, .log] F) : EngUpd F s₀ (carrRead p t c aspace a n fine poison op blk) := by
  refine EngUpd.by_ (fun s₀ => ?_) hF
  have h := Upd.refl (F := [.regs, .hbm, .vecs, .xlate, .gs, .link, .svc, .log]) s₀
  delta carrRead
  repeat' (first
    | with_reducible assumption
    | ((with_reducible apply Part.Sub.of); rfl)
    | (intro s; refine (fun h => ?_) (?_ : Upd [.regs, .hbm, .vecs, .xlate, .gs, .link, .svc, .log] s₀ s); rotate_left; subst s; rotate_left)
    | (intro s; refine (fun h => ?_) (?_ : Upd1 [.regs, .hbm, .vecs, .xlate, .gs, .link, .svc, .log] s₀ s); rotate_left; subst s; rotate_left)
    | lift_lets -underBinder
    | with_reducible apply Upd.ite
    | with_reducible apply EngUpd.pure
    | with_reducible apply EngUpd.throw
    | with_reducible apply EngUpd.ite
    | (with_reducible apply EngUpd.getBind; intro _ h)
    | (with_reducible apply EngUpd.bind; case' hf => intro _)
    | with_reducible apply EngUpd.set
    | (with_reducible apply EngUpd.mapM; intro _)
    | with_reducible apply State.reach_upd
    | with_reducible apply State.bump_upd
    | with_reducible apply State.mcRead_upd
    | with_reducible apply Upd1.fst
    | split)

theorem fineRead_upd {F : List Part} {s₀ : State} (p : Nat) (t : TdItem) (c : Nat) (aspace : Nat) (a : Nat) (n : Nat) (poison : Flt) (op : Nat) (blk : Nat) (hF : Part.Sub [.regs, .hbm, .vecs, .xlate, .gs, .link, .svc, .log] F) : EngUpd F s₀ (fineRead p t c aspace a n poison op blk) := by
  refine EngUpd.by_ (fun s₀ => ?_) hF
  have h := Upd.refl (F := [.regs, .hbm, .vecs, .xlate, .gs, .link, .svc, .log]) s₀
  delta fineRead
  repeat' (first
    | ((with_reducible apply Part.Sub.of); rfl)
    | intro s
    | lift_lets -underBinder
    | with_reducible apply EngUpd.pure
    | with_reducible apply EngUpd.ite
    | (with_reducible apply EngUpd.bind; case' hf => intro _)
    | with_reducible apply carrRead_upd)

theorem descRead_upd {F : List Part} {s₀ : State} (p : Nat) (t : TdItem) (c : Nat) (aspace : Nat) (a : Nat) (n : Nat) (poison : Flt) (hF : Part.Sub [.regs, .hbm, .vecs, .xlate, .gs, .link, .svc, .log] F) : EngUpd F s₀ (descRead p t c aspace a n poison) := by
  refine EngUpd.by_ (fun s₀ => ?_) hF
  have h := Upd.refl (F := [.regs, .hbm, .vecs, .xlate, .gs, .link, .svc, .log]) s₀
  delta descRead
  repeat' (first
    | with_reducible assumption
    | ((with_reducible apply Part.Sub.of); rfl)
    | lift_lets -underBinder
    | (with_reducible apply EngUpd.bind; case' hf => intro _)
    | (with_reducible apply EngUpd.modify; intro _ h)
    | with_reducible apply State.bump_upd
    | with_reducible apply fineRead_upd)

theorem tableFetch_upd {F : List Part} {s₀ : State} (p : Nat) (a : Nat) (n : Nat) (poison : Flt) (hF : Part.Sub [.regs, .hbm, .vecs, .gs, .link, .svc, .log] F) : EngUpd F s₀ (tableFetch p a n poison) := by
  refine EngUpd.by_ (fun s₀ => ?_) hF
  have h := Upd.refl (F := [.regs, .hbm, .vecs, .gs, .link, .svc, .log]) s₀
  delta tableFetch
  repeat' (first
    | with_reducible assumption
    | ((with_reducible apply Part.Sub.of); rfl)
    | (intro s; refine (fun h => ?_) (?_ : Upd [.regs, .hbm, .vecs, .gs, .link, .svc, .log] s₀ s); rotate_left; subst s; rotate_left)
    | (intro s; refine (fun h => ?_) (?_ : Upd1 [.regs, .hbm, .vecs, .gs, .link, .svc, .log] s₀ s); rotate_left; subst s; rotate_left)
    | lift_lets -underBinder
    | with_reducible apply EngUpd.pure
    | with_reducible apply EngUpd.throw
    | with_reducible apply EngUpd.ite
    | (with_reducible apply EngUpd.getBind; intro _ h)
    | (with_reducible apply EngUpd.bind; case' hf => intro _)
    | with_reducible apply EngUpd.set
    | with_reducible apply State.bump_upd
    | with_reducible apply State.mcRead_upd
    | with_reducible apply Upd1.fst)

theorem tableRead_upd {F : List Part} {s₀ : State} (p : Nat) (t : TdItem) (c : Nat) (aspace : Nat) (a : Nat) (n : Nat) (hF : Part.Sub [.regs, .hbm, .vecs, .xlate, .gs, .link, .svc, .log] F) : EngUpd F s₀ (tableRead p t c aspace a n) := by
  refine EngUpd.by_ (fun s₀ => ?_) hF
  have h := Upd.refl (F := [.regs, .hbm, .vecs, .xlate, .gs, .link, .svc, .log]) s₀
  delta tableRead
  repeat' (first
    | ((with_reducible apply Part.Sub.of); rfl)
    | with_reducible apply carrRead_upd)

theorem State.meet_upd {F : List Part} {s₀ s : State} (p : Nat) (f : EngFind) (h : Upd F s₀ s) (hF : Part.Sub [.regs, .hbm, .spm] F) :
    Upd F s₀ (State.meet s p f) := by
  refine Upd.by_ h ?_ hF
  clear h hF
  revert s
  intro s₀
  have h := Upd.refl (F := [.regs, .hbm, .spm]) s₀
  delta State.meet
  repeat' (first
    | with_reducible assumption
    | ((with_reducible apply Part.Sub.of); rfl)
    | with_reducible apply MemUpd.refl
    | (intro s; refine (fun h => ?_) (?_ : Upd [.regs, .hbm, .spm] s₀ s); rotate_left; subst s; rotate_left)
    | intro s
    | lift_lets -underBinder
    | (with_reducible apply Upd.setHbm; case h => with_reducible assumption)
    | with_reducible apply State.spmEcc_upd
    | with_reducible apply State.bump_upd)

theorem State.issued_upd {F : List Part} {s₀ s : State} (p : Nat) (i : Nat) (h : Upd F s₀ s) (hF : Part.Sub [.cores] F) :
    Upd F s₀ (State.issued s p i) := by
  refine Upd.by_ h ?_ hF
  clear h hF
  revert s
  intro s₀
  have h := Upd.refl (F := [.cores]) s₀
  delta State.issued
  repeat' (first
    | with_reducible assumption
    | ((with_reducible apply Part.Sub.of); rfl)
    | with_reducible apply State.modItem_upd)

end Sys2Proof.Machine
end

