-- ==== Sys2Proof/Laws/UpdSegments.lean ====
section
/-!
SUPPORT. What each operation of Machine/Segments.lean may change.
-/
namespace Sys2Proof.Machine

theorem operand_upd {F : List Part} {s₀ : State} (p : Nat) (t : TdItem) (a : Nat) (n : Nat) (nbr : Bool) (hF : Part.Sub [] F) : EngUpd F s₀ (operand p t a n nbr) := by
  refine EngUpd.by_ (fun s₀ => ?_) hF
  have h := Upd.refl (F := []) s₀
  delta operand
  repeat' (first
    | lift_lets -underBinder
    | with_reducible apply EngUpd.pure
    | with_reducible apply EngUpd.throw
    | with_reducible apply EngUpd.ite
    | (with_reducible apply EngUpd.getBind; intro _ h))

theorem addressForms_upd {F : List Part} {s₀ : State} (p : Nat) (t : TdItem) (hF : Part.Sub [] F) : EngUpd F s₀ (addressForms p t) := by
  refine EngUpd.by_ (fun s₀ => ?_) hF
  have h := Upd.refl (F := []) s₀
  delta addressForms
  repeat' (first
    | intro s
    | lift_lets -underBinder
    | with_reducible apply EngUpd.pure
    | with_reducible apply EngUpd.throw
    | with_reducible apply EngUpd.ite
    | (with_reducible apply EngUpd.getBind; intro _ h))

theorem layerRec_upd {F : List Part} {s₀ : State} (p : Nat) (t : TdItem) (o : Nat) (hF : Part.Sub [.regs, .hbm, .vecs, .xlate, .gs, .link, .svc, .log] F) : EngUpd F s₀ (layerRec p t o) := by
  refine EngUpd.by_ (fun s₀ => ?_) hF
  have h := Upd.refl (F := [.regs, .hbm, .vecs, .xlate, .gs, .link, .svc, .log]) s₀
  delta layerRec
  repeat' (first
    | ((with_reducible apply Part.Sub.of); rfl)
    | (intro s; have _h : List _ := s; clear _h; clear_value s)
    | intro s
    | lift_lets -underBinder
    | with_reducible apply EngUpd.pure
    | (with_reducible apply EngUpd.getBind; intro _ h)
    | (with_reducible apply EngUpd.bind; case' hf => intro _)
    | with_reducible apply tableFetch_upd
    | with_reducible apply fineRead_upd)

theorem tileEntry_upd {F : List Part} {s₀ : State} (p : Nat) (t : TdItem) (o : Nat) (r : List Byte) (u : Nat) (hF : Part.Sub [.regs, .hbm, .vecs, .xlate, .gs, .link, .svc, .log] F) : EngUpd F s₀ (tileEntry p t o r u) := by
  refine EngUpd.by_ (fun s₀ => ?_) hF
  have h := Upd.refl (F := [.regs, .hbm, .vecs, .xlate, .gs, .link, .svc, .log]) s₀
  delta tileEntry
  repeat' (first
    | ((with_reducible apply Part.Sub.of); rfl)
    | lift_lets -underBinder
    | with_reducible apply EngUpd.pure
    | with_reducible apply EngUpd.throw
    | with_reducible apply EngUpd.ite
    | (with_reducible apply EngUpd.getBind; intro _ h)
    | (with_reducible apply EngUpd.bind; case' hf => intro _)
    | with_reducible apply descRead_upd)

theorem tileEntries_upd {F : List Part} {s₀ : State} (p : Nat) (t : TdItem) (tiles : List Nat) (hF : Part.Sub [.regs, .hbm, .vecs, .xlate, .gs, .link, .svc, .log] F) : EngUpd F s₀ (tileEntries p t tiles) := by
  refine EngUpd.by_ (fun s₀ => ?_) hF
  have h := Upd.refl (F := [.regs, .hbm, .vecs, .xlate, .gs, .link, .svc, .log]) s₀
  delta tileEntries
  repeat' (first
    | ((with_reducible apply Part.Sub.of); rfl)
    | lift_lets -underBinder
    | with_reducible apply EngUpd.pure
    | (with_reducible apply EngUpd.getBind; intro _ h)
    | (with_reducible apply EngUpd.bind; case' hf => intro _)
    | (with_reducible apply EngUpd.mapM; intro _)
    | with_reducible apply layerRec_upd
    | with_reducible apply tileEntry_upd)

theorem State.queueDesc_upd {F : List Part} {s₀ s : State} (p : Nat) (d : Desc) (head : Bool) (h : Upd F s₀ s) (hF : Part.Sub [.cores] F) :
    Upd F s₀ (State.queueDesc s p d head) := by
  refine Upd.by_ h ?_ hF
  clear h hF
  revert s
  intro s₀
  have h := Upd.refl (F := [.cores]) s₀
  delta State.queueDesc
  repeat' (first
    | with_reducible assumption
    | ((with_reducible apply Part.Sub.of); rfl)
    | with_reducible apply State.modCore_upd)

theorem State.modGe_upd {F : List Part} {s₀ s : State} (p : Nat) (carr : Nat) (ove : Nat) (tile : Nat) (f : GeList → GeList) (h : Upd F s₀ s) (hF : Part.Sub [.cores] F) :
    Upd F s₀ (State.modGe s p carr ove tile f) := by
  refine Upd.by_ h ?_ hF
  clear h hF
  revert s
  intro s₀
  have h := Upd.refl (F := [.cores]) s₀
  delta State.modGe
  repeat' (first
    | with_reducible assumption
    | ((with_reducible apply Part.Sub.of); rfl)
    | with_reducible apply State.modCore_upd)

theorem State.askCarts_upd {F : List Part} {s₀ s : State} (p : Nat) (t : TdItem) (g : GeList) (h : Upd F s₀ s) (hF : Part.Sub [.cores] F) :
    Upd F s₀ (State.askCarts s p t g) := by
  refine Upd.by_ h ?_ hF
  clear h hF
  revert s
  intro s₀
  have h := Upd.refl (F := [.cores]) s₀
  delta State.askCarts
  repeat' (first
    | with_reducible assumption
    | ((with_reducible apply Part.Sub.of); rfl)
    | intro s
    | lift_lets -underBinder
    | with_reducible apply Upd.ite
    | with_reducible apply State.queueDesc_upd
    | with_reducible apply State.modGe_upd)

theorem State.stageCarts_upd {F : List Part} {s₀ s : State} (p : Nat) (h : Upd F s₀ s) (hF : Part.Sub [.cores] F) :
    Upd F s₀ (State.stageCarts s p) := by
  refine Upd.by_ h ?_ hF
  clear h hF
  revert s
  intro s₀
  have h := Upd.refl (F := [.cores]) s₀
  delta State.stageCarts
  repeat' (first
    | with_reducible assumption
    | ((with_reducible apply Part.Sub.of); rfl)
    | (with_reducible apply Upd.foldl; case' hf => intro _ _ h)
    | with_reducible apply State.askCarts_upd)

theorem buildDense_upd {F : List Part} {s₀ : State} (p : Nat) (t : TdItem) (hF : Part.Sub [.regs, .hbm, .cores, .vecs, .xlate, .gs, .link, .svc, .log] F) : EngUpd F s₀ (buildDense p t) := by
  refine EngUpd.by_ (fun s₀ => ?_) hF
  have h := Upd.refl (F := [.regs, .hbm, .cores, .vecs, .xlate, .gs, .link, .svc, .log]) s₀
  delta buildDense
  repeat' (first
    | with_reducible assumption
    | ((with_reducible apply Part.Sub.of); rfl)
    | (intro q; refine (fun hq => ?_) (?_ : ∀ x, EngUpd [.regs, .hbm, .cores, .vecs, .xlate, .gs, .link, .svc, .log] s₀ (q x)); rotate_left; subst q; intro x; rotate_left)
    | (intro s; have _h : List _ := s; clear _h; clear_value s)
    | intro s
    | lift_lets -underBinder
    | with_reducible apply hq
    | with_reducible apply EngUpd.pure
    | with_reducible apply EngUpd.ite
    | (with_reducible apply EngUpd.getBind; intro _ h)
    | (with_reducible apply EngUpd.bind; case' hf => intro _)
    | (with_reducible apply EngUpd.modify; intro _ h)
    | with_reducible apply State.modCore_upd
    | with_reducible apply operand_upd
    | with_reducible apply tileEntries_upd)

theorem buildDelta_upd {F : List Part} {s₀ : State} (p : Nat) (t : TdItem) (hF : Part.Sub [.regs, .hbm, .vecs, .xlate, .gs, .link, .svc, .log] F) : EngUpd F s₀ (buildDelta p t) := by
  refine EngUpd.by_ (fun s₀ => ?_) hF
  have h := Upd.refl (F := [.regs, .hbm, .vecs, .xlate, .gs, .link, .svc, .log]) s₀
  delta buildDelta
  repeat' (first
    | ((with_reducible apply Part.Sub.of); rfl)
    | (intro s; have _h : List _ := s; clear _h; clear_value s)
    | intro s
    | lift_lets -underBinder
    | with_reducible apply EngUpd.pure
    | (with_reducible apply EngUpd.getBind; intro _ h)
    | (with_reducible apply EngUpd.bind; case' hf => intro _)
    | (with_reducible apply EngUpd.mapM; intro _)
    | with_reducible apply tileEntries_upd
    | with_reducible apply operand_upd
    | with_reducible apply fineRead_upd)

theorem buildAdapter_upd {F : List Part} {s₀ : State} (p : Nat) (t : TdItem) (hF : Part.Sub [.regs, .hbm, .vecs, .xlate, .gs, .link, .svc, .log] F) : EngUpd F s₀ (buildAdapter p t) := by
  refine EngUpd.by_ (fun s₀ => ?_) hF
  have h := Upd.refl (F := [.regs, .hbm, .vecs, .xlate, .gs, .link, .svc, .log]) s₀
  delta buildAdapter
  repeat' (first
    | ((with_reducible apply Part.Sub.of); rfl)
    | (intro s; have _h : List _ := s; clear _h; clear_value s)
    | intro s
    | lift_lets -underBinder
    | with_reducible apply EngUpd.pure
    | with_reducible apply EngUpd.throw
    | with_reducible apply EngUpd.ite
    | (with_reducible apply EngUpd.getBind; intro _ h)
    | (with_reducible apply EngUpd.bind; case' hf => intro _)
    | (with_reducible apply EngUpd.filterMapM; intro _)
    | with_reducible apply layerRec_upd
    | with_reducible apply fineRead_upd
    | with_reducible apply operand_upd
    | split)

theorem buildPred_upd {F : List Part} {s₀ : State} (p : Nat) (t : TdItem) (hF : Part.Sub [.regs] F) : EngUpd F s₀ (buildPred p t) := by
  refine EngUpd.by_ (fun s₀ => ?_) hF
  have h := Upd.refl (F := [.regs]) s₀
  delta buildPred
  repeat' (first
    | ((with_reducible apply Part.Sub.of); rfl)
    | (intro s; have _h : List _ := s; clear _h; clear_value s)
    | intro s
    | lift_lets -underBinder
    | with_reducible apply EngUpd.pure
    | with_reducible apply EngUpd.ite
    | (with_reducible apply EngUpd.getBind; intro _ h)
    | (with_reducible apply EngUpd.bind; case' hf => intro _)
    | with_reducible apply operand_upd)

theorem buildAttn_upd {F : List Part} {s₀ : State} (p : Nat) (t : TdItem) (hF : Part.Sub [.gs] F) : EngUpd F s₀ (buildAttn p t) := by
  refine EngUpd.by_ (fun s₀ => ?_) hF
  have h := Upd.refl (F := [.gs]) s₀
  delta buildAttn
  repeat' (first
    | with_reducible assumption
    | ((with_reducible apply Part.Sub.of); rfl)
    | (intro q; refine (fun hq => ?_) (?_ : ∀ x, EngUpd [.gs] s₀ (q x)); rotate_left; subst q; intro x; rotate_left)
    | (intro s; have _h : List _ := s; clear _h; clear_value s)
    | lift_lets -underBinder
    | with_reducible apply hq
    | with_reducible apply EngUpd.pure
    | with_reducible apply EngUpd.throw
    | with_reducible apply EngUpd.ite
    | (with_reducible apply EngUpd.getBind; intro _ h)
    | (with_reducible apply EngUpd.bind; case' hf => intro _)
    | with_reducible apply EngUpd.set
    | with_reducible apply State.maskRows_upd
    | with_reducible apply operand_upd
    | exact Unit.unit)

theorem buildMerge_upd {F : List Part} {s₀ : State} (p : Nat) (t : TdItem) (hF : Part.Sub [] F) : EngUpd F s₀ (buildMerge p t) := by
  refine EngUpd.by_ (fun s₀ => ?_) hF
  have h := Upd.refl (F := []) s₀
  delta buildMerge
  repeat' (first
    | with_reducible assumption
    | ((with_reducible apply Part.Sub.of); rfl)
    | (intro q; refine (fun hq => ?_) (?_ : ∀ x, EngUpd [] s₀ (q x)); rotate_left; subst q; intro x; rotate_left)
    | (intro s; have _h : List _ := s; clear _h; clear_value s)
    | lift_lets -underBinder
    | with_reducible apply hq
    | with_reducible apply EngUpd.pure
    | with_reducible apply EngUpd.throw
    | with_reducible apply EngUpd.ite
    | (with_reducible apply EngUpd.getBind; intro _ h)
    | (with_reducible apply EngUpd.bind; case' hf => intro _)
    | with_reducible apply operand_upd
    | exact Unit.unit)

theorem buildVu_upd {F : List Part} {s₀ : State} (p : Nat) (t : TdItem) (hF : Part.Sub [] F) : EngUpd F s₀ (buildVu p t) := by
  refine EngUpd.by_ (fun s₀ => ?_) hF
  have h := Upd.refl (F := []) s₀
  delta buildVu
  repeat' (first
    | with_reducible assumption
    | ((with_reducible apply Part.Sub.of); rfl)
    | (intro q; refine (fun hq => ?_) (?_ : ∀ x, EngUpd [] s₀ (q x)); rotate_left; subst q; intro x; rotate_left)
    | (intro s; have _h : List _ := s; clear _h; clear_value s)
    | intro s
    | lift_lets -underBinder
    | with_reducible apply hq
    | with_reducible apply EngUpd.pure
    | with_reducible apply EngUpd.throw
    | with_reducible apply EngUpd.ite
    | (with_reducible apply EngUpd.bind; case' hf => intro _)
    | with_reducible apply operand_upd
    | exact Unit.unit)

theorem buildDma_upd {F : List Part} {s₀ : State} (p : Nat) (t : TdItem) (hF : Part.Sub [] F) : EngUpd F s₀ (buildDma p t) := by
  refine EngUpd.by_ (fun s₀ => ?_) hF
  have h := Upd.refl (F := []) s₀
  delta buildDma
  repeat' (first
    | with_reducible assumption
    | ((with_reducible apply Part.Sub.of); rfl)
    | (intro q; refine (fun hq => ?_) (?_ : ∀ x, EngUpd [] s₀ (q x)); rotate_left; subst q; intro x; rotate_left)
    | (intro s; have _h : List _ := s; clear _h; clear_value s)
    | intro s
    | lift_lets -underBinder
    | with_reducible apply hq
    | with_reducible apply EngUpd.pure
    | with_reducible apply EngUpd.ite
    | (with_reducible apply EngUpd.getBind; intro _ h)
    | (with_reducible apply EngUpd.bind; case' hf => intro _)
    | with_reducible apply operand_upd
    | exact Unit.unit)

theorem buildWork_upd {F : List Part} {s₀ : State} (p : Nat) (t : TdItem) (hF : Part.Sub [.regs, .hbm, .cores, .vecs, .xlate, .gs, .link, .svc, .log] F) : EngUpd F s₀ (buildWork p t) := by
  refine EngUpd.by_ (fun s₀ => ?_) hF
  have h := Upd.refl (F := [.regs, .hbm, .cores, .vecs, .xlate, .gs, .link, .svc, .log]) s₀
  delta buildWork
  repeat' (first
    | ((with_reducible apply Part.Sub.of); rfl)
    | intro s
    | lift_lets -underBinder
    | with_reducible apply EngUpd.pure
    | with_reducible apply EngUpd.ite
    | with_reducible apply buildDense_upd
    | with_reducible apply buildDelta_upd
    | with_reducible apply buildAdapter_upd
    | with_reducible apply buildPred_upd
    | with_reducible apply buildVu_upd
    | with_reducible apply buildAttn_upd
    | with_reducible apply buildMerge_upd
    | with_reducible apply buildDma_upd)

theorem readLayer_upd {F : List Part} {s₀ : State} (p : Nat) (t : TdItem) (hF : Part.Sub [.regs, .hbm, .vecs, .gs, .link, .svc, .log] F) : EngUpd F s₀ (readLayer p t) := by
  refine EngUpd.by_ (fun s₀ => ?_) hF
  have h := Upd.refl (F := [.regs, .hbm, .vecs, .gs, .link, .svc, .log]) s₀
  delta readLayer
  repeat' (first
    | ((with_reducible apply Part.Sub.of); rfl)
    | with_reducible apply tableFetch_upd)

theorem acceptWork_upd {F : List Part} {s₀ : State} (p : Nat) (i : Nat) (t : TdItem) (poisoned : Bool) (hF : Part.Sub [.regs, .hbm, .cores, .vecs, .xlate, .gs, .link, .svc, .log] F) : EngUpd F s₀ (acceptWork p i t poisoned) := by
  refine EngUpd.by_ (fun s₀ => ?_) hF
  have h := Upd.refl (F := [.regs, .hbm, .cores, .vecs, .xlate, .gs, .link, .svc, .log]) s₀
  delta acceptWork
  repeat' (first
    | with_reducible assumption
    | ((with_reducible apply Part.Sub.of); rfl)
    | (intro q; refine (fun hq => ?_) (?_ : ∀ x, EngUpd [.regs, .hbm, .cores, .vecs, .xlate, .gs, .link, .svc, .log] s₀ (q x)); rotate_left; subst q; intro x; rotate_left)
    | lift_lets -underBinder
    | with_reducible apply hq
    | with_reducible apply EngUpd.throw
    | with_reducible apply EngUpd.ite
    | (with_reducible apply EngUpd.getBind; intro _ h)
    | (with_reducible apply EngUpd.bind; case' hf => intro _)
    | (with_reducible apply EngUpd.modify; intro _ h)
    | with_reducible apply State.modItem_upd
    | with_reducible apply State.stageCarts_upd
    | with_reducible apply readLayer_upd
    | with_reducible apply addressForms_upd
    | with_reducible apply buildWork_upd)

theorem execTdDispatchRx_upd (core : Nat) (poisoned : Bool) (s₀ : State) : ∃ t, execTdDispatchRx core poisoned s₀ = .next t ∧ Upd [.regs, .hbm, .cores, .vecs, .xlate, .gs, .link, .svc, .log, .noc] s₀ t := by
  have h := Upd.refl (F := [.regs, .hbm, .cores, .vecs, .xlate, .gs, .link, .svc, .log, .noc]) s₀
  delta execTdDispatchRx
  repeat' (first
    | with_reducible assumption
    | ((with_reducible apply Part.Sub.of); rfl)
    | (intro s; refine (fun h => ?_) (?_ : Upd [.regs, .hbm, .cores, .vecs, .xlate, .gs, .link, .svc, .log, .noc] s₀ s); rotate_left; subst s; rotate_left)
    | intro s
    | lift_lets -underBinder
    | with_reducible apply Upd.ite
    | with_reducible apply Upd.next
    | with_reducible apply State.bump_upd
    | with_reducible apply State.qAwait_upd
    | with_reducible apply State.modCore_upd
    | (with_reducible apply State.work_upd)
    | with_reducible apply acceptWork_upd
    | split)

end Sys2Proof.Machine
end

