-- ==== Sys2Proof/Laws/UpdTernary.lean ====
section
/-!
SUPPORT. What each operation of Machine/Ternary.lean may change.
-/
namespace Sys2Proof.Machine

theorem tePort_upd {F : List Part} {s₀ : State} (p : Nat) (e : Nat) (t : TdItem) (f : EngFind) (set : Nat) (row : Nat) (read : Bool) (hF : Part.Sub [.regs] F) : EngUpd F s₀ (tePort p e t f set row read) := by
  refine EngUpd.by_ (fun s₀ => ?_) hF
  have h := Upd.refl (F := [.regs]) s₀
  delta tePort
  repeat' (first
    | ((with_reducible apply Part.Sub.of); rfl)
    | with_reducible apply EngUpd.pure
    | with_reducible apply EngUpd.ite
    | with_reducible apply portFlt_upd)

theorem State.modSet_upd {F : List Part} {s₀ s : State} (p : Nat) (e : Nat) (n : Nat) (f : AccSet → AccSet) (h : Upd F s₀ s) (hF : Part.Sub [.cores] F) :
    Upd F s₀ (State.modSet s p e n f) := by
  refine Upd.by_ h ?_ hF
  clear h hF
  revert s
  intro s₀
  have h := Upd.refl (F := [.cores]) s₀
  delta State.modSet
  repeat' (first
    | with_reducible assumption
    | ((with_reducible apply Part.Sub.of); rfl)
    | with_reducible apply State.modTe_upd)

theorem readBlock_upd {F : List Part} {s₀ : State} (p : Nat) (e : Nat) (t : TdItem) (x : Pass) (k : Nat) (i : Nat) (hF : Part.Sub [.regs, .cores] F) : EngUpd F s₀ (readBlock p e t x k i) := by
  refine EngUpd.by_ (fun s₀ => ?_) hF
  have h := Upd.refl (F := [.regs, .cores]) s₀
  delta readBlock
  repeat' (first
    | with_reducible assumption
    | ((with_reducible apply Part.Sub.of); rfl)
    | (intro q; refine (fun hq => ?_) (?_ : ∀ x, EngUpd [.regs, .cores] s₀ (q x)); rotate_left; subst q; intro x; rotate_left)
    | intro s
    | lift_lets -underBinder
    | with_reducible apply hq
    | with_reducible apply EngUpd.pure
    | with_reducible apply EngUpd.throw
    | with_reducible apply EngUpd.ite
    | (with_reducible apply EngUpd.bind; case' hf => intro _)
    | (with_reducible apply EngUpd.modify; intro _ h)
    | with_reducible apply State.modTe_upd
    | with_reducible apply spmRead_upd
    | exact Unit.unit)

theorem State.countPlanes_upd {F : List Part} {s₀ s : State} (p : Nat) (e : Nat) (planes : Nat) (skipped : Nat) (zeros : Nat) (h : Upd F s₀ s) (hF : Part.Sub [.regs] F) :
    Upd F s₀ (State.countPlanes s p e planes skipped zeros) := by
  refine Upd.by_ h ?_ hF
  clear h hF
  revert s
  intro s₀
  have h := Upd.refl (F := [.regs]) s₀
  delta State.countPlanes
  repeat' (first
    | with_reducible assumption
    | ((with_reducible apply Part.Sub.of); rfl)
    | with_reducible apply State.bump_upd)

theorem runRow_upd {F : List Part} {s₀ : State} (p : Nat) (e : Nat) (t : TdItem) (x : Pass) (tile : Tile) (ld : Load) (i : Nat) (hF : Part.Sub [.regs, .cores] F) : EngUpd F s₀ (runRow p e t x tile ld i) := by
  refine EngUpd.by_ (fun s₀ => ?_) hF
  have h := Upd.refl (F := [.regs, .cores]) s₀
  delta runRow
  repeat' (first
    | with_reducible assumption
    | ((with_reducible apply Part.Sub.of); rfl)
    | (intro q; refine (fun hq => ?_) (?_ : ∀ x, EngUpd [.regs, .cores] s₀ (q x)); rotate_left; subst q; intro x; rotate_left)
    | (intro s; have _h : List _ := s; clear _h; clear_value s)
    | intro s
    | lift_lets -underBinder
    | with_reducible apply hq
    | with_reducible apply EngUpd.pure
    | with_reducible apply EngUpd.throw
    | with_reducible apply EngUpd.ite
    | (with_reducible apply EngUpd.getBind; intro _ h)
    | (with_reducible apply EngUpd.bind; case' hf => intro _)
    | (with_reducible apply EngUpd.modify; intro _ h)
    | with_reducible apply State.countPlanes_upd
    | with_reducible apply State.modTe_upd
    | with_reducible apply State.modCore_upd
    | with_reducible apply State.bump_upd
    | with_reducible apply State.modSet_upd
    | with_reducible apply readBlock_upd
    | split)

theorem promoteRow_upd {F : List Part} {s₀ : State} (p : Nat) (e : Nat) (t : TdItem) (x : Pass) (i : Nat) (hF : Part.Sub [.regs, .cores] F) : EngUpd F s₀ (promoteRow p e t x i) := by
  refine EngUpd.by_ (fun s₀ => ?_) hF
  have h := Upd.refl (F := [.regs, .cores]) s₀
  delta promoteRow
  repeat' (first
    | with_reducible assumption
    | ((with_reducible apply Part.Sub.of); rfl)
    | intro s
    | lift_lets -underBinder
    | with_reducible apply EngUpd.pure
    | with_reducible apply EngUpd.throw
    | with_reducible apply EngUpd.ite
    | (with_reducible apply EngUpd.getBind; intro _ h)
    | with_reducible apply EngUpd.set
    | with_reducible apply State.modSet_upd
    | with_reducible apply State.bump_upd
    | split)

theorem State.countWaits_upd {F : List Part} {s₀ s : State} (p : Nat) (e : Nat) (x : Pass) (f : EngFind) (h : Upd F s₀ s) (hF : Part.Sub [.regs, .cores] F) :
    Upd F s₀ (State.countWaits s p e x f) := by
  refine Upd.by_ h ?_ hF
  clear h hF
  revert s
  intro s₀
  have h := Upd.refl (F := [.regs, .cores]) s₀
  delta State.countWaits
  repeat' (first
    | with_reducible assumption
    | ((with_reducible apply Part.Sub.of); rfl)
    | (intro s; refine (fun h => ?_) (?_ : Upd [.regs, .cores] s₀ s); rotate_left; subst s; rotate_left)
    | intro s
    | lift_lets -underBinder
    | with_reducible apply Upd.ite
    | with_reducible apply State.bump_upd
    | with_reducible apply State.modCore_upd)

theorem runPass_upd {F : List Part} {s₀ : State} (p : Nat) (e : Nat) (i : Nat) (t : TdItem) (x : Pass) (f : EngFind) (hF : Part.Sub [.regs, .cores] F) : EngUpd F s₀ (runPass p e i t x f) := by
  refine EngUpd.by_ (fun s₀ => ?_) hF
  have h := Upd.refl (F := [.regs, .cores]) s₀
  delta runPass
  repeat' (first
    | with_reducible assumption
    | ((with_reducible apply Part.Sub.of); rfl)
    | (intro q; refine (fun hq => ?_) (?_ : ∀ x, EngUpd [.regs, .cores] s₀ (q x)); rotate_left; subst q; intro x; rotate_left)
    | intro s
    | lift_lets -underBinder
    | with_reducible apply hq
    | with_reducible apply EngUpd.ite
    | (with_reducible apply EngUpd.getBind; intro _ h)
    | (with_reducible apply EngUpd.bind; case' hf => intro _)
    | with_reducible apply EngUpd.set
    | (with_reducible apply EngUpd.modify; intro _ h)
    | (with_reducible apply EngUpd.forM; intro _)
    | with_reducible apply State.countWaits_upd
    | with_reducible apply State.modTe_upd
    | with_reducible apply State.modSet_upd
    | with_reducible apply State.count_upd
    | with_reducible apply State.bump_upd
    | with_reducible apply State.modItem_upd
    | with_reducible apply tePort_upd
    | with_reducible apply runRow_upd
    | with_reducible apply promoteRow_upd
    | split)

theorem execSetReady_upd (core : Nat) (te : Nat) (s₀ : State) : ∃ t, execSetReady core te s₀ = .next t ∧ Upd [.cores] s₀ t := by
  have h := Upd.refl (F := [.cores]) s₀
  delta execSetReady
  repeat' (first
    | with_reducible assumption
    | ((with_reducible apply Part.Sub.of); rfl)
    | intro s
    | lift_lets -underBinder
    | with_reducible apply Upd.ite
    | with_reducible apply Upd.next
    | with_reducible apply State.modSet_upd
    | with_reducible apply State.modTe_upd)

theorem execTeFormatBarrierEnd_upd (core : Nat) (te : Nat) (s₀ : State) : ∃ t, execTeFormatBarrierEnd core te s₀ = .next t ∧ Upd [.regs, .cores] s₀ t := by
  have h := Upd.refl (F := [.regs, .cores]) s₀
  delta execTeFormatBarrierEnd
  repeat' (first
    | with_reducible assumption
    | ((with_reducible apply Part.Sub.of); rfl)
    | intro s
    | lift_lets -underBinder
    | with_reducible apply Upd.ite
    | with_reducible apply Upd.next
    | with_reducible apply State.modTe_upd
    | with_reducible apply State.bump_upd
    | split)

theorem execTileSwap_upd (core : Nat) (te : Nat) (s₀ : State) : ∃ t, execTileSwap core te s₀ = .next t ∧ Upd [.regs, .cores, .noc] s₀ t := by
  have h := Upd.refl (F := [.regs, .cores, .noc]) s₀
  delta execTileSwap
  repeat' (first
    | with_reducible assumption
    | ((with_reducible apply Part.Sub.of); rfl)
    | intro s
    | lift_lets -underBinder
    | with_reducible apply Upd.ite
    | with_reducible apply Upd.next
    | with_reducible apply State.modTe_upd
    | with_reducible apply State.qLeave_upd
    | with_reducible apply State.bump_upd
    | split)

end Sys2Proof.Machine
end

