-- ==== Sys2Proof/Laws/UpdQuantiser.lean ====
section
/-!
SUPPORT. What each operation of Machine/Quantiser.lean may change.
-/
namespace Sys2Proof.Machine

theorem State.countBlock_upd {F : List Part} {s₀ s : State} (p : Nat) (i : Nat) (layer : Nat) (first : Nat) (q : QOut) (h : Upd F s₀ s) (hF : Part.Sub [.regs, .cores, .vecs, .gs, .link, .svc, .log] F) :
    Upd F s₀ (State.countBlock s p i layer first q) := by
  refine Upd.by_ h ?_ hF
  clear h hF
  revert s
  intro s₀
  have h := Upd.refl (F := [.regs, .cores, .vecs, .gs, .link, .svc, .log]) s₀
  delta State.countBlock
  repeat' (first
    | with_reducible assumption
    | ((with_reducible apply Part.Sub.of); rfl)
    | (intro s; refine (fun h => ?_) (?_ : Upd [.regs, .cores, .vecs, .gs, .link, .svc, .log] s₀ s); rotate_left; subst s; rotate_left)
    | intro s
    | lift_lets -underBinder
    | with_reducible apply Upd.ite
    | with_reducible apply State.bump_upd
    | with_reducible apply State.modItem_upd
    | with_reducible apply State.raise_upd
    | with_reducible apply State.capture_upd
    | split)

theorem State.badRow_upd {F : List Part} {s₀ s : State} (p : Nat) (idx : Nat) (t : TdItem) (i : Nat) (h : Upd F s₀ s) (hF : Part.Sub [.cores] F) :
    Upd F s₀ (State.badRow s p idx t i) := by
  refine Upd.by_ h ?_ hF
  clear h hF
  revert s
  intro s₀
  have h := Upd.refl (F := [.cores]) s₀
  delta State.badRow
  repeat' (first
    | with_reducible assumption
    | ((with_reducible apply Part.Sub.of); rfl)
    | with_reducible apply State.modItem_upd)

theorem quantRow_upd {F : List Part} {s₀ : State} (p : Nat) (idx : Nat) (t : TdItem) (layer : Nat) (first : Nat) (prec : List Byte) (pins : List Nat) (i : Nat) (masked : Bool) (xs : List F32) (put : List Byte → Eng Unit) (hF : Part.Sub [.regs, .cores, .vecs, .gs, .link, .svc, .log] F)
    (hown : ∀ x, EngUpd F s₀ (put x)) : EngUpd F s₀ (quantRow p idx t layer first prec pins i masked xs put) := by
  have h := Upd.refl (F := F) s₀
  delta quantRow
  repeat' (first
    | (with_reducible assumption)
    | ((with_reducible apply Part.Sub.trans _ hF); exact Part.Sub.of rfl)
    | with_reducible apply hown
    | intro s
    | lift_lets -underBinder
    | with_reducible apply EngUpd.pure
    | with_reducible apply EngUpd.ite
    | (with_reducible apply EngUpd.bind; case' hf => intro _)
    | (with_reducible apply EngUpd.modify; intro _ h)
    | with_reducible apply State.countBlock_upd
    | with_reducible apply State.badRow_upd)

end Sys2Proof.Machine
end

