-- ==== Sys2Proof/Laws/UpdDrain.lean ====
section
/-!
SUPPORT. What each operation of Machine/Drain.lean may change.
-/
namespace Sys2Proof.Machine

theorem State.nbrSend_upd {F : List Part} {s₀ s : State} (p : Nat) (q : Nat) (c : NbrCart) (h : Upd F s₀ s) (hF : Part.Sub [.regs, .cores, .noc] F) :
    Upd F s₀ (State.nbrSend s p q c) := by
  refine Upd.by_ h ?_ hF
  clear h hF
  revert s
  intro s₀
  have h := Upd.refl (F := [.regs, .cores, .noc]) s₀
  delta State.nbrSend
  repeat' (first
    | with_reducible assumption
    | ((with_reducible apply Part.Sub.of); rfl)
    | lift_lets -underBinder
    | with_reducible apply State.qSend_upd
    | with_reducible apply State.modCore_upd
    | with_reducible apply State.bump_upd)

theorem State.nbrWrite_upd {F : List Part} {s₀ s : State} (p : Nat) (q : Nat) (c : NbrCart) (h : Upd F s₀ s) (hF : Part.Sub [.regs, .cores, .noc] F) :
    Upd F s₀ (State.nbrWrite s p q c) := by
  refine Upd.by_ h ?_ hF
  clear h hF
  revert s
  intro s₀
  have h := Upd.refl (F := [.regs, .cores, .noc]) s₀
  delta State.nbrWrite
  repeat' (first
    | with_reducible assumption
    | ((with_reducible apply Part.Sub.of); rfl)
    | lift_lets -underBinder
    | with_reducible apply Upd.ite
    | with_reducible apply State.nbrSend_upd
    | with_reducible apply State.modCore_upd)

theorem State.nbrPump_upd {F : List Part} {s₀ s : State} (p : Nat) (q : Nat) (h : Upd F s₀ s) (hF : Part.Sub [.regs, .cores, .noc] F) :
    Upd F s₀ (State.nbrPump s p q) := by
  refine Upd.by_ h ?_ hF
  clear h hF
  revert s
  intro s₀
  have h := Upd.refl (F := [.regs, .cores, .noc]) s₀
  delta State.nbrPump
  repeat' (first
    | with_reducible assumption
    | ((with_reducible apply Part.Sub.of); rfl)
    | lift_lets -underBinder
    | with_reducible apply Upd.ite
    | with_reducible apply State.modCore_upd
    | with_reducible apply State.nbrSend_upd
    | split)

theorem execNbrWriteRx_upd (core : Nat) (s₀ : State) : ∃ t, execNbrWriteRx core s₀ = .next t ∧ Upd [.regs, .spm, .cores, .noc] s₀ t := by
  have h := Upd.refl (F := [.regs, .spm, .cores, .noc]) s₀
  delta execNbrWriteRx
  repeat' (first
    | with_reducible assumption
    | ((with_reducible apply Part.Sub.of); rfl)
    | (intro s; refine (fun h => ?_) (?_ : Upd [.regs, .spm, .cores, .noc] s₀ s); rotate_left; subst s; rotate_left)
    | intro s
    | lift_lets -underBinder
    | with_reducible apply Upd.next
    | with_reducible apply State.qAwait_upd
    | with_reducible apply State.modCore_upd
    | with_reducible apply State.spmWrite_upd
    | with_reducible apply State.bump_upd
    | with_reducible apply State.qLeave_upd
    | with_reducible apply State.nbrPump_upd
    | split)

theorem outWrite_upd {F : List Part} {s₀ : State} (p : Nat) (t : TdItem) (a : Nat) (off : Nat) (data : List Byte) (hF : Part.Sub [.regs, .spm, .cores, .noc] F) : EngUpd F s₀ (outWrite p t a off data) := by
  refine EngUpd.by_ (fun s₀ => ?_) hF
  have h := Upd.refl (F := [.regs, .spm, .cores, .noc]) s₀
  delta outWrite
  repeat' (first
    | with_reducible assumption
    | ((with_reducible apply Part.Sub.of); rfl)
    | lift_lets -underBinder
    | (with_reducible apply Upd.foldl; case' hf => intro _ _ h)
    | with_reducible apply EngUpd.throw
    | with_reducible apply EngUpd.ite
    | (with_reducible apply EngUpd.getBind; intro _ h)
    | with_reducible apply EngUpd.set
    | with_reducible apply State.spmWrite_upd
    | with_reducible apply State.nbrWrite_upd
    | split)

theorem readBfs_upd {F : List Part} {s₀ : State} (p : Nat) (t : TdItem) (c : Nat) (aspace : Nat) (a : Nat) (n : Nat) (hF : Part.Sub [.regs, .hbm, .vecs, .xlate, .gs, .link, .svc, .log] F) : EngUpd F s₀ (readBfs p t c aspace a n) := by
  refine EngUpd.by_ (fun s₀ => ?_) hF
  have h := Upd.refl (F := [.regs, .hbm, .vecs, .xlate, .gs, .link, .svc, .log]) s₀
  delta readBfs
  repeat' (first
    | ((with_reducible apply Part.Sub.of); rfl)
    | lift_lets -underBinder
    | with_reducible apply EngUpd.pure
    | (with_reducible apply EngUpd.bind; case' hf => intro _)
    | with_reducible apply tableRead_upd)

theorem kvEntry_upd {F : List Part} {s₀ : State} (p : Nat) (t : TdItem) (r : Row) (k : Nat) (hd : Nat) (pos : Nat) (bad : Flt) (hF : Part.Sub [.regs, .hbm, .vecs, .xlate, .gs, .link, .svc, .log] F) : EngUpd F s₀ (kvEntry p t r k hd pos bad) := by
  refine EngUpd.by_ (fun s₀ => ?_) hF
  have h := Upd.refl (F := [.regs, .hbm, .vecs, .xlate, .gs, .link, .svc, .log]) s₀
  delta kvEntry
  repeat' (first
    | ((with_reducible apply Part.Sub.of); rfl)
    | intro s
    | lift_lets -underBinder
    | (with_reducible apply EngUpd.getBind; intro _ h)
    | (with_reducible apply EngUpd.bind; case' hf => intro _)
    | with_reducible apply fineRead_upd)

theorem physWrite_upd {F : List Part} {s₀ : State} (p : Nat) (t : TdItem) (a : Nat) (data : List Byte) (hF : Part.Sub [.regs, .hbm, .vecs, .gs, .link, .svc, .log] F) : EngUpd F s₀ (physWrite p t a data) := by
  refine EngUpd.by_ (fun s₀ => ?_) hF
  have h := Upd.refl (F := [.regs, .hbm, .vecs, .gs, .link, .svc, .log]) s₀
  delta physWrite
  repeat' (first
    | with_reducible assumption
    | ((with_reducible apply Part.Sub.of); rfl)
    | (intro s; refine (fun h => ?_) (?_ : Upd1 [.regs, .hbm, .vecs, .gs, .link, .svc, .log] s₀ s); rotate_left; subst s; rotate_left)
    | lift_lets -underBinder
    | with_reducible apply EngUpd.pure
    | with_reducible apply EngUpd.throw
    | with_reducible apply EngUpd.ite
    | (with_reducible apply EngUpd.getBind; intro _ h)
    | (with_reducible apply EngUpd.bind; case' hf => intro _)
    | with_reducible apply EngUpd.set
    | with_reducible apply State.mcWrite_upd
    | with_reducible apply State.bump_upd
    | with_reducible apply Upd1.fst)

theorem appendVec_upd {F : List Part} {s₀ : State} (p : Nat) (idx : Nat) (t : TdItem) (r : Row) (i : Nat) (k : Nat) (hd : Nat) (e : List Byte) (freq : List F32) (v : List F32) (hF : Part.Sub [.regs, .hbm, .cores, .vecs, .gs, .link, .svc, .log] F) : EngUpd F s₀ (appendVec p idx t r i k hd e freq v) := by
  refine EngUpd.by_ (fun s₀ => ?_) hF
  have h := Upd.refl (F := [.regs, .hbm, .cores, .vecs, .gs, .link, .svc, .log]) s₀
  delta appendVec
  repeat' (first
    | with_reducible assumption
    | ((with_reducible apply Part.Sub.of); rfl)
    | (intro s; have _h : List _ := s; clear _h; clear_value s)
    | intro s
    | lift_lets -underBinder
    | with_reducible apply EngUpd.pure
    | with_reducible apply EngUpd.ite
    | (with_reducible apply EngUpd.getBind; intro _ h)
    | (with_reducible apply EngUpd.bind; case' hf => intro _)
    | (with_reducible apply EngUpd.modify; intro _ h)
    | with_reducible apply State.bump_upd
    | with_reducible apply State.badRow_upd
    | with_reducible apply physWrite_upd)

theorem State.attnMask_upd {F : List Part} {s₀ s : State} (p : Nat) (t : TdItem) (m : Nat) (chunk : Nat) (status : Nat) (h : Upd F s₀ s) (hF : Part.Sub [.regs, .vecs, .gs, .link, .svc, .log] F) :
    Upd F s₀ (State.attnMask s p t m chunk status) := by
  refine Upd.by_ h ?_ hF
  clear h hF
  revert s
  intro s₀
  have h := Upd.refl (F := [.regs, .vecs, .gs, .link, .svc, .log]) s₀
  delta State.attnMask
  repeat' (first
    | with_reducible assumption
    | ((with_reducible apply Part.Sub.of); rfl)
    | (intro s; refine (fun h => ?_) (?_ : Upd [.regs, .vecs, .gs, .link, .svc, .log] s₀ s); rotate_left; subst s; rotate_left)
    | intro s
    | lift_lets -underBinder
    | with_reducible apply Upd.ite
    | with_reducible apply State.maskRows_upd
    | with_reducible apply State.capture_upd
    | with_reducible apply State.raise_upd)

theorem onPoison_upd {F : List Part} {s₀ : State} {m : Eng Unit} {f : State → State} (hm : EngUpd F s₀ m)
    (hown : ∀ s, Upd F s₀ s → Upd F s₀ (f s)) : EngUpd F s₀ (onPoison m f) := by
  refine ⟨fun s h => ?_⟩
  have k := hm.after s h
  unfold Eng.after at k ⊢
  unfold onPoison
  cases e : m s with
  | ok a t => rw [e] at k; exact k
  | error x t =>
    rw [e] at k
    dsimp only
    split
    next a u hu => split at hu <;> cases hu; exact hown t k
    next a u hu => split at hu <;> cases hu; exact k

theorem appendRow_upd {F : List Part} {s₀ : State} (p : Nat) (idx : Nat) (t : TdItem) (i : Nat) (xs : List F32) (hF : Part.Sub [.regs, .hbm, .cores, .vecs, .xlate, .gs, .link, .svc, .log] F) : EngUpd F s₀ (appendRow p idx t i xs) := by
  refine EngUpd.by_ (fun s₀ => ?_) hF
  have h := Upd.refl (F := [.regs, .hbm, .cores, .vecs, .xlate, .gs, .link, .svc, .log]) s₀
  delta appendRow
  repeat' (first
    | with_reducible assumption
    | ((with_reducible apply Part.Sub.of); rfl)
    | (intro q; refine (fun hq => ?_) (?_ : ∀ x, EngUpd [.regs, .hbm, .cores, .vecs, .xlate, .gs, .link, .svc, .log] s₀ (q x)); rotate_left; subst q; intro x; rotate_left)
    | (intro s; have _h : List _ := s; clear _h; clear_value s)
    | intro s
    | lift_lets -underBinder
    | with_reducible apply hq
    | with_reducible apply EngUpd.pure
    | with_reducible apply EngUpd.throw
    | with_reducible apply EngUpd.ite
    | (with_reducible apply EngUpd.getBind; intro _ h)
    | (with_reducible apply EngUpd.bind; case' hf => intro _)
    | (with_reducible apply EngUpd.forM; intro _)
    | (with_reducible apply EngUpd.mapM; intro _)
    | with_reducible apply State.attnMask_upd
    | with_reducible apply tableRead_upd
    | (with_reducible apply onPoison_upd; case' hown => intro _ h)
    | with_reducible apply kvEntry_upd
    | with_reducible apply appendVec_upd
    | exact Unit.unit)

theorem putRow_upd {F : List Part} {s₀ : State} (p : Nat) (idx : Nat) (t : TdItem) (a : AccSet) (i : Nat) (hF : Part.Sub [.regs, .hbm, .spm, .cores, .vecs, .xlate, .gs, .link, .svc, .log, .noc] F) : EngUpd F s₀ (putRow p idx t a i) := by
  refine EngUpd.by_ (fun s₀ => ?_) hF
  have h := Upd.refl (F := [.regs, .hbm, .spm, .cores, .vecs, .xlate, .gs, .link, .svc, .log, .noc]) s₀
  delta putRow
  repeat' (first
    | with_reducible assumption
    | ((with_reducible apply Part.Sub.of); rfl)
    | (intro q; refine (fun hq => ?_) (?_ : ∀ x, EngUpd [.regs, .hbm, .spm, .cores, .vecs, .xlate, .gs, .link, .svc, .log, .noc] s₀ (q x)); rotate_left; subst q; intro x; rotate_left)
    | (intro s; have _h : List _ := s; clear _h; clear_value s)
    | lift_lets -underBinder
    | with_reducible apply hq
    | with_reducible apply EngUpd.ite
    | (with_reducible apply EngUpd.bind; case' hf => intro _)
    | (with_reducible apply EngUpd.modify; intro _ h)
    | with_reducible apply State.modItem_upd
    | with_reducible apply readBfs_upd
    | with_reducible apply appendRow_upd
    | with_reducible apply outWrite_upd
    | exact Unit.unit)

theorem putDown_upd {F : List Part} {s₀ : State} (p : Nat) (idx : Nat) (t : TdItem) (a : AccSet) (i : Nat) (hF : Part.Sub [.regs, .hbm, .spm, .cores, .vecs, .xlate, .gs, .link, .svc, .log] F) : EngUpd F s₀ (putDown p idx t a i) := by
  refine EngUpd.by_ (fun s₀ => ?_) hF
  have h := Upd.refl (F := [.regs, .hbm, .spm, .cores, .vecs, .xlate, .gs, .link, .svc, .log]) s₀
  delta putDown
  repeat' (first
    | with_reducible assumption
    | ((with_reducible apply Part.Sub.of); rfl)
    | (intro q; refine (fun hq => ?_) (?_ : ∀ x, EngUpd [.regs, .hbm, .spm, .cores, .vecs, .xlate, .gs, .link, .svc, .log] s₀ (q x)); rotate_left; subst q; intro x; rotate_left)
    | (intro s; have _h : List _ := s; clear _h; clear_value s)
    | intro s
    | lift_lets -underBinder
    | with_reducible apply hq
    | with_reducible apply EngUpd.ite
    | (with_reducible apply EngUpd.getBind; intro _ h)
    | (with_reducible apply EngUpd.bind; case' hf => intro _)
    | (with_reducible apply EngUpd.modify; intro _ h)
    | with_reducible apply State.modItem_upd
    | with_reducible apply State.spmWrite_upd
    | with_reducible apply readBfs_upd
    | (with_reducible apply quantRow_upd; case' hown => intro _)
    | exact Unit.unit)

theorem putUp_upd {F : List Part} {s₀ : State} (p : Nat) (idx : Nat) (t : TdItem) (a : AccSet) (i : Nat) (hF : Part.Sub [.regs, .hbm, .spm, .cores, .vecs, .xlate, .gs, .link, .svc, .log, .noc] F) : EngUpd F s₀ (putUp p idx t a i) := by
  refine EngUpd.by_ (fun s₀ => ?_) hF
  have h := Upd.refl (F := [.regs, .hbm, .spm, .cores, .vecs, .xlate, .gs, .link, .svc, .log, .noc]) s₀
  delta putUp
  repeat' (first
    | with_reducible assumption
    | ((with_reducible apply Part.Sub.of); rfl)
    | (intro q; refine (fun hq => ?_) (?_ : ∀ x, EngUpd [.regs, .hbm, .spm, .cores, .vecs, .xlate, .gs, .link, .svc, .log, .noc] s₀ (q x)); rotate_left; subst q; intro x; rotate_left)
    | (intro s; have _h : List _ := s; clear _h; clear_value s)
    | lift_lets -underBinder
    | with_reducible apply hq
    | with_reducible apply EngUpd.pure
    | with_reducible apply EngUpd.throw
    | with_reducible apply EngUpd.ite
    | (with_reducible apply EngUpd.getBind; intro _ h)
    | (with_reducible apply EngUpd.bind; case' hf => intro _)
    | (with_reducible apply EngUpd.modify; intro _ h)
    | with_reducible apply State.modItem_upd
    | with_reducible apply State.bump_upd
    | with_reducible apply readBfs_upd
    | with_reducible apply spmRead_upd
    | with_reducible apply outWrite_upd
    | split
    | exact Unit.unit)

theorem putSigns_upd {F : List Part} {s₀ : State} (p : Nat) (t : TdItem) (a : AccSet) (i : Nat) (hF : Part.Sub [.regs, .spm] F) : EngUpd F s₀ (putSigns p t a i) := by
  refine EngUpd.by_ (fun s₀ => ?_) hF
  have h := Upd.refl (F := [.regs, .spm]) s₀
  delta putSigns
  repeat' (first
    | with_reducible assumption
    | ((with_reducible apply Part.Sub.of); rfl)
    | (intro s; have _h : List _ := s; clear _h; clear_value s)
    | lift_lets -underBinder
    | (with_reducible apply EngUpd.modify; intro _ h)
    | with_reducible apply State.spmWrite_upd)

theorem putScores_upd {F : List Part} {s₀ : State} (p : Nat) (t : TdItem) (a : AccSet) (i : Nat) (hF : Part.Sub [.regs, .spm, .gs] F) : EngUpd F s₀ (putScores p t a i) := by
  refine EngUpd.by_ (fun s₀ => ?_) hF
  have h := Upd.refl (F := [.regs, .spm, .gs]) s₀
  delta putScores
  repeat' (first
    | with_reducible assumption
    | ((with_reducible apply Part.Sub.of); rfl)
    | (intro s; have _h : List _ := s; clear _h; clear_value s)
    | intro s
    | lift_lets -underBinder
    | with_reducible apply EngUpd.pure
    | with_reducible apply EngUpd.ite
    | (with_reducible apply EngUpd.getBind; intro _ h)
    | (with_reducible apply EngUpd.bind; case' hf => intro _)
    | with_reducible apply EngUpd.set
    | (with_reducible apply EngUpd.modify; intro _ h)
    | (with_reducible apply Upd.gs; case h => with_reducible assumption)
    | with_reducible apply State.spmWrite_upd)

theorem enterRow_upd {F : List Part} {s₀ : State} (p : Nat) (e : Nat) (n : Nat) (t : TdItem) (a : AccSet) (i : Nat) (hF : Part.Sub [.cores] F) : EngUpd F s₀ (enterRow p e n t a i) := by
  refine EngUpd.by_ (fun s₀ => ?_) hF
  have h := Upd.refl (F := [.cores]) s₀
  delta enterRow
  repeat' (first
    | with_reducible assumption
    | ((with_reducible apply Part.Sub.of); rfl)
    | intro s
    | lift_lets -underBinder
    | with_reducible apply EngUpd.throw
    | (with_reducible apply EngUpd.modify; intro _ h)
    | with_reducible apply State.modTe_upd
    | split)

theorem finishRow_upd {F : List Part} {s₀ : State} (p : Nat) (idx : Nat) (t : TdItem) (a : AccSet) (i : Nat) (hF : Part.Sub [.regs, .hbm, .spm, .cores, .vecs, .xlate, .gs, .link, .svc, .log, .noc] F) : EngUpd F s₀ (finishRow p idx t a i) := by
  refine EngUpd.by_ (fun s₀ => ?_) hF
  have h := Upd.refl (F := [.regs, .hbm, .spm, .cores, .vecs, .xlate, .gs, .link, .svc, .log, .noc]) s₀
  delta finishRow
  repeat' (first
    | ((with_reducible apply Part.Sub.of); rfl)
    | with_reducible apply putDown_upd
    | with_reducible apply putUp_upd
    | with_reducible apply putSigns_upd
    | with_reducible apply putScores_upd
    | with_reducible apply putRow_upd
    | split)

theorem State.sendCart_upd {F : List Part} {s₀ s : State} (p : Nat) (t : TdItem) (c : Cart) (h : Upd F s₀ s) (hF : Part.Sub [.regs, .cores, .link, .noc] F) :
    Upd F s₀ (State.sendCart s p t c) := by
  refine Upd.by_ h ?_ hF
  clear h hF
  revert s
  intro s₀
  have h := Upd.refl (F := [.regs, .cores, .link, .noc]) s₀
  delta State.sendCart
  repeat' (first
    | with_reducible assumption
    | ((with_reducible apply Part.Sub.of); rfl)
    | (intro s; refine (fun h => ?_) (?_ : Upd [.regs, .cores, .link, .noc] s₀ s); rotate_left; subst s; rotate_left)
    | intro s
    | lift_lets -underBinder
    | with_reducible apply Upd.ite
    | (with_reducible apply Upd.link; case h => with_reducible assumption)
    | with_reducible apply State.bump_upd
    | with_reducible apply State.send_upd
    | with_reducible apply State.qPut_upd
    | with_reducible apply State.qSend_upd
    | with_reducible apply State.modTe_upd
    | split)

theorem State.pump_upd {F : List Part} {s₀ s : State} (p e f : Nat) (h : Upd F s₀ s) (hF : Part.Sub [.regs, .cores, .vecs, .gs, .link, .svc, .log, .noc] F) :
    Upd F s₀ (s.pump p e f) := by
  induction f generalizing s with
  | zero => exact h
  | succ f ih =>
    unfold State.pump
    split
    · exact h
    · dsimp only
      split
      · exact h
      · split
        · exact h
        · have hm (c : Prop) [Decidable c] (n : Nat) (t : TdItem) (a : AccSet) (r : Nat) :
              EngUpd F s₀ (if c then enterRow p e n t a r else pure ()) :=
            EngUpd.ite (enterRow_upd _ _ _ _ _ _ (Part.Sub.trans (Part.Sub.of rfl) hF)) (EngUpd.pure _)
          split
          next k => exact State.faultItem_upd _ _ _ _ (EngUpd.err h (hm _ _ _ _ _) k) (Part.Sub.trans (Part.Sub.of rfl) hF)
          next k => exact ih (State.modSet_upd _ _ _ _ (State.sendCart_upd _ _ _ (EngUpd.ok h (hm _ _ _ _ _) k) (Part.Sub.trans (Part.Sub.of rfl) hF))
            (Part.Sub.trans (Part.Sub.of rfl) hF))

theorem State.pumpRemote_upd {F : List Part} {s₀ s : State} (h : Upd F s₀ s) (hF : Part.Sub [.regs, .cores, .vecs, .gs, .link, .svc, .log, .noc] F) :
    Upd F s₀ (State.pumpRemote s) := by
  refine Upd.by_ h ?_ hF
  clear h hF
  revert s
  intro s₀
  have h := Upd.refl (F := [.regs, .cores, .vecs, .gs, .link, .svc, .log, .noc]) s₀
  delta State.pumpRemote
  repeat' (first
    | with_reducible assumption
    | ((with_reducible apply Part.Sub.of); rfl)
    | (with_reducible apply Upd.foldl; case' hf => intro _ _ h)
    | with_reducible apply State.pump_upd)

theorem execSetDrainStart_upd (core : Nat) (te : Nat) (found : EngFind) (s₀ : State) : ∃ t, execSetDrainStart core te found s₀ = .next t ∧ Upd [.regs, .hbm, .spm, .cores, .vecs, .xlate, .gs, .link, .svc, .log, .noc] s₀ t := by
  have h := Upd.refl (F := [.regs, .hbm, .spm, .cores, .vecs, .xlate, .gs, .link, .svc, .log, .noc]) s₀
  delta execSetDrainStart
  repeat' (first
    | with_reducible assumption
    | ((with_reducible apply Part.Sub.of); rfl)
    | (intro s; refine (fun h => ?_) (?_ : Upd [.regs, .hbm, .spm, .cores, .vecs, .xlate, .gs, .link, .svc, .log, .noc] s₀ s); rotate_left; subst s; rotate_left)
    | (intro s; have _h : Option _ := s; clear _h; clear_value s)
    | intro s
    | lift_lets -underBinder
    | with_reducible apply Upd.ite
    | with_reducible apply EngUpd.pure
    | with_reducible apply EngUpd.ite
    | (with_reducible apply EngUpd.getBind; intro _ h)
    | (with_reducible apply EngUpd.bind; case' hf => intro _)
    | (with_reducible apply EngUpd.modify; intro _ h)
    | (with_reducible apply EngUpd.forM; intro _)
    | with_reducible apply Upd.next
    | with_reducible apply State.meet_upd
    | with_reducible apply State.modSet_upd
    | with_reducible apply State.bump_upd
    | (with_reducible apply State.work_upd)
    | with_reducible apply State.pump_upd
    | with_reducible apply tePort_upd
    | with_reducible apply enterRow_upd
    | with_reducible apply finishRow_upd
    | split)

theorem execSetDrainDone_upd (core : Nat) (te : Nat) (s₀ : State) : ∃ t, execSetDrainDone core te s₀ = .next t ∧ Upd [.regs, .cores] s₀ t := by
  have h := Upd.refl (F := [.regs, .cores]) s₀
  delta execSetDrainDone
  repeat' (first
    | with_reducible assumption
    | ((with_reducible apply Part.Sub.of); rfl)
    | lift_lets -underBinder
    | with_reducible apply Upd.ite
    | with_reducible apply Upd.next
    | with_reducible apply State.modSet_upd
    | split)

theorem addCart_upd {F : List Part} {s₀ : State} (p : Nat) (e : Nat) (n : Nat) (c : Cart) (hF : Part.Sub [.regs, .cores] F) : EngUpd F s₀ (addCart p e n c) := by
  refine EngUpd.by_ (fun s₀ => ?_) hF
  have h := Upd.refl (F := [.regs, .cores]) s₀
  delta addCart
  repeat' (first
    | with_reducible assumption
    | ((with_reducible apply Part.Sub.of); rfl)
    | (intro s; refine (fun h => ?_) (?_ : Upd [.regs, .cores] s₀ s); rotate_left; subst s; rotate_left)
    | intro s
    | lift_lets -underBinder
    | (with_reducible apply EngUpd.getBind; intro _ h)
    | with_reducible apply EngUpd.set
    | with_reducible apply State.modSet_upd
    | with_reducible apply State.modTe_upd
    | with_reducible apply State.bump_upd)

theorem takeCart_upd {F : List Part} {s₀ : State} (p : Nat) (e : Nat) (n : Nat) (i : Nat) (t : TdItem) (c : Cart) (hF : Part.Sub [.regs, .hbm, .spm, .cores, .vecs, .xlate, .gs, .link, .svc, .log, .noc] F) : EngUpd F s₀ (takeCart p e n i t c) := by
  refine EngUpd.by_ (fun s₀ => ?_) hF
  have h := Upd.refl (F := [.regs, .hbm, .spm, .cores, .vecs, .xlate, .gs, .link, .svc, .log, .noc]) s₀
  delta takeCart
  repeat' (first
    | with_reducible assumption
    | ((with_reducible apply Part.Sub.of); rfl)
    | (intro q; refine (fun hq => ?_) (?_ : ∀ x, EngUpd [.regs, .hbm, .spm, .cores, .vecs, .xlate, .gs, .link, .svc, .log, .noc] s₀ (q x)); rotate_left; subst q; intro x; rotate_left)
    | intro s
    | lift_lets -underBinder
    | with_reducible apply hq
    | with_reducible apply EngUpd.throw
    | with_reducible apply EngUpd.ite
    | (with_reducible apply EngUpd.getBind; intro _ h)
    | (with_reducible apply EngUpd.bind; case' hf => intro _)
    | with_reducible apply EngUpd.set
    | (with_reducible apply EngUpd.modify; intro _ h)
    | with_reducible apply State.sendCart_upd
    | with_reducible apply State.modSet_upd
    | with_reducible apply enterRow_upd
    | with_reducible apply addCart_upd
    | with_reducible apply finishRow_upd
    | exact Unit.unit)

theorem State.cartCredit_upd {F : List Part} {s₀ s : State} (p : Nat) (e : Nat) (c : Cart) (h : Upd F s₀ s) (hF : Part.Sub [.regs, .cores, .vecs, .gs, .link, .svc, .log, .noc] F) :
    Upd F s₀ (State.cartCredit s p e c) := by
  refine Upd.by_ h ?_ hF
  clear h hF
  revert s
  intro s₀
  have h := Upd.refl (F := [.regs, .cores, .vecs, .gs, .link, .svc, .log, .noc]) s₀
  delta State.cartCredit
  repeat' (first
    | with_reducible assumption
    | ((with_reducible apply Part.Sub.of); rfl)
    | (intro s; refine (fun h => ?_) (?_ : Upd [.regs, .cores, .vecs, .gs, .link, .svc, .log, .noc] s₀ s); rotate_left; subst s; rotate_left)
    | lift_lets -underBinder
    | with_reducible apply Upd.ite
    | with_reducible apply State.cartBack_upd
    | with_reducible apply State.pump_upd)

theorem execDrawbarCartRx_upd (core : Nat) (te : Nat) (found : EngFind) (s₀ : State) : ∃ t, execDrawbarCartRx core te found s₀ = .next t ∧ Upd [.regs, .hbm, .spm, .cores, .vecs, .xlate, .gs, .link, .svc, .log, .noc] s₀ t := by
  have h := Upd.refl (F := [.regs, .hbm, .spm, .cores, .vecs, .xlate, .gs, .link, .svc, .log, .noc]) s₀
  delta execDrawbarCartRx
  repeat' (first
    | with_reducible assumption
    | ((with_reducible apply Part.Sub.of); rfl)
    | (with_reducible refine EngUpd.ok ?_ ?_ (by with_reducible assumption))
    | (with_reducible refine EngUpd.err ?_ ?_ (by with_reducible assumption))
    | (intro q; refine (fun hq => ?_) (?_ : EngUpd [.regs, .hbm, .spm, .cores, .vecs, .xlate, .gs, .link, .svc, .log, .noc] s₀ q); rotate_left; subst q; rotate_left)
    | (intro s; refine (fun h => ?_) (?_ : Upd [.regs, .hbm, .spm, .cores, .vecs, .xlate, .gs, .link, .svc, .log, .noc] s₀ s); rotate_left; subst s; rotate_left)
    | (intro q; refine (fun hq => ?_) (?_ : ∀ x, EngUpd [.regs, .hbm, .spm, .cores, .vecs, .xlate, .gs, .link, .svc, .log, .noc] s₀ (q x)); rotate_left; subst q; intro x; rotate_left)
    | (intro s; have _h : List _ := s; clear _h; clear_value s)
    | intro s
    | lift_lets -underBinder
    | with_reducible apply hq
    | with_reducible apply Upd.ite
    | with_reducible apply EngUpd.ite
    | (with_reducible apply EngUpd.bind; case' hf => intro _)
    | with_reducible apply Upd.next
    | with_reducible apply State.meet_upd
    | with_reducible apply State.bump_upd
    | with_reducible apply State.qAwait_upd
    | with_reducible apply State.modSet_upd
    | with_reducible apply State.modTe_upd
    | with_reducible apply State.cartCredit_upd
    | with_reducible apply State.faultItem_upd
    | with_reducible apply tePort_upd
    | with_reducible apply takeCart_upd
    | split
    | exact Unit.unit)

theorem execBarCredit_upd (port : Nat) (m : Msg) (s₀ : State) : ∃ t, execBarCredit port m s₀ = .next t ∧ Upd [.regs, .cores, .vecs, .gs, .link, .svc, .log, .noc] s₀ t := by
  have h := Upd.refl (F := [.regs, .cores, .vecs, .gs, .link, .svc, .log, .noc]) s₀
  delta execBarCredit
  repeat' (first
    | with_reducible assumption
    | with_reducible exact Upd.refl _
    | ((with_reducible apply Part.Sub.of); rfl)
    | (intro s; refine (fun h => ?_) (?_ : Upd [.regs, .cores, .vecs, .gs, .link, .svc, .log, .noc] s₀ s); rotate_left; subst s; rotate_left)
    | (intro q; refine (fun hq => ?_) (?_ : ∀ s, Upd [.regs, .cores, .vecs, .gs, .link, .svc, .log, .noc] s₀ s → Upd [.regs, .cores, .vecs, .gs, .link, .svc, .log, .noc] s₀ (q s)); rotate_left; subst q; intro s h; rotate_left)
    | (intro q; refine (fun hq => ?_) (?_ : ∀ s x, Upd [.regs, .cores, .vecs, .gs, .link, .svc, .log, .noc] s₀ s → Upd [.regs, .cores, .vecs, .gs, .link, .svc, .log, .noc] s₀ (q s x)); rotate_left; subst q; intro s x h; rotate_left)
    | (intro q; refine (fun hq => ?_) (?_ : ∀ x s, Upd [.regs, .cores, .vecs, .gs, .link, .svc, .log, .noc] s₀ s → Upd [.regs, .cores, .vecs, .gs, .link, .svc, .log, .noc] s₀ (q x s)); rotate_left; subst q; intro x s h; rotate_left)
    | (intro s; have _h : Option _ := s; clear _h; clear_value s)
    | (intro s; have _h : List _ := s; clear _h; clear_value s)
    | intro s
    | lift_lets -underBinder
    | with_reducible apply hq
    | with_reducible apply Upd.ite
    | with_reducible apply Upd.next
    | (with_reducible apply Upd.link; case h => with_reducible assumption)
    | with_reducible apply State.pumpRemote_upd
    | (with_reducible apply State.arrive_upd; case' hown => intro _ h)
    | split)


end Sys2Proof.Machine
end

