-- ==== Sys2Proof/Laws/UpdExpander.lean ====
section
/-!
SUPPORT. What each operation of Machine/Expander.lean may change.
-/
namespace Sys2Proof.Machine

theorem State.takeRef_upd {F : List Part} {s₀ s t : State} {entry : List Byte} (h : Upd F s₀ s)
    (e : s.takeRef entry = some t) (hF : Part.Sub [.regs] F) : Upd F s₀ t := by
  unfold State.takeRef at e
  dsimp only at e
  split at e
  · cases e
    exact State.bump_upd _ _ _ h (Part.Sub.trans (Part.Sub.of rfl) hF)
  · cases e

theorem bindBlock_upd {F : List Part} {s₀ : State} (p : Nat) (e : Nat) (t : TdItem) (blk : Nat) (attempt : Nat) (tile : Nat) (entry : List Byte) (hF : Part.Sub [.regs] F) : EngUpd F s₀ (bindBlock p e t blk attempt tile entry) := by
  refine EngUpd.by_ (fun s₀ => ?_) hF
  have h := Upd.refl (F := [.regs]) s₀
  delta bindBlock
  repeat' (first
    | with_reducible assumption
    | ((with_reducible apply Part.Sub.of); rfl)
    | (with_reducible apply State.takeRef_upd; (case e => assumption))
    | lift_lets -underBinder
    | with_reducible apply EngUpd.pure
    | with_reducible apply EngUpd.throw
    | with_reducible apply EngUpd.ite
    | (with_reducible apply EngUpd.getBind; intro _ h)
    | with_reducible apply EngUpd.set
    | split)

theorem State.modBlk_upd {F : List Part} {s₀ s : State} (p : Nat) (e : Nat) (b : Nat) (f : XBlock → XBlock) (h : Upd F s₀ s) (hF : Part.Sub [.cores] F) :
    Upd F s₀ (State.modBlk s p e b f) := by
  refine Upd.by_ h ?_ hF
  clear h hF
  revert s
  intro s₀
  have h := Upd.refl (F := [.cores]) s₀
  delta State.modBlk
  repeat' (first
    | with_reducible assumption
    | ((with_reducible apply Part.Sub.of); rfl)
    | with_reducible apply State.modXe_upd)

theorem bindStaged_upd {F : List Part} {s₀ : State} (p : Nat) (e : Nat) (t : TdItem) (k : Nat) (base : Nat) (hF : Part.Sub [.regs, .cores] F) : EngUpd F s₀ (bindStaged p e t k base) := by
  refine EngUpd.by_ (fun s₀ => ?_) hF
  have h := Upd.refl (F := [.regs, .cores]) s₀
  delta bindStaged
  repeat' (first
    | with_reducible assumption
    | ((with_reducible apply Part.Sub.of); rfl)
    | (intro q; refine (fun hq => ?_) (?_ : ∀ x, EngUpd [.regs, .cores] s₀ (q x)); rotate_left; subst q; intro x; rotate_left)
    | intro s
    | lift_lets -underBinder
    | with_reducible apply hq
    | with_reducible apply EngUpd.throw
    | with_reducible apply EngUpd.ite
    | (with_reducible apply EngUpd.bind; case' hf => intro _)
    | (with_reducible apply EngUpd.modify; intro _ h)
    | (with_reducible apply EngUpd.forM; intro _)
    | with_reducible apply State.modBlk_upd
    | with_reducible apply spmReadAs_upd
    | with_reducible apply bindBlock_upd
    | exact Unit.unit)

theorem beginTile_upd {F : List Part} {s₀ : State} (p : Nat) (e : Nat) (i : Nat) (t : TdItem) (ld : Load) (hF : Part.Sub [.regs, .cores] F) : EngUpd F s₀ (beginTile p e i t ld) := by
  refine EngUpd.by_ (fun s₀ => ?_) hF
  have h := Upd.refl (F := [.regs, .cores]) s₀
  delta beginTile
  repeat' (first
    | with_reducible assumption
    | ((with_reducible apply Part.Sub.of); rfl)
    | (intro q; refine (fun hq => ?_) (?_ : ∀ x, EngUpd [.regs, .cores] s₀ (q x)); rotate_left; subst q; intro x; rotate_left)
    | lift_lets -underBinder
    | with_reducible apply hq
    | (with_reducible apply Upd.foldl; case' hf => intro _ _ h)
    | with_reducible apply EngUpd.throw
    | with_reducible apply EngUpd.ite
    | (with_reducible apply EngUpd.bind; case' hf => intro _)
    | (with_reducible apply EngUpd.modify; intro _ h)
    | with_reducible apply State.modXe_upd
    | with_reducible apply State.modItem_upd
    | with_reducible apply State.queueDesc_upd
    | with_reducible apply bindStaged_upd
    | split
    | exact Unit.unit)

theorem execXeTileStart_upd (core : Nat) (te : UnitAt) (idx : Nat) (s₀ : State) : ∃ t, execXeTileStart core te idx s₀ = .next t ∧ Upd [.regs, .hbm, .spm, .cores, .vecs, .gs, .link, .svc, .log, .noc] s₀ t := by
  have h := Upd.refl (F := [.regs, .hbm, .spm, .cores, .vecs, .gs, .link, .svc, .log, .noc]) s₀
  delta execXeTileStart
  repeat' (first
    | with_reducible assumption
    | with_reducible exact Upd.refl _
    | ((with_reducible apply Part.Sub.of); rfl)
    | (intro s; refine (fun h => ?_) (?_ : Upd [.regs, .hbm, .spm, .cores, .vecs, .gs, .link, .svc, .log, .noc] s₀ s); rotate_left; subst s; rotate_left)
    | (intro q; refine (fun hq => ?_) (?_ : ∀ s, Upd [.regs, .hbm, .spm, .cores, .vecs, .gs, .link, .svc, .log, .noc] s₀ s → Upd [.regs, .hbm, .spm, .cores, .vecs, .gs, .link, .svc, .log, .noc] s₀ (q s)); rotate_left; subst q; intro s h; rotate_left)
    | (intro q; refine (fun hq => ?_) (?_ : ∀ s x, Upd [.regs, .hbm, .spm, .cores, .vecs, .gs, .link, .svc, .log, .noc] s₀ s → Upd [.regs, .hbm, .spm, .cores, .vecs, .gs, .link, .svc, .log, .noc] s₀ (q s x)); rotate_left; subst q; intro s x h; rotate_left)
    | (intro q; refine (fun hq => ?_) (?_ : ∀ x s, Upd [.regs, .hbm, .spm, .cores, .vecs, .gs, .link, .svc, .log, .noc] s₀ s → Upd [.regs, .hbm, .spm, .cores, .vecs, .gs, .link, .svc, .log, .noc] s₀ (q x s)); rotate_left; subst q; intro x s h; rotate_left)
    | (intro q; refine (fun hq => ?_) (?_ : ∀ x, EngUpd [.regs, .hbm, .spm, .cores, .vecs, .gs, .link, .svc, .log, .noc] s₀ (q x)); rotate_left; subst q; intro x; rotate_left)
    | (intro s; have _h : Option _ := s; clear _h; clear_value s)
    | (intro s; have _h : List _ := s; clear _h; clear_value s)
    | intro s
    | lift_lets -underBinder
    | with_reducible apply hq
    | with_reducible apply Upd.ite
    | with_reducible apply EngUpd.pure
    | with_reducible apply EngUpd.throw
    | with_reducible apply EngUpd.ite
    | (with_reducible apply EngUpd.getBind; intro _ h)
    | (with_reducible apply EngUpd.bind; case' hf => intro _)
    | with_reducible apply EngUpd.set
    | (with_reducible apply EngUpd.modify; intro _ h)
    | with_reducible apply Upd.next
    | with_reducible apply State.meet_upd
    | with_reducible apply State.issued_upd
    | (with_reducible apply State.work_upd)
    | with_reducible apply beginTile_upd
    | split
    | exact Unit.unit)


theorem State.weightCarts_upd {F : List Part} {s₀ s : State} (p : Nat) (e : Nat) (y : XBlock) (h : Upd F s₀ s) (hF : Part.Sub [.noc] F) :
    Upd F s₀ (State.weightCarts s p e y) := by
  refine Upd.by_ h ?_ hF
  clear h hF
  revert s
  intro s₀
  have h := Upd.refl (F := [.noc]) s₀
  delta State.weightCarts
  repeat' (first
    | with_reducible assumption
    | ((with_reducible apply Part.Sub.of); rfl)
    | intro s
    | lift_lets -underBinder
    | with_reducible apply State.qPut_upd
    | with_reducible apply State.qLeave_upd)

theorem failBlock_upd {F : List Part} {s₀ : State} (p : Nat) (e : Nat) (t : TdItem) (x : Xe) (b : Nat) (y : XBlock) (cause : Nat) (lane : Nat) (wait : Nat) (hF : Part.Sub [.regs, .cores, .noc] F) : EngUpd F s₀ (failBlock p e t x b y cause lane wait) := by
  refine EngUpd.by_ (fun s₀ => ?_) hF
  have h := Upd.refl (F := [.regs, .cores, .noc]) s₀
  delta failBlock
  repeat' (first
    | with_reducible assumption
    | ((with_reducible apply Part.Sub.of); rfl)
    | (intro s; refine (fun h => ?_) (?_ : Upd [.regs, .cores, .noc] s₀ s); rotate_left; subst s; rotate_left)
    | (intro q; refine (fun hq => ?_) (?_ : ∀ x, EngUpd [.regs, .cores, .noc] s₀ (q x)); rotate_left; subst q; intro x; rotate_left)
    | intro s
    | lift_lets -underBinder
    | with_reducible apply hq
    | with_reducible apply EngUpd.pure
    | with_reducible apply EngUpd.throw
    | with_reducible apply EngUpd.ite
    | (with_reducible apply EngUpd.getBind; intro _ h)
    | (with_reducible apply EngUpd.bind; case' hf => intro _)
    | with_reducible apply EngUpd.set
    | (with_reducible apply EngUpd.modify; intro _ h)
    | with_reducible apply State.bump_upd
    | with_reducible apply State.capture_upd
    | with_reducible apply State.weightCarts_upd
    | with_reducible apply State.modBlk_upd
    | with_reducible apply State.queueDesc_upd
    | exact Unit.unit)

theorem State.passBlock_upd {F : List Part} {s₀ s : State} (p : Nat) (e : Nat) (b : Nat) (stall : Nat) (y : XBlock) (raw : List Byte) (h : Upd F s₀ s) (hF : Part.Sub [.regs, .cores, .noc] F) :
    Upd F s₀ (State.passBlock s p e b stall y raw) := by
  refine Upd.by_ h ?_ hF
  clear h hF
  revert s
  intro s₀
  have h := Upd.refl (F := [.regs, .cores, .noc]) s₀
  delta State.passBlock
  repeat' (first
    | with_reducible assumption
    | ((with_reducible apply Part.Sub.of); rfl)
    | (intro s; refine (fun h => ?_) (?_ : Upd [.regs, .cores, .noc] s₀ s); rotate_left; subst s; rotate_left)
    | intro s
    | lift_lets -underBinder
    | with_reducible apply Upd.ite
    | with_reducible apply State.releaseBlocks_upd
    | with_reducible apply State.weightCarts_upd
    | with_reducible apply State.bump_upd
    | with_reducible apply State.modXe_upd
    | with_reducible apply State.modBlk_upd
    | with_reducible apply State.qPut_upd
    | with_reducible apply State.modTe_upd)

theorem readPayload_upd {F : List Part} {s₀ : State} (p : Nat) (t : TdItem) (f : EngFind) (hF : Part.Sub [.regs] F) : EngUpd F s₀ (readPayload p t f) := by
  refine EngUpd.by_ (fun s₀ => ?_) hF
  have h := Upd.refl (F := [.regs]) s₀
  delta readPayload
  repeat' (first
    | with_reducible assumption
    | ((with_reducible apply Part.Sub.of); rfl)
    | lift_lets -underBinder
    | with_reducible apply EngUpd.pure
    | with_reducible apply EngUpd.throw
    | with_reducible apply EngUpd.ite
    | (with_reducible apply EngUpd.bind; case' hf => intro _)
    | (with_reducible apply EngUpd.modify; intro _ h)
    | with_reducible apply State.bump_upd)

theorem execXeBlockDone_upd (core : Nat) (te : UnitAt) (stall : Nat) (s₀ : State) : ∃ t, execXeBlockDone core te stall s₀ = .next t ∧ Upd [.regs, .cores, .vecs, .gs, .link, .svc, .log, .noc] s₀ t := by
  have h := Upd.refl (F := [.regs, .cores, .vecs, .gs, .link, .svc, .log, .noc]) s₀
  delta execXeBlockDone
  repeat' (first
    | with_reducible assumption
    | with_reducible exact Upd.refl _
    | ((with_reducible apply Part.Sub.of); rfl)
    | (intro s; refine (fun h => ?_) (?_ : Upd [.regs, .cores, .vecs, .gs, .link, .svc, .log, .noc] s₀ s); rotate_left; subst s; rotate_left)
    | (intro q; refine (fun hq => ?_) (?_ : ∀ s, Upd [.regs, .cores, .vecs, .gs, .link, .svc, .log, .noc] s₀ s → Upd [.regs, .cores, .vecs, .gs, .link, .svc, .log, .noc] s₀ (q s)); rotate_left; subst q; intro s h; rotate_left)
    | (intro q; refine (fun hq => ?_) (?_ : ∀ s x, Upd [.regs, .cores, .vecs, .gs, .link, .svc, .log, .noc] s₀ s → Upd [.regs, .cores, .vecs, .gs, .link, .svc, .log, .noc] s₀ (q s x)); rotate_left; subst q; intro s x h; rotate_left)
    | (intro q; refine (fun hq => ?_) (?_ : ∀ x s, Upd [.regs, .cores, .vecs, .gs, .link, .svc, .log, .noc] s₀ s → Upd [.regs, .cores, .vecs, .gs, .link, .svc, .log, .noc] s₀ (q x s)); rotate_left; subst q; intro x s h; rotate_left)
    | (intro q; refine (fun hq => ?_) (?_ : ∀ x, EngUpd [.regs, .cores, .vecs, .gs, .link, .svc, .log, .noc] s₀ (q x)); rotate_left; subst q; intro x; rotate_left)
    | (intro s; have _h : Option _ := s; clear _h; clear_value s)
    | (intro s; have _h : List _ := s; clear _h; clear_value s)
    | intro s
    | lift_lets -underBinder
    | with_reducible apply hq
    | with_reducible apply Upd.ite
    | with_reducible apply EngUpd.pure
    | with_reducible apply EngUpd.throw
    | with_reducible apply EngUpd.ite
    | (with_reducible apply EngUpd.getBind; intro _ h)
    | (with_reducible apply EngUpd.bind; case' hf => intro _)
    | with_reducible apply EngUpd.set
    | (with_reducible apply EngUpd.modify; intro _ h)
    | with_reducible apply Upd.next
    | with_reducible apply State.bump_upd
    | (with_reducible apply State.work_upd)
    | with_reducible apply State.passBlock_upd
    | with_reducible apply readPayload_upd
    | with_reducible apply failBlock_upd
    | split
    | exact Unit.unit)


theorem readCart_upd {F : List Part} {s₀ : State} (p : Nat) (t : TdItem) (g : GeList) (hF : Part.Sub [.regs, .cores] F) : EngUpd F s₀ (readCart p t g) := by
  refine EngUpd.by_ (fun s₀ => ?_) hF
  have h := Upd.refl (F := [.regs, .cores]) s₀
  delta readCart
  repeat' (first
    | with_reducible assumption
    | ((with_reducible apply Part.Sub.of); rfl)
    | intro s
    | lift_lets -underBinder
    | with_reducible apply EngUpd.throw
    | with_reducible apply EngUpd.ite
    | (with_reducible apply EngUpd.bind; case' hf => intro _)
    | (with_reducible apply EngUpd.modify; intro _ h)
    | with_reducible apply State.bump_upd
    | with_reducible apply State.modGe_upd
    | with_reducible apply State.queueDesc_upd
    | with_reducible apply State.stageCarts_upd
    | with_reducible apply spmReadAs_upd)

theorem execGeCartRead_upd (core : UnitAt) (idx : Nat) (ove : Nat) (tile : Nat) (s₀ : State) : ∃ t, execGeCartRead core idx ove tile s₀ = .next t ∧ Upd [.regs, .hbm, .spm, .cores, .vecs, .gs, .link, .svc, .log, .noc] s₀ t := by
  have h := Upd.refl (F := [.regs, .hbm, .spm, .cores, .vecs, .gs, .link, .svc, .log, .noc]) s₀
  delta execGeCartRead
  repeat' (first
    | with_reducible assumption
    | with_reducible exact Upd.refl _
    | ((with_reducible apply Part.Sub.of); rfl)
    | (intro s; refine (fun h => ?_) (?_ : Upd [.regs, .hbm, .spm, .cores, .vecs, .gs, .link, .svc, .log, .noc] s₀ s); rotate_left; subst s; rotate_left)
    | (intro q; refine (fun hq => ?_) (?_ : ∀ s, Upd [.regs, .hbm, .spm, .cores, .vecs, .gs, .link, .svc, .log, .noc] s₀ s → Upd [.regs, .hbm, .spm, .cores, .vecs, .gs, .link, .svc, .log, .noc] s₀ (q s)); rotate_left; subst q; intro s h; rotate_left)
    | (intro q; refine (fun hq => ?_) (?_ : ∀ s x, Upd [.regs, .hbm, .spm, .cores, .vecs, .gs, .link, .svc, .log, .noc] s₀ s → Upd [.regs, .hbm, .spm, .cores, .vecs, .gs, .link, .svc, .log, .noc] s₀ (q s x)); rotate_left; subst q; intro s x h; rotate_left)
    | (intro q; refine (fun hq => ?_) (?_ : ∀ x s, Upd [.regs, .hbm, .spm, .cores, .vecs, .gs, .link, .svc, .log, .noc] s₀ s → Upd [.regs, .hbm, .spm, .cores, .vecs, .gs, .link, .svc, .log, .noc] s₀ (q x s)); rotate_left; subst q; intro x s h; rotate_left)
    | (intro q; refine (fun hq => ?_) (?_ : ∀ x, EngUpd [.regs, .hbm, .spm, .cores, .vecs, .gs, .link, .svc, .log, .noc] s₀ (q x)); rotate_left; subst q; intro x; rotate_left)
    | (intro s; have _h : Option _ := s; clear _h; clear_value s)
    | (intro s; have _h : List _ := s; clear _h; clear_value s)
    | intro s
    | lift_lets -underBinder
    | with_reducible apply hq
    | with_reducible apply Upd.ite
    | with_reducible apply EngUpd.pure
    | with_reducible apply EngUpd.throw
    | with_reducible apply EngUpd.ite
    | (with_reducible apply EngUpd.getBind; intro _ h)
    | (with_reducible apply EngUpd.bind; case' hf => intro _)
    | with_reducible apply EngUpd.set
    | (with_reducible apply EngUpd.modify; intro _ h)
    | with_reducible apply Upd.next
    | with_reducible apply State.stageCarts_upd
    | with_reducible apply State.meet_upd
    | (with_reducible apply State.work_upd)
    | with_reducible apply readCart_upd
    | split
    | exact Unit.unit)


end Sys2Proof.Machine
end

