-- ==== Sys2Proof/Laws/UpdDma.lean ====
section
/-!
SUPPORT. What each operation of Machine/Dma.lean may change.
-/
namespace Sys2Proof.Machine

theorem State.takeTag_upd {F : List Part} {s₀ s : State} (p : Nat) (g : Tag) (h : Upd F s₀ s) (hF : Part.Sub [.cores] F) :
    Upd F s₀ (State.takeTag s p g) := by
  refine Upd.by_ h ?_ hF
  clear h hF
  revert s
  intro s₀
  have h := Upd.refl (F := [.cores]) s₀
  delta State.takeTag
  repeat' (first
    | with_reducible assumption
    | ((with_reducible apply Part.Sub.of); rfl)
    | with_reducible apply State.modCore_upd)

theorem State.putBack_upd {F : List Part} {s₀ s : State} (p : Nat) (d : Desc) (h : Upd F s₀ s) (hF : Part.Sub [.cores] F) :
    Upd F s₀ (State.putBack s p d) := by
  refine Upd.by_ h ?_ hF
  clear h hF
  revert s
  intro s₀
  have h := Upd.refl (F := [.cores]) s₀
  delta State.putBack
  repeat' (first
    | with_reducible assumption
    | ((with_reducible apply Part.Sub.of); rfl)
    | with_reducible apply State.modCore_upd)

theorem State.descDone_upd {F : List Part} {s₀ s : State} (p : Nat) (d : Desc) (h : Upd F s₀ s) (hF : Part.Sub [.regs] F) :
    Upd F s₀ (State.descDone s p d) := by
  refine Upd.by_ h ?_ hF
  clear h hF
  revert s
  intro s₀
  have h := Upd.refl (F := [.regs]) s₀
  delta State.descDone
  repeat' (first
    | with_reducible assumption
    | ((with_reducible apply Part.Sub.of); rfl)
    | with_reducible apply Upd.ite
    | with_reducible apply State.bump_upd)

theorem reachDesc_upd {F : List Part} {s₀ : State} (p : Nat) (t : TdItem) (d : Desc) (a : Nat) (n : Nat) (write : Bool) (hF : Part.Sub [.regs, .xlate] F) : EngUpd F s₀ (reachDesc p t d a n write) := by
  refine EngUpd.by_ (fun s₀ => ?_) hF
  have h := Upd.refl (F := [.regs, .xlate]) s₀
  delta reachDesc
  repeat' (first
    | with_reducible assumption
    | ((with_reducible apply Part.Sub.of); rfl)
    | (intro s; refine (fun h => ?_) (?_ : Upd1 [.regs, .xlate] s₀ s); rotate_left; subst s; rotate_left)
    | lift_lets -underBinder
    | with_reducible apply EngUpd.pure
    | with_reducible apply EngUpd.throw
    | (with_reducible apply EngUpd.getBind; intro _ h)
    | (with_reducible apply EngUpd.bind; case' hf => intro _)
    | with_reducible apply EngUpd.set
    | (with_reducible apply EngUpd.mapM; intro _)
    | with_reducible apply State.reach_upd
    | with_reducible apply Upd1.fst
    | split)

theorem entryRead_upd {F : List Part} {s₀ : State} (p : Nat) (t : TdItem) (d : Desc) (bad : Flt) (hF : Part.Sub [.regs, .hbm, .cores, .vecs, .xlate, .gs, .link, .svc, .log] F) : EngUpd F s₀ (entryRead p t d bad) := by
  refine EngUpd.by_ (fun s₀ => ?_) hF
  have h := Upd.refl (F := [.regs, .hbm, .cores, .vecs, .xlate, .gs, .link, .svc, .log]) s₀
  delta entryRead
  repeat' (first
    | with_reducible assumption
    | ((with_reducible apply Part.Sub.of); rfl)
    | intro s
    | lift_lets -underBinder
    | with_reducible apply EngUpd.pure
    | with_reducible apply EngUpd.ite
    | (with_reducible apply EngUpd.bind; case' hf => intro _)
    | (with_reducible apply EngUpd.modify; intro _ h)
    | with_reducible apply State.modCore_upd
    | with_reducible apply fineRead_upd)

theorem issueBlock_upd {F : List Part} {s₀ : State} (p : Nat) (t : TdItem) (d : Desc) (hF : Part.Sub [.regs, .hbm, .cores, .vecs, .xlate, .gs, .link, .svc, .log, .noc] F) : EngUpd F s₀ (issueBlock p t d) := by
  refine EngUpd.by_ (fun s₀ => ?_) hF
  have h := Upd.refl (F := [.regs, .hbm, .cores, .vecs, .xlate, .gs, .link, .svc, .log, .noc]) s₀
  delta issueBlock
  repeat' (first
    | with_reducible assumption
    | ((with_reducible apply Part.Sub.of); rfl)
    | (intro q; refine (fun hq => ?_) (?_ : ∀ x, EngUpd [.regs, .hbm, .cores, .vecs, .xlate, .gs, .link, .svc, .log, .noc] s₀ (q x)); rotate_left; subst q; intro x; rotate_left)
    | intro s
    | lift_lets -underBinder
    | with_reducible apply hq
    | with_reducible apply EngUpd.throw
    | with_reducible apply EngUpd.ite
    | (with_reducible apply EngUpd.getBind; intro _ h)
    | (with_reducible apply EngUpd.bind; case' hf => intro _)
    | with_reducible apply EngUpd.set
    | (with_reducible apply EngUpd.modify; intro _ h)
    | with_reducible apply State.putBack_upd
    | with_reducible apply State.releaseBlocks_upd
    | with_reducible apply State.modBlk_upd
    | with_reducible apply State.bulkSend_upd
    | with_reducible apply State.takeTag_upd
    | with_reducible apply entryRead_upd
    | with_reducible apply reachDesc_upd
    | with_reducible apply bindBlock_upd
    | exact Unit.unit)

theorem spmSource_upd {F : List Part} {s₀ : State} (p : Nat) (t : TdItem) (off n : Nat) (hF : Part.Sub [.regs] F) :
    EngUpd F s₀ (spmSource p t off n) := by
  refine ⟨fun s h => ?_⟩
  have k := (spmRead_upd (s₀ := s₀) p t.coach t.graph off n hF).after s h
  unfold Eng.after at k ⊢
  unfold spmSource
  cases e : spmRead p t.coach t.graph off n s with
  | ok a u => rw [e] at k; exact k
  | error f u =>
    rw [e] at k
    dsimp only
    split
    next v hv => split at hv <;> cases hv <;> exact k
    next v hv => split at hv <;> cases hv <;> exact k

theorem State.hostChunk_upd {F : List Part} {s₀ s : State} (p : Nat) (i : Nat) (d : Desc) (n : Nat) (h : Upd F s₀ s) (hF : Part.Sub [.regs, .cores, .link, .noc] F) :
    Upd F s₀ (State.hostChunk s p i d n) := by
  refine Upd.by_ h ?_ hF
  clear h hF
  revert s
  intro s₀
  have h := Upd.refl (F := [.regs, .cores, .link, .noc]) s₀
  delta State.hostChunk
  repeat' (first
    | with_reducible assumption
    | ((with_reducible apply Part.Sub.of); rfl)
    | (intro s; refine (fun h => ?_) (?_ : Upd [.regs, .cores, .link, .noc] s₀ s); rotate_left; subst s; rotate_left)
    | intro s
    | lift_lets -underBinder
    | (with_reducible apply Upd.foldl; case' hf => intro _ _ h)
    | with_reducible apply State.qSend_upd
    | with_reducible apply State.qLeave_upd
    | with_reducible apply State.takeTag_upd
    | with_reducible apply State.request_upd
    | with_reducible apply State.modItem_upd
    | split)

theorem issueChunks_upd {F : List Part} {s₀ : State} (p i : Nat) (t : TdItem) (f : Nat) (d : Desc) (hF : Part.Sub [.regs, .cores, .xlate, .link, .noc] F) :
    EngUpd F s₀ (issueChunks p i t f d) := by
  have hc : Part.Sub [.cores] F := (Part.Sub.trans (Part.Sub.of rfl) hF)
  induction f generalizing d with
  | zero => exact EngUpd.modify fun _ h => State.putBack_upd _ _ h hc
  | succ f ih =>
    unfold issueChunks
    refine EngUpd.getBind fun s h => ?_
    refine EngUpd.ite (EngUpd.pure _) (EngUpd.ite (EngUpd.set (State.putBack_upd _ _ h hc)) ?_)
    dsimp only
    refine EngUpd.ite (EngUpd.bind (EngUpd.set (State.hostChunk_upd _ _ _ _ h (Part.Sub.trans (Part.Sub.of rfl) hF))) fun _ => ih _) ?_
    have hrest (src : List Byte × List Nat) : EngUpd F s₀ (do
        let ps ← reachDesc p t d (d.mem + d.done) (min 4096 (d.len - d.done)) (d.op == 1)
        let s ← get
        if s.bulkRoom p ps (d.op == 1) = false then set (s.putBack p d)
        else
          set ((s.bulkSend p ps (d.op == 1)).takeTag p
            { desc := d, off := d.done, len := min 4096 (d.len - d.done), pieces := ps, data := src.1, bad := src.2 })
          match src.2 with
          | [] => issueChunks p i t f { d with done := d.done + min 4096 (d.len - d.done) }
          | b :: _ => throw (spmFlt p 0x53 (d.spm + d.done + b) t.coach t.graph)) := by
      refine EngUpd.bind (reachDesc_upd _ _ _ _ _ _ (Part.Sub.trans (Part.Sub.of rfl) hF)) fun _ => EngUpd.getBind fun u k => ?_
      refine EngUpd.ite (EngUpd.set (State.putBack_upd _ _ k hc)) (EngUpd.bind (EngUpd.set (State.takeTag_upd _ _
        (State.bulkSend_upd _ _ _ k (Part.Sub.trans (Part.Sub.of rfl) hF)) hc)) fun _ => ?_)
      split
      · exact ih _
      · exact EngUpd.throw _
    split
    · exact EngUpd.bind (spmSource_upd _ _ _ _ (Part.Sub.trans (Part.Sub.of rfl) hF)) hrest
    · exact EngUpd.bind (EngUpd.pure _) hrest

theorem issueFineWrite_upd {F : List Part} {s₀ : State} (p : Nat) (t : TdItem) (d : Desc) (hF : Part.Sub [.regs, .hbm, .vecs, .xlate, .gs, .link, .svc, .log] F) : EngUpd F s₀ (issueFineWrite p t d) := by
  refine EngUpd.by_ (fun s₀ => ?_) hF
  have h := Upd.refl (F := [.regs, .hbm, .vecs, .xlate, .gs, .link, .svc, .log]) s₀
  delta issueFineWrite
  repeat' (first
    | with_reducible assumption
    | ((with_reducible apply Part.Sub.of); rfl)
    | (intro s; refine (fun h => ?_) (?_ : Upd1 [.regs, .hbm, .vecs, .xlate, .gs, .link, .svc, .log] s₀ s); rotate_left; subst s; rotate_left)
    | (intro s; have _h : List _ := s; clear _h; clear_value s)
    | lift_lets -underBinder
    | with_reducible apply EngUpd.pure
    | (with_reducible apply EngUpd.getBind; intro _ h)
    | (with_reducible apply EngUpd.bind; case' hf => intro _)
    | with_reducible apply EngUpd.set
    | (with_reducible apply EngUpd.modify; intro _ h)
    | (with_reducible apply EngUpd.foldlM; intro _ _)
    | with_reducible apply State.mcWrite_upd
    | with_reducible apply State.bump_upd
    | with_reducible apply spmSource_upd
    | with_reducible apply reachDesc_upd
    | with_reducible apply Upd1.fst)

theorem issueDesc_upd {F : List Part} {s₀ : State} (p : Nat) (i : Nat) (t : TdItem) (d : Desc) (hF : Part.Sub [.regs, .hbm, .spm, .cores, .vecs, .xlate, .gs, .link, .svc, .log, .noc] F) : EngUpd F s₀ (issueDesc p i t d) := by
  refine EngUpd.by_ (fun s₀ => ?_) hF
  have h := Upd.refl (F := [.regs, .hbm, .spm, .cores, .vecs, .xlate, .gs, .link, .svc, .log, .noc]) s₀
  delta issueDesc
  repeat' (first
    | with_reducible assumption
    | ((with_reducible apply Part.Sub.of); rfl)
    | (intro q; refine (fun hq => ?_) (?_ : ∀ x, EngUpd [.regs, .hbm, .spm, .cores, .vecs, .xlate, .gs, .link, .svc, .log, .noc] s₀ (q x)); rotate_left; subst q; intro x; rotate_left)
    | lift_lets -underBinder
    | with_reducible apply hq
    | with_reducible apply EngUpd.throw
    | with_reducible apply EngUpd.ite
    | (with_reducible apply EngUpd.bind; case' hf => intro _)
    | (with_reducible apply EngUpd.modify; intro _ h)
    | with_reducible apply State.spmWrite_upd
    | with_reducible apply State.bump_upd
    | with_reducible apply issueBlock_upd
    | with_reducible apply fineRead_upd
    | with_reducible apply issueFineWrite_upd
    | with_reducible apply issueChunks_upd
    | exact Unit.unit)

theorem execDmaDescriptorIssue_upd (core : UnitAt) (waitTag : Nat) (waitCred : Nat) (s₀ : State) : ∃ t, execDmaDescriptorIssue core waitTag waitCred s₀ = .next t ∧ Upd [.regs, .hbm, .spm, .cores, .vecs, .xlate, .gs, .link, .svc, .log, .noc] s₀ t := by
  have h := Upd.refl (F := [.regs, .hbm, .spm, .cores, .vecs, .xlate, .gs, .link, .svc, .log, .noc]) s₀
  delta execDmaDescriptorIssue
  repeat' (first
    | with_reducible assumption
    | with_reducible exact Upd.refl _
    | ((with_reducible apply Part.Sub.of); rfl)
    | (intro s; refine (fun h => ?_) (?_ : Upd [.regs, .hbm, .spm, .cores, .vecs, .xlate, .gs, .link, .svc, .log, .noc] s₀ s); rotate_left; subst s; rotate_left)
    | (intro q; refine (fun hq => ?_) (?_ : ∀ s, Upd [.regs, .hbm, .spm, .cores, .vecs, .xlate, .gs, .link, .svc, .log, .noc] s₀ s → Upd [.regs, .hbm, .spm, .cores, .vecs, .xlate, .gs, .link, .svc, .log, .noc] s₀ (q s)); rotate_left; subst q; intro s h; rotate_left)
    | (intro q; refine (fun hq => ?_) (?_ : ∀ s x, Upd [.regs, .hbm, .spm, .cores, .vecs, .xlate, .gs, .link, .svc, .log, .noc] s₀ s → Upd [.regs, .hbm, .spm, .cores, .vecs, .xlate, .gs, .link, .svc, .log, .noc] s₀ (q s x)); rotate_left; subst q; intro s x h; rotate_left)
    | (intro q; refine (fun hq => ?_) (?_ : ∀ x s, Upd [.regs, .hbm, .spm, .cores, .vecs, .xlate, .gs, .link, .svc, .log, .noc] s₀ s → Upd [.regs, .hbm, .spm, .cores, .vecs, .xlate, .gs, .link, .svc, .log, .noc] s₀ (q x s)); rotate_left; subst q; intro x s h; rotate_left)
    | (intro q; refine (fun hq => ?_) (?_ : ∀ x, EngUpd [.regs, .hbm, .spm, .cores, .vecs, .xlate, .gs, .link, .svc, .log, .noc] s₀ (q x)); rotate_left; subst q; intro x; rotate_left)
    | (intro s; have _h : Option _ := s; clear _h; clear_value s)
    | (intro s; have _h : List _ := s; clear _h; clear_value s)
    | intro s
    | lift_lets -underBinder
    | with_reducible apply hq
    | with_reducible apply Upd.ite
    | with_reducible apply EngUpd.pure
    | with_reducible apply EngUpd.throw
    | with_reducible apply EngUpd.ite
    | (with_reducible apply EngUpd.getBind; intro _ h)
    | (with_reducible apply EngUpd.bind; case' hf => intro _)
    | with_reducible apply EngUpd.set
    | (with_reducible apply EngUpd.modify; intro _ h)
    | with_reducible apply Upd.next
    | with_reducible apply State.meet_upd
    | with_reducible apply State.bump_upd
    | with_reducible apply State.modCore_upd
    | (with_reducible apply State.work_upd)
    | with_reducible apply State.stageCarts_upd
    | with_reducible apply issueDesc_upd
    | split
    | exact Unit.unit)


theorem State.landChunk_upd {F : List Part} {s₀ s : State} (p : Nat) (d : Desc) (off : Nat) (data : List Byte) (bad : List Nat) (h : Upd F s₀ s) (hF : Part.Sub [.regs, .spm, .cores] F) :
    Upd F s₀ (State.landChunk s p d off data bad) := by
  refine Upd.by_ h ?_ hF
  clear h hF
  revert s
  intro s₀
  have h := Upd.refl (F := [.regs, .spm, .cores]) s₀
  delta State.landChunk
  repeat' (first
    | with_reducible assumption
    | ((with_reducible apply Part.Sub.of); rfl)
    | intro s
    | lift_lets -underBinder
    | with_reducible apply Upd.ite
    | with_reducible apply State.modBlk_upd
    | with_reducible apply State.spmWrite_upd
    | with_reducible apply State.spmPoison_upd)

theorem execDmaChunkDone_upd (core : Nat) (tag : Nat) (s₀ : State) : ∃ t, execDmaChunkDone core tag s₀ = .next t ∧ Upd [.regs, .spm, .cores, .vecs, .mbox, .inprog, .gs, .link, .svc, .log, .noc] s₀ t := by
  have h := Upd.refl (F := [.regs, .spm, .cores, .vecs, .mbox, .inprog, .gs, .link, .svc, .log, .noc]) s₀
  delta execDmaChunkDone
  repeat' (first
    | with_reducible assumption
    | ((with_reducible apply Part.Sub.of); rfl)
    | (intro s; refine (fun h => ?_) (?_ : Upd [.regs, .spm, .cores, .vecs, .mbox, .inprog, .gs, .link, .svc, .log, .noc] s₀ s); rotate_left; subst s; rotate_left)
    | (intro s; have _h : Option _ := s; clear _h; clear_value s)
    | intro s
    | lift_lets -underBinder
    | with_reducible apply Upd.ite
    | with_reducible apply Upd.next
    | with_reducible apply State.modCore_upd
    | with_reducible apply State.qLeave_upd
    | with_reducible apply State.bump_upd
    | with_reducible apply State.landChunk_upd
    | with_reducible apply State.descDone_upd
    | with_reducible apply State.faultItem_upd
    | split)

theorem State.scrubWord_upd {F : List Part} {s₀ s : State} (p : Nat) (bank : Nat) (row : Nat) (e : Nat × Nat) (h : Upd F s₀ s) (hF : Part.Sub [.regs, .spm, .vecs, .gs, .link, .svc, .log] F) :
    Upd F s₀ (State.scrubWord s p bank row e) := by
  refine Upd.by_ h ?_ hF
  clear h hF
  revert s
  intro s₀
  have h := Upd.refl (F := [.regs, .spm, .vecs, .gs, .link, .svc, .log]) s₀
  delta State.scrubWord
  repeat' (first
    | with_reducible assumption
    | ((with_reducible apply Part.Sub.of); rfl)
    | with_reducible apply MemUpd.refl
    | (intro s; refine (fun h => ?_) (?_ : Upd [.regs, .spm, .vecs, .gs, .link, .svc, .log] s₀ s); rotate_left; subst s; rotate_left)
    | intro s
    | lift_lets -underBinder
    | with_reducible apply Upd.ite
    | (with_reducible apply Upd.setSpm; case h => with_reducible assumption)
    | with_reducible apply State.bump_upd
    | with_reducible apply State.raise_upd)

theorem State.scrub_upd {F : List Part} {s₀ s : State} (p : Nat) (bank : Nat) (errs : List (Nat × Nat)) (h : Upd F s₀ s) (hF : Part.Sub [.regs, .spm, .cores, .vecs, .gs, .link, .svc, .log] F) :
    Upd F s₀ (State.scrub s p bank errs) := by
  refine Upd.by_ h ?_ hF
  clear h hF
  revert s
  intro s₀
  have h := Upd.refl (F := [.regs, .spm, .cores, .vecs, .gs, .link, .svc, .log]) s₀
  delta State.scrub
  repeat' (first
    | with_reducible assumption
    | ((with_reducible apply Part.Sub.of); rfl)
    | (intro s; refine (fun h => ?_) (?_ : Upd [.regs, .spm, .cores, .vecs, .gs, .link, .svc, .log] s₀ s); rotate_left; subst s; rotate_left)
    | (intro s; have _h : List _ := s; clear _h; clear_value s)
    | intro s
    | lift_lets -underBinder
    | with_reducible apply Upd.ite
    | (with_reducible apply Upd.foldl; case' hf => intro _ _ h)
    | with_reducible apply State.scrubWord_upd
    | with_reducible apply State.bump_upd
    | with_reducible apply State.modCore_upd)

theorem execScrubRow_upd (core : Nat) (bank : Nat) (errs : List (Nat × Nat)) (s₀ : State) : ∃ t, execScrubRow core bank errs s₀ = .next t ∧ Upd [.regs, .spm, .cores, .vecs, .gs, .link, .svc, .log] s₀ t := by
  have h := Upd.refl (F := [.regs, .spm, .cores, .vecs, .gs, .link, .svc, .log]) s₀
  delta execScrubRow
  repeat' (first
    | with_reducible assumption
    | ((with_reducible apply Part.Sub.of); rfl)
    | with_reducible apply Upd.ite
    | with_reducible apply Upd.next
    | with_reducible apply State.scrub_upd)

theorem execScrubForce_upd (core : Nat) (bank : Nat) (errs : List (Nat × Nat)) (s₀ : State) : ∃ t, execScrubForce core bank errs s₀ = .next t ∧ Upd [.regs, .spm, .cores, .vecs, .gs, .link, .svc, .log] s₀ t := by
  have h := Upd.refl (F := [.regs, .spm, .cores, .vecs, .gs, .link, .svc, .log]) s₀
  delta execScrubForce
  repeat' (first
    | with_reducible assumption
    | ((with_reducible apply Part.Sub.of); rfl)
    | lift_lets -underBinder
    | with_reducible apply Upd.ite
    | with_reducible apply Upd.next
    | with_reducible apply State.scrub_upd
    | with_reducible apply State.modCore_upd
    | with_reducible apply State.bump_upd)

theorem execSpmClearDone_upd (core : Nat) (s₀ : State) : ∃ t, execSpmClearDone core s₀ = .next t ∧ Upd [.spm, .cores] s₀ t := by
  have h := Upd.refl (F := [.spm, .cores]) s₀
  delta execSpmClearDone
  repeat' (first
    | with_reducible assumption
    | ((with_reducible apply Part.Sub.of); rfl)
    | lift_lets -underBinder
    | with_reducible apply Upd.ite
    | with_reducible apply Upd.next
    | with_reducible apply State.clearSpm_upd
    | with_reducible apply State.modCore_upd)

end Sys2Proof.Machine
end

