-- ==== Sys2Proof/Laws/UpdVector.lean ====
section
/-!
SUPPORT. What each operation of Machine/Vector.lean may change.
-/
namespace Sys2Proof.Machine

theorem panelWrite_upd {F : List Part} {s₀ : State} (p : Nat) (t : TdItem) (a : Nat) (i : Nat) (xs : List F32) (hF : Part.Sub [.regs, .spm, .cores, .noc] F) : EngUpd F s₀ (panelWrite p t a i xs) := by
  refine EngUpd.by_ (fun s₀ => ?_) hF
  have h := Upd.refl (F := [.regs, .spm, .cores, .noc]) s₀
  delta panelWrite
  repeat' (first
    | ((with_reducible apply Part.Sub.of); rfl)
    | (with_reducible apply EngUpd.forM; intro _)
    | with_reducible apply outWrite_upd)

theorem predicted_upd {F : List Part} {s₀ : State} (t : TdItem) (m : Nat) (xs : List F32) (hF : Part.Sub [.regs, .gs] F) : EngUpd F s₀ (predicted t m xs) := by
  refine EngUpd.by_ (fun s₀ => ?_) hF
  have h := Upd.refl (F := [.regs, .gs]) s₀
  delta predicted
  repeat' (first
    | with_reducible assumption
    | ((with_reducible apply Part.Sub.of); rfl)
    | (intro s; refine (fun h => ?_) (?_ : Upd [.regs, .gs] s₀ s); rotate_left; subst s; rotate_left)
    | (intro s; have _h : List _ := s; clear _h; clear_value s)
    | intro s
    | lift_lets -underBinder
    | with_reducible apply EngUpd.pure
    | with_reducible apply EngUpd.ite
    | (with_reducible apply EngUpd.getBind; intro _ h)
    | (with_reducible apply EngUpd.bind; case' hf => intro _)
    | with_reducible apply EngUpd.set
    | (with_reducible apply Upd.gs; case h => with_reducible assumption)
    | with_reducible apply State.count_upd
    | split)

theorem quantRows_upd {F : List Part} {s₀ : State} (p : Nat) (idx : Nat) (t : TdItem) (prec : List Byte) (pins : List Nat) (rows : List Nat) (put : Nat → Nat → List Byte → Eng Unit) (hF : Part.Sub [.regs, .cores, .vecs, .gs, .link, .svc, .log] F)
    (hown : ∀ x y z, EngUpd F s₀ (put x y z)) : EngUpd F s₀ (quantRows p idx t prec pins rows put) := by
  have h := Upd.refl (F := F) s₀
  delta quantRows
  repeat' (first
    | (with_reducible assumption)
    | ((with_reducible apply Part.Sub.trans _ hF); exact Part.Sub.of rfl)
    | with_reducible apply hown
    | (intro q; refine (fun hq => ?_) (?_ : ∀ x, EngUpd F s₀ (q x)); rotate_left; subst q; intro x; rotate_left)
    | intro s
    | lift_lets -underBinder
    | with_reducible apply hq
    | with_reducible apply EngUpd.pure
    | with_reducible apply EngUpd.ite
    | (with_reducible apply EngUpd.getBind; intro _ h)
    | (with_reducible apply EngUpd.bind; case' hf => intro _)
    | (with_reducible apply EngUpd.forM; intro _)
    | with_reducible apply panelRead_upd
    | (with_reducible apply quantRow_upd; case' hown => intro _))

theorem runQuant_upd {F : List Part} {s₀ : State} (p : Nat) (idx : Nat) (t : TdItem) (hF : Part.Sub [.regs, .spm, .cores, .vecs, .gs, .link, .svc, .log, .noc] F) : EngUpd F s₀ (runQuant p idx t) := by
  refine EngUpd.by_ (fun s₀ => ?_) hF
  have h := Upd.refl (F := [.regs, .spm, .cores, .vecs, .gs, .link, .svc, .log, .noc]) s₀
  delta runQuant
  repeat' (first
    | ((with_reducible apply Part.Sub.of); rfl)
    | lift_lets -underBinder
    | (with_reducible apply quantRows_upd; case' hown => intro _ _ _)
    | with_reducible apply outWrite_upd)

theorem runVu_upd {F : List Part} {s₀ : State} (p : Nat) (idx : Nat) (t : TdItem) (hF : Part.Sub [.regs, .hbm, .spm, .cores, .vecs, .xlate, .gs, .link, .svc, .log, .noc] F) : EngUpd F s₀ (runVu p idx t) := by
  refine EngUpd.by_ (fun s₀ => ?_) hF
  have h := Upd.refl (F := [.regs, .hbm, .spm, .cores, .vecs, .xlate, .gs, .link, .svc, .log, .noc]) s₀
  delta runVu
  repeat' (first
    | ((with_reducible apply Part.Sub.of); rfl)
    | (intro q; refine (fun hq => ?_) (?_ : ∀ x, EngUpd [.regs, .hbm, .spm, .cores, .vecs, .xlate, .gs, .link, .svc, .log, .noc] s₀ (q x)); rotate_left; subst q; intro x; rotate_left)
    | (intro s; have _h : List _ := s; clear _h; clear_value s)
    | intro s
    | lift_lets -underBinder
    | with_reducible apply hq
    | with_reducible apply EngUpd.pure
    | with_reducible apply EngUpd.ite
    | (with_reducible apply EngUpd.getBind; intro _ h)
    | (with_reducible apply EngUpd.bind; case' hf => intro _)
    | (with_reducible apply EngUpd.forM; intro _)
    | with_reducible apply runQuant_upd
    | with_reducible apply readBfs_upd
    | with_reducible apply tableRead_upd
    | with_reducible apply panelRead_upd
    | with_reducible apply predicted_upd
    | with_reducible apply panelWrite_upd)

theorem runAdapterQuant_upd {F : List Part} {s₀ : State} (p : Nat) (idx : Nat) (t : TdItem) (x : Pass) (hF : Part.Sub [.regs, .spm, .cores, .vecs, .gs, .link, .svc, .log] F) : EngUpd F s₀ (runAdapterQuant p idx t x) := by
  refine EngUpd.by_ (fun s₀ => ?_) hF
  have h := Upd.refl (F := [.regs, .spm, .cores, .vecs, .gs, .link, .svc, .log]) s₀
  delta runAdapterQuant
  repeat' (first
    | with_reducible assumption
    | ((with_reducible apply Part.Sub.of); rfl)
    | (intro s; have _h : List _ := s; clear _h; clear_value s)
    | lift_lets -underBinder
    | (with_reducible apply EngUpd.bind; case' hf => intro _)
    | (with_reducible apply EngUpd.modify; intro _ h)
    | with_reducible apply State.spmWrite_upd
    | with_reducible apply State.modItem_upd
    | (with_reducible apply quantRows_upd; case' hown => intro _ _ _))

theorem runEmbed_upd {F : List Part} {s₀ : State} (p : Nat) (idx : Nat) (t : TdItem) (hF : Part.Sub [.regs, .spm, .cores] F) : EngUpd F s₀ (runEmbed p idx t) := by
  refine EngUpd.by_ (fun s₀ => ?_) hF
  have h := Upd.refl (F := [.regs, .spm, .cores]) s₀
  delta runEmbed
  repeat' (first
    | with_reducible assumption
    | ((with_reducible apply Part.Sub.of); rfl)
    | (intro s; have _h : List _ := s; clear _h; clear_value s)
    | intro s
    | lift_lets -underBinder
    | with_reducible apply EngUpd.pure
    | with_reducible apply EngUpd.ite
    | (with_reducible apply EngUpd.getBind; intro _ h)
    | (with_reducible apply EngUpd.bind; case' hf => intro _)
    | (with_reducible apply EngUpd.modify; intro _ h)
    | (with_reducible apply EngUpd.forM; intro _)
    | (with_reducible apply EngUpd.mapM; intro _)
    | with_reducible apply State.spmWrite_upd
    | with_reducible apply State.badRow_upd
    | with_reducible apply State.modItem_upd
    | with_reducible apply spmRead_upd)

theorem State.markDone_upd {F : List Part} {s₀ s : State} (slot : Nat) (trip : Option Nat) (h : Upd F s₀ s) (hF : Part.Sub [.gs] F) :
    Upd F s₀ (State.markDone s slot trip) := by
  refine Upd.by_ h ?_ hF
  clear h hF
  revert s
  intro s₀
  have h := Upd.refl (F := [.gs]) s₀
  delta State.markDone
  repeat' (first
    | with_reducible assumption
    | ((with_reducible apply Part.Sub.of); rfl)
    | with_reducible apply State.mapRows_upd)

theorem State.waitFor_upd {F : List Part} {s₀ s : State} (p : Nat) (idx : Nat) (tags : List Nat) (h : Upd F s₀ s) (hF : Part.Sub [.cores] F) :
    Upd F s₀ (State.waitFor s p idx tags) := by
  refine Upd.by_ h ?_ hF
  clear h hF
  revert s
  intro s₀
  have h := Upd.refl (F := [.cores]) s₀
  delta State.waitFor
  repeat' (first
    | with_reducible assumption
    | ((with_reducible apply Part.Sub.of); rfl)
    | with_reducible apply State.modItem_upd)

theorem pushDesc_upd {F : List Part} {s₀ : State} (p : Nat) (t : TdItem) (i : Nat) (k : Nat) (hF : Part.Sub [.regs] F) : EngUpd F s₀ (pushDesc p t i k) := by
  refine EngUpd.by_ (fun s₀ => ?_) hF
  have h := Upd.refl (F := [.regs]) s₀
  delta pushDesc
  repeat' (first
    | ((with_reducible apply Part.Sub.of); rfl)
    | intro s
    | lift_lets -underBinder
    | with_reducible apply EngUpd.pure
    | (with_reducible apply EngUpd.getBind; intro _ h)
    | (with_reducible apply EngUpd.bind; case' hf => intro _)
    | with_reducible apply panelRead_upd)

theorem pushDescs_upd {F : List Part} {s₀ : State} (p : Nat) (t : TdItem) (hF : Part.Sub [.regs] F) : EngUpd F s₀ (pushDescs p t) := by
  refine EngUpd.by_ (fun s₀ => ?_) hF
  have h := Upd.refl (F := [.regs]) s₀
  delta pushDescs
  repeat' (first
    | ((with_reducible apply Part.Sub.of); rfl)
    | lift_lets -underBinder
    | with_reducible apply EngUpd.pure
    | (with_reducible apply EngUpd.getBind; intro _ h)
    | with_reducible apply EngUpd.map
    | (with_reducible apply EngUpd.filterMapM; intro _)
    | with_reducible apply pushDesc_upd
    | split)

theorem State.pushDone_upd {F : List Part} {s₀ s : State} (p : Nat) (idx : Nat) (layer : Nat) (host : Bool) (r : Row) (outlen : Nat) (outs : List Nat) (h : Upd F s₀ s) (hF : Part.Sub [.regs, .hbm, .cores, .vecs, .gs, .link] F) :
    Upd F s₀ (State.pushDone s p idx layer host r outlen outs) := by
  refine Upd.by_ h ?_ hF
  clear h hF
  revert s
  intro s₀
  have h := Upd.refl (F := [.regs, .hbm, .cores, .vecs, .gs, .link]) s₀
  delta State.pushDone
  repeat' (first
    | with_reducible assumption
    | ((with_reducible apply Part.Sub.of); rfl)
    | (intro s; refine (fun h => ?_) (?_ : Upd [.regs, .hbm, .cores, .vecs, .gs, .link] s₀ s); rotate_left; subst s; rotate_left)
    | intro s
    | lift_lets -underBinder
    | with_reducible apply Upd.ite
    | with_reducible apply State.setSeq_upd
    | with_reducible apply State.count_upd
    | with_reducible apply State.complete_upd
    | with_reducible apply State.markDone_upd
    | with_reducible apply State.waitFor_upd)

theorem State.pushEnds_upd {F : List Part} {s₀ s : State} (p : Nat) (idx : Nat) (t : TdItem) (h : Upd F s₀ s) (hF : Part.Sub [.regs, .hbm, .cores, .vecs, .gs, .link] F) :
    Upd F s₀ (State.pushEnds s p idx t) := by
  refine Upd.by_ h ?_ hF
  clear h hF
  revert s
  intro s₀
  have h := Upd.refl (F := [.regs, .hbm, .cores, .vecs, .gs, .link]) s₀
  delta State.pushEnds
  repeat' (first
    | with_reducible assumption
    | ((with_reducible apply Part.Sub.of); rfl)
    | (intro s; refine (fun h => ?_) (?_ : Upd [.regs, .hbm, .cores, .vecs, .gs, .link] s₀ s); rotate_left; subst s; rotate_left)
    | (intro s; have _h : List _ := s; clear _h; clear_value s)
    | intro s
    | lift_lets -underBinder
    | with_reducible apply Upd.ite
    | (with_reducible apply Upd.foldl; case' hf => intro _ _ h)
    | with_reducible apply State.pushDone_upd
    | with_reducible apply State.modItem_upd)

theorem State.fillQueue_upd {F : List Part} {s₀ s : State} (p : Nat) (i : Nat) (h : Upd F s₀ s) (hF : Part.Sub [.regs, .cores] F) :
    Upd F s₀ (State.fillQueue s p i) := by
  refine Upd.by_ h ?_ hF
  clear h hF
  revert s
  intro s₀
  have h := Upd.refl (F := [.regs, .cores]) s₀
  delta State.fillQueue
  repeat' (first
    | with_reducible assumption
    | ((with_reducible apply Part.Sub.of); rfl)
    | intro s
    | lift_lets -underBinder
    | (with_reducible apply Upd.foldl; case' hf => intro _ _ h)
    | with_reducible apply State.queueDesc_upd
    | with_reducible apply State.modItem_upd
    | split)

theorem issuePush_upd {F : List Part} {s₀ : State} (p : Nat) (i : Nat) (t : TdItem) (hF : Part.Sub [.regs, .hbm, .cores, .vecs, .gs, .link] F) : EngUpd F s₀ (issuePush p i t) := by
  refine EngUpd.by_ (fun s₀ => ?_) hF
  have h := Upd.refl (F := [.regs, .hbm, .cores, .vecs, .gs, .link]) s₀
  delta issuePush
  repeat' (first
    | with_reducible assumption
    | ((with_reducible apply Part.Sub.of); rfl)
    | lift_lets -underBinder
    | with_reducible apply EngUpd.pure
    | with_reducible apply EngUpd.ite
    | (with_reducible apply EngUpd.getBind; intro _ h)
    | (with_reducible apply EngUpd.bind; case' hf => intro _)
    | with_reducible apply EngUpd.set
    | (with_reducible apply EngUpd.modify; intro _ h)
    | with_reducible apply State.issued_upd
    | with_reducible apply State.modItem_upd
    | with_reducible apply State.fillQueue_upd
    | with_reducible apply State.pushEnds_upd
    | with_reducible apply pushDescs_upd)

theorem issueTransfers_upd {F : List Part} {s₀ : State} (p : Nat) (i : Nat) (t : TdItem) (hF : Part.Sub [.regs, .spm, .cores] F) : EngUpd F s₀ (issueTransfers p i t) := by
  refine EngUpd.by_ (fun s₀ => ?_) hF
  have h := Upd.refl (F := [.regs, .spm, .cores]) s₀
  delta issueTransfers
  repeat' (first
    | with_reducible assumption
    | ((with_reducible apply Part.Sub.of); rfl)
    | (intro q; refine (fun hq => ?_) (?_ : ∀ x, EngUpd [.regs, .spm, .cores] s₀ (q x)); rotate_left; subst q; intro x; rotate_left)
    | lift_lets -underBinder
    | with_reducible apply hq
    | with_reducible apply EngUpd.pure
    | with_reducible apply EngUpd.throw
    | with_reducible apply EngUpd.ite
    | (with_reducible apply EngUpd.getBind; intro _ h)
    | (with_reducible apply EngUpd.bind; case' hf => intro _)
    | (with_reducible apply EngUpd.modify; intro _ h)
    | with_reducible apply State.issued_upd
    | with_reducible apply State.modItem_upd
    | with_reducible apply State.fillQueue_upd
    | with_reducible apply runEmbed_upd
    | exact Unit.unit)

end Sys2Proof.Machine
end

