-- ==== Sys2Proof/Laws/UpdLogEngine.lean ====
section
/-!
SUPPORT. What each operation of Machine/LogEngine.lean may change.
-/
namespace Sys2Proof.Machine

theorem stagePage_upd {F : List Part} {s₀ : State} (p : Nat) (t : TdItem) (at_ : Nat) (data : List Byte) (bad : List Nat) (hF : Part.Sub [.regs, .spm] F) : EngUpd F s₀ (stagePage p t at_ data bad) := by
  refine EngUpd.by_ (fun s₀ => ?_) hF
  have h := Upd.refl (F := [.regs, .spm]) s₀
  delta stagePage
  repeat' (first
    | with_reducible assumption
    | ((with_reducible apply Part.Sub.of); rfl)
    | intro s
    | lift_lets -underBinder
    | with_reducible apply EngUpd.pure
    | with_reducible apply EngUpd.ite
    | (with_reducible apply EngUpd.modify; intro _ h)
    | with_reducible apply State.spmWrite_upd
    | with_reducible apply State.spmPoison_upd
    | with_reducible apply State.bump_upd)

theorem readPage_upd {F : List Part} {s₀ : State} (p : Nat) (t : TdItem) (r : Row) (e : List Byte) (hF : Part.Sub [.regs, .hbm, .spm, .vecs, .gs, .link, .svc, .log] F) : EngUpd F s₀ (readPage p t r e) := by
  refine EngUpd.by_ (fun s₀ => ?_) hF
  have h := Upd.refl (F := [.regs, .hbm, .spm, .vecs, .gs, .link, .svc, .log]) s₀
  delta readPage
  repeat' (first
    | with_reducible assumption
    | ((with_reducible apply Part.Sub.of); rfl)
    | (intro s; refine (fun h => ?_) (?_ : Upd1 [.regs, .hbm, .spm, .vecs, .gs, .link, .svc, .log] s₀ s); rotate_left; subst s; rotate_left)
    | (intro q; refine (fun hq => ?_) (?_ : ∀ x, EngUpd [.regs, .hbm, .spm, .vecs, .gs, .link, .svc, .log] s₀ (q x)); rotate_left; subst q; intro x; rotate_left)
    | intro s
    | lift_lets -underBinder
    | with_reducible apply hq
    | with_reducible apply EngUpd.pure
    | with_reducible apply EngUpd.throw
    | with_reducible apply EngUpd.ite
    | (with_reducible apply EngUpd.getBind; intro _ h)
    | (with_reducible apply EngUpd.bind; case' hf => intro _)
    | with_reducible apply EngUpd.set
    | with_reducible apply State.mcRead_upd
    | with_reducible apply State.bump_upd
    | with_reducible apply stagePage_upd
    | with_reducible apply Upd1.fst)

theorem readSpans_upd {F : List Part} {s₀ : State} (p : Nat) (t : TdItem) (r : Row) (m : Nat) (chunk : Nat) (k : Nat) (hd : Nat) (lo : Nat) (hi : Nat) (top : Nat) (hF : Part.Sub [.regs, .hbm, .spm, .vecs, .xlate, .gs, .link, .svc, .log] F) : EngUpd F s₀ (readSpans p t r m chunk k hd lo hi top) := by
  refine EngUpd.by_ (fun s₀ => ?_) hF
  have h := Upd.refl (F := [.regs, .hbm, .spm, .vecs, .xlate, .gs, .link, .svc, .log]) s₀
  delta readSpans
  repeat' (first
    | ((with_reducible apply Part.Sub.of); rfl)
    | (intro q; refine (fun hq => ?_) (?_ : ∀ x, EngUpd [.regs, .hbm, .spm, .vecs, .xlate, .gs, .link, .svc, .log] s₀ (q x)); rotate_left; subst q; intro x; rotate_left)
    | intro s
    | lift_lets -underBinder
    | with_reducible apply hq
    | with_reducible apply EngUpd.pure
    | with_reducible apply EngUpd.throw
    | with_reducible apply EngUpd.ite
    | (with_reducible apply EngUpd.bind; case' hf => intro _)
    | (with_reducible apply EngUpd.foldlM; intro _ _)
    | with_reducible apply kvEntry_upd
    | with_reducible apply readPage_upd
    | split)

theorem State.modMerge_upd {F : List Part} {s₀ s : State} (p : Nat) (gid : Nat) (mid : Nat) (f : Merge → Merge) (h : Upd F s₀ s) (hF : Part.Sub [.cores] F) :
    Upd F s₀ (State.modMerge s p gid mid f) := by
  refine Upd.by_ h ?_ hF
  clear h hF
  revert s
  intro s₀
  have h := Upd.refl (F := [.cores]) s₀
  delta State.modMerge
  repeat' (first
    | with_reducible assumption
    | ((with_reducible apply Part.Sub.of); rfl)
    | with_reducible apply State.modCore_upd)

theorem State.landLocal_upd {F : List Part} {s₀ s : State} (p : Nat) (t : TdItem) (x : Partial) (h : Upd F s₀ s) (hF : Part.Sub [.regs, .spm, .cores] F) :
    Upd F s₀ (State.landLocal s p t x) := by
  refine Upd.by_ h ?_ hF
  clear h hF
  revert s
  intro s₀
  have h := Upd.refl (F := [.regs, .spm, .cores]) s₀
  delta State.landLocal
  repeat' (first
    | with_reducible assumption
    | ((with_reducible apply Part.Sub.of); rfl)
    | lift_lets -underBinder
    | with_reducible apply State.spmWrite_upd
    | with_reducible apply State.modMerge_upd)

theorem State.sendPartial_upd {F : List Part} {s₀ s : State} (p : Nat) (q : Nat) (t : TdItem) (x : Partial) (h : Upd F s₀ s) (hF : Part.Sub [.regs, .cores, .noc] F) :
    Upd F s₀ (State.sendPartial s p q t x) := by
  refine Upd.by_ h ?_ hF
  clear h hF
  revert s
  intro s₀
  have h := Upd.refl (F := [.regs, .cores, .noc]) s₀
  delta State.sendPartial
  repeat' (first
    | with_reducible assumption
    | ((with_reducible apply Part.Sub.of); rfl)
    | (intro s; refine (fun h => ?_) (?_ : Upd [.regs, .cores, .noc] s₀ s); rotate_left; subst s; rotate_left)
    | intro s
    | lift_lets -underBinder
    | (with_reducible apply Upd.foldl; case' hf => intro _ _ h)
    | with_reducible apply State.qSend_upd
    | with_reducible apply State.modCore_upd
    | with_reducible apply State.bump_upd)

theorem putPartial_upd {F : List Part} {s₀ : State} (p : Nat) (t : TdItem) (u : WUnit) (m : Nat) (head : Nat) (x : Attn) (hF : Part.Sub [.regs, .spm, .cores, .noc] F) : EngUpd F s₀ (putPartial p t u m head x) := by
  refine EngUpd.by_ (fun s₀ => ?_) hF
  have h := Upd.refl (F := [.regs, .spm, .cores, .noc]) s₀
  delta putPartial
  repeat' (first
    | with_reducible assumption
    | ((with_reducible apply Part.Sub.of); rfl)
    | intro s
    | lift_lets -underBinder
    | with_reducible apply Upd.ite
    | with_reducible apply EngUpd.pure
    | with_reducible apply EngUpd.ite
    | (with_reducible apply EngUpd.getBind; intro _ h)
    | with_reducible apply EngUpd.set
    | with_reducible apply State.landLocal_upd
    | with_reducible apply State.sendPartial_upd
    | with_reducible apply outWrite_upd
    | split)

theorem queryOf_upd {F : List Part} {s₀ : State} (p : Nat) (t : TdItem) (m : Nat) (pos : Nat) (head : Nat) (freq : List F32) (hF : Part.Sub [.regs] F) : EngUpd F s₀ (queryOf p t m pos head freq) := by
  refine EngUpd.by_ (fun s₀ => ?_) hF
  have h := Upd.refl (F := [.regs]) s₀
  delta queryOf
  repeat' (first
    | ((with_reducible apply Part.Sub.of); rfl)
    | (intro s; have _h : List _ := s; clear _h; clear_value s)
    | intro s
    | lift_lets -underBinder
    | with_reducible apply EngUpd.pure
    | with_reducible apply EngUpd.ite
    | (with_reducible apply EngUpd.bind; case' hf => intro _)
    | with_reducible apply EngUpd.map
    | with_reducible apply spmRead_upd)

theorem runHead_upd {F : List Part} {s₀ : State} (p : Nat) (t : TdItem) (u : WUnit) (rows : List Nat) (top : Nat) (hd : Nat) (freq : List F32) (hF : Part.Sub [.regs, .hbm, .spm, .cores, .vecs, .xlate, .gs, .link, .svc, .log, .noc] F) : EngUpd F s₀ (runHead p t u rows top hd freq) := by
  refine EngUpd.by_ (fun s₀ => ?_) hF
  have h := Upd.refl (F := [.regs, .hbm, .spm, .cores, .vecs, .xlate, .gs, .link, .svc, .log, .noc]) s₀
  delta runHead
  repeat' (first
    | with_reducible assumption
    | ((with_reducible apply Part.Sub.of); rfl)
    | (intro s; have _h : List _ := s; clear _h; clear_value s)
    | intro s
    | lift_lets -underBinder
    | with_reducible apply EngUpd.pure
    | with_reducible apply EngUpd.throw
    | with_reducible apply EngUpd.ite
    | (with_reducible apply EngUpd.getBind; intro _ h)
    | (with_reducible apply EngUpd.bind; case' hf => intro _)
    | with_reducible apply EngUpd.set
    | (with_reducible apply EngUpd.modify; intro _ h)
    | (with_reducible apply EngUpd.forM; intro _)
    | with_reducible apply State.bump_upd
    | with_reducible apply State.attnMask_upd
    | with_reducible apply putPartial_upd
    | with_reducible apply readSpans_upd
    | with_reducible apply queryOf_upd
    | split)

theorem runUnit_upd {F : List Part} {s₀ : State} (p : Nat) (idx : Nat) (t : TdItem) (u : WUnit) (f : EngFind) (hF : Part.Sub [.regs, .hbm, .spm, .cores, .vecs, .xlate, .gs, .link, .svc, .log, .noc] F) : EngUpd F s₀ (runUnit p idx t u f) := by
  refine EngUpd.by_ (fun s₀ => ?_) hF
  have h := Upd.refl (F := [.regs, .hbm, .spm, .cores, .vecs, .xlate, .gs, .link, .svc, .log, .noc]) s₀
  delta runUnit
  repeat' (first
    | with_reducible assumption
    | ((with_reducible apply Part.Sub.of); rfl)
    | (intro q; refine (fun hq => ?_) (?_ : ∀ x, EngUpd [.regs, .hbm, .spm, .cores, .vecs, .xlate, .gs, .link, .svc, .log, .noc] s₀ (q x)); rotate_left; subst q; intro x; rotate_left)
    | (intro s; have _h : List _ := s; clear _h; clear_value s)
    | intro s
    | lift_lets -underBinder
    | with_reducible apply hq
    | (with_reducible apply Upd.foldl; case' hf => intro _ _ h)
    | with_reducible apply EngUpd.pure
    | with_reducible apply EngUpd.throw
    | with_reducible apply EngUpd.ite
    | (with_reducible apply EngUpd.getBind; intro _ h)
    | (with_reducible apply EngUpd.bind; case' hf => intro _)
    | (with_reducible apply EngUpd.modify; intro _ h)
    | (with_reducible apply EngUpd.forM; intro _)
    | with_reducible apply State.bump_upd
    | with_reducible apply State.attnMask_upd
    | with_reducible apply State.modItem_upd
    | with_reducible apply portFlt_upd
    | with_reducible apply tableRead_upd
    | (with_reducible apply onPoison_upd; case' hown => intro _ h)
    | with_reducible apply runHead_upd)

theorem State.landHalf_upd {F : List Part} {s₀ s : State} (p : Nat) (t : TdItem) (c : PCart) (h : Upd F s₀ s) (hF : Part.Sub [.regs, .spm, .cores] F) :
    Upd F s₀ (State.landHalf s p t c) := by
  refine Upd.by_ h ?_ hF
  clear h hF
  revert s
  intro s₀
  have h := Upd.refl (F := [.regs, .spm, .cores]) s₀
  delta State.landHalf
  repeat' (first
    | with_reducible assumption
    | ((with_reducible apply Part.Sub.of); rfl)
    | with_reducible apply State.spmWrite_upd
    | with_reducible apply State.modMerge_upd)

theorem execPartialCartRx_upd (core : Nat) (found : EngFind) (s₀ : State) : ∃ t, execPartialCartRx core found s₀ = .next t ∧ Upd [.regs, .hbm, .spm, .cores, .vecs, .gs, .link, .svc, .log, .noc] s₀ t := by
  have h := Upd.refl (F := [.regs, .hbm, .spm, .cores, .vecs, .gs, .link, .svc, .log, .noc]) s₀
  delta execPartialCartRx
  repeat' (first
    | with_reducible assumption
    | ((with_reducible apply Part.Sub.of); rfl)
    | (intro s; refine (fun h => ?_) (?_ : Upd [.regs, .hbm, .spm, .cores, .vecs, .gs, .link, .svc, .log, .noc] s₀ s); rotate_left; subst s; rotate_left)
    | (intro s; have _h : Option _ := s; clear _h; clear_value s)
    | intro s
    | lift_lets -underBinder
    | with_reducible apply Upd.ite
    | with_reducible apply Upd.next
    | with_reducible apply State.meet_upd
    | with_reducible apply State.qAwait_upd
    | with_reducible apply State.qLeave_upd
    | with_reducible apply State.modCore_upd
    | (with_reducible apply State.work_upd)
    | with_reducible apply State.faultItem_upd
    | with_reducible apply State.landHalf_upd
    | with_reducible apply portFlt_upd
    | split)

theorem foldOne_upd {F : List Part} {s₀ : State} (p : Nat) (i : Nat) (t : TdItem) (m : Merge) (k : Nat) (x : Partial) (hF : Part.Sub [.regs, .spm, .cores, .noc] F) : EngUpd F s₀ (foldOne p i t m k x) := by
  refine EngUpd.by_ (fun s₀ => ?_) hF
  have h := Upd.refl (F := [.regs, .spm, .cores, .noc]) s₀
  delta foldOne
  repeat' (first
    | with_reducible assumption
    | ((with_reducible apply Part.Sub.of); rfl)
    | (intro q; refine (fun hq => ?_) (?_ : ∀ x, EngUpd [.regs, .spm, .cores, .noc] s₀ (q x)); rotate_left; subst q; intro x; rotate_left)
    | (intro s; have _h : List _ := s; clear _h; clear_value s)
    | intro s
    | lift_lets -underBinder
    | with_reducible apply hq
    | with_reducible apply EngUpd.pure
    | with_reducible apply EngUpd.ite
    | (with_reducible apply EngUpd.getBind; intro _ h)
    | (with_reducible apply EngUpd.bind; case' hf => intro _)
    | (with_reducible apply EngUpd.modify; intro _ h)
    | with_reducible apply State.modMerge_upd
    | with_reducible apply State.issued_upd
    | with_reducible apply State.bump_upd
    | with_reducible apply spmRead_upd
    | with_reducible apply outWrite_upd)

theorem execMergeFold_upd (core : Nat) (idx : Nat) (pick : Nat) (s₀ : State) : ∃ t, execMergeFold core idx pick s₀ = .next t ∧ Upd [.regs, .spm, .cores, .vecs, .gs, .link, .svc, .log, .noc] s₀ t := by
  have h := Upd.refl (F := [.regs, .spm, .cores, .vecs, .gs, .link, .svc, .log, .noc]) s₀
  delta execMergeFold
  repeat' (first
    | with_reducible assumption
    | ((with_reducible apply Part.Sub.of); rfl)
    | intro s
    | lift_lets -underBinder
    | with_reducible apply Upd.ite
    | with_reducible apply Upd.next
    | (with_reducible apply State.work_upd)
    | with_reducible apply foldOne_upd
    | split)

end Sys2Proof.Machine
end

