-- ==== Sys2Proof/Laws/UpdEngines.lean ====
section
/-!
SUPPORT. What each operation of Machine/Engines.lean may change.
-/
namespace Sys2Proof.Machine

theorem issuePass_upd {F : List Part} {s₀ : State} (p : Nat) (i : Nat) (t : TdItem) (f : EngFind) (hF : Part.Sub [.regs, .spm, .cores, .vecs, .gs, .link, .svc, .log] F) : EngUpd F s₀ (issuePass p i t f) := by
  refine EngUpd.by_ (fun s₀ => ?_) hF
  have h := Upd.refl (F := [.regs, .spm, .cores, .vecs, .gs, .link, .svc, .log]) s₀
  delta issuePass
  repeat' (first
    | with_reducible assumption
    | ((with_reducible apply Part.Sub.of); rfl)
    | lift_lets -underBinder
    | with_reducible apply EngUpd.pure
    | with_reducible apply EngUpd.ite
    | (with_reducible apply EngUpd.getBind; intro _ h)
    | (with_reducible apply EngUpd.bind; case' hf => intro _)
    | with_reducible apply EngUpd.set
    | with_reducible apply State.issued_upd
    | with_reducible apply runAdapterQuant_upd
    | with_reducible apply runPass_upd
    | split)

theorem issueUnit_upd {F : List Part} {s₀ : State} (p : Nat) (i : Nat) (t : TdItem) (f : EngFind) (hF : Part.Sub [.regs, .hbm, .spm, .cores, .vecs, .xlate, .gs, .link, .svc, .log, .noc] F) : EngUpd F s₀ (issueUnit p i t f) := by
  refine EngUpd.by_ (fun s₀ => ?_) hF
  have h := Upd.refl (F := [.regs, .hbm, .spm, .cores, .vecs, .xlate, .gs, .link, .svc, .log, .noc]) s₀
  delta issueUnit
  repeat' (first
    | with_reducible assumption
    | ((with_reducible apply Part.Sub.of); rfl)
    | lift_lets -underBinder
    | with_reducible apply EngUpd.pure
    | (with_reducible apply EngUpd.getBind; intro _ h)
    | (with_reducible apply EngUpd.bind; case' hf => intro _)
    | with_reducible apply EngUpd.set
    | with_reducible apply State.issued_upd
    | with_reducible apply runUnit_upd
    | split)

theorem issueVector_upd {F : List Part} {s₀ : State} (p : Nat) (i : Nat) (t : TdItem) (hF : Part.Sub [.regs, .hbm, .spm, .cores, .vecs, .xlate, .gs, .link, .svc, .log, .noc] F) : EngUpd F s₀ (issueVector p i t) := by
  refine EngUpd.by_ (fun s₀ => ?_) hF
  have h := Upd.refl (F := [.regs, .hbm, .spm, .cores, .vecs, .xlate, .gs, .link, .svc, .log, .noc]) s₀
  delta issueVector
  repeat' (first
    | with_reducible assumption
    | ((with_reducible apply Part.Sub.of); rfl)
    | lift_lets -underBinder
    | with_reducible apply EngUpd.pure
    | with_reducible apply EngUpd.ite
    | (with_reducible apply EngUpd.getBind; intro _ h)
    | (with_reducible apply EngUpd.bind; case' hf => intro _)
    | with_reducible apply EngUpd.set
    | (with_reducible apply EngUpd.modify; intro _ h)
    | with_reducible apply State.issued_upd
    | with_reducible apply State.modItem_upd
    | with_reducible apply runVu_upd)

theorem issueWork_upd {F : List Part} {s₀ : State} (p : Nat) (i : Nat) (t : TdItem) (f : EngFind) (hF : Part.Sub [.regs, .hbm, .spm, .cores, .vecs, .xlate, .gs, .link, .svc, .log, .noc] F) : EngUpd F s₀ (issueWork p i t f) := by
  refine EngUpd.by_ (fun s₀ => ?_) hF
  have h := Upd.refl (F := [.regs, .hbm, .spm, .cores, .vecs, .xlate, .gs, .link, .svc, .log, .noc]) s₀
  delta issueWork
  repeat' (first
    | ((with_reducible apply Part.Sub.of); rfl)
    | intro s
    | lift_lets -underBinder
    | with_reducible apply EngUpd.pure
    | with_reducible apply EngUpd.ite
    | with_reducible apply issuePass_upd
    | with_reducible apply issueUnit_upd
    | with_reducible apply issueVector_upd
    | with_reducible apply issuePush_upd
    | with_reducible apply issueTransfers_upd)

theorem execCarriageIssue_upd (core : Nat) (idx : Nat) (found : EngFind) (s₀ : State) : ∃ t, execCarriageIssue core idx found s₀ = .next t ∧ Upd [.regs, .hbm, .spm, .cores, .vecs, .xlate, .gs, .link, .svc, .log, .noc] s₀ t := by
  have h := Upd.refl (F := [.regs, .hbm, .spm, .cores, .vecs, .xlate, .gs, .link, .svc, .log, .noc]) s₀
  delta execCarriageIssue
  repeat' (first
    | with_reducible assumption
    | ((with_reducible apply Part.Sub.of); rfl)
    | lift_lets -underBinder
    | with_reducible apply Upd.ite
    | with_reducible apply Upd.next
    | with_reducible apply State.meet_upd
    | with_reducible apply State.lateMasks_upd
    | (with_reducible apply State.work_upd)
    | with_reducible apply State.stageCarts_upd
    | with_reducible apply issueWork_upd
    | split)

theorem State.sendChainDone_upd {F : List Part} {s₀ s : State} (t : TdItem) (h : Upd F s₀ s) (hF : Part.Sub [.regs, .link] F) :
    Upd F s₀ (State.sendChainDone s t) := by
  refine Upd.by_ h ?_ hF
  clear h hF
  revert s
  intro s₀
  have h := Upd.refl (F := [.regs, .link]) s₀
  delta State.sendChainDone
  repeat' (first
    | with_reducible assumption
    | with_reducible exact Upd.refl _
    | ((with_reducible apply Part.Sub.of); rfl)
    | (intro s; refine (fun h => ?_) (?_ : Upd [.regs, .link] s₀ s); rotate_left; subst s; rotate_left)
    | (intro q; refine (fun hq => ?_) (?_ : ∀ s, Upd [.regs, .link] s₀ s → Upd [.regs, .link] s₀ (q s)); rotate_left; subst q; intro s h; rotate_left)
    | (intro q; refine (fun hq => ?_) (?_ : ∀ s x, Upd [.regs, .link] s₀ s → Upd [.regs, .link] s₀ (q s x)); rotate_left; subst q; intro s x h; rotate_left)
    | (intro q; refine (fun hq => ?_) (?_ : ∀ x s, Upd [.regs, .link] s₀ s → Upd [.regs, .link] s₀ (q x s)); rotate_left; subst q; intro x s h; rotate_left)
    | (intro s; have _h : Option _ := s; clear _h; clear_value s)
    | (intro s; have _h : List _ := s; clear _h; clear_value s)
    | intro s
    | lift_lets -underBinder
    | with_reducible apply hq
    | with_reducible apply Upd.ite
    | (with_reducible apply Upd.foldl; case' hf => intro _ _ h)
    | with_reducible apply State.send_upd
    | split)


theorem execCarriageComplete_upd (core : Nat) (idx : Nat) (s₀ : State) : ∃ t, execCarriageComplete core idx s₀ = .next t ∧ Upd [.regs, .cores, .gs, .link, .noc] s₀ t := by
  have h := Upd.refl (F := [.regs, .cores, .gs, .link, .noc]) s₀
  delta execCarriageComplete
  repeat' (first
    | with_reducible assumption
    | ((with_reducible apply Part.Sub.of); rfl)
    | lift_lets -underBinder
    | with_reducible apply Upd.ite
    | with_reducible apply Upd.next
    | with_reducible apply State.bump_upd
    | with_reducible apply State.sendChainDone_upd
    | with_reducible apply State.stopEngines_upd
    | with_reducible apply State.retireItem_upd
    | split)

theorem State.endOrdered_upd {F : List Part} {s₀ s : State} (p : Nat) (graph : Nat) (index : Nat) (status : Nat) (h : Upd F s₀ s) (hF : Part.Sub [.regs, .cores, .gs, .link, .noc] F) :
    Upd F s₀ (State.endOrdered s p graph index status) := by
  refine Upd.by_ h ?_ hF
  clear h hF
  revert s
  intro s₀
  have h := Upd.refl (F := [.regs, .cores, .gs, .link, .noc]) s₀
  delta State.endOrdered
  repeat' (first
    | with_reducible assumption
    | ((with_reducible apply Part.Sub.of); rfl)
    | lift_lets -underBinder
    | with_reducible apply State.endItem_upd
    | with_reducible apply State.modCore_upd
    | with_reducible apply State.queueCompl_upd
    | split)

theorem execCarriageEndRx_upd (core : Nat) (s₀ : State) : ∃ t, execCarriageEndRx core s₀ = .next t ∧ Upd [.regs, .cores, .gs, .link, .noc] s₀ t := by
  have h := Upd.refl (F := [.regs, .cores, .gs, .link, .noc]) s₀
  delta execCarriageEndRx
  repeat' (first
    | with_reducible assumption
    | ((with_reducible apply Part.Sub.of); rfl)
    | (intro s; refine (fun h => ?_) (?_ : Upd [.regs, .cores, .gs, .link, .noc] s₀ s); rotate_left; subst s; rotate_left)
    | intro s
    | lift_lets -underBinder
    | with_reducible apply Upd.next
    | (with_reducible apply Upd.gs; case h => with_reducible assumption)
    | with_reducible apply State.endOrdered_upd
    | split)

theorem execCarriageWatchdog_upd (core : Nat) (idx : Nat) (s₀ : State) : ∃ t, execCarriageWatchdog core idx s₀ = .next t ∧ Upd [.regs, .cores, .vecs, .gs, .link, .svc, .log, .noc] s₀ t := by
  have h := Upd.refl (F := [.regs, .cores, .vecs, .gs, .link, .svc, .log, .noc]) s₀
  delta execCarriageWatchdog
  repeat' (first
    | with_reducible assumption
    | ((with_reducible apply Part.Sub.of); rfl)
    | lift_lets -underBinder
    | with_reducible apply Upd.ite
    | with_reducible apply Upd.next
    | with_reducible apply State.count_upd
    | with_reducible apply State.bump_upd
    | with_reducible apply State.faultItem_upd
    | split)

end Sys2Proof.Machine
end

