-- ==== Sys2Proof/Laws/UpdGraphCommands.lean ====
section
/-!
SUPPORT. What each operation of Machine/GraphCommands.lean may change.
-/
namespace Sys2Proof.Machine

theorem State.fails_upd {F : List Part} {s₀ s : State} (c : Cmd) (st : Nat) (h : Upd F s₀ s) (hF : Part.Sub [.regs, .vecs, .mbox, .inprog, .link, .svc] F) :
    Upd F s₀ (State.fails s c st) := by
  refine Upd.by_ h ?_ hF
  clear h hF
  revert s
  intro s₀
  have h := Upd.refl (F := [.regs, .vecs, .mbox, .inprog, .link, .svc]) s₀
  delta State.fails
  repeat' (first
    | with_reducible assumption
    | ((with_reducible apply Part.Sub.of); rfl)
    | with_reducible apply State.respond_upd)

theorem State.refuses_upd {F : List Part} {s₀ s : State} (c : Cmd) (d : Nat) (byShare : Bool) (h : Upd F s₀ s) (hF : Part.Sub [.regs, .vecs, .mbox, .inprog, .link, .svc] F) :
    Upd F s₀ (State.refuses s c d byShare) := by
  refine Upd.by_ h ?_ hF
  clear h hF
  revert s
  intro s₀
  have h := Upd.refl (F := [.regs, .vecs, .mbox, .inprog, .link, .svc]) s₀
  delta State.refuses
  repeat' (first
    | with_reducible assumption
    | ((with_reducible apply Part.Sub.of); rfl)
    | with_reducible apply Upd.ite
    | with_reducible apply State.event_upd
    | with_reducible apply State.fails_upd)

theorem execGraphRegister_upd (box : Nat) (s₀ : State) : ∃ t, execGraphRegister box s₀ = .next t ∧ Upd [.free, .regs, .hbm, .coaches, .vecs, .mbox, .inprog, .lastCoach, .graphs, .link, .svc] s₀ t := by
  have h := Upd.refl (F := [.free, .regs, .hbm, .coaches, .vecs, .mbox, .inprog, .lastCoach, .graphs, .link, .svc]) s₀
  delta execGraphRegister
  repeat' (first
    | with_reducible assumption
    | ((with_reducible apply Part.Sub.of); rfl)
    | (intro s; refine (fun h => ?_) (?_ : Upd [.free, .regs, .hbm, .coaches, .vecs, .mbox, .inprog, .lastCoach, .graphs, .link, .svc] s₀ s); rotate_left; subst s; rotate_left)
    | lift_lets -underBinder
    | with_reducible apply Upd.ite
    | with_reducible apply Upd.next
    | (with_reducible apply Upd.graphs; case h => with_reducible assumption)
    | with_reducible apply State.refuses_upd
    | with_reducible apply State.fails_upd
    | with_reducible apply State.memWrite_upd
    | with_reducible apply State.extendCm_upd
    | with_reducible apply State.respond_upd
    | (with_reducible apply takeCommand_upd; case' hown => intro _ _ h)
    | split)

theorem execGraphUpdate_upd (box : Nat) (s₀ : State) : ∃ t, execGraphUpdate box s₀ = .next t ∧ Upd [.free, .regs, .coaches, .vecs, .mbox, .inprog, .lastCoach, .graphs, .link, .svc] s₀ t := by
  have h := Upd.refl (F := [.free, .regs, .coaches, .vecs, .mbox, .inprog, .lastCoach, .graphs, .link, .svc]) s₀
  delta execGraphUpdate
  repeat' (first
    | with_reducible assumption
    | ((with_reducible apply Part.Sub.of); rfl)
    | (intro s; refine (fun h => ?_) (?_ : Upd [.free, .regs, .coaches, .vecs, .mbox, .inprog, .lastCoach, .graphs, .link, .svc] s₀ s); rotate_left; subst s; rotate_left)
    | (intro s; have _h : List _ := s; clear _h; clear_value s)
    | intro s
    | lift_lets -underBinder
    | with_reducible apply Upd.next
    | with_reducible apply State.fails_upd
    | with_reducible apply State.modGraph_upd
    | with_reducible apply State.extendCm_upd
    | with_reducible apply State.respond_upd
    | (with_reducible apply takeCommand_upd; case' hown => intro _ _ h)
    | split)

theorem execGraphUnregister_upd (box : Nat) (s₀ : State) : ∃ t, execGraphUnregister box s₀ = .next t ∧ Upd [.free, .regs, .vecs, .mbox, .inprog, .lastCoach, .graphs, .link, .svc] s₀ t := by
  have h := Upd.refl (F := [.free, .regs, .vecs, .mbox, .inprog, .lastCoach, .graphs, .link, .svc]) s₀
  delta execGraphUnregister
  repeat' (first
    | with_reducible assumption
    | ((with_reducible apply Part.Sub.of); rfl)
    | intro s
    | lift_lets -underBinder
    | with_reducible apply Upd.ite
    | with_reducible apply Upd.next
    | (with_reducible apply Upd.graphs; case h => with_reducible assumption)
    | with_reducible apply State.respond_upd
    | with_reducible apply State.fails_upd
    | (with_reducible apply takeCommand_upd; case' hown => intro _ _ h)
    | split)

theorem execGraphShare_upd (box : Nat) (s₀ : State) : ∃ t, execGraphShare box s₀ = .next t ∧ Upd [.free, .regs, .vecs, .mbox, .inprog, .lastCoach, .graphs, .link, .svc] s₀ t := by
  have h := Upd.refl (F := [.free, .regs, .vecs, .mbox, .inprog, .lastCoach, .graphs, .link, .svc]) s₀
  delta execGraphShare
  repeat' (first
    | with_reducible assumption
    | ((with_reducible apply Part.Sub.of); rfl)
    | intro s
    | lift_lets -underBinder
    | with_reducible apply Upd.ite
    | with_reducible apply Upd.next
    | with_reducible apply State.fails_upd
    | with_reducible apply State.modGraph_upd
    | with_reducible apply State.respond_upd
    | (with_reducible apply takeCommand_upd; case' hown => intro _ _ h))

theorem execTableLoad_upd (box : Nat) (s₀ : State) : ∃ t, execTableLoad box s₀ = .next t ∧ Upd [.free, .regs, .vecs, .mbox, .inprog, .lastCoach, .tables, .link, .svc] s₀ t := by
  have h := Upd.refl (F := [.free, .regs, .vecs, .mbox, .inprog, .lastCoach, .tables, .link, .svc]) s₀
  delta execTableLoad
  repeat' (first
    | with_reducible assumption
    | ((with_reducible apply Part.Sub.of); rfl)
    | (intro s; refine (fun h => ?_) (?_ : Upd [.free, .regs, .vecs, .mbox, .inprog, .lastCoach, .tables, .link, .svc] s₀ s); rotate_left; subst s; rotate_left)
    | (intro s; have _h : List _ := s; clear _h; clear_value s)
    | intro s
    | lift_lets -underBinder
    | with_reducible apply Upd.ite
    | with_reducible apply Upd.next
    | (with_reducible apply Upd.tables; case h => with_reducible assumption)
    | with_reducible apply State.inProg_upd
    | with_reducible apply State.fails_upd
    | with_reducible apply State.respondBusy_upd
    | with_reducible apply State.set_upd
    | (with_reducible apply takeCommand_upd; case' hown => intro _ _ h))

theorem execTableLoadDone_upd (slot : Nat) (s₀ : State) : ∃ t, execTableLoadDone slot s₀ = .next t ∧ Upd [.regs, .vecs, .mbox, .inprog, .link, .boot, .svc] s₀ t := by
  have h := Upd.refl (F := [.regs, .vecs, .mbox, .inprog, .link, .boot, .svc]) s₀
  delta execTableLoadDone
  repeat' (first
    | with_reducible assumption
    | ((with_reducible apply Part.Sub.of); rfl)
    | (intro s; refine (fun h => ?_) (?_ : Upd [.regs, .vecs, .mbox, .inprog, .link, .boot, .svc] s₀ s); rotate_left; subst s; rotate_left)
    | intro s
    | lift_lets -underBinder
    | with_reducible apply Upd.ite
    | with_reducible apply Upd.next
    | with_reducible apply State.set_upd
    | with_reducible apply State.extendM_upd
    | with_reducible apply State.answerAll_upd)

theorem execTableRetire_upd (box : Nat) (s₀ : State) : ∃ t, execTableRetire box s₀ = .next t ∧ Upd [.free, .regs, .vecs, .mbox, .inprog, .lastCoach, .link, .svc] s₀ t := by
  have h := Upd.refl (F := [.free, .regs, .vecs, .mbox, .inprog, .lastCoach, .link, .svc]) s₀
  delta execTableRetire
  repeat' (first
    | with_reducible assumption
    | ((with_reducible apply Part.Sub.of); rfl)
    | intro s
    | lift_lets -underBinder
    | with_reducible apply Upd.ite
    | with_reducible apply Upd.next
    | with_reducible apply State.fails_upd
    | with_reducible apply State.set_upd
    | with_reducible apply State.respond_upd
    | (with_reducible apply takeCommand_upd; case' hown => intro _ _ h))

theorem State.loadOve_upd {F : List Part} {s₀ s : State} (i : Nat) (coach : Nat) (name : Nat) (desc : Nat) (graph : Nat) (h : Upd F s₀ s) (hF : Part.Sub [.regs, .hbm, .vecs, .gs, .sb, .link, .svc, .log] F) :
    Upd F s₀ (State.loadOve s i coach name desc graph) := by
  refine Upd.by_ h ?_ hF
  clear h hF
  revert s
  intro s₀
  have h := Upd.refl (F := [.regs, .hbm, .vecs, .gs, .sb, .link, .svc, .log]) s₀
  delta State.loadOve
  repeat' (first
    | with_reducible assumption
    | ((with_reducible apply Part.Sub.of); rfl)
    | (intro s; refine (fun h => ?_) (?_ : Upd [.regs, .hbm, .vecs, .gs, .sb, .link, .svc, .log] s₀ s); rotate_left; subst s; rotate_left)
    | (intro s; have _h : Option _ := s; clear _h; clear_value s)
    | intro s
    | lift_lets -underBinder
    | with_reducible apply State.memWrite_upd
    | with_reducible apply State.setOve_upd
    | with_reducible apply State.setName_upd
    | with_reducible apply State.moveOn_upd
    | split)

theorem execOverlayLoad_upd (box : Nat) (pick : Nat) (s₀ : State) : ∃ t, execOverlayLoad box pick s₀ = .next t ∧ Upd [.free, .regs, .hbm, .coaches, .vecs, .mbox, .inprog, .lastCoach, .gs, .sb, .link, .svc, .log] s₀ t := by
  have h := Upd.refl (F := [.free, .regs, .hbm, .coaches, .vecs, .mbox, .inprog, .lastCoach, .gs, .sb, .link, .svc, .log]) s₀
  delta execOverlayLoad
  repeat' (first
    | with_reducible assumption
    | ((with_reducible apply Part.Sub.of); rfl)
    | (intro s; refine (fun h => ?_) (?_ : Upd [.free, .regs, .hbm, .coaches, .vecs, .mbox, .inprog, .lastCoach, .gs, .sb, .link, .svc, .log] s₀ s); rotate_left; subst s; rotate_left)
    | (intro s; have _h : Option _ := s; clear _h; clear_value s)
    | intro s
    | lift_lets -underBinder
    | with_reducible apply Upd.ite
    | with_reducible apply Upd.next
    | with_reducible apply State.fails_upd
    | with_reducible apply State.refuses_upd
    | with_reducible apply State.loadOve_upd
    | with_reducible apply State.extendCm_upd
    | with_reducible apply State.respond_upd
    | (with_reducible apply takeCommand_upd; case' hown => intro _ _ h)
    | split)

theorem execOverlayDrop_upd (box : Nat) (s₀ : State) : ∃ t, execOverlayDrop box s₀ = .next t ∧ Upd [.free, .regs, .vecs, .mbox, .inprog, .lastCoach, .gs, .sb, .link, .svc, .log] s₀ t := by
  have h := Upd.refl (F := [.free, .regs, .vecs, .mbox, .inprog, .lastCoach, .gs, .sb, .link, .svc, .log]) s₀
  delta execOverlayDrop
  repeat' (first
    | with_reducible assumption
    | ((with_reducible apply Part.Sub.of); rfl)
    | intro s
    | lift_lets -underBinder
    | with_reducible apply Upd.ite
    | with_reducible apply Upd.next
    | with_reducible apply State.fails_upd
    | with_reducible apply State.dropName_upd
    | with_reducible apply State.respond_upd
    | (with_reducible apply takeCommand_upd; case' hown => intro _ _ h))

theorem execOverlayRead_upd (box : Nat) (s₀ : State) : ∃ t, execOverlayRead box s₀ = .next t ∧ Upd [.free, .regs, .vecs, .mbox, .inprog, .lastCoach, .link, .svc] s₀ t := by
  have h := Upd.refl (F := [.free, .regs, .vecs, .mbox, .inprog, .lastCoach, .link, .svc]) s₀
  delta execOverlayRead
  repeat' (first
    | with_reducible assumption
    | ((with_reducible apply Part.Sub.of); rfl)
    | intro s
    | lift_lets -underBinder
    | with_reducible apply Upd.ite
    | with_reducible apply Upd.next
    | with_reducible apply State.fails_upd
    | with_reducible apply State.respond_upd
    | (with_reducible apply takeCommand_upd; case' hown => intro _ _ h))

end Sys2Proof.Machine
end

