-- ==== Sys2Proof/Laws/UpdManagement.lean ====
section
/-!
SUPPORT. What each operation of Machine/Management.lean may change.
-/
namespace Sys2Proof.Machine

theorem execGetInfo_upd (box : Nat) (s₀ : State) : ∃ t, execGetInfo box s₀ = .next t ∧ Upd [.free, .regs, .vecs, .mbox, .inprog, .lastCoach, .link, .svc] s₀ t := by
  have h := Upd.refl (F := [.free, .regs, .vecs, .mbox, .inprog, .lastCoach, .link, .svc]) s₀
  delta execGetInfo
  repeat' (first
    | with_reducible assumption
    | ((with_reducible apply Part.Sub.of); rfl)
    | with_reducible apply Upd.next
    | with_reducible apply State.respond_upd
    | (with_reducible apply takeCommand_upd; case' hown => intro _ _ h))

theorem execSetRole_upd (box : Nat) (s₀ : State) : ∃ t, execSetRole box s₀ = .next t ∧ Upd [.free, .regs, .vecs, .mbox, .inprog, .lastCoach, .gs, .link, .svc] s₀ t := by
  have h := Upd.refl (F := [.free, .regs, .vecs, .mbox, .inprog, .lastCoach, .gs, .link, .svc]) s₀
  delta execSetRole
  repeat' (first
    | with_reducible assumption
    | ((with_reducible apply Part.Sub.of); rfl)
    | intro s
    | lift_lets -underBinder
    | with_reducible apply Upd.ite
    | with_reducible apply Upd.next
    | (with_reducible apply Upd.gs; case h => with_reducible assumption)
    | with_reducible apply State.inProg_upd
    | with_reducible apply State.respond_upd
    | with_reducible apply State.setChip_upd
    | (with_reducible apply takeCommand_upd; case' hown => intro _ _ h))

theorem execSetCoreConfig_upd (box : Nat) (s₀ : State) : ∃ t, execSetCoreConfig box s₀ = .next t ∧ Upd [.free, .regs, .vecs, .mbox, .inprog, .lastCoach, .link, .boot, .svc] s₀ t := by
  have h := Upd.refl (F := [.free, .regs, .vecs, .mbox, .inprog, .lastCoach, .link, .boot, .svc]) s₀
  delta execSetCoreConfig
  repeat' (first
    | with_reducible assumption
    | ((with_reducible apply Part.Sub.of); rfl)
    | intro s
    | lift_lets -underBinder
    | with_reducible apply Upd.ite
    | with_reducible apply Upd.next
    | (with_reducible apply Upd.boot; case h => with_reducible assumption)
    | with_reducible apply State.extendM_upd
    | with_reducible apply State.respond_upd
    | (with_reducible apply takeCommand_upd; case' hown => intro _ _ h))

theorem State.rewired_upd {F : List Part} {s₀ s : State} (p : Nat) (h : Upd F s₀ s) (hF : Part.Sub [.regs, .link] F) :
    Upd F s₀ (State.rewired s p) := by
  refine Upd.by_ h ?_ hF
  clear h hF
  revert s
  intro s₀
  have h := Upd.refl (F := [.regs, .link]) s₀
  delta State.rewired
  repeat' (first
    | with_reducible assumption
    | ((with_reducible apply Part.Sub.of); rfl)
    | (intro s; refine (fun h => ?_) (?_ : Upd [.regs, .link] s₀ s); rotate_left; subst s; rotate_left)
    | lift_lets -underBinder
    | with_reducible apply Upd.ite
    | with_reducible apply State.enterLink_upd
    | with_reducible apply State.set_upd
    | with_reducible apply State.modPort_upd)

theorem State.setNode_upd {F : List Part} {s₀ s : State} (node : Nat) (groups : Nat) (h : Upd F s₀ s) (hF : Part.Sub [.regs] F) :
    Upd F s₀ (State.setNode s node groups) := by
  refine Upd.by_ h ?_ hF
  clear h hF
  revert s
  intro s₀
  have h := Upd.refl (F := [.regs]) s₀
  delta State.setNode
  repeat' (first
    | with_reducible assumption
    | ((with_reducible apply Part.Sub.of); rfl)
    | intro s
    | lift_lets -underBinder
    | with_reducible apply State.setChip_upd)

theorem State.setTopo_upd {F : List Part} {s₀ s : State} (node : Nat) (groups : Nat) (hosts : Nat) (h : Upd F s₀ s) (hF : Part.Sub [.regs, .link] F) :
    Upd F s₀ (State.setTopo s node groups hosts) := by
  refine Upd.by_ h ?_ hF
  clear h hF
  revert s
  intro s₀
  have h := Upd.refl (F := [.regs, .link]) s₀
  delta State.setTopo
  repeat' (first
    | with_reducible assumption
    | ((with_reducible apply Part.Sub.of); rfl)
    | (intro s; refine (fun h => ?_) (?_ : Upd [.regs, .link] s₀ s); rotate_left; subst s; rotate_left)
    | intro s
    | lift_lets -underBinder
    | (with_reducible apply Upd.link; case h => with_reducible assumption)
    | (with_reducible apply Upd.foldl; case' hf => intro _ _ h)
    | with_reducible apply State.rewired_upd
    | with_reducible apply State.setNode_upd)

theorem execTopoSet_upd (box : Nat) (s₀ : State) : ∃ t, execTopoSet box s₀ = .next t ∧ Upd [.free, .regs, .vecs, .mbox, .inprog, .lastCoach, .link, .boot, .svc] s₀ t := by
  have h := Upd.refl (F := [.free, .regs, .vecs, .mbox, .inprog, .lastCoach, .link, .boot, .svc]) s₀
  delta execTopoSet
  repeat' (first
    | with_reducible assumption
    | ((with_reducible apply Part.Sub.of); rfl)
    | intro s
    | lift_lets -underBinder
    | with_reducible apply Upd.ite
    | with_reducible apply Upd.next
    | with_reducible apply State.respond_upd
    | with_reducible apply State.setTopo_upd
    | with_reducible apply State.extendM_upd
    | (with_reducible apply takeCommand_upd; case' hown => intro _ _ h))

theorem execDrain_upd (box : Nat) (s₀ : State) : ∃ t, execDrain box s₀ = .next t ∧ Upd [.free, .regs, .vecs, .mbox, .inprog, .lastCoach, .link, .svc] s₀ t := by
  have h := Upd.refl (F := [.free, .regs, .vecs, .mbox, .inprog, .lastCoach, .link, .svc]) s₀
  delta execDrain
  repeat' (first
    | with_reducible assumption
    | ((with_reducible apply Part.Sub.of); rfl)
    | (intro s; refine (fun h => ?_) (?_ : Upd [.free, .regs, .vecs, .mbox, .inprog, .lastCoach, .link, .svc] s₀ s); rotate_left; subst s; rotate_left)
    | intro s
    | lift_lets -underBinder
    | with_reducible apply Upd.ite
    | with_reducible apply Upd.next
    | with_reducible apply State.respond_upd
    | with_reducible apply State.setChip_upd
    | with_reducible apply State.refreshDrain_upd
    | with_reducible apply State.serviceNote_upd
    | with_reducible apply State.inProg_upd
    | (with_reducible apply takeCommand_upd; case' hown => intro _ _ h))

theorem execChipReset_upd (box : Nat) (s₀ : State) : ∃ t, execChipReset box s₀ = .next t ∧ Upd [.free, .regs, .cores, .vecs, .mbox, .inprog, .lastCoach, .gs, .link, .svc, .log, .noc] s₀ t := by
  have h := Upd.refl (F := [.free, .regs, .cores, .vecs, .mbox, .inprog, .lastCoach, .gs, .link, .svc, .log, .noc]) s₀
  delta execChipReset
  repeat' (first
    | with_reducible assumption
    | ((with_reducible apply Part.Sub.of); rfl)
    | with_reducible apply Upd.next
    | with_reducible apply State.respond_upd
    | with_reducible apply State.warmTrigger_upd
    | (with_reducible apply takeCommand_upd; case' hown => intro _ _ h))

theorem execFwHandover_upd (box : Nat) (s₀ : State) : ∃ t, execFwHandover box s₀ = .next t ∧ Upd [.free, .regs, .vecs, .mbox, .inprog, .lastCoach, .link, .boot, .svc] s₀ t := by
  have h := Upd.refl (F := [.free, .regs, .vecs, .mbox, .inprog, .lastCoach, .link, .boot, .svc]) s₀
  delta execFwHandover
  repeat' (first
    | with_reducible assumption
    | ((with_reducible apply Part.Sub.of); rfl)
    | intro s
    | lift_lets -underBinder
    | with_reducible apply Upd.ite
    | with_reducible apply Upd.next
    | (with_reducible apply Upd.boot; case h => with_reducible assumption)
    | with_reducible apply State.setChip_upd
    | with_reducible apply State.respond_upd
    | with_reducible apply State.inProg_upd
    | (with_reducible apply takeCommand_upd; case' hown => intro _ _ h))

theorem execCoreWithdraw_upd (box : Nat) (s₀ : State) : ∃ t, execCoreWithdraw box s₀ = .next t ∧ Upd [.free, .regs, .hbm, .spm, .cores, .coaches, .vecs, .mbox, .inprog, .lastCoach, .xlate, .graphs, .gs, .sb, .link, .svc, .log, .ledger, .noc] s₀ t := by
  have h := Upd.refl (F := [.free, .regs, .hbm, .spm, .cores, .coaches, .vecs, .mbox, .inprog, .lastCoach, .xlate, .graphs, .gs, .sb, .link, .svc, .log, .ledger, .noc]) s₀
  delta execCoreWithdraw
  repeat' (first
    | with_reducible assumption
    | ((with_reducible apply Part.Sub.of); rfl)
    | intro s
    | lift_lets -underBinder
    | with_reducible apply Upd.ite
    | with_reducible apply Upd.next
    | with_reducible apply State.respond_upd
    | with_reducible apply State.withdraw_upd
    | with_reducible apply State.settleAll_upd
    | with_reducible apply State.maybeCut_upd
    | with_reducible apply State.boundary_upd
    | (with_reducible apply takeCommand_upd; case' hown => intro _ _ h)
    | split)

theorem State.makeDue_upd {F : List Part} {s₀ s : State} (p : Nat) (h : Upd F s₀ s) (hF : Part.Sub [.cores] F) :
    Upd F s₀ (State.makeDue s p) := by
  refine Upd.by_ h ?_ hF
  clear h hF
  revert s
  intro s₀
  have h := Upd.refl (F := [.cores]) s₀
  delta State.makeDue
  repeat' (first
    | with_reducible assumption
    | ((with_reducible apply Part.Sub.of); rfl)
    | with_reducible apply State.modCore_upd)

theorem execCoreTest_upd (box : Nat) (s₀ : State) : ∃ t, execCoreTest box s₀ = .next t ∧ Upd [.free, .regs, .cores, .vecs, .mbox, .inprog, .lastCoach, .link, .svc] s₀ t := by
  have h := Upd.refl (F := [.free, .regs, .cores, .vecs, .mbox, .inprog, .lastCoach, .link, .svc]) s₀
  delta execCoreTest
  repeat' (first
    | with_reducible assumption
    | ((with_reducible apply Part.Sub.of); rfl)
    | intro s
    | lift_lets -underBinder
    | with_reducible apply Upd.ite
    | with_reducible apply Upd.next
    | with_reducible apply State.respond_upd
    | with_reducible apply State.makeDue_upd
    | with_reducible apply State.inProg_upd
    | (with_reducible apply takeCommand_upd; case' hown => intro _ _ h))

theorem execLogRead_upd (box : Nat) (s₀ : State) : ∃ t, execLogRead box s₀ = .next t ∧ Upd [.free, .regs, .vecs, .mbox, .inprog, .lastCoach, .link, .svc] s₀ t := by
  have h := Upd.refl (F := [.free, .regs, .vecs, .mbox, .inprog, .lastCoach, .link, .svc]) s₀
  delta execLogRead
  repeat' (first
    | with_reducible assumption
    | ((with_reducible apply Part.Sub.of); rfl)
    | intro s
    | lift_lets -underBinder
    | with_reducible apply Upd.ite
    | with_reducible apply Upd.next
    | with_reducible apply State.respond_upd
    | (with_reducible apply takeCommand_upd; case' hown => intro _ _ h))

theorem execIdGet_upd (box : Nat) (s₀ : State) : ∃ t, execIdGet box s₀ = .next t ∧ Upd [.free, .regs, .vecs, .mbox, .inprog, .lastCoach, .link, .svc] s₀ t := by
  have h := Upd.refl (F := [.free, .regs, .vecs, .mbox, .inprog, .lastCoach, .link, .svc]) s₀
  delta execIdGet
  repeat' (first
    | with_reducible assumption
    | ((with_reducible apply Part.Sub.of); rfl)
    | lift_lets -underBinder
    | with_reducible apply Upd.ite
    | with_reducible apply Upd.next
    | with_reducible apply State.respond_upd
    | (with_reducible apply takeCommand_upd; case' hown => intro _ _ h)
    | split)

theorem execAttestQuote_upd (box : Nat) (s₀ : State) : ∃ t, execAttestQuote box s₀ = .next t ∧ Upd [.free, .regs, .vecs, .mbox, .inprog, .lastCoach, .link, .boot, .svc] s₀ t := by
  have h := Upd.refl (F := [.free, .regs, .vecs, .mbox, .inprog, .lastCoach, .link, .boot, .svc]) s₀
  delta execAttestQuote
  repeat' (first
    | with_reducible assumption
    | ((with_reducible apply Part.Sub.of); rfl)
    | intro s
    | lift_lets -underBinder
    | with_reducible apply Upd.ite
    | with_reducible apply Upd.next
    | (with_reducible apply Upd.boot; case h => with_reducible assumption)
    | with_reducible apply State.inProg_upd
    | with_reducible apply State.respond_upd
    | with_reducible apply State.respondBusy_upd
    | (with_reducible apply takeCommand_upd; case' hown => intro _ _ h))

theorem execQuoteSigned_upd (s₀ : State) : ∃ t, execQuoteSigned s₀ = .next t ∧ Upd [.regs, .vecs, .mbox, .inprog, .link, .boot, .svc] s₀ t := by
  have h := Upd.refl (F := [.regs, .vecs, .mbox, .inprog, .link, .boot, .svc]) s₀
  delta execQuoteSigned
  repeat' (first
    | with_reducible assumption
    | ((with_reducible apply Part.Sub.of); rfl)
    | (intro s; refine (fun h => ?_) (?_ : Upd [.regs, .vecs, .mbox, .inprog, .link, .boot, .svc] s₀ s); rotate_left; subst s; rotate_left)
    | (intro s; have _h : List _ := s; clear _h; clear_value s)
    | intro s
    | lift_lets -underBinder
    | with_reducible apply Upd.ite
    | with_reducible apply Upd.next
    | (with_reducible apply Upd.boot; case h => with_reducible assumption)
    | with_reducible apply State.respond_upd
    | split)

/-- A port under a new topology map leaves the chip registers, the boot state and the mailboxes. -/
theorem State.rewired_keeps (s : State) (p : Nat) (f : Fld) (h : s.regs.wf = true) (hf : f.off < 0x300000) :
    (s.rewired p).regs.wf = true ∧ (s.rewired p).chip f = s.chip f ∧ (s.rewired p).boot = s.boot ∧ (s.rewired p).mbox = s.mbox := by
  have ha (g : Fld) (hg : g = F.portState ∨ g = F.portLaneLock) : chipB + f.off ≠ portB p + g.off := by
    rcases hg with rfl | rfl <;> simp only [chipB, portB, F.portState, F.portLaneLock] <;> omega
  have h1 (st : Nat) : (s.set (portB p) F.portState st).chip f = s.chip f :=
    State.get_set_word s _ _ _ chipB f h (ha _ (.inl rfl))
  have w1 (st : Nat) : (s.set (portB p) F.portState st).regs.wf = true := State.wf_set s _ _ _ h
  by_cases hm : s.linkState p = Ls.miswired
  · by_cases he : SMap.look 0 s.link.expect p = 0
    · have e : (s.rewired p).regs = ((s.set (portB p) F.portState Ls.down).set (portB p) F.portLaneLock 0).regs := by
        simp only [State.rewired, hm, he, ne_eq, not_true_eq_false, if_false, if_true]
        rfl
      refine ⟨e ▸ State.wf_set _ _ _ _ (w1 _), ?_, ?_, ?_⟩
      · rw [State.chip_congr e]
        exact (State.get_set_word _ _ _ _ chipB f (w1 _) (ha _ (.inr rfl))).trans (h1 _)
      · simp only [State.rewired, hm, he, ne_eq, not_true_eq_false, if_false, if_true]
        rfl
      · simp only [State.rewired, hm, he, ne_eq, not_true_eq_false, if_false, if_true]
        rfl
    · have e : (s.rewired p).regs = (s.set (portB p) F.portState Ls.training).regs := by
        simp only [State.rewired, hm, he, ne_eq, not_true_eq_false, if_false]
        rfl
      refine ⟨e ▸ w1 _, (State.chip_congr e f).trans (h1 _), ?_, ?_⟩
      · simp only [State.rewired, hm, he, ne_eq, not_true_eq_false, if_false]
        rfl
      · simp only [State.rewired, hm, he, ne_eq, not_true_eq_false, if_false]
        rfl
  · have e : s.rewired p = s := by simp only [State.rewired, hm, ne_eq, not_false_eq_true, if_true]
    rw [e]
    exact ⟨h, rfl, rfl, rfl⟩

theorem State.foldl_rewired_keeps (l : List Nat) (s : State) (f : Fld) (h : s.regs.wf = true) (hf : f.off < 0x300000) :
    let t := l.foldl (fun s p => State.rewired s p) s
    t.regs.wf = true ∧ t.chip f = s.chip f ∧ t.boot = s.boot ∧ t.mbox = s.mbox := by
  induction l generalizing s with
  | nil => exact ⟨h, rfl, rfl, rfl⟩
  | cons p r ih =>
    have a := State.rewired_keeps s p f h hf
    have b := ih (s.rewired p) a.1
    exact ⟨b.1, b.2.1.trans a.2.1, b.2.2.1.trans a.2.2.1, b.2.2.2.trans a.2.2.2⟩

theorem State.setNode_wf (s : State) (node groups : Nat) (h : s.regs.wf = true) : (s.setNode node groups).regs.wf = true :=
  State.wf_setChip _ _ _ (State.wf_setChip _ _ _ (State.wf_setChip _ _ _ (State.wf_setChip _ _ _ (State.wf_setChip _ _ _
    (State.wf_setChip s _ _ h)))))

theorem State.topo_keeps (v : State) (e : SMap Nat) (f : Fld) (h : v.regs.wf = true) (hf : f.off < 0x300000) :
    let w : State := { v with link := { v.link with expect := e } }
    let t := (List.range 16).foldl (fun s p => State.rewired s p) w
    t.regs.wf = true ∧ t.chip f = v.chip f ∧ t.boot = v.boot ∧ t.mbox = v.mbox := by
  intro w t
  have k := State.foldl_rewired_keeps (List.range 16) w f h hf
  exact ⟨k.1, k.2.1, k.2.2.1, k.2.2.2⟩

/-- Loading a topology map writes EKL_NODE, and leaves the other chip registers, the boot state and the mailboxes. -/
theorem State.setTopo_keeps (s : State) (node groups hosts : Nat) (f : Fld) (h : s.regs.wf = true) (hf : f.off < 0x300000) :
    (s.setTopo node groups hosts).regs.wf = true ∧ (s.setTopo node groups hosts).chip f = (s.setNode node groups).chip f ∧
      (s.setTopo node groups hosts).boot = (s.setNode node groups).boot ∧
      (s.setTopo node groups hosts).mbox = (s.setNode node groups).mbox := by
  unfold State.setTopo
  exact State.topo_keeps _ _ f (s.setNode_wf node groups h) hf

end Sys2Proof.Machine
end

