-- ==== Sys2Proof/Laws/UpdPower.lean ====
section
/-!
SUPPORT. What each operation of Machine/Power.lean may change.
-/
namespace Sys2Proof.Machine

theorem State.powerOff_upd {F : List Part} {s₀ s : State} (rails : Nat) (h : Upd F s₀ s) (hF : Part.Sub [.free, .gcount, .regs, .hbm, .spm, .cores, .coaches, .vecs, .mbox, .inprog, .lastCoach, .xlate, .tables, .graphs, .gs, .sb, .link, .boot, .pwr, .svc, .jtag, .log, .ledger, .noc] F) :
    Upd F s₀ (State.powerOff s rails) := by
  refine Upd.by_ h ?_ hF
  clear h hF
  revert s
  intro s₀
  have h := Upd.refl (F := [.free, .gcount, .regs, .hbm, .spm, .cores, .coaches, .vecs, .mbox, .inprog, .lastCoach, .xlate, .tables, .graphs, .gs, .sb, .link, .boot, .pwr, .svc, .jtag, .log, .ledger, .noc]) s₀
  delta State.powerOff
  repeat' (first
    | with_reducible assumption
    | ((with_reducible apply Part.Sub.of); rfl)
    | (intro s; refine (fun h => ?_) (?_ : Upd [.free, .gcount, .regs, .hbm, .spm, .cores, .coaches, .vecs, .mbox, .inprog, .lastCoach, .xlate, .tables, .graphs, .gs, .sb, .link, .boot, .pwr, .svc, .jtag, .log, .ledger, .noc] s₀ s); rotate_left; subst s; rotate_left)
    | intro s
    | lift_lets -underBinder
    | (with_reducible apply Upd.pwr; case h => with_reducible assumption)
    | with_reducible apply State.coldHeld_upd)

theorem State.clockAdvance_upd {F : List Part} {s₀ s : State} (h : Upd F s₀ s) (hF : Part.Sub [.regs, .pwr] F) :
    Upd F s₀ (State.clockAdvance s) := by
  refine Upd.by_ h ?_ hF
  clear h hF
  revert s
  intro s₀
  have h := Upd.refl (F := [.regs, .pwr]) s₀
  delta State.clockAdvance
  repeat' (first
    | with_reducible assumption
    | ((with_reducible apply Part.Sub.of); rfl)
    | intro s
    | lift_lets -underBinder
    | with_reducible apply Upd.ite
    | (with_reducible apply Upd.pwr; case h => with_reducible assumption)
    | with_reducible apply State.setChip_upd)

theorem execPwrgdRise_upd (s₀ : State) : ∃ t, execPwrgdRise s₀ = .next t ∧ Upd [.free, .gcount, .regs, .hbm, .spm, .cores, .coaches, .vecs, .mbox, .inprog, .lastCoach, .xlate, .tables, .graphs, .gs, .sb, .link, .boot, .pwr, .svc, .jtag, .log, .ledger, .noc] s₀ t := by
  have h := Upd.refl (F := [.free, .gcount, .regs, .hbm, .spm, .cores, .coaches, .vecs, .mbox, .inprog, .lastCoach, .xlate, .tables, .graphs, .gs, .sb, .link, .boot, .pwr, .svc, .jtag, .log, .ledger, .noc]) s₀
  delta execPwrgdRise
  repeat' (first
    | with_reducible assumption
    | ((with_reducible apply Part.Sub.of); rfl)
    | (intro s; refine (fun h => ?_) (?_ : Upd [.free, .gcount, .regs, .hbm, .spm, .cores, .coaches, .vecs, .mbox, .inprog, .lastCoach, .xlate, .tables, .graphs, .gs, .sb, .link, .boot, .pwr, .svc, .jtag, .log, .ledger, .noc] s₀ s); rotate_left; subst s; rotate_left)
    | intro s
    | lift_lets -underBinder
    | with_reducible apply Upd.ite
    | with_reducible apply Upd.next
    | (with_reducible apply Upd.pwr; case h => with_reducible assumption)
    | with_reducible apply State.coldHeld_upd)

theorem execPwrgdFall_upd (s₀ : State) : ∃ t, execPwrgdFall s₀ = .next t ∧ Upd [.free, .gcount, .regs, .hbm, .spm, .cores, .coaches, .vecs, .mbox, .inprog, .lastCoach, .xlate, .tables, .graphs, .gs, .sb, .link, .boot, .pwr, .svc, .jtag, .log, .ledger, .noc] s₀ t := by
  have h := Upd.refl (F := [.free, .gcount, .regs, .hbm, .spm, .cores, .coaches, .vecs, .mbox, .inprog, .lastCoach, .xlate, .tables, .graphs, .gs, .sb, .link, .boot, .pwr, .svc, .jtag, .log, .ledger, .noc]) s₀
  delta execPwrgdFall
  repeat' (first
    | with_reducible assumption
    | ((with_reducible apply Part.Sub.of); rfl)
    | (intro s; refine (fun h => ?_) (?_ : Upd [.free, .gcount, .regs, .hbm, .spm, .cores, .coaches, .vecs, .mbox, .inprog, .lastCoach, .xlate, .tables, .graphs, .gs, .sb, .link, .boot, .pwr, .svc, .jtag, .log, .ledger, .noc] s₀ s); rotate_left; subst s; rotate_left)
    | intro s
    | lift_lets -underBinder
    | with_reducible apply Upd.ite
    | with_reducible apply Upd.next
    | (with_reducible apply Upd.pwr; case h => with_reducible assumption)
    | with_reducible apply State.powerOff_upd)

theorem execRegulatorGood_upd (rail : Nat) (s₀ : State) : ∃ t, execRegulatorGood rail s₀ = .next t ∧ Upd [.free, .regs, .vecs, .gs, .link, .boot, .pwr, .svc, .log] s₀ t := by
  have h := Upd.refl (F := [.free, .regs, .vecs, .gs, .link, .boot, .pwr, .svc, .log]) s₀
  delta execRegulatorGood
  repeat' (first
    | with_reducible assumption
    | ((with_reducible apply Part.Sub.of); rfl)
    | (intro s; refine (fun h => ?_) (?_ : Upd [.free, .regs, .vecs, .gs, .link, .boot, .pwr, .svc, .log] s₀ s); rotate_left; subst s; rotate_left)
    | intro s
    | lift_lets -underBinder
    | with_reducible apply Upd.ite
    | with_reducible apply Upd.next
    | (with_reducible apply Upd.pwr; case h => with_reducible assumption)
    | with_reducible apply State.clockAdvance_upd
    | with_reducible apply State.trainToLink_upd
    | with_reducible apply State.lasersOn_upd)

theorem execRegulatorTimeout_upd (rail : Nat) (s₀ : State) : ∃ t, execRegulatorTimeout rail s₀ = .next t ∧ Upd [.pwr] s₀ t := by
  have h := Upd.refl (F := [.pwr]) s₀
  delta execRegulatorTimeout
  repeat' (first
    | with_reducible assumption
    | ((with_reducible apply Part.Sub.of); rfl)
    | intro s
    | lift_lets -underBinder
    | with_reducible apply Upd.ite
    | with_reducible apply Upd.next
    | (with_reducible apply Upd.pwr; case h => with_reducible assumption))

theorem State.beginWake_upd {F : List Part} {s₀ s : State} (warm : Bool) (h : Upd F s₀ s) (hF : Part.Sub [.regs, .pwr] F) :
    Upd F s₀ (State.beginWake s warm) := by
  refine Upd.by_ h ?_ hF
  clear h hF
  revert s
  intro s₀
  have h := Upd.refl (F := [.regs, .pwr]) s₀
  delta State.beginWake
  repeat' (first
    | with_reducible assumption
    | ((with_reducible apply Part.Sub.of); rfl)
    | (intro s; refine (fun h => ?_) (?_ : Upd [.regs, .pwr] s₀ s); rotate_left; subst s; rotate_left)
    | intro s
    | lift_lets -underBinder
    | (with_reducible apply Upd.pwr; case h => with_reducible assumption)
    | with_reducible apply State.setChip_upd)

theorem execPoreset_upd (asserted : Bool) (straps : Nat) (testen : Bool) (s₀ : State) : ∃ t, execPoreset asserted straps testen s₀ = .next t ∧ Upd [.free, .gcount, .regs, .hbm, .spm, .cores, .coaches, .vecs, .mbox, .inprog, .lastCoach, .xlate, .tables, .graphs, .gs, .sb, .link, .boot, .pwr, .svc, .jtag, .log, .ledger, .noc] s₀ t := by
  have h := Upd.refl (F := [.free, .gcount, .regs, .hbm, .spm, .cores, .coaches, .vecs, .mbox, .inprog, .lastCoach, .xlate, .tables, .graphs, .gs, .sb, .link, .boot, .pwr, .svc, .jtag, .log, .ledger, .noc]) s₀
  delta execPoreset
  repeat' (first
    | with_reducible assumption
    | ((with_reducible apply Part.Sub.of); rfl)
    | ((with_reducible apply Or.inr); exact .of rfl)
    | ((with_reducible apply Or.inl); rfl)
    | with_reducible apply Nat.le_refl
    | with_reducible apply Upd.gcount_id
    | with_reducible apply MemUpd.refl
    | with_reducible apply RegsUpd.refl
    | with_reducible apply FusesUpd.refl
    | with_reducible apply NocUpd.refl
    | (intro s; refine (fun h => ?_) (?_ : Upd [.free, .gcount, .regs, .hbm, .spm, .cores, .coaches, .vecs, .mbox, .inprog, .lastCoach, .xlate, .tables, .graphs, .gs, .sb, .link, .boot, .pwr, .svc, .jtag, .log, .ledger, .noc] s₀ s); rotate_left; subst s; rotate_left)
    | intro s
    | lift_lets -underBinder
    | with_reducible apply Upd.ite
    | with_reducible apply Upd.next
    | (with_reducible apply Upd.pwr; case h => with_reducible assumption)
    | (with_reducible apply Upd.fields; (case h => with_reducible assumption))
    | with_reducible apply State.coldHeld_upd
    | with_reducible apply State.setChip_upd
    | with_reducible apply State.clockAdvance_upd)

theorem execWarmreset_upd (s₀ : State) : ∃ t, execWarmreset s₀ = .next t ∧ Upd [.regs, .cores, .gs, .link, .pwr, .log, .noc] s₀ t := by
  have h := Upd.refl (F := [.regs, .cores, .gs, .link, .pwr, .log, .noc]) s₀
  delta execWarmreset
  repeat' (first
    | with_reducible assumption
    | ((with_reducible apply Part.Sub.of); rfl)
    | with_reducible apply Upd.ite
    | with_reducible apply Upd.next
    | with_reducible apply State.beginWake_upd
    | with_reducible apply State.warmTrigger_upd)

theorem execXtalDelayEnd_upd (s₀ : State) : ∃ t, execXtalDelayEnd s₀ = .next t ∧ Upd [.regs, .pwr] s₀ t := by
  have h := Upd.refl (F := [.regs, .pwr]) s₀
  delta execXtalDelayEnd
  repeat' (first
    | with_reducible assumption
    | ((with_reducible apply Part.Sub.of); rfl)
    | intro s
    | lift_lets -underBinder
    | with_reducible apply Upd.ite
    | with_reducible apply Upd.next
    | (with_reducible apply Upd.pwr; case h => with_reducible assumption)
    | with_reducible apply State.clockAdvance_upd)

theorem State.clockFail_upd {F : List Part} {s₀ s : State} (chk : Nat) (h : Upd F s₀ s) (hF : Part.Sub [.regs, .hbm, .pwr, .svc] F) :
    Upd F s₀ (State.clockFail s chk) := by
  refine Upd.by_ h ?_ hF
  clear h hF
  revert s
  intro s₀
  have h := Upd.refl (F := [.regs, .hbm, .pwr, .svc]) s₀
  delta State.clockFail
  repeat' (first
    | with_reducible assumption
    | ((with_reducible apply Part.Sub.of); rfl)
    | ((with_reducible apply Or.inr); exact .of rfl)
    | ((with_reducible apply Or.inl); rfl)
    | with_reducible apply Nat.le_refl
    | with_reducible apply Upd.gcount_id
    | (with_reducible apply MemUpd.nil; with_reducible apply MemUpd.refl)
    | with_reducible apply MemUpd.refl
    | with_reducible apply RegsUpd.refl
    | with_reducible apply FusesUpd.refl
    | with_reducible apply NocUpd.refl
    | (intro s; refine (fun h => ?_) (?_ : Upd [.regs, .hbm, .pwr, .svc] s₀ s); rotate_left; subst s; rotate_left)
    | intro s
    | lift_lets -underBinder
    | (with_reducible apply Upd.fields; (case h => with_reducible assumption))
    | with_reducible apply State.setChip_upd
    | with_reducible apply State.lasersOff_upd
    | with_reducible apply State.alertCause_upd)

theorem State.restored_upd {F : List Part} {s₀ s : State} (h : Upd F s₀ s) (hF : Part.Sub [.regs, .cores, .gs, .link, .pwr, .log, .ledger, .noc] F) :
    Upd F s₀ (State.restored s) := by
  refine Upd.by_ h ?_ hF
  clear h hF
  revert s
  intro s₀
  have h := Upd.refl (F := [.regs, .cores, .gs, .link, .pwr, .log, .ledger, .noc]) s₀
  delta State.restored
  repeat' (first
    | with_reducible assumption
    | ((with_reducible apply Part.Sub.of); rfl)
    | (intro s; refine (fun h => ?_) (?_ : Upd [.regs, .cores, .gs, .link, .pwr, .log, .ledger, .noc] s₀ s); rotate_left; subst s; rotate_left)
    | intro s
    | lift_lets -underBinder
    | with_reducible apply Upd.ite
    | (with_reducible apply Upd.foldl; case' hf => intro _ _ h)
    | (with_reducible apply Upd.pwr; case h => with_reducible assumption)
    | with_reducible apply State.warmTrigger_upd
    | with_reducible apply State.ledgerTrigger_upd
    | with_reducible apply State.set_upd
    | with_reducible apply State.enterLink_upd)

theorem State.clocksRun_upd {F : List Part} {s₀ s : State} (h : Upd F s₀ s) (hF : Part.Sub [.gcount, .regs, .cores, .gs, .link, .pwr, .log, .ledger, .noc] F) :
    Upd F s₀ (State.clocksRun s) := by
  refine Upd.by_ h ?_ hF
  clear h hF
  revert s
  intro s₀
  have h := Upd.refl (F := [.gcount, .regs, .cores, .gs, .link, .pwr, .log, .ledger, .noc]) s₀
  delta State.clocksRun
  repeat' (first
    | with_reducible assumption
    | ((with_reducible apply Part.Sub.of); rfl)
    | with_reducible apply Upd.gcount_zero
    | (intro s; refine (fun h => ?_) (?_ : Upd [.gcount, .regs, .cores, .gs, .link, .pwr, .log, .ledger, .noc] s₀ s); rotate_left; subst s; rotate_left)
    | lift_lets -underBinder
    | with_reducible apply Upd.ite
    | (with_reducible apply Upd.setGcount; case h => with_reducible assumption)
    | with_reducible apply State.enterRom_upd
    | with_reducible apply State.setChip_upd
    | with_reducible apply State.restored_upd)

theorem execPllLockDone_upd (xtalOk : Bool) (locked : Bool) (s₀ : State) : ∃ t, execPllLockDone xtalOk locked s₀ = .next t ∧ Upd [.gcount, .regs, .hbm, .cores, .gs, .link, .pwr, .svc, .log, .ledger, .noc] s₀ t := by
  have h := Upd.refl (F := [.gcount, .regs, .hbm, .cores, .gs, .link, .pwr, .svc, .log, .ledger, .noc]) s₀
  delta execPllLockDone
  repeat' (first
    | with_reducible assumption
    | ((with_reducible apply Part.Sub.of); rfl)
    | (intro s; refine (fun h => ?_) (?_ : Upd [.gcount, .regs, .hbm, .cores, .gs, .link, .pwr, .svc, .log, .ledger, .noc] s₀ s); rotate_left; subst s; rotate_left)
    | intro s
    | lift_lets -underBinder
    | with_reducible apply Upd.ite
    | with_reducible apply Upd.next
    | (with_reducible apply Upd.pwr; case h => with_reducible assumption)
    | with_reducible apply State.clocksRun_upd
    | with_reducible apply State.clockFail_upd
    | with_reducible apply State.bumpSat_upd
    | with_reducible apply State.setChip_upd)

theorem execPllLockLoss_upd (s₀ : State) : ∃ t, execPllLockLoss s₀ = .next t ∧ Upd [.regs, .hbm, .pwr, .svc] s₀ t := by
  have h := Upd.refl (F := [.regs, .hbm, .pwr, .svc]) s₀
  delta execPllLockLoss
  repeat' (first
    | with_reducible assumption
    | ((with_reducible apply Part.Sub.of); rfl)
    | with_reducible apply Upd.ite
    | with_reducible apply Upd.next
    | with_reducible apply State.clockFail_upd)

theorem execIoscTrimMeasure_upd (ppm : Int) (s₀ : State) : ∃ t, execIoscTrimMeasure ppm s₀ = .next t ∧ Upd [.regs] s₀ t := by
  have h := Upd.refl (F := [.regs]) s₀
  delta execIoscTrimMeasure
  repeat' (first
    | with_reducible assumption
    | ((with_reducible apply Part.Sub.of); rfl)
    | (intro s; refine (fun h => ?_) (?_ : Upd [.regs] s₀ s); rotate_left; subst s; rotate_left)
    | intro s
    | lift_lets -underBinder
    | with_reducible apply Upd.ite
    | with_reducible apply Upd.next
    | with_reducible apply State.setChip_upd)

theorem execRefclkPresenceChange_upd (present : Bool) (s₀ : State) : ∃ t, execRefclkPresenceChange present s₀ = .next t ∧ Upd [.regs] s₀ t := by
  have h := Upd.refl (F := [.regs]) s₀
  delta execRefclkPresenceChange
  repeat' (first
    | with_reducible assumption
    | ((with_reducible apply Part.Sub.of); rfl)
    | (intro s; refine (fun h => ?_) (?_ : Upd [.regs] s₀ s); rotate_left; subst s; rotate_left)
    | lift_lets -underBinder
    | with_reducible apply Upd.next
    | with_reducible apply State.setChip_upd)

theorem execVinUndervolt_upd (mv : Nat) (s₀ : State) : ∃ t, execVinUndervolt mv s₀ = .next t ∧ Upd [.regs, .vecs, .gs, .link, .svc, .log] s₀ t := by
  have h := Upd.refl (F := [.regs, .vecs, .gs, .link, .svc, .log]) s₀
  delta execVinUndervolt
  repeat' (first
    | with_reducible assumption
    | ((with_reducible apply Part.Sub.of); rfl)
    | (intro s; refine (fun h => ?_) (?_ : Upd [.regs, .vecs, .gs, .link, .svc, .log] s₀ s); rotate_left; subst s; rotate_left)
    | lift_lets -underBinder
    | with_reducible apply Upd.ite
    | with_reducible apply Upd.next
    | with_reducible apply State.setChip_upd
    | with_reducible apply State.alertCause_upd
    | with_reducible apply State.raise_upd)

theorem execVinBrownout_upd (mv : Nat) (s₀ : State) : ∃ t, execVinBrownout mv s₀ = .next t ∧ Upd [.free, .gcount, .regs, .hbm, .spm, .cores, .coaches, .vecs, .mbox, .inprog, .lastCoach, .xlate, .tables, .graphs, .gs, .sb, .link, .boot, .pwr, .svc, .jtag, .log, .ledger, .noc] s₀ t := by
  have h := Upd.refl (F := [.free, .gcount, .regs, .hbm, .spm, .cores, .coaches, .vecs, .mbox, .inprog, .lastCoach, .xlate, .tables, .graphs, .gs, .sb, .link, .boot, .pwr, .svc, .jtag, .log, .ledger, .noc]) s₀
  delta execVinBrownout
  repeat' (first
    | with_reducible assumption
    | ((with_reducible apply Part.Sub.of); rfl)
    | intro s
    | lift_lets -underBinder
    | with_reducible apply Upd.ite
    | with_reducible apply Upd.next
    | (with_reducible apply Upd.pwr; case h => with_reducible assumption)
    | with_reducible apply State.powerOff_upd)

theorem State.takePwrCtrl_upd {F : List Part} {s₀ s : State} (h : Upd F s₀ s) (hF : Part.Sub [.pwr] F) :
    Upd F s₀ (State.takePwrCtrl s) := by
  refine Upd.by_ h ?_ hF
  clear h hF
  revert s
  intro s₀
  have h := Upd.refl (F := [.pwr]) s₀
  delta State.takePwrCtrl
  repeat' (first
    | with_reducible assumption
    | with_reducible exact Upd.refl _
    | ((with_reducible apply Part.Sub.of); rfl)
    | (intro s; refine (fun h => ?_) (?_ : Upd [.pwr] s₀ s); rotate_left; subst s; rotate_left)
    | (intro s; have _h : Option _ := s; clear _h; clear_value s)
    | (intro s; have _h : List _ := s; clear _h; clear_value s)
    | intro s
    | lift_lets -underBinder
    | with_reducible apply Upd.ite
    | (with_reducible apply Upd.pwr; case h => with_reducible assumption)
    | split)


theorem execThermSample_upd (tj : Nat) (more : Sensors) (s₀ : State) : ∃ t, execThermSample tj more s₀ = .next t ∧ Upd [.regs, .vecs, .gs, .link, .svc, .log] s₀ t := by
  have h := Upd.refl (F := [.regs, .vecs, .gs, .link, .svc, .log]) s₀
  delta execThermSample
  repeat' (first
    | with_reducible assumption
    | with_reducible exact Upd.refl _
    | ((with_reducible apply Part.Sub.of); rfl)
    | (intro s; refine (fun h => ?_) (?_ : Upd [.regs, .vecs, .gs, .link, .svc, .log] s₀ s); rotate_left; subst s; rotate_left)
    | (intro s; have _h : Option _ := s; clear _h; clear_value s)
    | (intro s; have _h : List _ := s; clear _h; clear_value s)
    | intro s
    | lift_lets -underBinder
    | with_reducible apply Upd.ite
    | with_reducible apply Upd.next
    | with_reducible apply State.setChip_upd
    | with_reducible apply State.raise_upd
    | with_reducible apply State.alertCause_upd
    | split)


theorem execThermalTrip_upd (s₀ : State) : ∃ t, execThermalTrip s₀ = .next t ∧ Upd [.free, .gcount, .regs, .hbm, .spm, .cores, .coaches, .vecs, .mbox, .inprog, .lastCoach, .xlate, .tables, .graphs, .gs, .sb, .link, .boot, .pwr, .svc, .jtag, .log, .ledger, .noc] s₀ t := by
  have h := Upd.refl (F := [.free, .gcount, .regs, .hbm, .spm, .cores, .coaches, .vecs, .mbox, .inprog, .lastCoach, .xlate, .tables, .graphs, .gs, .sb, .link, .boot, .pwr, .svc, .jtag, .log, .ledger, .noc]) s₀
  delta execThermalTrip
  repeat' (first
    | with_reducible assumption
    | with_reducible exact Upd.refl _
    | ((with_reducible apply Part.Sub.of); rfl)
    | (intro s; refine (fun h => ?_) (?_ : Upd [.free, .gcount, .regs, .hbm, .spm, .cores, .coaches, .vecs, .mbox, .inprog, .lastCoach, .xlate, .tables, .graphs, .gs, .sb, .link, .boot, .pwr, .svc, .jtag, .log, .ledger, .noc] s₀ s); rotate_left; subst s; rotate_left)
    | (intro s; have _h : Option _ := s; clear _h; clear_value s)
    | (intro s; have _h : List _ := s; clear _h; clear_value s)
    | intro s
    | lift_lets -underBinder
    | with_reducible apply Upd.ite
    | with_reducible apply Upd.next
    | (with_reducible apply Upd.pwr; case h => with_reducible assumption)
    | with_reducible apply State.powerOff_upd
    | split)


theorem execThrottleEval_upd (tj : Nat) (watts : Nat) (s₀ : State) : ∃ t, execThrottleEval tj watts s₀ = .next t ∧ Upd [.regs, .pwr] s₀ t := by
  have h := Upd.refl (F := [.regs, .pwr]) s₀
  delta execThrottleEval
  repeat' (first
    | with_reducible assumption
    | with_reducible exact Upd.refl _
    | ((with_reducible apply Part.Sub.of); rfl)
    | (intro s; refine (fun h => ?_) (?_ : Upd [.regs, .pwr] s₀ s); rotate_left; subst s; rotate_left)
    | (intro s; have _h : Option _ := s; clear _h; clear_value s)
    | (intro s; have _h : List _ := s; clear _h; clear_value s)
    | intro s
    | lift_lets -underBinder
    | with_reducible apply Upd.ite
    | with_reducible apply Upd.next
    | with_reducible apply State.setChip_upd
    | with_reducible apply State.count_upd
    | with_reducible apply State.takePwrCtrl_upd
    | split)


theorem State.endHold_upd {F : List Part} {s₀ s : State} (h : Upd F s₀ s) (hF : Part.Sub [.regs, .pwr] F) :
    Upd F s₀ (State.endHold s) := by
  refine Upd.by_ h ?_ hF
  clear h hF
  revert s
  intro s₀
  have h := Upd.refl (F := [.regs, .pwr]) s₀
  delta State.endHold
  repeat' (first
    | with_reducible assumption
    | ((with_reducible apply Part.Sub.of); rfl)
    | intro s
    | lift_lets -underBinder
    | with_reducible apply Upd.ite
    | (with_reducible apply Upd.pwr; case h => with_reducible assumption)
    | with_reducible apply State.count_upd)

theorem execThrottleWindow_upd (s₀ : State) : ∃ t, execThrottleWindow s₀ = .next t ∧ Upd [.regs, .pwr] s₀ t := by
  have h := Upd.refl (F := [.regs, .pwr]) s₀
  delta execThrottleWindow
  repeat' (first
    | with_reducible assumption
    | ((with_reducible apply Part.Sub.of); rfl)
    | (intro s; refine (fun h => ?_) (?_ : Upd [.regs, .pwr] s₀ s); rotate_left; subst s; rotate_left)
    | intro s
    | lift_lets -underBinder
    | with_reducible apply Upd.ite
    | with_reducible apply Upd.next
    | (with_reducible apply Upd.pwr; case h => with_reducible assumption)
    | with_reducible apply State.endHold_upd)

theorem State.standCheck_upd {F : List Part} {s₀ s : State} (c : Cmd) (own : State → State) (h : Upd F s₀ s) (hF : Part.Sub [.free, .regs, .vecs, .mbox, .inprog, .link, .svc] F)
    (hown : ∀ s, Upd F s₀ s → Upd F s₀ (own s)) :
    Upd F s₀ (State.standCheck s c own) := by
  delta State.standCheck
  repeat' (first
    | (with_reducible assumption)
    | ((with_reducible apply Part.Sub.trans _ hF); exact Part.Sub.of rfl)
    | with_reducible apply hown
    | with_reducible apply Upd.ite
    | with_reducible apply State.respondBusy_upd
    | with_reducible apply State.respond_upd)

theorem execStandEnter_upd (box : Nat) (s₀ : State) : ∃ t, execStandEnter box s₀ = .next t ∧ Upd [.free, .regs, .vecs, .mbox, .inprog, .lastCoach, .link, .pwr, .svc] s₀ t := by
  have h := Upd.refl (F := [.free, .regs, .vecs, .mbox, .inprog, .lastCoach, .link, .pwr, .svc]) s₀
  delta execStandEnter
  repeat' (first
    | with_reducible assumption
    | ((with_reducible apply Part.Sub.of); rfl)
    | (intro s; refine (fun h => ?_) (?_ : Upd [.free, .regs, .vecs, .mbox, .inprog, .lastCoach, .link, .pwr, .svc] s₀ s); rotate_left; subst s; rotate_left)
    | intro s
    | lift_lets -underBinder
    | with_reducible apply Upd.next
    | (with_reducible apply Upd.pwr; case h => with_reducible assumption)
    | (with_reducible apply State.standCheck_upd; case' hown => intro _ h)
    | with_reducible apply State.setChip_upd
    | with_reducible apply State.refreshDrain_upd
    | with_reducible apply State.inProg_upd
    | (with_reducible apply takeCommand_upd; case' hown => intro _ _ h))

theorem execStandDrained_upd (s₀ : State) : ∃ t, execStandDrained s₀ = .next t ∧ Upd [.regs, .vecs, .mbox, .inprog, .link, .pwr, .svc] s₀ t := by
  have h := Upd.refl (F := [.regs, .vecs, .mbox, .inprog, .link, .pwr, .svc]) s₀
  delta execStandDrained
  repeat' (first
    | with_reducible assumption
    | ((with_reducible apply Part.Sub.of); rfl)
    | intro s
    | lift_lets -underBinder
    | with_reducible apply Upd.ite
    | with_reducible apply Upd.next
    | (with_reducible apply Upd.pwr; case h => with_reducible assumption)
    | with_reducible apply State.answerAll_upd)

theorem State.portsDark_upd {F : List Part} {s₀ s : State} (h : Upd F s₀ s) (hF : Part.Sub [.regs, .hbm, .cores, .vecs, .gs, .sb, .link, .svc, .log] F) :
    Upd F s₀ (State.portsDark s) := by
  refine Upd.by_ h ?_ hF
  clear h hF
  revert s
  intro s₀
  have h := Upd.refl (F := [.regs, .hbm, .cores, .vecs, .gs, .sb, .link, .svc, .log]) s₀
  delta State.portsDark
  repeat' (first
    | with_reducible assumption
    | ((with_reducible apply Part.Sub.of); rfl)
    | (intro s; refine (fun h => ?_) (?_ : Upd [.regs, .hbm, .cores, .vecs, .gs, .sb, .link, .svc, .log] s₀ s); rotate_left; subst s; rotate_left)
    | intro s
    | lift_lets -underBinder
    | with_reducible apply Upd.ite
    | (with_reducible apply Upd.foldl; case' hf => intro _ _ h)
    | with_reducible apply State.loseLink_upd
    | with_reducible apply State.enterLink_upd
    | with_reducible apply State.lasersOff_upd)

theorem execStandAckWaitEnd_upd (s₀ : State) : ∃ t, execStandAckWaitEnd s₀ = .next t ∧ Upd [.free, .regs, .hbm, .cores, .vecs, .gs, .sb, .link, .pwr, .svc, .log] s₀ t := by
  have h := Upd.refl (F := [.free, .regs, .hbm, .cores, .vecs, .gs, .sb, .link, .pwr, .svc, .log]) s₀
  delta execStandAckWaitEnd
  repeat' (first
    | with_reducible assumption
    | ((with_reducible apply Part.Sub.of); rfl)
    | (intro s; refine (fun h => ?_) (?_ : Upd [.free, .regs, .hbm, .cores, .vecs, .gs, .sb, .link, .pwr, .svc, .log] s₀ s); rotate_left; subst s; rotate_left)
    | intro s
    | lift_lets -underBinder
    | with_reducible apply Upd.ite
    | (with_reducible apply Upd.foldl; case' hf => intro _ _ h)
    | with_reducible apply Upd.next
    | (with_reducible apply Upd.pwr; case h => with_reducible assumption)
    | with_reducible apply State.portsDark_upd
    | with_reducible apply State.set_upd
    | with_reducible apply State.count_upd
    | with_reducible apply State.setChip_upd
    | with_reducible apply State.draw_upd
    | with_reducible apply State.beginWake_upd)

theorem execStandAddressMatch_upd (s₀ : State) : ∃ t, execStandAddressMatch s₀ = .next t ∧ Upd [.regs, .pwr] s₀ t := by
  have h := Upd.refl (F := [.regs, .pwr]) s₀
  delta execStandAddressMatch
  repeat' (first
    | with_reducible assumption
    | ((with_reducible apply Part.Sub.of); rfl)
    | with_reducible apply Upd.ite
    | with_reducible apply Upd.next
    | with_reducible apply State.beginWake_upd)

theorem State.endLbHbm_upd {F : List Part} {s₀ s : State} (m : Nat) (errs : Nat) (nbits : Nat) (h : Upd F s₀ s) (hF : Part.Sub [.free, .regs, .hbm] F) :
    Upd F s₀ (State.endLbHbm s m errs nbits) := by
  refine Upd.by_ h ?_ hF
  clear h hF
  revert s
  intro s₀
  have h := Upd.refl (F := [.free, .regs, .hbm]) s₀
  delta State.endLbHbm
  repeat' (first
    | with_reducible assumption
    | ((with_reducible apply Part.Sub.of); rfl)
    | with_reducible apply MemUpd.refl
    | (intro s; refine (fun h => ?_) (?_ : Upd [.free, .regs, .hbm] s₀ s); rotate_left; subst s; rotate_left)
    | intro s
    | lift_lets -underBinder
    | with_reducible apply Upd.ite
    | (with_reducible apply Upd.setHbm; case h => with_reducible assumption)
    | with_reducible apply State.draw_upd
    | with_reducible apply State.set_upd
    | with_reducible apply State.bump_upd)

theorem State.endLoops_upd {F : List Part} {s₀ s : State} (h : Upd F s₀ s) (hF : Part.Sub [.free, .regs, .hbm] F) :
    Upd F s₀ (State.endLoops s) := by
  refine Upd.by_ h ?_ hF
  clear h hF
  revert s
  intro s₀
  have h := Upd.refl (F := [.free, .regs, .hbm]) s₀
  delta State.endLoops
  repeat' (first
    | with_reducible assumption
    | ((with_reducible apply Part.Sub.of); rfl)
    | (intro s; refine (fun h => ?_) (?_ : Upd [.free, .regs, .hbm] s₀ s); rotate_left; subst s; rotate_left)
    | lift_lets -underBinder
    | with_reducible apply Upd.ite
    | (with_reducible apply Upd.foldl; case' hf => intro _ _ h)
    | with_reducible apply State.endLoop_upd
    | with_reducible apply State.draw_upd
    | with_reducible apply State.endLbHbm_upd)

theorem execShutdown_upd (box : Nat) (s₀ : State) : ∃ t, execShutdown box s₀ = .next t ∧ Upd [.free, .regs, .hbm, .vecs, .mbox, .inprog, .lastCoach, .link, .svc] s₀ t := by
  have h := Upd.refl (F := [.free, .regs, .hbm, .vecs, .mbox, .inprog, .lastCoach, .link, .svc]) s₀
  delta execShutdown
  repeat' (first
    | with_reducible assumption
    | ((with_reducible apply Part.Sub.of); rfl)
    | with_reducible apply Upd.next
    | (with_reducible apply State.standCheck_upd; case' hown => intro _ h)
    | with_reducible apply State.setChip_upd
    | with_reducible apply State.refreshDrain_upd
    | with_reducible apply State.endLoops_upd
    | with_reducible apply State.inProg_upd
    | (with_reducible apply takeCommand_upd; case' hown => intro _ _ h))

theorem execSelftestDone_upd (results : List Byte) (s₀ : State) : ∃ t, execSelftestDone results s₀ = .next t ∧ Upd [.regs, .vecs, .mbox, .inprog, .link, .pwr, .svc] s₀ t := by
  have h := Upd.refl (F := [.regs, .vecs, .mbox, .inprog, .link, .pwr, .svc]) s₀
  delta execSelftestDone
  repeat' (first
    | with_reducible assumption
    | ((with_reducible apply Part.Sub.of); rfl)
    | (intro s; refine (fun h => ?_) (?_ : Upd [.regs, .vecs, .mbox, .inprog, .link, .pwr, .svc] s₀ s); rotate_left; subst s; rotate_left)
    | intro s
    | lift_lets -underBinder
    | with_reducible apply Upd.ite
    | (with_reducible apply Upd.foldl; case' hf => intro _ _ h)
    | with_reducible apply Upd.next
    | (with_reducible apply Upd.pwr; case h => with_reducible assumption)
    | with_reducible apply State.answerAll_upd
    | with_reducible apply State.portFrame_upd
    | with_reducible apply State.set_upd
    | with_reducible apply State.lasersOff_upd
    | with_reducible apply State.setChip_upd)

end Sys2Proof.Machine
end

