-- ==== Sys2Proof/Laws/UpdService.lean ====
section
/-!
SUPPORT. What each operation of Machine/Service.lean may change.
-/
namespace Sys2Proof.Machine

theorem State.tap_upd {F : List Part} {s₀ s : State} (ir : Nat) (dr : Nat) (drive : Nat) (h : Upd F s₀ s) (hF : Part.Sub [.jtag] F) :
    Upd F s₀ (State.tap s ir dr drive) := by
  refine Upd.by_ h ?_ hF
  clear h hF
  revert s
  intro s₀
  have h := Upd.refl (F := [.jtag]) s₀
  delta State.tap
  repeat' (first
    | ((with_reducible apply Part.Sub.of); rfl)
    | intro s
    | lift_lets -underBinder
    | (with_reducible apply Upd.jtag; case h => with_reducible assumption))

theorem execTapReset_upd (s₀ : State) : ∃ t, execTapReset s₀ = .next t ∧ Upd [.jtag] s₀ t := by
  have h := Upd.refl (F := [.jtag]) s₀
  delta execTapReset
  repeat' (first
    | with_reducible assumption
    | ((with_reducible apply Part.Sub.of); rfl)
    | with_reducible apply Upd.next
    | with_reducible apply State.tap_upd)

theorem execJtagIdcode_upd (s₀ : State) : ∃ t, execJtagIdcode s₀ = .next t ∧ Upd [.jtag] s₀ t := by
  have h := Upd.refl (F := [.jtag]) s₀
  delta execJtagIdcode
  repeat' (first
    | with_reducible assumption
    | ((with_reducible apply Part.Sub.of); rfl)
    | with_reducible apply Upd.next
    | with_reducible apply State.tap_upd)

theorem execJtagBypass_upd (s₀ : State) : ∃ t, execJtagBypass s₀ = .next t ∧ Upd [.jtag] s₀ t := by
  have h := Upd.refl (F := [.jtag]) s₀
  delta execJtagBypass
  repeat' (first
    | with_reducible assumption
    | ((with_reducible apply Part.Sub.of); rfl)
    | with_reducible apply Upd.next
    | with_reducible apply State.tap_upd)

theorem State.samplePreload_upd {F : List Part} {s₀ s : State} (pins : List Bool) (h : Upd F s₀ s) (hF : Part.Sub [.jtag] F) :
    Upd F s₀ (State.samplePreload s pins) := by
  refine Upd.by_ h ?_ hF
  clear h hF
  revert s
  intro s₀
  have h := Upd.refl (F := [.jtag]) s₀
  delta State.samplePreload
  repeat' (first
    | with_reducible assumption
    | ((with_reducible apply Part.Sub.of); rfl)
    | (intro s; refine (fun h => ?_) (?_ : Upd [.jtag] s₀ s); rotate_left; subst s; rotate_left)
    | intro s
    | lift_lets -underBinder
    | (with_reducible apply Upd.jtag; case h => with_reducible assumption)
    | with_reducible apply State.tap_upd)

theorem execJtagSamplePreload_upd (pins : List Bool) (s₀ : State) : ∃ t, execJtagSamplePreload pins s₀ = .next t ∧ Upd [.jtag] s₀ t := by
  have h := Upd.refl (F := [.jtag]) s₀
  delta execJtagSamplePreload
  repeat' (first
    | with_reducible assumption
    | ((with_reducible apply Part.Sub.of); rfl)
    | with_reducible apply Upd.next
    | with_reducible apply State.samplePreload_upd)

theorem execJtagExtest_upd (pins : List Bool) (s₀ : State) : ∃ t, execJtagExtest pins s₀ = .next t ∧ Upd [.jtag] s₀ t := by
  have h := Upd.refl (F := [.jtag]) s₀
  delta execJtagExtest
  repeat' (first
    | with_reducible assumption
    | ((with_reducible apply Part.Sub.of); rfl)
    | (intro s; refine (fun h => ?_) (?_ : Upd [.jtag] s₀ s); rotate_left; subst s; rotate_left)
    | intro s
    | lift_lets -underBinder
    | with_reducible apply Upd.ite
    | with_reducible apply Upd.next
    | (with_reducible apply Upd.jtag; case h => with_reducible assumption)
    | with_reducible apply State.tap_upd
    | with_reducible apply State.samplePreload_upd)

theorem execJtagHighz_upd (pins : List Bool) (s₀ : State) : ∃ t, execJtagHighz pins s₀ = .next t ∧ Upd [.jtag] s₀ t := by
  have h := Upd.refl (F := [.jtag]) s₀
  delta execJtagHighz
  repeat' (first
    | with_reducible assumption
    | ((with_reducible apply Part.Sub.of); rfl)
    | with_reducible apply Upd.ite
    | with_reducible apply Upd.next
    | with_reducible apply State.tap_upd
    | with_reducible apply State.samplePreload_upd)

theorem execJtagClamp_upd (pins : List Bool) (s₀ : State) : ∃ t, execJtagClamp pins s₀ = .next t ∧ Upd [.jtag] s₀ t := by
  have h := Upd.refl (F := [.jtag]) s₀
  delta execJtagClamp
  repeat' (first
    | with_reducible assumption
    | ((with_reducible apply Part.Sub.of); rfl)
    | with_reducible apply Upd.ite
    | with_reducible apply Upd.next
    | with_reducible apply State.tap_upd
    | with_reducible apply State.samplePreload_upd)

theorem execScanReq_upd (s₀ : State) : ∃ t, execScanReq s₀ = .next t ∧ Upd [.regs, .hbm, .cores, .vecs, .gs, .sb, .link, .svc, .jtag, .log, .noc] s₀ t := by
  have h := Upd.refl (F := [.regs, .hbm, .cores, .vecs, .gs, .sb, .link, .svc, .jtag, .log, .noc]) s₀
  delta execScanReq
  repeat' (first
    | with_reducible assumption
    | ((with_reducible apply Part.Sub.of); rfl)
    | (intro s; refine (fun h => ?_) (?_ : Upd [.regs, .hbm, .cores, .vecs, .gs, .sb, .link, .svc, .jtag, .log, .noc] s₀ s); rotate_left; subst s; rotate_left)
    | lift_lets -underBinder
    | with_reducible apply Upd.ite
    | with_reducible apply Upd.next
    | with_reducible apply State.tap_upd
    | with_reducible apply State.setChip_upd
    | with_reducible apply State.endAllWork_upd
    | with_reducible apply State.portsDark_upd
    | with_reducible apply State.romFailed_upd)

theorem State.scanClear_upd {F : List Part} {s₀ s : State} (h : Upd F s₀ s) (hF : Part.Sub [.regs, .spm, .cores, .coaches, .vecs, .mbox, .inprog, .xlate, .tables, .gs, .sb, .boot] F) :
    Upd F s₀ (State.scanClear s) := by
  refine Upd.by_ h ?_ hF
  clear h hF
  revert s
  intro s₀
  have h := Upd.refl (F := [.regs, .spm, .cores, .coaches, .vecs, .mbox, .inprog, .xlate, .tables, .gs, .sb, .boot]) s₀
  delta State.scanClear
  repeat' (first
    | with_reducible assumption
    | with_reducible exact Upd.refl _
    | ((with_reducible apply Part.Sub.of); rfl)
    | ((with_reducible apply Or.inr); exact .of rfl)
    | ((with_reducible apply Or.inl); rfl)
    | with_reducible apply Nat.le_refl
    | with_reducible apply Upd.gcount_id
    | with_reducible apply Upd.gcount_mod
    | with_reducible apply Upd.gcount_zero
    | with_reducible apply Upd.gcount_int
    | with_reducible apply FusesUpd.addCore
    | with_reducible apply FusesUpd.addRow
    | (with_reducible apply MemUpd.put; with_reducible apply MemUpd.write; with_reducible apply MemUpd.refl)
    | (with_reducible apply MemUpd.write; with_reducible apply MemUpd.refl)
    | (with_reducible apply MemUpd.dropRange; with_reducible apply MemUpd.refl)
    | (with_reducible apply MemUpd.nil; with_reducible apply MemUpd.refl)
    | (with_reducible apply MemUpd.filter; with_reducible apply MemUpd.refl)
    | (with_reducible apply RegsUpd.filter; with_reducible apply RegsUpd.refl)
    | with_reducible apply MemUpd.refl
    | with_reducible apply RegsUpd.refl
    | with_reducible apply FusesUpd.refl
    | with_reducible apply NocUpd.refl
    | with_reducible apply NocUpd.cycle
    | with_reducible apply NocUpd.empty
    | (intro s; refine (fun h => ?_) (?_ : Upd [.regs, .spm, .cores, .coaches, .vecs, .mbox, .inprog, .xlate, .tables, .gs, .sb, .boot] s₀ s); rotate_left; subst s; rotate_left)
    | (intro q; refine (fun hq => ?_) (?_ : ∀ s, Upd [.regs, .spm, .cores, .coaches, .vecs, .mbox, .inprog, .xlate, .tables, .gs, .sb, .boot] s₀ s → Upd [.regs, .spm, .cores, .coaches, .vecs, .mbox, .inprog, .xlate, .tables, .gs, .sb, .boot] s₀ (q s)); rotate_left; subst q; intro s h; rotate_left)
    | (intro q; refine (fun hq => ?_) (?_ : ∀ s x, Upd [.regs, .spm, .cores, .coaches, .vecs, .mbox, .inprog, .xlate, .tables, .gs, .sb, .boot] s₀ s → Upd [.regs, .spm, .cores, .coaches, .vecs, .mbox, .inprog, .xlate, .tables, .gs, .sb, .boot] s₀ (q s x)); rotate_left; subst q; intro s x h; rotate_left)
    | (intro q; refine (fun hq => ?_) (?_ : ∀ x s, Upd [.regs, .spm, .cores, .coaches, .vecs, .mbox, .inprog, .xlate, .tables, .gs, .sb, .boot] s₀ s → Upd [.regs, .spm, .cores, .coaches, .vecs, .mbox, .inprog, .xlate, .tables, .gs, .sb, .boot] s₀ (q x s)); rotate_left; subst q; intro x s h; rotate_left)
    | (intro s; have _h : Option _ := s; clear _h; clear_value s)
    | (intro s; have _h : List _ := s; clear _h; clear_value s)
    | intro s
    | lift_lets -underBinder
    | with_reducible apply hq
    | with_reducible apply Upd.ite
    | (with_reducible apply Upd.foldl; case' hf => intro _ _ h)
    | (with_reducible apply Upd.fields; (case h => with_reducible assumption))
    | with_reducible apply State.set_upd
    | split)


theorem execScanClearDone_upd (s₀ : State) : ∃ t, execScanClearDone s₀ = .next t ∧ Upd [.regs, .spm, .cores, .coaches, .vecs, .mbox, .inprog, .xlate, .tables, .gs, .sb, .boot] s₀ t := by
  have h := Upd.refl (F := [.regs, .spm, .cores, .coaches, .vecs, .mbox, .inprog, .xlate, .tables, .gs, .sb, .boot]) s₀
  delta execScanClearDone
  repeat' (first
    | with_reducible assumption
    | ((with_reducible apply Part.Sub.of); rfl)
    | with_reducible apply Upd.ite
    | with_reducible apply Upd.next
    | with_reducible apply State.scanClear_upd
    | with_reducible apply State.setChip_upd)

theorem execFuseProg_upd (kind : Nat) (a : Nat) (b : Nat) (c : Nat) (s₀ : State) : ∃ t, execFuseProg kind a b c s₀ = .next t ∧ Upd [.fuses, .jtag] s₀ t := by
  have h := Upd.refl (F := [.fuses, .jtag]) s₀
  delta execFuseProg
  repeat' (first
    | with_reducible assumption
    | ((with_reducible apply Part.Sub.of); rfl)
    | with_reducible apply FusesUpd.addCore
    | with_reducible apply FusesUpd.addRow
    | (intro s; refine (fun h => ?_) (?_ : Upd [.fuses, .jtag] s₀ s); rotate_left; subst s; rotate_left)
    | intro s
    | lift_lets -underBinder
    | with_reducible apply Upd.ite
    | with_reducible apply Upd.next
    | (with_reducible apply Upd.setFuses; case h => with_reducible assumption)
    | with_reducible apply State.tap_upd)

theorem State.sbReply_upd {F : List Part} {s₀ s : State} (l : List Byte) (h : Upd F s₀ s) (hF : Part.Sub [.svc] F) :
    Upd F s₀ (State.sbReply s l) := by
  refine Upd.by_ h ?_ hF
  clear h hF
  revert s
  intro s₀
  have h := Upd.refl (F := [.svc]) s₀
  delta State.sbReply
  repeat' (first
    | ((with_reducible apply Part.Sub.of); rfl)
    | intro s
    | lift_lets -underBinder
    | (with_reducible apply Upd.svc; case h => with_reducible assumption))

theorem State.sideband_upd {F : List Part} {s₀ s : State} (own : State → State) (h : Upd F s₀ s) (hF : Part.Sub [.regs, .pwr, .svc] F)
    (hown : ∀ s, Upd F s₀ s → Upd F s₀ (own s)) :
    Upd F s₀ (State.sideband s own) := by
  delta State.sideband
  repeat' (first
    | (with_reducible assumption)
    | ((with_reducible apply Part.Sub.trans _ hF); exact Part.Sub.of rfl)
    | with_reducible apply hown
    | intro s
    | lift_lets -underBinder
    | with_reducible apply Upd.ite
    | (with_reducible apply Upd.pwr; case h => with_reducible assumption)
    | with_reducible apply State.sbReply_upd
    | with_reducible apply State.beginWake_upd)

theorem execSbQuickCommand_upd (s₀ : State) : ∃ t, execSbQuickCommand s₀ = .next t ∧ Upd [.regs, .pwr, .svc] s₀ t := by
  have h := Upd.refl (F := [.regs, .pwr, .svc]) s₀
  delta execSbQuickCommand
  repeat' (first
    | with_reducible assumption
    | ((with_reducible apply Part.Sub.of); rfl)
    | with_reducible apply Upd.next
    | (with_reducible apply State.sideband_upd; case' hown => intro _ h))

theorem execSbStatusRead_upd (s₀ : State) : ∃ t, execSbStatusRead s₀ = .next t ∧ Upd [.regs, .pwr, .svc] s₀ t := by
  have h := Upd.refl (F := [.regs, .pwr, .svc]) s₀
  delta execSbStatusRead
  repeat' (first
    | with_reducible assumption
    | ((with_reducible apply Part.Sub.of); rfl)
    | (intro s; refine (fun h => ?_) (?_ : Upd [.regs, .pwr, .svc] s₀ s); rotate_left; subst s; rotate_left)
    | intro s
    | lift_lets -underBinder
    | with_reducible apply Upd.next
    | (with_reducible apply Upd.svc; case h => with_reducible assumption)
    | (with_reducible apply State.sideband_upd; case' hown => intro _ h)
    | with_reducible apply State.sbReply_upd)

theorem execSbRegisterRead_upd (addr : Nat) (s₀ : State) : ∃ t, execSbRegisterRead addr s₀ = .next t ∧ Upd [.regs, .pwr, .svc] s₀ t := by
  have h := Upd.refl (F := [.regs, .pwr, .svc]) s₀
  delta execSbRegisterRead
  repeat' (first
    | with_reducible assumption
    | ((with_reducible apply Part.Sub.of); rfl)
    | (intro s; refine (fun h => ?_) (?_ : Upd [.regs, .pwr, .svc] s₀ s); rotate_left; subst s; rotate_left)
    | intro s
    | lift_lets -underBinder
    | with_reducible apply Upd.ite
    | with_reducible apply Upd.next
    | (with_reducible apply Upd.svc; case h => with_reducible assumption)
    | (with_reducible apply State.sideband_upd; case' hown => intro _ h)
    | with_reducible apply State.sbReply_upd
    | with_reducible apply State.clearRc_upd)

theorem execSbMailboxWrite_upd (off : Nat) (data : List Byte) (pecOk : Bool) (s₀ : State) : ∃ t, execSbMailboxWrite off data pecOk s₀ = .next t ∧ Upd [.regs, .mbox, .pwr, .svc] s₀ t := by
  have h := Upd.refl (F := [.regs, .mbox, .pwr, .svc]) s₀
  delta execSbMailboxWrite
  repeat' (first
    | with_reducible assumption
    | ((with_reducible apply Part.Sub.of); rfl)
    | with_reducible apply Upd.ite
    | with_reducible apply Upd.next
    | (with_reducible apply State.sideband_upd; case' hown => intro _ h)
    | with_reducible apply State.count_upd
    | with_reducible apply State.writeBox_upd)

theorem execSbAlertResponse_upd (s₀ : State) : ∃ t, execSbAlertResponse s₀ = .next t ∧ Upd [.svc] s₀ t := by
  have h := Upd.refl (F := [.svc]) s₀
  delta execSbAlertResponse
  repeat' (first
    | with_reducible assumption
    | ((with_reducible apply Part.Sub.of); rfl)
    | with_reducible apply Upd.ite
    | with_reducible apply Upd.next
    | with_reducible apply State.sbReply_upd)

theorem execSbClockTimeout_upd (s₀ : State) : ∃ t, execSbClockTimeout s₀ = .next t ∧ Upd [.svc] s₀ t := by
  have h := Upd.refl (F := [.svc]) s₀
  delta execSbClockTimeout
  repeat' (first
    | with_reducible assumption
    | ((with_reducible apply Part.Sub.of); rfl)
    | with_reducible apply Upd.next
    | with_reducible apply State.sbReply_upd)

theorem execSvcButtonPress_upd (s₀ : State) : ∃ t, execSvcButtonPress s₀ = .next t ∧ Upd [.regs, .svc] s₀ t := by
  have h := Upd.refl (F := [.regs, .svc]) s₀
  delta execSvcButtonPress
  repeat' (first
    | with_reducible assumption
    | ((with_reducible apply Part.Sub.of); rfl)
    | intro s
    | lift_lets -underBinder
    | with_reducible apply Upd.ite
    | with_reducible apply Upd.next
    | (with_reducible apply Upd.svc; case h => with_reducible assumption)
    | with_reducible apply State.setChip_upd)

theorem State.holdActs_upd {F : List Part} {s₀ s : State} (h : Upd F s₀ s) (hF : Part.Sub [.regs, .link, .svc] F) :
    Upd F s₀ (State.holdActs s) := by
  refine Upd.by_ h ?_ hF
  clear h hF
  revert s
  intro s₀
  have h := Upd.refl (F := [.regs, .link, .svc]) s₀
  delta State.holdActs
  repeat' (first
    | with_reducible assumption
    | ((with_reducible apply Part.Sub.of); rfl)
    | (intro s; refine (fun h => ?_) (?_ : Upd [.regs, .link, .svc] s₀ s); rotate_left; subst s; rotate_left)
    | intro s
    | lift_lets -underBinder
    | (with_reducible apply Upd.svc; case h => with_reducible assumption)
    | with_reducible apply State.setChip_upd
    | with_reducible apply State.count_upd
    | with_reducible apply State.refreshDrain_upd
    | with_reducible apply State.serviceNote_upd)

theorem execSvcHold_upd (s₀ : State) : ∃ t, execSvcHold s₀ = .next t ∧ Upd [.regs, .link, .svc] s₀ t := by
  have h := Upd.refl (F := [.regs, .link, .svc]) s₀
  delta execSvcHold
  repeat' (first
    | with_reducible assumption
    | ((with_reducible apply Part.Sub.of); rfl)
    | lift_lets -underBinder
    | with_reducible apply Upd.ite
    | with_reducible apply Upd.next
    | with_reducible apply State.holdActs_upd
    | split)

theorem execSvcButtonRelease_upd (s₀ : State) : ∃ t, execSvcButtonRelease s₀ = .next t ∧ Upd [.regs, .link, .svc] s₀ t := by
  have h := Upd.refl (F := [.regs, .link, .svc]) s₀
  delta execSvcButtonRelease
  repeat' (first
    | with_reducible assumption
    | ((with_reducible apply Part.Sub.of); rfl)
    | (intro s; refine (fun h => ?_) (?_ : Upd [.regs, .link, .svc] s₀ s); rotate_left; subst s; rotate_left)
    | intro s
    | lift_lets -underBinder
    | with_reducible apply Upd.ite
    | with_reducible apply Upd.next
    | (with_reducible apply Upd.svc; case h => with_reducible assumption)
    | with_reducible apply State.setChip_upd
    | with_reducible apply State.holdActs_upd
    | with_reducible apply State.count_upd
    | with_reducible apply State.serviceNote_upd
    | split)

theorem execChipModeWrite_upd (value : Nat) (s₀ : State) : ∃ t, execChipModeWrite value s₀ = .next t ∧ Upd [.regs, .gs] s₀ t := by
  have h := Upd.refl (F := [.regs, .gs]) s₀
  delta execChipModeWrite
  repeat' (first
    | with_reducible assumption
    | ((with_reducible apply Part.Sub.of); rfl)
    | with_reducible apply Upd.ite
    | with_reducible apply Upd.next
    | with_reducible apply State.writeChipMode_upd)

theorem execSvcLocateWrite_upd (value : Nat) (s₀ : State) : ∃ t, execSvcLocateWrite value s₀ = .next t ∧ Upd [.regs, .link, .svc] s₀ t := by
  have h := Upd.refl (F := [.regs, .link, .svc]) s₀
  delta execSvcLocateWrite
  repeat' (first
    | with_reducible assumption
    | ((with_reducible apply Part.Sub.of); rfl)
    | with_reducible apply Upd.ite
    | with_reducible apply Upd.next
    | with_reducible apply State.writeSvcCtrl_upd)

theorem execGcSyncWrite_upd (value : Nat) (s₀ : State) : ∃ t, execGcSyncWrite value s₀ = .next t ∧ Upd [.regs, .vecs, .link] s₀ t := by
  have h := Upd.refl (F := [.regs, .vecs, .link]) s₀
  delta execGcSyncWrite
  repeat' (first
    | with_reducible assumption
    | ((with_reducible apply Part.Sub.of); rfl)
    | with_reducible apply Upd.ite
    | with_reducible apply Upd.next
    | with_reducible apply State.writeGcSync_upd)

theorem execLbEklWrite_upd (port : Nat) (depth : Nat) (s₀ : State) : ∃ t, execLbEklWrite port depth s₀ = .next t ∧ Upd [.free, .regs] s₀ t := by
  have h := Upd.refl (F := [.free, .regs]) s₀
  delta execLbEklWrite
  repeat' (first
    | with_reducible assumption
    | ((with_reducible apply Part.Sub.of); rfl)
    | with_reducible apply Upd.ite
    | with_reducible apply Upd.next
    | with_reducible apply State.writeLbEkl_upd)

theorem execLbHbmWrite_upd (stack : Nat) (depth : Nat) (s₀ : State) : ∃ t, execLbHbmWrite stack depth s₀ = .next t ∧ Upd [.free, .regs, .hbm] s₀ t := by
  have h := Upd.refl (F := [.free, .regs, .hbm]) s₀
  delta execLbHbmWrite
  repeat' (first
    | with_reducible assumption
    | ((with_reducible apply Part.Sub.of); rfl)
    | with_reducible apply Upd.ite
    | with_reducible apply Upd.next
    | with_reducible apply State.writeLbHbm_upd)

theorem execLbHbmEnd_upd (stack : Nat) (errs : Nat) (bits : Nat) (s₀ : State) : ∃ t, execLbHbmEnd stack errs bits s₀ = .next t ∧ Upd [.free, .regs, .hbm] s₀ t := by
  have h := Upd.refl (F := [.free, .regs, .hbm]) s₀
  delta execLbHbmEnd
  repeat' (first
    | with_reducible assumption
    | ((with_reducible apply Part.Sub.of); rfl)
    | with_reducible apply Upd.ite
    | with_reducible apply Upd.next
    | with_reducible apply State.endLbHbm_upd)

theorem execCounterReadClear_upd (addr : Nat) (s₀ : State) : ∃ t, execCounterReadClear addr s₀ = .next t ∧ Upd [.regs] s₀ t := by
  have h := Upd.refl (F := [.regs]) s₀
  delta execCounterReadClear
  repeat' (first
    | with_reducible assumption
    | ((with_reducible apply Part.Sub.of); rfl)
    | with_reducible apply Upd.ite
    | with_reducible apply Upd.next
    | with_reducible apply State.clearRc_upd)

theorem execRegisterWrite_upd (admin : Bool) (coach : Nat) (addr : Nat) (words : List Word) (s₀ : State) : ∃ t, execRegisterWrite admin coach addr words s₀ = .next t ∧ Upd [.free, .regs, .hbm, .cores, .coaches, .vecs, .mbox, .gs, .sb, .link, .svc, .log] s₀ t := by
  have h := Upd.refl (F := [.free, .regs, .hbm, .cores, .coaches, .vecs, .mbox, .gs, .sb, .link, .svc, .log]) s₀
  delta execRegisterWrite
  repeat' (first
    | with_reducible assumption
    | ((with_reducible apply Part.Sub.of); rfl)
    | with_reducible apply Upd.ite
    | with_reducible apply Upd.next
    | with_reducible apply State.windowWrite_upd
    | with_reducible apply Upd1.fst)

end Sys2Proof.Machine
end

