-- ==== Sys2Proof/Laws/UpdIntegrity.lean ====
section
/-!
SUPPORT. What each operation of Machine/Integrity.lean may change.
-/
namespace Sys2Proof.Machine

theorem execFtDue_upd (core : Nat) (s₀ : State) : ∃ t, execFtDue core s₀ = .next t ∧ Upd [.cores] s₀ t := by
  have h := Upd.refl (F := [.cores]) s₀
  delta execFtDue
  repeat' (first
    | with_reducible assumption
    | ((with_reducible apply Part.Sub.of); rfl)
    | with_reducible apply Upd.ite
    | with_reducible apply Upd.next
    | with_reducible apply State.makeDue_upd)

theorem execFtTestStart_upd (core : Nat) (s₀ : State) : ∃ t, execFtTestStart core s₀ = .next t ∧ Upd [.regs, .cores] s₀ t := by
  have h := Upd.refl (F := [.regs, .cores]) s₀
  delta execFtTestStart
  repeat' (first
    | with_reducible assumption
    | ((with_reducible apply Part.Sub.of); rfl)
    | (intro s; refine (fun h => ?_) (?_ : Upd [.regs, .cores] s₀ s); rotate_left; subst s; rotate_left)
    | intro s
    | lift_lets -underBinder
    | with_reducible apply Upd.ite
    | with_reducible apply Upd.next
    | with_reducible apply State.setChip_upd
    | with_reducible apply State.set_upd
    | with_reducible apply State.modCore_upd)

theorem execFtDefer_upd (core : Nat) (s₀ : State) : ∃ t, execFtDefer core s₀ = .next t ∧ Upd [.regs] s₀ t := by
  have h := Upd.refl (F := [.regs]) s₀
  delta execFtDefer
  repeat' (first
    | with_reducible assumption
    | ((with_reducible apply Part.Sub.of); rfl)
    | lift_lets -underBinder
    | with_reducible apply Upd.ite
    | with_reducible apply Upd.next
    | with_reducible apply State.set_upd
    | with_reducible apply State.count_upd
    | split)

theorem execFtTestDone_upd (core : Nat) (passed : Bool) (s₀ : State) : ∃ t, execFtTestDone core passed s₀ = .next t ∧ Upd [.regs, .hbm, .spm, .cores, .coaches, .vecs, .mbox, .inprog, .xlate, .graphs, .gs, .sb, .link, .svc, .log, .ledger, .noc] s₀ t := by
  have h := Upd.refl (F := [.regs, .hbm, .spm, .cores, .coaches, .vecs, .mbox, .inprog, .xlate, .graphs, .gs, .sb, .link, .svc, .log, .ledger, .noc]) s₀
  delta execFtTestDone
  repeat' (first
    | with_reducible assumption
    | ((with_reducible apply Part.Sub.of); rfl)
    | (intro s; refine (fun h => ?_) (?_ : Upd [.regs, .hbm, .spm, .cores, .coaches, .vecs, .mbox, .inprog, .xlate, .graphs, .gs, .sb, .link, .svc, .log, .ledger, .noc] s₀ s); rotate_left; subst s; rotate_left)
    | intro s
    | lift_lets -underBinder
    | with_reducible apply Upd.ite
    | with_reducible apply Upd.next
    | with_reducible apply State.setChip_upd
    | with_reducible apply State.set_upd
    | with_reducible apply State.modCore_upd
    | with_reducible apply State.answerAll_upd
    | with_reducible apply State.count_upd
    | with_reducible apply State.withdraw_upd
    | with_reducible apply State.settleAll_upd
    | with_reducible apply State.maybeCut_upd
    | with_reducible apply State.boundary_upd
    | split)

theorem execRecoveryDone_upd (s₀ : State) : ∃ t, execRecoveryDone s₀ = .next t ∧ Upd [.regs, .vecs, .link, .log] s₀ t := by
  have h := Upd.refl (F := [.regs, .vecs, .link, .log]) s₀
  delta execRecoveryDone
  repeat' (first
    | with_reducible assumption
    | ((with_reducible apply Part.Sub.of); rfl)
    | intro s
    | lift_lets -underBinder
    | with_reducible apply Upd.next
    | (with_reducible apply Upd.log; case h => with_reducible assumption)
    | with_reducible apply State.seqResume_upd
    | split)

theorem execLedgerAuditTimer_upd (s₀ : State) : ∃ t, execLedgerAuditTimer s₀ = .next t ∧ Upd [.regs, .ledger] s₀ t := by
  have h := Upd.refl (F := [.regs, .ledger]) s₀
  delta execLedgerAuditTimer
  repeat' (first
    | with_reducible assumption
    | ((with_reducible apply Part.Sub.of); rfl)
    | with_reducible apply Upd.ite
    | with_reducible apply Upd.next
    | with_reducible apply State.ledgerTrigger_upd)

theorem State.voidClass_upd {F : List Part} {s₀ s : State} (k : Nat) (h : Upd F s₀ s) (hF : Part.Sub [.regs, .vecs, .gs, .link, .svc, .log] F) :
    Upd F s₀ (State.voidClass s k) := by
  refine Upd.by_ h ?_ hF
  clear h hF
  revert s
  intro s₀
  have h := Upd.refl (F := [.regs, .vecs, .gs, .link, .svc, .log]) s₀
  delta State.voidClass
  repeat' (first
    | with_reducible assumption
    | ((with_reducible apply Part.Sub.of); rfl)
    | with_reducible apply Upd.ite
    | with_reducible apply State.setChip_upd
    | with_reducible apply State.raise_upd)

theorem State.coachViolation_upd {F : List Part} {s₀ s : State} (v : Violation) (h : Upd F s₀ s) (hF : Part.Sub [.regs, .vecs, .mbox, .inprog, .gs, .link, .svc, .log] F) :
    Upd F s₀ (State.coachViolation s v) := by
  refine Upd.by_ h ?_ hF
  clear h hF
  revert s
  intro s₀
  have h := Upd.refl (F := [.regs, .vecs, .mbox, .inprog, .gs, .link, .svc, .log]) s₀
  delta State.coachViolation
  repeat' (first
    | with_reducible assumption
    | ((with_reducible apply Part.Sub.of); rfl)
    | (intro s; refine (fun h => ?_) (?_ : Upd [.regs, .vecs, .mbox, .inprog, .gs, .link, .svc, .log] s₀ s); rotate_left; subst s; rotate_left)
    | intro s
    | lift_lets -underBinder
    | (with_reducible apply Upd.foldl; case' hf => intro _ _ h)
    | with_reducible apply State.raise_upd
    | with_reducible apply State.coachFatal_upd
    | with_reducible apply State.answer_upd)

theorem State.chipViolations_upd {F : List Part} {s₀ s : State} (vs : List Violation) (h : Upd F s₀ s) (hF : Part.Sub [.regs, .hbm, .cores, .coaches, .vecs, .mbox, .inprog, .xlate, .graphs, .gs, .sb, .link, .svc, .log, .ledger] F) :
    Upd F s₀ (State.chipViolations s vs) := by
  refine Upd.by_ h ?_ hF
  clear h hF
  revert s
  intro s₀
  have h := Upd.refl (F := [.regs, .hbm, .cores, .coaches, .vecs, .mbox, .inprog, .xlate, .graphs, .gs, .sb, .link, .svc, .log, .ledger]) s₀
  delta State.chipViolations
  repeat' (first
    | with_reducible assumption
    | ((with_reducible apply Part.Sub.of); rfl)
    | (intro s; refine (fun h => ?_) (?_ : Upd [.regs, .hbm, .cores, .coaches, .vecs, .mbox, .inprog, .xlate, .graphs, .gs, .sb, .link, .svc, .log, .ledger] s₀ s); rotate_left; subst s; rotate_left)
    | intro s
    | lift_lets -underBinder
    | (with_reducible apply Upd.foldl; case' hf => intro _ _ h)
    | (with_reducible apply Upd.gs; case h => with_reducible assumption)
    | with_reducible apply State.raiseSafe_upd
    | with_reducible apply State.raise_upd
    | with_reducible apply State.settleAll_upd
    | with_reducible apply State.boundary_upd
    | split)

theorem execLedgerEvalDone_upd (found : List LedgerFind) (s₀ : State) : ∃ t, execLedgerEvalDone found s₀ = .next t ∧ Upd [.regs, .hbm, .cores, .coaches, .vecs, .mbox, .inprog, .xlate, .graphs, .gs, .sb, .link, .svc, .log, .ledger] s₀ t := by
  have h := Upd.refl (F := [.regs, .hbm, .cores, .coaches, .vecs, .mbox, .inprog, .xlate, .graphs, .gs, .sb, .link, .svc, .log, .ledger]) s₀
  delta execLedgerEvalDone
  repeat' (first
    | with_reducible assumption
    | ((with_reducible apply Part.Sub.of); rfl)
    | (intro s; refine (fun h => ?_) (?_ : Upd [.regs, .hbm, .cores, .coaches, .vecs, .mbox, .inprog, .xlate, .graphs, .gs, .sb, .link, .svc, .log, .ledger] s₀ s); rotate_left; subst s; rotate_left)
    | (intro s; have _h : List _ := s; clear _h; clear_value s)
    | intro s
    | lift_lets -underBinder
    | with_reducible apply Upd.ite
    | (with_reducible apply Upd.foldl; case' hf => intro _ _ h)
    | with_reducible apply Upd.next
    | (with_reducible apply Upd.ledger; case h => with_reducible assumption)
    | with_reducible apply State.voidClass_upd
    | with_reducible apply State.setChip_upd
    | with_reducible apply State.count_upd
    | with_reducible apply State.capture_upd
    | with_reducible apply State.coachViolation_upd
    | with_reducible apply State.chipViolations_upd
    | with_reducible apply State.ledgerTrigger_upd)

end Sys2Proof.Machine
end

