-- ==== Sys2Proof/Laws/UpdSeqCommands.lean ====
section
/-!
SUPPORT. What each operation of Machine/SeqCommands.lean may change.
-/
namespace Sys2Proof.Machine

theorem State.openSeq_upd {F : List Part} {s₀ s : State} (n : Nat) (c : Nat) (h : Upd F s₀ s) (hF : Part.Sub [.hbm, .sb] F) :
    Upd F s₀ (State.openSeq s n c) := by
  refine Upd.by_ h ?_ hF
  clear h hF
  revert s
  intro s₀
  have h := Upd.refl (F := [.hbm, .sb]) s₀
  delta State.openSeq
  repeat' (first
    | with_reducible assumption
    | ((with_reducible apply Part.Sub.of); rfl)
    | (intro s; refine (fun h => ?_) (?_ : Upd [.hbm, .sb] s₀ s); rotate_left; subst s; rotate_left)
    | lift_lets -underBinder
    | with_reducible apply State.memWrite_upd
    | with_reducible apply State.forgetSlot_upd
    | with_reducible apply State.setSeq_upd)

theorem execSeqOpen_upd (box : Nat) (pick : Nat) (s₀ : State) : ∃ t, execSeqOpen box pick s₀ = .next t ∧ Upd [.free, .regs, .hbm, .vecs, .mbox, .inprog, .lastCoach, .sb, .link, .svc] s₀ t := by
  have h := Upd.refl (F := [.free, .regs, .hbm, .vecs, .mbox, .inprog, .lastCoach, .sb, .link, .svc]) s₀
  delta execSeqOpen
  repeat' (first
    | with_reducible assumption
    | ((with_reducible apply Part.Sub.of); rfl)
    | lift_lets -underBinder
    | with_reducible apply Upd.next
    | with_reducible apply State.refuses_upd
    | with_reducible apply State.openSeq_upd
    | with_reducible apply State.respond_upd
    | (with_reducible apply takeCommand_upd; case' hown => intro _ _ h)
    | split)

theorem execSeqCancel_upd (box : Nat) (s₀ : State) : ∃ t, execSeqCancel box s₀ = .next t ∧ Upd [.free, .regs, .hbm, .coaches, .vecs, .mbox, .inprog, .lastCoach, .xlate, .gs, .sb, .link, .svc, .log] s₀ t := by
  have h := Upd.refl (F := [.free, .regs, .hbm, .coaches, .vecs, .mbox, .inprog, .lastCoach, .xlate, .gs, .sb, .link, .svc, .log]) s₀
  delta execSeqCancel
  repeat' (first
    | with_reducible assumption
    | ((with_reducible apply Part.Sub.of); rfl)
    | intro s
    | lift_lets -underBinder
    | with_reducible apply Upd.next
    | with_reducible apply State.fails_upd
    | with_reducible apply State.registerEnd_upd
    | with_reducible apply State.respond_upd
    | (with_reducible apply takeCommand_upd; case' hown => intro _ _ h)
    | split)

theorem execKvPause_upd (box : Nat) (s₀ : State) : ∃ t, execKvPause box s₀ = .next t ∧ Upd [.free, .regs, .vecs, .mbox, .inprog, .lastCoach, .sb, .link, .svc] s₀ t := by
  have h := Upd.refl (F := [.free, .regs, .vecs, .mbox, .inprog, .lastCoach, .sb, .link, .svc]) s₀
  delta execKvPause
  repeat' (first
    | with_reducible assumption
    | ((with_reducible apply Part.Sub.of); rfl)
    | intro s
    | lift_lets -underBinder
    | with_reducible apply Upd.ite
    | with_reducible apply Upd.next
    | (with_reducible apply Upd.sb; case h => with_reducible assumption)
    | with_reducible apply State.inProg_upd
    | with_reducible apply State.fails_upd
    | (with_reducible apply takeCommand_upd; case' hown => intro _ _ h)
    | split)

theorem State.readCold_upd {F : List Part} {s₀ s : State} (n : Nat) (buf : Nat) (k : Nat) (h : Upd F s₀ s) (hF : Part.Sub [.link] F) :
    Upd F s₀ (State.readCold s n buf k) := by
  refine Upd.by_ h ?_ hF
  clear h hF
  revert s
  intro s₀
  have h := Upd.refl (F := [.link]) s₀
  delta State.readCold
  repeat' (first
    | with_reducible assumption
    | ((with_reducible apply Part.Sub.of); rfl)
    | intro s
    | lift_lets -underBinder
    | with_reducible apply State.request_upd)

theorem State.startResume_upd {F : List Part} {s₀ s : State} (n : Nat) (h : Upd F s₀ s) (hF : Part.Sub [.regs, .hbm, .coaches, .vecs, .xlate, .sb, .link] F) :
    Upd F s₀ (State.startResume s n) := by
  refine Upd.by_ h ?_ hF
  clear h hF
  revert s
  intro s₀
  have h := Upd.refl (F := [.regs, .hbm, .coaches, .vecs, .xlate, .sb, .link]) s₀
  delta State.startResume
  repeat' (first
    | with_reducible assumption
    | ((with_reducible apply Part.Sub.of); rfl)
    | (intro s; refine (fun h => ?_) (?_ : Upd [.regs, .hbm, .coaches, .vecs, .xlate, .sb, .link] s₀ s); rotate_left; subst s; rotate_left)
    | intro s
    | lift_lets -underBinder
    | with_reducible apply Upd.ite
    | (with_reducible apply Upd.foldl; case' hf => intro _ _ h)
    | (with_reducible apply Upd.sb; case h => with_reducible assumption)
    | with_reducible apply State.setSeq_upd
    | with_reducible apply State.drop_upd
    | with_reducible apply State.bump_upd
    | with_reducible apply State.holdPages_upd
    | with_reducible apply State.poolMark_upd
    | with_reducible apply State.readCold_upd)

theorem execKvResume_upd (box : Nat) (s₀ : State) : ∃ t, execKvResume box s₀ = .next t ∧ Upd [.free, .gcount, .regs, .hbm, .spm, .cores, .coaches, .vecs, .mbox, .inprog, .lastCoach, .xlate, .tables, .graphs, .gs, .sb, .link, .boot, .pwr, .svc, .jtag, .log, .ledger, .noc] s₀ t := by
  have h := Upd.refl (F := [.free, .gcount, .regs, .hbm, .spm, .cores, .coaches, .vecs, .mbox, .inprog, .lastCoach, .xlate, .tables, .graphs, .gs, .sb, .link, .boot, .pwr, .svc, .jtag, .log, .ledger, .noc]) s₀
  delta execKvResume
  repeat' (first
    | with_reducible assumption
    | ((with_reducible apply Part.Sub.of); rfl)
    | intro s
    | lift_lets -underBinder
    | with_reducible apply Upd.ite
    | with_reducible apply Upd.next
    | with_reducible apply State.fails_upd
    | with_reducible apply State.refuses_upd
    | with_reducible apply State.startResume_upd
    | with_reducible apply State.inProg_upd
    | (with_reducible apply takeCommand_upd; case' hown => intro _ _ h)
    | split)

theorem State.moveOver_upd {F : List Part} {s₀ s : State} (n : Nat) (op : Nat) (m : Move) (status : Nat) (result : List Byte) (h : Upd F s₀ s) (hF : Part.Sub [.regs, .hbm, .coaches, .vecs, .mbox, .inprog, .xlate, .gs, .sb, .link, .svc, .log] F) :
    Upd F s₀ (State.moveOver s n op m status result) := by
  refine Upd.by_ h ?_ hF
  clear h hF
  revert s
  intro s₀
  have h := Upd.refl (F := [.regs, .hbm, .coaches, .vecs, .mbox, .inprog, .xlate, .gs, .sb, .link, .svc, .log]) s₀
  delta State.moveOver
  repeat' (first
    | with_reducible assumption
    | ((with_reducible apply Part.Sub.of); rfl)
    | (intro s; refine (fun h => ?_) (?_ : Upd [.regs, .hbm, .coaches, .vecs, .mbox, .inprog, .xlate, .gs, .sb, .link, .svc, .log] s₀ s); rotate_left; subst s; rotate_left)
    | intro s
    | lift_lets -underBinder
    | with_reducible apply Upd.ite
    | (with_reducible apply Upd.sb; case h => with_reducible assumption)
    | with_reducible apply State.answerAll_upd
    | with_reducible apply State.endSeq_upd)

theorem State.landCold_upd {F : List Part} {s₀ s : State} (n : Nat) (host : Bool) (k : Nat) (pick : Nat) (p : ColdPair) (h : Upd F s₀ s) (hF : Part.Sub [.regs, .hbm, .coaches, .vecs, .xlate, .sb, .link] F) :
    Upd F s₀ (State.landCold s n host k pick p) := by
  refine Upd.by_ h ?_ hF
  clear h hF
  revert s
  intro s₀
  have h := Upd.refl (F := [.regs, .hbm, .coaches, .vecs, .xlate, .sb, .link]) s₀
  delta State.landCold
  repeat' (first
    | with_reducible assumption
    | ((with_reducible apply Part.Sub.of); rfl)
    | (intro s; refine (fun h => ?_) (?_ : Upd [.regs, .hbm, .coaches, .vecs, .xlate, .sb, .link] s₀ s); rotate_left; subst s; rotate_left)
    | intro s
    | lift_lets -underBinder
    | with_reducible apply Upd.ite
    | (with_reducible apply Upd.sb; case h => with_reducible assumption)
    | with_reducible apply State.toCold_upd
    | with_reducible apply State.countWrite_upd
    | with_reducible apply State.memWrite_upd)

theorem State.undoPause_upd {F : List Part} {s₀ s : State} (n : Nat) (m : Move) (status : Nat) (h : Upd F s₀ s) (hF : Part.Sub [.regs, .hbm, .coaches, .vecs, .mbox, .inprog, .xlate, .gs, .sb, .link, .svc, .log] F) :
    Upd F s₀ (State.undoPause s n m status) := by
  refine Upd.by_ h ?_ hF
  clear h hF
  revert s
  intro s₀
  have h := Upd.refl (F := [.regs, .hbm, .coaches, .vecs, .mbox, .inprog, .xlate, .gs, .sb, .link, .svc, .log]) s₀
  delta State.undoPause
  repeat' (first
    | with_reducible assumption
    | ((with_reducible apply Part.Sub.of); rfl)
    | (intro s; refine (fun h => ?_) (?_ : Upd [.regs, .hbm, .coaches, .vecs, .mbox, .inprog, .xlate, .gs, .sb, .link, .svc, .log] s₀ s); rotate_left; subst s; rotate_left)
    | intro s
    | lift_lets -underBinder
    | with_reducible apply Upd.ite
    | with_reducible apply State.drop_upd
    | with_reducible apply State.bump_upd
    | with_reducible apply State.setSeq_upd
    | with_reducible apply State.moveOver_upd)

theorem State.moveWork_upd {F : List Part} {s₀ s : State} (n : Nat) (h : Upd F s₀ s) (hF : Part.Sub [.regs] F) :
    Upd F s₀ (State.moveWork s n) := by
  refine Upd.by_ h ?_ hF
  clear h hF
  revert s
  intro s₀
  have h := Upd.refl (F := [.regs]) s₀
  delta State.moveWork
  repeat' (first
    | with_reducible assumption
    | ((with_reducible apply Part.Sub.of); rfl)
    | lift_lets -underBinder
    | (with_reducible apply Upd.foldl; case' hf => intro _ _ h)
    | with_reducible apply State.bump_upd
    | split)

theorem State.hotTraffic_upd {F : List Part} {s₀ s : State} (k : Nat) (write : Bool) (hd : Nat) (h : Upd F s₀ s) (hF : Part.Sub [.regs, .hbm] F) :
    Upd F s₀ (State.hotTraffic s k write hd) := by
  refine Upd.by_ h ?_ hF
  clear h hF
  revert s
  intro s₀
  have h := Upd.refl (F := [.regs, .hbm]) s₀
  delta State.hotTraffic
  repeat' (first
    | with_reducible assumption
    | ((with_reducible apply Part.Sub.of); rfl)
    | with_reducible apply Upd.ite
    | with_reducible apply State.countWrite_upd
    | with_reducible apply State.countRead_upd)

theorem State.pauseTraffic_upd {F : List Part} {s₀ s : State} (n : Nat) (ps : List ColdPair) (h : Upd F s₀ s) (hF : Part.Sub [.regs, .hbm] F) :
    Upd F s₀ (State.pauseTraffic s n ps) := by
  refine Upd.by_ h ?_ hF
  clear h hF
  revert s
  intro s₀
  have h := Upd.refl (F := [.regs, .hbm]) s₀
  delta State.pauseTraffic
  repeat' (first
    | with_reducible assumption
    | ((with_reducible apply Part.Sub.of); rfl)
    | (intro s; refine (fun h => ?_) (?_ : Upd [.regs, .hbm] s₀ s); rotate_left; subst s; rotate_left)
    | intro s
    | lift_lets -underBinder
    | (with_reducible apply Upd.foldl; case' hf => intro _ _ h)
    | with_reducible apply State.hotTraffic_upd
    | with_reducible apply State.bump_upd
    | split)

theorem State.endPause_upd {F : List Part} {s₀ s : State} (n : Nat) (m : Move) (pages : List Nat) (lost : Bool) (h : Upd F s₀ s) (hF : Part.Sub [.free, .gcount, .regs, .hbm, .spm, .cores, .coaches, .vecs, .mbox, .inprog, .lastCoach, .xlate, .tables, .graphs, .gs, .sb, .link, .boot, .pwr, .svc, .jtag, .log, .ledger, .noc] F) :
    Upd F s₀ (State.endPause s n m pages lost) := by
  refine Upd.by_ h ?_ hF
  clear h hF
  revert s
  intro s₀
  have h := Upd.refl (F := [.free, .gcount, .regs, .hbm, .spm, .cores, .coaches, .vecs, .mbox, .inprog, .lastCoach, .xlate, .tables, .graphs, .gs, .sb, .link, .boot, .pwr, .svc, .jtag, .log, .ledger, .noc]) s₀
  delta State.endPause
  repeat' (first
    | with_reducible assumption
    | ((with_reducible apply Part.Sub.of); rfl)
    | (intro s; refine (fun h => ?_) (?_ : Upd [.free, .gcount, .regs, .hbm, .spm, .cores, .coaches, .vecs, .mbox, .inprog, .lastCoach, .xlate, .tables, .graphs, .gs, .sb, .link, .boot, .pwr, .svc, .jtag, .log, .ledger, .noc] s₀ s); rotate_left; subst s; rotate_left)
    | intro s
    | lift_lets -underBinder
    | with_reducible apply Upd.ite
    | (with_reducible apply Upd.foldl; case' hf => intro _ _ h)
    | (with_reducible apply Upd.sb; case h => with_reducible assumption)
    | with_reducible apply State.undoPause_upd
    | with_reducible apply State.moveWork_upd
    | with_reducible apply State.pauseTraffic_upd
    | with_reducible apply State.landCold_upd
    | with_reducible apply State.freePairs_upd
    | with_reducible apply State.setSeq_upd
    | with_reducible apply State.moveOver_upd
    | with_reducible apply Upd1.fst
    | split)

theorem State.undoResume_upd {F : List Part} {s₀ s : State} (n : Nat) (m : Move) (status : Nat) (h : Upd F s₀ s) (hF : Part.Sub [.free, .gcount, .regs, .hbm, .spm, .cores, .coaches, .vecs, .mbox, .inprog, .lastCoach, .xlate, .tables, .graphs, .gs, .sb, .link, .boot, .pwr, .svc, .jtag, .log, .ledger, .noc] F) :
    Upd F s₀ (State.undoResume s n m status) := by
  refine Upd.by_ h ?_ hF
  clear h hF
  revert s
  intro s₀
  have h := Upd.refl (F := [.free, .gcount, .regs, .hbm, .spm, .cores, .coaches, .vecs, .mbox, .inprog, .lastCoach, .xlate, .tables, .graphs, .gs, .sb, .link, .boot, .pwr, .svc, .jtag, .log, .ledger, .noc]) s₀
  delta State.undoResume
  repeat' (first
    | with_reducible assumption
    | ((with_reducible apply Part.Sub.of); rfl)
    | (intro s; refine (fun h => ?_) (?_ : Upd [.free, .gcount, .regs, .hbm, .spm, .cores, .coaches, .vecs, .mbox, .inprog, .lastCoach, .xlate, .tables, .graphs, .gs, .sb, .link, .boot, .pwr, .svc, .jtag, .log, .ledger, .noc] s₀ s); rotate_left; subst s; rotate_left)
    | intro s
    | lift_lets -underBinder
    | with_reducible apply State.drop_upd
    | with_reducible apply State.bump_upd
    | with_reducible apply State.holdPages_upd
    | with_reducible apply State.poolMark_upd
    | with_reducible apply State.setSeq_upd
    | with_reducible apply State.moveOver_upd)

theorem State.endResume_upd {F : List Part} {s₀ s : State} (n : Nat) (m : Move) (pages : List Nat) (h : Upd F s₀ s) (hF : Part.Sub [.free, .gcount, .regs, .hbm, .spm, .cores, .coaches, .vecs, .mbox, .inprog, .lastCoach, .xlate, .tables, .graphs, .gs, .sb, .link, .boot, .pwr, .svc, .jtag, .log, .ledger, .noc] F) :
    Upd F s₀ (State.endResume s n m pages) := by
  refine Upd.by_ h ?_ hF
  clear h hF
  revert s
  intro s₀
  have h := Upd.refl (F := [.free, .gcount, .regs, .hbm, .spm, .cores, .coaches, .vecs, .mbox, .inprog, .lastCoach, .xlate, .tables, .graphs, .gs, .sb, .link, .boot, .pwr, .svc, .jtag, .log, .ledger, .noc]) s₀
  delta State.endResume
  repeat' (first
    | with_reducible assumption
    | ((with_reducible apply Part.Sub.of); rfl)
    | (intro s; refine (fun h => ?_) (?_ : Upd [.free, .gcount, .regs, .hbm, .spm, .cores, .coaches, .vecs, .mbox, .inprog, .lastCoach, .xlate, .tables, .graphs, .gs, .sb, .link, .boot, .pwr, .svc, .jtag, .log, .ledger, .noc] s₀ s); rotate_left; subst s; rotate_left)
    | intro s
    | lift_lets -underBinder
    | with_reducible apply Upd.ite
    | (with_reducible apply Upd.foldl; case' hf => intro _ _ h)
    | with_reducible apply State.undoResume_upd
    | with_reducible apply State.moveWork_upd
    | with_reducible apply State.countRead_upd
    | with_reducible apply State.hotTraffic_upd
    | with_reducible apply State.toHot_upd
    | with_reducible apply State.freeColdPages_upd
    | with_reducible apply State.setSeq_upd
    | with_reducible apply State.moveOver_upd
    | split)

theorem execKvMoveDone_upd (slot : Nat) (pages : List Nat) (lost : Bool) (s₀ : State) : ∃ t, execKvMoveDone slot pages lost s₀ = .next t ∧ Upd [.free, .gcount, .regs, .hbm, .spm, .cores, .coaches, .vecs, .mbox, .inprog, .lastCoach, .xlate, .tables, .graphs, .gs, .sb, .link, .boot, .pwr, .svc, .jtag, .log, .ledger, .noc] s₀ t := by
  have h := Upd.refl (F := [.free, .gcount, .regs, .hbm, .spm, .cores, .coaches, .vecs, .mbox, .inprog, .lastCoach, .xlate, .tables, .graphs, .gs, .sb, .link, .boot, .pwr, .svc, .jtag, .log, .ledger, .noc]) s₀
  delta execKvMoveDone
  repeat' (first
    | with_reducible assumption
    | ((with_reducible apply Part.Sub.of); rfl)
    | (intro s; refine (fun h => ?_) (?_ : Upd [.free, .gcount, .regs, .hbm, .spm, .cores, .coaches, .vecs, .mbox, .inprog, .lastCoach, .xlate, .tables, .graphs, .gs, .sb, .link, .boot, .pwr, .svc, .jtag, .log, .ledger, .noc] s₀ s); rotate_left; subst s; rotate_left)
    | intro s
    | lift_lets -underBinder
    | with_reducible apply Upd.ite
    | with_reducible apply Upd.next
    | (with_reducible apply Upd.link; case h => with_reducible assumption)
    | with_reducible apply State.endPause_upd
    | with_reducible apply State.endResume_upd
    | split)

theorem State.openImport_upd {F : List Part} {s₀ s : State} (i : Nat) (n : Nat) (pages : Nat) (ttl : Nat) (h : Upd F s₀ s) (hF : Part.Sub [.free, .regs, .hbm, .coaches, .vecs, .sb, .link] F) :
    Upd F s₀ (State.openImport s i n pages ttl) := by
  refine Upd.by_ h ?_ hF
  clear h hF
  revert s
  intro s₀
  have h := Upd.refl (F := [.free, .regs, .hbm, .coaches, .vecs, .sb, .link]) s₀
  delta State.openImport
  repeat' (first
    | with_reducible assumption
    | ((with_reducible apply Part.Sub.of); rfl)
    | (intro s; refine (fun h => ?_) (?_ : Upd [.free, .regs, .hbm, .coaches, .vecs, .sb, .link] s₀ s); rotate_left; subst s; rotate_left)
    | intro s
    | lift_lets -underBinder
    | with_reducible apply Upd.ite
    | (with_reducible apply Upd.sb; case h => with_reducible assumption)
    | with_reducible apply State.draw_upd
    | with_reducible apply State.drop_upd
    | with_reducible apply State.bump_upd
    | with_reducible apply State.poolMark_upd
    | with_reducible apply State.memWrite_upd
    | with_reducible apply State.setSeq_upd)

theorem execKvImportOpen_upd (box : Nat) (pick : Nat) (s₀ : State) : ∃ t, execKvImportOpen box pick s₀ = .next t ∧ Upd [.free, .regs, .hbm, .coaches, .vecs, .mbox, .inprog, .lastCoach, .sb, .link, .svc] s₀ t := by
  have h := Upd.refl (F := [.free, .regs, .hbm, .coaches, .vecs, .mbox, .inprog, .lastCoach, .sb, .link, .svc]) s₀
  delta execKvImportOpen
  repeat' (first
    | with_reducible assumption
    | ((with_reducible apply Part.Sub.of); rfl)
    | (intro s; refine (fun h => ?_) (?_ : Upd [.free, .regs, .hbm, .coaches, .vecs, .mbox, .inprog, .lastCoach, .sb, .link, .svc] s₀ s); rotate_left; subst s; rotate_left)
    | intro s
    | lift_lets -underBinder
    | with_reducible apply Upd.ite
    | with_reducible apply Upd.next
    | with_reducible apply State.fails_upd
    | with_reducible apply State.refuses_upd
    | with_reducible apply State.openImport_upd
    | with_reducible apply State.respond_upd
    | (with_reducible apply takeCommand_upd; case' hown => intro _ _ h)
    | split)

theorem execKvImportClose_upd (box : Nat) (s₀ : State) : ∃ t, execKvImportClose box s₀ = .next t ∧ Upd [.free, .regs, .hbm, .coaches, .vecs, .mbox, .inprog, .lastCoach, .xlate, .sb, .link, .svc] s₀ t := by
  have h := Upd.refl (F := [.free, .regs, .hbm, .coaches, .vecs, .mbox, .inprog, .lastCoach, .xlate, .sb, .link, .svc]) s₀
  delta execKvImportClose
  repeat' (first
    | with_reducible assumption
    | ((with_reducible apply Part.Sub.of); rfl)
    | lift_lets -underBinder
    | with_reducible apply Upd.ite
    | with_reducible apply Upd.next
    | with_reducible apply State.fails_upd
    | with_reducible apply State.closeImport_upd
    | with_reducible apply State.respond_upd
    | (with_reducible apply takeCommand_upd; case' hown => intro _ _ h)
    | split)

theorem execKvShip_upd (box : Nat) (s₀ : State) : ∃ t, execKvShip box s₀ = .next t ∧ Upd [.free, .regs, .hbm, .vecs, .mbox, .inprog, .lastCoach, .sb, .link, .svc] s₀ t := by
  have h := Upd.refl (F := [.free, .regs, .hbm, .vecs, .mbox, .inprog, .lastCoach, .sb, .link, .svc]) s₀
  delta execKvShip
  repeat' (first
    | with_reducible assumption
    | ((with_reducible apply Part.Sub.of); rfl)
    | intro s
    | lift_lets -underBinder
    | with_reducible apply Upd.ite
    | with_reducible apply Upd.next
    | with_reducible apply State.fails_upd
    | with_reducible apply State.startExport_upd
    | with_reducible apply State.respond_upd
    | (with_reducible apply takeCommand_upd; case' hown => intro _ _ h)
    | split)

theorem State.sendPage_upd {F : List Part} {s₀ s : State} (n : Nat) (e : Exp) (k : Nat) (p : Stream × Nat × List Byte) (h : Upd F s₀ s) (hF : Part.Sub [.regs, .link] F) :
    Upd F s₀ (State.sendPage s n e k p) := by
  refine Upd.by_ h ?_ hF
  clear h hF
  revert s
  intro s₀
  have h := Upd.refl (F := [.regs, .link]) s₀
  delta State.sendPage
  repeat' (first
    | with_reducible assumption
    | ((with_reducible apply Part.Sub.of); rfl)
    | (intro s; have _h : List _ := s; clear _h; clear_value s)
    | intro s
    | lift_lets -underBinder
    | with_reducible apply State.shipSend_upd)

theorem State.sendTrailer_upd {F : List Part} {s₀ s : State} (n : Nat) (e : Exp) (h : Upd F s₀ s) (hF : Part.Sub [.regs, .link] F) :
    Upd F s₀ (State.sendTrailer s n e) := by
  refine Upd.by_ h ?_ hF
  clear h hF
  revert s
  intro s₀
  have h := Upd.refl (F := [.regs, .link]) s₀
  delta State.sendTrailer
  repeat' (first
    | with_reducible assumption
    | ((with_reducible apply Part.Sub.of); rfl)
    | (intro s; have _h : List _ := s; clear _h; clear_value s)
    | intro s
    | lift_lets -underBinder
    | with_reducible apply State.shipSend_upd)

theorem State.shipAnswer_upd {F : List Part} {s₀ s : State} (port : Nat) (m : Msg) (kind : Nat) (own : State → State) (h : Upd F s₀ s) (hF : Part.Sub [.regs, .vecs, .gs, .link, .svc, .log] F)
    (hown : ∀ s, Upd F s₀ s → Upd F s₀ (own s)) :
    Upd F s₀ (State.shipAnswer s port m kind own) := by
  delta State.shipAnswer
  repeat' (first
    | (with_reducible assumption)
    | with_reducible apply hown
    | with_reducible apply Upd.ite
    | (with_reducible apply State.arrive_upd; case' hown => intro _ h))

theorem State.shipPoisoned_upd {F : List Part} {s₀ s : State} (n : Nat) (h : Upd F s₀ s) (hF : Part.Sub [.regs, .hbm, .sb, .link] F) :
    Upd F s₀ (State.shipPoisoned s n) := by
  refine Upd.by_ h ?_ hF
  clear h hF
  revert s
  intro s₀
  have h := Upd.refl (F := [.regs, .hbm, .sb, .link]) s₀
  delta State.shipPoisoned
  repeat' (first
    | with_reducible assumption
    | ((with_reducible apply Part.Sub.of); rfl)
    | with_reducible apply State.abortExport_upd
    | with_reducible apply State.setEnding_upd
    | with_reducible apply State.endShipFailed_upd)

theorem execShipAccept_upd (port : Nat) (m : Msg) (s₀ : State) : ∃ t, execShipAccept port m s₀ = .next t ∧ Upd [.regs, .hbm, .vecs, .gs, .sb, .link, .svc, .log] s₀ t := by
  have h := Upd.refl (F := [.regs, .hbm, .vecs, .gs, .sb, .link, .svc, .log]) s₀
  delta execShipAccept
  repeat' (first
    | with_reducible assumption
    | ((with_reducible apply Part.Sub.of); rfl)
    | (intro s; refine (fun h => ?_) (?_ : Upd [.regs, .hbm, .vecs, .gs, .sb, .link, .svc, .log] s₀ s); rotate_left; subst s; rotate_left)
    | (intro s; have _h : List _ := s; clear _h; clear_value s)
    | lift_lets -underBinder
    | with_reducible apply Upd.ite
    | (with_reducible apply Upd.foldl; case' hf => intro _ _ h)
    | with_reducible apply Upd.next
    | (with_reducible apply State.shipAnswer_upd; case' hown => intro _ h)
    | with_reducible apply State.shipPoisoned_upd
    | with_reducible apply State.sendPage_upd
    | with_reducible apply State.sendTrailer_upd
    | with_reducible apply State.setExport_upd
    | split)

theorem execShipNak_upd (port : Nat) (m : Msg) (s₀ : State) : ∃ t, execShipNak port m s₀ = .next t ∧ Upd [.regs, .hbm, .vecs, .gs, .sb, .link, .svc, .log] s₀ t := by
  have h := Upd.refl (F := [.regs, .hbm, .vecs, .gs, .sb, .link, .svc, .log]) s₀
  delta execShipNak
  repeat' (first
    | with_reducible assumption
    | ((with_reducible apply Part.Sub.of); rfl)
    | (intro s; refine (fun h => ?_) (?_ : Upd [.regs, .hbm, .vecs, .gs, .sb, .link, .svc, .log] s₀ s); rotate_left; subst s; rotate_left)
    | intro s
    | lift_lets -underBinder
    | with_reducible apply Upd.ite
    | with_reducible apply Upd.next
    | (with_reducible apply State.shipAnswer_upd; case' hown => intro _ h)
    | with_reducible apply State.shipPoisoned_upd
    | with_reducible apply State.sendPage_upd
    | with_reducible apply State.sendTrailer_upd
    | with_reducible apply State.setExport_upd
    | with_reducible apply State.failExport_upd
    | split)

theorem execShipCommit_upd (port : Nat) (m : Msg) (s₀ : State) : ∃ t, execShipCommit port m s₀ = .next t ∧ Upd [.regs, .hbm, .vecs, .gs, .sb, .link, .svc, .log] s₀ t := by
  have h := Upd.refl (F := [.regs, .hbm, .vecs, .gs, .sb, .link, .svc, .log]) s₀
  delta execShipCommit
  repeat' (first
    | with_reducible assumption
    | ((with_reducible apply Part.Sub.of); rfl)
    | (intro s; refine (fun h => ?_) (?_ : Upd [.regs, .hbm, .vecs, .gs, .sb, .link, .svc, .log] s₀ s); rotate_left; subst s; rotate_left)
    | intro s
    | lift_lets -underBinder
    | with_reducible apply Upd.next
    | (with_reducible apply Upd.sb; case h => with_reducible assumption)
    | (with_reducible apply State.shipAnswer_upd; case' hown => intro _ h)
    | with_reducible apply State.count_upd
    | with_reducible apply State.setEnding_upd
    | split)

theorem execShipAbort_upd (port : Nat) (m : Msg) (s₀ : State) : ∃ t, execShipAbort port m s₀ = .next t ∧ Upd [.regs, .hbm, .coaches, .vecs, .xlate, .gs, .sb, .link, .svc, .log] s₀ t := by
  have h := Upd.refl (F := [.regs, .hbm, .coaches, .vecs, .xlate, .gs, .sb, .link, .svc, .log]) s₀
  delta execShipAbort
  repeat' (first
    | with_reducible assumption
    | ((with_reducible apply Part.Sub.of); rfl)
    | (intro s; refine (fun h => ?_) (?_ : Upd [.regs, .hbm, .coaches, .vecs, .xlate, .gs, .sb, .link, .svc, .log] s₀ s); rotate_left; subst s; rotate_left)
    | intro s
    | lift_lets -underBinder
    | with_reducible apply Upd.ite
    | with_reducible apply Upd.next
    | (with_reducible apply Upd.sb; case h => with_reducible assumption)
    | (with_reducible apply State.shipAnswer_upd; case' hown => intro _ h)
    | with_reducible apply State.complete_upd
    | with_reducible apply State.closeImport_upd
    | split)

theorem execShipAnswerTimeout_upd (slot : Nat) (s₀ : State) : ∃ t, execShipAnswerTimeout slot s₀ = .next t ∧ Upd [.regs, .hbm, .vecs, .gs, .sb, .link, .svc, .log] s₀ t := by
  have h := Upd.refl (F := [.regs, .hbm, .vecs, .gs, .sb, .link, .svc, .log]) s₀
  delta execShipAnswerTimeout
  repeat' (first
    | with_reducible assumption
    | ((with_reducible apply Part.Sub.of); rfl)
    | lift_lets -underBinder
    | with_reducible apply Upd.ite
    | with_reducible apply Upd.next
    | with_reducible apply State.shipRestart_upd
    | split)

theorem State.setImport_upd {F : List Part} {s₀ s : State} (i : Nat) (m : Imp) (h : Upd F s₀ s) (hF : Part.Sub [.sb] F) :
    Upd F s₀ (State.setImport s i m) := by
  refine Upd.by_ h ?_ hF
  clear h hF
  revert s
  intro s₀
  have h := Upd.refl (F := [.sb]) s₀
  delta State.setImport
  repeat' (first
    | ((with_reducible apply Part.Sub.of); rfl)
    | intro s
    | lift_lets -underBinder
    | (with_reducible apply Upd.sb; case h => with_reducible assumption))

theorem State.forImport_upd {F : List Part} {s₀ s : State} (m : Msg) (page : Nat) (own : Nat → Imp → State → State) (h : Upd F s₀ s) (hF : Part.Sub [.regs, .hbm, .coaches, .vecs, .xlate, .sb, .link] F)
    (hown : ∀ c x s, Upd F s₀ s → Upd F s₀ (own c x s)) :
    Upd F s₀ (State.forImport s m page own) := by
  delta State.forImport
  repeat' (first
    | (with_reducible assumption)
    | ((with_reducible apply Part.Sub.trans _ hF); exact Part.Sub.of rfl)
    | with_reducible apply hown
    | with_reducible assumption
    | with_reducible exact Upd.refl _
    | (intro s; refine (fun h => ?_) (?_ : Upd F s₀ s); rotate_left; subst s; rotate_left)
    | (intro s; have _h : Option _ := s; clear _h; clear_value s)
    | (intro s; have _h : List _ := s; clear _h; clear_value s)
    | intro s
    | lift_lets -underBinder
    | with_reducible apply Upd.ite
    | with_reducible apply State.closeImport_upd
    | with_reducible apply State.shipReply_upd
    | split)


theorem State.discardLanded_upd {F : List Part} {s₀ s : State} (i : Nat) (x : Imp) (h : Upd F s₀ s) (hF : Part.Sub [.regs, .hbm, .coaches, .vecs, .xlate, .sb, .link] F) :
    Upd F s₀ (State.discardLanded s i x) := by
  refine Upd.by_ h ?_ hF
  clear h hF
  revert s
  intro s₀
  have h := Upd.refl (F := [.regs, .hbm, .coaches, .vecs, .xlate, .sb, .link]) s₀
  delta State.discardLanded
  repeat' (first
    | with_reducible assumption
    | ((with_reducible apply Part.Sub.of); rfl)
    | (intro s; refine (fun h => ?_) (?_ : Upd [.regs, .hbm, .coaches, .vecs, .xlate, .sb, .link] s₀ s); rotate_left; subst s; rotate_left)
    | intro s
    | lift_lets -underBinder
    | (with_reducible apply Upd.foldl; case' hf => intro _ _ h)
    | with_reducible apply State.freeLanded_upd
    | with_reducible apply State.drop_upd
    | with_reducible apply State.bump_upd
    | with_reducible apply State.setImport_upd)

theorem execShipHeader_upd (port : Nat) (m : Msg) (s₀ : State) : ∃ t, execShipHeader port m s₀ = .next t ∧ Upd [.regs, .hbm, .coaches, .vecs, .xlate, .gs, .sb, .link, .svc, .log] s₀ t := by
  have h := Upd.refl (F := [.regs, .hbm, .coaches, .vecs, .xlate, .gs, .sb, .link, .svc, .log]) s₀
  delta execShipHeader
  repeat' (first
    | with_reducible assumption
    | with_reducible exact Upd.refl _
    | ((with_reducible apply Part.Sub.of); rfl)
    | (intro s; refine (fun h => ?_) (?_ : Upd [.regs, .hbm, .coaches, .vecs, .xlate, .gs, .sb, .link, .svc, .log] s₀ s); rotate_left; subst s; rotate_left)
    | (intro q; refine (fun hq => ?_) (?_ : ∀ s, Upd [.regs, .hbm, .coaches, .vecs, .xlate, .gs, .sb, .link, .svc, .log] s₀ s → Upd [.regs, .hbm, .coaches, .vecs, .xlate, .gs, .sb, .link, .svc, .log] s₀ (q s)); rotate_left; subst q; intro s h; rotate_left)
    | (intro q; refine (fun hq => ?_) (?_ : ∀ s x, Upd [.regs, .hbm, .coaches, .vecs, .xlate, .gs, .sb, .link, .svc, .log] s₀ s → Upd [.regs, .hbm, .coaches, .vecs, .xlate, .gs, .sb, .link, .svc, .log] s₀ (q s x)); rotate_left; subst q; intro s x h; rotate_left)
    | (intro q; refine (fun hq => ?_) (?_ : ∀ x s, Upd [.regs, .hbm, .coaches, .vecs, .xlate, .gs, .sb, .link, .svc, .log] s₀ s → Upd [.regs, .hbm, .coaches, .vecs, .xlate, .gs, .sb, .link, .svc, .log] s₀ (q x s)); rotate_left; subst q; intro x s h; rotate_left)
    | (intro s; have _h : Option _ := s; clear _h; clear_value s)
    | (intro s; have _h : List _ := s; clear _h; clear_value s)
    | intro s
    | lift_lets -underBinder
    | with_reducible apply hq
    | with_reducible apply Upd.ite
    | with_reducible apply Upd.next
    | (with_reducible apply State.arrive_upd; case' hown => intro _ h)
    | (with_reducible apply State.forImport_upd; case' hown => intro _ _ _ h)
    | with_reducible apply State.shipReply_upd
    | with_reducible apply State.discardLanded_upd
    | with_reducible apply State.setImport_upd
    | split)


theorem State.pageFailed_upd {F : List Part} {s₀ s : State} (m : Msg) (i : Nat) (x : Imp) (k : Nat) (h : Upd F s₀ s) (hF : Part.Sub [.regs, .hbm, .coaches, .vecs, .xlate, .gs, .sb, .link, .svc, .log] F) :
    Upd F s₀ (State.pageFailed s m i x k) := by
  refine Upd.by_ h ?_ hF
  clear h hF
  revert s
  intro s₀
  have h := Upd.refl (F := [.regs, .hbm, .coaches, .vecs, .xlate, .gs, .sb, .link, .svc, .log]) s₀
  delta State.pageFailed
  repeat' (first
    | with_reducible assumption
    | with_reducible exact Upd.refl _
    | ((with_reducible apply Part.Sub.of); rfl)
    | (intro s; refine (fun h => ?_) (?_ : Upd [.regs, .hbm, .coaches, .vecs, .xlate, .gs, .sb, .link, .svc, .log] s₀ s); rotate_left; subst s; rotate_left)
    | (intro s; have _h : Option _ := s; clear _h; clear_value s)
    | (intro s; have _h : List _ := s; clear _h; clear_value s)
    | intro s
    | lift_lets -underBinder
    | with_reducible apply Upd.ite
    | with_reducible apply State.discardLanded_upd
    | with_reducible apply State.count_upd
    | with_reducible apply State.raise_upd
    | with_reducible apply State.shipReply_upd
    | with_reducible apply State.setImport_upd
    | split)


theorem execShipPageRecord_upd (port : Nat) (m : Msg) (s₀ : State) : ∃ t, execShipPageRecord port m s₀ = .next t ∧ Upd [.regs, .hbm, .coaches, .vecs, .xlate, .gs, .sb, .link, .svc, .log] s₀ t := by
  have h := Upd.refl (F := [.regs, .hbm, .coaches, .vecs, .xlate, .gs, .sb, .link, .svc, .log]) s₀
  delta execShipPageRecord
  repeat' (first
    | with_reducible assumption
    | with_reducible exact Upd.refl _
    | ((with_reducible apply Part.Sub.of); rfl)
    | (intro s; refine (fun h => ?_) (?_ : Upd [.regs, .hbm, .coaches, .vecs, .xlate, .gs, .sb, .link, .svc, .log] s₀ s); rotate_left; subst s; rotate_left)
    | (intro q; refine (fun hq => ?_) (?_ : ∀ s, Upd [.regs, .hbm, .coaches, .vecs, .xlate, .gs, .sb, .link, .svc, .log] s₀ s → Upd [.regs, .hbm, .coaches, .vecs, .xlate, .gs, .sb, .link, .svc, .log] s₀ (q s)); rotate_left; subst q; intro s h; rotate_left)
    | (intro q; refine (fun hq => ?_) (?_ : ∀ s x, Upd [.regs, .hbm, .coaches, .vecs, .xlate, .gs, .sb, .link, .svc, .log] s₀ s → Upd [.regs, .hbm, .coaches, .vecs, .xlate, .gs, .sb, .link, .svc, .log] s₀ (q s x)); rotate_left; subst q; intro s x h; rotate_left)
    | (intro q; refine (fun hq => ?_) (?_ : ∀ x s, Upd [.regs, .hbm, .coaches, .vecs, .xlate, .gs, .sb, .link, .svc, .log] s₀ s → Upd [.regs, .hbm, .coaches, .vecs, .xlate, .gs, .sb, .link, .svc, .log] s₀ (q x s)); rotate_left; subst q; intro x s h; rotate_left)
    | (intro s; have _h : Option _ := s; clear _h; clear_value s)
    | (intro s; have _h : List _ := s; clear _h; clear_value s)
    | intro s
    | lift_lets -underBinder
    | with_reducible apply hq
    | with_reducible apply Upd.ite
    | with_reducible apply Upd.next
    | (with_reducible apply State.arrive_upd; case' hown => intro _ h)
    | (with_reducible apply State.forImport_upd; case' hown => intro _ _ _ h)
    | with_reducible apply State.shipReply_upd
    | with_reducible apply State.setImport_upd
    | with_reducible apply State.pageFailed_upd
    | split)


theorem State.landPage_upd {F : List Part} {s₀ s : State} (i : Nat) (x : Imp) (r : List Byte) (data : List Byte) (a : Nat) (pick : Nat) (h : Upd F s₀ s) (hF : Part.Sub [.regs, .hbm, .coaches, .vecs, .xlate, .sb, .link] F) :
    Upd F s₀ (State.landPage s i x r data a pick) := by
  refine Upd.by_ h ?_ hF
  clear h hF
  revert s
  intro s₀
  have h := Upd.refl (F := [.regs, .hbm, .coaches, .vecs, .xlate, .sb, .link]) s₀
  delta State.landPage
  repeat' (first
    | with_reducible assumption
    | ((with_reducible apply Part.Sub.of); rfl)
    | (intro s; refine (fun h => ?_) (?_ : Upd [.regs, .hbm, .coaches, .vecs, .xlate, .sb, .link] s₀ s); rotate_left; subst s; rotate_left)
    | intro s
    | lift_lets -underBinder
    | with_reducible apply Upd.ite
    | with_reducible apply State.takeHot_upd
    | with_reducible apply State.writePage_upd
    | with_reducible apply State.sbWrite_upd
    | with_reducible apply State.setImport_upd)

theorem execShipPageData_upd (port : Nat) (m : Msg) (page : Nat) (s₀ : State) : ∃ t, execShipPageData port m page s₀ = .next t ∧ Upd [.regs, .hbm, .coaches, .vecs, .xlate, .gs, .sb, .link, .svc, .log] s₀ t := by
  have h := Upd.refl (F := [.regs, .hbm, .coaches, .vecs, .xlate, .gs, .sb, .link, .svc, .log]) s₀
  delta execShipPageData
  repeat' (first
    | with_reducible assumption
    | ((with_reducible apply Part.Sub.of); rfl)
    | intro s
    | lift_lets -underBinder
    | with_reducible apply Upd.next
    | (with_reducible apply State.arrive_upd; case' hown => intro _ h)
    | (with_reducible apply State.forImport_upd; case' hown => intro _ _ _ h)
    | with_reducible apply State.pageFailed_upd
    | with_reducible apply State.landPage_upd
    | split)

theorem State.commitImport_upd {F : List Part} {s₀ s : State} (i : Nat) (x : Imp) (h : Upd F s₀ s) (hF : Part.Sub [.regs, .hbm, .coaches, .vecs, .sb, .link] F) :
    Upd F s₀ (State.commitImport s i x) := by
  refine Upd.by_ h ?_ hF
  clear h hF
  revert s
  intro s₀
  have h := Upd.refl (F := [.regs, .hbm, .coaches, .vecs, .sb, .link]) s₀
  delta State.commitImport
  repeat' (first
    | with_reducible assumption
    | ((with_reducible apply Part.Sub.of); rfl)
    | (intro s; refine (fun h => ?_) (?_ : Upd [.regs, .hbm, .coaches, .vecs, .sb, .link] s₀ s); rotate_left; subst s; rotate_left)
    | intro s
    | lift_lets -underBinder
    | with_reducible apply State.drop_upd
    | with_reducible apply State.bump_upd
    | with_reducible apply State.setImport_upd
    | with_reducible apply State.setSeq_upd
    | with_reducible apply State.count_upd
    | with_reducible apply State.complete_upd
    | with_reducible apply State.poolMark_upd)

theorem execShipTrailer_upd (port : Nat) (m : Msg) (s₀ : State) : ∃ t, execShipTrailer port m s₀ = .next t ∧ Upd [.regs, .hbm, .coaches, .vecs, .xlate, .gs, .sb, .link, .svc, .log] s₀ t := by
  have h := Upd.refl (F := [.regs, .hbm, .coaches, .vecs, .xlate, .gs, .sb, .link, .svc, .log]) s₀
  delta execShipTrailer
  repeat' (first
    | with_reducible assumption
    | with_reducible exact Upd.refl _
    | ((with_reducible apply Part.Sub.of); rfl)
    | (intro s; refine (fun h => ?_) (?_ : Upd [.regs, .hbm, .coaches, .vecs, .xlate, .gs, .sb, .link, .svc, .log] s₀ s); rotate_left; subst s; rotate_left)
    | (intro q; refine (fun hq => ?_) (?_ : ∀ s, Upd [.regs, .hbm, .coaches, .vecs, .xlate, .gs, .sb, .link, .svc, .log] s₀ s → Upd [.regs, .hbm, .coaches, .vecs, .xlate, .gs, .sb, .link, .svc, .log] s₀ (q s)); rotate_left; subst q; intro s h; rotate_left)
    | (intro q; refine (fun hq => ?_) (?_ : ∀ s x, Upd [.regs, .hbm, .coaches, .vecs, .xlate, .gs, .sb, .link, .svc, .log] s₀ s → Upd [.regs, .hbm, .coaches, .vecs, .xlate, .gs, .sb, .link, .svc, .log] s₀ (q s x)); rotate_left; subst q; intro s x h; rotate_left)
    | (intro q; refine (fun hq => ?_) (?_ : ∀ x s, Upd [.regs, .hbm, .coaches, .vecs, .xlate, .gs, .sb, .link, .svc, .log] s₀ s → Upd [.regs, .hbm, .coaches, .vecs, .xlate, .gs, .sb, .link, .svc, .log] s₀ (q x s)); rotate_left; subst q; intro x s h; rotate_left)
    | (intro s; have _h : Option _ := s; clear _h; clear_value s)
    | (intro s; have _h : List _ := s; clear _h; clear_value s)
    | intro s
    | lift_lets -underBinder
    | with_reducible apply hq
    | with_reducible apply Upd.ite
    | with_reducible apply Upd.next
    | (with_reducible apply State.arrive_upd; case' hown => intro _ h)
    | with_reducible apply State.shipReply_upd
    | (with_reducible apply State.forImport_upd; case' hown => intro _ _ _ h)
    | with_reducible apply State.commitImport_upd
    | with_reducible apply State.discardLanded_upd
    | with_reducible apply State.count_upd
    | with_reducible apply State.raise_upd
    | split)


end Sys2Proof.Machine
end

