-- ==== Sys2Proof/Laws/UpdTick.lean ====
section
/-!
SUPPORT. What each operation of Machine/Tick.lean may change.
-/
namespace Sys2Proof.Machine

theorem State.drainTimeouts_upd {F : List Part} {s₀ s : State} (h : Upd F s₀ s) (hF : Part.Sub [.regs, .vecs, .mbox, .inprog, .link, .svc] F) :
    Upd F s₀ (State.drainTimeouts s) := by
  refine Upd.by_ h ?_ hF
  clear h hF
  revert s
  intro s₀
  have h := Upd.refl (F := [.regs, .vecs, .mbox, .inprog, .link, .svc]) s₀
  delta State.drainTimeouts
  repeat' (first
    | with_reducible assumption
    | ((with_reducible apply Part.Sub.of); rfl)
    | with_reducible apply Upd.ite
    | with_reducible apply State.answerAll_upd)

theorem tick_upd {F : List Part} {s₀ s : State} (h : Upd F s₀ s) (hF : Part.Sub [.gcount, .regs, .vecs, .mbox, .inprog, .link, .svc, .noc] F) :
    Upd F s₀ (tick s) := by
  refine Upd.by_ h ?_ hF
  clear h hF
  revert s
  intro s₀
  have h := Upd.refl (F := [.gcount, .regs, .vecs, .mbox, .inprog, .link, .svc, .noc]) s₀
  delta tick
  repeat' (first
    | with_reducible assumption
    | ((with_reducible apply Part.Sub.of); rfl)
    | ((with_reducible apply Or.inr); exact .of rfl)
    | ((with_reducible apply Or.inl); rfl)
    | with_reducible apply Nat.le_refl
    | with_reducible apply Upd.gcount_mod
    | with_reducible apply MemUpd.refl
    | with_reducible apply RegsUpd.refl
    | with_reducible apply FusesUpd.refl
    | with_reducible apply NocUpd.cycle
    | lift_lets -underBinder
    | with_reducible apply Upd.ite
    | (with_reducible apply Upd.fields; (case h => with_reducible assumption))
    | with_reducible apply State.drainTimeouts_upd)

end Sys2Proof.Machine
end

