-- ==== Sys2Proof/Laws/Step.lean ====
section
/-!
SUPPORT. What a command may change, for every command at once: it answers a next state, and it changes the parts that `touches`
names.
-/
namespace Sys2Proof.Machine

theorem exec_touches (i : Instr) (s : State) : ∃ t, exec i s = .next t ∧ Upd (touches i) s t := by
  cases i with
  | getInfo _ => exact execGetInfo_upd _ _
  | setRole _ => exact execSetRole_upd _ _
  | setCoreConfig _ => exact execSetCoreConfig_upd _ _
  | topoSet _ => exact execTopoSet_upd _ _
  | drain _ => exact execDrain_upd _ _
  | standEnter _ => exact execStandEnter_upd _ _
  | shutdown _ => exact execShutdown_upd _ _
  | chipReset _ => exact execChipReset_upd _ _
  | fwHandover _ => exact execFwHandover_upd _ _
  | coreWithdraw _ => exact execCoreWithdraw_upd _ _
  | coreTest _ => exact execCoreTest_upd _ _
  | logRead _ => exact execLogRead_upd _ _
  | idGet _ => exact execIdGet_upd _ _
  | attestQuote _ => exact execAttestQuote_upd _ _
  | coachCreate _ => exact execCoachCreate_upd _ _
  | coachDestroy _ => exact execCoachDestroy_upd _ _
  | coachStart _ => exact execCoachStart_upd _ _
  | coachHalt _ => exact execCoachHalt_upd _ _
  | coachReset _ => exact execCoachReset_upd _ _
  | coachMap _ => exact execCoachMap_upd _ _
  | coachUnmap _ => exact execCoachUnmap_upd _ _
  | launchAt _ => exact execLaunchAt_upd _ _
  | regionSet _ _ => exact execRegionSet_upd _ _ _
  | regionClear _ => exact execRegionClear_upd _ _
  | memMargin _ => exact execMemMargin_upd _ _
  | kvPoolSet _ => exact execKvPoolSet_upd _ _
  | graphRegister _ => exact execGraphRegister_upd _ _
  | graphUpdate _ => exact execGraphUpdate_upd _ _
  | graphUnregister _ => exact execGraphUnregister_upd _ _
  | graphShare _ => exact execGraphShare_upd _ _
  | tableLoad _ => exact execTableLoad_upd _ _
  | tableRetire _ => exact execTableRetire_upd _ _
  | overlayLoad _ _ => exact execOverlayLoad_upd _ _ _
  | overlayDrop _ => exact execOverlayDrop_upd _ _
  | overlayRead _ => exact execOverlayRead_upd _ _
  | seqOpen _ _ => exact execSeqOpen_upd _ _ _
  | seqCancel _ => exact execSeqCancel_upd _ _
  | kvPause _ => exact execKvPause_upd _ _
  | kvResume _ => exact execKvResume_upd _ _
  | kvImportOpen _ _ => exact execKvImportOpen_upd _ _ _
  | kvImportClose _ => exact execKvImportClose_upd _ _
  | kvShip _ => exact execKvShip_upd _ _
  | collOpen _ _ => exact execCollOpen_upd _ _ _
  | collRun _ => exact execCollRun_upd _ _
  | collClose _ => exact execCollClose_upd _ _
  | tableLoadDone _ => exact execTableLoadDone_upd _ _
  | quoteSigned => exact execQuoteSigned_upd _
  | marginDone _ => exact execMarginDone_upd _ _
  | coachDestroyDone _ => exact execCoachDestroyDone_upd _ _
  | mirrorSyncDone _ => exact execMirrorSyncDone_upd _ _
  | mirrorRebuild => exact execMirrorRebuild_upd _
  | kvMoveDone _ _ _ => exact execKvMoveDone_upd _ _ _ _
  | handoverCheckpointDone => exact execHandoverCheckpointDone_upd _
  | firmwareRestoreDone _ => exact execFirmwareRestoreDone_upd _ _
  | standDrained => exact execStandDrained_upd _
  | standAckWaitEnd => exact execStandAckWaitEnd_upd _
  | selftestDone _ => exact execSelftestDone_upd _ _
  | eklWrite _ _ => exact execEklWrite_upd _ _ _
  | eklWriteAck _ _ => exact execEklWriteAck_upd _ _ _
  | eklRead _ _ => exact execEklRead_upd _ _ _
  | eklReadData _ _ => exact execEklReadData_upd _ _ _
  | eklAdd _ _ => exact execEklAdd_upd _ _ _
  | eklAddAck _ _ => exact execEklAddAck_upd _ _ _
  | drawbar _ _ => exact execDrawbar_upd _ _ _
  | chainDone _ _ => exact execChainDone_upd _ _ _
  | replay _ _ => exact execReplay_upd _ _ _
  | barCredit _ _ => exact execBarCredit_upd _ _ _
  | shipHeader _ _ => exact execShipHeader_upd _ _ _
  | shipPageRecord _ _ => exact execShipPageRecord_upd _ _ _
  | shipPageData _ _ _ => exact execShipPageData_upd _ _ _ _
  | shipTrailer _ _ => exact execShipTrailer_upd _ _ _
  | shipAccept _ _ => exact execShipAccept_upd _ _ _
  | shipNak _ _ => exact execShipNak_upd _ _ _
  | shipCommit _ _ => exact execShipCommit_upd _ _ _
  | shipAbort _ _ => exact execShipAbort_upd _ _ _
  | shipAnswerTimeout _ => exact execShipAnswerTimeout_upd _ _
  | collUp _ _ => exact execCollUp_upd _ _ _
  | collDown _ _ => exact execCollDown_upd _ _ _
  | collAbort _ _ => exact execCollAbort_upd _ _ _
  | collTimeout _ => exact execCollTimeout_upd _ _
  | mgmt _ _ => exact execMgmt_upd _ _ _
  | bootGrant _ _ => exact execBootGrant_upd _ _ _
  | messageForward _ _ => exact execMessageForward_upd _ _ _
  | dataFlit _ _ _ => exact execDataFlit_upd _ _ _ _
  | idleFlit _ _ _ => exact execIdleFlit_upd _ _ _ _
  | markFlit _ _ _ => exact execMarkFlit_upd _ _ _ _
  | replayTimeout _ => exact execReplayTimeout_upd _ _
  | frameStart => exact execFrameStart_upd _
  | syncMarkLoss => exact execSyncMarkLoss_upd _
  | syncHoldoverExpiry => exact execSyncHoldoverExpiry_upd _
  | lightDetect _ => exact execLightDetect_upd _ _
  | trainingRetry _ _ => exact execTrainingRetry_upd _ _ _
  | trainingTimeout _ => exact execTrainingTimeout_upd _ _
  | fecLockLoss _ _ => exact execFecLockLoss_upd _ _ _
  | retrainRelock _ _ => exact execRetrainRelock_upd _ _ _
  | retrainTimeout _ => exact execRetrainTimeout_upd _ _
  | lossOfSignal _ _ => exact execLossOfSignal_upd _ _ _
  | routeUpdate => exact execRouteUpdate_upd _
  | presenceChange _ _ => exact execPresenceChange_upd _ _ _
  | presenceSteady _ => exact execPresenceSteady_upd _ _
  | drainComplete => exact execDrainComplete_upd _
  | hostWriteGiveup _ => exact execHostWriteGiveup_upd _ _
  | interruptFrameResend _ => exact execInterruptFrameResend_upd _ _
  | seqInputWrite _ _ _ => exact execSeqInputWrite_upd _ _ _ _
  | seqCancelBit _ _ => exact execSeqCancelBit_upd _ _ _
  | seqCloseBit _ _ => exact execSeqCloseBit_upd _ _ _
  | seqEntryStaged _ => exact execSeqEntryStaged_upd _ _
  | deadlineCheck => exact execDeadlineCheck_upd _
  | deadlineExpiry _ => exact execDeadlineExpiry_upd _ _
  | sbIdleTimer => exact execSbIdleTimer_upd _
  | kvTtlExpiry _ => exact execKvTtlExpiry_upd _ _
  | importTtlExpiry _ => exact execImportTtlExpiry_upd _ _
  | manifestReady _ _ => exact execManifestReady_upd _ _ _
  | ledgerAuditTimer => exact execLedgerAuditTimer_upd _
  | ledgerEvalDone _ => exact execLedgerEvalDone_upd _ _
  | gsDispatchUnit _ => exact execGsDispatchUnit_upd _ _
  | quantumStart => exact execQuantumStart_upd _
  | throttleWindow => exact execThrottleWindow_upd _
  | tdDispatchRx _ _ => exact execTdDispatchRx_upd _ _ _
  | carriageIssue _ _ _ => exact execCarriageIssue_upd _ _ _ _
  | carriageComplete _ _ => exact execCarriageComplete_upd _ _ _
  | carriageCompletionRx => exact execCarriageCompletionRx_upd _
  | carriageEndRx _ => exact execCarriageEndRx_upd _ _
  | carriageWatchdog _ _ => exact execCarriageWatchdog_upd _ _ _
  | tileSwap _ _ => exact execTileSwap_upd _ _ _
  | teFormatBarrierEnd _ _ => exact execTeFormatBarrierEnd_upd _ _ _
  | setReady _ _ => exact execSetReady_upd _ _ _
  | setDrainStart _ _ _ => exact execSetDrainStart_upd _ _ _ _
  | setDrainDone _ _ => exact execSetDrainDone_upd _ _ _
  | drawbarCartRx _ _ _ => exact execDrawbarCartRx_upd _ _ _ _
  | xeTileStart _ _ _ => exact execXeTileStart_upd _ _ _ _
  | xeBlockDone _ _ _ => exact execXeBlockDone_upd _ _ _ _
  | geCartRead _ _ _ _ => exact execGeCartRead_upd _ _ _ _ _
  | partialCartRx _ _ => exact execPartialCartRx_upd _ _ _
  | mergeFold _ _ _ => exact execMergeFold_upd _ _ _ _
  | dmaDescriptorIssue _ _ _ => exact execDmaDescriptorIssue_upd _ _ _ _
  | dmaChunkDone _ _ => exact execDmaChunkDone_upd _ _ _
  | xlateWalkDone _ _ _ _ _ => exact execXlateWalkDone_upd _ _ _ _ _ _
  | nbrWriteRx _ => exact execNbrWriteRx_upd _ _
  | scrubRow _ _ _ => exact execScrubRow_upd _ _ _ _
  | scrubForce _ _ _ => exact execScrubForce_upd _ _ _ _
  | spmClearDone _ => exact execSpmClearDone_upd _ _
  | mcBulkRequest _ _ _ => exact execMcBulkRequest_upd _ _ _ _
  | mcFineRequest _ _ => exact execMcFineRequest_upd _ _ _
  | mcAddRequest _ _ => exact execMcAddRequest_upd _ _ _
  | patrolLine _ _ _ _ => exact execPatrolLine_upd _ _ _ _ _
  | pmIntervalEnd => exact execPmIntervalEnd_upd _
  | interruptCoalTimeout _ => exact execInterruptCoalTimeout_upd _ _
  | launchTime _ => exact execLaunchTime_upd _ _
  | launchWindow _ => exact execLaunchWindow_upd _ _
  | ftDue _ => exact execFtDue_upd _ _
  | ftTestStart _ => exact execFtTestStart_upd _ _
  | ftDefer _ => exact execFtDefer_upd _ _
  | ftTestDone _ _ => exact execFtTestDone_upd _ _ _
  | recoveryDone => exact execRecoveryDone_upd _
  | mpWatchdog => exact execMpWatchdog_upd _
  | mpAbsentLimit => exact execMpAbsentLimit_upd _
  | gsSbParityFail => exact execGsSbParityFail_upd _
  | warmResetQuiesced => exact execWarmResetQuiesced_upd _
  | bootPorDone _ => exact execBootPorDone_upd _ _
  | hbmTrainDone _ => exact execHbmTrainDone_upd _ _
  | bootReqTimer => exact execBootReqTimer_upd _
  | handbackDone _ => exact execHandbackDone_upd _ _
  | bootReadTimeout _ => exact execBootReadTimeout_upd _ _
  | imageLoadDone => exact execImageLoadDone_upd _
  | imageVerifyDone _ _ => exact execImageVerifyDone_upd _ _ _
  | pwrgdRise => exact execPwrgdRise_upd _
  | pwrgdFall => exact execPwrgdFall_upd _
  | poreset _ _ _ => exact execPoreset_upd _ _ _ _
  | warmreset => exact execWarmreset_upd _
  | regulatorGood _ => exact execRegulatorGood_upd _ _
  | regulatorTimeout _ => exact execRegulatorTimeout_upd _ _
  | xtalDelayEnd => exact execXtalDelayEnd_upd _
  | pllLockDone _ _ => exact execPllLockDone_upd _ _ _
  | pllLockLoss => exact execPllLockLoss_upd _
  | ioscTrimMeasure _ => exact execIoscTrimMeasure_upd _ _
  | vinUndervolt _ => exact execVinUndervolt_upd _ _
  | vinBrownout _ => exact execVinBrownout_upd _ _
  | thermSample _ _ => exact execThermSample_upd _ _ _
  | thermalTrip => exact execThermalTrip_upd _
  | throttleEval _ _ => exact execThrottleEval_upd _ _ _
  | standAddressMatch => exact execStandAddressMatch_upd _
  | lbEklWrite _ _ => exact execLbEklWrite_upd _ _ _
  | lbHbmWrite _ _ => exact execLbHbmWrite_upd _ _ _
  | lbHbmEnd _ _ _ => exact execLbHbmEnd_upd _ _ _ _
  | tapReset => exact execTapReset_upd _
  | jtagIdcode => exact execJtagIdcode_upd _
  | jtagBypass => exact execJtagBypass_upd _
  | jtagSamplePreload _ => exact execJtagSamplePreload_upd _ _
  | jtagExtest _ => exact execJtagExtest_upd _ _
  | jtagHighz _ => exact execJtagHighz_upd _ _
  | jtagClamp _ => exact execJtagClamp_upd _ _
  | scanReq => exact execScanReq_upd _
  | scanClearDone => exact execScanClearDone_upd _
  | fuseProg _ _ _ _ => exact execFuseProg_upd _ _ _ _ _
  | sbQuickCommand => exact execSbQuickCommand_upd _
  | sbStatusRead => exact execSbStatusRead_upd _
  | sbRegisterRead _ => exact execSbRegisterRead_upd _ _
  | sbMailboxWrite _ _ _ => exact execSbMailboxWrite_upd _ _ _ _
  | sbAlertResponse => exact execSbAlertResponse_upd _
  | sbClockTimeout => exact execSbClockTimeout_upd _
  | svcButtonPress => exact execSvcButtonPress_upd _
  | svcButtonRelease => exact execSvcButtonRelease_upd _
  | svcHold => exact execSvcHold_upd _
  | chipModeWrite _ => exact execChipModeWrite_upd _ _
  | coachRwhWrite _ _ _ => exact execCoachRwhWrite_upd _ _ _ _
  | vcfgWrite _ _ => exact execVcfgWrite_upd _ _ _
  | portDisableWrite _ _ => exact execPortDisableWrite_upd _ _ _
  | svcLocateWrite _ => exact execSvcLocateWrite_upd _ _
  | gcSyncWrite _ => exact execGcSyncWrite_upd _ _
  | counterReadClear _ => exact execCounterReadClear_upd _ _
  | registerWrite _ _ _ _ => exact execRegisterWrite_upd _ _ _ _ _
  | stackTrainingLoss _ => exact execStackTrainingLoss_upd _ _
  | portSwitchParityFailure => exact execPortSwitchParityFailure_upd _
  | refclkPresenceChange _ => exact execRefclkPresenceChange_upd _ _
  | translationCachesDropped => exact execTranslationCachesDropped_upd _

theorem exec_next {i : Instr} {s t : State} (h : exec i s = .next t) : Upd (touches i) s t := by
  obtain ⟨u, hu, k⟩ := exec_touches i s
  rw [h] at hu
  cases hu
  exact k

theorem step_touches (s : State) : ∃ t F, step s = .next t ∧ Upd F { s with pending := s.pending.tail } t := by
  unfold step
  split
  next e =>
    refine ⟨_, _, rfl, tick_upd (F := [.gcount, .regs, .vecs, .mbox, .inprog, .link, .svc, .noc]) ?_ (.of rfl)⟩
    rw [e, List.tail_nil, ← e]
    exact Upd.refl s
  next c r e =>
    obtain ⟨t, h, k⟩ := exec_touches c { s with pending := r }
    refine ⟨t, touches c, h, ?_⟩
    rw [e]
    exact k

end Sys2Proof.Machine
end

