-- ==== Sys2Proof/Laws/Stores.lean ====
section
/-!
SUPPORT. The frames of the stores: which bytes of HBM, of the scratchpads and of the mailboxes a write leaves as they were.
-/
namespace Sys2Proof.Machine

/-- Charging a class changes no byte of HBM. -/
theorem charged_bytes (s : State) (m k n : Nat) (f : Bool) : (s.charged m k n f).hbm.bytes = s.hbm.bytes := by
  unfold State.charged
  dsimp only
  repeat' split
  all_goals rfl

/-- Counting a write changes no byte of HBM. -/
theorem countWrite_bytes (s : State) (a n k : Nat) (f : Bool) : (s.countWrite a n k f).hbm.bytes = s.hbm.bytes := by
  unfold State.countWrite
  generalize piecesOf a n = l
  induction l generalizing s with
  | nil => rfl
  | cons p r ih =>
    rw [List.foldl_cons, ih]
    dsimp only
    split
    · simp [charged_bytes]
    · simp [charged_bytes]

/-- A controller error leaves HBM as it is. -/
theorem mcErr_hbm (s : State) (m c a cause cls sev : Nat) : (s.mcErr m c a cause cls sev).hbm = s.hbm :=
  (State.mcErr_upd (F := [.regs, .vecs, .gs, .link, .svc, .log]) m c a cause cls sev (Upd.refl s) (.of rfl)).keep .hbm rfl

/-- A record leaves HBM as it is. -/
theorem raise_hbm (s : State) (r : LogRec) : (s.raise r).hbm = s.hbm :=
  (State.raise_upd (F := [.regs, .vecs, .gs, .link, .svc, .log]) r (Upd.refl s) (.of rfl)).keep .hbm rfl

/-- Retiring a row changes no byte of HBM. -/
theorem retireRow_bytes (s : State) (m c row a copy : Nat) (lines : List Nat) :
    (s.retireRow m c row a copy lines).hbm.bytes = s.hbm.bytes := by
  unfold State.retireRow
  dsimp only
  split
  · rw [mcErr_hbm]
  · rw [raise_hbm]
    rfl

/-- Queueing a rebuild changes no byte of HBM. -/
theorem queueRebuild_bytes (s : State) (l : Nat) : (s.queueRebuild l).hbm.bytes = s.hbm.bytes := by
  unfold State.queueRebuild
  split
  · rfl
  · split
    · rfl
    · dsimp only
      split <;> rfl

/-- Finding a bad copy changes no byte of HBM. -/
theorem mirrorFound_bytes (s : State) (l : Nat) : (s.mirrorFound l).hbm.bytes = s.hbm.bytes := by
  unfold State.mirrorFound
  dsimp only
  split
  · rfl
  · rw [mcErr_hbm]
    rfl

/-- Correcting an error changes no byte of HBM. -/
theorem corrected_bytes (s : State) (m c row a copy : Nat) (lines : List Nat) :
    (s.corrected m c row a copy lines).hbm.bytes = s.hbm.bytes := by
  unfold State.corrected
  dsimp only
  split
  · rw [retireRow_bytes]
    rfl
  · rfl

/-- A line that has been written: curing it changes no byte of HBM. -/
theorem cureLine_bytes (s : State) (l : Nat) : (s.cureLine l).hbm.bytes = s.hbm.bytes := by
  unfold State.cureLine
  dsimp only
  split
  · rfl
  · split <;> rfl

/-- A read of a line changes no byte of HBM. -/
theorem readLine_bytes (s : State) (l : Nat) (f : MemFind) : (s.readLine l f).1.hbm.bytes = s.hbm.bytes := by
  have fst {c : Prop} [Decidable c] {a b : State × Bool} : (if c then a else b).1 = if c then a.1 else b.1 := by
    split <;> rfl
  have ite {c : Prop} [Decidable c] {a b : State} : (if c then a else b).hbm.bytes = if c then a.hbm.bytes else b.hbm.bytes := by
    split <;> rfl
  unfold State.readLine
  dsimp only
  generalize (if f.ecc = 0 ∧ f.mirrorBad = false then _ else f : MemFind) = f
  simp only [fst, ite, retireRow_bytes, mcErr_hbm, bump_hbm, queueRebuild_bytes, corrected_bytes, mirrorFound_bytes, ite_self,
    show ∀ (s : State) m l k, (s.foundBad m l k).hbm.bytes = s.hbm.bytes from fun _ _ _ _ => rfl,
    show ∀ (s : State) l, (s.takeLatent l).hbm.bytes = s.hbm.bytes from fun _ _ => rfl]

/-- Charging a class changes no queue of fine accesses. -/
theorem charged_fineQ (s : State) (m k n : Nat) (f : Bool) : (s.charged m k n f).hbm.fineQ = s.hbm.fineQ := by
  unfold State.charged
  dsimp only
  repeat' split
  all_goals rfl

/-- Counting a write changes no queue of fine accesses. -/
theorem countWrite_fineQ (s : State) (a n k : Nat) (f : Bool) : (s.countWrite a n k f).hbm.fineQ = s.hbm.fineQ := by
  unfold State.countWrite
  generalize piecesOf a n = l
  induction l generalizing s with
  | nil => rfl
  | cons p r ih =>
    rw [List.foldl_cons, ih]
    dsimp only
    split
    · simp [charged_fineQ]
    · simp [charged_fineQ]

/-- Retiring a row changes no queue of fine accesses. -/
theorem retireRow_fineQ (s : State) (m c row a copy : Nat) (lines : List Nat) :
    (s.retireRow m c row a copy lines).hbm.fineQ = s.hbm.fineQ := by
  unfold State.retireRow
  dsimp only
  split
  · rw [mcErr_hbm]
  · rw [raise_hbm]
    rfl

/-- Queueing a rebuild changes no queue of fine accesses. -/
theorem queueRebuild_fineQ (s : State) (l : Nat) : (s.queueRebuild l).hbm.fineQ = s.hbm.fineQ := by
  unfold State.queueRebuild
  split
  · rfl
  · split
    · rfl
    · dsimp only
      split <;> rfl

/-- Finding a bad copy changes no queue of fine accesses. -/
theorem mirrorFound_fineQ (s : State) (l : Nat) : (s.mirrorFound l).hbm.fineQ = s.hbm.fineQ := by
  unfold State.mirrorFound
  dsimp only
  split
  · rfl
  · rw [mcErr_hbm]
    rfl

/-- Correcting an error changes no queue of fine accesses. -/
theorem corrected_fineQ (s : State) (m c row a copy : Nat) (lines : List Nat) :
    (s.corrected m c row a copy lines).hbm.fineQ = s.hbm.fineQ := by
  unfold State.corrected
  dsimp only
  split
  · rw [retireRow_fineQ]
    rfl
  · rfl

/-- A line that has been written: curing it changes no queue of fine accesses. -/
theorem cureLine_fineQ (s : State) (l : Nat) : (s.cureLine l).hbm.fineQ = s.hbm.fineQ := by
  unfold State.cureLine
  dsimp only
  split
  · rfl
  · split <;> rfl

/-- A read of a line changes no queue of fine accesses. -/
theorem readLine_fineQ (s : State) (l : Nat) (f : MemFind) : (s.readLine l f).1.hbm.fineQ = s.hbm.fineQ := by
  have fst {c : Prop} [Decidable c] {a b : State × Bool} : (if c then a else b).1 = if c then a.1 else b.1 := by
    split <;> rfl
  have ite {c : Prop} [Decidable c] {a b : State} : (if c then a else b).hbm.fineQ = if c then a.hbm.fineQ else b.hbm.fineQ := by
    split <;> rfl
  unfold State.readLine
  dsimp only
  generalize (if f.ecc = 0 ∧ f.mirrorBad = false then _ else f : MemFind) = f
  simp only [fst, ite, retireRow_fineQ, mcErr_hbm, bump_hbm, queueRebuild_fineQ, corrected_fineQ, mirrorFound_fineQ, ite_self,
    show ∀ (s : State) m l k, (s.foundBad m l k).hbm.fineQ = s.hbm.fineQ from fun _ _ _ _ => rfl,
    show ∀ (s : State) l, (s.takeLatent l).hbm.fineQ = s.hbm.fineQ from fun _ _ => rfl]

/-- Reading lines changes no byte of HBM and no queue of fine accesses. -/
theorem readLines_keeps (s : State) (a n : Nat) (f : MemFind) :
    (s.readLines a n f).1.hbm.bytes = s.hbm.bytes ∧ (s.readLines a n f).1.hbm.fineQ = s.hbm.fineQ := by
  unfold State.readLines
  generalize linesOf a n = ls
  suffices hs : ∀ r : State × List Nat, let q := ls.foldl (fun (r : State × List Nat) l =>
        let hit := (a + f.off) / 64 == l
        let q := r.1.readLine l (if hit then f else {})
        (q.1, if q.2 then r.2 ++ [64 * l - a / 64 * 64] else r.2)) r
      q.1.hbm.bytes = r.1.hbm.bytes ∧ q.1.hbm.fineQ = r.1.hbm.fineQ from hs (s, [])
  induction ls with
  | nil => exact fun _ => ⟨rfl, rfl⟩
  | cons l ls ih =>
    intro r
    rw [List.foldl_cons]
    have k := ih ((r.1.readLine l (if (a + f.off) / 64 == l then f else {})).1,
      if (r.1.readLine l (if (a + f.off) / 64 == l then f else {})).2 then r.2 ++ [64 * l - a / 64 * 64] else r.2)
    dsimp only at k ⊢
    rw [readLine_bytes, readLine_fineQ] at k
    exact k

/-- Counting fine accesses changes neither a byte of HBM nor a queue. -/
theorem countFine_hbm (s : State) (a n : Nat) : (s.countFine a n).hbm = s.hbm := by
  unfold State.countFine
  generalize piecesOf a n = l
  induction l generalizing s with
  | nil => rfl
  | cons p r ih =>
    rw [List.foldl_cons, ih]
    dsimp only
    split <;> rfl

/-- Counting a read changes no byte of HBM and no queue of fine accesses. -/
theorem countRead_keeps (s : State) (a n k : Nat) (f : Bool) :
    (s.countRead a n k f).hbm.bytes = s.hbm.bytes ∧ (s.countRead a n k f).hbm.fineQ = s.hbm.fineQ := by
  unfold State.countRead
  generalize piecesOf a n = l
  induction l generalizing s with
  | nil => exact ⟨rfl, rfl⟩
  | cons p r ih =>
    rw [List.foldl_cons]
    have k := ih ((s.bump (mcB (s.place p.1).1) F.mcBytesRd p.2).charged (s.place p.1).1 k p.2 f)
    rw [charged_bytes, charged_fineQ] at k
    exact k

/-- A store of bytes to HBM changes no other byte. -/
theorem memWrite_byte (s : State) (a : Nat) (l : List Byte) (x : Nat) (h : s.hbm.bytes.wf = true) (hx : x < a ∨ a + l.length ≤ x) :
    Memory.byte (s.memWrite a l).hbm.bytes x = Memory.byte s.hbm.bytes x := by
  unfold State.memWrite
  dsimp only
  rw [Memory.byte_write _ _ _ _ h, if_neg (by omega)]

/-- A store to HBM keeps the canonical form. -/
theorem memWrite_wf (s : State) (a : Nat) (l : List Byte) (h : s.hbm.bytes.wf = true) : (s.memWrite a l).hbm.bytes.wf = true :=
  Memory.wf_write _ _ _ h

/-- One line of a write changes no byte outside the write. -/
theorem writeLine_byte (s : State) (l a : Nat) (data : List Byte) (p : Bool) (h : s.hbm.bytes.wf = true) :
    (s.writeLine l a data p).1.hbm.bytes.wf = true ∧
    ∀ x, (x < a ∨ a + data.length ≤ x) → Memory.byte (s.writeLine l a data p).1.hbm.bytes x = Memory.byte s.hbm.bytes x := by
  unfold State.writeLine
  dsimp only
  split
  · exact ⟨by simpa using h, fun x _ => by simp⟩
  · split
    · exact ⟨h, fun x _ => rfl⟩
    · generalize hr : (if min (a + data.length) (64 * l + 64) - max a (64 * l) < 64 then s.readLine l {} else (s, false) : State × Bool) = r
      have hb : r.1.hbm.bytes = s.hbm.bytes := by
        rw [← hr]
        split
        · exact readLine_bytes s l {}
        · rfl
      have hw : r.1.hbm.bytes.wf = true := hb ▸ h
      split
      · exact ⟨hw, fun x _ => by rw [hb]⟩
      · dsimp only
        rw [cureLine_bytes]
        refine ⟨memWrite_wf _ _ _ hw, fun x hx => ?_⟩
        rw [← hb]
        refine memWrite_byte _ _ _ _ hw ?_
        rw [List.length_take, List.length_drop]
        omega

/-- One line of a write changes no queue of fine accesses. -/
theorem writeLine_fineQ (s : State) (l a : Nat) (data : List Byte) (p : Bool) : (s.writeLine l a data p).1.hbm.fineQ = s.hbm.fineQ := by
  unfold State.writeLine
  dsimp only
  split
  · rfl
  · split
    · rfl
    · generalize hr : (if min (a + data.length) (64 * l + 64) - max a (64 * l) < 64 then s.readLine l {} else (s, false) : State × Bool) = r
      have hb : r.1.hbm.fineQ = s.hbm.fineQ := by
        rw [← hr]
        split
        · exact readLine_fineQ s l {}
        · rfl
      split
      · exact hb
      · dsimp only
        rw [cureLine_fineQ]
        exact hb

/-- A write by lines changes no byte outside it. -/
theorem writeLines_byte (s : State) (a : Nat) (data : List Byte) (bad : List Nat) (h : s.hbm.bytes.wf = true) (x : Nat)
    (hx : x < a ∨ a + data.length ≤ x) :
    Memory.byte (s.writeLines a data bad).1.hbm.bytes x = Memory.byte s.hbm.bytes x := by
  unfold State.writeLines
  generalize linesOf a data.length = ls
  suffices hs : ∀ (r : State × Bool), r.1.hbm.bytes.wf = true → Memory.byte r.1.hbm.bytes x = Memory.byte s.hbm.bytes x →
      Memory.byte (ls.foldl (fun (r : State × Bool) l =>
        let p := bad.any fun o => (a + o) / 64 == l
        let q := r.1.writeLine l a data p
        (q.1, r.2 || q.2)) r).1.hbm.bytes x = Memory.byte s.hbm.bytes x from hs (s, false) h rfl
  induction ls with
  | nil => intro r _ hb; exact hb
  | cons l ls ih =>
    intro r hw hb
    rw [List.foldl_cons]
    dsimp only
    have := writeLine_byte r.1 l a data (bad.any fun o => (a + o) / 64 == l) hw
    exact ih _ this.1 ((this.2 x hx).trans hb)

/-- A write by lines changes no queue of fine accesses, and keeps the canonical form. -/
theorem writeLines_keeps (s : State) (a : Nat) (data : List Byte) (bad : List Nat) (h : s.hbm.bytes.wf = true) :
    (s.writeLines a data bad).1.hbm.bytes.wf = true ∧ (s.writeLines a data bad).1.hbm.fineQ = s.hbm.fineQ := by
  unfold State.writeLines
  generalize linesOf a data.length = ls
  suffices hs : ∀ r : State × Bool, r.1.hbm.bytes.wf = true → ∀ q, q = ls.foldl (fun (r : State × Bool) l =>
        let p := bad.any fun o => (a + o) / 64 == l
        let q := r.1.writeLine l a data p
        (q.1, r.2 || q.2)) r → q.1.hbm.bytes.wf = true ∧ q.1.hbm.fineQ = r.1.hbm.fineQ from hs (s, false) h _ rfl
  induction ls with
  | nil => exact fun _ k q e => e ▸ ⟨k, rfl⟩
  | cons l ls ih =>
    intro r hw q e
    rw [List.foldl_cons] at e
    have k := ih ((r.1.writeLine l a data (bad.any fun o => (a + o) / 64 == l)).1,
      r.2 || (r.1.writeLine l a data (bad.any fun o => (a + o) / 64 == l)).2) (writeLine_byte r.1 l a data _ hw).1 q e
    rw [writeLine_fineQ] at k
    exact k

/-- A read served by the controllers changes no byte of HBM and no queue of fine accesses. -/
theorem mcRead_keeps (s : State) (a n k : Nat) (fine : Bool) (f : MemFind) :
    (s.mcRead a n k fine f).1.hbm.bytes = s.hbm.bytes ∧ (s.mcRead a n k fine f).1.hbm.fineQ = s.hbm.fineQ := by
  unfold State.mcRead
  split
  · unfold State.answerUnmapped
    dsimp only
    rw [mcErr_hbm]
    exact ⟨rfl, rfl⟩
  · dsimp only
    have r := readLines_keeps (if fine then (s.countRead a n k fine).countFine a n else s.countRead a n k fine) a n f
    have c := countRead_keeps s a n k fine
    have e : (if fine then (s.countRead a n k fine).countFine a n else s.countRead a n k fine).hbm = (s.countRead a n k fine).hbm := by
      split
      · rw [countFine_hbm]
      · rfl
    rw [e] at r
    exact ⟨r.1.trans c.1, r.2.trans c.2⟩

/-- A write served by the controllers changes no byte outside it and no queue of fine accesses, and keeps the canonical form. -/
theorem mcWrite_keeps (s : State) (a k : Nat) (fine : Bool) (data : List Byte) (bad : List Nat) (h : s.hbm.bytes.wf = true) :
    (s.mcWrite a k fine data bad).1.hbm.bytes.wf = true ∧ (s.mcWrite a k fine data bad).1.hbm.fineQ = s.hbm.fineQ ∧
      ∀ x, (x < a ∨ a + data.length ≤ x) → Memory.byte (s.mcWrite a k fine data bad).1.hbm.bytes x = Memory.byte s.hbm.bytes x := by
  unfold State.mcWrite
  split
  · unfold State.answerUnmapped
    dsimp only
    rw [mcErr_hbm]
    exact ⟨h, rfl, fun _ _ => rfl⟩
  · dsimp only
    have e : (if fine then (s.countWrite a data.length k fine).countFine a data.length else s.countWrite a data.length k fine).hbm =
        (s.countWrite a data.length k fine).hbm := by
      split
      · rw [countFine_hbm]
      · rfl
    have hw : (if fine then (s.countWrite a data.length k fine).countFine a data.length
        else s.countWrite a data.length k fine).hbm.bytes.wf = true := by
      rw [e, countWrite_bytes]
      exact h
    have r := writeLines_keeps (if fine then (s.countWrite a data.length k fine).countFine a data.length
      else s.countWrite a data.length k fine) a data bad hw
    refine ⟨r.1, ?_, fun x hx => ?_⟩
    · rw [r.2, e, countWrite_fineQ]
    · rw [writeLines_byte _ _ _ _ hw x hx, e, countWrite_bytes]

/-- A byte that no queued write of a pseudo-channel stores to. -/
def Untouched (q : List (Nat × FineReq × MemFind)) (k x : Nat) : Prop :=
  ∀ e ∈ q, e.1 = k → e.2.1.write.isSome = true → x < e.2.1.addr / 32 * 32 ∨ e.2.1.addr / 32 * 32 + 32 ≤ x

/-- A pseudo-channel that serves its fine queue changes no byte that its queued writes do not store to. -/
theorem finePump_byte (m c n : Nat) (s : State) (h : s.hbm.bytes.wf = true) (x : Nat) (hx : Untouched s.hbm.fineQ (64 * m + c) x) :
    Memory.byte (s.finePump m c n).hbm.bytes x = Memory.byte s.hbm.bytes x := by
  induction n generalizing s with
  | zero => rfl
  | succ n ih =>
    unfold State.finePump
    split
    · rfl
    · suffices k : (s.fineServe m c).hbm.bytes.wf = true ∧ Untouched (s.fineServe m c).hbm.fineQ (64 * m + c) x ∧
          Memory.byte (s.fineServe m c).hbm.bytes x = Memory.byte s.hbm.bytes x from
        (ih _ k.1 k.2.1).trans k.2.2
      unfold State.fineServe
      dsimp only
      split
      · exact ⟨h, hx, rfl⟩
      · rename_i i r f he
        generalize hu : State.qLeave _ (fineQueue m) = u
        have ub : u.hbm.bytes = s.hbm.bytes := by rw [← hu]; rfl
        have uq : Untouched u.hbm.fineQ (64 * m + c) x := by
          rw [← hu]
          exact fun e g => hx e (List.mem_of_mem_eraseP g)
        split
        · have k := mcRead_keeps u (r.addr / 32 * 32) 32 r.cls true f
          exact ⟨by rw [k.1, ub]; exact h, k.2 ▸ uq, by rw [k.1, ub]⟩
        · rename_i d hw
          have k := mcWrite_keeps u (r.addr / 32 * 32) r.cls true (padTo 32 d) [] (ub ▸ h)
          refine ⟨k.1, k.2.1 ▸ uq, (k.2.2 x ?_).trans (by rw [ub])⟩
          rw [length_padTo]
          exact hx (i, r, f) (List.mem_of_find?_eq_some he) (by simpa using List.find?_some he) (by simp [hw])

/-- A credit that comes back and the write that it lets go leave the scratchpads as they are. -/
theorem nbrPump_spm (s : State) (p q : Nat) : (s.nbrPump p q).spm = s.spm :=
  (State.nbrPump_upd (F := [.regs, .cores, .noc]) p q (Upd.refl s) (.of rfl)).keep .spm rfl

/-- One row of a scratchpad write changes no byte outside the rows that the write touches. -/
theorem spmWriteRow_byte (s : State) (p c off : Nat) (data : List Byte) (r : Nat) (h : s.spm.bytes.wf = true)
    (hr : off / 256 ≤ r) (hr2 : r ≤ (off + data.length - 1) / 256) (_ : 0 < data.length) :
    (s.spmWriteRow p c off data r).spm.bytes.wf = true ∧
    ∀ x, (x < spmKey p (256 * (off / 256)) ∨ spmKey p (256 * ((off + data.length - 1) / 256 + 1)) ≤ x) →
      Memory.byte (s.spmWriteRow p c off data r).spm.bytes x = Memory.byte s.spm.bytes x := by
  have key (m : Memory) (hm : m.wf = true) (x : Nat)
      (hx : x < spmKey p (256 * (off / 256)) ∨ spmKey p (256 * ((off + data.length - 1) / 256 + 1)) ≤ x) :
      Memory.byte (Memory.write m (spmKey p (max off (256 * r))) ((data.drop (max off (256 * r) - off)).take
        (256 * r + 256 - max off (256 * r)))) x = Memory.byte m x := by
    rw [Memory.byte_write _ _ _ _ hm, if_neg]
    rw [List.length_take, List.length_drop]
    unfold spmKey at *
    omega
  have dropb (x : Nat) (hx : x < spmKey p (256 * (off / 256)) ∨ spmKey p (256 * ((off + data.length - 1) / 256 + 1)) ≤ x) :
      Memory.byte (SMap.dropRange s.spm.bytes (spmKey p (256 * r)) (spmKey p (256 * r) + 256)) x = Memory.byte s.spm.bytes x := by
    have hn : ¬ (spmKey p (256 * r) ≤ x ∧ x < spmKey p (256 * r) + 256) := by
      unfold spmKey at *
      omega
    unfold SMap.dropRange Memory.byte
    have hp : (decide (x < spmKey p (256 * r)) || decide (spmKey p (256 * r) + 256 ≤ x)) = true := by
      simp only [Bool.or_eq_true, decide_eq_true_eq]
      omega
    rw [SMap.look_filter _ (fun k => decide (k < spmKey p (256 * r)) || decide (spmKey p (256 * r) + 256 ≤ k)) x h, if_pos hp]
  have dropw : Memory.wf (SMap.dropRange s.spm.bytes (spmKey p (256 * r)) (spmKey p (256 * r) + 256)) = true := SMap.wf_filter _ _ h
  unfold State.spmWriteRow
  dsimp only
  split
  · next hf =>
    refine ⟨Memory.wf_write _ _ _ dropw, fun x hx => ?_⟩
    exact (key _ dropw x hx).trans (dropb x hx)
  · next hf =>
    exact ⟨Memory.wf_write _ _ _ h, fun x hx => key _ h x hx⟩

/-- A scratchpad write changes no byte outside the rows that it touches. -/
theorem spmWrite_byte (s : State) (p c off : Nat) (data : List Byte) (h : s.spm.bytes.wf = true) (x : Nat)
    (hx : x < spmKey p (256 * (off / 256)) ∨ spmKey p (256 * ((off + data.length - 1) / 256 + 1)) ≤ x ∨ data = []) :
    Memory.byte (s.spmWrite p c off data).spm.bytes x = Memory.byte s.spm.bytes x := by
  unfold State.spmWrite spmRows
  split
  · rfl
  · next hn =>
    have hx : x < spmKey p (256 * (off / 256)) ∨ spmKey p (256 * ((off + data.length - 1) / 256 + 1)) ≤ x := by
      rcases hx with a | a | a
      · exact .inl a
      · exact .inr a
      · rw [a] at hn; exact absurd rfl hn
    have hm (r : Nat) (hr : r ∈ upFrom (off / 256) ((off + data.length - 1) / 256 - off / 256 + 1)) :
        off / 256 ≤ r ∧ r ≤ (off + data.length - 1) / 256 := by
      have hle : off / 256 ≤ (off + data.length - 1) / 256 := Nat.div_le_div_right (by omega)
      simp only [upFrom, List.mem_map, List.mem_range] at hr
      obtain ⟨a, ha, rfl⟩ := hr
      omega
    generalize upFrom (off / 256) ((off + data.length - 1) / 256 - off / 256 + 1) = rs at hm
    suffices hs : ∀ (t : State), t.spm.bytes.wf = true →
        Memory.byte (rs.foldl (fun s r => s.spmWriteRow p c off data r) t).spm.bytes x = Memory.byte t.spm.bytes x from hs s h
    induction rs with
    | nil => intro t _; rfl
    | cons r rs ih =>
      intro t hw
      rw [List.foldl_cons]
      have hr := hm r (by simp)
      have := spmWriteRow_byte t p c off data r hw hr.1 hr.2 (by omega)
      exact (ih (fun q hq => hm q (by simp [hq])) _ this.1).trans (this.2 x hx)

/-- A write into a command area changes no byte outside it. -/
theorem writeBox_byte (s : State) (a : Nat) (l : List Byte) (x : Nat) (h : s.mbox.wf = true) (hx : x < a ∨ a + l.length ≤ x) :
    Memory.byte (s.writeBox a l).mbox x = Memory.byte s.mbox x := by
  unfold State.writeBox
  dsimp only
  split
  · rfl
  · split
    · rfl
    · dsimp only
      rw [Memory.byte_write _ _ _ _ h, if_neg]
      rw [List.length_take]
      omega

end Sys2Proof.Machine
end

