-- ==== Sys2Proof/Laws/Work.lean ====
section
/-!
SUPPORT. What shared operations of the step path do: the monad of the engines' work, the carts of a chain, and the dispatch of a
unit's members.
-/
namespace Sys2Proof.Machine

/-- Work goes on from what its first part leaves. -/
theorem bind_ok {α β : Type} {m : Eng α} {f : α → Eng β} {s x : State} {a : α} (h : m s = .ok a x) : (m >>= f) s = f a x := by
  show EStateM.bind m f s = _
  unfold EStateM.bind
  rw [h]
/-- A cart in the middle of a row that passes its checks is added, and the sum goes on to the next engine. -/
theorem takeCart_ok {p e n i : Nat} {t : TdItem} {c : Cart} {w x : State} (h1 : c.check t ((w.te p e).set n) = 0)
    (h2 : ((w.te p e).set n).sent % 4 ≠ 0) (h3 : Ca.pos t.carr ≠ Ca.lenm1 t.carr) (hx : addCart p e n c w = .ok () x) :
    takeCart p e n i t c w = .ok () ((x.sendCart p t (((x.te p e).set n).cart t (x.te p e).dsr ((x.te p e).set n).sent
        (engineNo p e + 1))).modSet p e n fun a => { a with sent := a.sent + 1 }) := by
  unfold takeCart
  refine (bind_ok (m := (get : Eng State)) (s := w) (x := w) (a := w) rfl).trans ?_
  try dsimp only
  rw [if_neg (not_not_intro h1), if_neg h2]
  refine (bind_ok hx).trans ?_
  refine (bind_ok (m := (get : Eng State)) (s := x) (x := x) (a := x) rfl).trans ?_
  try dsimp only
  rw [if_neg h3]
  rfl

/-- Dispatching a member changes no unit. -/
theorem dispatchOne_units (s : State) (u : UnitSt) (g : Graph) (i : Nat) : (s.dispatchOne u g i).gs.units = s.gs.units := by
  unfold State.dispatchOne
  dsimp only
  split <;> rfl

/-- A changed unit. -/
theorem modUnit_units (s : State) (k : Nat) (f : UnitSt → UnitSt) (u : UnitSt) (h : s.gs.units[k]? = some u) :
    (s.modUnit k f).gs.units[k]? = some (f u) := by
  show (modifyAt s.gs.units k f)[k]? = some (f u)
  generalize s.gs.units = l at h
  induction l generalizing k with
  | nil => simp at h
  | cons a r ih => cases k with
    | zero => simp at h; simp [modifyAt, h]
    | succ k => simpa [modifyAt] using ih k (by simpa using h)

/-- What has been sent of a unit stays sent. -/
theorem sendMembers_keeps (k : Nat) (g : Graph) (l : List Nat) (s : State) (u : UnitSt) (h : s.gs.units[k]? = some u) :
    ∃ v, (s.sendMembers k g l).gs.units[k]? = some v ∧ u.out.length ≤ v.out.length := by
  induction l generalizing s u with
  | nil => exact ⟨u, h, Nat.le_refl _⟩
  | cons i r ih =>
    unfold State.sendMembers
    simp only [h]
    split
    · obtain ⟨v, hv, hl⟩ := ih _ _ (modUnit_units _ k (fun u => { u with out := u.out ++ [i], unsent := r }) u
        (by rw [dispatchOne_units s u g i]; exact h))
      exact ⟨v, hv, by simp at hl; omega⟩
    · exact ⟨u, h, Nat.le_refl _⟩

/-- A first member that finds its credit is sent. -/
theorem sendMembers_sent {k : Nat} {g : Graph} {l : List Nat} {s : State} {u : UnitSt} (h : s.gs.units[k]? = some u)
    (hr : ∃ i r, l = i :: r ∧ s.memberReady u g.coach i = true) :
    (((s.sendMembers k g l).gs.units[k]?).any fun v => v.out != u.out) = true := by
  obtain ⟨i, r, rfl, hm⟩ := hr
  unfold State.sendMembers
  simp only [h, hm, if_true]
  obtain ⟨v, hv, hl⟩ := sendMembers_keeps k g r _ _ (modUnit_units _ k (fun u => { u with out := u.out ++ [i], unsent := r }) u
    (by rw [dispatchOne_units s u g i]; exact h))
  rw [hv]
  simp only [Option.any_some, bne_iff_ne, ne_eq]
  intro he
  rw [he, List.length_append, List.length_singleton] at hl
  omega

end Sys2Proof.Machine
end

