-- ==== Sys2Proof/WellFormed.lean ====
section
/-!
DEFINITION. Well-formed commands: every operand names a part that the device has and fits the field that carries it.
-/
namespace Sys2Proof

/-- A mailbox (R421): admin 0-7, the sideband's 8, or 16 + coach. -/
def boxOk (b : Nat) : Bool := decide (b ≤ 8) || (decide (16 ≤ b) && decide (b < 16 + 4096))

/-- The fields of a message fit their places (R369). -/
def msgWf (m : Msg) : Bool :=
  decide (m.mtype < 256) && decide (m.vc < 8) && decide (m.cls < 2) && decide (m.space < 4) && decide (m.dst < 65536)
    && decide (m.src < 65536) && decide (m.coach < 4096) && decide (m.tagw < 2 ^ 32) && decide (m.addr < 2 ^ 64)
    && decide (m.arg < 2 ^ 64)

/-- A request of the memory system names a device address and a QoS class, or 16 for the device's own (R303, R307). -/
def reqWf (a cls : Nat) : Bool := decide (a < 2 ^ 40) && decide (cls ≤ 16)

/-- What work meets fits the hardware that reports it: a place of the SPM, a line of memory, a row of the manifest. -/
def findWf (f : EngFind) : Bool :=
  decide (f.port ≤ 2) && decide (f.ecc ≤ 2) && decide (f.spm < 2 ^ 22) && decide (f.eccAt < 2 ^ 22) && decide (f.row < 2048)
    && f.mem.all fun e => decide (e.1 < 2 ^ 34) && decide (e.2.ecc ≤ 2)

/-- A command is well formed. -/
def Instr.wf : Instr → Bool
  | .getInfo box => boxOk box
  | .setRole box => boxOk box
  | .setCoreConfig box => boxOk box
  | .topoSet box => boxOk box
  | .drain box => boxOk box
  | .standEnter box => boxOk box
  | .shutdown box => boxOk box
  | .chipReset box => boxOk box
  | .fwHandover box => boxOk box
  | .coreWithdraw box => boxOk box
  | .coreTest box => boxOk box
  | .logRead box => boxOk box
  | .idGet box => boxOk box
  | .attestQuote box => boxOk box
  | .coachCreate box => boxOk box
  | .coachDestroy box => boxOk box
  | .coachStart box => boxOk box
  | .coachHalt box => boxOk box
  | .coachReset box => boxOk box
  | .coachMap box => boxOk box
  | .coachUnmap box => boxOk box
  | .launchAt box => boxOk box
  | .regionSet box _ => boxOk box
  | .regionClear box => boxOk box
  | .memMargin box => boxOk box
  | .kvPoolSet box => boxOk box
  | .graphRegister box => boxOk box
  | .graphUpdate box => boxOk box
  | .graphUnregister box => boxOk box
  | .graphShare box => boxOk box
  | .tableLoad box => boxOk box
  | .tableRetire box => boxOk box
  | .overlayLoad box _ => boxOk box
  | .overlayDrop box => boxOk box
  | .overlayRead box => boxOk box
  | .seqOpen box _ => boxOk box
  | .seqCancel box => boxOk box
  | .kvPause box => boxOk box
  | .kvResume box => boxOk box
  | .kvImportOpen box _ => boxOk box
  | .kvImportClose box => boxOk box
  | .kvShip box => boxOk box
  | .collOpen box _ => boxOk box
  | .collRun box => boxOk box
  | .collClose box => boxOk box
  | .tableLoadDone slot => decide (slot < 16)
  | .quoteSigned => true
  | .marginDone _ => true
  | .coachDestroyDone coach => decide (coach < 4096)
  | .mirrorSyncDone region => decide (region < 64)
  | .mirrorRebuild => true
  | .kvMoveDone slot _ _ => decide (slot < 8192)
  | .handoverCheckpointDone => true
  | .firmwareRestoreDone _ => true
  | .standDrained => true
  | .standAckWaitEnd => true
  | .selftestDone results => results.length == 64
  | .eklWrite port m => decide (port < 16) && msgWf m
  | .eklWriteAck port m => decide (port < 16) && msgWf m
  | .eklRead port m => decide (port < 16) && msgWf m
  | .eklReadData port m => decide (port < 16) && msgWf m
  | .eklAdd port m => decide (port < 16) && msgWf m
  | .eklAddAck port m => decide (port < 16) && msgWf m
  | .drawbar port m => decide (port < 16) && msgWf m
  | .chainDone port m => decide (port < 16) && msgWf m
  | .replay port m => decide (port < 16) && msgWf m
  | .barCredit port m => decide (port < 16) && msgWf m
  | .shipHeader port m => decide (port < 16) && msgWf m
  | .shipPageRecord port m => decide (port < 16) && msgWf m
  | .shipPageData port m _ => decide (port < 16) && msgWf m
  | .shipTrailer port m => decide (port < 16) && msgWf m
  | .shipAccept port m => decide (port < 16) && msgWf m
  | .shipNak port m => decide (port < 16) && msgWf m
  | .shipCommit port m => decide (port < 16) && msgWf m
  | .shipAbort port m => decide (port < 16) && msgWf m
  | .shipAnswerTimeout slot => decide (slot < 8192)
  | .collUp port m => decide (port < 16) && msgWf m
  | .collDown port m => decide (port < 16) && msgWf m
  | .collAbort port m => decide (port < 16) && msgWf m
  | .collTimeout ctx => decide (ctx < 64)
  | .mgmt port m => decide (port < 16) && msgWf m
  | .bootGrant port m => decide (port < 16) && msgWf m
  | .messageForward port m => decide (port < 16) && msgWf m
  | .dataFlit port flit _ => decide (port < 16) && flit.length == 256
  | .idleFlit port flit _ => decide (port < 16) && flit.length == 256
  | .markFlit port flit _ => decide (port < 16) && flit.length == 256
  | .replayTimeout port => decide (port < 16)
  | .frameStart => true
  | .syncMarkLoss => true
  | .syncHoldoverExpiry => true
  | .lightDetect port => decide (port < 16)
  | .trainingRetry port _ => decide (port < 16)
  | .trainingTimeout port => decide (port < 16)
  | .fecLockLoss port lane => decide (port < 16) && decide (lane < 8)
  | .retrainRelock port ack => decide (port < 16) && decide (ack < 4096)
  | .retrainTimeout port => decide (port < 16)
  | .lossOfSignal port lane => decide (port < 16) && decide (lane < 8)
  | .routeUpdate => true
  | .presenceChange oc _ => decide (oc < 4)
  | .presenceSteady oc => decide (oc < 4)
  | .drainComplete => true
  | .hostWriteGiveup port => decide (port < 16)
  | .interruptFrameResend tag => decide (tag < 2 ^ 32)
  | .seqInputWrite coach slot word => decide (coach < 4096) && decide (slot < 8192) && decide (word < 2 ^ 64)
  | .seqCancelBit coach slot => decide (coach < 4096) && decide (slot < 8192)
  | .seqCloseBit coach slot => decide (coach < 4096) && decide (slot < 8192)
  | .seqEntryStaged slot => decide (slot < 8192)
  | .deadlineCheck => true
  | .deadlineExpiry slot => decide (slot < 8192)
  | .sbIdleTimer => true
  | .kvTtlExpiry slot => decide (slot < 8192)
  | .importTtlExpiry idx => decide (idx < 1024)
  | .manifestReady _ _ => true
  | .ledgerAuditTimer => true
  | .ledgerEvalDone _ => true
  | .gsDispatchUnit _ => true
  | .quantumStart => true
  | .throttleWindow => true
  | .tdDispatchRx core _ => decide (core < 144)
  | .carriageIssue core idx f => findWf f && decide (core < 144) && decide (idx < 65536)
  | .carriageComplete core idx => decide (core < 144) && decide (idx < 65536)
  | .carriageCompletionRx => true
  | .carriageEndRx core => decide (core < 144)
  | .carriageWatchdog core idx => decide (core < 144) && decide (idx < 65536)
  | .tileSwap core te => decide (core < 144) && decide (te < 4)
  | .teFormatBarrierEnd core te => decide (core < 144) && decide (te < 4)
  | .setReady core te => decide (core < 144) && decide (te < 4)
  | .setDrainStart core te f => findWf f && decide (core < 144) && decide (te < 4)
  | .setDrainDone core te => decide (core < 144) && decide (te < 4)
  | .drawbarCartRx core te f => findWf f && decide (core < 144) && decide (te < 4)
  | .xeTileStart core te idx => findWf te.found && decide (core < 144) && decide (te.no < 4) && decide (idx < 65536)
  | .xeBlockDone core te _ => findWf te.found && decide (core < 144) && decide (te.no < 4)
  | .geCartRead core idx ove _ => findWf core.found && decide (core.no < 144) && decide (idx < 65536) && decide (ove < 16384)
  | .partialCartRx core f => findWf f && decide (core < 144)
  | .mergeFold core idx _ => decide (core < 144) && decide (idx < 65536)
  | .dmaDescriptorIssue core _ _ => findWf core.found && decide (core.no < 144)
  | .dmaChunkDone core tag => decide (core < 144) && decide (tag < 64)
  | .xlateWalkDone _ coach addr _ _ => decide (coach < 4096) && decide (addr < 2 ^ 64)
  | .nbrWriteRx core => decide (core < 144)
  | .scrubRow core bank _ => decide (core < 144) && decide (bank < 32)
  | .scrubForce core bank _ => decide (core < 144) && decide (bank < 32)
  | .spmClearDone core => decide (core < 144)
  | .mcBulkRequest core tag _ => decide (core < 144) && decide (tag < 64)
  | .mcFineRequest req _ => reqWf req.addr req.cls
  | .mcAddRequest req _ => reqWf req.addr req.cls && decide (req.ty < 4) && decide (req.mask < 65536)
  | .patrolLine mc pc addr _ => decide (mc < 8) && decide (pc < 64) && decide (addr < 2 ^ 64)
  | .pmIntervalEnd => true
  | .interruptCoalTimeout vec => decide (vec < 16392)
  | .launchTime coach => decide (coach < 4096)
  | .launchWindow coach => decide (coach < 4096)
  | .ftDue core => decide (core < 144)
  | .ftTestStart core => decide (core < 144)
  | .ftDefer core => decide (core < 144)
  | .ftTestDone core _ => decide (core < 144)
  | .recoveryDone => true
  | .mpWatchdog => true
  | .mpAbsentLimit => true
  | .gsSbParityFail => true
  | .warmResetQuiesced => true
  | .bootPorDone _ => true
  | .hbmTrainDone failed => decide (failed < 256)
  | .bootReqTimer => true
  | .handbackDone _ => true
  | .bootReadTimeout off => decide (off < 2 ^ 32)
  | .imageLoadDone => true
  | .imageVerifyDone _ _ => true
  | .pwrgdRise => true
  | .pwrgdFall => true
  | .poreset _ straps _ => decide (straps < 64)
  | .warmreset => true
  | .regulatorGood rail => decide (rail < 8)
  | .regulatorTimeout rail => decide (rail < 8)
  | .xtalDelayEnd => true
  | .pllLockDone _ _ => true
  | .pllLockLoss => true
  | .ioscTrimMeasure _ => true
  | .vinUndervolt _ => true
  | .vinBrownout _ => true
  | .thermSample _ _ => true
  | .thermalTrip => true
  | .throttleEval _ _ => true
  | .standAddressMatch => true
  | .lbEklWrite port depth => decide (port < 16) && decide (depth < 8)
  | .lbHbmWrite stack depth => decide (stack < 8) && decide (depth < 8)
  | .lbHbmEnd stack _ _ => decide (stack < 8)
  | .tapReset => true
  | .jtagIdcode => true
  | .jtagBypass => true
  | .jtagSamplePreload _ => true
  | .jtagExtest _ => true
  | .jtagHighz _ => true
  | .jtagClamp _ => true
  | .scanReq => true
  | .scanClearDone => true
  | .fuseProg kind _ _ _ => decide (kind < 2)
  | .sbQuickCommand => true
  | .sbStatusRead => true
  | .sbRegisterRead addr => decide (addr < 2 ^ 64)
  | .sbMailboxWrite off _ _ => decide (off < 2 ^ 32)
  | .sbAlertResponse => true
  | .sbClockTimeout => true
  | .svcButtonPress => true
  | .svcButtonRelease => true
  | .svcHold => true
  | .chipModeWrite _ => true
  | .coachRwhWrite coach off _ => decide (coach < 4096) && decide (off < 2 ^ 32)
  | .vcfgWrite vec _ => decide (vec < 16392)
  | .portDisableWrite port _ => decide (port < 16)
  | .svcLocateWrite _ => true
  | .gcSyncWrite _ => true
  | .counterReadClear addr => decide (addr < 2 ^ 64)
  | .registerWrite _ coach addr _ => decide (coach < 4096) && decide (addr < 2 ^ 64)
  | .stackTrainingLoss stack => decide (stack < 8)
  | .portSwitchParityFailure => true
  | .refclkPresenceChange _ => true
  | .translationCachesDropped => true

end Sys2Proof
end

