-- ==== Sys2Proof/Tests/Slice0.lean ====
section
/-!
SUPPORT. Tests: ill-formed commands that the checks refuse, the worked examples of the spec, and for every obligation that has
hypotheses a theorem that exhibits states and operands that meet them, clause by clause.
-/
set_option Elab.async false

namespace Sys2Proof.Machine.Sample

/-! ## Well-formedness: an ill-formed term of each check is refused -/

/-- A message that fits. -/
def fits : Msg := { mtype := 0 }

/-- Mailboxes (R421): 9 to 15 and those above the last coach are none. -/
theorem test_wf_box :
    [Instr.getInfo 8, .getInfo 16, .getInfo 4111].map Instr.wf = [true, true, true] ∧
      [Instr.getInfo 9, .getInfo 15, .getInfo 4112].map Instr.wf = [false, false, false] := by decide +kernel

/-- The header fields of a message (R369), and the port. -/
theorem test_wf_message :
    Instr.wf (.eklWrite 15 fits) = true ∧
      [Instr.eklWrite 16 fits, .eklWrite 0 { fits with mtype := 256 }, .eklWrite 0 { fits with vc := 8 },
        .eklWrite 0 { fits with cls := 2 }, .eklWrite 0 { fits with space := 4 }, .eklWrite 0 { fits with dst := 65536 },
        .eklWrite 0 { fits with src := 65536 }, .eklWrite 0 { fits with coach := 4096 }, .eklWrite 0 { fits with tagw := 2 ^ 32 },
        .eklWrite 0 { fits with addr := 2 ^ 64 }, .eklWrite 0 { fits with arg := 2 ^ 64 }].map Instr.wf
        = List.replicate 11 false := by decide +kernel

/-- Flits of 256 bytes, lanes, chiplets, retrain ACKs and tags of the link. -/
theorem test_wf_link :
    [Instr.idleFlit 0 [] {}, .fecLockLoss 0 8, .retrainRelock 0 4096, .presenceChange 4 true, .interruptFrameResend (2 ^ 32),
      .lightDetect 16, .lbEklWrite 0 8].map Instr.wf = List.replicate 7 false := by decide +kernel

/-- Slots, contexts, regions, import indexes, coaches and vectors. -/
theorem test_wf_serving :
    [Instr.deadlineExpiry 8192, .collTimeout 64, .mirrorSyncDone 64, .importTtlExpiry 1024, .launchTime 4096,
      .interruptCoalTimeout 16392, .tableLoadDone 16, .seqInputWrite 0 0 (2 ^ 64), .selftestDone []].map Instr.wf
      = List.replicate 9 false := by decide +kernel

/-- Cores, engines, carriage indexes, overlays, descriptor tags, banks, controllers, pseudo-channels and additions. -/
theorem test_wf_engines :
    [Instr.ftDue 144, .tileSwap 0 4, .carriageComplete 0 65536, .geCartRead ⟨0, {}⟩ 0 16384 0, .dmaChunkDone 0 64,
      .scrubRow 0 32 [], .patrolLine 8 0 0 {}, .patrolLine 0 64 0 {}].map Instr.wf = List.replicate 8 false := by decide +kernel

/-- Device addresses, classes, types and masks of memory requests (R303, R305). -/
theorem test_wf_memory :
    [Instr.mcFineRequest ⟨2 ^ 40, 0, none⟩ {}, .mcFineRequest ⟨0, 17, none⟩ {}, .mcAddRequest ⟨0, 0, 4, 0, false, []⟩ {},
      .mcAddRequest ⟨0, 0, 0, 65536, false, []⟩ {}, .lbHbmWrite 8 0, .stackTrainingLoss 8].map Instr.wf
      = List.replicate 6 false := by decide +kernel

/-- Straps, rails, fuse kinds, offsets and register addresses. -/
theorem test_wf_board :
    [Instr.poreset true 64 true, .regulatorGood 8, .fuseProg 2 0 0 0, .bootReadTimeout (2 ^ 32), .sbRegisterRead (2 ^ 64),
      .coachRwhWrite 0 (2 ^ 32) 0, .hbmTrainDone 256].map Instr.wf = List.replicate 7 false := by decide +kernel

/-- The table gives its rows no bits: no word spells a command. -/
theorem test_no_words : decodeTableWord 8 0 = none := by decide +kernel

/-! ## Witnesses: the hypotheses of the obligations are met -/

/-- The firmware runs: the boot ROM is in RUNNING, a topology map is loaded, nothing else has left its reset value. -/
def up : State := (State.reset.setChip F.bootStatusState Rom.running).setChip F.mapValid 1
/-- The little-endian bytes of (length, value) pairs, one after the other. -/
def fields (l : List (Nat × Nat)) : List Byte := l.flatMap fun e => leBytes e.1 e.2
/-- The state with a command in a mailbox, laid out as R422 says: OPCODE, IFV 0x14, OWN, TAG, ARGLEN, COACH, arguments. -/
def put (s : State) (box op coach : Nat) (args : List (Nat × Nat)) : State :=
  let head := [(2, op), (1, 0x14), (1, 1), (4, 7), (2, (fields args).length), (2, coach), (4, 0)]
  { s with mbox := Memory.write s.mbox (boxB box) (fields (head ++ args)) }
/-- The state with a step armed. -/
def armed (s : State) : State := { s with gs := { s.gs with active := true } }
/-- The state with a coach in a state (R326). -/
def coachIn (s : State) (c st : Nat) : State := s.set (coachB c) F.coachState st
/-- The state at a time. -/
def atTime (s : State) (t : Nat) : State := { s with gcount := t }

/-- States and operands that meet the hypotheses of `Obligations.InformationCommandsAnswer`, clause by clause. -/
theorem witness_InformationCommandsAnswer :
    (∃ s : State, ∃ box, Canonical s ∧ Served s 0x0001 box) ∧
    (∃ s : State, ∃ box, Canonical s ∧ Served s 0x000D box ∧ (s.cmd box).arg 0 1 = 0) ∧
    (∃ s : State, ∃ box, Canonical s ∧ Served s 0x000D box ∧ (s.cmd box).arg 0 1 = 1) ∧
    (∃ s : State, ∃ box, Canonical s ∧ Served s 0x000D box ∧ (s.cmd box).arg 0 1 = 2 ∧ s.boot.m.flatten.length ≤ 496) ∧
    (∃ s : State, ∃ box, Canonical s ∧ Served s 0x000D box ∧ (s.cmd box).arg 0 1 = 3 ∧ box ≠ 8) ∧
    (∃ s : State, ∃ box, Canonical s ∧ Served s 0x000C box ∧ 1 ≤ (s.cmd box).arg 4 1 ∧ (s.cmd box).arg 4 1 ≤ 7) :=
  ⟨⟨put up 0 0x0001 0 [], 0, by simp only [Served, Canonical]; decide +kernel⟩,
   ⟨put up 0 0x000D 0 [(1, 0)], 0, by simp only [Served, Canonical]; decide +kernel⟩,
   ⟨put up 0 0x000D 0 [(1, 1)], 0, by simp only [Served, Canonical]; decide +kernel⟩,
   ⟨put up 0 0x000D 0 [(1, 2)], 0, by simp only [Served, Canonical]; decide +kernel⟩,
   ⟨put up 0 0x000D 0 [(1, 3)], 0, by simp only [Served, Canonical]; decide +kernel⟩,
   ⟨put up 0 0x000C 0 [(4, 0), (1, 7)], 0, by simp only [Served, Canonical]; decide +kernel⟩⟩

/-- States and operands that meet the hypotheses of `Obligations.ConfigurationCommandsTakeEffect`, clause by clause. -/
theorem witness_ConfigurationCommandsTakeEffect :
    (∃ s : State, ∃ box, Canonical s ∧ Served s 0x0002 box ∧ (s.cmd box).arg 0 1 ≤ 2 ∧ s.gs.active = false) ∧
    (∃ s : State, ∃ box, Canonical s ∧ Served s 0x0002 box ∧ (s.cmd box).arg 0 1 ≤ 2 ∧ s.gs.active = true) ∧
    (∃ s : State, ∃ box, Canonical s ∧ Served s 0x0003 box ∧ ((s.cmd box).arg 0 1 = 112 ∨ (s.cmd box).arg 0 1 = 128)) ∧
    (∃ s : State, ∃ box, Canonical s ∧ Served s 0x0004 box ∧ 1 ≤ (s.cmd box).arg 2 1 ∧ (s.cmd box).arg 2 1 ≤ 97 ∧
      (s.cmd box).arg 0 2 / 16 < (s.cmd box).arg 2 1) :=
  ⟨⟨put up 0 0x0002 0 [(1, 2)], 0, by simp only [Served, Canonical]; decide +kernel⟩,
   ⟨put (armed up) 0 0x0002 0 [(1, 2)], 0, by simp only [Served, Canonical]; decide +kernel⟩,
   ⟨put up 0 0x0003 0 [(1, 112)], 0, by simp only [Served, Canonical]; decide +kernel⟩,
   ⟨put up 0 0x0004 0 [(2, 0x600), (1, 97), (1, 0)], 0, by simp only [Served, Canonical]; decide +kernel⟩⟩

/-- States and operands that meet the hypotheses of `Obligations.DrainStandAndResetCommandsTakeEffect`, clause by clause. -/
theorem witness_DrainStandAndResetCommandsTakeEffect :
    (∃ s : State, ∃ box, let c := s.cmd box; Served s 0x0005 box ∧ c.arg 0 1 = 0) ∧
    (∃ s : State, ∃ box, let c := s.cmd box; let u := s.taken box; Served s 0x0005 box ∧ c.arg 0 1 = 1 ∧
      u.chip F.admDrain = 0) ∧
    (∃ s : State, ∃ box, let c := s.cmd box; let u := s.taken box; Served s 0x0005 box ∧ c.arg 0 1 = 1 ∧
      u.chip F.admDrain ≠ 0) ∧
    (∃ s : State, ∃ box, let u := s.taken box; Served s 0x0006 box ∧ u.standBusy = false ∧ u.standInUse = false) ∧
    (∃ s : State, ∃ box, let u := s.taken box; Served s 0x0007 box ∧ u.standBusy = false ∧ u.standInUse = false) ∧
    (∃ s : State, ∃ box, Served s 0x0008 box) ∧
    (∃ s : State, ∃ box, let c := s.cmd box; Served s 0x0009 box ∧ c.arg 0 8 % 4096 = 0 ∧ 1 ≤ c.arg 8 4 ∧
      c.arg 8 4 ≤ 4194304 ∧ c.arg 12 1 ≤ 1) :=
  ⟨⟨put up 0 0x0005 0 [(1, 0)], 0, by simp only [Served]; decide +kernel⟩,
   ⟨put up 0 0x0005 0 [(1, 1)], 0, by simp only [Served]; decide +kernel⟩,
   ⟨put (up.setChip F.admDrain 1) 0 0x0005 0 [(1, 1)], 0, by simp only [Served]; decide +kernel⟩,
   ⟨put up 0 0x0006 0 [], 0, by simp only [Served]; decide +kernel⟩,
   ⟨put up 0 0x0007 0 [], 0, by simp only [Served]; decide +kernel⟩,
   ⟨put up 0 0x0008 0 [], 0, by simp only [Served]; decide +kernel⟩,
   ⟨put up 0 0x0009 0 [(8, 0), (4, 4194304), (1, 1)], 0, by simp only [Served]; decide +kernel⟩⟩

/-- States and operands that meet the hypotheses of `Obligations.CoreAndQuoteCommandsComplete`, clause by clause. -/
theorem witness_CoreAndQuoteCommandsComplete :
    (∃ s : State, ∃ box q, let c := s.cmd box; let u := s.taken box; Served s 0x000A box ∧ c.arg 0 1 < 144 ∧
      u.get (pcoreB (c.arg 0 1)) F.pcoreState = 2 ∧ u.spareFor (c.arg 0 1) = some q) ∧
    (∃ s : State, ∃ box, let c := s.cmd box; let u := s.taken box; Served s 0x000B box ∧ c.arg 0 1 < 144 ∧
      (u.get (pcoreB (c.arg 0 1)) F.pcoreState = 1 ∨ u.get (pcoreB (c.arg 0 1)) F.pcoreState = 2)) ∧
    (∃ s : State, ∃ box, let c := s.cmd box; let u := s.taken box; Served s 0x000E box ∧ 1 ≤ c.arg 32 4 ∧
      c.arg 32 4 < 512 ∧ (bit (c.arg 32 4) 8 = true → u.coachState c.coach ≠ Cs.vacant) ∧ u.boot.quotes.length < 8) ∧
    (∃ s : State, ∃ q r, s.boot.quotes = q :: r ∧ s.mpUp = true ∧
      s.inprog.any (fun x => x.box == q.box && x.op == 0x000E) = true) :=
  ⟨⟨put ((up.set (pcoreB 143) F.pcoreState 2).set (pcoreB 142) F.pcoreState 1) 0 0x000A 0 [(1, 143)], 0, 142, by simp only [Served]; decide +kernel⟩,
   ⟨put (up.set (pcoreB 143) F.pcoreState 1) 0 0x000B 0 [(1, 143)], 0, by simp only [Served]; decide +kernel⟩,
   ⟨put (coachIn up 5 Cs.halted) 0 0x000E 5 [(32, 9), (4, 511)], 0, by simp only [Served]; decide +kernel⟩,
   ⟨{ up with boot := { up.boot with quotes := [⟨0, 5, 511, []⟩] }, inprog := [{ box := 0, op := 0x000E, coach := 5 }] }, ⟨0, 5, 511, []⟩, [], by decide +kernel⟩⟩

/-- States and operands that meet the hypotheses of `Obligations.CoachCommandsComplete`, clause by clause. -/
theorem witness_CoachCommandsComplete :
    (∃ s : State, ∃ box n, let c := s.cmd box; let u := s.taken box; Served s 0x0101 box ∧
      u.coachState c.coach = Cs.vacant ∧ c.arg 0 1 ≤ 1 ∧ u.freeTable = some n) ∧
    (∃ s : State, ∃ box, let c := s.cmd box; let u := s.taken box; Served s 0x0102 box ∧
      u.coachState c.coach = Cs.halted ∧ u.coachInUse c.coach = false) ∧
    (∃ s : State, ∃ coach q, s.findProg 0x0102 (fun q => q.coach == coach) = some q ∧ s.coachState coach = Cs.halted ∧
      s.coachInUse coach = false) ∧
    (∃ s : State, ∃ box, let c := s.cmd box; let u := s.taken box; Served s 0x0103 box ∧
      (u.coachState c.coach = Cs.halted ∨ u.coachState c.coach = Cs.running) ∧ u.safe = false) ∧
    (∃ s : State, ∃ box, let c := s.cmd box; let u := s.taken box; Served s 0x0104 box ∧
      u.coachState c.coach = Cs.halted) ∧
    (∃ s : State, ∃ box, let c := s.cmd box; let u := s.taken box; Served s 0x0104 box ∧
      (u.coachState c.coach = Cs.running ∨ u.coachState c.coach = Cs.draining)) ∧
    (∃ s : State, ∃ box, let c := s.cmd box; let u := s.taken box; Served s 0x0105 box ∧
      u.coachState c.coach ≠ Cs.vacant) :=
  ⟨⟨put up 0 0x0101 4095 [(1, 1)], 0, 0, by simp only [Served]; decide +kernel⟩,
   ⟨put (coachIn up 4095 Cs.halted) 0 0x0102 4095 [], 0, by simp only [Served]; decide +kernel⟩,
   ⟨{ coachIn up 5 Cs.halted with inprog := [{ box := 0, op := 0x0102, coach := 5 }] }, 5, { box := 0, op := 0x0102, coach := 5 }, by decide +kernel⟩,
   ⟨put (coachIn up 5 Cs.halted) 0 0x0103 5 [], 0, by simp only [Served]; decide +kernel⟩,
   ⟨put (coachIn up 5 Cs.halted) 0 0x0104 5 [], 0, by simp only [Served]; decide +kernel⟩,
   ⟨put (coachIn up 5 Cs.draining) 21 0x0104 5 [], 21, by simp only [Served]; decide +kernel⟩,
   ⟨put (coachIn up 5 Cs.faulted) 0 0x0105 5 [], 0, by simp only [Served]; decide +kernel⟩⟩

/-- A region of frames, hashed, without a mirror (R322). -/
def region (s : State) (r first count : Nat) : State :=
  ((s.set (regionB r) F.regionValid 1).set (regionB r) F.regionFbase first).set (regionB r) F.regionFcount count
/-- Every stack is trained. -/
def manyStacks (s : State) : State := (List.range 8).foldl (fun s m => s.set (mcB m) F.mcTrained 1) s
/-- A page of a coach mapped for reads and writes (R334). -/
def mapped (s : State) (c page phys : Nat) : State :=
  { s with xlate := { s.xlate with map := SMap.put 0 s.xlate.map (pageKey c page) (3 + 4 * phys) } }
/-- A sequence entry with an owner, in a state (R225). -/
def seqIn (s : State) (n c st : Nat) : State := (s.setSeq n Se.owner c).setSeq n Se.state st
/-- The firmware runs, the sequence table is at 0x10000, and coach 5 is RUNNING with slot 8191 in a state. -/
def live (st : Nat) : State := seqIn (coachIn (up.setChip F.seqBase 0x10000) 5 Cs.running) 8191 5 st
/-- One layer of one K-step at the least stride, in the narrow format (R251). -/
def tinyLayer : List Byte := List.replicate 32 0 ++ leBytes 1 1 ++ List.replicate 63 0 ++ fields [(2, 384), (2, 1), (28, 0)]
/-- One NOP carriage (R253). -/
def tinyCarr : List Byte := fields [(1, 0x3F), (127, 0)]
/-- A graph of coach 5 with that layer and that carriage, on logical core 0. -/
def tiny : Graph :=
  { coach := 5, pbase := 0, pcount := 1, dModel := 640, layers := [tinyLayer], carrs := [tinyCarr], outs := [[]], size := 392, ldofs := 128 }
/-- Its image (R249). -/
def tinyImage : List Byte :=
  fields [(2, 7), (2, 5), (4, 1), (4, 1), (4, 0), (1, 0), (1, 1), (2, 0), (4, 640), (4, 128), (4, 256), (96, 0)]
    ++ tinyLayer ++ tinyCarr
/-- Coach 5 is RUNNING and graph 7 is registered. -/
def graphed : State := { live Ss.idle with graphs := [(7, some tiny)] }

theorem ok_of_toOption {ε α : Type} {x : Except ε α} {v : α} (h : x.toOption = some v) : x = .ok v := by
  cases x <;> simp_all [Except.toOption]

/-- States and operands that meet the hypotheses of `Obligations.MappingCommandsComplete`, clause by clause. -/
theorem witness_MappingCommandsComplete :
    (∃ s : State, ∃ box, let c := s.cmd box; let u := s.taken box;
      let m := mapPages u.xlate.map c.coach (c.arg 0 8 / 65536) (c.arg 16 8 / 65536) (c.arg 24 1 % 2) (c.arg 8 8 / 65536);
      Served s 0x0106 box ∧ u.mapBad c.coach (c.arg 0 8) (c.arg 8 8) (c.arg 16 8) = false ∧ tablesUsed m ≤ 16384) ∧
    (∃ s : State, ∃ box, let c := s.cmd box; let u := s.taken box; Served s 0x0107 box ∧ c.arg 0 8 % 65536 = 0 ∧
      c.arg 8 8 % 65536 = 0 ∧ c.arg 8 8 ≠ 0 ∧ c.arg 0 8 + c.arg 8 8 ≤ 2 ^ 48 ∧
      ((upFrom (c.arg 0 8 / 65536) (c.arg 8 8 / 65536)).any fun p => SMap.look 0 u.xlate.map (pageKey c.coach p) == 0) = false) ∧
    (∃ s : State, ∃ box, let c := s.cmd box; let u := s.taken box; Served s 0x0108 box ∧
      u.coachState c.coach = Cs.halted ∧ u.safe = false ∧ u.gcount + 100000 ≤ c.arg 0 8 ∧
      (c.arg 8 8 = 0 ∨ (10000 ≤ c.arg 8 8 ∧ c.arg 8 8 ≤ 1000000000)) ∧
      (u.chip F.gcSyncRole ≠ 2 ∨ u.chip F.gcStatusState = 2) ∧ u.launches < 64) ∧
    (∃ s : State, s.gs.active = false ∧ (s.inprog.any fun q => q.op == 0x0107) = true) :=
  ⟨⟨put (region (coachIn up 5 Cs.halted) 63 639 1) 0 0x0106 5 [(8, 0), (8, 65536), (8, 639 * 2 ^ 30), (1, 1)], 0, by simp only [Served]; decide +kernel⟩,
   ⟨put (mapped (coachIn up 5 Cs.halted) 5 (2 ^ 32 - 1) 9) 0 0x0107 5 [(8, 2 ^ 48 - 65536), (8, 65536)], 0, by simp only [Served]; decide +kernel⟩,
   ⟨put (coachIn up 5 Cs.halted) 0 0x0108 5 [(8, 100000), (8, 1000000000)], 0, by simp only [Served]; decide +kernel⟩,
   ⟨{ up with inprog := [{ box := 0, op := 0x0107, coach := 5 }] }, by decide +kernel⟩⟩

/-- States and operands that meet the hypotheses of `Obligations.RegionAndPoolCommandsComplete`, clause by clause. -/
theorem witness_RegionAndPoolCommandsComplete :
    (∃ s : State, ∃ box pick r b, let c := s.cmd box; let u := s.taken box;
      let quad := if c.arg 4 1 = 0 then 0 else c.arg 5 1; let shared := c.arg 6 1 % 2;
      let mir : Bool := if shared = 1 then !bit (c.arg 6 1) 1 else bit (c.arg 6 1) 2; Served s 0x0201 box ∧
      c.arg 4 1 ≤ 1 ∧ (c.arg 4 1 = 1 → c.arg 5 1 ≤ 3) ∧ c.arg 2 2 ≠ 0 ∧ c.arg 0 2 + c.arg 2 2 ≤ 640 ∧
      (bit (c.arg 6 1) 1 && bit (c.arg 6 1) 2) = false ∧ ((upFrom (c.arg 0 2) (c.arg 2 2)).any u.frameTaken) = false ∧
      u.freeRegion pick = some r ∧
      ((List.range 8).any fun m => decide (640 < u.slotsUsed m + slotsNeeded (c.arg 4 1) quad (c.arg 2 2 * (if mir then 2 else 1)) m)) = false ∧
      (if mir then u.mirrorRun (c.arg 0 2) (c.arg 2 2) else some 0) = some b) ∧
    (∃ s : State, ∃ box, let c := s.cmd box; let u := s.taken box; Served s 0x0202 box ∧ c.arg 0 1 ≤ 63 ∧
      u.get (regionB (c.arg 0 1)) F.regionValid ≠ 0 ∧ u.regionInUse (c.arg 0 1) = false) ∧
    (∃ s : State, ∃ box, Served s 0x0203 box) ∧
    (∃ s : State, ∃ box, let c := s.cmd box; let u := s.taken box; let a := c.arg 0 8; let b := c.arg 8 8;
      let n := c.arg 16 4; let d := c.arg 20 8; let m := c.arg 28 4; Served s 0x0204 box ∧ u.chip F.kvUsed = 0 ∧
      u.chip F.reserved = 0 ∧ u.chip F.coldUsed = 0 ∧ n ≤ 119304647 ∧ u.areaOk a (4096 * n) = true ∧
      u.areaOk b (512 * n) = true ∧ u.areaOk d (4608 * m) = true ∧ areasMeet a (4096 * n) b (512 * n) = false ∧
      areasMeet a (4096 * n) d (4608 * m) = false ∧ areasMeet b (512 * n) d (4608 * m) = false) ∧
    (∃ s : State, s.hbm.margin ≠ 0) :=
  ⟨⟨put up 0 0x0201 0 [(2, 639), (2, 1), (1, 1), (1, 3), (1, 4)], 0, 63, 63, 0, by simp only [Served]; decide +kernel⟩,
   ⟨put (region up 63 639 1) 0 0x0202 0 [(1, 63)], 0, by simp only [Served]; decide +kernel⟩,
   ⟨put up 0 0x0203 0 [(1, 255)], 0, by simp only [Served]; decide +kernel⟩,
   ⟨put (region up 1 8 1) 0 0x0204 0 [(8, 8 * 2 ^ 30), (8, 8 * 2 ^ 30 + 4096), (4, 1), (8, 8 * 2 ^ 30 + 8192), (4, 1)], 0, by simp only [Served]; decide +kernel⟩,
   ⟨{ up with hbm := { up.hbm with margin := 1 } }, by decide +kernel⟩⟩

/-- States and operands that meet the hypotheses of `Obligations.GraphCommandsComplete`, clause by clause. -/
theorem witness_GraphCommandsComplete :
    (∃ s : State, ∃ box id g img, let c := s.cmd box; let u := s.taken box; Served s 0x0301 box ∧
      u.graphImage c.isAdmin c.coach (c.arg 0 8) (c.arg 8 4) = .ok (id, g, img)) ∧
    (∃ s : State, ∃ box g, let c := s.cmd box; let u := s.taken box; let d := padTo 128 (c.args.drop 16);
      Served s 0x0302 box ∧ u.updateCheck c (c.arg 0 2) (c.arg 2 2) d = .ok g) ∧
    (∃ s : State, ∃ box g, let c := s.cmd box; let u := s.taken box; Served s 0x0303 box ∧
      u.graph (c.arg 0 2) = some g ∧ c.stranger g.coach = false ∧ u.graphInUse (c.arg 0 2) = false) ∧
    (∃ s : State, ∃ box, let c := s.cmd box; let u := s.taken box; Served s 0x0304 box ∧
      (u.graph (c.arg 0 2)).isSome = true ∧ c.arg 2 1 = 1) ∧
    (∃ s : State, ∃ box, let c := s.cmd box; let u := s.taken box; Served s 0x0304 box ∧
      (u.graph (c.arg 0 2)).isSome = true ∧ c.arg 2 1 = 0 ∧
      ((u.slotsOf c.coach).any fun n => u.cfg n Se.graph == c.arg 0 2) = false) :=
  ⟨⟨put { manyStacks (region (mapped ((live Ss.idle).setChip F.storeMib 1) 5 1 1) 0 0 1) with hbm := { bytes := Memory.write [] 65536 tinyImage } } 21 0x0301 5 [(8, 65536), (4, 384)], 21, 7, tiny, tinyImage, by simp only [Served]; exact ⟨by decide +kernel, ok_of_toOption (by decide +kernel)⟩⟩,
   ⟨put graphed 21 0x0302 5 [(2, 7), (2, 0), (12, 0), (32, 0), (1, 1), (63, 0), (2, 384), (2, 1), (28, 0)], 21, tiny, by simp only [Served]; exact ⟨by decide +kernel, ok_of_toOption (by decide +kernel)⟩⟩,
   ⟨put graphed 21 0x0303 5 [(2, 7)], 21, tiny, by simp only [Served]; decide +kernel⟩,
   ⟨put (coachIn graphed 4095 Cs.halted) 0 0x0304 4095 [(2, 7), (1, 1)], 0, by simp only [Served]; decide +kernel⟩,
   ⟨put (coachIn graphed 4095 Cs.halted) 0 0x0304 4095 [(2, 7), (1, 0)], 0, by simp only [Served]; decide +kernel⟩⟩

/-- States and operands that meet the hypotheses of `Obligations.TableAndOverlayCommandsComplete`, clause by clause. -/
theorem witness_TableAndOverlayCommandsComplete :
    (∃ s : State, ∃ box, let c := s.cmd box; let u := s.taken box; let img := (c.args.drop 4).take 16;
      Served s 0x0305 box ∧ c.arg 0 1 ≤ 15 ∧ tableOk img = true ∧ u.get (tblB (c.arg 0 1)) F.tblState ≠ Tb.loading ∧
      u.get (tblB (c.arg 0 1)) F.tblCount = 0) ∧
    (∃ s : State, ∃ slot, slot ≤ 15 ∧ s.get (tblB slot) F.tblState = Tb.loading) ∧
    (∃ s : State, ∃ box, let c := s.cmd box; let u := s.taken box; Served s 0x0306 box ∧ c.arg 0 1 ≤ 15 ∧
      u.get (tblB (c.arg 0 1)) F.tblState = Tb.live) ∧
    (∃ s : State, ∃ box pick i gid bytes, let c := s.cmd box; let u := s.taken box; let name := c.arg 0 2;
      Served s 0x0307 box ∧ name ≤ 16383 ∧ ((u.ovName name).owner = none ∨ (u.ovName name).owner = some c.coach) ∧
      u.oveRoom c.coach = true ∧ u.freeOveAt pick = some i ∧ u.overlayImage c.coach (c.arg 8 8) = .ok (gid, bytes)) ∧
    (∃ s : State, ∃ box, let c := s.cmd box; let u := s.taken box; let name := c.arg 0 2; Served s 0x0308 box ∧
      name ≤ 16383 ∧ (c.isAdmin = true ∨ (u.ovName name).owner = none ∨ (u.ovName name).owner = some c.coach) ∧
      (u.ovName name).cur ≠ none) ∧
    (∃ s : State, ∃ box, let c := s.cmd box; Served s 0x0309 box ∧ 1 ≤ c.arg 2 1 ∧ c.arg 2 1 ≤ 60 ∧
      c.arg 0 2 + c.arg 2 1 ≤ 16384) :=
  ⟨⟨put up 0 0x0305 0 [(1, 15), (3, 0), (1, 0), (1, 0x11), (14, 0)], 0, by simp only [Served]; decide +kernel⟩,
   ⟨up.set (tblB 15) F.tblState Tb.loading, 15, by decide +kernel⟩,
   ⟨put (up.set (tblB 15) F.tblState Tb.live) 0 0x0306 0 [(1, 15)], 0, by simp only [Served]; decide +kernel⟩,
   ⟨put { manyStacks (region (mapped graphed 5 1 1) 0 0 1) with graphs := [(7, some { tiny with layers := [leBytes 1 2 ++ tinyLayer.drop 1] })], hbm := { bytes := Memory.write [] 65536 (fields [(2, 1), (2, 7), (28, 0), (2, 0), (1, 1), (29, 0)]) } } 21 0x0307 5 [(2, 16383), (6, 0), (8, 65536)], 21, 16383, 16383, 7, fields [(2, 1), (2, 7), (28, 0), (2, 0), (1, 1), (29, 0)], by simp only [Served]; refine ⟨?_, ?_, ?_, ?_, ?_, ok_of_toOption ?_⟩ <;> decide +kernel⟩,
   ⟨put { coachIn up 5 Cs.halted with sb := { up.sb with names := [(16383, { cur := some 4, owner := some 5 })], oves := [(4, { st := 1, coach := 5 })] } } 21 0x0308 5 [(2, 16383)], 21, by simp only [Served]; decide +kernel⟩,
   ⟨put (coachIn up 5 Cs.halted) 21 0x0309 5 [(2, 16324), (1, 60)], 21, by simp only [Served]; decide +kernel⟩⟩

/-- A message for this device from node 16 (R369). -/
def msg (t vc : Nat) : Msg := { mtype := t, vc := vc, dst := up.node, src := 16, coach := 5 }
/-- Coach 5 is RUNNING, page 1 of it is mapped, and the stacks are trained. -/
def homed : State := manyStacks (region (mapped (live Ss.idle) 5 1 1) 0 0 1)
/-- The device with one import slot. -/
def importing (i : Nat) (x : Imp) : State := { live Ss.importing with sb := { up.sb with imports := [(i, x)] } }
/-- A request of the device that awaits its answer, and the device with it. -/
def ask (t : Nat) (w : Awaits) : OutReq := { tag := 9, port := 15, msg := { mtype := t, vc := 1 }, why := w }
def asked (t : Nat) (w : Awaits) : State := { up with link := { up.link with out := [ask t w] } }
/-- A step in which carriage 0 of graph 7 is the first of chain 3. -/
def chained : State :=
  { live Ss.running with
      graphs := [(7, some { tiny with carrs := [fields [(6, 1), (2, 3), (120, 0)]] })]
      gs := { up.gs with active := true, units := [{ graph := 7, members := [0] }] } }
/-- Graph 7, which has that chain, has gone past its step 0, and no step is armed. -/
def past : State :=
  { live Ss.running with graphs := [(7, some { tiny with carrs := [fields [(6, 1), (2, 3), (120, 0)]], armedSteps := 1 })] }

/-- States and operands that meet the hypotheses of `Obligations.SequenceCommandsComplete`, clause by clause. -/
theorem witness_SequenceCommandsComplete :
    (∃ s : State, ∃ box pick n, let c := s.cmd box; let u := s.taken box; Served s 0x0401 box ∧
      u.seqRoom c.coach = true ∧ u.freeSeqAt pick = some n) ∧
    (∃ s : State, ∃ box, let c := s.cmd box; let u := s.taken box; Served s 0x0402 box ∧
      u.slotRefused c (c.arg 0 2) = none) ∧
    (∃ s : State, ∃ box, let c := s.cmd box; let u := s.taken box; let n := c.arg 0 2; let tier := c.arg 2 1;
      Served s 0x0403 box ∧ u.slotRefused c n = none ∧ u.movable n = true ∧ u.seq n Se.exporting ≠ 1 ∧ c.arg 4 4 ≠ 0 ∧
      ((tier = 1 ∧ u.coldPromised + u.coldNeed n ≤ u.chip F.coldFree) ∨ (tier = 2 ∧ c.arg 8 8 % 4096 = 0))) ∧
    (∃ s : State, ∃ box, let c := s.cmd box; let u := s.taken box; let n := c.arg 0 2; Served s 0x0404 box ∧
      u.slotRefused c n = none ∧ u.seq n Se.tier = Tr.cold ∧ u.seq n Se.state ≠ Ss.ending ∧
      (u.seq n Se.expiry = 2 ^ 64 - 1 ∨ u.gcount < u.seq n Se.expiry) ∧
      u.kvRefuse (u.seq n Se.owner) (u.coldNeed n) = 0) ∧
    (∃ s : State, ∃ slot m, s.moveOf slot = some m ∧ m.waiting = false ∧ s.moveWaits slot = false ∧
      s.seq slot Se.tier = Tr.toCold) ∧
    (∃ s : State, ∃ slot m, s.moveOf slot = some m ∧ m.waiting = false ∧ s.moveWaits slot = false ∧
      s.seq slot Se.tier = Tr.toHot) :=
  ⟨⟨put (coachIn (up.setChip F.seqBase 0x10000) 5 Cs.running) 21 0x0401 5 [], 21, 8191, 8191, by simp only [Served]; decide +kernel⟩,
   ⟨put (live Ss.idle) 21 0x0402 5 [(2, 8191)], 21, by simp only [Served]; decide +kernel⟩,
   ⟨put (live Ss.idle) 21 0x0403 5 [(2, 8191), (2, 2), (4, 1), (8, 4096)], 21, by simp only [Served]; decide +kernel⟩,
   ⟨put (((live Ss.idle).setSeq 8191 Se.tier Tr.cold).setSeq 8191 Se.expiry 1) 21 0x0404 5 [(2, 8191)], 21, by simp only [Served]; decide +kernel⟩,
   ⟨{ (live Ss.idle).setSeq 8191 Se.tier Tr.toCold with sb := { up.sb with moves := [(8191, { waiting := false })] } }, 8191, { waiting := false }, by decide +kernel⟩,
   ⟨{ (live Ss.idle).setSeq 8191 Se.tier Tr.toHot with sb := { up.sb with moves := [(8191, { waiting := false })] } }, 8191, { waiting := false }, by decide +kernel⟩⟩

/-- States and operands that meet the hypotheses of `Obligations.ShipmentCommandsComplete`, clause by clause. -/
theorem witness_ShipmentCommandsComplete :
    (∃ s : State, ∃ box pick i, let c := s.cmd box; let u := s.taken box; let n := c.arg 0 2; Served s 0x0405 box ∧
      u.slotRefused c n = none ∧ u.seq n Se.state = Ss.idle ∧ u.movable n = true ∧ u.seq n Se.owner = c.coach ∧
      u.kvRefuse c.coach (c.arg 4 4) = 0 ∧ u.freeImport pick = some i) ∧
    (∃ s : State, ∃ box i x, let c := s.cmd box; let u := s.taken box; Served s 0x0406 box ∧
      u.importBy (c.arg 0 8) = some (i, x) ∧ x.st = 1 ∧ c.stranger x.coach = false) ∧
    (∃ s : State, ∃ box, let c := s.cmd box; let u := s.taken box; let n := c.arg 0 2; Served s 0x0407 box ∧
      u.slotRefused c n = none ∧ u.movable n = true ∧ u.seq n Se.state ≠ Ss.running) ∧
    (∃ s : State, ∃ idx, (SMap.look {} s.sb.imports idx).st = 1 ∧ (SMap.look {} s.sb.imports idx).expiry ≤ s.gcount) :=
  ⟨⟨put ((live Ss.idle).setChip F.kvFree 2) 21 0x0405 5 [(4, 8191), (4, 1), (4, 1)], 21, 1023, 1023, by simp only [Served]; decide +kernel⟩,
   ⟨put (importing 1023 { st := 1, gen := 1, check := 2, coach := 5, slot := 8191 }) 21 0x0406 5 [(8, 1023 + 2 ^ 16 + 2 ^ 33)], 21, 1023, { st := 1, gen := 1, check := 2, coach := 5, slot := 8191 }, by simp only [Served]; decide +kernel⟩,
   ⟨put (live Ss.ready) 21 0x0407 5 [(2, 8191), (2, 16), (4, 0), (8, 1)], 21, by simp only [Served]; decide +kernel⟩,
   ⟨importing 1023 { st := 1, coach := 5, slot := 8191 }, 1023, by decide +kernel⟩⟩

/-- States and operands that meet the hypotheses of `Obligations.CollectiveCommandsComplete`, clause by clause. -/
theorem witness_CollectiveCommandsComplete :
    (∃ s : State, ∃ box pick l x, let c := s.cmd box; let u := s.taken box; let n := c.arg 4 4;
      let list := c.arg 24 8;
      let k : Coll := { opened := true, id := c.arg 0 4, coach := c.coach, rank := c.arg 8 2, root := c.arg 10 2, op := c.arg 12 1, ety := c.arg 13 1, vc := c.arg 14 1, count := c.arg 16 4, src := c.arg 32 8, dst := c.arg 40 8, scratch := c.arg 48 8, seed := c.arg 56 8, limit := c.arg 64 4 };
      let v := u.walkRange Blk.mp c.coach list (2 * n) false;
      let ms := (List.range n).map fun i => fieldLE l (2 * i) 2; Served s 0x0501 box ∧ 1 ≤ n ∧ n ≤ 1552 ∧ k.rank < n ∧
      k.root < n ∧ k.op ≤ 2 ∧ k.ety ≤ 2 ∧ 3 ≤ k.vc ∧ k.vc ≤ 5 ∧ 1 ≤ k.count ∧ k.count ≤ 2 ^ 24 ∧ list % 2 = 0 ∧
      (k.op = 2 → n * k.count ≤ 2 ^ 32) ∧ v.coachRead Blk.mp c.coach list (2 * n) = some l ∧
      v.coachPoisoned Blk.mp c.coach list (2 * n) = false ∧ noRepeat ms = true ∧ ms.getD k.rank 0 = v.node ∧
      v.freeColl pick = some x) ∧
    (∃ s : State, ∃ box, let c := s.cmd box; let u := s.taken box; let x := c.arg 0 1; let k := u.coll x;
      Served s 0x0502 box ∧ x < 64 ∧ k.opened = true ∧ k.coach = c.coach ∧ k.run = none) ∧
    (∃ s : State, ∃ box, let c := s.cmd box; let u := s.taken box; let x := c.arg 0 1; Served s 0x0503 box ∧ x < 64 ∧
      (u.coll x).opened = true ∧ (u.coll x).coach = c.coach ∧ (u.coll x).run = none) ∧
    (∃ s : State, ∃ port m, Arrives s port m 0x40) ∧
    (∃ s : State, ∃ port m, Arrives s port m 0x41) ∧
    (∃ s : State, ∃ port m, Arrives s port m 0x42) ∧
    (∃ s : State, ∃ ctx, ctx < 64 ∧ (s.coll ctx).run.isSome = true ∧
      (s.coll ctx).movedAt + 1000 * (s.coll ctx).limit ≤ s.gcount) :=
  ⟨⟨put homed 21 0x0501 5 [(4, 9), (4, 1), (2, 0), (2, 0), (1, 2), (1, 2), (1, 5), (1, 0), (4, 2 ^ 24), (4, 0), (8, 65536), (8, 0), (8, 0), (8, 0), (8, 0), (4, 1)], 21, 63, [0, 0], 63, by simp only [Served]; decide +kernel⟩,
   ⟨put { homed with link := { up.link with colls := [(63, { opened := true, coach := 5 })] } } 21 0x0502 5 [(4, 63), (4, 1)], 21, by simp only [Served]; decide +kernel⟩,
   ⟨put { homed with link := { up.link with colls := [(63, { opened := true, coach := 5 })] } } 21 0x0503 5 [(1, 63)], 21, by simp only [Served]; decide +kernel⟩,
   ⟨homed, 15, { msg 0x40 3 with data := List.replicate 16 0 }, by simp only [Arrives]; decide +kernel⟩,
   ⟨homed, 15, { msg 0x41 3 with data := List.replicate 4096 0 }, by simp only [Arrives]; decide +kernel⟩,
   ⟨homed, 15, msg 0x42 3, by simp only [Arrives]; decide +kernel⟩,
   ⟨{ up with link := { up.link with colls := [(63, { opened := true, run := some 0 })] } }, 63, by decide +kernel⟩⟩

/-- States and operands that meet the hypotheses of `Obligations.RequestMessagesAreServed`, clause by clause. -/
theorem witness_RequestMessagesAreServed :
    (∃ s : State, ∃ port m, Arrives s port m 1 ∧ s.earlierWrite port m = false ∧ s.msgWaits m m.data.length true = false) ∧
    (∃ s : State, ∃ port m, s.earlierWrite port m = true) ∧
    (∃ s : State, ∃ m : Msg, s.msgWaits m m.data.length true = true) ∧
    (∃ s : State, ∃ port m, Arrives s port m 3 ∧ s.msgWaits m (m.arg % 8192) false = false) ∧
    (∃ s : State, ∃ port m, Arrives s port m 5 ∧ s.msgWaits m 32 true = false) ∧
    (∃ s : State, ∃ port m o, Arrives s port m 2 ∧ (s.unbuffer port m).outstanding m = some o) ∧
    (∃ s : State, ∃ port m o, Arrives s port m 6 ∧ (s.unbuffer port m).outstanding m = some o) ∧
    (∃ s : State, ∃ port m o off n, Arrives s port m 4 ∧ (s.unbuffer port m).outstanding m = some o ∧
      o.why = .boot off n) ∧
    (∃ s : State, ∃ port m o c t, Arrives s port m 4 ∧ (s.unbuffer port m).outstanding m = some o ∧
      o.why = .dmaRead c t) ∧
    (∃ s : State, ∃ port m o n off, Arrives s port m 4 ∧ (s.unbuffer port m).outstanding m = some o ∧
      o.why = .coldRead n off) :=
  ⟨⟨homed, 15, { msg 1 1 with coach := 5, addr := 65536, data := List.replicate 4096 0 }, by simp only [Arrives]; decide +kernel⟩,
   ⟨{ homed with link := { up.link with ports := [(15, { rx := [(4, { msg 1 1 with coach := 5, addr := 131072 })] })] } }, 15, { msg 1 1 with coach := 5, addr := 65536 }, by decide +kernel⟩,
   ⟨(List.range 8).foldl (fun s m => s.set (lbHbmB m) F.lbActive 1) homed, { msg 1 1 with coach := 5, addr := 65536, data := [0] }, by decide +kernel⟩,
   ⟨homed, 15, { msg 3 1 with coach := 5, addr := 65536, arg := 4096 }, by simp only [Arrives]; decide +kernel⟩,
   ⟨homed, 15, { msg 5 1 with coach := 5, addr := 65536, data := List.replicate 32 0 }, by simp only [Arrives]; decide +kernel⟩,
   ⟨asked 1 .firmware, 15, { msg 2 1 with tagw := 9 }, ask 1 .firmware, by simp only [Arrives]; decide +kernel⟩,
   ⟨asked 5 .firmware, 15, { msg 6 1 with tagw := 9 }, ask 5 .firmware, by simp only [Arrives]; decide +kernel⟩,
   ⟨asked 3 (.boot 0 4096), 15, { msg 4 1 with tagw := 9 }, ask 3 (.boot 0 4096), 0, 4096, by simp only [Arrives]; decide +kernel⟩,
   ⟨asked 3 (.dmaRead 143 63), 15, { msg 4 1 with tagw := 9 }, ask 3 (.dmaRead 143 63), 143, 63, by simp only [Arrives]; decide +kernel⟩,
   ⟨asked 3 (.coldRead 8191 0), 15, { msg 4 1 with tagw := 9 }, ask 3 (.coldRead 8191 0), 8191, 0, by simp only [Arrives]; decide +kernel⟩⟩

/-- A REPLAY has been sent on to the other nodes of its chain (R266). -/
def replayed (u : State) (m : Msg) (chain : Nat) : State :=
  let nodes := ((u.chainUnits m.coach chain m.arg).flatMap fun k => ((u.gs.units[k]?).map u.chainNodes).getD []).eraseDups
  (nodes.filter (· != m.src)).foldl (fun (s : State) n => s.send { mtype := 0x22, vc := 0, dst := n, coach := m.coach, addr := chain, arg := m.arg }) u

/-- A whole message for this device from another, for a coach that is VACANT here. -/
def ForVacant (s : State) (port : Nat) (m : Msg) : Prop :=
  port < 16 ∧ m.dst = s.node ∧ s.rom ≠ Rom.failed ∧ s.rom ≠ Rom.safe ∧ s.clocked = true ∧ s.scanned = false ∧ msgBad m true = false ∧
    s.stray port m = false ∧ s.coachState m.coach = Cs.vacant

/-- States and operands that meet the hypotheses of `Obligations.MessagesForVacantCoachesAreDiscarded`, by type of message. -/
theorem witness_MessagesForVacantCoachesAreDiscarded :
    (∃ s port m, ForVacant s port m ∧ m.mtype = 0x20) ∧ (∃ s port m, ForVacant s port m ∧ m.mtype = 0x21) ∧
    (∃ s port m, ForVacant s port m ∧ m.mtype = 0x22) ∧ (∃ s port m, ForVacant s port m ∧ m.mtype = 0x23) ∧
    (∃ s port m, ForVacant s port m ∧ m.mtype = 0x30) ∧ (∃ s port m, ForVacant s port m ∧ m.mtype = 0x31) ∧
    (∃ s port m, ForVacant s port m ∧ m.mtype = 0x40) ∧ (∃ s port m, ForVacant s port m ∧ m.mtype = 0x41) ∧
    (∃ s port m, ForVacant s port m ∧ m.mtype = 0x42) :=
  ⟨⟨up, 15, { msg 0x20 6 with data := List.replicate 272 0 }, by simp only [ForVacant]; decide +kernel⟩,
   ⟨up, 15, msg 0x21 0, by simp only [ForVacant]; decide +kernel⟩,
   ⟨up, 15, msg 0x22 0, by simp only [ForVacant]; decide +kernel⟩,
   ⟨up, 15, msg 0x23 6, by simp only [ForVacant]; decide +kernel⟩,
   ⟨up, 15, { msg 0x30 2 with data := List.replicate 256 0 }, by simp only [ForVacant]; decide +kernel⟩,
   ⟨up, 15, msg 0x31 2, by simp only [ForVacant]; decide +kernel⟩,
   ⟨up, 15, { msg 0x40 3 with data := List.replicate 16 0 }, by simp only [ForVacant]; decide +kernel⟩,
   ⟨up, 15, { msg 0x41 3 with data := List.replicate 16 0 }, by simp only [ForVacant]; decide +kernel⟩,
   ⟨up, 15, msg 0x42 3, by simp only [ForVacant]; decide +kernel⟩⟩

/-- States and operands that meet the hypotheses of `Obligations.ChainMessagesTakeEffect`, clause by clause. -/
theorem witness_ChainMessagesTakeEffect :
    (∃ s : State, ∃ port m, Arrives s port m 0x20) ∧
    (∃ s : State, ∃ port m, let u := s.unbuffer port m; let chain := m.addr % 65536; Arrives s port m 0x21 ∧
      u.chainUnits m.coach chain m.arg ≠ []) ∧
    (∃ s : State, ∃ port m, let u := s.unbuffer port m; let chain := m.addr % 65536; Arrives s port m 0x21 ∧
      u.chainUnits m.coach chain m.arg = []) ∧
    (∃ s : State, ∃ port m, let u := s.unbuffer port m; let chain := m.addr % 65536; Arrives s port m 0x22 ∧
      (replayed u m chain).chainUnits m.coach chain m.arg ≠ []) ∧
    (∃ s : State, ∃ port m, let u := s.unbuffer port m; let chain := m.addr % 65536; Arrives s port m 0x22 ∧
      (replayed u m chain).chainUnits m.coach chain m.arg = [] ∧ (replayed u m chain).passAhead m.coach chain m.arg = true) ∧
    (∃ s : State, ∃ port m, let u := s.unbuffer port m; let chain := m.addr % 65536; Arrives s port m 0x22 ∧
      (replayed u m chain).chainUnits m.coach chain m.arg = [] ∧ (replayed u m chain).passAhead m.coach chain m.arg = false) ∧
    (∃ s : State, ∃ port m, Arrives s port m 0x23) ∧
    (∃ s : State, ∃ port m, Arrives s port m 0x50) ∧
    (∃ s : State, ∃ port m, let u := s.unbuffer port m; Arrives s port m 0x50 ∧ m.addr % 65536 = 0x0B02 ∧
      u.rom = Rom.request ∧ port < 2 ∧ 32 ≤ m.data.length ∧ u.boot.warm = true) ∧
    (∃ s : State, ∃ port m, let u := s.unbuffer port m; Arrives s port m 0x50 ∧ m.addr % 65536 = 0x0B02 ∧
      u.rom = Rom.request ∧ port < 2 ∧ 32 ≤ m.data.length ∧ u.boot.warm = false ∧ fieldLE m.data 8 8 ≠ 0) :=
  ⟨⟨homed, 15, { msg 0x20 6 with coach := 5, data := List.replicate 272 0 }, by simp only [Arrives]; decide +kernel⟩,
   ⟨chained, 15, { msg 0x21 0 with addr := 3, arg := 0 }, by simp only [Arrives]; decide +kernel⟩,
   ⟨homed, 15, { msg 0x21 0 with addr := 3 }, by simp only [Arrives]; decide +kernel⟩,
   ⟨chained, 15, { msg 0x22 0 with addr := 3 }, by simp only [Arrives]; decide +kernel⟩,
   ⟨chained, 15, { msg 0x22 0 with addr := 3, arg := 256 }, by simp only [Arrives]; decide +kernel⟩,
   ⟨past, 15, { msg 0x22 0 with addr := 3 }, by simp only [Arrives]; decide +kernel⟩,
   ⟨homed, 15, { msg 0x23 6 with addr := 3 }, by simp only [Arrives]; decide +kernel⟩,
   ⟨up, 15, msg 0x50 7, by simp only [Arrives]; decide +kernel⟩,
   ⟨{ up.setChip F.bootStatusState Rom.request with boot := { up.boot with warm := true } }, 1, { msg 0x50 7 with addr := 0x0B02, data := List.replicate 32 0 }, by simp only [Arrives]; decide +kernel⟩,
   ⟨up.setChip F.bootStatusState Rom.request, 1, { msg 0x50 7 with addr := 0x0B02, data := fields [(8, 0), (8, 1), (16, 0)] }, by simp only [Arrives]; decide +kernel⟩⟩

/-- The steps of a CRC with its value looked at between them, so that the kernel can compute them one by one. -/
def crcStep (poly : Nat) : List Byte → Nat → Nat
  | [], c => c
  | b :: r, 0 => crcStep poly r (crcBits poly 8 (0 ^^^ b.toNat))
  | b :: r, c + 1 => crcStep poly r (crcBits poly 8 ((c + 1) ^^^ b.toNat))

theorem crcOver_eq_crcStep (poly c : Nat) (l : List Byte) : crcOver poly c l = crcStep poly l c := by
  induction l generalizing c with
  | nil => rfl
  | cons b r ih => cases c <;> exact ih _

theorem crc32c_eq_steps (l : List Byte) : crc32c l = crcStep 0x82F63B78 l 0xFFFFFFFF ^^^ 0xFFFFFFFF := by
  rw [crc32c, crcOver_eq_crcStep]

theorem crc64_eq_steps (l : List Byte) :
    crc64 l = crcStep 0xC96C5795D7870F42 l 0xFFFFFFFFFFFFFFFF ^^^ 0xFFFFFFFFFFFFFFFF := by
  rw [crc64, crcOver_eq_crcStep]

/-- A graph with one attention layer of one KV head (R177). -/
def attentive : Graph := { tiny with layers := [leBytes 1 4 ++ (tinyLayer.drop 1).take 47 ++ leBytes 1 1 ++ tinyLayer.drop 49] }
/-- A list entry of an A8 page. -/
def listEntry : List Byte := Pe.mk 3 2 0 0 0 0 0
/-- Slot 8191 of coach 5 holds 32 tokens in two pages: its directory is at 65536, its lists at 65792 and 65808 (R201, R203). -/
def paged (st : Nat) : State :=
  let s := { manyStacks (region (mapped (live st) 5 1 2) 0 0 1) with graphs := [(7, some attentive)] }
  let s := ((s.setSeq 8191 Se.graph 7).setSeq 8191 Se.listlen 1).setSeq 8191 Se.kvdir 65536
  ((s.setSeq 8191 Se.ntokens 32).memWrite 131072 (fields [(8, 65792)])).memWrite 131328 (listEntry ++ listEntry)
/-- A control cart of a shipment: 252 bytes and their CRC-32C (R218). -/
def cart (l : List (Nat × Nat)) (crc : Nat) : List Byte :=
  fields l ++ List.replicate (252 - (fields l).length) 0 ++ leBytes 4 crc
/-- The import of slot 1023 that awaits one page, its ticket, and the device with it. -/
def coming : Imp := { st := 1, gen := 1, check := 2, coach := 5, slot := 8191, left := 1, expiry := 1 }
def ticket : Nat := 1023 + 2 ^ 16 + 2 ^ 33
def receiving (x : Imp) : State := { paged Ss.importing with sb := { up.sb with imports := [(1023, x)] } }
/-- The record of that page: stream 0, A8, all bytes zero. -/
def pageRecord : List Byte :=
  cart ([(4, 0), (2, 0), (1, 0), (1, 4), (4, 0), (20, 0)] ++ List.replicate 18 (4, 3094524304)) 2210950996
/-- The device sends slot 8191. -/
def sending (e : Exp) : State := { paged Ss.idle with sb := { up.sb with exports := [(8191, e)] } }
/-- The device sends slot 8191, and a line of the codes of page 3 answers POISON. -/
def spoiled (e : Exp) : State :=
  let s := sending e
  { s with hbm := { s.hbm with bad := [(64 * 3, 3)] } }
def answer (arg : Nat) : Msg := { msg 0x31 2 with addr := 77, arg := arg }

/-- States and operands that meet the hypotheses of `Obligations.ShipmentMessagesTakeEffect`, clause by clause. -/
theorem witness_ShipmentMessagesTakeEffect :
    (∃ s : State, ∃ port m i x, let u := s.unbuffer port m; Arrives s port m 0x30 ∧ shipCartOk m.data = true ∧
      u.importBy m.arg = some (i, x) ∧ x.st = 1 ∧ u.gcount < x.expiry ∧
      (x.begun = true → x.attempt ≤ fieldLE m.data 10 1) ∧ fieldLE m.data 24 4 ≤ x.left + x.landed.length ∧
      (fieldLE m.data 12 4 + 31) / 32 ≤ fieldLE m.data 20 4 ∧
      (fieldLE m.data 12 4 + 31) / 32 ≤ u.cfg x.slot Se.listlen ∧
      ((u.graph (u.cfg x.slot Se.graph)).map fun g => g.attnLayers.length) = some (fieldLE m.data 16 2)) ∧
    (∃ s : State, ∃ port m i x, let u := s.unbuffer port m; let k := fieldLE m.data 0 4; Arrives s port m 0x30 ∧
      shipCartOk m.data = true ∧ u.importBy m.arg = some (i, x) ∧ x.st = 1 ∧ u.gcount < x.expiry ∧ x.begun = true ∧
      k < x.npages ∧ (k = x.next ∨ x.redo.contains k = true)) ∧
    (∃ s : State, ∃ port m i x r a, let u := s.unbuffer port m; Arrives s port m 0x30 ∧
      u.importBy m.arg = some (i, x) ∧ x.st = 1 ∧ u.gcount < x.expiry ∧ x.record = some r ∧ m.data.length = 4608 ∧
      ((List.range 18).all fun j => crc32c ((m.data.drop (256 * j)).take 256) == fieldLE r (32 + 4 * j) 4) = true ∧
      u.recordEntry x r = some a) ∧
    (∃ s : State, ∃ port m i x, let u := s.unbuffer port m; Arrives s port m 0x30 ∧ shipCartOk m.data = true ∧
      u.importBy m.arg = some (i, x) ∧ x.st = 1 ∧ u.gcount < x.expiry ∧ x.begun = true ∧
      fieldLE m.data 8 4 = x.npages ∧ x.landed.length = x.npages ∧ fieldLE m.data 16 8 = x.digest) :=
  ⟨⟨receiving coming, 15, { msg 0x30 2 with arg := ticket, data := cart [(8, 0), (2, 16), (2, 0), (4, 32), (4, 1), (4, 1), (4, 1)] 90163272 }, 1023, coming, by simp only [Arrives, shipCartOk, crc32c_eq_steps]; decide +kernel⟩,
   ⟨receiving { coming with begun := true, npages := 1 }, 15, { msg 0x30 2 with arg := ticket, data := pageRecord }, 1023, { coming with begun := true, npages := 1 }, by simp only [Arrives, shipCartOk, crc32c_eq_steps]; decide +kernel⟩,
   ⟨receiving { coming with begun := true, npages := 1, record := some pageRecord }, 15, { msg 0x30 2 with arg := ticket, data := List.replicate 4608 0 }, 1023, { coming with begun := true, npages := 1, record := some pageRecord }, pageRecord, 65792, by simp only [Arrives, crc32c_eq_steps]; decide +kernel⟩,
   ⟨receiving { coming with begun := true, npages := 1, landed := [(0, 65792)] }, 15, { msg 0x30 2 with arg := ticket, data := cart [(8, 0), (4, 1), (4, 0), (8, 0)] 2843026752 }, 1023, { coming with begun := true, npages := 1, landed := [(0, 65792)] }, by simp only [Arrives, shipCartOk, crc32c_eq_steps]; decide +kernel⟩⟩

/-- States and operands that meet the hypotheses of `Obligations.ShipmentAnswersTakeEffect`, clause by clause. -/
theorem witness_ShipmentAnswersTakeEffect :
    (∃ s : State, ∃ port m n e, let u := s.unbuffer port m; Arrives s port m 0x31 ∧ m.arg % 256 = 1 ∧
      u.exportBy m = some (n, e) ∧ e.st = 1 ∧ ((u.seqPages n).any fun p => u.pagePoisoned (Pe.page p.2.2)) = false) ∧
    (∃ s : State, ∃ port m n e p, let u := s.unbuffer port m; let k := m.arg / 2 ^ 32 % 2 ^ 32;
      Arrives s port m 0x31 ∧ m.arg % 256 = 2 ∧ u.exportBy m = some (n, e) ∧ e.st = 2 ∧
      Sc.named (m.arg / 256 % 256) = Sc.integrity ∧ e.resent.contains k = false ∧ (u.seqPages n)[k]? = some p ∧
      u.pagePoisoned (Pe.page p.2.2) = false) ∧
    (∃ s : State, ∃ port m n e p, let u := s.unbuffer port m; let k := m.arg / 2 ^ 32 % 2 ^ 32;
      Arrives s port m 0x31 ∧ m.arg % 256 = 2 ∧ u.exportBy m = some (n, e) ∧ e.st = 2 ∧
      Sc.named (m.arg / 256 % 256) = Sc.integrity ∧ e.resent.contains k = false ∧ (u.seqPages n)[k]? = some p ∧
      u.pagePoisoned (Pe.page p.2.2) = true) ∧
    (∃ s : State, ∃ port m n e, let u := s.unbuffer port m; Arrives s port m 0x31 ∧ m.arg % 256 = 3 ∧
      u.exportBy m = some (n, e)) ∧
    (∃ s : State, ∃ port m n e, let u := s.unbuffer port m; Arrives s port m 0x31 ∧ m.arg % 256 = 4 ∧
      u.exportBy m = some (n, e)) ∧
    (∃ s : State, ∃ slot e, s.exportOf slot = some e ∧ e.st ≠ 0 ∧ e.sentAt + 10000000 ≤ s.gcount ∧ e.losses < 2) ∧
    (∃ s : State, ∃ slot e, s.exportOf slot = some e ∧ e.st ≠ 0 ∧ e.sentAt + 10000000 ≤ s.gcount ∧ 2 ≤ e.losses) :=
  ⟨⟨sending { dest := 16, ticket := 77, st := 1 }, 15, answer 1, 8191, { dest := 16, ticket := 77, st := 1 }, by simp only [Arrives]; decide +kernel⟩,
   ⟨sending { dest := 16, ticket := 77, st := 2 }, 15, answer (2 + 256 * 9 + 2 ^ 32), 8191, { dest := 16, ticket := 77, st := 2 }, ({ layer := 0, kind := 1, head := 0, list := some 65808, sid := 0 }, 0, listEntry), by simp only [Arrives]; decide +kernel⟩,
   ⟨spoiled { dest := 16, ticket := 77, st := 2 }, 15, answer (2 + 256 * 255 + 2 ^ 32), 8191, { dest := 16, ticket := 77, st := 2 }, ({ layer := 0, kind := 1, head := 0, list := some 65808, sid := 0 }, 0, listEntry), by simp only [Arrives]; decide +kernel⟩,
   ⟨sending { dest := 16, ticket := 77, st := 2 }, 15, answer 3, 8191, { dest := 16, ticket := 77, st := 2 }, by simp only [Arrives]; decide +kernel⟩,
   ⟨sending { dest := 16, ticket := 77, st := 2 }, 15, answer 4, 8191, { dest := 16, ticket := 77, st := 2 }, by simp only [Arrives]; decide +kernel⟩,
   ⟨atTime (sending { dest := 16, ticket := 77, st := 1, losses := 1 }) 10000000, 8191, { dest := 16, ticket := 77, st := 1, losses := 1 }, by decide +kernel⟩,
   ⟨atTime (sending { dest := 16, ticket := 77, st := 1, losses := 2 }) 10000000, 8191, { dest := 16, ticket := 77, st := 1, losses := 2 }, by decide +kernel⟩⟩

/-- A flit of a header, the next words of its 240 bytes, and its CRC-64 (R367, R368). -/
def flit (header : Nat) (l : List (Nat × Nat)) (crc : Nat) : List Byte :=
  leBytes 8 header ++ fields l ++ List.replicate (240 - (fields l).length) 0 ++ leBytes 8 crc
/-- Port `p` is in a link state. -/
def linked (p st : Nat) : State := up.set (portB p) F.portState st
/-- A mark of node 0x8001, the host adapter of port 1 of node 0 (R372, R380). -/
def hostMark : List Byte := flit 2 [(8, 0), (8, 0), (2, 0x8001), (4, 0), (1, 2)] 0xdb827a17f9679101
/-- A mark of another partner. -/
def otherMark : List Byte := flit 2 [(8, 0), (8, 0), (2, 16), (4, 0), (1, 0)] 0xe2a919e89f744434
/-- Connector 0 is there, no topology map is loaded, and port 1 may train (R377). -/
def trainable : State := ((up.setChip F.mapValid 0).set (portB 1) F.portPresent 1).set (portB 1) F.portLaser 1

/-- States and operands that meet the hypotheses of `Obligations.FlitsAreTaken`, clause by clause. -/
theorem witness_FlitsAreTaken :
    (∃ s : State, ∃ port flit fec, let h := FlitHdr.of flit; let t := s.fecTaken port fec; s.hears port = true ∧ badFlit flit fec = false ∧
      h.typ = 1 ∧ t.linkState port = Ls.up ∧ (h.seq + 4096 - ((t.takeHdr port h).port port).rxSeq) % 4096 = 1) ∧
    (∃ s : State, ∃ port flit fec, let h := FlitHdr.of flit; let t := s.fecTaken port fec; s.hears port = true ∧ badFlit flit fec = false ∧
      h.typ = 1 ∧ t.linkState port = Ls.up ∧ 2 ≤ (h.seq + 4096 - ((t.takeHdr port h).port port).rxSeq) % 4096 ∧
      (h.seq + 4096 - ((t.takeHdr port h).port port).rxSeq) % 4096 < 2048) ∧
    (∃ s : State, ∃ port flit fec, let h := FlitHdr.of flit; let t := s.fecTaken port fec; s.hears port = true ∧ badFlit flit fec = false ∧
      h.typ = 1 ∧ t.linkState port = Ls.up ∧
      ((h.seq + 4096 - ((t.takeHdr port h).port port).rxSeq) % 4096 = 0 ∨ 2048 ≤ (h.seq + 4096 - ((t.takeHdr port h).port port).rxSeq) % 4096)) ∧
    (∃ s : State, ∃ port flit fec, let h := FlitHdr.of flit; let t := s.fecTaken port fec; s.hears port = true ∧ badFlit flit fec = false ∧ h.typ = 0) ∧
    (∃ s : State, ∃ port flit fec, let h := FlitHdr.of flit; let t := s.fecTaken port fec; let m := markIn flit;
      let u := (t.takeHdr port h).markTaken port m; s.hears port = true ∧ badFlit flit fec = false ∧ h.typ = 2 ∧
      u.partnerOk port m.node m.port m.host = true ∧ u.linkState port = Ls.training) ∧
    (∃ s : State, ∃ port flit fec, let h := FlitHdr.of flit; let t := s.fecTaken port fec; let m := markIn flit;
      let u := (t.takeHdr port h).markTaken port m; s.hears port = true ∧ badFlit flit fec = false ∧ h.typ = 2 ∧
      u.partnerOk port m.node m.port m.host = true ∧ u.linkState port = Ls.miswired) ∧
    (∃ s : State, ∃ port flit fec, let h := FlitHdr.of flit; let t := s.fecTaken port fec; let m := markIn flit;
      let u := (t.takeHdr port h).markTaken port m; s.hears port = true ∧ badFlit flit fec = false ∧ h.typ = 2 ∧
      u.partnerOk port m.node m.port m.host = true ∧ u.linkState port = Ls.up) ∧
    (∃ s : State, ∃ port flit fec, let h := FlitHdr.of flit; let t := s.fecTaken port fec; let m := markIn flit;
      let u := (t.takeHdr port h).markTaken port m; s.hears port = true ∧ badFlit flit fec = false ∧ h.typ = 2 ∧
      u.partnerOk port m.node m.port m.host = false ∧ u.linkState port = Ls.up) ∧
    (∃ s : State, ∃ port flit fec, s.hears port = true ∧ badFlit flit fec = true) :=
  ⟨⟨linked 15 Ls.up, 15, flit 1 [] 0x47ac2c7117fe4fd2, {}, by simp only [badFlit, crc64_eq_steps]; decide +kernel⟩,
   ⟨linked 15 Ls.up, 15, flit 0x101 [] 0x5f94f4266e30941, {}, by simp only [badFlit, crc64_eq_steps]; decide +kernel⟩,
   ⟨linked 15 Ls.up, 15, flit 0xFFF01 [] 0x25f3fa1336731c01, {}, by simp only [badFlit, crc64_eq_steps]; decide +kernel⟩,
   ⟨linked 15 Ls.up, 15, flit 0 [] 0xb4b3f55609dcc4ab, {}, by simp only [badFlit, crc64_eq_steps]; decide +kernel⟩,
   ⟨(linked 1 Ls.training).setChip F.mapValid 0, 1, hostMark, {}, by simp only [badFlit, crc64_eq_steps]; decide +kernel⟩,
   ⟨(linked 1 Ls.miswired).setChip F.mapValid 0, 1, hostMark, {}, by simp only [badFlit, crc64_eq_steps]; decide +kernel⟩,
   ⟨(linked 1 Ls.up).setChip F.mapValid 0, 1, hostMark, {}, by simp only [badFlit, crc64_eq_steps]; decide +kernel⟩,
   ⟨linked 1 Ls.up, 1, otherMark, {}, by simp only [badFlit, crc64_eq_steps]; decide +kernel⟩,
   ⟨linked 15 Ls.up, 15, flit 1 [] 0x47ac2c7117fe4fd2, { uncorr := 1 }, by decide +kernel⟩⟩

/-- States and operands that meet the hypotheses of `Obligations.PortEventsTakeEffect`, clause by clause. -/
theorem witness_PortEventsTakeEffect :
    (∃ s : State, ∃ port, port < 16 ∧ s.linkState port = Ls.up ∧ (s.port port).replay ≠ [] ∧
      (s.port port).ackAt + 4000 ≤ s.gcount) ∧
    (∃ s : State, s.gcount % 1024 = 0 ∧ s.chip F.clkStatusSrc = 3) ∧
    (∃ s : State, ∃ port, s.mayTrain port = true) ∧
    (∃ s : State, ∃ port, s.mayTrain port = true ∧ (s.port port).since + 100000000 ≤ s.gcount) ∧
    (∃ s : State, ∃ port, port < 16 ∧ s.linkState port = Ls.training ∧ (s.port port).since + 10000000 ≤ s.gcount) ∧
    (∃ s : State, ∃ port lane, port < 16 ∧ lane < 8 ∧ s.linkState port = Ls.up) ∧
    (∃ s : State, ∃ port, port < 16 ∧ s.linkState port = Ls.retrain ∧ s.gcount < (s.port port).since + 1000000) ∧
    (∃ s : State, ∃ port, port < 16 ∧ s.linkState port = Ls.retrain ∧ (s.port port).since + 1000000 ≤ s.gcount) ∧
    (∃ s : State, ∃ port lane, port < 16 ∧ lane < 8 ∧ (s.linkState port = Ls.up ∨ s.linkState port = Ls.retrain)) ∧
    (∃ port, port < 16) :=
  ⟨⟨atTime { linked 15 Ls.up with link := { up.link with ports := [(15, { replay := [⟨0, 0, 0, 0, [], 1⟩] })] } } 4000, 15, by decide +kernel⟩,
   ⟨atTime up 1024, by decide +kernel⟩,
   ⟨trainable, 1, by decide +kernel⟩,
   ⟨atTime trainable 100000000, 1, by decide +kernel⟩,
   ⟨atTime (linked 15 Ls.training) 10000000, 15, by decide +kernel⟩,
   ⟨linked 15 Ls.up, 15, 7, by decide +kernel⟩,
   ⟨atTime (linked 15 Ls.retrain) 999999, 15, by decide +kernel⟩,
   ⟨atTime (linked 15 Ls.retrain) 1000000, 15, by decide +kernel⟩,
   ⟨linked 15 Ls.retrain, 15, 7, by decide +kernel⟩,
   ⟨15, by decide +kernel⟩⟩

/-- States and operands that meet the hypotheses of `Obligations.RoutesPresenceAndSyncTakeEffect`, clause by clause. -/
theorem witness_RoutesPresenceAndSyncTakeEffect :
    (∃ s : State, s.chip F.gcStatusState = 2 ∧ s.link.lastMark + 16384 ≤ s.gcount) ∧
    (∃ s : State, s.chip F.gcStatusState = 3 ∧ s.link.lastMark + 10000000 ≤ s.gcount) ∧
    (∃ s : State, s.clocked = true) ∧
    (∃ s : State, s.mpUp = true ∧ s.chip F.mapValid ≠ 0) ∧
    (∃ s : State, ∃ oc, oc < 4 ∧ s.awake = true ∧ bit (s.chip F.eklOpticPresent) oc = false) ∧
    (∃ s : State, ∃ oc, oc < 4 ∧ s.awake = true ∧ bit (s.chip F.eklOpticPresent) oc = true) ∧
    (∃ s : State, ∃ oc, let t := SMap.look 0 s.link.presentAt oc; oc < 4 ∧ t ≠ 0 ∧ t + 100000000 ≤ s.gcount + 1 ∧
      bit (s.chip F.eklOpticPresent) oc = true ∧ s.awake = true ∧ bit s.pwr.railsGood 5 = true) ∧
    (∃ s : State, s.drainIsDone = true) ∧
    (∃ s : State, ∃ port m, let u := s.unbuffer port m; port < 16 ∧ m.dst ≠ s.node ∧ msgBad m false = false ∧
      u.chip F.mapValid = 1 ∧ (u.route m.src m.dst m.coach).isSome = true) :=
  ⟨⟨atTime (up.setChip F.gcStatusState 2) 16384, by decide +kernel⟩,
   ⟨atTime (up.setChip F.gcStatusState 3) 10000000, by decide +kernel⟩,
   ⟨up, by decide +kernel⟩,
   ⟨up.setChip F.mapValid 1, by decide +kernel⟩,
   ⟨up, 3, by decide +kernel⟩,
   ⟨up.setChip F.eklOpticPresent 8, 3, by decide +kernel⟩,
   ⟨atTime { up.setChip F.eklOpticPresent 8 with pwr := { up.pwr with railsGood := 32 }, link := { up.link with presentAt := [(3, 1)] } } 100000000, 3, by decide +kernel⟩,
   ⟨atTime (up.setChip F.draining 1) 100000, by decide +kernel⟩,
   ⟨(((linked 15 Ls.up).setChip F.mapValid 1).set (routeB 16) F.routePv 1).set (routeB 16) F.routePri 15, 15, { msg 0x22 0 with dst := 16, src := 32 }, by decide +kernel⟩⟩

/-- States and operands that meet the hypotheses of `Obligations.InterruptsAreSentAndResent`, clause by clause. -/
theorem witness_InterruptsAreSentAndResent :
    (∃ s : State, ∃ port, let t := SMap.look 0 s.link.hostLost port; t ≠ 0 ∧ t + 1000000000 ≤ s.gcount + 1 ∧
      s.linkState port ≠ Ls.up) ∧
    (∃ s : State, ∃ tag o, s.link.out.find? (fun o => o.tag == tag && o.msg.vc == 0) = some o ∧
      o.at_ + 1000000 ≤ s.gcount) ∧
    (∃ vec, vec < 16392) :=
  ⟨⟨atTime { linked 1 Ls.down with link := { up.link with hostLost := [(1, 1)] } } 1000000000, 1, by decide +kernel⟩,
   ⟨atTime { up with link := { up.link with out := [{ ask 1 (.frame 5 0) with msg := { mtype := 1 } }] } } 1000000, 9, { ask 1 (.frame 5 0) with msg := { mtype := 1 } }, by decide +kernel⟩,
   ⟨16391, by decide +kernel⟩⟩

/-- States and operands that meet the hypotheses of `Obligations.EntryWritesAndTimersTakeEffect`, clause by clause. -/
theorem witness_EntryWritesAndTimersTakeEffect :
    (∃ s : State, ∃ coach slot, s.seqTable = true ∧ slot < 8192 ∧ s.seq slot Se.state ≠ Ss.free ∧
      s.seq slot Se.owner = coach) ∧
    (∃ s : State, ∃ coach slot, s.seqTable = true ∧ slot < 8192 ∧ s.seq slot Se.state ≠ Ss.free ∧
      s.seq slot Se.owner = coach) ∧
    (∃ s : State, ∃ coach slot, s.seqTable = true ∧ slot < 8192 ∧ s.seq slot Se.state ≠ Ss.free ∧
      s.seq slot Se.owner = coach) ∧
    (∃ s : State, ∃ slot, s.sb.ready.contains slot = true ∧ SMap.look [] s.sb.staged slot = [] ∧
      s.sb.staged.length < 2048) ∧
    (∃ s : State, ∃ slot, s.seq slot Se.deadline ≠ 0 ∧ s.seq slot Se.deadline ≤ s.gcount) ∧
    (∃ s : State, ∃ slot, s.seq slot Se.tier = Tr.cold ∧ s.seq slot Se.state ≠ Ss.free ∧
      s.seq slot Se.expiry ≠ 2 ^ 64 - 1 ∧ s.seq slot Se.expiry ≤ s.gcount) ∧
    (∃ s : State, s.gs.active = false ∧ s.log.hold = false) :=
  ⟨⟨live Ss.idle, 5, 8191, by decide +kernel⟩,
   ⟨live Ss.idle, 5, 8191, by decide +kernel⟩,
   ⟨live Ss.idle, 5, 8191, by decide +kernel⟩,
   ⟨{ live Ss.ready with sb := { up.sb with ready := [8191] } }, 8191, by decide +kernel⟩,
   ⟨atTime ((live Ss.running).setSeq 8191 Se.deadline 1) 1, 8191, by decide +kernel⟩,
   ⟨atTime (((live Ss.idle).setSeq 8191 Se.tier Tr.cold).setSeq 8191 Se.expiry 1) 1, 8191, by decide +kernel⟩,
   ⟨up, by decide +kernel⟩⟩

/-- Slot 8191 of coach 5 is READY for one token of graph 7, which has no attention layer (R224, R228). -/
def placeable : State :=
  let s := { live Ss.ready with graphs := [(7, some tiny)] }
  let s := ((s.setSeq 8191 Se.graph 7).setSeq 8191 Se.listlen 2).setSeq 8191 Se.kvfmt 2
  (s.setSeq 8191 Se.gen 1).setSeq 8191 Se.ntok 1
/-- A row of graph 7 in the step (R233). -/
def oneRow : Row := { slot := 8191, graph := 7, coach := 5, pos := 0, gen := 1, idx := 0, ntok := 1, last := false, decode := true }
/-- A dense carriage of one tile on engine 3 of logical core 0 (R253). -/
def dense : List Byte := fields [(1, 1), (1, 3), (4, 0), (2, 3), (12, 0), (2, 1), (1, 0), (1, 1), (104, 0)]
/-- A NOP carriage whose window is the first row group. -/
def nop : List Byte := fields [(1, 0x3F), (22, 0), (1, 1), (104, 0)]
/-- A step of one unit, whose only member is this carriage, with these rows; physical core 143 is logical core 0. -/
def stepOf (c : List Byte) (rows : List Row) : State :=
  { (((live Ss.running).set (coremapB 0) F.coremapPhys 143).set (coremapB 0) F.coremapValid 1).set (pcoreB 143) F.pcoreState 2 with
      graphs := [(7, some { tiny with carrs := [c] })]
      cores := [(143, { cleared := true })]
      gs := { up.gs with active := true, rows := rows, units := [{ graph := 7, members := [0] }] } }
/-- The GS may dispatch unit 0 of that step. -/
abbrev Dispatches (s : State) (u : UnitSt) (g : Graph) : Prop :=
  s.gs.active = true ∧ s.safe = false ∧ s.gs.held = false ∧ s.log.hold = false ∧ s.scanned = false ∧ s.pwr.holding = false
    ∧ s.nextUnit = some 0 ∧ s.gs.units[0]? = some u ∧ s.graph u.graph = some g
/-- A coach with a scheduled launch. -/
def scheduled (l : Launch) : State := { coachIn up 5 Cs.halted with coaches := [(5, { launch := some l })] }

/-- States and operands that meet the hypotheses of `Obligations.StepsAreBuiltAndDispatched`, clause by clause. -/
theorem witness_StepsAreBuiltAndDispatched :
    (∃ s : State, ∃ pages cs, s.log.hold = false ∧ s.gs.cut = some cs ∧ s.gs.active = true ∧
      (s.buildManifest cs pages).2 ≠ []) ∧
    (∃ s : State, ∃ pages, let r := s.takeCut.buildManifest (s.takeCut.gs.cut.getD []) pages; s.log.hold = false ∧
      s.gs.cut = none ∧ s.gs.active = false ∧ s.seqTable = true ∧ s.candidates ≠ [] ∧ r.2 ≠ []) ∧
    (∃ s : State, s.gs.active = true ∧ s.strictTime = true ∧ s.gs.quantum + 64 ≤ s.gcount) ∧
    (∃ s : State, ∃ c r k u, let w := s.qAwait (Qk.completion c.core) ((c :: r).filter fun x => x.core == c.core).length;
      let v := State.complBack { w with gs := { w.gs with complQ := r } } c.core; s.gs.complQ = c :: r ∧
      v.unitOf c.graph c.index = some k ∧ v.gs.units[k]? = some u ∧ c.step = v.gs.step ∧ c.attempt = u.attempt ∧
      u.out.contains c.index = true) ∧
    (∃ s : State, ∃ core k, s.gs.endQ.findIdx? (fun e => e.1 == core) = some k) ∧
    (∃ s : State, ∃ coach l, (s.coach coach).launch = some l ∧ l.started = false ∧ l.t ≤ s.gcount ∧
      s.coachState coach = Cs.halted ∧ s.safe = false) ∧
    (∃ s : State, ∃ coach l, (s.coach coach).launch = some l ∧ l.started = true ∧ l.p ≠ 0 ∧
      l.t + l.k * l.p ≤ s.gcount ∧ l.snap = []) ∧
    (∃ s u g, Dispatches s u g ∧ s.unitVoid u = true) ∧
    (∃ s u g, Dispatches s u g ∧ s.unitVoid u = false ∧
      u.members.all (fun i => Ca.kind (g.carrs.getD i []) == Kd.nop) = true) ∧
    (∃ s u g, Dispatches s u g ∧ s.unitVoid u = false ∧
      u.members.all (fun i => Ca.kind (g.carrs.getD i []) == Kd.nop) = false ∧
      (∃ i r, (if u.st = 0 then u.members else u.unsent) = i :: r ∧ s.memberReady u g.coach i = true)) :=
  ⟨⟨{ placeable with gs := { up.gs with active := true, cut := some [8191] } }, ([] : List Nat), [8191], by decide +kernel⟩,
   ⟨placeable, [], by decide +kernel⟩,
   ⟨atTime (armed (up.setChip F.effStrictTime 1)) 64, by decide +kernel⟩,
   ⟨{ stepOf dense [oneRow] with gs := { (stepOf dense [oneRow]).gs with complQ := [⟨7, 0, 0, 0, 0, 0, 0, 0, 0, 143⟩], units := [{ graph := 7, members := [0], out := [0] }] } }, ⟨7, 0, 0, 0, 0, 0, 0, 0, 0, 143⟩, [], 0, { graph := 7, members := [0], out := [0] }, by decide +kernel⟩,
   ⟨{ up with gs := { up.gs with endQ := [(143, 7, 0, 8)] } }, 143, 0, by decide +kernel⟩,
   ⟨scheduled { t := 0, p := 0 }, 5, { t := 0, p := 0 }, by decide +kernel⟩,
   ⟨scheduled { t := 0, p := 10000, started := true }, 5, { t := 0, p := 10000, started := true }, by decide +kernel⟩,
   ⟨stepOf dense [], { graph := 7, members := [0] }, { tiny with carrs := [dense] }, by decide +kernel⟩,
   ⟨stepOf nop [oneRow], { graph := 7, members := [0] }, { tiny with carrs := [nop] }, by decide +kernel⟩,
   ⟨stepOf dense [oneRow], { graph := 7, members := [0] }, { tiny with carrs := [dense] }, by decide +kernel, by decide +kernel, by decide +kernel, 0, [], by decide +kernel⟩⟩

/-- States and operands that meet the hypotheses of `Obligations.AuditsAndFieldTestsTakeEffect`, clause by clause. -/
theorem witness_AuditsAndFieldTestsTakeEffect :
    (∃ s : State, s.rom = Rom.running ∧ s.clocked = true ∧ s.scanned = false ∧ s.ledger.lastAt + 1000000 ≤ s.gcount) ∧
    (∃ s : State, s.ledger.running = true) ∧
    (∃ s : State, ∃ core, core < 144 ∧ s.chip F.ftCtrlEn ≠ 0 ∧ s.clocked = true ∧ (s.core core).due = none ∧
      (s.get (pcoreB core) F.pcoreState = 1 ∨ s.get (pcoreB core) F.pcoreState = 2) ∧
      (s.core core).lastTest + s.ftPeriod ≤ s.gcount) ∧
    (∃ s : State, ∃ core, core < 144 ∧ s.testsRun = true ∧ s.chip F.ftStatusTesting = 0xFF ∧ s.testable core = true ∧
      (∀ q < 144, s.testable q = true → 256 * (s.core core).due.getD 0 + core ≤ 256 * (s.core q).due.getD 0 + q)) ∧
    (∃ s : State, ∃ core t, core < 144 ∧ (s.core core).due = some t ∧ t + 100000000 ≤ s.gcount ∧
      s.get (pcoreB core) F.pcoreState = 2 ∧ s.get (pcoreB core) F.pcoreDeferred ≠ 1 ∧ s.testsRun = true) ∧
    (∃ s : State, ∃ core t, (s.core core).testAt = some t ∧ s.chip F.ftStatusTesting = core ∧ t + 1500000 ≤ s.gcount) ∧
    (∃ s : State, ∃ c r, s.log.cur = c :: r) ∧
    (∃ s : State, ∃ stack, stack < 8 ∧ s.trained stack = true) :=
  ⟨⟨atTime up 1000000, by decide +kernel⟩,
   ⟨{ up with ledger := { up.ledger with running := true } }, by decide +kernel⟩,
   ⟨atTime ((up.set (pcoreB 143) F.pcoreState 1).setChip F.ftCtrlEn 1) 600000000000, 143, by decide +kernel⟩,
   ⟨{ ((up.set (pcoreB 143) F.pcoreState 1).setChip F.ftCtrlEn 1).setChip F.ftStatusTesting 0xFF with cores := [(143, { due := some 0 })] }, 143, by decide +kernel⟩,
   ⟨atTime { (up.set (pcoreB 143) F.pcoreState 2).setChip F.ftCtrlEn 1 with cores := [(143, { due := some 0 })] } 100000000, 143, 0, by decide +kernel⟩,
   ⟨atTime { up.setChip F.ftStatusTesting 143 with cores := [(143, { due := some 0, testAt := some 0 })] } 1500000, 143, 0, by decide +kernel⟩,
   ⟨{ up with log := { up.log with cur := [{ cls := 7, sev := 2, cause := 0x80 }] } }, { cls := 7, sev := 2, cause := 0x80 }, [], by decide +kernel⟩,
   ⟨manyStacks up, 7, by decide +kernel⟩⟩

/-- A carriage of graph 7 in a core's TD, and the core's state around it. -/
def job (c : List Byte) : TdItem :=
  { step := 0, graph := 7, index := 0, coach := 5, row0 := 0, nrow := 1, pbase := 0, attempt := 0, pass := 0, carr := c, layer := tinyLayer }
def onCore (c : Core) : State := { stepOf dense [oneRow] with cores := [(143, c)] }
/-- Engine 3 of that core. -/
def engine (t : Te) (td : List TdItem) : State := onCore { td := td, te := [{}, {}, {}, t] }
def expander (x : Xe) (td : List TdItem) : State := onCore { td := td, xe := [{}, {}, {}, x] }
/-- One more than the key of that carriage. -/
def jobKey : Nat := 65536 * 7 + 1
/-- The last of two members of chain 3, and a cart for it (R77). -/
def second : List Byte := fields [(1, 1), (1, 3), (4, 0), (2, 3), (1, 1), (1, 1), (10, 0), (2, 1), (1, 0), (1, 1), (104, 0)]
/-- The middle one of three members of chain 3, whose next engine is engine 2 of the same core. -/
def middle : List Byte := fields [(1, 1), (1, 3), (4, 0), (2, 3), (1, 1), (1, 2), (2, 0x100), (8, 0), (2, 1), (1, 0), (1, 1), (104, 0)]
def bar : Cart := { chain := 3, group := 0, row := 0, qtr := 3, hop := 0, coach := 5, res := 0, sat := [], vals := [1, 2], graph := 7, src := 576 }
/-- A block of an expander that has arrived. -/
def block (crc : Nat) (payload : List Byte) : XBlock := { st := 2, entry := fields [(8, 0), (4, crc)], payload := payload }
def expanding (b : XBlock) : State := expander { carr := jobKey, load := 0, blocks := [b] } [job dense]
/-- A merge carriage of merge id 3, an attention layer of 64-token chunks, and partials of its second chunk (R177, R182). -/
def merge : List Byte := fields [(1, 0x21), (5, 0), (2, 3), (120, 0)]
def attnLayer : List Byte := leBytes 1 4 ++ List.replicate 47 0 ++ fields [(2, 1), (1, 0), (1, 1), (2, 0), (1, 1), (73, 0)]
def part : Partial := { row := 0, head := 0, chunk := 1, e := 0, l := 0, o := [] }
def merging (c : Core) : State :=
  let s := stepOf merge [{ oneRow with pos := 100 }]
  { s with cores := [(143, { c with td := [{ job merge with layer := attnLayer }] })] }

theorem error_of_some {ε α : Type} {x : Except ε α} {e : ε}
    (h : (match x with | .ok _ => none | .error e => some e) = some e) : x = .error e := by
  cases x <;> simp_all

/-- States and operands that meet the hypotheses of `Obligations.CarriagesAreAcceptedIssuedAndRetired`, clause by clause. -/
theorem witness_CarriagesAreAcceptedIssuedAndRetired :
    (∃ s : State, ∃ core t rest, (s.core core).disp = t :: rest ∧ (s.core core).cleared = true ∧
      (s.core core).td.length < 32 ∧ s.log.hold = false) ∧
    (∃ s : State, ∃ core idx t, s.item core idx = some t ∧ s.turn core idx = true) ∧
    (∃ s : State, ∃ core idx t, s.item core idx = some t ∧ s.finished core t = true) ∧
    (∃ s : State, ∃ core idx t, s.item core idx = some t ∧ t.start ≠ 0 ∧ t.start + 50000000 ≤ s.gcount + 1) :=
  ⟨⟨onCore { cleared := true, disp := [job dense] }, 143, job dense, [], by decide +kernel⟩,
   ⟨onCore { td := [job dense] }, 143, 0, job dense, by decide +kernel⟩,
   ⟨onCore { td := [job dense] }, 143, 0, job dense, by decide +kernel⟩,
   ⟨atTime (onCore { td := [{ job dense with start := 1 }] }) 50000000, 143, 0, { job dense with start := 1 }, by decide +kernel⟩⟩

/-- An engine that drains finds the next cart of its row on its link, and room on the link after it (R78). -/
abbrev Feeds (s : State) (core te : Nat) (found : EngFind) (n i : Nat) (t : TdItem) (c : Cart) (cs : List Cart) : Prop :=
  let a := (s.te core te).set n
  (s.te core te).draining = some n ∧ s.itemOf core a.carr = some (i, t) ∧ s.fed core t = c :: cs ∧ a.stage = 0 ∧ Ca.pos t.carr ≠ 0 ∧
    a.sent < 4 * a.rows.length ∧ (a.sent % 4 = 0 → 4 ≤ (s.fed core t).length) ∧
    ((Ca.pos t.carr == Ca.lenm1 t.carr) = false → s.linkRoom core t = true) ∧ (found.cause < 2 ∨ 5 < found.cause)
/-- The state in which that cart has left the link. -/
def drained (s : State) (core te : Nat) (found : EngFind) (n : Nat) (t : TdItem) (c : Cart) : State :=
  let k := (s.fed core t).length
  let u := (s.meet core found).bump (teB core te) F.teCycBstall found.barWait
  let v := if c.src = 0 then u
    else u.qAwait (Qk.drawbar (c.src - 1) (engineNo core te)) (if ((s.te core te).set n).sent % 4 = 0 then k - 3 else k)
  v.modTe core te fun x => { x with link := x.link.erase c }
/-- The cart is taken without a fault. -/
def cartRuns (core te : Nat) (found : EngFind) (n i : Nat) (t : TdItem) (c : Cart) (w : State) : Bool :=
  match (do
    if (Ca.pos t.carr == Ca.lenm1 t.carr) = true then tePort core te t found n (found.row % 64) false
    takeCart core te n i t c : Eng Unit) w with
  | .ok _ _ => true
  | .error _ _ => false

/-- States and operands that meet the hypotheses of `Obligations.TernaryEnginesTakeEffect`, clause by clause. -/
theorem witness_TernaryEnginesTakeEffect :
    (∃ s : State,
      ∃ core te y, let used (a : Tile) : Bool := (s.core core).td.any fun t => t.key + 1 == a.carr && t.todo.any fun z => z.load == some a.load;
      (s.te core te).shadow = some y ∧ (s.te core te).active.any used = false) ∧
    (∃ s : State, ∃ core te t, let waits (a : AccSet) : Bool := a.st != 0 && a.fmt != t.tag;
      (s.core core).td.find? (fun t => engineOf t.carr == te && Ca.isTe t.carr && t.todo != []) = some t ∧
      (s.te core te).fmt ≠ 0 ∧ (s.te core te).fmt ≠ t.tag ∧ waits (s.te core te).setA = false ∧
      waits (s.te core te).setB = false) ∧
    (∃ s : State, ∃ core te, (s.te core te).setA.st = 1 ∧ (s.te core te).setA.full = true) ∧
    (∃ s : State, ∃ core te, ((s.te core te).setA.st ≠ 1 ∨ (s.te core te).setA.full = false) ∧
      (s.te core te).setB.st = 1 ∧ (s.te core te).setB.full = true) ∧
    (∃ s : State, ∃ core te n i t, let a := (s.te core te).set n; (s.te core te).draining = none ∧
      ((n = 0 ∧ (s.te core te).setA.st = 2 ∧ ((s.te core te).setB.st ≠ 2 ∨ (s.te core te).setA.readyNo ≤ (s.te core te).setB.readyNo)) ∨ (n = 1 ∧ (s.te core te).setB.st = 2 ∧ ((s.te core te).setA.st ≠ 2 ∨ (s.te core te).setB.readyNo < (s.te core te).setA.readyNo))) ∧
      s.itemOf core a.carr = some (i, t)) ∧
    (∃ s : State, ∃ core te n, (s.te core te).draining = some n ∧
      4 * ((s.te core te).set n).rows.length ≤ ((s.te core te).set n).sent) ∧
    (∃ s : State, ∃ core te, ∃ found : EngFind, ∃ n i t c cs,
      let last := Ca.pos t.carr == Ca.lenm1 t.carr; Feeds s core te found n i t c cs ∧
      last = true ∧ cartRuns core te found n i t c (drained s core te found n t c) = true) ∧
    (∃ s : State, ∃ core te, ∃ found : EngFind, ∃ n i t c cs, Feeds s core te found n i t c cs ∧
      cartRuns core te found n i t c (drained s core te found n t c) = false) ∧
    (∃ s : State, ∃ core te, ∃ found : EngFind, ∃ n i t c cs, let last := Ca.pos t.carr == Ca.lenm1 t.carr;
      let w := drained s core te found n t c; Feeds s core te found n i t c cs ∧ last = false ∧ c.check t ((w.te core te).set n) = 0 ∧
      ((w.te core te).set n).sent % 4 ≠ 0) :=
  ⟨⟨engine { shadow := some ⟨jobKey, 0, []⟩, active := some ⟨jobKey + 1, 0, []⟩ } [job dense], 143, 3, ⟨jobKey, 0, []⟩, by decide +kernel⟩,
   ⟨engine { fmt := 3 } [{ job dense with todo := [{ load := some 0 }] }], 143, 3, { job dense with todo := [{ load := some 0 }] }, by decide +kernel⟩,
   ⟨engine { setA := { st := 1, full := true } } [], 143, 3, by decide +kernel⟩,
   ⟨engine { setB := { st := 1, full := true } } [], 143, 3, by decide +kernel⟩,
   ⟨engine { setB := { st := 2, carr := jobKey } } [job dense], 143, 3, 1, 0, job dense, by decide +kernel⟩,
   ⟨engine { setB := { st := 3, rows := [0], sent := 4 } } [], 143, 3, 1, by decide +kernel⟩,
   ⟨engine { setA := { st := 3, carr := jobKey, rows := [0], sent := 2 }, link := [{ bar with qtr := 2 }] } [job second], 143, 3, {}, 0, 0, job second, { bar with qtr := 2 }, [], by decide +kernel⟩,
   ⟨engine { setA := { st := 3, carr := jobKey, rows := [0], sent := 3 }, link := [{ bar with res := 1 }] } [job second], 143, 3, {}, 0, 0, job second, { bar with res := 1 }, [], by decide +kernel⟩,
   ⟨engine { setA := { st := 3, carr := jobKey, rows := [0], sent := 3 }, link := [bar] } [job middle], 143, 3, {}, 0, 0, job middle, bar, [], by decide +kernel⟩⟩

/-- States and operands that meet the hypotheses of `Obligations.ExpandersAndReadersTakeEffect`, clause by clause. -/
theorem witness_ExpandersAndReadersTakeEffect :
    (∃ s : State, ∃ core te idx t ld, s.item core idx = some t ∧ t.loads[t.begun]? = some ld ∧ Ca.isTe t.carr = true ∧
      Ca.te t.carr = te ∧ te < 4 ∧
      ((s.core core).td.take idx).any (fun u => Ca.isTe u.carr && Ca.te u.carr == te && decide (u.begun < u.loads.length)) = false ∧
      (s.xe core te).carr = 0 ∧ (s.te core te).shadow.isSome = false ∧ s.qRoom (Qk.tile core te) = true ∧
      (ld.staged = none → 8 ≤ s.descRoom core)) ∧
    (∃ s : State, ∃ core te i t b raw, let x := s.xe core te; let y := x.blocks.getD b {};
      s.itemOf core x.carr = some (i, t) ∧ x.blocks.findIdx? (fun z => z.st != 3) = some b ∧ y.st = 2 ∧
      expand y.entry y.payload (SMap.look {} s.tables (Ie.slot y.entry)).image = .ok raw ∧
      crc32c y.payload = Ie.crc y.entry) ∧
    (∃ s : State, ∃ core te i t b k f, let x := s.xe core te; let y := x.blocks.getD b {};
      s.itemOf core x.carr = some (i, t) ∧ x.blocks.findIdx? (fun z => z.st != 3) = some b ∧ y.st = 2 ∧
      expand y.entry y.payload (SMap.look {} s.tables (Ie.slot y.entry)).image = .error (k, f)) ∧
    (∃ s : State, ∃ core te i t b raw, let x := s.xe core te; let y := x.blocks.getD b {};
      s.itemOf core x.carr = some (i, t) ∧ x.blocks.findIdx? (fun z => z.st != 3) = some b ∧ y.st = 2 ∧
      expand y.entry y.payload (SMap.look {} s.tables (Ie.slot y.entry)).image = .ok raw ∧
      crc32c y.payload ≠ Ie.crc y.entry) ∧
    (∃ s : State, ∃ core idx ove tile t g, s.item core idx = some t ∧
      (s.core core).ge.find? (fun g => g.carr == t.key + 1 && g.ove == ove && g.tile == tile) = some g ∧
      g.carts.length < g.ncart ∧ g.carts.length < g.asked ∧ s.descRoom core ≠ 0 ∧
      s.cartLanded core t ove (g.ptr + 256 * g.carts.length) = true) ∧
    (∃ s : State,
      ∃ core, ∃ found : EngFind, ∃ c rest i t, let u := s.meet core found; let fits (t : TdItem) : Bool := Ca.isLe t.carr && t.graph == c.graph && Ca.chain t.carr == c.mid && t.step == c.step && t.attempt == c.attempt;
      (s.core core).pcarts = c :: rest ∧
      ((u.core core).td.findIdx? fun t => fits t && Ca.kind t.carr == Kd.merge).orElse (fun _ => (u.core core).td.findIdx? fits) = some i ∧
      u.item core i = some t ∧ found.port ≠ 1 ∧ found.cause ≠ 0x33 ∧ u.partialOk core t c = true) ∧
    (∃ s : State, ∃ core idx pick t x, s.item core idx = some t ∧ (s.mergeOf core t).parts[pick]? = some x ∧
      Ca.isLe t.carr = true ∧ s.mayFold (s.mergeOf core t) pick x = true) :=
  ⟨⟨onCore { td := [{ job dense with loads := [⟨0, 0, 0, 0, none, 0, none, 0⟩] }] }, 143, 3, 0, { job dense with loads := [⟨0, 0, 0, 0, none, 0, none, 0⟩] }, ⟨0, 0, 0, 0, none, 0, none, 0⟩, by decide +kernel⟩,
   ⟨expanding (block 0xE3069283 [0x31, 0x32, 0x33, 0x34, 0x35, 0x36, 0x37, 0x38, 0x39]), 143, 3, 0, job dense, 0, [0x31, 0x32, 0x33, 0x34, 0x35, 0x36, 0x37, 0x38, 0x39], ⟨by decide +kernel, by decide +kernel, by decide +kernel, ok_of_toOption (by decide +kernel), by decide +kernel⟩⟩,
   ⟨expanding (block 0 [243]), 143, 3, 0, job dense, 0, 0x12, 0, ⟨by decide +kernel, by decide +kernel, by decide +kernel, error_of_some (by decide +kernel)⟩⟩,
   ⟨expanding (block 0 [242]), 143, 3, 0, job dense, 0, [242], ⟨by decide +kernel, by decide +kernel, by decide +kernel, ok_of_toOption (by decide +kernel), by decide +kernel⟩⟩,
   ⟨onCore { td := [job dense], ge := [{ carr := jobKey, ove := 16383, tile := 1023, ncart := 1, nnz := 1, ptr := 0, asked := 1 }] }, 143, 0, 16383, 1023, job dense, { carr := jobKey, ove := 16383, tile := 1023, ncart := 1, nnz := 1, ptr := 0, asked := 1 }, by decide +kernel⟩,
   ⟨merging { pcarts := [⟨7, 0, 0, 3, 5, 1, part⟩] }, 143, {}, ⟨7, 0, 0, 3, 5, 1, part⟩, [], 0, { job merge with layer := attnLayer }, by decide +kernel⟩,
   ⟨merging { merges := [{ graph := 7, mid := 3, parts := [part] }] }, 143, 0, 0, { job merge with layer := attnLayer }, part, by decide +kernel⟩⟩

/-- The state that an outcome leads to, where it is a next state. -/
def nextState : Host.Outcome State Fault Refusal → State
  | .next t => t
  | _ => State.reset

def runs : Host.Outcome State Fault Refusal → Bool
  | .next _ => true
  | _ => false

theorem next_of_runs {o : Host.Outcome State Fault Refusal} (h : runs o = true) : o = .next (nextState o) := by
  cases o <;> simp_all [runs, nextState]

/-- A descriptor of the carriage of `job`, and a chunk of it. -/
def desc (op : Nat) : Desc := { op := op, aspace := 0, coach := 5, len := 32, spm := 0, mem := 0, graph := 7, index := 0 }
def chunk (op : Nat) (a : Option (Nat × List Byte)) : Tag := { desc := desc op, off := 0, len := 32, answer := a }
/-- The 32 bytes of a read. -/
def line : List Byte := List.replicate 32 0xA5
/-- The payload of a block for the expander of engine 3. -/
def payload : Tag := { desc := { desc 4 with te := 3 }, off := 0, len := 32, answer := some (0, line) }
/-- A chunk that the controllers have not served. -/
def awaited (op : Nat) : Tag := { chunk op none with pieces := [(0, 32)] }
/-- The ROM is in a state. -/
def romIn (st : Nat) : State := up.setChip F.bootStatusState st

/-- States and operands that meet the hypotheses of `Obligations.DmaAndScratchpadTakeEffect`, clause by clause. -/
theorem witness_DmaAndScratchpadTakeEffect :
    (∃ s : State, ∃ core w rest, (s.core core).nbr = w :: rest) ∧
    (∃ s : State, ∃ core bank, core < 144 ∧ bank < 32 ∧ (s.core core).cleared = true) ∧
    (∃ s : State, ∃ core, core < 144 ∧ (s.core core).cleared = false) ∧
    (∃ s : State, ∃ core d rest, (s.core core).dmaQ = d :: rest ∧ (d.op = 2 ∨ d.op = 3 ∨ (s.core core).tags.length < 64) ∧
      s.descItem core d = none) ∧
    (∃ s : State, ∃ core d rest i t, (s.core core).dmaQ = d :: rest ∧ (d.op = 2 ∨ d.op = 3 ∨ (s.core core).tags.length < 64) ∧
      s.descItem core d = some (i, t)) ∧
    (∃ s : State, ∃ core tag e data i t, (s.core core).tags.find? (·.1 == tag) = some e ∧
      e.2.answer = some (Sc.ok, data) ∧ e.2.desc.op ≠ 1 ∧ data ≠ [] ∧ s.descItem core e.2.desc = some (i, t) ∧
      ∀ tile, chunkFlt core t e.2.desc Sc.ok tile = none) ∧
    (∃ s : State, ∃ core tag e data, (s.core core).tags.find? (·.1 == tag) = some e ∧
      e.2.answer = some (Sc.ok, data) ∧ e.2.desc.op ≠ 1 ∧ data ≠ [] ∧ (e.2.desc.op ≠ 4 ∨ 4 ≤ e.2.desc.te) ∧
      s.descItem core e.2.desc = none) ∧
    (∃ s : State, ∃ core tag e data, (s.core core).tags.find? (·.1 == tag) = some e ∧
      e.2.answer = some (Sc.ok, data) ∧ e.2.desc.op ≠ 1 ∧ data ≠ [] ∧ e.2.desc.op = 4 ∧ e.2.desc.te < 4 ∧
      s.descItem core e.2.desc = none) ∧
    (∃ s : State, ∃ core tag e data i t, (s.core core).tags.find? (·.1 == tag) = some e ∧
      e.2.answer = some (Sc.ok, data) ∧ e.2.desc.op = 1 ∧ s.descItem core e.2.desc = some (i, t) ∧
      ∀ tile, chunkFlt core t e.2.desc Sc.ok tile = none) ∧
    (∃ s : State, ∃ core tag e data, (s.core core).tags.find? (·.1 == tag) = some e ∧
      e.2.answer = some (Sc.ok, data) ∧ e.2.desc.op = 1 ∧ s.descItem core e.2.desc = none) :=
  ⟨⟨onCore { nbr := [⟨0, line, 5, 142, jobKey⟩] }, 143, ⟨0, line, 5, 142, jobKey⟩, [], by decide +kernel⟩,
   ⟨onCore { cleared := true }, 143, 31, by decide +kernel⟩,
   ⟨onCore {}, 143, by decide +kernel⟩,
   ⟨onCore { dmaQ := [desc 2] }, 143, desc 2, [], by decide +kernel⟩,
   ⟨onCore { dmaQ := [desc 1], td := [job dense] }, 143, desc 1, [], 0, job dense, by decide +kernel⟩,
   ⟨onCore { tags := [(63, chunk 0 (some (0, line)))], td := [job dense] }, 143, 63, (63, chunk 0 (some (0, line))), line, 0, job dense, by decide +kernel, by decide +kernel, by decide +kernel, by decide +kernel, by decide +kernel, fun _ => rfl⟩,
   ⟨onCore { tags := [(63, chunk 0 (some (0, line)))] }, 143, 63, (63, chunk 0 (some (0, line))), line, by decide +kernel⟩,
   ⟨onCore { tags := [(63, payload)] }, 143, 63, (63, payload), line, by decide +kernel⟩,
   ⟨onCore { tags := [(63, chunk 1 (some (0, [])))], td := [job dense] }, 143, 63, (63, chunk 1 (some (0, []))), [], 0, job dense, by decide +kernel, by decide +kernel, by decide +kernel, by decide +kernel, fun _ => rfl⟩,
   ⟨onCore { tags := [(63, chunk 1 (some (0, [])))] }, 143, 63, (63, chunk 1 (some (0, []))), [], by decide +kernel⟩⟩

/-- States and operands that meet the hypotheses of `Obligations.MemoryRequestsAreServed`, clause by clause. -/
theorem witness_MemoryRequestsAreServed :
    (∃ s : State, ∃ mc pc addr, let n := SMap.look 0 s.hbm.patrol (64 * mc + pc) + 1;
      let wrap := decide (20971520 ≤ n); let b := s.bump (mcB mc) F.mcScrubLines;
      let patrol := SMap.put 0 b.hbm.patrol (64 * mc + pc) (if wrap then 0 else n);
      let corrected := if wrap then SMap.dropRange b.hbm.corrected (rowKey mc pc 0) (rowKey mc (pc + 1) 0) else b.hbm.corrected;
      let u : State := { b with hbm := { b.hbm with patrol := patrol, corrected := corrected } }; let l := addr / 64;
      mc < 8 ∧ pc < 64 ∧ s.trained mc = true ∧ s.get (mcB mc) F.mcSelfref ≠ 1 ∧ s.stackHeld mc = false ∧
      (u.regionAt (64 * l)).isSome = true ∧ u.place (64 * l) = (mc, pc)) ∧
    (∃ s : State, ∃ mc pc, mc < 8 ∧ pc < 64 ∧ s.trained mc = true ∧ s.get (mcB mc) F.mcSelfref ≠ 1 ∧ s.stackHeld mc = false) ∧
    (∃ s : State, ∃ region, (region ≠ 0 ∨ (s.syncDone region).rom ≠ Rom.start)) ∧
    (∃ s : State, ∃ l r rest, s.hbm.rebuild = (l, r) :: rest) ∧
    (∃ s : State, let n := s.chip F.pmInterval; n ≠ 0 ∧ s.hbm.pmStart + n ≤ s.gcount) ∧
    (∃ s : State, ∃ coach, s.coachState coach ≠ Cs.vacant ∧ (s.tableEntries coach 1).any (fun a => s.poisoned a 8) = true) ∧
    (∃ s : State, ∃ coach, s.coachState coach ≠ Cs.vacant ∧ (s.tableEntries coach 1).any (fun a => s.poisoned a 8) = false) ∧
    (∃ s : State, ∃ core tag e, (s.core core).tags.find? (·.1 == tag) = some e ∧ e.2.answer = none ∧
      e.2.desc.aspace ≠ 2 ∧ e.2.pieces ≠ [] ∧ (e.2.pieces.any fun x => s.rangeHeld x.1 x.2) = false ∧
      (e.2.pieces.any fun x => (s.unmapped x.1 x.2).isNone && !s.mayStartAll x.1 x.2 (s.qosOf e.2.desc.coach)) = false ∧ e.2.desc.op = 1) ∧
    (∃ s : State, ∃ core tag e, (s.core core).tags.find? (·.1 == tag) = some e ∧ e.2.answer = none ∧
      e.2.desc.aspace ≠ 2 ∧ e.2.pieces ≠ [] ∧ (e.2.pieces.any fun x => s.rangeHeld x.1 x.2) = false ∧
      (e.2.pieces.any fun x => (s.unmapped x.1 x.2).isNone && !s.mayStartAll x.1 x.2 (s.qosOf e.2.desc.coach)) = false ∧ e.2.desc.op ≠ 1) ∧
    (∃ s : State, ∃ req : FineReq, let x := s.place (req.addr / 32 * 32); s.rangeHeld req.addr 1 = false ∧
      (s.hbm.fineQ.countP fun e => e.1 == 64 * x.1 + x.2) < 8 ∧ s.qRoom (fineQueue x.1) = true ∧ s.bulkWaits x.1 x.2 = true) ∧
    (∃ s : State, ∃ req : FineReq, let x := s.place (req.addr / 32 * 32); s.rangeHeld req.addr 1 = false ∧
      (s.hbm.fineQ.countP fun e => e.1 == 64 * x.1 + x.2) < 8 ∧ s.qRoom (fineQueue x.1) = true ∧ s.bulkWaits x.1 x.2 = false) ∧
    (∃ s : State, ∃ req : AddReq, s.rangeHeld req.addr 1 = false) :=
  ⟨⟨manyStacks (region up 0 0 1), 0, 0, 0, by decide +kernel⟩,
   ⟨manyStacks up, 7, 63, by decide +kernel⟩,
   ⟨up, 63, by decide +kernel⟩,
   ⟨{ up with hbm := { up.hbm with rebuild := [(0, 0)] } }, 0, 0, [], by decide +kernel⟩,
   ⟨atTime (up.setChip F.pmInterval 1000) 1000, by decide +kernel⟩,
   ⟨{ manyStacks (region (coachIn up 4095 Cs.running) 0 0 1) with hbm := { up.hbm with bad := [(0, 3)] } }, 4095, by decide +kernel⟩,
   ⟨manyStacks (region (coachIn up 4095 Cs.running) 0 0 1), 4095, by decide +kernel⟩,
   ⟨onCore { tags := [(63, awaited 1)] }, 143, 63, (63, awaited 1), by decide +kernel⟩,
   ⟨onCore { tags := [(63, awaited 0)] }, 143, 63, (63, awaited 0), by decide +kernel⟩,
   ⟨{ manyStacks (region up 0 0 1) with cores := [(143, { tags := [(63, awaited 0)] })] }, ⟨32, 16, none⟩, by decide +kernel⟩,
   ⟨manyStacks (region up 0 0 1), ⟨32, 16, some line⟩, by decide +kernel⟩,
   ⟨manyStacks (region up 0 0 1), { addr := 32, cls := 16, ty := 0, mask := 1, ret := true, data := line }, by decide +kernel⟩⟩

/-- States and operands that meet the hypotheses of `Obligations.HandoversAndWarmResetsTakeEffect`, clause by clause. -/
theorem witness_HandoversAndWarmResetsTakeEffect :
    (∃ s : State, s.mpUp = true ∧ s.chip F.handover ≠ 0 ∧ s.boot.phase = 0) ∧
    (∃ s : State, s.boot.phase = 3) ∧
    (∃ s : State, s.boot.phase ≠ 3 ∧ s.rom = Rom.start ∧ s.boot.warm = true) ∧
    (∃ s : State, s.rom = Rom.running ∧ s.chip F.mpDown ≠ 1 ∧ s.clocked = true ∧ s.scanned = false ∧
      s.log.hold = false ∧ s.boot.phase = 0) ∧
    (∃ s : State, s.rom = Rom.running ∧ s.chip F.mpDown ≠ 0 ∧ s.boot.mpDownAt + 250000000 ≤ s.gcount ∧
      s.log.hold = false ∧ s.clocked = true ∧ s.scanned = false) ∧
    (∃ s : State, s.chip F.clkStatusSrc ≠ 4) ∧
    (∃ s : State, s.rom = Rom.running ∧ s.log.hold = false ∧ s.clocked = true ∧ s.scanned = false) ∧
    (∃ s : State, s.log.hold = true ∧ s.rom = Rom.running) :=
  ⟨⟨up.setChip F.handover 1, by decide +kernel⟩,
   ⟨{ up with boot := { up.boot with phase := 3 } }, by decide +kernel⟩,
   ⟨{ romIn Rom.start with boot := { up.boot with warm := true } }, by decide +kernel⟩,
   ⟨up, by decide +kernel⟩,
   ⟨atTime (up.setChip F.mpDown 1) 250000000, by decide +kernel⟩,
   ⟨up, by decide +kernel⟩,
   ⟨up, by decide +kernel⟩,
   ⟨{ up with log := { up.log with hold := true } }, by decide +kernel⟩⟩

/-- States and operands that meet the hypotheses of `Obligations.StandAndShutdownTakeEffect`, clause by clause. -/
theorem witness_StandAndShutdownTakeEffect :
    (∃ s : State, s.pwr.entry = 1 ∧ s.chip F.pwrStatusState = 1 ∧ s.chip F.drained ≠ 0 ∧
      s.chip F.ftStatusTesting = 0xFF ∧ s.mpUp = true) ∧
    (∃ s : State, s.pwr.entry = 2 ∧ s.clocked = true ∧ s.log.hold = false) ∧
    (∃ s : State, s.chip F.pwrStatusState = 2 ∧ s.chip F.drained ≠ 0 ∧ s.chip F.ftStatusTesting = 0xFF ∧
      s.mpUp = true) ∧
    (∃ s : State, s.chip F.clkStatusSrc = 4) :=
  ⟨⟨{ ((up.setChip F.pwrStatusState 1).setChip F.drained 1).setChip F.ftStatusTesting 0xFF with pwr := { up.pwr with entry := 1 } }, by decide +kernel⟩,
   ⟨{ up with pwr := { up.pwr with entry := 2 } }, by decide +kernel⟩,
   ⟨((up.setChip F.pwrStatusState 2).setChip F.drained 1).setChip F.ftStatusTesting 0xFF, by decide +kernel⟩,
   ⟨up.setChip F.clkStatusSrc 4, by decide +kernel⟩⟩

/-- States and operands that meet the hypotheses of `Obligations.StartUpAndClocksTakeEffect`, clause by clause. -/
theorem witness_StartUpAndClocksTakeEffect :
    (∃ s : State, s.pwr.pwrgd = false) ∧
    (∃ s : State, s.pwr.pwrgd = true) ∧
    (∃ s : State, s.pwr.poreset = false) ∧
    (∃ s : State, s.pwr.poreset = true) ∧
    (∃ s : State, ∃ rail, s.ramping rail = true ∧ rail ≠ 5) ∧
    (∃ s : State, ∃ rail, s.ramping rail = true) ∧
    (∃ s : State, s.chip F.clkStatusSrc = 1 ∧ s.pwr.delayDone = false) ∧
    (∃ s : State, s.chip F.clkStatusSrc = 2) ∧
    (∃ s : State, ∃ xtalOk locked, s.chip F.clkStatusSrc = 2 ∧ (xtalOk && locked) = false ∧ s.pwr.retries < 3) ∧
    (∃ s : State, s.chip F.clkStatusSrc = 3) ∧
    (∃ s : State, s.clocked = true ∧ s.chip F.ioscTrimAuto ≠ 0 ∧ s.trimSource ≠ 0) :=
  ⟨⟨{ up with pwr := { up.pwr with pwrgd := false } }, by decide +kernel⟩,
   ⟨up, by decide +kernel⟩,
   ⟨up, by decide +kernel⟩,
   ⟨{ up with pwr := { up.pwr with poreset := true } }, by decide +kernel⟩,
   ⟨{ up.setChip F.clkStatusSrc 1 with pwr := { up.pwr with railsGood := 0 } }, 7, by decide +kernel⟩,
   ⟨up, 5, by decide +kernel⟩,
   ⟨up.setChip F.clkStatusSrc 1, by decide +kernel⟩,
   ⟨up.setChip F.clkStatusSrc 2, by decide +kernel⟩,
   ⟨{ up.setChip F.clkStatusSrc 2 with pwr := { up.pwr with retries := 2 } }, true, false, by decide +kernel⟩,
   ⟨up, by decide +kernel⟩,
   ⟨(up.setChip F.refclkPresent 1).setChip F.ioscTrimAuto 1, by decide +kernel⟩⟩

/-- States and operands that meet the hypotheses of `Obligations.SupplyAndHeatTakeEffect`, clause by clause. -/
theorem witness_SupplyAndHeatTakeEffect :
    (∃ s : State, ∃ mv, mv < 11400 ∧ s.clocked = true) ∧
    (∃ s : State, ∃ mv, mv < 10800 ∧ s.chip F.clkStatusSrc = 4) ∧
    (∃ s : State, ∃ mv, mv < 10800 ∧ s.chip F.clkStatusSrc ≠ 4) ∧
    (∃ s : State, s.clocked = true) ∧
    (∃ s : State, s.clocked = true) ∧
    (∃ s : State, s.clocked = true ∧ s.pwr.windowAt ≠ s.gcount / 64000 + 1) ∧
    (∃ s : State, s.clocked = true ∧ s.pwr.windowAt = s.gcount / 64000 + 1 ∧
      decide (1000 * s.chip F.duty ≤ s.gcount % 64000) = true) :=
  ⟨⟨up, 11399, by decide +kernel⟩,
   ⟨up.setChip F.clkStatusSrc 4, 10799, by decide +kernel⟩,
   ⟨up, 10799, by decide +kernel⟩,
   ⟨up, by decide +kernel⟩,
   ⟨up, by decide +kernel⟩,
   ⟨up, by decide +kernel⟩,
   ⟨{ up with pwr := { up.pwr with windowAt := 1 } }, by decide +kernel⟩⟩

/-- States and operands that meet the hypotheses of `Obligations.JtagInstructionsTakeEffect`, clause by clause. -/
theorem witness_JtagInstructionsTakeEffect :
    (∃ s : State, s.pwr.poreset = true) ∧
    (∃ s : State, s.pwr.poreset = false) :=
  ⟨⟨{ up with pwr := { up.pwr with poreset := true } }, by decide +kernel⟩,
   ⟨up, by decide +kernel⟩⟩

/-- The scan chain is in a state (R451). -/
def scanIn (st : Nat) : State := up.setChip F.scanCtrlState st
/-- The button of the device has been held since a time. -/
def pressed (t : Nat) (taken : Bool) : State :=
  { up.setChip F.btnEn 1 with svc := { up.svc with pressedAt := some t, holdTaken := taken } }

/-- States and operands that meet the hypotheses of `Obligations.ScanAndFusesTakeEffect`, clause by clause. -/
theorem witness_ScanAndFusesTakeEffect :
    (∃ s : State, s.fuses.scanLock = 1) ∧
    (∃ s : State, s.fuses.scanLock ≠ 1 ∧ (s.tap 6 0 0).scanned = false ∧ (s.tap 6 0 0).clocked = true) ∧
    (∃ s : State, s.chip F.scanCtrlState = 1) ∧
    (∃ s : State, ∃ a, s.chip F.scanCtrlState = 2 ∧ a < 144) ∧
    (∃ s : State, ∃ a b c, s.chip F.scanCtrlState = 2 ∧ a < 8 ∧ b < 64 ∧ c < 1310720) ∧
    (∃ s : State, s.chip F.scanCtrlState ≠ 2) ∧
    (∃ s : State, ∃ kind a b c t, exec (.fuseProg kind a b c) s = .next t ∧ s.chip F.scanCtrlState ≠ 2) :=
  ⟨⟨{ up with fuses := { up.fuses with scanLock := 1 } }, by decide +kernel⟩,
   ⟨up, by decide +kernel⟩,
   ⟨scanIn 1, by decide +kernel⟩,
   ⟨scanIn 2, 143, by decide +kernel⟩,
   ⟨scanIn 2, 7, 63, 1310719, by decide +kernel⟩,
   ⟨up, by decide +kernel⟩,
   ⟨up, 0, 0, 0, 0, nextState (exec (.fuseProg 0 0 0 0) up), ⟨next_of_runs (by decide +kernel), by decide +kernel⟩⟩⟩

/-- States and operands that meet the hypotheses of `Obligations.SidebandTakesEffect`, clause by clause. -/
theorem witness_SidebandTakesEffect :
    (∃ s : State, bit s.pwr.railsGood 3 = true ∧ s.chip F.clkStatusSrc ≠ 4 ∧ s.pwr.entry ≠ 2) ∧
    (∃ s : State, bit s.pwr.railsGood 3 = true ∧ s.chip F.clkStatusSrc ≠ 4 ∧ s.pwr.entry ≠ 2) ∧
    (∃ s : State, ∃ addr, bit s.pwr.railsGood 3 = true ∧ s.chip F.clkStatusSrc = 3 ∧ s.pwr.entry ≠ 2 ∧ addr % 8 = 0 ∧
      sbRange addr = true ∧ s.pwr.shut = false ∧ (addr < 0x402000 ∨ 0x402400 ≤ addr)) ∧
    (∃ s : State, ∃ off, ∃ data : List Byte, bit s.pwr.railsGood 3 = true ∧ s.chip F.clkStatusSrc = 3 ∧
      s.pwr.entry ≠ 2 ∧ s.pwr.shut = false ∧ data ≠ [] ∧ data.length ≤ 30 ∧ off + data.length ≤ 0x200) ∧
    (∃ s : State, s.svc.causes ≠ 0 ∧ s.chip F.clkStatusSrc ≠ 4 ∧ bit s.pwr.railsGood 3 = true) :=
  ⟨⟨up, by decide +kernel⟩,
   ⟨up, by decide +kernel⟩,
   ⟨up, 0x3000, by decide +kernel⟩,
   ⟨up, 0x1E2, List.replicate 30 1, by decide +kernel⟩,
   ⟨{ up with svc := { up.svc with causes := 1 } }, by decide +kernel⟩⟩

/-- States and operands that meet the hypotheses of `Obligations.ServiceAndRegisterWritesTakeEffect`, clause by clause. -/
theorem witness_ServiceAndRegisterWritesTakeEffect :
    (∃ s : State, s.buttonOn = true ∧ s.svc.pressedAt = none) ∧
    (∃ s : State, ∃ t, s.svc.pressedAt = some t ∧ s.svc.holdTaken = true) ∧
    (∃ s : State, ∃ t, let svc := { s.svc with pressedAt := none, holdTaken := false };
      let u := State.setChip { s with svc := svc } F.svcStatusButton 0; s.svc.pressedAt = some t ∧
      s.svc.holdTaken = false ∧ u.buttonOn = true ∧ 50000000 ≤ s.gcount - t ∧ s.gcount - t ≤ 1000000000) ∧
    (∃ s : State, ∃ t, s.svc.pressedAt = some t ∧ s.svc.holdTaken = false ∧ s.buttonOn = true ∧
      t + 3000000000 ≤ s.gcount) ∧
    (∃ s : State, ∃ port, port < 16 ∧ s.clocked = true) ∧
    (∃ s : State, ∃ stack, stack < 8 ∧ s.clocked = true) ∧
    (∃ s : State, ∃ stack, stack < 8 ∧ SMap.look 0 s.hbm.lbEnd stack ≤ s.gcount) ∧
    (∃ s : State, s.clocked = true) ∧
    (∃ s : State, s.clocked = true) ∧
    (∃ coach off, coach < 4096 ∧ isRwh off = true) ∧
    (∃ s : State, ∃ coach addr, s.clocked = true ∧ addr % 8 = 0 ∧ coach < 4096) :=
  ⟨⟨up.setChip F.btnEn 1, by decide +kernel⟩,
   ⟨pressed 0 true, 0, by decide +kernel⟩,
   ⟨atTime (pressed 0 false) 1000000000, 0, by decide +kernel⟩,
   ⟨atTime (pressed 0 false) 3000000000, 0, by decide +kernel⟩,
   ⟨up, 15, by decide +kernel⟩,
   ⟨up, 7, by decide +kernel⟩,
   ⟨up, 7, by decide +kernel⟩,
   ⟨up, by decide +kernel⟩,
   ⟨up, by decide +kernel⟩,
   ⟨4095, 0x430, by decide +kernel⟩,
   ⟨up, 4095, 0x2700, by decide +kernel⟩⟩

/-- States and operands that meet the hypotheses of `Obligations.HostCommandsAreTakenAndChecked`, clause by clause. -/
theorem witness_HostCommandsAreTakenAndChecked :
    (∃ i op box s, hostCommand i = some (op, box) ∧ ¬ Taken s op box) ∧
    (∃ i op box s, Canonical s ∧ hostCommand i = some (op, box) ∧ Taken s op box ∧
      ((s.taken box).noPlace box = true ∨ (1 ≤ s.chip F.pwrStatusState ∧ s.chip F.pwrStatusState ≤ 2 ∧ op ≠ 0x0001 ∧ op ≠ 0x000C))) ∧
    (∃ i op box s st, Canonical s ∧ hostCommand i = some (op, box) ∧ Taken s op box ∧
      (s.taken box).noPlace box = false ∧
      (s.chip F.pwrStatusState = 0 ∨ 2 < s.chip F.pwrStatusState ∨ op = 0x0001 ∨ op = 0x000C) ∧
      (s.taken box).cmdCheck (s.cmd box) = some st) :=
  ⟨⟨.getInfo 0, 1, 0, up, by simp only [Taken]; decide +kernel⟩,
   ⟨.setRole 0, 2, 0, put (up.setChip F.pwrStatusState 2) 0 0x0002 0 [(1, 2)], by simp only [Taken, Canonical]; decide +kernel⟩,
   ⟨.coachDestroy 21, 0x0102, 21, put (coachIn up 5 Cs.halted) 21 0x0102 5 [], Sc.denied, by simp only [Taken, Canonical]; decide +kernel⟩⟩

/-- States and operands that meet the hypotheses of `Obligations.StoresReachOnlyTheirBytes`, clause by clause. -/
theorem witness_StoresReachOnlyTheirBytes :
    (∃ s : State, ∃ t req, ∃ found : MemFind, ∃ x, let p := s.place (req.addr / 32 * 32);
      Canonical s ∧ exec (.mcFineRequest req found) s = .next t ∧
      (∀ e ∈ s.hbm.fineQ ++ [(64 * p.1 + p.2, req, found)], e.1 = 64 * p.1 + p.2 → e.2.1.write.isSome = true →
        x < e.2.1.addr / 32 * 32 ∨ e.2.1.addr / 32 * 32 + 32 ≤ x)) ∧
    (∃ s : State, ∃ t core w rest, ∃ x, Canonical s ∧ (s.core core).nbr = w :: rest ∧
      exec (.nbrWriteRx core) s = .next t ∧
      (x < spmKey core (256 * (w.off / 256)) ∨ spmKey core (256 * ((w.off + w.data.length - 1) / 256 + 1)) ≤ x ∨ w.data = [])) ∧
    (∃ s : State, ∃ t off data pecOk, ∃ x, Canonical s ∧ exec (.sbMailboxWrite off data pecOk) s = .next t ∧
      (x < 0x402000 + off ∨ 0x402000 + off + data.length ≤ x)) ∧
    (∃ s : State, ∃ t box, ∃ x, Canonical s ∧ Served s 0x0001 box ∧ exec (.getInfo box) s = .next t ∧
      x ≠ boxB box + 3 ∧ (x < boxB box + 0x200 ∨ boxB box + 0x400 ≤ x)) :=
  ⟨⟨manyStacks (region up 0 0 1), nextState (exec (.mcFineRequest ⟨32, 16, some line⟩ {}) (manyStacks (region up 0 0 1))), ⟨32, 16, some line⟩, {}, 64, by simp only [Canonical]; exact ⟨by decide +kernel, next_of_runs (by decide +kernel), by decide +kernel⟩⟩,
   ⟨onCore { nbr := [⟨0, line, 5, 142, jobKey⟩] }, nextState (exec (.nbrWriteRx 143) (onCore { nbr := [⟨0, line, 5, 142, jobKey⟩] })), 143, ⟨0, line, 5, 142, jobKey⟩, [], 0, by simp only [Canonical]; exact ⟨by decide +kernel, by decide +kernel, next_of_runs (by decide +kernel), by decide⟩⟩,
   ⟨up, nextState (exec (.sbMailboxWrite 0 [1, 1] true) up), 0, [1, 1], true, 0x402002, by simp only [Canonical]; exact ⟨by decide +kernel, next_of_runs (by decide +kernel), by decide⟩⟩,
   ⟨put up 0 0x0001 0 [], nextState (exec (.getInfo 0) (put up 0 0x0001 0 [])), 0, 0x400400, by simp only [Canonical, Served]; exact ⟨by decide +kernel, by decide +kernel, next_of_runs (by decide +kernel), by decide, by decide⟩⟩⟩

/-- States and operands that meet the hypotheses of `Obligations.WritesOfStrangersAreDiscarded`, clause by clause. -/
theorem witness_WritesOfStrangersAreDiscarded :
    (∃ s : State, ∃ coach slot, s.seqTable = true ∧
      (8192 ≤ slot ∨ s.seq slot Se.state = Ss.free ∨ s.seq slot Se.owner ≠ coach)) ∧
    (∃ s : State, ∃ coach off, s.regs.wf = true ∧ coach < 4096 ∧ isRwh off = true ∧ s.coachState coach ≠ Cs.halted) :=
  ⟨⟨live Ss.idle, 6, 8191, by decide +kernel⟩,
   ⟨coachIn up 4095 Cs.running, 4095, 0x418, by decide +kernel⟩⟩

/-- States and operands that meet the hypotheses of `Obligations.SmallEventsKeepOtherRegisters`, clause by clause. -/
theorem witness_SmallEventsKeepOtherRegisters :
    (∃ s : State, ∃ t core te, ∃ a, s.regs.wf = true ∧ exec (.tileSwap core te) s = .next t ∧
      a ≠ teB core te + F.teTiles.off) ∧
    (∃ s : State, ∃ t core te, ∃ a, s.regs.wf = true ∧ exec (.teFormatBarrierEnd core te) s = .next t ∧
      a ≠ qB core + F.qFmtBarriers.off) ∧
    (∃ s : State, ∃ t core, ∃ a, s.regs.wf = true ∧ exec (.ftDefer core) s = .next t ∧ a ≠ pcoreB core ∧
      a ≠ F.ftForced.off) ∧
    (∃ s : State, ∃ t ppm, ∃ a, s.regs.wf = true ∧ exec (.ioscTrimMeasure ppm) s = .next t ∧ a ≠ F.trimSrc.off ∧
      a ≠ F.ioscTrimCode.off) ∧
    (∃ s : State, ∃ t present, ∃ a, s.regs.wf = true ∧ exec (.refclkPresenceChange present) s = .next t ∧
      a ≠ F.trimSrc.off) ∧
    (∃ s : State, ∃ t tj watts, ∃ a, s.regs.wf = true ∧ exec (.throttleEval tj watts) s = .next t ∧ a ≠ F.pinW.off ∧
      a ≠ F.duty.off ∧ a ≠ F.energy.off) ∧
    (∃ s : State, ∃ t, ∃ a, s.regs.wf = true ∧ exec .routeUpdate s = .next t ∧ (a < routeB 0 ∨ routeB 2048 ≤ a) ∧
      a ≠ F.tableUpdates.off) :=
  ⟨⟨engine { shadow := some ⟨jobKey, 0, []⟩ } [], nextState (exec (.tileSwap 143 3) (engine { shadow := some ⟨jobKey, 0, []⟩ } [])), 143, 3, 0, ⟨by decide +kernel, next_of_runs (by decide +kernel), by decide⟩⟩,
   ⟨engine { fmt := 3 } [], nextState (exec (.teFormatBarrierEnd 143 3) (engine { fmt := 3 } [])), 143, 3, 0, ⟨by decide +kernel, next_of_runs (by decide +kernel), by decide⟩⟩,
   ⟨up, nextState (exec (.ftDefer 143) up), 143, 0, ⟨by decide +kernel, next_of_runs (by decide +kernel), by decide, by decide⟩⟩,
   ⟨up, nextState (exec (.ioscTrimMeasure (-100)) up), -100, 0, ⟨by decide +kernel, next_of_runs (by decide +kernel), by decide, by decide⟩⟩,
   ⟨up, nextState (exec (.refclkPresenceChange true) up), true, 0, ⟨by decide +kernel, next_of_runs (by decide +kernel), by decide⟩⟩,
   ⟨up, nextState (exec (.throttleEval 105 1000) up), 105, 1000, 0, ⟨by decide +kernel, next_of_runs (by decide +kernel), by decide, by decide, by decide⟩⟩,
   ⟨up.setChip F.mapValid 1, nextState (exec .routeUpdate (up.setChip F.mapValid 1)), 0, ⟨by decide +kernel, next_of_runs (by decide +kernel), by decide, by decide⟩⟩⟩

/-- States and operands that meet the hypotheses of `Obligations.Crc32cIsR110`, clause by clause. -/
theorem witness_Crc32cIsR110 :
    (∃ e : List Byte, 12 ≤ e.length) :=
  ⟨List.replicate 12 0, by decide +kernel⟩

/-- States and operands that meet the hypotheses of `Obligations.ShutdownReturnsItsRecord`, clause by clause. -/
theorem witness_ShutdownReturnsItsRecord :
    (∃ s : State, ∃ q, Canonical s ∧ s.chip F.pwrStatusState = 2 ∧ s.chip F.drained ≠ 0 ∧
      s.chip F.ftStatusTesting = 0xFF ∧ s.mpUp = true ∧ s.inprog.filter (fun q => q.op == 0x0007) = [q]) :=
  ⟨{ ((up.setChip F.pwrStatusState 2).setChip F.drained 1).setChip F.ftStatusTesting 0xFF with inprog := [{ box := 0, op := 7, coach := 0 }] }, { box := 0, op := 7, coach := 0 }, by simp only [Canonical]; decide +kernel⟩

/-- States and operands that meet the hypotheses of `Obligations.SafeStateRefusesWork`, clause by clause. -/
theorem witness_SafeStateRefusesWork :
    (∃ s : State, s.safe = true) ∧
    (∃ s : State, s.safe = true) ∧
    (∃ s : State, ∃ box, let u := s.taken box; Canonical s ∧ s.safe = true ∧ Served s 0x0103 box ∧
      u.coachState (s.cmd box).coach ≠ Cs.vacant ∧ u.coachState (s.cmd box).coach ≠ Cs.faulted) ∧
    (∃ s : State, ∃ box, let u := s.taken box; Canonical s ∧ s.safe = true ∧ Served s 0x0108 box ∧
      u.coachState (s.cmd box).coach = Cs.halted) :=
  ⟨⟨up.setChip F.ftStatusSafe 1, by decide +kernel⟩,
   ⟨up.setChip F.ftStatusSafe 1, by decide +kernel⟩,
   ⟨put (coachIn (up.setChip F.ftStatusSafe 1) 5 Cs.halted) 0 0x0103 5 [], 0, by simp only [Served, Canonical]; decide +kernel⟩,
   ⟨put (coachIn (up.setChip F.ftStatusSafe 1) 5 Cs.halted) 0 0x0108 5 [(16, 0)], 0, by simp only [Served, Canonical]; decide +kernel⟩⟩

/-- States and operands that meet the hypotheses of `Obligations.IdleStepTicksTheClock`, clause by clause. -/
theorem witness_IdleStepTicksTheClock :
    (∃ s : State, s.pending = []) :=
  ⟨up, by decide +kernel⟩

/-- States and operands that meet the hypotheses of `Obligations.EveryStepKeepsTheCanonicalForm`, clause by clause. -/
theorem witness_EveryStepKeepsTheCanonicalForm :
    (∃ s t : State, Canonical s ∧ step s = .next t) :=
  ⟨up, tick up, by simp only [Canonical]; exact ⟨by decide +kernel, rfl⟩⟩

/-- States and operands that meet the hypotheses of `Obligations.EveryStepKeepsTheMeshCredits`, clause by clause. -/
theorem witness_EveryStepKeepsTheMeshCredits :
    (∃ s t : State, s.noc.MeshOk ∧ step s = .next t) :=
  ⟨up, tick up, ⟨rfl, rfl, fun _ => ⟨rfl, rfl, rfl, Nat.zero_le _⟩⟩, rfl⟩

/-- A cart on N7 for the auxiliary port of the last router. -/
def farCart : NocCart := { chan := 7, router := 143, port := 5, queue := 0 }
/-- A mesh in which that cart stands in the core's input buffer of router 0. -/
def oneCart : Noc := { bufs := [(48 * 0 + 8 * 4 + 7, [farCart])] }

/-- Carts and routers that meet the hypotheses of `Obligations.MeshRoutesAreDimensionOrdered`, clause by clause. -/
theorem witness_MeshRoutesAreDimensionOrdered :
    (∃ (c : NocCart) (r : Nat), r < 144 ∧ c.router < 144 ∧ (c.port = 4 ∨ c.port = 5) ∧ c.chan < 8 ∧ c.out r < 4) ∧
    (∃ (c : NocCart) (r : Nat), r < 144 ∧ c.router < 144 ∧ (c.port = 4 ∨ c.port = 5) ∧ c.chan < 8 ∧ (c.out r = 0 ∨ c.out r = 2)) ∧
    (∃ (c : NocCart) (r : Nat), r < 144 ∧ c.router < 144 ∧ (c.port = 4 ∨ c.port = 5) ∧ c.chan < 8 ∧ r = c.router) :=
  ⟨⟨farCart, 0, by decide +kernel⟩, ⟨farCart, 11, by decide +kernel⟩, ⟨farCart, 143, by decide +kernel⟩⟩

/-- Meshes that meet the hypotheses of `Obligations.RoutersServeChannelsInTurn`, clause by clause. -/
theorem witness_RoutersServeChannelsInTurn :
    (∃ n : Noc, ∃ r o first taken b c, n.choose r o first taken = some (b, c)) ∧
    (∃ n : Noc, ∃ r o first taken, n.choose r o first taken = none) ∧
    (∃ n : Noc, ∃ r o b x rest, SMap.look [] n.bufs b = x :: rest ∧ SMap.wf 0 n.served = true ∧
      (4 ≤ o ∨ (n.buf (linkBuf r o (b % 8))).spent < 8)) :=
  ⟨⟨oneCart, 0, 1, 0, [], 39, 7, by decide +kernel⟩, ⟨oneCart, 0, 2, 0, [], by decide +kernel⟩,
   ⟨oneCart, 0, 1, 39, farCart, [], by decide +kernel⟩⟩

/-- States and operands that meet the hypotheses of `Obligations.GcountStaysA64BitCount`, clause by clause. -/
theorem witness_GcountStaysA64BitCount :
    (∃ s t : State, s.gcount < 2 ^ 64 ∧ step s = .next t) ∧
    (∃ s : State, s.chip F.clkStatusSrc = 3) :=
  ⟨⟨atTime up (2 ^ 64 - 1), tick (atTime up (2 ^ 64 - 1)), ⟨by decide +kernel, rfl⟩⟩,
   ⟨up, by decide +kernel⟩⟩

/-- States and operands that meet the hypotheses of `Obligations.CommandsKeepEveryOtherPart`, clause by clause. -/
theorem witness_CommandsKeepEveryOtherPart :
    (∃ i : Instr, ∃ s t : State, ∃ p : Part, exec i s = .next t ∧ p ∉ touches i) :=
  ⟨.jtagIdcode, up, nextState (exec .jtagIdcode up), .gs, ⟨next_of_runs (by decide +kernel), by decide⟩⟩

/-- Bytes of (length, value) pairs, most significant first. -/
def bigFields (l : List (Nat × Nat)) : List Byte := l.flatMap fun e => beBytes e.1 e.2

/-- A 3,072-bit modulus, and the signature of the image below under it (R444, R445; the signature was computed outside the
model). -/
def modulus : List Byte :=
  bigFields [(48, 0x8272a5ece53a400c186148de11c17f197920715f153e2601fa489367ce3788df3e4f7795f31d5e2b0ecac1a07e4b013c),
    (48, 0x499f6133e8410ffc5176a2e7c5b0c9462b9daee8e99be08037b4abacffdf7abf168004ae6cce60539d649ee3a9b288d8),
    (48, 0x475e7f980bb1d584d80a369a9145e961590076d2b25f5c5cea9ba94ac3db968fb11413a6ead9e470c46d19c34aa8b5af),
    (48, 0x2f77604b7e77537338bdf8f5a3887df2a487a275679959cd75edd5774d37aff93c89027df5e7d3239a41fbf4a78e9ae9),
    (48, 0x7c24a81323ae6f4f86e834b578973d8ae06eab2eadd4785ecad9f3dbc4b3bbb05d7196a07a70a9d89e91e915913a9df2),
    (48, 0x92e064428ea4ed8e7f5f94dbfa2f22872b12cd71e4ac8169499e930e4ad937ab1fc4be0ea1651879dd8621c3e53ead9a),
    (48, 0x5fc6ca711b1d587cd707cd3939ca127f27dadb7c8c2964a2a89e5662ef6170a738444f883c881629e97add63abfc6b80),
    (48, 0xfb7ade7713cd8bdede85c718bc65824715d7c0ea656b24fc40e2b9889ce834c62c7c8e961f59a0b2ff91f4abb315cef1)]
def signature : List Byte :=
  bigFields [(48, 0x55bc6971497653b41595c8df39325ff1bd1866d727e958f518feab2b400d7d47b48e07627c1427d6d31f73732b424b9d),
    (48, 0x99281f0e25612bb4621113f07c2f7d542567241f2cb1569e4fb20e7fb1660820bda4384c07d543b2db0218328bbf3282),
    (48, 0xc2ddc49a87ea2768b4283e45b8132153dc0b2c2b351bb7304ef24247b71ca0457160c9ecb503b50d927f462f08431c67),
    (48, 0xad9805bdf4263a4e37a4962ac82d01edfb0933e2616a69b003de5a45da4f291d6521874b599b069ffd646a15135746c1),
    (48, 0x5f74cb449cbdca8e917bfa1f2c848c7b988c3deb6982942e7a46a93602ee760114bd65b9f8e14d6a72f583bf5dfe8950),
    (48, 0x39da9b5b91541d1eb82a492f134c2599f896784db186d88712cc072deb203c73fe9ff6a023493a81f3106d6fd6c30883),
    (48, 0x0c8dec1ed43c80e037f98cce2ae8eec5b23796132d9c28f2c76580e1c17b2c7c7365259a253fd242c8835d5d2878193f),
    (48, 0xb79e9b4694a9479d9a4e4fe21d71fc0204078fa06402c3ac16f80a5971ac7c1871127394582a96e3ae8559ec1737a28c)]

/-- A signed firmware image of 4,096 bytes (R444). -/
def image : List Byte :=
  fields [(4, 0x57465A56), (1, 1), (1, 0xB1), (2, 0), (4, 4096), (8, 0), (4, 512)] ++ modulus ++ List.replicate 3304 0 ++ signature

/-- The ROM is in VERIFY, slot A holds that image, and the fuses hold the digest of its modulus. -/
def verifying : State :=
  { romIn Rom.verify with
      hbm := { bytes := Memory.write [] 0 image }
      boot := { up.boot with len := 4096 }
      fuses := { up.fuses with keyHash := [sha256 modulus] } }

/-- Look at a number before going on with it. -/
def look (n : Nat) (k : Nat → List Nat) : List Nat := match n with
  | 0 => k 0
  | m + 1 => k (m + 1)

theorem look_eq (n : Nat) (k : Nat → List Nat) : look n k = k n := by cases n <;> rfl

/-- Look at every number of a list before going on with them. -/
def looks : List Nat → List Nat → (List Nat → List Nat) → List Nat
  | [], a, k => k a.reverse
  | x :: r, a, k => look x fun y => looks r (y :: a) k

theorem looks_eq (l a : List Nat) (k : List Nat → List Nat) : looks l a k = k (a.reverse ++ l) := by
  induction l generalizing a with
  | nil => simp [looks]
  | cons x r ih => simp [looks, look_eq, ih]

/-- The blocks of SHA-256 with the state looked at between them. -/
def shaSteps : List (List Byte) → List Nat → List Nat
  | [], s => s
  | b :: r, s => looks (shaBlock s b) [] fun t => shaSteps r t

theorem foldl_shaBlock_eq (l : List (List Byte)) (s : List Nat) : l.foldl shaBlock s = shaSteps l s := by
  induction l generalizing s with
  | nil => rfl
  | cons b r ih => rw [shaSteps, looks_eq, List.foldl_cons, ih]; rfl

theorem image_signed : rsaVerify (beNat modulus) (image.take 3712) (image.drop 3712) = true := by
  simp only [rsaVerify, pkcs1Encode, sha256, foldl_shaBlock_eq]
  decide +kernel

theorem image_passes : verifying.imageCheck (slotAddr verifying.verifySlot) (some verifying.boot.len) = 0 := by
  have len : image.length = 4096 := by decide +kernel
  have slot : slotAddr verifying.verifySlot = 0 := by decide +kernel
  have bytes : verifying.hbm.bytes = Memory.write [] 0 image := by rw [verifying]
  have head : verifying.memRead 0 512 = image.take 512 := by
    have h := Memory.read_write [] 0 0 512 image rfl (Nat.le_refl 0) (by simp [len])
    rw [List.drop_zero] at h
    rw [State.memRead, bytes, h]
  have whole : verifying.memRead 0 4096 = image := by
    have h := Memory.read_write [] 0 0 4096 image rfl (Nat.le_refl 0) (by simp [len])
    rw [List.drop_zero, List.take_of_length_le (by simp [len])] at h
    rw [State.memRead, bytes, h]
  have hLen : Im.length (image.take 512) = 4096 := by decide +kernel
  have hMod : ((image.take 512).drop 24).take 384 = modulus := by decide +kernel
  have hKey : verifying.fuses.keyHash.getD (Im.keyslot (image.take 512)) [] = sha256 modulus := by
    have : Im.keyslot (image.take 512) = 0 := by decide +kernel
    have keys : verifying.fuses.keyHash = [sha256 modulus] := rfl
    rw [this, keys, List.getD_cons_zero]
  have h1 : fieldLE (image.take 512) 4 1 = 1 ∧ fieldLE (image.take 512) 0 4 = 0x57465A56 ∧ Im.entry (image.take 512) = 512
      ∧ Im.reservedOk (image.take 512) = true ∧ fieldLE (image.take 512) 5 1 = 0xB1
      ∧ bit (verifying.chip F.keyRevoke) (Im.keyslot (image.take 512)) = false
      ∧ ¬ Im.svn (image.take 512) < verifying.chip F.svnMin := by decide +kernel
  obtain ⟨a, b, c, d, e, f, g⟩ := h1
  have hLen' : verifying.boot.len = 4096 := rfl
  rw [slot, hLen']
  rw [List.getD_eq_getElem?_getD] at hKey
  unfold State.imageCheck
  simp [head, hLen, whole, hMod, hKey, a, b, c, d, e, f, g, image_signed]

/-- States and operands that meet the hypotheses of `Obligations.BootStepsTakeEffect`, clause by clause. -/
theorem witness_BootStepsTakeEffect :
    (∃ s : State, s.rom = Rom.por ∧ s.clocked = true ∧ s.scanned = false ∧ s.pwr.testen = false) ∧
    (∃ s : State, s.rom = Rom.train ∧ s.clocked = true ∧ s.scanned = false ∧ s.allTrained = false) ∧
    (∃ s : State, s.rom = Rom.request ∧ s.clocked = true ∧ s.scanned = false ∧ s.boot.lastReq + 100000000 ≤ s.gcount) ∧
    (∃ s : State, s.rom = Rom.handback ∧ s.bootGot = true ∧ s.clocked = true ∧ s.scanned = false) ∧
    (∃ s : State, ∃ off, let r := SMap.look (0, 0) s.boot.reads off; s.bootLoading = true ∧ r.1 ≠ 0 ∧
      r.2 + 10000000 ≤ s.gcount) ∧
    (∃ s : State, s.bootGot = true ∧ s.rom = Rom.load) ∧
    (∃ s : State, ∃ place, s.rom = Rom.verify ∧ s.boot.warm = false ∧ placementOk place = true ∧
      s.imageCheck (slotAddr s.verifySlot) (if s.boot.kept then none else some s.boot.len) = 0) ∧
    (∃ s : State, let u := s.syncDone 0; u.rom = Rom.start ∧ u.boot.warm = false ∧
      2 ≤ u.get (regionB 0) F.regionMstate) :=
  ⟨⟨State.reset, by decide +kernel⟩,
   ⟨romIn Rom.train, by decide +kernel⟩,
   ⟨atTime (romIn Rom.request) 100000000, by decide +kernel⟩,
   ⟨{ romIn Rom.handback with boot := { up.boot with hb := 4096, hbLen := 256, nextOff := 256 } }, by decide +kernel⟩,
   ⟨atTime { romIn Rom.load with boot := { up.boot with reads := [(4096, (1, 0))] } } 10000000, 4096, by decide +kernel⟩,
   ⟨{ romIn Rom.load with boot := { up.boot with len := 4096, nextOff := 4096 } }, by decide +kernel⟩,
   ⟨verifying, { fbase := 0, fcount := 1, mbase := 1, seqBase := 8388608, ovlBase := 16777216, gsStore := 33554432, storeMib := 1, ttStore := 67108864 }, ⟨by decide +kernel, by decide +kernel, by decide +kernel, image_passes⟩⟩,
   ⟨(romIn Rom.start).set (regionB 0) F.regionMstate 1, by decide +kernel⟩⟩

/-- States and operands that meet the hypotheses of `Obligations.FusesOnlyBurn`, clause by clause. -/
theorem witness_FusesOnlyBurn :
    (∃ s t : State, step s = .next t) :=
  ⟨{ scanIn 2 with pending := [.fuseProg 0 143 0 0] }, nextState (step { scanIn 2 with pending := [.fuseProg 0 143 0 0] }), next_of_runs (by decide +kernel)⟩

/-- States and operands that meet the hypotheses of `Obligations.IllegalArgumentsAreAnsweredBadArg`, clause by clause. -/
theorem witness_IllegalArgumentsAreAnsweredBadArg :
    (∃ s : State, Canonical s ∧ Served s 0x0002 0 ∧ 2 < (s.cmd 0).arg 0 1) ∧
    (∃ s : State, Canonical s ∧ Served s 0x0003 0 ∧ (s.cmd 0).arg 0 1 ≠ 112 ∧ (s.cmd 0).arg 0 1 ≠ 128) ∧
    (∃ s : State, Canonical s ∧ Served s 0x0004 0 ∧ (s.cmd 0).arg 2 1 = 0) ∧
    (∃ s : State, Canonical s ∧ Served s 0x0004 0 ∧ 97 < (s.cmd 0).arg 2 1) ∧
    (∃ s : State, Canonical s ∧ Served s 0x0005 0 ∧ 1 < (s.cmd 0).arg 0 1) ∧
    (∃ s : State, Canonical s ∧ Served s 0x000A 0 ∧ 144 ≤ (s.cmd 0).arg 0 1) ∧
    (∃ s : State, Canonical s ∧ Served s 0x000B 0 ∧ 144 ≤ (s.cmd 0).arg 0 1) ∧
    (∃ s : State, Canonical s ∧ Served s 0x000C 0 ∧ (s.cmd 0).arg 4 1 = 0) ∧
    (∃ s : State, Canonical s ∧ Served s 0x000C 0 ∧ 7 < (s.cmd 0).arg 4 1) ∧
    (∃ s : State, Canonical s ∧ Served s 0x0009 0 ∧ (s.cmd 0).arg 0 8 % 4096 ≠ 0) ∧
    (∃ s : State, Canonical s ∧ Served s 0x0009 0 ∧ (s.cmd 0).arg 8 4 = 0) ∧
    (∃ s : State, Canonical s ∧ Served s 0x0009 0 ∧ 4194304 < (s.cmd 0).arg 8 4) ∧
    (∃ s : State, Canonical s ∧ Served s 0x0305 0 ∧ 15 < (s.cmd 0).arg 0 1) ∧
    (∃ s : State, Canonical s ∧ Served s 0x0306 0 ∧ 15 < (s.cmd 0).arg 0 1) ∧
    (∃ s : State, Canonical s ∧ Served s 0x0202 0 ∧ 63 < (s.cmd 0).arg 0 1) :=
  ⟨⟨put up 0 0x0002 0 [(1, 3)], by simp only [Canonical, Served]; decide +kernel⟩,
   ⟨put up 0 0x0003 0 [(1, 111)], by simp only [Canonical, Served]; decide +kernel⟩,
   ⟨put up 0 0x0004 0 [(2, 0x600), (1, 0), (1, 0)], by simp only [Canonical, Served]; decide +kernel⟩,
   ⟨put up 0 0x0004 0 [(2, 0x600), (1, 98), (1, 0)], by simp only [Canonical, Served]; decide +kernel⟩,
   ⟨put up 0 0x0005 0 [(1, 2)], by simp only [Canonical, Served]; decide +kernel⟩,
   ⟨put up 0 0x000A 0 [(1, 144)], by simp only [Canonical, Served]; decide +kernel⟩,
   ⟨put up 0 0x000B 0 [(1, 144)], by simp only [Canonical, Served]; decide +kernel⟩,
   ⟨put up 0 0x000C 0 [(4, 0), (1, 0)], by simp only [Canonical, Served]; decide +kernel⟩,
   ⟨put up 0 0x000C 0 [(4, 0), (1, 8)], by simp only [Canonical, Served]; decide +kernel⟩,
   ⟨put up 0 0x0009 0 [(8, 1), (4, 4194304), (1, 1)], by simp only [Canonical, Served]; decide +kernel⟩,
   ⟨put up 0 0x0009 0 [(8, 0), (4, 0), (1, 1)], by simp only [Canonical, Served]; decide +kernel⟩,
   ⟨put up 0 0x0009 0 [(8, 0), (4, 4194305), (1, 1)], by simp only [Canonical, Served]; decide +kernel⟩,
   ⟨put up 0 0x0305 0 [(1, 16), (3, 0), (1, 0), (1, 0x11), (14, 0)], by simp only [Canonical, Served]; decide +kernel⟩,
   ⟨put up 0 0x0306 0 [(1, 16)], by simp only [Canonical, Served]; decide +kernel⟩,
   ⟨put up 0 0x0202 0 [(1, 64)], by simp only [Canonical, Served]; decide +kernel⟩⟩

/-! ## Worked examples of the spec -/

/-- `02_number_formats.md`, R33: the byte 0xC8 holds the trits +1, −1, 0, 0, +1. -/
theorem test_trit_byte : tritsOfByte 0xC8 = [1, -1, 0, 0, 1] := by decide +kernel

/-- The block of the T·A4 example: precision field FMT 2, DYN, E_L −6; 0.40, −0.07, 0.12, −0.20, 0.03, and one
of its zeros. -/
def a4Block : List Byte :=
  (quantBlock (fields [(1, 0x06), (1, 0xFA), (2, 640), (2, 640), (10, 0)]) [] [0x3ECCCCCD, 0xBD8F5C29, 0x3DF5C28F, 0xBE4CCCCD, 0x3CF5C28F, 0]).bytes

/-- `02_number_formats.md`, R39-R41: header 0x0A, 0x00, ZCNT 1, MAXABS 0x3ECD; payload 0xF6, 0xD2, 0x00. -/
theorem test_quantise_a4 :
    (fieldLE a4Block 0 2, fieldLE a4Block 2 2, fieldLE a4Block 8 2, fieldLE a4Block 64 3) = (0x000A, 1, 0x3ECD, 0x00D2F6) := by
  decide +kernel

/-- The same example: the codes 6, −1, 2, −3, 0 against the weights +1, −1, +1, +1, −1 and offset 2 give W = 24. -/
theorem test_plane_sum :
    ((ABlk.of a4Block).colSum 4 [1, -1, 1, 1, -1] []).x * 2 ^ (ABlk.of a4Block).ofs = 24 := by decide +kernel

/-- The same example: W = 24 with E_L = −6 is 0.375 (R48). -/
theorem test_convert : f32OfInt 24 (-6) = 0x3EC00000 := by decide +kernel

/-- `05_precision_control.md`, R127: the precision field of the example (FMT 2, OFS_CAL 3, OUTL_EN, E_L −6, ZTHR 64, STHR 4) and
a value of each of its kinds. -/
def replayField : List Byte := fields [(1, 0x5A), (1, 0xFA), (2, 64), (2, 4), (10, 0)]
def replayValues : List F32 := [0x40000000, 0xBFE00000, 0x3FA00000, 0x3ECCCCCD, 0x3E4CCCCD, 0x3D4CCCCD, 0x3CA3D70A, 0]

/-- R40 gives 2.0 the offset 5 and 0.40 the offset 2. -/
theorem test_replay_offsets : (ofs40 0x40000000 4 (-6), ofs40 0x3ECCCCCD 4 (-6)) = (5, 2) := by decide +kernel

/-- At offset 2 the three largest are outliers 32, −28 and 20 and of the others only 0.02 rounds to zero. -/
theorem test_replay_pass :
    let b := (quantBlock (replayField.set 0 0x52) [] replayValues).bytes
    (fieldLE b 0 2, fieldLE b 2 2, fieldLE b 4 2, [16, 20, 24].map fun i => fieldLE b i 4)
      = (0x030A, 1, 0, [0x00200000, 0xFFE40001, 0x00140002]) := by decide +kernel

/-- `03_ternary_engine.md`, R64: the codes 3, −2, 1, 0, −1 take three planes. -/
theorem test_width : ABlk.width { fmt := 2, codes := [3, -2, 1, 0, -1] } = 3 := by decide +kernel

/-- `02_number_formats.md`, R50-R51: seed 0, stream 0, index 0 draws 0xE8D5; x = 0.31640625 under scale 2^−7 takes code 40. -/
theorem test_kv_draw :
    philoxDraw 0 0 0 = 0xE8D5 ∧ roundDraw (f32Div 0x3EA20000 (BF.toF32 0x3C00)) (philoxDraw 0 0 0) = 40 := by decide +kernel

/-- The same example: M = 127/128 gives the scale 2^−7. -/
theorem test_kv_scale : (kvQuant 2 (philoxDraw 0 0) [0x3F7E0000]).scale = 0x3C00 := by decide +kernel

/-- `02_number_formats.md`, R56: code 6 is 0x2A and code −3 is sign and 26. -/
theorem test_l8_codes : (l8OfCode 6, l8OfCode (-3)) = (⟨false, 42⟩, ⟨true, 26⟩) := by decide +kernel

/-- `07_log_engine_and_attention.md`, R57-R58: G = −6, the codes 106 and 65, the key's code 86 and the scale code −112. -/
theorem test_l8_group :
    l8Group [0x3FC00000, 0xBE800000] = -6 ∧ l8OfF32 (-6) 0x3FC00000 = ⟨false, 106⟩ ∧ l8OfF32 (-6) 0xBE800000 = ⟨true, 65⟩ ∧
      l8OfCode 40 = ⟨false, 86⟩ ∧ scaleCode 0x3C00 = -112 := by decide +kernel

/-- The same example, R176: the products 22 and −19 sum to 8,826 × 2^−18. -/
theorem test_log_sum : lsum [(false, 22), (true, -19)] (-6) = 0x3D09E800 := by decide +kernel

/-- The table image of `04_weight_blocks_and_expander.md`, R97. -/
def tableImage : List Byte := [0x45, 0x45, 0x41, 0x45, 0x35] ++ List.replicate 11 0

/-- The same example, R98: symbol 4 is 0, ZRUN 100, symbols 1, 3, 5, 7 are 1010 to 1101, symbols 0, 2, 6, 8 are 11100 to 11111. -/
theorem test_table_codes :
    tableCodes tableImage = [(1, 0, 4), (3, 4, 9), (4, 10, 1), (4, 11, 3), (4, 12, 5), (4, 13, 7), (5, 28, 0), (5, 29, 2),
      (5, 30, 6), (5, 31, 8)] := by decide +kernel

/-- `06_sparse_overlays.md`, R155: the three entries of the cart for tile 12. -/
theorem test_cart_entries :
    cartEntries (fields [(4, 12), (1, 3), (11, 0), (3, 0x009405), (3, 0x809482), (3, 0x009590)])
      = [(5, 37, false), (130, 37, true), (400, 37, false)] := by decide +kernel

/-- `07_log_engine_and_attention.md`, R182: APART 3 from L040: row 0 merges on L040. -/
theorem test_merge_core : mergeCore (List.replicate 54 0 ++ [3] ++ List.replicate 41 0) 40 [0] = 40 := by decide +kernel

/-- `08_kv_cache.md`, R198: the entry of page 0x12A40 under stream 0x34, before and after the pause. -/
theorem test_page_entry :
    (Pe.mk 0x12A40 2 0 0 0 0x34 0).take 12 = fields [(4, 0x00012A40), (4, 2), (4, 0x34)] ∧
      fieldLE (Pe.mk 0x71 1 1 1 1 0x80000034 0) 4 1 = 0x2D := by decide +kernel

/-- The same example: slot 10, dimension 37 is byte 1,317 of an A8 page with its scale at byte 82; slot 42 of an A4 page is the
high half of byte 2,706 with its scale at byte 338. -/
theorem test_page_places :
    kvCode 2 (List.replicate 1317 0 ++ [0x85]) 10 37 = -123 ∧ kvScale (List.replicate 82 0 ++ [0xCD, 0xAB]) 10 1 = 0xABCD ∧
      kvCode 1 (List.replicate 2706 0 ++ [0x9F]) 42 37 = -7 ∧ kvScale (List.replicate 338 0 ++ [0xCD, 0xAB]) 42 1 = 0xABCD := by
  decide +kernel

/-- `10_graphs_and_scheduling.md`, R256: the second engine of the chain on L003. -/
def chainCarriage : List Byte :=
  [0x01, 0x05, 0, 0, 0x03, 0, 0x13, 0, 0x01, 0x03, 0x03, 0x01, 0, 0, 0, 0, 0x0D, 0, 0, 0, 0x01, 0, 0, 0x20]

theorem test_carriage_fields :
    [Ca.kind chainCarriage, Ca.te chainCarriage, Ca.lcore chainCarriage, Ca.chain chainCarriage,
      Ca.pos chainCarriage, Ca.lenm1 chainCarriage, Ca.nextCore chainCarriage, Ca.nextTe chainCarriage, Ca.tile0 chainCarriage, Ca.ntile chainCarriage, Ca.gfirst chainCarriage,
      Ca.ngroup chainCarriage] = [1, 1, 3, 0x13, 1, 3, 3, 2, 13, 1, 0, 32] ∧
    Ca.mrows chainCarriage = true ∧ Ca.remote chainCarriage = false := by decide +kernel

/-- `11_scratchpad_and_dma.md`, R280: OFFSET 0x31A40 is bank 2, row 13, word 8. -/
theorem test_spm_place : (spmBank 0x31A40, spmRow 0x31A40, spmWord 0x31A40) = (2, 13, 8) := by decide +kernel

/-- `12_memory_system.md`, R299: address 0x01_403E_8000 of a HASHED region lies on stack 7, pseudo-channel 19. -/
theorem test_hashed_place : State.reset.place 0x01403E8000 = (7, 19) := by decide +kernel

/-- `15_enkuor_link_and_topology.md`, R382: group 3 to 40 leaves at position 6 on P10, and 40 to 3 at position 9 on P15. -/
theorem test_gateways : gateway 3 40 = (6, 10) ∧ gateway 40 3 = (9, 15) := by decide +kernel

/-- The hand-back block of `20_reset_bringup_and_test.md`, R487: its header, C026 withdrawn, row 70,000 of PC 19 on stack 3. -/
def handBack : List Byte :=
  let head := [(4, 0x42485A56), (4, 0x0180B101), (8, 0x000001A47C3E0921), (2, 1), (2, 1), (2, 112)]
  padTo 96 (fields head) ++ fields [(4, 0x11A), (8, 0x222E09B)]

theorem test_hand_back_entries : hbCores handBack = [26] ∧ hbRows handBack = [(3, 19, 70000)] := by decide +kernel

/-- The same example: L014 stands on C027 and L031 on C062; L013 stays on its core. -/
theorem test_repair_map :
    let m := repairMap 128 ((List.range 144).filter (· != 26))
    (SMap.look 999 m 14, SMap.look 999 m 31, SMap.look 999 m 13) = (27, 62, SMap.look 999 (repairMap 128 (List.range 144)) 13) := by
  decide +kernel

/-- `24_register_map.md`, R550: CORE_MAP[14] on C062 reads 0x4253E. -/
theorem test_core_map_word : coremapWord 128 14 62 = 0x4253E := by decide +kernel

/-- `24_register_map.md`, R547: the window of coach 0x2A5. -/
theorem test_coach_window : coachB 0x2A5 = 0x012A5000 := by decide +kernel

/-- The violation of `21_conservation_ledgers.md`, R506. -/
def ledgerExample : Violation := ⟨4, 0x2A6, 0x123, 9, 8⟩

theorem test_ledger_word : ledgerExample.word = 0x00010001232A5141 := by decide +kernel

/-- Its record in `22_event_log_and_errors.md`, R512: the first 40 bytes. -/
theorem test_log_record :
    (recBytes 0x4E16 false { ledgerExample.record with time := 10000000000 }).take 40
      = fields [(4, 0x4E16), (4, 0xFF009028), (8, 0x2540BE400), (2, 0x82A5), (4, 0xFFFFFFFF), (2, 0), (8, 0x00010001232A5141),
        (4, 9), (4, 8)] := by decide +kernel

/-- TABLE_LOAD of `17_management_interface.md`, R433: admin mailbox 2, slot 3. -/
def tableCommand : List Byte :=
  [0x05, 0x03, 0x14, 0x01, 0x51, 0, 0, 0, 0x14, 0, 0, 0, 0, 0, 0, 0, 0x03, 0, 0, 0] ++ tableImage
def tableState : State := { (up.set (tblB 3) F.tblGen 6) with mbox := Memory.write up.mbox 0x400800 tableCommand }

/-- The same example: when the load is done TBL_DIR[3] reads GEN 7, and the response begins as the spec lists it. -/
theorem test_table_load :
    let t := nextState (exec (.tableLoadDone 3) (nextState (exec (.tableLoad 2) tableState)))
    t.get (tblB 3) F.tblGen = 7 ∧ Memory.read t.mbox 0x400A00 18 =
      [0x05, 0x03, 0x00, 0x01, 0x51, 0, 0, 0, 0x02, 0, 0, 0, 0, 0, 0, 0, 0x07, 0x00] := by decide +kernel

/-- `04_weight_blocks_and_expander.md`, R100: the 16 pairs of lane 0 and the bit left over. -/
theorem test_lane_pairs :
    readPairs (tableCodes tableImage) 64 16 (laneBits [0x13, 0xE8, 0xA7, 0])
      = some (5 :: (List.replicate 12 4 ++ [6, 4, 1]), List.replicate 7 false) := by decide +kernel

end Sys2Proof.Machine.Sample
end

section
/-!
PROOFS. The scope of the model (`00_scope.md`): a step runs the command at the front of the queue, and every command answers a
next state with the queue as it was.
-/

namespace Sys2Proof.Machine

/-- The queue as the model's interface (log entries 11 and 87): the command at its front runs on the state with the rest. -/
theorem step_of_pending_cons {s : State} {c : Instr} {r : List Instr} (h : s.pending = c :: r) :
    step s = exec c { s with pending := r } := by
  simp only [step, h]

/-- Settles O9: `exec_touches` has, arm by arm, that none ends in a fault or a refusal (log entry 1) and that the queue is
outside every arm's frame. -/
theorem everyCommandAnswersANextState : Obligations.EveryCommandAnswersANextState := fun i s => by
  obtain ⟨t, ht, frame⟩ := exec_touches i s
  exact ⟨t, ht, frame.pending⟩

/-- Settles O1: the queue of the state is not empty, so its first command runs, and the rest is the queue of `s`. -/
theorem stepRunsTheCommandAtTheFront : Obligations.StepRunsTheCommandAtTheFront := fun c s =>
  step_of_pending_cons (s := { s with pending := c :: s.pending }) rfl

end Sys2Proof.Machine
end

section
/-!
PROOFS. The architecture (`01_architecture.md`): the mesh's credits, the frame of every command, the routes of carts, the
arbitration of a router's output, and the requests of other devices.
-/

namespace Sys2Proof.Machine

/-! ### Credits and frames -/

/-- Settles O6: a step, tick or command, reaches the next state by changes that `Upd` allows, and each of them keeps the credits
of the mesh (`Upd.noc`). -/
theorem everyStepKeepsTheMeshCredits : Obligations.EveryStepKeepsTheMeshCredits := fun s t hs ht => by
  obtain ⟨u, F, hu, changes⟩ := step_touches s
  cases ht.symm.trans hu
  exact changes.noc hs

/-- Settles O10: `exec_next` has every command's list as the frame of its next state. -/
theorem commandsKeepEveryOtherPart : Obligations.CommandsKeepEveryOtherPart := fun _ _ _ h p hp =>
  (exec_next h).keep p (by simpa using hp)

/-! ### Routes (R15) -/

/-- The port by which a cart leaves, and where it stands then: along its row until it is in its column, along the column until
it is at its router, and there by its own port. -/
theorem NocCart.out_cases (c : NocCart) (r : Nat) :
    (c.out r = 1 ∧ r % 12 < c.router % 12) ∨ (c.out r = 3 ∧ c.router % 12 < r % 12) ∨
    (c.out r = 2 ∧ r % 12 = c.router % 12 ∧ r / 12 < c.router / 12) ∨
    (c.out r = 0 ∧ r % 12 = c.router % 12 ∧ c.router / 12 < r / 12) ∨ (c.out r = c.port ∧ r = c.router) := by
  unfold NocCart.out
  split
  · omega
  · split
    · omega
    · split
      · omega
      · split <;> omega

/-- The input buffer that each of a router's four links feeds. -/
theorem linkBuf_up (r chan : Nat) : linkBuf r 0 chan = 48 * (r - 12) + 8 * 2 + chan := rfl
theorem linkBuf_right (r chan : Nat) : linkBuf r 1 chan = 48 * (r + 1) + 8 * 3 + chan := rfl
theorem linkBuf_down (r chan : Nat) : linkBuf r 2 chan = 48 * (r + 12) + 8 * 0 + chan := rfl
theorem linkBuf_left (r chan : Nat) : linkBuf r 3 chan = 48 * (r - 1) + 8 * 1 + chan := rfl

/-- Where a cart leaves by a link, the link's buffer lies at a router one hop nearer. -/
theorem hops_linkBuf (c : NocCart) {r : Nat} (hr : r < 144) (hd : c.router < 144) (hp : c.port = 4 ∨ c.port = 5)
    (hc : c.chan < 8) (ho : c.out r < 4) :
    linkBuf r (c.out r) c.chan / 48 < 144 ∧ hops (linkBuf r (c.out r) c.chan / 48) c.router + 1 = hops r c.router := by
  unfold hops
  obtain ⟨h, _⟩ | ⟨h, _⟩ | ⟨h, _⟩ | ⟨h, _⟩ | ⟨h, _⟩ := c.out_cases r
  · rw [h, linkBuf_right]
    omega
  · rw [h, linkBuf_left]
    omega
  · rw [h, linkBuf_down]
    omega
  · rw [h, linkBuf_up]
    omega
  · omega

/-- A link's buffer is of the cart's channel and of the port that faces back. -/
theorem linkBuf_port {r o chan : Nat} (hc : chan < 8) :
    linkBuf r o chan % 8 = chan ∧ linkBuf r o chan % 48 / 8 = (o + 2) % 4 := by
  unfold linkBuf
  dsimp only
  omega

/-- Settles O57: the five cases of `NocCart.out_cases` are the links and the port of R15. -/
theorem meshRoutesAreDimensionOrdered : Obligations.MeshRoutesAreDimensionOrdered := fun c r hr hd hp hc => by
  have ways := c.out_cases r
  refine ⟨by omega, by omega, by omega, fun ho => ?_⟩
  obtain ⟨near, fewer⟩ := hops_linkBuf c hr hd hp hc ho
  obtain ⟨chan, port⟩ := linkBuf_port (r := r) (o := c.out r) hc
  exact ⟨near, fewer, chan, port⟩

/-! ### Arbitration (R31) -/

/-- The cart that stands next in buffer `b`, behind those already taken from it in this cycle, leaves router `r` by output `o`. -/
def Noc.CartFor (n : Noc) (r o : Nat) (taken : List Nat) (b : Nat) : Prop :=
  ∃ x, n.head b (taken.filter (· == b)).length = some x ∧ x.out r = o

/-- Output `o` of router `r` holds a credit of channel `c`, besides those of the carts taken in this cycle; the ports of the core
and of the auxiliary end need none. -/
def Noc.CreditFor (n : Noc) (r o : Nat) (taken : List Nat) (c : Nat) : Prop :=
  4 ≤ o ∨ (n.buf (linkBuf r o c)).spent + (taken.filter fun b => b % 8 == c).length < 8

/-- What an output that comes to channel `c` chooses there. -/
def Noc.offer (n : Noc) (r o : Nat) (taken : List Nat) (c : Nat) : Option (Nat × Nat) :=
  let credit := 4 ≤ o || decide ((n.buf (linkBuf r o c)).spent + (taken.filter fun b => b % 8 == c).length < 8)
  if credit then
    ((List.range 6).find? fun p =>
      let b := 48 * r + 8 * p + c
      (n.head b (taken.filter (· == b)).length).any fun x => x.out r == o).map fun p => (48 * r + 8 * p + c, c)
  else none

/-- The choice of R31 goes over the channels in turn. -/
theorem Noc.choose_eq (n : Noc) (r o first : Nat) (taken : List Nat) :
    n.choose r o first taken = (List.range 8).findSome? fun i => n.offer r o taken ((first + i) % 8) := rfl

theorem Noc.cartFor_iff {n : Noc} {r o b : Nat} {taken : List Nat} :
    ((n.head b (taken.filter (· == b)).length).any fun x => x.out r == o) = true ↔ n.CartFor r o taken b := by
  simp [Noc.CartFor, Option.any_eq_true]

theorem Noc.creditFor_iff {n : Noc} {r o c : Nat} {taken : List Nat} :
    (4 ≤ o || decide ((n.buf (linkBuf r o c)).spent + (taken.filter fun b => b % 8 == c).length < 8)) = true ↔
      n.CreditFor r o taken c := by
  simp [Noc.CreditFor]

/-- A channel that is chosen has a credit and a cart. -/
theorem Noc.offer_some {n : Noc} {r o c : Nat} {taken : List Nat} {x : Nat × Nat} (h : n.offer r o taken c = some x) :
    n.CreditFor r o taken c ∧ ∃ p < 6, x = (48 * r + 8 * p + c, c) ∧ n.CartFor r o taken (48 * r + 8 * p + c) := by
  unfold Noc.offer at h
  dsimp only at h
  split at h
  · rename_i credit
    obtain ⟨p, found, rfl⟩ := Option.map_eq_some_iff.mp h
    obtain ⟨cart, inRange, _⟩ := List.find?_range_eq_some.mp found
    exact ⟨creditFor_iff.mp credit, p, List.mem_range.mp inRange, rfl, cartFor_iff.mp cart⟩
  · cases h

/-- A channel that is passed over has no credit or no cart. -/
theorem Noc.offer_none {n : Noc} {r o c : Nat} {taken : List Nat} (h : n.offer r o taken c = none) :
    ¬ (n.CreditFor r o taken c ∧ ∃ p < 6, n.CartFor r o taken (48 * r + 8 * p + c)) := by
  rintro ⟨credit, p, hp, cart⟩
  unfold Noc.offer at h
  dsimp only at h
  rw [if_pos (creditFor_iff.mpr credit), Option.map_eq_none_iff, List.find?_range_eq_none] at h
  have noCart := h p hp
  rw [cartFor_iff.mpr cart] at noCart
  cases noCart

/-- The first number at which a function answers. -/
theorem findSome?_range_eq_some {α : Type} {f : Nat → Option α} {n : Nat} {x : α} (h : (List.range n).findSome? f = some x) :
    ∃ i < n, f i = some x ∧ ∀ j < i, f j = none := by
  induction n with
  | zero => cases h
  | succ n ih =>
    rw [List.range_succ, List.findSome?_append] at h
    cases front : (List.range n).findSome? f with
    | some y =>
      rw [front] at h
      obtain ⟨i, hi, found, earlier⟩ := ih (front.trans h)
      exact ⟨i, by omega, found, earlier⟩
    | none =>
      rw [front] at h
      refine ⟨n, by omega, by simpa using h, fun j hj => ?_⟩
      exact List.findSome?_eq_none_iff.mp front j (List.mem_range.mpr hj)

/-- A cart that leaves a buffer makes its channel the one that its output served last. -/
theorem Noc.served_move {n : Noc} {r o b : Nat} {x : NocCart} {rest : List NocCart} (hb : SMap.look [] n.bufs b = x :: rest)
    (hc : 4 ≤ o ∨ (n.buf (linkBuf r o (b % 8))).spent < 8) :
    (n.move r o b).served = SMap.put 0 n.served (6 * r + o) (b % 8 + 1) := by
  unfold Noc.move
  rw [hb]
  dsimp only
  rw [if_neg (by omega)]
  split <;> rfl

/-- Settles O58: the choice is the first channel in turn whose offer is some, by `findSome?_range_eq_some`, and the eight channels
in turn are all of N0-N7. -/
theorem routersServeChannelsInTurn : Obligations.RoutersServeChannelsInTurn := fun n r o first taken => by
  refine ⟨fun b c h => ?_, fun h c hc => ?_, fun b x rest hb hw hc => ?_⟩
  · rw [Noc.choose_eq] at h
    obtain ⟨i, hi, chosen, earlier⟩ := findSome?_range_eq_some h
    obtain ⟨credit, p, hp, same, cart⟩ := Noc.offer_some chosen
    obtain ⟨rfl, rfl⟩ := Prod.mk.inj same
    exact ⟨i, hi, rfl, credit, ⟨p, hp, rfl, cart⟩, fun j hj => Noc.offer_none (earlier j hj)⟩
  · rw [Noc.choose_eq] at h
    have turn : (first + (c + 8 - first % 8) % 8) % 8 = c := by omega
    have passed := List.findSome?_eq_none_iff.mp h ((c + 8 - first % 8) % 8) (List.mem_range.mpr (by omega))
    rw [turn] at passed
    exact Noc.offer_none passed
  · rw [Noc.served_move hb hc, SMap.look_put _ _ _ _ hw, if_pos rfl]

/-! ### Requests and answers (R370, R371) -/

/-- Taking a message out of its receive buffer changes no register. -/
@[simp] theorem unbuffer_regs (s : State) (p : Nat) (m : Msg) : (s.unbuffer p m).regs = s.regs :=
  (State.unbuffer_upd (F := [.link]) p m (Upd.refl s) (.of rfl)).keep .regs rfl

/-- So a message's coach is VACANT after it exactly where it was before. -/
@[simp] theorem unbuffer_coachless (s : State) (p : Nat) (m k : Msg) : (s.unbuffer p m).coachless k = s.coachless k := by
  simp only [State.coachless, State.coachState, State.get, unbuffer_regs]

/-- A message of a type that arrives is heard. -/
theorem Arrives.not_deaf {s : State} {p t : Nat} {m : Msg} (h : Arrives s p m t) : s.deaf p m t = false := by
  obtain ⟨hp, htype, hdst, hfailed, hsafe, hclocked, hscanned, _, _, _⟩ := h
  simp [State.deaf, hp, htype, hdst, hfailed, hsafe, hclocked, hscanned]

/-- What arrives goes on to its type's own meaning, out of the receive buffer. -/
theorem Arrives.arrive {s : State} {p t : Nat} {m : Msg} (h : Arrives s p m t) (own : State → State) :
    s.arrive p m t own = own (s.unbuffer p m) := by
  have heard := h.not_deaf
  obtain ⟨_, _, _, _, _, _, _, good, known, coached⟩ := h
  simp [State.arrive, heard, known, good, coached]

/-- Settles O23: each of the six rows waits, or is `State.arrive` of its own meaning, which is then the outcome; an answer's own
meaning turns on the request that it names. -/
theorem requestMessagesAreServed : Obligations.RequestMessagesAreServed := by
  refine ⟨fun s port m arrives inTurn ready => ?write, fun s port m waits => ?held, fun s port m arrives ready => ?read,
    fun s port m arrives ready => ?add, fun s port m o arrives named => ?writeAck, fun s port m o arrives named => ?addAck,
    fun s port m o off n arrives named why => ?boot, fun s port m o c t arrives named why => ?dma,
    fun s port m o n off arrives named why => ?cold⟩
  case write => simp [execEklWrite, inTurn, ready, arrives.arrive]
  case held => simp [execEklWrite, waits]
  case read => simp [execEklRead, ready, arrives.arrive]
  case add => simp [execEklAdd, ready, arrives.arrive]
  case writeAck => simp [execEklWriteAck, arrives.arrive, named]
  case addAck => simp [execEklAddAck, arrives.arrive, named]
  case boot => simp [execEklReadData, arrives.arrive, named, why]
  case dma => simp [execEklReadData, arrives.arrive, named, why]
  case cold => simp [execEklReadData, arrives.arrive, named, why]

end Sys2Proof.Machine
end

section
/-!
PROOFS. The ternary engine (`03_ternary_engine.md`): the register words that seven events write, the messages of chains, the
engines' tiles, sets and carts, and the expanders, gather engines and partials.
-/

namespace Sys2Proof.Machine

/-! ### Register words that an operation writes -/

/-- `t` has canonical registers, and every register word whose address `W` does not hold of reads in it as in `s`. -/
structure WritesOnly (W : Nat → Prop) (s t : State) : Prop where
  wf : t.regs.wf = true
  look : ∀ a, ¬ W a → t.regs.look a = s.regs.look a

namespace WritesOnly

variable {W : Nat → Prop} {s t u : State}

theorem refl (h : s.regs.wf = true) : WritesOnly W s s := ⟨h, fun _ _ => rfl⟩

/-- A change outside the registers writes no word. -/
theorem of_regs_eq (h : WritesOnly W s t) (same : u.regs = t.regs) : WritesOnly W s u :=
  ⟨same ▸ h.wf, fun a ha => same ▸ h.look a ha⟩

/-- Writing one word of `W`. -/
theorem setWord (a v : Nat) (ha : W a) (h : WritesOnly W s t) : WritesOnly W s (t.setWord a v) := by
  refine ⟨Regs.wf_put _ _ _ h.wf, fun b hb => ?_⟩
  have away : b ≠ a := fun same => hb (same ▸ ha)
  exact (Regs.look_put _ _ _ _ h.wf).trans ((if_neg away).trans (h.look b hb))

/-- Setting a field of a word of `W`. -/
theorem set (b : Nat) (f : Fld) (v : Nat) (ha : W (b + f.off)) (h : WritesOnly W s t) : WritesOnly W s (t.set b f v) := by
  refine ⟨State.wf_set t b f v h.wf, fun a outside => ?_⟩
  have away : a ≠ b + f.off := fun same => outside (same ▸ ha)
  exact (Regs.look_set_ne _ _ _ _ _ h.wf away).trans (h.look a outside)

theorem bump (b : Nat) (f : Fld) (n : Nat) (ha : W (b + f.off)) (h : WritesOnly W s t) : WritesOnly W s (t.bump b f n) :=
  h.set b f _ ha

/-- The address of a chip register is its offset. -/
theorem setChip (f : Fld) (v : Nat) (ha : W f.off) (h : WritesOnly W s t) : WritesOnly W s (t.setChip f v) :=
  h.set chipB f v (by rwa [chipB, Nat.zero_add])

theorem count (f : Fld) (n : Nat) (ha : W f.off) (h : WritesOnly W s t) : WritesOnly W s (t.count f n) :=
  h.setChip f _ ha

theorem ite {c : Prop} [Decidable c] (ht : WritesOnly W s t) (hu : WritesOnly W s u) : WritesOnly W s (if c then t else u) := by
  split
  · exact ht
  · exact hu

/-- Writing one word of `W` for each entry of a list. -/
theorem foldl_setWord (place value : Nat → Nat) (l : List Nat) (hl : ∀ n ∈ l, W (place n)) (h : WritesOnly W s t) :
    WritesOnly W s (l.foldl (fun t n => t.setWord (place n) (value n)) t) := by
  induction l generalizing t with
  | nil => exact h
  | cons n l ih => exact ih (fun m hm => hl m (List.mem_cons_of_mem n hm)) (h.setWord _ _ (hl n List.mem_cons_self))

end WritesOnly

/-! ### The words of seven events (R70, R136, R385, R410, R454, R458, R466) -/

section
variable {s t : State}

theorem tileSwap_writesOnly {core te : Nat} (h : s.regs.wf = true) (run : exec (.tileSwap core te) s = .next t) :
    WritesOnly (· = teB core te + F.teTiles.off) s t := by
  cases run
  dsimp only
  split
  · exact .refl h
  · exact .ite (.refl h) (.bump _ _ 1 rfl (.of_regs_eq (.refl h) rfl))

theorem teFormatBarrierEnd_writesOnly {core te : Nat} (h : s.regs.wf = true)
    (run : exec (.teFormatBarrierEnd core te) s = .next t) : WritesOnly (· = qB core + F.qFmtBarriers.off) s t := by
  cases run
  dsimp only
  split
  · exact .refl h
  · exact .ite (.refl h) (.bump _ _ 1 rfl (.of_regs_eq (.refl h) rfl))

theorem ftDefer_writesOnly {core : Nat} (h : s.regs.wf = true) (run : exec (.ftDefer core) s = .next t) :
    WritesOnly (fun a => a = pcoreB core ∨ a = F.ftForced.off) s t := by
  cases run
  split
  · exact .refl h
  · exact .ite (.refl h) (.count _ 1 (.inr rfl) (.set _ _ 1 (.inl rfl) (.refl h)))

theorem ioscTrimMeasure_writesOnly {ppm : Int} (h : s.regs.wf = true) (run : exec (.ioscTrimMeasure ppm) s = .next t) :
    WritesOnly (fun a => a = F.trimSrc.off ∨ a = F.ioscTrimCode.off) s t := by
  cases run
  have source : WritesOnly (fun a => a = F.trimSrc.off ∨ a = F.ioscTrimCode.off) s (s.setChip F.trimSrc s.trimSource) :=
    .setChip _ _ (.inl rfl) (.refl h)
  exact .ite (.refl h) (.ite source (.setChip F.ioscTrimErr _ (.inr rfl) (.setChip F.ioscTrimCode _ (.inr rfl) source)))

/-- Both fields lie in CLK_STATUS. -/
theorem refclkPresenceChange_writesOnly {present : Bool} (h : s.regs.wf = true)
    (run : exec (.refclkPresenceChange present) s = .next t) : WritesOnly (· = F.trimSrc.off) s t := by
  cases run
  exact .setChip F.trimSrc _ rfl (.setChip F.refclkPresent _ rfl (.refl h))

theorem throttleEval_writesOnly {tj watts : Nat} (h : s.regs.wf = true) (run : exec (.throttleEval tj watts) s = .next t) :
    WritesOnly (fun a => a = F.pinW.off ∨ a = F.duty.off ∨ a = F.energy.off) s t := by
  cases run
  have measured : WritesOnly (fun a => a = F.pinW.off ∨ a = F.duty.off ∨ a = F.energy.off) s
      (((s.setChip F.pinW watts).count F.energy watts).takePwrCtrl) :=
    .of_regs_eq (.count F.energy watts (.inr (.inr rfl)) (.setChip F.pinW watts (.inl rfl) (.refl h))) rfl
  have moved (d : Nat) := measured.setChip F.duty d (.inr (.inl rfl))
  exact .ite (.refl h) (.ite (moved _) (.ite (moved _) measured))

/-- The entry of a destination lies in the route table. -/
theorem routeB_mem_table {n : Nat} (h : n ∈ List.range 2048) : routeB 0 ≤ routeB n ∧ routeB n < routeB 2048 := by
  have := List.mem_range.mp h
  unfold routeB
  omega

theorem routeUpdate_writesOnly (h : s.regs.wf = true) (run : exec .routeUpdate s = .next t) :
    WritesOnly (fun a => (routeB 0 ≤ a ∧ a < routeB 2048) ∨ a = F.tableUpdates.off) s t := by
  cases run
  refine .ite (.refl h) (.count F.tableUpdates 1 (.inr rfl) (.foldl_setWord _ _ _ (fun n hn => .inl (routeB_mem_table hn)) ?_))
  exact .of_regs_eq (.refl h) rfl

end

/-- Settles O51: each event writes only the words of its own set, and the addresses named are outside it. -/
theorem smallEventsKeepOtherRegisters : Obligations.SmallEventsKeepOtherRegisters := by
  refine ⟨fun _ _ _ _ h run a other => (tileSwap_writesOnly h run).look a other,
    fun _ _ _ _ h run a other => (teFormatBarrierEnd_writesOnly h run).look a other,
    fun _ _ _ h run a pcore forced => (ftDefer_writesOnly h run).look a fun h => h.elim pcore forced,
    fun _ _ _ h run a status trim => (ioscTrimMeasure_writesOnly h run).look a fun h => h.elim status trim,
    fun _ _ _ h run a other => (refclkPresenceChange_writesOnly h run).look a other,
    fun _ _ _ _ h run a pin duty energy => (throttleEval_writesOnly h run).look a fun h => h.elim pin fun h => h.elim duty energy,
    fun _ _ h run a table updates => (routeUpdate_writesOnly h run).look a (by omega)⟩

/-! ### The messages of chains, management and the boot grant (R265, R266, R370, R373, R441) -/

/-- A whole grant on a host port in REQUEST is not ignored (R441). -/
theorem grant_heeded {s : State} {port : Nat} {m : Msg} (request : s.rom = Rom.request) (host : port < 2)
    (whole : 32 ≤ m.data.length) : ¬ (s.rom ≠ Rom.request ∨ 2 ≤ port ∨ m.data.length < 32) := by
  rintro (other | far | short)
  · exact other request
  · exact Nat.not_le.mpr host far
  · exact Nat.not_le.mpr short whole

/-- Settles O24: a message that arrives goes to its type's own meaning (`Arrives.arrive`), which turns on the members that its
chain has here, and for a grant on what it names and on the kind of the boot. That CHAIN_DONE and REPLAY are sent on, kept for a
PASS not armed yet, and dropped for one that is over, is the model's choice (log entry 15). -/
theorem chainMessagesTakeEffect : Obligations.ChainMessagesTakeEffect := by
  refine ⟨fun s port m arrives => ?drawbar, fun s port m arrives members => ?chainDone,
    fun s port m arrives noMember => ?chainDoneEarly,
    fun s port m arrives => ⟨fun members => ?replay, fun noMember ahead => ?replayAhead,
      fun noMember past => ?replayOver⟩,
    fun s port m arrives => ?barCredit, fun s port m arrives => ?mgmt,
    fun s port m arrives kind request host whole warm => ?grantWarm,
    fun s port m arrives kind request host whole cold block => ?grantCold⟩
  case drawbar => exact congrArg Host.Outcome.next (arrives.arrive _)
  case chainDone => simp only [exec_chainDone, execChainDone, arrives.arrive, if_neg members]
  case chainDoneEarly => simp only [exec_chainDone, execChainDone, arrives.arrive, if_pos noMember]
  case replay => simp only [exec_replay, execReplay, arrives.arrive, if_pos members]
  case replayAhead => simp only [exec_replay, execReplay, arrives.arrive, noMember, ne_eq, not_true, if_false, if_pos ahead]
  case replayOver =>
    simp only [exec_replay, execReplay, arrives.arrive, noMember, past, ne_eq, not_true, if_false, Bool.false_eq_true]
  case barCredit => exact congrArg Host.Outcome.next (arrives.arrive _)
  case mgmt => exact congrArg Host.Outcome.next (arrives.arrive _)
  case grantWarm =>
    simp only [exec_bootGrant, execBootGrant, arrives.arrive, kind, ne_eq, not_true, if_false,
      if_neg (grant_heeded request host whole), setChip_boot, warm, if_true]
  case grantCold =>
    simp only [exec_bootGrant, execBootGrant, arrives.arrive, kind, ne_eq, not_true, if_false,
      if_neg (grant_heeded request host whole), setChip_boot, cold, Bool.false_eq_true, block]

/-! ### Tiles, sets and carts (R70, R72, R76, R78, R136) -/

/-- The set that SET_DRAIN_START takes: none while one drains, else the READY one that became READY first (R72). -/
def Te.nextDrain (x : Te) : Option Nat :=
  if x.draining.isSome then none
  else if x.setA.st = 2 ∧ (x.setB.st ≠ 2 ∨ x.setA.readyNo ≤ x.setB.readyNo) then some 0
  else if x.setB.st = 2 then some 1 else none

theorem Te.nextDrain_eq_some {x : Te} {n : Nat} (free : x.draining = none)
    (oldest : (n = 0 ∧ x.setA.st = 2 ∧ (x.setB.st ≠ 2 ∨ x.setA.readyNo ≤ x.setB.readyNo)) ∨
      (n = 1 ∧ x.setB.st = 2 ∧ (x.setA.st ≠ 2 ∨ x.setB.readyNo < x.setA.readyNo))) : x.nextDrain = some n := by
  unfold Te.nextDrain
  rw [free, Option.isSome_none, if_neg Bool.false_ne_true]
  obtain ⟨rfl, first⟩ | ⟨rfl, ready, later⟩ := oldest
  · rw [if_pos first]
  · rw [if_neg (by omega), if_pos ready]

/-- A cart is taken as it came unless what strikes it is one of the causes of a cart. -/
theorem Cart.upset_of_plain (c : Cart) {cause : Nat} (plain : cause < 2 ∨ 5 < cause) : c.upset cause = c := by
  unfold Cart.upset
  split
  · omega
  · omega
  · omega
  · rfl

/-- An addition meets no fault. -/
theorem addCart_ok (p e n : Nat) (c : Cart) (w : State) : ∃ x, addCart p e n c w = .ok () x := ⟨_, rfl⟩

/-- How the work for a cart ends: its credit returns, after a fault of the carriage with its sender charged (R78, R402). -/
def cartEnd (core te i : Nat) (c : Cart) : EStateM.Result Flt State Unit → State
  | .ok _ x => x.cartCredit core te c
  | .error f x => (x.faultItem core i f c.src).cartCredit core te c

/-- The state in which an engine works on cart `c`, the first of `mine` on its link, for the set `a`: its findings are met, and
the cart has left its buffer, after the wait for it and for the others of its row (R78). -/
def State.cartTaken (s : State) (core te : Nat) (found : EngFind) (a : AccSet) (c : Cart) (mine : List Cart) : State :=
  let s := (s.meet core found).bump (teB core te) F.teCycBstall found.barWait
  let s := if c.src = 0 then s
    else s.qAwait (Qk.drawbar (c.src - 1) (engineNo core te)) (if a.sent % 4 = 0 then mine.length - 3 else mine.length)
  s.modTe core te fun x => { x with link := x.link.erase c }

/-- The work on that cart: at the chain's last engine, whose drain writes, the faults of its port come first (R78, R281). -/
def cartWork (core te n i : Nat) (t : TdItem) (found : EngFind) (c : Cart) : Eng Unit := do
  if Ca.pos t.carr == Ca.lenm1 t.carr then tePort core te t found n (found.row % 64) false
  takeCart core te n i t c

/-- DRAWBAR_CART_RX takes the next cart of a row whose carts are there, where the next engine has room (R78). -/
theorem drawbarCartRx_takes {s : State} {core te n i : Nat} {found : EngFind} {t : TdItem} {c : Cart} {cs : List Cart}
    (draining : (s.te core te).draining = some n) (held : s.itemOf core ((s.te core te).set n).carr = some (i, t))
    (fed : s.fed core t = c :: cs) (chained : ((s.te core te).set n).stage = 0) (inner : Ca.pos t.carr ≠ 0)
    (left : ((s.te core te).set n).sent < 4 * ((s.te core te).set n).rows.length)
    (row : ((s.te core te).set n).sent % 4 = 0 → 4 ≤ (s.fed core t).length)
    (room : (Ca.pos t.carr == Ca.lenm1 t.carr) = false → s.linkRoom core t = true)
    (plain : found.cause < 2 ∨ 5 < found.cause) :
    exec (.drawbarCartRx core te found) s = .next (cartEnd core te i c
      (cartWork core te n i t found c (s.cartTaken core te found ((s.te core te).set n) c (s.fed core t)))) := by
  have going : ¬ (((s.te core te).set n).stage ≠ 0 ∨ Ca.pos t.carr = 0
      ∨ 4 * ((s.te core te).set n).rows.length ≤ ((s.te core te).set n).sent
      ∨ (((s.te core te).set n).sent % 4 = 0 ∧ (s.fed core t).length < 4)
      ∨ ((Ca.pos t.carr == Ca.lenm1 t.carr) = false ∧ s.linkRoom core t = false)) := by
    rintro (other | first | sentAll | ⟨start, few⟩ | ⟨further, full⟩)
    · exact other chained
    · exact inner first
    · exact Nat.not_le.mpr left sentAll
    · exact Nat.not_le.mpr few (row start)
    · exact Bool.false_ne_true (full.symm.trans (room further))
  have whole : found.cause ≠ 2 := by omega
  rw [fed] at going ⊢
  simp only [exec_drawbarCartRx, execDrawbarCartRx, draining, held, fed, if_neg going, if_neg whole, c.upset_of_plain plain]
  rfl

/-- Settles O35: the conditions of each row are its hypotheses, so its branch is the outcome. A cart that is added in the middle
of a row goes on by `takeCart_ok`. -/
theorem ternaryEnginesTakeEffect : Obligations.TernaryEnginesTakeEffect := by
  refine ⟨?swap, ?barrier, ?readyA, ?readyB, ?drain, ?drained, ?cart⟩
  case swap =>
    intro s core te y shadow used free
    simp only [exec_tileSwap, execTileSwap, shadow]
    exact congrArg _ (if_neg (Bool.eq_false_iff.mp free))
  case barrier =>
    intro s core te t turn waits set other freeA freeB
    simp only [exec_teFormatBarrierEnd, execTeFormatBarrierEnd, turn]
    refine congrArg _ (if_neg ?_)
    rintro (unset | same | busy | busy)
    · exact set unset
    · exact other same
    · exact Bool.false_ne_true (freeA.symm.trans busy)
    · exact Bool.false_ne_true (freeB.symm.trans busy)
  case readyA =>
    intro s core te fill full
    simp only [exec_setReady, execSetReady, fill, full, beq_self_eq_true, Bool.and_self, if_true]
  case readyB =>
    intro s core te notA fill full
    have passed : ((s.te core te).setA.st == 1 && (s.te core te).setA.full) = false := by
      cases notA with
      | inl other => rw [beq_eq_false_iff_ne.mpr other, Bool.false_and]
      | inr filling => rw [filling, Bool.and_false]
    simp only [exec_setReady, execSetReady, passed, fill, full, beq_self_eq_true, Bool.and_self, if_true, Bool.false_eq_true,
      if_false]
  case drain =>
    dsimp only
    intro s core te found n i t free oldest held
    have picked := Te.nextDrain_eq_some free oldest
    unfold Te.nextDrain at picked
    simp only [exec_setDrainStart, execSetDrainStart, picked, held]
  case drained =>
    intro s core te n draining gone
    simp only [exec_setDrainDone, execSetDrainDone, draining, if_neg (Nat.not_lt.mpr gone)]
  case cart =>
    intro s core te found n i t c cs draining a held mine last fed chained inner left row room plain u v w run
    have taken := drawbarCartRx_takes draining held fed chained inner left row room plain
    have ends {r : EStateM.Result Flt State Unit} (result : run w = r) :
        exec (.drawbarCartRx core te found) s = .next (cartEnd core te i c r) := by
      rw [← result]
      exact taken
    refine ⟨fun x ok => ends ok, fun f x fault => ends fault, fun further good middle => ?_⟩
    obtain ⟨x, added⟩ := addCart_ok core te n c w
    have sent := takeCart_ok (i := i) good middle (beq_eq_false_iff_ne.mp further) added
    have ran : run w = takeCart core te n i t c w := by
      simp only [run, further]
      rfl
    exact ⟨x, added, ends (ran.trans sent)⟩

/-! ### Expanders, gather engines and partials (R71, R111, R157, R183, R184) -/

/-- What a command's work meets changes no core. -/
@[simp] theorem meet_cores (s : State) (p : Nat) (f : EngFind) : (s.meet p f).cores = s.cores :=
  (State.meet_upd (F := [.regs, .hbm, .spm]) p f (Upd.refl s) (.of rfl)).keep .cores rfl

@[simp] theorem meet_core (s : State) (p : Nat) (f : EngFind) (q : Nat) : (s.meet p f).core q = s.core q := by
  simp only [State.core, meet_cores]

/-- The work of XE_BLOCK_DONE for block `b` of an expander: its payload is read and expanded, and its CRC is compared (R111). -/
def checkBlock (core : Nat) (v : UnitAt) (stall : Nat) (t : TdItem) (x : Xe) (b : Nat) (image : List Byte) : Eng Unit :=
  let y := x.blocks.getD b {}
  do
    readPayload core t v.found
    match expand y.entry y.payload image with
    | .error c => failBlock core v.no t x b y c.1 c.2 v.found.tileWait
    | .ok raw =>
      if crc32c y.payload ≠ Ie.crc y.entry then failBlock core v.no t x b y 0x11 0 v.found.tileWait
      else modify fun s => s.passBlock core v.no b stall y raw

/-- XE_BLOCK_DONE checks the first block that has not passed, where it has arrived. -/
theorem xeBlockDone_checks {s : State} {core stall i b : Nat} {v : UnitAt} {t : TdItem}
    (held : s.itemOf core (s.xe core v.no).carr = some (i, t))
    (next : (s.xe core v.no).blocks.findIdx? (fun z => z.st != 3) = some b)
    (arrived : ((s.xe core v.no).blocks.getD b {}).st = 2) :
    exec (.xeBlockDone core v stall) s = .next ((s.bump (spmB core) F.spmCycYield v.found.yield).work core i
      (checkBlock core v stall t (s.xe core v.no) b
        (SMap.look {} s.tables (Ie.slot ((s.xe core v.no).blocks.getD b {}).entry)).image)) := by
  simp only [exec_xeBlockDone, execXeBlockDone, held, next, arrived, ne_eq, not_true, if_false]
  rfl

/-- Settles O36: the conditions of each row are its hypotheses, so its branch is the outcome. A block that has arrived goes by
`xeBlockDone_checks` to its checks, and a partial's findings change no core (`meet_core`). -/
theorem expandersAndReadersTakeEffect : Obligations.ExpandersAndReadersTakeEffect := by
  refine ⟨?start, ?passes, ?fails, ?differs, ?cart, ?lands, ?folds⟩
  case start =>
    intro s core x idx t ld held load isTe own engine first expander shadow credit room
    simp only [exec_xeTileStart, execXeTileStart, held, load]
    refine congrArg _ (if_neg ?_)
    rintro (notTe | other | past | before | busy | shadowed | held | ⟨unstaged, few⟩)
    · exact Bool.false_ne_true (notTe.symm.trans isTe)
    · exact other own
    · exact Nat.not_le.mpr engine past
    · exact Bool.false_ne_true (first.symm.trans before)
    · exact busy expander
    · exact Bool.false_ne_true (shadow.symm.trans shadowed)
    · exact Bool.false_ne_true (held.symm.trans credit)
    · exact Nat.not_le.mpr few (room unstaged)
  case passes =>
    dsimp only
    intro s core v stall i t b raw held next arrived expanded same
    simp only [xeBlockDone_checks held next arrived, checkBlock, expanded, same, ne_eq, not_true, if_false]
  case fails =>
    dsimp only
    intro s core v stall i t b k f held next arrived failed
    simp only [xeBlockDone_checks held next arrived, checkBlock, failed]
  case differs =>
    dsimp only
    intro s core v stall i t b raw held next arrived expanded other
    simp only [xeBlockDone_checks held next arrived, checkBlock, expanded, if_pos other]
  case cart =>
    intro s x idx ove tile t g held found more asked room landed
    simp only [exec_geCartRead, execGeCartRead, held, found]
    refine congrArg _ (if_neg ?_)
    rintro (whole | unasked | full | coming)
    · exact Nat.not_le.mpr more whole
    · exact Nat.not_le.mpr asked unasked
    · exact room full
    · exact Bool.false_ne_true (coming.symm.trans landed)
  case lands =>
    dsimp only
    intro s core found c rest i t waiting first held port cause good
    simp only [meet_core] at first
    simp only [exec_partialCartRx, execPartialCartRx, meet_core, waiting, first, Option.bind_some, held, Option.map_some,
      List.length_cons, if_neg port]
    refine congrArg _ (if_neg ?_)
    rintro (struck | bad)
    · exact cause struck
    · exact Bool.false_ne_true (bad.symm.trans good)
  case folds =>
    intro s core idx pick t x held waiting isLe may
    simp only [exec_mergeFold, execMergeFold, held, waiting]
    refine congrArg _ (if_neg ?_)
    rintro (other | waits)
    · exact Bool.false_ne_true (other.symm.trans isLe)
    · exact Bool.false_ne_true (waits.symm.trans may)

end Sys2Proof.Machine
end

section
/-!
PROOFS. Weight blocks and the expander (`04_weight_blocks_and_expander.md`): the CRC of weight blocks, and the commands of the
code tables and the overlays.
-/

namespace Sys2Proof.Machine

/-! ### CRC-32C (R110) -/

/-- One bit into a reflected CRC register: it shifts right, and the polynomial is XORed in where the bit shifted out was one. -/
def crcBit (poly c : Nat) : Nat := if c % 2 = 1 then c / 2 ^^^ poly else c / 2

theorem crcBits_zero (poly c : Nat) : crcBits poly 0 c = c := rfl

theorem crcBits_succ (poly k c : Nat) : crcBits poly (k + 1) c = crcBits poly k (crcBit poly c) := rfl

theorem crc32c_eq_foldl (l : List Byte) :
    crc32c l = l.foldl (fun c b => crcBits 0x82F63B78 8 (c ^^^ b.toNat)) 0xFFFFFFFF ^^^ 0xFFFFFFFF := rfl

@[simp] theorem fieldLE_zero (l : List Byte) (o : Nat) : fieldLE l o 0 = 0 := by
  rw [fieldLE, List.take_zero, leNat]

/-- A field is its first byte and, at 256 times the weight, the field of the bytes after it; past the list's end both read 0. -/
theorem fieldLE_succ (l : List Byte) (o n : Nat) :
    fieldLE l o (n + 1) = (l.getD o 0).toNat + 256 * fieldLE l (o + 1) n := by
  unfold fieldLE
  by_cases inside : o < l.length
  · rw [List.drop_eq_getElem_cons inside, List.take_succ_cons, leNat, List.getD_eq_getElem?_getD,
      List.getElem?_eq_getElem inside, Option.getD_some]
  · have past : l.length ≤ o := Nat.le_of_not_lt inside
    rw [List.drop_eq_nil_of_le past, List.drop_eq_nil_of_le (Nat.le_succ_of_le past), List.take_nil, List.take_nil, leNat,
      List.getD_eq_getElem?_getD, List.getElem?_eq_none past, Option.getD_none]
    rfl

/-- Settles O53: the fold of `crc32c_eq_foldl` takes its eight steps for a byte one by one by `crcBits_succ`, and the CRC field
its four bytes by `fieldLE_succ`. The bits of the polynomial and the check value are evaluated. -/
theorem crc32cIsR110 : Obligations.Crc32cIsR110 := by
  refine ⟨?reflected, fun l => ?steps, ?checkValue, fun e _ => ?littleEndian⟩
  case reflected => decide
  case steps =>
    simp only [crc32c_eq_foldl, crcBits_succ, crcBits_zero]
    rfl
  case checkValue => decide +kernel
  case littleEndian =>
    simp only [Ie.crc, fieldLE_succ, fieldLE_zero, Nat.reduceAdd]
    omega

/-! ### The code tables and the overlays (R103, R104, R146, R147, R152, R164) -/

/-- Settles O19: each command is served, so its own meaning runs on the state in which its mailbox is taken
(`takeCommand_served`), and the conditions of the row are its hypotheses, so its last branch is the outcome. That M5 is extended
when the load completes is the model's choice (log entry 18). -/
theorem tableAndOverlayCommandsComplete : Obligations.TableAndOverlayCommandsComplete := by
  dsimp only [Obligations.TableAndOverlayCommandsComplete]
  refine ⟨?load, ?loadDone, ?retire, ?overlayLoad, ?drop, ?read⟩
  case load =>
    intro s box served slot image ready unpinned
    have legal := not_or.mpr ⟨Nat.not_lt.mpr slot, ne_false_of_eq_true image⟩
    simp only [exec_tableLoad, execTableLoad, takeCommand_served _ served, if_neg legal, if_neg ready,
      if_neg (not_not_intro unpinned)]
  case loadDone =>
    intro s slot known loading
    simp only [exec_tableLoadDone, execTableLoadDone, if_neg (not_or.mpr ⟨Nat.not_lt.mpr known, not_not_intro loading⟩)]
  case retire =>
    intro s box served slot live
    simp only [exec_tableRetire, execTableRetire, takeCommand_served _ served,
      if_neg (not_or.mpr ⟨Nat.not_lt.mpr slot, not_not_intro live⟩)]
  case overlayLoad =>
    intro s box pick i gid bytes served name owner room free image
    have allowed : ¬ (((s.taken box).ovName ((s.cmd box).arg 0 2)).owner ≠ none ∧
        ((s.taken box).ovName ((s.cmd box).arg 0 2)).owner ≠ some (s.cmd box).coach) :=
      fun ⟨owned, other⟩ => owner.elim owned other
    simp only [exec_overlayLoad, execOverlayLoad, takeCommand_served _ served, if_neg (Nat.not_lt.mpr name), if_neg allowed, room,
      if_true, free, image]
  case drop =>
    intro s box served name caller current
    have allowed : ¬ ((s.cmd box).isAdmin = false ∧ ((s.taken box).ovName ((s.cmd box).arg 0 2)).owner ≠ none ∧
        ((s.taken box).ovName ((s.cmd box).arg 0 2)).owner ≠ some (s.cmd box).coach) := by
      rintro ⟨notAdmin, owned, other⟩
      exact caller.elim (ne_true_of_eq_false notAdmin) fun owner => owner.elim owned other
    simp only [exec_overlayDrop, execOverlayDrop, takeCommand_served _ served, if_neg (Nat.not_lt.mpr name), if_neg allowed,
      if_neg current]
  case read =>
    intro s box served one sixty inside
    have legal : ¬ ((s.cmd box).arg 2 1 = 0 ∨ 60 < (s.cmd box).arg 2 1 ∨
        16384 < (s.cmd box).arg 0 2 + (s.cmd box).arg 2 1) := by omega
    simp only [exec_overlayRead, execOverlayRead, takeCommand_served _ served, if_neg legal]

end Sys2Proof.Machine
end

section
/-!
PROOFS. The KV cache (`08_kv_cache.md`): the commands that lay out HBM, the commands of sequences and shipments, the messages of
a shipment at both ends, the writes of coaches into their entries and the timers of the sequence buffer, and the steps. In a
command's clause, `c` is the command as it stands in its mailbox, and `u` the state in which the mailbox is taken.
-/

namespace Sys2Proof.Machine

/-! ### The layout of HBM (R206, R297, R313, R318, R319) -/

/-- Settles O17: each command is served, so its own meaning runs on the state in which its mailbox is taken
(`takeCommand_served`), and the conditions of the row are its hypotheses, so its last branch is the outcome. That a MEM_MARGIN
adds its stacks to a sweep in progress is the model's choice (log entry 94). -/
theorem regionAndPoolCommandsComplete : Obligations.RegionAndPoolCommandsComplete := by
  dsimp only [Obligations.RegionAndPoolCommandsComplete]
  refine ⟨?regionSet, ?regionClear, ?margin, ?poolSet, ?marginDone⟩
  case regionSet =>
    intro s box pick r b served
    rw [exec_regionSet, execRegionSet, takeCommand_served _ served]
    generalize s.cmd box = c, s.taken box = u
    intro form quad frames fits oneMirror untaken free slots mirror
    have legal : ¬ (1 < c.arg 4 1 ∨ (c.arg 4 1 = 1 ∧ 3 < c.arg 5 1) ∨ c.arg 2 2 = 0 ∨ 640 < c.arg 0 2 + c.arg 2 2 ∨
        (bit (c.arg 6 1) 1 = true ∧ bit (c.arg 6 1) 2 = true) ∨ ((upFrom (c.arg 0 2) (c.arg 2 2)).any u.frameTaken) = true) := by
      rintro (other | ⟨striped, past⟩ | empty | past | both | taken)
      · exact Nat.not_lt.mpr form other
      · exact Nat.not_lt.mpr (quad striped) past
      · exact frames empty
      · exact Nat.not_lt.mpr fits past
      · exact Bool.false_ne_true (oneMirror.symm.trans (Bool.and_eq_true_iff.mpr both))
      · exact Bool.false_ne_true (untaken.symm.trans taken)
    simp only [if_neg legal, free, if_neg (Bool.eq_false_iff.mp slots), mirror]
  case regionClear =>
    intro s box served
    rw [exec_regionClear, execRegionClear, takeCommand_served _ served]
    generalize s.cmd box = c, s.taken box = u
    intro known valid unused
    have legal := not_or.mpr ⟨Nat.not_lt.mpr known, valid⟩
    simp only [if_neg legal, unused, Bool.false_eq_true, if_false]
  case margin =>
    intro s box served
    rw [exec_memMargin, execMemMargin, takeCommand_served _ served]
  case poolSet =>
    intro s box served
    rw [exec_kvPoolSet, execKvPoolSet, takeCommand_served _ served]
    generalize s.cmd box = c, s.taken box = u
    generalize c.arg 0 8 = a, c.arg 8 8 = b, c.arg 16 4 = n, c.arg 20 8 = d, c.arg 28 4 = m
    intro used reserved cold pages hot scale slow hotScale hotCold scaleCold
    have idle : ¬ (u.chip F.kvUsed ≠ 0 ∨ u.chip F.reserved ≠ 0 ∨ u.chip F.coldUsed ≠ 0) := by
      simp [used, reserved, cold]
    have legal : ¬ (119304647 < n ∨ u.areaOk a (4096 * n) = false ∨ u.areaOk b (512 * n) = false ∨ u.areaOk d (4608 * m) = false ∨
        areasMeet a (4096 * n) b (512 * n) = true ∨ areasMeet a (4096 * n) d (4608 * m) = true ∨
        areasMeet b (512 * n) d (4608 * m) = true) := by
      simp [Nat.not_lt.mpr pages, hot, scale, slow, hotScale, hotCold, scaleCold]
    simp only [if_neg idle, if_neg legal]
  case marginDone =>
    intro s eyes sweep
    exact congrArg Host.Outcome.next (if_neg fun idle => sweep idle.1)

/-! ### Sequences (R209, R210, R214, R215, R223, R237, R239) -/

section
variable {s : State} {slot : Nat} {m : Move}

/-- A move that waits for nothing ends as its slot's tier says: in the cold tier on the way out, in the hot one on the way back. -/
theorem kvMoveDone_ends (moves : s.moveOf slot = some m) (starts : m.waiting = false) (answered : s.moveWaits slot = false)
    (pages : List Nat) :
    exec (.kvMoveDone slot pages false) s = .next
      (if s.seq slot Se.tier = Tr.toCold then s.endPause slot m pages false
        else if s.seq slot Se.tier = Tr.toHot then s.endResume slot m pages else s) := by
  simp only [exec_kvMoveDone, execKvMoveDone, moves, starts, answered, Bool.false_eq_true, false_and, or_self, if_false]

end

/-- Settles O20: each command is served (`takeCommand_served`), and the conditions of its row are its hypotheses, so its last
branch is the outcome. A move ends by `kvMoveDone_ends`. -/
theorem sequenceCommandsComplete : Obligations.SequenceCommandsComplete := by
  dsimp only [Obligations.SequenceCommandsComplete]
  refine ⟨?seqOpen, ?cancel, ?pause, ?resume, ?paused, ?resumed⟩
  case seqOpen =>
    intro s box pick n served room free
    simp only [exec_seqOpen, execSeqOpen, takeCommand_served _ served, room, if_true, free]
  case cancel =>
    intro s box served allowed
    simp only [exec_seqCancel, execSeqCancel, takeCommand_served _ served, allowed]
  case pause =>
    intro s box served
    rw [exec_kvPause, execKvPause, takeCommand_served _ served]
    generalize s.cmd box = c, s.taken box = u
    generalize c.arg 0 2 = n, c.arg 2 1 = tier, c.arg 4 4 = ttl, c.arg 8 8 = buf
    intro allowed movable exporting live place
    have legal : ¬ (u.movable n = false ∨ u.seq n Se.exporting = 1 ∨ ttl = 0 ∨ (tier ≠ 1 ∧ tier ≠ 2) ∨
        (tier = 2 ∧ buf % 4096 ≠ 0)) := by
      rintro (unmovable | ships | dead | other | unaligned)
      · exact Bool.false_ne_true (unmovable.symm.trans movable)
      · exact exporting ships
      · exact live dead
      · omega
      · omega
    have room : ¬ (tier = 1 ∧ u.chip F.coldFree < u.coldPromised + u.coldNeed n) := by omega
    simp only [allowed, if_neg legal, if_neg room]
  case resume =>
    intro s box served
    rw [exec_kvResume, execKvResume, takeCommand_served _ served]
    generalize s.cmd box = c, s.taken box = u
    generalize c.arg 0 2 = n
    intro allowed cold live unexpired pages
    have legal : ¬ (u.seq n Se.tier ≠ Tr.cold ∨ u.seq n Se.state = Ss.ending ∨
        (u.seq n Se.expiry ≠ 2 ^ 64 - 1 ∧ u.seq n Se.expiry ≤ u.gcount)) := by
      rintro (hot | ends | ⟨timed, past⟩)
      · exact hot cold
      · exact live ends
      · exact unexpired.elim timed (Nat.not_lt.mpr past)
    simp only [allowed, if_neg legal, pages, ne_eq, not_true, if_false]
  case paused =>
    intro s slot pages m moves starts answered out
    rw [kvMoveDone_ends moves starts answered, if_pos out]
  case resumed =>
    intro s slot pages m moves starts answered back
    have notOut : s.seq slot Se.tier ≠ Tr.toCold := fun out => absurd (back.symm.trans out) (by decide)
    rw [kvMoveDone_ends moves starts answered, if_neg notOut, if_pos back]

/-! ### Shipments at the command (R216, R217, R221, R226) -/

/-- Settles O21: each command is served (`takeCommand_served`), and the conditions of its row are its hypotheses, so its last
branch is the outcome. -/
theorem shipmentCommandsComplete : Obligations.ShipmentCommandsComplete := by
  dsimp only [Obligations.ShipmentCommandsComplete]
  refine ⟨?importOpen, ?importClose, ?ship, ?expiry⟩
  case importOpen =>
    intro s box pick i served
    rw [exec_kvImportOpen, execKvImportOpen, takeCommand_served _ served]
    generalize s.cmd box = c, s.taken box = u
    generalize c.arg 0 2 = n
    intro allowed idle movable owner pages free
    have legal : ¬ (u.seq n Se.state ≠ Ss.idle ∨ u.movable n = false ∨ u.seq n Se.owner ≠ c.coach) := by
      simp [idle, movable, owner]
    simp only [allowed, if_neg legal, pages, ne_eq, not_true, if_false, free]
  case importClose =>
    intro s box i x served named opened caller
    simp only [exec_kvImportClose, execKvImportClose, takeCommand_served _ served, named, opened, caller, ne_eq, not_true, if_false,
      Bool.false_eq_true]
  case ship =>
    intro s box served
    rw [exec_kvShip, execKvShip, takeCommand_served _ served]
    generalize s.cmd box = c, s.taken box = u
    intro allowed movable paused
    have legal := not_or.mpr ⟨ne_false_of_eq_true movable, paused⟩
    simp only [allowed, if_neg legal]
  case expiry =>
    intro s idx opened past
    exact congrArg Host.Outcome.next (if_pos ⟨opened, past⟩)

/-! ### Shipments at the receiver (R218-R221) -/

/-- A message for an opened import whose time has not passed goes on to its own meaning. -/
theorem forImport_open {s : State} {m : Msg} {i : Nat} {x : Imp} (named : s.importBy m.arg = some (i, x)) (opened : x.st = 1)
    (unexpired : s.gcount < x.expiry) (page : Nat) (own : Nat → Imp → State → State) : s.forImport m page own = own i x s := by
  have live : ¬ (x.st = 1 ∧ x.expiry ≤ s.gcount) := fun past => Nat.not_le.mpr unexpired past.2
  simp only [State.forImport, named, if_neg live, if_pos opened]

/-- Settles O25: a cart that arrives goes to its own meaning (`Arrives.arrive`), on the import that it names
(`forImport_open`), and the checks of the row are its hypotheses. -/
theorem shipmentMessagesTakeEffect : Obligations.ShipmentMessagesTakeEffect := by
  dsimp only [Obligations.ShipmentMessagesTakeEffect]
  refine ⟨?header, ?record, ?data, ?trailer⟩
  case header =>
    intro s port m i x arrives good named opened unexpired fresh pages listed placed layers
    have current : ¬ (x.begun = true ∧ fieldLE m.data 10 1 < x.attempt) := fun ⟨begun, old⟩ => Nat.not_lt.mpr (fresh begun) old
    have fits : ¬ (x.left + x.landed.length < fieldLE m.data 24 4 ∨ fieldLE m.data 20 4 < (fieldLE m.data 12 4 + 31) / 32 ∨
        (s.unbuffer port m).cfg x.slot Se.listlen < (fieldLE m.data 12 4 + 31) / 32 ∨
        (((s.unbuffer port m).graph ((s.unbuffer port m).cfg x.slot Se.graph)).map fun g => g.attnLayers.length)
          ≠ some (fieldLE m.data 16 2)) := by
      rintro (many | short | long | other)
      · exact Nat.not_lt.mpr pages many
      · exact Nat.not_lt.mpr listed short
      · exact Nat.not_lt.mpr placed long
      · exact other layers
    simp only [exec_shipHeader, execShipHeader, arrives.arrive, good, Bool.true_eq_false, if_false,
      forImport_open named opened unexpired, if_neg current, if_neg fits]
  case record =>
    intro s port m i x arrives good named opened unexpired begun counted expected
    simp only [exec_shipPageRecord, execShipPageRecord, arrives.arrive, forImport_open named opened unexpired, begun,
      Bool.true_eq_false, if_false, if_pos (And.intro good (And.intro counted expected))]
  case data =>
    intro s port m page i x r a arrives named opened unexpired kept whole crcs place
    simp only [exec_shipPageData, execShipPageData, arrives.arrive, forImport_open named opened unexpired, kept, whole, crcs,
      beq_self_eq_true, Bool.and_self, if_true, place]
  case trailer =>
    intro s port m i x arrives good named opened unexpired begun counted landed digest
    have uncommitted : ¬ ((s.unbuffer port m).importBy m.arg).any (fun e => e.2.st == 2) = true := by
      simp [named, opened]
    have whole : ¬ (fieldLE m.data 8 4 ≠ x.npages ∨ x.landed.length ≠ x.npages) :=
      not_or.mpr ⟨not_not_intro counted, not_not_intro landed⟩
    simp only [exec_shipTrailer, execShipTrailer, arrives.arrive, good, Bool.true_eq_false, if_false, if_neg uncommitted,
      forImport_open named opened unexpired, begun, if_neg whole, if_pos digest]

/-! ### Shipments at the sender (R217, R219-R221) -/

/-- An answer of a kind goes on to the meaning of that kind. -/
theorem Arrives.shipAnswer {s : State} {p kind : Nat} {m : Msg} (arrives : Arrives s p m 0x31) (named : m.arg % 256 = kind)
    (own : State → State) : s.shipAnswer p m kind own = own (s.unbuffer p m) := by
  simp only [State.shipAnswer, arrives.arrive, if_pos named]

/-- Ten milliseconds without an answer count as a loss of the shipment (R221). -/
theorem shipAnswerTimeout_restarts {s : State} {slot : Nat} {e : Exp} (named : s.exportOf slot = some e) (begun : e.st ≠ 0)
    (late : e.sentAt + 10000000 ≤ s.gcount) : exec (.shipAnswerTimeout slot) s = .next (s.shipRestart slot e) := by
  have waited : ¬ (e.st = 0 ∨ s.gcount < e.sentAt + 10000000) := not_or.mpr ⟨begun, Nat.not_lt.mpr late⟩
  simp only [exec_shipAnswerTimeout, execShipAnswerTimeout, named, if_neg waited]

/-- Settles O26: an answer that arrives goes to the meaning of its kind (`Arrives.shipAnswer`), which turns on the shipment that it
names; a late one is a loss (`shipAnswerTimeout_restarts`). That a NAK makes the sender send the trailer again beside the page
is log entry 52, and the CAUSE of the third loss is a free value (log entries 3 and 52). -/
theorem shipmentAnswersTakeEffect : Obligations.ShipmentAnswersTakeEffect := by
  dsimp only [Obligations.ShipmentAnswersTakeEffect]
  refine ⟨?accept, ?nak, ?commit, ?abort, ?restart, ?lost⟩
  case accept =>
    intro s port m n e arrives kind named waits sound
    simp only [exec_shipAccept, execShipAccept, arrives.shipAnswer kind, named, waits, ne_eq, not_true, if_false, sound,
      Bool.false_eq_true]
  case nak =>
    intro s port m n e p arrives kind named sent integrity once page
    simp only [exec_shipNak, execShipNak, arrives.shipAnswer kind, named, page,
      if_pos (And.intro sent (And.intro integrity once))]
    exact ⟨fun sound => congrArg _ (if_neg (Bool.eq_false_iff.mp sound)), fun poisoned => congrArg _ (if_pos poisoned)⟩
  case commit =>
    intro s port m n e arrives kind named
    simp only [exec_shipCommit, execShipCommit, arrives.shipAnswer kind, named]
  case abort =>
    intro s port m n e arrives kind named
    simp only [exec_shipAbort, execShipAbort, arrives.shipAnswer kind, named]
  case restart =>
    intro s slot e named begun late few
    simp only [shipAnswerTimeout_restarts named begun late, State.shipRestart, if_neg (Nat.not_le.mpr few)]
  case lost =>
    intro s slot e named begun late third
    simp only [shipAnswerTimeout_restarts named begun late, State.shipRestart, if_pos third]

/-! ### Entries and timers (R205, R213, R222, R223, R226, R236-R240, R345) -/

section
variable {s : State} {coach slot : Nat}

/-- A write of INPUT or CTRL by the coach that owns the slot: its bytes land, and the word that they reach is snooped (R345). -/
theorem entryWrite_owned (table : s.seqTable = true) (known : slot < 8192) (used : s.seq slot Se.state ≠ Ss.free)
    (owned : s.seq slot Se.owner = coach) {off : Nat} {l : List Byte} (inside : off + l.length ≤ 128) :
    s.entryWrite coach slot off l =
      let v := s.memWrite (s.seqB slot + off) l
      let w := if off < 40 ∧ 32 < off + l.length then v.inputWritten slot else v
      if off < 68 ∧ 64 < off + l.length then w.ctrlWritten slot else w := by
  have allowed : ¬ (s.seqTable = false ∨ 8192 ≤ slot ∨ s.seq slot Se.state = Ss.free ∨ s.seq slot Se.owner ≠ coach) := by
    simp [table, used, owned, Nat.not_le.mpr known]
  have kept : l.take (128 - off) = l := List.take_of_length_le (by omega)
  simp only [State.entryWrite, if_neg allowed, kept, Bool.and_eq_true, decide_eq_true_eq]

/-- A write of the CTRL word. -/
theorem entryWrite_ctrl (table : s.seqTable = true) (known : slot < 8192) (used : s.seq slot Se.state ≠ Ss.free)
    (owned : s.seq slot Se.owner = coach) (word : Nat) :
    s.entryWrite coach slot 64 (leBytes 4 word) = (s.memWrite (s.seqB slot + 64) (leBytes 4 word)).ctrlWritten slot := by
  rw [entryWrite_owned table known used owned (by rw [length_leBytes]; decide)]
  simp [length_leBytes]

/-- A write of the INPUT word. -/
theorem entryWrite_input (table : s.seqTable = true) (known : slot < 8192) (used : s.seq slot Se.state ≠ Ss.free)
    (owned : s.seq slot Se.owner = coach) (word : Nat) :
    s.entryWrite coach slot 32 (leBytes 8 word) = (s.memWrite (s.seqB slot + 32) (leBytes 8 word)).inputWritten slot := by
  rw [entryWrite_owned table known used owned (by rw [length_leBytes]; decide)]
  simp [length_leBytes]

end

/-- Settles O31: the writes of an owner land and are snooped by `entryWrite_input` and `entryWrite_ctrl`, and each timer's
condition is its hypothesis. That the idle timer starts pauses while no step runs is the model's reading (log entry 51). -/
theorem entryWritesAndTimersTakeEffect : Obligations.EntryWritesAndTimersTakeEffect := by
  dsimp only [Obligations.EntryWritesAndTimersTakeEffect]
  refine ⟨?input, ?cancel, ?close, ?staged, ?check, ?deadline, ?ttl, ?idle⟩
  case input =>
    intro s coach slot word table known used owned
    exact congrArg Host.Outcome.next (entryWrite_input table known used owned word)
  case cancel =>
    intro s coach slot table known used owned
    exact congrArg Host.Outcome.next (entryWrite_ctrl table known used owned 1)
  case close =>
    intro s coach slot table known used owned
    exact congrArg Host.Outcome.next (entryWrite_ctrl table known used owned 2)
  case staged =>
    intro s slot ready uncopied room
    exact congrArg Host.Outcome.next (if_pos ⟨ready, uncopied, room⟩)
  case check =>
    intro s
    rw [exec_deadlineCheck, execDeadlineCheck]
  case deadline =>
    intro s slot timed past
    exact congrArg Host.Outcome.next (if_pos ⟨timed, past⟩)
  case ttl =>
    intro s slot cold used timed past
    exact congrArg Host.Outcome.next (if_pos ⟨cold, used, timed, past⟩)
  case idle =>
    intro s noStep noHold
    have idle : ¬ (s.gs.active = true ∨ s.log.hold = true) := not_or.mpr ⟨ne_true_of_eq_false noStep, ne_true_of_eq_false noHold⟩
    exact congrArg Host.Outcome.next (if_neg idle)

/-! ### Steps, units, completions and launches (R203, R229, R232, R236, R254, R256, R258-R260, R354, R360, R361) -/

/-- Settles O32: the condition of each row is its hypotheses, so its branch is the outcome. A unit whose first member finds its
credit sends it (`sendMembers_sent`), so the dispatch does not pass it over. -/
theorem stepsAreBuiltAndDispatched : Obligations.StepsAreBuiltAndDispatched := by
  dsimp only [Obligations.StepsAreBuiltAndDispatched]
  refine ⟨?cut, ?noCut, ?dispatch, ?quantum, ?completion, ?carriageEnd, ?launch, ?window⟩
  case cut =>
    intro s pages w cs noHold cut running rows
    simp only [exec_manifestReady, execManifestReady, noHold, Bool.false_eq_true, if_false, cut, running, if_true, if_neg rows]
  case noCut =>
    intro s pages w noHold noCut noStep table candidates rows
    have takes : ¬ (s.gs.active = true ∨ s.seqTable = false ∨ s.candidates = []) := by
      simp [noStep, table, candidates]
    simp only [exec_manifestReady, execManifestReady, noHold, Bool.false_eq_true, if_false, noCut, if_neg takes, if_neg rows]
  case dispatch =>
    intro s w k u g running notSafe free noHold unscanned unthrottled next unit graph
    have going : ¬ (s.gs.active = false ∨ s.safe = true ∨ s.gs.held = true ∨ s.log.hold = true ∨ s.scanned = true ∨
        s.pwr.holding = true) := by
      simp [running, notSafe, free, noHold, unscanned, unthrottled]
    simp only [exec_gsDispatchUnit, execGsDispatchUnit, if_neg going, next, unit, graph]
    refine ⟨fun void => ?void, fun notVoid nops => ?nops, fun notVoid notNops ready => ?sends⟩
    case void => rw [if_pos void]
    case nops => rw [if_neg (Bool.eq_false_iff.mp notVoid), if_pos nops]
    case sends =>
      have sent := sendMembers_sent unit ready
      rw [if_neg (Bool.eq_false_iff.mp notVoid), if_neg (Bool.eq_false_iff.mp notNops), if_neg (ne_false_of_eq_true sent)]
  case quantum =>
    intro s running strict due
    exact congrArg Host.Outcome.next (if_pos ⟨running, strict, due⟩)
  case completion =>
    intro s c r k u queue member unit step attempt out
    simp only [exec_carriageCompletionRx, execCarriageCompletionRx, queue, member, unit,
      if_pos (And.intro step (And.intro attempt out))]
  case carriageEnd =>
    intro s core k found
    simp only [exec_carriageEndRx, execCarriageEndRx, found]
  case launch =>
    intro s coach l planned waits due halted notSafe
    have launches : ¬ (l.started = true ∨ s.gcount < l.t ∨ (s.coachState coach ≠ Cs.halted ∧ s.coachState coach ≠ Cs.running) ∨
        s.safe = true) := by
      simp [waits, halted, notSafe, Nat.not_lt.mpr due]
    simp only [exec_launchTime, execLaunchTime, planned, if_neg launches]
  case window =>
    intro s coach l planned started periodic due empty
    have opens : ¬ (l.started = false ∨ l.p = 0 ∨ s.gcount < l.t + l.k * l.p) := by
      simp [started, periodic, Nat.not_lt.mpr due]
    simp only [exec_launchWindow, execLaunchWindow, planned, if_neg opens, empty, ne_eq, not_true, if_false]

end Sys2Proof.Machine
end

section
/-!
PROOFS. Serving (`09_serving.md`) and the coaches' registers (`13_coaches.md`): the writes that a coach may not make.
-/

namespace Sys2Proof.Machine

/-! ### Writes that are discarded (R222, R223, R333) -/

/-- A write into an entry that is FREE, another coach's, or past the table changes nothing but SEQ_WDENY (R223). -/
theorem entryWrite_denied {s : State} {coach slot : Nat}
    (stranger : 8192 ≤ slot ∨ s.seq slot Se.state = Ss.free ∨ s.seq slot Se.owner ≠ coach) (off : Nat) (l : List Byte) :
    s.entryWrite coach slot off l = s.count F.seqWdeny :=
  if_pos (.inr stranger)

/-- The state after a write of RWH fields that R333 refuses with status `st`. -/
def State.rwhRefused (s : State) (c st : Nat) : State :=
  ((s.set (coachB c) F.coachRefused 1).set (coachB c) F.coachRefuse st).bump (coachB c) F.coachWrRefused

theorem rwhWrite_not_halted {s : State} {c : Nat} (busy : s.coachState c ≠ Cs.halted) (off value : Nat) :
    s.rwhWrite c off value = (s.rwhRefused c Sc.notHalted, Sc.notHalted) :=
  if_pos busy

section
variable {s : State} (h : s.regs.wf = true) (c st : Nat)
include h

/-- REFUSED shares COACH_STATUS with REFUSE, which is written after it. -/
theorem rwhRefused_refused : (s.rwhRefused c st).get (coachB c) F.coachRefused = 1 := by
  have set₁ := State.wf_set s (coachB c) F.coachRefused 1 h
  have set₂ := State.wf_set _ (coachB c) F.coachRefuse st set₁
  calc (s.rwhRefused c st).get (coachB c) F.coachRefused
    _ = ((s.set (coachB c) F.coachRefused 1).set (coachB c) F.coachRefuse st).get (coachB c) F.coachRefused :=
        State.get_bump_word _ _ _ _ _ _ set₂ (by simp [F.coachRefused, F.coachWrRefused])
    _ = (s.set (coachB c) F.coachRefused 1).get (coachB c) F.coachRefused :=
        State.get_set_field _ _ _ _ _ _ set₁ (.inl (by decide))
    _ = 1 := State.get_set s _ _ 1 h

/-- REFUSE holds the status, cut to its eight bits. -/
theorem rwhRefused_refuse : (s.rwhRefused c st).get (coachB c) F.coachRefuse = st % 2 ^ 8 := by
  have set₁ := State.wf_set s (coachB c) F.coachRefused 1 h
  have set₂ := State.wf_set _ (coachB c) F.coachRefuse st set₁
  exact (State.get_bump_word _ _ _ _ _ _ set₂ (by simp [F.coachRefuse, F.coachWrRefused])).trans
    (State.get_set _ _ _ st set₁)

theorem rwhRefused_wrRefused :
    (s.rwhRefused c st).get (coachB c) F.coachWrRefused = (s.get (coachB c) F.coachWrRefused + 1) % 2 ^ 64 := by
  have set₁ := State.wf_set s (coachB c) F.coachRefused 1 h
  have set₂ := State.wf_set _ (coachB c) F.coachRefuse st set₁
  have kept : ((s.set (coachB c) F.coachRefused 1).set (coachB c) F.coachRefuse st).get (coachB c) F.coachWrRefused =
      s.get (coachB c) F.coachWrRefused :=
    (State.get_set_word _ _ _ _ _ _ set₁ (by simp [F.coachWrRefused, F.coachRefuse])).trans
      (State.get_set_word _ _ _ _ _ _ h (by simp [F.coachWrRefused, F.coachRefused]))
  exact (State.get_bump _ _ _ 1 set₂).trans (by rw [kept]; rfl)

/-- The words that the refusal writes: COACH_STATUS and WR_REFUSED of the coach. -/
theorem rwhRefused_writesOnly :
    WritesOnly (fun a => a = coachB c + F.coachRefused.off ∨ a = coachB c + F.coachWrRefused.off) s (s.rwhRefused c st) :=
  .bump _ _ 1 (.inr rfl) (.set _ F.coachRefuse st (.inl rfl) (.set _ _ 1 (.inl rfl) (.refl h)))

end

/-- A register of RWH fields, of whichever coach, is no coach's COACH_STATUS and no coach's WR_REFUSED. -/
theorem rwh_outside_refusal {off : Nat} (rwh : isRwh off = true) (d c : Nat) :
    ¬ (coachB d + off = coachB c + F.coachRefused.off ∨ coachB d + off = coachB c + F.coachWrRefused.off) := by
  simp only [isRwh, Bool.or_eq_true, beq_iff_eq] at rwh
  simp only [coachB, F.coachRefused, F.coachWrRefused]
  omega

/-- The RWH fields of every coach read as before the refusal. -/
theorem rwhRefused_keeps_rwh {s : State} (h : s.regs.wf = true) (c st d : Nat) {f : Fld} (rwh : isRwh f.off = true) :
    (s.rwhRefused c st).get (coachB d) f = s.get (coachB d) f :=
  congrArg (fun w : Word => bits w.toNat f.lo f.w) ((rwhRefused_writesOnly h c st).look _ (rwh_outside_refusal rwh d c))

/-- Settles O50: an entry write of a stranger is `entryWrite_denied`, and a register write while the coach is not HALTED leaves
`State.rwhRefused`, which writes COACH_STATUS and WR_REFUSED of that coach alone. -/
theorem writesOfStrangersAreDiscarded : Obligations.WritesOfStrangersAreDiscarded := by
  dsimp only [Obligations.WritesOfStrangersAreDiscarded]
  refine ⟨?entry, ?register⟩
  case entry =>
    intro s coach slot word _ stranger
    have denied := entryWrite_denied stranger
    exact ⟨congrArg Host.Outcome.next (denied 32 (leBytes 8 word)), congrArg Host.Outcome.next (denied 64 (leBytes 4 1)),
      congrArg Host.Outcome.next (denied 64 (leBytes 4 2))⟩
  case register =>
    intro s coach off value h known rwh busy
    have rwhFields : ∀ f ∈ [F.coachResSeq, F.coachResOve, F.coachResDisp, F.coachResRows, F.coachResPages, F.coachSeed,
        F.coachHport], isRwh f.off = true := by decide
    refine ⟨s.rwhRefused coach Sc.notHalted, ?next, rwhRefused_refused h _ _, rwhRefused_refuse h _ _,
      rwhRefused_wrRefused h _ _, fun d f listed => rwhRefused_keeps_rwh h _ _ d (rwhFields f listed)⟩
    rw [exec_coachRwhWrite, execCoachRwhWrite, if_pos ⟨known, rwh⟩, rwhWrite_not_halted busy]

end Sys2Proof.Machine
end

section
/-!
PROOFS. Graphs and scheduling (`10_graphs_and_scheduling.md`): the commands on graphs at the mailboxes, and a carriage at its task
dispatcher from its dispatch cart to its end. In a command's clause, `c` is the command as it stands in its mailbox, and `u` the
state in which the mailbox is taken.
-/

namespace Sys2Proof.Machine

/-! ### The graph commands (R248, R250, R252, R267, R431, R448) -/

/-- GRAPH_SHARE of a registered graph, on or off, is no BAD_ARG. -/
theorem share_legal {u : State} {gid on : Nat} (known : (u.graph gid).isSome = true) (flag : on ≤ 1) :
    ¬ ((u.graph gid).isNone = true ∨ 1 < on) :=
  not_or.mpr ⟨by simp [Option.isSome_iff_ne_none.mp known], Nat.not_lt.mpr flag⟩

/-- Settles O18: each command is served, so its own meaning runs on the state in which its mailbox is taken
(`takeCommand_served`), and the conditions of the row are its hypotheses, so its last branch is the outcome. -/
theorem graphCommandsComplete : Obligations.GraphCommandsComplete := by
  dsimp only [Obligations.GraphCommandsComplete]
  refine ⟨?register, ?update, ?unregister, ?share, ?unshare⟩
  case register =>
    intro s box id g img served image
    simp only [exec_graphRegister, execGraphRegister, takeCommand_served _ served, image]
  case update =>
    intro s box g served valid
    simp only [exec_graphUpdate, execGraphUpdate, takeCommand_served _ served, valid]
  case unregister =>
    intro s box g served graph caller unused
    simp only [exec_graphUnregister, execGraphUnregister, takeCommand_served _ served, graph, caller, unused, Bool.false_eq_true,
      if_false]
  case share =>
    intro s box served
    rw [exec_graphShare, execGraphShare, takeCommand_served _ served]
    generalize s.cmd box = c, s.taken box = u
    intro known on
    simp only [if_neg (share_legal known (Nat.le_of_eq on)), if_pos on]
  case unshare =>
    intro s box served
    rw [exec_graphShare, execGraphShare, takeCommand_served _ served]
    generalize s.cmd box = c, s.taken box = u
    intro known off unused
    have notOn : c.arg 2 1 ≠ 1 := fun on => Nat.zero_ne_one (off.symm.trans on)
    have flag : c.arg 2 1 ≤ 1 := off ▸ Nat.zero_le 1
    simp only [if_neg (share_legal known flag), if_neg notOn, unused, Bool.false_eq_true, if_false]

/-! ### A carriage at its task dispatcher (R261, R262, R269, R274) -/

/-- Carts that enter a receiver's buffer leave every graph as it is. -/
@[simp] theorem qAwait_graph (s : State) (k cargo g : Nat) : (s.qAwait k cargo).graph g = s.graph g := rfl

/-- Settles O34: the condition of each row is its hypotheses, so its branch is the outcome. The layer descriptor and the pin list
that a carriage is accepted with are the same before and after the dispatch cart enters its core's buffer (`qAwait_graph`). -/
theorem carriagesAreAcceptedIssuedAndRetired : Obligations.CarriagesAreAcceptedIssuedAndRetired := by
  dsimp only [Obligations.CarriagesAreAcceptedIssuedAndRetired]
  refine ⟨?accept, ?issue, ?retire, ?watchdog⟩
  case accept =>
    intro s core poisoned t rest queue cleared room noHold
    have accepts : ¬ ((s.core core).cleared = false ∨ 32 ≤ (s.core core).td.length ∨ s.log.hold = true) := by
      simp [cleared, Nat.not_le.mpr room, noHold]
    simp only [exec_tdDispatchRx, execTdDispatchRx, queue, if_neg accepts, List.length_cons, qAwait_graph]
  case issue =>
    intro s core idx found t held turn
    simp only [exec_carriageIssue, execCarriageIssue, held, if_neg (ne_false_of_eq_true turn)]
  case retire =>
    intro s core idx t held finished
    simp only [exec_carriageComplete, execCarriageComplete, held, if_neg (ne_false_of_eq_true finished)]
  case watchdog =>
    intro s core idx t held started expired
    simp only [exec_carriageWatchdog, execCarriageWatchdog, held, if_neg (not_or.mpr ⟨started, Nat.not_lt.mpr expired⟩)]

end Sys2Proof.Machine
end

section
/-!
PROOFS. The scratchpad and the DMA engine (`11_scratchpad_and_dma.md`): the bytes that four writers leave as they were, and the
descriptors, chunks, neighbour writes, scrubs and clears of a core.
-/

namespace Sys2Proof.Machine

/-! ### The bytes of four writers (R278, R279, R304, R423, R425, R531) -/

/-- A fine request that is held changes nothing, and one that enters its queue changes no byte that the writes then in the queue
do not store to. -/
theorem mcFineRequest_byte {s t : State} {req : FineReq} {found : MemFind} (h : s.hbm.bytes.wf = true)
    (run : exec (.mcFineRequest req found) s = .next t) {x : Nat}
    (outside : Untouched (s.hbm.fineQ ++ [(64 * (s.place (req.addr / 32 * 32)).1 + (s.place (req.addr / 32 * 32)).2, req, found)])
      (64 * (s.place (req.addr / 32 * 32)).1 + (s.place (req.addr / 32 * 32)).2) x) :
    Memory.byte t.hbm.bytes x = Memory.byte s.hbm.bytes x := by
  cases run
  dsimp only
  split
  case isTrue held => rfl
  case isFalse enters =>
    refine finePump_byte _ _ 8 _ ?canonical x ?untouched
    case canonical => exact h
    case untouched => exact outside

/-- Carts that leave a receiver's buffer leave the scratchpads as they are. -/
@[simp] theorem qLeave_spm (s : State) (k n : Nat) : (s.qLeave k n).spm = s.spm := rfl

/-- The waits, the counts and the credits around a neighbour's write are outside the scratchpads. -/
theorem nbrWriteRx_spm {s t : State} {core : Nat} {w : NbrCart} {rest : List NbrCart} (first : (s.core core).nbr = w :: rest)
    (run : exec (.nbrWriteRx core) s = .next t) :
    ∃ u : State, u.spm = s.spm ∧ t.spm = (u.spmWrite core w.coach w.off w.data).spm := by
  simp only [exec_nbrWriteRx, execNbrWriteRx, first] at run
  cases run
  exact ⟨(s.qAwait (Qk.neighbour w.src core) ((w :: rest).filter fun x => x.src == w.src).length).modCore core
    fun x => { x with nbr := rest }, rfl, by rw [nbrPump_spm, qLeave_spm, bump_spm]⟩

/-- A sideband transaction changes the mailboxes as its own meaning does, or not at all. -/
theorem sideband_mbox (s : State) (own : State → State) :
    (s.sideband own).mbox = s.mbox ∨ ∃ u : State, u.mbox = s.mbox ∧ s.sideband own = own u := by
  unfold State.sideband
  split
  case isTrue dark => exact .inl rfl
  case isFalse =>
    split
    case isTrue stand => exact .inl rfl
    case isFalse =>
      split
      case isTrue entering => exact .inr ⟨{ s with pwr := { s.pwr with wakePending := true } }, rfl, rfl⟩
      case isFalse => exact .inr ⟨s, rfl, rfl⟩

/-- A sideband mailbox write changes no byte outside the bytes that it brings. -/
theorem sbMailboxWrite_byte {s t : State} {off : Nat} {data : List Byte} {pecOk : Bool} (h : s.mbox.wf = true)
    (run : exec (.sbMailboxWrite off data pecOk) s = .next t) {x : Nat}
    (outside : x < 0x402000 + off ∨ 0x402000 + off + data.length ≤ x) : Memory.byte t.mbox x = Memory.byte s.mbox x := by
  cases run
  obtain same | ⟨u, same, acts⟩ := sideband_mbox s _
  · rw [same]
  · rw [acts, ← same]
    split
    case isTrue closed => rfl
    case isFalse =>
      split
      case isTrue pecError => rfl
      case isFalse =>
        split
        case isTrue lengthError => rfl
        case isFalse =>
          split
          case isTrue past => rfl
          case isFalse => exact writeBox_byte u _ data x (same ▸ h) outside

/-- Settles O49: a fine request stores by `finePump`, a neighbour's write by `spmWrite`, a sideband mailbox write by `writeBox`
and a served GET_INFO by its answer, and the bytes that each of these leaves are those named. -/
theorem storesReachOnlyTheirBytes : Obligations.StoresReachOnlyTheirBytes := by
  refine ⟨?fine, ?neighbour, ?sideband, ?answer⟩
  case fine =>
    intro s t req found ⟨_, hbm, _, _⟩ run p key x outside
    exact mcFineRequest_byte hbm run outside
  case neighbour =>
    intro s t core w rest ⟨_, _, spm, _⟩ first run x outside
    obtain ⟨u, before, after⟩ := nbrWriteRx_spm first run
    rw [after, ← before]
    exact spmWrite_byte u core w.coach w.off w.data (before ▸ spm) x outside
  case sideband =>
    intro s t off data pecOk ⟨_, _, _, mbox⟩ run x outside
    exact sbMailboxWrite_byte mbox run outside
  case answer =>
    intro s t box ⟨_, _, _, mbox⟩ served run x notOwn outside
    rw [exec_getInfo, execGetInfo, takeCommand_served _ served] at run
    cases run
    have taken : (s.taken box).mbox = s.mbox := taken_mbox s box
    rw [← taken]
    exact respondAs_byte (s.taken box) box _ _ _ _ _ x (taken ▸ mbox) notOwn outside

/-! ### Descriptors, chunks, neighbour writes, scrubs and clears (R278, R284, R286, R288-R290) -/

/-- A chunk that is answered OK makes no fault. -/
@[simp] theorem chunkFlt_ok (p : Nat) (t : TdItem) (d : Desc) (tile : Nat) : chunkFlt p t d Sc.ok tile = none := rfl

/-- The state in which a read chunk of core `p` has come: its tag is released, its carts have left their buffer, and its bytes
are counted (R284, R286). -/
def State.readTaken (s : State) (p tag : Nat) (data : List Byte) : State :=
  ((s.modCore p fun c => { c with tags := c.tags.filter fun x => x.1 != tag }).qLeave (Qk.response p)
    (cartsOf data.length)).bump (dmaB p) F.dmaBytesIn data.length

/-- The state in which a write chunk of `n` bytes of core `p` is answered: its tag is released, and its bytes are counted. -/
def State.writeTaken (s : State) (p tag n : Nat) : State :=
  (s.modCore p fun c => { c with tags := c.tags.filter fun x => x.1 != tag }).bump (dmaB p) F.dmaBytesOut n

section
variable {s : State} {core tag : Nat} {e : Nat × Tag} {data : List Byte}
  (found : (s.core core).tags.find? (·.1 == tag) = some e) (answer : e.2.answer = some (Sc.ok, data))
include found answer

/-- The bytes of a read chunk answered OK land, except a payload of an ended carriage (R290). -/
theorem dmaChunkDone_read (read : e.2.desc.op ≠ 1) (bytes : data ≠ []) :
    let d := e.2.desc
    let u := s.readTaken core tag data
    exec (.dmaChunkDone core tag) s = .next ((if d.op = 4 ∧ d.te < 4 ∧ (u.descItem core d).isNone = true then u
      else u.landChunk core d e.2.off data []).descDone core d) := by
  have isRead : (e.2.desc.op == 1) = false := beq_eq_false_iff_ne.mpr read
  have notPoison : Sc.ok ≠ Sc.poison := by decide
  simp only [exec_dmaChunkDone, execDmaChunkDone, found, answer, isRead, bytes, Bool.false_eq_true, if_false, false_or,
    if_neg notPoison, chunkFlt_ok, State.readTaken]
  split
  · rfl
  · rfl

/-- A write chunk answered OK lands nothing. -/
theorem dmaChunkDone_write (write : e.2.desc.op = 1) :
    exec (.dmaChunkDone core tag) s = .next ((s.writeTaken core tag e.2.len).descDone core e.2.desc) := by
  simp only [exec_dmaChunkDone, execDmaChunkDone, found, answer, write, beq_self_eq_true, if_true, true_or, chunkFlt_ok]
  split
  · rfl
  · rfl

end

/-- Settles O37: the conditions of each row are its hypotheses, so its branch is the outcome. A chunk answered OK ends as
`dmaChunkDone_read` and `dmaChunkDone_write` say, with no fault. That a forced scrub is held at its core for the port that works
next is the model's choice (log entry 92). -/
theorem dmaAndScratchpadTakeEffect : Obligations.DmaAndScratchpadTakeEffect := by
  refine ⟨?issue, ?read, ?write, ?neighbour, ?scrub, ?clear⟩
  case issue =>
    intro s x w1 w2 d rest queue free u
    have tagged : ¬ (d.op ≠ 2 ∧ d.op ≠ 3 ∧ 64 ≤ (s.core x.no).tags.length) := by
      rintro ⟨notTwo, notThree, full⟩
      exact free.elim notTwo fun h => h.elim notThree (Nat.not_lt.mpr full)
    refine ⟨fun ended => ?ended, fun i t held => ?held⟩
    case ended =>
      simp only [u] at ended
      simp only [exec_dmaDescriptorIssue, execDmaDescriptorIssue, queue, if_neg tagged, ended, u]
    case held =>
      simp only [u] at held
      simp only [exec_dmaDescriptorIssue, execDmaDescriptorIssue, queue, if_neg tagged, held, u]
  case read =>
    intro s core tag e data found answer read bytes d u v
    have ends := dmaChunkDone_read found answer read bytes
    have lands (used : ¬ (d.op = 4 ∧ d.te < 4 ∧ (u.descItem core d).isNone = true)) :
        exec (.dmaChunkDone core tag) s = .next v :=
      ends.trans (congrArg (fun w : State => Host.Outcome.next (w.descDone core d)) (if_neg used))
    refine ⟨fun i t held _ => ?held, fun ended other => ?ended, fun ended block expander => ?unused⟩
    case held => exact lands (by simp [held])
    case ended =>
      refine lands ?_
      rintro ⟨block, expander, _⟩
      exact other.elim (· block) (Nat.not_le.mpr expander)
    case unused =>
      have unused := And.intro block (And.intro expander (Option.isNone_iff_eq_none.mpr ended))
      exact ends.trans (congrArg (fun w : State => Host.Outcome.next (w.descDone core d)) (if_pos unused))
  case write =>
    intro s core tag e data found answer write u v
    have ends := dmaChunkDone_write found answer write
    exact ⟨fun _ _ _ _ => ends, fun _ => ends⟩
  case neighbour =>
    intro s core c rest queue k n u
    simp only [exec_nbrWriteRx, execNbrWriteRx, queue, u, k, n]
  case scrub =>
    intro s core bank errs known inside cleared
    have going : ¬ (144 ≤ core ∨ 32 ≤ bank ∨ (s.core core).cleared = false) := by
      simp [cleared, Nat.not_le.mpr known, Nat.not_le.mpr inside]
    simp only [exec_scrubRow, execScrubRow, exec_scrubForce, execScrubForce, if_neg going, and_self]
  case clear =>
    intro s core known uncleared
    have clears : ¬ (144 ≤ core ∨ (s.core core).cleared = true) := by
      simp [uncleared, Nat.not_le.mpr known]
    simp only [exec_spmClearDone, execSpmClearDone, if_neg clears]

end Sys2Proof.Machine
end

section
/-!
PROOFS. The memory system (`12_memory_system.md`): bulk, fine and add requests at the controllers, the patrol, mirrors, the pin
monitor and the walks of the translation tables.
-/

namespace Sys2Proof.Machine

/-! ### The fine queue of a pseudo-channel (R303, R304) -/

/-- An access that enters a fine queue is no bulk work. -/
theorem bulkWaits_of_fineQueued (s : State) (q : List (Nat × FineReq × MemFind)) (k m c : Nat) :
    (State.qPut { s with hbm := { s.hbm with fineQ := q } } k).bulkWaits m c = s.bulkWaits m c := rfl

/-- Where no bulk work waits, a pseudo-channel serves the oldest of its accesses at once. -/
theorem finePump_serves {s : State} {m c : Nat} (n : Nat) (queued : (s.hbm.fineQ.any fun e => e.1 == 64 * m + c) = true)
    (idle : s.bulkWaits m c = false) : s.finePump m c (n + 1) = (s.fineServe m c).finePump m c n := by
  have serves : ¬ ((s.hbm.fineQ.any fun e => e.1 == 64 * m + c) = false ∨
      (s.bulkWaits m c = true ∧ SMap.look 0 s.hbm.slots (64 * m + c) < 3)) := by
    simp [queued, idle]
  rw [State.finePump, if_neg serves]

/-- An access that a credit lets in joins the queue of its pseudo-channel. -/
theorem mcFineRequest_queues {s : State} {req : FineReq} {m c : Nat} (found : MemFind)
    (there : s.place (req.addr / 32 * 32) = (m, c)) (free : s.rangeHeld req.addr 1 = false)
    (space : (s.hbm.fineQ.countP fun e => e.1 == 64 * m + c) < 8) (credit : s.qRoom (fineQueue m) = true) :
    let fineQ := s.hbm.fineQ ++ [(64 * m + c, req, found)]
    exec (.mcFineRequest req found) s =
      .next ((State.qPut { s with hbm := { s.hbm with fineQ := fineQ } } (fineQueue m)).finePump m c 8) := by
  have enters : ¬ (s.rangeHeld req.addr 1 = true ∨ 8 ≤ (s.hbm.fineQ.countP fun e => e.1 == 64 * m + c) ∨
      s.qRoom (fineQueue m) = false) := by
    simp [free, credit, Nat.not_le.mpr space]
  simp only [exec_mcFineRequest, execMcFineRequest, there, if_neg enters]

/-! ### The rows of the memory system (R303-R316, R320, R332, R336) -/

/-- Settles O38: the conditions of each row are its hypotheses, so its branch is the outcome. A fine access enters its queue
(`mcFineRequest_queues`), and where no bulk work waits there it makes none wait (`bulkWaits_of_fineQueued`), so the oldest access
is served at once (`finePump_serves`). -/
theorem memoryRequestsAreServed : Obligations.MemoryRequestsAreServed := by
  refine ⟨?bulk, ?fine, ?add, ?patrol, ?sync, ?rebuild, ?interval, ?walk⟩
  case bulk =>
    intro s core tag found e named unanswered memory free k started put a u slots
    have unheld : ¬ (e.2.answer.isSome = true ∨ e.2.desc.aspace = 2 ∨
        (e.2.pieces.any fun x => s.rangeHeld x.1 x.2) = true) := by
      simp [unanswered, memory, free]
    have starts := ne_true_of_eq_false started
    refine ⟨fun write => ?write, fun read => ?read⟩
    case write =>
      simp only [exec_mcBulkRequest, execMcBulkRequest, named, if_neg unheld, if_neg starts, write, beq_self_eq_true, if_true,
        slots, put, u, a, k]
    case read =>
      have isRead : (e.2.desc.op == 1) = false := beq_eq_false_iff_ne.mpr read
      simp only [exec_mcBulkRequest, execMcBulkRequest, named, if_neg unheld, if_neg starts, isRead, Bool.false_eq_true, if_false,
        slots, put, u, a, k]
  case fine =>
    intro s req found free x key space credit fineQ u
    have queues := mcFineRequest_queues found rfl free space credit
    refine ⟨queues, fun idle => ?_⟩
    have queued : (u.hbm.fineQ.any fun e => e.1 == 64 * x.1 + x.2) = true := by
      simp [u, State.qPut, fineQ, key]
    exact queues.trans (congrArg Host.Outcome.next
      (finePump_serves 7 queued ((bulkWaits_of_fineQueued s fineQ _ _ _).trans idle)))
  case add =>
    intro s req found free
    simp only [exec_mcAddRequest, execMcAddRequest, free, Bool.false_eq_true, if_false]
  case patrol =>
    intro s mc pc addr found stack channel trained inService free n wrap b patrol corrected u l copy primary v
    have reads : ¬ (8 ≤ mc ∨ 64 ≤ pc ∨ s.trained mc = false ∨ s.get (mcB mc) F.mcSelfref = 1 ∨ s.stackHeld mc = true) := by
      simp [Nat.not_le.mpr stack, Nat.not_le.mpr channel, trained, inService, free]
    rw [exec_patrolLine, execPatrolLine, if_neg reads]
  case sync =>
    intro s region notBoot
    have noBoot : ¬ (region = 0 ∧ (s.syncDone region).rom = Rom.start ∧ (s.syncDone region).boot.warm = false ∧
        2 ≤ (s.syncDone region).get (regionB 0) F.regionMstate) :=
      fun ⟨zero, starting, _⟩ => notBoot.elim (· zero) (· starting)
    simp only [exec_mirrorSyncDone, execMirrorSyncDone, if_neg noBoot]
  case rebuild =>
    intro s l r rest oldest bad u
    simp only [exec_mirrorRebuild, execMirrorRebuild, oldest, decide_eq_true_eq, bad, u]
  case interval =>
    intro s n runs ended dp dt u p0 t0
    have ends : ¬ (s.chip F.pmInterval = 0 ∨ s.gcount < s.hbm.pmStart + s.chip F.pmInterval) :=
      not_or.mpr ⟨runs, Nat.not_lt.mpr ended⟩
    simp only [exec_pmIntervalEnd, execPmIntervalEnd, if_neg ends, setChip_hbm, n, dp, dt, u, p0, t0]
  case walk =>
    intro s block coach addr write present page u
    refine ⟨?poisoned, fun bad => ?badTable, fun good => ?fills⟩
    case poisoned =>
      simp only [exec_xlateWalkDone, execXlateWalkDone, if_neg present, true_or, if_true]
    case badTable =>
      simp only [page] at bad
      simp only [exec_xlateWalkDone, execXlateWalkDone, if_neg present, bad, or_true, if_true]
    case fills =>
      simp only [page] at good
      simp only [exec_xlateWalkDone, execXlateWalkDone, if_neg present, good, Bool.false_eq_true, or_self, if_false, page, u]

end Sys2Proof.Machine
end

section
/-!
PROOFS. Coaches (`13_coaches.md`): the commands of a coach's life, of its map and of its launch, the interrupts to hosts, and the
writes into its registers, with the service button and the loop-backs. In a command's clause, `c` is the command as it stands in
its mailbox, and `u` the state in which the mailbox is taken.
-/

namespace Sys2Proof.Machine

/-! ### The life of a coach (R326-R331, R345) -/

/-- A coach that is HALTED, RUNNING or DRAINING is neither VACANT nor FAULTED (R326). -/
theorem neither_vacant_nor_faulted {st : Nat} (live : st = Cs.halted ∨ st = Cs.running ∨ st = Cs.draining) :
    ¬ (st = Cs.vacant ∨ st = Cs.faulted) := by
  rcases live with rfl | rfl | rfl <;> decide

/-- Settles O15: each command is served (`takeCommand_served`), and the conditions of its row are its hypotheses, so its last
branch is the outcome. The states that a row turns away are not the coach's (`neither_vacant_nor_faulted`). -/
theorem coachCommandsComplete : Obligations.CoachCommandsComplete := by
  dsimp only [Obligations.CoachCommandsComplete]
  refine ⟨?create, ?destroy, ?destroyDone, ?start, ?haltHalted, ?haltLive, ?reset⟩
  case create =>
    intro s box n served vacant port free
    simp only [exec_coachCreate, execCoachCreate, takeCommand_served _ served, if_neg (not_not_intro vacant),
      if_neg (Nat.not_lt.mpr port), free]
  case destroy =>
    intro s box served
    rw [exec_coachDestroy, execCoachDestroy, takeCommand_served _ served]
    generalize s.cmd box = c, s.taken box = u
    intro halted unused
    have notVacant := (not_or.mp (neither_vacant_nor_faulted (.inl halted))).1
    simp only [if_neg notVacant, if_neg (not_not_intro halted), unused, Bool.false_eq_true, if_false]
  case destroyDone =>
    intro s coach q waits halted unused
    simp only [exec_coachDestroyDone, execCoachDestroyDone, waits, if_neg (not_not_intro halted), unused, Bool.false_eq_true,
      if_false]
  case start =>
    intro s box served
    rw [exec_coachStart, execCoachStart, takeCommand_served _ served]
    generalize s.cmd box = c, s.taken box = u
    intro startable notSafe
    have live := neither_vacant_nor_faulted (startable.imp_right .inl)
    have notDraining : u.coachState c.coach ≠ Cs.draining :=
      fun draining => absurd (draining ▸ startable) (by decide)
    simp only [if_neg live, notSafe, Bool.false_eq_true, if_false, if_neg notDraining]
  case haltHalted =>
    intro s box served
    rw [exec_coachHalt, execCoachHalt, takeCommand_served _ served]
    generalize s.cmd box = c, s.taken box = u
    intro halted
    simp only [if_neg (neither_vacant_nor_faulted (.inl halted)), if_pos halted]
  case haltLive =>
    intro s box served
    rw [exec_coachHalt, execCoachHalt, takeCommand_served _ served]
    generalize s.cmd box = c, s.taken box = u
    intro working
    have notHalted : u.coachState c.coach ≠ Cs.halted :=
      fun halted => absurd (halted ▸ working) (by decide)
    simp only [if_neg (neither_vacant_nor_faulted (.inr working)), if_neg notHalted]
  case reset =>
    intro s box served occupied
    simp only [exec_coachReset, execCoachReset, takeCommand_served _ served, if_neg occupied]

/-! ### The map and the launch time (R335, R336, R360) -/

/-- The caches drop what no table maps once an unmap waits for it, and every such unmap is answered (R336). -/
theorem dropUnmapped_of_waiting {s : State} (waits : (s.inprog.any fun q => q.op == 0x0107) = true) :
    let kept := s.xlate.caches.map fun e => (e.1, e.2.filter fun x => SMap.look 0 s.xlate.map x.1 != 0)
    let caches := kept.filter fun e => e.2 != []
    s.dropUnmapped = State.answerAll { s with xlate := { s.xlate with caches := caches } } 0x0107 (fun _ => true) Sc.ok := by
  have pending : (s.inprog.filter fun q => q.op == 0x0107) ≠ [] := by
    obtain ⟨q, listed, unmap⟩ := List.any_eq_true.mp waits
    exact List.ne_nil_of_mem (List.mem_filter.mpr ⟨listed, unmap⟩)
  exact if_neg pending

/-- Settles O16: each command is served (`takeCommand_served`), and the conditions of its row are its hypotheses, so its last
branch is the outcome. The end of an unmap is `dropUnmapped_of_waiting`. -/
theorem mappingCommandsComplete : Obligations.MappingCommandsComplete := by
  dsimp only [Obligations.MappingCommandsComplete]
  refine ⟨?map, ?unmap, ?launch, ?dropped⟩
  case map =>
    intro s box served legal fits
    simp only [exec_coachMap, execCoachMap, takeCommand_served _ served, legal, Bool.false_eq_true, if_false,
      if_neg (Nat.not_lt.mpr fits)]
  case unmap =>
    intro s box served
    rw [exec_coachUnmap, execCoachUnmap, takeCommand_served _ served]
    generalize s.cmd box = c, s.taken box = u
    intro start length nonempty inside mapped
    have legal : ¬ (c.arg 0 8 % 65536 ≠ 0 ∨ c.arg 8 8 % 65536 ≠ 0 ∨ c.arg 8 8 = 0 ∨ 2 ^ 48 < c.arg 0 8 + c.arg 8 8) := by
      simp only [start, length, nonempty, Nat.not_lt.mpr inside, ne_eq, not_true, or_self, not_false_eq_true]
    simp only [if_neg legal, mapped, Bool.false_eq_true, if_false]
  case launch =>
    intro s box served
    rw [exec_launchAt, execLaunchAt, takeCommand_served _ served]
    generalize s.cmd box = c, s.taken box = u
    intro halted notSafe ahead period synced room
    have legal : ¬ (c.arg 0 8 < u.gcount + 100000 ∨
        (c.arg 8 8 ≠ 0 ∧ (c.arg 8 8 < 10000 ∨ 1000000000 < c.arg 8 8))) := by omega
    have timed : ¬ (u.chip F.gcSyncRole = 2 ∧ u.chip F.gcStatusState ≠ 2) :=
      fun ⟨follower, unsynced⟩ => synced.elim (· follower) unsynced
    simp only [if_neg (not_not_intro halted), notSafe, Bool.false_eq_true, if_false, if_neg legal, if_neg timed,
      if_neg (Nat.not_le.mpr room)]
  case dropped =>
    intro s idle waits
    simp only [exec_translationCachesDropped, execTranslationCachesDropped, idle, Bool.false_eq_true, if_false,
      dropUnmapped_of_waiting waits]

/-! ### Interrupts to hosts (R341, R343, R344, R394) -/

/-- Settles O30: the conditions of each row are its hypotheses, so its branch is the outcome. That the events of the writes given
up are taken out of their vectors is the model's choice (log entry 102). -/
theorem interruptsAreSentAndResent : Obligations.InterruptsAreSentAndResent := by
  dsimp only [Obligations.InterruptsAreSentAndResent]
  refine ⟨?giveup, ?resend, ?coalesced, ?config⟩
  case giveup =>
    intro s port lost late down
    have ends : ¬ (SMap.look 0 s.link.hostLost port = 0 ∨ s.gcount + 1 < SMap.look 0 s.link.hostLost port + 1000000000 ∨
        s.linkState port = Ls.up) :=
      not_or.mpr ⟨lost, not_or.mpr ⟨Nat.not_lt.mpr late, down⟩⟩
    simp only [exec_hostWriteGiveup, execHostWriteGiveup, if_neg ends]
  case resend =>
    intro s tag o named late
    simp only [exec_interruptFrameResend, execInterruptFrameResend, named, if_neg (Nat.not_lt.mpr late)]
  case coalesced =>
    intro s vec
    rw [exec_interruptCoalTimeout, execInterruptCoalTimeout]
  case config =>
    intro s vec value known
    rw [exec_vcfgWrite, execVcfgWrite, if_pos known]

/-! ### The service button (R537, R538) -/

/-- The state that a release leaves, before what its length makes of it: no press is noted (R537). -/
def State.released (s : State) : State :=
  State.setChip { s with svc := { s.svc with pressedAt := none, holdTaken := false } } F.svcStatusButton 0

section
variable {s : State} {t : Nat} (pressed : s.svc.pressedAt = some t)
include pressed

/-- The release that follows a hold only ends the press. -/
theorem svcButtonRelease_after_hold (held : s.svc.holdTaken = true) : exec .svcButtonRelease s = .next s.released := by
  rw [exec_svcButtonRelease, execSvcButtonRelease, pressed]
  exact congrArg Host.Outcome.next (if_pos (.inl held))

/-- A release 50 ms to 1 s after its press toggles LOCATE. -/
theorem svcButtonRelease_toggles (unheld : s.svc.holdTaken = false) (on : s.released.buttonOn = true)
    (long : 50000000 ≤ s.gcount - t) (short : s.gcount - t ≤ 1000000000) :
    let v := 1 - s.released.chip F.svcCtrlLocate
    exec .svcButtonRelease s =
      .next (((s.released.setChip F.svcCtrlLocate v).count F.svcPresses).serviceNote (if v = 1 then 1 else 2) 1) := by
  have taken : ¬ (s.svc.holdTaken = true ∨ s.released.buttonOn = false) := by simp [unheld, on]
  have noHold : ¬ 3000000000 ≤ s.gcount - t := by omega
  rw [exec_svcButtonRelease, execSvcButtonRelease, pressed]
  exact congrArg Host.Outcome.next ((if_neg taken).trans ((if_neg noHold).trans (if_pos ⟨long, short⟩)))

/-- Three seconds of a press act as the hold. -/
theorem svcHold_acts (unheld : s.svc.holdTaken = false) (on : s.buttonOn = true) (late : t + 3000000000 ≤ s.gcount) :
    exec .svcHold s = .next s.holdActs := by
  have acts : ¬ (s.svc.holdTaken = true ∨ s.buttonOn = false ∨ s.gcount < t + 3000000000) := by
    simp [unheld, on, Nat.not_lt.mpr late]
  simp only [exec_svcHold, execSvcHold, pressed, if_neg acts]

end

/-! ### The button, the loop-backs and the register writes (R333, R348, R490-R492, R537, R542, R545, R546) -/

/-- Settles O47: the conditions of each row are its hypotheses, so its branch is the outcome; a release is
`svcButtonRelease_after_hold` or `svcButtonRelease_toggles`, and the hold is `svcHold_acts`. -/
theorem serviceAndRegisterWritesTakeEffect : Obligations.ServiceAndRegisterWritesTakeEffect := by
  dsimp only [Obligations.ServiceAndRegisterWritesTakeEffect]
  refine ⟨?press, ?afterHold, ?toggle, ?hold, ?portLoop, ?stackLoop, ?stackLoopEnd, ?mode, ?readClear, ?rwh, ?window⟩
  case press =>
    intro s on unpressed
    have noted : ¬ (s.buttonOn = false ∨ s.svc.pressedAt.isSome = true) := by simp [on, unpressed]
    rw [exec_svcButtonPress, execSvcButtonPress, if_neg noted]
  case afterHold => exact fun s t pressed held => svcButtonRelease_after_hold pressed held
  case toggle => exact fun s t pressed unheld on long short => svcButtonRelease_toggles pressed unheld on long short
  case hold => exact fun s t pressed unheld on late => svcHold_acts pressed unheld on late
  case portLoop =>
    intro s port depth known clocked
    rw [exec_lbEklWrite, execLbEklWrite, if_pos ⟨known, clocked⟩]
  case stackLoop =>
    intro s stack depth known clocked
    rw [exec_lbHbmWrite, execLbHbmWrite, if_pos ⟨known, clocked⟩]
  case stackLoopEnd =>
    intro s stack errs bits known ended
    rw [exec_lbHbmEnd, execLbHbmEnd, if_pos ⟨known, ended⟩]
  case mode =>
    intro s value clocked
    rw [exec_chipModeWrite, execChipModeWrite, exec_svcLocateWrite, execSvcLocateWrite, if_pos clocked, if_pos clocked]
    exact ⟨rfl, rfl⟩
  case readClear =>
    intro s addr clocked
    rw [exec_counterReadClear, execCounterReadClear, if_pos clocked]
  case rwh =>
    intro s coach off value known rwh
    rw [exec_coachRwhWrite, execCoachRwhWrite, if_pos ⟨known, rwh⟩]
  case window =>
    intro s admin coach addr words clocked aligned known
    have made : ¬ (s.clocked = false ∨ addr % 8 ≠ 0 ∨ 4096 ≤ coach) := by
      simp [clocked, aligned, Nat.not_le.mpr known]
    rw [exec_registerWrite, execRegisterWrite, if_neg made]

end Sys2Proof.Machine
end

section
/-!
PROOFS. Determinism (`14_determinism.md`): GCOUNT and the tick, the state after cold reset, and the rows of synchronisation,
routes, connectors, the drain, forwarding and the port switch.
-/

namespace Sys2Proof.Machine

/-! ### GCOUNT and the tick (R357) -/

/-- On an empty queue the clock ticks (the model's choice, log entry 2). -/
theorem step_of_pending_nil {s : State} (h : s.pending = []) : step s = .next (tick s) := by
  simp only [step, h]

/-- The answers to late DRAIN commands leave GCOUNT alone. -/
@[simp] theorem drainTimeouts_gcount (s : State) : s.drainTimeouts.gcount = s.gcount :=
  (State.drainTimeouts_upd (F := [.regs, .vecs, .mbox, .inprog, .link, .svc]) (Upd.refl s) (.of rfl)).keep .gcount rfl

/-- Where no DRAIN command is in progress, none is late. -/
theorem drainTimeouts_of_no_drain {s : State} (h : ∀ q ∈ s.inprog, q.op ≠ 0x0005) : s.drainTimeouts = s := by
  have noneLate : s.inprog.any s.drainLate = false :=
    List.any_eq_false.mpr fun q listed => by simp [State.drainLate, h q listed]
  exact if_neg fun ⟨_, late⟩ => Bool.false_ne_true (noneLate.symm.trans late)

/-- Outside the clock state RUN a tick changes nothing. -/
theorem tick_of_not_run {s : State} (h : s.chip F.clkStatusSrc ≠ 3) : tick s = s := if_neg h

/-- In RUN a tick advances GCOUNT and the mesh, and answers the DRAIN commands that are late then. -/
theorem tick_of_run {s : State} (h : s.chip F.clkStatusSrc = 3) :
    tick s = State.drainTimeouts { s with gcount := (s.gcount + 1) % 2 ^ 64, noc := s.noc.cycle } := if_pos h

/-- Settles O8: the changes by which a step reaches its next state keep GCOUNT below 2^64 (`Upd.gcount`), and in RUN the tick is
`tick_of_run`. -/
theorem gcountStaysA64BitCount : Obligations.GcountStaysA64BitCount := by
  refine ⟨fun s t bounded next => ?bound, fun s run => ?advance⟩
  case bound =>
    obtain ⟨u, _, reached, changes⟩ := step_touches s
    cases next.symm.trans reached
    exact changes.gcount bounded
  case advance => rw [tick_of_run run, drainTimeouts_gcount]

/-- Settles O2: an idle step is a tick (`step_of_pending_nil`), which is nothing outside RUN (`tick_of_not_run`), and in RUN the
advance alone where no DRAIN command is in progress. -/
theorem idleStepTicksTheClock : Obligations.IdleStepTicksTheClock := by
  refine fun s idle => ⟨fun stopped => ?stopped, fun run noDrain => ?run⟩
  case stopped => rw [step_of_pending_nil idle, tick_of_not_run stopped]
  case run =>
    rw [step_of_pending_nil idle, tick_of_run run]
    exact congrArg Host.Outcome.next (drainTimeouts_of_no_drain noDrain)

/-! ### The state after cold reset (R357, R440, R475) -/

/-- The words of a coach's block outside its vectors have the resets of the block's fields. -/
theorem resetNat_coachB {c off : Nat} (known : c < 4096) (inside : off < 0x1000) (noVector : off < 0x450 ∨ 0x490 ≤ off) :
    resetNat (coachB c + off) = resetOf fields.coach off := by
  have block : 0x1000000 ≤ coachB c + off ∧ coachB c + off < 0x2000000 := by
    unfold coachB
    omega
  have word : (coachB c + off) % 0x1000 = off := by
    unfold coachB
    omega
  have plain : ¬ (0x450 ≤ off ∧ off < 0x490) := by omega
  rw [resetNat, if_neg (by omega), if_neg (by omega), if_neg (by omega), if_neg (by omega), if_pos block]
  simp only [word, if_neg plain]

/-- Every coach is VACANT at reset (R475). -/
theorem reset_coachState {c : Nat} (known : c < 4096) : State.reset.coachState c = Cs.vacant := by
  have stateWord : resetNat (coachB c + F.coachState.off) = resetOf fields.coach F.coachState.off :=
    resetNat_coachB known (by decide) (.inl (by decide))
  calc State.reset.coachState c
      = bits (Word.ofNat (resetNat (coachB c + F.coachState.off))).toNat F.coachState.lo F.coachState.w := rfl
    _ = bits (Word.ofNat (resetOf fields.coach F.coachState.off)).toNat F.coachState.lo F.coachState.w := by rw [stateWord]
    _ = Cs.vacant := by decide

/-- Settles O3: the two registers of the chip are evaluated, every coach is `reset_coachState`, and the rest is the initial
value of its field; the empty queue and the running clock are the model's choice (log entry 12). -/
theorem resetState : Obligations.ResetState := by
  have rom : State.reset.rom = Rom.por := by decide +kernel
  have run : State.reset.chip F.clkStatusSrc = 3 := by decide +kernel
  exact ⟨rfl, rfl, rfl, rom, run, rfl, rfl, rfl, rfl, fun _ known => reset_coachState known⟩

/-! ### Synchronisation, routes, connectors, the drain and forwarding (R359, R371, R383-R397, R418) -/

/-- Settles O29: the conditions of each row are its hypotheses, so its branch is the outcome. What the parity failure takes down is
the model's choice (log entry 60). -/
theorem routesPresenceAndSyncTakeEffect : Obligations.RoutesPresenceAndSyncTakeEffect := by
  dsimp only [Obligations.RoutesPresenceAndSyncTakeEffect]
  refine ⟨?markLoss, ?holdoverEnd, ?syncWrite, ?routes, ?plug, ?unplug, ?steady, ?drained, ?forward, ?parity⟩
  case markLoss =>
    intro s locked late
    rw [exec_syncMarkLoss, execSyncMarkLoss, if_pos ⟨locked, late⟩]
  case holdoverEnd =>
    intro s holdover late
    rw [exec_syncHoldoverExpiry, execSyncHoldoverExpiry, if_pos ⟨holdover, late⟩]
  case syncWrite =>
    intro s value clocked
    rw [exec_gcSyncWrite, execGcSyncWrite, if_pos clocked]
  case routes =>
    intro s up map
    have acts : ¬ (s.mpUp = false ∨ s.chip F.mapValid = 0) := not_or.mpr ⟨ne_false_of_eq_true up, map⟩
    rw [exec_routeUpdate, execRouteUpdate, if_neg acts]
  case plug =>
    intro s oc known awake absent
    have changes : ¬ (4 ≤ oc ∨ s.awake = false ∨ bit (s.chip F.eklOpticPresent) oc = true) := by
      simp [Nat.not_le.mpr known, awake, absent]
    rw [exec_presenceChange, execPresenceChange, if_neg changes, if_pos rfl]
  case unplug =>
    intro s oc known awake present
    have changes : ¬ (4 ≤ oc ∨ s.awake = false ∨ bit (s.chip F.eklOpticPresent) oc = false) := by
      simp [Nat.not_le.mpr known, awake, present]
    rw [exec_presenceChange, execPresenceChange, if_neg changes, if_neg Bool.false_ne_true]
  case steady =>
    intro s oc known began late present awake powered
    have steady : ¬ (4 ≤ oc ∨ SMap.look 0 s.link.presentAt oc = 0 ∨
        s.gcount + 1 < SMap.look 0 s.link.presentAt oc + 100000000 ∨ bit (s.chip F.eklOpticPresent) oc = false ∨
        s.awake = false) := by
      simp [Nat.not_le.mpr known, began, Nat.not_lt.mpr late, present, awake]
    have on : ¬ bit s.pwr.railsGood 5 = false := ne_false_of_eq_true powered
    simp only [exec_presenceSteady, execPresenceSteady, if_neg steady, if_neg on]
  case drained =>
    intro s done
    rw [exec_drainComplete, execDrainComplete, if_neg (ne_false_of_eq_true done)]
  case forward =>
    intro s port m known away good map routed
    have foreign : ¬ (16 ≤ port ∨ m.dst = s.node) := not_or.mpr ⟨Nat.not_le.mpr known, away⟩
    simp only [exec_messageForward, execMessageForward, if_neg foreign, good, Bool.false_eq_true, if_false,
      if_pos (And.intro map routed)]
  case parity =>
    intro s
    rw [exec_portSwitchParityFailure, execPortSwitchParityFailure]

end Sys2Proof.Machine
end

section
/-!
PROOFS. What taking a mailbox and answering its command changes (R423-R428): the facts that the proofs about host commands
share.
-/

namespace Sys2Proof.Machine

/-! ### Reading after a mailbox is taken -/

/-- LOG_READ scans by LOG_STATE.HEAD and the log alone. -/
theorem logScan_congr {s t : State} (head : s.chip F.logStateHead = t.chip F.logStateHead) (log : s.log = t.log)
    (coach : Option Nat) (k : Nat) : s.logScan coach k = t.logScan coach k := by
  have names : s.recNames = t.recNames := by
    funext slot c
    rw [State.recNames, State.recNames, log]
  induction k with
  | zero => rfl
  | succ k ih =>
    funext n left l
    rw [State.logScan, State.logScan, head, log, names, ih]

@[simp] theorem taken_logRead (s : State) (box : Nat) (coach : Option Nat) (first count : Nat) :
    (s.taken box).logRead coach first count = s.logRead coach first count := by
  simp only [State.logRead, taken_chip, logScan_congr (taken_chip s box _) (taken_log s box)]

@[simp] theorem taken_node (s : State) (box : Nat) : (s.taken box).node = s.node := taken_chip s box _
@[simp] theorem taken_nCores (s : State) (box : Nat) : (s.taken box).nCores = s.nCores := taken_chip s box _
@[simp] theorem taken_mpLoad (s : State) (box : Nat) : (s.taken box).mpLoad = s.mpLoad := by
  simp only [State.mpLoad, taken_gcount]

@[simp] theorem taken_safe (s : State) (box : Nat) : (s.taken box).safe = s.safe := by
  simp only [State.safe, taken_chip]

@[simp] theorem taken_coach (s : State) (box c : Nat) : (s.taken box).coach c = s.coach c := by
  simp only [State.coach, taken_coaches]

/-! ### Answers -/

section
variable {s : State} {box : Nat}

theorem answered_taken (canonical : Canonical s) (coach status : Nat) (result : List Byte) (h : status < 256 := by decide) :
    Answered ((s.taken box).respond box coach status result) box status := by
  obtain ⟨_, _, _, mbox⟩ := canonical
  exact answered_respond _ _ _ _ _ (by rwa [taken_mbox]) h

theorem resultOf_taken (canonical : Canonical s) (coach status : Nat) {n : Nat} {result : List Byte} (whole : result.length = n)
    (fits : n ≤ 496) : ((s.taken box).respond box coach status result).resultOf box n = result := by
  obtain ⟨_, _, _, mbox⟩ := canonical
  exact resultOf_respond _ _ _ _ _ _ (by rwa [taken_mbox]) whole fits

end

/-- Taking a mailbox marks it as the one taken last. -/
theorem taken_upd (s : State) (box : Nat) : Upd [.lastCoach] s (s.taken box) :=
  .ite (.lastCoach _ (.refl s) rfl) (.refl s)

/-- What taking a mailbox and answering it may change. -/
abbrev answerParts : List Part := [.regs, .vecs, .mbox, .inprog, .lastCoach, .link, .svc]

theorem answered_upd (s : State) (box coach status : Nat) (result : List Byte) :
    Upd answerParts s ((s.taken box).respond box coach status result) :=
  State.respond_upd box coach status result ((taken_upd s box).mono rfl) rfl

/-- Where one command of an opcode is in progress and the MP is there, it alone is answered. -/
theorem answerAll_single {s : State} {op : Nat} {q : InProg} (only : s.inprog.filter (fun q => q.op == op) = [q])
    (up : s.chip F.mpDown ≠ 1) (status : Nat) (result : List Byte) :
    s.answerAll op (fun _ => true) status result = s.respond q.box q.coach status result := by
  simp only [State.answerAll, Bool.and_true, only, List.foldl_cons, List.foldl_nil, State.answer, if_neg up]

/-- An answer is read from the mailboxes and the commands in progress alone. -/
theorem Answered.congr {s t : State} {box status : Nat} (h : Answered s box status) (mbox : t.mbox = s.mbox)
    (inprog : t.inprog = s.inprog) : Answered t box status := by
  simpa only [Answered, State.owned, State.statusOf, State.inProgress, mbox, inprog] using h

/-- While the MP serves mailboxes it is not away. -/
theorem mpDown_ne_one_of_mpUp {s : State} (up : s.mpUp = true) : s.chip F.mpDown ≠ 1 := by
  simp only [State.mpUp, Bool.and_eq_true, beq_iff_eq] at up
  omega

end Sys2Proof.Machine
end

section
/-!
PROOFS. The link and the group topology (`15_enkuor_link_and_topology.md`): node ids, the collectives, flits, the events of a
port, and messages for VACANT coaches. In a command's clause, `c` is the command as it stands in its mailbox, and `u` the state
in which the mailbox is taken.
-/

namespace Sys2Proof.Machine

/-! ### Node ids (R380) -/

/-- The device ids of R380 are the numbers to 0x060F: a number's group is its quotient by 16, its position the two base-4 digits
below. -/
theorem deviceId_iff (d : Nat) : (∃ g x y, g ≤ 96 ∧ x < 4 ∧ y < 4 ∧ d = 16 * g + 4 * y + x) ↔ d ≤ 0x060F := by
  constructor
  · rintro ⟨g, x, y, hg, hx, hy, rfl⟩
    omega
  · intro h
    exact ⟨d / 16, d % 4, d / 4 % 4, by omega, by omega, by omega, by omega⟩

/-- The id of a host adapter as a sum: the fields of R380's `|` do not meet. -/
theorem adapterId_eq {d p : Nat} (hd : d ≤ 0x060F) (hp : p < 2) : 0x8000 ||| (d <<< 1) ||| p = 0x8000 + 2 * d + p := by
  have port : (0x4000 + d) <<< 1 ||| p = (0x4000 + d) <<< 1 + p := (Nat.shiftLeft_add_eq_or_of_lt (by omega) _).symm
  have device : 1 <<< 15 ||| d <<< 1 = 1 <<< 15 + d <<< 1 :=
    (Nat.shiftLeft_add_eq_or_of_lt (by rw [Nat.shiftLeft_eq]; omega) _).symm
  calc 0x8000 ||| (d <<< 1) ||| p
    _ = (0x4000 + d) <<< 1 ||| p := by
        rw [show 0x8000 = 1 <<< 15 from rfl, device, Nat.shiftLeft_eq, Nat.shiftLeft_eq, Nat.shiftLeft_eq]
        congr 1
        omega
    _ = 0x8000 + 2 * d + p := by rw [port, Nat.shiftLeft_eq]; omega

theorem validNode_iff (n : Nat) : validNode n = true ↔ n ≤ 0x060F ∨ (0x8000 ≤ n ∧ (n - 0x8000) / 2 ≤ 0x060F) := by
  simp only [validNode, Bool.or_eq_true, Bool.and_eq_true, decide_eq_true_eq]

/-- Settles O52: the device ids are the numbers to 0x060F (`deviceId_iff`), and an adapter's device and port are the quotient and
the rest by 2 of what is above 0x8000 (`adapterId_eq`). -/
theorem nodeIdsAreValidByR380 : Obligations.NodeIdsAreValidByR380 := by
  refine ⟨fun n => ?_, deviceId_iff⟩
  simp only [validNode_iff, deviceId_iff]
  refine or_congr Iff.rfl ⟨fun ⟨adapter, device⟩ => ?split, ?join⟩
  case split =>
    refine ⟨(n - 0x8000) / 2, (n - 0x8000) % 2, device, by omega, ?_⟩
    rw [adapterId_eq device (by omega)]
    omega
  case join =>
    rintro ⟨d, p, hd, hp, rfl⟩
    rw [adapterId_eq hd hp]
    omega

/-! ### The collectives (R389, R390, R392, R393) -/

/-- A context that a coach of its own names, and that has been opened, is no BAD_ARG. -/
theorem coll_legal {u : State} {x coach : Nat} (known : x < 64) (opened : (u.coll x).opened = true)
    (own : (u.coll x).coach = coach) : ¬ (64 ≤ x ∨ (u.coll x).opened = false ∨ (u.coll x).coach ≠ coach) :=
  not_or.mpr ⟨Nat.not_le.mpr known, not_or.mpr ⟨ne_false_of_eq_true opened, not_not_intro own⟩⟩

/-- Settles O22: each command is served (`takeCommand_served`), and the conditions of its row are its hypotheses, so its last
branch is the outcome; a message that arrives goes to its type's own meaning (`Arrives.arrive`). The order of the segments that came
early is log entry 25. -/
theorem collectiveCommandsComplete : Obligations.CollectiveCommandsComplete := by
  dsimp only [Obligations.CollectiveCommandsComplete]
  refine ⟨?collOpen, ?collRun, ?collClose, ?up, ?down, ?abort, ?timeout⟩
  case collOpen =>
    intro s box pick l x served
    rw [exec_collOpen, execCollOpen, takeCommand_served _ served]
    generalize s.cmd box = c, s.taken box = u
    intro members most rank root op ety lowVc highVc one count even gathered read clean distinct own free
    have legal : ¬ (c.arg 4 4 = 0 ∨ 1552 < c.arg 4 4 ∨ c.arg 4 4 ≤ c.arg 8 2 ∨ c.arg 4 4 ≤ c.arg 10 2 ∨ 2 < c.arg 12 1 ∨
        2 < c.arg 13 1 ∨ c.arg 14 1 < 3 ∨ 5 < c.arg 14 1 ∨ c.arg 16 4 = 0 ∨ 2 ^ 24 < c.arg 16 4 ∨ c.arg 24 8 % 2 = 1 ∨
        (c.arg 12 1 = 2 ∧ 2 ^ 32 < c.arg 4 4 * c.arg 16 4)) := by
      omega
    simp only [if_neg legal, read, clean, distinct, own, free, Bool.true_eq_false, Bool.false_eq_true, ne_eq, not_true, or_self,
      if_false]
  case collRun =>
    intro s box served
    rw [exec_collRun, execCollRun, takeCommand_served _ served]
    generalize s.cmd box = c, s.taken box = u
    intro known opened own idle
    simp only [if_neg (coll_legal known opened own), idle, Option.isSome_none, Bool.false_eq_true, if_false]
  case collClose =>
    intro s box served
    rw [exec_collClose, execCollClose, takeCommand_served _ served]
    generalize s.cmd box = c, s.taken box = u
    intro known opened own idle
    simp only [if_neg (coll_legal known opened own), idle, Option.isSome_none, Bool.false_eq_true, if_false]
  case up => exact fun s port m arrives => congrArg Host.Outcome.next (arrives.arrive _)
  case down => exact fun s port m arrives => congrArg Host.Outcome.next (arrives.arrive _)
  case abort => exact fun s port m arrives => congrArg Host.Outcome.next (arrives.arrive _)
  case timeout => exact fun s ctx known runs late => congrArg Host.Outcome.next (if_pos ⟨known, runs, late⟩)

/-! ### Flits (R358, R367-R369, R373, R375, R377-R379) -/

section
variable {s : State} {port : Nat} {flit : List Byte} {fec : FecFind} (hears : s.hears port = true)
include hears

/-- A flit that is discarded under R368 is dropped, whatever it claims to be. -/
theorem badFlit_dropped (bad : badFlit flit fec = true) :
    let v := (s.fecTaken port fec).dropFlit port
    exec (.dataFlit port flit fec) s = .next v ∧ exec (.idleFlit port flit fec) s = .next v ∧
      exec (.markFlit port flit fec) s = .next v := by
  have heard := ne_false_of_eq_true hears
  refine ⟨?data, ?idle, ?mark⟩
  case data => rw [exec_dataFlit, execDataFlit, if_neg heard, if_pos bad]
  case idle => rw [exec_idleFlit, execIdleFlit, if_neg heard, if_pos bad]
  case mark => rw [exec_markFlit, execMarkFlit, if_neg heard, if_pos bad]

variable (good : badFlit flit fec = false)
include good

/-- The header of a good data flit of an UP port is taken, and the distance of its SEQ to the last one decides over the rest. -/
theorem dataFlit_good (data : (FlitHdr.of flit).typ = 1) (up : (s.fecTaken port fec).linkState port = Ls.up) :
    let h := FlitHdr.of flit
    let t := (s.fecTaken port fec).takeHdr port h
    let d := (h.seq + 4096 - (t.port port).rxSeq) % 4096
    exec (.dataFlit port flit fec) s = .next
      (if d = 1 then (t.bump (portB port) F.portFlitsRx).modPort port fun q => q.accept h ((flit.drop 8).take 240)
        else if 2 ≤ d ∧ d < 2048 then t.modPort port fun q => { q with nak := true } else t) := by
  simp only [exec_dataFlit, execDataFlit, hears, good, data, up, Bool.true_eq_false, Bool.false_eq_true, if_false, ne_eq, not_true,
    or_self]

/-- A good mark of the expected partner is taken, and the link's state decides what it serves. -/
theorem markFlit_partner (typ : (FlitHdr.of flit).typ = 2) :
    let m := markIn flit
    let u := ((s.fecTaken port fec).takeHdr port (FlitHdr.of flit)).markTaken port m
    u.partnerOk port m.node m.port m.host = true →
    exec (.markFlit port flit fec) s = .next
      (if u.linkState port = Ls.miswired then u.train port
        else if u.linkState port = Ls.training then
          if (u.port port).marks ≠ 0 ∧ u.gcount ≤ (s.port port).markRx + 2000000 then u.linkUp port
          else u.modPort port fun q => { q with marks := 1 }
        else
          let df : Int := (u.gcount : Int) - m.txg
          u.syncMark port m.hops m.master ((df - m.diff).tdiv 2)) := by
  intro m u partner
  simp only [exec_markFlit, execMarkFlit, hears, good, typ, m, u, partner, Bool.true_eq_false, Bool.false_eq_true, if_false, ne_eq,
    not_true]
  rfl

/-- A mark of another partner makes an UP port MISWIRED. -/
theorem markFlit_stranger (typ : (FlitHdr.of flit).typ = 2) :
    let m := markIn flit
    let u := ((s.fecTaken port fec).takeHdr port (FlitHdr.of flit)).markTaken port m
    u.partnerOk port m.node m.port m.host = false → u.linkState port = Ls.up →
    exec (.markFlit port flit fec) s = .next ((u.portFault port 0x74 2 0 0 m.node).loseLink port Ls.miswired) := by
  intro m u stranger up
  have notMiswired : Ls.up ≠ Ls.miswired := by decide
  simp only [exec_markFlit, execMarkFlit, hears, good, typ, m, u, stranger, up, Bool.true_eq_false, Bool.false_eq_true, if_false,
    ne_eq, not_true, if_true, if_neg notMiswired]

end

/-- Settles O27: a flit that is heard is dropped (`badFlit_dropped`), or its header is taken and the distance of its SEQ decides
(`dataFlit_good`), or its mark serves what the link's state asks for (`markFlit_partner`, `markFlit_stranger`). That half of the
round trip rounds toward zero, and that a late mark of training starts the count anew, are log entry 56. -/
theorem flitsAreTaken : Obligations.FlitsAreTaken := by
  dsimp only [Obligations.FlitsAreTaken]
  refine ⟨?next, ?gap, ?behind, ?idle, ?trains, ?trainsAgain, ?syncs, ?stranger, ?bad⟩
  case next =>
    intro s port flit fec hears good data up next
    rw [dataFlit_good hears good data up, if_pos next]
  case gap =>
    intro s port flit fec hears good data up ahead near
    rw [dataFlit_good hears good data up, if_neg (by omega), if_pos ⟨ahead, near⟩]
  case behind =>
    intro s port flit fec hears good data up behind
    rw [dataFlit_good hears good data up, if_neg (by omega), if_neg (by omega)]
  case idle =>
    intro s port flit fec hears good idle
    simp only [exec_idleFlit, execIdleFlit, hears, good, idle, Bool.true_eq_false, Bool.false_eq_true, if_false, ne_eq, not_true]
  case trains =>
    intro s port flit fec hears good mark partner training
    have notMiswired : Ls.training ≠ Ls.miswired := by decide
    rw [markFlit_partner hears good mark partner, training, if_neg notMiswired, if_pos rfl]
  case trainsAgain =>
    intro s port flit fec hears good mark partner miswired
    rw [markFlit_partner hears good mark partner, if_pos miswired]
  case syncs =>
    intro s port flit fec hears good mark partner up
    have notMiswired : Ls.up ≠ Ls.miswired := by decide
    have notTraining : Ls.up ≠ Ls.training := by decide
    rw [markFlit_partner hears good mark partner, up, if_neg notMiswired, if_neg notTraining]
  case stranger => exact fun s port flit fec hears good mark stranger up => markFlit_stranger hears good mark stranger up
  case bad => exact fun s port flit fec hears bad => badFlit_dropped hears bad

/-! ### The events of a port (R365, R375-R378, R394-R398) -/

/-- Settles O28: the conditions of each row are its hypotheses, so its branch is the outcome. That the relock takes the count of
sends of every kept flit to 0 is log entry 24. -/
theorem portEventsTakeEffect : Obligations.PortEventsTakeEffect := by
  dsimp only [Obligations.PortEventsTakeEffect]
  refine ⟨?replay, ?frame, ?light, ?retry, ?noLock, ?lockLoss, ?relock, ?noRelock, ?noSignal, ?disable⟩
  case replay =>
    intro s port known up unacked late
    have replays : ¬ (16 ≤ port ∨ s.linkState port ≠ Ls.up ∨ (s.port port).replay = [] ∨ s.gcount < (s.port port).ackAt + 4000) := by
      simp [Nat.not_le.mpr known, up, unacked, Nat.not_lt.mpr late]
    rw [exec_replayTimeout, execReplayTimeout, if_neg replays]
  case frame => exact fun s due runs => congrArg Host.Outcome.next (if_pos ⟨due, runs⟩)
  case light => exact fun s port may => congrArg Host.Outcome.next (if_pos may)
  case retry =>
    intro s port may late
    have tries : ¬ (s.mayTrain port = false ∨ s.gcount < (s.port port).since + 100000000) :=
      not_or.mpr ⟨ne_false_of_eq_true may, Nat.not_lt.mpr late⟩
    simp only [exec_trainingRetry, execTrainingRetry, if_neg tries, if_true, Bool.false_eq_true, if_false, and_self]
  case noLock => exact fun s port known training late => congrArg Host.Outcome.next (if_pos ⟨known, training, late⟩)
  case lockLoss => exact fun s port lane known inside up => congrArg Host.Outcome.next (if_pos ⟨known, inside, up⟩)
  case relock => exact fun s port ack known retrains early => congrArg Host.Outcome.next (if_pos ⟨known, retrains, early⟩)
  case noRelock => exact fun s port known retrains late => congrArg Host.Outcome.next (if_pos ⟨known, retrains, late⟩)
  case noSignal => exact fun s port lane known inside live => congrArg Host.Outcome.next (if_pos ⟨known, inside, live⟩)
  case disable => exact fun s port value known => congrArg Host.Outcome.next (if_pos known)

/-! ### Messages for VACANT coaches (R220, R265, R266, R371, R389) -/

/-- A message between devices is whole and valid for this device, which takes messages, and names a coach that is VACANT here. -/
structure ForVacant (s : State) (p : Nat) (m : Msg) : Prop where
  port : p < 16
  dst : m.dst = s.node
  notFailed : s.rom ≠ Rom.failed
  notSafe : s.rom ≠ Rom.safe
  clocked : s.clocked = true
  unscanned : s.scanned = false
  whole : msgBad m true = false
  known : s.stray p m = false
  vacant : s.coachState m.coach = Cs.vacant

/-- It leaves the receive buffer, and its type's own meaning does not run. -/
theorem ForVacant.arrive {s : State} {p t : Nat} {m : Msg} (h : ForVacant s p m) (typ : m.mtype = t)
    (between : 0x20 ≤ t) (notMgmt : t ≠ 0x50) (own : State → State) : s.arrive p m t own = s.unbuffer p m := by
  obtain ⟨port, dst, notFailed, notSafe, clocked, unscanned, whole, known, vacant⟩ := h
  have heard : s.deaf p m t = false := by simp [State.deaf, port, typ, dst, notFailed, notSafe, clocked, unscanned]
  have coachless : s.coachless m = true := by simp [State.coachless, typ, between, notMgmt, vacant]
  simp [State.arrive, heard, known, whole, coachless]

/-- Settles O59: every row of a message between devices is `State.arrive` of its own meaning, which a VACANT coach stops
(`ForVacant.arrive`). -/
theorem messagesForVacantCoachesAreDiscarded : Obligations.MessagesForVacantCoachesAreDiscarded := by
  intro s port m known dst notFailed notSafe clocked unscanned whole wired vacant t
  have forVacant : ForVacant s port m := ⟨known, dst, notFailed, notSafe, clocked, unscanned, whole, wired, vacant⟩
  have discarded {n : Nat} (typ : m.mtype = n) (own : State → State) (between : 0x20 ≤ n := by decide)
      (notMgmt : n ≠ 0x50 := by decide) : Host.Outcome.next (s.arrive port m n own) = (.next t : Res) :=
    congrArg Host.Outcome.next (forVacant.arrive typ between notMgmt own)
  refine ⟨?drawbar, ?chainDone, ?replay, ?barCredit, ?cart, ?answer, ?up, ?down, ?abort⟩
  case drawbar => exact fun typ => discarded typ _
  case chainDone => exact fun typ => discarded typ _
  case replay => exact fun typ => discarded typ _
  case barCredit => exact fun typ => discarded typ _
  case cart => exact fun typ => ⟨discarded typ _, discarded typ _, fun _ => discarded typ _, discarded typ _⟩
  case answer => exact fun typ => ⟨discarded typ _, discarded typ _, discarded typ _, discarded typ _⟩
  case up => exact fun typ => discarded typ _
  case down => exact fun typ => discarded typ _
  case abort => exact fun typ => discarded typ _

end Sys2Proof.Machine
end

section
/-!
PROOFS. Silent errors, field tests and failure domains (`16_integrity_and_field_test.md`): audits and field tests, the commands on
cores and the quotes, and the safe state.
-/

namespace Sys2Proof.Machine

/-! ### Audits, field tests, recoveries (R405, R408, R410, R411, R415, R418, R500-R504) -/

/-- Settles O33: the conditions of each row are its hypotheses, so its branch is the outcome. The core tested first is the one
before which no other that may be tested fell due. That a SPARE core under test keeps SPARE is log entry 68, that a finding with
equal values voids its class is log entry 76, and the cause of a lost stack is a free value (log entries 3 and 66). -/
theorem auditsAndFieldTestsTakeEffect : Obligations.AuditsAndFieldTestsTakeEffect := by
  dsimp only [Obligations.AuditsAndFieldTestsTakeEffect]
  refine ⟨?audit, ?evaluated, ?due, ?start, ?defer, ?done, ?recovered, ?stack⟩
  case audit =>
    intro s running clocked unscanned late
    have triggers : ¬ (s.rom ≠ Rom.running ∨ s.clocked = false ∨ s.scanned = true ∨ s.gcount < s.ledger.lastAt + 1000000) := by
      simp [running, clocked, unscanned, Nat.not_lt.mpr late]
    rw [exec_ledgerAuditTimer, execLedgerAuditTimer, if_neg triggers]
  case evaluated =>
    intro s found running
    rw [exec_ledgerEvalDone, execLedgerEvalDone, if_neg (ne_false_of_eq_true running)]
  case due =>
    intro s core known enabled clocked untested inService late
    have falls : ¬ (144 ≤ core ∨ s.chip F.ftCtrlEn = 0 ∨ s.clocked = false ∨ (s.core core).due.isSome = true ∨
        (s.get (pcoreB core) F.pcoreState ≠ 1 ∧ s.get (pcoreB core) F.pcoreState ≠ 2) ∨
        s.gcount < (s.core core).lastTest + s.ftPeriod) := by
      rintro (past | off | stopped | waits | ⟨notSpare, notActive⟩ | early)
      · exact Nat.not_le.mpr known past
      · exact enabled off
      · exact Bool.false_ne_true (stopped.symm.trans clocked)
      · simp [untested] at waits
      · exact inService.elim notSpare notActive
      · exact Nat.not_lt.mpr late early
    rw [exec_ftDue, execFtDue, if_neg falls]
  case start =>
    intro s core known run idle testable first
    have noEarlier : ((List.range 144).any fun q => s.testable q &&
        decide (256 * (s.core q).due.getD 0 + q < 256 * (s.core core).due.getD 0 + core)) = false := by
      refine List.any_eq_false.mpr fun q listed => ?_
      simp only [Bool.and_eq_true, decide_eq_true_eq, not_and, Nat.not_lt]
      exact first q (List.mem_range.mp listed)
    have starts : ¬ (144 ≤ core ∨ s.testsRun = false ∨ s.chip F.ftStatusTesting ≠ 0xFF ∨ s.testable core = false ∨
        ((List.range 144).any fun q => s.testable q &&
          decide (256 * (s.core q).due.getD 0 + q < 256 * (s.core core).due.getD 0 + core)) = true) := by
      simp [Nat.not_le.mpr known, run, idle, testable, -List.any_eq_true, noEarlier]
    rw [exec_ftTestStart, execFtTestStart]
    exact congrArg Host.Outcome.next (if_neg starts)
  case defer =>
    intro s core t known due late active undeferred run
    have defers : ¬ (144 ≤ core ∨ s.gcount < t + 100000000 ∨ s.get (pcoreB core) F.pcoreState ≠ 2 ∨
        s.get (pcoreB core) F.pcoreDeferred = 1 ∨ s.testsRun = false) := by
      simp [Nat.not_le.mpr known, Nat.not_lt.mpr late, active, undeferred, run]
    simp only [exec_ftDefer, execFtDefer, due, if_neg defers]
  case done =>
    intro s core passed t tested testing late
    have ends : ¬ (s.chip F.ftStatusTesting ≠ core ∨ s.gcount < t + 1500000) :=
      not_or.mpr ⟨not_not_intro testing, Nat.not_lt.mpr late⟩
    simp only [exec_ftTestDone, execFtTestDone, tested, if_neg ends]
  case recovered =>
    intro s c r current
    simp only [exec_recoveryDone, execRecoveryDone, current]
  case stack =>
    intro s stack known trained
    have fails : ¬ (8 ≤ stack ∨ s.trained stack = false) := not_or.mpr ⟨Nat.not_le.mpr known, ne_false_of_eq_true trained⟩
    rw [exec_stackTrainingLoss, execStackTrainingLoss, if_neg fails]

/-! ### The commands on cores and the quotes (R405, R410, R450-R452) -/

/-- Settles O14: each command is served (`takeCommand_served`), and the conditions of its row are its hypotheses, so its last
branch is the outcome. -/
theorem coreAndQuoteCommandsComplete : Obligations.CoreAndQuoteCommandsComplete := by
  dsimp only [Obligations.CoreAndQuoteCommandsComplete]
  refine ⟨?withdraw, ?test, ?quote, ?signed⟩
  case withdraw =>
    intro s box q served
    rw [exec_coreWithdraw, execCoreWithdraw, takeCommand_served _ served]
    generalize s.cmd box = c, s.taken box = u
    intro known active spare
    simp only [if_neg (not_or.mpr ⟨Nat.not_le.mpr known, not_not_intro active⟩), spare]
  case test =>
    intro s box served
    rw [exec_coreTest, execCoreTest, takeCommand_served _ served]
    generalize s.cmd box = c, s.taken box = u
    intro known inService
    have legal : ¬ (144 ≤ c.arg 0 1 ∨
        (u.get (pcoreB (c.arg 0 1)) F.pcoreState ≠ 1 ∧ u.get (pcoreB (c.arg 0 1)) F.pcoreState ≠ 2)) := by omega
    simp only [if_neg legal]
  case quote =>
    intro s box served
    rw [exec_attestQuote, execAttestQuote, takeCommand_served _ served]
    generalize s.cmd box = c, s.taken box = u
    intro selected inside coach room
    have legal : ¬ (c.arg 32 4 = 0 ∨ 512 ≤ c.arg 32 4 ∨ (bit (c.arg 32 4) 8 = true ∧ u.coachState c.coach = Cs.vacant)) := by
      rintro (none | past | ⟨measured, vacant⟩)
      · exact Nat.ne_of_gt selected none
      · exact Nat.not_le.mpr inside past
      · exact coach measured vacant
    simp only [if_neg legal, if_neg (Nat.not_le.mpr room)]
  case signed =>
    intro s q r oldest up waits
    simp only [exec_quoteSigned, execQuoteSigned, oldest, up, Bool.true_eq_false, if_false, waits, if_true]

/-! ### The safe state (R406) -/

/-- Settles O55: the safe state is among the conditions that stop GS_DISPATCH_UNIT and LAUNCH_TIME, and the check that answers the
two commands NO_RESOURCE, whose answer leaves the coaches, the GS and the SB (`respond_coaches`, `respond_gs`, `respond_sb`). -/
theorem safeStateRefusesWork : Obligations.SafeStateRefusesWork := by
  dsimp only [Obligations.SafeStateRefusesWork]
  refine ⟨?dispatch, ?launchTime, ?start, ?launchAt⟩
  case dispatch => exact fun s w safe => congrArg Host.Outcome.next (if_pos (.inr (.inl safe)))
  case launchTime =>
    intro s coach safe
    rw [exec_launchTime, execLaunchTime]
    cases (s.coach coach).launch with
    | none => rfl
    | some l => exact congrArg Host.Outcome.next (if_pos (.inr (.inr (.inr safe))))
  case start =>
    intro s box canonical safe served occupied sound
    have safeTaken := (taken_safe s box).trans safe
    have legal := not_or.mpr ⟨occupied, sound⟩
    rw [exec_coachStart, execCoachStart, takeCommand_served _ served]
    simp only [if_neg legal, if_pos safeTaken]
    exact ⟨_, rfl, answered_taken canonical _ _ _, by simp, by simp, by simp⟩
  case launchAt =>
    intro s box canonical safe served halted
    have safeTaken := (taken_safe s box).trans safe
    rw [exec_launchAt, execLaunchAt, takeCommand_served _ served]
    simp only [if_neg (not_not_intro halted), if_pos safeTaken]
    exact ⟨_, rfl, answered_taken canonical _ _ _, by simp, by simp, by simp⟩

end Sys2Proof.Machine
end

section
/-!
PROOFS. Mailboxes and the firmware interface (`17_management_interface.md`): the commands that report, configure, stop and restart
the device, and the checks before a command's own meaning.
-/

namespace Sys2Proof.Machine

/-! ### The commands that report (R431, R449, R520) -/

theorem length_beBytes (n v : Nat) : (beBytes n v).length = n := by
  rw [beBytes, List.length_reverse, length_leBytes]

/-- Settles O11: each command is served (`takeCommand_served`), and taking a mailbox changes nothing that an answer reads
(`taken_chip`, `taken_logRead`). The answer's result reads back by `resultOf_taken`. -/
theorem informationCommandsAnswer : Obligations.InformationCommandsAnswer := by
  refine ⟨?info, ?identity, ?key, ?measurements, ?coachMeasurement, ?log⟩
  case info =>
    intro s box canonical served
    rw [exec_getInfo, execGetInfo, takeCommand_served _ served]
    simp only [taken_chip, taken_nCores, taken_node, taken_mpLoad]
    exact ⟨_, rfl, answered_taken canonical _ _ _, resultOf_taken canonical _ _ (length_packFields _ _) (by decide)⟩
  case identity =>
    intro s box canonical served kind
    rw [exec_idGet, execIdGet, takeCommand_served _ served]
    simp only [kind, taken_chip, taken_boot]
  case key =>
    intro s box canonical served kind
    rw [exec_idGet, execIdGet, takeCommand_served _ served]
    simp only [kind, taken_boot]
    exact ⟨_, rfl, answered_taken canonical _ _ _, resultOf_taken canonical _ _ (length_beBytes _ _) (by decide)⟩
  case measurements =>
    intro s box canonical served kind fits
    rw [exec_idGet, execIdGet, takeCommand_served _ served]
    simp only [kind, taken_boot]
    exact ⟨_, rfl, answered_taken canonical _ _ _, resultOf_taken canonical _ _ rfl fits⟩
  case coachMeasurement =>
    intro s box canonical served kind notSideband
    rw [exec_idGet, execIdGet, takeCommand_served _ served]
    simp only [kind, if_neg notSideband, taken_coach]
  case log =>
    intro s box canonical served one seven
    have legal : ¬ ((s.cmd box).arg 4 1 = 0 ∨ 7 < (s.cmd box).arg 4 1) := by omega
    rw [exec_logRead, execLogRead, takeCommand_served _ served]
    simp only [if_neg legal, taken_logRead]
    exact ⟨_, rfl, answered_taken canonical _ _ _, by simp, rfl⟩

/-! ### The configuration commands (R229, R379, R431, R448) -/

@[simp] theorem setNode_mbox (s : State) (node groups : Nat) : (s.setNode node groups).mbox = s.mbox := rfl
@[simp] theorem setNode_boot (s : State) (node groups : Nat) : (s.setNode node groups).boot = s.boot := rfl

@[simp] theorem extendM_m (s : State) (k : Nat) (d : List Byte) :
    (s.extendM k d).boot.m = modifyAt s.boot.m k fun m => sha256 (m ++ d) := rfl

section
variable {s : State} (h : s.regs.wf = true) (node groups : Nat)
include h

/-- EKL_NODE after a map is loaded: its five fields lie side by side in one word, so each keeps what was set. -/
theorem setNode_chip :
    (s.setNode node groups).chip F.eklNodeNode = node % 2 ^ 16 ∧ (s.setNode node groups).chip F.group = node / 16 % 2 ^ 7 ∧
      (s.setNode node groups).chip F.ngroups = groups % 2 ^ 7 ∧ (s.setNode node groups).chip F.mapValid = 1 := by
  have h₁ := State.wf_setChip s F.eklNodeNode node h
  have h₂ := State.wf_setChip _ F.group (node / 16) h₁
  have h₃ := State.wf_setChip _ F.eklNodeX (node % 4) h₂
  have h₄ := State.wf_setChip _ F.eklNodeY (node / 4 % 4) h₃
  have h₅ := State.wf_setChip _ F.ngroups groups h₄
  refine ⟨?node, ?group, ?groups, State.chip_setChip _ _ 1 h₅⟩
  case node =>
    exact (State.chip_setChip_ne _ _ _ _ h₅ rfl).trans <| (State.chip_setChip_ne _ _ _ _ h₄ rfl).trans <|
      (State.chip_setChip_ne _ _ _ _ h₃ rfl).trans <| (State.chip_setChip_ne _ _ _ _ h₂ rfl).trans <|
      (State.chip_setChip_ne _ _ _ _ h₁ rfl).trans (State.chip_setChip _ _ _ h)
  case group =>
    exact (State.chip_setChip_ne _ _ _ _ h₅ rfl).trans <| (State.chip_setChip_ne _ _ _ _ h₄ rfl).trans <|
      (State.chip_setChip_ne _ _ _ _ h₃ rfl).trans <| (State.chip_setChip_ne _ _ _ _ h₂ rfl).trans (State.chip_setChip _ _ _ h₁)
  case groups => exact (State.chip_setChip_ne _ _ _ _ h₅ rfl).trans (State.chip_setChip _ _ _ h₄)

/-- So they read after TOPO_SET's own work, whose ports have registers of their own (`State.setTopo_keeps`). -/
theorem setTopo_chip (hosts : Nat) :
    let t := s.setTopo node groups hosts
    t.chip F.eklNodeNode = node % 2 ^ 16 ∧ t.chip F.group = node / 16 % 2 ^ 7 ∧ t.chip F.ngroups = groups % 2 ^ 7 ∧
      t.chip F.mapValid = 1 := by
  have kept (f : Fld) (inside : f.off < 0x300000) : (s.setTopo node groups hosts).chip f = (s.setNode node groups).chip f :=
    (State.setTopo_keeps s node groups hosts f h inside).2.1
  intro t
  rw [kept F.eklNodeNode (by decide), kept F.group (by decide), kept F.ngroups (by decide), kept F.mapValid (by decide)]
  exact setNode_chip h node groups

end

/-- Settles O12: each command is served (`takeCommand_served`), and the conditions of its row are its hypotheses, so its last
branch is the outcome. What it has set reads back behind the answer (`respond_chip`, `respond_boot`), EKL_NODE by
`setTopo_chip`. -/
theorem configurationCommandsTakeEffect : Obligations.ConfigurationCommandsTakeEffect := by
  refine ⟨?roleNow, ?roleLater, ?cores, ?topo⟩
  case roleNow =>
    intro s box ⟨regs, _, _, mbox⟩ served legal idle
    have known := served.boxOk mbox
    rw [exec_setRole, execSetRole, takeCommand_served _ served]
    simp only [if_neg (Nat.not_lt.mpr legal), taken_gs, idle, Bool.false_eq_true, if_false]
    have set := State.wf_setChip (s.taken box) F.sbRole ((s.cmd box).arg 0 1) (by rwa [taken_regs])
    refine ⟨_, rfl, answered_respond _ _ _ _ _ (by rwa [setChip_mbox, taken_mbox]), ?_⟩
    rw [respond_chip _ _ _ _ _ _ set known, State.chip_setChip _ _ _ (by rwa [taken_regs])]
    exact Nat.mod_eq_of_lt (Nat.lt_of_le_of_lt legal (by decide))
  case roleLater =>
    intro s box ⟨_, _, _, mbox⟩ served legal running
    have owned : (s.taken box).owned (s.cmd box).box = true := by
      rw [State.owned, taken_mbox, cmd_box]
      exact served.owned mbox
    rw [exec_setRole, execSetRole, takeCommand_served _ served]
    simp only [if_neg (Nat.not_lt.mpr legal), taken_gs, running, if_true]
    have waits := inProgress_inProg
      { s.taken box with gs := { s.gs with roleNext := some ((s.cmd box).arg 0 1) } } (s.cmd box) [] owned
    rw [cmd_box, cmd_op served] at waits
    exact ⟨_, rfl, waits, rfl, taken_chip s box F.sbRole⟩
  case cores =>
    intro s box ⟨regs, _, _, mbox⟩ served size
    have known := served.boxOk mbox
    rw [exec_setCoreConfig, execSetCoreConfig, takeCommand_served _ served]
    have legal : ¬ ((s.cmd box).arg 0 1 ≠ 112 ∧ (s.cmd box).arg 0 1 ≠ 128) := by omega
    simp only [if_neg legal]
    refine ⟨_, rfl, answered_respond _ _ _ _ _ (by rwa [extendM_mbox, taken_mbox]), ?held, ?measured, ?inForce⟩
    case held => simp only [respond_boot, State.extendM]
    case measured => rw [respond_boot, extendM_m, taken_boot]
    case inForce =>
      rw [respond_chip _ _ _ _ _ _ (by rwa [extendM_regs, taken_regs]) known]
      exact taken_chip s box F.coreConfig
  case topo =>
    intro s box ⟨regs, _, _, mbox⟩ served one most inside
    have known := served.boxOk mbox
    have takenWf : (s.taken box).regs.wf = true := by rwa [taken_regs]
    rw [exec_topoSet, execTopoSet, takeCommand_served _ served]
    generalize s.cmd box = c at *
    have legal : ¬ (c.arg 2 1 = 0 ∨ 97 < c.arg 2 1 ∨ c.arg 2 1 ≤ c.arg 0 2 / 16) := by omega
    simp only [if_neg legal]
    generalize c.arg 0 2 = node, c.arg 2 1 = groups, c.arg 3 1 = hosts at *
    obtain ⟨wf, _, boot, mboxKept⟩ := State.setTopo_keeps (s.taken box) node groups hosts F.eklNodeNode takenWf (by decide)
    obtain ⟨nodeSet, groupSet, groupsSet, valid⟩ := setTopo_chip takenWf node groups hosts
    have answered (f : Fld) (hf) : (State.respond (((s.taken box).setTopo node groups hosts).extendM 3 c.digest) box c.coach
        Sc.ok).chip f = ((s.taken box).setTopo node groups hosts).chip f :=
      respond_chip _ _ _ _ _ f (by rwa [extendM_regs]) known hf
    refine ⟨_, rfl, answered_respond _ _ _ _ _ ?mbox, ?node, ?group, ?groups, (answered F.mapValid rfl).trans valid, ?boot⟩
    case mbox => rwa [extendM_mbox, mboxKept, setNode_mbox, taken_mbox]
    case node => exact ((answered F.eklNodeNode rfl).trans nodeSet).trans (Nat.mod_eq_of_lt (by omega))
    case group => exact ((answered F.group rfl).trans groupSet).trans (Nat.mod_eq_of_lt (by omega))
    case groups => exact ((answered F.ngroups rfl).trans groupsSet).trans (Nat.mod_eq_of_lt (by omega))
    case boot => rw [respond_boot, extendM_m, boot, setNode_boot, taken_boot]

/-! ### The commands that drain, stop and restart (R397, R431, R434, R467, R480, R482) -/

/-- Settles O13: each command is served (`takeCommand_served`), and the conditions of its row are its hypotheses, so its last
branch is the outcome. -/
theorem drainStandAndResetCommandsTakeEffect : Obligations.DrainStandAndResetCommandsTakeEffect := by
  dsimp only [Obligations.DrainStandAndResetCommandsTakeEffect]
  refine ⟨?undrain, ?drain, ?drainAgain, ?stand, ?shutdown, ?reset, ?handover⟩
  case undrain =>
    intro s box served
    rw [exec_drain, execDrain, takeCommand_served _ served]
    generalize s.cmd box = c, s.taken box = u
    intro off
    simp only [off, Nat.not_lt_zero, if_false, if_true]
  case drain =>
    intro s box served
    rw [exec_drain, execDrain, takeCommand_served _ served]
    generalize s.cmd box = c, s.taken box = u
    intro on fresh
    simp only [on, fresh, Nat.lt_irrefl, Nat.one_ne_zero, if_false, if_true]
  case drainAgain =>
    intro s box served
    rw [exec_drain, execDrain, takeCommand_served _ served]
    generalize s.cmd box = c, s.taken box = u
    intro on again
    simp only [on, again, Nat.lt_irrefl, Nat.one_ne_zero, if_false]
  case stand =>
    intro s box served idle unused
    simp only [exec_standEnter, execStandEnter, takeCommand_served _ served, State.standCheck, idle, unused, Bool.false_eq_true,
      if_false]
  case shutdown =>
    intro s box served idle unused
    simp only [exec_shutdown, execShutdown, takeCommand_served _ served, State.standCheck, idle, unused, Bool.false_eq_true,
      if_false]
  case reset =>
    intro s box served
    rw [exec_chipReset, execChipReset, takeCommand_served _ served]
  case handover =>
    intro s box served
    rw [exec_fwHandover, execFwHandover, takeCommand_served _ served]
    generalize s.cmd box = c, s.taken box = u
    intro aligned one most port
    have legal : ¬ (c.arg 0 8 % 4096 ≠ 0 ∨ c.arg 8 4 = 0 ∨ 4194304 < c.arg 8 4 ∨ 1 < c.arg 12 1) := by omega
    simp only [if_neg legal]

/-! ### The checks before a command's own meaning (R427-R431) -/

/-- Each row that takes a host command is `takeCommand` of its opcode and its own meaning (R427-R431). -/
theorem hostCommand_takes {i : Instr} {op box : Nat} (h : hostCommand i = some (op, box)) :
    ∃ own, ∀ s, exec i s = .next (takeCommand op box own s) := by
  cases i <;> cases h <;> exact ⟨_, fun _ => rfl⟩

/-- A check of R427 that fails answers UNSUPPORTED, DENIED, BAD_ARG or NOT_HALTED. -/
theorem cmdCheck_status {s : State} {c : Cmd} {st : Nat} (h : s.cmdCheck c = some st) :
    st ∈ [Sc.unsupported, Sc.denied, Sc.badArg, Sc.notHalted] := by
  have group {grp cs : Nat} (h : grpStatus grp cs = some st) : st = Sc.badArg := by
    unfold grpStatus at h
    grind
  unfold State.cmdCheck at h
  grind

/-- Settles O48: every row of a host command is `takeCommand` of its own meaning (`hostCommand_takes`), which does nothing, answers
BUSY or answers the failed check as `takeCommand_untaken`, `takeCommand_busy` and `takeCommand_refused` say. That any row answers
an opcode outside R431 is log entry 7, and that an untaken row changes nothing is log entry 1 (the model's choices). -/
theorem hostCommandsAreTakenAndChecked : Obligations.HostCommandsAreTakenAndChecked := by
  refine ⟨?untaken, ?busy, ?refused⟩
  case untaken =>
    intro i op box s host untaken
    obtain ⟨own, takes⟩ := hostCommand_takes host
    rw [takes, takeCommand_untaken own untaken]
  case busy =>
    intro i op box s ⟨_, _, _, mbox⟩ host taken full
    obtain ⟨own, takes⟩ := hostCommand_takes host
    rw [takes, takeCommand_busy own taken full]
    exact ⟨_, rfl, answered_respondAs _ _ _ _ _ _ _ (by simpa using mbox)⟩
  case refused =>
    intro i op box s st canonical host taken room notEntering fails
    obtain ⟨own, takes⟩ := hostCommand_takes host
    have oneByte : ∀ x ∈ [Sc.unsupported, Sc.denied, Sc.badArg, Sc.notHalted], x < 256 := by decide
    have known := oneByte st (cmdCheck_status fails)
    rw [takes, takeCommand_refused own taken room notEntering fails]
    refine ⟨_, rfl, answered_taken canonical _ _ _ known, fun p listed => (answered_upd s box _ st _).keep p ?_⟩
    revert p
    decide

/-- A command that is answered BAD_ARG alone changes no more than any answer does. -/
theorem badArg_answered {s : State} {i : Instr} {box : Nat} (canonical : Canonical s)
    (refused : exec i s = .next ((s.taken box).respond box (s.cmd box).coach Sc.badArg)) :
    ∃ t, exec i s = .next t ∧ Answered t box Sc.badArg ∧ ∀ p, p ∉ answerParts → p.same s t :=
  ⟨_, refused, answered_taken canonical _ _ _,
    fun p outside => (answered_upd s box _ Sc.badArg _).keep p (by simpa using outside)⟩

/-- Settles O56: each command is served (`takeCommand_served`) and its first check answers BAD_ARG, which changes no more than an
answer does (`badArg_answered`). That a FW_HANDOVER of length 0 is BAD_ARG is the model's choice (log entry 107). -/
theorem illegalArgumentsAreAnsweredBadArg : Obligations.IllegalArgumentsAreAnsweredBadArg := by
  intro s box i op canonical served c illegal
  refine badArg_answered canonical ?_
  obtain ⟨rfl, rfl, bad⟩ | ⟨rfl, rfl, bad⟩ | ⟨rfl, rfl, bad⟩ | ⟨rfl, rfl, bad⟩ | ⟨rfl, rfl, bad⟩ | ⟨rfl, rfl, bad⟩ |
    ⟨rfl, rfl, bad⟩ | ⟨rfl, rfl, bad⟩ | ⟨rfl, rfl, bad⟩ | ⟨rfl, rfl, bad⟩ | ⟨rfl, rfl, bad⟩ := illegal
  · rw [exec_setRole, execSetRole, takeCommand_served _ served, if_pos bad]
  · rw [exec_setCoreConfig, execSetCoreConfig, takeCommand_served _ served, if_pos bad]
  · have refused : c.arg 2 1 = 0 ∨ 97 < c.arg 2 1 ∨ c.arg 2 1 ≤ c.arg 0 2 / 16 := by omega
    rw [exec_topoSet, execTopoSet, takeCommand_served _ served, if_pos refused]
  · rw [exec_drain, execDrain, takeCommand_served _ served, if_pos bad]
  · rw [exec_coreWithdraw, execCoreWithdraw, takeCommand_served _ served, if_pos (.inl bad)]
  · rw [exec_coreTest, execCoreTest, takeCommand_served _ served, if_pos (.inl bad)]
  · rw [exec_logRead, execLogRead, takeCommand_served _ served, if_pos bad]
  · have refused : c.arg 0 8 % 4096 ≠ 0 ∨ c.arg 8 4 = 0 ∨ 4194304 < c.arg 8 4 ∨ 1 < c.arg 12 1 := by omega
    rw [exec_fwHandover, execFwHandover, takeCommand_served _ served, if_pos refused]
  · rw [exec_tableLoad, execTableLoad, takeCommand_served _ served, if_pos (.inl bad), State.fails, cmd_box]
  · rw [exec_tableRetire, execTableRetire, takeCommand_served _ served, if_pos (.inl bad), State.fails, cmd_box]
  · rw [exec_regionClear, execRegionClear, takeCommand_served _ served, if_pos (.inl bad)]

end Sys2Proof.Machine
end

section
/-!
PROOFS. Boot (`18_boot_and_security.md`): the steps of a boot, hand-overs, the MP's watchdog and the chip warm reset.
-/

namespace Sys2Proof.Machine

/-! ### The steps of a boot (R440-R448, R477, R478, R486-R488) -/

/-- Settles O39: the conditions of each row are its hypotheses, so its branch is the outcome. What M0 and M2 are extended with is
log entry 69, that frame 0 stands as REGION[0] log entry 66, and that SAFE at boot sets FT_STATUS.SAFE log entry 71. -/
theorem bootStepsTakeEffect : Obligations.BootStepsTakeEffect := by
  dsimp only [Obligations.BootStepsTakeEffect]
  refine ⟨?por, ?train, ?request, ?handback, ?timeout, ?loaded, ?verified, ?inSync⟩
  case por =>
    intro s por clocked unscanned noTest
    have starts : ¬ (s.rom ≠ Rom.por ∨ s.clocked = false ∨ s.scanned = true) := by simp [por, clocked, unscanned]
    rw [exec_bootPorDone, execBootPorDone, if_neg starts, if_neg (Bool.eq_false_iff.mp noTest)]
    rfl
  case train =>
    intro s train clocked unscanned untrained
    have trains : ¬ (s.rom ≠ Rom.train ∨ s.clocked = false ∨ s.scanned = true ∨ s.allTrained = true) := by
      simp [train, clocked, unscanned, untrained]
    rw [exec_hbmTrainDone, execHbmTrainDone, if_neg trains]
    rfl
  case request =>
    intro s request clocked unscanned late
    exact congrArg Host.Outcome.next (if_pos ⟨request, clocked, unscanned, late⟩)
  case handback =>
    intro s handback got clocked unscanned
    have ends : ¬ (s.rom ≠ Rom.handback ∨ s.bootGot = false ∨ s.clocked = false ∨ s.scanned = true) := by
      simp [handback, got, clocked, unscanned]
    simp only [exec_handbackDone, execHandbackDone, if_neg ends, List.filter_nil, List.any_nil, List.map_nil, Bool.false_eq_true,
      if_false]
  case timeout =>
    intro s off loading issued late
    have unanswered : ¬ (s.bootLoading = false ∨ (SMap.look (0, 0) s.boot.reads off).1 = 0 ∨
        s.gcount < (SMap.look (0, 0) s.boot.reads off).2 + 10000000) := by
      simp [loading, issued, Nat.not_lt.mpr late]
    rw [exec_bootReadTimeout, execBootReadTimeout]
    exact congrArg Host.Outcome.next (if_neg unanswered)
  case loaded =>
    intro s got load
    rw [exec_imageLoadDone, execImageLoadDone, if_neg (ne_false_of_eq_true got), if_pos load]
  case verified =>
    intro s place burnOk verify cold legal passes
    simp only [exec_imageVerifyDone, execImageVerifyDone, verify, passes, cold, legal, Bool.false_eq_true, if_true, if_false]
  case inSync =>
    intro s starts cold synced
    rw [exec_mirrorSyncDone, execMirrorSyncDone]
    exact congrArg Host.Outcome.next (if_pos ⟨rfl, starts, cold, synced⟩)

/-! ### Hand-overs, the MP's watchdog and the chip warm reset (R434-R437, R479-R481, R496, R513) -/

/-- Settles O40: the conditions of each row are its hypotheses, so its branch is the outcome. That the watchdog drops a pending
SET_ROLE and keeps the commands in progress for TIMEOUT is log entry 72; the causes of its records are free values (log entry 3). -/
theorem handoversAndWarmResetsTakeEffect : Obligations.HandoversAndWarmResetsTakeEffect := by
  dsimp only [Obligations.HandoversAndWarmResetsTakeEffect]
  refine ⟨?checkpoint, ?returns, ?returnsWarm, ?watchdog, ?absent, ?parity, ?pin, ?trigger, ?quiesced⟩
  case checkpoint =>
    intro s up handover first
    have checkpointed : ¬ (s.mpUp = false ∨ s.chip F.handover = 0 ∨ s.boot.phase ≠ 0) := by simp [up, handover, first]
    rw [exec_handoverCheckpointDone, execHandoverCheckpointDone, if_neg checkpointed]
  case returns =>
    intro s restoring
    rw [exec_firmwareRestoreDone, execFirmwareRestoreDone, if_pos restoring, if_pos rfl]
  case returnsWarm =>
    intro s notHandover starts warm
    rw [exec_firmwareRestoreDone, execFirmwareRestoreDone, if_neg notHandover, if_pos ⟨starts, warm, rfl⟩]
  case watchdog =>
    intro s running up clocked unscanned noHold first
    have fires : ¬ (s.rom ≠ Rom.running ∨ s.chip F.mpDown = 1 ∨ s.clocked = false ∨ s.scanned = true ∨ s.log.hold = true ∨
        s.boot.phase ≠ 0) := by
      simp [running, up, clocked, unscanned, noHold, first]
    rw [exec_mpWatchdog, execMpWatchdog, if_neg fires]
  case absent =>
    intro s running down late noHold clocked unscanned
    have resets : ¬ (s.rom ≠ Rom.running ∨ s.chip F.mpDown = 0 ∨ s.gcount < s.boot.mpDownAt + 250000000 ∨ s.log.hold = true ∨
        s.clocked = false ∨ s.scanned = true) := by
      simp [running, down, Nat.not_lt.mpr late, noHold, clocked, unscanned]
    rw [exec_mpAbsentLimit, execMpAbsentLimit, if_neg resets]
  case parity => exact fun s => rfl
  case pin => exact fun s awake => congrArg Host.Outcome.next (if_neg awake)
  case trigger =>
    intro s running noHold clocked unscanned cause
    have latches : ¬ (s.rom ≠ Rom.running ∨ s.log.hold = true ∨ s.clocked = false ∨ s.scanned = true) := by
      simp [running, noHold, clocked, unscanned]
    rw [State.warmTrigger, if_neg latches]
  case quiesced =>
    intro s hold running
    have clears : ¬ (s.log.hold = false ∨ s.rom ≠ Rom.running) := by simp [hold, running]
    rw [exec_warmResetQuiesced, execWarmResetQuiesced, if_neg clears]

end Sys2Proof.Machine
end

section
/-!
PROOFS. Clocks and power (`19_clocks_and_power.md`): STAND, the shutdown and its record, the supply and the throttle.
-/

namespace Sys2Proof.Machine

/-! ### Standing by, shutting down and waking (R467-R473, R482-R485) -/

/-- Settles O41: the conditions of each row are its hypotheses, so its branch is the outcome. That the entry into STAND is one
event, steps 5 to 8 together, is log entry 70. -/
theorem standAndShutdownTakeEffect : Obligations.StandAndShutdownTakeEffect := by
  dsimp only [Obligations.StandAndShutdownTakeEffect]
  refine ⟨?drained, ?waited, ?tested, ?wake⟩
  case drained =>
    intro s entering stand drained untested up
    have answers : ¬ (s.pwr.entry ≠ 1 ∨ s.chip F.pwrStatusState ≠ 1 ∨ s.chip F.drained = 0 ∨ s.chip F.ftStatusTesting ≠ 0xFF ∨
        s.mpUp = false) := by
      simp [entering, stand, drained, untested, up]
    rw [exec_standDrained, execStandDrained, if_neg answers]
  case waited =>
    intro s answered clocked noHold
    have enters : ¬ (s.pwr.entry ≠ 2 ∨ s.clocked = false ∨ s.log.hold = true) := by simp [answered, clocked, noHold]
    exact congrArg Host.Outcome.next (if_neg enters)
  case tested =>
    intro s results shutting drained untested up
    have ends : ¬ (s.chip F.pwrStatusState ≠ 2 ∨ s.chip F.drained = 0 ∨ s.chip F.ftStatusTesting ≠ 0xFF ∨ s.mpUp = false) := by
      simp [shutting, drained, untested, up]
    rw [exec_selftestDone, execSelftestDone, if_neg ends]
  case wake => exact fun s stand => congrArg Host.Outcome.next (if_pos stand)

/-! ### The result of SHUTDOWN (R482-R485) -/

/-- What becomes of the device once SHUTDOWN is answered: two last frames, self-refresh, lasers off, and the clock's source OFF (R482,
R483). -/
def State.frameAndDarken (s : State) : State :=
  ((List.range 8).foldl (fun (s : State) m => s.set (mcB m) F.mcSelfref 1)
    ((s.portFrame 0).portFrame 1)).lasersOff.setChip F.clkStatusSrc 0

theorem State.frameAndDarken_upd (s : State) : Upd [.regs, .link] s s.frameAndDarken := by
  have frames : Upd [.regs, .link] s ((s.portFrame 0).portFrame 1) :=
    State.portFrame_upd 1 (State.portFrame_upd 0 (.refl s) rfl) rfl
  have refreshed := Upd.foldl (List.range 8) frames fun t m ht => State.set_upd (mcB m) F.mcSelfref 1 ht rfl
  exact State.setChip_upd F.clkStatusSrc 0 (State.lasersOff_upd refreshed rfl) rfl

/-- A self-test record has 64 bytes (R484). -/
theorem length_selftestRecord (l : List Byte) : (selftestRecord l).length = 64 := by
  simp only [selftestRecord, List.length_append, length_leBytes, List.length_take, List.length_drop, length_padTo,
    List.length_replicate]
  omega

/-- The result of SHUTDOWN (R485): the record, the core configuration to come, and FWVER. -/
def State.shutdownResult (s : State) (results : List Byte) : List Byte :=
  selftestRecord results ++ [Byte.ofNat (if s.boot.nextCfg = 0 then s.nCores else s.boot.nextCfg), 0, 0, 0] ++
    leBytes 4 (s.chip F.fwVersion)

theorem State.length_shutdownResult (s : State) (results : List Byte) : (s.shutdownResult results).length = 72 := by
  rw [State.shutdownResult, List.length_append, List.length_append, length_selftestRecord, length_leBytes]
  rfl

/-- Where one SHUTDOWN is in progress, the end of the self-test answers it and takes the device down. -/
theorem selftestDone_answers {s : State} {q : InProg} (results : List Byte) (shutting : s.chip F.pwrStatusState = 2)
    (drained : s.chip F.drained ≠ 0) (untested : s.chip F.ftStatusTesting = 0xFF) (up : s.mpUp = true)
    (only : s.inprog.filter (fun q => q.op == 0x0007) = [q]) :
    let v := (s.respond q.box q.coach Sc.ok (s.shutdownResult results)).frameAndDarken
    exec (.selftestDone results) s =
      .next { v with pwr := { v.pwr with shut := true, railsGood := keptRails v.pwr.railsGood } } := by
  obtain ⟨_, _, tested, _⟩ := standAndShutdownTakeEffect
  have acts := tested s results shutting drained untested up
  dsimp only at acts
  rw [answerAll_single only (mpDown_ne_one_of_mpUp up)] at acts
  exact acts

/-- Settles O54: the one SHUTDOWN is answered with its result (`selftestDone_answers`), and what then takes the device down leaves
the mailboxes and the commands in progress (`State.frameAndDarken_upd`), so the answer still reads so. -/
theorem shutdownReturnsItsRecord : Obligations.ShutdownReturnsItsRecord := by
  intro s results q ⟨_, _, _, mbox⟩ shutting drained untested up only
  have acts := selftestDone_answers results shutting drained untested up only
  have kept := (s.respond q.box q.coach Sc.ok (s.shutdownResult results)).frameAndDarken_upd
  dsimp only at acts
  generalize (s.respond q.box q.coach Sc.ok (s.shutdownResult results)).frameAndDarken = v at acts kept
  have mboxKept : v.mbox = (s.respond q.box q.coach Sc.ok (s.shutdownResult results)).mbox := kept.keep .mbox rfl
  have inprogKept : v.inprog = (s.respond q.box q.coach Sc.ok (s.shutdownResult results)).inprog := kept.keep .inprog rfl
  have pwrKept : v.pwr = (s.respond q.box q.coach Sc.ok (s.shutdownResult results)).pwr := kept.keep .pwr rfl
  refine ⟨_, acts, ?answered, rfl, ?rails, ?result⟩
  case answered => exact (answered_respond s _ _ _ _ mbox).congr mboxKept inprogKept
  case rails => rw [pwrKept, respond_pwr]
  case result =>
    have result := resultOf_respond s q.box q.coach Sc.ok 72 _ mbox (s.length_shutdownResult results) (by decide)
    rw [State.resultOf, ← mboxKept] at result
    exact result

/-! ### Supply and heat (R461, R465, R466, R472-R474) -/

/-- Settles O43: the conditions of each row are its hypotheses, so its branch is the outcome. That THROTTLE_NS advances when a hold
ends, and by the duty in force then, is log entries 77 and 107. -/
theorem supplyAndHeatTakeEffect : Obligations.SupplyAndHeatTakeEffect := by
  dsimp only [Obligations.SupplyAndHeatTakeEffect]
  refine ⟨?undervolt, ?retained, ?brownout, ?sample, ?trip, ?throttle, ?window⟩
  case undervolt =>
    intro s mv low clocked
    rw [exec_vinUndervolt, execVinUndervolt, if_neg (not_or.mpr ⟨Nat.not_le.mpr low, ne_false_of_eq_true clocked⟩)]
  case retained =>
    intro s mv low stand
    rw [exec_vinBrownout, execVinBrownout, if_neg (Nat.not_le.mpr low), if_pos stand]
  case brownout =>
    intro s mv low awake
    rw [exec_vinBrownout, execVinBrownout, if_neg (Nat.not_le.mpr low), if_neg awake]
  case sample =>
    intro s tj v clocked
    rw [exec_thermSample, execThermSample, if_neg (ne_false_of_eq_true clocked)]
  case trip => exact fun s => rfl
  case throttle =>
    intro s tj watts clocked
    rw [exec_throttleEval, execThrottleEval, if_neg (ne_false_of_eq_true clocked)]
  case window =>
    intro s clocked
    have going := ne_false_of_eq_true clocked
    refine ⟨fun fresh => ?fresh, fun begun late => ?ends⟩
    case fresh =>
      rw [exec_throttleWindow, execThrottleWindow, if_neg going]
      exact congrArg Host.Outcome.next (if_pos fresh)
    case ends =>
      rw [exec_throttleWindow, execThrottleWindow, if_neg going]
      exact congrArg Host.Outcome.next ((if_neg (not_not_intro begun)).trans (if_pos late))

end Sys2Proof.Machine
end

section
/-!
PROOFS. Reset (`20_reset_bringup_and_test.md`): the state after cold reset meets the invariants, every step keeps the canonical form,
and no step takes back a burn of the fuses.
-/

namespace Sys2Proof.Machine

/-- Settles O4: the maps of the reset state are empty, so they are canonical, and its empty mesh owes no credit. -/
theorem resetIsCanonical : Obligations.ResetIsCanonical :=
  ⟨⟨rfl, rfl, rfl, rfl⟩, by decide, rfl, rfl, fun _ => ⟨rfl, rfl, rfl, Nat.zero_le _⟩⟩

/-- Settles O5: a step reaches the next state by changes that `Upd` allows, and each of them, a write or a removal, keeps the
canonical form (`Upd.canonical`). -/
theorem everyStepKeepsTheCanonicalForm : Obligations.EveryStepKeepsTheCanonicalForm := fun s t canonical next => by
  obtain ⟨u, _, reached, changes⟩ := step_touches s
  cases next.symm.trans reached
  exact changes.canonical canonical

/-- Settles O7: the changes of `Upd`, by which every step reaches the next state, only ever burn fuses (`Upd.fuses`). -/
theorem fusesOnlyBurn : Obligations.FusesOnlyBurn := fun s t next => by
  obtain ⟨u, _, reached, changes⟩ := step_touches s
  cases next.symm.trans reached
  obtain ⟨svn, cores, rows, keyHash, revoke, scanLock, serial, dkN, dkD, iosc⟩ := changes.fuses
  exact ⟨svn, cores, rows, keyHash, revoke, scanLock, serial, dkN, dkD, iosc⟩

end Sys2Proof.Machine
end

section
/-!
PROOFS. Pins and service (`23_pins_package_and_service.md`): the sideband.
-/

namespace Sys2Proof.Machine

/-! ### The sideband (R425, R468, R529-R533, R545) -/

/-- A transaction with VAON good, outside STAND and outside the wait after STAND_ENTER's answer, is served as its own meaning says. -/
theorem sideband_serves {s : State} (vaon : bit s.pwr.railsGood 3 = true) (awake : s.chip F.clkStatusSrc ≠ 4)
    (noWait : s.pwr.entry ≠ 2) (own : State → State) : s.sideband own = own s := by
  rw [State.sideband, if_neg (ne_false_of_eq_true vaon), if_neg awake, if_neg noWait]

/-- Settles O46: a transaction is served as its own meaning says (`sideband_serves`), whose conditions are the hypotheses of its
row. -/
theorem sidebandTakesEffect : Obligations.SidebandTakesEffect := by
  dsimp only [Obligations.SidebandTakesEffect]
  refine ⟨?quick, ?status, ?read, ?write, ?alert, fun s => rfl⟩
  case quick =>
    intro s vaon awake noWait
    rw [exec_sbQuickCommand, execSbQuickCommand, sideband_serves vaon awake noWait]
  case status =>
    intro s vaon awake noWait
    rw [exec_sbStatusRead, execSbStatusRead, sideband_serves vaon awake noWait]
    rfl
  case read =>
    intro s addr vaon run noWait aligned readable open_ outside
    have awake : s.chip F.clkStatusSrc ≠ 4 := by omega
    have runs : ¬ (s.chip F.clkStatusSrc ≠ 3 ∨ s.pwr.shut = true) := by simp [run, open_]
    have noMailbox : ¬ (0x402000 ≤ addr ∧ addr < 0x402400) := by omega
    rw [exec_sbRegisterRead, execSbRegisterRead, sideband_serves vaon awake noWait]
    simp only [if_neg (not_not_intro aligned), readable, Bool.true_eq_false, if_false, if_neg runs, if_neg noMailbox]
  case write =>
    intro s off data vaon run noWait open_ some_ short inside
    have awake : s.chip F.clkStatusSrc ≠ 4 := by omega
    have runs : ¬ (s.chip F.clkStatusSrc ≠ 3 ∨ s.pwr.shut = true) := by simp [run, open_]
    have length : ¬ (data = [] ∨ 30 < data.length) := not_or.mpr ⟨some_, Nat.not_lt.mpr short⟩
    rw [exec_sbMailboxWrite, execSbMailboxWrite, sideband_serves vaon awake noWait]
    simp only [if_neg runs, Bool.true_eq_false, if_false, if_neg length, if_neg (Nat.not_lt.mpr inside)]
  case alert =>
    intro s asserted awake vaon
    have answers : ¬ (s.svc.causes = 0 ∨ s.chip F.clkStatusSrc = 4 ∨ bit s.pwr.railsGood 3 = false) := by
      simp [asserted, awake, vaon]
    rw [exec_sbAlertResponse, execSbAlertResponse, if_neg answers]

end Sys2Proof.Machine
end
